-- ==== Sys2Proof/Word.lean ====
section
/-! DEFINITION. The machine's words: a byte, a 32-bit word, a 64-bit pair and a 96-bit lane mask (R2, R34, R55). -/

namespace Sys2Proof

/-- One byte of memory. -/
abbrev Byte := BitVec 8
/-- A scalar, a lane of a row, or an instruction word (R55, R193). -/
abbrev Word := BitVec 32
/-- A register pair, an address or a 64-bit control register (R2). -/
abbrev Dword := BitVec 64
/-- One bit per lane of a group, bit i for lane i (R34). -/
abbrev LaneMask := BitVec 96

end Sys2Proof
end

