-- ==== Sys2Proof/Syntax.lean ====
section
/-! DEFINITION. The instruction set: one constructor per row of spec/opcode_table.json. A word's first argument `w`
is its switch marker (bit 31, R188); the other arguments are the row's fields in the table's order, as the bits the
encoding gives them. A row without bits is a step of another agent of the device; its arguments name what it is about. -/

namespace Sys2Proof

/-- Every step the table lists. -/
inductive Instr where
  /-- CLAUSE_HEADER (R184): Opens a clause: waits until the selected counters are at most WLIM, then lets its 1 to 15 words execute in order. -/
  | clauseHeader (n : BitVec 4) (c : BitVec 3) (s : BitVec 4) (l : BitVec 5) (y : Bool)
  /-- PFX (R195): Memory prefix word that supplies order, scope, space and cache to the memory instruction that follows it. -/
  | pfx (w : Bool) (o : BitVec 3) (s : BitVec 3) (p : BitVec 3) (c : BitVec 3)
  /-- SADD (R206): sd := Wrap32(sa + sb). -/
  | sadd (w : Bool) (d : BitVec 6) (a : BitVec 6) (b : BitVec 6)
  /-- SSUB (R206): sd := Wrap32(sa - sb). -/
  | ssub (w : Bool) (d : BitVec 6) (a : BitVec 6) (b : BitVec 6)
  /-- SMUL (R206): sd := Wrap32(sa x sb). -/
  | smul (w : Bool) (d : BitVec 6) (a : BitVec 6) (b : BitVec 6)
  /-- SMULW_I32 (R206): Signed 32x32 product written as a 64-bit pair. -/
  | smulwI32 (w : Bool) (d : BitVec 6) (a : BitVec 6) (b : BitVec 6)
  /-- SMULW_N32 (R206): Natural 32x32 product written as a 64-bit pair. -/
  | smulwN32 (w : Bool) (d : BitVec 6) (a : BitVec 6) (b : BitVec 6)
  /-- SDIV_I32 (R207): Signed quotient, defined for zero and overflow divisors. -/
  | sdivI32 (w : Bool) (d : BitVec 6) (a : BitVec 6) (b : BitVec 6)
  /-- SDIV_N32 (R207): Natural quotient, all ones for a zero divisor. -/
  | sdivN32 (w : Bool) (d : BitVec 6) (a : BitVec 6) (b : BitVec 6)
  /-- SREM_I32 (R207): Signed remainder with the dividend's sign. -/
  | sremI32 (w : Bool) (d : BitVec 6) (a : BitVec 6) (b : BitVec 6)
  /-- SREM_N32 (R207): Natural remainder, the dividend for a zero divisor. -/
  | sremN32 (w : Bool) (d : BitVec 6) (a : BitVec 6) (b : BitVec 6)
  /-- SAND (R206): sd := sa AND sb. -/
  | sand (w : Bool) (d : BitVec 6) (a : BitVec 6) (b : BitVec 6)
  /-- SOR (R206): sd := sa OR sb. -/
  | sor (w : Bool) (d : BitVec 6) (a : BitVec 6) (b : BitVec 6)
  /-- SXOR (R206): sd := sa XOR sb. -/
  | sxor (w : Bool) (d : BitVec 6) (a : BitVec 6) (b : BitVec 6)
  /-- SANDN (R206): sd := sa AND NOT sb. -/
  | sandn (w : Bool) (d : BitVec 6) (a : BitVec 6) (b : BitVec 6)
  /-- SSHL (R207): 32-bit left shift by a register amount. -/
  | sshl (w : Bool) (d : BitVec 6) (a : BitVec 6) (b : BitVec 6)
  /-- SSHR (R207): 32-bit logical right shift by a register amount. -/
  | sshr (w : Bool) (d : BitVec 6) (a : BitVec 6) (b : BitVec 6)
  /-- SSRA (R207): 32-bit arithmetic right shift by a register amount. -/
  | ssra (w : Bool) (d : BitVec 6) (a : BitVec 6) (b : BitVec 6)
  /-- SMIN_I32 (R206): Signed minimum. -/
  | sminI32 (w : Bool) (d : BitVec 6) (a : BitVec 6) (b : BitVec 6)
  /-- SMIN_N32 (R206): Natural minimum. -/
  | sminN32 (w : Bool) (d : BitVec 6) (a : BitVec 6) (b : BitVec 6)
  /-- SMAX_I32 (R206): Signed maximum. -/
  | smaxI32 (w : Bool) (d : BitVec 6) (a : BitVec 6) (b : BitVec 6)
  /-- SMAX_N32 (R206): Natural maximum. -/
  | smaxN32 (w : Bool) (d : BitVec 6) (a : BitVec 6) (b : BitVec 6)
  /-- SADD_B64 (R206): 64-bit pair addition. -/
  | saddB64 (w : Bool) (d : BitVec 6) (a : BitVec 6) (b : BitVec 6)
  /-- SSUB_B64 (R206): 64-bit pair subtraction. -/
  | ssubB64 (w : Bool) (d : BitVec 6) (a : BitVec 6) (b : BitVec 6)
  /-- SMUL_B64 (R206): 64-bit pair multiplication, wrapped. -/
  | smulB64 (w : Bool) (d : BitVec 6) (a : BitVec 6) (b : BitVec 6)
  /-- SADDW_I32 (R206): Adds a sign-extended scalar to a 64-bit pair. -/
  | saddwI32 (w : Bool) (d : BitVec 6) (a : BitVec 6) (b : BitVec 6)
  /-- SADDW_N32 (R206): Adds a natural scalar to a 64-bit pair. -/
  | saddwN32 (w : Bool) (d : BitVec 6) (a : BitVec 6) (b : BitVec 6)
  /-- SSHL_B64 (R207): 64-bit left shift of a pair. -/
  | sshlB64 (w : Bool) (d : BitVec 6) (a : BitVec 6) (b : BitVec 6)
  /-- SSHR_B64 (R207): 64-bit logical right shift of a pair. -/
  | sshrB64 (w : Bool) (d : BitVec 6) (a : BitVec 6) (b : BitVec 6)
  /-- SSRA_B64 (R207): 64-bit arithmetic right shift of a pair. -/
  | ssraB64 (w : Bool) (d : BitVec 6) (a : BitVec 6) (b : BitVec 6)
  /-- SAND_B64 (R206): 64-bit AND of pairs. -/
  | sandB64 (w : Bool) (d : BitVec 6) (a : BitVec 6) (b : BitVec 6)
  /-- SOR_B64 (R206): 64-bit OR of pairs. -/
  | sorB64 (w : Bool) (d : BitVec 6) (a : BitVec 6) (b : BitVec 6)
  /-- SXOR_B64 (R206): 64-bit XOR of pairs. -/
  | sxorB64 (w : Bool) (d : BitVec 6) (a : BitVec 6) (b : BitVec 6)
  /-- SADDI (R209): Adds a sign-extended 12-bit immediate to a scalar. -/
  | saddi (w : Bool) (d : BitVec 6) (a : BitVec 6) (i : BitVec 12)
  /-- SADDI_B64 (R209): Adds a sign-extended 12-bit immediate to a pair. -/
  | saddiB64 (w : Bool) (d : BitVec 6) (a : BitVec 6) (i : BitVec 12)
  /-- SMOVL (R210): Loads a zero-extended 16-bit immediate. -/
  | smovl (w : Bool) (d : BitVec 6) (i : BitVec 16)
  /-- SMOVH (R210): Writes the high 16 bits of a scalar, keeping the low half. -/
  | smovh (w : Bool) (d : BitVec 6) (i : BitVec 16)
  /-- SMOVS (R210): Loads a sign-extended 16-bit immediate. -/
  | smovs (w : Bool) (d : BitVec 6) (i : BitVec 16)
  /-- SCMP_I32 (R212): Signed 32-bit compare writing 1 or 0. -/
  | scmpI32 (w : Bool) (c : BitVec 3) (d : BitVec 6) (a : BitVec 6) (b : BitVec 6)
  /-- SCMP_N32 (R212): Natural 32-bit compare writing 1 or 0. -/
  | scmpN32 (w : Bool) (c : BitVec 3) (d : BitVec 6) (a : BitVec 6) (b : BitVec 6)
  /-- SCMP_B64 (R212): Natural 64-bit pair compare writing 1 or 0. -/
  | scmpB64 (w : Bool) (c : BitVec 3) (d : BitVec 6) (a : BitVec 6) (b : BitVec 6)
  /-- SSEL (R213): Selects sa or sb by whether sd is nonzero. -/
  | ssel (w : Bool) (d : BitVec 6) (a : BitVec 6) (b : BitVec 6)
  /-- SSEL_B64 (R213): Selects a pair by whether the destination pair is nonzero. -/
  | sselB64 (w : Bool) (d : BitVec 6) (a : BitVec 6) (b : BitVec 6)
  /-- SSHLI (R214): 32-bit left shift by an immediate. -/
  | sshli (w : Bool) (d : BitVec 6) (a : BitVec 6) (n : BitVec 6)
  /-- SSHRI (R214): 32-bit logical right shift by an immediate. -/
  | sshri (w : Bool) (d : BitVec 6) (a : BitVec 6) (n : BitVec 6)
  /-- SSRAI (R214): 32-bit arithmetic right shift by an immediate. -/
  | ssrai (w : Bool) (d : BitVec 6) (a : BitVec 6) (n : BitVec 6)
  /-- SBFX_N32 (R215): Zero-extended bit-field extract. -/
  | sbfxN32 (w : Bool) (d : BitVec 6) (a : BitVec 6) (b : BitVec 6)
  /-- SBFX_I32 (R215): Sign-extended bit-field extract. -/
  | sbfxI32 (w : Bool) (d : BitVec 6) (a : BitVec 6) (b : BitVec 6)
  /-- SBFI (R215): Bit-field insert into sd. -/
  | sbfi (w : Bool) (d : BitVec 6) (a : BitVec 6) (b : BitVec 6)
  /-- SPOPC (R214): Counts the 1 bits of a scalar. -/
  | spopc (w : Bool) (d : BitVec 6) (a : BitVec 6)
  /-- SCLZ (R214): Counts leading zeros of a scalar. -/
  | sclz (w : Bool) (d : BitVec 6) (a : BitVec 6)
  /-- SCTZ (R214): Counts trailing zeros of a scalar. -/
  | sctz (w : Bool) (d : BitVec 6) (a : BitVec 6)
  /-- SBREV (R214): Reverses the bits of a scalar. -/
  | sbrev (w : Bool) (d : BitVec 6) (a : BitVec 6)
  /-- SSHLI_B64 (R214): 64-bit left shift of a pair by an immediate. -/
  | sshliB64 (w : Bool) (d : BitVec 6) (a : BitVec 6) (n : BitVec 6)
  /-- SSHRI_B64 (R214): 64-bit logical right shift of a pair by an immediate. -/
  | sshriB64 (w : Bool) (d : BitVec 6) (a : BitVec 6) (n : BitVec 6)
  /-- SSRAI_B64 (R214): 64-bit arithmetic right shift of a pair by an immediate. -/
  | ssraiB64 (w : Bool) (d : BitVec 6) (a : BitVec 6) (n : BitVec 6)
  /-- SPOPC_B64 (R214): Counts the 1 bits of a pair. -/
  | spopcB64 (w : Bool) (d : BitVec 6) (a : BitVec 6)
  /-- SCLZ_B64 (R214): Counts leading zeros of a pair. -/
  | sclzB64 (w : Bool) (d : BitVec 6) (a : BitVec 6)
  /-- SCTZ_B64 (R214): Counts trailing zeros of a pair. -/
  | sctzB64 (w : Bool) (d : BitVec 6) (a : BitVec 6)
  /-- BR (R218): Unconditional relative branch of the whole path. -/
  | br (w : Bool) (o : BitVec 20)
  /-- BR_ANY (R218): Branches the whole path when any active lane has the predicate set. -/
  | brAny (w : Bool) (p : BitVec 3) (o : BitVec 20)
  /-- BR_Z (R218): Branches when scalar s0-s7 is zero. -/
  | brZ (w : Bool) (s : BitVec 3) (o : BitVec 20)
  /-- BR_NZ (R218): Branches when scalar s0-s7 is nonzero. -/
  | brNz (w : Bool) (s : BitVec 3) (o : BitVec 20)
  /-- BRV (R39): Vector branch on a predicate, splitting the path into taken and not-taken paths. -/
  | brv (w : Bool) (p : BitVec 3) (o : BitVec 20)
  /-- BRV_N (R219): Vector branch on the negated predicate, splitting as brv does. -/
  | brvN (w : Bool) (p : BitVec 3) (o : BitVec 20)
  /-- CALL (R221): Pushes the return address and branches relatively. -/
  | call (w : Bool) (o : BitVec 20)
  /-- RET (R221): Pops the call stack and continues at the return address. -/
  | ret (w : Bool)
  /-- JT (R222): Jumps through the function table entry named by a scalar. -/
  | jt (w : Bool) (a : BitVec 6)
  /-- JT_CALL (R221): Calls through the function table, pushing a return address. -/
  | jtCall (w : Bool) (a : BitVec 6)
  /-- JR (R221): Jumps to a raw address in pinned text. -/
  | jr (w : Bool) (a : BitVec 6)
  /-- JR_CALL (R221): Calls a raw address in pinned text. -/
  | jrCall (w : Bool) (a : BitVec 6)
  /-- REJOIN (R40): Path waits at a join label until its split record closes, then paths merge. -/
  | rejoin (w : Bool) (o : BitVec 20)
  /-- EQP (R237): Equivalence point: marks passage and holds the group when a migration to the other kind is wanted. -/
  | eqp (w : Bool) (n : BitVec 16)
  /-- PPUSH (R42): Pushes the mask and ANDs it with a predicate. -/
  | ppush (w : Bool) (a : BitVec 6)
  /-- PPUSH_N (R223): Pushes the mask and ANDs it with the negated predicate. -/
  | ppushN (w : Bool) (a : BitVec 6)
  /-- PINV (R42): Sets the mask to the stack top AND NOT the mask. -/
  | pinv (w : Bool)
  /-- PPOP (R42): Restores the mask from the stack top within the domain and pops it. -/
  | ppop (w : Bool)
  /-- PAND (R224): Predicate AND. -/
  | pand (w : Bool) (d : BitVec 6) (a : BitVec 6) (b : BitVec 6)
  /-- POR (R224): Predicate OR. -/
  | por (w : Bool) (d : BitVec 6) (a : BitVec 6) (b : BitVec 6)
  /-- PXOR (R224): Predicate XOR. -/
  | pxor (w : Bool) (d : BitVec 6) (a : BitVec 6) (b : BitVec 6)
  /-- PANDN (R224): Predicate AND NOT. -/
  | pandn (w : Bool) (d : BitVec 6) (a : BitVec 6) (b : BitVec 6)
  /-- PNOT (R224): Predicate NOT. -/
  | pnot (w : Bool) (d : BitVec 6) (a : BitVec 6)
  /-- PELECT (R224): Sets a predicate to the lowest active lane. -/
  | pelect (w : Bool) (d : BitVec 6)
  /-- PLD (R224): Loads a predicate from three scalars. -/
  | pld (w : Bool) (d : BitVec 6) (a : BitVec 6)
  /-- PST (R224): Stores a predicate into three scalars. -/
  | pst (w : Bool) (d : BitVec 6) (a : BitVec 6)
  /-- PCNT (R224): Counts the set bits of a predicate. -/
  | pcnt (w : Bool) (d : BitVec 6) (a : BitVec 6)
  /-- BAR_SYNC (R225): Team barrier: releases at team scope, arrives, and waits for the phase to complete. -/
  | barSync (w : Bool) (i : BitVec 6)
  /-- WAIT (R226): Waits on one to four conditions, any-of or all-of, with a time-out, writing a status. -/
  | wait (w : Bool) (e : Bool) (n : BitVec 2) (d : BitVec 6) (a : BitVec 6) (b : BitVec 6)
  /-- WAITCNT (R229): Waits until the selected counters are at most a limit. -/
  | waitcnt (w : Bool) (s : BitVec 4) (l : BitVec 6)
  /-- EXIT (R231): Ends the path; the last path ends the group, unmapping its names. -/
  | exit (w : Bool)
  /-- TRAP (R232): Raises stopping trap 0x40 + n. -/
  | trap (w : Bool) (n : BitVec 6)
  /-- BRK (R232): Path stop when debugging is enabled, else no effect. -/
  | brk (w : Bool) (n : BitVec 6)
  /-- NOP (R232): No effect. -/
  | nop (w : Bool)
  /-- RDSR (R234): Reads a 32-bit special register into a scalar. -/
  | rdsr (w : Bool) (d : BitVec 6) (a : BitVec 6)
  /-- RDSR_PAIR (R234): Reads %clock or %refclk into a scalar pair. -/
  | rdsrPair (w : Bool) (d : BitVec 6) (a : BitVec 6)
  /-- WRSR (R234): Writes %fflags from a scalar. -/
  | wrsr (w : Bool) (d : BitVec 6) (a : BitVec 6)
  /-- EFORK (R161): Starts Flume and Sluice engine programs with copies of s0-s31. -/
  | efork (w : Bool) (a : BitVec 6) (b : BitVec 6)
  /-- ERDV (R162): Waits until the latest forked engine programs have exited and merges the engine flags. -/
  | erdv (w : Bool)
  /-- HINT_SUCC (R236): Marks the team willing to host its successor's prologue. -/
  | hintSucc (w : Bool)
  /-- WAIT_PRED (R236): Holds the path until the predecessor launch has ended and its writes are performed, then acquires. -/
  | waitPred (w : Bool) (d : BitVec 6)
  /-- MIGR_REQ (R237): Sets the team's migration target kind. -/
  | migrReq (w : Bool) (k : BitVec 6)
  /-- RDSR_VECTOR (R234): Writes a special register, or the lane number, into each active lane. -/
  | rdsrVector (w : Bool) (d : BitVec 7) (a : BitVec 6)
  /-- RDCTX (R234): Reads a context register into a scalar pair. -/
  | rdctx (w : Bool) (d : BitVec 6) (a : BitVec 6)
  /-- EMRET_TO (R203): Ends emulation, resuming at the clause header in s0:s1. -/
  | emretTo (w : Bool) (k : BitVec 6)
  /-- EMRET_SKIP (R203): Ends emulation, resuming after the emulated word. -/
  | emretSkip (w : Bool) (k : BitVec 6)
  /-- NMOVE (R242): Moves a mapping to another name. -/
  | nmove (w : Bool) (d : BitVec 7) (a : BitVec 7)
  /-- NALIAS (R243): Maps a second name to a row, raising REFCNT. -/
  | nalias (w : Bool) (d : BitVec 7) (a : BitVec 7)
  /-- NSWAP (R242): Exchanges the mappings of two names. -/
  | nswap (w : Bool) (d : BitVec 7) (a : BitVec 7)
  /-- NDROP (R243): Unmaps a name. -/
  | ndrop (w : Bool) (a : BitVec 7)
  /-- NFRESH (R243): Remaps a name to a fresh zeroed row. -/
  | nfresh (w : Bool) (d : BitVec 7)
  /-- NGIVE (R244): Surrenders a name's row into a handoff slot. -/
  | ngive (w : Bool) (s : BitVec 7) (a : BitVec 7) (l : BitVec 7)
  /-- NTAKE (R245): Maps a name to the row held in a handoff slot. -/
  | ntake (w : Bool) (d : BitVec 7) (s : BitVec 7) (l : BitVec 7)
  /-- NPERM (R242): Rotates mappings across a range of names. -/
  | nperm (w : Bool) (d : BitVec 7) (a : BitVec 7) (k : BitVec 7)
  /-- NQUERY (R247): Writes a name's mapping word into a scalar. -/
  | nquery (w : Bool) (d : BitVec 7) (a : BitVec 7)
  /-- VADD_I32 (R251): Lane-wise wrapped addition. -/
  | vaddI32 (w : Bool) (d : BitVec 7) (a : BitVec 7) (b : BitVec 7)
  /-- VSUB_I32 (R251): Lane-wise wrapped subtraction. -/
  | vsubI32 (w : Bool) (d : BitVec 7) (a : BitVec 7) (b : BitVec 7)
  /-- VMUL_I32 (R251): Lane-wise wrapped multiplication. -/
  | vmulI32 (w : Bool) (d : BitVec 7) (a : BitVec 7) (b : BitVec 7)
  /-- VMULHI_I32 (R251): High half of the signed product. -/
  | vmulhiI32 (w : Bool) (d : BitVec 7) (a : BitVec 7) (b : BitVec 7)
  /-- VMULHI_N32 (R251): High half of the natural product. -/
  | vmulhiN32 (w : Bool) (d : BitVec 7) (a : BitVec 7) (b : BitVec 7)
  /-- VMIN_I32 (R251): Lane-wise signed minimum. -/
  | vminI32 (w : Bool) (d : BitVec 7) (a : BitVec 7) (b : BitVec 7)
  /-- VMIN_N32 (R251): Lane-wise natural minimum. -/
  | vminN32 (w : Bool) (d : BitVec 7) (a : BitVec 7) (b : BitVec 7)
  /-- VMAX_I32 (R251): Lane-wise signed maximum. -/
  | vmaxI32 (w : Bool) (d : BitVec 7) (a : BitVec 7) (b : BitVec 7)
  /-- VMAX_N32 (R251): Lane-wise natural maximum. -/
  | vmaxN32 (w : Bool) (d : BitVec 7) (a : BitVec 7) (b : BitVec 7)
  /-- VADDS_I32 (R251): Lane-wise saturating addition. -/
  | vaddsI32 (w : Bool) (d : BitVec 7) (a : BitVec 7) (b : BitVec 7)
  /-- VSUBS_I32 (R251): Lane-wise saturating subtraction. -/
  | vsubsI32 (w : Bool) (d : BitVec 7) (a : BitVec 7) (b : BitVec 7)
  /-- VABS_I32 (R251): Lane-wise saturating absolute value. -/
  | vabsI32 (w : Bool) (d : BitVec 7) (a : BitVec 7)
  /-- VADDMIN_I32 (R251): vd := min(vd, saturated va + vb). -/
  | vaddminI32 (w : Bool) (d : BitVec 7) (a : BitVec 7) (b : BitVec 7)
  /-- VCOPY (R252): Copies a row's active lanes into vd's row. -/
  | vcopy (w : Bool) (d : BitVec 7) (a : BitVec 7)
  /-- VADD_B64 (R251): Lane-wise 64-bit pair addition. -/
  | vaddB64 (w : Bool) (d : BitVec 7) (a : BitVec 7) (b : BitVec 7)
  /-- VSUB_B64 (R251): Lane-wise 64-bit pair subtraction. -/
  | vsubB64 (w : Bool) (d : BitVec 7) (a : BitVec 7) (b : BitVec 7)
  /-- VAND (R253): Lane-wise AND. -/
  | vand (w : Bool) (d : BitVec 7) (a : BitVec 7) (b : BitVec 7)
  /-- VOR (R253): Lane-wise OR. -/
  | vor (w : Bool) (d : BitVec 7) (a : BitVec 7) (b : BitVec 7)
  /-- VXOR (R253): Lane-wise XOR. -/
  | vxor (w : Bool) (d : BitVec 7) (a : BitVec 7) (b : BitVec 7)
  /-- VANDN (R253): Lane-wise AND NOT. -/
  | vandn (w : Bool) (d : BitVec 7) (a : BitVec 7) (b : BitVec 7)
  /-- VNOT (R253): Lane-wise NOT. -/
  | vnot (w : Bool) (d : BitVec 7) (a : BitVec 7)
  /-- VSHL (R253): Lane-wise left shift. -/
  | vshl (w : Bool) (d : BitVec 7) (a : BitVec 7) (b : BitVec 7)
  /-- VSHR (R253): Lane-wise logical right shift. -/
  | vshr (w : Bool) (d : BitVec 7) (a : BitVec 7) (b : BitVec 7)
  /-- VSRA (R253): Lane-wise arithmetic right shift. -/
  | vsra (w : Bool) (d : BitVec 7) (a : BitVec 7) (b : BitVec 7)
  /-- VPOPC (R253): Lane-wise population count. -/
  | vpopc (w : Bool) (d : BitVec 7) (a : BitVec 7)
  /-- VCLZ (R253): Lane-wise leading-zero count. -/
  | vclz (w : Bool) (d : BitVec 7) (a : BitVec 7)
  /-- VCTZ (R253): Lane-wise trailing-zero count. -/
  | vctz (w : Bool) (d : BitVec 7) (a : BitVec 7)
  /-- VBREV (R253): Lane-wise bit reversal. -/
  | vbrev (w : Bool) (d : BitVec 7) (a : BitVec 7)
  /-- VADDI_I32 (R254): Adds a 7-bit signed immediate. -/
  | vaddiI32 (w : Bool) (d : BitVec 7) (a : BitVec 7) (i : BitVec 7)
  /-- VMULI_I32 (R254): Multiplies by a 7-bit signed immediate. -/
  | vmuliI32 (w : Bool) (d : BitVec 7) (a : BitVec 7) (i : BitVec 7)
  /-- VANDI (R254): ANDs with a sign-extended immediate. -/
  | vandi (w : Bool) (d : BitVec 7) (a : BitVec 7) (i : BitVec 7)
  /-- VORI (R254): ORs with a sign-extended immediate. -/
  | vori (w : Bool) (d : BitVec 7) (a : BitVec 7) (i : BitVec 7)
  /-- VXORI (R254): XORs with a sign-extended immediate. -/
  | vxori (w : Bool) (d : BitVec 7) (a : BitVec 7) (i : BitVec 7)
  /-- VMINI_I32 (R254): Signed minimum with an immediate. -/
  | vminiI32 (w : Bool) (d : BitVec 7) (a : BitVec 7) (i : BitVec 7)
  /-- VMAXI_I32 (R254): Signed maximum with an immediate. -/
  | vmaxiI32 (w : Bool) (d : BitVec 7) (a : BitVec 7) (i : BitVec 7)
  /-- VSHLI (R254): Left shift by an immediate. -/
  | vshli (w : Bool) (d : BitVec 7) (a : BitVec 7) (i : BitVec 7)
  /-- VSHRI (R254): Logical right shift by an immediate. -/
  | vshri (w : Bool) (d : BitVec 7) (a : BitVec 7) (i : BitVec 7)
  /-- VSRAI (R254): Arithmetic right shift by an immediate. -/
  | vsrai (w : Bool) (d : BitVec 7) (a : BitVec 7) (i : BitVec 7)
  /-- VMOVI (R255): Writes a sign-extended 16-bit immediate into active lanes. -/
  | vmovi (w : Bool) (d : BitVec 7) (i : BitVec 16)
  /-- VMOVI_H (R255): Writes the high 16 bits of active lanes. -/
  | vmoviH (w : Bool) (d : BitVec 7) (i : BitVec 16)
  /-- VMOVI_Z (R255): Writes a zero-extended 16-bit immediate into active lanes. -/
  | vmoviZ (w : Bool) (d : BitVec 7) (i : BitVec 16)
  /-- VCMP_I32 (R256): Signed lane compare writing all 96 bits of a predicate. -/
  | vcmpI32 (w : Bool) (c : BitVec 3) (p : BitVec 3) (a : BitVec 7) (b : BitVec 7)
  /-- VCMP_N32 (R256): Natural lane compare writing all 96 bits of a predicate. -/
  | vcmpN32 (w : Bool) (c : BitVec 3) (p : BitVec 3) (a : BitVec 7) (b : BitVec 7)
  /-- VTST (R256): Sets predicate lanes where va AND vb is nonzero. -/
  | vtst (w : Bool) (p : BitVec 3) (a : BitVec 7) (b : BitVec 7)
  /-- VSEL (R257): Selects va or vb per lane by a predicate. -/
  | vsel (w : Bool) (p : BitVec 3) (d : BitVec 7) (a : BitVec 7) (b : BitVec 7)
  /-- VSHFL (R258): Gathers lanes by index from a row. -/
  | vshfl (w : Bool) (d : BitVec 7) (a : BitVec 7) (b : BitVec 7)
  /-- VLSH (R258): Shifts values across lanes by an immediate. -/
  | vlsh (w : Bool) (d : BitVec 7) (a : BitVec 7) (n : BitVec 7)
  /-- VBCAST (R258): Broadcasts one lane into active lanes. -/
  | vbcast (w : Bool) (d : BitVec 7) (a : BitVec 7) (n : BitVec 7)
  /-- VBCAST_S (R258): Broadcasts a scalar into active lanes. -/
  | vbcastS (w : Bool) (d : BitVec 7) (s : BitVec 7)
  /-- VREGROUP_RECV (R259): Receiver side of fusing surviving lanes of two groups; waits for its partner. -/
  | vregroupRecv (w : Bool) (d : BitVec 7) (a : BitVec 7) (g : BitVec 7)
  /-- VREGROUP_SEND (R259): Donor side of fusing surviving lanes of two groups; waits for its partner. -/
  | vregroupSend (w : Bool) (d : BitVec 7) (a : BitVec 7) (g : BitVec 7)
  /-- VRED_ADD_I32 (R261): Wrapped sum over active lanes into every active lane. -/
  | vredAddI32 (w : Bool) (d : BitVec 7) (a : BitVec 7)
  /-- VRED_MIN_I32 (R261): Signed minimum reduction. -/
  | vredMinI32 (w : Bool) (d : BitVec 7) (a : BitVec 7)
  /-- VRED_MIN_N32 (R261): Natural minimum reduction. -/
  | vredMinN32 (w : Bool) (d : BitVec 7) (a : BitVec 7)
  /-- VRED_MAX_I32 (R261): Signed maximum reduction. -/
  | vredMaxI32 (w : Bool) (d : BitVec 7) (a : BitVec 7)
  /-- VRED_MAX_N32 (R261): Natural maximum reduction. -/
  | vredMaxN32 (w : Bool) (d : BitVec 7) (a : BitVec 7)
  /-- VRED_AND (R261): AND reduction. -/
  | vredAnd (w : Bool) (d : BitVec 7) (a : BitVec 7)
  /-- VRED_OR (R261): OR reduction. -/
  | vredOr (w : Bool) (d : BitVec 7) (a : BitVec 7)
  /-- VRED_XOR (R261): XOR reduction. -/
  | vredXor (w : Bool) (d : BitVec 7) (a : BitVec 7)
  /-- VSCAN_ADD_I32 (R261): Inclusive wrapped-sum scan over active lanes. -/
  | vscanAddI32 (w : Bool) (d : BitVec 7) (a : BitVec 7)
  /-- VSCAN_MAX_I32 (R261): Inclusive signed-maximum scan. -/
  | vscanMaxI32 (w : Bool) (d : BitVec 7) (a : BitVec 7)
  /-- VVOTE_ANY (R262): Scalar 1 if any active lane has the predicate. -/
  | vvoteAny (w : Bool) (d : BitVec 7) (p : BitVec 7)
  /-- VVOTE_ALL (R262): Scalar 1 if all active lanes have the predicate. -/
  | vvoteAll (w : Bool) (d : BitVec 7) (p : BitVec 7)
  /-- VVOTE_FIRST (R262): Lowest active lane with the predicate, or 96. -/
  | vvoteFirst (w : Bool) (d : BitVec 7) (p : BitVec 7)
  /-- VBALLOT (R262): Writes predicate AND ACTIVE into three scalars. -/
  | vballot (w : Bool) (d : BitVec 7) (p : BitVec 7)
  /-- VDOT4_I8 (R263): Signed packed-byte dot product accumulated into vd. -/
  | vdot4I8 (w : Bool) (d : BitVec 7) (a : BitVec 7) (b : BitVec 7)
  /-- VDOT4_N8 (R263): Natural packed-byte dot product accumulated into vd. -/
  | vdot4N8 (w : Bool) (d : BitVec 7) (a : BitVec 7) (b : BitVec 7)
  /-- VFADD_F32 (R268): FP32 addition in the chosen rounding mode. -/
  | vfaddF32 (w : Bool) (r : BitVec 2) (d : BitVec 7) (a : BitVec 7) (b : BitVec 7)
  /-- VFSUB_F32 (R268): FP32 subtraction in the chosen rounding mode. -/
  | vfsubF32 (w : Bool) (r : BitVec 2) (d : BitVec 7) (a : BitVec 7) (b : BitVec 7)
  /-- VFMUL_F32 (R268): FP32 multiplication in the chosen rounding mode. -/
  | vfmulF32 (w : Bool) (r : BitVec 2) (d : BitVec 7) (a : BitVec 7) (b : BitVec 7)
  /-- VFADD_F64 (R268): FP64 pair addition, RNE. -/
  | vfaddF64 (w : Bool) (d : BitVec 7) (a : BitVec 7) (b : BitVec 7)
  /-- VFSUB_F64 (R268): FP64 pair subtraction, RNE. -/
  | vfsubF64 (w : Bool) (d : BitVec 7) (a : BitVec 7) (b : BitVec 7)
  /-- VFMUL_F64 (R268): FP64 pair multiplication, RNE. -/
  | vfmulF64 (w : Bool) (d : BitVec 7) (a : BitVec 7) (b : BitVec 7)
  /-- VFFMA_F32 (R269): FP32 fused multiply-add into vd, one rounding. -/
  | vffmaF32 (w : Bool) (r : BitVec 2) (d : BitVec 7) (a : BitVec 7) (b : BitVec 7)
  /-- VFFMA_F64 (R269): FP64 fused multiply-add into a pair, one rounding. -/
  | vffmaF64 (w : Bool) (r : BitVec 2) (d : BitVec 7) (a : BitVec 7) (b : BitVec 7)
  /-- VFADDMIN_F32 (R269): vd := FMin(vd, va + vb) in FP32. -/
  | vfaddminF32 (w : Bool) (d : BitVec 7) (a : BitVec 7) (b : BitVec 7)
  /-- VFADD_PACKED (R270): Packed bf16x2 or f16x2 addition. -/
  | vfaddPacked (w : Bool) (t : Bool) (d : BitVec 7) (a : BitVec 7) (b : BitVec 7)
  /-- VFSUB_PACKED (R270): Packed subtraction. -/
  | vfsubPacked (w : Bool) (t : Bool) (d : BitVec 7) (a : BitVec 7) (b : BitVec 7)
  /-- VFMUL_PACKED (R270): Packed multiplication. -/
  | vfmulPacked (w : Bool) (t : Bool) (d : BitVec 7) (a : BitVec 7) (b : BitVec 7)
  /-- VFFMA_PACKED (R270): Packed fused multiply-add. -/
  | vffmaPacked (w : Bool) (t : Bool) (d : BitVec 7) (a : BitVec 7) (b : BitVec 7)
  /-- VFMIN_PACKED (R270): Packed minimum. -/
  | vfminPacked (w : Bool) (t : Bool) (d : BitVec 7) (a : BitVec 7) (b : BitVec 7)
  /-- VFMAX_PACKED (R270): Packed maximum. -/
  | vfmaxPacked (w : Bool) (t : Bool) (d : BitVec 7) (a : BitVec 7) (b : BitVec 7)
  /-- VFDOT2 (R270): Two-element packed dot product accumulated in FP32. -/
  | vfdot2 (w : Bool) (t : Bool) (d : BitVec 7) (a : BitVec 7) (b : BitVec 7)
  /-- VCVT (R272): Converts each active lane between formats with mode and saturation. -/
  | vcvt (w : Bool) (s : BitVec 4) (d : BitVec 7) (a : BitVec 7) (t : BitVec 4) (r : BitVec 2) (n : Bool)
  /-- VCVT_PK_BF16X2 (R273): Packs two FP32 sources into bf16x2. -/
  | vcvtPkBf16x2 (w : Bool) (d : BitVec 7) (a : BitVec 7) (b : BitVec 7)
  /-- VCVT_PK_F16X2 (R273): Packs two FP32 sources into f16x2. -/
  | vcvtPkF16x2 (w : Bool) (d : BitVec 7) (a : BitVec 7) (b : BitVec 7)
  /-- VQUANT (R275): Quantises FP32 lanes against a block-scale word. -/
  | vquant (w : Bool) (f : BitVec 3) (d : BitVec 7) (a : BitVec 7) (b : BitVec 7)
  /-- VDEQUANT (R275): Dequantises narrow codes against a block-scale word. -/
  | vdequant (w : Bool) (f : BitVec 3) (d : BitVec 7) (a : BitVec 7) (b : BitVec 7)
  /-- VTRIT (R276): Extracts one digit of a packed t3 byte. -/
  | vtrit (w : Bool) (d : BitVec 7) (a : BitVec 7) (b : BitVec 7)
  /-- VRCP_F32 (R277): Correctly rounded reciprocal. -/
  | vrcpF32 (w : Bool) (r : BitVec 2) (d : BitVec 7) (a : BitVec 7)
  /-- VSQRT_F32 (R277): Correctly rounded square root. -/
  | vsqrtF32 (w : Bool) (r : BitVec 2) (d : BitVec 7) (a : BitVec 7)
  /-- VDIV_F32 (R277): Correctly rounded division. -/
  | vdivF32 (w : Bool) (r : BitVec 2) (d : BitVec 7) (a : BitVec 7) (b : BitVec 7)
  /-- VEXP2_F32 (R148): Bit-exact base-2 exponential. -/
  | vexp2F32 (w : Bool) (d : BitVec 7) (a : BitVec 7)
  /-- VLOG2_F32 (R149): Bit-exact base-2 logarithm. -/
  | vlog2F32 (w : Bool) (d : BitVec 7) (a : BitVec 7)
  /-- VSIN_F32 (R150): Bit-exact sine. -/
  | vsinF32 (w : Bool) (d : BitVec 7) (a : BitVec 7)
  /-- VCOS_F32 (R150): Bit-exact cosine. -/
  | vcosF32 (w : Bool) (d : BitVec 7) (a : BitVec 7)
  /-- VFCMP_F32 (R278): FP32 compare writing a predicate. -/
  | vfcmpF32 (w : Bool) (c : BitVec 3) (p : BitVec 3) (a : BitVec 7) (b : BitVec 7)
  /-- VFCMP_F64 (R278): FP64 pair compare writing a predicate. -/
  | vfcmpF64 (w : Bool) (c : BitVec 3) (p : BitVec 3) (a : BitVec 7) (b : BitVec 7)
  /-- VFCLASS_F32 (R279): FP32 class test writing a predicate. -/
  | vfclassF32 (w : Bool) (p : BitVec 3) (a : BitVec 7) (k : BitVec 7)
  /-- VFCLASS_F64 (R279): FP64 class test writing a predicate. -/
  | vfclassF64 (w : Bool) (p : BitVec 3) (a : BitVec 7) (k : BitVec 7)
  /-- VFMIN_F32 (R278): FP32 minimum. -/
  | vfminF32 (w : Bool) (d : BitVec 7) (a : BitVec 7) (b : BitVec 7)
  /-- VFMAX_F32 (R278): FP32 maximum. -/
  | vfmaxF32 (w : Bool) (d : BitVec 7) (a : BitVec 7) (b : BitVec 7)
  /-- VFMIN_F64 (R278): FP64 minimum. -/
  | vfminF64 (w : Bool) (d : BitVec 7) (a : BitVec 7) (b : BitVec 7)
  /-- VFMAX_F64 (R278): FP64 maximum. -/
  | vfmaxF64 (w : Bool) (d : BitVec 7) (a : BitVec 7) (b : BitVec 7)
  /-- VFABS_F32 (R278): Clears the sign. -/
  | vfabsF32 (w : Bool) (d : BitVec 7) (a : BitVec 7)
  /-- VFNEG_F32 (R278): Inverts the sign. -/
  | vfnegF32 (w : Bool) (d : BitVec 7) (a : BitVec 7)
  /-- VFCSGN_F32 (R278): Copies the sign of vb onto va. -/
  | vfcsgnF32 (w : Bool) (d : BitVec 7) (a : BitVec 7) (b : BitVec 7)
  /-- VFABS_F64 (R278): Clears the sign of a pair. -/
  | vfabsF64 (w : Bool) (d : BitVec 7) (a : BitVec 7)
  /-- VFNEG_F64 (R278): Inverts the sign of a pair. -/
  | vfnegF64 (w : Bool) (d : BitVec 7) (a : BitVec 7)
  /-- VFCSGN_F64 (R278): Copies a pair's sign. -/
  | vfcsgnF64 (w : Bool) (d : BitVec 7) (a : BitVec 7) (b : BitVec 7)
  /-- VFRED_ADD_F32 (R144): FP32 tree sum over active lanes. -/
  | vfredAddF32 (w : Bool) (r : BitVec 2) (d : BitVec 7) (a : BitVec 7)
  /-- VFSCAN_ADD_F32 (R145): FP32 inclusive scan. -/
  | vfscanAddF32 (w : Bool) (r : BitVec 2) (d : BitVec 7) (a : BitVec 7)
  /-- VFRED_MAX_F32 (R280): FP32 maximum reduction. -/
  | vfredMaxF32 (w : Bool) (d : BitVec 7) (a : BitVec 7)
  /-- VFRED_MIN_F32 (R280): FP32 minimum reduction. -/
  | vfredMinF32 (w : Bool) (d : BitVec 7) (a : BitVec 7)
  /-- VFRED_ADD_F64 (R280): FP64 tree sum. -/
  | vfredAddF64 (w : Bool) (d : BitVec 7) (a : BitVec 7)
  /-- VFRED_MAX_F64 (R280): FP64 maximum reduction. -/
  | vfredMaxF64 (w : Bool) (d : BitVec 7) (a : BitVec 7)
  /-- VFRED_MIN_F64 (R280): FP64 minimum reduction. -/
  | vfredMinF64 (w : Bool) (d : BitVec 7) (a : BitVec 7)
  /-- VFSCAN_ADD_F64 (R280): FP64 inclusive scan. -/
  | vfscanAddF64 (w : Bool) (d : BitVec 7) (a : BitVec 7)
  /-- VLD (R287): Vector load, one access per active lane. -/
  | vld (w : Bool) (t : BitVec 4) (d : BitVec 7) (o : BitVec 7) (b : BitVec 6) (s : Bool)
  /-- VST (R287): Vector store, one access per active lane. -/
  | vst (w : Bool) (t : BitVec 4) (d : BitVec 7) (o : BitVec 7) (b : BitVec 6) (s : Bool)
  /-- VATOM (R291): Lane-wise atomic placed by scope and order. -/
  | vatom (w : Bool) (p : BitVec 4) (d : BitVec 7) (o : BitVec 7) (b : BitVec 6) (s : Bool)
  /-- FATOM (R291): Far atomic performed at the location's home. -/
  | fatom (w : Bool) (p : BitVec 4) (d : BitVec 7) (o : BitVec 7) (b : BitVec 6) (s : Bool)
  /-- VLD_SP (R288): Vector load from the team's scratchpad by 32-bit offset. -/
  | vldSp (w : Bool) (z : BitVec 2) (d : BitVec 7) (o : BitVec 7) (b : BitVec 6) (s : Bool)
  /-- VST_SP (R288): Vector store to the team's scratchpad. -/
  | vstSp (w : Bool) (z : BitVec 2) (d : BitVec 7) (o : BitVec 7) (b : BitVec 6) (s : Bool)
  /-- VLD_NV (R288): Vector load from the core's own vault. -/
  | vldNv (w : Bool) (z : BitVec 2) (d : BitVec 7) (o : BitVec 7) (b : BitVec 6) (s : Bool)
  /-- VST_NV (R288): Vector store to the core's own vault. -/
  | vstNv (w : Bool) (z : BitVec 2) (d : BitVec 7) (o : BitVec 7) (b : BitVec 6) (s : Bool)
  /-- VCACHE_WB (R295): Writes back the named lines to the level the scope names. -/
  | vcacheWb (w : Bool) (o : BitVec 7) (b : BitVec 6) (s : Bool)
  /-- VCACHE_WBINV (R295): Writes back then invalidates the named lines. -/
  | vcacheWbinv (w : Bool) (o : BitVec 7) (b : BitVec 6) (s : Bool)
  /-- VCACHE_PF (R295): Prefetches the named lines into L1 and L2. -/
  | vcachePf (w : Bool) (o : BitVec 7) (b : BitVec 6) (s : Bool)
  /-- VCACHE_DEMOTE (R295): Sets the retention of cached copies to streaming. -/
  | vcacheDemote (w : Bool) (o : BitVec 7) (b : BitVec 6) (s : Bool)
  /-- SLD (R289): Scalar load with a signed scaled offset. -/
  | sld (w : Bool) (d : BitVec 6) (a : BitVec 6) (t : BitVec 3) (f : BitVec 9)
  /-- SST (R289): Scalar store with a signed scaled offset. -/
  | sst (w : Bool) (d : BitVec 6) (a : BitVec 6) (t : BitVec 3) (f : BitVec 9)
  /-- SATOM (R292): Scalar atomic returning the old value. -/
  | satom (w : Bool) (p : BitVec 4) (d : BitVec 6) (a : BitVec 6) (b : BitVec 6)
  /-- SATOM_NR (R292): Scalar atomic without a result. -/
  | satomNr (w : Bool) (p : BitVec 4) (a : BitVec 6) (b : BitVec 6)
  /-- FENCE (R294): Acquire, release or both at a scope. -/
  | fence (w : Bool) (o : BitVec 6) (e : BitVec 6)
  /-- XFENCE (R121): Orders the team's earlier accesses on one path before the group's later accesses on another. -/
  | xfence (w : Bool) (a : BitVec 6) (b : BitVec 6)
  /-- TLFENCE (R122): Orders the group's table stores before later page walks. -/
  | tlfence (w : Bool) (e : BitVec 6)
  /-- IFENCE (R123): Discards the core's instruction cache entries of the context after earlier stores. -/
  | ifence (w : Bool)
  /-- CPY_LD (R299): Copies a tensor box into a scratchpad image. -/
  | cpyLd (w : Bool) (t : BitVec 8) (a : BitVec 6) (p : BitVec 3)
  /-- CPY_SLOT (R299): Claims a ring slot and copies a box into it. -/
  | cpySlot (w : Bool) (t : BitVec 8) (a : BitVec 6) (p : BitVec 3)
  /-- CPY_ST (R299): Copies a scratchpad image into a tensor box. -/
  | cpySt (w : Bool) (t : BitVec 8) (a : BitVec 6) (p : BitVec 3)
  /-- CPY_GG (R299): Copies a box between two tensors. -/
  | cpyGg (w : Bool) (t : BitVec 8) (a : BitVec 6) (p : BitVec 3)
  /-- CPY_GTH (R299): Gathers tensor rows by an index list into scratchpad. -/
  | cpyGth (w : Bool) (t : BitVec 8) (a : BitVec 6) (p : BitVec 3)
  /-- CPY_MC (R102): Multicasts a box into scratchpads of up to 16 cores. -/
  | cpyMc (w : Bool) (t : BitVec 8) (a : BitVec 6) (p : BitVec 3)
  /-- CPY_MC_SLOT (R299): Multicast counted by a slot on each core. -/
  | cpyMcSlot (w : Bool) (t : BitVec 8) (a : BitVec 6) (p : BitVec 3)
  /-- TNSET (R308): Checks and writes a tensor identifier entry, returning a status. -/
  | tnset (w : Bool) (t : BitVec 8) (a : BitVec 6) (d : BitVec 6)
  /-- TNGET (R308): Reads a tensor identifier entry into sixteen scalars. -/
  | tnget (w : Bool) (t : BitVec 8) (d : BitVec 6)
  /-- CBAT (R94): Closes the open copy batch, numbering it. -/
  | cbat (w : Bool) (e : Bool) (d : BitVec 6)
  /-- CWAIT (R95): Waits until every closed batch at or before n has completed. -/
  | cwait (w : Bool) (n : BitVec 16)
  /-- CWAIT_R (R302): As cwait with the batch number in a register. -/
  | cwaitR (w : Bool) (a : BitVec 6)
  /-- TBINIT (R303): Initialises a transaction barrier in one write. -/
  | tbinit (w : Bool) (a : BitVec 6) (b : BitVec 6)
  /-- TBARRIVE (R97): Arrives on a transaction barrier with an immediate count. -/
  | tbarrive (w : Bool) (a : BitVec 6) (k : BitVec 12)
  /-- TBARRIVE_R (R303): Arrives with a count from a register. -/
  | tbarriveR (w : Bool) (a : BitVec 6) (b : BitVec 6)
  /-- TBWAIT (R303): Holds the path until the barrier phase differs from a value. -/
  | tbwait (w : Bool) (a : BitVec 6) (b : BitVec 6)
  /-- TBPHASE (R303): Reads a barrier's phase and overrun bit. -/
  | tbphase (w : Bool) (a : BitVec 6) (d : BitVec 6)
  /-- SLTAKE (R304): Waits for a full slot and sets it draining. -/
  | sltake (w : Bool) (a : BitVec 6) (i : BitVec 6)
  /-- SLREL (R304): Releases a draining slot to empty. -/
  | slrel (w : Bool) (a : BitVec 6) (i : BitVec 6)
  /-- SLTAG (R304): Reads a slot's tag and counter. -/
  | sltag (w : Bool) (a : BitVec 6) (d : BitVec 6) (i : BitVec 6)
  /-- SLINIT (R304): Resets n slots to empty with zero counters. -/
  | slinit (w : Bool) (a : BitVec 6) (n : BitVec 6)
  /-- QPUSH (R306): Sends a 32-byte entry to a work queue, waiting for room. -/
  | qpush (w : Bool) (g : Bool) (r : Bool) (a : BitVec 6) (q : BitVec 8)
  /-- QPUSH_TRY (R306): Inserts an entry if there is room, writing a status. -/
  | qpushTry (w : Bool) (g : Bool) (r : Bool) (a : BitVec 6) (d : BitVec 6) (q : BitVec 8)
  /-- QWAIT (R306): Holds the path until an entry is assigned to it, then writes it. -/
  | qwait (w : Bool) (g : Bool) (r : Bool) (a : BitVec 6) (q : BitVec 8)
  /-- QPOP_TRY (R306): Removes the oldest unassigned entry if any. -/
  | qpopTry (w : Bool) (g : Bool) (r : Bool) (a : BitVec 6) (d : BitVec 6) (q : BitVec 8)
  /-- VMMA (R159): Group-issued tile multiply-accumulate from the quad's names. -/
  | vmma (w : Bool) (f : BitVec 4) (h : BitVec 7) (a : BitVec 7) (b : BitVec 7)
  /-- FMM (R317): Engine tile multiply from scratchpad images. -/
  | fmm (w : Bool) (h : BitVec 7) (a : BitVec 6) (z : Bool)
  /-- FMMT (R165): Engine tile multiply through the ternary plane. -/
  | fmmt (w : Bool) (h : BitVec 7) (a : BitVec 6) (z : Bool)
  /-- FPOLY (R169): Evaluates a matrix polynomial in tile blocks. -/
  | fpoly (w : Bool) (h : BitVec 7) (a : BitVec 6)
  /-- FITER (R170): Starts a Newton-Schulz matrix iteration on tile blocks. -/
  | fiter (w : Bool) (h : BitVec 7) (a : BitVec 6) (d : BitVec 6)
  /-- FTMASK (R167): Masks a tile by a draft tree's ancestry. -/
  | ftmask (w : Bool) (h : BitVec 7) (a : BitVec 6)
  /-- FTMASK_ANC (R167): Writes a tree's ancestor tile. -/
  | ftmaskAnc (w : Bool) (h : BitVec 7) (a : BitVec 6)
  /-- FACC_LD (R321): Loads a tile from a scratchpad image. -/
  | faccLd (w : Bool) (h : BitVec 7) (a : BitVec 6)
  /-- FACC_ST_F32 (R321): Stores a tile's words to scratchpad unchanged. -/
  | faccStF32 (w : Bool) (h : BitVec 7) (a : BitVec 6)
  /-- FACC_ST_BF16 (R321): Stores a tile converted to bf16. -/
  | faccStBf16 (w : Bool) (h : BitVec 7) (a : BitVec 6)
  /-- FACC_ST_F16 (R321): Stores a tile converted to f16. -/
  | faccStF16 (w : Bool) (h : BitVec 7) (a : BitVec 6)
  /-- FACC_RD (R321): Reads 16 tile columns into 16 names of the group. -/
  | faccRd (w : Bool) (h : BitVec 7) (d : BitVec 7) (c : BitVec 2)
  /-- FACC_ZERO (R321): Zeroes every word of a tile. -/
  | faccZero (w : Bool) (h : BitVec 7)
  /-- FCSET (R322): Writes a coefficient register, held while an iteration runs. -/
  | fcset (w : Bool) (n : BitVec 4) (a : BitVec 6)
  /-- FCGET (R322): Reads a coefficient register after earlier writes apply. -/
  | fcget (w : Bool) (n : BitVec 4) (d : BitVec 6)
  /-- FCLD (R322): Loads all sixteen coefficients from scratchpad. -/
  | fcld (w : Bool) (a : BitVec 6)
  /-- FSLOT_TAKE (R164): Flume program takes a full slot. -/
  | fslotTake (w : Bool) (a : BitVec 6) (i : BitVec 6)
  /-- FSLOT_RELEASE (R322): Flume program releases a draining slot. -/
  | fslotRelease (w : Bool) (a : BitVec 6) (i : BitVec 6)
  /-- FTBARRIVE (R322): Engine arrival on a transaction barrier. -/
  | ftbarrive (w : Bool) (a : BitVec 6) (k : BitVec 12)
  /-- EMULATION_ENTRY (R201): A path reaching a reserved-major word enters the emulation handler or traps RESERVED_MAJOR. -/
  | emulationEntry (word : Word)
  /-- PACKET_NOP (R352): NOP command packet. -/
  | packetNop (q : Nat)
  /-- LAUNCH (R353): Accepts a launch, numbering it and making it a candidate for admission. -/
  | launch (q : Nat)
  /-- SIGNAL (R358): Stores a value with release order and optionally raises an interrupt. -/
  | signal (q : Nat)
  /-- SIGNAL_WAITALL_RELEASE (R358): A waiting SIGNAL performs its store once every earlier launch of its queue has ended. -/
  | signalWaitallRelease (q : Nat)
  /-- WAITMEM (R358): Blocks its queue until a memory word reaches a value. -/
  | waitmem (q : Nat)
  /-- WAITMEM_SATISFIED (R358): An acquire load reads a value at least VALUE and the queue resumes. -/
  | waitmemSatisfied (q : Nat)
  /-- FIELDSET (R360): Creates or edits a field's cores, ways, queue memory and HBM weight. -/
  | fieldset (q : Nat)
  /-- FIELDSET_DESTROY (R361): Destroys a field with no launches or teams. -/
  | fieldsetDestroy (q : Nat)
  /-- SETCTX (R356): Creates a context from its descriptor. -/
  | setctx (q : Nat)
  /-- SETCTX_DESTROY (R402): Destroys a context, erasing a protected context's key. -/
  | setctxDestroy (q : Nat)
  /-- WQCREATE (R359): Creates a work queue on a home die. -/
  | wqcreate (q : Nat)
  /-- WQ_DESTROY (R359): Destroys a work queue, faulting its waiters. -/
  | wqDestroy (q : Nat)
  /-- GRAPHRUN (R362): Runs a snapshot of a graph's current version record. -/
  | graphrun (q : Nat)
  /-- GRAPHEDIT (R362): Installs a new version record as a graph's current. -/
  | graphedit (q : Nat)
  /-- FWDUPDATE (R331): Reloads every core's copy of the forwarding table. -/
  | fwdupdate (q : Nat)
  /-- XLATEINV (R369): Drops walk-cache entries of a range or context on every die. -/
  | xlateinv (q : Nat)
  /-- SYNINV (R369): Drops every remap-filter entry of a context. -/
  | syninv (q : Nat)
  /-- VAULTGRANT (R369): Installs a context's vault grant table. -/
  | vaultgrant (q : Nat)
  /-- PREEMPT (R375): Pre-empts teams of fields or a launch, choosing drain, flush or save. -/
  | preempt (q : Nat)
  /-- TEAMCTL_DESTROY (R380): Ends a launch and releases its teams. -/
  | teamctlDestroy (q : Nat)
  /-- TEAMCTL_RESUME (R380): Releases a halted team, continuing parked accesses. -/
  | teamctlResume (q : Nat)
  /-- FAULTREPLY_RETRY (R373): Retranslates a service fault and continues its access. -/
  | faultreplyRetry (q : Nat)
  /-- FAULTREPLY_FAIL (R373): Fails a service fault with ACCESS_VIOLATION or discards held write-backs. -/
  | faultreplyFail (q : Nat)
  /-- FAULTRING (R372): Installs or replaces the fault ring. -/
  | faultring (q : Nat)
  /-- VAULTCARVE (R370): Sets which vault eighths of a die form its memory-side cache. -/
  | vaultcarve (q : Nat)
  /-- KEYAREA (R399): Sets the host address of the key park area. -/
  | keyarea (q : Nat)
  /-- PROTWAYS (R399): Sets the number of L2 ways reserved for the protected world on a die. -/
  | protways (q : Nat)
  /-- SCRUB (R399): Zeroes data and metadata of an HBM range. -/
  | scrub (q : Nat)
  /-- ATTEST (R400): Writes a signed attestation report for a protected context. -/
  | attest (q : Nat)
  /-- TRACEKEY (R399): Opens an HPKE message and installs a context's trace key. -/
  | tracekey (q : Nat)
  /-- DBGCTL_BPSET (R405): Loads a PC comparator with address and filters. -/
  | dbgctlBpset (q : Nat)
  /-- DBGCTL_STOP (R406): Holds every runnable path of a group at its next word boundary. -/
  | dbgctlStop (q : Nat)
  /-- DBGCTL_RESUME (R406): Returns held paths to runnable. -/
  | dbgctlResume (q : Nat)
  /-- DBGCTL_STEP (R406): Releases a stopped path for one word. -/
  | dbgctlStep (q : Nat)
  /-- DBGCTL_DUMP (R407): Writes a stopped group's state to a buffer. -/
  | dbgctlDump (q : Nat)
  /-- DBGCTL_WRITE (R408): Writes one register of a stopped group. -/
  | dbgctlWrite (q : Nat)
  /-- TRACECTL (R409): Configures or stops the device trace ring and sampling. -/
  | tracectl (q : Nat)
  /-- RESYNC (R424): Writes a consistent device summary to a buffer. -/
  | resync (q : Nat)
  /-- POWERCAP (R426): Sets the device power cap. -/
  | powercap (q : Nat)
  /-- DOORBELL (R351): A doorbell write notifies a user queue, setting NOTIFY or PENDING. -/
  | doorbell (q : Nat)
  /-- QUEUE_SCAN (R350): Headgate reads WIDX and accepts new packets of a queue in order. -/
  | queueScan (q : Nat)
  /-- ORPHAN_LATCH (R351): A notify caught at a slot unmap sets its queue's PENDING. -/
  | orphanLatch (slot : Nat)
  /-- QTBASE_WRITE (R348): Writes the queue table base; clearing EN unmaps all queue slots. -/
  | qtbaseWrite (v : Dword)
  /-- CXLDEC_WRITE (R348): Changes which CXL port decodes each half once pending requests finish. -/
  | cxldecWrite (v : Dword)
  /-- REGISTER_WRITE (R348): Plain driver write to a register with no behaviour of its own. -/
  | registerWrite (off : Nat) (v : Dword)
  /-- GO (R414): Starts a firmware image load in STATE 1 or 4. -/
  | go (v : Word)
  /-- RESETREQ (R414): Writing the key value requests a device reset. -/
  | resetreq (v : Word)
  /-- BOOT_LOAD_COMPLETE (R417): The ROM finishes reading and checking the image, then fails or starts it. -/
  | bootLoadComplete
  /-- POWER_ON_RESET (R420): Power is applied and all state is lost. -/
  | powerOnReset
  /-- DEVICE_RESET (R420): A link reset or fatal firmware error resets the device. -/
  | deviceReset
  /-- HOST_WINDOW_ACCESS (R347): A host access through a Culvert window is stamped and sent to its home. -/
  | hostWindowAccess (link win off len : Nat) (wr : Bool) (data : List Byte)
  /-- TEAM_ADMIT (R357): Headgate places eligible teams on cores by class and order. -/
  | teamAdmit
  /-- TEAM_SAVE_COMPLETE (R377): Save finishes writing team state into a save slot. -/
  | teamSaveComplete (t : Nat)
  /-- TEAM_RESTORE (R380): Restores a saved team on an admitting core. -/
  | teamRestore (t : Nat)
  /-- DRAIN_TIMEOUT (R376): A draining team not ended by SVC_LIMIT is saved. -/
  | drainTimeout (t : Nat)
  /-- SERVICE_LIMIT_EXPIRY (R374): A service fault standing SVC_LIMIT ticks saves its team. -/
  | serviceLimitExpiry (t : Nat)
  /-- MIGRATION (R338): After the drain, the team is checked, placed and moved to the other core kind. -/
  | migration (t : Nat)
  /-- EQP_HOLD_TIMEOUT (R237): A group held 1,024 ticks at eqp continues without migrating. -/
  | eqpHoldTimeout (t g : Nat)
  /-- CLEAR_SEQUENCE_DONE (R393): The clear sequence completes and the core changes world. -/
  | clearSequenceDone (core : Nat)
  /-- KEY_RESEAT (R397): Firmware seats a parked key when a slot can be freed. -/
  | keyReseat (ctx : Nat)
  /-- WALK_COMPLETE (R367): A page walk at a memory controller ends in a translation, a miss or a violation. -/
  | walkComplete (r : Nat)
  /-- FAULT_RING_ROOM (R372): Held fault records are written once the ring has room. -/
  | faultRingRoom
  /-- HOME_REQUEST (R110): A stamped request arrives at its home and is applied or held. -/
  | homeRequest (r : Nat)
  /-- CLOCK_BEAT_SEND (R110): A die sends its EPOCH to another die within 16 ticks. -/
  | clockBeatSend (src dst : Nat)
  /-- CLOCK_BEAT (R110): A beat arrives at a home, advancing STABLE and releasing held requests. -/
  | clockBeat (src dst : Nat)
  /-- REPLY_RECEIVE (R111): A reply arrives and the die merges STABLE into its vector clock. -/
  | replyReceive (r : Nat)
  /-- RESULT_RETURN (R187): A variable-latency register result is written and its counter falls. -/
  | resultReturn (a : Nat)
  /-- STORE_PERFORMED (R187): A store or write-back is performed and STCNT falls. -/
  | storePerformed (a : Nat)
  /-- SECTOR_LAND (R92): A copy sector lands and updates its barrier or slot, then its batch count. -/
  | sectorLand (c i : Nat)
  /-- L2_WRITE_QUEUE_PERFORM (R119): The L2 write queue performs landed copy sectors in L2 at a time the device chooses. -/
  | l2WriteQueuePerform (die c i : Nat)
  /-- FLUME_OP_APPLIED (R156): A Flume operation is applied whole to its tile. -/
  | flumeOpApplied (t : Nat) (src : Option Nat)
  /-- FITER_STOP (R170): A matrix iteration converges, reaches its cap or diverges. -/
  | fiterStop (t : Nat)
  /-- WAIT_TIMEOUT (R228): A wait's deadline passes at a failing complete evaluation. -/
  | waitTimeout (t : Nat) (g : Option Nat) (p : Nat)
  /-- WAIT_MEMWORD_POLL (R49): Periodic re-evaluation of a memory-word condition at least every 64 ticks. -/
  | waitMemwordPoll (t : Nat) (g : Option Nat) (p : Nat)
  /-- ROW_POOL_EMPTY (R64): A row allocation stalled 4,096 ticks traps. -/
  | rowPoolEmpty (t g p : Nat)
  /-- QUEUE_REQUEST_AT_HOME (R307): A push, wait or pop reaches the queue's home and entries are assigned. -/
  | queueRequestAtHome (m : Nat)
  /-- LL_SCORE_HALVE (R46): Every 4,096 core cycles all lost-locality scores halve. -/
  | llScoreHalve (core : Nat)
  /-- LL_CAP_UPDATE (R47): Every 512 core cycles LL_CAP moves by comparing LL_SUM with the limits. -/
  | llCapUpdate (core : Nat)
  /-- SAMPLE_TAG (R410): A slice's LFSR countdown expires and tags its next issued word. -/
  | sampleTag (core slice : Nat)
  /-- FLIT_RECEIVE (R387): A Qanat flit arrives and is delivered, discarded or NAKed. -/
  | flitReceive (link : Nat) (lowBad highBad : Bool)
  /-- ACK_IDLE_TIMER (R386): An idle flit carries EXP when no reverse flit did within 4 ticks. -/
  | ackIdleTimer (link : Nat)
  /-- NAK_REPEAT_TIMER (R387): A NAK is repeated if the expected flit has not arrived within 8 ticks. -/
  | nakRepeatTimer (link : Nat)
  /-- REPLAY_TIMEOUT (R387): Buffered flits unacknowledged for 32 ticks are resent. -/
  | replayTimeout (link : Nat)
  /-- RETRAIN_COMPLETE (R389): A retrained module returns in 32-lane mode. -/
  | retrainComplete (link module : Nat)
  /-- CORE_UNCORRECTABLE_ERROR (R381): A core is fenced and its teams saved or halted. -/
  | coreUncorrectableError (core : Nat) (lost : List Nat)
  /-- ECC_CORRECTED (R421): A correctable error is corrected and counted. -/
  | eccCorrected (index : Nat)
  /-- SECTOR_POISON (R421): An uncorrectable error poisons its sector: of memory (kind 0), a vault (1), an L2 (2), an L1 (3). -/
  | sectorPoison (kind unit x : Nat)
  /-- LANE_DEFECT (R422): A defective physical lane is remapped to a spare or the core is fenced. -/
  | laneDefect (core slice lane : Nat)
  /-- POWER_THROTTLE (R426): Clocks are lowered or raised in sixteenths to hold the power cap. -/
  | powerThrottle (sixteenths : Nat)
  /-- THERMAL_THROTTLE (R427): A die junction at 95 C throttles the device. -/
  | thermalThrottle (die : Nat)
  /-- THERMAL_TRIP (R427): A die junction at 110 C records an error and asks for power removal. -/
  | thermalTrip (die : Nat)
  /-- COOLANT_FAULT (R427): Coolant outside limits for 2 s makes the board controller remove power. -/
  | coolantFault
  /-- CULVERT_LINK_STATE_CHANGE (R347): A Culvert link goes down or trains again, so host-memory traffic of its home die is forwarded over Qanat to the other link or returns to its own. -/
  | culvertLinkStateChange (link : Nat) (up : Bool)
  /-- CXL_PORT_STATE_CHANGE (R363): A CXL port goes down or comes back, which leaves its half of the CXL range without a decoding port until CXLDEC is changed. -/
  | cxlPortStateChange (port : Nat) (up : Bool)
  /-- POWER_LOSS (R402): Power is lost or removed, and every slot, generation table, per-boot key and other state vanishes at once, whatever operation is under way. -/
  | powerLoss
  /-- COMMAND_COMPLETE (R368): The effect of a PRIV command that takes time (XLATEINV, SYNINV, VAULTGRANT with its zeroing, VAULTCARVE, PROTWAYS, SCRUB, DBGCTL STOP) completes, and its queue may accept packets again. -/
  | commandComplete (q : Nat)
  /-- REFERENCE_REWRITE (R333): At the loader's request the Headgate parks every group of the context that refers to a moved range, rewrites PCs, call stacks, sequencer and efork addresses, saved teams, trap records, twin-PC lists and comparators, and releases the groups. -/
  | referenceRewrite (ctx entry : Nat)
  /-- REMAP_FILTER_WALK_COMPLETE (R85): A remap-filter walk of the synonym table ends, and the stalled access is rewritten to the leader address or raises ACCESS_VIOLATION. -/
  | remapFilterWalkComplete (r : Nat)
  deriving DecidableEq, Repr

end Sys2Proof
end

