-- ==== Sys2Proof/WellFormed.lean ====
section
/-! DEFINITION. Well-formed instructions: the checks of R194, R195 and of the instruction pages that a word's fields
alone decide. Each reason is the detail of R238 that the device records. -/

namespace Sys2Proof

/-- Why a word's fields are refused (R199 steps 4 and 5, details of R238). -/
inductive IllForm where
  /-- Detail 1: the code selects no form (R198). -/
  | unallocated
  /-- Detail 3: a reserved field, or an operand out of its range. -/
  | outOfRange
  /-- Detail 4: a pair field holds an odd number (R56, R194). -/
  | oddPair
  /-- Detail 7: a reserved code in a memory prefix (R195). -/
  | prefixCode
  deriving DecidableEq, Repr

/-- The detail of R238 that names the failing check. -/
def IllForm.detail : IllForm → Nat
  | .unallocated => 1
  | .outOfRange => 3
  | .oddPair => 4
  | .prefixCode => 7

/-- A pair's first register has an even number (R56). -/
abbrev odd {n : Nat} (x : BitVec n) : Prop := x.toNat % 2 = 1

/-- The conversion codes of R271 that name a floating-point format. -/
def isFloatCode (c : Nat) : Bool := c ≤ 6 || c == 12 || c == 13

/-- The access-path pairs that xfence accepts (R121), coded as in R294: G 0, C 1, F 2, W 3, I 4. -/
def xfencePair (a b : Nat) : Bool :=
  [(0, 1), (0, 2), (1, 0), (1, 4), (2, 0), (2, 1)].contains (a, b)

/-- The first failing check of an instruction's fields, in the order of R199. DEDUCED (log entry 17): a TYPE or an atomic code that
R289 and R292 call reserved is an unallocated operation (detail 1) and is found before an odd pair. -/
def Instr.check : Instr → Option IllForm
  | .clauseHeader _ _ _ _ _ => none
  | .pfx _ o s p c => if 4 < o.toNat then some .prefixCode else if 5 < s.toNat then some .prefixCode else if 4 < p.toNat then some .prefixCode else if 4 < c.toNat then some .prefixCode else none
  | .sadd _ _ _ _ | .ssub _ _ _ _ | .smul _ _ _ _ => none
  | .smulwI32 _ d _ _ => if odd d then some .oddPair else none
  | .smulwN32 _ d _ _ => if odd d then some .oddPair else none
  | .sdivI32 _ _ _ _ | .sdivN32 _ _ _ _ | .sremI32 _ _ _ _ | .sremN32 _ _ _ _ | .sand _ _ _ _ | .sor _ _ _ _
  | .sxor _ _ _ _ | .sandn _ _ _ _ | .sshl _ _ _ _ | .sshr _ _ _ _ | .ssra _ _ _ _ | .sminI32 _ _ _ _
  | .sminN32 _ _ _ _ | .smaxI32 _ _ _ _ | .smaxN32 _ _ _ _ => none
  | .saddB64 _ d a b => if odd d then some .oddPair else if odd a then some .oddPair else if odd b then some .oddPair else none
  | .ssubB64 _ d a b => if odd d then some .oddPair else if odd a then some .oddPair else if odd b then some .oddPair else none
  | .smulB64 _ d a b => if odd d then some .oddPair else if odd a then some .oddPair else if odd b then some .oddPair else none
  | .saddwI32 _ d a _ => if odd d then some .oddPair else if odd a then some .oddPair else none
  | .saddwN32 _ d a _ => if odd d then some .oddPair else if odd a then some .oddPair else none
  | .sshlB64 _ d a _ => if odd d then some .oddPair else if odd a then some .oddPair else none
  | .sshrB64 _ d a _ => if odd d then some .oddPair else if odd a then some .oddPair else none
  | .ssraB64 _ d a _ => if odd d then some .oddPair else if odd a then some .oddPair else none
  | .sandB64 _ d a b => if odd d then some .oddPair else if odd a then some .oddPair else if odd b then some .oddPair else none
  | .sorB64 _ d a b => if odd d then some .oddPair else if odd a then some .oddPair else if odd b then some .oddPair else none
  | .sxorB64 _ d a b => if odd d then some .oddPair else if odd a then some .oddPair else if odd b then some .oddPair else none
  | .saddi _ _ _ _ => none
  | .saddiB64 _ d a _ => if odd d then some .oddPair else if odd a then some .oddPair else none
  | .smovl _ _ _ | .smovh _ _ _ | .smovs _ _ _ => none
  | .scmpI32 _ c _ _ _ => if 5 < c.toNat then some .unallocated else none
  | .scmpN32 _ c _ _ _ => if 5 < c.toNat then some .unallocated else none
  | .scmpB64 _ c _ a b => if 5 < c.toNat then some .unallocated else if odd a then some .oddPair else if odd b then some .oddPair else none
  | .ssel _ _ _ _ => none
  | .sselB64 _ d a b => if odd d then some .oddPair else if odd a then some .oddPair else if odd b then some .oddPair else none
  | .sshli _ _ _ n => if 31 < n.toNat then some .outOfRange else none
  | .sshri _ _ _ n => if 31 < n.toNat then some .outOfRange else none
  | .ssrai _ _ _ n => if 31 < n.toNat then some .outOfRange else none
  | .sbfxN32 _ _ _ _ | .sbfxI32 _ _ _ _ | .sbfi _ _ _ _ | .spopc _ _ _ | .sclz _ _ _ | .sctz _ _ _ | .sbrev _ _ _ => none
  | .sshliB64 _ d a _ => if odd d then some .oddPair else if odd a then some .oddPair else none
  | .sshriB64 _ d a _ => if odd d then some .oddPair else if odd a then some .oddPair else none
  | .ssraiB64 _ d a _ => if odd d then some .oddPair else if odd a then some .oddPair else none
  | .spopcB64 _ _ a => if odd a then some .oddPair else none
  | .sclzB64 _ _ a => if odd a then some .oddPair else none
  | .sctzB64 _ _ a => if odd a then some .oddPair else none
  | .br _ _ | .brAny _ _ _ | .brZ _ _ _ | .brNz _ _ _ | .brv _ _ _ | .brvN _ _ _ | .call _ _ | .ret _ | .jt _ _
  | .jtCall _ _ => none
  | .jr _ a => if odd a then some .oddPair else none
  | .jrCall _ a => if odd a then some .oddPair else none
  | .rejoin _ _ | .eqp _ _ => none
  | .ppush _ a => if 7 < a.toNat then some .outOfRange else none
  | .ppushN _ a => if 7 < a.toNat then some .outOfRange else none
  | .pinv _ | .ppop _ => none
  | .pand _ d a b => if 7 < d.toNat then some .outOfRange else if 7 < a.toNat then some .outOfRange else if 7 < b.toNat then some .outOfRange else none
  | .por _ d a b => if 7 < d.toNat then some .outOfRange else if 7 < a.toNat then some .outOfRange else if 7 < b.toNat then some .outOfRange else none
  | .pxor _ d a b => if 7 < d.toNat then some .outOfRange else if 7 < a.toNat then some .outOfRange else if 7 < b.toNat then some .outOfRange else none
  | .pandn _ d a b => if 7 < d.toNat then some .outOfRange else if 7 < a.toNat then some .outOfRange else if 7 < b.toNat then some .outOfRange else none
  | .pnot _ d a => if 7 < d.toNat then some .outOfRange else if 7 < a.toNat then some .outOfRange else none
  | .pelect _ d => if 7 < d.toNat then some .outOfRange else none
  | .pld _ d a => if 7 < d.toNat then some .outOfRange else if 61 < a.toNat then some .outOfRange else none
  | .pst _ d a => if 61 < d.toNat then some .outOfRange else if 7 < a.toNat then some .outOfRange else none
  | .pcnt _ _ a => if 7 < a.toNat then some .outOfRange else none
  | .barSync _ i => if 15 < i.toNat then some .outOfRange else none
  | .wait _ _ _ _ _ _ | .waitcnt _ _ _ | .exit _ | .trap _ _ | .brk _ _ | .nop _ => none
  | .rdsr _ _ a => if a.toNat = 0 then some .outOfRange else if 10 < a.toNat then some .outOfRange else none
  | .rdsrPair _ d a => if odd d then some .oddPair else if a.toNat < 11 then some .outOfRange else if 12 < a.toNat then some .outOfRange else none
  | .wrsr _ d _ => if d.toNat ≠ 10 then some .outOfRange else none
  | .efork _ a b => if odd a then some .oddPair else if odd b then some .oddPair else none
  | .erdv _ | .hintSucc _ | .waitPred _ _ => none
  | .migrReq _ k => if 2 < k.toNat then some .outOfRange else none
  | .rdsrVector _ _ a => if 10 < a.toNat then some .outOfRange else none
  | .rdctx _ d a => if odd d then some .oddPair else if 5 < a.toNat then some .outOfRange else none
  | .emretTo _ _ | .emretSkip _ _ | .nmove _ _ _ | .nalias _ _ _ | .nswap _ _ _ | .ndrop _ _ | .nfresh _ _ => none
  | .ngive _ s _ l => if 63 < s.toNat ∧ s.toNat ≠ 127 then some .outOfRange else if 63 < l.toNat then some .outOfRange else none
  | .ntake _ _ s l => if 63 < s.toNat ∧ s.toNat ≠ 127 then some .outOfRange else if 63 < l.toNat then some .outOfRange else none
  | .nperm _ d a k => if a.toNat ≤ d.toNat then some .outOfRange else if k.toNat = 0 then some .outOfRange else if a.toNat - d.toNat + 1 ≤ k.toNat then some .outOfRange else none
  | .nquery _ d _ => if 63 < d.toNat then some .outOfRange else none
  | .vaddI32 _ _ _ _ | .vsubI32 _ _ _ _ | .vmulI32 _ _ _ _ | .vmulhiI32 _ _ _ _ | .vmulhiN32 _ _ _ _
  | .vminI32 _ _ _ _ | .vminN32 _ _ _ _ | .vmaxI32 _ _ _ _ | .vmaxN32 _ _ _ _ | .vaddsI32 _ _ _ _
  | .vsubsI32 _ _ _ _ | .vabsI32 _ _ _ | .vaddminI32 _ _ _ _ | .vcopy _ _ _ => none
  | .vaddB64 _ d a b => if odd d then some .oddPair else if odd a then some .oddPair else if odd b then some .oddPair else none
  | .vsubB64 _ d a b => if odd d then some .oddPair else if odd a then some .oddPair else if odd b then some .oddPair else none
  | .vand _ _ _ _ | .vor _ _ _ _ | .vxor _ _ _ _ | .vandn _ _ _ _ | .vnot _ _ _ | .vshl _ _ _ _ | .vshr _ _ _ _
  | .vsra _ _ _ _ | .vpopc _ _ _ | .vclz _ _ _ | .vctz _ _ _ | .vbrev _ _ _ | .vaddiI32 _ _ _ _ | .vmuliI32 _ _ _ _
  | .vandi _ _ _ _ | .vori _ _ _ _ | .vxori _ _ _ _ | .vminiI32 _ _ _ _ | .vmaxiI32 _ _ _ _ => none
  | .vshli _ _ _ i => if 31 < i.toNat then some .outOfRange else none
  | .vshri _ _ _ i => if 31 < i.toNat then some .outOfRange else none
  | .vsrai _ _ _ i => if 31 < i.toNat then some .outOfRange else none
  | .vmovi _ _ _ | .vmoviH _ _ _ | .vmoviZ _ _ _ => none
  | .vcmpI32 _ c _ _ _ => if 5 < c.toNat then some .outOfRange else none
  | .vcmpN32 _ c _ _ _ => if 5 < c.toNat then some .outOfRange else none
  | .vtst _ _ _ _ | .vsel _ _ _ _ _ | .vshfl _ _ _ _ | .vlsh _ _ _ _ => none
  | .vbcast _ _ _ n => if 95 < n.toNat then some .outOfRange else none
  | .vbcastS _ _ s => if 63 < s.toNat then some .outOfRange else none
  | .vregroupRecv _ d a g => if 31 < g.toNat then some .outOfRange else if a.toNat < d.toNat then some .outOfRange else none
  | .vregroupSend _ d a g => if 31 < g.toNat then some .outOfRange else if a.toNat < d.toNat then some .outOfRange else none
  | .vredAddI32 _ _ _ | .vredMinI32 _ _ _ | .vredMinN32 _ _ _ | .vredMaxI32 _ _ _ | .vredMaxN32 _ _ _
  | .vredAnd _ _ _ | .vredOr _ _ _ | .vredXor _ _ _ | .vscanAddI32 _ _ _ | .vscanMaxI32 _ _ _ => none
  | .vvoteAny _ d p => if 63 < d.toNat then some .outOfRange else if 7 < p.toNat then some .outOfRange else none
  | .vvoteAll _ d p => if 63 < d.toNat then some .outOfRange else if 7 < p.toNat then some .outOfRange else none
  | .vvoteFirst _ d p => if 63 < d.toNat then some .outOfRange else if 7 < p.toNat then some .outOfRange else none
  | .vballot _ d p => if 58 < d.toNat then some .outOfRange else if 7 < p.toNat then some .outOfRange else none
  | .vdot4I8 _ _ _ _ | .vdot4N8 _ _ _ _ | .vfaddF32 _ _ _ _ _ | .vfsubF32 _ _ _ _ _ | .vfmulF32 _ _ _ _ _ => none
  | .vfaddF64 _ d a b => if odd d then some .oddPair else if odd a then some .oddPair else if odd b then some .oddPair else none
  | .vfsubF64 _ d a b => if odd d then some .oddPair else if odd a then some .oddPair else if odd b then some .oddPair else none
  | .vfmulF64 _ d a b => if odd d then some .oddPair else if odd a then some .oddPair else if odd b then some .oddPair else none
  | .vffmaF32 _ _ _ _ _ => none
  | .vffmaF64 _ _ d a b => if odd d then some .oddPair else if odd a then some .oddPair else if odd b then some .oddPair else none
  | .vfaddminF32 _ _ _ _ | .vfaddPacked _ _ _ _ _ | .vfsubPacked _ _ _ _ _ | .vfmulPacked _ _ _ _ _
  | .vffmaPacked _ _ _ _ _ | .vfminPacked _ _ _ _ _ | .vfmaxPacked _ _ _ _ _ | .vfdot2 _ _ _ _ _ => none
  | .vcvt _ s d a t _ n => if 13 < s.toNat then some .unallocated else if s.toNat = 1 ∧ odd a then some .oddPair else if t.toNat = 1 ∧ odd d then some .oddPair else if 11 < t.toNat then some .outOfRange else if n = true ∧ ¬ (isFloatCode s.toNat = true ∧ isFloatCode t.toNat = true) then some .outOfRange else none
  | .vcvtPkBf16x2 _ _ _ _ | .vcvtPkF16x2 _ _ _ _ => none
  | .vquant _ f _ _ _ => if 4 < f.toNat then some .unallocated else none
  | .vdequant _ f _ _ _ => if 4 < f.toNat then some .unallocated else none
  | .vtrit _ _ _ _ | .vrcpF32 _ _ _ _ | .vsqrtF32 _ _ _ _ | .vdivF32 _ _ _ _ _ | .vexp2F32 _ _ _ | .vlog2F32 _ _ _
  | .vsinF32 _ _ _ | .vcosF32 _ _ _ => none
  | .vfcmpF32 _ c _ _ _ => if 6 < c.toNat then some .outOfRange else none
  | .vfcmpF64 _ c _ a b => if odd a then some .oddPair else if odd b then some .oddPair else if 6 < c.toNat then some .outOfRange else none
  | .vfclassF32 _ _ _ k => if 96 ≤ k.toNat then some .outOfRange else none
  | .vfclassF64 _ _ a k => if odd a then some .oddPair else if 96 ≤ k.toNat then some .outOfRange else none
  | .vfminF32 _ _ _ _ | .vfmaxF32 _ _ _ _ => none
  | .vfminF64 _ d a b => if odd d then some .oddPair else if odd a then some .oddPair else if odd b then some .oddPair else none
  | .vfmaxF64 _ d a b => if odd d then some .oddPair else if odd a then some .oddPair else if odd b then some .oddPair else none
  | .vfabsF32 _ _ _ | .vfnegF32 _ _ _ | .vfcsgnF32 _ _ _ _ => none
  | .vfabsF64 _ d a => if odd d then some .oddPair else if odd a then some .oddPair else none
  | .vfnegF64 _ d a => if odd d then some .oddPair else if odd a then some .oddPair else none
  | .vfcsgnF64 _ d a b => if odd d then some .oddPair else if odd a then some .oddPair else if odd b then some .oddPair else none
  | .vfredAddF32 _ _ _ _ | .vfscanAddF32 _ _ _ _ | .vfredMaxF32 _ _ _ | .vfredMinF32 _ _ _ => none
  | .vfredAddF64 _ d a => if odd d then some .oddPair else if odd a then some .oddPair else none
  | .vfredMaxF64 _ d a => if odd d then some .oddPair else if odd a then some .oddPair else none
  | .vfredMinF64 _ d a => if odd d then some .oddPair else if odd a then some .oddPair else none
  | .vfscanAddF64 _ d a => if odd d then some .oddPair else if odd a then some .oddPair else none
  | .vld _ t d _ b _ => if 4 < t.toNat then some .unallocated else if odd b then some .oddPair else if t.toNat = 3 ∧ odd d then some .oddPair else none
  | .vst _ t d _ b _ => if 3 < t.toNat then some .unallocated else if odd b then some .oddPair else if t.toNat = 3 ∧ odd d then some .oddPair else none
  | .vatom _ p d _ b _ => if 12 < p.toNat then some .unallocated else if odd b then some .oddPair else if 9 ≤ p.toNat ∧ p.toNat ≤ 11 ∧ odd d then some .oddPair else none
  | .fatom _ p d _ b _ => if 12 < p.toNat then some .unallocated else if odd b then some .oddPair else if 9 ≤ p.toNat ∧ p.toNat ≤ 11 ∧ odd d then some .oddPair else none
  | .vldSp _ z d _ b _ => if odd b then some .oddPair else if z.toNat = 3 ∧ odd d then some .oddPair else none
  | .vstSp _ z d _ b _ => if odd b then some .oddPair else if z.toNat = 3 ∧ odd d then some .oddPair else none
  | .vldNv _ z d _ b _ => if odd b then some .oddPair else if z.toNat = 3 ∧ odd d then some .oddPair else none
  | .vstNv _ z d _ b _ => if odd b then some .oddPair else if z.toNat = 3 ∧ odd d then some .oddPair else none
  | .vcacheWb _ _ b _ => if odd b then some .oddPair else none
  | .vcacheWbinv _ _ b _ => if odd b then some .oddPair else none
  | .vcachePf _ _ b _ => if odd b then some .oddPair else none
  | .vcacheDemote _ _ b _ => if odd b then some .oddPair else none
  | .sld _ d a t _ => if 4 < t.toNat then some .unallocated else if odd a then some .oddPair else if t.toNat = 3 ∧ odd d then some .oddPair else none
  | .sst _ d a t _ => if 3 < t.toNat then some .unallocated else if odd a then some .oddPair else if t.toNat = 3 ∧ odd d then some .oddPair else none
  | .satom _ p d a b => if 12 < p.toNat then some .unallocated else if odd a then some .oddPair else if 9 ≤ p.toNat ∧ p.toNat ≤ 11 ∧ odd b then some .oddPair else if 10 ≤ p.toNat ∧ p.toNat ≤ 11 ∧ odd d then some .oddPair else none
  | .satomNr _ p a b => if 12 < p.toNat then some .unallocated else if odd a then some .oddPair else if 9 ≤ p.toNat ∧ p.toNat ≤ 11 ∧ odd b then some .oddPair else none
  | .fence _ o e => if o.toNat = 0 then some .outOfRange else if 3 < o.toNat then some .outOfRange else if 5 < e.toNat then some .outOfRange else none
  | .xfence _ a b => if xfencePair a.toNat b.toNat = false then some .outOfRange else none
  | .tlfence _ e => if 5 < e.toNat then some .outOfRange else none
  | .ifence _ | .cpyLd _ _ _ _ | .cpySlot _ _ _ _ | .cpySt _ _ _ _ | .cpyGg _ _ _ _ | .cpyGth _ _ _ _
  | .cpyMc _ _ _ _ | .cpyMcSlot _ _ _ _ | .tnset _ _ _ _ | .tnget _ _ _ => none
  | .cbat _ e d => if e = false ∧ d.toNat ≠ 0 then some .outOfRange else none
  | .cwait _ _ | .cwaitR _ _ => none
  | .tbinit _ _ b => if odd b then some .oddPair else none
  | .tbarrive _ _ k => if k.toNat = 0 then some .outOfRange else none
  | .tbarriveR _ _ _ | .tbwait _ _ _ | .tbphase _ _ _ | .sltake _ _ _ | .slrel _ _ _ | .sltag _ _ _ _
  | .slinit _ _ _ => none
  | .qpush _ g _ _ q => if g = true ∧ 63 < q.toNat then some .outOfRange else none
  | .qpushTry _ g _ _ _ q => if g = true ∧ 63 < q.toNat then some .outOfRange else none
  | .qwait _ g _ _ q => if g = true ∧ 63 < q.toNat then some .outOfRange else none
  | .qpopTry _ g _ _ _ q => if g = true ∧ 63 < q.toNat then some .outOfRange else none
  | .vmma _ f h a b => if 5 < f.toNat then some .unallocated else if 95 < h.toNat then some .outOfRange else if 112 < a.toNat then some .outOfRange else if 125 < b.toNat then some .outOfRange else if f.toNat = 5 ∧ (110 < a.toNat ∨ 124 < b.toNat) then some .outOfRange else none
  | .fmm _ h a _ => if 95 < h.toNat then some .outOfRange else if 26 < a.toNat then some .outOfRange else none
  | .fmmt _ h a _ => if 95 < h.toNat then some .outOfRange else if 26 < a.toNat then some .outOfRange else none
  | .fpoly _ h a => if 95 < h.toNat then some .outOfRange else if 31 < a.toNat then some .outOfRange else none
  | .fiter _ h a d => if odd d then some .oddPair else if 95 < h.toNat then some .outOfRange else if 31 < a.toNat then some .outOfRange else if 31 < d.toNat then some .outOfRange else none
  | .ftmask _ h a => if 95 < h.toNat then some .outOfRange else if 27 < a.toNat then some .outOfRange else none
  | .ftmaskAnc _ h a => if 95 < h.toNat then some .outOfRange else if 27 < a.toNat then some .outOfRange else none
  | .faccLd _ h _ => if 95 < h.toNat then some .outOfRange else none
  | .faccStF32 _ h _ => if 95 < h.toNat then some .outOfRange else none
  | .faccStBf16 _ h _ => if 95 < h.toNat then some .outOfRange else none
  | .faccStF16 _ h _ => if 95 < h.toNat then some .outOfRange else none
  | .faccRd _ h d _ => if 95 < h.toNat then some .outOfRange else if 112 < d.toNat then some .outOfRange else none
  | .faccZero _ h => if 95 < h.toNat then some .outOfRange else none
  | .fcset _ _ _ | .fcget _ _ _ | .fcld _ _ | .fslotTake _ _ _ | .fslotRelease _ _ _ => none
  | .ftbarrive _ _ k => if k.toNat = 0 then some .outOfRange else none
  | .emulationEntry _ | .packetNop _ | .launch _ | .signal _ | .signalWaitallRelease _ | .waitmem _
  | .waitmemSatisfied _ | .fieldset _ | .fieldsetDestroy _ | .setctx _ | .setctxDestroy _ | .wqcreate _
  | .wqDestroy _ | .graphrun _ | .graphedit _ | .fwdupdate _ | .xlateinv _ | .syninv _ | .vaultgrant _ | .preempt _
  | .teamctlDestroy _ | .teamctlResume _ | .faultreplyRetry _ | .faultreplyFail _ | .faultring _ | .vaultcarve _
  | .keyarea _ | .protways _ | .scrub _ | .attest _ | .tracekey _ | .dbgctlBpset _ | .dbgctlStop _ | .dbgctlResume _
  | .dbgctlStep _ | .dbgctlDump _ | .dbgctlWrite _ | .tracectl _ | .resync _ | .powercap _ | .doorbell _
  | .queueScan _ | .orphanLatch _ | .qtbaseWrite _ | .cxldecWrite _ | .registerWrite _ _ | .go _ | .resetreq _
  | .bootLoadComplete | .powerOnReset | .deviceReset | .hostWindowAccess _ _ _ _ _ _ | .teamAdmit
  | .teamSaveComplete _ | .teamRestore _ | .drainTimeout _ | .serviceLimitExpiry _ | .migration _
  | .eqpHoldTimeout _ _ | .clearSequenceDone _ | .keyReseat _ | .walkComplete _ | .faultRingRoom | .homeRequest _
  | .clockBeatSend _ _ | .clockBeat _ _ | .replyReceive _ | .resultReturn _ | .storePerformed _ | .sectorLand _ _
  | .l2WriteQueuePerform _ _ _ | .flumeOpApplied _ _ | .fiterStop _ | .waitTimeout _ _ _ | .waitMemwordPoll _ _ _
  | .rowPoolEmpty _ _ _ | .queueRequestAtHome _ | .llScoreHalve _ | .llCapUpdate _ | .sampleTag _ _
  | .flitReceive _ _ _ | .ackIdleTimer _ | .nakRepeatTimer _ | .replayTimeout _ | .retrainComplete _ _
  | .coreUncorrectableError _ _ | .eccCorrected _ | .sectorPoison _ _ _ | .laneDefect _ _ _ | .powerThrottle _
  | .thermalThrottle _ | .thermalTrip _ | .coolantFault | .culvertLinkStateChange _ _ | .cxlPortStateChange _ _
  | .powerLoss | .commandComplete _ | .referenceRewrite _ _ | .remapFilterWalkComplete _ => none

/-- An instruction whose fields pass every check. -/
def WellFormed (i : Instr) : Prop := i.check = none

end Sys2Proof
end

