-- ==== Sys2Proof/Decode.lean ====
section
/-! DEFINITION. The decoder and the encoder of the instruction words (R193, R197, R198), from the encoding tables of
the instruction chapters. A word is decoded by its major opcode and its minor; the fields the row leaves unused must
be 0 (R194); then Instr.check decides the operands. Decoding is total: a refused word names its reason. -/

namespace Sys2Proof

/-- The major opcode, bits 30:25 of every format (R193). -/
def majorOf (w : Word) : Nat := (w.toNat / 2 ^ 25) % 64

/-- A reserved field's bits, which must be 0 (R194). -/
def clear (w : Word) (mask : Nat) : Bool := w &&& BitVec.ofNat 32 mask == 0#32

/-- What a word's major and minor select, before the operand checks. -/
inductive Parse where
  /-- No form has this major and minor (R198). -/
  | unallocated
  /-- The form exists and a field it leaves unused is not 0 (R194); the instruction its other fields name. -/
  | reserved (i : Instr)
  | ok (i : Instr)
  deriving DecidableEq, Repr

/-- A row whose unused bits are `mask`. -/
def row (w : Word) (mask : Nat) (i : Instr) : Parse := if clear w mask then .ok i else .reserved i

/-- The words of major 0x01 (R197). -/
def parse01 (w : Word) : Parse :=
  row w 0x1fff (.pfx (w.getLsbD 31) (w.extractLsb' 22 3) (w.extractLsb' 19 3) (w.extractLsb' 16 3) (w.extractLsb' 13 3))

/-- The words of major 0x02 (R197). -/
def parse02 (w : Word) : Parse :=
  match (w.extractLsb' 18 7).toNat with
  | 0 => .ok (.sadd (w.getLsbD 31) (w.extractLsb' 12 6) (w.extractLsb' 6 6) (w.extractLsb' 0 6))
  | 1 => .ok (.ssub (w.getLsbD 31) (w.extractLsb' 12 6) (w.extractLsb' 6 6) (w.extractLsb' 0 6))
  | 2 => .ok (.smul (w.getLsbD 31) (w.extractLsb' 12 6) (w.extractLsb' 6 6) (w.extractLsb' 0 6))
  | 3 => .ok (.smulwI32 (w.getLsbD 31) (w.extractLsb' 12 6) (w.extractLsb' 6 6) (w.extractLsb' 0 6))
  | 4 => .ok (.smulwN32 (w.getLsbD 31) (w.extractLsb' 12 6) (w.extractLsb' 6 6) (w.extractLsb' 0 6))
  | 5 => .ok (.sdivI32 (w.getLsbD 31) (w.extractLsb' 12 6) (w.extractLsb' 6 6) (w.extractLsb' 0 6))
  | 6 => .ok (.sdivN32 (w.getLsbD 31) (w.extractLsb' 12 6) (w.extractLsb' 6 6) (w.extractLsb' 0 6))
  | 7 => .ok (.sremI32 (w.getLsbD 31) (w.extractLsb' 12 6) (w.extractLsb' 6 6) (w.extractLsb' 0 6))
  | 8 => .ok (.sremN32 (w.getLsbD 31) (w.extractLsb' 12 6) (w.extractLsb' 6 6) (w.extractLsb' 0 6))
  | 9 => .ok (.sand (w.getLsbD 31) (w.extractLsb' 12 6) (w.extractLsb' 6 6) (w.extractLsb' 0 6))
  | 10 => .ok (.sor (w.getLsbD 31) (w.extractLsb' 12 6) (w.extractLsb' 6 6) (w.extractLsb' 0 6))
  | 11 => .ok (.sxor (w.getLsbD 31) (w.extractLsb' 12 6) (w.extractLsb' 6 6) (w.extractLsb' 0 6))
  | 12 => .ok (.sandn (w.getLsbD 31) (w.extractLsb' 12 6) (w.extractLsb' 6 6) (w.extractLsb' 0 6))
  | 13 => .ok (.sshl (w.getLsbD 31) (w.extractLsb' 12 6) (w.extractLsb' 6 6) (w.extractLsb' 0 6))
  | 14 => .ok (.sshr (w.getLsbD 31) (w.extractLsb' 12 6) (w.extractLsb' 6 6) (w.extractLsb' 0 6))
  | 15 => .ok (.ssra (w.getLsbD 31) (w.extractLsb' 12 6) (w.extractLsb' 6 6) (w.extractLsb' 0 6))
  | 16 => .ok (.sminI32 (w.getLsbD 31) (w.extractLsb' 12 6) (w.extractLsb' 6 6) (w.extractLsb' 0 6))
  | 17 => .ok (.sminN32 (w.getLsbD 31) (w.extractLsb' 12 6) (w.extractLsb' 6 6) (w.extractLsb' 0 6))
  | 18 => .ok (.smaxI32 (w.getLsbD 31) (w.extractLsb' 12 6) (w.extractLsb' 6 6) (w.extractLsb' 0 6))
  | 19 => .ok (.smaxN32 (w.getLsbD 31) (w.extractLsb' 12 6) (w.extractLsb' 6 6) (w.extractLsb' 0 6))
  | 32 => .ok (.saddB64 (w.getLsbD 31) (w.extractLsb' 12 6) (w.extractLsb' 6 6) (w.extractLsb' 0 6))
  | 33 => .ok (.ssubB64 (w.getLsbD 31) (w.extractLsb' 12 6) (w.extractLsb' 6 6) (w.extractLsb' 0 6))
  | 34 => .ok (.smulB64 (w.getLsbD 31) (w.extractLsb' 12 6) (w.extractLsb' 6 6) (w.extractLsb' 0 6))
  | 35 => .ok (.saddwI32 (w.getLsbD 31) (w.extractLsb' 12 6) (w.extractLsb' 6 6) (w.extractLsb' 0 6))
  | 36 => .ok (.saddwN32 (w.getLsbD 31) (w.extractLsb' 12 6) (w.extractLsb' 6 6) (w.extractLsb' 0 6))
  | 37 => .ok (.sshlB64 (w.getLsbD 31) (w.extractLsb' 12 6) (w.extractLsb' 6 6) (w.extractLsb' 0 6))
  | 38 => .ok (.sshrB64 (w.getLsbD 31) (w.extractLsb' 12 6) (w.extractLsb' 6 6) (w.extractLsb' 0 6))
  | 39 => .ok (.ssraB64 (w.getLsbD 31) (w.extractLsb' 12 6) (w.extractLsb' 6 6) (w.extractLsb' 0 6))
  | 40 => .ok (.sandB64 (w.getLsbD 31) (w.extractLsb' 12 6) (w.extractLsb' 6 6) (w.extractLsb' 0 6))
  | 41 => .ok (.sorB64 (w.getLsbD 31) (w.extractLsb' 12 6) (w.extractLsb' 6 6) (w.extractLsb' 0 6))
  | 42 => .ok (.sxorB64 (w.getLsbD 31) (w.extractLsb' 12 6) (w.extractLsb' 6 6) (w.extractLsb' 0 6))
  | _ => .unallocated

/-- The words of major 0x03 (R197). -/
def parse03 (w : Word) : Parse :=
  match (w.extractLsb' 24 1).toNat with
  | 0 => .ok (.saddi (w.getLsbD 31) (w.extractLsb' 18 6) (w.extractLsb' 12 6) (w.extractLsb' 0 12))
  | 1 => .ok (.saddiB64 (w.getLsbD 31) (w.extractLsb' 18 6) (w.extractLsb' 12 6) (w.extractLsb' 0 12))
  | _ => .unallocated

/-- The words of major 0x04 (R197). -/
def parse04 (w : Word) : Parse :=
  match (w.extractLsb' 16 3).toNat with
  | 0 => .ok (.smovl (w.getLsbD 31) (w.extractLsb' 19 6) (w.extractLsb' 0 16))
  | 1 => .ok (.smovh (w.getLsbD 31) (w.extractLsb' 19 6) (w.extractLsb' 0 16))
  | 2 => .ok (.smovs (w.getLsbD 31) (w.extractLsb' 19 6) (w.extractLsb' 0 16))
  | _ => .unallocated

/-- The words of major 0x05 (R197). -/
def parse05 (w : Word) : Parse :=
  match (w.extractLsb' 18 7).toNat with
  | 0 | 1 | 2 | 3 | 4 | 5 | 6 | 7 => .ok (.scmpI32 (w.getLsbD 31) (w.extractLsb' 18 3) (w.extractLsb' 12 6) (w.extractLsb' 6 6) (w.extractLsb' 0 6))
  | 32 | 33 | 34 | 35 | 36 | 37 | 38 | 39 => .ok (.scmpN32 (w.getLsbD 31) (w.extractLsb' 18 3) (w.extractLsb' 12 6) (w.extractLsb' 6 6) (w.extractLsb' 0 6))
  | 64 | 65 | 66 | 67 | 68 | 69 | 70 | 71 => .ok (.scmpB64 (w.getLsbD 31) (w.extractLsb' 18 3) (w.extractLsb' 12 6) (w.extractLsb' 6 6) (w.extractLsb' 0 6))
  | 96 => .ok (.ssel (w.getLsbD 31) (w.extractLsb' 12 6) (w.extractLsb' 6 6) (w.extractLsb' 0 6))
  | 97 => .ok (.sselB64 (w.getLsbD 31) (w.extractLsb' 12 6) (w.extractLsb' 6 6) (w.extractLsb' 0 6))
  | _ => .unallocated

/-- The words of major 0x06 (R197). -/
noncomputable def parse06 (w : Word) : Parse :=
  match (w.extractLsb' 24 1).toNat with
  | 0 => .ok (.sld (w.getLsbD 31) (w.extractLsb' 18 6) (w.extractLsb' 12 6) (w.extractLsb' 9 3) (w.extractLsb' 0 9))
  | 1 => .ok (.sst (w.getLsbD 31) (w.extractLsb' 18 6) (w.extractLsb' 12 6) (w.extractLsb' 9 3) (w.extractLsb' 0 9))
  | _ => .unallocated

/-- The words of major 0x07 (R197). -/
def parse07 (w : Word) : Parse :=
  match (w.extractLsb' 18 7).toNat with
  | 0 => .ok (.sshli (w.getLsbD 31) (w.extractLsb' 12 6) (w.extractLsb' 6 6) (w.extractLsb' 0 6))
  | 1 => .ok (.sshri (w.getLsbD 31) (w.extractLsb' 12 6) (w.extractLsb' 6 6) (w.extractLsb' 0 6))
  | 2 => .ok (.ssrai (w.getLsbD 31) (w.extractLsb' 12 6) (w.extractLsb' 6 6) (w.extractLsb' 0 6))
  | 3 => .ok (.sbfxN32 (w.getLsbD 31) (w.extractLsb' 12 6) (w.extractLsb' 6 6) (w.extractLsb' 0 6))
  | 4 => .ok (.sbfxI32 (w.getLsbD 31) (w.extractLsb' 12 6) (w.extractLsb' 6 6) (w.extractLsb' 0 6))
  | 5 => .ok (.sbfi (w.getLsbD 31) (w.extractLsb' 12 6) (w.extractLsb' 6 6) (w.extractLsb' 0 6))
  | 6 => row w 0x3f (.spopc (w.getLsbD 31) (w.extractLsb' 12 6) (w.extractLsb' 6 6))
  | 7 => row w 0x3f (.sclz (w.getLsbD 31) (w.extractLsb' 12 6) (w.extractLsb' 6 6))
  | 8 => row w 0x3f (.sctz (w.getLsbD 31) (w.extractLsb' 12 6) (w.extractLsb' 6 6))
  | 9 => row w 0x3f (.sbrev (w.getLsbD 31) (w.extractLsb' 12 6) (w.extractLsb' 6 6))
  | 16 => .ok (.sshliB64 (w.getLsbD 31) (w.extractLsb' 12 6) (w.extractLsb' 6 6) (w.extractLsb' 0 6))
  | 17 => .ok (.sshriB64 (w.getLsbD 31) (w.extractLsb' 12 6) (w.extractLsb' 6 6) (w.extractLsb' 0 6))
  | 18 => .ok (.ssraiB64 (w.getLsbD 31) (w.extractLsb' 12 6) (w.extractLsb' 6 6) (w.extractLsb' 0 6))
  | 22 => row w 0x3f (.spopcB64 (w.getLsbD 31) (w.extractLsb' 12 6) (w.extractLsb' 6 6))
  | 23 => row w 0x3f (.sclzB64 (w.getLsbD 31) (w.extractLsb' 12 6) (w.extractLsb' 6 6))
  | 24 => row w 0x3f (.sctzB64 (w.getLsbD 31) (w.extractLsb' 12 6) (w.extractLsb' 6 6))
  | _ => .unallocated

/-- The words of major 0x08 (R197). -/
def parse08 (w : Word) : Parse :=
  match (w.extractLsb' 20 5).toNat with
  | 0 => .ok (.br (w.getLsbD 31) (w.extractLsb' 0 20))
  | 8 | 9 | 10 | 11 | 12 | 13 | 14 | 15 => .ok (.brAny (w.getLsbD 31) (w.extractLsb' 20 3) (w.extractLsb' 0 20))
  | 16 | 17 | 18 | 19 | 20 | 21 | 22 | 23 => .ok (.brZ (w.getLsbD 31) (w.extractLsb' 20 3) (w.extractLsb' 0 20))
  | 24 | 25 | 26 | 27 | 28 | 29 | 30 | 31 => .ok (.brNz (w.getLsbD 31) (w.extractLsb' 20 3) (w.extractLsb' 0 20))
  | _ => .unallocated

/-- The words of major 0x09 (R197). -/
def parse09 (w : Word) : Parse :=
  match (w.extractLsb' 20 5).toNat with
  | 0 | 1 | 2 | 3 | 4 | 5 | 6 | 7 => .ok (.brv (w.getLsbD 31) (w.extractLsb' 20 3) (w.extractLsb' 0 20))
  | 8 | 9 | 10 | 11 | 12 | 13 | 14 | 15 => .ok (.brvN (w.getLsbD 31) (w.extractLsb' 20 3) (w.extractLsb' 0 20))
  | _ => .unallocated

/-- The words of major 0x0a (R197). -/
def parse0A (w : Word) : Parse :=
  match (w.extractLsb' 20 5).toNat with
  | 0 => .ok (.call (w.getLsbD 31) (w.extractLsb' 0 20))
  | 1 => row w 0xfffff (.ret (w.getLsbD 31))
  | 2 => row w 0xfffc0 (.jt (w.getLsbD 31) (w.extractLsb' 0 6))
  | 3 => row w 0xfffc0 (.jtCall (w.getLsbD 31) (w.extractLsb' 0 6))
  | 4 => row w 0xfffc0 (.jr (w.getLsbD 31) (w.extractLsb' 0 6))
  | 5 => row w 0xfffc0 (.jrCall (w.getLsbD 31) (w.extractLsb' 0 6))
  | _ => .unallocated

/-- The words of major 0x0b (R197). -/
def parse0B (w : Word) : Parse :=
  match (w.extractLsb' 20 5).toNat with
  | 0 => .ok (.rejoin (w.getLsbD 31) (w.extractLsb' 0 20))
  | 1 => row w 0xf0000 (.eqp (w.getLsbD 31) (w.extractLsb' 0 16))
  | _ => .unallocated

/-- The words of major 0x0c (R197). -/
def parse0C (w : Word) : Parse :=
  match (w.extractLsb' 18 7).toNat with
  | 0 => row w 0x3f03f (.ppush (w.getLsbD 31) (w.extractLsb' 6 6))
  | 1 => row w 0x3f03f (.ppushN (w.getLsbD 31) (w.extractLsb' 6 6))
  | 2 => row w 0x3ffff (.pinv (w.getLsbD 31))
  | 3 => row w 0x3ffff (.ppop (w.getLsbD 31))
  | _ => .unallocated

/-- The words of major 0x0d (R197). -/
def parse0D (w : Word) : Parse :=
  match (w.extractLsb' 18 7).toNat with
  | 0 => .ok (.pand (w.getLsbD 31) (w.extractLsb' 12 6) (w.extractLsb' 6 6) (w.extractLsb' 0 6))
  | 1 => .ok (.por (w.getLsbD 31) (w.extractLsb' 12 6) (w.extractLsb' 6 6) (w.extractLsb' 0 6))
  | 2 => .ok (.pxor (w.getLsbD 31) (w.extractLsb' 12 6) (w.extractLsb' 6 6) (w.extractLsb' 0 6))
  | 3 => .ok (.pandn (w.getLsbD 31) (w.extractLsb' 12 6) (w.extractLsb' 6 6) (w.extractLsb' 0 6))
  | 4 => row w 0x3f (.pnot (w.getLsbD 31) (w.extractLsb' 12 6) (w.extractLsb' 6 6))
  | 8 => row w 0xfff (.pelect (w.getLsbD 31) (w.extractLsb' 12 6))
  | 9 => row w 0x3f (.pld (w.getLsbD 31) (w.extractLsb' 12 6) (w.extractLsb' 6 6))
  | 10 => row w 0x3f (.pst (w.getLsbD 31) (w.extractLsb' 12 6) (w.extractLsb' 6 6))
  | 11 => row w 0x3f (.pcnt (w.getLsbD 31) (w.extractLsb' 12 6) (w.extractLsb' 6 6))
  | _ => .unallocated

/-- The words of major 0x0e (R197). -/
def parse0E (w : Word) : Parse :=
  match (w.extractLsb' 18 7).toNat with
  | 0 => row w 0x3ffc0 (.barSync (w.getLsbD 31) (w.extractLsb' 0 6))
  | 16 | 17 | 18 | 19 | 20 | 21 | 22 | 23 => .ok (.wait (w.getLsbD 31) (w.getLsbD 20) (w.extractLsb' 18 2) (w.extractLsb' 12 6) (w.extractLsb' 6 6) (w.extractLsb' 0 6))
  | 32 => row w 0x3fc00 (.waitcnt (w.getLsbD 31) (w.extractLsb' 6 4) (w.extractLsb' 0 6))
  | _ => .unallocated

/-- The words of major 0x0f (R197). -/
def parse0F (w : Word) : Parse :=
  match (w.extractLsb' 18 7).toNat with
  | 0 => row w 0x3ffff (.exit (w.getLsbD 31))
  | 1 => row w 0x3ffc0 (.trap (w.getLsbD 31) (w.extractLsb' 0 6))
  | 2 => row w 0x3ffc0 (.brk (w.getLsbD 31) (w.extractLsb' 0 6))
  | 3 => row w 0x3ffff (.nop (w.getLsbD 31))
  | 4 => row w 0x3f (.rdsr (w.getLsbD 31) (w.extractLsb' 12 6) (w.extractLsb' 6 6))
  | 5 => row w 0x3f (.rdsrPair (w.getLsbD 31) (w.extractLsb' 12 6) (w.extractLsb' 6 6))
  | 6 => row w 0x3f (.wrsr (w.getLsbD 31) (w.extractLsb' 12 6) (w.extractLsb' 6 6))
  | 8 => row w 0x3f000 (.efork (w.getLsbD 31) (w.extractLsb' 6 6) (w.extractLsb' 0 6))
  | 9 => row w 0x3ffff (.erdv (w.getLsbD 31))
  | 10 => row w 0x3ffff (.hintSucc (w.getLsbD 31))
  | 11 => row w 0xfff (.waitPred (w.getLsbD 31) (w.extractLsb' 12 6))
  | 16 => row w 0x3ffc0 (.migrReq (w.getLsbD 31) (w.extractLsb' 0 6))
  | 64 | 65 => row w 0x3f (.rdsrVector (w.getLsbD 31) (w.extractLsb' 12 7) (w.extractLsb' 6 6))
  | 124 => row w 0x3f (.rdctx (w.getLsbD 31) (w.extractLsb' 12 6) (w.extractLsb' 6 6))
  | 126 => row w 0x3ffc0 (.emretTo (w.getLsbD 31) (w.extractLsb' 0 6))
  | 127 => row w 0x3ffc0 (.emretSkip (w.getLsbD 31) (w.extractLsb' 0 6))
  | _ => .unallocated

/-- The words of major 0x10 (R197). -/
def parse10 (w : Word) : Parse :=
  match (w.extractLsb' 21 4).toNat with
  | 0 => row w 0x7f (.nmove (w.getLsbD 31) (w.extractLsb' 14 7) (w.extractLsb' 7 7))
  | 1 => row w 0x7f (.nalias (w.getLsbD 31) (w.extractLsb' 14 7) (w.extractLsb' 7 7))
  | 2 => row w 0x7f (.nswap (w.getLsbD 31) (w.extractLsb' 14 7) (w.extractLsb' 7 7))
  | 3 => row w 0x1fc07f (.ndrop (w.getLsbD 31) (w.extractLsb' 7 7))
  | 4 => row w 0x3fff (.nfresh (w.getLsbD 31) (w.extractLsb' 14 7))
  | _ => .unallocated

/-- The words of major 0x11 (R197). -/
def parse11 (w : Word) : Parse :=
  match (w.extractLsb' 21 4).toNat with
  | 0 => .ok (.ngive (w.getLsbD 31) (w.extractLsb' 14 7) (w.extractLsb' 7 7) (w.extractLsb' 0 7))
  | 1 => .ok (.ntake (w.getLsbD 31) (w.extractLsb' 14 7) (w.extractLsb' 7 7) (w.extractLsb' 0 7))
  | 2 => .ok (.nperm (w.getLsbD 31) (w.extractLsb' 14 7) (w.extractLsb' 7 7) (w.extractLsb' 0 7))
  | _ => .unallocated

/-- The words of major 0x12 (R197). -/
def parse12 (w : Word) : Parse :=
  match (w.extractLsb' 21 4).toNat with
  | 0 => row w 0x7f (.nquery (w.getLsbD 31) (w.extractLsb' 14 7) (w.extractLsb' 7 7))
  | _ => .unallocated

/-- The words of major 0x14 (R197). -/
def parse14 (w : Word) : Parse :=
  match (w.extractLsb' 21 4).toNat with
  | 0 => .ok (.vaddI32 (w.getLsbD 31) (w.extractLsb' 14 7) (w.extractLsb' 7 7) (w.extractLsb' 0 7))
  | 1 => .ok (.vsubI32 (w.getLsbD 31) (w.extractLsb' 14 7) (w.extractLsb' 7 7) (w.extractLsb' 0 7))
  | 2 => .ok (.vmulI32 (w.getLsbD 31) (w.extractLsb' 14 7) (w.extractLsb' 7 7) (w.extractLsb' 0 7))
  | 3 => .ok (.vmulhiI32 (w.getLsbD 31) (w.extractLsb' 14 7) (w.extractLsb' 7 7) (w.extractLsb' 0 7))
  | 4 => .ok (.vmulhiN32 (w.getLsbD 31) (w.extractLsb' 14 7) (w.extractLsb' 7 7) (w.extractLsb' 0 7))
  | 5 => .ok (.vminI32 (w.getLsbD 31) (w.extractLsb' 14 7) (w.extractLsb' 7 7) (w.extractLsb' 0 7))
  | 6 => .ok (.vminN32 (w.getLsbD 31) (w.extractLsb' 14 7) (w.extractLsb' 7 7) (w.extractLsb' 0 7))
  | 7 => .ok (.vmaxI32 (w.getLsbD 31) (w.extractLsb' 14 7) (w.extractLsb' 7 7) (w.extractLsb' 0 7))
  | 8 => .ok (.vmaxN32 (w.getLsbD 31) (w.extractLsb' 14 7) (w.extractLsb' 7 7) (w.extractLsb' 0 7))
  | 9 => .ok (.vaddsI32 (w.getLsbD 31) (w.extractLsb' 14 7) (w.extractLsb' 7 7) (w.extractLsb' 0 7))
  | 10 => .ok (.vsubsI32 (w.getLsbD 31) (w.extractLsb' 14 7) (w.extractLsb' 7 7) (w.extractLsb' 0 7))
  | 11 => row w 0x7f (.vabsI32 (w.getLsbD 31) (w.extractLsb' 14 7) (w.extractLsb' 7 7))
  | 12 => .ok (.vaddminI32 (w.getLsbD 31) (w.extractLsb' 14 7) (w.extractLsb' 7 7) (w.extractLsb' 0 7))
  | 13 => row w 0x7f (.vcopy (w.getLsbD 31) (w.extractLsb' 14 7) (w.extractLsb' 7 7))
  | 14 => .ok (.vaddB64 (w.getLsbD 31) (w.extractLsb' 14 7) (w.extractLsb' 7 7) (w.extractLsb' 0 7))
  | 15 => .ok (.vsubB64 (w.getLsbD 31) (w.extractLsb' 14 7) (w.extractLsb' 7 7) (w.extractLsb' 0 7))
  | _ => .unallocated

/-- The words of major 0x15 (R197). -/
def parse15 (w : Word) : Parse :=
  match (w.extractLsb' 21 4).toNat with
  | 0 => .ok (.vand (w.getLsbD 31) (w.extractLsb' 14 7) (w.extractLsb' 7 7) (w.extractLsb' 0 7))
  | 1 => .ok (.vor (w.getLsbD 31) (w.extractLsb' 14 7) (w.extractLsb' 7 7) (w.extractLsb' 0 7))
  | 2 => .ok (.vxor (w.getLsbD 31) (w.extractLsb' 14 7) (w.extractLsb' 7 7) (w.extractLsb' 0 7))
  | 3 => .ok (.vandn (w.getLsbD 31) (w.extractLsb' 14 7) (w.extractLsb' 7 7) (w.extractLsb' 0 7))
  | 4 => row w 0x7f (.vnot (w.getLsbD 31) (w.extractLsb' 14 7) (w.extractLsb' 7 7))
  | 5 => .ok (.vshl (w.getLsbD 31) (w.extractLsb' 14 7) (w.extractLsb' 7 7) (w.extractLsb' 0 7))
  | 6 => .ok (.vshr (w.getLsbD 31) (w.extractLsb' 14 7) (w.extractLsb' 7 7) (w.extractLsb' 0 7))
  | 7 => .ok (.vsra (w.getLsbD 31) (w.extractLsb' 14 7) (w.extractLsb' 7 7) (w.extractLsb' 0 7))
  | 8 => row w 0x7f (.vpopc (w.getLsbD 31) (w.extractLsb' 14 7) (w.extractLsb' 7 7))
  | 9 => row w 0x7f (.vclz (w.getLsbD 31) (w.extractLsb' 14 7) (w.extractLsb' 7 7))
  | 10 => row w 0x7f (.vctz (w.getLsbD 31) (w.extractLsb' 14 7) (w.extractLsb' 7 7))
  | 11 => row w 0x7f (.vbrev (w.getLsbD 31) (w.extractLsb' 14 7) (w.extractLsb' 7 7))
  | _ => .unallocated

/-- The words of major 0x16 (R197). -/
def parse16 (w : Word) : Parse :=
  match (w.extractLsb' 21 4).toNat with
  | 0 => .ok (.vaddiI32 (w.getLsbD 31) (w.extractLsb' 14 7) (w.extractLsb' 7 7) (w.extractLsb' 0 7))
  | 1 => .ok (.vmuliI32 (w.getLsbD 31) (w.extractLsb' 14 7) (w.extractLsb' 7 7) (w.extractLsb' 0 7))
  | 2 => .ok (.vandi (w.getLsbD 31) (w.extractLsb' 14 7) (w.extractLsb' 7 7) (w.extractLsb' 0 7))
  | 3 => .ok (.vori (w.getLsbD 31) (w.extractLsb' 14 7) (w.extractLsb' 7 7) (w.extractLsb' 0 7))
  | 4 => .ok (.vxori (w.getLsbD 31) (w.extractLsb' 14 7) (w.extractLsb' 7 7) (w.extractLsb' 0 7))
  | 5 => .ok (.vminiI32 (w.getLsbD 31) (w.extractLsb' 14 7) (w.extractLsb' 7 7) (w.extractLsb' 0 7))
  | 6 => .ok (.vmaxiI32 (w.getLsbD 31) (w.extractLsb' 14 7) (w.extractLsb' 7 7) (w.extractLsb' 0 7))
  | 7 => .ok (.vshli (w.getLsbD 31) (w.extractLsb' 14 7) (w.extractLsb' 7 7) (w.extractLsb' 0 7))
  | 8 => .ok (.vshri (w.getLsbD 31) (w.extractLsb' 14 7) (w.extractLsb' 7 7) (w.extractLsb' 0 7))
  | 9 => .ok (.vsrai (w.getLsbD 31) (w.extractLsb' 14 7) (w.extractLsb' 7 7) (w.extractLsb' 0 7))
  | _ => .unallocated

/-- The words of major 0x17 (R197). -/
def parse17 (w : Word) : Parse :=
  match (w.extractLsb' 23 2).toNat with
  | 0 => .ok (.vmovi (w.getLsbD 31) (w.extractLsb' 16 7) (w.extractLsb' 0 16))
  | 1 => .ok (.vmoviH (w.getLsbD 31) (w.extractLsb' 16 7) (w.extractLsb' 0 16))
  | 2 => .ok (.vmoviZ (w.getLsbD 31) (w.extractLsb' 16 7) (w.extractLsb' 0 16))
  | _ => .unallocated

/-- The words of major 0x18 (R197). -/
def parse18 (w : Word) : Parse :=
  match (w.extractLsb' 21 4).toNat with
  | 0 => row w 0x100000 (.vcmpI32 (w.getLsbD 31) (w.extractLsb' 17 3) (w.extractLsb' 14 3) (w.extractLsb' 7 7) (w.extractLsb' 0 7))
  | 1 => row w 0x100000 (.vcmpN32 (w.getLsbD 31) (w.extractLsb' 17 3) (w.extractLsb' 14 3) (w.extractLsb' 7 7) (w.extractLsb' 0 7))
  | 2 => row w 0x1e0000 (.vtst (w.getLsbD 31) (w.extractLsb' 14 3) (w.extractLsb' 7 7) (w.extractLsb' 0 7))
  | 8 | 9 | 10 | 11 | 12 | 13 | 14 | 15 => .ok (.vsel (w.getLsbD 31) (w.extractLsb' 21 3) (w.extractLsb' 14 7) (w.extractLsb' 7 7) (w.extractLsb' 0 7))
  | _ => .unallocated

/-- The words of major 0x19 (R197). -/
def parse19 (w : Word) : Parse :=
  match (w.extractLsb' 21 4).toNat with
  | 0 => .ok (.vshfl (w.getLsbD 31) (w.extractLsb' 14 7) (w.extractLsb' 7 7) (w.extractLsb' 0 7))
  | 1 => .ok (.vlsh (w.getLsbD 31) (w.extractLsb' 14 7) (w.extractLsb' 7 7) (w.extractLsb' 0 7))
  | 2 => .ok (.vbcast (w.getLsbD 31) (w.extractLsb' 14 7) (w.extractLsb' 7 7) (w.extractLsb' 0 7))
  | 3 => row w 0x3f80 (.vbcastS (w.getLsbD 31) (w.extractLsb' 14 7) (w.extractLsb' 0 7))
  | 4 => .ok (.vregroupRecv (w.getLsbD 31) (w.extractLsb' 14 7) (w.extractLsb' 7 7) (w.extractLsb' 0 7))
  | 5 => .ok (.vregroupSend (w.getLsbD 31) (w.extractLsb' 14 7) (w.extractLsb' 7 7) (w.extractLsb' 0 7))
  | _ => .unallocated

/-- The words of major 0x1a (R197). -/
def parse1A (w : Word) : Parse :=
  match (w.extractLsb' 21 4).toNat with
  | 0 => row w 0x7f (.vredAddI32 (w.getLsbD 31) (w.extractLsb' 14 7) (w.extractLsb' 7 7))
  | 1 => row w 0x7f (.vredMinI32 (w.getLsbD 31) (w.extractLsb' 14 7) (w.extractLsb' 7 7))
  | 2 => row w 0x7f (.vredMinN32 (w.getLsbD 31) (w.extractLsb' 14 7) (w.extractLsb' 7 7))
  | 3 => row w 0x7f (.vredMaxI32 (w.getLsbD 31) (w.extractLsb' 14 7) (w.extractLsb' 7 7))
  | 4 => row w 0x7f (.vredMaxN32 (w.getLsbD 31) (w.extractLsb' 14 7) (w.extractLsb' 7 7))
  | 5 => row w 0x7f (.vredAnd (w.getLsbD 31) (w.extractLsb' 14 7) (w.extractLsb' 7 7))
  | 6 => row w 0x7f (.vredOr (w.getLsbD 31) (w.extractLsb' 14 7) (w.extractLsb' 7 7))
  | 7 => row w 0x7f (.vredXor (w.getLsbD 31) (w.extractLsb' 14 7) (w.extractLsb' 7 7))
  | 8 => row w 0x7f (.vscanAddI32 (w.getLsbD 31) (w.extractLsb' 14 7) (w.extractLsb' 7 7))
  | 9 => row w 0x7f (.vscanMaxI32 (w.getLsbD 31) (w.extractLsb' 14 7) (w.extractLsb' 7 7))
  | 10 => row w 0x7f (.vvoteAny (w.getLsbD 31) (w.extractLsb' 14 7) (w.extractLsb' 7 7))
  | 11 => row w 0x7f (.vvoteAll (w.getLsbD 31) (w.extractLsb' 14 7) (w.extractLsb' 7 7))
  | 12 => row w 0x7f (.vvoteFirst (w.getLsbD 31) (w.extractLsb' 14 7) (w.extractLsb' 7 7))
  | 13 => row w 0x7f (.vballot (w.getLsbD 31) (w.extractLsb' 14 7) (w.extractLsb' 7 7))
  | _ => .unallocated

/-- The words of major 0x1b (R197). -/
def parse1B (w : Word) : Parse :=
  match (w.extractLsb' 21 4).toNat with
  | 0 => .ok (.vdot4I8 (w.getLsbD 31) (w.extractLsb' 14 7) (w.extractLsb' 7 7) (w.extractLsb' 0 7))
  | 1 => .ok (.vdot4N8 (w.getLsbD 31) (w.extractLsb' 14 7) (w.extractLsb' 7 7) (w.extractLsb' 0 7))
  | _ => .unallocated

/-- The words of major 0x1c (R197). -/
def parse1C (w : Word) : Parse :=
  match (w.extractLsb' 21 4).toNat with
  | 0 | 1 | 2 | 3 => .ok (.vfaddF32 (w.getLsbD 31) (w.extractLsb' 21 2) (w.extractLsb' 14 7) (w.extractLsb' 7 7) (w.extractLsb' 0 7))
  | 4 | 5 | 6 | 7 => .ok (.vfsubF32 (w.getLsbD 31) (w.extractLsb' 21 2) (w.extractLsb' 14 7) (w.extractLsb' 7 7) (w.extractLsb' 0 7))
  | 8 | 9 | 10 | 11 => .ok (.vfmulF32 (w.getLsbD 31) (w.extractLsb' 21 2) (w.extractLsb' 14 7) (w.extractLsb' 7 7) (w.extractLsb' 0 7))
  | 12 => .ok (.vfaddF64 (w.getLsbD 31) (w.extractLsb' 14 7) (w.extractLsb' 7 7) (w.extractLsb' 0 7))
  | 13 => .ok (.vfsubF64 (w.getLsbD 31) (w.extractLsb' 14 7) (w.extractLsb' 7 7) (w.extractLsb' 0 7))
  | 14 => .ok (.vfmulF64 (w.getLsbD 31) (w.extractLsb' 14 7) (w.extractLsb' 7 7) (w.extractLsb' 0 7))
  | _ => .unallocated

/-- The words of major 0x1d (R197). -/
def parse1D (w : Word) : Parse :=
  match (w.extractLsb' 21 4).toNat with
  | 0 | 1 | 2 | 3 => .ok (.vffmaF32 (w.getLsbD 31) (w.extractLsb' 21 2) (w.extractLsb' 14 7) (w.extractLsb' 7 7) (w.extractLsb' 0 7))
  | 4 | 5 | 6 | 7 => .ok (.vffmaF64 (w.getLsbD 31) (w.extractLsb' 21 2) (w.extractLsb' 14 7) (w.extractLsb' 7 7) (w.extractLsb' 0 7))
  | 8 => .ok (.vfaddminF32 (w.getLsbD 31) (w.extractLsb' 14 7) (w.extractLsb' 7 7) (w.extractLsb' 0 7))
  | _ => .unallocated

/-- The words of major 0x1e (R197). -/
def parse1E (w : Word) : Parse :=
  match (w.extractLsb' 21 4).toNat with
  | 0 | 8 => .ok (.vfaddPacked (w.getLsbD 31) (w.getLsbD 24) (w.extractLsb' 14 7) (w.extractLsb' 7 7) (w.extractLsb' 0 7))
  | 1 | 9 => .ok (.vfsubPacked (w.getLsbD 31) (w.getLsbD 24) (w.extractLsb' 14 7) (w.extractLsb' 7 7) (w.extractLsb' 0 7))
  | 2 | 10 => .ok (.vfmulPacked (w.getLsbD 31) (w.getLsbD 24) (w.extractLsb' 14 7) (w.extractLsb' 7 7) (w.extractLsb' 0 7))
  | 3 | 11 => .ok (.vffmaPacked (w.getLsbD 31) (w.getLsbD 24) (w.extractLsb' 14 7) (w.extractLsb' 7 7) (w.extractLsb' 0 7))
  | 4 | 12 => .ok (.vfminPacked (w.getLsbD 31) (w.getLsbD 24) (w.extractLsb' 14 7) (w.extractLsb' 7 7) (w.extractLsb' 0 7))
  | 5 | 13 => .ok (.vfmaxPacked (w.getLsbD 31) (w.getLsbD 24) (w.extractLsb' 14 7) (w.extractLsb' 7 7) (w.extractLsb' 0 7))
  | 6 | 14 => .ok (.vfdot2 (w.getLsbD 31) (w.getLsbD 24) (w.extractLsb' 14 7) (w.extractLsb' 7 7) (w.extractLsb' 0 7))
  | _ => .unallocated

/-- The words of major 0x1f (R197). -/
def parse1F (w : Word) : Parse :=
  match (w.extractLsb' 21 4).toNat with
  | 0 | 1 | 2 | 3 | 4 | 5 | 6 | 7 | 8 | 9 | 10 | 11 | 12 | 13 => .ok (.vcvt (w.getLsbD 31) (w.extractLsb' 21 4) (w.extractLsb' 14 7) (w.extractLsb' 7 7) (w.extractLsb' 3 4) (w.extractLsb' 1 2) (w.getLsbD 0))
  | 14 => .ok (.vcvtPkBf16x2 (w.getLsbD 31) (w.extractLsb' 14 7) (w.extractLsb' 7 7) (w.extractLsb' 0 7))
  | 15 => .ok (.vcvtPkF16x2 (w.getLsbD 31) (w.extractLsb' 14 7) (w.extractLsb' 7 7) (w.extractLsb' 0 7))
  | _ => .unallocated

/-- The words of major 0x20 (R197). -/
def parse20 (w : Word) : Parse :=
  match (w.extractLsb' 21 4).toNat with
  | 0 | 1 | 2 | 3 | 4 | 6 | 7 => .ok (.vquant (w.getLsbD 31) (w.extractLsb' 21 3) (w.extractLsb' 14 7) (w.extractLsb' 7 7) (w.extractLsb' 0 7))
  | 8 | 9 | 10 | 11 | 12 | 13 | 14 | 15 => .ok (.vdequant (w.getLsbD 31) (w.extractLsb' 21 3) (w.extractLsb' 14 7) (w.extractLsb' 7 7) (w.extractLsb' 0 7))
  | 5 => .ok (.vtrit (w.getLsbD 31) (w.extractLsb' 14 7) (w.extractLsb' 7 7) (w.extractLsb' 0 7))
  | _ => .unallocated

/-- The words of major 0x21 (R197). -/
def parse21 (w : Word) : Parse :=
  match (w.extractLsb' 21 4).toNat with
  | 0 | 1 | 2 | 3 => row w 0x7f (.vrcpF32 (w.getLsbD 31) (w.extractLsb' 21 2) (w.extractLsb' 14 7) (w.extractLsb' 7 7))
  | 4 | 5 | 6 | 7 => row w 0x7f (.vsqrtF32 (w.getLsbD 31) (w.extractLsb' 21 2) (w.extractLsb' 14 7) (w.extractLsb' 7 7))
  | 8 | 9 | 10 | 11 => .ok (.vdivF32 (w.getLsbD 31) (w.extractLsb' 21 2) (w.extractLsb' 14 7) (w.extractLsb' 7 7) (w.extractLsb' 0 7))
  | 12 => row w 0x7f (.vexp2F32 (w.getLsbD 31) (w.extractLsb' 14 7) (w.extractLsb' 7 7))
  | 13 => row w 0x7f (.vlog2F32 (w.getLsbD 31) (w.extractLsb' 14 7) (w.extractLsb' 7 7))
  | 14 => row w 0x7f (.vsinF32 (w.getLsbD 31) (w.extractLsb' 14 7) (w.extractLsb' 7 7))
  | 15 => row w 0x7f (.vcosF32 (w.getLsbD 31) (w.extractLsb' 14 7) (w.extractLsb' 7 7))
  | _ => .unallocated

/-- The words of major 0x22 (R197). -/
def parse22 (w : Word) : Parse :=
  match (w.extractLsb' 21 4).toNat with
  | 0 => row w 0x100000 (.vfcmpF32 (w.getLsbD 31) (w.extractLsb' 17 3) (w.extractLsb' 14 3) (w.extractLsb' 7 7) (w.extractLsb' 0 7))
  | 1 => row w 0x100000 (.vfcmpF64 (w.getLsbD 31) (w.extractLsb' 17 3) (w.extractLsb' 14 3) (w.extractLsb' 7 7) (w.extractLsb' 0 7))
  | 2 => row w 0x1e0000 (.vfclassF32 (w.getLsbD 31) (w.extractLsb' 14 3) (w.extractLsb' 7 7) (w.extractLsb' 0 7))
  | 3 => row w 0x1e0000 (.vfclassF64 (w.getLsbD 31) (w.extractLsb' 14 3) (w.extractLsb' 7 7) (w.extractLsb' 0 7))
  | 4 => .ok (.vfminF32 (w.getLsbD 31) (w.extractLsb' 14 7) (w.extractLsb' 7 7) (w.extractLsb' 0 7))
  | 5 => .ok (.vfmaxF32 (w.getLsbD 31) (w.extractLsb' 14 7) (w.extractLsb' 7 7) (w.extractLsb' 0 7))
  | 6 => .ok (.vfminF64 (w.getLsbD 31) (w.extractLsb' 14 7) (w.extractLsb' 7 7) (w.extractLsb' 0 7))
  | 7 => .ok (.vfmaxF64 (w.getLsbD 31) (w.extractLsb' 14 7) (w.extractLsb' 7 7) (w.extractLsb' 0 7))
  | 8 => row w 0x7f (.vfabsF32 (w.getLsbD 31) (w.extractLsb' 14 7) (w.extractLsb' 7 7))
  | 9 => row w 0x7f (.vfnegF32 (w.getLsbD 31) (w.extractLsb' 14 7) (w.extractLsb' 7 7))
  | 10 => .ok (.vfcsgnF32 (w.getLsbD 31) (w.extractLsb' 14 7) (w.extractLsb' 7 7) (w.extractLsb' 0 7))
  | 11 => row w 0x7f (.vfabsF64 (w.getLsbD 31) (w.extractLsb' 14 7) (w.extractLsb' 7 7))
  | 12 => row w 0x7f (.vfnegF64 (w.getLsbD 31) (w.extractLsb' 14 7) (w.extractLsb' 7 7))
  | 13 => .ok (.vfcsgnF64 (w.getLsbD 31) (w.extractLsb' 14 7) (w.extractLsb' 7 7) (w.extractLsb' 0 7))
  | _ => .unallocated

/-- The words of major 0x23 (R197). -/
def parse23 (w : Word) : Parse :=
  match (w.extractLsb' 21 4).toNat with
  | 0 | 1 | 2 | 3 => row w 0x7f (.vfredAddF32 (w.getLsbD 31) (w.extractLsb' 21 2) (w.extractLsb' 14 7) (w.extractLsb' 7 7))
  | 4 | 5 | 6 | 7 => row w 0x7f (.vfscanAddF32 (w.getLsbD 31) (w.extractLsb' 21 2) (w.extractLsb' 14 7) (w.extractLsb' 7 7))
  | 8 => row w 0x7f (.vfredMaxF32 (w.getLsbD 31) (w.extractLsb' 14 7) (w.extractLsb' 7 7))
  | 9 => row w 0x7f (.vfredMinF32 (w.getLsbD 31) (w.extractLsb' 14 7) (w.extractLsb' 7 7))
  | 10 => row w 0x7f (.vfredAddF64 (w.getLsbD 31) (w.extractLsb' 14 7) (w.extractLsb' 7 7))
  | 11 => row w 0x7f (.vfredMaxF64 (w.getLsbD 31) (w.extractLsb' 14 7) (w.extractLsb' 7 7))
  | 12 => row w 0x7f (.vfredMinF64 (w.getLsbD 31) (w.extractLsb' 14 7) (w.extractLsb' 7 7))
  | 13 => row w 0x7f (.vfscanAddF64 (w.getLsbD 31) (w.extractLsb' 14 7) (w.extractLsb' 7 7))
  | _ => .unallocated

/-- The words of major 0x24 (R197). -/
def parse24 (w : Word) : Parse :=
  match (w.extractLsb' 21 4).toNat with
  | 0 | 1 | 2 | 3 | 4 | 5 | 6 | 7 | 8 | 9 | 10 | 11 | 12 | 13 | 14 | 15 => .ok (.vld (w.getLsbD 31) (w.extractLsb' 21 4) (w.extractLsb' 14 7) (w.extractLsb' 7 7) (w.extractLsb' 1 6) (w.getLsbD 0))
  | _ => .unallocated

/-- The words of major 0x25 (R197). -/
def parse25 (w : Word) : Parse :=
  match (w.extractLsb' 21 4).toNat with
  | 0 | 1 | 2 | 3 | 4 | 5 | 6 | 7 | 8 | 9 | 10 | 11 | 12 | 13 | 14 | 15 => .ok (.vst (w.getLsbD 31) (w.extractLsb' 21 4) (w.extractLsb' 14 7) (w.extractLsb' 7 7) (w.extractLsb' 1 6) (w.getLsbD 0))
  | _ => .unallocated

/-- The words of major 0x26 (R197). -/
def parse26 (w : Word) : Parse :=
  match (w.extractLsb' 21 4).toNat with
  | 0 | 1 | 2 | 3 | 4 | 5 | 6 | 7 | 8 | 9 | 10 | 11 | 12 | 13 | 14 | 15 => .ok (.vatom (w.getLsbD 31) (w.extractLsb' 21 4) (w.extractLsb' 14 7) (w.extractLsb' 7 7) (w.extractLsb' 1 6) (w.getLsbD 0))
  | _ => .unallocated

/-- The words of major 0x27 (R197). -/
def parse27 (w : Word) : Parse :=
  match (w.extractLsb' 21 4).toNat with
  | 0 | 1 | 2 | 3 | 4 | 5 | 6 | 7 | 8 | 9 | 10 | 11 | 12 | 13 | 14 | 15 => .ok (.fatom (w.getLsbD 31) (w.extractLsb' 21 4) (w.extractLsb' 14 7) (w.extractLsb' 7 7) (w.extractLsb' 1 6) (w.getLsbD 0))
  | _ => .unallocated

/-- The words of major 0x28 (R197). -/
noncomputable def parse28 (w : Word) : Parse :=
  match (w.extractLsb' 18 7).toNat with
  | 0 => row w 0x3f000 (.fence (w.getLsbD 31) (w.extractLsb' 6 6) (w.extractLsb' 0 6))
  | 1 => row w 0x3f000 (.xfence (w.getLsbD 31) (w.extractLsb' 6 6) (w.extractLsb' 0 6))
  | 2 => row w 0x3ffc0 (.tlfence (w.getLsbD 31) (w.extractLsb' 0 6))
  | 3 => row w 0x3ffff (.ifence (w.getLsbD 31))
  | _ => .unallocated

/-- The words of major 0x29 (R197). -/
noncomputable def parse29 (w : Word) : Parse :=
  match (w.extractLsb' 21 4).toNat with
  | 0 | 1 | 2 | 3 => .ok (.vldSp (w.getLsbD 31) (w.extractLsb' 21 2) (w.extractLsb' 14 7) (w.extractLsb' 7 7) (w.extractLsb' 1 6) (w.getLsbD 0))
  | 4 | 5 | 6 | 7 => .ok (.vstSp (w.getLsbD 31) (w.extractLsb' 21 2) (w.extractLsb' 14 7) (w.extractLsb' 7 7) (w.extractLsb' 1 6) (w.getLsbD 0))
  | 8 | 9 | 10 | 11 => .ok (.vldNv (w.getLsbD 31) (w.extractLsb' 21 2) (w.extractLsb' 14 7) (w.extractLsb' 7 7) (w.extractLsb' 1 6) (w.getLsbD 0))
  | 12 | 13 | 14 | 15 => .ok (.vstNv (w.getLsbD 31) (w.extractLsb' 21 2) (w.extractLsb' 14 7) (w.extractLsb' 7 7) (w.extractLsb' 1 6) (w.getLsbD 0))
  | _ => .unallocated

/-- The words of major 0x2a (R197). -/
noncomputable def parse2A (w : Word) : Parse :=
  match (w.extractLsb' 21 4).toNat with
  | 0 => row w 0x1fc000 (.vcacheWb (w.getLsbD 31) (w.extractLsb' 7 7) (w.extractLsb' 1 6) (w.getLsbD 0))
  | 1 => row w 0x1fc000 (.vcacheWbinv (w.getLsbD 31) (w.extractLsb' 7 7) (w.extractLsb' 1 6) (w.getLsbD 0))
  | 2 => row w 0x1fc000 (.vcachePf (w.getLsbD 31) (w.extractLsb' 7 7) (w.extractLsb' 1 6) (w.getLsbD 0))
  | 3 => row w 0x1fc000 (.vcacheDemote (w.getLsbD 31) (w.extractLsb' 7 7) (w.extractLsb' 1 6) (w.getLsbD 0))
  | _ => .unallocated

/-- The words of major 0x2b (R197). -/
noncomputable def parse2B (w : Word) : Parse :=
  match (w.extractLsb' 18 7).toNat with
  | 0 | 1 | 2 | 3 | 4 | 5 | 6 | 7 | 8 | 9 | 10 | 11 | 12 | 13 | 14 | 15 => .ok (.satom (w.getLsbD 31) (w.extractLsb' 18 4) (w.extractLsb' 12 6) (w.extractLsb' 6 6) (w.extractLsb' 0 6))
  | 64 | 65 | 66 | 67 | 68 | 69 | 70 | 71 | 72 | 73 | 74 | 75 | 76 => row w 0x3f000 (.satomNr (w.getLsbD 31) (w.extractLsb' 18 4) (w.extractLsb' 6 6) (w.extractLsb' 0 6))
  | _ => .unallocated

/-- The words of major 0x2c (R197). -/
noncomputable def parse2C (w : Word) : Parse :=
  match (w.extractLsb' 20 5).toNat with
  | 0 => row w 0x7 (.cpyLd (w.getLsbD 31) (w.extractLsb' 12 8) (w.extractLsb' 6 6) (w.extractLsb' 3 3))
  | 1 => row w 0x7 (.cpySlot (w.getLsbD 31) (w.extractLsb' 12 8) (w.extractLsb' 6 6) (w.extractLsb' 3 3))
  | 2 => row w 0x7 (.cpySt (w.getLsbD 31) (w.extractLsb' 12 8) (w.extractLsb' 6 6) (w.extractLsb' 3 3))
  | 3 => row w 0x7 (.cpyGg (w.getLsbD 31) (w.extractLsb' 12 8) (w.extractLsb' 6 6) (w.extractLsb' 3 3))
  | _ => .unallocated

/-- The words of major 0x2d (R197). -/
noncomputable def parse2D (w : Word) : Parse :=
  match (w.extractLsb' 20 5).toNat with
  | 0 => row w 0x7ffc0 (.cbat (w.getLsbD 31) (w.getLsbD 19) (w.extractLsb' 0 6))
  | 1 => row w 0xf0000 (.cwait (w.getLsbD 31) (w.extractLsb' 0 16))
  | 2 => row w 0xfffc0 (.cwaitR (w.getLsbD 31) (w.extractLsb' 0 6))
  | _ => .unallocated

/-- The words of major 0x2e (R197). -/
noncomputable def parse2E (w : Word) : Parse :=
  match (w.extractLsb' 20 5).toNat with
  | 0 => row w 0xff (.tbinit (w.getLsbD 31) (w.extractLsb' 14 6) (w.extractLsb' 8 6))
  | 1 => row w 0x3000 (.tbarrive (w.getLsbD 31) (w.extractLsb' 14 6) (w.extractLsb' 0 12))
  | 2 => row w 0xff (.tbarriveR (w.getLsbD 31) (w.extractLsb' 14 6) (w.extractLsb' 8 6))
  | 3 => row w 0xff (.tbwait (w.getLsbD 31) (w.extractLsb' 14 6) (w.extractLsb' 8 6))
  | 4 => row w 0x3fc0 (.tbphase (w.getLsbD 31) (w.extractLsb' 14 6) (w.extractLsb' 0 6))
  | _ => .unallocated

/-- The words of major 0x2f (R197). -/
noncomputable def parse2F (w : Word) : Parse :=
  match (w.extractLsb' 20 5).toNat with
  | 0 => row w 0x3fc0 (.sltake (w.getLsbD 31) (w.extractLsb' 14 6) (w.extractLsb' 0 6))
  | 1 => row w 0x3fc0 (.slrel (w.getLsbD 31) (w.extractLsb' 14 6) (w.extractLsb' 0 6))
  | 2 => row w 0xc0 (.sltag (w.getLsbD 31) (w.extractLsb' 14 6) (w.extractLsb' 8 6) (w.extractLsb' 0 6))
  | 3 => row w 0x3fc0 (.slinit (w.getLsbD 31) (w.extractLsb' 14 6) (w.extractLsb' 0 6))
  | _ => .unallocated

/-- The words of major 0x30 (R197). -/
noncomputable def parse30 (w : Word) : Parse :=
  match (w.extractLsb' 20 5).toNat with
  | 0 | 8 | 16 | 24 => row w 0x3f00 (.qpush (w.getLsbD 31) (w.getLsbD 24) (w.getLsbD 23) (w.extractLsb' 14 6) (w.extractLsb' 0 8))
  | 1 | 9 | 17 | 25 => .ok (.qpushTry (w.getLsbD 31) (w.getLsbD 24) (w.getLsbD 23) (w.extractLsb' 14 6) (w.extractLsb' 8 6) (w.extractLsb' 0 8))
  | 2 | 10 | 18 | 26 => row w 0x3f00 (.qwait (w.getLsbD 31) (w.getLsbD 24) (w.getLsbD 23) (w.extractLsb' 14 6) (w.extractLsb' 0 8))
  | 3 | 11 | 19 | 27 => .ok (.qpopTry (w.getLsbD 31) (w.getLsbD 24) (w.getLsbD 23) (w.extractLsb' 14 6) (w.extractLsb' 8 6) (w.extractLsb' 0 8))
  | _ => .unallocated

/-- The words of major 0x31 (R197). -/
noncomputable def parse31 (w : Word) : Parse :=
  match (w.extractLsb' 20 5).toNat with
  | 0 => row w 0x7 (.cpyGth (w.getLsbD 31) (w.extractLsb' 12 8) (w.extractLsb' 6 6) (w.extractLsb' 3 3))
  | 1 => row w 0x7 (.cpyMc (w.getLsbD 31) (w.extractLsb' 12 8) (w.extractLsb' 6 6) (w.extractLsb' 3 3))
  | 2 => row w 0x7 (.cpyMcSlot (w.getLsbD 31) (w.extractLsb' 12 8) (w.extractLsb' 6 6) (w.extractLsb' 3 3))
  | 8 => .ok (.tnset (w.getLsbD 31) (w.extractLsb' 12 8) (w.extractLsb' 6 6) (w.extractLsb' 0 6))
  | 9 => row w 0xfc0 (.tnget (w.getLsbD 31) (w.extractLsb' 12 8) (w.extractLsb' 0 6))
  | _ => .unallocated

/-- The words of major 0x32 (R197). -/
noncomputable def parse32 (w : Word) : Parse :=
  match (w.extractLsb' 21 4).toNat with
  | 0 | 1 | 2 | 3 | 4 | 5 | 6 | 7 | 8 | 9 | 10 | 11 | 12 | 13 | 14 | 15 => .ok (.vmma (w.getLsbD 31) (w.extractLsb' 21 4) (w.extractLsb' 14 7) (w.extractLsb' 7 7) (w.extractLsb' 0 7))
  | _ => .unallocated

/-- The words of major 0x33 (R197). -/
noncomputable def parse33 (w : Word) : Parse :=
  match (w.extractLsb' 20 5).toNat with
  | 0 => row w 0x7e (.fmm (w.getLsbD 31) (w.extractLsb' 13 7) (w.extractLsb' 7 6) (w.getLsbD 0))
  | 1 => row w 0x7e (.fmmt (w.getLsbD 31) (w.extractLsb' 13 7) (w.extractLsb' 7 6) (w.getLsbD 0))
  | _ => .unallocated

/-- The words of major 0x34 (R197). -/
noncomputable def parse34 (w : Word) : Parse :=
  match (w.extractLsb' 20 5).toNat with
  | 0 => row w 0x7f (.fpoly (w.getLsbD 31) (w.extractLsb' 13 7) (w.extractLsb' 7 6))
  | 1 => row w 0x1 (.fiter (w.getLsbD 31) (w.extractLsb' 13 7) (w.extractLsb' 7 6) (w.extractLsb' 1 6))
  | _ => .unallocated

/-- The words of major 0x35 (R197). -/
noncomputable def parse35 (w : Word) : Parse :=
  match (w.extractLsb' 20 5).toNat with
  | 0 => row w 0x7f (.ftmask (w.getLsbD 31) (w.extractLsb' 13 7) (w.extractLsb' 7 6))
  | 1 => row w 0x7f (.ftmaskAnc (w.getLsbD 31) (w.extractLsb' 13 7) (w.extractLsb' 7 6))
  | _ => .unallocated

/-- The words of major 0x36 (R197). -/
noncomputable def parse36 (w : Word) : Parse :=
  match (w.extractLsb' 20 5).toNat with
  | 0 => row w 0x7f (.faccLd (w.getLsbD 31) (w.extractLsb' 13 7) (w.extractLsb' 7 6))
  | 1 => row w 0x7f (.faccStF32 (w.getLsbD 31) (w.extractLsb' 13 7) (w.extractLsb' 7 6))
  | 2 => row w 0x7f (.faccStBf16 (w.getLsbD 31) (w.extractLsb' 13 7) (w.extractLsb' 7 6))
  | 3 => row w 0x7f (.faccStF16 (w.getLsbD 31) (w.extractLsb' 13 7) (w.extractLsb' 7 6))
  | 4 => row w 0xf (.faccRd (w.getLsbD 31) (w.extractLsb' 13 7) (w.extractLsb' 6 7) (w.extractLsb' 4 2))
  | 5 => row w 0x1fff (.faccZero (w.getLsbD 31) (w.extractLsb' 13 7))
  | _ => .unallocated

/-- The words of major 0x37 (R197). -/
noncomputable def parse37 (w : Word) : Parse :=
  match (w.extractLsb' 20 5).toNat with
  | 0 => row w 0x3ff (.fcset (w.getLsbD 31) (w.extractLsb' 16 4) (w.extractLsb' 10 6))
  | 1 => row w 0x3ff (.fcget (w.getLsbD 31) (w.extractLsb' 16 4) (w.extractLsb' 10 6))
  | 2 => row w 0xf03ff (.fcld (w.getLsbD 31) (w.extractLsb' 10 6))
  | 8 => row w 0x3fc0 (.fslotTake (w.getLsbD 31) (w.extractLsb' 14 6) (w.extractLsb' 0 6))
  | 9 => row w 0x3fc0 (.fslotRelease (w.getLsbD 31) (w.extractLsb' 14 6) (w.extractLsb' 0 6))
  | 10 => row w 0x3000 (.ftbarrive (w.getLsbD 31) (w.extractLsb' 14 6) (w.extractLsb' 0 12))
  | _ => .unallocated

/-- The form a word selects by its major and minor (R197, R198). Majors 0x00 and 0x38 to 0x3F are the step's business
(R199 steps 1 and 2). -/
noncomputable def parse (w : Word) : Parse :=
  match majorOf w with
  | 1 => parse01 w
  | 2 => parse02 w
  | 3 => parse03 w
  | 4 => parse04 w
  | 5 => parse05 w
  | 6 => parse06 w
  | 7 => parse07 w
  | 8 => parse08 w
  | 9 => parse09 w
  | 10 => parse0A w
  | 11 => parse0B w
  | 12 => parse0C w
  | 13 => parse0D w
  | 14 => parse0E w
  | 15 => parse0F w
  | 16 => parse10 w
  | 17 => parse11 w
  | 18 => parse12 w
  | 20 => parse14 w
  | 21 => parse15 w
  | 22 => parse16 w
  | 23 => parse17 w
  | 24 => parse18 w
  | 25 => parse19 w
  | 26 => parse1A w
  | 27 => parse1B w
  | 28 => parse1C w
  | 29 => parse1D w
  | 30 => parse1E w
  | 31 => parse1F w
  | 32 => parse20 w
  | 33 => parse21 w
  | 34 => parse22 w
  | 35 => parse23 w
  | 36 => parse24 w
  | 37 => parse25 w
  | 38 => parse26 w
  | 39 => parse27 w
  | 40 => parse28 w
  | 41 => parse29 w
  | 42 => parse2A w
  | 43 => parse2B w
  | 44 => parse2C w
  | 45 => parse2D w
  | 46 => parse2E w
  | 47 => parse2F w
  | 48 => parse30 w
  | 49 => parse31 w
  | 50 => parse32 w
  | 51 => parse33 w
  | 52 => parse34 w
  | 53 => parse35 w
  | 54 => parse36 w
  | 55 => parse37 w
  | _ => .unallocated

/-- What a nonzero unused field is: for a prefix word a rule of R195, for every other word a reserved field (R194, R238). -/
def reservedField : Instr → IllForm
  | .pfx _ _ _ _ _ => .prefixCode
  | _ => .outOfRange

/-- Decoding of one word in R199's order: an allocated form, its reserved fields, its operands. -/
noncomputable def decodeWord (w : Word) : Except IllForm Instr :=
  match parse w with
  | .unallocated => .error .unallocated
  | .reserved i => .error (reservedField i)
  | .ok i =>
    match i.check with
    | none => .ok i
    | some e => .error e

/-- A word read as a clause header (R184); bits 14:0 must be 0. -/
def decodeHeader (w : Word) : Option Instr :=
  if clear w 0x7fff then
    some (.clauseHeader (w.extractLsb' 28 4) (w.extractLsb' 25 3) (w.extractLsb' 21 4) (w.extractLsb' 16 5) (w.getLsbD 15))
  else none

/-- Four bytes, lowest address first, as a little-endian word (R2). -/
def wordOfBytes (b0 b1 b2 b3 : Byte) : Word := b3 ++ b2 ++ b1 ++ b0

/-- The decoder on a stream of bytes: one word and the rest, or the name of the reason it refuses. -/
noncomputable def decodeBytes : List Byte → Except IllForm (Instr × List Byte)
  | b0 :: b1 :: b2 :: b3 :: rest => (decodeWord (wordOfBytes b0 b1 b2 b3)).map fun i => (i, rest)
  | _ => .error .unallocated

/-- The instruction the decoder reads from a word numbered as the opcode table numbers it. Every word of the table is
one 32-bit word; whether a word is a header depends on its place (R186), so a word that is no instruction is read
as a clause header. -/
noncomputable def decodeTableWord (nbits w : Nat) : Option Instr :=
  if nbits ≤ 32 then
    let word : Word := BitVec.ofNat 32 w
    match decodeWord word with
    | .ok i => some i
    | .error _ => if majorOf word = 0 then decodeHeader word else none
  else none

/-- A bit as a number. -/
def bitNat (b : Bool) : Nat := if b then 1 else 0

/-- The word of an instruction (R193), or none for a step that has no encoding. -/
def encodeNat : Instr → Option Nat
  | .clauseHeader n c s l y => some (0x0 + n.toNat * 0x10000000 + c.toNat * 0x2000000 + s.toNat * 0x200000 + l.toNat * 0x10000 + bitNat y * 0x8000)
  | .pfx w o s p c => some (0x2000000 + bitNat w * 0x80000000 + o.toNat * 0x400000 + s.toNat * 0x80000 + p.toNat * 0x10000 + c.toNat * 0x2000)
  | .sadd w d a b => some (0x4000000 + bitNat w * 0x80000000 + d.toNat * 0x1000 + a.toNat * 0x40 + b.toNat)
  | .ssub w d a b => some (0x4040000 + bitNat w * 0x80000000 + d.toNat * 0x1000 + a.toNat * 0x40 + b.toNat)
  | .smul w d a b => some (0x4080000 + bitNat w * 0x80000000 + d.toNat * 0x1000 + a.toNat * 0x40 + b.toNat)
  | .smulwI32 w d a b => some (0x40c0000 + bitNat w * 0x80000000 + d.toNat * 0x1000 + a.toNat * 0x40 + b.toNat)
  | .smulwN32 w d a b => some (0x4100000 + bitNat w * 0x80000000 + d.toNat * 0x1000 + a.toNat * 0x40 + b.toNat)
  | .sdivI32 w d a b => some (0x4140000 + bitNat w * 0x80000000 + d.toNat * 0x1000 + a.toNat * 0x40 + b.toNat)
  | .sdivN32 w d a b => some (0x4180000 + bitNat w * 0x80000000 + d.toNat * 0x1000 + a.toNat * 0x40 + b.toNat)
  | .sremI32 w d a b => some (0x41c0000 + bitNat w * 0x80000000 + d.toNat * 0x1000 + a.toNat * 0x40 + b.toNat)
  | .sremN32 w d a b => some (0x4200000 + bitNat w * 0x80000000 + d.toNat * 0x1000 + a.toNat * 0x40 + b.toNat)
  | .sand w d a b => some (0x4240000 + bitNat w * 0x80000000 + d.toNat * 0x1000 + a.toNat * 0x40 + b.toNat)
  | .sor w d a b => some (0x4280000 + bitNat w * 0x80000000 + d.toNat * 0x1000 + a.toNat * 0x40 + b.toNat)
  | .sxor w d a b => some (0x42c0000 + bitNat w * 0x80000000 + d.toNat * 0x1000 + a.toNat * 0x40 + b.toNat)
  | .sandn w d a b => some (0x4300000 + bitNat w * 0x80000000 + d.toNat * 0x1000 + a.toNat * 0x40 + b.toNat)
  | .sshl w d a b => some (0x4340000 + bitNat w * 0x80000000 + d.toNat * 0x1000 + a.toNat * 0x40 + b.toNat)
  | .sshr w d a b => some (0x4380000 + bitNat w * 0x80000000 + d.toNat * 0x1000 + a.toNat * 0x40 + b.toNat)
  | .ssra w d a b => some (0x43c0000 + bitNat w * 0x80000000 + d.toNat * 0x1000 + a.toNat * 0x40 + b.toNat)
  | .sminI32 w d a b => some (0x4400000 + bitNat w * 0x80000000 + d.toNat * 0x1000 + a.toNat * 0x40 + b.toNat)
  | .sminN32 w d a b => some (0x4440000 + bitNat w * 0x80000000 + d.toNat * 0x1000 + a.toNat * 0x40 + b.toNat)
  | .smaxI32 w d a b => some (0x4480000 + bitNat w * 0x80000000 + d.toNat * 0x1000 + a.toNat * 0x40 + b.toNat)
  | .smaxN32 w d a b => some (0x44c0000 + bitNat w * 0x80000000 + d.toNat * 0x1000 + a.toNat * 0x40 + b.toNat)
  | .saddB64 w d a b => some (0x4800000 + bitNat w * 0x80000000 + d.toNat * 0x1000 + a.toNat * 0x40 + b.toNat)
  | .ssubB64 w d a b => some (0x4840000 + bitNat w * 0x80000000 + d.toNat * 0x1000 + a.toNat * 0x40 + b.toNat)
  | .smulB64 w d a b => some (0x4880000 + bitNat w * 0x80000000 + d.toNat * 0x1000 + a.toNat * 0x40 + b.toNat)
  | .saddwI32 w d a b => some (0x48c0000 + bitNat w * 0x80000000 + d.toNat * 0x1000 + a.toNat * 0x40 + b.toNat)
  | .saddwN32 w d a b => some (0x4900000 + bitNat w * 0x80000000 + d.toNat * 0x1000 + a.toNat * 0x40 + b.toNat)
  | .sshlB64 w d a b => some (0x4940000 + bitNat w * 0x80000000 + d.toNat * 0x1000 + a.toNat * 0x40 + b.toNat)
  | .sshrB64 w d a b => some (0x4980000 + bitNat w * 0x80000000 + d.toNat * 0x1000 + a.toNat * 0x40 + b.toNat)
  | .ssraB64 w d a b => some (0x49c0000 + bitNat w * 0x80000000 + d.toNat * 0x1000 + a.toNat * 0x40 + b.toNat)
  | .sandB64 w d a b => some (0x4a00000 + bitNat w * 0x80000000 + d.toNat * 0x1000 + a.toNat * 0x40 + b.toNat)
  | .sorB64 w d a b => some (0x4a40000 + bitNat w * 0x80000000 + d.toNat * 0x1000 + a.toNat * 0x40 + b.toNat)
  | .sxorB64 w d a b => some (0x4a80000 + bitNat w * 0x80000000 + d.toNat * 0x1000 + a.toNat * 0x40 + b.toNat)
  | .saddi w d a i => some (0x6000000 + bitNat w * 0x80000000 + d.toNat * 0x40000 + a.toNat * 0x1000 + i.toNat)
  | .saddiB64 w d a i => some (0x7000000 + bitNat w * 0x80000000 + d.toNat * 0x40000 + a.toNat * 0x1000 + i.toNat)
  | .smovl w d i => some (0x8000000 + bitNat w * 0x80000000 + d.toNat * 0x80000 + i.toNat)
  | .smovh w d i => some (0x8010000 + bitNat w * 0x80000000 + d.toNat * 0x80000 + i.toNat)
  | .smovs w d i => some (0x8020000 + bitNat w * 0x80000000 + d.toNat * 0x80000 + i.toNat)
  | .scmpI32 w c d a b => some (0xa000000 + bitNat w * 0x80000000 + c.toNat * 0x40000 + d.toNat * 0x1000 + a.toNat * 0x40 + b.toNat)
  | .scmpN32 w c d a b => some (0xa800000 + bitNat w * 0x80000000 + c.toNat * 0x40000 + d.toNat * 0x1000 + a.toNat * 0x40 + b.toNat)
  | .scmpB64 w c d a b => some (0xb000000 + bitNat w * 0x80000000 + c.toNat * 0x40000 + d.toNat * 0x1000 + a.toNat * 0x40 + b.toNat)
  | .ssel w d a b => some (0xb800000 + bitNat w * 0x80000000 + d.toNat * 0x1000 + a.toNat * 0x40 + b.toNat)
  | .sselB64 w d a b => some (0xb840000 + bitNat w * 0x80000000 + d.toNat * 0x1000 + a.toNat * 0x40 + b.toNat)
  | .sshli w d a n => some (0xe000000 + bitNat w * 0x80000000 + d.toNat * 0x1000 + a.toNat * 0x40 + n.toNat)
  | .sshri w d a n => some (0xe040000 + bitNat w * 0x80000000 + d.toNat * 0x1000 + a.toNat * 0x40 + n.toNat)
  | .ssrai w d a n => some (0xe080000 + bitNat w * 0x80000000 + d.toNat * 0x1000 + a.toNat * 0x40 + n.toNat)
  | .sbfxN32 w d a b => some (0xe0c0000 + bitNat w * 0x80000000 + d.toNat * 0x1000 + a.toNat * 0x40 + b.toNat)
  | .sbfxI32 w d a b => some (0xe100000 + bitNat w * 0x80000000 + d.toNat * 0x1000 + a.toNat * 0x40 + b.toNat)
  | .sbfi w d a b => some (0xe140000 + bitNat w * 0x80000000 + d.toNat * 0x1000 + a.toNat * 0x40 + b.toNat)
  | .spopc w d a => some (0xe180000 + bitNat w * 0x80000000 + d.toNat * 0x1000 + a.toNat * 0x40)
  | .sclz w d a => some (0xe1c0000 + bitNat w * 0x80000000 + d.toNat * 0x1000 + a.toNat * 0x40)
  | .sctz w d a => some (0xe200000 + bitNat w * 0x80000000 + d.toNat * 0x1000 + a.toNat * 0x40)
  | .sbrev w d a => some (0xe240000 + bitNat w * 0x80000000 + d.toNat * 0x1000 + a.toNat * 0x40)
  | .sshliB64 w d a n => some (0xe400000 + bitNat w * 0x80000000 + d.toNat * 0x1000 + a.toNat * 0x40 + n.toNat)
  | .sshriB64 w d a n => some (0xe440000 + bitNat w * 0x80000000 + d.toNat * 0x1000 + a.toNat * 0x40 + n.toNat)
  | .ssraiB64 w d a n => some (0xe480000 + bitNat w * 0x80000000 + d.toNat * 0x1000 + a.toNat * 0x40 + n.toNat)
  | .spopcB64 w d a => some (0xe580000 + bitNat w * 0x80000000 + d.toNat * 0x1000 + a.toNat * 0x40)
  | .sclzB64 w d a => some (0xe5c0000 + bitNat w * 0x80000000 + d.toNat * 0x1000 + a.toNat * 0x40)
  | .sctzB64 w d a => some (0xe600000 + bitNat w * 0x80000000 + d.toNat * 0x1000 + a.toNat * 0x40)
  | .br w o => some (0x10000000 + bitNat w * 0x80000000 + o.toNat)
  | .brAny w p o => some (0x10800000 + bitNat w * 0x80000000 + p.toNat * 0x100000 + o.toNat)
  | .brZ w s o => some (0x11000000 + bitNat w * 0x80000000 + s.toNat * 0x100000 + o.toNat)
  | .brNz w s o => some (0x11800000 + bitNat w * 0x80000000 + s.toNat * 0x100000 + o.toNat)
  | .brv w p o => some (0x12000000 + bitNat w * 0x80000000 + p.toNat * 0x100000 + o.toNat)
  | .brvN w p o => some (0x12800000 + bitNat w * 0x80000000 + p.toNat * 0x100000 + o.toNat)
  | .call w o => some (0x14000000 + bitNat w * 0x80000000 + o.toNat)
  | .ret w => some (0x14100000 + bitNat w * 0x80000000)
  | .jt w a => some (0x14200000 + bitNat w * 0x80000000 + a.toNat)
  | .jtCall w a => some (0x14300000 + bitNat w * 0x80000000 + a.toNat)
  | .jr w a => some (0x14400000 + bitNat w * 0x80000000 + a.toNat)
  | .jrCall w a => some (0x14500000 + bitNat w * 0x80000000 + a.toNat)
  | .rejoin w o => some (0x16000000 + bitNat w * 0x80000000 + o.toNat)
  | .eqp w n => some (0x16100000 + bitNat w * 0x80000000 + n.toNat)
  | .ppush w a => some (0x18000000 + bitNat w * 0x80000000 + a.toNat * 0x40)
  | .ppushN w a => some (0x18040000 + bitNat w * 0x80000000 + a.toNat * 0x40)
  | .pinv w => some (0x18080000 + bitNat w * 0x80000000)
  | .ppop w => some (0x180c0000 + bitNat w * 0x80000000)
  | .pand w d a b => some (0x1a000000 + bitNat w * 0x80000000 + d.toNat * 0x1000 + a.toNat * 0x40 + b.toNat)
  | .por w d a b => some (0x1a040000 + bitNat w * 0x80000000 + d.toNat * 0x1000 + a.toNat * 0x40 + b.toNat)
  | .pxor w d a b => some (0x1a080000 + bitNat w * 0x80000000 + d.toNat * 0x1000 + a.toNat * 0x40 + b.toNat)
  | .pandn w d a b => some (0x1a0c0000 + bitNat w * 0x80000000 + d.toNat * 0x1000 + a.toNat * 0x40 + b.toNat)
  | .pnot w d a => some (0x1a100000 + bitNat w * 0x80000000 + d.toNat * 0x1000 + a.toNat * 0x40)
  | .pelect w d => some (0x1a200000 + bitNat w * 0x80000000 + d.toNat * 0x1000)
  | .pld w d a => some (0x1a240000 + bitNat w * 0x80000000 + d.toNat * 0x1000 + a.toNat * 0x40)
  | .pst w d a => some (0x1a280000 + bitNat w * 0x80000000 + d.toNat * 0x1000 + a.toNat * 0x40)
  | .pcnt w d a => some (0x1a2c0000 + bitNat w * 0x80000000 + d.toNat * 0x1000 + a.toNat * 0x40)
  | .barSync w i => some (0x1c000000 + bitNat w * 0x80000000 + i.toNat)
  | .wait w e n d a b => some (0x1c400000 + bitNat w * 0x80000000 + bitNat e * 0x100000 + n.toNat * 0x40000 + d.toNat * 0x1000 + a.toNat * 0x40 + b.toNat)
  | .waitcnt w s l => some (0x1c800000 + bitNat w * 0x80000000 + s.toNat * 0x40 + l.toNat)
  | .exit w => some (0x1e000000 + bitNat w * 0x80000000)
  | .trap w n => some (0x1e040000 + bitNat w * 0x80000000 + n.toNat)
  | .brk w n => some (0x1e080000 + bitNat w * 0x80000000 + n.toNat)
  | .nop w => some (0x1e0c0000 + bitNat w * 0x80000000)
  | .rdsr w d a => some (0x1e100000 + bitNat w * 0x80000000 + d.toNat * 0x1000 + a.toNat * 0x40)
  | .rdsrPair w d a => some (0x1e140000 + bitNat w * 0x80000000 + d.toNat * 0x1000 + a.toNat * 0x40)
  | .wrsr w d a => some (0x1e180000 + bitNat w * 0x80000000 + d.toNat * 0x1000 + a.toNat * 0x40)
  | .efork w a b => some (0x1e200000 + bitNat w * 0x80000000 + a.toNat * 0x40 + b.toNat)
  | .erdv w => some (0x1e240000 + bitNat w * 0x80000000)
  | .hintSucc w => some (0x1e280000 + bitNat w * 0x80000000)
  | .waitPred w d => some (0x1e2c0000 + bitNat w * 0x80000000 + d.toNat * 0x1000)
  | .migrReq w k => some (0x1e400000 + bitNat w * 0x80000000 + k.toNat)
  | .rdsrVector w d a => some (0x1f000000 + bitNat w * 0x80000000 + d.toNat * 0x1000 + a.toNat * 0x40)
  | .rdctx w d a => some (0x1ff00000 + bitNat w * 0x80000000 + d.toNat * 0x1000 + a.toNat * 0x40)
  | .emretTo w k => some (0x1ff80000 + bitNat w * 0x80000000 + k.toNat)
  | .emretSkip w k => some (0x1ffc0000 + bitNat w * 0x80000000 + k.toNat)
  | .nmove w d a => some (0x20000000 + bitNat w * 0x80000000 + d.toNat * 0x4000 + a.toNat * 0x80)
  | .nalias w d a => some (0x20200000 + bitNat w * 0x80000000 + d.toNat * 0x4000 + a.toNat * 0x80)
  | .nswap w d a => some (0x20400000 + bitNat w * 0x80000000 + d.toNat * 0x4000 + a.toNat * 0x80)
  | .ndrop w a => some (0x20600000 + bitNat w * 0x80000000 + a.toNat * 0x80)
  | .nfresh w d => some (0x20800000 + bitNat w * 0x80000000 + d.toNat * 0x4000)
  | .ngive w s a l => some (0x22000000 + bitNat w * 0x80000000 + s.toNat * 0x4000 + a.toNat * 0x80 + l.toNat)
  | .ntake w d s l => some (0x22200000 + bitNat w * 0x80000000 + d.toNat * 0x4000 + s.toNat * 0x80 + l.toNat)
  | .nperm w d a k => some (0x22400000 + bitNat w * 0x80000000 + d.toNat * 0x4000 + a.toNat * 0x80 + k.toNat)
  | .nquery w d a => some (0x24000000 + bitNat w * 0x80000000 + d.toNat * 0x4000 + a.toNat * 0x80)
  | .vaddI32 w d a b => some (0x28000000 + bitNat w * 0x80000000 + d.toNat * 0x4000 + a.toNat * 0x80 + b.toNat)
  | .vsubI32 w d a b => some (0x28200000 + bitNat w * 0x80000000 + d.toNat * 0x4000 + a.toNat * 0x80 + b.toNat)
  | .vmulI32 w d a b => some (0x28400000 + bitNat w * 0x80000000 + d.toNat * 0x4000 + a.toNat * 0x80 + b.toNat)
  | .vmulhiI32 w d a b => some (0x28600000 + bitNat w * 0x80000000 + d.toNat * 0x4000 + a.toNat * 0x80 + b.toNat)
  | .vmulhiN32 w d a b => some (0x28800000 + bitNat w * 0x80000000 + d.toNat * 0x4000 + a.toNat * 0x80 + b.toNat)
  | .vminI32 w d a b => some (0x28a00000 + bitNat w * 0x80000000 + d.toNat * 0x4000 + a.toNat * 0x80 + b.toNat)
  | .vminN32 w d a b => some (0x28c00000 + bitNat w * 0x80000000 + d.toNat * 0x4000 + a.toNat * 0x80 + b.toNat)
  | .vmaxI32 w d a b => some (0x28e00000 + bitNat w * 0x80000000 + d.toNat * 0x4000 + a.toNat * 0x80 + b.toNat)
  | .vmaxN32 w d a b => some (0x29000000 + bitNat w * 0x80000000 + d.toNat * 0x4000 + a.toNat * 0x80 + b.toNat)
  | .vaddsI32 w d a b => some (0x29200000 + bitNat w * 0x80000000 + d.toNat * 0x4000 + a.toNat * 0x80 + b.toNat)
  | .vsubsI32 w d a b => some (0x29400000 + bitNat w * 0x80000000 + d.toNat * 0x4000 + a.toNat * 0x80 + b.toNat)
  | .vabsI32 w d a => some (0x29600000 + bitNat w * 0x80000000 + d.toNat * 0x4000 + a.toNat * 0x80)
  | .vaddminI32 w d a b => some (0x29800000 + bitNat w * 0x80000000 + d.toNat * 0x4000 + a.toNat * 0x80 + b.toNat)
  | .vcopy w d a => some (0x29a00000 + bitNat w * 0x80000000 + d.toNat * 0x4000 + a.toNat * 0x80)
  | .vaddB64 w d a b => some (0x29c00000 + bitNat w * 0x80000000 + d.toNat * 0x4000 + a.toNat * 0x80 + b.toNat)
  | .vsubB64 w d a b => some (0x29e00000 + bitNat w * 0x80000000 + d.toNat * 0x4000 + a.toNat * 0x80 + b.toNat)
  | .vand w d a b => some (0x2a000000 + bitNat w * 0x80000000 + d.toNat * 0x4000 + a.toNat * 0x80 + b.toNat)
  | .vor w d a b => some (0x2a200000 + bitNat w * 0x80000000 + d.toNat * 0x4000 + a.toNat * 0x80 + b.toNat)
  | .vxor w d a b => some (0x2a400000 + bitNat w * 0x80000000 + d.toNat * 0x4000 + a.toNat * 0x80 + b.toNat)
  | .vandn w d a b => some (0x2a600000 + bitNat w * 0x80000000 + d.toNat * 0x4000 + a.toNat * 0x80 + b.toNat)
  | .vnot w d a => some (0x2a800000 + bitNat w * 0x80000000 + d.toNat * 0x4000 + a.toNat * 0x80)
  | .vshl w d a b => some (0x2aa00000 + bitNat w * 0x80000000 + d.toNat * 0x4000 + a.toNat * 0x80 + b.toNat)
  | .vshr w d a b => some (0x2ac00000 + bitNat w * 0x80000000 + d.toNat * 0x4000 + a.toNat * 0x80 + b.toNat)
  | .vsra w d a b => some (0x2ae00000 + bitNat w * 0x80000000 + d.toNat * 0x4000 + a.toNat * 0x80 + b.toNat)
  | .vpopc w d a => some (0x2b000000 + bitNat w * 0x80000000 + d.toNat * 0x4000 + a.toNat * 0x80)
  | .vclz w d a => some (0x2b200000 + bitNat w * 0x80000000 + d.toNat * 0x4000 + a.toNat * 0x80)
  | .vctz w d a => some (0x2b400000 + bitNat w * 0x80000000 + d.toNat * 0x4000 + a.toNat * 0x80)
  | .vbrev w d a => some (0x2b600000 + bitNat w * 0x80000000 + d.toNat * 0x4000 + a.toNat * 0x80)
  | .vaddiI32 w d a i => some (0x2c000000 + bitNat w * 0x80000000 + d.toNat * 0x4000 + a.toNat * 0x80 + i.toNat)
  | .vmuliI32 w d a i => some (0x2c200000 + bitNat w * 0x80000000 + d.toNat * 0x4000 + a.toNat * 0x80 + i.toNat)
  | .vandi w d a i => some (0x2c400000 + bitNat w * 0x80000000 + d.toNat * 0x4000 + a.toNat * 0x80 + i.toNat)
  | .vori w d a i => some (0x2c600000 + bitNat w * 0x80000000 + d.toNat * 0x4000 + a.toNat * 0x80 + i.toNat)
  | .vxori w d a i => some (0x2c800000 + bitNat w * 0x80000000 + d.toNat * 0x4000 + a.toNat * 0x80 + i.toNat)
  | .vminiI32 w d a i => some (0x2ca00000 + bitNat w * 0x80000000 + d.toNat * 0x4000 + a.toNat * 0x80 + i.toNat)
  | .vmaxiI32 w d a i => some (0x2cc00000 + bitNat w * 0x80000000 + d.toNat * 0x4000 + a.toNat * 0x80 + i.toNat)
  | .vshli w d a i => some (0x2ce00000 + bitNat w * 0x80000000 + d.toNat * 0x4000 + a.toNat * 0x80 + i.toNat)
  | .vshri w d a i => some (0x2d000000 + bitNat w * 0x80000000 + d.toNat * 0x4000 + a.toNat * 0x80 + i.toNat)
  | .vsrai w d a i => some (0x2d200000 + bitNat w * 0x80000000 + d.toNat * 0x4000 + a.toNat * 0x80 + i.toNat)
  | .vmovi w d i => some (0x2e000000 + bitNat w * 0x80000000 + d.toNat * 0x10000 + i.toNat)
  | .vmoviH w d i => some (0x2e800000 + bitNat w * 0x80000000 + d.toNat * 0x10000 + i.toNat)
  | .vmoviZ w d i => some (0x2f000000 + bitNat w * 0x80000000 + d.toNat * 0x10000 + i.toNat)
  | .vcmpI32 w c p a b => some (0x30000000 + bitNat w * 0x80000000 + c.toNat * 0x20000 + p.toNat * 0x4000 + a.toNat * 0x80 + b.toNat)
  | .vcmpN32 w c p a b => some (0x30200000 + bitNat w * 0x80000000 + c.toNat * 0x20000 + p.toNat * 0x4000 + a.toNat * 0x80 + b.toNat)
  | .vtst w p a b => some (0x30400000 + bitNat w * 0x80000000 + p.toNat * 0x4000 + a.toNat * 0x80 + b.toNat)
  | .vsel w p d a b => some (0x31000000 + bitNat w * 0x80000000 + p.toNat * 0x200000 + d.toNat * 0x4000 + a.toNat * 0x80 + b.toNat)
  | .vshfl w d a b => some (0x32000000 + bitNat w * 0x80000000 + d.toNat * 0x4000 + a.toNat * 0x80 + b.toNat)
  | .vlsh w d a n => some (0x32200000 + bitNat w * 0x80000000 + d.toNat * 0x4000 + a.toNat * 0x80 + n.toNat)
  | .vbcast w d a n => some (0x32400000 + bitNat w * 0x80000000 + d.toNat * 0x4000 + a.toNat * 0x80 + n.toNat)
  | .vbcastS w d s => some (0x32600000 + bitNat w * 0x80000000 + d.toNat * 0x4000 + s.toNat)
  | .vregroupRecv w d a g => some (0x32800000 + bitNat w * 0x80000000 + d.toNat * 0x4000 + a.toNat * 0x80 + g.toNat)
  | .vregroupSend w d a g => some (0x32a00000 + bitNat w * 0x80000000 + d.toNat * 0x4000 + a.toNat * 0x80 + g.toNat)
  | .vredAddI32 w d a => some (0x34000000 + bitNat w * 0x80000000 + d.toNat * 0x4000 + a.toNat * 0x80)
  | .vredMinI32 w d a => some (0x34200000 + bitNat w * 0x80000000 + d.toNat * 0x4000 + a.toNat * 0x80)
  | .vredMinN32 w d a => some (0x34400000 + bitNat w * 0x80000000 + d.toNat * 0x4000 + a.toNat * 0x80)
  | .vredMaxI32 w d a => some (0x34600000 + bitNat w * 0x80000000 + d.toNat * 0x4000 + a.toNat * 0x80)
  | .vredMaxN32 w d a => some (0x34800000 + bitNat w * 0x80000000 + d.toNat * 0x4000 + a.toNat * 0x80)
  | .vredAnd w d a => some (0x34a00000 + bitNat w * 0x80000000 + d.toNat * 0x4000 + a.toNat * 0x80)
  | .vredOr w d a => some (0x34c00000 + bitNat w * 0x80000000 + d.toNat * 0x4000 + a.toNat * 0x80)
  | .vredXor w d a => some (0x34e00000 + bitNat w * 0x80000000 + d.toNat * 0x4000 + a.toNat * 0x80)
  | .vscanAddI32 w d a => some (0x35000000 + bitNat w * 0x80000000 + d.toNat * 0x4000 + a.toNat * 0x80)
  | .vscanMaxI32 w d a => some (0x35200000 + bitNat w * 0x80000000 + d.toNat * 0x4000 + a.toNat * 0x80)
  | .vvoteAny w d p => some (0x35400000 + bitNat w * 0x80000000 + d.toNat * 0x4000 + p.toNat * 0x80)
  | .vvoteAll w d p => some (0x35600000 + bitNat w * 0x80000000 + d.toNat * 0x4000 + p.toNat * 0x80)
  | .vvoteFirst w d p => some (0x35800000 + bitNat w * 0x80000000 + d.toNat * 0x4000 + p.toNat * 0x80)
  | .vballot w d p => some (0x35a00000 + bitNat w * 0x80000000 + d.toNat * 0x4000 + p.toNat * 0x80)
  | .vdot4I8 w d a b => some (0x36000000 + bitNat w * 0x80000000 + d.toNat * 0x4000 + a.toNat * 0x80 + b.toNat)
  | .vdot4N8 w d a b => some (0x36200000 + bitNat w * 0x80000000 + d.toNat * 0x4000 + a.toNat * 0x80 + b.toNat)
  | .vfaddF32 w r d a b => some (0x38000000 + bitNat w * 0x80000000 + r.toNat * 0x200000 + d.toNat * 0x4000 + a.toNat * 0x80 + b.toNat)
  | .vfsubF32 w r d a b => some (0x38800000 + bitNat w * 0x80000000 + r.toNat * 0x200000 + d.toNat * 0x4000 + a.toNat * 0x80 + b.toNat)
  | .vfmulF32 w r d a b => some (0x39000000 + bitNat w * 0x80000000 + r.toNat * 0x200000 + d.toNat * 0x4000 + a.toNat * 0x80 + b.toNat)
  | .vfaddF64 w d a b => some (0x39800000 + bitNat w * 0x80000000 + d.toNat * 0x4000 + a.toNat * 0x80 + b.toNat)
  | .vfsubF64 w d a b => some (0x39a00000 + bitNat w * 0x80000000 + d.toNat * 0x4000 + a.toNat * 0x80 + b.toNat)
  | .vfmulF64 w d a b => some (0x39c00000 + bitNat w * 0x80000000 + d.toNat * 0x4000 + a.toNat * 0x80 + b.toNat)
  | .vffmaF32 w r d a b => some (0x3a000000 + bitNat w * 0x80000000 + r.toNat * 0x200000 + d.toNat * 0x4000 + a.toNat * 0x80 + b.toNat)
  | .vffmaF64 w r d a b => some (0x3a800000 + bitNat w * 0x80000000 + r.toNat * 0x200000 + d.toNat * 0x4000 + a.toNat * 0x80 + b.toNat)
  | .vfaddminF32 w d a b => some (0x3b000000 + bitNat w * 0x80000000 + d.toNat * 0x4000 + a.toNat * 0x80 + b.toNat)
  | .vfaddPacked w t d a b => some (0x3c000000 + bitNat w * 0x80000000 + bitNat t * 0x1000000 + d.toNat * 0x4000 + a.toNat * 0x80 + b.toNat)
  | .vfsubPacked w t d a b => some (0x3c200000 + bitNat w * 0x80000000 + bitNat t * 0x1000000 + d.toNat * 0x4000 + a.toNat * 0x80 + b.toNat)
  | .vfmulPacked w t d a b => some (0x3c400000 + bitNat w * 0x80000000 + bitNat t * 0x1000000 + d.toNat * 0x4000 + a.toNat * 0x80 + b.toNat)
  | .vffmaPacked w t d a b => some (0x3c600000 + bitNat w * 0x80000000 + bitNat t * 0x1000000 + d.toNat * 0x4000 + a.toNat * 0x80 + b.toNat)
  | .vfminPacked w t d a b => some (0x3c800000 + bitNat w * 0x80000000 + bitNat t * 0x1000000 + d.toNat * 0x4000 + a.toNat * 0x80 + b.toNat)
  | .vfmaxPacked w t d a b => some (0x3ca00000 + bitNat w * 0x80000000 + bitNat t * 0x1000000 + d.toNat * 0x4000 + a.toNat * 0x80 + b.toNat)
  | .vfdot2 w t d a b => some (0x3cc00000 + bitNat w * 0x80000000 + bitNat t * 0x1000000 + d.toNat * 0x4000 + a.toNat * 0x80 + b.toNat)
  | .vcvt w s d a t r n => some (0x3e000000 + bitNat w * 0x80000000 + s.toNat * 0x200000 + d.toNat * 0x4000 + a.toNat * 0x80 + t.toNat * 0x8 + r.toNat * 0x2 + bitNat n)
  | .vcvtPkBf16x2 w d a b => some (0x3fc00000 + bitNat w * 0x80000000 + d.toNat * 0x4000 + a.toNat * 0x80 + b.toNat)
  | .vcvtPkF16x2 w d a b => some (0x3fe00000 + bitNat w * 0x80000000 + d.toNat * 0x4000 + a.toNat * 0x80 + b.toNat)
  | .vquant w f d a b => some (0x40000000 + bitNat w * 0x80000000 + f.toNat * 0x200000 + d.toNat * 0x4000 + a.toNat * 0x80 + b.toNat)
  | .vdequant w f d a b => some (0x41000000 + bitNat w * 0x80000000 + f.toNat * 0x200000 + d.toNat * 0x4000 + a.toNat * 0x80 + b.toNat)
  | .vtrit w d a b => some (0x40a00000 + bitNat w * 0x80000000 + d.toNat * 0x4000 + a.toNat * 0x80 + b.toNat)
  | .vrcpF32 w r d a => some (0x42000000 + bitNat w * 0x80000000 + r.toNat * 0x200000 + d.toNat * 0x4000 + a.toNat * 0x80)
  | .vsqrtF32 w r d a => some (0x42800000 + bitNat w * 0x80000000 + r.toNat * 0x200000 + d.toNat * 0x4000 + a.toNat * 0x80)
  | .vdivF32 w r d a b => some (0x43000000 + bitNat w * 0x80000000 + r.toNat * 0x200000 + d.toNat * 0x4000 + a.toNat * 0x80 + b.toNat)
  | .vexp2F32 w d a => some (0x43800000 + bitNat w * 0x80000000 + d.toNat * 0x4000 + a.toNat * 0x80)
  | .vlog2F32 w d a => some (0x43a00000 + bitNat w * 0x80000000 + d.toNat * 0x4000 + a.toNat * 0x80)
  | .vsinF32 w d a => some (0x43c00000 + bitNat w * 0x80000000 + d.toNat * 0x4000 + a.toNat * 0x80)
  | .vcosF32 w d a => some (0x43e00000 + bitNat w * 0x80000000 + d.toNat * 0x4000 + a.toNat * 0x80)
  | .vfcmpF32 w c p a b => some (0x44000000 + bitNat w * 0x80000000 + c.toNat * 0x20000 + p.toNat * 0x4000 + a.toNat * 0x80 + b.toNat)
  | .vfcmpF64 w c p a b => some (0x44200000 + bitNat w * 0x80000000 + c.toNat * 0x20000 + p.toNat * 0x4000 + a.toNat * 0x80 + b.toNat)
  | .vfclassF32 w p a k => some (0x44400000 + bitNat w * 0x80000000 + p.toNat * 0x4000 + a.toNat * 0x80 + k.toNat)
  | .vfclassF64 w p a k => some (0x44600000 + bitNat w * 0x80000000 + p.toNat * 0x4000 + a.toNat * 0x80 + k.toNat)
  | .vfminF32 w d a b => some (0x44800000 + bitNat w * 0x80000000 + d.toNat * 0x4000 + a.toNat * 0x80 + b.toNat)
  | .vfmaxF32 w d a b => some (0x44a00000 + bitNat w * 0x80000000 + d.toNat * 0x4000 + a.toNat * 0x80 + b.toNat)
  | .vfminF64 w d a b => some (0x44c00000 + bitNat w * 0x80000000 + d.toNat * 0x4000 + a.toNat * 0x80 + b.toNat)
  | .vfmaxF64 w d a b => some (0x44e00000 + bitNat w * 0x80000000 + d.toNat * 0x4000 + a.toNat * 0x80 + b.toNat)
  | .vfabsF32 w d a => some (0x45000000 + bitNat w * 0x80000000 + d.toNat * 0x4000 + a.toNat * 0x80)
  | .vfnegF32 w d a => some (0x45200000 + bitNat w * 0x80000000 + d.toNat * 0x4000 + a.toNat * 0x80)
  | .vfcsgnF32 w d a b => some (0x45400000 + bitNat w * 0x80000000 + d.toNat * 0x4000 + a.toNat * 0x80 + b.toNat)
  | .vfabsF64 w d a => some (0x45600000 + bitNat w * 0x80000000 + d.toNat * 0x4000 + a.toNat * 0x80)
  | .vfnegF64 w d a => some (0x45800000 + bitNat w * 0x80000000 + d.toNat * 0x4000 + a.toNat * 0x80)
  | .vfcsgnF64 w d a b => some (0x45a00000 + bitNat w * 0x80000000 + d.toNat * 0x4000 + a.toNat * 0x80 + b.toNat)
  | .vfredAddF32 w r d a => some (0x46000000 + bitNat w * 0x80000000 + r.toNat * 0x200000 + d.toNat * 0x4000 + a.toNat * 0x80)
  | .vfscanAddF32 w r d a => some (0x46800000 + bitNat w * 0x80000000 + r.toNat * 0x200000 + d.toNat * 0x4000 + a.toNat * 0x80)
  | .vfredMaxF32 w d a => some (0x47000000 + bitNat w * 0x80000000 + d.toNat * 0x4000 + a.toNat * 0x80)
  | .vfredMinF32 w d a => some (0x47200000 + bitNat w * 0x80000000 + d.toNat * 0x4000 + a.toNat * 0x80)
  | .vfredAddF64 w d a => some (0x47400000 + bitNat w * 0x80000000 + d.toNat * 0x4000 + a.toNat * 0x80)
  | .vfredMaxF64 w d a => some (0x47600000 + bitNat w * 0x80000000 + d.toNat * 0x4000 + a.toNat * 0x80)
  | .vfredMinF64 w d a => some (0x47800000 + bitNat w * 0x80000000 + d.toNat * 0x4000 + a.toNat * 0x80)
  | .vfscanAddF64 w d a => some (0x47a00000 + bitNat w * 0x80000000 + d.toNat * 0x4000 + a.toNat * 0x80)
  | .vld w t d o b s => some (0x48000000 + bitNat w * 0x80000000 + t.toNat * 0x200000 + d.toNat * 0x4000 + o.toNat * 0x80 + b.toNat * 0x2 + bitNat s)
  | .vst w t d o b s => some (0x4a000000 + bitNat w * 0x80000000 + t.toNat * 0x200000 + d.toNat * 0x4000 + o.toNat * 0x80 + b.toNat * 0x2 + bitNat s)
  | .vatom w p d o b s => some (0x4c000000 + bitNat w * 0x80000000 + p.toNat * 0x200000 + d.toNat * 0x4000 + o.toNat * 0x80 + b.toNat * 0x2 + bitNat s)
  | .fatom w p d o b s => some (0x4e000000 + bitNat w * 0x80000000 + p.toNat * 0x200000 + d.toNat * 0x4000 + o.toNat * 0x80 + b.toNat * 0x2 + bitNat s)
  | .vldSp w z d o b s => some (0x52000000 + bitNat w * 0x80000000 + z.toNat * 0x200000 + d.toNat * 0x4000 + o.toNat * 0x80 + b.toNat * 0x2 + bitNat s)
  | .vstSp w z d o b s => some (0x52800000 + bitNat w * 0x80000000 + z.toNat * 0x200000 + d.toNat * 0x4000 + o.toNat * 0x80 + b.toNat * 0x2 + bitNat s)
  | .vldNv w z d o b s => some (0x53000000 + bitNat w * 0x80000000 + z.toNat * 0x200000 + d.toNat * 0x4000 + o.toNat * 0x80 + b.toNat * 0x2 + bitNat s)
  | .vstNv w z d o b s => some (0x53800000 + bitNat w * 0x80000000 + z.toNat * 0x200000 + d.toNat * 0x4000 + o.toNat * 0x80 + b.toNat * 0x2 + bitNat s)
  | .vcacheWb w o b s => some (0x54000000 + bitNat w * 0x80000000 + o.toNat * 0x80 + b.toNat * 0x2 + bitNat s)
  | .vcacheWbinv w o b s => some (0x54200000 + bitNat w * 0x80000000 + o.toNat * 0x80 + b.toNat * 0x2 + bitNat s)
  | .vcachePf w o b s => some (0x54400000 + bitNat w * 0x80000000 + o.toNat * 0x80 + b.toNat * 0x2 + bitNat s)
  | .vcacheDemote w o b s => some (0x54600000 + bitNat w * 0x80000000 + o.toNat * 0x80 + b.toNat * 0x2 + bitNat s)
  | .sld w d a t f => some (0xc000000 + bitNat w * 0x80000000 + d.toNat * 0x40000 + a.toNat * 0x1000 + t.toNat * 0x200 + f.toNat)
  | .sst w d a t f => some (0xd000000 + bitNat w * 0x80000000 + d.toNat * 0x40000 + a.toNat * 0x1000 + t.toNat * 0x200 + f.toNat)
  | .satom w p d a b => some (0x56000000 + bitNat w * 0x80000000 + p.toNat * 0x40000 + d.toNat * 0x1000 + a.toNat * 0x40 + b.toNat)
  | .satomNr w p a b => some (0x57000000 + bitNat w * 0x80000000 + p.toNat * 0x40000 + a.toNat * 0x40 + b.toNat)
  | .fence w o e => some (0x50000000 + bitNat w * 0x80000000 + o.toNat * 0x40 + e.toNat)
  | .xfence w a b => some (0x50040000 + bitNat w * 0x80000000 + a.toNat * 0x40 + b.toNat)
  | .tlfence w e => some (0x50080000 + bitNat w * 0x80000000 + e.toNat)
  | .ifence w => some (0x500c0000 + bitNat w * 0x80000000)
  | .cpyLd w t a p => some (0x58000000 + bitNat w * 0x80000000 + t.toNat * 0x1000 + a.toNat * 0x40 + p.toNat * 0x8)
  | .cpySlot w t a p => some (0x58100000 + bitNat w * 0x80000000 + t.toNat * 0x1000 + a.toNat * 0x40 + p.toNat * 0x8)
  | .cpySt w t a p => some (0x58200000 + bitNat w * 0x80000000 + t.toNat * 0x1000 + a.toNat * 0x40 + p.toNat * 0x8)
  | .cpyGg w t a p => some (0x58300000 + bitNat w * 0x80000000 + t.toNat * 0x1000 + a.toNat * 0x40 + p.toNat * 0x8)
  | .cpyGth w t a p => some (0x62000000 + bitNat w * 0x80000000 + t.toNat * 0x1000 + a.toNat * 0x40 + p.toNat * 0x8)
  | .cpyMc w t a p => some (0x62100000 + bitNat w * 0x80000000 + t.toNat * 0x1000 + a.toNat * 0x40 + p.toNat * 0x8)
  | .cpyMcSlot w t a p => some (0x62200000 + bitNat w * 0x80000000 + t.toNat * 0x1000 + a.toNat * 0x40 + p.toNat * 0x8)
  | .tnset w t a d => some (0x62800000 + bitNat w * 0x80000000 + t.toNat * 0x1000 + a.toNat * 0x40 + d.toNat)
  | .tnget w t d => some (0x62900000 + bitNat w * 0x80000000 + t.toNat * 0x1000 + d.toNat)
  | .cbat w e d => some (0x5a000000 + bitNat w * 0x80000000 + bitNat e * 0x80000 + d.toNat)
  | .cwait w n => some (0x5a100000 + bitNat w * 0x80000000 + n.toNat)
  | .cwaitR w a => some (0x5a200000 + bitNat w * 0x80000000 + a.toNat)
  | .tbinit w a b => some (0x5c000000 + bitNat w * 0x80000000 + a.toNat * 0x4000 + b.toNat * 0x100)
  | .tbarrive w a k => some (0x5c100000 + bitNat w * 0x80000000 + a.toNat * 0x4000 + k.toNat)
  | .tbarriveR w a b => some (0x5c200000 + bitNat w * 0x80000000 + a.toNat * 0x4000 + b.toNat * 0x100)
  | .tbwait w a b => some (0x5c300000 + bitNat w * 0x80000000 + a.toNat * 0x4000 + b.toNat * 0x100)
  | .tbphase w a d => some (0x5c400000 + bitNat w * 0x80000000 + a.toNat * 0x4000 + d.toNat)
  | .sltake w a i => some (0x5e000000 + bitNat w * 0x80000000 + a.toNat * 0x4000 + i.toNat)
  | .slrel w a i => some (0x5e100000 + bitNat w * 0x80000000 + a.toNat * 0x4000 + i.toNat)
  | .sltag w a d i => some (0x5e200000 + bitNat w * 0x80000000 + a.toNat * 0x4000 + d.toNat * 0x100 + i.toNat)
  | .slinit w a n => some (0x5e300000 + bitNat w * 0x80000000 + a.toNat * 0x4000 + n.toNat)
  | .qpush w g r a q => some (0x60000000 + bitNat w * 0x80000000 + bitNat g * 0x1000000 + bitNat r * 0x800000 + a.toNat * 0x4000 + q.toNat)
  | .qpushTry w g r a d q => some (0x60100000 + bitNat w * 0x80000000 + bitNat g * 0x1000000 + bitNat r * 0x800000 + a.toNat * 0x4000 + d.toNat * 0x100 + q.toNat)
  | .qwait w g r a q => some (0x60200000 + bitNat w * 0x80000000 + bitNat g * 0x1000000 + bitNat r * 0x800000 + a.toNat * 0x4000 + q.toNat)
  | .qpopTry w g r a d q => some (0x60300000 + bitNat w * 0x80000000 + bitNat g * 0x1000000 + bitNat r * 0x800000 + a.toNat * 0x4000 + d.toNat * 0x100 + q.toNat)
  | .vmma w f h a b => some (0x64000000 + bitNat w * 0x80000000 + f.toNat * 0x200000 + h.toNat * 0x4000 + a.toNat * 0x80 + b.toNat)
  | .fmm w h a z => some (0x66000000 + bitNat w * 0x80000000 + h.toNat * 0x2000 + a.toNat * 0x80 + bitNat z)
  | .fmmt w h a z => some (0x66100000 + bitNat w * 0x80000000 + h.toNat * 0x2000 + a.toNat * 0x80 + bitNat z)
  | .fpoly w h a => some (0x68000000 + bitNat w * 0x80000000 + h.toNat * 0x2000 + a.toNat * 0x80)
  | .fiter w h a d => some (0x68100000 + bitNat w * 0x80000000 + h.toNat * 0x2000 + a.toNat * 0x80 + d.toNat * 0x2)
  | .ftmask w h a => some (0x6a000000 + bitNat w * 0x80000000 + h.toNat * 0x2000 + a.toNat * 0x80)
  | .ftmaskAnc w h a => some (0x6a100000 + bitNat w * 0x80000000 + h.toNat * 0x2000 + a.toNat * 0x80)
  | .faccLd w h a => some (0x6c000000 + bitNat w * 0x80000000 + h.toNat * 0x2000 + a.toNat * 0x80)
  | .faccStF32 w h a => some (0x6c100000 + bitNat w * 0x80000000 + h.toNat * 0x2000 + a.toNat * 0x80)
  | .faccStBf16 w h a => some (0x6c200000 + bitNat w * 0x80000000 + h.toNat * 0x2000 + a.toNat * 0x80)
  | .faccStF16 w h a => some (0x6c300000 + bitNat w * 0x80000000 + h.toNat * 0x2000 + a.toNat * 0x80)
  | .faccRd w h d c => some (0x6c400000 + bitNat w * 0x80000000 + h.toNat * 0x2000 + d.toNat * 0x40 + c.toNat * 0x10)
  | .faccZero w h => some (0x6c500000 + bitNat w * 0x80000000 + h.toNat * 0x2000)
  | .fcset w n a => some (0x6e000000 + bitNat w * 0x80000000 + n.toNat * 0x10000 + a.toNat * 0x400)
  | .fcget w n d => some (0x6e100000 + bitNat w * 0x80000000 + n.toNat * 0x10000 + d.toNat * 0x400)
  | .fcld w a => some (0x6e200000 + bitNat w * 0x80000000 + a.toNat * 0x400)
  | .fslotTake w a i => some (0x6e800000 + bitNat w * 0x80000000 + a.toNat * 0x4000 + i.toNat)
  | .fslotRelease w a i => some (0x6e900000 + bitNat w * 0x80000000 + a.toNat * 0x4000 + i.toNat)
  | .ftbarrive w a k => some (0x6ea00000 + bitNat w * 0x80000000 + a.toNat * 0x4000 + k.toNat)
  | .emulationEntry _ | .packetNop _ | .launch _ | .signal _ | .signalWaitallRelease _ | .waitmem _
  | .waitmemSatisfied _ | .fieldset _ | .fieldsetDestroy _ | .setctx _ | .setctxDestroy _ | .wqcreate _
  | .wqDestroy _ | .graphrun _ | .graphedit _ | .fwdupdate _ | .xlateinv _ | .syninv _ | .vaultgrant _ | .preempt _
  | .teamctlDestroy _ | .teamctlResume _ | .faultreplyRetry _ | .faultreplyFail _ | .faultring _ | .vaultcarve _
  | .keyarea _ | .protways _ | .scrub _ | .attest _ | .tracekey _ | .dbgctlBpset _ | .dbgctlStop _ | .dbgctlResume _
  | .dbgctlStep _ | .dbgctlDump _ | .dbgctlWrite _ | .tracectl _ | .resync _ | .powercap _ | .doorbell _
  | .queueScan _ | .orphanLatch _ | .qtbaseWrite _ | .cxldecWrite _ | .registerWrite _ _ | .go _ | .resetreq _
  | .bootLoadComplete | .powerOnReset | .deviceReset | .hostWindowAccess _ _ _ _ _ _ | .teamAdmit
  | .teamSaveComplete _ | .teamRestore _ | .drainTimeout _ | .serviceLimitExpiry _ | .migration _
  | .eqpHoldTimeout _ _ | .clearSequenceDone _ | .keyReseat _ | .walkComplete _ | .faultRingRoom | .homeRequest _
  | .clockBeatSend _ _ | .clockBeat _ _ | .replyReceive _ | .resultReturn _ | .storePerformed _ | .sectorLand _ _
  | .l2WriteQueuePerform _ _ _ | .flumeOpApplied _ _ | .fiterStop _ | .waitTimeout _ _ _ | .waitMemwordPoll _ _ _
  | .rowPoolEmpty _ _ _ | .queueRequestAtHome _ | .llScoreHalve _ | .llCapUpdate _ | .sampleTag _ _
  | .flitReceive _ _ _ | .ackIdleTimer _ | .nakRepeatTimer _ | .replayTimeout _ | .retrainComplete _ _
  | .coreUncorrectableError _ _ | .eccCorrected _ | .sectorPoison _ _ _ | .laneDefect _ _ _ | .powerThrottle _
  | .thermalThrottle _ | .thermalTrip _ | .coolantFault | .culvertLinkStateChange _ _ | .cxlPortStateChange _ _
  | .powerLoss | .commandComplete _ | .referenceRewrite _ _ | .remapFilterWalkComplete _ => none

/-- The 32-bit word of an instruction. -/
def encode (i : Instr) : Option Word := (encodeNat i).map (BitVec.ofNat 32)

/-- The words of a well-formed instruction: every instruction of this set is one word. -/
def encodeWords (i : Instr) : List Word := (encode i).toList

end Sys2Proof
end

