-- ==== Sys2Proof/Config.lean ====
section
/-! DEFINITION. The values the manual leaves open and those each part fixes for itself. They are constants without a
body: nothing can be proved of their values, so a theorem holds whatever they are. -/

namespace Sys2Proof.Config

/-- One bit that the manual leaves open; the argument is the machine's count of open values used so far. -/
opaque freeBit : Nat → Bool
/-- One bit for each lane that the manual leaves open (R191). -/
opaque freeMask : Nat → LaneMask
/-- One byte that the manual leaves open. -/
opaque freeByte : Nat → Byte
/-- One word that the manual leaves open. -/
opaque freeWord : Nat → Word
/-- Byte i of a group's block in the save area, past its stop record, from what R378 says that the block holds: the manual does not
lay it out. -/
opaque blockByte : List Nat → Nat → Byte
/-- A choice among things whose order the manual leaves open. -/
opaque freeNat : Nat → Nat

/-- A 256-bit key that the device draws (R394, R398). -/
opaque freeKey : Nat → BitVec 256
/-- The unique secret that each device fuses at manufacture (R419). -/
opaque fusedSecret : BitVec 256
/-- The fused hashes of Evtal's Ed25519 and ML-DSA-65 keys (R417). -/
opaque fusedEdHash : BitVec 384
opaque fusedMlHash : BitVec 384
/-- The 32 random bytes that ML-DSA's hedged signing takes (FIPS 204): the manual does not say what the device takes (log entry 6). -/
opaque mlRandom : Nat → BitVec 256
/-- Which of the candidate lines a full cache set replaces (R81): the manual fixes the retention classes and no more. -/
opaque victim : Nat → Nat

end Sys2Proof.Config
end

