-- ==== Sys2Proof/Machine/Crypto.lean ====
section
/-! DEFINITION. The ciphers, hashes, key agreement and signatures that the manual names (R394, R398 to R401, R415 to R419).
It names them by their standards and does not repeat them: they are written here from the standards (PRESUMED, log entry 6). -/

namespace Sys2Proof.Crypto

/-- A number's bytes, highest first. -/
def bigEndian (n v : Nat) : List Byte := (List.range n).reverse.map fun i => BitVec.ofNat 8 (v / 2 ^ (8 * i))

/-- The number of some bytes, highest first. -/
def fromBig (bs : List Byte) : Nat := bs.foldl (fun n b => 256 * n + b.toNat) 0

/-- A number's bytes, lowest first. -/
def littleEndian (n v : Nat) : List Byte := (bigEndian n v).reverse

/-- The number of some bytes, lowest first. -/
def fromLittle (bs : List Byte) : Nat := fromBig bs.reverse

/-- The bytes of an ASCII text. -/
def ascii (t : String) : List Byte := t.toList.map fun c => BitVec.ofNat 8 c.toNat

/-- Bytes combined by exclusive or, as far as the shorter goes. -/
def xorBytes (a b : List Byte) : List Byte := List.zipWith (· ^^^ ·) a b

/-- Zero bytes up to a multiple of n. -/
def padTo (n : Nat) (b : List Byte) : List Byte := b ++ List.replicate ((n - b.length % n) % n) 0

/-- Bytes cut into blocks of n, the last one perhaps shorter. -/
def blocksOf (n : Nat) (b : List Byte) : List (List Byte) :=
  (List.range ((b.length + n - 1) / n)).map fun i => (b.drop (n * i)).take n

/-! ## AES-256 (FIPS 197) -/

/-- Doubling in AES's field of 256 elements. -/
def double8 (x : Byte) : Byte := (x <<< 1) ^^^ (if x.getLsbD 7 then 0x1B else 0)

/-- Multiplication in that field. -/
def mul8 (x y : Byte) : Byte :=
  ((List.range 8).foldl (fun (acc : Byte × Byte) i =>
    (if y.getLsbD i then acc.1 ^^^ acc.2 else acc.1, double8 acc.2)) (0, x)).1

/-- The inverse, with 0 for 0: the product of the powers 2, 4, 8 to 128. -/
def inverse8 (x : Byte) : Byte :=
  ((List.range 7).foldl (fun (acc : Byte × Byte) _ => let q := mul8 acc.1 acc.1; (q, mul8 acc.2 q)) (x, 1)).2

/-- The substitution of a byte. -/
def subByte (x : Byte) : Byte :=
  let y := inverse8 x
  y ^^^ y.rotateLeft 1 ^^^ y.rotateLeft 2 ^^^ y.rotateLeft 3 ^^^ y.rotateLeft 4 ^^^ 0x63

/-- Its inverse. -/
def unsubByte (x : Byte) : Byte := inverse8 (x.rotateLeft 1 ^^^ x.rotateLeft 3 ^^^ x.rotateLeft 6 ^^^ 0x05)

/-- Byte i = row + 4 × column of a block after its rows have been turned, left or right. -/
def turnRows (left : Bool) (b : List Byte) : List Byte :=
  (List.range 16).map fun i => b.getD ((if left then i + 4 * (i % 4) else i + 16 - 4 * (i % 4)) % 16) 0

/-- The columns multiplied by a circulant matrix, whose first row is given. -/
def mixColumns (row : List Byte) (b : List Byte) : List Byte :=
  (List.range 16).map fun i =>
    (List.range 4).foldl (fun acc k => acc ^^^ mul8 (row.getD ((k + 4 - i % 4) % 4) 0) (b.getD (i / 4 * 4 + k) 0)) 0

/-- The round keys' words, the latest first; n more of them, of which the next has number i. -/
def expandKey : Nat → Nat → List (List Byte) → List (List Byte)
  | 0, _, ws => ws
  | n + 1, i, ws =>
    let last := ws.headD []
    let t := if i % 8 = 0 then xorBytes ((last.drop 1 ++ last.take 1).map subByte) [BitVec.ofNat 8 (2 ^ (i / 8 - 1)), 0, 0, 0]
      else if i % 8 = 4 then last.map subByte else last
    expandKey n (i + 1) (xorBytes (ws.getD 7 []) t :: ws)

/-- The 15 round keys of a 256-bit key. -/
def roundKeys (key : List Byte) : List (List Byte) :=
  blocksOf 16 (expandKey 52 8 (blocksOf 4 key).reverse).reverse.flatten

/-- A block enciphered under round keys. -/
def encipher (ks : List (List Byte)) (b : List Byte) : List Byte :=
  (List.range 14).foldl (fun b r =>
    let b := turnRows true (b.map subByte)
    xorBytes (if r = 13 then b else mixColumns [2, 3, 1, 1] b) (ks.getD (r + 1) [])) (xorBytes b (ks.headD []))

/-- A block deciphered. -/
def decipher (ks : List (List Byte)) (b : List Byte) : List Byte :=
  (List.range 14).foldl (fun b r =>
    let b := (turnRows false b).map unsubByte
    let b := xorBytes b (ks.getD (13 - r) [])
    if r = 13 then b else mixColumns [14, 11, 13, 9] b) (xorBytes b (ks.getD 14 []))

/-! ## XTS (IEEE 1619) and CMAC (NIST SP 800-38B) -/

/-- A tweak doubled: a block read as a little-endian number. -/
def nextTweak (t : List Byte) : List Byte :=
  let n := 2 * fromLittle t
  littleEndian 16 (if 2 ^ 128 ≤ n then (n - 2 ^ 128) ^^^ 0x87 else n)

/-- XTS over whole blocks of one data unit: the two keys one after the other, and the unit's number. -/
def xts (enc : Bool) (key : List Byte) (unit : Nat) (data : List Byte) : List Byte :=
  let k1 := roundKeys (key.take 32)
  let first := encipher (roundKeys (key.drop 32)) (littleEndian 16 unit)
  ((blocksOf 16 data).foldl (fun (acc : List Byte × List Byte) b =>
    let x := xorBytes b acc.2
    (acc.1 ++ xorBytes (if enc then encipher k1 x else decipher k1 x) acc.2, nextTweak acc.2)) ([], first)).1

/-- A block doubled, read as a big-endian number. -/
def doubleBlock (b : List Byte) : List Byte :=
  let n := 2 * fromBig b
  bigEndian 16 (if 2 ^ 128 ≤ n then (n - 2 ^ 128) ^^^ 0x87 else n)

/-- The CMAC of a message, which is not empty. -/
def cmac (key msg : List Byte) : List Byte :=
  let ks := roundKeys key
  let k1 := doubleBlock (encipher ks (List.replicate 16 0))
  let whole := msg.length % 16 = 0
  let bs := blocksOf 16 (if whole then msg else padTo 16 (msg ++ [0x80]))
  let front := bs.dropLast.foldl (fun x b => encipher ks (xorBytes x b)) (List.replicate 16 0)
  encipher ks (xorBytes front (xorBytes (bs.getLastD []) (if whole then k1 else doubleBlock k1)))

/-! ## GCM (NIST SP 800-38D) -/

/-- Multiplication in GCM's field; the first bit of a block is the highest. -/
def mulGhash (x y : BitVec 128) : BitVec 128 :=
  ((List.range 128).foldl (fun (acc : BitVec 128 × BitVec 128) i =>
    (if x.getLsbD (127 - i) then acc.1 ^^^ acc.2 else acc.1,
     if acc.2.getLsbD 0 then (acc.2 >>> 1) ^^^ BitVec.ofNat 128 (0xE1 * 2 ^ 120) else acc.2 >>> 1)) (0, y)).1

/-- GHASH of blocks under a key. -/
def ghash (h : BitVec 128) (bs : List Byte) : BitVec 128 :=
  (blocksOf 16 bs).foldl (fun x b => mulGhash (x ^^^ BitVec.ofNat 128 (fromBig b)) h) 0

/-- The key stream over data, from a counter on. -/
def counterMode (ks : List (List Byte)) (iv : List Byte) (from' : Nat) (data : List Byte) : List Byte :=
  ((blocksOf 16 data).zip (List.range data.length)).flatMap fun e =>
    xorBytes e.1 (encipher ks (iv ++ bigEndian 4 (from' + e.2)))

/-- The tag of a ciphertext and its associated data. -/
def gcmTag (ks : List (List Byte)) (iv aad cipher : List Byte) : List Byte :=
  let h := BitVec.ofNat 128 (fromBig (encipher ks (List.replicate 16 0)))
  let x := ghash h (padTo 16 aad ++ padTo 16 cipher ++ bigEndian 8 (8 * aad.length) ++ bigEndian 8 (8 * cipher.length))
  xorBytes (bigEndian 16 x.toNat) (encipher ks (iv ++ bigEndian 4 1))

/-- A plaintext sealed: the ciphertext, then the tag. The nonce has 12 bytes. -/
def gcmSeal (key iv aad plain : List Byte) : List Byte :=
  let ks := roundKeys key
  let c := counterMode ks iv 2 plain
  c ++ gcmTag ks iv aad c

/-- A ciphertext and its tag opened; none where the tag does not verify. -/
def gcmOpen (key iv aad sealed : List Byte) : Option (List Byte) :=
  let ks := roundKeys key
  let c := sealed.take (sealed.length - 16)
  if 16 ≤ sealed.length && gcmTag ks iv aad c == sealed.drop (sealed.length - 16) then some (counterMode ks iv 2 c) else none

/-! ## SHA-2 (FIPS 180-4) -/

/-- The first n primes above those given, which are the primes below k, latest first; f bounds the search. -/
def primesFrom : Nat → Nat → Nat → List Nat → List Nat
  | 0, _, _, ps => ps
  | f + 1, n, k, ps =>
    if n = 0 then ps
    else if ps.any fun p => k % p == 0 then primesFrom f n (k + 1) ps
    else primesFrom f (n - 1) (k + 1) (k :: ps)

/-- The first 80 primes. -/
def primes80 : List Nat := (primesFrom 410 80 2 []).reverse

/-- The integer root of degree e, from its bit n - 1 down. -/
def rootBits (e x : Nat) : Nat → Nat → Nat
  | 0, r => r
  | n + 1, r => rootBits e x n (if (r + 2 ^ n) ^ e ≤ x then r + 2 ^ n else r)

/-- The first 64 bits after the point of a prime's root of degree e. -/
def rootFraction (e p : Nat) : BitVec 64 := BitVec.ofNat 64 (rootBits e (p * 2 ^ (64 * e)) 72 0)

/-- One variant of SHA-2: its word's width, the amounts of its rotations, its rounds, and its start values. -/
structure Sha (w : Nat) where
  /-- For Σ0, Σ1, and for σ0, σ1 with the shift last. -/
  big0 : List Nat
  big1 : List Nat
  small0 : List Nat
  small1 : List Nat
  rounds : Nat
  start : List (BitVec w)

/-- The rotations of a word by some amounts, combined. -/
def rotations (x : BitVec w) (ns : List Nat) : BitVec w := ns.foldl (fun acc n => acc ^^^ x.rotateRight n) 0

/-- The same with the last amount a shift. -/
def rotationsShift (x : BitVec w) (ns : List Nat) : BitVec w := rotations x ns.dropLast ^^^ (x >>> ns.getLastD 0)

/-- The message schedule, the latest word first; n more words. -/
def schedule (v : Sha w) : Nat → List (BitVec w) → List (BitVec w)
  | 0, ws => ws
  | n + 1, ws =>
    schedule v n ((rotationsShift (ws.getD 1 0) v.small1 + ws.getD 6 0 + rotationsShift (ws.getD 14 0) v.small0 + ws.getD 15 0) :: ws)

/-- The high bits of a 64-bit constant, as a word of the variant. -/
def constWord (w : Nat) (x : BitVec 64) : BitVec w := BitVec.ofNat w (x.toNat / 2 ^ (64 - w))

/-- A round on the eight working values. -/
def shaRound (v : Sha w) (s : List (BitVec w)) (kw : BitVec w) : List (BitVec w) :=
  match s with
  | [a, b, c, d, e, f, g, h] =>
    let t1 := h + rotations e v.big1 + ((e &&& f) ^^^ (~~~e &&& g)) + kw
    let t2 := rotations a v.big0 + ((a &&& b) ^^^ (a &&& c) ^^^ (b &&& c))
    [t1 + t2, a, b, c, d + t1, e, f, g]
  | _ => s

/-- A block taken in. -/
def shaBlock (v : Sha w) (ks : List (BitVec w)) (s : List (BitVec w)) (b : List Byte) : List (BitVec w) :=
  let ws := (schedule v (v.rounds - 16) ((blocksOf (w / 8) b).map fun x => BitVec.ofNat w (fromBig x)).reverse).reverse
  List.zipWith (· + ·) s ((List.zipWith (· + ·) ks ws).foldl (shaRound v) s)

/-- The hash of a message: the words of the last state. -/
def sha (v : Sha w) (msg : List Byte) : List Byte :=
  let ks := (primes80.take v.rounds).map fun p => constWord w (rootFraction 3 p)
  let size := 2 * w
  let room := (size - (msg.length + 1 + w / 4) % size) % size
  let padded := msg ++ [0x80] ++ List.replicate room 0 ++ bigEndian (w / 4) (8 * msg.length)
  ((blocksOf size padded).foldl (shaBlock v ks) v.start).flatMap fun x => bigEndian (w / 8) x.toNat

/-- The variant of 64-bit words. -/
def sha64 (start : List (BitVec 64)) : Sha 64 :=
  ⟨[28, 34, 39], [14, 18, 41], [1, 8, 7], [19, 61, 6], 80, start⟩

def sha256 (msg : List Byte) : List Byte :=
  sha (w := 32) ⟨[2, 13, 22], [6, 11, 25], [7, 18, 3], [17, 19, 10], 64, (primes80.take 8).map fun p => constWord 32 (rootFraction 2 p)⟩ msg

def sha512 (msg : List Byte) : List Byte := sha (sha64 ((primes80.take 8).map (rootFraction 2))) msg

def sha384 (msg : List Byte) : List Byte := (sha (sha64 (((primes80.drop 8).take 8).map (rootFraction 2))) msg).take 48

/-! ## HMAC (RFC 2104) and HKDF (RFC 5869) -/

/-- A hash function with its block and digest lengths. -/
structure Hash where
  run : List Byte → List Byte
  block : Nat
  len : Nat

def hash256 : Hash := ⟨sha256, 64, 32⟩
def hash384 : Hash := ⟨sha384, 128, 48⟩

def hmac (h : Hash) (key msg : List Byte) : List Byte :=
  let k := if h.block < key.length then h.run key else key
  let k := k ++ List.replicate (h.block - k.length) 0
  h.run (k.map (· ^^^ 0x5C) ++ h.run (k.map (· ^^^ 0x36) ++ msg))

/-- HKDF's extraction; an absent salt is as many zeros as a digest has. -/
def extract (h : Hash) (salt ikm : List Byte) : List Byte := hmac h (if salt.isEmpty then List.replicate h.len 0 else salt) ikm

/-- HKDF's expansion, of n bytes. -/
def expand (h : Hash) (prk info : List Byte) (n : Nat) : List Byte :=
  (((List.range ((n + h.len - 1) / h.len)).foldl (fun (acc : List Byte × List Byte) i =>
    let t := hmac h prk (acc.2 ++ info ++ [BitVec.ofNat 8 (i + 1)])
    (acc.1 ++ t, t)) ([], [])).1).take n

/-! ## Curve25519: X25519 (RFC 7748) and Ed25519 (RFC 8032) -/

/-- The field's prime. -/
def p25519 : Nat := 2 ^ 255 - 19

/-- A power in the field, over the low n bits of the exponent. -/
def powF (x e : Nat) : Nat → Nat
  | 0 => 1
  | n + 1 => let r := powF (x * x % p25519) (e / 2) n; if e % 2 = 1 then r * x % p25519 else r

def invF (x : Nat) : Nat := powF x (p25519 - 2) 255
def subF (x y : Nat) : Nat := (x + p25519 - y % p25519) % p25519

/-- A step of the ladder on the pairs (x2, z2) and (x3, z3) for a base x1. -/
def ladderStep (x1 : Nat) (a b : Nat × Nat) : (Nat × Nat) × (Nat × Nat) :=
  let s := (a.1 + a.2) % p25519
  let d := subF a.1 a.2
  let da := subF b.1 b.2 * s % p25519
  let cb := (b.1 + b.2) * d % p25519
  let ss := s * s % p25519
  let dd := d * d % p25519
  let e := subF ss dd
  let u := (da + cb) % p25519
  let v := subF da cb
  ((ss * dd % p25519, e * (ss + 121665 * e) % p25519), (u * u % p25519, x1 * (v * v % p25519) % p25519))

/-- The ladder over the low n bits of a scalar, the highest first. -/
def ladder (x1 k : Nat) : Nat → (Nat × Nat) × (Nat × Nat) → (Nat × Nat) × (Nat × Nat)
  | 0, s => s
  | n + 1, s =>
    ladder x1 k n (if k / 2 ^ n % 2 = 1 then let r := ladderStep x1 s.2 s.1; (r.2, r.1) else ladderStep x1 s.1 s.2)

/-- A scalar's 32 bytes as X25519 and Ed25519 take them. -/
def clamp (k : List Byte) : Nat := (fromLittle k % 2 ^ 254 / 8) * 8 + 2 ^ 254

/-- X25519 of a private key and a public one. -/
def x25519 (k u : List Byte) : List Byte :=
  let x1 := fromLittle u % 2 ^ 255 % p25519
  let r := ladder x1 (clamp k) 255 ((1, 0), (x1, 1))
  littleEndian 32 (r.1.1 * invF r.1.2 % p25519)

/-- The public half of a private key. -/
def x25519Public (k : List Byte) : List Byte := x25519 k (littleEndian 32 9)

/-- The curve's constant d, and a square root of -1. -/
def edD : Nat := subF 0 (121665 * invF 121666)
def rootM1 : Nat := powF 2 ((p25519 - 1) / 4) 255

/-- The order of the base point. -/
def edL : Nat := 2 ^ 252 + 27742317777372353535851937790883648493

/-- A point: X, Y, Z, with x = X / Z and y = Y / Z, and T = X × Y / Z. -/
structure EdPoint where
  x : Nat
  y : Nat
  z : Nat
  t : Nat

def EdPoint.zero : EdPoint := ⟨0, 1, 1, 0⟩

/-- The sum of two points. -/
def EdPoint.add (p q : EdPoint) : EdPoint :=
  let a := subF p.y p.x * subF q.y q.x % p25519
  let b := (p.y + p.x) * (q.y + q.x) % p25519
  let c := p.t * (2 * edD * q.t % p25519) % p25519
  let d := 2 * p.z * q.z % p25519
  let e := subF b a
  let f := subF d c
  let g := (d + c) % p25519
  let h := (b + a) % p25519
  ⟨e * f % p25519, g * h % p25519, f * g % p25519, e * h % p25519⟩

/-- A multiple of a point, over the low n bits of the factor. -/
def EdPoint.mul (k : Nat) : Nat → EdPoint → EdPoint
  | 0, _ => .zero
  | n + 1, p => let r := EdPoint.mul (k / 2) n (p.add p); if k % 2 = 1 then r.add p else r

/-- A point's 32 bytes. -/
def EdPoint.bytes (p : EdPoint) : List Byte :=
  let i := invF p.z
  littleEndian 32 (p.y * i % p25519 + p.x * i % p25519 % 2 * 2 ^ 255)

/-- The point that 32 bytes name, if they name one. -/
def edPoint (b : List Byte) : Option EdPoint :=
  let n := fromLittle b
  let y := n % 2 ^ 255
  let sign := n / 2 ^ 255 % 2
  let u := subF (y * y % p25519) 1
  let v := (edD * (y * y % p25519) + 1) % p25519
  let r := u * (v * v * v % p25519) % p25519 * powF (u * (powF v 7 3) % p25519) ((p25519 - 5) / 8) 253 % p25519
  let check := v * (r * r % p25519) % p25519
  let x := if check = u then some r else if check = subF 0 u then some (r * rootM1 % p25519) else none
  if b.length ≠ 32 || p25519 ≤ y then none
  else match x with
    | none => none
    | some x =>
      if x = 0 && sign = 1 then none
      else let x := if x % 2 = sign then x else p25519 - x; some ⟨x, y, 1, x * y % p25519⟩

/-- The base point: y = 4 / 5, and x even. -/
def edBase : EdPoint := (edPoint (littleEndian 32 (4 * invF 5 % p25519))).getD .zero

/-- The public key of a 32-byte private key. -/
def edPublic (seed : List Byte) : List Byte := (EdPoint.mul (clamp ((sha512 seed).take 32)) 255 edBase).bytes

/-- An Ed25519 signature of a message. -/
def edSign (seed msg : List Byte) : List Byte :=
  let h := sha512 seed
  let a := clamp (h.take 32)
  let r := fromLittle (sha512 (h.drop 32 ++ msg)) % edL
  let big := (EdPoint.mul r 253 edBase).bytes
  let k := fromLittle (sha512 (big ++ edPublic seed ++ msg)) % edL
  big ++ littleEndian 32 ((r + k * a) % edL)

/-- Whether a signature verifies under a public key. -/
def edVerify (key msg sig : List Byte) : Bool :=
  match edPoint key, edPoint (sig.take 32) with
  | some a, some r =>
    let s := fromLittle (sig.drop 32)
    let k := fromLittle (sha512 (sig.take 32 ++ key ++ msg)) % edL
    sig.length == 64 && s < edL && (EdPoint.mul s 253 edBase).bytes == (r.add (EdPoint.mul k 253 a)).bytes
  | _, _ => false

/-! ## HPKE in base mode (RFC 9180): X25519, HKDF-SHA256, AES-256-GCM -/

/-- The label under which a step of HPKE hashes. -/
def hpkeLabel (suite : List Byte) (label : String) (x : List Byte) : List Byte := ascii "HPKE-v1" ++ suite ++ ascii label ++ x

def hpkeExtract (suite salt : List Byte) (label : String) (ikm : List Byte) : List Byte := extract hash256 salt (hpkeLabel suite label ikm)

def hpkeExpand (suite prk : List Byte) (label : String) (info : List Byte) (n : Nat) : List Byte :=
  expand hash256 prk (bigEndian 2 n ++ hpkeLabel suite label info) n

/-- The secret that a private key and an encapsulated key share; none where the agreement fails. -/
def hpkeShared (sk enc : List Byte) : Option (List Byte) :=
  let suite := ascii "KEM" ++ bigEndian 2 0x0020
  let dh := x25519 sk enc
  if dh.all (· == 0) then none
  else some (hpkeExpand suite (hpkeExtract suite [] "eae_prk" dh) "shared_secret" (enc ++ x25519Public sk) 32)

/-- A message opened: the encapsulated key, then the ciphertext and its tag. The manual gives no info and no associated data: both
are empty (DESIGN CHOICE, log entry 6). -/
def hpkeOpen (sk msg : List Byte) : Option (List Byte) :=
  match hpkeShared sk (msg.take 32) with
  | none => none
  | some shared =>
    let suite := ascii "HPKE" ++ bigEndian 2 0x0020 ++ bigEndian 2 0x0001 ++ bigEndian 2 0x0002
    let context := [0] ++ hpkeExtract suite [] "psk_id_hash" [] ++ hpkeExtract suite [] "info_hash" []
    let secret := hpkeExtract suite shared "secret" []
    gcmOpen (hpkeExpand suite secret "key" context 32) (hpkeExpand suite secret "base_nonce" context 12) [] (msg.drop 32)

/-! ## The device's keys (R419) -/

/-- The seed of a key pair of the device (R419): HKDF-SHA384 of the fused secret, with a label. -/
def deviceSeed (label : List Byte) : List Byte :=
  expand hash384 (extract hash384 [] (littleEndian 32 Config.fusedSecret.toNat)) label 32

/-- The alias keys' label: FWDIGEST and ROLLBACK enter with it (R419); how, the manual leaves open (log entry 6). -/
def aliasLabel (name : String) (digest : BitVec 384) (rollback : Nat) : List Byte :=
  ascii name ++ littleEndian 48 digest.toNat ++ littleEndian 4 rollback

def rootEdSeed : List Byte := deviceSeed (ascii "root-ed")
def aliasEdSeed (digest : BitVec 384) (rollback : Nat) : List Byte := deviceSeed (aliasLabel "alias-ed" digest rollback)

end Sys2Proof.Crypto
end

