-- ==== Sys2Proof/Machine/MlDsa.lean ====
section
/-! DEFINITION. ML-DSA-65, with which firmware images, reports and endorsements are signed (R400, R416, R417, R419). The manual names it
and does not repeat it: it is written here from FIPS 204, and SHAKE from FIPS 202 (PRESUMED, log entry 6). -/

namespace Sys2Proof.Crypto

/-! ## SHAKE (FIPS 202) -/

/-- A lane of the Keccak state, whose lane at column x and row y is number x + 5 × y. -/
def laneAt (a : List (BitVec 64)) (x y : Nat) : BitVec 64 := a.getD (x % 5 + 5 * (y % 5)) 0

/-- All 25 lanes from a function of column and row. -/
def lanesBy (f : Nat → Nat → BitVec 64) : List (BitVec 64) := (List.range 25).map fun i => f (i % 5) (i / 5)

/-- The walk of ρ and π: from lane (1, 0) on, each next lane with the amount by which it is rotated. -/
def rhoWalk : Nat → Nat → Nat → List (Nat × Nat)
  | 0, _, _ => []
  | n + 1, x, y => (x + 5 * y, (24 - n) * (25 - n) / 2 % 64) :: rhoWalk n y ((2 * x + 3 * y) % 5)

/-- The amount by which ρ rotates each lane. -/
def rhoAmounts : List Nat :=
  (List.range 25).map fun i => (((rhoWalk 24 1 0).find? fun e => e.1 == i).map (·.2)).getD 0

/-- The round constants, from a state of their shift register on. -/
def keccakConstants : Nat → Nat → List (BitVec 64)
  | 0, _ => []
  | n + 1, r =>
    let next (r : Nat) : Nat := (2 * r % 256) ^^^ (if 128 ≤ r then 0x71 else 0)
    let c := (List.range 7).foldl (fun (acc : Nat × BitVec 64) j =>
      let r := next acc.1
      (r, if r / 2 % 2 = 1 then acc.2 ^^^ BitVec.ofNat 64 (2 ^ (2 ^ j - 1)) else acc.2)) (r, 0)
    c.2 :: keccakConstants n c.1

/-- A round: θ, ρ and π, χ, ι. -/
def keccakRound (amounts : List Nat) (a : List (BitVec 64)) (c : BitVec 64) : List (BitVec 64) :=
  let sums := (List.range 5).map fun x => (List.range 5).foldl (fun acc y => acc ^^^ laneAt a x y) 0
  let a := lanesBy fun x y => laneAt a x y ^^^ sums.getD ((x + 4) % 5) 0 ^^^ (sums.getD ((x + 1) % 5) 0).rotateLeft 1
  let b := lanesBy fun x y => (laneAt a (x + 3 * y) x).rotateLeft (amounts.getD ((x + 3 * y) % 5 + 5 * x) 0)
  let a := lanesBy fun x y => laneAt b x y ^^^ (~~~laneAt b (x + 1) y &&& laneAt b (x + 2) y)
  (a.headD 0 ^^^ c) :: a.drop 1

/-- The permutation. -/
def keccak (a : List (BitVec 64)) : List (BitVec 64) := (keccakConstants 24 1).foldl (keccakRound rhoAmounts) a

/-- A block taken in. -/
def absorb (a : List (BitVec 64)) (block : List Byte) : List (BitVec 64) :=
  let ws := (blocksOf 8 block).map fun b => BitVec.ofNat 64 (fromLittle b)
  keccak ((a.zip (List.range 25)).map fun e => e.1 ^^^ ws.getD e.2 0)

/-- The first n bytes of an extendable output with blocks of `rate` bytes. -/
def shake (rate n : Nat) (msg : List Byte) : List Byte :=
  let room := (rate - (msg.length + 1) % rate) % rate
  let padded := msg ++ 0x1F :: List.replicate room 0
  let padded := padded.dropLast ++ [padded.getLastD 0 ^^^ 0x80]
  let start := (blocksOf rate padded).foldl absorb (List.replicate 25 0)
  (((List.range ((n + rate - 1) / rate)).foldl (fun (acc : List Byte × List (BitVec 64)) _ =>
    (acc.1 ++ (acc.2.flatMap fun w => littleEndian 8 w.toNat).take rate, keccak acc.2)) ([], start)).1).take n

/-- SHAKE256, and SHAKE128, of which ML-DSA takes its matrix. -/
def shake256 (n : Nat) (msg : List Byte) : List Byte := shake 136 n msg
def shake128 (n : Nat) (msg : List Byte) : List Byte := shake 168 n msg

/-! ## Polynomials: 256 coefficients below q -/

def mlQ : Nat := 8380417

/-- A polynomial, and a vector of them. -/
abbrev Poly := List Nat
abbrev PolyVec := List Poly

/-- A power below q, over the low n bits of the exponent. -/
def powQ (x e : Nat) : Nat → Nat
  | 0 => 1
  | n + 1 => let r := powQ (x * x % mlQ) (e / 2) n; if e % 2 = 1 then r * x % mlQ else r

/-- A number of 8 bits reversed. -/
def reverse8 (k : Nat) : Nat := (List.range 8).foldl (fun r i => 2 * r + k / 2 ^ i % 2) 0

/-- The factor of the transform's k-th butterfly, and its inverse. -/
def zeta (k : Nat) : Nat := powQ 1753 (reverse8 k) 9
def zetaInverse (k : Nat) : Nat := powQ 1753 (512 - reverse8 k) 10

def addP (a b : Poly) : Poly := List.zipWith (fun x y => (x + y) % mlQ) a b
def subP (a b : Poly) : Poly := List.zipWith (fun x y => (x + mlQ - y % mlQ) % mlQ) a b
def mulP (a b : Poly) : Poly := List.zipWith (fun x y => x * y % mlQ) a b

/-- The number-theoretic transform of 2 ^ n coefficients under the k-th butterfly. -/
def nttFrom : Nat → Nat → Poly → Poly
  | 0, _, w => w
  | n + 1, k, w =>
    let z := zeta k
    let lo := w.take (2 ^ n)
    let hi := (w.drop (2 ^ n)).map fun x => z * x % mlQ
    nttFrom n (2 * k) (addP lo hi) ++ nttFrom n (2 * k + 1) (subP lo hi)

/-- Its inverse, without the factor of the length. -/
def nttBack : Nat → Nat → Poly → Poly
  | 0, _, w => w
  | n + 1, k, w =>
    let z := zetaInverse k
    let lo := nttBack n (2 * k) (w.take (2 ^ n))
    let hi := nttBack n (2 * k + 1) (w.drop (2 ^ n))
    addP lo hi ++ (subP lo hi).map fun x => z * x % mlQ

def ntt (w : Poly) : Poly := nttFrom 8 1 w
def nttInverse (w : Poly) : Poly := (nttBack 8 1 w).map fun x => 8347681 * x % mlQ

def addV (a b : PolyVec) : PolyVec := List.zipWith addP a b
def subV (a b : PolyVec) : PolyVec := List.zipWith subP a b

/-- A matrix applied to a vector, and a polynomial to each entry of one; all are transformed. -/
def mulMatrix (a : List PolyVec) (v : PolyVec) : PolyVec :=
  a.map fun row => (List.zipWith mulP row v).foldl addP (List.replicate 256 0)
def scaleV (c : Poly) (v : PolyVec) : PolyVec := v.map (mulP c)

/-- The representative of a number modulo m that is nearest to zero. -/
def centred (m x : Nat) : Int := let r := x % m; if 2 * r ≤ m then r else (r : Int) - m

/-- The representative of a whole number below q. -/
def modQ (x : Int) : Nat := (x % mlQ).toNat

/-- The largest magnitude of a coefficient. -/
def normV (v : PolyVec) : Nat := v.foldl (fun m p => p.foldl (fun m x => max m (centred mlQ x).natAbs) m) 0

/-! ## Bits -/

/-- Coefficients packed, n bits each, the lowest first; and unpacked. -/
def packBits (n : Nat) (p : List Nat) : List Byte :=
  littleEndian (n * p.length / 8) (p.foldr (fun x acc => x + 2 ^ n * acc) 0)
def unpackBits (n : Nat) (bs : List Byte) : Poly :=
  let v := fromLittle bs
  (List.range 256).map fun i => v / 2 ^ (n * i) % 2 ^ n

/-! ## Rounding -/

/-- A coefficient as a multiple of 2 ^ 13 and a rest. -/
def power2Round (r : Nat) : Nat × Int := let r0 := centred (2 ^ 13) r; (((r : Int) - r0).toNat / 2 ^ 13, r0)

def gamma1 : Nat := 2 ^ 19
def gamma2 : Nat := (mlQ - 1) / 32

/-- A coefficient as a multiple of 2 × γ2 and a rest. -/
def decompose (r : Nat) : Nat × Int :=
  let r0 := centred (2 * gamma2) r
  if (r : Int) - r0 = mlQ - 1 then (0, r0 - 1) else (((r : Int) - r0).toNat / (2 * gamma2), r0)

def highBits (v : PolyVec) : PolyVec := v.map fun p => p.map fun r => (decompose r).1
def lowBits (v : PolyVec) : PolyVec := v.map fun p => p.map fun r => modQ (decompose r).2

/-- Where adding z to r changes the high bits. -/
def makeHint (z r : PolyVec) : PolyVec :=
  List.zipWith (List.zipWith fun a b => if a = b then 0 else 1) (highBits r) (highBits (addV r z))

/-- The high bits corrected by a hint. -/
def useHint (h r : PolyVec) : PolyVec :=
  List.zipWith (List.zipWith fun h r =>
    let d := decompose r
    if h = 0 then d.1 else if 0 < d.2 then (d.1 + 1) % 16 else (d.1 + 15) % 16) h r

/-! ## Sampling

The standard draws from an output without end; here it ends where the standard's Appendix C lets an implementation end it. -/

/-- The polynomial of the first 256 coefficients. -/
def polyOf (l : List Nat) : Poly := (l ++ List.replicate 256 0).take 256

/-- A uniform polynomial: three bytes a try. -/
def uniformPoly (seed : List Byte) : Poly :=
  polyOf (((blocksOf 3 (shake128 1008 seed)).map fun b => fromLittle b % 2 ^ 23).filter (· < mlQ))

/-- A polynomial with coefficients from -4 to 4: half a byte a try. -/
def smallPoly (seed : List Byte) : Poly :=
  let tries : List Nat := (shake256 544 seed).flatMap fun b => [b.toNat % 16, b.toNat / 16]
  polyOf ((tries.filter (· < 9)).map fun (b : Nat) => modQ (4 - b))

/-- The matrix of a public seed, 6 rows of 5, transformed. -/
def mlMatrix (rho : List Byte) : List PolyVec :=
  (List.range 6).map fun r => (List.range 5).map fun c => uniformPoly (rho ++ [BitVec.ofNat 8 c, BitVec.ofNat 8 r])

/-- The mask of a signing round. -/
def mlMask (seed : List Byte) (kappa : Nat) : PolyVec :=
  (List.range 5).map fun r =>
    (unpackBits 20 (shake256 640 (seed ++ littleEndian 2 (kappa + r)))).map fun (x : Nat) => modQ ((gamma1 : Int) - x)

/-- The places of the challenge's nonzero coefficients: for each i from `i` on, the next byte that is not above it. -/
def ballPlaces : List Byte → Nat → List Nat
  | [], _ => []
  | b :: bs, i => if 256 ≤ i then [] else if b.toNat ≤ i then b.toNat :: ballPlaces bs (i + 1) else ballPlaces bs i

/-- The challenge: 49 coefficients of 1 or -1. -/
def challenge (seed : List Byte) : Poly :=
  let bs := shake256 272 seed
  let signs := fromLittle (bs.take 8)
  ((ballPlaces (bs.drop 8) 207).zip (List.range 49)).foldl (fun c e =>
    (c.set (207 + e.2) (c.getD e.1 0)).set e.1 (if signs / 2 ^ e.2 % 2 = 1 then mlQ - 1 else 1)) (List.replicate 256 0)

/-! ## Keys, signatures, verification -/

/-- A key pair: both seeds, the three secret vectors, and the public one's high bits. -/
structure MlKey where
  rho : List Byte
  key : List Byte
  s1 : PolyVec
  s2 : PolyVec
  t0 : PolyVec
  t1 : PolyVec

/-- The key pair of a 32-byte seed. -/
def mlKey (seed : List Byte) : MlKey :=
  let h := shake256 128 (seed ++ [6, 5])
  let rho := h.take 32
  let small (r : Nat) : Poly := smallPoly ((h.drop 32).take 64 ++ littleEndian 2 r)
  let s1 := (List.range 5).map small
  let s2 := (List.range 6).map fun r => small (r + 5)
  let t := addV ((mulMatrix (mlMatrix rho) (s1.map ntt)).map nttInverse) s2
  { rho, key := h.drop 96, s1, s2, t0 := t.map fun p => p.map fun r => modQ (power2Round r).2,
    t1 := t.map fun p => p.map fun r => (power2Round r).1 }

/-- The 1,952 bytes of its public half. -/
def MlKey.public (k : MlKey) : List Byte := k.rho ++ k.t1.flatMap (packBits 10)

/-- The public key of a seed. -/
def mlPublic (seed : List Byte) : List Byte := (mlKey seed).public

/-- The digest that is signed: of the public key and of the message, whose context is empty (PRESUMED, log entry 6). -/
def mlDigest (key msg : List Byte) : List Byte := shake256 64 (shake256 64 key ++ [0, 0] ++ msg)

/-- The challenge's seed for the high bits of a commitment. -/
def challengeSeed (mu : List Byte) (w1 : PolyVec) : List Byte := shake256 48 (mu ++ w1.flatMap (packBits 4))

/-- The places of a hint's ones, 55 at most, then for each polynomial how many there are up to its end. -/
def packHint (h : PolyVec) : List Byte :=
  let ones := h.map fun p => (List.range 256).filter fun j => p.getD j 0 ≠ 0
  let sums := (List.range h.length).map fun i => ((ones.take (i + 1)).flatten).length
  ((ones.flatten ++ List.replicate 55 0).take 55 ++ sums).map (BitVec.ofNat 8)

/-- A hint of 61 bytes read back; none where they are no hint's. -/
def unpackHint (bs : List Byte) : Option PolyVec :=
  let ends := (bs.drop 55).map (·.toNat)
  let places := (bs.take 55).map (·.toNat)
  let rising : List Nat → Bool := fun l => (l.zip (l.drop 1)).all fun e => e.1 < e.2
  let parts := (List.range 6).map fun i =>
    let a := if i = 0 then 0 else ends.getD (i - 1) 0
    (places.take (ends.getD i 0)).drop a
  if ((0 :: ends).zip ends).all (fun e => e.1 ≤ e.2 && e.2 ≤ 55) && parts.all rising && (places.drop (ends.getD 5 0)).all (· == 0) then
    some (parts.map fun l => (List.range 256).map fun j => if l.contains j then 1 else 0)
  else none

/-- The rounds of signing from κ on: the first whose answer keeps all bounds. The standard lets a signer give up after 814. -/
def mlRounds (k : MlKey) (a : List PolyVec) (mu seed : List Byte) : Nat → Nat → List Byte
  | 0, _ => []
  | n + 1, kappa =>
    let y := mlMask seed kappa
    let w := (mulMatrix a (y.map ntt)).map nttInverse
    let c0 := challengeSeed mu (highBits w)
    let c := ntt (challenge c0)
    let times (v : PolyVec) : PolyVec := (scaleV c (v.map ntt)).map nttInverse
    let z := addV y (times k.s1)
    let r := subV w (times k.s2)
    let t := times k.t0
    let h := makeHint (t.map fun p => p.map fun (x : Nat) => modQ (-x)) (addV r t)
    if normV z < gamma1 - 196 && normV (lowBits r) < gamma2 - 196 && normV t < gamma2 && (h.flatten.foldl (· + ·) 0) ≤ 55 then
      c0 ++ (z.flatMap fun p => packBits 20 (p.map fun x => ((gamma1 : Int) - centred mlQ x).toNat)) ++ packHint h
    else mlRounds k a mu seed n (kappa + 5)

/-- A signature of a message, of 3,309 bytes, under the key pair of a seed, with the 32 random bytes of the standard's hedged
variant. -/
def mlSign (seed rnd msg : List Byte) : List Byte :=
  let k := mlKey seed
  let mu := mlDigest k.public msg
  mlRounds k (mlMatrix k.rho) mu (shake256 64 (k.key ++ rnd ++ mu)) 814 0

/-- Whether a signature verifies under a public key. -/
def mlVerify (key msg sig : List Byte) : Bool :=
  let c0 := sig.take 48
  let z := (blocksOf 640 ((sig.drop 48).take 3200)).map fun b => (unpackBits 20 b).map fun (x : Nat) => modQ ((gamma1 : Int) - x)
  let t1 := (blocksOf 320 (key.drop 32)).map fun b => (unpackBits 10 b).map fun x => x * 2 ^ 13 % mlQ
  match unpackHint (sig.drop 3248) with
  | none => false
  | some h =>
    let w := subV (mulMatrix (mlMatrix (key.take 32)) (z.map ntt)) (scaleV (ntt (challenge c0)) (t1.map ntt))
    key.length == 1952 && sig.length == 3309 && normV z < gamma1 - 196 &&
      challengeSeed (mlDigest key msg) (useHint h (w.map nttInverse)) == c0

/-! ## The device's ML-DSA keys (R419) -/

def rootMlSeed : List Byte := deviceSeed (ascii "root-ml")
def rootMlKey : List Byte := mlPublic rootMlSeed
def aliasMlSeed (digest : BitVec 384) (rollback : Nat) : List Byte := deviceSeed (aliasLabel "alias-ml" digest rollback)
def aliasMlKey (digest : BitVec 384) (rollback : Nat) : List Byte := mlPublic (aliasMlSeed digest rollback)

end Sys2Proof.Crypto
end

