-- ==== Sys2Proof/Machine/Tbl.lean ====
section
/-! DEFINITION. Sparse tables: lists of (key, value) pairs with strictly rising keys. Register files, row files,
caches and the lists of live objects are held this way, so that states are plain data and can be compared. -/

namespace Sys2Proof.Machine

/-- A table from numbers to values; a key that is not listed has no value. -/
abbrev Tbl (α : Type) := List (Nat × α)

namespace Tbl

variable {α : Type}

/-- The value at key `k`. -/
def get? : Tbl α → Nat → Option α
  | [], _ => none
  | (k', v) :: rest, k => if k' = k then some v else get? rest k

/-- The value at key `k`, or `d` where none is listed. -/
def getD (t : Tbl α) (k : Nat) (d : α) : α := (t.get? k).getD d

/-- `t` with value `v` at key `k`; rising keys stay rising. -/
def put : Tbl α → Nat → α → Tbl α
  | [], k, v => [(k, v)]
  | (k', v') :: rest, k, v =>
    if k < k' then (k, v) :: (k', v') :: rest
    else if k = k' then (k, v) :: rest
    else (k', v') :: put rest k v

/-- `t` without key `k`. -/
def del : Tbl α → Nat → Tbl α
  | [], _ => []
  | (k', v) :: rest, k => if k' = k then del rest k else (k', v) :: del rest k

/-- Whether key `k` is listed. -/
def has (t : Tbl α) (k : Nat) : Bool := (t.get? k).isSome

/-- The listed keys, in the table's order. -/
def keys (t : Tbl α) : List Nat := t.map (·.1)

/-- The listed values, in the table's order. -/
def vals (t : Tbl α) : List α := t.map (·.2)

/-- The value at `k` replaced by its image under `f`; nothing happens where none is listed. -/
def upd (t : Tbl α) (k : Nat) (f : α → α) : Tbl α :=
  match t.get? k with
  | some v => t.put k (f v)
  | none => t

/-- Every value replaced by its image under `f`. -/
def mapVals (t : Tbl α) (f : Nat → α → α) : Tbl α := t.map fun e => (e.1, f e.1 e.2)

/-- The lowest number below `n` that is not a key. -/
def lowestFree (t : Tbl α) (n : Nat) : Option Nat := (List.range n).find? fun k => !t.has k

end Tbl

end Sys2Proof.Machine
end

