-- ==== Sys2Proof/Machine/State.lean ====
section
/-! DEFINITION. The whole state of the device as plain data: cores, slices, groups and paths; register rows, maps and
tiles; memory, caches, walk caches and remap filters; requests under way, copies, links; contexts, launches, fields,
queues; translation faults, key slots, debug, trace, boot and health. A table lists what exists; a core, die, link or
slice that is not listed stands at its reset values. -/

namespace Sys2Proof.Machine

/-! ## Memory -/

/-- Bytes at addresses, in one form: addresses strictly rising, no entry equal to what an unlisted address reads as. -/
abbrev Memory := List Host.Cell

/-- What an unlisted address reads as. The manual zeroes scratchpads, tiles and carved vaults (R76, R154, R370) and gives
no contents for HBM, CXL and host memory at power-on: DESIGN CHOICE, zero (log entry 2). -/
def Memory.blank : Byte := 0#8

/-- The canonical form of a memory. -/
def Memory.wf : Memory → Bool
  | [] => true
  | (_, v) :: [] => v != Memory.blank
  | (a, v) :: (b, u) :: rest => v != Memory.blank && decide (a < b) && Memory.wf ((b, u) :: rest)

/-! ## Caches -/

/-- One 64-byte sector of a cache (R14). A fill brings it in whole and makes it valid; until then it holds only the dirty
bytes that stores have left there. The bytes are the data's, byte i in bits 8i+7:8i. -/
structure Sect where
  /-- The sector is valid. -/
  whole : Bool
  /-- Bytes written and not yet written back. -/
  dirty : BitVec 64
  data : BitVec 512
  /-- An uncorrectable error fell on the sector while it was dirty here: it is poisoned (R421). -/
  bad : Bool
  deriving DecidableEq, Repr

/-- How readily a line is replaced (R81). -/
inductive Retention where
  | streaming | normal | keep
  deriving DecidableEq, Repr

/-- An L1 line's records (R83): SCOPE_W and SCOPE_V as scope codes, 7 for a clean line's SCOPE_W; who filled it (R46), and
under which field (R82). -/
structure L1Line where
  scopeW : Nat
  scopeV : Nat
  ret : Retention
  team : Nat
  group : Nat
  field : Nat
  deriving DecidableEq, Repr

/-- The L1 data cache of a core, tagged by context and virtual address (R80): sectors at context × 2^54 + address / 64,
lines at context × 2^53 + address / 128. -/
structure L1 where
  sects : Tbl Sect
  lines : Tbl L1Line
  /-- For lines that a `wait` watches: how often they have been written or have left the cache (R49). -/
  marks : Tbl Nat
  deriving DecidableEq, Repr

/-- An L2 line: its way (R82, R396), its retention, and the field of the access that allocated it. -/
structure L2Line where
  way : Nat
  ret : Retention
  field : Nat
  deriving DecidableEq, Repr

/-- The L2 of a die (R80), keyed as the L1. -/
structure L2 where
  sects : Tbl Sect
  lines : Tbl L2Line
  deriving DecidableEq, Repr

/-! ## Register rows -/

/-- Who a row is anchored to (R59). -/
inductive Anchor where
  | group (g : Nat)
  | slot (i : Nat)
  deriving DecidableEq, Repr

/-- A live row (R59): its 96 lanes and its record. PEND counts the results in flight to it. -/
structure Row where
  lanes : List Word
  refcnt : Nat
  anchor : Anchor
  charge : Nat
  pend : Nat
  deriving DecidableEq, Repr

/-- A mapped name: the row it maps and its map sequence number (R59, R60). -/
structure Mapped where
  row : Nat
  seq : Nat
  deriving DecidableEq, Repr

/-! ## Paths -/

/-- The clause a path or a sequencer is in: words fetched with the header stay as fetched (R123, R186). -/
structure Clause where
  addr : Dword
  header : Word
  /-- Words already taken; the next word's place is `index + 1`. -/
  index : Nat
  words : List Word
  /-- The memory prefix that the next word carries, and its address (R195). -/
  pfx : Option Word
  deriving DecidableEq, Repr

/-- One condition of a `wait`, the four registers of R227. -/
structure Cond where
  desc : Word
  value : Word
  low : Word
  high : Word
  deriving DecidableEq, Repr

/-- A `wait` under way (R48, R226 to R228). -/
structure WaitRec where
  any : Bool
  conds : List Cond
  timeout : Nat
  since : Nat
  sd : Nat
  /-- The memory words read so far in the evaluation under way, by condition. -/
  got : Tbl Word
  /-- The access that reads the memory words of the evaluation under way, if one is out. -/
  poll : Option Nat
  /-- The tick of the last evaluation begun (R49); none before the first. -/
  polled : Option Nat
  /-- What the other conditions stood at when it began (R48), and the marks of the memory words' L1 lines (R49). -/
  base : List Nat
  seen : List (Nat × Nat)
  deriving DecidableEq, Repr

/-- Why a path or a sequencer stands at its word. -/
inductive Hold where
  /-- The word has not issued and is tried again; `since` is the tick of the first try. -/
  | retry (since : Nat)
  /-- The word has issued and holds its path until what it waits for; `args` are the operands that it read at issue, where it
  reads them then. -/
  | waits (args : List Nat)
  /-- The word needs rows for these names that cannot be allocated; `fresh`: it unmaps the name first (R243). `since` is the
  tick of the first try (R64). -/
  | rows (since : Nat) (names : List Nat) (fresh : Bool)
  /-- A copy that claims its slots (R300). -/
  | claim (copy : Nat)
  /-- A fence or release that waits for requests; the word is tried again when they are served. -/
  | fence (reqs : List Nat)
  | wait (w : WaitRec)
  /-- Waiting at `bar.sync` (R225). -/
  | bar (id : Nat)
  /-- Waiting at `eqp n` since a tick (R237). -/
  | eqp (n since : Nat)
  /-- A queue message is out: push, try, wait or pop (R305 to R307). -/
  | queue (msg : Nat)
  /-- Waiting for the `vregroup` partner (R259): partner group, donor side, range of names. -/
  | regroup (partner : Nat) (send : Bool) (first last : Nat)
  /-- Stopped: by `brk n` (R232), or, with 64, by a comparator, STOP or STEP (R405, R406). -/
  | stopped (n : Nat)
  deriving DecidableEq, Repr

/-- A path entry (R37): STATE 0 runnable, 1 waiting at a rejoin, 2 held by a path stop, 3 parked. -/
structure Path where
  pc : Dword
  domain : LaneMask
  /-- The activity mask: `s61` to `s63` while the path issues (R34), MASK otherwise. -/
  mask : LaneMask
  pstack : List LaneMask
  cstack : List Dword
  split : Nat
  st : Nat
  /-- The join label it waits for (R40). -/
  label : Dword
  clause : Option Clause
  hold : Option Hold
  /-- Words retired since the group last passed an `eqp` (R343). -/
  retired : Nat
  /-- Words issued after the halt reached the path (R379). -/
  skid : Nat
  /-- Issue opportunities of the group since this path last issued (R41). -/
  waited : Nat
  /-- 1 when a released path passes the stop at its next word once; 2 when it also stops again after it (R406). -/
  pass : Nat
  deriving DecidableEq, Repr

/-! ## Results in flight -/

/-- Where a fixed-latency result goes (R189). -/
inductive Target where
  | row (r : Nat)
  | scalar (d : Nat)
  | pred (p : Nat)
  deriving DecidableEq, Repr

/-- A fixed-latency result: it lands when `left` further words of its path have issued. -/
structure Late where
  left : Nat
  path : Nat
  target : Target
  /-- The lanes written, all ones for a scalar or a predicate's whole mask. -/
  lanes : LaneMask
  vals : List Word
  bits : LaneMask
  /-- The exception flags that are set with the result (R267). -/
  flags : Word
  /-- It is the result of the slice's tagged word (R410). -/
  tagged : Bool
  deriving DecidableEq, Repr

/-- The emulation shadow (R201). -/
structure Shadow where
  s : List Word
  mask : LaneMask
  pdepth : Nat
  addr : Dword
  /-- The reserved word's place in its clause. -/
  index : Nat
  path : Nat
  deriving DecidableEq, Repr

/-- A stopping trap as one group records it (R379). -/
structure StopRec where
  code : Nat
  detail : Nat
  addr : Dword
  cause : Bool
  /-- The address of the word or copy that the record names, its path, and the path's mask at its issue (R411). -/
  pc : Dword
  path : Nat
  mask : LaneMask
  /-- What a record carries beyond that: k, res and prev of a `fiter` that diverges (R170); in emulation mode the shadow, with
  the reserved word's address (R202). -/
  more : List Word
  deriving DecidableEq, Repr

/-- A group of a team. -/
structure Group where
  role : Nat
  slice : Nat
  /-- Order of becoming resident on the slice; the oldest is lowest (R43). -/
  age : Nat
  ended : Bool
  s : Tbl Word
  p : Tbl LaneMask
  map : Tbl Mapped
  fflags : Word
  ldcnt : Nat
  stcnt : Nat
  cpycnt : Nat
  engcnt : Nat
  lastBatch : Nat
  emu : Option Shadow
  eqn : Nat
  paths : Tbl Path
  splits : Tbl Nat
  cur : Nat
  late : List Late
  /-- Parked by a switch marker until its results are written (R44, R188); a long park leaves the active set. -/
  park : Bool
  longPark : Bool
  /-- Parked on a service fault (R373). -/
  service : Bool
  stop : Option StopRec
  score : Nat
  /-- Slice clocks before the next word may issue, after `sdiv` or `srem` (R208). -/
  busy : Nat
  deriving DecidableEq, Repr

/-! ## Engines -/

/-- A Flume or Sluice sequencer of a team (R160, R161). -/
structure Seq where
  running : Bool
  pc : Dword
  s : Tbl Word
  cstack : List Dword
  clause : Option Clause
  hold : Option Hold
  lastBatch : Nat
  stop : Option StopRec
  skid : Nat
  /-- Slice clocks of its core before its next word, after `sdiv` or `srem` (R208). -/
  busy : Nat
  deriving DecidableEq, Repr

/-- The kinds of operation that the Flume applies to tiles (R156). -/
inductive FlumeKind where
  | vmma | fmm | fmmt | fpoly | fiter | ftmask | ftmaskAnc
  | accLd | accStF32 | accStBf16 | accStF16 | accRd | accZero
  /-- Coefficient writes, which take their turn among the operations (R322). -/
  | fcset | fcld
  deriving DecidableEq, Repr

/-- An operation that has reached the Flume and is not yet applied. Groups are sources by number, the engine program is
`none`. -/
structure FlumeOp where
  id : Nat
  src : Option Nat
  pc : Dword
  path : Nat
  kind : FlumeKind
  handle : Nat
  args : List Nat
  /-- Operand rows captured at issue. -/
  rows : List (List Word)
  /-- The tensor entry captured at issue (R309). -/
  tn : BitVec 512
  mask : LaneMask
  /-- Rows that receive a result, for `facc.rd`. -/
  dests : List Nat
  /-- Operations of other sources that are applied before it (R156). -/
  after : List Nat
  deriving DecidableEq, Repr

/-- The loop state of a `fiter` under way (R170, R171). -/
structure Fiter where
  handle : Nat
  n : Nat
  cap : Nat
  k : Nat
  prev : Option Word
  grow : Nat
  live : Nat
  sd : Nat
  pc : Dword
  /-- Flags that the instruction has raised so far. -/
  raised : Nat
  /-- Other teams' operations that were ready at the end of its last iteration, and so come before its next one (R156): team, number
  of the operation, iterations that it has made. -/
  owed : List (Nat × Nat × Nat)
  deriving DecidableEq, Repr

/-- Where a path stands as a record's image part tells it (R343): its image, EQN and RETIRED. -/
structure Stand where
  image : Nat
  eqn : Nat
  retired : Nat
  deriving DecidableEq, Repr

/-- One core's part of a copy's destination: the device core number, the scratchpad generation captured (R103) and the
sectors counted there. -/
structure Landing where
  core : Nat
  gen : Nat
  landed : List Nat
  deriving DecidableEq, Repr

/-- The copy forms of R299. -/
inductive CopyKind where
  | ld | slot | st | gg | gth | mc | mcSlot
  deriving DecidableEq, Repr

/-- What a walk has read of one sector of a table of another die: its bytes, a trap's code and detail, or no page. -/
inductive TabRead where
  | data (d : BitVec 512)
  | fails (code detail : Nat)
  | miss
  deriving DecidableEq, Repr

/-- A copy under way (R90 to R95, R298 to R301). -/
structure Copy where
  team : Nat
  /-- The issuing group, or none for the Sluice sequencer. -/
  issuer : Option Nat
  path : Nat
  pc : Dword
  kind : CopyKind
  src : BitVec 512
  dst : BitVec 512
  desc : List Word
  index : List Nat
  sectors : Nat
  lands : List Landing
  batch : Option Nat
  /-- Cores whose slot is still to be claimed (R300). -/
  claims : List Nat
  /-- It has claimed what it needs and joined its batch, and its place among the copies by when it did. -/
  begun : Bool
  order : Nat
  /-- Source sectors that have arrived: global sector number and bytes. -/
  buf : Tbl (BitVec 512)
  /-- Core that issues its requests. -/
  core : Nat
  stopped : Bool
  /-- Its path's mask at issue (R411). -/
  mask : LaneMask
  /-- Where its path stood at issue (R372). -/
  stand : Stand
  /-- The sectors of a synonym table of another die that it has read, by virtual sector (R371). -/
  got : Tbl TabRead
  deriving DecidableEq, Repr

/-! ## Teams -/

/-- Where a team stands (R377, R380). -/
inductive TeamStat where
  | resident
  /-- A save has been chosen and is not complete. -/
  | saving
  | saved (slot : Nat) (serviced : Bool)
  deriving DecidableEq, Repr

/-- A team's place in its launch and on the device. -/
structure TeamId where
  ctx : Nat
  grid : Nat
  num : Nat
  core : Nat
  image : Nat
  deriving DecidableEq, Repr

/-- A team's row file and scratchpad. -/
structure TeamRes where
  /-- SIZE of each role's pool (R61). -/
  sizes : List Nat
  reserve : Nat
  rows : Tbl Row
  nextRow : Nat
  seqCtr : Nat
  /-- Handoff slots: slot number to row (R29). -/
  slots : Tbl Nat
  scrLen : Nat
  scrGen : Nat
  scr : Memory
  deriving DecidableEq, Repr

/-- A team's Flume state. -/
structure TeamFlume where
  /-- Tile count A (R154). -/
  tileN : Nat
  /-- Words of the tiles: tile × 6,144 + 64 × row + column; unlisted words are 0 (R154, R155). -/
  tiles : Tbl Word
  coef : Tbl Word
  /-- The engine flag word (R153). -/
  flags : Word
  ops : List FlumeOp
  /-- By source (a group, or 32 for the engine program): operations that its next ones come after (R156). -/
  floors : Tbl (List Nat)
  fiter : Option Fiter
  deriving DecidableEq, Repr

/-- A team of a grid on its core or saved. -/
structure Team where
  id : TeamId
  stat : TeamStat
  halted : Bool
  res : TeamRes
  fl : TeamFlume
  flume : Seq
  sluice : Seq
  groups : Tbl Group
  memdef : Word
  /-- Groups arrived at each of the 16 barriers in the current phase (R225). -/
  bars : Tbl (List Nat)
  /-- 0 L-cores, 1 D-cores, 2 none (R237). -/
  target : Nat
  hintSucc : Bool
  /-- Retired clauses (R375). -/
  clauses : Nat
  /-- A drain under way: the tick at which it ends in a save (R376, R425). -/
  drain : Option Nat
  /-- Slice clocks of its core that had passed when the team came to it (R233). -/
  clock0 : Nat
  /-- A class-3 launch has pre-empted it (R425). -/
  urgent : Bool
  /-- The tick at which its save began (R425). -/
  saveAt : Nat
  /-- The regions of its slot that its save has written: offset, length (R378, R396). -/
  saved : List (Nat × Nat)
  deriving DecidableEq, Repr

/-! ## Contexts, launches, fields, queues -/

/-- A PC comparator (R405): word address and the four filters, none for "any". -/
structure Comparator where
  addr : Dword
  grid : Option Nat
  team : Option Nat
  group : Option Nat
  path : Option Nat
  deriving DecidableEq, Repr

/-- A context, from its descriptor (R356) and its commands. -/
structure Ctx where
  prot : Bool
  debug : Bool
  fields : BitVec 8
  memdef : Word
  trapen : Word
  emuvec : Dword
  savearea : Dword
  preempt : Dword
  fwdtab : Dword
  ptroot : Dword
  syntab : Dword
  ftabD : Dword
  ftabL : Dword
  ftlenD : Nat
  ftlenL : Nat
  pinBase : Dword
  pinLen : Dword
  /-- Compand tables 1 to 4 (R137); a missing one is the identity. -/
  compand : Tbl (List (Word × Word))
  deriving DecidableEq, Repr

/-- A context's tables that its teams and the driver change. -/
structure CtxLive where
  /-- Tensor identifiers (R87); an unlisted entry is zero. -/
  tns : Tbl (BitVec 512)
  /-- Grant i in bits 2i+1:2i (R78). -/
  grants : BitVec 256
  lastGrid : Nat
  bps : Tbl Comparator
  /-- The 80-bit record counter (R401, R411). -/
  records : Nat
  traceKey : Option (List Byte)
  parkIndex : Option Nat
  /-- A range move whose references the Headgate is rewriting: OLD, LENGTH in bytes, NEW (R333). -/
  moving : Option (Nat × Nat × Nat)
  /-- Order of last being scheduled (R397). -/
  sched : Nat
  deriving DecidableEq, Repr

/-- A launch (R353 to R355). -/
structure Launch where
  ctx : Nat
  grid : Nat
  /-- The 64 bytes of the packet. -/
  pkt : List Byte
  /-- The queue it came from and the order of acceptance (R357). -/
  queue : Nat
  order : Nat
  /-- Its predecessor's key, if it has one (R355). -/
  pred : Option Nat
  /-- Team numbers still to be admitted: never admitted, or flushed. -/
  todo : List Nat
  ended : Nat
  /-- Teams that have issued `hint.succ` or ended. -/
  hinted : List Nat
  done : Bool
  destroyed : Bool
  /-- The graph run it belongs to (R362). -/
  run : Option Nat
  /-- Write-backs that its teams' ends left under way (R231, R236). -/
  wbs : List Nat
  deriving DecidableEq, Repr

/-- A field (R360). -/
structure Field where
  cls : Nat
  /-- Core map: bit 32d + c for local core c of die d. -/
  cores : BitVec 128
  ways : List (BitVec 16)
  qmem : List Nat
  hbmw : List Nat
  deriving DecidableEq, Repr

/-- A work queue's entry: its eight words, and the vector that a receiver's acquire merges (R306). -/
structure QEntry where
  words : List Word
  vc : List Nat
  deriving DecidableEq, Repr

/-- A work queue (R305, R359). -/
structure WorkQ where
  home : Nat
  field : Nat
  cap : Nat
  /-- Unassigned entries, oldest first. -/
  entries : List QEntry
  /-- Waiting receivers, longest first: the messages of their `qwait`s. -/
  waiters : List Nat
  /-- Pushes that wait for room, in order of arrival. -/
  pushers : List Nat
  /-- Insertions, assignments and removals so far (R48). -/
  events : Nat
  deriving DecidableEq, Repr

/-- What a queue message asks (R306). -/
inductive QueueOp where
  | push | pushTry | wait | popTry
  deriving DecidableEq, Repr

/-- A queue word on its way to the queue's home, or waiting there. -/
structure QueueMsg where
  team : Nat
  /-- The die that it comes from, and the queue's. -/
  src : Nat
  home : Nat
  agent : Option Nat
  path : Nat
  ctx : Nat
  q : Nat
  op : QueueOp
  rlx : Bool
  sa : Nat
  sd : Nat
  data : List Word
  /-- The home has it. -/
  atHome : Bool
  /-- Requests that must be sent before it is inserted: the push's release. -/
  after : List Nat
  /-- Links still to be crossed on the way to the queue's home, then back (R305, R382). -/
  hops : List Nat
  /-- The home's answer on its way back: a status or an entry's words, and the vector that a receiver merges. -/
  answer : Option (List Word × List Nat)
  /-- The bytes of its message, as its source sent it (R383). -/
  wire : List Byte
  deriving DecidableEq, Repr

/-- What a user queue waits for before it accepts more (R358, R368). -/
inductive QWaitFor where
  | waitmem (addr value : Nat)
  | signal (pkt : List Byte)
  /-- A command whose effect is not complete: requests under way when it was accepted that it waits for. -/
  | command (pkt : List Byte) (reqs : List Nat)
  deriving DecidableEq, Repr

/-- What the Headgate knows of a user queue (R349 to R351). -/
structure UQueue where
  /-- Packets below this index may be accepted, from the last scan. -/
  limit : Nat
  rd : Nat
  stopped : Bool
  block : Option QWaitFor
  /-- The launch accepted last. -/
  last : Option Nat
  /-- The context that a SETCTX at the head of the queue describes, once its descriptor has been read (R356), with the packet. -/
  desc : Option (List Byte × Ctx)
  deriving DecidableEq, Repr

/-- A hardware slot of the Headgate (R351). -/
structure HgSlot where
  q : Nat
  notify : Bool
  deriving DecidableEq, Repr

/-- A graph's runs (R362), by graph header. -/
structure GraphRun where
  ctx : Nat
  header : Nat
  version : Nat
  /-- The header's CONCURRENT bit at the snapshot. -/
  concurrent : Bool
  launches : List Nat
  deriving DecidableEq, Repr

/-- A graph (R362), by its header: versions that an edit has superseded and RETIRED has not passed. -/
structure Graph where
  ctx : Nat
  header : Nat
  olds : List Nat
  deriving DecidableEq, Repr

/-! ## Requests -/

/-- What a request does at its home. -/
inductive ReqKind where
  | read | write | atomic
  /-- A clock beat (R110): it touches no location. -/
  | beat
  deriving DecidableEq, Repr

/-- Who waits for a request. -/
inductive ReqFor where
  /-- Lane `lane` of an access. -/
  | access (a lane : Nat)
  | copy (c : Nat)
  /-- An instruction fetch of a path, or of a sequencer (no group). -/
  | fetch (team : Nat) (group : Option Nat) (path : Nat)
  /-- A write-back or write-through that no instruction waits for (R430). -/
  | writeback
  /-- A host window access (R347). -/
  | host
  /-- A walk that reads a table of another die: of the request, the access or the copy with that number (R367, R371). -/
  | table (walker : Nat)
  deriving DecidableEq, Repr

/-- Where a request stands. -/
inductive Stage where
  /-- At its die's memory controllers, to be translated. -/
  | walk
  /-- Held on a service fault or a held write-back, under the fault's number. -/
  | held (fault : Nat)
  /-- Sent to its home. -/
  | sent
  /-- Served; the reply is on its way. -/
  | replied
  deriving DecidableEq, Repr

/-- A request for one sector, or for an atomic in one, from a die to a home (R109 to R111, R385). -/
structure Req where
  die : Nat
  core : Nat
  ctx : Nat
  /-- The field whose L2 ways its data may take (R82). -/
  field : Nat
  /-- The team and the group whose access fills L1 (R46). -/
  team : Nat
  group : Nat
  who : ReqFor
  kind : ReqKind
  /-- Byte address: the sector's for reads and writes, the operand's for atomics. -/
  va : Nat
  /-- The address is physical and needs no walk. -/
  phys : Bool
  mask : BitVec 64
  data : BitVec 512
  op : Nat
  /-- The order code of R195 that its message carries (R385). -/
  order : Nat
  x : Dword
  e : Word
  /-- System space or home order (R74, R117): allocates in no cache. -/
  sys : Bool
  /-- The reply fills L1 and L2 (R81, R83): scope, cache code. -/
  fillScope : Option Nat
  cache : Nat
  stamped : Bool
  /-- A store or atomic performed at home that drops the sector's copies when it is sent (R113, R117). -/
  drops : Bool
  /-- Requests of the die that must be sent before it. -/
  after : List Nat
  stage : Stage
  pa : Nat
  sealed : Bool
  home : Nat
  stamp : Nat
  vc : List Nat
  /-- Order of sending from its die. -/
  sentNo : Nat
  /-- Links still to be crossed by the request, then by the reply. -/
  hops : List Nat
  reply : BitVec 512
  stable : List Nat
  /-- The data read is poisoned (detail 2), or its MAC fails (detail 3); 0 otherwise. -/
  bad : Nat
  /-- The die whose Culvert link a request for host memory has been forwarded to (R347). -/
  fwd : Option Nat
  /-- The bytes of its message, then of its reply, as the source sent them (R383). -/
  wire : List Byte
  /-- The sectors of page tables of other dies that its walk has read, by physical sector (R367). -/
  got : Tbl TabRead
  deriving DecidableEq, Repr

/-- How far one lane of an access has come. -/
inductive LaneSt where
  | todo | out | done
  deriving DecidableEq, Repr

/-- One lane of an access: operands and the value it returns. -/
structure LaneAcc where
  lane : Nat
  va : Nat
  x : Dword
  e : Word
  st : LaneSt
  val : Dword
  deriving DecidableEq, Repr

/-- What an access is. -/
inductive AccKind where
  | load | store | atomic | cache
  /-- The memory words of a `wait` (R49). -/
  | poll
  deriving DecidableEq, Repr

/-- Where an access's results go. -/
inductive Dest where
  | none
  /-- Rows that receive bits 31:0 and, if there is a second one, bits 63:32. -/
  | rows (lo : Nat) (hi : Option Nat)
  | scalar (d : Nat)
  | pair (d : Nat)
  deriving DecidableEq, Repr

/-- A memory access under way (R187, R281 to R293). -/
structure Access where
  team : Nat
  group : Nat
  path : Nat
  /-- Address that a record names: the word's, or its prefix's. -/
  pc : Dword
  mask : LaneMask
  kind : AccKind
  /-- Bytes per lane. -/
  size : Nat
  /-- Sign-extend the loaded bytes. -/
  sext : Bool
  op : Nat
  order : Nat
  scope : Nat
  space : Nat
  cache : Nat
  dest : Dest
  lanes : List LaneAcc
  /-- An atomic performed at its home, bank or vault whatever its scope (`fatom`). -/
  atHome : Bool
  /-- Performed at home with a reply that counts against R293's 64. -/
  far : Bool
  /-- The counter has been lowered, or the result is discarded. -/
  cancelled : Bool
  /-- It has met a service fault: a parked access (R373). -/
  parked : Bool
  /-- Write-backs that STCNT waits for (R295). -/
  wbs : List Nat
  /-- The deepest level that a lane has reached, in bits 3:0, and the home die of level 10 in bits 5:4 (R411). -/
  level : Nat
  /-- Where its path stood at issue (R372). -/
  stand : Stand
  /-- The sectors of a synonym table of another die that its filter walk has read, by virtual sector (R371). -/
  got : Tbl TabRead
  deriving DecidableEq, Repr

/-! ## Dies, cores, links -/

/-- A landed copy sector that L2 has not yet performed (R119). -/
structure LandedSector where
  team : Nat
  copy : Nat
  ctx : Nat
  key : Nat
  mask : BitVec 64
  data : BitVec 512
  field : Nat
  deriving DecidableEq, Repr

/-- A compute die. -/
structure Die where
  epoch : Nat
  vc : List Nat
  stable : List Nat
  /-- EPOCH last sent to each die (R110). -/
  told : List Nat
  l2 : L2
  /-- Entries with V = 1 that the walk caches of the die's two controllers hold, by controller, context and table index
  (R9, R367). -/
  walks : Tbl Dword
  /-- The model's own input: the controller, 0 or 1, at which the die's next walks take place (log entry 29). -/
  ctl : Nat
  /-- Eighths of the vault die carved into the memory-side cache (R12, R370). -/
  carve : BitVec 8
  /-- The memory-side cache: sectors by physical address / 64, and its lines by physical address / 128, with their retention
  (R80, R81). -/
  msc : Tbl Sect
  mscLines : Tbl Retention
  protWays : Nat
  writeQ : List LandedSector
  /-- The die's Culvert link or CXL port is up (R9, R347, R363). -/
  portUp : Bool
  sent : Nat
  /-- Since when EPOCH has been past the value last sent to each die (R110). -/
  ahead : List Nat
  /-- Whose turn it is at each of the die's HBM controllers, by 4 × (stack mod 2) + class: the field, and how many more of its
  requests are served in this turn (R360). -/
  turns : Tbl (Nat × Nat)
  deriving DecidableEq, Repr

/-- A message on its way over the links (R385). -/
inductive Message where
  | req (r : Nat)
  | reply (r : Nat)
  /-- A queue word on its way to the queue's home (R305). -/
  | queue (m : Nat)
  deriving DecidableEq, Repr

/-- The types of flit (R384): idle, message bytes, NAK, and the reserved codes. -/
inductive FlitType where
  | idle | bytes | nak | reserved (code : Nat)
  deriving DecidableEq, Repr

/-- A flit (R384): SEQ, TYPE, SOM and BODY as they stand in it. The message and its last flit are the model's own marks: in
the flit they are BODY's bytes, and the count of bytes that the message's descriptor gives. -/
structure Flit where
  seq : Nat
  type : FlitType
  som : Bool
  body : List Byte
  msg : Option Message
  eom : Bool
  deriving DecidableEq, Repr

/-- A flit on the wires of one direction: its module, and the ACK that it carries where ACKV is 1. -/
structure Wire where
  flit : Flit
  module : Nat
  ack : Option Nat
  deriving DecidableEq, Repr

/-- A module of a pair's direction (R389, R391): 0 64-lane, 1 32-lane on lanes 0 to 31, 2 on lanes 32 to 63, 3 out. -/
structure Module where
  st : Nat
  retrain : Bool
  /-- The tick at which its retrain began (R389). -/
  retrainAt : Nat
  crcLo : Word
  crcHi : Word
  retrains : Word
  /-- Ticks of the failures charged to each lane group (R389). -/
  lo : List Nat
  hi : List Nat
  deriving DecidableEq, Repr

/-- One direction of a pair (R382, R386 to R391), number 2 × pair + direction. -/
structure Link where
  nextSeq : Nat
  /-- Message flits sent and not yet acknowledged, oldest first, with the tick of sending. -/
  buf : List (Flit × Nat)
  /-- Messages not yet framed. -/
  queue : List Message
  exp : Nat
  /-- The NAK outstanding: its EXP and its tick. -/
  nak : Option (Nat × Nat)
  /-- The tick since which no reverse flit has carried EXP (R386). -/
  ackSince : Nat
  wire : List Wire
  modules : Tbl Module
  flitsTx : Word
  resent : Word
  naksRx : Word
  dups : Word
  timeouts : Word
  deriving DecidableEq, Repr

/-- A remap-filter entry (R85). -/
structure RemapEntry where
  ctx : Nat
  base : Nat
  len : Nat
  leader : Nat
  deriving DecidableEq, Repr

/-- A core's world (R392). -/
inductive World where
  | ordinary
  | prot (ctx : Nat)
  /-- In its clear sequence (R393), and what it becomes: ordinary, or protected for a context. -/
  | clearing (next : Option Nat)
  deriving DecidableEq, Repr

/-- A tagged word that sampling follows (R410). -/
structure Tag where
  team : Nat
  group : Nat
  path : Nat
  pc : Dword
  mask : LaneMask
  refclk : Nat
  /-- The access, or the Flume operation, that it has begun. -/
  access : Option Nat
  op : Option Nat
  deriving DecidableEq, Repr

/-- A scheduler slice (R43 to R45, R410). Groups are named by (team, group). -/
structure Slice where
  active : List (Nat × Nat)
  pending : List (Nat × Nat)
  /-- The group in each resident place (R43, R413). -/
  places : Tbl (Nat × Nat)
  last : Option (Nat × Nat)
  /-- Clocks of the slice since each of its groups last issued (R45). -/
  waited : List ((Nat × Nat) × Nat)
  lfsr : Word
  /-- Issues left until the next tag; none before the first draw. -/
  count : Option Nat
  due : Bool
  tag : Option Tag
  deriving DecidableEq, Repr

/-- A core. -/
structure Core where
  l1 : L1
  /-- Instruction-cache sectors, by context × 2^54 + address / 64 (R123). -/
  icache : Tbl (BitVec 512)
  /-- Most recently used first (R85). -/
  remap : List RemapEntry
  /-- The fetch unit's copy of each context's forwarding table (R331): 16 entries of 256 bits. -/
  fwd : Tbl (List (BitVec 256))
  world : World
  /-- The tick at which its clear sequence began (R393). -/
  clearAt : Nat
  fenced : Bool
  /-- Evicted lines, oldest first: line, team, group (R46). -/
  victims : List (Nat × Nat × Nat)
  llHigh : Nat
  llLow : Nat
  llCap : Nat
  llSum : Nat
  /-- Halvings (R46) and comparisons (R47) made since the core's reset. -/
  llHalved : Nat
  llCapped : Nat
  staleDrop : Word
  sealedDrop : Word
  samples : Word
  sampleSkip : Word
  /-- The scratchpad generation given last (R103). -/
  gen : Nat
  slices : Tbl Slice
  /-- Remapped lanes: slice × 128 + lane (R422). -/
  remapped : List Nat
  /-- Defective lanes, by the same key, that wait for their slice to hold no group (R422). -/
  defects : List Nat
  deriving DecidableEq, Repr

/-! ## System -/

/-- A translation miss or a held write-back (R372, R430). -/
structure FaultRec where
  ctx : Nat
  src : Nat
  acc : Nat
  grid : Nat
  team : Nat
  teamNo : Nat
  group : Nat
  path : Nat
  va : Nat
  image : List Byte
  /-- Its TOKEN, once the record is in the ring. -/
  token : Option Nat
  since : Nat
  deriving DecidableEq, Repr

/-- The fault ring (R368, R372). -/
structure FaultRing where
  log2n : Nat
  ring : Nat
  widx : Nat
  ridx : Nat
  vector : Nat
  deriving DecidableEq, Repr

/-- A Culvert window register (R346). -/
abbrev Window := BitVec 128

/-- The host interface block and the Headgate's slots (R348 to R351). -/
structure Headgate where
  qtbase : Dword
  qtlen : Word
  cxldec : Nat
  /-- Window i of link L at 16 × L + i; an unlisted register is 0. -/
  windows : Tbl Window
  slots : Tbl HgSlot
  /-- Where the host has placed BAR0 of a Culvert link in its physical address space (R346, R351). -/
  bars : Tbl Nat
  /-- Slots whose latch has caught a notify for a queue: the queue, and the tick (R351). -/
  orphans : Tbl (Nat × Nat)
  queues : Tbl UQueue
  deriving DecidableEq, Repr

/-- A protected context's key record (R394, R398): the XTS key pair, the MAC key, the private half of the report key, and the
generation. -/
structure KeyRec where
  xts : BitVec 512
  mac : BitVec 256
  report : BitVec 256
  gen : Nat
  deriving DecidableEq, Repr

/-- The security firmware's state (R394 to R402). -/
structure Keys where
  /-- Key slot to context. -/
  seated : Tbl Nat
  /-- The key record in each slot. -/
  records : Tbl KeyRec
  /-- A slot that is being parked: its context. The slot is cleared once the context's lines have been written back (R398). -/
  parking : Option (Nat × Nat)
  /-- The generation table. -/
  gens : Tbl Nat
  area : Option Nat
  /-- Contexts whose key is parked (R398). -/
  parked : List Nat
  /-- The per-boot key. -/
  perBoot : BitVec 256
  wraps : Tbl Nat
  /-- The metadata bits of sealed sectors, by physical address / 64: the MAC (R394), and beside it the model's own note of the
  context and the generation that sealed the sector (log entry 6). -/
  seals : Tbl (Nat × Nat × BitVec 32)
  deriving DecidableEq, Repr

/-- TRACECTL's settings and the trace ring (R409 to R412). -/
structure Trace where
  enable : Bool
  log2n : Nat
  meanlog : Nat
  kinds : Word
  ring : Nat
  widxPA : Nat
  vector : Nat
  widx : Nat
  drop : Word
  deriving DecidableEq, Repr

/-- The boot block and the ROM (R414 to R420). STATE: 0 reset, 1 waiting, 2 loading, 3 running, 4 failed. -/
structure Boot where
  st : Nat
  code : Nat
  img : Dword
  fwver : Word
  ucode : Word
  fuse : Nat
  rollback : Nat
  digest : BitVec 384
  powered : Bool
  /-- The image's bytes as the ROM has read them (R416). -/
  copy : List Byte
  /-- A read of the image has completed with an error (R417). -/
  readError : Bool
  /-- The model's own: which free value gave ENDORSE's ML-DSA signature its random bytes (log entry 6). -/
  rnd : Nat
  deriving DecidableEq, Repr

/-- Fleet health (R421 to R427). -/
structure Health where
  word : Word
  vec : Word
  errcnt : Tbl Word
  class2 : Nat
  cap : Nat
  /-- Clocks stand at this many sixteenths of nominal (R426). -/
  clock : Nat
  /-- Defective physical lanes found so far: core, and slice × 128 + lane; no reset mends them (R422). -/
  faulty : List (Nat × Nat)
  deriving DecidableEq, Repr

/-- Who issues the next word. -/
inductive Agent where
  | group (g : Nat)
  | flume
  | sluice
  deriving DecidableEq, Repr

/-- The agent whose turn it is. -/
structure Cursor where
  team : Nat
  agent : Agent
  deriving DecidableEq, Repr

/-- What happens next, where the manual promises no order among the device's agents or where the host acts. -/
inductive Input where
  /-- A step of the table. -/
  | event (i : Instr)
  /-- A slice clock of a core in which these of its slices issue from their active sets (R45). -/
  | clock (core : Nat) (slices : List Nat)
  /-- A sequencer issues its next word: the Flume's if `flume`, else the Sluice's. -/
  | seq (team : Nat) (flume : Bool)
  /-- Reference ticks pass (R4). -/
  | tick (n : Nat)
  /-- A cache evicts a line (R46, R81). -/
  | evictL1 (core line : Nat)
  | evictL2 (die line : Nat)
  | evictMsc (die line : Nat)
  /-- A walk cache or an instruction cache loses an entry. -/
  | evictWalk (die key : Nat)
  | evictIcache (core key : Nat)
  /-- The next access performs only these lanes as it issues; lanes that an access has left are performed (R118). -/
  | split (lanes : LaneMask)
  | lanes (access : Nat) (lanes : LaneMask)
  /-- The next walks of a die take place at its controller 0 or 1 (R9, R367). -/
  | controller (die n : Nat)
  /-- The ROM reads the next n bytes of the image, or a read of it completes with an error (R416, R417). -/
  | bootRead (n : Nat)
  | bootError
  /-- The host reads n bytes of BAR0 from an offset (R348, R391, R413, R414). -/
  | barRead (off n : Nat)
  /-- The scheduler writes a team's target kind (R237). -/
  | target (team kind : Nat)
  /-- The host writes its own memory, at a physical address. -/
  | host (pa : Nat) (bytes : List Byte)
  /-- The host places BAR0 of a Culvert link in its physical address space. -/
  | bar (link pa : Nat)
  deriving DecidableEq, Repr

/-- Memory behind the homes. -/
structure Store where
  /-- Bytes by physical address (R363). -/
  pa : Memory
  /-- Vault bytes by the vault window's offset (R77). -/
  vault : Memory
  /-- Poisoned sectors (R421): physical address / 64, or 2^46 + the vault window's offset / 64. -/
  poison : List Nat
  deriving DecidableEq, Repr

/-- The device. -/
structure State where
  refclk : Nat
  /-- Sixteenths of nominal clock time, in ticks: the slice clocks of every core follow it (R46, R233, R426). -/
  clock16 : Nat
  store : Store
  dies : Tbl Die
  links : Tbl Link
  cores : Tbl Core
  teams : Tbl Team
  ctxs : Tbl Ctx
  live : Tbl CtxLive
  fields : Tbl Field
  launches : Tbl Launch
  runs : Tbl GraphRun
  graphs : Tbl Graph
  workQs : Tbl WorkQ
  msgs : Tbl QueueMsg
  reqs : Tbl Req
  /-- Messages that have left their source and wait for those on the old route (R390), oldest first. -/
  delayed : List Message
  accs : Tbl Access
  copies : Tbl Copy
  faults : Tbl FaultRec
  ring : Option FaultRing
  faultCount : Nat
  hg : Headgate
  keys : Keys
  trace : Trace
  boot : Boot
  health : Health
  /-- Interrupt vectors raised so far, newest first. -/
  irqs : List Nat
  /-- Completions of host window accesses, newest first: error or not, and the bytes read (R346). -/
  completions : List (Bool × List Byte)
  /-- The next number for a team, launch order, request, access, copy, message, fault or run. -/
  nextId : Nat
  /-- The model's own counter of open values used (log entry 3); no register of the manual. -/
  free : Nat
  /-- The model's own input: the lanes of the next access that are performed as it issues; the others wait for the agenda
  (log entry 1, R118). None: every lane. -/
  split : Option LaneMask
  /-- The model's own script of what happens next (log entry 1); empty: the agents take turns. -/
  agenda : List Input
  /-- The model's own: the place from which the next agent is taken when the agenda is empty (log entry 1). -/
  turn : Nat
  cur : Option Cursor
  deriving DecidableEq, Repr

/-! ## How a step stops -/

/-- Why a step stops. -/
inductive Fault where
  /-- Raised by a meaning of an instruction word when no group or sequencer of a resident team is issuing. The device
  never executes a word without an issuing agent, so this is safe. -/
  | noAgent
  deriving DecidableEq, Repr

/-- Why a step is refused. -/
inductive Refusal where
  /-- Raised by an arm of `exec` whose instruction has no meaning yet; safe. -/
  | notModelled (mnemonic : String)
  /-- Raised by the meaning of a step of another agent when its occasion has not arisen: the device does not take this
  step in this state. Safe: nothing is said of such a state. -/
  | notEnabled (mnemonic : String)
  deriving DecidableEq, Repr

/-! ## Reset -/

/-- A memory with nothing listed. -/
def Memory.empty : Memory := []

/-- A die at reset: EPOCH, VC and STABLE zero (R109), no eighth carved (R370). -/
def Die.reset : Die :=
  { epoch := 0, vc := [0, 0, 0, 0], stable := [0, 0, 0, 0], told := [0, 0, 0, 0], l2 := ⟨[], []⟩, walks := [], ctl := 0,
    carve := 0, msc := [], mscLines := [], protWays := 0, writeQ := [], portUp := true, sent := 0, ahead := [0, 0, 0, 0], turns := [] }

/-- A module at reset: 64 lanes, counters zero (R389, R391). -/
def Module.reset : Module := { st := 0, retrain := false, retrainAt := 0, crcLo := 0, crcHi := 0, retrains := 0, lo := [], hi := [] }

/-- A link at reset. -/
def Link.reset : Link :=
  { nextSeq := 0, buf := [], queue := [], exp := 0, nak := none, ackSince := 0, wire := [], modules := [],
    flitsTx := 0, resent := 0, naksRx := 0, dups := 0, timeouts := 0 }

/-- Local cores 0 to 23 of a die are D-cores, 24 to 31 L-cores (R10). -/
def isLCore (core : Nat) : Bool := 24 ≤ core % 32

/-- The active-set size of a slice (R13, R43). -/
def activeSize (core : Nat) : Nat := if isLCore core then 4 else 8

/-- A core at reset (R47, R413). -/
def Core.reset (core : Nat) : Core :=
  { l1 := ⟨[], [], []⟩, icache := [], remap := [], fwd := [], world := .ordinary, clearAt := 0, fenced := false, victims := [],
    llHigh := 256, llLow := 64, llCap := activeSize core, llSum := 0, llHalved := 0, llCapped := 0,
    staleDrop := 0, sealedDrop := 0, samples := 0,
    sampleSkip := 0, gen := 0, slices := [], remapped := [], defects := [] }

/-- A slice at reset: its LFSR's seed is device core number × 32 + slice + 1 (R410). -/
def Slice.reset (core slice : Nat) : Slice :=
  { active := [], pending := [], places := [], last := none, waited := [], lfsr := BitVec.ofNat 32 (core * 32 + slice + 1),
    count := none, due := false, tag := none }

/-- The host interface block at reset (R348). -/
def Headgate.reset : Headgate :=
  { qtbase := 0, qtlen := 0, cxldec := 0, windows := [], slots := [], bars := [], orphans := [], queues := [] }

/-- The security firmware at reset: no key anywhere (R402, R420). -/
def Keys.reset : Keys := { seated := [], records := [], parking := none, gens := [], area := none, parked := [], perBoot := 0, wraps := [], seals := [] }

/-- Trace at reset: off. -/
def Trace.reset : Trace :=
  { enable := false, log2n := 0, meanlog := 0, kinds := 0, ring := 0, widxPA := 0, vector := 0, widx := 0, drop := 0 }

/-- The ROM after a reset: STATE 1, waiting for an image (R420). -/
def Boot.reset : Boot :=
  { st := 1, code := 0, img := 0, fwver := 0, ucode := 0, fuse := 0, rollback := 0, digest := 0, powered := true, copy := [], readError := false, rnd := 0 }

/-- Health at reset: no bit set, counters zero; the cap is the module's limit (R24). -/
def Health.reset : Health := { word := 0, vec := 0, errcnt := [], class2 := 0, cap := 2600, clock := 16, faulty := [] }

/-- The device right after reset (R420): no context, field, queue or team; every counter, stamp and key cleared. -/
def State.reset : State :=
  { refclk := 0, clock16 := 0, store := ⟨[], [], []⟩, dies := [], links := [], cores := [], teams := [], ctxs := [], live := [],
    fields := [], launches := [], runs := [], graphs := [], workQs := [], msgs := [], reqs := [], delayed := [], accs := [], copies := [], faults := [],
    ring := none, faultCount := 0, hg := Headgate.reset, keys := Keys.reset, trace := Trace.reset, boot := Boot.reset,
    health := Health.reset, irqs := [], completions := [], nextId := 1, free := 0, split := none, agenda := [], turn := 0, cur := none }

end Sys2Proof.Machine
end

