-- ==== Sys2Proof/Machine/Ops.lean ====
section
/-! DEFINITION. The named operations that every meaning is built from: bytes of memory, the parts of the state, the
issuing agent, registers, rows and the register map, landing results, stopping traps, the emulation handler, and how a
word ends (retired, taken, held, trapped). -/

namespace Sys2Proof.Machine

/-- What a step answers. -/
abbrev Out := Host.Outcome State Fault Refusal

/-! ## Numbers and bytes (R2) -/

/-- Bits hi:lo of a number. -/
def bits (n hi lo : Nat) : Nat := (n / 2 ^ lo) % 2 ^ (hi + 1 - lo)

/-- Bit i of a number. -/
def bit (n i : Nat) : Bool := bits n i i == 1

/-- The n low bytes of a number, lowest first (R2). -/
def bytesOf (n v : Nat) : List Byte := (List.range n).map fun i => BitVec.ofNat 8 (v / 2 ^ (8 * i))

/-- The number whose bytes, lowest first, are these (R2). -/
def ofBytes : List Byte → Nat
  | [] => 0
  | b :: rest => b.toNat + 256 * ofBytes rest

/-- Two words as a pair: bits 31:0 first (R2). -/
def pair (lo hi : Word) : Dword := hi ++ lo

/-- The low word of a pair. -/
def lowWord (d : Dword) : Word := d.extractLsb' 0 32

/-- The high word of a pair. -/
def highWord (d : Dword) : Word := d.extractLsb' 32 32

/-- A w-bit natural number read as signed (R205). -/
def signed (w n : Nat) : Int := if n % 2 ^ w < 2 ^ (w - 1) then (n % 2 ^ w : Nat) else (n % 2 ^ w : Nat) - (2 ^ w : Nat)

/-- An integer reduced to a word (R205, Wrap32). -/
def wrap32 (x : Int) : Word := BitVec.ofInt 32 x

/-- An integer reduced to a pair (R205, Wrap64). -/
def wrap64 (x : Int) : Dword := BitVec.ofInt 64 x

/-! ## Memory -/

/-- The byte at an address. -/
def Memory.get (m : Memory) (a : Nat) : Byte := Tbl.getD m a Memory.blank

/-- A byte written at an address; the canonical form is kept. -/
def Memory.put (m : Memory) (a : Nat) (v : Byte) : Memory :=
  if v = Memory.blank then Tbl.del m a else Tbl.put m a v

/-- n bytes from an address up. -/
def Memory.read (m : Memory) (a n : Nat) : List Byte := (List.range n).map fun i => m.get (a + i)

/-- Bytes written from an address up. -/
def Memory.write (m : Memory) (a : Nat) : List Byte → Memory
  | [] => m
  | b :: rest => Memory.write (m.put a b) (a + 1) rest

/-- The number that n bytes hold. -/
def Memory.load (m : Memory) (a n : Nat) : Nat := ofBytes (m.read a n)

/-- A number stored in n bytes. -/
def Memory.store (m : Memory) (a n v : Nat) : Memory := m.write a (bytesOf n v)

/-- Every byte of a range set to zero. -/
def Memory.zero (m : Memory) (a n : Nat) : Memory := m.filter fun c => !(a ≤ c.1 && c.1 < a + n)

/-- n bytes from an address replaced by those of a function of the place. -/
def Memory.replace (m : Memory) (a n : Nat) (f : Nat → Byte) : Memory :=
  (m.filter fun c => c.1 < a) ++ (((List.range n).map fun i => (a + i, f i)).filter fun c => c.2 != Memory.blank) ++
    m.filter fun c => a + n ≤ c.1

/-- The 64 bytes of a sector as one number, byte i in bits 8i+7:8i. -/
def sectOf (bs : List Byte) : BitVec 512 := BitVec.ofNat 512 (ofBytes bs)

/-- Bytes lo to lo + n - 1 of a sector as a number. -/
def sectLoad (d : BitVec 512) (lo n : Nat) : Nat := (d.toNat / 2 ^ (8 * lo)) % 2 ^ (8 * n)

/-- The mask of the bytes lo to lo + n - 1 of a sector. -/
def byteMask (lo n : Nat) : BitVec 64 := BitVec.ofNat 64 ((2 ^ n - 1) * 2 ^ lo)

/-- A byte mask spread over the bits of the bytes. -/
def spread (m : BitVec 64) : BitVec 512 :=
  (List.range 64).foldl (fun acc i => if m.getLsbD i then acc ||| BitVec.ofNat 512 (255 * 2 ^ (8 * i)) else acc) 0

/-- The bytes of `new` that the mask names over the bytes of `old`. -/
def mergeSect (old new : BitVec 512) (m : BitVec 64) : BitVec 512 := (old &&& ~~~(spread m)) ||| (new &&& spread m)

/-! ## The parts of the device -/

/-- Die d. -/
def State.die (s : State) (d : Nat) : Die := s.dies.getD d Die.reset
def State.setDie (s : State) (d : Nat) (x : Die) : State := { s with dies := s.dies.put d x }

/-- Device core c. -/
def State.core (s : State) (c : Nat) : Core := s.cores.getD c (Core.reset c)
def State.setCore (s : State) (c : Nat) (x : Core) : State := { s with cores := s.cores.put c x }

/-- Slice clocks of a core since the device's reset (R46, R233): 940 MHz on a D-core and 1,880 MHz on an L-core against the
100 MHz of R4, lowered in sixteenths (R426). -/
def State.coreClock (s : State) (c : Nat) : Nat := s.clock16 * (if isLCore c then 188 else 94) / 160

/-- Link l. -/
def State.link (s : State) (l : Nat) : Link := s.links.getD l Link.reset
def State.setLink (s : State) (l : Nat) (x : Link) : State := { s with links := s.links.put l x }

/-- Slice k of core c. -/
def State.slice (s : State) (c k : Nat) : Slice := (s.core c).slices.getD k (Slice.reset c k)
def State.setSlice (s : State) (c k : Nat) (x : Slice) : State :=
  s.setCore c { s.core c with slices := (s.core c).slices.put k x }

/-- Team t replaced. -/
def State.setTeam (s : State) (t : Nat) (x : Team) : State := { s with teams := s.teams.put t x }

/-- Group g of a team replaced. -/
def Team.setGroup (t : Team) (g : Nat) (x : Group) : Team := { t with groups := t.groups.put g x }

/-- Path p of a group replaced. -/
def Group.setPath (g : Group) (p : Nat) (x : Path) : Group := { g with paths := g.paths.put p x }

/-- The die of a core (R10). -/
def dieOf (core : Nat) : Nat := core / 32

/-- A fresh number for a new object. -/
def State.fresh (s : State) : Nat × State := (s.nextId, { s with nextId := s.nextId + 1 })

/-- A fresh index of the open values of Config. -/
def State.draw (s : State) : Nat × State := (s.free, { s with free := s.free + 1 })

/-- The context of a team, with the defaults of one that is gone. -/
def Ctx.gone : Ctx :=
  { prot := false, debug := false, fields := 0, memdef := 0x40, trapen := 0, emuvec := 0, savearea := 0, preempt := 0,
    fwdtab := 0, ptroot := 0, syntab := 0, ftabD := 0, ftabL := 0, ftlenD := 0, ftlenL := 0, pinBase := 0, pinLen := 0,
    compand := [] }

def CtxLive.new : CtxLive :=
  { tns := [], grants := 0, lastGrid := 0, bps := [], records := 0, traceKey := none, parkIndex := none, moving := none, sched := 0 }

def State.ctx (s : State) (c : Nat) : Ctx := s.ctxs.getD c Ctx.gone
def State.ctxLive (s : State) (c : Nat) : CtxLive := s.live.getD c CtxLive.new

/-- The key of a launch (R354). -/
def launchKey (ctx grid : Nat) : Nat := ctx * 2 ^ 32 + grid

/-- The key of a context's work queue (R305). -/
def workKey (ctx q : Nat) : Nat := ctx * 256 + q

/-! ## The issuing agent -/

/-- A group's path at its word. -/
structure Env where
  t : Nat
  team : Team
  g : Nat
  grp : Group
  p : Nat
  path : Path
  deriving DecidableEq, Repr

/-- A sequencer at its word. -/
structure SeqEnv where
  t : Nat
  team : Team
  flume : Bool
  seq : Seq
  deriving DecidableEq, Repr

/-- Who is issuing. -/
inductive Issuer where
  | group (e : Env)
  | seq (e : SeqEnv)
  | nobody
  deriving DecidableEq, Repr

/-- The sequencer of a team. -/
def Team.seqOf (t : Team) (flume : Bool) : Seq := if flume then t.flume else t.sluice
def Team.setSeq (t : Team) (flume : Bool) (x : Seq) : Team :=
  if flume then { t with flume := x } else { t with sluice := x }

/-- The agent that the cursor names, if its team is resident and it exists. -/
def issuer (s : State) : Issuer :=
  match s.cur with
  | none => .nobody
  | some c =>
    match s.teams.get? c.team with
    | none => .nobody
    | some team =>
      match c.agent with
      | .group g =>
        match team.groups.get? g with
        | none => .nobody
        | some grp =>
          match grp.paths.get? grp.cur with
          | none => .nobody
          | some path => .group { t := c.team, team, g, grp, p := grp.cur, path }
      | .flume => .seq { t := c.team, team, flume := true, seq := team.flume }
      | .sluice => .seq { t := c.team, team, flume := false, seq := team.sluice }

/-- A path written back, with its group and team. -/
def Env.put (e : Env) (s : State) (path : Path) : State :=
  match s.teams.get? e.t with
  | none => s
  | some team =>
    match team.groups.get? e.g with
    | none => s
    | some grp => s.setTeam e.t (team.setGroup e.g (grp.setPath e.p path))

/-- A group changed in the state. -/
def updGroup (s : State) (t g : Nat) (f : Group → Group) : State :=
  { s with teams := s.teams.upd t fun team => { team with groups := team.groups.upd g f } }

/-- A team changed in the state. -/
def updTeam (s : State) (t : Nat) (f : Team → Team) : State := { s with teams := s.teams.upd t f }

/-- A path changed in the state. -/
def updPath (s : State) (t g p : Nat) (f : Path → Path) : State :=
  updGroup s t g fun grp => { grp with paths := grp.paths.upd p f }

/-- A sequencer changed in the state. -/
def updSeq (s : State) (t : Nat) (flume : Bool) (f : Seq → Seq) : State :=
  updTeam s t fun team => team.setSeq flume (f (team.seqOf flume))

/-- The address of the word at which a path stands: after its prefix, if it has one (R195). -/
def Path.wordAddr (p : Path) : Dword :=
  match p.clause with
  | some c => if c.pfx.isSome then p.pc + 4 else p.pc
  | none => p.pc

/-! ## Clause classes and places (R160, R185, R217) -/

/-- The class of a clause header, bits 27:25 (R184). -/
def classOf (header : Word) : Nat := bits header.toNat 27 25

/-- The majors that a class accepts (R185). -/
def classAccepts (cls major : Nat) : Bool :=
  match cls with
  | 0 => (0x02 ≤ major && major ≤ 0x05) || (0x07 ≤ major && major ≤ 0x23)
  | 1 => major == 0x01 || major == 0x06 || (0x24 ≤ major && major ≤ 0x2B)
  | 2 => 0x2C ≤ major && major ≤ 0x31
  | 3 => 0x32 ≤ major && major ≤ 0x37
  | 4 => 0x32 ≤ major && major ≤ 0x37
  | 5 => 0x2C ≤ major && major ≤ 0x31
  | 6 => major == 0x0F
  | _ => false

/-- Where an instruction may stand: which classes and which agents. -/
inductive Place where
  /-- Class 0; groups and both sequencers. -/
  | any0
  /-- Class 0; groups. -/
  | group0
  /-- Class 1; groups. -/
  | mem1
  /-- Class 2 for groups, class 5 for the Sluice sequencer. -/
  | async
  /-- Class 3; groups. -/
  | flume3
  /-- Class 4; the Flume sequencer. -/
  | flume4
  /-- Class 3 for groups, class 4 for the Flume sequencer. -/
  | flume34
  /-- Class 6; groups. -/
  | sys6
  deriving DecidableEq, Repr

/-- Whether a group may issue a word of this place from a clause of class `cls`. -/
def Place.group (p : Place) (cls : Nat) : Bool :=
  match p with
  | .any0 => cls == 0
  | .group0 => cls == 0
  | .mem1 => cls == 1
  | .async => cls == 2
  | .flume3 => cls == 3
  | .flume4 => false
  | .flume34 => cls == 3
  | .sys6 => cls == 6

/-- Whether a sequencer may. -/
def Place.seq (p : Place) (flume : Bool) (cls : Nat) : Bool :=
  match p with
  | .any0 => cls == 0
  | .async => !flume && cls == 5
  | .flume4 => flume && cls == 4
  | .flume34 => flume && cls == 4
  | _ => false

/-! ## Scalars, masks, predicates (R34 to R36, R55) -/

/-- The word of the mask that `s61`, `s62` or `s63` shows (R34). -/
def maskWord (m : LaneMask) (r : Nat) : Word := m.extractLsb' (32 * (r - 61)) 32

/-- A mask with one of its words written, cut to the domain (R35). -/
def writeMaskWord (m dom : LaneMask) (r : Nat) (v : Word) : LaneMask :=
  let lo := 32 * (r - 61)
  let keep : LaneMask := ~~~(BitVec.ofNat 96 ((2 ^ 32 - 1) * 2 ^ lo))
  (m &&& keep) ||| (BitVec.ofNat 96 (v.toNat * 2 ^ lo) &&& dom)

/-- Scalar r as a path of the group reads it. -/
def readS (grp : Group) (path : Path) (r : Nat) : Word :=
  if 61 ≤ r then maskWord path.mask r else grp.s.getD r 0

/-- Scalar r of the issuing path. -/
def Env.s (e : Env) (r : BitVec 6) : Word := readS e.grp e.path r.toNat

/-- The pair at an even register (R56). -/
def Env.pair (e : Env) (r : BitVec 6) : Dword := Machine.pair (readS e.grp e.path r.toNat) (readS e.grp e.path (r.toNat + 1))

/-- Scalar r of path p of group g of team t written (R35 for `s61` to `s63`). -/
def writeS (s : State) (t g p r : Nat) (v : Word) : State :=
  if 61 ≤ r then updPath s t g p fun path => { path with mask := writeMaskWord path.mask path.domain r v }
  else updGroup s t g fun grp => { grp with s := grp.s.put r v }

def Env.setS (e : Env) (s : State) (r : BitVec 6) (v : Word) : State := writeS s e.t e.g e.p r.toNat v

/-- A pair written: the even register first (R56). -/
def Env.setPair (e : Env) (s : State) (r : BitVec 6) (v : Dword) : State :=
  writeS (writeS s e.t e.g e.p r.toNat (lowWord v)) e.t e.g e.p (r.toNat + 1) (highWord v)

/-- Predicate p. -/
def Group.pred (g : Group) (p : Nat) : LaneMask := g.p.getD p 0

/-- A predicate written. -/
def writeP (s : State) (t g p : Nat) (v : LaneMask) : State := updGroup s t g fun grp => { grp with p := grp.p.put p v }

def Env.setP (e : Env) (s : State) (p : Nat) (v : LaneMask) : State := writeP s e.t e.g p v

/-- The issuing path's mask set to a value already within its domain. -/
def Env.setMask (e : Env) (s : State) (m : LaneMask) : State := updPath s e.t e.g e.p fun path => { path with mask := m }

/-- Scalar r of a sequencer. -/
def SeqEnv.s (e : SeqEnv) (r : Nat) : Word := e.seq.s.getD r 0

/-- Scalar r of a sequencer written. -/
def SeqEnv.setS (e : SeqEnv) (s : State) (r : Nat) (v : Word) : State :=
  updSeq s e.t e.flume fun q => { q with s := q.s.put r v }

/-- The lowest set bit of a mask. -/
def lowestLane (m : LaneMask) : Option Nat := (List.range 96).find? fun i => m.getLsbD i

/-- The lanes of a mask, rising. -/
def lanesOf (m : LaneMask) : List Nat := (List.range 96).filter fun i => m.getLsbD i

/-- A mask from a test on lane numbers. -/
def maskOf (f : Nat → Bool) : LaneMask :=
  BitVec.ofNat 96 ((List.range 96).foldl (fun n i => if f i then n + 2 ^ i else n) 0)

/-! ## Rows and the register map (R58 to R69) -/

/-- The names that map a row, as (sequence, group), over a team. -/
def Team.namesOn (t : Team) (r : Nat) : List (Nat × Nat) :=
  t.groups.flatMap fun ge => (ge.2.map.filter fun ne => ne.2.row == r).map fun ne => (ne.2.seq, ge.1)

/-- The slots that hold a row, rising. -/
def Team.slotsOn (t : Team) (r : Nat) : List Nat := (t.res.slots.filter fun e => e.2 == r).map (·.1)

/-- The group whose name has the lowest sequence number. -/
def earliest : List (Nat × Nat) → Option (Nat × Nat)
  | [] => none
  | x :: rest =>
    match earliest rest with
    | none => some x
    | some y => some (if x.1 < y.1 then x else y)

/-- The role of a group. -/
def Team.roleOf (t : Team) (g : Nat) : Nat := ((t.groups.get? g).map (·.role)).getD 0

/-- USED of a role's pool: live rows charged to it (R61). -/
def Team.used (t : Team) (role : Nat) : Nat := (t.res.rows.filter fun e => e.2.charge == role).length

/-- The team's total of USED. -/
def Team.usedAll (t : Team) : Nat := t.res.rows.length

/-- Whether k rows may be allocated for a role (R64). -/
def Team.roomFor (t : Team) (role k : Nat) : Bool :=
  k == 0 || (t.used role + k ≤ t.res.sizes.getD role 0 && t.usedAll + k ≤ t.res.reserve)

/-- A row replaced. -/
def Team.setRow (t : Team) (r : Nat) (x : Row) : Team := { t with res := { t.res with rows := t.res.rows.put r x } }

/-- A row removed from the team. -/
def Team.dropRow (t : Team) (r : Nat) : Team := { t with res := { t.res with rows := t.res.rows.del r } }

/-- Whether a group maps a row through some name. -/
def Group.maps (g : Group) (r : Nat) : Bool := g.map.any fun e => e.2.row == r

/-- The three cases of R66 for a row whose REFCNT has fallen. -/
def Team.settleRow (t : Team) (r : Nat) (row : Row) : Team :=
  if row.refcnt = 0 then
    if row.pend = 0 then t.dropRow r else t.setRow r row
  else
    match row.anchor with
    | .slot _ => t.setRow r row
    | .group g =>
      let keeps := ((t.groups.get? g).map fun grp => grp.maps r).getD false
      if keeps then t.setRow r row
      else
        match earliest (t.namesOn r) with
        | some (_, g') => t.setRow r { row with anchor := .group g', charge := t.roleOf g' }
        | none =>
          match t.slotsOn r with
          | i :: _ => t.setRow r { row with anchor := .slot i }
          | [] => t.setRow r row

/-- REFCNT of a row lowered by 1, with R66's cases. -/
def Team.release (t : Team) (r : Nat) : Team :=
  match t.res.rows.get? r with
  | none => t
  | some row => t.settleRow r { row with refcnt := row.refcnt - 1 }

/-- A name's entry replaced or removed, with no other effect. -/
def Team.setName (t : Team) (g n : Nat) (m : Option Mapped) : Team :=
  { t with groups := t.groups.upd g fun grp =>
      { grp with map := match m with | some x => grp.map.put n x | none => grp.map.del n } }

/-- What a name maps. -/
def Team.mapped (t : Team) (g n : Nat) : Option Mapped := (t.groups.get? g).bind fun grp => grp.map.get? n

/-- A name unmapped (R66); an unmapped name stays as it is. -/
def Team.unmap (t : Team) (g n : Nat) : Team :=
  match t.mapped g n with
  | none => t
  | some m => (t.setName g n none).release m.row

/-- The next sequence number of the team's map (R60). The counter starts at zero and the value taken is the one after it, so
that a team's first mapping is number 1: DEDUCED from the traces of 03_register_map.md and 19_program_register_handoff.md
(log entry 53). -/
def Team.nextSeq (t : Team) : Nat × Team := (t.res.seqCtr + 1, { t with res := { t.res with seqCtr := t.res.seqCtr + 1 } })

/-- 96 zero lanes. -/
def zeroLanes : List Word := List.replicate 96 0

/-- A name brought onto a fresh zeroed row, without any test (R64, R408). -/
def Team.mapFresh (t : Team) (g n : Nat) : Team :=
  let (q, t) := t.nextSeq
  let r := t.res.nextRow
  let row : Row := { lanes := zeroLanes, refcnt := 1, anchor := .group g, charge := t.roleOf g, pend := 0 }
  ({ t with res := { t.res with rows := t.res.rows.put r row, nextRow := r + 1 } }).setName g n (some ⟨r, q⟩)

/-- The names of a list that are unmapped, without repeats. -/
def Team.unmappedOf (t : Team) (g : Nat) (ns : List Nat) : List Nat :=
  (ns.filter fun n => (t.mapped g n).isNone).eraseDups

/-- Every unmapped name of a list mapped to a fresh row, in the list's order (R64). -/
def Team.mapAll (t : Team) (g : Nat) (ns : List Nat) : Team :=
  (t.unmappedOf g ns).foldl (fun t n => t.mapFresh g n) t

/-- The lanes of a name's row; none for an unmapped name. -/
def Team.nameLanes (t : Team) (g n : Nat) : Option (List Word) :=
  (t.mapped g n).bind fun m => (t.res.rows.get? m.row).map (·.lanes)

/-- Lanes of a mask replaced. -/
def mergeLanes (old new : List Word) (m : LaneMask) : List Word :=
  (List.range 96).map fun i => if m.getLsbD i then new.getD i 0 else old.getD i 0

/-- Lanes written into a row. -/
def Team.writeRow (t : Team) (r : Nat) (vals : List Word) (m : LaneMask) : Team :=
  { t with res := { t.res with rows := t.res.rows.upd r fun row => { row with lanes := mergeLanes row.lanes vals m } } }

/-- One more result in flight to a row (R59). -/
def Team.pendUp (t : Team) (r : Nat) : Team :=
  { t with res := { t.res with rows := t.res.rows.upd r fun row => { row with pend := row.pend + 1 } } }

/-- A result to a row has returned: PEND falls, and a row no name or slot holds is freed (R67). -/
def Team.pendDown (t : Team) (r : Nat) : Team :=
  match t.res.rows.get? r with
  | none => t
  | some row => if row.refcnt = 0 && row.pend ≤ 1 then t.dropRow r else t.setRow r { row with pend := row.pend - 1 }

/-! ## Landing fixed-latency results (R189 to R191) -/

/-- The lanes of `m` of a late result written to its target. -/
def landLanes (s : State) (t g : Nat) (l : Late) (m : LaneMask) : State :=
  match l.target with
  | .row r => updTeam s t fun team => team.writeRow r l.vals m
  | .scalar d => writeS s t g l.path d (l.vals.getD 0 0)
  | .pred p => updGroup s t g fun grp => { grp with p := grp.p.put p ((grp.pred p &&& ~~~m) ||| (l.bits &&& m)) }

/-- Exception flags set (R152: sticky). -/
def orFlags (s : State) (t g : Nat) (f : Word) : State :=
  if f = 0 then s else updGroup s t g fun grp => { grp with fflags := grp.fflags ||| f }

/-- A late result written whole and gone; its flags are set with it (R267). -/
def landNow (s : State) (t g : Nat) (l : Late) : State :=
  let s := orFlags (landLanes s t g l l.lanes) t g l.flags
  match l.target with
  | .row r => updTeam s t fun team => team.pendDown r
  | _ => s

/-- Every late result of a group written, in the order of issue. -/
def landAll (s : State) (t g : Nat) : State :=
  match (s.teams.get? t).bind fun team => team.groups.get? g with
  | none => s
  | some grp => updGroup (grp.late.foldl (fun s l => landNow s t g l) s) t g fun grp => { grp with late := [] }

/-- The late results of a group that go to a row written, in the order of issue. -/
def landRow (s : State) (t g r : Nat) : State :=
  match (s.teams.get? t).bind fun team => team.groups.get? g with
  | none => s
  | some grp =>
    let mine (l : Late) : Bool := match l.target with | .row x => x == r | _ => false
    updGroup ((grp.late.filter mine).foldl (fun s l => landNow s t g l) s) t g fun grp => { grp with late := grp.late.filter fun l => !mine l }

/-- Before a word of path p issues: its results come one word nearer; those that are due land; any lane of the others
may show its new value early (R191). A result lands whole when it is due, over any later write (R191): of a pair whose
names map one row, bits 63:32 last (R56). -/
def settleLate (s : State) (t g p : Nat) : State :=
  match (s.teams.get? t).bind fun team => team.groups.get? g with
  | none => s
  | some grp =>
    let s := updGroup s t g fun grp => { grp with late := [] }
    grp.late.foldl (fun s l =>
      let left := if l.path = p then l.left - 1 else l.left
      if left = 0 then landNow s t g l
      else
        let (k, s) := s.draw
        let s := if Config.freeBit k then orFlags s t g l.flags else s
        match l.target with
        | .row _ =>
          let s := landLanes s t g l (l.lanes &&& Config.freeMask k)
          updGroup s t g fun grp => { grp with late := grp.late ++ [{ l with left }] }
        | _ =>
          let s := if Config.freeBit k then landLanes s t g l l.lanes else s
          updGroup s t g fun grp => { grp with late := grp.late ++ [{ l with left }] }) s

/-- Whether a Flume result of the group is outstanding (R179, R189): that of a `vmma` or a `facc.rd`. -/
def flumeResult (s : State) (t g : Nat) : Bool :=
  ((s.teams.get? t).map fun team =>
    team.fl.ops.any fun o => o.src == some g && (o.kind == .accRd || o.kind == .vmma)).getD false

/-- Whether an access has every lane performed. -/
def Access.complete (a : Access) : Bool := a.lanes.all fun l => l.st == .done

/-- Whether a team is saved: its late replies are kept until its restore (R293, R380). -/
def Team.isSaved (team : Team) : Bool := match team.stat with | .saved _ _ => true | _ => false

/-- Whether an access of a group has a register result that has not returned. -/
def Access.awaited (a : Access) (t g : Nat) : Bool := a.team == t && a.group == g && !a.cancelled && a.dest != .none

/-- Whether an access is known to have missed L1, or is performed at its home (R44). -/
def Access.slow (a : Access) : Bool := a.far || a.atHome || 5 ≤ a.level % 16

/-- Whether a variable-latency register result of the group is outstanding (R188): of a load, an atomic, `vmma` or
`facc.rd`. DESIGN CHOICE (log entry 83): what a word that is still held (a `qwait`, a `qpop.try`, a `wait`, or an atomic behind its own
release) will write is no outstanding result. -/
def outstanding (s : State) (t g : Nat) : Bool := (s.accs.any fun e => e.2.awaited t g) || flumeResult s t g

/-- Whether one of them makes a park long (R44): a load or atomic that has missed L1, a far atomic, a Flume result. -/
def awaitsLong (s : State) (t g : Nat) : Bool := (s.accs.any fun e => e.2.awaited t g && e.2.slow) || flumeResult s t g

/-! ## Stopping traps (R52, R53, R238, R239, R379) -/

/-- Whether no group or sequencer of the team has recorded a cause yet. -/
def Team.noCause (t : Team) : Bool :=
  !(t.groups.any fun e => (e.2.stop.map (·.cause)).getD false) &&
  !((t.flume.stop.map (·.cause)).getD false) && !((t.sluice.stop.map (·.cause)).getD false)

/-- Where a team stands once a trap has reached it: a trap and a pre-emption together leave it halted, not saved (R239). A team
that was halted when its save began, because its core is given up, is saved all the same (R361, R381). -/
def TeamStat.trapped (x : TeamStat) (halted : Bool) : TeamStat :=
  match x with
  | .saving => if halted then .saving else .resident
  | y => y

/-- What the record of a group in emulation mode shows besides: the shadow's `s0` to `s5`, mask and PDEPTH, and the
reserved word's address (R202). -/
def Shadow.words (x : Shadow) : List Word :=
  x.s ++ [maskWord x.mask 61, maskWord x.mask 62, maskWord x.mask 63, BitVec.ofNat 32 x.pdepth, lowWord x.addr, highWord x.addr]

/-- The one way a group takes a stopping trap: it records the code, the detail and the address, with the word's address and its
path; the first recorded trap of the team is its cause; the team is halted, and siblings stop at their next clause boundaries. A
path that stands at the word waits there no longer. In emulation mode ILLEGAL_INSTRUCTION and RESERVED_MAJOR become EMU_DOUBLE
(R202), which is reported in the stop record like every other code: the manual names no other way (DESIGN CHOICE, log entry 84). -/
def stopGroupAt (s : State) (t g p : Nat) (pc : Dword) (mask : LaneMask) (code detail : Nat) (addr : Dword) : State :=
  updTeam s t fun team =>
    let emu := ((team.groups.get? g).map fun grp => grp.emu.isSome).getD false
    let code' := if emu && (code == 0x01 || code == 0x03) then 0x11 else code
    let detail' := if code' == 0x11 then 0 else detail
    let first := team.noCause
    { team with
      halted := true
      stat := team.stat.trapped team.halted
      groups := team.groups.upd g fun grp =>
        if grp.stop.isSome then grp
        else { grp with
          stop := some { code := code', detail := detail', addr, cause := first, pc, path := p, mask,
                         more := (grp.emu.map Shadow.words).getD [] }
          paths := grp.paths.upd p fun x => if x.pc = pc then { x with hold := none } else x } }

/-- The mask of a path. -/
def maskNow (s : State) (t g p : Nat) : LaneMask :=
  ((((s.teams.get? t).bind fun team => team.groups.get? g).bind fun grp => grp.paths.get? p).map (·.mask)).getD 0

/-- A trap at the word at which a path stands. -/
def stopGroup (s : State) (t g p : Nat) (pc : Dword) (code detail : Nat) (addr : Dword) : State :=
  stopGroupAt s t g p pc (maskNow s t g p) code detail addr

/-- The same for a sequencer's trap (R163), with what its record carries beyond that (R170). -/
def stopSeqWith (s : State) (t : Nat) (flume : Bool) (pc : Dword) (code detail : Nat) (addr : Dword) (more : List Word) : State :=
  updTeam s t fun team =>
    let first := team.noCause
    let q := team.seqOf flume
    let team := { team with halted := true, stat := team.stat.trapped team.halted }
    if q.stop.isSome then team
    else team.setSeq flume { q with
      stop := some { code, detail, addr, cause := first, pc, path := 0xFF, mask := 0, more }
      hold := if q.pc = pc then none else q.hold }

/-- A sequencer's trap. -/
def stopSeq (s : State) (t : Nat) (flume : Bool) (pc : Dword) (code detail : Nat) (addr : Dword) : State :=
  stopSeqWith s t flume pc code detail addr []

/-- A trap at the word at which a group or a sequencer stands. -/
def stopIssuer (s : State) (t : Nat) (issuer : Option Nat) (flume : Bool) (p : Nat) (pc : Dword) (code detail : Nat)
    (addr : Dword) : State :=
  match issuer with
  | some g => stopGroup s t g p pc code detail addr
  | none => stopSeq s t flume pc code detail addr

/-- A trap raised on a team by one of its copies or engine operations: the record names the issuing group or sequencer, the word's
address and the mask at its issue (R300, R303, R411). -/
def stopLate (s : State) (t : Nat) (issuer : Option Nat) (flume : Bool) (p : Nat) (pc : Dword) (mask : LaneMask) (code detail : Nat)
    (addr : Dword) : State :=
  match issuer with
  | some g => stopGroupAt s t g p pc mask code detail addr
  | none => stopSeq s t flume pc code detail addr

/-- A halted team released (R239, R380): the records are cleared and the paths go on from their PCs. -/
def releaseTeam (s : State) (t : Nat) : State :=
  updTeam s t fun team =>
    { team with
      halted := false
      groups := team.groups.mapVals fun _ grp =>
        { grp with stop := none, paths := grp.paths.mapVals fun _ p => { p with skid := 0 } }
      flume := { team.flume with stop := none, skid := 0 }
      sluice := { team.sluice with stop := none, skid := 0 } }

/-! ## How a word ends -/

/-- What an instruction does to its agent. -/
inductive Res where
  /-- The word has taken effect; the path goes on with the next word. -/
  | done (s : State)
  /-- The word transfers control. -/
  | goto (s : State) (target : Dword)
  /-- A stopping trap before any effect of the word (R239): code, detail, data address. -/
  | trap (code detail : Nat) (addr : Dword)
  /-- A stopping trap whose record keeps effects of the word already made. -/
  | trapWith (s : State) (code detail : Nat) (addr : Dword)
  /-- The path stands at the word. -/
  | hold (s : State) (h : Hold)
  /-- The path stands at the word and the word is tried again; a first try is noted with its tick. -/
  | again (s : State)
  /-- The same, with the operands that the word read at its first try. -/
  | keep (s : State) (args : List Nat)
  /-- The state is already complete: the instruction has moved the path itself. -/
  | placed (s : State)

/-- Retired words of a path, saturating (R343). -/
def bump (n : Nat) : Nat := if n < 0xFFFFFFFF then n + 1 else n

/-- The path after a word has retired: the next word, or the end of its clause (R186). -/
def Path.advance (p : Path) : Path :=
  match p.clause with
  | none => { p with pc := p.pc + 4, hold := none, retired := bump p.retired }
  | some c =>
    let pc := if c.pfx.isSome then p.pc + 8 else p.pc + 4
    let rest := c.words.drop 1
    { p with
      pc
      hold := none
      retired := bump p.retired
      clause := if rest.isEmpty then none else some { c with index := c.index + 1, words := rest, pfx := none } }

/-- The path after a taken transfer: its clause is over (R186). -/
def Path.jump (p : Path) (target : Dword) : Path :=
  { p with pc := target, hold := none, retired := bump p.retired, clause := none }

/-- One more clause of the team whose last executed word has retired (R375). -/
def countClause (s : State) (t : Nat) : State := updTeam s t fun team => { team with clauses := team.clauses + 1 }

/-- The switch marker (R44, R188): fixed-latency results land, and the group parks while others are outstanding. A path that
waits at a rejoin keeps its STATE. -/
def switchPark (s : State) (t g p : Nat) : State :=
  let s := landAll s t g
  if outstanding s t g then
    let long := awaitsLong s t g
    updGroup s t g fun grp => { grp with
      park := true
      longPark := long
      paths := grp.paths.upd p fun path => if path.st = 0 then { path with st := 3 } else path }
  else s

/-- The path stands at its word; it leaves a hold's state as R37 gives it. -/
def standAt (s : State) (e : Env) (h : Hold) : State := updPath s e.t e.g e.p fun path => { path with hold := some h }

/-- The hold of a word that has not issued: the first try's tick is kept. -/
def retryHold (s : State) (h : Option Hold) : Hold :=
  match h with
  | some (.retry t) => .retry t
  | _ => .retry s.refclk

/-- The operands that a held word read at issue. -/
def heldArgs (h : Option Hold) : Option (List Nat) :=
  match h with
  | some (.waits (a :: rest)) => some (a :: rest)
  | _ => none

/-- Whether a hold is one whose word is tried again. -/
def Hold.retried : Hold → Bool
  | .retry _ => true
  | .waits _ => true
  | .rows _ _ _ => true
  | .claim _ => true
  | .fence _ => true
  | .wait _ => false
  | .bar _ => false
  | .eqp _ _ => false
  | .queue _ => false
  | .regroup _ _ _ _ => false
  | .stopped _ => false

/-- Whether the word of a hold has issued: its path waits for what the word has begun (R50). -/
def Hold.begun : Hold → Bool
  | .retry _ => false
  | .rows _ _ _ => false
  | .stopped _ => false
  | _ => true

/-- Whether a path waits at a word that has issued. -/
def Path.begun (p : Path) : Bool := p.hold.any Hold.begun

/-- Whether the switch marker of a word that ends a hold is still to act: it has acted at the word's issue (R188), but for a store or
an atomic whose release has held it, which only now begins its own access. -/
def Hold.unmarked : Hold → Bool
  | .waits _ => false
  | .claim _ => false
  | _ => true

/-- The switch marker of a word that goes on, where it has not acted yet. -/
def markSwitch (w : Bool) (e : Env) (s : State) : State :=
  if w && e.path.hold.all Hold.unmarked then switchPark s e.t e.g e.p else s

/-- The switch marker of a word that issues and stands: it acts at once, and not when the word that stands is looked at again. -/
def markStands (w : Bool) (e : Env) (s : State) : State := if w && !e.path.begun then switchPark s e.t e.g e.p else s

/-- A word of a group has retired. -/
def retire (w : Bool) (e : Env) (s : State) : State :=
  let ends := (e.path.clause.map fun c => (c.words.drop 1).isEmpty).getD true
  let s := updPath s e.t e.g e.p Path.advance
  markSwitch w e (if ends then countClause s e.t else s)

/-- A word of a group has transferred control. -/
def take (w : Bool) (e : Env) (s : State) (target : Dword) : State :=
  markSwitch w e (countClause (updPath s e.t e.g e.p fun path => path.jump target) e.t)

/-- A group's word run to its end. A word that issues and stands parks its group at once where it is marked (R188). -/
def finish (w : Bool) (e : Env) (s : State) : Res → Out
  | .done s' => .next (retire w e s')
  | .goto s' tgt => .next (take w e s' tgt)
  | .trap code detail addr => .next (stopGroup s e.t e.g e.p e.path.pc code detail addr)
  | .trapWith s' code detail addr => .next (stopGroup s' e.t e.g e.p e.path.pc code detail addr)
  | .hold s' h => .next (markStands (w && h.begun) e (standAt s' e h))
  | .again s' => .next (standAt s' e (retryHold s' e.path.hold))
  | .keep s' args => .next (markStands w e (standAt s' e (.waits args)))
  | .placed s' => .next s'

/-- The sequencer after a word has retired. -/
def Seq.advance (q : Seq) : Seq :=
  match q.clause with
  | none => { q with pc := q.pc + 4, hold := none }
  | some c =>
    let rest := c.words.drop 1
    { q with
      pc := q.pc + 4
      hold := none
      clause := if rest.isEmpty then none else some { c with index := c.index + 1, words := rest } }

/-- A sequencer's word run to its end; sequencers ignore the switch marker (R188). -/
def finishSeq (e : SeqEnv) (s : State) : Res → Out
  | .done s' => .next (updSeq s' e.t e.flume Seq.advance)
  | .goto s' tgt => .next (updSeq s' e.t e.flume fun q => { q with pc := tgt, hold := none, clause := none })
  | .trap code detail addr => .next (stopSeq s e.t e.flume e.seq.pc code detail addr)
  | .trapWith s' code detail addr => .next (stopSeq s' e.t e.flume e.seq.pc code detail addr)
  | .hold s' h => .next (updSeq s' e.t e.flume fun q => { q with hold := some h })
  | .again s' => .next (updSeq s' e.t e.flume fun q => { q with hold := some (retryHold s' e.seq.hold) })
  | .keep s' args => .next (updSeq s' e.t e.flume fun q => { q with hold := some (.waits args) })
  | .placed s' => .next s'

/-- The class of the clause a path is in. -/
def Path.cls (p : Path) : Nat := (p.clause.map fun c => classOf c.header).getD 8

/-- The class of the clause a sequencer is in. -/
def Seq.cls (q : Seq) : Nat := (q.clause.map fun c => classOf c.header).getD 8

/-- A word that groups and sequencers may issue: the place is checked first (R199 step 4), then the meaning runs. -/
def runX (place : Place) (w : Bool) (s : State) (f : Env → Res) (q : SeqEnv → Res) : Out :=
  match issuer s with
  | .nobody => .fault .noAgent
  | .group e =>
    if e.path.clause.isNone then .fault .noAgent
    else if place.group e.path.cls then finish w e s (f e) else finish w e s (.trap 0x01 2 0)
  | .seq e =>
    if e.seq.clause.isNone then .fault .noAgent
    else if place.seq e.flume e.seq.cls then finishSeq e s (q e) else finishSeq e s (.trap 0x01 2 0)

/-- A word that only groups may issue. -/
def runG (place : Place) (w : Bool) (s : State) (f : Env → Res) : Out :=
  runX place w s f fun _ => .trap 0x01 2 0

/-! ## Traps by name (R238) -/

/-- ILLEGAL_INSTRUCTION with a detail. -/
def illegal (detail : Nat) : Res := .trap 0x01 detail 0
def illegalClause : Res := .trap 0x02 0 0
def unmappedName : Res := .trap 0x04 0 0
def misaligned (detail : Nat) (addr : Dword) : Res := .trap 0x09 detail addr
def accessViolation (detail : Nat) (addr : Dword) : Res := .trap 0x0A detail addr

/-! ## The emulation handler (R200 to R203) -/

/-- A path enters the emulation handler: the shadow keeps `s0` to `s5`, the mask and PDEPTH; the entry registers are
written; the path goes on at HANDLER and its siblings wait. -/
def enterEmulation (s : State) (e : Env) (c : Clause) (word : Word) (vec : Dword) : State :=
  let addr := e.path.wordAddr
  let shadow : Shadow :=
    { s := (List.range 6).map fun i => e.grp.s.getD i 0, mask := e.path.mask, pdepth := e.path.pstack.length, addr,
      index := c.index + 1, path := e.p }
  let count := bits c.header.toNat 31 28
  let s4 := (c.index + 1) + 16 * count + (if c.pfx.isSome then 256 else 0)
  let regs : List Word := [lowWord addr, highWord addr, word, c.pfx.getD 0, BitVec.ofNat 32 s4, c.header]
  let handler : Dword := BitVec.ofNat 64 (4 * bits vec.toNat 59 2)
  updGroup s e.t e.g fun grp =>
    { grp with
      emu := some shadow
      s := (List.range 6).foldl (fun tbl i => tbl.put i (regs.getD i 0)) grp.s
      paths := grp.paths.upd e.p fun p => { p with pc := handler, clause := none, hold := none } }

/-- The shadow restored, but for the registers that KEEP names, and emulation mode cleared (R203). -/
def leaveEmulation (s : State) (e : Env) (sh : Shadow) (keep : Nat) : State :=
  updGroup s e.t e.g fun grp =>
    { grp with
      emu := none
      s := (List.range 6).foldl (fun tbl i => if bit keep i then tbl else tbl.put i (sh.s.getD i 0)) grp.s
      paths := grp.paths.upd e.p fun p => { p with mask := sh.mask } }

end Sys2Proof.Machine
end

