-- ==== Sys2Proof/Machine/Caches.lean ====
section
/-! DEFINITION. Address spaces, caches and the memory behind the homes: the range decode (R73 to R78), L1 and its scope
records (R83), L2, the memory-side cache, sealed and poisoned sectors (R394, R395, R421). -/

namespace Sys2Proof.Machine

/-! ## Address spaces (R73, R74, R77) -/

def scratchBase : Nat := 0x0FE0000000000000
def vaultBase : Nat := 0x0FF0000000000000
def synonymBase : Nat := 0x0F00000000000000

/-- What a 60-bit address names. -/
inductive Region where
  | global
  | synonym
  | scratch (off : Nat)
  | vault (off : Nat)
  deriving DecidableEq, Repr

/-- The range decode of R73. -/
def regionOf (va : Nat) : Region :=
  if va < synonymBase then .global
  else if va < scratchBase then .synonym
  else if va < vaultBase then .scratch (va - scratchBase)
  else .vault (va - vaultBase)

/-- Grant i of a context's table (R78): 0 none, 1 read, 3 read and write; 2 acts as 0. -/
def grantOf (g : BitVec 256) (i : Nat) : Nat := (g.extractLsb' (2 * i) 2).toNat

/-- Whether a vault-window offset may be accessed (R77, R78). -/
def vaultAllows (s : State) (ctx off : Nat) (write : Bool) : Bool :=
  let d := bits off 33 32
  let v := bits off 31 27
  let g := grantOf (s.ctxLive ctx).grants (32 * d + v)
  off < 2 ^ 34 && bits off 26 0 < 0x3000000 && !(s.die d).carve.getLsbD (v / 4) &&
    (if write then g == 3 else g == 1 || g == 3)

/-- The space rules of the third pass of R283: SPACE code, address, context, scratchpad length, and whether the access
writes. -/
def spaceAllows (s : State) (ctx scrLen space va size : Nat) (write : Bool) : Bool :=
  match regionOf va with
  | .global => space == 0 || space == 1 || space == 4
  | .synonym => space == 0 || space == 1 || space == 4
  | .scratch off => (space == 0 || space == 2) && off + size ≤ scrLen
  | .vault off => (space == 0 || space == 3) && vaultAllows s ctx off write

/-! ## Keys of lines and sectors -/

def sectKey (ctx va : Nat) : Nat := ctx * 2 ^ 54 + va / 64
def lineOfSect (key : Nat) : Nat := key / 2
def ctxOfSect (key : Nat) : Nat := key / 2 ^ 54
def vaOfSect (key : Nat) : Nat := 64 * (key % 2 ^ 54)

/-- A sector with no byte. -/
def Sect.none : Sect := ⟨false, 0, 0, false⟩

/-- The bytes that a sector can answer for: all of a valid one, else what stores have left there (R14). -/
def Sect.held (c : Sect) : BitVec 64 := if c.whole then BitVec.allOnes 64 else c.dirty

/-- Whether every byte that the mask names is there. -/
def Sect.covers (c : Sect) (m : BitVec 64) : Bool := (m &&& ~~~c.held) == 0

/-- A sector brought in whole: bytes that stores have left there stay over what the fill brings (R14). -/
def Sect.fill (c : Sect) (data : BitVec 512) : Sect := { c with whole := true, data := mergeSect data c.data c.dirty }

/-- Bytes written; they become dirty or clean. A write of the whole sector clears poison (R421). -/
def Sect.write (c : Sect) (m : BitVec 64) (data : BitVec 512) (dirty : Bool) : Sect :=
  { whole := c.whole, dirty := if dirty then c.dirty ||| m else c.dirty &&& ~~~m, data := mergeSect c.data data m,
    bad := c.bad && m != BitVec.allOnes 64 }

/-- A sector whose dirty bytes have been sent on. -/
def Sect.cleaned (c : Sect) : Sect := { c with dirty := 0 }

/-- A sector put back into a table of sectors; one that is neither valid nor dirty is not there. -/
def putSect (t : Tbl Sect) (key : Nat) (c : Sect) : Tbl Sect := if c.whole || c.dirty != 0 then t.put key c else t.del key

/-! ## L1 (R80 to R83) -/

def L1.sect (l : L1) (key : Nat) : Sect := l.sects.getD key Sect.none

/-- A line's record, or that of a line not present. -/
def L1.line (l : L1) (line : Nat) : L1Line := l.lines.getD line ⟨7, 3, .normal, 0, 0, 0⟩

/-- Whether a line holds a sector. -/
def hasSect (t : Tbl Sect) (line : Nat) : Bool := t.has (2 * line) || t.has (2 * line + 1)

/-- Whether a line holds a dirty sector. -/
def L1.dirtyLine (l : L1) (line : Nat) : Bool := (l.sect (2 * line)).dirty != 0 || (l.sect (2 * line + 1)).dirty != 0

/-- A line's record after its sectors have changed: SCOPE_W of a clean line is 7 (R83); a line without a sector is gone. -/
def L1.settle (l : L1) (line : Nat) : L1 :=
  if !hasSect l.sects line then { l with lines := l.lines.del line }
  else if l.dirtyLine line then l
  else { l with lines := l.lines.upd line fun r => { r with scopeW := 7 } }

/-- A line written, or gone from the cache: its mark moves on, where a `wait` watches it (R49). -/
def L1.touch (l : L1) (line : Nat) : L1 := { l with marks := l.marks.upd line (· + 1) }

/-- A sector of a line replaced. -/
def L1.setSect (l : L1) (key : Nat) (c : Sect) : L1 := { l with sects := putSect l.sects key c }.settle (lineOfSect key)

/-- The retention that a CACHE code gives (R81). -/
def retentionOf (cache : Nat) : Retention := match cache with | 1 => .streaming | 2 => .keep | _ => .normal

/-- The CACHE code that gives a retention. -/
def Retention.code : Retention → Nat
  | .normal => 0
  | .streaming => 1
  | .keep => 2

/-- The retention of a line after an access that writes or fills it: CACHE 1 and 2 give it theirs (R81); under the others a line
that is there already keeps its own (DESIGN CHOICE, log entry 30). -/
def Retention.next (r : Retention) (cache : Nat) : Retention := if cache = 1 || cache = 2 then retentionOf cache else r

/-- A line's two sectors and its record gone. -/
def L1.drop (l : L1) (line : Nat) : L1 :=
  { l.touch line with sects := (l.sects.del (2 * line)).del (2 * line + 1), lines := l.lines.del line }

/-- One sector gone; the line's record goes with its last sector. -/
def L1.dropSect (l : L1) (key : Nat) : L1 :=
  if l.sects.has key then { l.touch (lineOfSect key) with sects := l.sects.del key }.settle (lineOfSect key) else l

/-- Who brings a line into L1: the access's scope and CACHE code, its team and group, and its field. -/
structure Filler where
  scope : Nat
  cache : Nat
  team : Nat
  group : Nat
  field : Nat
  deriving DecidableEq, Repr

/-- The record of a line that an access brings in, clean: SCOPE_V is the access's scope, capped at die (R83). -/
def Filler.line (f : Filler) : L1Line := ⟨7, min f.scope 3, retentionOf f.cache, f.team, f.group, f.field⟩

/-- A fill at a scope (R83): SCOPE_V becomes the scope, capped at die. -/
def L1.fillSect (l : L1) (key : Nat) (data : BitVec 512) (f : Filler) : L1 :=
  let r := l.line (lineOfSect key)
  { l with
    sects := l.sects.put key ((l.sect key).fill data)
    lines := l.lines.put (lineOfSect key) { f.line with scopeW := r.scopeW, ret := r.ret.next f.cache } }

/-- The narrower of two SCOPE_W values; 7 is a clean line's (R83). -/
def narrower (a b : Nat) : Nat := if a < b then a else b

/-- A store at core scope or narrower (R83): dirty bytes and SCOPE_W. DESIGN CHOICE (log entry 30): a line that the store
brings into L1 without a fill takes the store's scope, capped at die, as its SCOPE_V; R83 gives SCOPE_V only for a fill. -/
def L1.store (l : L1) (key : Nat) (m : BitVec 64) (data : BitVec 512) (f : Filler) : L1 :=
  let line := lineOfSect key
  let r := if l.lines.has line then l.line line else f.line
  { l.touch line with
    sects := l.sects.put key ((l.sect key).write m data true)
    lines := l.lines.put line { r with scopeW := narrower r.scopeW f.scope, ret := r.ret.next f.cache } }

/-- Bytes that pass through L1 on their way out: a copy that is there takes them, clean. -/
def L1.pass (l : L1) (key : Nat) (m : BitVec 64) (data : BitVec 512) : L1 :=
  if l.sects.has key then (l.touch (lineOfSect key)).setSect key ((l.sect key).write m data false) else l

/-- Lines that an L1 holds: 512 KiB of 128 bytes (R13). -/
def l1Lines : Nat := 4096

/-! ## L2 (R80, R82, R396) -/

def L2.sect (l : L2) (key : Nat) : Sect := l.sects.getD key Sect.none

def L2.drop (l : L2) (line : Nat) : L2 :=
  { sects := (l.sects.del (2 * line)).del (2 * line + 1), lines := l.lines.del line }

/-- A sector of a line replaced; the line's record goes with its last sector. -/
def L2.setSect (l : L2) (key : Nat) (c : Sect) : L2 :=
  let sects := putSect l.sects key c
  { sects, lines := if hasSect sects (lineOfSect key) then l.lines else l.lines.del (lineOfSect key) }

def L2.dropSect (l : L2) (key : Nat) : L2 := l.setSect key Sect.none

/-- The set of a line. R13 gives the count of 65,536 sets and no more; DESIGN CHOICE (log entry 30): the set is the line's
address modulo that count. -/
def setOf (line : Nat) : Nat := line % 65536

/-- The lines of a set. -/
def L2.inSet (l : L2) (set : Nat) : List (Nat × L2Line) := l.lines.filter fun e => setOf e.1 == set

/-- The retention that a CACHE code gives a line of an L2: beyond 12 keep lines in its set it is normal (R81). -/
def L2.retention (l : L2) (line cache : Nat) : Retention :=
  let keeps := ((l.inSet (setOf line)).filter fun e => e.1 != line && e.2.ret == .keep).length
  if retentionOf cache == .keep && 12 ≤ keeps then .normal else retentionOf cache

/-- A line written or filled again: CACHE 1 and 2 give it their retention (R81). -/
def L2.again (l : L2) (line cache : Nat) : L2 :=
  if cache = 1 || cache = 2 then { l with lines := l.lines.upd line fun r => { r with ret := l.retention line cache } } else l

/-- The ways in which an access of a field and a context may allocate (R82, R396): the field's; for a protected context
only those that are protected too, for others only those that are not. -/
def allowedWays (s : State) (die field : Nat) (prot : Bool) : List Nat :=
  let ways := ((s.fields.get? field).map fun f => f.ways.getD die 0).getD 0
  let p := (s.die die).protWays
  (List.range 16).filter fun w => ways.getLsbD w && (if prot then 16 - p ≤ w else w < 16 - p)

/-! ## Memory behind the homes (R107, R363) -/

/-- The target of a physical address. -/
inductive Target363 where
  | hbm | cxl | host | none
  deriving DecidableEq, Repr

/-- The ranges of R363. -/
def targetOf (pa : Nat) : Target363 :=
  if pa < 0x8000000000 then .hbm
  else if 0x1000000000000 ≤ pa && pa < 0x1080000000000 then .cxl
  else if 0x8000000000000 ≤ pa && pa < 0x10000000000000 then .host
  else .none

/-- The home die of a physical address (R9, R363), under CXLDEC (R348). -/
def homeOf (s : State) (pa : Nat) : Nat :=
  match targetOf pa with
  | .hbm => bits pa 38 37
  | .cxl =>
    match s.hg.cxldec with
    | 1 => 2
    | 2 => 3
    | _ => if bit pa 42 then 3 else 2
  | .host => if bit pa 47 then 1 else 0
  | .none => 0

/-- Whether a die's memory-side cache takes a sector: its own HBM, and some eighth carved (R80). -/
def mscTakes (s : State) (home sector : Nat) : Bool :=
  targetOf (64 * sector) == .hbm && (s.die home).carve != 0

/-- The memory cell that a physical address names. A CXL port's memory is addressed by bits 42:0 of the address, and one port
alone may carry all 8 TiB (R18): while CXLDEC makes it decode both halves, the other half's pages reach its memory at the
same offset (R363), cells of its own that stand here 2^43 above. -/
def cellOf (s : State) (pa : Nat) : Nat :=
  if targetOf pa != .cxl then pa
  else match s.hg.cxldec with
    | 1 => if bit pa 42 then pa + 2 ^ 43 else pa
    | 2 => if bit pa 42 then pa else pa + 2 ^ 43
    | _ => pa

/-- A sector as its home reads it: from the memory-side cache, or from memory. -/
def homeSector (s : State) (home sector : Nat) : BitVec 512 :=
  match (s.die home).msc.get? sector with
  | some c => c.data
  | none => sectOf (s.store.pa.read (cellOf s (64 * sector)) 64)

/-- Bytes of a sector written at its home: into the memory-side cache where it holds the sector, else into memory. -/
def homeWrite (s : State) (home sector : Nat) (m : BitVec 64) (data : BitVec 512) : State :=
  match (s.die home).msc.get? sector with
  | some c => s.setDie home { s.die home with msc := (s.die home).msc.put sector (c.write m data true) }
  | none =>
    let pa := (List.range 64).foldl (fun mem i =>
      if m.getLsbD i then Memory.put mem (cellOf s (64 * sector) + i) (data.extractLsb' (8 * i) 8) else mem) s.store.pa
    { s with store := { s.store with pa } }

/-- The sectors of a memory-side cache replaced; a line goes with its last sector. -/
def Die.setMsc (d : Die) (t : Tbl Sect) : Die := { d with msc := t, mscLines := d.mscLines.filter fun e => hasSect t e.1 }

/-- A sector of the memory-side cache written back to memory and dropped. -/
def mscFlush (s : State) (home sector : Nat) : State :=
  match (s.die home).msc.get? sector with
  | none => s
  | some c => homeWrite (s.setDie home ((s.die home).setMsc ((s.die home).msc.del sector))) home sector c.dirty c.data

/-- A line of the memory-side cache written back to memory and dropped. -/
def evictMscLine (s : State) (home line : Nat) : State := mscFlush (mscFlush s home (2 * line)) home (2 * line + 1)

/-- The rank of a line for replacement (R81). -/
def Retention.rank : Retention → Nat
  | .streaming => 0
  | .normal => 1
  | .keep => 2

/-- The lines of lowest retention among some lines: those that may be replaced (R81). -/
def lowestKept (ls : List (Nat × Retention)) : List Nat :=
  let low := ls.foldl (fun n e => min n e.2.rank) 2
  (ls.filter fun e => e.2.rank == low).map (·.1)

/-- One of some lines: where there are several the choice is free (log entry 30). -/
def pickLine (s : State) : List Nat → Option Nat × State
  | [] => (none, s)
  | [v] => (some v, s)
  | v :: vs =>
    let (k, s) := s.draw
    (some ((v :: vs).getD (Config.victim k % (vs.length + 1)) v), s)

/-- Lines that a die's memory-side cache holds: 192 MiB for each carved eighth (R12). -/
def mscSize (s : State) (home : Nat) : Nat :=
  1572864 * ((List.range 8).filter fun k => (s.die home).carve.getLsbD k).length

/-- Room for a line in a die's memory-side cache: where that is full a line of the lowest retention leaves it (R81). The manual
gives it no sets; DESIGN CHOICE (log entry 30): its lines are one set. -/
def mscRoom (s : State) (home line : Nat) : State :=
  if (s.die home).mscLines.has line || (s.die home).mscLines.length < mscSize s home then s
  else
    match pickLine s (lowestKept (s.die home).mscLines) with
    | (some v, s) => evictMscLine s home v
    | (none, s) => s

/-- A read of a sector that allocates in the memory-side cache, at the retention of its CACHE code (R80, R81). -/
def mscAllocate (s : State) (home sector cache : Nat) : State :=
  if mscTakes s home sector then
    let line := lineOfSect sector
    let s := mscRoom s home line
    let d := s.die home
    let c : Sect := (d.msc.get? sector).getD ⟨true, 0, sectOf (s.store.pa.read (64 * sector) 64), false⟩
    s.setDie home { d with
      msc := d.msc.put sector c, mscLines := d.mscLines.put line ((d.mscLines.getD line .normal).next cache) }
  else s

/-- Writing bytes at a physical address without a seal breaks the sector's seal (R394). -/
def breakSeal (s : State) (sector : Nat) : State := { s with keys := { s.keys with seals := s.keys.seals.del sector } }

/-- HEALTH changed: a change raises its vector (R423). -/
def setHealth (s : State) (w : Word) : State :=
  if w = s.health.word then s
  else
    let s := { s with health := { s.health with word := w } }
    if s.health.vec.getLsbD 31 then { s with irqs := bits s.health.vec.toNat 10 0 :: s.irqs } else s

def poisonBit (w : Word) (on : Bool) : Word := if on then w ||| 8 else w &&& ~~~8

/-- Whether any poisoned sector exists: behind a home, on its way there, in an L2 or in an L1 (R421). -/
def anyPoison (s : State) : Bool :=
  !s.store.poison.isEmpty || (s.reqs.any fun r => r.2.kind == .write && r.2.bad == 2 && r.2.stage != .replied) ||
    (s.dies.any fun d => d.2.l2.sects.any fun e => e.2.bad) ||
    s.cores.any fun c => c.2.l1.sects.any fun e => e.2.bad

/-- POISONED of the health word is set while any poisoned sector exists (R423). -/
def notePoison (s : State) : State := setHealth s (poisonBit s.health.word (anyPoison s))

/-- A sector's poison behind its home cleared or set. -/
def setPoison (s : State) (sector : Nat) (on : Bool) : State :=
  let rest := s.store.poison.filter (· != sector)
  notePoison { s with store := { s.store with poison := if on then sector :: rest else rest } }

/-- Poison cleared where a condition on its key holds. -/
def clearPoison (s : State) (p : Nat → Bool) : State :=
  notePoison { s with store := { s.store with poison := s.store.poison.filter fun k => !p k } }

def poisoned (s : State) (sector : Nat) : Bool := s.store.poison.contains sector

/-- One more error of an index of R421. -/
def countError (s : State) (i : Nat) : State :=
  { s with health := { s.health with errcnt := s.health.errcnt.put i (s.health.errcnt.getD i 0 + 1) } }

/-- Bits of the health word set (R423). -/
def raiseHealth (s : State) (w : Word) : State := setHealth s (s.health.word ||| w)

/-- The key record of a context whose key is seated. -/
def keyOf (s : State) (ctx : Nat) : Option KeyRec :=
  (s.keys.seated.find? fun e => e.2 == ctx).bind fun e => s.keys.records.get? e.1

/-- The bytes of a sector. -/
def sectBytes (d : BitVec 512) : List Byte := bytesOf 64 d.toNat

/-- A sector encrypted, or decrypted, under a key record: XTS-AES-256, the data unit being the sector (R394). -/
def KeyRec.crypt (k : KeyRec) (enc : Bool) (sector : Nat) (d : BitVec 512) : BitVec 512 :=
  sectOf (Crypto.xts enc (bytesOf 64 k.xts.toNat) sector (sectBytes d))

/-- The MAC of a ciphertext: the first 4 bytes of the CMAC over it, its physical address and the generation (R394). -/
def KeyRec.macOf (k : KeyRec) (sector : Nat) (cipher : BitVec 512) : BitVec 32 :=
  BitVec.ofNat 32 (ofBytes ((Crypto.cmac (bytesOf 32 k.mac.toNat)
    (sectBytes cipher ++ bytesOf 8 (64 * sector) ++ bytesOf 4 k.gen)).take 4))

/-- Whether a sealed sector opens under a context's present key (R394, R395): its MAC verifies. That no other MAC does is the
model's ideal: the note beside the metadata bits names the context and the generation (log entry 6). -/
def sealGood (s : State) (home ctx sector : Nat) : Bool :=
  match s.keys.seals.get? sector, keyOf s ctx with
  | some (c, gen, mac), some k => c == ctx && gen == s.keys.gens.getD ctx 0 && mac == k.macOf sector (homeSector s home sector)
  | _, _ => false

/-- What a read at the home gives: the bytes, and 2 for poison or 3 for a failed MAC. -/
def readAtHome (s : State) (home ctx sector : Nat) (sealed : Bool) : BitVec 512 × Nat :=
  if poisoned s (cellOf s (64 * sector) / 64) then (homeSector s home sector, 2)
  else if sealed then
    match keyOf s ctx with
    | some k => if sealGood s home ctx sector then (k.crypt false sector (homeSector s home sector), 0) else (0, 3)
    | none => (0, 3)
  else (homeSector s home sector, 0)

/-- A whole sector sealed and stored: ciphertext and MAC (R394). -/
def sealWrite (s : State) (home ctx sector : Nat) (k : KeyRec) (plain : BitVec 512) : State :=
  let cipher := k.crypt true sector plain
  let s := homeWrite s home sector (BitVec.allOnes 64) cipher
  { s with keys := { s.keys with seals := s.keys.seals.put sector (ctx, s.keys.gens.getD ctx 0, k.macOf sector cipher) } }

/-- A write at the home (R118, R395, R421): unsealed bytes are merged; a sealed sector is opened, merged and sealed
again, with zero for unwritten bytes where its MAC fails; a write of the whole sector clears poison. Without a seated key nothing
can be sealed, and nothing is written. -/
def writeAtHome (s : State) (home ctx sector : Nat) (sealed : Bool) (m : BitVec 64) (data : BitVec 512) : State :=
  let s := if m = BitVec.allOnes 64 && poisoned s (cellOf s (64 * sector) / 64) then setPoison s (cellOf s (64 * sector) / 64) false else s
  if sealed then
    match keyOf s ctx with
    | none => s
    | some k =>
      let old := if sealGood s home ctx sector then k.crypt false sector (homeSector s home sector) else 0
      sealWrite s home ctx sector k (mergeSect old data m)
  else if m = 0 then s
  else homeWrite (breakSeal s sector) home sector m data

/-! ## Device accesses at physical addresses: the Headgate's and the firmware's, at the home at once -/

/-- A byte as its home reads it (`homeSector`, by the byte). -/
def homeByte (s : State) (pa : Nat) : Byte :=
  match (s.die (homeOf s pa)).msc.get? (pa / 64) with
  | some c => c.data.extractLsb' (8 * (pa % 64)) 8
  | none => s.store.pa.get (cellOf s (64 * (pa / 64)) + pa % 64)

/-- n bytes at a physical address, as the homes hold them. -/
def paRead (s : State) (pa n : Nat) : List Byte := (List.range n).map fun i => homeByte s (pa + i)

/-- Whether the device reaches the memory of a physical address: host memory only while a Culvert link is up (R347). -/
def paReach (s : State) (a : Nat) : Bool :=
  match targetOf a with
  | .host => (s.die 0).portUp || (s.die 1).portUp
  | .cxl => (s.die (homeOf s a)).portUp
  | _ => true

/-- One byte at a physical address, as whoever owns the memory writes it. -/
def paStore (s : State) (a : Nat) (v : Byte) : State :=
  homeWrite (breakSeal s (a / 64)) (homeOf s a) (a / 64) (byteMask (a % 64) 1) (BitVec.ofNat 512 (v.toNat * 2 ^ (8 * (a % 64))))

/-- One byte at a physical address, written by the device; nothing is written where it cannot reach the address. -/
def paPut (s : State) (a : Nat) (v : Byte) : State := if paReach s a then paStore s a v else s

/-- The sectors that n bytes from an address cover whole. -/
def wholeSectors (a n : Nat) : List Nat := ((List.range (n / 64)).map fun i => (a + 63) / 64 + i).filter fun j => 64 * j + 64 ≤ a + n

/-- Sectors that have been written whole are no longer poisoned (R421). -/
def unpoison (s : State) (js : List Nat) : State := if js.any (poisoned s) then clearPoison s js.contains else s

/-- n bytes that the Headgate reads at a physical address; none where the memory cannot be reached, or where a sector of them is
poisoned, which never propagates silently (R347, R421). No rule says what the Headgate does then: DESIGN CHOICE (log entry 37), it
waits. -/
def paTake (s : State) (pa n : Nat) : Option (List Byte) :=
  if paReach s pa && (List.range ((pa + n - 1) / 64 - pa / 64 + 1)).all fun i => !poisoned s (cellOf s (64 * (pa / 64 + i)) / 64) then
    some (paRead s pa n)
  else none

/-- Bytes at a physical address. -/
def paWrite (s : State) (pa : Nat) (bs : List Byte) : State :=
  unpoison ((bs.zip (List.range bs.length)).foldl (fun s e => paPut s (pa + e.2) e.1) s)
    ((wholeSectors pa bs.length).map fun j => cellOf s (64 * j) / 64)

end Sys2Proof.Machine
end

