-- ==== Sys2Proof/Machine/Requests.lean ====
section
/-! DEFINITION. Requests from dies to homes: page walks (R364 to R367), service faults and held write-backs (R372, R430),
stamps and vector clocks (R109 to R111), routes (R382, R390), and service at the home (R110, R112). -/

namespace Sys2Proof.Machine

/-! ## Page walks -/

/-- What a translation gives. -/
inductive Xlate where
  | ok (pa : Nat) (sealed : Bool)
  | miss
  | violation
  /-- The walk stops: a table entry lies in a poisoned sector, detail 2 (R421), or was lost with a link, detail 1 (R390). -/
  | bad (detail : Nat)
  /-- The walk must first read the entry at a physical address, which another die holds. -/
  | ask (pa : Nat)
  deriving DecidableEq, Repr

/-- What an access needs of a leaf (R365). -/
inductive Perm where
  | read | write | fetch
  deriving DecidableEq, Repr

/-- The four levels: number and lowest bit of the index (R364). -/
def levels : List (Nat × Nat) := [(0, 49), (1, 38), (2, 27), (3, 16)]

/-- The key of an entry in the walk caches of a die: controller, context, level and the address bits above the level. -/
def walkKey (ctl ctx level shift va : Nat) : Nat := ctl * 2 ^ 70 + (ctx * 4 + level) * 2 ^ 44 + va / 2 ^ shift

/-- ADDR of an entry, bits 51:14 in place. -/
def entryAddr (e : Nat) : Nat := 2 ^ 14 * bits e 51 14

/-- Whether an entry breaks a rule of R365 at its level. -/
def malformed (level e : Nat) : Bool :=
  bits e 63 52 != 0 || bits e 13 8 != 0 || bit e 6 || bit e 4 ||
  (if bit e 1 then
    level < 2 || targetOf (2 ^ 16 * bits e 51 16) == .none || bits e 15 14 != 0 || (level == 2 && bits e 26 16 != 0)
  else level == 3 || targetOf (entryAddr e) != .hbm)

/-- The bytes of a leaf's page, as a power of two (R365). -/
def leafShift (level : Nat) : Nat := if level = 2 then 27 else 16

/-- The members of a CONTIG group (R366). -/
def groupSize (level : Nat) : Nat := if level = 2 then 64 else 32

/-- A leaf applied to an address through the member of its group with index `idx` (R366): the address may lie in
another member's page. -/
def leafPa (level e idx va : Nat) : Nat :=
  let sh := leafShift level
  let page := va / 2 ^ sh
  (2 ^ 16 * bits e 51 16 + (page * 2 ^ sh + va % 2 ^ sh) - idx * 2 ^ sh)

/-- The last checks on a leaf (R363, R365, R367, R395). Through another member of a CONTIG group an address may come to a range
that R363 marks none. -/
def checkLeaf (prot : Bool) (perm : Perm) (e pa : Nat) : Xlate :=
  let allowed := match perm with | .read => true | .write => bit e 2 | .fetch => bit e 3
  if !allowed || targetOf pa == .none then .violation
  else if bit e 7 && (targetOf pa != .hbm || !prot) then .violation
  else .ok pa (bit e 7)

/-- An entry as a walk step finds it, with the detail of the trap where it cannot be used, else 0: in the walk cache of the
controller, or in the table at its home (R367). A request's walk has read `got` of the tables of other dies, each sector in a message of
its own (R382), and must still ask for any other; none stands for an access that the Headgate or the microcode makes, whose reads are
made at once (DESIGN CHOICE, log entry 68). -/
def walkEntry (s : State) (die : Nat) (got : Option (Tbl TabRead)) (key addr : Nat) : Option (Nat × Nat) :=
  match (s.die die).walks.get? key with
  | some e => some (e.toNat, 0)
  | none =>
    let here := some (ofBytes (paRead s addr 8), if poisoned s (cellOf s addr / 64) then 2 else 0)
    match got with
    | none => here
    | some g =>
      if homeOf s addr = die then here
      else (g.get? (addr / 64)).map fun x => match x with
        | .data d => (sectLoad d (addr % 64) 8, 0)
        | .fails _ detail => (0, detail)
        | .miss => (0, 0)

/-- Whether an entry is a member of a CONTIG group. -/
def contigMember (e : Nat) : Bool := bit e 0 && bit e 1 && bit e 5

/-- The other members of the CONTIG group of a page, with their page numbers (R366); without their entries, those that a walk would
have to ask for. -/
def contigOthers (s : State) (die ctl ctx : Nat) (got : Option (Tbl TabRead)) (level shift va table : Nat) :
    List (Nat × Option (Nat × Nat)) :=
  let page := va / 2 ^ shift
  let base := page / groupSize level * groupSize level
  (List.range (groupSize level)).filterMap fun i =>
    match walkEntry s die got (walkKey ctl ctx level 0 (base + i)) (table + 8 * ((base + i) % 2048)) with
    | none => if base + i = page then none else some (base + i, none)
    | some (e, bad) => if base + i != page && contigMember e && bad = 0 then some (base + i, some (e, bad)) else none

/-- Whether a controller has cached a member of the CONTIG group of a page. -/
def contigCached (s : State) (die ctl ctx level shift va : Nat) : Bool :=
  let base := va / 2 ^ shift / groupSize level * groupSize level
  (List.range (groupSize level)).any fun i =>
    (((s.die die).walks.get? (walkKey ctl ctx level 0 (base + i))).map fun e => contigMember e.toNat).getD false

/-- An entry with V = 1 that a walk has read enters the controller's walk cache (R367). -/
def cacheEntry (s : State) (die key e : Nat) : State :=
  if bit e 0 && !(s.die die).walks.has key then
    s.setDie die { s.die die with walks := (s.die die).walks.put key (BitVec.ofNat 64 e) }
  else s

/-- A walk over the remaining levels from a table (R367), at controller `ctl` of a die: each step uses the controller's walk
cache or reads its entry at the table's home. A page of a CONTIG group may be translated through any member of the group
(R366): which one is free. -/
def walkFrom (s : State) (die ctl ctx : Nat) (got : Option (Tbl TabRead)) (prot : Bool) (perm : Perm) (va : Nat) :
    List (Nat × Nat) → Nat → Xlate × State
  | [], _ => (.violation, s)
  | (level, shift) :: rest, table =>
    let page := va / 2 ^ shift
    let own := walkEntry s die got (walkKey ctl ctx level shift va) (table + 8 * (page % 2048))
    let others := if 2 ≤ level && (own.any (fun x => contigMember x.1) || contigCached s die ctl ctx level shift va) then
        contigOthers s die ctl ctx got level shift va table else []
    let used : Nat × Option (Nat × Nat) × State := match others with
      | [] => (page, own, s)
      | _ => let (k, s) := s.draw
        let m := ((page, own) :: others).getD (Config.freeNat k % (others.length + 1)) (page, own)
        (m.1, m.2, s)
    match used.2.1 with
    | none => (.ask (table + 8 * (used.1 % 2048)), used.2.2)
    | some (e, bad) =>
      let s := cacheEntry used.2.2 die (walkKey ctl ctx level 0 used.1) e
      if bad ≠ 0 then (.bad bad, used.2.2)
      else if !bit e 0 then (.miss, s)
      else if malformed level e then (.violation, s)
      else if bit e 1 then (checkLeaf prot perm e (leafPa level e used.1 va), s)
      else walkFrom s die ctl ctx got prot perm va rest (entryAddr e)

/-- The translation of an address of a context at a die's memory controllers (R80, R364), by the controller at which the
die's walks now take place, where `got` has been read of the tables of other dies. -/
def translateGot (s : State) (die ctx : Nat) (got : Option (Tbl TabRead)) (va : Nat) (perm : Perm) : Xlate × State :=
  walkFrom s die ((s.die die).ctl % 2) ctx got (s.ctx ctx).prot perm va levels (s.ctx ctx).ptroot.toNat

/-- The same in one step, for the Headgate and the microcode. -/
def translate (s : State) (die ctx va : Nat) (perm : Perm) : Xlate × State := translateGot s die ctx none va perm

/-! ## Reads of a context's memory by the Headgate and the microcode, at system scope -/

/-- What reading bytes of a context's memory gives: the bytes, a translation miss at an address, a trap's code and detail (R284, R367),
or an address whose sector must be asked for first, since another die holds it or a table on the way to it. -/
inductive VaRead where
  | bytes (b : List Byte)
  | miss (va : Nat)
  | fails (code detail : Nat)
  | ask (va : Nat)
  deriving DecidableEq, Repr

/-- A byte before the bytes that follow it. -/
def VaRead.cons (b : Byte) : VaRead → VaRead
  | .bytes l => .bytes (b :: l)
  | r => r

/-- One byte of a context's memory, before the bytes that follow it. -/
def vaByte (s : State) (die ctx : Nat) (got : Option (Tbl TabRead)) (va : Nat) (rest : VaRead) : VaRead :=
  match got.bind fun g => g.get? (va / 64) with
  | some (.data d) => rest.cons (d.extractLsb' (8 * (va % 64)) 8)
  | some (.fails code detail) => .fails code detail
  | some .miss => .miss va
  | none =>
    match (translateGot s die ctx (got.map fun _ => []) va .read).1 with
    | .ok pa sealed =>
      let (data, bad) := readAtHome s (homeOf s pa) ctx (pa / 64) sealed
      if got.isSome && homeOf s pa ≠ die then .ask va
      else if !paReach s pa then .miss va
      else if bad = 0 then rest.cons (data.extractLsb' (8 * (pa % 64)) 8)
      else .fails 0x0B bad
    | .miss => .miss va
    | .violation => .fails 0x0A 0
    | .bad detail => .fails 0x0B detail
    | .ask _ => .ask va

/-- n bytes of a context's memory; the first byte that cannot be read decides. -/
def vaLook (s : State) (die ctx : Nat) (got : Option (Tbl TabRead)) (va n : Nat) : VaRead :=
  (List.range n).foldr (fun i acc => vaByte s die ctx got (va + i) acc) (.bytes [])

/-- n bytes of a context's memory; none where they cannot be read. -/
def vaRead (s : State) (die ctx va n : Nat) : Option (List Byte) :=
  match vaLook s die ctx none va n with
  | .bytes b => some b
  | _ => none

/-- One byte stored in a context's memory. -/
def vaPut (s : State) (die ctx va : Nat) (v : Byte) : State :=
  match (translate s die ctx va .write).1 with
  | .ok pa sealed =>
    if !paReach s pa then s
    else writeAtHome s (homeOf s pa) ctx (pa / 64) sealed (byteMask (pa % 64) 1) (BitVec.ofNat 512 (v.toNat * 2 ^ (8 * (pa % 64))))
  | _ => s

/-- Bytes stored in a context's memory with system scope. -/
def vaWrite (s : State) (die ctx va : Nat) (bs : List Byte) : State :=
  unpoison ((bs.zip (List.range bs.length)).foldl (fun s e => vaPut s die ctx (va + e.2) e.1) s)
    ((wholeSectors va bs.length).filterMap fun j => match (translate s die ctx (64 * j) .write).1 with
      | .ok pa _ => some (cellOf s pa / 64)
      | _ => none)

/-- The same for a queue's addresses: physical where CTX is 0xFFFF (R348). Each die has an instance of the Headgate (R9), and the
manual does not say at which die's controllers its accesses through a context's tables are translated: DESIGN CHOICE
(log entry 29), die 0's. -/
def qRead (s : State) (ctx a n : Nat) : Option (List Byte) :=
  if ctx = 0xFFFF then paTake s a n else vaRead s 0 ctx a n

def qWrite (s : State) (ctx a : Nat) (bs : List Byte) : State :=
  if ctx = 0xFFFF then paWrite s a bs else vaWrite s 0 ctx a bs

/-! ## The synonym table (R84, R85) -/

/-- An entry of a synonym table that covers an address and keeps R84. -/
def synEntry (va : Nat) (bs : List Byte) : Option RemapEntry :=
  let nl := ofBytes (bs.take 8)
  let base := nl / 65536 * 65536
  let leader := ofBytes ((bs.drop 8).take 8)
  let len := 65536 * ofBytes ((bs.drop 16).take 4)
  if bit nl 0 && bits nl 15 1 = 0 && base ≤ va && va < base + len && synonymBase ≤ base && base + len ≤ scratchBase &&
      leader % 65536 = 0 && leader + len ≤ synonymBase then some ⟨0, base, len, leader⟩
  else none

/-- What a walk of a synonym table gives: an entry, a trap (no entry, or a table that may not be read), a miss of the
table's own translation at an address, or an address of the table that it must first ask another die for. -/
inductive SynWalk where
  | entry (e : RemapEntry)
  | fails (code detail : Nat)
  | miss (va : Nat)
  | ask (va : Nat)
  deriving DecidableEq, Repr

/-- The walk over the entries from index k. -/
def synFrom (s : State) (die ctx : Nat) (got : Option (Tbl TabRead)) (tab va : Nat) : Nat → Nat → SynWalk
  | 0, _ => .fails 0x0A 0
  | n + 1, k =>
    match vaLook s die ctx got (tab + 16 + 32 * k) 32 with
    | .miss a => .miss a
    | .fails code detail => .fails code detail
    | .ask a => .ask a
    | .bytes bs =>
      match synEntry va bs with
      | some e => .entry { e with ctx }
      | none => synFrom s die ctx got tab va n (k + 1)

/-- A walk of a context's synonym table for an address (R85, R367, R371), where `got` has been read of it in messages of other dies;
none where it is read in one step. -/
def synWalkGot (s : State) (die ctx : Nat) (got : Option (Tbl TabRead)) (va : Nat) : SynWalk :=
  let tab := (s.ctx ctx).syntab.toNat
  match vaLook s die ctx got tab 4 with
  | .miss a => .miss a
  | .fails code detail => .fails code detail
  | .ask a => .ask a
  | .bytes bs => synFrom s die ctx got tab va (min 65536 (ofBytes bs)) 0

/-- The same in one step. -/
def synWalk (s : State) (die ctx va : Nat) : SynWalk := synWalkGot s die ctx none va

/-! ## Fault records (R343, R372, R430) -/

/-- An interrupt vector raised. -/
def raiseIrq (s : State) (v : Nat) : State := { s with irqs := v :: s.irqs }

/-- The address of equivalence point n in the image other than `image`, from the launch's directory (R335, R343). -/
def twinPc (s : State) (ctx eqdir image n : Nat) : Nat :=
  if eqdir = 0 then 0
  else
    match vaRead s 0 ctx eqdir 2 with
    | none => 0
    | some cnt =>
      if ofBytes cnt ≤ n then 0
      else ofBytes ((vaRead s 0 ctx (eqdir + 16 + 32 * n + (if image = 0 then 0 else 8)) 8).getD [])

/-- The launch packet's EQDIR (R353). -/
def eqdirOf (s : State) (key : Nat) : Nat :=
  match s.launches.get? key with
  | some l => ofBytes ((l.pkt.drop 40).take 8)
  | none => 0

/-- Where a path of a group stands now. -/
def standOf (team : Team) (grp : Group) (path : Path) : Stand := ⟨team.id.image, grp.eqn, path.retired⟩

/-- The image part of a record (R343), 32 bytes, little-endian. -/
def imagePart (s : State) (team : Team) (x : Stand) (pc : Dword) : List Byte :=
  let twin := if x.eqn = 0xFFFF then 0
    else twinPc s team.id.ctx (eqdirOf s (launchKey team.id.ctx team.id.grid)) x.image x.eqn
  bytesOf 8 0 ++ bytesOf 8 (x.image + x.eqn * 2 ^ 16 + x.retired * 2 ^ 32) ++ bytesOf 8 twin ++ bytesOf 8 pc.toNat

/-- The 128 bytes of a fault record (R372). -/
def faultBytes (f : FaultRec) (token : Nat) : List Byte :=
  bytesOf 2 f.ctx ++ bytesOf 1 f.src ++ bytesOf 1 f.acc ++ bytesOf 4 f.grid ++ bytesOf 4 f.teamNo ++ bytesOf 1 f.group ++
    bytesOf 1 f.path ++ bytesOf 2 token ++ bytesOf 8 f.va ++ bytesOf 8 0 ++ f.image ++ List.replicate 64 0

/-- The tokens now live. -/
def liveTokens (s : State) : List Nat := s.faults.filterMap fun e => e.2.token

/-- The lowest token not live. -/
def newToken (s : State) : Nat := ((List.range 65536).find? fun k => !(liveTokens s).contains k).getD 0

/-- Whether the fault ring has room (R372), as far as the device can reach its read index (R347). -/
def ringRoom (s : State) : Option FaultRing :=
  match s.ring with
  | none => none
  | some r => if (paTake s r.ridx 8).any fun b => decide (s.faultCount - ofBytes b < 2 ^ r.log2n) then some r else none

/-- A fault's record written into the ring, if there is room: the record, then the write index, then the vector. -/
def writeFault (s : State) (id : Nat) : State :=
  match ringRoom s, s.faults.get? id with
  | some r, some f =>
    if f.token.isSome then s
    else
      let token := newToken s
      let s := paWrite s (r.ring + 128 * (s.faultCount % 2 ^ r.log2n)) (faultBytes f token)
      let s := { s with faultCount := s.faultCount + 1, faults := s.faults.put id { f with token := some token } }
      raiseIrq (paWrite s r.widx (bytesOf 8 s.faultCount)) r.vector
  | _, _ => s

/-- Faults held for want of a ring or of room, oldest first. -/
def heldFaults (s : State) : List Nat := (s.faults.filter fun e => e.2.token.isNone).map (·.1)

/-- Held records written while there is room, in the order in which the misses arose. -/
def drainFaults (s : State) : State := (heldFaults s).foldl writeFault s

/-- A miss reported: one record for the misses of one team on one 64 KiB page, and for the write-backs of one context to
one page (R372, R430). Gives the fault's number. -/
def reportFault (s : State) (f : FaultRec) : Nat × State :=
  match s.faults.find? fun e => e.2.ctx == f.ctx && e.2.team == f.team && e.2.teamNo == f.teamNo && e.2.va / 65536 == f.va / 65536 with
  | some e => (e.1, s)
  | none =>
    let (id, s) := s.fresh
    let s := { s with faults := s.faults.put id f }
    (id, if (heldFaults s).head? = some id then writeFault s id else s)

/-! ## Routes (R382, R390) -/

/-- The link from one die to an adjacent one: 2 × pair + direction. -/
def linkOf (a b : Nat) : Nat :=
  match a, b with
  | 0, 1 => 0 | 1, 0 => 1 | 0, 2 => 2 | 2, 0 => 3 | 1, 3 => 4 | 3, 1 => 5 | 2, 3 => 6 | 3, 2 => 7
  | _, _ => 8

/-- Module m of a link. -/
def Link.module (l : Link) (m : Nat) : Module := l.modules.getD m Module.reset

/-- The modules in service, rising (R388). -/
def Link.inService (l : Link) : List Nat := (List.range 16).filter fun m => (l.module m).st < 3 && !(l.module m).retrain

/-- Whether all 16 modules of a link are out of service. -/
def Link.out (l : Link) : Bool := (List.range 16).all fun m => (l.module m).st == 3

/-- Whether the pair between two adjacent dies is down (R390). -/
def pairDown (s : State) (a b : Nat) : Bool := (s.link (linkOf a b)).out || (s.link (linkOf b a)).out

/-- The dies that a message crosses, source and destination included. -/
def routeDies (s : State) (a b : Nat) : List Nat :=
  if a = b then [a]
  else
    match a, b with
    | 0, 3 => if pairDown s 0 1 || pairDown s 1 3 then [0, 2, 3] else [0, 1, 3]
    | 3, 0 => if pairDown s 3 2 || pairDown s 2 0 then [3, 1, 0] else [3, 2, 0]
    | 1, 2 => if pairDown s 1 0 || pairDown s 0 2 then [1, 3, 2] else [1, 0, 2]
    | 2, 1 => if pairDown s 2 3 || pairDown s 3 1 then [2, 0, 1] else [2, 3, 1]
    | _, _ =>
      if !pairDown s a b then [a, b]
      else
        match a, b with
        | 0, 1 => [0, 2, 3, 1] | 1, 0 => [1, 3, 2, 0] | 0, 2 => [0, 1, 3, 2] | 2, 0 => [2, 3, 1, 0]
        | 1, 3 => [1, 0, 2, 3] | 3, 1 => [3, 2, 0, 1] | 2, 3 => [2, 0, 1, 3] | _, _ => [3, 1, 0, 2]

/-- The links of a list of dies. -/
def linksOf : List Nat → List Nat
  | a :: b :: rest => linkOf a b :: linksOf (b :: rest)
  | _ => []

/-- The links of a route. -/
def route (s : State) (a b : Nat) : List Nat := linksOf (routeDies s a b)

/-- Bytes of an atomic's operand (R290). -/
def atomSize (op : Nat) : Nat := if op = 0xA || op = 0xB then 8 else 4

/-- A request for home order or an atomic: KIND 3 (R385). -/
def Req.kind3 (r : Req) : Bool := r.kind == .atomic || r.order == 4

/-- KIND of a request's message (R385). -/
def Req.kindCode (r : Req) : Nat :=
  match r.kind with
  | .beat => 0
  | .read => if r.order = 4 then 3 else 1
  | .write => if r.order = 4 then 3 else 2
  | .atomic => 3

/-- The data of a request's message: a sector for a write, 8 bytes for an atomic or a home-order store. -/
def Req.dataBytes (r : Req) : List Byte :=
  match r.kind with
  | .read => []
  | .beat => []
  | .write => if r.kind3 then bytesOf 8 (sectLoad r.data (r.va % 64) 8) else bytesOf 64 r.data.toNat
  | .atomic => if atomSize r.op = 8 then bytesOf 8 r.x.toNat else bytesOf 4 r.x.toNat ++ bytesOf 4 r.e.toNat

/-- The data of its reply: a sector for a read, 8 bytes for an atomic or a home-order load. -/
def Req.replyBytes (r : Req) : List Byte :=
  match r.kind with
  | .read => if r.kind3 then bytesOf 8 (sectLoad r.reply (r.va % 64) 8) else bytesOf 64 r.reply.toNat
  | .atomic => bytesOf 8 r.reply.toNat
  | _ => []

/-- The descriptor of a message (R385), 64 bytes. -/
def descriptor (kind op ctx src dst tag pa mask stamp : Nat) (vc : List Nat) : List Byte :=
  bytesOf 1 kind ++ bytesOf 1 op ++ bytesOf 2 ctx ++ bytesOf 1 (src + 4 * dst) ++ bytesOf 1 0 ++ bytesOf 2 tag ++ bytesOf 8 pa ++
    bytesOf 8 mask ++ bytesOf 8 stamp ++ vc.flatMap (bytesOf 8)

/-- A request's message. -/
def Req.message (r : Req) (id : Nat) : List Byte :=
  descriptor r.kindCode (if r.kind3 then r.op + 32 * r.order else 0) r.ctx r.die r.home id r.pa
    (if r.kind == .write then r.mask.toNat else 0) r.stamp r.vc ++ r.dataBytes

/-- Its reply's, from the die that it has been served on. -/
def Req.replyMessage (r : Req) (id : Nat) : List Byte :=
  descriptor 4 0 r.ctx r.home r.die id r.pa 0 r.stamp r.stable ++ r.replyBytes

/-- A queue word's message to the queue's home, and the home's answer (R305). R385 gives no KIND to them: DESIGN CHOICE (log entry
20), KIND 2 with the entry as the data, and KIND 4 with the answer's words. -/
def QueueMsg.message (m : QueueMsg) (id : Nat) (vc : List Nat) : List Byte :=
  descriptor 2 0 m.ctx m.src m.home id 0 0 0 vc ++ m.data.flatMap fun w => bytesOf 4 w.toNat
def QueueMsg.answerMessage (m : QueueMsg) (id : Nat) (ws : List Word) (vc : List Nat) : List Byte :=
  descriptor 4 0 m.ctx m.home m.src id 0 0 0 vc ++ ws.flatMap fun w => bytesOf 4 w.toNat

/-- The message flits of some bytes: bodies of up to 112 of them (R384). -/
def flitsOf (msg : Message) (bs : List Byte) : List Flit :=
  let n := (bs.length + 111) / 112
  (List.range n).map fun i =>
    { seq := 0, type := .bytes, som := i == 0, body := (bs.drop (112 * i)).take 112, msg := some msg, eom := i + 1 == n }

/-- Flits framed onto a link: each takes the next sequence number, a place in the replay buffer and a module (R386,
R388). -/
def frame (l : Link) (now ack : Nat) (fs : List Flit) : Link :=
  fs.foldl (fun l f =>
    let f := { f with seq := l.nextSeq }
    let ms := l.inService
    { l with
      nextSeq := (l.nextSeq + 1) % 65536
      buf := l.buf ++ [(f, now)]
      wire := l.wire ++ [⟨f, ms.getD (f.seq % ms.length) 0, some ack⟩]
      flitsTx := l.flitsTx + 1 }) l

/-- The other direction of a link's pair. -/
def reverseOf (l : Nat) : Nat := if l % 2 = 0 then l + 1 else l - 1

/-- The bytes of a message of the state: as its source sent them, at every hop (R383). -/
def messageBytes (s : State) : Message → List Byte
  | .req id => ((s.reqs.get? id).map (·.wire)).getD []
  | .reply id => ((s.reqs.get? id).map (·.wire)).getD []
  | .queue id => ((s.msgs.get? id).map (·.wire)).getD []

/-- A flit of one direction has carried back what the other direction expects (R386). -/
def carryAck (s : State) (lnk : Nat) : State :=
  let r := s.link (reverseOf lnk)
  s.setLink (reverseOf lnk) { r with ackSince := s.refclk }

/-- A message handed to a link: framed while the replay buffer has room, else queued (R386). Every flit carries the next
SEQ that its side expects on the other direction. -/
def sendOn (s : State) (lnk : Nat) (msg : Message) : State :=
  let l := s.link lnk
  let fs := flitsOf msg (messageBytes s msg)
  if l.queue.isEmpty && l.buf.length + fs.length ≤ 2048 && !l.inService.isEmpty then
    carryAck (s.setLink lnk (frame l s.refclk (s.link (reverseOf lnk)).exp fs)) lnk
  else s.setLink lnk { l with queue := l.queue ++ [msg] }

/-! ### Streams (R383, R390) -/

/-- A request replaced. -/
def updReq (s : State) (id : Nat) (f : Req → Req) : State := { s with reqs := s.reqs.upd id f }

/-- The links that a message still has to cross, where it is under way. -/
def msgHops (s : State) (m : Message) : Option (List Nat) :=
  match m with
  | .req r => (s.reqs.get? r).map (·.hops)
  | .reply r => (s.reqs.get? r).map (·.hops)
  | .queue q => (s.msgs.get? q).map (·.hops)

/-- A message's way replaced. -/
def setHops (s : State) (m : Message) (hops : List Nat) : State :=
  match m with
  | .req r => updReq s r fun q => { q with hops }
  | .reply r => updReq s r fun q => { q with hops }
  | .queue q => { s with msgs := s.msgs.upd q fun x => { x with hops } }

/-- The dies that a request crosses from end to end: its own and its home, or the home and the die whose Culvert link it has been
forwarded to (R347); and those of its reply. -/
def Req.ends (r : Req) : List Nat := match r.fwd with | some d => [r.home, d] | none => [r.die, r.home]
def Req.replyEnds (r : Req) : List Nat := match r.fwd with | some d => [d, r.home, r.die] | none => [r.home, r.die]

/-- The same for a queue word, or for the answer to it. -/
def QueueMsg.ends (m : QueueMsg) : List Nat := if m.answer.isSome then [m.home, m.src] else [m.src, m.home]

/-- The stream of a message: its source die and its destination, with the die between them that a forwarded one passes through. -/
def msgEnds (s : State) (m : Message) : List Nat :=
  match m with
  | .req r => ((s.reqs.get? r).map Req.ends).getD []
  | .reply r => ((s.reqs.get? r).map Req.replyEnds).getD []
  | .queue q => ((s.msgs.get? q).map QueueMsg.ends).getD []

/-- The die that a message is on its way to. -/
def msgGoal (s : State) (m : Message) : Nat := ((msgEnds s m).getLast?).getD 0

/-- The links of a way over several dies, by the routes as they now are. -/
def wayOf (s : State) : List Nat → List Nat
  | a :: b :: rest => route s a b ++ wayOf s (b :: rest)
  | _ => []

/-- The messages of the state. -/
def messages (s : State) : List Message :=
  (s.reqs.filterMap fun e => match e.2.stage with
    | .sent => some (.req e.1)
    | .replied => some (.reply e.1)
    | _ => none) ++ s.msgs.map fun e => .queue e.1

/-- Whether a message must wait at its source: a change of its stream's route takes effect only after every message on the old
route has been delivered or lost (R390). -/
def onOldRoute (s : State) (hops : List Nat) (m : Message) : Bool :=
  let same (x : Message) : Bool := x != m && msgEnds s x == msgEnds s m
  s.delayed.any same || (messages s).any fun x => same x &&
    match msgHops s x with
    | some h => !h.isEmpty && !h.isSuffixOf hops
    | none => false

/-- A message set on its way from its source. -/
def setOff (s : State) (hops : List Nat) (m : Message) : State :=
  match hops with
  | [] => s
  | l :: _ => if onOldRoute s hops m then { s with delayed := s.delayed ++ [m] } else sendOn s l m

/-- The messages that wait at their sources set off again, in order, by the routes as they now are. -/
def releaseDelayed (s : State) : State :=
  s.delayed.foldl (fun s m =>
    if (msgHops s m).isNone then s
    else
      let hops := wayOf s (msgEnds s m)
      setOff (setHops s m hops) hops m) { s with delayed := [] }

/-! ## Requests -/

/-- A request with nothing in it. -/
def Req.blank : Req :=
  { die := 0, core := 0, ctx := 0, field := 0, team := 0, group := 0, who := .writeback, kind := .read, va := 0, phys := false, mask := 0, data := 0,
    op := 0, order := 0, x := 0, e := 0, sys := false, fillScope := none, cache := 0, stamped := false, drops := false, after := [],
    stage := .walk, pa := 0, sealed := false, home := 0, stamp := 0, vc := [], sentNo := 0, hops := [], reply := 0,
    stable := [], bad := 0, fwd := none, wire := [], got := [] }

/-- A request enters its die's memory controllers. -/
def newReq (s : State) (r : Req) : Nat × State :=
  let (id, s) := s.fresh
  (id, { s with reqs := s.reqs.put id r })

/-- A number that no field has: R360's are 0 to 7. -/
def noField : Nat := 8

/-- The field of a team's launch. -/
def fieldOfTeam (s : State) (team : Team) : Nat :=
  match s.launches.get? (launchKey team.id.ctx team.id.grid) with
  | some l => (l.pkt.getD 2 0).toNat
  | none => noField

/-- What the walks of the teams and contexts that `p` names have read of tables of other dies forgotten, and what they have asked
for. -/
def dropTables (s : State) (p : Nat → Nat → Bool) : State :=
  let ofTeam (t : Nat) : Bool := p t (((s.teams.get? t).map (·.id.ctx)).getD 0xFFFF)
  { s with
    reqs := s.reqs.mapVals fun _ r => if p r.team r.ctx then
        match r.who with
        | .table _ => { r with got := [], who := .writeback, team := 0 }
        | _ => { r with got := [] }
      else r
    accs := s.accs.mapVals fun _ a => if ofTeam a.team then { a with got := [] } else a
    copies := s.copies.mapVals fun _ c => if ofTeam c.team then { c with got := [] } else c }

/-- What has come of a sector of a table noted with its walker. -/
def noteTable (s : State) (walker sector : Nat) (x : TabRead) : State :=
  { s with
    reqs := s.reqs.upd walker fun r => { r with got := r.got.put sector x }
    accs := s.accs.upd walker fun a => { a with got := a.got.put sector x }
    copies := s.copies.upd walker fun c => { c with got := c.got.put sector x } }

/-- Whether a walk waits for a sector of a table. -/
def tableAsked (s : State) (walker : Nat) : Bool := s.reqs.any fun e => e.2.who == .table walker

/-- A sector of a table of another die asked for, by a load at system scope (R367, R371), which crosses Qanat like every request
(R382): of a page table at its physical address, of a synonym table at its virtual one. -/
def askTableSector (s : State) (walker die core ctx field team : Nat) (phys : Bool) (a : Nat) : State :=
  (newReq s { Req.blank with
    die, core, ctx, field, team, who := .table walker, kind := .read, va := 64 * (a / 64), phys, sys := true }).2

/-- No reply to a read that was sent before now and that `p` names fills L1 or L2 (R113, R114). -/
def noFill (s : State) (die : Nat) (p : Req → Bool) : State :=
  { s with reqs := s.reqs.mapVals fun _ r => if r.die == die && r.kind == .read && p r then { r with fillScope := none } else r }

/-- The same for one sector whose bytes leave the die: an older copy must not come back over them (R106). -/
def noFillSector (s : State) (die ctx va : Nat) : State := noFill s die fun q => q.ctx == ctx && q.va / 64 == va / 64

/-- Dirty bytes of a sector sent home (R109), with the sector's poison (R421). -/
def writeBack (s : State) (die ctx field key : Nat) (m : BitVec 64) (data : BitVec 512) (bad : Bool) : State :=
  if m = 0 then s
  else (newReq (noFillSector s die ctx (vaOfSect key)) { Req.blank with
    die, ctx, field, kind := .write, va := vaOfSect key, mask := m, data, stamped := true, bad := if bad then 2 else 0 }).2

/-- The field that a line of a die's L2 belongs to. -/
def L2.fieldOf (l : L2) (line : Nat) : Nat := ((l.lines.get? line).map (·.field)).getD noField

/-- The dirty bytes of an L2 sector sent home; a valid sector stays, clean. -/
def l2Clean (s : State) (die key : Nat) : State :=
  let l2 := (s.die die).l2
  let c := l2.sect key
  if c.dirty = 0 then s
  else writeBack (s.setDie die { s.die die with l2 := l2.setSect key c.cleaned }) die (ctxOfSect key)
    (l2.fieldOf (lineOfSect key)) key c.dirty c.data c.bad

/-- An L2 line written back and dropped. -/
def evictL2Line (s : State) (die line : Nat) : State :=
  let s := [2 * line, 2 * line + 1].foldl (fun s k => l2Clean s die k) s
  s.setDie die { s.die die with l2 := (s.die die).l2.drop line }

/-- The lines among those of a set that may make room in some ways: those of the lowest retention, but a keep line only where
every line of the set is keep (R81). -/
def replaceable (here : List (Nat × L2Line)) (ways : List Nat) : List Nat :=
  let low := lowestKept ((here.filter fun e => ways.contains e.2.way).map fun e => (e.1, e.2.ret))
  if here.all fun e => e.2.ret == .keep then low
  else low.filter fun v => here.all fun e => e.1 != v || e.2.ret != .keep

/-- A line's place in the L2 of a die: an existing one, a free allowed way, or the way of a line that may be replaced, which is
written back. False where there is none (R82, R396). -/
def l2Room (s : State) (die ctx field line cache : Nat) : Bool × State :=
  let l2 := (s.die die).l2
  if l2.lines.has line then (true, s.setDie die { s.die die with l2 := l2.again line cache })
  else
    let ways := allowedWays s die field (s.ctx ctx).prot
    let here := l2.inSet (setOf line)
    let ret := l2.retention line cache
    let place (s : State) (way : Nat) : Bool × State :=
      (true, s.setDie die { s.die die with
        l2 := { (s.die die).l2 with lines := (s.die die).l2.lines.put line { way, ret, field } } })
    match ways.find? fun w => !here.any fun e => e.2.way == w with
    | some w => place s w
    | none =>
      match pickLine s (replaceable here ways) with
      | (none, s) => (false, s)
      | (some v, s) => place (evictL2Line s die v) (((l2.lines.get? v).map fun r => r.way).getD 0)

/-- A sector filled whole into the L2 of a die, where it has a place (R14). -/
def l2Fill (s : State) (die ctx field key cache : Nat) (data : BitVec 512) : State :=
  let (ok, s) := l2Room s die ctx field (lineOfSect key) cache
  if ok then
    let l2 := (s.die die).l2
    s.setDie die { s.die die with l2 := l2.setSect key ((l2.sect key).fill data) }
  else s

/-- Bytes written into the L2 of a die, dirty, with the poison that they carry (R421); sent home at once where they have
no place. -/
def l2Write (s : State) (die ctx field key cache : Nat) (m : BitVec 64) (data : BitVec 512) (bad : Bool) : State :=
  if m = 0 then s
  else
    let (ok, s) := l2Room s die ctx field (lineOfSect key) cache
    if ok then
      let l2 := (s.die die).l2
      let c := (l2.sect key).write m data true
      s.setDie die { s.die die with l2 := l2.setSect key { c with bad := c.bad || bad } }
    else writeBack s die ctx field key m data bad

/-- Bytes that pass through the L2: a copy that is there takes them, clean. -/
def l2Pass (s : State) (die key : Nat) (m : BitVec 64) (data : BitVec 512) : State :=
  let l2 := (s.die die).l2
  if l2.sects.has key then s.setDie die { s.die die with l2 := l2.setSect key ((l2.sect key).write m data false) } else s

/-- The L1 of a core replaced. -/
def setL1 (s : State) (core : Nat) (l1 : L1) : State := s.setCore core { s.core core with l1 }

/-- The dirty bytes of an L1 sector written to L2, in the ways of the field that the line belongs to and at its retention
(R81, R82); a valid sector stays, clean. -/
def l1Clean (s : State) (core key : Nat) : State :=
  let l1 := (s.core core).l1
  let c := l1.sect key
  if c.dirty = 0 then s
  else l2Write (setL1 s core (l1.setSect key c.cleaned)) (dieOf core) (ctxOfSect key) (l1.line (lineOfSect key)).field key
    (l1.line (lineOfSect key)).ret.code c.dirty c.data c.bad

/-- Every dirty sector of an L1 line written to L2. -/
def l1CleanLine (s : State) (core line : Nat) : State :=
  [2 * line, 2 * line + 1].foldl (fun s k => l1Clean s core k) s

/-- The dirty bytes of a sector sent on from L1 and L2 to its home; valid copies stay, clean. -/
def flushSector (s : State) (core key : Nat) : State := l2Clean (l1Clean s core key) (dieOf core) key

/-- The victim tag array takes an evicted line (R46): 4,096 entries, the oldest replaced. -/
def noteVictim (c : Core) (line team group : Nat) : Core :=
  let v := if 4096 ≤ c.victims.length then c.victims.drop 1 else c.victims
  { c with victims := v ++ [(line, team, group)] }

/-- An L1 line written back to L2 and dropped. -/
def l1Drop (s : State) (core line : Nat) : State :=
  let s := l1CleanLine s core line
  setL1 s core ((s.core core).l1.drop line)

/-- An L1 line evicted (R46, R81). -/
def evictL1Line (s : State) (core line : Nat) : State :=
  match (s.core core).l1.lines.get? line with
  | none => s
  | some l =>
    let s := l1Drop s core line
    s.setCore core (noteVictim (s.core core) line l.team l.group)

/-- Room for a line in a core's L1 (R13): where its 4,096 lines are taken, one of the lowest retention is evicted. The
spec gives the L1 no sets; DESIGN CHOICE (log entry 30): its lines are one set. -/
def l1Room (s : State) (core line : Nat) : State :=
  let l1 := (s.core core).l1
  if l1.lines.has line || l1.lines.length < l1Lines then s
  else
    match pickLine s (lowestKept (l1.lines.map fun e => (e.1, e.2.ret))) with
    | (none, s) => s
    | (some v, s) => evictL1Line s core v

/-- A sector filled whole into a core's L1. -/
def l1Fill (s : State) (core key : Nat) (data : BitVec 512) (f : Filler) : State :=
  let s := l1Room s core (lineOfSect key)
  setL1 s core ((s.core core).l1.fillSect key data f)

/-- Bytes stored in a core's L1, dirty (R83). -/
def l1Store (s : State) (core key : Nat) (m : BitVec 64) (data : BitVec 512) (f : Filler) : State :=
  let s := l1Room s core (lineOfSect key)
  setL1 s core ((s.core core).l1.store key m data f)

/-- Bytes that pass through a core's L1. -/
def l1Pass (s : State) (core key : Nat) (m : BitVec 64) (data : BitVec 512) : State :=
  setL1 s core ((s.core core).l1.pass key m data)

/-- The L1 copy of a sector invalidated, its dirty bytes written to L2 first. -/
def l1DropSect (s : State) (core key : Nat) : State :=
  let s := l1Clean s core key
  setL1 s core ((s.core core).l1.dropSect key)

/-- The L1 sector and the L2 sector of a key dropped, their dirty bytes sent on first (R113, R117). -/
def dropSector (s : State) (core key : Nat) : State :=
  let s := l2Clean (l1DropSect s core key) (dieOf core) key
  s.setDie (dieOf core) { s.die (dieOf core) with l2 := (s.die (dieOf core)).l2.dropSect key }

/-- The vault-window offset that a request names: a vault is the home of its own bytes and needs no walk (R77, R107). -/
def Req.vaultOff (r : Req) : Option Nat :=
  if r.phys then none
  else match regionOf r.va with
    | .vault off => some off
    | _ => none

/-- The home die of a request whose physical address is known: the vault's die, or R363's. -/
def Req.homeDie (s : State) (r : Req) (pa : Nat) : Nat :=
  match r.vaultOff with
  | some off => bits off 33 32
  | none => homeOf s pa

/-- Since when EPOCH has been past what each die was told, once it is `epoch` (R110). -/
def aheadAfter (d : Die) (now epoch : Nat) : List Nat :=
  (List.range 4).map fun x => if d.told.getD x 0 < d.epoch || epoch = d.epoch then d.ahead.getD x 0 else now

/-- A translated request leaves its die (R109, R110): it takes its stamp and the die's vector. -/
def sendReq (s : State) (id pa : Nat) (sealed : Bool) : State :=
  match s.reqs.get? id with
  | none => s
  | some r =>
    let s := if r.drops then
        noFillSector (dropSector s r.core (sectKey r.ctx r.va)) r.die r.ctx r.va
      else s
    let d := s.die r.die
    let epoch := if r.stamped then d.epoch + 1 else d.epoch
    let home := r.homeDie s pa
    let vc := d.vc.set r.die epoch
    let hops := route s r.die home
    let r := { r with stage := .sent, got := [], pa, sealed, home, stamp := epoch, vc, sentNo := d.sent, hops }
    let s := { s with reqs := s.reqs.put id { r with wire := r.message id } }
    let s := s.setDie r.die { s.die r.die with
      epoch, vc, sent := d.sent + 1, told := d.told.set home epoch, ahead := aheadAfter d s.refclk epoch }
    setOff s hops (.req id)

/-- Whether a home has a request of its own die, with a stamp of at most n, still to handle. -/
def ownWaits (s : State) (home n : Nat) : Bool :=
  s.reqs.any fun e => e.2.stage == .sent && e.2.die == home && e.2.home == home && e.2.stamp ≤ n

/-- STABLE of a home as it may stand for a vector V: no clock beat goes from a die to itself (R110), so the home's own
entry is V's as soon as no request of its die with such a stamp is left for it to handle (DEDUCED from R112, log entry 55). -/
def stableFor (s : State) (home : Nat) (vc : List Nat) : List Nat :=
  let st := (s.die home).stable
  if ownWaits s home (vc.getD home 0) then st else st.set home (max (st.getD home 0) (vc.getD home 0))

/-- A request whose turn at its home has come: it has arrived, no earlier one of its die waits there, and STABLE covers
its vector (R110). -/
def servable (s : State) (id : Nat) (r : Req) : Bool :=
  r.stage == .sent && r.hops.isEmpty &&
  !(s.reqs.any fun e => e.1 != id && e.2.stage == .sent && e.2.die == r.die && e.2.home == r.home && e.2.sentNo < r.sentNo) &&
  (List.range 4).all fun x => x == r.die || r.vc.getD x 0 ≤ (stableFor s r.home r.vc).getD x 0

/-- STABLE after a request of die e with vector V has been handled (R110). -/
def noteStable (s : State) (home e : Nat) (vc : List Nat) : State :=
  let st := if e = home then (s.die home).stable else stableFor s home vc
  s.setDie home { s.die home with stable := st.set e (vc.getD e 0) }

end Sys2Proof.Machine
end

