-- ==== Sys2Proof/Machine/Doorbell.lean ====
section
/-! DEFINITION. The doorbells of user queues (R351): the queue table's DEVSTATE, the hardware slots, and a notify, from the
host or by a store to the doorbell page that the driver maps into a context's system space. -/

namespace Sys2Proof.Machine

/-- A little-endian number in a list of bytes. -/
def leNum (b : List Byte) (at' n : Nat) : Nat := ofBytes ((b.drop at').take n)

/-- Whether the host reaches BAR0: the device has power, and one of its Culvert links is up (R347, R348, R414). -/
def barOpen (s : State) : Bool := s.boot.powered && ((s.die 0).portUp || (s.die 1).portUp)

/-! ## The queue table (R348, R349) -/

/-- EN of QTBASE. -/
def Headgate.en (h : Headgate) : Bool := h.qtbase.getLsbD 0

/-- The address of entry q. -/
def qtAddr (s : State) (q : Nat) : Nat := 65536 * bits s.hg.qtbase.toNat 51 16 + 64 * q

/-- DEVSTATE of entry q. -/
def devState (s : State) (q : Nat) : Nat := leNum (paRead s (qtAddr s q + 40) 8) 0 8

def setDevState (s : State) (q v : Nat) : State := paWrite s (qtAddr s q + 40) (bytesOf 8 v)

/-- PENDING of entry q set. -/
def setPending (s : State) (q : Nat) : State := setDevState s q (devState s q ||| 1)

/-! ## Slots (R351) -/

/-- A queue that has accepted nothing. -/
def UQueue.new : UQueue := { limit := 0, rd := 0, stopped := false, block := none, last := none, desc := none }

def State.queue (s : State) (q : Nat) : UQueue := s.hg.queues.getD q UQueue.new

def updQ (s : State) (q : Nat) (f : UQueue → UQueue) : State :=
  { s with hg := { s.hg with queues := s.hg.queues.put q (f (s.queue q)) } }

/-- The slot of a mapped queue. -/
def slotOf (s : State) (q : Nat) : Option Nat := (s.hg.slots.find? fun e => e.2.q == q).map (·.1)

/-- Whether a slot's queue is idle: no notify waits, and nothing that it may accept. -/
def slotIdle (s : State) (x : HgSlot) : Bool :=
  let u := s.queue x.q
  !x.notify && u.block.isNone && (u.stopped || u.limit ≤ u.rd)

/-- What a queue keeps without a slot: a command under way. A packet that waits to be accepted is read again. -/
def QWaitFor.kept : QWaitFor → Bool
  | .command _ _ => true
  | _ => false

/-- A slot unmapped: its read index and its NOTIFY bit go into DEVSTATE; a PENDING bit that stands there stays. -/
def unmapSlot (s : State) (k : Nat) : State :=
  match s.hg.slots.get? k with
  | none => s
  | some x =>
    let u := s.queue x.q
    let s := setDevState s x.q (2 * u.rd + (if x.notify then 1 else devState s x.q % 2))
    let s := updQ s x.q fun u => { u with limit := u.rd, block := u.block.filter QWaitFor.kept }
    { s with hg := { s.hg with slots := s.hg.slots.del k } }

/-- NOTIFY of a slot set. -/
def notifySlot (s : State) (k q : Nat) : State := { s with hg := { s.hg with slots := s.hg.slots.put k ⟨q, true⟩ } }

/-- A notify for a queue: NOTIFY of its slot, or PENDING. Where slots are short, an idle queue's slot may be unmapped in the same
cycle: before it the notify is saved as PENDING, after it the slot's orphan latch catches it. With EN clear a doorbell has
no effect. -/
def ringDoorbell (s : State) (q : Nat) : State :=
  if !(s.hg.en && q < s.hg.qtlen.toNat) then s
  else
    match slotOf s q with
    | none => setPending s q
    | some k =>
      if (s.hg.slots.lowestFree 128).isNone && ((s.hg.slots.get? k).map (slotIdle s)).getD false && !s.hg.orphans.has k then
        let (n, s) := s.draw
        match Config.freeNat n % 3 with
        | 0 => notifySlot s k q
        | 1 => unmapSlot (notifySlot s k q) k
        | _ =>
          let s := unmapSlot s k
          { s with hg := { s.hg with orphans := s.hg.orphans.put k (q, s.refclk) } }
      else notifySlot s k q

/-- The queue whose doorbell lies at a physical address: the doorbell page of either Culvert link's BAR0, where the host has
placed it (R351). -/
def doorbellAt (s : State) (pa : Nat) : Option Nat :=
  (s.hg.bars.find? fun e => e.2 + 0x100000 ≤ pa && pa < e.2 + 0x110000).map fun e => (pa - e.2 - 0x100000) / 64

end Sys2Proof.Machine
end

