-- ==== Sys2Proof/Machine/Trace.lean ====
section
/-! DEFINITION. Trace records, sampling, and the core's counters of lost locality (R46, R47, R401, R409 to R413). -/

namespace Sys2Proof.Machine

/-! ## Records (R411, R412) -/

/-- The fields of a record's body that its kind fixes. -/
structure Mark where
  ctx : Nat
  kind : Nat
  grid : Nat
  team : Nat
  group : Nat
  path : Nat
  core : Nat
  image : Nat
  slice : Nat
  pc : Nat
  mask : LaneMask
  lat : List Byte
  level : Nat
  refclk : Nat
  va : Nat
  deriving DecidableEq, Repr

/-- The 64 bytes of a body. -/
def Mark.body (m : Mark) : List Byte :=
  bytesOf 4 m.grid ++ bytesOf 4 m.team ++ bytesOf 1 m.group ++ bytesOf 1 m.path ++ bytesOf 1 (m.core + 128 * m.image) ++
    bytesOf 1 m.slice ++ bytesOf 8 m.pc ++ bytesOf 12 m.mask.toNat ++ m.lat ++ bytesOf 1 m.level ++ bytesOf 5 0 ++
    bytesOf 8 m.refclk ++ bytesOf 8 m.va

/-- The 16 bytes of a header. -/
def Mark.header (m : Mark) (sealed : Bool) (counter : Nat) : List Byte :=
  bytesOf 2 m.ctx ++ bytesOf 1 m.kind ++ bytesOf 1 (if sealed then 1 else 0) ++ bytesOf 2 64 ++ bytesOf 10 counter

/-- The 128 bytes of an entry: a protected context's body leaves only as ciphertext with its tag, under its trace key, the nonce of
context and counter, and the header as associated data (R401). -/
def Mark.entry (m : Mark) (key : List Byte) (sealed : Bool) (counter : Nat) : List Byte :=
  let rest := if sealed then Crypto.gcmSeal key (bytesOf 2 m.ctx ++ bytesOf 10 counter) (m.header sealed counter) m.body
    else m.body ++ bytesOf 16 0
  m.header sealed counter ++ rest ++ bytesOf 32 0

/-- Whether the trace ring has room (R412), as far as the device can reach its read index (R347). -/
def traceRoom (s : State) : Bool :=
  (paTake s (s.trace.ring - 8) 8).any fun b => decide (s.trace.widx - ofBytes b < 2 ^ s.trace.log2n)

/-- A record produced: sealed or dropped without a trace key, dropped where the ring is full, else written: the entry,
then the write index, then the vector. -/
def putRecord (s : State) (m : Mark) : State :=
  let t := s.trace
  if !t.enable || !t.kinds.getLsbD m.kind then s
  else
    let c := s.core m.core
    let s := if m.kind = 1 then s.setCore m.core { c with samples := c.samples + 1 } else s
    let live := s.ctxLive m.ctx
    let sealed := (s.ctx m.ctx).prot
    if sealed && live.traceKey.isNone then
      s.setCore m.core { s.core m.core with sealedDrop := (s.core m.core).sealedDrop + 1 }
    else if !traceRoom s then { s with trace := { s.trace with drop := s.trace.drop + 1 } }
    else
      let s := paWrite s (t.ring + 128 * (t.widx % 2 ^ t.log2n)) (m.entry (live.traceKey.getD []) sealed live.records)
      let s := { s with live := s.live.put m.ctx { s.ctxLive m.ctx with records := (live.records + 1) % 2 ^ 80 }
                        trace := { s.trace with widx := t.widx + 1 } }
      raiseIrq (paWrite s t.widxPA (bytesOf 8 (t.widx + 1))) t.vector

/-- The record of a path stop (kind 2), at the word at which the path stands. -/
def pathMark (s : State) (team : Team) (g : Nat) (grp : Group) (p : Nat) : Mark :=
  let path : Option Path := grp.paths.get? p
  { ctx := team.id.ctx, kind := 2, grid := team.id.grid, team := team.id.num, group := g, path := p, core := team.id.core,
    image := team.id.image, slice := grp.slice, pc := match path with | some x => x.pc.toNat | none => 0,
    mask := match path with | some x => x.mask | none => 0, lat := bytesOf 10 0, level := 0, refclk := s.refclk, va := 0 }

/-- The record of a stopping trap (kind 3): the trapping word's address and mask as its stop record keeps them, and the code. -/
def trapMark (s : State) (team : Team) (g : Nat) (grp : Group) (r : StopRec) : Mark :=
  { pathMark s team g grp r.path with kind := 3, pc := r.pc.toNat, mask := r.mask, level := r.code }

/-- The record of a team's save, restore or migration (kind 4). The manual gives it no group, path, slice, PC and mask:
free values. -/
def teamMark (s : State) (team : Team) : Mark × State :=
  let (k, s) := s.draw
  ({ ctx := team.id.ctx, kind := 4, grid := team.id.grid, team := team.id.num, group := (Config.freeWord k).toNat % 256,
     path := Config.freeNat k % 256, core := team.id.core, image := team.id.image, slice := (Config.freeByte k).toNat,
     pc := Config.freeNat k, mask := Config.freeMask k, lat := bytesOf 10 0, level := 0, refclk := s.refclk, va := 0 }, s)

/-- The record of a team event, where such records are on. -/
def noteTeam (s : State) (team : Team) : State :=
  if s.trace.enable && s.trace.kinds.getLsbD 4 then
    let (m, s) := teamMark s team
    putRecord s m
  else s

/-! ## Records of stops -/

/-- The path stops that a step has made: groups and paths newly in STATE 2. -/
def newStops (b s : State) : List (Nat × Nat × Nat) :=
  s.teams.flatMap fun te => te.2.groups.flatMap fun ge => ge.2.paths.filterMap fun pe =>
    let was := ((b.teams.get? te.1).bind fun team => team.groups.get? ge.1).bind fun grp => grp.paths.get? pe.1
    if pe.2.st = 2 && (was.map (·.st)) != some 2 then some (te.1, ge.1, pe.1) else none

/-- The stopping traps that a step has recorded, one for each group. -/
def newTraps (b s : State) : List (Nat × Nat × StopRec) :=
  s.teams.flatMap fun te => te.2.groups.filterMap fun ge =>
    let was := ((b.teams.get? te.1).bind fun team => team.groups.get? ge.1).bind (·.stop)
    match ge.2.stop with
    | some r => if was.isNone && r.code != 0 then some (te.1, ge.1, r) else none
    | none => none

/-- A record of a group written. -/
def putGroupMark (s : State) (t g : Nat) (f : Team → Group → Mark) : State :=
  match (s.teams.get? t).bind fun team => (team.groups.get? g).map fun grp => f team grp with
  | some m => putRecord s m
  | none => s

/-- The sequencers' traps that a step has recorded. -/
def newSeqTraps (b s : State) : List (Nat × StopRec) :=
  s.teams.flatMap fun te => [true, false].filterMap fun f =>
    match (te.2.seqOf f).stop with
    | some r =>
      if r.code != 0 && (((b.teams.get? te.1).bind fun team => (team.seqOf f).stop).isNone) then some (te.1, r) else none
    | none => none

/-- A sequencer's record: no group and no path; its slice and mask are free values. -/
def putSeq (s : State) (t : Nat) (r : StopRec) : State :=
  match s.teams.get? t with
  | none => s
  | some team =>
    let (m, s) := teamMark s team
    putRecord s { m with kind := 3, group := 0xFF, path := 0xFF, pc := r.pc.toNat, level := r.code }

/-- The records of a step's stops. -/
def traceStops (b s : State) : State :=
  let s1 := (newStops b s).foldl (fun s x => putGroupMark s x.1 x.2.1 fun team grp => pathMark s team x.2.1 grp x.2.2) s
  let s2 := (newTraps b s).foldl (fun s x => putGroupMark s x.1 x.2.1 fun team grp => trapMark s team x.2.1 grp x.2.2) s1
  (newSeqTraps b s).foldl (fun s x => putSeq s x.1 x.2) s2

/-! ## Sampling (R410) -/

/-- One step of the Galois LFSR. -/
def lfsrNext (x : Word) : Word := if x.getLsbD 0 then (x >>> 1) ^^^ 0x80200003#32 else x >>> 1

/-- The issues to count down after a draw. -/
def lfsrCount (x : Word) (meanlog : Nat) : Nat := (x.toNat % 2 ^ (meanlog + 1)) ||| 1

/-- A draw of a slice. -/
def Slice.draw (k : Slice) (meanlog : Nat) : Slice :=
  let x := lfsrNext k.lfsr
  { k with lfsr := x, count := some (lfsrCount x meanlog) }

/-- One word issued by a slice while sampling is on. -/
def Slice.countIssue (k : Slice) (meanlog : Nat) : Slice :=
  match k.count with
  | none =>
    let k := k.draw meanlog
    { k with count := k.count.map (· - 1) }
  | some n => { k with count := some (n - 1) }

/-- Whether sampling is on. -/
def sampling (s : State) : Bool := s.trace.enable && s.trace.meanlog != 0

/-- SAMPLE_TAG: the countdown has run out: the next issued word will be tagged, or the tag is skipped while one is in
flight; then the slice draws again. -/
def execSampleTag (core slice : Nat) (s : State) : Out :=
  let k := s.slice core slice
  if !sampling s || k.count != some 0 then .refused (.notEnabled "SAMPLE_TAG")
  else
    let k' := k.draw s.trace.meanlog
    if k.tag.isSome || k.due then
      let s := s.setSlice core slice k'
      .next (s.setCore core { s.core core with sampleSkip := (s.core core).sampleSkip + 1 })
    else .next (s.setSlice core slice { k' with due := true })

/-- A tagged word's record: the latencies are times, which this model does not hold: free values. -/
def sampleMark (s : State) (core slice : Nat) (g : Tag) (team : Team) (level va : Nat) : Mark × State :=
  let (k, s) := s.draw
  ({ ctx := team.id.ctx, kind := 1, grid := team.id.grid, team := team.id.num, group := g.group, path := g.path, core,
     image := team.id.image, slice, pc := g.pc.toNat, mask := g.mask,
     lat := (List.range 10).map (fun i => Config.freeByte (16 * k + i)), level, refclk := g.refclk, va }, s)

/-- Whether a tagged word has not been written back: its path stands at it, or its access, its Flume operation or a fixed-latency
result of it is under way. -/
def Tag.pending (s : State) (g : Tag) (team : Team) : Bool :=
  let grp := team.groups.get? g.group
  let stands := ((grp.bind fun x => x.paths.get? g.path).map fun p => p.pc == g.pc && p.hold.any fun h =>
    match h with | .stopped _ => false | _ => true).getD false
  stands || (g.access.map fun a => s.accs.has a).getD false ||
    (g.op.map fun o => team.fl.ops.any fun x => x.id == o).getD false || (grp.map fun x => x.late.any (·.tagged)).getD false

/-- A slice's tagged word is over: its record, unless it has trapped, at issue or later. The access is as it was before the
step. -/
def finishTag (b s : State) (core slice : Nat) (g : Tag) (team : Team) : State :=
  let s := s.setSlice core slice { s.slice core slice with tag := none }
  let acc := g.access.bind fun a => b.accs.get? a
  let trapped := ((team.groups.get? g.group).bind (·.stop)).any (fun r => r.pc == g.pc && r.path == g.path) ||
    acc.any fun a => a.kind != .cache && !a.complete
  if trapped then s
  else
    let va := ((acc.bind fun a => a.lanes.head?).map (·.va)).getD 0
    let (m, s) := sampleMark s core slice g team ((acc.map (·.level)).getD 0) va
    putRecord s m

/-- Every tag in flight looked at: of a team that is saved or gone it leaves no record. -/
def finishTags (b s : State) : State :=
  s.cores.foldl (fun s ce => ce.2.slices.foldl (fun s ke =>
    match ke.2.tag with
    | none => s
    | some g =>
      match s.teams.get? g.team with
      | some team =>
        if team.isSaved then s.setSlice ce.1 ke.1 { s.slice ce.1 ke.1 with tag := none }
        else if g.pending s team then s else finishTag b s ce.1 ke.1 g team
      | none => s.setSlice ce.1 ke.1 { s.slice ce.1 ke.1 with tag := none }) s) s

/-! ## Lost locality (R46, R47) -/

/-- A score of a group changed. -/
def mapScores (s : State) (core : Nat) (f : Nat → Nat) : State :=
  { s with teams := s.teams.mapVals fun _ team =>
      if team.id.core = core && (match team.stat with | .saved _ _ => false | _ => true) then
        { team with groups := team.groups.mapVals fun _ g => { g with score := f g.score } }
      else team }

/-- The sum of the scores of a core's groups. -/
def scoreSum (s : State) (core : Nat) : Nat :=
  s.teams.foldl (fun n e =>
    if e.2.id.core = core && (match e.2.stat with | .saved _ _ => false | _ => true) then
      e.2.groups.foldl (fun n g => n + g.2.score) n
    else n) 0

/-- LL_SCORE_HALVE: once in 4,096 core cycles. -/
def execLlScoreHalve (core : Nat) (s : State) : Out :=
  let c := s.core core
  if s.coreClock core / 4096 ≤ c.llHalved then .refused (.notEnabled "LL_SCORE_HALVE")
  else .next (mapScores (s.setCore core { c with llHalved := c.llHalved + 1 }) core fun n => n / 2)

/-- LL_CAP_UPDATE: once in 512 core cycles; the tests in their order (R47, R413). -/
def execLlCapUpdate (core : Nat) (s : State) : Out :=
  let c := s.core core
  if s.coreClock core / 512 ≤ c.llCapped then .refused (.notEnabled "LL_CAP_UPDATE")
  else
    let sum := scoreSum s core
    let cap :=
      if c.llHigh < sum then max 2 (c.llCap - 1)
      else if sum < c.llLow then min (activeSize core) (c.llCap + 1)
      else c.llCap
    .next (s.setCore core { c with llCapped := c.llCapped + 1, llSum := sum, llCap := cap })

end Sys2Proof.Machine
end

