-- ==== Sys2Proof/Machine/Fetch.lean ====
section
/-! DEFINITION. The I path (R119, R123): instruction fetch through a core's instruction cache, which fills from the die's
L2; the forwarding table (R331, R332); clause headers (R184 to R186). -/

namespace Sys2Proof.Machine

/-- A forwarding entry applied to an address, where it covers it (R331, R332). -/
def forwardBy (x : BitVec 256) (a : Nat) : Option Nat :=
  let old := bits x.toNat 59 8 * 256
  let new := bits x.toNat 127 64
  let len := 256 * bits x.toNat 151 128
  if x.getLsbD 63 && old ≤ a && a < old + len then some (new + (a - old)) else none

/-- The address that a fetch at `a` goes to: the lowest entry that covers it, once (R332). -/
def forwarded (s : State) (core ctx a : Nat) : Nat :=
  (((s.core core).fwd.getD ctx []).findSome? fun x => forwardBy x a).getD a

/-- The sectors that hold n bytes from an address. -/
def sectorsOf (va n : Nat) : List Nat :=
  (List.range ((va + n - 1) / 64 - va / 64 + 1)).map fun i => 64 * (va / 64 + i)

/-- A sector taken into a core's instruction cache. -/
def icacheFill (s : State) (core key : Nat) (data : BitVec 512) : State :=
  s.setCore core { s.core core with icache := (s.core core).icache.put key data }

/-- One sector on its way into the instruction cache: from L2 at once, else by a request to its home. -/
def fetchSector (s : State) (core ctx field team : Nat) (group : Option Nat) (path va : Nat) : State :=
  let key := sectKey ctx va
  let c := (s.die (dieOf core)).l2.sect key
  if (s.core core).icache.has key then s
  else if c.covers (BitVec.allOnes 64) && !c.bad then icacheFill s core key c.data
  else if s.reqs.any fun e => e.2.who == .fetch team group path && e.2.va == va then s
  else (newReq (if c.bad then l2Clean s (dieOf core) key else s) { Req.blank with
    die := dieOf core, core, ctx, field, who := .fetch team group path, kind := .read, va, mask := BitVec.allOnes 64,
    fillScope := if c.bad then none else some 3 }).2

/-- What a fetch gives. -/
inductive Fetched where
  | bytes (b : List Byte) (s : State)
  | waiting (s : State)
  | violation
  deriving DecidableEq, Repr

/-- n bytes fetched for a path or a sequencer. An address outside the global range names no code: ACCESS_VIOLATION (log
entry 4). -/
def fetch (s : State) (team : Team) (t : Nat) (group : Option Nat) (path va n : Nat) : Fetched :=
  if synonymBase < va + n then .violation
  else
    let core := team.id.core
    let ctx := team.id.ctx
    let s := (sectorsOf va n).foldl (fun s a => fetchSector s core ctx (fieldOfTeam s team) t group path a) s
    if (sectorsOf va n).all fun a => (s.core core).icache.has (sectKey ctx a) then
      .bytes ((List.range n).map fun i =>
        (((s.core core).icache.getD (sectKey ctx (va + i)) 0).extractLsb' (8 * ((va + i) % 64)) 8)) s
    else .waiting s

/-- The words that a list of bytes holds. -/
def wordsOf (b : List Byte) : List Word :=
  (List.range (b.length / 4)).map fun i => BitVec.ofNat 32 (ofBytes ((b.drop (4 * i)).take 4))

/-! ## Clause headers (R184 to R186) -/

/-- Whether an agent may run clauses of a class (R160, R185). -/
def classFor (agent : Agent) (cls : Nat) : Bool :=
  match agent with
  | .group _ => cls != 4 && cls != 5 && cls != 7
  | .flume => cls == 0 || cls == 4
  | .sluice => cls == 0 || cls == 5

/-- Whether a header traps ILLEGAL_CLAUSE for an agent. -/
def badHeader (agent : Agent) (h : Word) : Bool :=
  bits h.toNat 31 28 == 0 || bits h.toNat 14 0 != 0 || !classFor agent (classOf h)

/-- Whether every counter that a selection names is at most a limit (R186, R229). -/
def countersAt (g : Group) (sel lim : Nat) : Bool :=
  (!bit sel 0 || g.ldcnt ≤ lim) && (!bit sel 1 || g.stcnt ≤ lim) && (!bit sel 2 || g.cpycnt ≤ lim) &&
    (!bit sel 3 || g.engcnt ≤ lim)

/-- The header word of a clause from its fields. -/
def headerWord (n : BitVec 4) (c : BitVec 3) (sel : BitVec 4) (l : BitVec 5) (y : Bool) : Word :=
  BitVec.ofNat 32 (n.toNat * 2 ^ 28 + c.toNat * 2 ^ 25 + sel.toNat * 2 ^ 21 + l.toNat * 2 ^ 16 + (if y then 2 ^ 15 else 0))

/-- A clause opened by a path at its header: the header's traps, its wait, then its words are fetched with it. -/
def openGroup (s : State) (e : Env) (h : Word) : Res :=
  if badHeader (.group e.g) h then illegalClause
  else if bits h.toNat 24 21 ≠ 0 && !countersAt e.grp (bits h.toNat 24 21) (bits h.toNat 20 16) then .again s
  else
    match fetch s e.team e.t (some e.g) e.p (e.path.pc.toNat + 4) (4 * bits h.toNat 31 28) with
    | .violation => accessViolation 0 (e.path.pc + 4)
    | .waiting s => .again s
    | .bytes b s => .placed (updPath s e.t e.g e.p fun p =>
        { p with pc := p.pc + 4, hold := none, clause := some ⟨p.pc, h, 0, wordsOf b, none⟩ })

/-- The same for a sequencer, which ignores WSEL, WLIM and YIELD (R188). -/
def openSeq (s : State) (e : SeqEnv) (h : Word) : Res :=
  if badHeader (if e.flume then .flume else .sluice) h then illegalClause
  else
    match fetch s e.team e.t none (if e.flume then 0 else 1) (e.seq.pc.toNat + 4) (4 * bits h.toNat 31 28) with
    | .violation => accessViolation 0 (e.seq.pc + 4)
    | .waiting s => .again s
    | .bytes b s => .placed (updSeq s e.t e.flume fun q =>
        { q with pc := q.pc + 4, hold := none, clause := some ⟨q.pc, h, 0, wordsOf b, none⟩ })

/-- CLAUSE_HEADER. -/
def execClauseHeader (n : BitVec 4) (c : BitVec 3) (sel : BitVec 4) (l : BitVec 5) (y : Bool) (s : State) : Out :=
  let h := headerWord n c sel l y
  match issuer s with
  | .nobody => .fault .noAgent
  | .group e => if e.path.clause.isSome then .fault .noAgent else finish false e s (openGroup s e h)
  | .seq e => if e.seq.clause.isSome then .fault .noAgent else finishSeq e s (openSeq s e h)

/-! ## The prefix word (R195) -/

/-- Whether a word may follow a prefix: a memory instruction or a word of a reserved major. -/
def mayFollowPfx (w : Word) : Bool :=
  let m := bits w.toNat 30 25
  m == 0x06 || (0x24 ≤ m && m ≤ 0x2B) || 0x38 ≤ m

/-- The prefix word with its fields. -/
def pfxWord (w : Bool) (o s p c : BitVec 3) : Word :=
  BitVec.ofNat 32 ((if w then 2 ^ 31 else 0) + 2 ^ 25 + o.toNat * 2 ^ 22 + s.toNat * 2 ^ 19 + p.toNat * 2 ^ 16 + c.toNat * 2 ^ 13)

/-- PFX: the prefix is held for the word that follows it; the path stays at the prefix until that word has taken effect. -/
def execPfx (w : Bool) (o sc p c : BitVec 3) (s : State) : Out :=
  runG .mem1 false s fun e =>
    match e.path.clause with
    | none => illegal 7
    | some cl =>
      if cl.pfx.isSome || !((cl.words.drop 1).head?.any mayFollowPfx) then illegal 7
      else .placed (updPath s e.t e.g e.p fun path =>
        { path with
          hold := none
          clause := some { cl with index := cl.index + 1, words := cl.words.drop 1, pfx := some (pfxWord w o sc p c) } })

/-! ## Reserved majors (R199 to R202) -/

/-- EMULATION_ENTRY: a path that reaches a word of a reserved major enters the handler, or the team stops. The words before it
have taken effect by then: their fixed-latency results land, and the path stands at the word until every other register
result of the group has returned. -/
def execEmulationEntry (word : Word) (s : State) : Out :=
  match issuer s with
  | .nobody => .fault .noAgent
  | .seq e => finishSeq e s (.trap 0x03 0 0)
  | .group e =>
    match e.path.clause with
    | none => .fault .noAgent
    | some c =>
      let vec := (s.ctx e.team.id.ctx).emuvec
      if vec.getLsbD 0 && e.grp.emu.isNone then
        let s := landAll s e.t e.g
        if outstanding s e.t e.g then finish false e s (.again s)
        else match issuer s with
          | .group e => .next (enterEmulation s e c word vec)
          | _ => .fault .noAgent
      else finish false e s (.trap 0x03 0 0)

end Sys2Proof.Machine
end

