-- ==== Sys2Proof/Machine/Scalar.lean ====
section
/-! DEFINITION. The scalar instructions: majors 0x02 to 0x05 and 0x07 (R204 to R216). -/

namespace Sys2Proof.Machine

/-! ## Shared -/

/-- A scalar word of a group or a sequencer (R204): `f` reads registers and gives the registers written, in order. A
sequencer has `s0` to `s31` only (R160); `regs` are the registers the word names. -/
def runS (w : Bool) (s : State) (regs : List Nat) (f : (Nat → Word) → List (Nat × Word)) : Out :=
  runX .any0 w s
    (fun e => .done ((f (readS e.grp e.path)).foldl (fun s rv => writeS s e.t e.g e.p rv.1 rv.2) s))
    (fun q =>
      if regs.any (31 < ·) then illegal 3
      else .done ((f q.s).foldl (fun s rv => q.setS s rv.1 rv.2) s))

/-- The pair that starts at register r, through a reader. -/
def pairAt (rd : Nat → Word) (r : Nat) : Dword := pair (rd r) (rd (r + 1))

/-- The two writes of SetPair (R205). -/
def pairOut (r : Nat) (v : Dword) : List (Nat × Word) := [(r, lowWord v), (r + 1, highWord v)]

/-- A 32-bit result of two registers. -/
def s3 (w : Bool) (d a b : BitVec 6) (s : State) (f : Word → Word → Word) : Out :=
  runS w s [d.toNat, a.toNat, b.toNat] fun rd => [(d.toNat, f (rd a.toNat) (rd b.toNat))]

/-- A 64-bit result of two pairs. -/
def s3p (w : Bool) (d a b : BitVec 6) (s : State) (f : Dword → Dword → Dword) : Out :=
  runS w s [d.toNat, a.toNat, b.toNat] fun rd => pairOut d.toNat (f (pairAt rd a.toNat) (pairAt rd b.toNat))

/-- A 64-bit result of a pair and a register. -/
def s3ps (w : Bool) (d a b : BitVec 6) (s : State) (f : Dword → Word → Dword) : Out :=
  runS w s [d.toNat, a.toNat, b.toNat] fun rd => pairOut d.toNat (f (pairAt rd a.toNat) (rd b.toNat))

/-- A 32-bit result of one register. -/
def s2 (w : Bool) (d a : BitVec 6) (s : State) (f : Word → Word) : Out :=
  runS w s [d.toNat, a.toNat] fun rd => [(d.toNat, f (rd a.toNat))]

/-- A 64-bit result of one pair. -/
def s2p (w : Bool) (d a : BitVec 6) (s : State) (f : Dword → Dword) : Out :=
  runS w s [d.toNat, a.toNat] fun rd => pairOut d.toNat (f (pairAt rd a.toNat))

/-- A 32-bit result of one pair. -/
def s2q (w : Bool) (d a : BitVec 6) (s : State) (f : Dword → Word) : Out :=
  runS w s [d.toNat, a.toNat] fun rd => [(d.toNat, f (pairAt rd a.toNat))]

/-- Slice clocks from a division to the next word of its agent (R208). -/
def divClocks (core : Nat) : Nat := if isLCore core then 6 else 12

/-- A division or remainder of two registers: its result, and the clocks before the agent's next word (R207, R208). -/
def divWord (w : Bool) (d a b : BitVec 6) (s : State) (f : Word → Word → Word) : Out :=
  runX .any0 w s
    (fun e => .done (updGroup (e.setS s d (f (e.s a) (e.s b))) e.t e.g fun grp => { grp with busy := divClocks e.team.id.core }))
    (fun q =>
      if [d.toNat, a.toNat, b.toNat].any (31 < ·) then illegal 3
      else .done (updSeq (q.setS s d.toNat (f (q.s a.toNat) (q.s b.toNat))) q.t q.flume fun x => { x with busy := divClocks q.team.id.core }))

/-! ## Division and shifts (R207) -/

/-- Signed quotient: truncated; −1 for a zero divisor; −2^31 / −1 wraps to −2^31. -/
def divI (a b : Word) : Word := if b.toInt = 0 then wrap32 (-1) else wrap32 (a.toInt.tdiv b.toInt)
/-- Natural quotient: all ones for a zero divisor. -/
def divN (a b : Word) : Word := if b.toNat = 0 then 0xFFFFFFFF else BitVec.ofNat 32 (a.toNat / b.toNat)
/-- Signed remainder with the dividend's sign; the dividend for a zero divisor. -/
def remI (a b : Word) : Word := if b.toInt = 0 then a else wrap32 (a.toInt - a.toInt.tdiv b.toInt * b.toInt)
/-- Natural remainder; the dividend for a zero divisor. -/
def remN (a b : Word) : Word := if b.toNat = 0 then a else BitVec.ofNat 32 (a.toNat % b.toNat)

/-- Left shift by a natural amount: 0 at the width and above. -/
def shlV {n : Nat} (v : BitVec n) (k : Nat) : BitVec n := if k < n then BitVec.ofNat n (v.toNat * 2 ^ k) else 0
/-- Logical right shift. -/
def shrV {n : Nat} (v : BitVec n) (k : Nat) : BitVec n := if k < n then BitVec.ofNat n (v.toNat / 2 ^ k) else 0
/-- Arithmetic right shift: all copies of the top bit at the width and above. -/
def sraV {n : Nat} (v : BitVec n) (k : Nat) : BitVec n :=
  if k < n then BitVec.ofInt n (v.toInt / (2 ^ k : Nat)) else if v.getLsbD (n - 1) then BitVec.allOnes n else 0

/-- The lesser and the greater under the signed and the natural reading. -/
def minI (a b : Word) : Word := if b.toInt < a.toInt then b else a
def maxI (a b : Word) : Word := if a.toInt < b.toInt then b else a
def minN (a b : Word) : Word := if b.toNat < a.toNat then b else a
def maxN (a b : Word) : Word := if a.toNat < b.toNat then b else a

/-! ## Counts and fields (R214, R215) -/

/-- The number of 1 bits. -/
def popc {n : Nat} (v : BitVec n) : Nat := ((List.range n).filter fun i => v.getLsbD i).length
/-- The number of 0 bits above the highest 1 bit. -/
def clzV {n : Nat} (v : BitVec n) : Nat := ((List.range n).find? fun i => v.getLsbD (n - 1 - i)).getD n
/-- The number of 0 bits below the lowest 1 bit. -/
def ctzV {n : Nat} (v : BitVec n) : Nat := ((List.range n).find? fun i => v.getLsbD i).getD n
/-- The bits in the other order. -/
def brevV (v : Word) : Word :=
  BitVec.ofNat 32 ((List.range 32).foldl (fun x i => if v.getLsbD i then x + 2 ^ (31 - i) else x) 0)

/-- Position and width of a field, from register sb (R215). -/
def fieldPos (b : Word) : Nat := bits b.toNat 4 0
def fieldWidth (b : Word) : Nat := min (bits b.toNat 13 8) 32

/-- The field's bits. -/
def fieldOf (a b : Word) : Nat := (a.toNat / 2 ^ fieldPos b) % 2 ^ fieldWidth b

def bfxI (a b : Word) : Word :=
  let w := fieldWidth b
  let f := fieldOf a b
  if 0 < w && bit f (w - 1) then wrap32 ((f : Int) - (2 ^ w : Nat)) else BitVec.ofNat 32 f

def bfiV (d a b : Word) : Word :=
  let m : Word := BitVec.ofNat 32 ((2 ^ fieldWidth b - 1) * 2 ^ fieldPos b)
  (d &&& ~~~m) ||| (BitVec.ofNat 32 (a.toNat * 2 ^ fieldPos b) &&& m)

/-- A condition of R212 over integers: 0 eq, 1 ne, 2 lt, 3 le, 4 gt, 5 ge. -/
def condHolds (c : Nat) (a b : Int) : Bool :=
  match c with
  | 0 => a == b
  | 1 => a != b
  | 2 => a < b
  | 3 => a ≤ b
  | 4 => b < a
  | 5 => b ≤ a
  | _ => false

/-- 1 for a condition that holds, 0 otherwise. -/
def boolWord (b : Bool) : Word := if b then 1 else 0

/-! ## Major 0x02 (R206, R207) -/

def execSadd (w : Bool) (d a b : BitVec 6) (s : State) : Out := s3 w d a b s fun x y => x + y
def execSsub (w : Bool) (d a b : BitVec 6) (s : State) : Out := s3 w d a b s fun x y => x - y
def execSmul (w : Bool) (d a b : BitVec 6) (s : State) : Out := s3 w d a b s fun x y => x * y
def execSmulwI32 (w : Bool) (d a b : BitVec 6) (s : State) : Out :=
  runS w s [d.toNat, a.toNat, b.toNat] fun rd => pairOut d.toNat (wrap64 ((rd a.toNat).toInt * (rd b.toNat).toInt))
def execSmulwN32 (w : Bool) (d a b : BitVec 6) (s : State) : Out :=
  runS w s [d.toNat, a.toNat, b.toNat] fun rd => pairOut d.toNat (BitVec.ofNat 64 ((rd a.toNat).toNat * (rd b.toNat).toNat))
def execSdivI32 (w : Bool) (d a b : BitVec 6) (s : State) : Out := divWord w d a b s divI
def execSdivN32 (w : Bool) (d a b : BitVec 6) (s : State) : Out := divWord w d a b s divN
def execSremI32 (w : Bool) (d a b : BitVec 6) (s : State) : Out := divWord w d a b s remI
def execSremN32 (w : Bool) (d a b : BitVec 6) (s : State) : Out := divWord w d a b s remN
def execSand (w : Bool) (d a b : BitVec 6) (s : State) : Out := s3 w d a b s fun x y => x &&& y
def execSor (w : Bool) (d a b : BitVec 6) (s : State) : Out := s3 w d a b s fun x y => x ||| y
def execSxor (w : Bool) (d a b : BitVec 6) (s : State) : Out := s3 w d a b s fun x y => x ^^^ y
def execSandn (w : Bool) (d a b : BitVec 6) (s : State) : Out := s3 w d a b s fun x y => x &&& ~~~y
def execSshl (w : Bool) (d a b : BitVec 6) (s : State) : Out := s3 w d a b s fun x y => shlV x y.toNat
def execSshr (w : Bool) (d a b : BitVec 6) (s : State) : Out := s3 w d a b s fun x y => shrV x y.toNat
def execSsra (w : Bool) (d a b : BitVec 6) (s : State) : Out := s3 w d a b s fun x y => sraV x y.toNat
def execSminI32 (w : Bool) (d a b : BitVec 6) (s : State) : Out := s3 w d a b s minI
def execSminN32 (w : Bool) (d a b : BitVec 6) (s : State) : Out := s3 w d a b s minN
def execSmaxI32 (w : Bool) (d a b : BitVec 6) (s : State) : Out := s3 w d a b s maxI
def execSmaxN32 (w : Bool) (d a b : BitVec 6) (s : State) : Out := s3 w d a b s maxN
def execSaddB64 (w : Bool) (d a b : BitVec 6) (s : State) : Out := s3p w d a b s fun x y => x + y
def execSsubB64 (w : Bool) (d a b : BitVec 6) (s : State) : Out := s3p w d a b s fun x y => x - y
def execSmulB64 (w : Bool) (d a b : BitVec 6) (s : State) : Out := s3p w d a b s fun x y => x * y
def execSaddwI32 (w : Bool) (d a b : BitVec 6) (s : State) : Out := s3ps w d a b s fun x y => x + wrap64 y.toInt
def execSaddwN32 (w : Bool) (d a b : BitVec 6) (s : State) : Out := s3ps w d a b s fun x y => x + BitVec.ofNat 64 y.toNat
def execSshlB64 (w : Bool) (d a b : BitVec 6) (s : State) : Out := s3ps w d a b s fun x y => shlV x y.toNat
def execSshrB64 (w : Bool) (d a b : BitVec 6) (s : State) : Out := s3ps w d a b s fun x y => shrV x y.toNat
def execSsraB64 (w : Bool) (d a b : BitVec 6) (s : State) : Out := s3ps w d a b s fun x y => sraV x y.toNat
def execSandB64 (w : Bool) (d a b : BitVec 6) (s : State) : Out := s3p w d a b s fun x y => x &&& y
def execSorB64 (w : Bool) (d a b : BitVec 6) (s : State) : Out := s3p w d a b s fun x y => x ||| y
def execSxorB64 (w : Bool) (d a b : BitVec 6) (s : State) : Out := s3p w d a b s fun x y => x ^^^ y

/-! ## Immediates, majors 0x03 and 0x04 (R209, R210) -/

def execSaddi (w : Bool) (d a : BitVec 6) (i : BitVec 12) (s : State) : Out := s2 w d a s fun x => x + i.signExtend 32
def execSaddiB64 (w : Bool) (d a : BitVec 6) (i : BitVec 12) (s : State) : Out := s2p w d a s fun x => x + i.signExtend 64
def execSmovl (w : Bool) (d : BitVec 6) (i : BitVec 16) (s : State) : Out :=
  runS w s [d.toNat] fun _ => [(d.toNat, i.setWidth 32)]
def execSmovh (w : Bool) (d : BitVec 6) (i : BitVec 16) (s : State) : Out := s2 w d d s fun x => i ++ x.extractLsb' 0 16
def execSmovs (w : Bool) (d : BitVec 6) (i : BitVec 16) (s : State) : Out :=
  runS w s [d.toNat] fun _ => [(d.toNat, i.signExtend 32)]

/-! ## Compares and selects, major 0x05 (R212, R213) -/

def execScmpI32 (w : Bool) (c : BitVec 3) (d a b : BitVec 6) (s : State) : Out :=
  s3 w d a b s fun x y => boolWord (condHolds c.toNat x.toInt y.toInt)
def execScmpN32 (w : Bool) (c : BitVec 3) (d a b : BitVec 6) (s : State) : Out :=
  s3 w d a b s fun x y => boolWord (condHolds c.toNat x.toNat y.toNat)
def execScmpB64 (w : Bool) (c : BitVec 3) (d a b : BitVec 6) (s : State) : Out :=
  runS w s [d.toNat, a.toNat, b.toNat] fun rd =>
    [(d.toNat, boolWord (condHolds c.toNat (pairAt rd a.toNat).toNat (pairAt rd b.toNat).toNat))]
def execSsel (w : Bool) (d a b : BitVec 6) (s : State) : Out :=
  runS w s [d.toNat, a.toNat, b.toNat] fun rd => [(d.toNat, if rd d.toNat ≠ 0 then rd a.toNat else rd b.toNat)]
def execSselB64 (w : Bool) (d a b : BitVec 6) (s : State) : Out :=
  runS w s [d.toNat, a.toNat, b.toNat] fun rd =>
    pairOut d.toNat (if pairAt rd d.toNat ≠ 0 then pairAt rd a.toNat else pairAt rd b.toNat)

/-! ## Bit fields, major 0x07 (R214, R215) -/

def execSshli (w : Bool) (d a n : BitVec 6) (s : State) : Out := s2 w d a s fun x => shlV x n.toNat
def execSshri (w : Bool) (d a n : BitVec 6) (s : State) : Out := s2 w d a s fun x => shrV x n.toNat
def execSsrai (w : Bool) (d a n : BitVec 6) (s : State) : Out := s2 w d a s fun x => sraV x n.toNat
def execSbfxN32 (w : Bool) (d a b : BitVec 6) (s : State) : Out := s3 w d a b s fun x y => BitVec.ofNat 32 (fieldOf x y)
def execSbfxI32 (w : Bool) (d a b : BitVec 6) (s : State) : Out := s3 w d a b s bfxI
def execSbfi (w : Bool) (d a b : BitVec 6) (s : State) : Out :=
  runS w s [d.toNat, a.toNat, b.toNat] fun rd => [(d.toNat, bfiV (rd d.toNat) (rd a.toNat) (rd b.toNat))]
def execSpopc (w : Bool) (d a : BitVec 6) (s : State) : Out := s2 w d a s fun x => BitVec.ofNat 32 (popc x)
def execSclz (w : Bool) (d a : BitVec 6) (s : State) : Out := s2 w d a s fun x => BitVec.ofNat 32 (clzV x)
def execSctz (w : Bool) (d a : BitVec 6) (s : State) : Out := s2 w d a s fun x => BitVec.ofNat 32 (ctzV x)
def execSbrev (w : Bool) (d a : BitVec 6) (s : State) : Out := s2 w d a s brevV
def execSshliB64 (w : Bool) (d a n : BitVec 6) (s : State) : Out := s2p w d a s fun x => shlV x n.toNat
def execSshriB64 (w : Bool) (d a n : BitVec 6) (s : State) : Out := s2p w d a s fun x => shrV x n.toNat
def execSsraiB64 (w : Bool) (d a n : BitVec 6) (s : State) : Out := s2p w d a s fun x => sraV x n.toNat
def execSpopcB64 (w : Bool) (d a : BitVec 6) (s : State) : Out := s2q w d a s fun x => BitVec.ofNat 32 (popc x)
def execSclzB64 (w : Bool) (d a : BitVec 6) (s : State) : Out := s2q w d a s fun x => BitVec.ofNat 32 (clzV x)
def execSctzB64 (w : Bool) (d a : BitVec 6) (s : State) : Out := s2q w d a s fun x => BitVec.ofNat 32 (ctzV x)

end Sys2Proof.Machine
end

