-- ==== Sys2Proof/Machine/Flags.lean ====
section
/-! DEFINITION. Number formats and exact arithmetic (R130 to R150) with the exception flags of R151: decoding, the one
rounding function, conversions, arithmetic, compares, quantisation and the special functions. Every value is exact
until a rounding names a format. -/

namespace Sys2Proof.Machine

/-! ## Flags (R151), as bits of a number -/

def NX : Nat := 1
def UF : Nat := 2
def OF : Nat := 4
def DZ : Nat := 8
def NV : Nat := 16
def TRIT_BAD : Nat := 32

/-! ## Formats (R130, R131) -/

/-- A floating-point format: widths, whether it has infinities, whether it has NaNs. -/
structure Fmt where
  ebits : Nat
  mbits : Nat
  bias : Nat
  hasInf : Bool
  hasNan : Bool
  /-- The largest finite code without its sign. -/
  maxCode : Nat
  /-- The canonical NaN (R131). -/
  nan : Nat
  deriving DecidableEq, Repr

def Fmt.f64 : Fmt := ⟨11, 52, 1023, true, true, 0x7FEFFFFFFFFFFFFF, 0x7FF8000000000000⟩
def Fmt.f32 : Fmt := ⟨8, 23, 127, true, true, 0x7F7FFFFF, 0x7FC00000⟩
def Fmt.bf16 : Fmt := ⟨8, 7, 127, true, true, 0x7F7F, 0x7FC0⟩
def Fmt.f16 : Fmt := ⟨5, 10, 15, true, true, 0x7BFF, 0x7E00⟩
def Fmt.e5m2 : Fmt := ⟨5, 2, 15, true, true, 0x7B, 0x7E⟩
def Fmt.e4m3 : Fmt := ⟨4, 3, 7, false, true, 0x7E, 0x7F⟩
def Fmt.e2m1 : Fmt := ⟨2, 1, 1, false, false, 0x7, 0⟩

/-- The weight of the sign bit. -/
def Fmt.signBit (f : Fmt) : Nat := 2 ^ (f.ebits + f.mbits)

/-- The exponent of the smallest subnormal. -/
def Fmt.qmin (f : Fmt) : Int := 1 - f.bias - f.mbits

/-- The code of infinity, without its sign. -/
def Fmt.inf (f : Fmt) : Nat := f.maxCode + 1

/-- An exact value: NaN, an infinity, or ± num / den × 2^e with den not 0. A zero keeps its sign. -/
inductive FV where
  | nan
  | inf (neg : Bool)
  | fin (neg : Bool) (num den : Nat) (e : Int)
  deriving DecidableEq, Repr

/-- A zero of a sign. -/
def FV.zero (neg : Bool) : FV := .fin neg 0 1 0

/-- An integer. -/
def FV.int (x : Int) : FV := .fin (x < 0) x.natAbs 1 0

/-- Whether a value is a zero. -/
def FV.isZero : FV → Bool
  | .fin _ n _ _ => n == 0
  | _ => false

def FV.isNan : FV → Bool
  | .nan => true
  | _ => false

def FV.isInf : FV → Bool
  | .inf _ => true
  | _ => false

/-- The sign; false for NaN. -/
def FV.sign : FV → Bool
  | .nan => false
  | .inf s => s
  | .fin s _ _ _ => s

/-- The same with its sign inverted. -/
def FV.negate : FV → FV
  | .nan => .nan
  | .inf s => .inf (!s)
  | .fin s n d e => .fin (!s) n d e

/-- The value of a code (R130). -/
def decode (f : Fmt) (code : Nat) : FV :=
  let s := bit code (f.ebits + f.mbits)
  let mag := code % f.signBit
  let ef := mag / 2 ^ f.mbits
  let m := mag % 2 ^ f.mbits
  if f.hasNan && f.inf < mag then .nan
  else if f.hasInf && mag == f.inf then .inf s
  else if f.hasNan && !f.hasInf && mag == f.nan then .nan
  else if ef = 0 then .fin s m 1 f.qmin
  else .fin s (2 ^ f.mbits + m) 1 (f.qmin + (ef - 1 : Nat))

/-! ## Rounding (R139) -/

/-- The rounding modes, coded as in R265. -/
inductive Mode where
  | rne | rtz | rup | rdn
  deriving DecidableEq, Repr

def modeOf (n : Nat) : Mode := match n with | 1 => .rtz | 2 => .rup | 3 => .rdn | _ => .rne

/-- num / den rounded to a natural number, with whether it is inexact. -/
def roundNat (mode : Mode) (neg : Bool) (num den : Nat) : Nat × Bool :=
  let q := num / den
  let r := num % den
  let up := match mode with
    | .rne => den < 2 * r || (2 * r == den && q % 2 == 1)
    | .rtz => false
    | .rup => !neg && r != 0
    | .rdn => neg && r != 0
  (if up then q + 1 else q, r != 0)

/-- num / den × 2^e, divided by 2^q, as a fraction. -/
def scaleTo (num den : Nat) (e q : Int) : Nat × Nat :=
  if q ≤ e then (num * 2 ^ (e - q).toNat, den) else (num, den * 2 ^ (q - e).toNat)

/-- floor(log2 (num / den × 2^e)) of a nonzero value. -/
def floorLog (num den : Nat) (e : Int) : Int :=
  let l : Int := (num.log2 : Int) - den.log2
  let (n, d) := scaleTo num den 0 l
  (if n < d then l - 1 else l) + e

/-- The magnitude code of a nonzero finite value with an unbounded exponent upward, with its inexactness and whether it
is tiny after rounding. -/
def roundMag (f : Fmt) (mode : Mode) (neg : Bool) (num den : Nat) (e : Int) : Nat × Bool × Bool :=
  let l := floorLog num den e
  let q := max (l - f.mbits) f.qmin
  let (n, d) := scaleTo num den e q
  let (m, inexact) := roundNat mode neg n d
  let tiny :=
    if f.qmin + f.mbits ≤ l then false
    else
      let q' := l - f.mbits
      let (n', d') := scaleTo num den e q'
      let (m', _) := roundNat mode neg n' d'
      q' + m'.log2 < f.qmin + f.mbits
  ((q - f.qmin).toNat * 2 ^ f.mbits + m, inexact, tiny)

/-- A magnitude code with its sign. -/
def signed' (f : Fmt) (neg : Bool) (mag : Nat) : Nat := if neg then mag + f.signBit else mag

/-- Whether a mode carries an overflow of this sign to infinity. -/
def Mode.toInf (m : Mode) (neg : Bool) : Bool :=
  match m with
  | .rne => true
  | .rtz => false
  | .rup => !neg
  | .rdn => neg

/-- Flags of an inexact result. -/
def inexactFlags (inexact tiny : Bool) : Nat := if inexact then (if tiny then NX + UF else NX) else 0

/-- Round(fmt, mode, v) as IEEE 754-2019 does: the code and the flags. -/
def round (f : Fmt) (mode : Mode) : FV → Nat × Nat
  | .nan => (f.nan, 0)
  | .inf s => (signed' f s f.inf, 0)
  | .fin s num den e =>
    if num = 0 then (signed' f s 0, 0)
    else
      let (mag, inexact, tiny) := roundMag f mode s num den e
      if f.maxCode < mag then (signed' f s (if mode.toInf s then f.inf else f.maxCode), OF + NX)
      else (signed' f s mag, inexactFlags inexact tiny)

/-- RoundFP32 (R139): the value, without flags. -/
def r32 (v : FV) : FV := decode Fmt.f32 (round Fmt.f32 .rne v).1

/-! ## Conversions (R140, R141) -/

/-- Convert(fmt, mode, v) from floating point to floating point, with the `.nsat` column. -/
def convert (f : Fmt) (mode : Mode) (nsat : Bool) : FV → Nat × Nat
  | .nan => if f.hasNan then (f.nan, 0) else (0, NV)
  | .inf s =>
    if f.hasInf then (signed' f s f.inf, 0)
    else if nsat && f.hasNan then (f.nan, 0)
    else (signed' f s f.maxCode, OF + NX)
  | .fin s num den e =>
    if num = 0 then (signed' f s 0, 0)
    else
      let (mag, inexact, tiny) := roundMag f mode s num den e
      if f.maxCode < mag then
        if !nsat || !f.hasNan then (signed' f s f.maxCode, OF + NX)
        else if f.hasInf then (signed' f s (if mode.toInf s then f.inf else f.maxCode), OF + NX)
        else (f.nan, OF + NX)
      else (signed' f s mag, inexactFlags inexact tiny)

/-- A value rounded to an integer and clamped to lo … hi (R141). -/
def toInt (mode : Mode) (lo hi : Int) : FV → Int × Nat
  | .nan => (0, NV)
  | .inf s => (if s then lo else hi, NV)
  | .fin s num den e =>
    let (n, d) := scaleTo num den e 0
    let (m, inexact) := roundNat mode s n d
    let x : Int := if s then -(m : Int) else m
    if x < lo then (lo, NV) else if hi < x then (hi, NV) else (x, if inexact then NX else 0)

/-! ## Arithmetic (R139) -/

/-- The sign of an exact zero sum of two addends. -/
def zeroSign (mode : Mode) (a b : Bool) : Bool := if a == b then a else mode == .rdn

/-- The exact sum of two values and its flags; the mode gives the sign of an exact zero. -/
def fadd (mode : Mode) : FV → FV → FV × Nat
  | .nan, _ => (.nan, 0)
  | _, .nan => (.nan, 0)
  | .inf a, .inf b => if a == b then (.inf a, 0) else (.nan, NV)
  | .inf a, _ => (.inf a, 0)
  | _, .inf b => (.inf b, 0)
  | .fin s1 n1 d1 e1, .fin s2 n2 d2 e2 =>
    let e := min e1 e2
    let a : Int := n1 * d2 * 2 ^ (e1 - e).toNat
    let b : Int := n2 * d1 * 2 ^ (e2 - e).toNat
    let x := (if s1 then -a else a) + (if s2 then -b else b)
    if x = 0 then
      (FV.zero (if n1 == 0 && n2 == 0 then zeroSign mode s1 s2 else mode == .rdn), 0)
    else (.fin (x < 0) x.natAbs (d1 * d2) e, 0)

/-- The exact product. -/
def fmul : FV → FV → FV × Nat
  | .nan, _ => (.nan, 0)
  | _, .nan => (.nan, 0)
  | .inf a, .inf b => (.inf (a != b), 0)
  | .inf a, .fin s n _ _ => if n = 0 then (.nan, NV) else (.inf (a != s), 0)
  | .fin s n _ _, .inf b => if n = 0 then (.nan, NV) else (.inf (s != b), 0)
  | .fin s1 n1 d1 e1, .fin s2 n2 d2 e2 => (.fin (s1 != s2) (n1 * n2) (d1 * d2) (e1 + e2), 0)

/-- The exact quotient. -/
def fdiv : FV → FV → FV × Nat
  | .nan, _ => (.nan, 0)
  | _, .nan => (.nan, 0)
  | .inf _, .inf _ => (.nan, NV)
  | .inf a, .fin s _ _ _ => (.inf (a != s), 0)
  | .fin s _ _ _, .inf b => (FV.zero (s != b), 0)
  | .fin s1 n1 d1 e1, .fin s2 n2 d2 e2 =>
    if n2 = 0 then (if n1 = 0 then (.nan, NV) else (.inf (s1 != s2), DZ))
    else (.fin (s1 != s2) (n1 * d2) (d1 * n2) (e1 - e2), 0)

/-- floor(√n) by its bits, for n below 2^(2k). -/
def isqrt (k n : Nat) : Nat := (List.range k).reverse.foldl (fun r i => if (r + 2 ^ i) ^ 2 ≤ n then r + 2 ^ i else r) 0

/-- A square root with enough bits that rounding it to 32 or 64 bits is rounding the exact root (R147). -/
def fsqrt : FV → FV × Nat
  | .nan => (.nan, 0)
  | .inf s => if s then (.nan, NV) else (.inf false, 0)
  | .fin s num den e =>
    if num = 0 then (.fin s num den e, 0)
    else if s then (.nan, NV)
    else
      let e' : Int := if e % 2 = 0 then e - 160 else e - 161
      let n := num * 2 ^ (e - e').toNat / den
      let r := isqrt 400 n
      let exact := r * r == n && n * den == num * 2 ^ (e - e').toNat
      (.fin false (2 * r + if exact then 0 else 1) 1 (e' / 2 - 1), 0)

/-- A × B + C, exact (R269). -/
def ffma (mode : Mode) (a b c : FV) : FV × Nat :=
  let (p, f) := fmul a b
  let (x, g) := fadd mode p c
  (x, f ||| (if p.isNan then 0 else g))

/-- A rounded operation: code and flags together. -/
def rounded (f : Fmt) (mode : Mode) (x : FV × Nat) : Nat × Nat :=
  let (c, g) := round f mode x.1
  (c, x.2 ||| g)

/-- An exact sum of many values (R142, R270): NaN for a NaN or for infinities of both signs. NV is set by infinities of both
signs, in whatever order they stand. Where a NaN stands beside them R142 gives the NaN result and names no flag: DESIGN CHOICE
(log entry 52), NV is set there too, as R270 says of its own sum. -/
def sumExact (vs : List FV) : FV × Nat :=
  let clash := vs.contains (.inf false) && vs.contains (.inf true)
  let sum := vs.foldl (fun acc v => (fadd .rne acc v).1) (FV.zero ((vs.head?.map FV.sign).getD false))
  (if clash then .nan else sum, if clash then NV else 0)

/-- -1, 0 or 1 as the first is less, equal or greater; for values that are not NaN. -/
def fcmp (a b : FV) : Int :=
  match a, b with
  | .inf x, .inf y => if x == y then 0 else if x then -1 else 1
  | .inf x, _ => if x then -1 else 1
  | _, .inf y => if y then 1 else -1
  | .fin s1 n1 d1 e1, .fin s2 n2 d2 e2 =>
    let e := min e1 e2
    let x : Int := n1 * d2 * 2 ^ (e1 - e).toNat
    let y : Int := n2 * d1 * 2 ^ (e2 - e).toNat
    let x := if s1 then -x else x
    let y := if s2 then -y else y
    if x < y then -1 else if y < x then 1 else 0
  | _, _ => 0

/-- COND of R278: 0 eq, 1 ne, 2 lt, 3 le, 4 gt, 5 ge, 6 un. -/
def fcond (c : Nat) (a b : FV) : Bool :=
  if a.isNan || b.isNan then c == 1 || c == 6
  else
    match c with
    | 0 => fcmp a b == 0
    | 1 => fcmp a b != 0
    | 2 => fcmp a b == -1
    | 3 => fcmp a b != 1
    | 4 => fcmp a b == 1
    | 5 => fcmp a b != -1
    | _ => false

/-- FMin and FMax (R266): −0 below +0; a NaN gives the other. -/
def fmin (a b : FV) : FV :=
  if a.isNan then b else if b.isNan then a
  else if fcmp a b == 0 then (if a.sign then a else b) else if fcmp a b == -1 then a else b

def fmax (a b : FV) : FV :=
  if a.isNan then b else if b.isNan then a
  else if fcmp a b == 0 then (if a.sign then b else a) else if fcmp a b == 1 then a else b

/-- The class of a code for R279: 0 NaN, 1 infinity, 2 normal, 3 subnormal, 4 zero. -/
def fclass (f : Fmt) (code : Nat) : Nat :=
  match decode f code with
  | .nan => 0
  | .inf _ => 1
  | .fin _ n _ _ => if n = 0 then 4 else if code % f.signBit < 2 ^ f.mbits then 3 else 2

/-- The class test with mask k (R279). -/
def classTest (f : Fmt) (code k : Nat) : Bool :=
  let s := bit code (f.ebits + f.mbits)
  bit k (fclass f code) && (match bits k 6 5 with | 0 => true | 1 => !s | 2 => s | _ => false)

/-! ## S10 scales and compand tables (R135 to R138) -/

/-- The value of an S10 scale. -/
def s10 (x : Nat) : FV :=
  let e := bits x 9 2
  let m := bits x 1 0
  if e = 255 then .nan
  else if e = 0 then .fin false m 1 (-128)
  else .fin false (4 + m) 1 ((e : Int) - 129)

/-- A compand table's breakpoints as values: (x_i, y_i). -/
abbrev Compand := List (Word × Word)

/-- The segment of an input: the largest i with x_i ≤ v, within 0 … 15. -/
def segment (xs : List FV) (v : FV) : Nat :=
  (List.range 16).foldl (fun n i => if fcmp (xs.getD i .nan) v != 1 then i else n) 0

/-- Piecewise-linear interpolation, exact, rounded once to FP32. -/
def interp (xs ys : List FV) (v : FV) : FV × Nat :=
  match v with
  | .nan => (.nan, 0)
  | .inf s => (.inf s, 0)
  | _ =>
    let i := segment xs v
    let x0 := xs.getD i .nan
    let y0 := ys.getD i .nan
    let dy := (fadd .rne (ys.getD (i + 1) .nan) y0.negate).1
    let dx := (fadd .rne (xs.getD (i + 1) .nan) x0.negate).1
    let t := (fadd .rne v x0.negate).1
    let (c, g) := round Fmt.f32 .rne (fadd .rne y0 (fdiv (fmul dy t).1 dx).1).1
    (decode Fmt.f32 c, g)

/-- f and its inverse (R138). -/
def compandF (t : Compand) (v : FV) : FV × Nat :=
  interp (t.map fun e => decode Fmt.f32 e.1.toNat) (t.map fun e => decode Fmt.f32 e.2.toNat) v
def compandInv (t : Compand) (v : FV) : FV × Nat :=
  interp (t.map fun e => decode Fmt.f32 e.2.toNat) (t.map fun e => decode Fmt.f32 e.1.toNat) v

/-- The narrow formats of R275. -/
inductive Narrow where
  | e4m3 | e5m2 | e2m1 | i8 | t3
  deriving DecidableEq, Repr

/-- Bits of a code. -/
def Narrow.width : Narrow → Nat
  | .e4m3 => 8 | .e5m2 => 8 | .e2m1 => 4 | .i8 => 8 | .t3 => 2

/-- Dec of a code (R130, R133, R275). -/
def Narrow.dec (n : Narrow) (c : Nat) : FV × Nat :=
  match n with
  | .e4m3 => (decode Fmt.e4m3 c, 0)
  | .e5m2 => (decode Fmt.e5m2 c, 0)
  | .e2m1 => (decode Fmt.e2m1 c, 0)
  | .i8 => (FV.int (Machine.signed 8 c), 0)
  | .t3 => if c = 3 then (FV.zero false, TRIT_BAD) else (FV.int ((c : Int) - 1), 0)

/-- Conversion of an FP32 value into a narrow code (R140, R141). -/
def Narrow.enc (n : Narrow) (mode : Mode) (nsat : Bool) (v : FV) : Nat × Nat :=
  match n with
  | .e4m3 => convert Fmt.e4m3 mode nsat v
  | .e5m2 => convert Fmt.e5m2 mode nsat v
  | .e2m1 => convert Fmt.e2m1 mode nsat v
  | .i8 => let (x, g) := toInt mode (-128) 127 v; ((x % 256).toNat, g)
  | .t3 => let (x, g) := toInt mode (-1) 1 v; ((x + 1).toNat, g)

/-- Quant (R138): division by the scale, the compand table, the conversion. -/
def quant (n : Narrow) (table : Option Compand) (mode : Mode) (nsat : Bool) (x s : FV) : Nat × Nat :=
  let (a, g1) := fdiv x s
  let (a, g2) := round Fmt.f32 .rne a
  let a := decode Fmt.f32 a
  let (b, g3) := match table with | some t => compandF t a | none => (a, 0)
  let (q, g4) := n.enc mode nsat b
  (q, g1 ||| g2 ||| g3 ||| g4)

/-- The value of a block element under a scale, computed exactly (R136): NaN under a NaN scale, a zero with the element's sign
under a zero scale. A NaN element is NaN (R138). -/
def blockValue (sc v : FV) : FV × Nat :=
  if sc.isNan || v.isNan then (.nan, 0) else if sc.isZero then (FV.zero v.sign, 0) else fmul sc v

/-- Dequant (R138, R136, R275) into an FP32 code. -/
def dequant (n : Narrow) (table : Option Compand) (c : Nat) (s : FV) : Nat × Nat :=
  let (d, g1) := n.dec c
  if s.isNan || d.isNan then (Fmt.f32.nan, g1)
  else if s.isZero then (signed' Fmt.f32 d.sign 0, g1)
  else
    let (v, g2) := match table with | some t => compandInv t d | none => (d, 0)
    let (x, g3) := fmul s v
    let (c, g4) := round Fmt.f32 .rne x
    (c, g1 ||| g2 ||| g3 ||| g4)

/-- Trit i of a `.t3` byte (R134), with TRIT_BAD for a byte of 243 to 255. -/
def tritOf (b i : Nat) : Int × Nat := if 243 ≤ b then (0, TRIT_BAD) else ((b / 3 ^ i % 3 : Nat) - 1, 0)

/-! ## Reductions and scans (R144, R145) -/

/-- One level of the tree: neighbours combined. -/
def treeLevel (op : FV → FV → FV × Nat) : List FV → List FV × Nat
  | a :: b :: rest =>
    let (x, g) := op a b
    let (xs, h) := treeLevel op rest
    (x :: xs, g ||| h)
  | xs => (xs, 0)

/-- Tree32: five levels over 32 values. -/
def tree32 (op : FV → FV → FV × Nat) (vs : List FV) : FV × Nat :=
  let r := (List.range 5).foldl (fun (acc : List FV × Nat) _ =>
    let (xs, g) := treeLevel op acc.1
    (xs, acc.2 ||| g)) (vs, 0)
  (r.1.headD .nan, r.2)

/-- The reduction over 96 values: three trees and two more combinations. -/
def reduce96 (op : FV → FV → FV × Nat) (vs : List FV) : FV × Nat :=
  let (a, ga) := tree32 op (vs.take 32)
  let (b, gb) := tree32 op ((vs.drop 32).take 32)
  let (c, gc) := tree32 op (vs.drop 64)
  let (ab, g1) := op a b
  let (abc, g2) := op ab c
  (abc, ga ||| gb ||| gc ||| g1 ||| g2)

/-- A rounded addition as a value. -/
def addR (f : Fmt) (mode : Mode) (a b : FV) : FV × Nat :=
  let (c, g) := rounded f mode (fadd mode a b)
  (decode f c, g)

/-! ## Special functions (R147 to R150) -/

/-- The value of an FP32 constant. -/
def k32 (c : Nat) : FV := decode Fmt.f32 c

def mul32 (a b : FV) : FV := r32 (fmul a b).1
def add32 (a b : FV) : FV := r32 (fadd .rne a b).1

/-- t × (c1 + t × (c2 + t × (c3 + t × c4))), every product and sum rounded (R148, log entry 12). -/
def horner (t : FV) (c1 c2 c3 c4 : Nat) : FV :=
  mul32 t (add32 (k32 c1) (mul32 t (add32 (k32 c2) (mul32 t (add32 (k32 c3) (mul32 t (k32 c4)))))))

/-- A nonnegative or negative integer nearest a finite value, ties to even. -/
def nearestInt : FV → Int
  | .fin s num den e =>
    let (n, d) := scaleTo num den e 0
    let (m, _) := roundNat .rne s n d
    if s then -(m : Int) else m
  | _ => 0

/-- A finite value times 2^k. -/
def FV.scale (v : FV) (k : Int) : FV :=
  match v with
  | .fin s n d e => .fin s n d (e + k)
  | x => x

/-- T[j] = RoundFP32(2^(j/64)) (R148). -/
def exp2T : List Nat :=
  [0x3F800000, 0x3F8164D2, 0x3F82CD87, 0x3F843A29, 0x3F85AAC3, 0x3F871F62, 0x3F88980F, 0x3F8A14D5, 0x3F8B95C2, 0x3F8D1ADF, 0x3F8EA43A, 0x3F9031DC, 0x3F91C3D3, 0x3F935A2B, 0x3F94F4F0, 0x3F96942D] ++
  [0x3F9837F0, 0x3F99E046, 0x3F9B8D3A, 0x3F9D3EDA, 0x3F9EF532, 0x3FA0B051, 0x3FA27043, 0x3FA43516, 0x3FA5FED7, 0x3FA7CD94, 0x3FA9A15B, 0x3FAB7A3A, 0x3FAD583F, 0x3FAF3B79, 0x3FB123F6, 0x3FB311C4] ++
  [0x3FB504F3, 0x3FB6FD92, 0x3FB8FBAF, 0x3FBAFF5B, 0x3FBD08A4, 0x3FBF179A, 0x3FC12C4D, 0x3FC346CD, 0x3FC5672A, 0x3FC78D75, 0x3FC9B9BE, 0x3FCBEC15, 0x3FCE248C, 0x3FD06334, 0x3FD2A81E, 0x3FD4F35B] ++
  [0x3FD744FD, 0x3FD99D16, 0x3FDBFBB8, 0x3FDE60F5, 0x3FE0CCDF, 0x3FE33F89, 0x3FE5B907, 0x3FE8396A, 0x3FEAC0C7, 0x3FED4F30, 0x3FEFE4BA, 0x3FF28177, 0x3FF5257D, 0x3FF7D0DF, 0x3FFA83B3, 0x3FFD3E0C]

/-- L[j] = RoundFP32(log2 c_j) with c_j = 1 + j/64 + 1/128 (R149). -/
def log2L : List Nat :=
  [0x3C37F286, 0x3D08E68F, 0x3D626FD6, 0x3D9D517F, 0x3DC8C50B, 0x3DF39761, 0x3E0EE68D, 0x3E23B550, 0x3E383A17, 0x3E4C76E8, 0x3E606DB6, 0x3E74205F, 0x3E83C857, 0x3E8D602E, 0x3E96D888, 0x3EA03232] ++
  [0x3EA96DF0, 0x3EB28C7F, 0x3EBB8E96, 0x3EC474E4, 0x3ECD4012, 0x3ED5F0C4, 0x3EDE8797, 0x3EE70525, 0x3EEF69FF, 0x3EF7B6B4, 0x3EFFEBCD, 0x3F0404E8, 0x3F08089E, 0x3F0C0146, 0x3F0FEF1F, 0x3F13D260] ++
  [0x3F17AB44, 0x3F1B7A00, 0x3F1F3ECA, 0x3F22F9D5, 0x3F26AB53, 0x3F2A5374, 0x3F2DF268, 0x3F31885C, 0x3F35157D, 0x3F3899F5, 0x3F3C15EE, 0x3F3F8991, 0x3F42F506, 0x3F465872, 0x3F49B3FB, 0x3F4D07C7] ++
  [0x3F5053F7, 0x3F5398AF, 0x3F56D60F, 0x3F5A0C3A, 0x3F5D3B4E, 0x3F60636A, 0x3F6384AD, 0x3F669F35, 0x3F69B31E, 0x3F6CC083, 0x3F6FC781, 0x3F72C832, 0x3F75C2B0, 0x3F78B714, 0x3F7BA578, 0x3F7E8DF2]

/-- Q[j] = RoundFP32(1 / c_j) (R149). -/
def log2Q : List Nat :=
  [0x3F7E03F8, 0x3F7A232D, 0x3F76603E, 0x3F72B9D6, 0x3F6F2EB7, 0x3F6BBDB3, 0x3F6865AC, 0x3F652598, 0x3F61FC78, 0x3F5EE95C, 0x3F5BEB62, 0x3F5901B2, 0x3F562B81, 0x3F53680D, 0x3F50B6A0, 0x3F4E168A] ++
  [0x3F4B8728, 0x3F4907DA, 0x3F46980C, 0x3F443730, 0x3F41E4BC, 0x3F3FA030, 0x3F3D6910, 0x3F3B3EE7, 0x3F392144, 0x3F370FBB, 0x3F3509E7, 0x3F330F63, 0x3F311FD4, 0x3F2F3ADE, 0x3F2D602B, 0x3F2B8F6A] ++
  [0x3F29C84A, 0x3F280A81, 0x3F2655C4, 0x3F24A9CF, 0x3F23065E, 0x3F216B31, 0x3F1FD80A, 0x3F1E4CAD, 0x3F1CC8E1, 0x3F1B4C70, 0x3F19D723, 0x3F1868C8, 0x3F17012E, 0x3F15A025, 0x3F144581, 0x3F12F114] ++
  [0x3F11A2B4, 0x3F105A38, 0x3F0F177A, 0x3F0DDA52, 0x3F0CA29C, 0x3F0B7034, 0x3F0A42F8, 0x3F091AC7, 0x3F07F781, 0x3F06D905, 0x3F05BF37, 0x3F04A9FA, 0x3F039930, 0x3F028CC0, 0x3F01848E, 0x3F008081]

/-- π × 2^400, rounded down: enough bits for the exact reduction of every FP32 argument (R150). -/
def piBits : Nat :=
  8112377246730971238862271351300894519161151600179265203591191037615230905373990498745523360926816815427566779727327576236

/-- vexp2 (R148): code and flags. -/
def exp2 (code : Nat) : Nat × Nat :=
  match decode Fmt.f32 code with
  | .nan => (Fmt.f32.nan, 0)
  | .inf s => (if s then 0 else Fmt.f32.inf, 0)
  | x =>
    if fcmp x (FV.int 128) != -1 then (Fmt.f32.inf, OF + NX)
    else if fcmp x (FV.int (-150)) == -1 then (0, UF + NX)
    else
      let n := nearestInt (x.scale 6)
      let j := n % 64
      let m := (n - j) / 64
      let f := (fadd .rne x ((FV.int (-n)).scale (-6))).1
      let p := horner f 0x3F317218 0x3E75FDF0 0x3D635847 0x3C1D955B
      let t := k32 (exp2T.getD j.toNat 0)
      let y := r32 (ffma .rne t p t).1
      round Fmt.f32 .rne (y.scale m)

/-- vlog2 (R149): code and flags. -/
def log2F (code : Nat) : Nat × Nat :=
  match decode Fmt.f32 code with
  | .nan => (Fmt.f32.nan, 0)
  | .inf s => if s then (Fmt.f32.nan, NV) else (Fmt.f32.inf, 0)
  | .fin s num den e =>
    if num = 0 then (signed' Fmt.f32 true Fmt.f32.inf, DZ)
    else if s then (Fmt.f32.nan, NV)
    else if code = 0x3F800000 then (0, 0)
    else
      let ex := floorLog num den e
      let g : FV := .fin false num den (e - ex)
      let j := bits (round Fmt.f32 .rne g).1 22 17
      let t := r32 (ffma .rne g (k32 (log2Q.getD j 0)) (FV.int (-1))).1
      let p := horner t 0x3FB8AA3B 0xBF38AA3B 0x3EF6384F 0xBEB8AA3B
      rounded Fmt.f32 .rne (fadd .rne (add32 (FV.int ex) (k32 (log2L.getD j 0))) p)

/-- The reduction of R150: k, the integer nearest x × 2/π, and y = RoundFP32(x − k × π/2). -/
def trigReduce (s : Bool) (num : Nat) (e : Int) : Int × FV :=
  let sx : Nat := num * 2 ^ (e + 401).toNat
  let k : Nat := (2 * sx + piBits) / (2 * piBits)
  let d : Int := (sx : Int) - k * piBits
  let d := if s then -d else d
  (if s then -(k : Int) else k, r32 (if d = 0 then FV.zero s else .fin (d < 0) d.natAbs 1 (-401)))

/-- S and C of R150 with the flags of their last rounding. -/
def trigS (y : FV) : Nat × Nat :=
  let z := mul32 y y
  rounded Fmt.f32 .rne (fadd .rne y (mul32 y (horner z 0xBE2AAAAB 0x3C088889 0xB9500D01 0x3638EF1D)))
def trigC (y : FV) : Nat × Nat :=
  let z := mul32 y y
  rounded Fmt.f32 .rne (fadd .rne (FV.int 1) (horner z 0xBF000000 0x3D2AAAAB 0xBAB60B61 0x37D00D01))

/-- A code with its sign inverted. -/
def flip32 (x : Nat × Nat) : Nat × Nat := (if 0x80000000 ≤ x.1 then x.1 - 0x80000000 else x.1 + 0x80000000, x.2)

/-- vsin and vcos (R150): code and flags. -/
def trig (cosine : Bool) (code : Nat) : Nat × Nat :=
  match decode Fmt.f32 code with
  | .nan => (Fmt.f32.nan, 0)
  | .inf _ => (Fmt.f32.nan, NV)
  | .fin s num _ e =>
    if num = 0 && !cosine then (code, 0)
    else
      let (k, y) := trigReduce s num e
      match (k % 4).toNat, cosine with
      | 0, false => trigS y
      | 1, false => trigC y
      | 2, false => flip32 (trigS y)
      | _, false => flip32 (trigC y)
      | 0, true => trigC y
      | 1, true => flip32 (trigS y)
      | 2, true => flip32 (trigC y)
      | _, true => trigS y

end Sys2Proof.Machine
end

