-- ==== Sys2Proof/Machine/Operands.lean ====
section
/-! DEFINITION. Operand forms: vector names as sources and destinations (R64, R65, R249), predicates, immediates and
class-0 words of groups, with the latencies of R189 and the exception flags of R151, R152 and R267. -/

namespace Sys2Proof.Machine

/-! ## Immediates -/

/-- A field read as signed (R205, SExt). -/
def sext {n : Nat} (x : BitVec n) : Int := x.toInt

/-- The target of a B-format word: its own address plus 4 × off20, signed (R193, R218). -/
def relTarget (pc : Dword) (off : BitVec 20) : Dword := pc + BitVec.ofInt 64 (4 * sext off)

/-! ## Latencies (R189) -/

/-- The rows of the latency table. -/
inductive Latency where
  | one | move | fp | fp64 | special | reduce | regroup
  deriving DecidableEq, Repr

/-- Instructions until a result of this kind may be read, for a D-image (0) or an L-image. -/
def Latency.words (l : Latency) (image : Nat) : Nat :=
  match l with
  | .one => 1
  | .move => if image = 0 then 3 else 2
  | .fp => if image = 0 then 4 else 2
  | .fp64 => if image = 0 then 8 else 4
  | .special => if image = 0 then 12 else 6
  | .reduce => if image = 0 then 6 else 3
  | .regroup => if image = 0 then 8 else 4

/-! ## Names -/

/-- The lanes of a name that is mapped. -/
def Team.lanes (t : Team) (g : Nat) (n : Nat) : List Word := (t.nameLanes g n).getD zeroLanes

/-- Lane L of a list of 96. -/
def laneAt (v : List Word) (l : Nat) : Word := v.getD l 0

/-- 96 lanes from a function of the lane number. -/
def lanesFrom (f : Nat → Word) : List Word := (List.range 96).map f

/-- Whether every name of a list is mapped. -/
def Team.allMapped (t : Team) (g : Nat) (ns : List Nat) : Bool := ns.all fun n => (t.mapped g n).isSome

/-- Whether the rows that a write to these names needs can be allocated (R64). -/
def Team.canWrite (t : Team) (g : Nat) (ns : List Nat) : Bool := t.roomFor (t.roleOf g) (t.unmappedOf g ns).length

/-- Whether the row that `nfresh` needs can be allocated: its tests count USED as it would stand after the unmap (R243). -/
def Team.canRefresh (t : Team) (g n : Nat) : Bool := (t.unmap g n).roomFor (t.roleOf g) 1

/-- Whether a word that stands for rows could have them now. -/
def Team.hasRows (t : Team) (g : Nat) (names : List Nat) (fresh : Bool) : Bool :=
  if fresh then names.all fun n => t.canRefresh g n else t.canWrite g names

/-- How long a word has stood for want of rows. -/
def stalledFor (now : Nat) (h : Option Hold) : Nat :=
  match h with
  | some (.rows t _ _) => now - t
  | _ => 0

/-- A word that needs rows: ROW_POOL_EMPTY after 4,096 reference ticks, the word tried again before (R64). -/
def needRows (s : State) (e : Env) (names : List Nat) (fresh : Bool) : Res :=
  if 4096 ≤ stalledFor s.refclk e.path.hold then .trap 0x05 0 0
  else .hold s (.rows (s.refclk - stalledFor s.refclk e.path.hold) names fresh)

/-- A result of a group's row, scalar or predicate, written at once or in flight (R189). DESIGN CHOICE (log entry 15): a
result of latency 1 is shown to every group at once, where R70 would also allow another group the old value until a barrier
or a give. -/
def result (s : State) (e : Env) (lat : Nat) (target : Target) (lanes : LaneMask) (vals : List Word) (bs : LaneMask)
    (flags : Word) : State :=
  let l : Late := { left := lat, path := e.p, target, lanes, vals, bits := bs, flags, tagged := false }
  let s := match target with | .row r => updTeam s e.t fun team => team.pendUp r | _ => s
  if lat ≤ 1 then landNow s e.t e.g l else updGroup s e.t e.g fun grp => { grp with late := grp.late ++ [l] }

/-- The lanes of `m` of a name written, the name being mapped. -/
def writeName (s : State) (e : Env) (lat n : Nat) (m : LaneMask) (vals : List Word) (flags : Word) : State :=
  match (s.teams.get? e.t).bind fun team => team.mapped e.g n with
  | some x => result s e lat (.row x.row) m vals 0 flags
  | none => s

/-- Names written one after another (R56), the flags with the first. DESIGN CHOICE (log entry 15): both halves of a pair
whose latency is 1 land in one step, so no other group sees one half without the other, though R71 allows it. -/
def writeNames (s : State) (e : Env) (lat : Nat) (m : LaneMask) (flags : Word) : List (Nat × List Word) → State
  | [] => orFlags s e.t e.g flags
  | (n, v) :: rest => writeNames (writeName s e lat n m v flags) e lat m 0 rest

/-! ## Vector words (R249, R264) -/

/-- What a vector word computes: the values of its destinations in order, the lanes written, the flags raised. -/
structure VRes where
  vals : List (List Word)
  mask : LaneMask
  flags : Nat := 0

/-- The CTX_TRAPEN of a team's context. -/
def trapen (s : State) (team : Team) : Nat := (s.ctx team.id.ctx).trapen.toNat

/-- A vector word: its sources are read whole, its unmapped destinations get fresh rows, its flags may trap before any
destination is written, and its results are written at their latency. -/
def vector (s : State) (e : Env) (lat : Latency) (srcs dsts : List Nat) (f : (Nat → List Word) → VRes) : Res :=
  if !e.team.allMapped e.g srcs then unmappedName
  else if !e.team.canWrite e.g dsts then needRows s e dsts false
  else
    let r := f fun n => e.team.lanes e.g n
    let flags := BitVec.ofNat 32 r.flags
    if r.flags &&& trapen s e.team &&& 0x3F != 0 then .trapWith (orFlags s e.t e.g flags) 0x0C 0 0
    else
      let s := updTeam s e.t fun team => team.mapAll e.g dsts
      .done (writeNames s e (lat.words e.team.id.image) r.mask flags (dsts.zip r.vals))

/-- A class-0 vector word of a group. -/
def runV (w : Bool) (s : State) (lat : Latency) (srcs dsts : List Nat) (f : Env → (Nat → List Word) → VRes) : Out :=
  runG .group0 w s fun e => vector s e lat srcs dsts (f e)

/-- A result of two names, lane by lane, without flags. -/
def v3 (w : Bool) (lat : Latency) (d a b : BitVec 7) (s : State) (f : Word → Word → Word) : Out :=
  runV w s lat [a.toNat, b.toNat] [d.toNat] fun e rd =>
    { vals := [lanesFrom fun l => f (laneAt (rd a.toNat) l) (laneAt (rd b.toNat) l)], mask := e.path.mask }

/-- A result of one name, lane by lane, without flags. -/
def v2 (w : Bool) (lat : Latency) (d a : BitVec 7) (s : State) (f : Word → Word) : Out :=
  runV w s lat [a.toNat] [d.toNat] fun e rd =>
    { vals := [lanesFrom fun l => f (laneAt (rd a.toNat) l)], mask := e.path.mask }

/-- A result of the old destination and two names (the accumulate form). -/
def v3acc (w : Bool) (lat : Latency) (d a b : BitVec 7) (s : State) (f : Word → Word → Word → Word) : Out :=
  runV w s lat [d.toNat, a.toNat, b.toNat] [d.toNat] fun e rd =>
    { vals := [lanesFrom fun l => f (laneAt (rd d.toNat) l) (laneAt (rd a.toNat) l) (laneAt (rd b.toNat) l)]
      mask := e.path.mask }

/-- The 64-bit values of a pair of names (R56). -/
def pairLane (rd : Nat → List Word) (n l : Nat) : Dword := pair (laneAt (rd n) l) (laneAt (rd (n + 1)) l)

/-- The two names of a pair. -/
def pairNames (n : BitVec 7) : List Nat := [n.toNat, n.toNat + 1]

/-- A pair's values from a function of the lane number: the low halves and the high halves. -/
def pairVals (f : Nat → Dword) : List (List Word) := [lanesFrom fun l => lowWord (f l), lanesFrom fun l => highWord (f l)]

/-- A pair's result of two pairs. -/
def v3p (w : Bool) (lat : Latency) (d a b : BitVec 7) (s : State) (f : Dword → Dword → Dword) : Out :=
  runV w s lat (pairNames a ++ pairNames b) (pairNames d) fun e rd =>
    { vals := pairVals fun l => f (pairLane rd a.toNat l) (pairLane rd b.toNat l), mask := e.path.mask }

/-! ## With exception flags -/

/-- The union of the flags that the active lanes raise (R152). -/
def flagsOver (m : LaneMask) (f : Nat → Nat) : Nat := (lanesOf m).foldl (fun acc l => acc ||| f l) 0

/-- A word whose lane L gives a 32-bit code and flags. -/
def lanesWithFlags (m : LaneMask) (f : Nat → Nat × Nat) : VRes :=
  { vals := [lanesFrom fun l => BitVec.ofNat 32 (f l).1], mask := m, flags := flagsOver m fun l => (f l).2 }

/-- The same for a 64-bit code. -/
def pairsWithFlags (m : LaneMask) (f : Nat → Nat × Nat) : VRes :=
  { vals := pairVals fun l => BitVec.ofNat 64 (f l).1, mask := m, flags := flagsOver m fun l => (f l).2 }

/-- A floating word of two names. -/
def vf3 (w : Bool) (lat : Latency) (d a b : BitVec 7) (s : State) (f : Nat → Nat → Nat × Nat) : Out :=
  runV w s lat [a.toNat, b.toNat] [d.toNat] fun e rd =>
    lanesWithFlags e.path.mask fun l => f (laneAt (rd a.toNat) l).toNat (laneAt (rd b.toNat) l).toNat

/-- A floating word of one name. -/
def vf2 (w : Bool) (lat : Latency) (d a : BitVec 7) (s : State) (f : Nat → Nat × Nat) : Out :=
  runV w s lat [a.toNat] [d.toNat] fun e rd => lanesWithFlags e.path.mask fun l => f (laneAt (rd a.toNat) l).toNat

/-- A floating word in the accumulate form. -/
def vf3acc (w : Bool) (lat : Latency) (d a b : BitVec 7) (s : State) (f : Nat → Nat → Nat → Nat × Nat) : Out :=
  runV w s lat [d.toNat, a.toNat, b.toNat] [d.toNat] fun e rd =>
    lanesWithFlags e.path.mask fun l =>
      f (laneAt (rd d.toNat) l).toNat (laneAt (rd a.toNat) l).toNat (laneAt (rd b.toNat) l).toNat

/-- A floating word of two pairs. -/
def vf3p (w : Bool) (lat : Latency) (d a b : BitVec 7) (s : State) (f : Nat → Nat → Nat × Nat) : Out :=
  runV w s lat (pairNames a ++ pairNames b) (pairNames d) fun e rd =>
    pairsWithFlags e.path.mask fun l => f (pairLane rd a.toNat l).toNat (pairLane rd b.toNat l).toNat

/-- A floating word of one pair. -/
def vf2p (w : Bool) (lat : Latency) (d a : BitVec 7) (s : State) (f : Nat → Nat × Nat) : Out :=
  runV w s lat (pairNames a) (pairNames d) fun e rd =>
    pairsWithFlags e.path.mask fun l => f (pairLane rd a.toNat l).toNat

/-! ## Scalars and predicates of class-0 group words -/

/-- A word of a group that only computes: scalars and predicates are written at once. -/
def runP (w : Bool) (s : State) (f : Env → State) : Out := runG .group0 w s fun e => .done (f e)

/-- A compare writes all 96 bits of its predicate: lanes outside ACTIVE become 0 (R256). -/
def vcompare (w : Bool) (p : BitVec 3) (srcs : List Nat) (s : State) (f : (Nat → List Word) → Nat → Bool) : Out :=
  runG .group0 w s fun e =>
    if !e.team.allMapped e.g srcs then unmappedName
    else
      let rd := fun n => e.team.lanes e.g n
      .done (e.setP s p.toNat (maskOf fun l => e.path.mask.getLsbD l && f rd l))

/-- A predicate operand whose field is checked before it is used. -/
def predAt (e : Env) (p : Nat) : LaneMask := e.grp.pred p

end Sys2Proof.Machine
end

