-- ==== Sys2Proof/Machine/Access.lean ====
section
/-! DEFINITION. G-path accesses (R119): the fields of a memory word, the address checks, releases and acquires, the lanes
of an access at scratchpad, vault, L1, L2 or home, and their completion (R187, R281 to R293). -/

namespace Sys2Proof.Machine

/-! ## Fields (R195, R196, R286) -/

/-- ORDER, SCOPE, SPACE and CACHE of a memory word. -/
structure MemF where
  order : Nat
  scope : Nat
  space : Nat
  cache : Nat
  deriving DecidableEq, Repr

/-- The fields that a prefix supplies, or the team's copy of CTX_MEMDEF (R196, R354). -/
def memFields (e : Env) : MemF :=
  match e.path.clause.bind fun c => c.pfx with
  | some p =>
    ⟨bits p.toNat 24 22, bits p.toNat 21 19, bits p.toNat 18 16, bits p.toNat 15 13⟩
  | none =>
    let m := e.team.memdef.toNat
    ⟨bits m 11 9, bits m 8 6, bits m 5 3, bits m 2 0⟩

/-- A reserved code in any field. -/
def MemF.reserved (f : MemF) : Bool := 4 < f.order || 5 < f.scope || 4 < f.space || 4 < f.cache

/-- The rows of R286. -/
inductive MemClass where
  | load | store | atomic | fatom | other
  deriving DecidableEq, Repr

/-- Whether the row of R286 accepts the fields. -/
def MemClass.accepts (c : MemClass) (f : MemF) : Bool :=
  match c with
  | .load => f.order == 0 || f.order == 1 || f.order == 4
  | .store => f.order == 0 || f.order == 2 || f.order == 4
  | .atomic => f.space != 4
  | .fatom => f.space != 2
  | .other => true

def MemF.acquires (f : MemF) : Bool := f.order == 1 || f.order == 3
def MemF.releases (f : MemF) : Bool := f.order == 2 || f.order == 3

/-! ## The throttle (R47) -/

/-- Whether a group stands outside its slice's LL_CAP oldest active groups. -/
def throttled (s : State) (e : Env) : Bool :=
  let core := s.core e.team.id.core
  let act := (s.slice e.team.id.core e.grp.slice).active
  let older := act.filter fun x =>
    match (s.teams.get? x.1).bind fun t => t.groups.get? x.2 with
    | some g => g.age < e.grp.age
    | none => false
  act.contains (e.t, e.g) && core.llCap ≤ older.length

/-- A memory word of a group: its fields are checked, then the throttle. -/
def runMem (w : Bool) (s : State) (c : MemClass) (f : Env → MemF → Res) : Out :=
  runG .mem1 w s fun e =>
    let m := memFields e
    if m.reserved || !c.accepts m then illegal 7
    else if throttled s e then .again s
    else f e m

/-! ## Address checks (R283) -/

/-- The first failing pass over the active lanes, with its lowest failing lane. `extra` adds to the third pass. -/
def checkLanes (s : State) (e : Env) (space z : Nat) (write : Bool) (extra : LaneAcc → Bool) (ls : List LaneAcc) : Option Res :=
  match ls.find? fun l => 2 ^ 60 ≤ l.va with
  | some l => some (accessViolation l.lane (BitVec.ofNat 64 l.va))
  | none =>
    match ls.find? fun l => l.va % z != 0 with
    | some l => some (misaligned l.lane (BitVec.ofNat 64 l.va))
    | none =>
      (ls.find? fun l => extra l || !spaceAllows s e.team.id.ctx e.team.res.scrLen space l.va z write).map fun l =>
        accessViolation l.lane (BitVec.ofNat 64 l.va)

/-! ## Releases and acquires (R83, R113, R114) -/

/-- Whether the group has an access that is not complete. -/
def pendingAccess (s : State) (t g : Nat) : Bool :=
  s.accs.any fun e => e.2.team == t && e.2.group == g && !e.2.complete

/-- Whether the group has an acquire that is not complete; its later accesses wait for it (R114). -/
def pendingAcquire (s : State) (t g : Nat) : Bool :=
  s.accs.any fun e => e.2.team == t && e.2.group == g && !e.2.complete && (e.2.order == 1 || e.2.order == 3)

/-- A release's write-back from L1 (R83): lines whose SCOPE_W is narrower than S. -/
def l1Release (s : State) (core scope : Nat) : State :=
  (s.core core).l1.lines.foldl (fun s e => if e.2.scopeW < scope then l1CleanLine s core e.1 else s) s

/-- Whether an L1 sector is still what its die's L2 holds: its bytes that are not dirty are those of L2's valid copy. -/
def backedBy (c1 c2 : Sect) : Bool :=
  !c1.whole || (c2.whole && (c1.data ^^^ c2.data) &&& spread (~~~c1.dirty) == 0)

/-- A line's contents are known valid at die scope only while the die's L2 holds the same (R83): SCOPE_V of a line that L2 no
longer backs is core. So an acquire at die scope drops it, as R116 asks (DEDUCED, log entry 10). -/
def recheckLine (s : State) (core line : Nat) : State :=
  let l1 := (s.core core).l1
  let l2 := (s.die (dieOf core)).l2
  if [2 * line, 2 * line + 1].all fun k => backedBy (l1.sect k) (l2.sect k) then s
  else setL1 s core { l1 with lines := l1.lines.upd line fun r => { r with scopeV := min r.scopeV 2 } }

/-- An acquire's invalidation in L1 (R83): lines whose SCOPE_V is narrower than S, written back first. -/
def l1Acquire (s : State) (core scope : Nat) : State :=
  let s := if scope < 3 then s else (s.core core).l1.lines.foldl (fun s e => recheckLine s core e.1) s
  (s.core core).l1.lines.foldl (fun s e => if e.2.scopeV < scope then l1Drop s core e.1 else s) s

/-- Every dirty sector of a context in a die's L2 sent home; valid sectors stay, clean. -/
def l2Flush (s : State) (die ctx : Nat) : State :=
  (s.die die).l2.sects.foldl (fun s e =>
    if ctxOfSect e.1 = ctx then l2Clean s die e.1 else s) s

/-- Every sector of a context gone from a die's L2. -/
def l2Drop (s : State) (die ctx : Nat) : State :=
  let l2 := (s.die die).l2
  s.setDie die { s.die die with
    l2 := { sects := l2.sects.filter fun e => ctxOfSect e.1 != ctx
            lines := l2.lines.filter fun e => ctxOfSect (2 * e.1) != ctx } }

/-- The requests of a die, by a test. -/
def reqsWhere (s : State) (p : Req → Bool) : List Nat := (s.reqs.filter fun e => p e.2).map (·.1)

/-- The context's writes and atomics of a die that are not sent yet. -/
def unsent (s : State) (die ctx : Nat) : List Nat :=
  reqsWhere s fun r => r.die == die && r.ctx == ctx && r.kind != .read &&
    match r.stage with | .walk => true | .held _ => true | _ => false

/-- The die's stamped requests whose acknowledgement has not returned. -/
def unacked (s : State) (die : Nat) : List Nat := reqsWhere s fun r => r.die == die && r.stamped && r.kind != .beat

/-- Whether a request has left its die, or is gone. -/
def isSent (s : State) (r : Nat) : Bool :=
  match s.reqs.get? r with
  | none => true
  | some q => match q.stage with | .walk => false | .held _ => false | _ => true

/-- What a release at a scope does before it may be performed. -/
inductive Ready where
  /-- It may go on; the requests must be sent before its own. -/
  | go (after : List Nat) (s : State)
  | wait (r : Res)

/-- Whether what a release waits for has come about: the requests are sent, or, with `acked`, acknowledged. -/
def settled (s : State) (acked : Bool) (reqs : List Nat) : Bool := reqs.all fun r => if acked then !s.reqs.has r else isSent s r

/-- The release of R113 up to its own performance. One with a request of its own (`own`) is sent behind the write-backs, which have
their stamps before it has its own; a fence, and one that may be performed at a scratchpad bank, waits until the write-backs have
their stamps. At system scope every release waits for the acknowledgements. -/
def release (s : State) (e : Env) (scope : Nat) (own : Bool) : Ready :=
  let core := e.team.id.core
  let die := dieOf core
  let ctx := e.team.id.ctx
  match e.path.hold with
  | some (.fence reqs) => if settled s (scope = 5) reqs then .go [] s else .wait (.hold s (.fence reqs))
  | _ =>
    if pendingAccess s e.t e.g then .wait (.again s)
    else if scope < 3 then .go [] s
    else
      let s := l1Release s core scope
      if scope = 3 then .go [] s
      else
        let s := l2Flush s die ctx
        let reqs := if scope = 5 then unacked s die else unsent s die ctx
        if scope = 4 && own then .go reqs s
        else if reqs.isEmpty then .go [] s
        else .wait (.hold s (.fence reqs))

/-- The acquire of R114 at a scope: L1 lines go, and at device and system scope the context's sectors of L2; replies
already on their way do not bring old copies back. -/
def acquire (s : State) (core ctx scope : Nat) : State :=
  let s := l1Acquire s core scope
  let s := noFill s (dieOf core) fun r =>
    if 4 ≤ scope then r.ctx == ctx else r.core == core && (r.fillScope.map fun f => decide (f < scope)).getD false
  if 4 ≤ scope then l2Drop (l2Flush s (dieOf core) ctx) (dieOf core) ctx else s

/-! ## Values -/

/-- A loaded value: extended to a word, or whole. -/
def loaded (size : Nat) (sx : Bool) (raw : Nat) : Dword :=
  if sx then BitVec.ofInt 64 (signed (8 * size) raw) else BitVec.ofNat 64 raw

/-- The value that an atomic writes (R290). -/
def atomNew (op old : Nat) (x : Dword) (e : Word) : Nat :=
  let o : Word := BitVec.ofNat 32 old
  let v := lowWord x
  match op with
  | 0x0 => (o + v).toNat
  | 0x1 => (if v.toInt < o.toInt then v else o).toNat
  | 0x2 => min old v.toNat
  | 0x3 => (if o.toInt < v.toInt then v else o).toNat
  | 0x4 => max old v.toNat
  | 0x5 => (o &&& v).toNat
  | 0x6 => (o ||| v).toNat
  | 0x7 => (o ^^^ v).toNat
  | 0x8 => v.toNat
  | 0x9 => if o = e then v.toNat else old
  | 0xA => (BitVec.ofNat 64 old + x).toNat
  | 0xB => x.toNat
  | _ => (rounded Fmt.f32 .rne (fadd .rne (decode Fmt.f32 old) (decode Fmt.f32 v.toNat))).1

/-- A number at bytes lo … of a sector. -/
def sectStore (lo v : Nat) : BitVec 512 := BitVec.ofNat 512 (v * 2 ^ (8 * lo))

/-! ## Scratchpad and vault (R76, R77) -/

def scrRead (s : State) (t off n : Nat) : Nat := ((s.teams.get? t).map fun x => x.res.scr.load off n).getD 0
def scrWrite (s : State) (t off n v : Nat) : State :=
  updTeam s t fun x => { x with res := { x.res with scr := x.res.scr.store off n v } }

/-- One lane performed where its bytes live: what it returns. -/
def laneAtBank (a : Access) (l : LaneAcc) (old : Nat) : Nat × Option Nat :=
  match a.kind with
  | .store => (0, some (l.x.toNat % 2 ^ (8 * a.size)))
  | .atomic => (old, some (atomNew a.op old l.x l.e))
  | _ => (old, none)

/-! ## Completion -/

/-- The counter of R187 that an access raises: LDCNT (true), STCNT (false) or none. -/
def Access.counter (a : Access) : Option Bool :=
  match a.kind with
  | .load => some true
  | .atomic => some (a.dest != .none)
  | .store => some false
  | .cache => if a.op ≤ 1 then some false else none
  | .poll => none

/-- A counter of a group moved. -/
def count (g : Group) (c : Option Bool) (f : Nat → Nat) : Group :=
  match c with
  | some true => { g with ldcnt := f g.ldcnt }
  | some false => { g with stcnt := f g.stcnt }
  | none => g

/-- Whether a debugger's STOP of a group has been accepted and is not complete (R406). -/
def stopPending (s : State) (t g : Nat) : Bool :=
  ((s.teams.get? t).map fun team => s.hg.queues.any fun e => match e.2.block with
    | some (.command p _) =>
      ofBytes (p.take 4) == 0x1C + 1 * 2 ^ 8 + team.id.ctx * 2 ^ 16 && ofBytes ((p.drop 4).take 4) == team.id.grid &&
        ofBytes ((p.drop 8).take 4) == team.id.num && ofBytes ((p.drop 12).take 1) == g
    | _ => false).getD false

/-- Whether a path is held by a STOP, or will be when its park ends (R406). -/
def Path.held (p : Path) : Bool := match p.hold with | some (.stopped _) => true | _ => false

/-- A path whose switch park is over goes on, or is held by a STOP (R406): at once; when its group's park on service ends; or, where it
waits at a word that has issued, after that word. -/
def Path.afterPark (p : Path) (stop service : Bool) : Path :=
  if !(stop || p.held) then { p with st := 0 }
  else if p.begun then { p with st := 0, pass := 2 }
  else if service then { p with st := 0, hold := some (.stopped 65), pass := 0 }
  else { p with st := 2, hold := some (.stopped 64), pass := 0 }

/-- A group leaves its park when no result is outstanding (R44, R188); its paths go on, or are held by a STOP. -/
def unpark (s : State) (t g : Nat) : State :=
  if outstanding s t g then s
  else
    let stop := stopPending s t g
    updGroup s t g fun grp =>
      if grp.park then { grp with
        park := false, longPark := false
        paths := grp.paths.mapVals fun _ p => if p.st ≠ 3 then p else p.afterPark stop grp.service }
      else grp

/-- Whether a parked access of a group still has lanes to perform, or a fetch of it is held on a service fault (R373). -/
def heldFor (s : State) (t g : Nat) : Bool :=
  (s.accs.any fun e => e.2.team == t && e.2.group == g && e.2.parked && !e.2.complete) ||
  s.reqs.any fun e =>
    (match e.2.stage with | .held _ => true | _ => false) &&
    (match e.2.who with
     | .fetch t' g' _ => t' == t && g' == some g
     | _ => false)

/-- The group's park on a service fault ends when its parked accesses have been performed (R239, R373); paths that a STOP has reached
meanwhile are held then. -/
def settleService (s : State) (t g : Nat) : State :=
  let on := heldFor s t g
  updGroup s t g fun grp => { grp with
    service := on
    paths := if on then grp.paths else grp.paths.mapVals fun _ p => if p.held && p.st = 0 then p.afterPark true false else p }

/-- An access is over: its counter falls and its rows have one result less in flight. -/
def endAccess (s : State) (id : Nat) : State :=
  match s.accs.get? id with
  | none => s
  | some a =>
    let s := { s with accs := s.accs.del id }
    let s := match a.dest with
      | .rows lo hi => updTeam s a.team fun t =>
          let t := t.pendDown lo
          match hi with | some h => t.pendDown h | none => t
      | _ => s
    let s := updGroup s a.team a.group fun g => count g a.counter fun n => n - 1
    settleService (unpark s a.team a.group) a.team a.group

/-- The lanes of an access written into its destination. -/
def writeDest (s : State) (a : Access) (ls : List LaneAcc) : State :=
  let m := maskOf fun i => ls.any fun l => l.lane == i
  let valOf (i : Nat) : Dword := ((ls.find? fun l => l.lane == i).map (·.val)).getD 0
  match a.dest with
  | .none => s
  | .rows lo hi => updTeam s a.team fun t =>
      let t := t.writeRow lo (lanesFrom fun i => lowWord (valOf i)) m
      match hi with
      | some h => t.writeRow h (lanesFrom fun i => highWord (valOf i)) m
      | none => t
  | .scalar d =>
    match ls with
    | l :: _ => writeS s a.team a.group a.path d (lowWord l.val)
    | [] => s
  | .pair d =>
    match ls with
    | l :: _ => writeS (writeS s a.team a.group a.path d (lowWord l.val)) a.team a.group a.path (d + 1) (highWord l.val)
    | [] => s

/-- Whether a request belongs to an access. -/
def Req.of (r : Req) (a : Nat) : Bool := match r.who with | .access id _ => id == a | _ => false

/-- No further lane of an access is performed (R284): its requests that have not left the die are dropped, and those on
their way touch no location when they are handled. -/
def dropRest (s : State) (id : Nat) : State :=
  let kept : Tbl Req := s.reqs.filter fun e =>
    !(e.2.of id && (match e.2.stage with | .walk => true | .held _ => true | _ => false))
  { s with reqs := kept.mapVals fun _ r =>
      if r.of id && r.stage == .sent then { r with kind := .beat, who := .writeback } else r }

/-- A trap at an access (R284): the record names it, its remaining lanes are dropped. The memory words of a sequencer's
`wait` are read under the group number 32 for the Flume's sequencer, 33 for the Sluice's. -/
def failAccess (s : State) (id code detail : Nat) (addr : Nat) : State :=
  match s.accs.get? id with
  | none => s
  | some a =>
    let s := if 32 ≤ a.group then stopSeq s a.team (a.group == 32) a.pc code detail (BitVec.ofNat 64 addr)
      else stopGroupAt s a.team a.group a.path a.pc (if a.kind == .poll then maskNow s a.team a.group a.path else a.mask) code detail
        (BitVec.ofNat 64 addr)
    endAccess (dropRest s id) id

/-- A lane's record replaced. -/
def setLane (s : State) (id : Nat) (l : LaneAcc) : State :=
  { s with accs := s.accs.upd id fun a => { a with lanes := a.lanes.map fun x => if x.lane = l.lane then l else x } }

/-- The deepest level reached by a lane of an access (R411). A park that awaits it becomes long when it has missed L1 (R44). -/
def noteLevel (s : State) (id lvl : Nat) : State :=
  let s := { s with accs := s.accs.upd id fun a => if a.level % 16 < lvl % 16 then { a with level := lvl } else a }
  match s.accs.get? id with
  | none => s
  | some a => updGroup s a.team a.group fun grp =>
      if grp.park && a.slow && a.awaited a.team a.group then { grp with longPark := true } else grp

/-- An acquire's second half, when its last lane has been performed; a parked access lets its group go on; an access that no
counter waits for is over. -/
def completeAccess (s : State) (id : Nat) : State :=
  match s.accs.get? id, (s.accs.get? id).bind fun a => s.teams.get? a.team with
  | some a, some team =>
    if !a.complete then s
    else
      let s := if a.parked then settleService s a.team a.group else s
      if a.kind == .cache then (if a.counter.isNone then endAccess s id else s)
      else if a.order == 1 || a.order == 3 then acquire s team.id.core team.id.ctx a.scope
      else s
  | _, _ => s

/-- Whether an address lies in the scratchpad; a synonym's leader is global (R84). -/
def inScratch (va : Nat) : Bool := match regionOf va with | .scratch _ => true | _ => false

/-- Whether the group has a scratchpad access that is not applied yet (R120). -/
def pendingScratch (s : State) (t g : Nat) : Bool :=
  s.accs.any fun e => e.2.team == t && e.2.group == g && e.2.lanes.any fun l =>
    l.st != .done && inScratch l.va

/-! ## One lane at a global address -/

/-- An L1 miss of a group: a victim-tag match raises its score (R46). -/
def noteMiss (s : State) (core t g line : Nat) : State :=
  let c := s.core core
  if c.victims.contains (line, t, g) then
    let s := s.setCore core { c with victims := c.victims.erase (line, t, g) }
    updGroup s t g fun grp => { grp with score := min 65535 (grp.score + 1) }
  else s

/-- The bytes of a sector that the core's L1 and its die's L2 hold, L1's first. -/
def nearSect (s : State) (core key : Nat) : Sect :=
  let c1 := (s.core core).l1.sect key
  let c2 := (s.die (dieOf core)).l2.sect key
  { whole := c1.whole || c2.whole, dirty := c1.dirty ||| c2.dirty, data := mergeSect c2.data c1.data c1.held,
    bad := c1.bad || c2.bad }

/-- Who brings a line into L1 for an access. -/
def Access.filler (a : Access) (s : State) (team : Team) : Filler := ⟨a.scope, a.cache, a.team, a.group, fieldOfTeam s team⟩

/-- A valid sector taken from L2 into L1, where the CACHE code allocates there (R81). -/
def l1FillFromL2 (s : State) (core key : Nat) (f : Filler) : State :=
  let c2 := (s.die (dieOf core)).l2.sect key
  if f.cache = 3 || f.cache = 4 || !c2.whole || c2.bad then s else l1Fill s core key c2.data f

/-- The request that an access sends for a lane. -/
def laneReq (s : State) (a : Access) (team : Team) (id : Nat) (l : LaneAcc) (kind : ReqKind) : Req :=
  { Req.blank with
    die := dieOf team.id.core, core := team.id.core, ctx := team.id.ctx, field := fieldOfTeam s team,
    team := a.team, group := a.group, who := .access id l.lane, kind, va := l.va, order := a.order, sys := a.space == 4 || a.order == 4,
    cache := a.cache }

/-- A request sent for a lane, which waits for it. -/
def sendLane (s : State) (id : Nat) (l : LaneAcc) (r : Req) : State := setLane (newReq s r).2 id { l with st := .out }

/-- Whether what a read brings holds the bytes at an address: a home-order access brings the bytes that it names, another read their
sector (R385). -/
def Req.brings (r : Req) (va : Nat) : Bool := if r.order = 4 then r.va == va else r.va / 64 == va / 64

/-- Whether an access has already asked for the bytes at an address. -/
def askedFor (s : State) (id va : Nat) : Bool := s.reqs.any fun e => e.2.brings va && e.2.kind == .read && e.2.of id

/-- Whether a read would take its bytes from a poisoned sector of L1 or L2 (R421). Such a sector is sent home, and the read
goes there, where the poison that its write-back carried answers it. -/
def meetsPoison (s : State) (core key : Nat) (m : BitVec 64) (below : Bool) : Bool :=
  let c1 := (s.core core).l1.sect key
  c1.bad || ((below || !c1.covers m) && ((s.die (dieOf core)).l2.sect key).bad)

/-- A group's L1 miss on a line (R44, R46). -/
def missL1 (s : State) (id : Nat) (a : Access) (core line : Nat) : State := noteLevel (noteMiss s core a.team a.group line) id 5

/-- Lane l of a load: from L1, from L2, or by one request per sector, in home order per address. -/
def loadLane (s : State) (id : Nat) (a : Access) (team : Team) (l : LaneAcc) : State :=
  let core := team.id.core
  let key := sectKey team.id.ctx l.va
  let lo := l.va % 64
  let m := byteMask lo a.size
  let dieAcq := a.order = 1 && a.scope = 3
  let done (s : State) (raw : Nat) : State := setLane s id { l with st := .done, val := loaded a.size a.sext raw }
  let poison := meetsPoison s core key m dieAcq
  if a.order = 4 || a.space = 4 || (a.order = 1 && 4 ≤ a.scope) || poison then
    let s := noteLevel (flushSector s core key) id 5
    if askedFor s id l.va then setLane s id { l with st := .out }
    else sendLane s id l { laneReq s a team id l .read with
      va := if a.order = 4 then l.va else 64 * (l.va / 64)
      stamped := a.order = 4 || a.space = 4
      fillScope := if a.order = 1 && a.space != 4 && !poison && a.cache != 4 then some a.scope else none }
  else
    let s := if dieAcq then l1Clean s core key else s
    let c1 := (s.core core).l1.sect key
    if c1.covers m && !dieAcq then done (noteLevel s id 1) (sectLoad c1.data lo a.size)
    else
      let s := missL1 s id a core (lineOfSect key)
      let near := if dieAcq then (s.die (dieOf core)).l2.sect key else nearSect s core key
      if near.covers m then done (l1FillFromL2 s core key (a.filler s team)) (sectLoad near.data lo a.size)
      else if askedFor s id l.va then setLane s id { l with st := .out }
      else sendLane s id l { laneReq s a team id l .read with
        va := 64 * (l.va / 64), mask := near.held, data := near.data,
        fillScope := if a.cache = 4 then none else some a.scope }

/-- Lane l of a store. DESIGN CHOICE (log entry 78): a store to a line that is not in L1 counts no L1 miss for the score of R46, and the
storing group is the filler of a line that a store brings in without a fill. -/
def storeLane (s : State) (id : Nat) (a : Access) (team : Team) (l : LaneAcc) (after : List Nat) : State :=
  let core := team.id.core
  let die := dieOf core
  let key := sectKey team.id.ctx l.va
  let lo := l.va % 64
  let m := byteMask lo a.size
  let data := sectStore lo (l.x.toNat % 2 ^ (8 * a.size))
  let done (s : State) : State := setLane (noteLevel s id (if a.cache < 3 && a.scope < 3 then 1 else 5)) id { l with st := .done }
  let through (s : State) : State :=
    (newReq (noFillSector s die team.id.ctx l.va) { laneReq s a team id l .write with
      who := .writeback, va := 64 * (l.va / 64), mask := m, data, stamped := true }).2
  let toL2 (s : State) : State := l2Write s die team.id.ctx (fieldOfTeam s team) key a.cache m data false
  let pastL1 (s : State) : State := if a.cache = 3 then l1DropSect s core key else l1Pass s core key m data
  if a.order = 4 || a.space = 4 || (a.order = 2 && 3 ≤ a.scope) then
    sendLane (flushSector s core key) id l { laneReq s a team id l .write with
      va := if a.order = 4 then l.va else 64 * (l.va / 64), mask := m, data, stamped := true, drops := true, after }
  else if a.cache = 4 then done (through (dropSector s core key))
  else if 4 ≤ a.scope then done (through (l2Pass (pastL1 s) die key m data))
  else if a.scope = 3 || a.cache = 3 then done (toL2 (pastL1 s))
  else done (l1Store s core key m data (a.filler s team))

/-- Whether a lane of an access to a line, if it is of an atomic, is performed at the line's home, in a message of its own (R117): an
atomic at home, of die scope or wider, in system space, or on a poisoned sector. -/
def Access.sends (s : State) (a : Access) (team : Team) (va : Nat) : Bool :=
  a.atHome || 3 ≤ a.scope || a.order = 4 || a.space = 4 ||
    meetsPoison s team.id.core (sectKey team.id.ctx va) (byteMask (va % 64) a.size) false

/-- Lane l of an atomic: at home (R117), or on the line in L1. The fill of such a line, op code 0xFD, needs the page's W, as the
atomic does (R284, R365). DESIGN CHOICE (log entry 30): the line comes in under CACHE code 0 whatever the atomic's, since R81's table
lists loads and stores alone. -/
def atomicLane (s : State) (id : Nat) (a : Access) (team : Team) (l : LaneAcc) (after : List Nat) : State :=
  let core := team.id.core
  let key := sectKey team.id.ctx l.va
  let lo := l.va % 64
  let m := byteMask lo a.size
  if a.sends s team l.va then
    sendLane (flushSector s core key) id l { laneReq s a team id l .atomic with
      op := a.op, x := l.x, e := l.e, stamped := true, drops := true, after }
  else
    let hit := ((s.core core).l1.sect key).covers m
    let s := if hit then noteLevel s id 1 else missL1 s id a core (lineOfSect key)
    let near := nearSect s core key
    let f := { a.filler s team with cache := 0 }
    if near.covers m then
      let s := if hit then s else l1FillFromL2 s core key f
      let old := sectLoad near.data lo a.size
      setLane (l1Store s core key m (sectStore lo (atomNew a.op old l.x l.e)) f) id
        { l with st := .done, val := BitVec.ofNat 64 old }
    else sendLane s id l { laneReq s a team id l .read with
      op := 0xFD, va := 64 * (l.va / 64), mask := near.held, data := near.data, fillScope := some a.scope, cache := 0 }

/-- Lane l of a `wait`'s memory words: a relaxed load at system scope at the word's location (R49), with the bytes that
the core and the die have not sent on. -/
def pollLane (s : State) (id : Nat) (a : Access) (team : Team) (l : LaneAcc) : State :=
  let key := sectKey team.id.ctx l.va
  let near := nearSect s team.id.core key
  let s := if near.bad then flushSector s team.id.core key else s
  sendLane s id l { laneReq s a team id l .read with
    va := 64 * (l.va / 64), mask := if near.bad then 0 else near.dirty, data := near.data }

/-- Lane l of an access to a vault: a request to the vault, which is the home of its own bytes (R77, R107). On another die it
crosses Qanat (R11). It carries the die's vector like every request (R109, log entry 55); atomics and home-order accesses are
stamped (R109). -/
def vaultLane (s : State) (id : Nat) (a : Access) (team : Team) (l : LaneAcc) (after : List Nat) : State :=
  let lo := l.va % 64
  match a.kind with
  | .store => sendLane s id l { laneReq s a team id l .write with
      va := if a.order = 4 then l.va else 64 * (l.va / 64), mask := byteMask lo a.size,
      data := sectStore lo (l.x.toNat % 2 ^ (8 * a.size)), stamped := a.order = 4, after }
  | .atomic => sendLane s id l { laneReq s a team id l .atomic with op := a.op, x := l.x, e := l.e, stamped := true, after }
  | _ =>
    if askedFor s id l.va then setLane s id { l with st := .out }
    else sendLane s id l { laneReq s a team id l .read with
      va := if a.order = 4 then l.va else 64 * (l.va / 64), stamped := a.order = 4 }

/-! ## Cache maintenance (R295) -/

/-- The retention of a CACHE code given to a line in L1 and in L2, wherever it is; a set of L2 that has 12 other keep lines takes no
more of them (R81). -/
def keepLine (s : State) (core line cache : Nat) : State :=
  let c := s.core core
  let s := setL1 s core { c.l1 with lines := c.l1.lines.upd line fun r => { r with ret := retentionOf cache } }
  let d := s.die (dieOf core)
  s.setDie (dieOf core) { d with l2 := { d.l2 with lines := d.l2.lines.upd line fun r => { r with ret := d.l2.retention line cache } } }

/-- One sector brought into L1 and L2: a read that no instruction waits for. DESIGN CHOICE (log entry 30): under CACHE 3 or 4,
whose retention R295 does not give, L2 alone is filled, at normal retention. -/
def prefetch (s : State) (id : Nat) (a : Access) (team : Team) (l : LaneAcc) (va : Nat) : State :=
  let core := team.id.core
  let key := sectKey team.id.ctx va
  if !((s.die (dieOf core)).l2.sect key).whole then
    (newReq s { laneReq s a team id l .read with who := .writeback, va, fillScope := some a.scope }).2
  else if ((s.core core).l1.sect key).whole then s
  else l1FillFromL2 s core key (a.filler s team)

/-- Lane l of a cache-maintenance word on the line that holds its address. -/
def cacheLane (s : State) (id : Nat) (a : Access) (team : Team) (l : LaneAcc) : State :=
  let core := team.id.core
  let line := lineOfSect (sectKey team.id.ctx l.va)
  let before := s.nextId
  let s := match a.op with
    | 2 => [0, 64].foldl (fun s o => prefetch s id a team l (128 * (l.va / 128) + o))
        (keepLine s core line a.cache)
    | 3 => keepLine s core line 1
    | op =>
      let s := [2 * line, 2 * line + 1].foldl (fun s k => if 4 ≤ a.scope then flushSector s core k else l1Clean s core k) s
      if op = 0 then s
      else
        let s := setL1 s core ((s.core core).l1.drop line)
        if 4 ≤ a.scope then s.setDie (dieOf core) { s.die (dieOf core) with l2 := (s.die (dieOf core)).l2.drop line }
        else s
  let made := if a.op ≤ 1 then (s.reqs.keys.filter fun r => before ≤ r) else []
  let s := { s with accs := s.accs.upd id fun a => { a with wbs := a.wbs ++ made } }
  setLane s id { l with st := .done }

/-! ## Lanes in order -/

/-- The remap filter's entry that covers a synonym address (R85). -/
def remapHit (c : Core) (ctx va : Nat) : Option RemapEntry :=
  c.remap.find? fun r => r.ctx == ctx && r.base ≤ va && va < r.base + r.len

/-- A hit becomes the most recently used entry. -/
def remapTouch (c : Core) (r : RemapEntry) : Core := { c with remap := r :: c.remap.filter (· != r) }

/-- The level of a vault: the core's own, or another (R411). -/
def vaultLevel (core off : Nat) : Nat := if off / 2 ^ 27 = core then 3 else 4

/-- The poison key of a vault sector (R421). -/
def vaultKey (off : Nat) : Nat := 2 ^ 46 + off / 64

/-- Whether the lanes that an access has performed cover the whole sector of an address. -/
def coversSector (s : State) (id va : Nat) : Bool :=
  match s.accs.get? id with
  | none => false
  | some a => (List.range 64).all fun i => a.lanes.any fun l =>
      l.st == .done && l.va ≤ 64 * (va / 64) + i && 64 * (va / 64) + i < l.va + a.size

/-- A store whose performed lanes cover a whole poisoned vault sector clears its poison (R421). -/
def vaultClear (s : State) (id off : Nat) : State :=
  if poisoned s (vaultKey off) && coversSector s id (vaultBase + off) then setPoison s (vaultKey off) false else s

/-- The same for the sectors that a store has written in L1, and in L2 at die scope or wider or past L1. -/
def cacheClear (s : State) (id : Nat) (a : Access) (team : Team) (va : Nat) : State :=
  let core := team.id.core
  let key := sectKey team.id.ctx va
  if !(nearSect s core key).bad || a.order = 4 || a.space = 4 || !coversSector s id va then s
  else
    let good (t : Tbl Sect) : Tbl Sect := t.upd key fun c => { c with bad := false }
    let c := s.core core
    let s := s.setCore core { c with l1 := { c.l1 with sects := good c.l1.sects } }
    if a.scope < 3 && a.cache < 3 then s
    else
      let d := s.die (dieOf core)
      s.setDie (dieOf core) { d with l2 := { d.l2 with sects := good d.l2.sects } }

/-- One lane whose address is resolved: performed at its bank, in L1 or in L2, or sent. -/
def tryLane (s : State) (id : Nat) (a : Access) (team : Team) (after : List Nat) (l : LaneAcc) : State :=
  match regionOf l.va, a.kind with
  | .scratch _, .cache => setLane s id { l with st := .done }
  | .vault _, .cache => setLane s id { l with st := .done }
  | .scratch off, _ =>
    let r := laneAtBank a l (scrRead s a.team off a.size)
    let s := noteLevel (match r.2 with | some x => scrWrite s a.team off a.size x | none => s) id 2
    setLane s id { l with st := .done, val := loaded a.size a.sext r.1 }
  | .vault off, _ => vaultLane (noteLevel s id (vaultLevel team.id.core off)) id a team l after
  | _, .load => loadLane s id a team l
  | _, .store => cacheClear (storeLane s id a team l after) id a team l.va
  | _, .atomic => atomicLane s id a team l after
  | _, .poll => pollLane s id a team l
  | _, .cache => cacheLane s id a team l

/-- The synonym addresses of an access replaced by leader addresses (R85), in lane order up to the first that the filter
does not hold; false where one is left. -/
def resolveLanes (s : State) (id : Nat) (a : Access) (team : Team) : Bool × State :=
  a.lanes.foldl (fun r l =>
    if !r.1 || l.st != .todo || regionOf l.va != .synonym then r
    else match remapHit (r.2.core team.id.core) team.id.ctx l.va with
      | none => (false, r.2)
      | some x =>
        (true, setLane (r.2.setCore team.id.core (remapTouch (r.2.core team.id.core) x)) id
          { l with va := x.leader + (l.va - x.base) })) (true, s)

/-- Whether two lanes name a common byte. -/
def overlaps (a za b zb : Nat) : Bool := a < b + zb && b < a + za

/-- Whether two lanes of an atomic each send a message, which leave in lane order (R385). -/
def Access.bothSend (s : State) (a : Access) (team : Team) (k l : LaneAcc) : Bool :=
  let one (l : LaneAcc) : Bool := match regionOf l.va with
    | .scratch _ => false
    | .vault _ => true
    | _ => a.sends s team l.va
  a.kind == .atomic && one k && one l

/-- Whether a lane goes when the lanes of `m` go: load lanes that name the same bytes go together, and a lane of a store or
an atomic waits for the lower lanes on its location, those among them that wait for their line in L1 (R285), a message of an atomic for
those of its lower lanes. -/
def Access.goes (s : State) (id : Nat) (a : Access) (team : Team) (m : LaneMask) (l : LaneAcc) : Bool :=
  match a.kind with
  | .load => a.lanes.any fun k => k.va == l.va && m.getLsbD k.lane
  | .store | .atomic => m.getLsbD l.lane &&
      !(a.lanes.any fun k => k.lane < l.lane && (overlaps k.va a.size l.va a.size || a.bothSend s team k l) &&
        match k.st with
        | .todo => !m.getLsbD k.lane
        | .out => askedFor s id k.va
        | .done => false)
  | _ => true

/-- The lanes of `m` not yet started, in lane order; none while a synonym address is left. -/
def progress (s : State) (id : Nat) (after : List Nat) (m : LaneMask) : State :=
  match s.accs.get? id, (s.accs.get? id).bind fun a => s.teams.get? a.team with
  | some a, some team =>
    match resolveLanes s id a team with
    | (false, s) => s
    | (true, s) =>
      match s.accs.get? id with
      | none => s
      | some a =>
        completeAccess ((a.lanes.filter fun l => l.st == .todo && a.goes s id team m l).foldl (fun s l => tryLane s id a team after l) s) id
  | _, _ => s

/-- Every lane not yet started. -/
def allLanes : LaneMask := BitVec.allOnes 96

/-! ## Issue -/

/-- Whether an access on some lanes must wait for an earlier one of its group: an acquire (R114), one that names common bytes
(R106, R119), or one where either side has a synonym address that is not resolved yet. -/
def mustWait (s : State) (t g z : Nat) (ls : List LaneAcc) : Bool :=
  s.accs.any fun e =>
    let a := e.2
    a.team == t && a.group == g && !a.complete &&
      (a.order == 1 || a.order == 3 ||
        a.lanes.any fun l => l.st != .done &&
          (regionOf l.va == .synonym || ls.any fun k => regionOf k.va == .synonym || overlaps l.va a.size k.va z))

/-- Outstanding replies of a team's atomics performed at home (R293). -/
def farCount (s : State) (t : Nat) : Nat := (s.accs.filter fun e => e.2.team == t && e.2.far).length

/-- A new access of a group issued: its counter rises, its rows have a result in flight, its lanes begin. `base` gives
what the word fixes; the caller has made the address checks. -/
def issueAccess (s : State) (e : Env) (a : Access) (after : List Nat) : State :=
  let (id, s) := s.fresh
  let s := { s with accs := s.accs.put id a }
  let s := match a.dest with
    | .rows lo hi => updTeam s e.t fun t =>
        let t := t.pendUp lo
        match hi with | some h => t.pendUp h | none => t
    | _ => s
  let s := updGroup s e.t e.g fun g => count g a.counter fun n => n + 1
  progress { s with split := none } id after (if after.isEmpty then s.split.getD allLanes else allLanes)

/-- An access with nothing in it. -/
def Access.blank (e : Env) (f : MemF) (kind : AccKind) (size : Nat) : Access :=
  { team := e.t, group := e.g, path := e.p, pc := e.path.pc, mask := e.path.mask, kind, size, sext := false, op := 0,
    order := f.order, scope := f.scope, space := f.space, cache := f.cache, dest := .none, lanes := [], atHome := false,
    far := false, cancelled := false, parked := false, wbs := [], level := 0, stand := standOf e.team e.grp e.path, got := [] }

/-- Whether an access to an address may be performed at a scratchpad bank, which takes no stamp. -/
def inBank (va : Nat) : Bool := match regionOf va with | .scratch _ => true | .synonym => true | _ => false

/-- An access whose addresses have been checked: it waits for counters (R187), for the late-reply list (R293), for
earlier accesses, for its release; then it is issued. -/
def performAccess (s : State) (e : Env) (f : MemF) (a : Access) : Res :=
  let full := match a.counter with
    | some true => decide (255 ≤ e.grp.ldcnt)
    | some false => decide (255 ≤ e.grp.stcnt)
    | none => false
  if full then .again s
  else if a.far && 64 ≤ farCount s e.t then .again s
  else if mustWait s e.t e.g a.size a.lanes then .again s
  else
    match if f.releases then release s e f.scope !(a.lanes.any fun l => inBank l.va) else .go [] s with
    | .wait r => r
    | .go after s =>
      let s := if a.kind == .load && f.acquires then acquire s e.team.id.core e.team.id.ctx f.scope else s
      .done (issueAccess s e a after)

/-! ## Replies -/

/-- The detail of an ACCESS_VIOLATION at a lane: the lane of a vector access, 0 for a `wait`'s memory word (R238). -/
def Access.laneNo (a : Access) (lane : Nat) : Nat := if a.kind == .poll then 0 else lane

/-- What a lane of an access that is not performed yet would fail with, translated or its sector's MAC checked, without
being performed (R284). DESIGN CHOICE (log entry 60): a lane whose translation misses counts as not failing, and the trap is taken
without awaiting service for it; R284 does not say whether such a translation is finished. -/
def laneFault (s : State) (team : Team) (a : Access) (l : LaneAcc) : Option (Nat × Nat) :=
  let die := dieOf team.id.core
  let perm := if a.kind == .store || a.kind == .atomic then Perm.write else Perm.read
  let at' (va : Nat) : Option (Nat × Nat) :=
    match (translate s die team.id.ctx va perm).1 with
    | .violation => some (0x0A, a.laneNo l.lane)
    | .bad detail => some (0x0B, detail)
    | .miss => none
    | .ask _ => none
    | .ok pa sealed =>
      if a.kind == .store then none
      else match (readAtHome s (homeOf s pa) team.id.ctx (pa / 64) sealed).2 with
        | 0 => none
        | bad => some (0x0B, bad)
  match regionOf l.va with
  | .global => at' l.va
  | .synonym =>
    match synWalk s die team.id.ctx l.va with
    | .entry r => at' (r.leader + (l.va - r.base))
    | .fails code detail => some (code, if code = 0x0A then a.laneNo l.lane else detail)
    | .miss _ => none
    | .ask _ => none
  | .vault off => if a.kind != .store && poisoned s (vaultKey off) then some (0x0B, 2) else none
  | .scratch _ => none

/-- The team's trap when lane `lane` of an access is found to fail: the record names the lowest failing lane of those not yet
performed (R284). -/
def failLanes (s : State) (id lane code detail : Nat) : State :=
  match s.accs.get? id, (s.accs.get? id).bind fun a => s.teams.get? a.team with
  | some a, some team =>
    let of (l : LaneAcc) : Option (Nat × Nat) := if l.lane = lane then some (code, detail) else laneFault s team a l
    match (a.lanes.filter fun l => l.st != .done).findSome? fun l => (of l).map fun f => (f, l.va) with
    | some ((c, d), v) => failAccess s id c d v
    | none => s
  | _, _ => s

/-- A copy that still shows an older value of bytes that the core has now read at their home is dropped (R106). -/
def dropOlder (s : State) (core key : Nat) (m : BitVec 64) (data : BitVec 512) : State :=
  let older (c : Sect) : Bool := (c.data ^^^ data) &&& spread (m &&& c.held &&& ~~~c.dirty) != 0
  let s := if older ((s.core core).l1.sect key) then l1DropSect s core key else s
  let d := dieOf core
  if older ((s.die d).l2.sect key) then
    let s := l2Clean s d key
    s.setDie d { s.die d with l2 := (s.die d).l2.dropSect key }
  else s

/-- A sector read for an access has come back: the lanes that wait for it take their values. -/
def loadReply (s : State) (id : Nat) (r : Req) (data : BitVec 512) : State :=
  match s.accs.get? id with
  | none => s
  | some a =>
    let full := mergeSect data r.data r.mask
    match a.kind with
    | .atomic =>
      let s := { s with accs := s.accs.upd id fun a => { a with lanes := a.lanes.map fun l =>
        if l.st == .out && l.va / 64 == r.va / 64 then { l with st := .todo } else l } }
      progress s id [] allLanes
    | _ =>
      let s := if (r.fillScope.isSome && r.cache < 3) || r.vaultOff.isSome then s
        else dropOlder s r.core (sectKey r.ctx r.va) (~~~r.mask) full
      let s := { s with accs := s.accs.upd id fun a => { a with lanes := a.lanes.map fun l =>
        if l.st == .out && (r.brings l.va) then
          { l with st := .done, val := loaded a.size a.sext (sectLoad full (l.va % 64) a.size) }
        else l } }
      completeAccess s id

/-- A store or an atomic performed at home has been acknowledged: the lane is done. -/
def laneReply (s : State) (id lane : Nat) (v : Nat) : State :=
  match s.accs.get? id with
  | none => s
  | some a =>
    match a.lanes.find? fun l => l.lane == lane with
    | none => s
    | some l =>
      let s := setLane s id { l with st := .done, val := BitVec.ofNat 64 v }
      completeAccess (match regionOf l.va with | .vault off => if a.kind == .store then vaultClear s id off else s | _ => s) id

/-- Results of accesses may land lane by lane before they return whole (R191). -/
def settleEarly (s : State) (t g : Nat) : State :=
  s.accs.foldl (fun s e =>
    let a := e.2
    match a.dest with
    | .rows _ _ =>
      if a.team == t && a.group == g && !a.cancelled then
        let (k, s) := s.draw
        writeDest s a (a.lanes.filter fun l => l.st == .done && (Config.freeMask k).getLsbD l.lane)
      else s
    | _ => s) s

end Sys2Proof.Machine
end

