-- ==== Sys2Proof/Machine/Memory.lean ====
section
/-! DEFINITION. The memory, atomic, fence and cache-maintenance instructions: majors 0x06 and 0x24 to 0x2B (R281 to
R295). -/

namespace Sys2Proof.Machine

/-! ## Addresses (R282, R288) -/

/-- Addr(L) of R282. -/
def laneVa (base : Dword) (o : Word) (scaled : Bool) (z : Nat) : Nat :=
  (base + BitVec.ofInt 64 (o.toInt * (if scaled then (z : Int) else 1))).toNat

/-- A lane before it starts. -/
def laneTodo (lane va : Nat) (x : Dword) (e : Word) : LaneAcc := ⟨lane, va, x, e, .todo, 0⟩

/-- The lanes of a vector access. -/
def vectorLanes (e : Env) (vaOf : Nat → Nat) (x : Nat → Dword) (ex : Nat → Word) : List LaneAcc :=
  (lanesOf e.path.mask).map fun l => laneTodo l (vaOf l) (x l) (ex l)

/-- Bytes of a size code (R287). -/
def sizeOfCode (t : Nat) : Nat := match t with | 0 => 1 | 1 => 2 | 2 => 4 | 3 => 8 | _ => 1

/-- The rows that destination names map, once they are mapped. -/
def destRows (s : State) (e : Env) (ds : List Nat) : Dest :=
  let rowOf (n : Nat) : Nat := (((s.teams.get? e.t).bind fun t => t.mapped e.g n).map (·.row)).getD 0
  match ds with
  | [a] => .rows (rowOf a) none
  | [a, b] => .rows (rowOf a) (some (rowOf b))
  | _ => .none

/-- A vector access: the names it reads must be mapped, its addresses pass R283, its destinations get rows, and it is
performed; with no active lane it performs nothing. `extra` adds to the third pass. A word that is then held before it issues has
its destination names mapped already: R64 stalls a word before all of its effects where rows are wanting and is silent on other
holds (DESIGN CHOICE, log entry 61). -/
def vectorAccess (s : State) (e : Env) (f : MemF) (srcs dsts : List Nat) (write : Bool) (a : Access)
    (extra : LaneAcc → Bool) (ls : List LaneAcc) : Res :=
  if !e.team.allMapped e.g srcs then unmappedName
  else
    match checkLanes s e f.space a.size write extra ls with
    | some r => r
    | none =>
      if !e.team.canWrite e.g dsts then needRows s e dsts false
      else
        let s := updTeam s e.t fun t => t.mapAll e.g dsts
        if ls.isEmpty then .done s
        else performAccess s e f { a with lanes := ls, dest := destRows s e dsts }

/-! ## Vector loads and stores (R287, R288) -/

def execVld (w : Bool) (t : BitVec 4) (d o : BitVec 7) (b : BitVec 6) (sc : Bool) (s : State) : Out :=
  runMem w s .load fun e f =>
    let z := sizeOfCode t.toNat
    let dsts := if t.toNat = 3 then pairNames d else [d.toNat]
    let os := e.team.lanes e.g o.toNat
    vectorAccess s e f [o.toNat] dsts false { Access.blank e f .load z with sext := t.toNat == 4 } (fun _ => false)
      (vectorLanes e (fun l => laneVa (e.pair b) (laneAt os l) sc z) (fun _ => 0) fun _ => 0)

def execVst (w : Bool) (t : BitVec 4) (d o : BitVec 7) (b : BitVec 6) (sc : Bool) (s : State) : Out :=
  runMem w s .store fun e f =>
    let z := sizeOfCode t.toNat
    let data := if t.toNat = 3 then pairNames d else [d.toNat]
    let rd := fun n => e.team.lanes e.g n
    vectorAccess s e f (o.toNat :: data) [] true (Access.blank e f .store z) (fun _ => false)
      (vectorLanes e (fun l => laneVa (e.pair b) (laneAt (rd o.toNat) l) sc z)
        (fun l => if t.toNat = 3 then pairLane rd d.toNat l else pair (laneAt (rd d.toNat) l) 0) fun _ => 0)

/-- off(L) of R288. -/
def nearOff (b o : Word) (sc : Bool) (z : Nat) : Nat := (b.toNat + o.toNat * (if sc then z else 1)) % 2 ^ 32

/-- The address of an offset in the scratchpad, or in the core's own vault. -/
def nearVa (e : Env) (nv : Bool) (off : Nat) : Nat :=
  if nv then vaultBase + dieOf e.team.id.core * 2 ^ 32 + e.team.id.core % 32 * 2 ^ 27 + off else scratchBase + off

/-- The forms of major 0x29. -/
def nearAccess (w nv : Bool) (store : Bool) (z : BitVec 2) (d o : BitVec 7) (b : BitVec 6) (sc : Bool) (s : State) : Out :=
  runMem w s (if store then .store else .load) fun e f =>
    let f := { f with space := 0, cache := 0 }
    let n := sizeOfCode z.toNat
    let names := if z.toNat = 3 then pairNames d else [d.toNat]
    let rd := fun k => e.team.lanes e.g k
    let off := fun l => nearOff (e.s b) (laneAt (rd o.toNat) l) sc n
    let ls := vectorLanes e (fun l => nearVa e nv (off l))
      (fun l => if !store then 0 else if z.toNat = 3 then pairLane rd d.toNat l else pair (laneAt (rd d.toNat) l) 0) fun _ => 0
    vectorAccess s e f (if store then o.toNat :: names else [o.toNat]) (if store then [] else names) store
      (Access.blank e f (if store then .store else .load) n) (fun l => nv && 0x3000000 ≤ off l.lane) ls

def execVldSp (w : Bool) (z : BitVec 2) (d o : BitVec 7) (b : BitVec 6) (sc : Bool) (s : State) : Out :=
  nearAccess w false false z d o b sc s
def execVstSp (w : Bool) (z : BitVec 2) (d o : BitVec 7) (b : BitVec 6) (sc : Bool) (s : State) : Out :=
  nearAccess w false true z d o b sc s
def execVldNv (w : Bool) (z : BitVec 2) (d o : BitVec 7) (b : BitVec 6) (sc : Bool) (s : State) : Out :=
  nearAccess w true false z d o b sc s
def execVstNv (w : Bool) (z : BitVec 2) (d o : BitVec 7) (b : BitVec 6) (sc : Bool) (s : State) : Out :=
  nearAccess w true true z d o b sc s

/-! ## Atomics (R290 to R293) -/

/-- Whether an operation takes a pair of registers or names. -/
def atomPair (op : Nat) : Bool := op == 0x9 || op == 0xA || op == 0xB

/-- Whether it returns 64 bits. -/
def atomWide (op : Nat) : Bool := op == 0xA || op == 0xB

/-- Whether an atomic on these lanes is performed at a global home (R117, R291). DESIGN CHOICE (log entry 61): one on a vault, which
is the home of its own bytes (R107), is not counted among the 64 replies and the late replies of R293, whose `vatom` and `satom`
R117 names. -/
def performedAtHome (f : MemF) (fa : Bool) (ls : List LaneAcc) : Bool :=
  fa || ((3 ≤ f.scope || f.order == 4 || f.space == 4) && ls.any fun l =>
    match regionOf l.va with | .global => true | .synonym => true | _ => false)

/-- A vector atomic. A scratchpad address under `fatom` is refused at the address check (R291). -/
def vectorAtomic (w fa : Bool) (p : BitVec 4) (d o : BitVec 7) (b : BitVec 6) (sc : Bool) (s : State) : Out :=
  runMem w s (if fa then .fatom else .atomic) fun e f =>
    let op := p.toNat
    let z := atomSize op
    let rd := fun n => e.team.lanes e.g n
    let ls := vectorLanes e (fun l => laneVa (e.pair b) (laneAt (rd o.toNat) l) sc z)
      (fun l => if atomWide op then pairLane rd d.toNat l else pair (laneAt (rd d.toNat) l) 0)
      fun l => if op = 0x9 then laneAt (rd (d.toNat + 1)) l else 0
    let names := if atomPair op then pairNames d else [d.toNat]
    let a := { Access.blank e f .atomic z with op, atHome := fa, far := performedAtHome f fa ls }
    vectorAccess s e f (o.toNat :: names) (if atomWide op then pairNames d else [d.toNat]) true a
      (fun l => fa && match regionOf l.va with | .scratch _ => true | _ => false) ls

def execVatom (w : Bool) (p : BitVec 4) (d o : BitVec 7) (b : BitVec 6) (sc : Bool) (s : State) : Out :=
  vectorAtomic w false p d o b sc s
def execFatom (w : Bool) (p : BitVec 4) (d o : BitVec 7) (b : BitVec 6) (sc : Bool) (s : State) : Out :=
  vectorAtomic w true p d o b sc s

/-! ## Scalar accesses (R289, R292) -/

/-- A scalar access: one lane, checked as lane 0. -/
def scalarAccess (s : State) (e : Env) (f : MemF) (write : Bool) (a : Access) (va : Nat) (x : Dword) (ex : Word) : Res :=
  let ls := [laneTodo 0 va x ex]
  match checkLanes s e f.space a.size write (fun _ => false) ls with
  | some r => r
  | none => performAccess s e f { a with lanes := ls }

/-- The address of a scalar load or store. -/
def scalarVa (e : Env) (a : BitVec 6) (off : BitVec 9) (z : Nat) : Nat :=
  (e.pair a + BitVec.ofInt 64 (sext off * (z : Int))).toNat

def execSld (w : Bool) (d a : BitVec 6) (t : BitVec 3) (off : BitVec 9) (s : State) : Out :=
  runMem w s .load fun e f =>
    let z := sizeOfCode t.toNat
    scalarAccess s e f false { Access.blank e f .load z with
      sext := t.toNat == 4, dest := if t.toNat = 3 then .pair d.toNat else .scalar d.toNat } (scalarVa e a off z) 0 0

def execSst (w : Bool) (d a : BitVec 6) (t : BitVec 3) (off : BitVec 9) (s : State) : Out :=
  runMem w s .store fun e f =>
    let z := sizeOfCode t.toNat
    scalarAccess s e f true (Access.blank e f .store z) (scalarVa e a off z)
      (if t.toNat = 3 then e.pair d else pair (e.s d) 0) 0

/-- The operand of a scalar atomic: x, and e for `cas`. -/
def atomOperand (e : Env) (op : Nat) (b : BitVec 6) : Dword × Word :=
  if atomWide op then (e.pair b, 0) else (pair (e.s b) 0, if op = 0x9 then highWord (e.pair b) else 0)

/-- A scalar atomic with a destination or without. -/
def scalarAtomic (w : Bool) (p : BitVec 4) (a b : BitVec 6) (dest : Dest) (s : State) : Out :=
  runMem w s .atomic fun e f =>
    let op := p.toNat
    let va := (e.pair a).toNat
    let (x, ex) := atomOperand e op b
    scalarAccess s e f true { Access.blank e f .atomic (atomSize op) with
      op, dest, far := dest != .none && performedAtHome f false [laneTodo 0 va x ex] } va x ex

def execSatom (w : Bool) (p : BitVec 4) (d a b : BitVec 6) (s : State) : Out :=
  scalarAtomic w p a b (if atomWide p.toNat then .pair d.toNat else .scalar d.toNat) s
def execSatomNr (w : Bool) (p : BitVec 4) (a b : BitVec 6) (s : State) : Out := scalarAtomic w p a b .none s

/-! ## Fences (R294, R113, R114, R121 to R123) -/

/-- Whether the group has a store or an atomic, of those that `p` names, that is not complete. -/
def pendingStore (s : State) (t g : Nat) (p : Access → Bool) : Bool :=
  s.accs.any fun e => e.2.team == t && e.2.group == g && !e.2.complete && (e.2.kind == .store || e.2.kind == .atomic) && p e.2

/-- Whether an access has a scratchpad lane that is not applied. -/
def Access.inBank (a : Access) : Bool := a.lanes.any fun l => l.st != .done && inScratch l.va

/-- Whether the group has a load or an atomic that has not returned: what it reads an acquire fence comes after (R115). -/
def pendingRead (s : State) (t g : Nat) : Bool :=
  s.accs.any fun e => e.2.team == t && e.2.group == g && !e.2.complete && (e.2.kind == .load || e.2.kind == .atomic)

/-- The acquire of a fence, by the issuing group. -/
def fenceAcquire (s : State) (e : Env) (scope : Nat) : State :=
  acquire s e.team.id.core e.team.id.ctx scope

/-- A wait of a fence: the fence has issued (R188). -/
def Res.begins : Res → Res
  | .again s => .keep s []
  | r => r

def execFence (w : Bool) (o sc : BitVec 6) (s : State) : Out :=
  runMem w s .other fun e _ =>
    match o.toNat with
    | 1 => if pendingRead s e.t e.g then .keep s [] else .done (fenceAcquire s e sc.toNat)
    | n =>
      match release s e sc.toNat false with
      | .wait r => r.begins
      | .go _ s => .done (if n = 3 then fenceAcquire s e sc.toNat else s)

/-- The core of a team on a die; none where the team is elsewhere or gone. -/
def coreOn (s : State) (t die : Nat) : Option Nat :=
  (s.teams.get? t).bind fun team => if dieOf team.id.core = die then some team.id.core else none

/-- A landed copy sector performed in the L2 of its die (R119); an older copy is not brought back over it, and the L1 of the
team's core, which `xfence C,G` would have to clear of it (R121), drops its copy at once. -/
def performLanded (s : State) (die : Nat) (x : LandedSector) : State :=
  let d := s.die die
  let s := s.setDie die { d with writeQ := d.writeQ.filter (· != x) }
  let s := match coreOn s x.team die with
    | some core => l1DropSect s core x.key
    | none => s
  l2Write (noFillSector s die x.ctx (vaOfSect x.key)) die x.ctx x.field x.key 0 x.mask x.data false

/-- Every landed, unperformed sector of a team's copies performed in L2 (R121, R231). -/
def performTeamLanded (s : State) (t : Nat) (die : Nat) : State :=
  ((s.die die).writeQ.filter fun x => x.team == t).foldl (fun s x => performLanded s die x) s

/-- Whether a store of the group from a tile to the scratchpad is not applied yet (R311). -/
def pendingTileStore (team : Team) (g : Nat) : Bool :=
  team.fl.ops.any fun o => o.src == some g && (o.kind == .accStF32 || o.kind == .accStBf16 || o.kind == .accStF16)

def execXfence (w : Bool) (a b : BitVec 6) (s : State) : Out :=
  runMem w s .other fun e _ =>
    let core := e.team.id.core
    match a.toNat, b.toNat with
    | 0, 1 =>
      if pendingStore s e.t e.g fun _ => true then .keep s []
      else .done ((s.core core).l1.lines.foldl (fun s l =>
        if ctxOfSect (2 * l.1) = e.team.id.ctx then l1CleanLine s core l.1 else s) s)
    | 0, _ => if pendingStore s e.t e.g Access.inBank then .keep s [] else .done s
    | 1, _ => .done (performTeamLanded s e.t (dieOf core))
    | _, _ => if pendingTileStore e.team e.g then .keep s [] else .done s

/-- The writes of a context on their way from a die, not acknowledged yet: its stores, atomics and write-backs. -/
def unackedWrites (s : State) (die ctx : Nat) : List Nat :=
  reqsWhere s fun r => r.die == die && r.ctx == ctx && r.kind != .read && r.kind != .beat

/-- `tlfence`: the group's stores, and every dirty sector of the context in the core's L1 and the die's L2, are applied at their homes
and acknowledged. -/
def execTlfence (w : Bool) (_sc : BitVec 6) (s : State) : Out :=
  runMem w s .other fun e _ =>
    let die := dieOf e.team.id.core
    let ctx := e.team.id.ctx
    match e.path.hold with
    | some (.fence reqs) => if settled s true reqs then .done s else .hold s (.fence reqs)
    | _ =>
      if pendingStore s e.t e.g fun _ => true then .keep s []
      else
        let s := l2Flush (l1Release s e.team.id.core 5) die ctx
        let reqs := unackedWrites s die ctx
        if reqs.isEmpty then .done s else .hold s (.fence reqs)

/-- `ifence`: it waits for its path's stores; what is still on its way to the instruction cache was read before it and does not
enter (R123). -/
def execIfence (w : Bool) (s : State) : Out :=
  runMem w s .other fun e _ =>
    if pendingStore s e.t e.g fun a => a.path == e.p then .keep s []
    else
      let core := e.team.id.core
      let s := l1Release s core 3
      let s := noFill s (dieOf core) fun r =>
        r.core == core && r.ctx == e.team.id.ctx && (match r.who with | .fetch _ _ _ => true | _ => false)
      .done (s.setCore core { s.core core with icache := (s.core core).icache.filter fun x => ctxOfSect x.1 != e.team.id.ctx })

/-! ## Cache maintenance (R295) -/

/-- Whether the group's cache word at this place is still under way. -/
def cacheUnderWay (s : State) (e : Env) : Bool :=
  s.accs.any fun x => x.2.team == e.t && x.2.group == e.g && x.2.path == e.p && x.2.kind == .cache && x.2.pc == e.path.pc

/-- The four words: only the first pass of R283 applies. At system scope a write-back holds its path until it is
acknowledged. -/
def cacheWord (w : Bool) (op : Nat) (o : BitVec 7) (b : BitVec 6) (sc : Bool) (s : State) : Out :=
  runMem w s .other fun e f =>
    match e.path.hold with
    | some (.fence _) => if cacheUnderWay s e then .hold s (.fence []) else .done s
    | _ =>
      if !e.team.allMapped e.g [o.toNat] then unmappedName
      else
        let os := e.team.lanes e.g o.toNat
        let ls := vectorLanes e (fun l => laneVa (e.pair b) (laneAt os l) sc 1) (fun _ => 0) fun _ => 0
        match ls.find? fun l => 2 ^ 60 ≤ l.va with
        | some l => accessViolation l.lane (BitVec.ofNat 64 l.va)
        | none =>
          if ls.isEmpty then .done s
          else if op ≤ 1 && 255 ≤ e.grp.stcnt then .again s
          else
            let a := { Access.blank e { f with order := 0 } .cache 1 with op, lanes := ls }
            let s := issueAccess s e a []
            if op ≤ 1 && f.scope = 5 then .hold s (.fence []) else .done s

def execVcacheWb (w : Bool) (o : BitVec 7) (b : BitVec 6) (sc : Bool) (s : State) : Out := cacheWord w 0 o b sc s
def execVcacheWbinv (w : Bool) (o : BitVec 7) (b : BitVec 6) (sc : Bool) (s : State) : Out := cacheWord w 1 o b sc s
def execVcachePf (w : Bool) (o : BitVec 7) (b : BitVec 6) (sc : Bool) (s : State) : Out := cacheWord w 2 o b sc s
def execVcacheDemote (w : Bool) (o : BitVec 7) (b : BitVec 6) (sc : Bool) (s : State) : Out := cacheWord w 3 o b sc s

end Sys2Proof.Machine
end

