-- ==== Sys2Proof/Machine/Async.lean ====
section
/-! DEFINITION. Copies, batches, transaction barriers, ring slots, work queues and tensor identifiers: majors 0x2C to 0x31
(R87 to R103, R296 to R309). -/

namespace Sys2Proof.Machine

/-! ## The issuing agent, group or Sluice sequencer (R296) -/

/-- A class-2 or class-5 word's agent. -/
structure Agt where
  t : Nat
  team : Team
  /-- The group, or none for a sequencer. -/
  group : Option Nat
  flume : Bool
  path : Nat
  pc : Dword
  hold : Option Hold
  rd : Nat → Word
  /-- The last register that a block may hold. -/
  top : Nat
  mask : LaneMask
  lastBatch : Nat
  stand : Stand

def Env.agt (e : Env) : Agt :=
  { t := e.t, team := e.team, group := some e.g, flume := false, path := e.p, pc := e.path.pc, hold := e.path.hold,
    rd := readS e.grp e.path, top := 60, mask := e.path.mask, lastBatch := e.grp.lastBatch,
    stand := standOf e.team e.grp e.path }

def SeqEnv.agt (e : SeqEnv) : Agt :=
  { t := e.t, team := e.team, group := none, flume := e.flume, path := 0xFF, pc := e.seq.pc, hold := e.seq.hold,
    rd := e.s, top := 31, mask := BitVec.allOnes 96, lastBatch := e.seq.lastBatch,
    stand := ⟨e.team.id.image, 0xFFFF, 0⟩ }

/-- A scalar of the agent written. -/
def Agt.setS (a : Agt) (s : State) (r : Nat) (v : Word) : State :=
  match a.group with
  | some g => writeS s a.t g a.path r v
  | none => updSeq s a.t a.flume fun q => { q with s := q.s.put r v }

/-- Scalars written from register r on. -/
def Agt.setBlock (a : Agt) (s : State) (r : Nat) (vs : List Word) : State :=
  (vs.zip (List.range vs.length)).foldl (fun s v => a.setS s (r + v.2) v.1) s

/-- n registers from r. -/
def Agt.block (a : Agt) (r n : Nat) : List Word := (List.range n).map fun i => a.rd (r + i)

/-- A word of majors 0x2C to 0x31: blocks must end within the agent's registers, and a sequencer has no scalar above
`s31`. -/
def runA (w : Bool) (s : State) (blocks : List (Nat × Nat)) (singles : List Nat) (f : Agt → Res) : Out :=
  let bad (a : Agt) : Bool := blocks.any fun b => a.top < b.1 + b.2 - 1
  runX .async w s
    (fun e => if bad e.agt then illegal 3 else f e.agt)
    (fun q => if bad q.agt || singles.any (31 < ·) then illegal 3 else f q.agt)

/-- The checks on a scratchpad operand: alignment, then extent (R297). -/
def scrCheck (team : Team) (off align size : Nat) : Option Res :=
  if off % align ≠ 0 then some (misaligned 0 (BitVec.ofNat 64 (scratchBase + off)))
  else if team.res.scrLen < off + size then some (accessViolation 0 (BitVec.ofNat 64 (scratchBase + off)))
  else none

/-! ## Transaction barriers (R96 to R99) -/

/-- A barrier word after an arrival of count k and n sectors, and whether it overran. -/
def tbUpdate (x arr sec : Nat) : Nat × Bool :=
  let pa := bits x 15 4
  let ps := bits x 51 28
  if pa < arr || ps < sec then (if bit x 76 then x else x + 2 ^ 76, true)
  else
    let pa' := pa - arr
    let ps' := ps - sec
    let rest := x - pa * 2 ^ 4 - ps * 2 ^ 28
    if pa' = 0 && ps' = 0 then
      let phase := bits x 3 0
      let rest := rest - phase + (phase + 1) % 16
      (rest + bits x 27 16 * 2 ^ 4 + bits x 75 52 * 2 ^ 28, false)
    else (rest + pa' * 2 ^ 4 + ps' * 2 ^ 28, false)

/-- A barrier of a team's scratchpad updated. -/
def tbApply (s : State) (t off arr sec : Nat) : State × Bool :=
  let (x, overrun) := tbUpdate (scrRead s t off 16) arr sec
  (scrWrite s t off 16 x, overrun)

/-! ## Ring slots (R100, R101) -/

/-- The tag of slot i of a ring: bits 2i+1:2i of its header. -/
def slotTag (s : State) (t h i : Nat) : Nat := bits (scrRead s t (h + i / 4) 1) (2 * (i % 4) + 1) (2 * (i % 4))

/-- The tag of slot i replaced. -/
def setTag (s : State) (t h i v : Nat) : State :=
  let x := scrRead s t (h + i / 4) 1
  let lo := 2 * (i % 4)
  scrWrite s t (h + i / 4) 1 (x - bits x (lo + 1) lo * 2 ^ lo + v * 2 ^ lo)

def slotCounter (s : State) (t h i : Nat) : Nat := scrRead s t (h + 16 + 4 * i) 4
def setCounter (s : State) (t h i v : Nat) : State := scrWrite s t (h + 16 + 4 * i) 4 v

/-- A landed sector counted by a slot; false where its counter is already 0. Filling becomes full when the counter reaches 0;
any other tag, which a program's store has left, stays (R101). DESIGN CHOICE (log entry 54): a counter of 1 to 63, which
only a program's store can leave and of which R101 says nothing, goes to 0. -/
def slotSector (s : State) (t h i : Nat) : State × Bool :=
  let c := slotCounter s t h i
  if c = 0 then (s, false)
  else
    let s := setCounter s t h i (c - 64)
    (if c ≤ 64 && slotTag s t h i = 1 then setTag s t h i 2 else s, true)

/-- The extent of a ring operand: the header and the counter of slot i. -/
def ringExtent (i : Nat) : Nat := 16 + 4 * i + 4

/-! ## Tensor entries (R87 to R89) -/

def tnFormat (e : BitVec 512) : Nat := bits e.toNat 4 0
def tnRank (e : BitVec 512) : Nat := bits e.toNat 7 5
def tnBlock (e : BitVec 512) : Nat := bits e.toNat 9 8
def tnCompand (e : BitVec 512) : Nat := bits e.toNat 12 10
def tnSwizzle (e : BitVec 512) : Nat := bits e.toNat 15 13
def tnAxis (e : BitVec 512) : Nat := bits e.toNat 18 16
def tnBase (e : BitVec 512) : Nat := bits e.toNat 95 32
def tnScaleBase (e : BitVec 512) : Nat := bits e.toNat 159 96
def tnDim (e : BitVec 512) (k : Nat) : Nat := bits e.toNat (183 + 24 * k) (160 + 24 * k)
def tnBox (e : BitVec 512) (k : Nat) : Nat := bits e.toNat (431 + 8 * k) (424 + 8 * k)
/-- The byte stride of dimension k ≥ 1. -/
def tnStride (e : BitVec 512) (k : Nat) : Nat := 16 * bits e.toNat (315 + 36 * (k - 1)) (280 + 36 * (k - 1))

/-- Entry n of a context's table. -/
def tnEntry (s : State) (ctx n : Nat) : BitVec 512 := (s.ctxLive ctx).tns.getD n 0

/-- The status of `tnset`: the first failing check of R308. -/
def tnStatus (e : BitVec 512) : Nat :=
  let x := e.toNat
  let ks := [0, 1, 2, 3, 4]
  if x = 0 then 0
  else if bits x 511 464 ≠ 0 || bits x 31 19 ≠ 0 then 1
  else if 0x0E ≤ tnFormat e then 2
  else if tnRank e = 0 || 5 < tnRank e then 3
  else if 3 < tnSwizzle e || 4 < tnCompand e || 1 < tnBlock e then 4
  else if tnRank e ≤ tnAxis e then 5
  else if ks.any fun k => k < tnRank e && tnDim e k == 0 then 6
  else if ks.any fun k => tnRank e ≤ k &&
      (tnDim e k != 1 || tnBox e k != 0 || (k != 0 && tnStride e k != 0)) then 7
  else if bits x 95 92 ≠ 0 || tnBase e % 16 ≠ 0 || bits x 159 156 ≠ 0 || tnScaleBase e % 16 ≠ 0 then 8
  else 0

/-- Bytes of an element of a whole-byte format. -/
def elemBytes (fmt : Nat) : Nat :=
  match fmt with
  | 0x01 => 8
  | 0x02 | 0x09 | 0x0C => 4
  | 0x03 | 0x04 | 0x0B => 2
  | _ => 1

/-- Elements in one byte: 2 of `.e2m1`, 5 of `.t3`, 1 otherwise. -/
def perByte (fmt : Nat) : Nat := if fmt = 0x07 then 2 else if fmt = 0x0D then 5 else 1

/-- Bytes of a run of n elements along dimension 0 (R90). -/
def runBytes (fmt n : Nat) : Nat := if perByte fmt = 1 then n * elemBytes fmt else (n + perByte fmt - 1) / perByte fmt

/-- Runs of a box: the product of its other extents. -/
def boxRuns (e : BitVec 512) : Nat := [1, 2, 3, 4].foldl (fun n k => n * (tnBox e k + 1)) 1

/-- Bytes of a box's image (R90). -/
def imageSize (e : BitVec 512) : Nat := runBytes (tnFormat e) (tnBox e 0 + 1) * boxRuns e

/-- Where a byte of the dense image stands in a scratchpad image (R90). -/
def staggered (swz size o : Nat) : Nat :=
  let j := o / 256
  if swz = 0 || size < 256 * (j + 1) then o
  else 256 * j + 8 * (((o / 8) % 32 + j * (2 * swz - 1)) % 32) + o % 8

/-- The box coordinates 1 to 4 of run r. -/
def runCoords (e : BitVec 512) (r : Nat) : List Nat :=
  ([1, 2, 3, 4].foldl (fun (acc : Nat × List Nat) k =>
    (acc.1 / (tnBox e k + 1), acc.2 ++ [acc.1 % (tnBox e k + 1)])) (r, [])).2

/-! ## A copy's places (R90, R298, R299) -/

/-- Register i of a copy's descriptor. -/
def Copy.reg (c : Copy) (i : Nat) : Nat := (c.desc.getD i 0).toNat
def Copy.loc (c : Copy) : Nat := c.reg 5 % 2 ^ 21
def Copy.trackNone (c : Copy) : Bool := bit (c.reg 6) 31
def Copy.slot (c : Copy) : Nat := bits (c.reg 6) 26 21
def Copy.track (c : Copy) : Nat := c.reg 6 % 2 ^ 21

/-- Whether a copy is counted by a slot. -/
def Copy.bySlot (c : Copy) : Bool := match c.kind with | .slot => true | .mcSlot => true | _ => false

/-- Whether a copy's destination is in global memory. -/
def Copy.toGlobal (c : Copy) : Bool := match c.kind with | .st => true | .gg => true | _ => false

/-- The tensor coordinates of run r: X_k plus the box coordinate; along dimension 1 a gather takes its index. -/
def Copy.coords (c : Copy) (r : Nat) : List Nat :=
  (runCoords c.src r).zip [1, 2, 3, 4] |>.map fun jk =>
    if c.kind == .gth && jk.2 == 1 then c.index.getD jk.1 0 else c.reg jk.2 + jk.1

/-- Whether the coordinates along dimensions 1 to 4 lie below the tensor's sizes. -/
def inDims (e : BitVec 512) (xs : List Nat) : Bool := (xs.zip [1, 2, 3, 4]).all fun xk => xk.1 < tnDim e xk.2

/-- The address of byte RowByte of a row of a tensor (R89). -/
def rowAddr (e : BitVec 512) (xs : List Nat) (rowByte : Nat) : Nat :=
  tnBase e + rowByte + ((xs.zip [1, 2, 3, 4]).foldl (fun n xk => n + xk.1 * tnStride e xk.2) 0)

/-- One part of an image byte: where it comes from, as an element's byte address and its place in that byte, or nothing
for a place at or beyond the sizes. -/
structure Part where
  addr : Option Nat
  place : Nat
  deriving DecidableEq, Repr

/-- The parts of byte o of a box's dense image in tensor `e`: one whole byte, two nibbles or five trits. Places beyond the
run's last element have no address. -/
def Copy.parts (c : Copy) (e : BitVec 512) (o : Nat) : List Part :=
  let fmt := tnFormat c.src
  let n := tnBox c.src 0 + 1
  let rb := runBytes fmt n
  let xs := c.coords (o / rb)
  let b := o % rb
  let inside := inDims e xs
  let per := perByte fmt
  if per = 1 then
    let x0 := c.reg 0 + b / elemBytes fmt
    [⟨if inside && x0 < tnDim e 0 then some (rowAddr e xs (x0 * elemBytes fmt + b % elemBytes fmt)) else none, 0⟩]
  else
    (List.range per).map fun i =>
      let k := per * b + i
      let x0 := c.reg 0 + k
      ⟨if inside && k < n && x0 < tnDim e 0 then some (rowAddr e xs (x0 / per)) else none, x0 % per⟩

/-- The addresses that byte o of the image is read from. -/
def Copy.sources (c : Copy) (o : Nat) : List Nat := ((c.parts c.src o).filterMap (·.addr)).eraseDups

/-- A trit digit of a byte: a byte above 242 is five zero trits (R134). -/
def digitOf (b i : Nat) : Nat := if 243 ≤ b then 1 else b / 3 ^ i % 3

/-- Byte o of the image from the source bytes: whole bytes as they are, otherwise repacked (R90). -/
def Copy.byte (c : Copy) (o : Nat) (rd : Nat → Byte) : Byte :=
  let ps := c.parts c.src o
  match perByte (tnFormat c.src), ps with
  | 2, _ => BitVec.ofNat 8 ((ps.zip (List.range 2)).foldl (fun n p =>
      n + (match p.1.addr with | some a => bits (rd a).toNat (4 * p.1.place + 3) (4 * p.1.place) | none => 0) * 16 ^ p.2) 0)
  | 5, _ =>
    if ps.all fun p => p.addr.isSome && p.addr == (ps.headD ⟨none, 0⟩).addr then rd (((ps.headD ⟨none, 0⟩).addr).getD 0)
    else BitVec.ofNat 8 ((ps.zip (List.range 5)).foldl (fun n p =>
      n + (match p.1.addr with | some a => digitOf (rd a).toNat p.1.place | none => 1) * 3 ^ p.2) 0)
  | _, p :: _ => match p.addr with | some a => rd a | none => 0
  | _, [] => 0

/-- A byte written to a global destination: its address, and its value given the old byte; none where no element of it
lies below the sizes. -/
def Copy.target (c : Copy) (o : Nat) (new : Byte) (old : Nat → Byte) : Option (Nat × Byte) :=
  let ps := c.parts c.dst o
  match (ps.filterMap (·.addr)).head? with
  | none => none
  | some a =>
    if ps.all fun p => p.addr.isSome then some (a, new)
    else
      let base := if perByte (tnFormat c.src) = 2 then 16 else 3
      let digit (v : Byte) (i : Nat) : Nat :=
        if base = 16 then bits v.toNat (4 * i + 3) (4 * i) else digitOf v.toNat i
      some (a, BitVec.ofNat 8 ((ps.zip (List.range ps.length)).foldl (fun n p =>
        n + (if p.1.addr.isSome then digit new p.2 else digit (old a) p.2) * base ^ p.2) 0))

/-- Whether a destination byte is read before it is written. -/
def Copy.merges (c : Copy) (o : Nat) : Option Nat :=
  let ps := c.parts c.dst o
  match (ps.filterMap (·.addr)).head? with
  | some a => if ps.all fun p => p.addr.isSome then none else some a
  | none => none

/-- The bytes of sector i of the image. -/
def sectorBytes (i : Nat) : List Nat := (List.range 64).map fun k => 64 * i + k

/-! ## Issue of a copy (R299, R300) -/

/-- The team of a grid that is resident on a core. -/
def teamOnCore (s : State) (ctx grid core : Nat) : Option (Nat × Team) :=
  s.teams.find? fun e => e.2.id.ctx == ctx && e.2.id.grid == grid && e.2.id.core == core &&
    (match e.2.stat with | .saved _ _ => false | _ => true)

/-- The local cores that a multicast names, rising. -/
def namedCores (mask : Nat) : List Nat := (List.range 32).filter fun i => bit mask i

/-- Where a copy lands: its own team's scratchpad or global memory, or the teams that a multicast finds (R102, R103). -/
def landingsOf (s : State) (a : Agt) (kind : CopyKind) (cores : Nat) : List Landing :=
  match kind with
  | .mc | .mcSlot =>
    (namedCores cores).filterMap fun i =>
      let core := 32 * dieOf a.team.id.core + i
      (teamOnCore s a.team.id.ctx a.team.id.grid core).map fun x => ⟨core, x.2.res.scrGen, []⟩
  | _ => [⟨a.team.id.core, a.team.res.scrGen, []⟩]

/-- Whether a multicast's core mask breaks R102. -/
def badCores (s : State) (a : Agt) (cores : Nat) : Bool :=
  let ns := namedCores cores
  let mapOf := ((s.fields.get? (fieldOfTeam s a.team)).map (·.cores)).getD 0
  16 < ns.length || ns.any fun i => !mapOf.getLsbD (32 * dieOf a.team.id.core + i)

/-- The checks of R300, in order. -/
def copyChecks (s : State) (a : Agt) (c : Copy) : Option Res :=
  let fmt := tnFormat c.src
  let size := imageSize c.src
  let per := perByte fmt
  let scr := c.kind != .gg
  if fmt = 0 || (c.kind == .gg && tnFormat c.dst == 0) then some (accessViolation 0 0)
  else if c.kind == .gg && (tnFormat c.dst != fmt || [0, 1, 2, 3, 4].any fun k => tnBox c.src k != tnBox c.dst k) then
    some (accessViolation 0 0)
  else if c.kind == .gth && tnRank c.src == 1 then some (accessViolation 0 0)
  else if size % 64 ≠ 0 then some (misaligned 0 0)
  else if 2 ^ 24 < size then some (accessViolation 0 0)
  else if c.toGlobal && 1 < per && (c.reg 0 % per ≠ 0 || (tnBox c.src 0 + 1) % per ≠ 0) then some (misaligned 0 0)
  else
    match if scr then scrCheck a.team c.loc 128 size else none with
    | some r => some r
    | none =>
      match if c.bySlot then scrCheck a.team c.track 16 (ringExtent c.slot)
          else if c.trackNone then none else scrCheck a.team c.track 16 16 with
      | some r => some r
      | none =>
        match if c.kind == .gth then scrCheck a.team (c.reg 1) 4 (4 * (tnBox c.src 1 + 1)) else none with
        | some r => some r
        | none =>
          match c.kind with
          | .mc | .mcSlot => if badCores s a (c.reg 7) then some (accessViolation 0 0) else none
          | _ => none

/-- The team whose scratchpad a landing names, while its allocation is the one captured. -/
def landingTeam (s : State) (c : Copy) (l : Landing) : Option Nat :=
  match c.kind with
  | .mc | .mcSlot =>
    match s.teams.get? c.team with
    | none => none
    | some team => (teamOnCore s team.id.ctx team.id.grid l.core).bind fun x =>
        if x.2.res.scrGen = l.gen then some x.1 else none
  | _ => some c.team

/-- The slots of a copy claimed in order, as far as they are empty (R300, R101). -/
def claimSlots (s : State) (id : Nat) : List Nat → State
  | [] => s
  | core :: rest =>
    match s.copies.get? id with
    | none => s
    | some c =>
      match (c.lands.find? fun l => l.core == core).bind fun l => landingTeam s c l with
      | none => claimSlots { s with copies := s.copies.upd id fun c => { c with claims := rest } } id rest
      | some t =>
        if slotTag s t c.track c.slot = 0 then
          let s := setCounter (setTag s t c.track c.slot 1) t c.track c.slot (imageSize c.src)
          claimSlots { s with copies := s.copies.upd id fun c => { c with claims := rest } } id rest
        else s

/-- Whether the agent's CPYCNT is full (R187). -/
def Agt.copiesFull (a : Agt) : Bool :=
  (a.group.bind fun g => (a.team.groups.get? g).map fun grp => decide (255 ≤ grp.cpycnt)).getD false

/-- A copy claims what it needs and begins: it joins the open batch and raises CPYCNT, once that has room. -/
def beginCopy (s : State) (a : Agt) (id : Nat) : Res :=
  match s.copies.get? id with
  | none => .done s
  | some c =>
    let s := claimSlots s id c.claims
    if c.lands.isEmpty then .done { s with copies := s.copies.del id }
    else if ((s.copies.get? id).map fun c => c.claims.isEmpty).getD true && !a.copiesFull then
      let (n, s) := s.fresh
      let s := { s with copies := s.copies.upd id fun c => { c with begun := true, order := n } }
      .done (match a.group with
        | some g => updGroup s a.t g fun grp => { grp with cpycnt := grp.cpycnt + 1 }
        | none => s)
    else .hold s (.claim id)

/-- Whether the group has transfers between tiles and scratchpad that the Flume has not applied (R120, R321). -/
def pendingTransfer (team : Team) (g : Nat) : Bool :=
  team.fl.ops.any fun o => o.src == some g && (match o.kind with
    | .accLd => true | .accStF32 => true | .accStBf16 => true | .accStF16 => true | .fcld => true | _ => false)

/-- Whether a copy of a team's Sluice program still has scratchpad accesses to make (R120). -/
def sluiceScratch (s : State) (t : Nat) : Bool :=
  s.copies.any fun x => x.2.team == t && x.2.issuer.isNone && x.2.kind != .gg

/-- Whether an operation touches scratchpad. -/
def FlumeKind.usesScratch : FlumeKind → Bool
  | .fmm | .fmmt | .ftmask | .ftmaskAnc | .accLd | .accStF32 | .accStBf16 | .accStF16 | .fcld => true
  | _ => false

/-- Whether the engine program has scratchpad accesses that are not applied yet (R120). -/
def engineScratch (team : Team) : Bool := team.fl.ops.any fun o => o.src == none && o.kind.usesScratch

/-- Whether the agent is a group with a scratchpad access that is not applied yet (R119). -/
def Agt.scratchWaits (a : Agt) (s : State) : Bool := (a.group.map fun g => pendingScratch s a.t g).getD false

/-- Whether the agent has any scratchpad access before which no arrival and no release of a slot may be applied (R120, R303, R304): a
group's, its transfers between tiles and scratchpad among them, or an engine's: the Flume's operations, the Sluice's copies. -/
def Agt.signalWaits (a : Agt) (s : State) : Bool :=
  match a.group with
  | some g => pendingScratch s a.t g || pendingTransfer a.team g
  | none => if a.flume then engineScratch a.team else sluiceScratch s a.t

/-- The scratchpad extents that a copy writes, or reads: core, first byte and beyond the last. -/
def Copy.scrWrites (c : Copy) : List (Nat × Nat × Nat) :=
  if c.toGlobal then [] else c.lands.map fun l => (l.core, c.loc, c.loc + imageSize c.src)
def Copy.scrReads (c : Copy) : List (Nat × Nat × Nat) :=
  if c.kind == .st then [(c.core, c.loc, c.loc + imageSize c.src)] else []

/-- Whether an earlier copy of the team still writes a byte of an index list (R119, R301). -/
def listBehind (s : State) (a : Agt) (c : Copy) : Bool :=
  let lo := c.reg 1
  let hi := lo + 4 * (tnBox c.src 1 + 1)
  s.copies.any fun e => e.2.team == a.t && e.2.begun && !e.2.stopped &&
    e.2.scrWrites.any fun x => x.1 == a.team.id.core && x.2.1 < hi && lo < x.2.2

/-- The seven copy forms. A group issues one only where ACTIVE AND the predicate is not empty (R91). -/
def copyWord (w : Bool) (kind : CopyKind) (tn : BitVec 8) (sa : BitVec 6) (p : BitVec 3) (s : State) : Out :=
  let go (a : Agt) (issues : Bool) : Res :=
    match a.hold with
    | some (.claim id) => beginCopy s a id
    | _ =>
      if !issues then .done s
      else
        let desc := a.block sa.toNat 8
        let ctx := a.team.id.ctx
        let src := tnEntry s ctx tn.toNat
        let dst := match kind with
          | .gg => tnEntry s ctx ((desc.getD 5 0).toNat % 256)
          | _ => src
        let lands := landingsOf s a kind (desc.getD 7 0).toNat
        let c : Copy := { team := a.t, issuer := a.group, path := a.path, pc := a.pc, kind, src, dst, desc, index := [],
                          sectors := imageSize src / 64, lands, batch := none, claims := [], begun := false, order := 0, buf := [], got := [],
                          core := a.team.id.core, stopped := false, mask := a.mask, stand := a.stand }
        match copyChecks s a c with
        | some r => r
        | none =>
          if a.copiesFull || (kind == .gth && (a.scratchWaits s || listBehind s a c)) then .again s
          else
            let index := match kind with
              | .gth => (List.range (tnBox src 1 + 1)).map fun j => scrRead s a.t (c.reg 1 + 4 * j) 4
              | _ => []
            let claims := if c.bySlot then lands.map (·.core) else []
            let (id, s) := s.fresh
            beginCopy { s with copies := s.copies.put id { c with index, claims } } a id
  let bad (a : Agt) : Bool := a.top < sa.toNat + 7
  runX .async w s
    (fun e => if bad e.agt then illegal 3
      else go e.agt ((e.path.mask &&& e.grp.pred p.toNat) != 0))
    (fun q => if bad q.agt then illegal 3 else go q.agt true)

def execCpyLd (w : Bool) (tn : BitVec 8) (a : BitVec 6) (p : BitVec 3) (s : State) : Out := copyWord w .ld tn a p s
def execCpySlot (w : Bool) (tn : BitVec 8) (a : BitVec 6) (p : BitVec 3) (s : State) : Out := copyWord w .slot tn a p s
def execCpySt (w : Bool) (tn : BitVec 8) (a : BitVec 6) (p : BitVec 3) (s : State) : Out := copyWord w .st tn a p s
def execCpyGg (w : Bool) (tn : BitVec 8) (a : BitVec 6) (p : BitVec 3) (s : State) : Out := copyWord w .gg tn a p s
def execCpyGth (w : Bool) (tn : BitVec 8) (a : BitVec 6) (p : BitVec 3) (s : State) : Out := copyWord w .gth tn a p s
def execCpyMc (w : Bool) (tn : BitVec 8) (a : BitVec 6) (p : BitVec 3) (s : State) : Out := copyWord w .mc tn a p s
def execCpyMcSlot (w : Bool) (tn : BitVec 8) (a : BitVec 6) (p : BitVec 3) (s : State) : Out := copyWord w .mcSlot tn a p s

/-! ## Batches (R94, R95, R302) -/

/-- The copies of an agent in its open batch. -/
def Copy.openOf (c : Copy) (t : Nat) (g : Option Nat) : Bool :=
  c.team == t && c.issuer == g && c.batch.isNone && c.begun

/-- The closed, incomplete batches of an agent. -/
def openBatches (s : State) (t : Nat) (g : Option Nat) : List Nat :=
  ((s.copies.filter fun e => e.2.team == t && e.2.issuer == g).filterMap fun e => e.2.batch).eraseDups

/-- Batch b is at or before n (R95). -/
def atOrBefore (b n : Nat) : Bool := (n + 65536 - b) % 65536 < 32768

/-- Whether every closed batch at or before n has completed. -/
def batchesDone (s : State) (t : Nat) (g : Option Nat) (n : Nat) : Bool :=
  (openBatches s t g).all fun b => !atOrBefore b n

/-- LAST_BATCH of the agent set. -/
def Agt.setLast (a : Agt) (s : State) (n : Nat) : State :=
  match a.group with
  | some g => updGroup s a.t g fun grp => { grp with lastBatch := n }
  | none => updSeq s a.t a.flume fun q => { q with lastBatch := n }

/-- Closed batches of an agent that would be incomplete after a `cbat`: the open one too, if it has a copy. -/
def batchesAfter (s : State) (t : Nat) (g : Option Nat) : Nat :=
  (openBatches s t g).length + (if s.copies.any fun e => e.2.openOf t g then 1 else 0)

def execCbat (w : Bool) (wr : Bool) (d : BitVec 6) (s : State) : Out :=
  runA w s [] [d.toNat] fun a =>
    if 256 ≤ batchesAfter s a.t a.group then .again s
    else
      let n := (a.lastBatch + 1) % 65536
      let s := { s with copies := s.copies.mapVals fun _ c => if c.openOf a.t a.group then { c with batch := some n } else c }
      let s := a.setLast s n
      .done (if wr then a.setS s d.toNat (BitVec.ofNat 32 n) else s)

def execCwait (w : Bool) (n : BitVec 16) (s : State) : Out :=
  runA w s [] [] fun a => if batchesDone s a.t a.group n.toNat then .done s else .keep s []

def execCwaitR (w : Bool) (r : BitVec 6) (s : State) : Out :=
  runA w s [] [r.toNat] fun a =>
    let n := ((heldArgs a.hold).bind List.head?).getD ((a.rd r.toNat).toNat % 65536)
    if batchesDone s a.t a.group n then .done s else .keep s [n]

/-! ## Barrier words (R303) -/

/-- A barrier operand: 16-byte aligned, 16 bytes within the allocation. -/
def withBarrier (a : Agt) (off : Nat) (f : Res) : Res := (scrCheck a.team off 16 16).getD f

/-- Whether a store of the agent to the scratchpad must wait: for a group's earlier accesses there (R119), or for its acquire that is
not complete (R114). -/
def Agt.storeWaits (a : Agt) (s : State) : Bool :=
  a.scratchWaits s || (a.group.map fun g => pendingAcquire s a.t g).getD false

/-- A store to the scratchpad, in the order of the issuer's accesses. -/
def Agt.behindScratch (a : Agt) (s : State) (f : Res) : Res := if a.storeWaits s then .again s else f

/-- An arrival or a release, applied after the issuer's earlier scratchpad accesses (R120, R303, R304). -/
def Agt.signals (a : Agt) (s : State) (f : Res) : Res := if a.signalWaits s then .again s else f

def execTbinit (w : Bool) (x b : BitVec 6) (s : State) : Out :=
  runA w s [] [x.toNat, b.toNat, b.toNat + 1] fun a =>
    let off := (a.rd x.toNat).toNat
    withBarrier a off
      (let arr := bits (a.rd b.toNat).toNat 11 0
       let sec := bits (a.rd (b.toNat + 1)).toNat 23 0
       a.behindScratch s (.done (scrWrite s a.t off 16 (arr * 2 ^ 4 + arr * 2 ^ 16 + sec * 2 ^ 28 + sec * 2 ^ 52))))

/-- An arrival of count k at the barrier at an offset; an overrun traps with OVR set. -/
def arrive (s : State) (a : Agt) (off k : Nat) : Res :=
  withBarrier a off
    (if k = 0 then .done s
     else a.signals s
      (let (s, overrun) := tbApply s a.t off k 0
       if overrun then .trapWith s 0x0E 0 0 else .done s))

def execTbarrive (w : Bool) (x : BitVec 6) (k : BitVec 12) (s : State) : Out :=
  runA w s [] [x.toNat] fun a => arrive s a (a.rd x.toNat).toNat k.toNat

def execTbarriveR (w : Bool) (x b : BitVec 6) (s : State) : Out :=
  runA w s [] [x.toNat, b.toNat] fun a => arrive s a (a.rd x.toNat).toNat (bits (a.rd b.toNat).toNat 11 0)

def execTbwait (w : Bool) (x b : BitVec 6) (s : State) : Out :=
  runA w s [] [x.toNat, b.toNat] fun a =>
    let args := (heldArgs a.hold).getD [(a.rd x.toNat).toNat, (a.rd b.toNat).toNat % 16]
    let off := args.getD 0 0
    withBarrier a off (if bits (scrRead s a.t off 16) 3 0 ≠ args.getD 1 0 then .done s else .keep s args)

def execTbphase (w : Bool) (x d : BitVec 6) (s : State) : Out :=
  runA w s [] [x.toNat, d.toNat] fun a =>
    let off := (a.rd x.toNat).toNat
    withBarrier a off
      (let v := scrRead s a.t off 16
       .done (a.setS s d.toNat (BitVec.ofNat 32 (bits v 3 0 + bits v 76 76 * 16))))

/-! ## Slot words (R304) -/

/-- A ring operand with the counter of slot i. -/
def withRing (a : Agt) (off i : Nat) (f : Res) : Res := (scrCheck a.team off 16 (ringExtent i)).getD f

/-- A taker of slot i: full becomes draining, or the word waits. -/
def takeSlotWord (s : State) (a : Agt) (x i : Nat) : Res :=
  let off := ((heldArgs a.hold).bind List.head?).getD (a.rd x).toNat
  withRing a off i (if slotTag s a.t off i = 2 then .done (setTag s a.t off i 3) else .keep s [off])

/-- A releaser of slot i: draining becomes empty; any other tag is a QUEUE_FAULT. -/
def releaseSlotWord (s : State) (a : Agt) (x i : Nat) : Res :=
  let off := (a.rd x).toNat
  withRing a off i (a.signals s (if slotTag s a.t off i = 3 then .done (setTag s a.t off i 0) else .trap 0x0F 0 0))

def execSltake (w : Bool) (x i : BitVec 6) (s : State) : Out :=
  runA w s [] [x.toNat] fun a => takeSlotWord s a x.toNat i.toNat
def execSlrel (w : Bool) (x i : BitVec 6) (s : State) : Out :=
  runA w s [] [x.toNat] fun a => releaseSlotWord s a x.toNat i.toNat

def execSltag (w : Bool) (x d i : BitVec 6) (s : State) : Out :=
  runA w s [] [x.toNat, d.toNat] fun a =>
    let off := (a.rd x.toNat).toNat
    withRing a off i.toNat
      (.done (a.setS s d.toNat (BitVec.ofNat 32 (slotTag s a.t off i.toNat + 4 * (slotCounter s a.t off i.toNat % 2 ^ 30)))))

def execSlinit (w : Bool) (x n : BitVec 6) (s : State) : Out :=
  runA w s [] [x.toNat] fun a =>
    let off := (a.rd x.toNat).toNat
    withRing a off n.toNat
      (a.behindScratch s (.done ((List.range (n.toNat + 1)).foldl (fun s i => setCounter s a.t off i 0)
        ((List.range (n.toNat + 1)).foldl (fun s i => setTag s a.t off i 0) s))))

/-! ## Queue words (R305 to R307) -/

/-- The release of a push without RLX, at device scope (R113, R306). A sequencer has no G access; its release writes back what its
core and its die hold like any other. -/
def pushRelease (s : State) (a : Agt) (e : Option Env) : Ready :=
  match e with
  | some e => release s e 4 true
  | none =>
    let die := dieOf a.team.id.core
    let s := l2Flush (l1Release s a.team.id.core 4) die a.team.id.ctx
    .go (unsent s die a.team.id.ctx) s

/-- A queue word: its queue and its eight registers are read when it is first tried (R296); its message goes to the queue's home, and
its path waits for the answer. -/
def queueWord (w : Bool) (op : QueueOp) (qreg rlx : Bool) (sa sd : Nat) (q : BitVec 8) (s : State) : Out :=
  let go (a : Agt) (e : Option Env) : Res :=
    let pushes := match op with | .push => true | .pushTry => true | _ => false
    let args := (heldArgs a.hold).getD
      ((if qreg then (a.rd (q.toNat % 64)).toNat % 256 else q.toNat) :: if pushes then (a.block sa 8).map (·.toNat) else [])
    let n := args.headD 0
    let ctx := a.team.id.ctx
    match s.workQs.get? (workKey ctx n) with
    | none => .trap 0x0F 0 0
    | some queue =>
      match if pushes && !rlx then pushRelease s a e else .go [] s with
      | .wait _ => .keep s args
      | .go after s =>
        let (id, s) := s.fresh
        let src := dieOf a.team.id.core
        let hops := route s src queue.home
        let m : QueueMsg := { team := a.t, src, home := queue.home, agent := a.group, path := a.path, ctx, q := n, op, rlx, sa, sd,
                              data := args.tail.map (BitVec.ofNat 32), atHome := false, after, hops, answer := none, wire := [] }
        let s := { s with msgs := s.msgs.put id { m with wire := m.message id (s.die src).vc } }
        .hold (setOff s hops (.queue id)) (.queue id)
  let bad (a : Agt) : Bool := a.top < sa + 7
  runX .async w s
    (fun e => if bad e.agt then illegal 3 else go e.agt (some e))
    (fun x => if bad x.agt || 31 < sd || (qreg && 31 < q.toNat) then illegal 3 else go x.agt none)

def execQpush (w g r : Bool) (a : BitVec 6) (q : BitVec 8) (s : State) : Out := queueWord w .push g r a.toNat 0 q s
def execQpushTry (w g r : Bool) (a d : BitVec 6) (q : BitVec 8) (s : State) : Out :=
  queueWord w .pushTry g r a.toNat d.toNat q s
def execQwait (w g r : Bool) (a : BitVec 6) (q : BitVec 8) (s : State) : Out := queueWord w .wait g r a.toNat 0 q s
def execQpopTry (w g r : Bool) (a d : BitVec 6) (q : BitVec 8) (s : State) : Out :=
  queueWord w .popTry g r a.toNat d.toNat q s

/-! ## Tensor identifier words (R308, R309) -/

/-- A tensor entry written. -/
def setTn (s : State) (ctx n : Nat) (e : BitVec 512) : State :=
  { s with live := s.live.put ctx { s.ctxLive ctx with tns := (s.ctxLive ctx).tns.put n e } }

/-- 16 words as an entry: word i holds bits 32i + 31 to 32i. -/
def entryOf (ws : List Word) : BitVec 512 := BitVec.ofNat 512 (ofBytes (ws.flatMap fun w => bytesOf 4 w.toNat))

def execTnset (w : Bool) (tn : BitVec 8) (x d : BitVec 6) (s : State) : Out :=
  runA w s [(x.toNat, 16)] [d.toNat] fun a =>
    let e := entryOf (a.block x.toNat 16)
    let st := tnStatus e
    let s := if st = 0 then setTn s a.team.id.ctx tn.toNat e else s
    .done (a.setS s d.toNat (BitVec.ofNat 32 st))

/-- DESIGN CHOICE (log entry 79): an entry whose FORMAT is 0 is returned; R87 makes an instruction that names such an entry an
ACCESS_VIOLATION, and does not say whether one that only reads the entry does so. -/
def execTnget (w : Bool) (tn : BitVec 8) (d : BitVec 6) (s : State) : Out :=
  runA w s [(d.toNat, 16)] [] fun a =>
    let e := tnEntry s a.team.id.ctx tn.toNat
    .done (a.setBlock s d.toNat ((List.range 16).map fun i => e.extractLsb' (32 * i) 32))

end Sys2Proof.Machine
end

