-- ==== Sys2Proof/Machine/VecInt.lean ====
section
/-! DEFINITION. The vector integer and lane instructions, majors 0x14 to 0x1B (R249 to R263). -/

namespace Sys2Proof.Machine

/-! ## Arithmetic and copy, major 0x14 (R251, R252) -/

/-- SatI32 of R250. -/
def satI32 (x : Int) : Word := BitVec.ofInt 32 (max (-2147483648) (min 2147483647 x))

def execVaddI32 (w : Bool) (d a b : BitVec 7) (s : State) : Out := v3 w .one d a b s fun x y => x + y
def execVsubI32 (w : Bool) (d a b : BitVec 7) (s : State) : Out := v3 w .one d a b s fun x y => x - y
def execVmulI32 (w : Bool) (d a b : BitVec 7) (s : State) : Out := v3 w .one d a b s fun x y => x * y
def execVmulhiI32 (w : Bool) (d a b : BitVec 7) (s : State) : Out :=
  v3 w .one d a b s fun x y => highWord (wrap64 (x.toInt * y.toInt))
def execVmulhiN32 (w : Bool) (d a b : BitVec 7) (s : State) : Out :=
  v3 w .one d a b s fun x y => BitVec.ofNat 32 (x.toNat * y.toNat / 2 ^ 32)
def execVminI32 (w : Bool) (d a b : BitVec 7) (s : State) : Out := v3 w .one d a b s minI
def execVminN32 (w : Bool) (d a b : BitVec 7) (s : State) : Out := v3 w .one d a b s minN
def execVmaxI32 (w : Bool) (d a b : BitVec 7) (s : State) : Out := v3 w .one d a b s maxI
def execVmaxN32 (w : Bool) (d a b : BitVec 7) (s : State) : Out := v3 w .one d a b s maxN
def execVaddsI32 (w : Bool) (d a b : BitVec 7) (s : State) : Out := v3 w .one d a b s fun x y => satI32 (x.toInt + y.toInt)
def execVsubsI32 (w : Bool) (d a b : BitVec 7) (s : State) : Out := v3 w .one d a b s fun x y => satI32 (x.toInt - y.toInt)
def execVabsI32 (w : Bool) (d a : BitVec 7) (s : State) : Out := v2 w .one d a s fun x => satI32 x.toInt.natAbs
def execVaddminI32 (w : Bool) (d a b : BitVec 7) (s : State) : Out :=
  v3acc w .one d a b s fun z x y => minI z (satI32 (x.toInt + y.toInt))
def execVcopy (w : Bool) (d a : BitVec 7) (s : State) : Out := v2 w .one d a s fun x => x
def execVaddB64 (w : Bool) (d a b : BitVec 7) (s : State) : Out := v3p w .one d a b s fun x y => x + y
def execVsubB64 (w : Bool) (d a b : BitVec 7) (s : State) : Out := v3p w .one d a b s fun x y => x - y

/-! ## Logic and shifts, major 0x15 (R253) -/

def execVand (w : Bool) (d a b : BitVec 7) (s : State) : Out := v3 w .one d a b s fun x y => x &&& y
def execVor (w : Bool) (d a b : BitVec 7) (s : State) : Out := v3 w .one d a b s fun x y => x ||| y
def execVxor (w : Bool) (d a b : BitVec 7) (s : State) : Out := v3 w .one d a b s fun x y => x ^^^ y
def execVandn (w : Bool) (d a b : BitVec 7) (s : State) : Out := v3 w .one d a b s fun x y => x &&& ~~~y
def execVnot (w : Bool) (d a : BitVec 7) (s : State) : Out := v2 w .one d a s fun x => ~~~x
def execVshl (w : Bool) (d a b : BitVec 7) (s : State) : Out := v3 w .one d a b s fun x y => shlV x y.toNat
def execVshr (w : Bool) (d a b : BitVec 7) (s : State) : Out := v3 w .one d a b s fun x y => shrV x y.toNat
def execVsra (w : Bool) (d a b : BitVec 7) (s : State) : Out := v3 w .one d a b s fun x y => sraV x y.toNat
def execVpopc (w : Bool) (d a : BitVec 7) (s : State) : Out := v2 w .one d a s fun x => BitVec.ofNat 32 (popc x)
def execVclz (w : Bool) (d a : BitVec 7) (s : State) : Out := v2 w .one d a s fun x => BitVec.ofNat 32 (clzV x)
def execVctz (w : Bool) (d a : BitVec 7) (s : State) : Out := v2 w .one d a s fun x => BitVec.ofNat 32 (ctzV x)
def execVbrev (w : Bool) (d a : BitVec 7) (s : State) : Out := v2 w .one d a s brevV

/-! ## Immediates, majors 0x16 and 0x17 (R254, R255) -/

/-- A seven-bit immediate read as signed, as a word. -/
def imm7 (i : BitVec 7) : Word := wrap32 (sext i)

def execVaddiI32 (w : Bool) (d a i : BitVec 7) (s : State) : Out := v2 w .one d a s fun x => x + imm7 i
def execVmuliI32 (w : Bool) (d a i : BitVec 7) (s : State) : Out := v2 w .one d a s fun x => x * imm7 i
def execVandi (w : Bool) (d a i : BitVec 7) (s : State) : Out := v2 w .one d a s fun x => x &&& imm7 i
def execVori (w : Bool) (d a i : BitVec 7) (s : State) : Out := v2 w .one d a s fun x => x ||| imm7 i
def execVxori (w : Bool) (d a i : BitVec 7) (s : State) : Out := v2 w .one d a s fun x => x ^^^ imm7 i
def execVminiI32 (w : Bool) (d a i : BitVec 7) (s : State) : Out := v2 w .one d a s fun x => minI x (imm7 i)
def execVmaxiI32 (w : Bool) (d a i : BitVec 7) (s : State) : Out := v2 w .one d a s fun x => maxI x (imm7 i)
def execVshli (w : Bool) (d a i : BitVec 7) (s : State) : Out := v2 w .one d a s fun x => shlV x i.toNat
def execVshri (w : Bool) (d a i : BitVec 7) (s : State) : Out := v2 w .one d a s fun x => shrV x i.toNat
def execVsrai (w : Bool) (d a i : BitVec 7) (s : State) : Out := v2 w .one d a s fun x => sraV x i.toNat

def execVmovi (w : Bool) (d : BitVec 7) (i : BitVec 16) (s : State) : Out :=
  runV w s .one [] [d.toNat] fun e _ => { vals := [lanesFrom fun _ => wrap32 (sext i)], mask := e.path.mask }
def execVmoviH (w : Bool) (d : BitVec 7) (i : BitVec 16) (s : State) : Out :=
  v2 w .one d d s fun x => BitVec.ofNat 32 (i.toNat * 2 ^ 16 + x.toNat % 2 ^ 16)
def execVmoviZ (w : Bool) (d : BitVec 7) (i : BitVec 16) (s : State) : Out :=
  runV w s .one [] [d.toNat] fun e _ => { vals := [lanesFrom fun _ => BitVec.ofNat 32 i.toNat], mask := e.path.mask }

/-! ## Compares and select, major 0x18 (R256, R257) -/

def execVcmpI32 (w : Bool) (c p : BitVec 3) (a b : BitVec 7) (s : State) : Out :=
  vcompare w p [a.toNat, b.toNat] s fun rd l =>
    condHolds c.toNat (laneAt (rd a.toNat) l).toInt (laneAt (rd b.toNat) l).toInt
def execVcmpN32 (w : Bool) (c p : BitVec 3) (a b : BitVec 7) (s : State) : Out :=
  vcompare w p [a.toNat, b.toNat] s fun rd l =>
    condHolds c.toNat (laneAt (rd a.toNat) l).toNat (laneAt (rd b.toNat) l).toNat
def execVtst (w : Bool) (p : BitVec 3) (a b : BitVec 7) (s : State) : Out :=
  vcompare w p [a.toNat, b.toNat] s fun rd l => (laneAt (rd a.toNat) l &&& laneAt (rd b.toNat) l) != 0
/-- DESIGN CHOICE (log entry 87): latency 1, as the other words of major 0x18 have; R189's table does not name `vsel`. -/
def execVsel (w : Bool) (p : BitVec 3) (d a b : BitVec 7) (s : State) : Out :=
  runV w s .one [a.toNat, b.toNat] [d.toNat] fun e rd =>
    { vals := [lanesFrom fun l =>
        if (e.grp.pred p.toNat).getLsbD l then laneAt (rd a.toNat) l else laneAt (rd b.toNat) l]
      mask := e.path.mask }

/-! ## Lane movement, major 0x19 (R258) -/

def execVshfl (w : Bool) (d a b : BitVec 7) (s : State) : Out :=
  runV w s .move [a.toNat, b.toNat] [d.toNat] fun e rd =>
    { vals := [lanesFrom fun l =>
        let i := (laneAt (rd b.toNat) l).toNat
        if i < 96 then laneAt (rd a.toNat) i else 0]
      mask := e.path.mask }

/-- The source lane of `vlsh` at lane l, where there is one. -/
def shiftSource (n : Int) (l : Nat) : Option Nat :=
  let i : Int := (l : Int) - n
  if 0 ≤ i && i < 96 then some i.toNat else none

def execVlsh (w : Bool) (d a n : BitVec 7) (s : State) : Out :=
  runV w s .move [a.toNat] [d.toNat] fun e rd =>
    { vals := [lanesFrom fun l => ((shiftSource (sext n) l).map fun i => laneAt (rd a.toNat) i).getD 0]
      mask := maskOf fun l => e.path.mask.getLsbD l && (shiftSource (sext n) l).isSome }
def execVbcast (w : Bool) (d a n : BitVec 7) (s : State) : Out :=
  runV w s .move [a.toNat] [d.toNat] fun e rd =>
    { vals := [lanesFrom fun _ => laneAt (rd a.toNat) n.toNat], mask := e.path.mask }
def execVbcastS (w : Bool) (d a : BitVec 7) (s : State) : Out :=
  runV w s .move [] [d.toNat] fun e _ => { vals := [lanesFrom fun _ => readS e.grp e.path a.toNat], mask := e.path.mask }

/-! ## vregroup (R259, R260) -/

/-- Names first … last. -/
def nameRange (first last : Nat) : List Nat := (List.range (last + 1 - first)).map (· + first)

/-- The group's only live path, if it waits at a `vregroup`: path number, partner, direction, range. -/
def regroupAt (grp : Group) : Option (Nat × Nat × Bool × Nat × Nat) :=
  grp.paths.findSome? fun e =>
    match e.2.hold with
    | some (.regroup g snd first last) => some (e.1, g, snd, first, last)
    | _ => none

/-- The word at which a path stands. -/
def Path.word (p : Path) : Word := (p.clause.map fun c => c.words.headD 0).getD 0

/-- An issuing environment for a group's path that is not the issuing one. -/
def envOf (s : State) (t g p : Nat) : Option Env :=
  (s.teams.get? t).bind fun team => (team.groups.get? g).bind fun grp => (grp.paths.get? p).map fun path =>
    { t, team, g, grp, p, path }

/-- Lanes of a mask, in order, as the first lanes of a row, from lane `skip` of them on. -/
def packed (v : List Word) (ls : List Nat) : List Word := ls.map fun l => laneAt v l

/-- 96 lanes that begin with a list. -/
def padded (v : List Word) : List Word := lanesFrom fun l => v.getD l 0

/-- The mask of the first n lanes. -/
def firstLanes (n : Nat) : LaneMask := maskOf fun l => l < n

/-- Which lanes the pair keeps and hands on: the receiver's, the donor's first t to it, the donor's rest. -/
def regroupTake (r d : List Nat) : List Nat × List Nat :=
  let t := min d.length (96 - r.length)
  (d.take t, d.drop t)

/-- The domain and the mask after a `vregroup`. -/
def regroupMask (s : State) (t g p : Nat) (n : Nat) : State :=
  updPath s t g p fun path => { path with domain := BitVec.allOnes 96, mask := firstLanes n }

/-- The rows of a range written whole at the latency of R189. -/
def regroupWrite (s : State) (e : Env) (vals : List (Nat × List Word)) : State :=
  writeNames s e (Latency.regroup.words e.team.id.image) (BitVec.allOnes 96) 0 vals

/-- A path's word that has stood retires. Its switch marker acted when it was issued (R188). -/
def retireAt (s : State) (t g p : Nat) : State :=
  match envOf s t g p with
  | some e => retire false e s
  | none => s

/-- A path's `vregroup` retires; its switch marker also waits for its results, which begin only now. -/
def retireRegroup (s : State) (t g p : Nat) : State :=
  match envOf s t g p with
  | some e => retire (e.path.word.getLsbD 31) e s
  | none => s

/-- The step of R260: receiver and donor, each with its path, over the range. A row mapped in both ranges takes the
donor's lanes. -/
def regroupPair (s : State) (r d : Env) (first last : Nat) : State :=
  let rl := lanesOf r.path.mask
  let dl := lanesOf d.path.mask
  let (moved, kept) := regroupTake rl dl
  let ns := nameRange first last
  let dvals := ns.map fun n => (n, padded (packed (d.team.lanes d.g n) kept))
  let donorOf (n : Nat) : Option (List Word) :=
    (dvals.reverse.find? fun v => (d.team.mapped d.g v.1).map (·.row) == (r.team.mapped r.g n).map (·.row)).map (·.2)
  let rvals := ns.map fun n =>
    (n, (donorOf n).getD (padded (packed (r.team.lanes r.g n) rl ++ packed (d.team.lanes d.g n) moved)))
  let s := regroupMask (regroupMask s r.t r.g r.p (rl.length + moved.length)) d.t d.g d.p kept.length
  regroupWrite (regroupWrite s r rvals) d dvals

/-- A `vregroup` that completes alone, its partner having ended: the active lanes are packed. -/
def regroupAlone (s : State) (e : Env) (first last : Nat) : State :=
  let ls := lanesOf e.path.mask
  let vals := (nameRange first last).map fun n => (n, padded (packed (e.team.lanes e.g n) ls))
  regroupWrite (regroupMask s e.t e.g e.p ls.length) e vals

/-- The groups of a team that wait for a group that has ended complete alone (R259). -/
def regroupEnded (s : State) (t gone : Nat) : State :=
  match s.teams.get? t with
  | none => s
  | some team =>
    team.groups.keys.foldl (fun s g =>
      match ((s.teams.get? t).bind fun team => team.groups.get? g).bind regroupAt with
      | some (p, partner, _, first, last) =>
        if partner = gone then
          match envOf s t g p with
          | some e => retireRegroup (regroupAlone s e first last) t g p
          | none => s
        else s
      | none => s) s

/-- The two forms of `vregroup`. -/
def regroup (w : Bool) (snd : Bool) (d a g : BitVec 7) (s : State) : Out :=
  runG .group0 w s fun e =>
    let first := d.toNat
    let last := a.toNat
    if g.toNat = e.g || e.team.groups.length ≤ g.toNat then illegal 3
    else if 1 < e.grp.paths.length || !e.path.pstack.isEmpty then illegal 2
    else if !e.team.allMapped e.g (nameRange first last) then unmappedName
    else
      match e.team.groups.get? g.toNat with
      | none => .done (regroupAlone s e first last)
      | some other =>
        if other.ended then .done (regroupAlone s e first last)
        else
          match regroupAt other with
          | none => .hold s (.regroup g.toNat snd first last)
          | some (p, partner, snd', first', last') =>
            if partner ≠ e.g then .hold s (.regroup g.toNat snd first last)
            else if snd' = snd || first' ≠ first || last' ≠ last then
              let mine := fun s => stopGroup s e.t e.g e.p e.path.pc 0x01 8 0
              let theirs := fun s => match envOf s e.t g.toNat p with
                | some o => stopGroup s o.t o.g o.p o.path.pc 0x01 8 0
                | none => s
              .placed (if e.g < g.toNat then theirs (mine s) else mine (theirs s))
            else
              match envOf s e.t g.toNat p with
              | none => .hold s (.regroup g.toNat snd first last)
              | some o =>
                let s := if snd then regroupPair s o e first last else regroupPair s e o first last
                .done (retireRegroup s o.t o.g o.p)

def execVregroupRecv (w : Bool) (d a g : BitVec 7) (s : State) : Out := regroup w false d a g s
def execVregroupSend (w : Bool) (d a g : BitVec 7) (s : State) : Out := regroup w true d a g s

/-! ## Reductions and scans, major 0x1A (R261) -/

/-- A reduction over the active lanes, into every active lane. -/
def vreduce (w : Bool) (d a : BitVec 7) (s : State) (op : Word → Word → Word) (unit : Word) : Out :=
  runV w s .reduce [a.toNat] [d.toNat] fun e rd =>
    let x := (lanesOf e.path.mask).foldl (fun acc l => op acc (laneAt (rd a.toNat) l)) unit
    { vals := [lanesFrom fun _ => x], mask := e.path.mask }

/-- The running values of a scan over lanes 0 to 95. -/
def scanVals (m : LaneMask) (v : List Word) (op : Word → Word → Word) (unit : Word) : List Word :=
  ((List.range 96).foldl (fun (acc : Word × List Word) l =>
    let x := if m.getLsbD l then op acc.1 (laneAt v l) else acc.1
    (x, x :: acc.2)) (unit, [])).2.reverse

def vscan (w : Bool) (d a : BitVec 7) (s : State) (op : Word → Word → Word) (unit : Word) : Out :=
  runV w s .reduce [a.toNat] [d.toNat] fun e rd =>
    { vals := [scanVals e.path.mask (rd a.toNat) op unit], mask := e.path.mask }

def execVredAddI32 (w : Bool) (d a : BitVec 7) (s : State) : Out := vreduce w d a s (fun x y => x + y) 0
def execVredMinI32 (w : Bool) (d a : BitVec 7) (s : State) : Out := vreduce w d a s minI 0x7FFFFFFF
def execVredMinN32 (w : Bool) (d a : BitVec 7) (s : State) : Out := vreduce w d a s minN 0xFFFFFFFF
def execVredMaxI32 (w : Bool) (d a : BitVec 7) (s : State) : Out := vreduce w d a s maxI 0x80000000
def execVredMaxN32 (w : Bool) (d a : BitVec 7) (s : State) : Out := vreduce w d a s maxN 0
def execVredAnd (w : Bool) (d a : BitVec 7) (s : State) : Out := vreduce w d a s (fun x y => x &&& y) 0xFFFFFFFF
def execVredOr (w : Bool) (d a : BitVec 7) (s : State) : Out := vreduce w d a s (fun x y => x ||| y) 0
def execVredXor (w : Bool) (d a : BitVec 7) (s : State) : Out := vreduce w d a s (fun x y => x ^^^ y) 0
def execVscanAddI32 (w : Bool) (d a : BitVec 7) (s : State) : Out := vscan w d a s (fun x y => x + y) 0
def execVscanMaxI32 (w : Bool) (d a : BitVec 7) (s : State) : Out := vscan w d a s maxI 0x80000000

/-! ## Votes and ballots (R262) -/

/-- Scalars written at the latency of a vote. -/
def vote (w : Bool) (s : State) (d : Nat) (f : Env → List Word) : Out :=
  runG .group0 w s fun e =>
    let vs := f e
    .done ((vs.zip (List.range vs.length)).foldl (fun s v =>
      result s e (Latency.reduce.words e.team.id.image) (.scalar (d + v.2)) (BitVec.allOnes 96) [v.1] 0 0) s)

def execVvoteAny (w : Bool) (d p : BitVec 7) (s : State) : Out :=
  vote w s d.toNat fun e => [boolWord ((e.grp.pred p.toNat &&& e.path.mask) != 0)]
def execVvoteAll (w : Bool) (d p : BitVec 7) (s : State) : Out :=
  vote w s d.toNat fun e => [boolWord ((e.path.mask &&& ~~~(e.grp.pred p.toNat)) == 0)]
def execVvoteFirst (w : Bool) (d p : BitVec 7) (s : State) : Out :=
  vote w s d.toNat fun e => [BitVec.ofNat 32 ((lowestLane (e.grp.pred p.toNat &&& e.path.mask)).getD 96)]
def execVballot (w : Bool) (d p : BitVec 7) (s : State) : Out :=
  vote w s d.toNat fun e =>
    let m := e.grp.pred p.toNat &&& e.path.mask
    [maskWord m 61, maskWord m 62, maskWord m 63]

/-! ## Packed dot product, major 0x1B (R263) -/

/-- Byte b of a word. -/
def byteAt (x : Word) (b : Nat) : BitVec 8 := x.extractLsb' (8 * b) 8

/-- The sum of the four byte products. -/
def dot4 (elem : BitVec 8 → Int) (x y : Word) : Int :=
  (List.range 4).foldl (fun acc b => acc + elem (byteAt x b) * elem (byteAt y b)) 0

def execVdot4I8 (w : Bool) (d a b : BitVec 7) (s : State) : Out :=
  v3acc w .fp d a b s fun z x y => wrap32 (z.toNat + dot4 BitVec.toInt x y)
def execVdot4N8 (w : Bool) (d a b : BitVec 7) (s : State) : Out :=
  v3acc w .fp d a b s fun z x y => wrap32 (z.toNat + dot4 (fun v => v.toNat) x y)

end Sys2Proof.Machine
end

