-- ==== Sys2Proof/Machine/Teams.lean ====
section
/-! DEFINITION. How paths meet and end: split records (R40), team barriers (R225), equivalence points (R237, R344), the
end of a path, a group, a team, a launch and a graph run (R231, R355, R362). -/

namespace Sys2Proof.Machine

/-! ## Agents by name -/

/-- The agent's hold: a group's path, or the Flume's sequencer (path 0) or the Sluice's (path 1) where no group is
named. -/
def holdOf (s : State) (t : Nat) (g : Option Nat) (p : Nat) : Option Hold :=
  (s.teams.get? t).bind fun team =>
    match g with
    | some g => ((team.groups.get? g).bind fun grp => grp.paths.get? p).bind (·.hold)
    | none => (team.seqOf (p == 0)).hold

/-- The agent's hold replaced. -/
def setHold (s : State) (t : Nat) (g : Option Nat) (p : Nat) (h : Option Hold) : State :=
  match g with
  | some g => updPath s t g p fun path => { path with hold := h }
  | none => updSeq s t (p == 0) fun q => { q with hold := h }

/-- The agent's held word retires. -/
def retireAgent (s : State) (t : Nat) (g : Option Nat) (p : Nat) : State :=
  match g with
  | some g => retireAt s t g p
  | none => updSeq s t (p == 0) Seq.advance

/-- A scalar of the agent written. -/
def writeAgent (s : State) (t : Nat) (g : Option Nat) (p r : Nat) (v : Word) : State :=
  match g with
  | some g => writeS s t g p r v
  | none => updSeq s t (p == 0) fun q => { q with s := q.s.put r v }

/-! ## Fresh groups and teams (R37, R57) -/

/-- A path at address 0, before its clause. -/
def freshPath : Path :=
  { pc := 0, domain := BitVec.allOnes 96, mask := BitVec.allOnes 96, pstack := [], cstack := [], split := 7, st := 0,
    label := 0, clause := none, hold := none, retired := 0, skid := 0, waited := 0, pass := 0 }

/-- A group at its start (R37, R57). -/
def freshGroup (role slice age : Nat) : Group :=
  { role, slice, age, ended := false, s := [], p := [], map := [], fflags := 0, ldcnt := 0, stcnt := 0, cpycnt := 0,
    engcnt := 0, lastBatch := 0, emu := none, eqn := 0xFFFF, paths := [(0, freshPath)], splits := [], cur := 0, late := [],
    park := false, longPark := false, service := false, stop := none, score := 0, busy := 0 }

/-- A sequencer that runs nothing. -/
def idleSeq : Seq :=
  { running := false, pc := 0, s := [], cstack := [], clause := none, hold := none, lastBatch := 0, stop := none, skid := 0, busy := 0 }

/-- A team with nothing in it. -/
def freshTeam (id : TeamId) (res : TeamRes) (tiles : Nat) (memdef : Word) (groups : Tbl Group) : Team :=
  { id, stat := .resident, halted := false, res,
    fl := { tileN := tiles, tiles := [], coef := [], flags := 0, ops := [], floors := [], fiter := none },
    flume := idleSeq, sluice := idleSeq, groups, memdef, bars := [], target := 2, hintSucc := false, clauses := 0,
    drain := none, clock0 := 0, urgent := false, saveAt := 0, saved := [] }

/-! ## Split records (R38 to R40) -/

/-- The live paths whose SPLIT is a record. -/
def Group.carriers (g : Group) (r : Nat) : List (Nat × Path) := g.paths.filter fun e => e.2.split == r

/-- Whether some open record has this one as its parent. -/
def Group.nested (g : Group) (r : Nat) : Bool := g.splits.any fun e => e.2 == r

/-- The entrywise union of predicate stacks, truncated to the smallest depth. -/
def unionStacks (a b : List LaneMask) : List LaneMask := (a.zip b).map fun x => x.1 ||| x.2

/-- Waiting paths of one part merged into their lowest entry, which goes on after its own `rejoin`. -/
def mergePart (s : State) (t g parent : Nat) : List (Nat × Path) → State
  | [] => s
  | (p, path) :: rest =>
    let merged := rest.foldl (fun (x : Path) e =>
      { x with
        domain := x.domain ||| e.2.domain
        mask := x.mask ||| e.2.mask
        pstack := unionStacks x.pstack e.2.pstack }) path
    let s := updGroup s t g fun grp =>
      { grp with
        paths := (rest.foldl (fun ps e => ps.del e.1) grp.paths).put p
          { merged with split := parent, st := 0, label := 0, hold := none } }
    retireAt (rest.foldl (fun s _ => countClause s t) s) t g p

/-- The parts of waiting paths: those with one label and one CDEPTH. -/
def partsOf (cs : List (Nat × Path)) : List (List (Nat × Path)) :=
  ((cs.map fun e => (e.2.label, e.2.cstack.length)).eraseDups).map fun k =>
    cs.filter fun e => (e.2.label, e.2.cstack.length) == k

/-- A record tested and closed, then its parent, and so upward. -/
def closeRecord : Nat → State → Nat → Nat → Nat → State
  | 0, s, _, _, _ => s
  | n + 1, s, t, g, r =>
    match (s.teams.get? t).bind fun team => team.groups.get? g with
    | none => s
    | some grp =>
      match grp.splits.get? r with
      | none => s
      | some parent =>
        let cs := grp.carriers r
        if grp.nested r || !(cs.all fun e => e.2.st == 1) then s
        else
          let s := updGroup s t g fun grp => { grp with splits := grp.splits.del r }
          closeRecord n ((partsOf cs).foldl (fun s part => mergePart s t g parent part) s) t g parent

/-! ## Team barriers (R225) -/

/-- Whether every live path of a group waits at one barrier. -/
def Group.atBar (g : Group) (id : Nat) : Bool :=
  !g.ended && !g.paths.isEmpty && g.paths.all fun e => e.2.hold == some (.bar id)

/-- The operations of a team's Flume that a source's next ones come after (R156). -/
def addFloor (s : State) (t src : Nat) (p : FlumeOp → Bool) : State :=
  updTeam s t fun team =>
    let more := (team.fl.ops.filter p).map (·.id)
    { team with fl := { team.fl with floors := team.fl.floors.put src (team.fl.floors.getD src [] ++ more) } }

/-- Whether a group arrives at a barrier: all its live paths wait there, and the release at team scope that comes before the
arrival has been performed. -/
def Group.arrives (s : State) (t g : Nat) (grp : Group) (id : Nat) : Bool := grp.atBar id && !pendingAccess s t g

/-- The arrivals at a barrier noted, and its phase completed when they and the ended groups are all the team's groups:
every waiting path is released, with an acquire at team scope. -/
def barTest (s : State) (t id : Nat) : State :=
  match s.teams.get? t with
  | none => s
  | some team =>
    let arrived := (team.groups.filter fun e => e.2.arrives s t e.1 id).map (·.1)
    if arrived.isEmpty then updTeam s t fun team => { team with bars := team.bars.del id }
    else if team.groups.all fun e => e.2.ended || e.2.arrives s t e.1 id then
      let s := updTeam s t fun team => { team with bars := team.bars.del id }
      let s := acquire s team.id.core team.id.ctx 1
      let s := arrived.foldl (fun s g => addFloor s t g fun o => o.src.isSome && o.src != some g) s
      arrived.foldl (fun s g =>
        (((team.groups.get? g).map fun grp => grp.paths.keys).getD []).foldl (fun s p => retireAt s t g p) s) s
    else updTeam s t fun team => { team with bars := team.bars.put id arrived }

/-- Every barrier of a team tested. -/
def barTests (s : State) (t : Nat) : State := (List.range 16).foldl (fun s id => barTest s t id) s

/-- The barriers of every running team at which some path waits tested: an access that a group's arrival waits for may have
been performed. -/
def barAll (s : State) : State :=
  s.teams.foldl (fun s e =>
    (((e.2.groups.flatMap fun ge => ge.2.paths.filterMap fun pe => match pe.2.hold with
      | some (.bar id) => some id
      | _ => none)).eraseDups).foldl (fun s id => barTest s e.1 id) s) s

/-! ## Equivalence points (R237, R344) -/

/-- The point at which a group waits, and the tick since which it does. While a path of a group waits there, the whole group
does. -/
def Group.atEqp (g : Group) : Option (Nat × Nat) :=
  g.paths.findSome? fun e => match e.2.hold with
    | some (.eqp n since) => some (n, since)
    | _ => none

/-- The paths of a group that stand at an `eqp`. -/
def Group.eqpPaths (g : Group) : List Nat :=
  (g.paths.filter fun e => match e.2.hold with | some (.eqp _ _) => true | _ => false).map (·.1)

/-- A group has passed point n: EQN is set and every path's count begins again. -/
def notePoint (s : State) (t g n : Nat) : State :=
  updGroup s t g fun grp => { grp with eqn := n, paths := grp.paths.mapVals fun _ p => { p with retired := 0 } }

/-- A waiting group goes on past its point. -/
def passEqp (s : State) (t g : Nat) : State :=
  match (s.teams.get? t).bind fun team => team.groups.get? g with
  | none => s
  | some grp =>
    match grp.atEqp with
    | some (n, _) => notePoint (grp.eqpPaths.foldl (fun s p => retireAt s t g p) s) t g n
    | none => s

/-- Every waiting group of a team goes on. -/
def passAll (s : State) (t : Nat) : State :=
  (((s.teams.get? t).map fun team => team.groups.keys).getD []).foldl (fun s g => passEqp s t g) s

/-- The points at which the live groups wait, where all of them do. -/
def eqpPoints (team : Team) : Option (List Nat) :=
  let live := (team.groups.filter fun e => !e.2.ended).map (·.2)
  if live.all fun g => g.atEqp.isSome && !g.service then some (live.filterMap fun g => g.atEqp.map (·.1)) else none

/-- Whether all live groups of a team wait at one point: a migration has begun (R338). -/
def migrating (team : Team) : Bool :=
  match eqpPoints team with
  | some (n :: ns) => ns.all (· == n)
  | _ => false

/-- Groups that all wait, but not at one point, go on. -/
def eqpTest (s : State) (t : Nat) : State :=
  match (s.teams.get? t).bind eqpPoints with
  | some (n :: ns) => if ns.all (· == n) then s else passAll s t
  | _ => s

/-- The target kind that is a team's own: 0 L-cores, 1 D-cores. -/
def Team.ownKind (team : Team) : Nat := if team.id.image = 0 then 1 else 0

/-- The groups of every running team that wait at points looked at: a group that was parked on service may be back (R237, R373). -/
def eqpAll (s : State) : State :=
  s.teams.foldl (fun s e => if e.2.halted || e.2.isSaved then s else eqpTest s e.1) s

/-- The team's target kind written; one that asks for no move releases the groups that wait (R342). -/
def setTarget (s : State) (t k : Nat) : State :=
  let s := updTeam s t fun team => { team with target := k }
  match s.teams.get? t with
  | some team => if k = 2 || k = team.ownKind then passAll s t else s
  | none => s

/-! ## Graph runs (R362) -/

/-- RETIRED stored once no run uses the superseded versions: the highest of them that no run keeps. -/
def retireVersions (s : State) (id : Nat) : State :=
  match s.graphs.get? id with
  | none => s
  | some g =>
    let inUse := (s.runs.filter fun e => e.2.ctx == g.ctx && e.2.header == g.header).map fun e => e.2.version
    let free := g.olds.filter fun v => inUse.all fun u => v < u
    if free.isEmpty then s
    else
      let v := free.foldl max 0
      let s := { s with graphs := s.graphs.put id { g with olds := g.olds.filter fun u => v < u } }
      qWrite s g.ctx (g.header + 8) (bytesOf 4 v)

/-- A run whose launches have all ended is over. -/
def runTest (s : State) (run : Nat) : State :=
  match s.runs.get? run with
  | none => s
  | some r =>
    if r.launches.all fun k => ((s.launches.get? k).map (·.done)).getD true then
      (s.graphs.filter fun e => e.2.ctx == r.ctx && e.2.header == r.header).foldl
        (fun s e => retireVersions s e.1) { s with runs := s.runs.del run }
    else s

/-! ## Launches (R355) -/

/-- TEAMS + 1 of a launch packet. -/
def Launch.total (l : Launch) : Nat := ofBytes ((l.pkt.drop 20).take 4) + 1

/-- A launch is over. -/
def endLaunch (s : State) (key : Nat) : State :=
  match s.launches.get? key with
  | none => s
  | some l =>
    let s := { s with launches := s.launches.put key { l with done := true } }
    match l.run with
    | some r => runTest s r
    | none => s

/-- A launch is over and the writes of its teams are performed (R231, R236). -/
def Launch.settled (s : State) (l : Launch) : Bool := l.done && l.wbs.all fun r => !s.reqs.has r

/-! ## The end of a team (R231) -/

/-- Whether a team's core still holds a team. -/
def coreHolds (s : State) (core : Nat) : Bool :=
  s.teams.any fun e => e.2.id.core == core && (match e.2.stat with | .saved _ _ => false | _ => true)

/-- A core that its last team has left begins its clear sequence (R392). -/
def vacate (s : State) (core : Nat) : State :=
  if coreHolds s core then s
  else
    match (s.core core).world with
    | .clearing _ => s
    | _ => s.setCore core { s.core core with world := .clearing none, clearAt := s.refclk }

/-- Every dirty L1 sector of a context on a core written to L2. -/
def l1Flush (s : State) (core ctx : Nat) : State :=
  (s.core core).l1.lines.foldl (fun s l => if ctxOfSect (2 * l.1) = ctx then l1CleanLine s core l.1 else s) s

/-- The writes that a team leaves: its landed copy sectors are performed, then its core's and its die's dirty sectors of
the context go home. Gives the write-backs under way. -/
def leaveWrites (s : State) (t : Nat) (team : Team) : List Nat × State :=
  let core := team.id.core
  let ctx := team.id.ctx
  let s := performTeamLanded s t (dieOf core)
  let s := l2Flush (l1Flush s core ctx) (dieOf core) ctx
  (reqsWhere s fun r => r.die == dieOf core && r.ctx == ctx && (r.kind == .write || r.kind == .atomic) && r.who == .writeback, s)

/-- Write-backs that a team's leaving has begun, noted with its launch, whose end waits for them (R236). -/
def noteLeft (s : State) (team : Team) (wbs : List Nat) : State :=
  { s with launches := s.launches.upd (launchKey team.id.ctx team.id.grid) fun l => { l with wbs := l.wbs ++ wbs } }

/-- A group's places in its slice given up. -/
def leaveSlice (s : State) (core slice t g : Nat) : State :=
  let k := s.slice core slice
  s.setSlice core slice { k with
    active := k.active.filter (· != (t, g))
    pending := k.pending.filter (· != (t, g))
    places := k.places.filter fun e => e.2 != (t, g)
    waited := k.waited.filter fun e => e.1 != (t, g)
    last := if k.last = some (t, g) then none else k.last }

/-- A team gone from its core. -/
def removeTeam (s : State) (t : Nat) (team : Team) : State :=
  let s := team.groups.foldl (fun s e => leaveSlice s team.id.core e.2.slice t e.1) s
  vacate { s with teams := s.teams.del t } team.id.core

/-- Whether a team has ended: every group has, no engine program runs, every copy has completed, and every store of its
groups has been performed. -/
def Team.over (s : State) (t : Nat) (team : Team) : Bool :=
  team.groups.all (fun e => e.2.ended) && !team.flume.running && !team.sluice.running &&
    !(s.copies.any fun e => e.2.team == t) && !(s.accs.any fun e => e.2.team == t && e.2.kind != .load && !e.2.complete)

/-- The end of a team, when it has come: its writes leave, it is released, its launch counts it. -/
def teamTest (s : State) (t : Nat) : State :=
  match s.teams.get? t with
  | none => s
  | some team =>
    if !team.over s t then s
    else
      let (wbs, s) := leaveWrites s t team
      let s := removeTeam { s with accs := s.accs.filter fun e => e.2.team != t } t team
      let key := launchKey team.id.ctx team.id.grid
      match s.launches.get? key with
      | none => s
      | some l =>
        let l := { l with ended := l.ended + 1, wbs := l.wbs ++ wbs, hinted := l.hinted.filter (· != team.id.num) }
        let s := { s with launches := s.launches.put key l }
        if l.total ≤ l.ended then endLaunch s key else s

/-! ## The end of a group and of a path (R231) -/

/-- A group's results in flight discarded (R67): fixed-latency ones at once; loads, atomics and `facc.rd` keep the rows that they go to
until they return, with no name left on them. -/
def discardResults (s : State) (t g : Nat) : State :=
  match (s.teams.get? t).bind fun team => team.groups.get? g with
  | none => s
  | some grp =>
    let s := grp.late.foldl (fun s l => match l.target with
      | .row r => updTeam s t fun team => team.pendDown r
      | _ => s) s
    let s := updGroup s t g fun grp => { grp with late := [] }
    let polls := s.accs.filter fun e => e.2.team == t && e.2.group == g && e.2.kind == .poll
    let s := polls.foldl (fun s e => endAccess s e.1) s
    { s with accs := s.accs.mapVals fun _ a => if a.team == t && a.group == g then { a with cancelled := true } else a }

/-- The end of a group: its names are unmapped, it counts as arrived at every barrier. -/
def endGroup (s : State) (t g : Nat) : State :=
  match (s.teams.get? t).bind fun team => (team.groups.get? g).map fun grp => (team, grp) with
  | none => s
  | some (team, grp) =>
    let s := discardResults s t g
    let s := updTeam s t fun team => (List.range 128).foldl (fun team n => team.unmap g n) team
    let s := updGroup s t g fun grp =>
      { grp with ended := true, paths := [], splits := [], park := false, longPark := false, service := false }
    let s := leaveSlice s team.id.core grp.slice t g
    let s := eqpTest (regroupEnded (barTests s t) t g) t
    teamTest s t

/-- The end of a path. -/
def endPath (s : State) (e : Env) : State :=
  let s := countClause s e.t
  if e.grp.paths.length ≤ 1 then endGroup s e.t e.g
  else
    let s := landAll s e.t e.g
    let s := updGroup s e.t e.g fun grp => { grp with paths := grp.paths.del e.p }
    eqpTest (barTests (closeRecord 8 s e.t e.g e.path.split) e.t) e.t

end Sys2Proof.Machine
end

