-- ==== Sys2Proof/Machine/Waits.lean ====
section
/-! DEFINITION. `wait` (R48, R49, R226 to R228): the checks of its conditions, their evaluation, the polls of memory words,
and how a wait ends. -/

namespace Sys2Proof.Machine

/-! ## Conditions (R227) -/

def Cond.kind (c : Cond) : Nat := bits c.desc.toNat 2 0
def Cond.cmp (c : Cond) : Nat := bits c.desc.toNat 5 4
def Cond.phase (c : Cond) : Nat := bits c.desc.toNat 11 8
def Cond.tag (c : Cond) : Nat := bits c.desc.toNat 9 8
/-- DESIGN CHOICE (log entry 86): a slot condition's INDEX above 63 is taken as it stands, without a trap, and names the bits of the
scratchpad beyond the 128 bits of tags that R100 lays out; R227 gives 0 to 63. -/
def Cond.index (c : Cond) : Nat := bits c.desc.toNat 31 24
def Cond.off (c : Cond) : Nat := c.low.toNat
def Cond.va (c : Cond) : Nat := (pair c.low c.high).toNat

/-- The checks of a condition at issue. -/
def Cond.check (s : State) (team : Team) (c : Cond) : Option Res :=
  match c.kind with
  | 0 => scrCheck team c.off 16 16
  | 1 => scrCheck team c.off 16 (ringExtent c.index)
  | 2 => none
  | 3 =>
    let va := c.va
    if 2 ^ 60 ≤ va then some (accessViolation 0 (BitVec.ofNat 64 va))
    else if va % 4 ≠ 0 then some (misaligned 0 (BitVec.ofNat 64 va))
    else if !spaceAllows s team.id.ctx team.res.scrLen 0 va 4 false then some (accessViolation 0 (BitVec.ofNat 64 va))
    else none
  | 4 => if s.workQs.has (workKey team.id.ctx c.index) then none else some (.trap 0x0F 0 0)
  | _ => some (illegal 3)

/-- The comparison of a memory word. -/
def Cond.compare (c : Cond) (x : Word) : Bool :=
  match c.cmp with
  | 0 => x == c.value
  | 1 => x != c.value
  | 2 => c.value.toNat ≤ x.toNat
  | _ => x.toNat < c.value.toNat

/-- Whether a condition holds now; a memory word as it was last read. -/
def Cond.holds (s : State) (t : Nat) (g : Option Nat) (ctx : Nat) (got : Tbl Word) (i : Nat) (c : Cond) : Bool :=
  match c.kind with
  | 0 => bits (scrRead s t c.off 16) 3 0 != c.phase
  | 1 => slotTag s t c.off c.index == c.tag
  | 2 => batchesDone s t g (c.value.toNat % 65536)
  | 3 => match got.get? i with
    | some x => c.compare x
    | none => false
  | _ => ((s.workQs.get? (workKey ctx c.index)).map fun q => !q.entries.isEmpty).getD false

/-- The conditions of a wait that hold, as bits of a number. -/
def WaitRec.satisfied (s : State) (t : Nat) (g : Option Nat) (ctx : Nat) (w : WaitRec) : Nat :=
  (w.conds.zip (List.range w.conds.length)).foldl (fun n ci =>
    if ci.1.holds s t g ctx w.got ci.2 then n + 2 ^ ci.2 else n) 0

/-- Whether these conditions end the wait. -/
def WaitRec.ends (w : WaitRec) (sat : Nat) : Bool := if w.any then sat != 0 else sat == 2 ^ w.conds.length - 1

/-- Whether the wait reads memory. -/
def WaitRec.reads (w : WaitRec) : Bool := w.conds.any fun c => c.kind == 3

/-- Whether the deadline has been reached (R48, R54). -/
def WaitRec.late (now : Nat) (w : WaitRec) : Bool := w.timeout != 0xFFFFFFFF && w.timeout ≤ now - w.since

/-- The status that a complete evaluation gives, if it ends the wait (R48, R228). -/
def WaitRec.verdict (s : State) (t : Nat) (g : Option Nat) (ctx : Nat) (w : WaitRec) : Option Word :=
  let sat := w.satisfied s t g ctx
  if w.ends sat then some (BitVec.ofNat 32 sat)
  else if w.late s.refclk then some (BitVec.ofNat 32 (2 ^ 31 + sat))
  else none

/-! ## Polls (R49) -/

/-- The group number under which an agent's polls run. -/
def pollGroup (g : Option Nat) (p : Nat) : Nat := g.getD (32 + p)

/-- The memory words of a wait as lanes, by condition number. -/
def WaitRec.lanes (w : WaitRec) : List LaneAcc :=
  (w.conds.zip (List.range w.conds.length)).filterMap fun ci =>
    if ci.1.kind = 3 then some ⟨ci.2, ci.1.va, 0, 0, .todo, 0⟩ else none

/-- The access that reads the memory words: relaxed, generic space, system scope. -/
def pollAccess (t : Nat) (g : Option Nat) (p : Nat) (pc : Dword) (stand : Stand) (w : WaitRec) : Access :=
  { team := t, group := pollGroup g p, path := p, pc, mask := 0, kind := .poll, size := 4, sext := false, op := 0,
    order := 0, scope := 5, space := 0, cache := 0, dest := .none, lanes := w.lanes, atHome := false, far := false,
    cancelled := false, parked := false, wbs := [], level := 0, stand, got := [] }

/-- What the conditions that read no memory stand at: the word or the count that each of them reads (R228). -/
def WaitRec.stands (s : State) (t : Nat) (g : Option Nat) (ctx : Nat) (w : WaitRec) : List Nat :=
  w.conds.map fun c => match c.kind with
    | 0 => scrRead s t c.off 16
    | 1 => slotTag s t c.off c.index
    | 2 => (openBatches s t g).length + (if batchesDone s t g (c.value.toNat % 65536) then 65536 else 0)
    | 4 => ((s.workQs.get? (workKey ctx c.index)).map fun q => q.events + 1).getD 0
    | _ => 0

/-- The L1 lines of a wait's memory words, a synonym's at its leader address where the core's filter has it, each with its mark. -/
def WaitRec.lines (s : State) (core ctx : Nat) (w : WaitRec) : List (Nat × Nat) :=
  let c := s.core core
  (w.lanes.map fun l =>
    let line := lineOfSect (sectKey ctx (match remapHit c ctx l.va with | some r => r.leader + (l.va - r.base) | none => l.va))
    (line, c.l1.marks.getD line 0)).eraseDups

/-- The lines of a wait watched: from now on their writes and invalidations count (R49). -/
def watch (s : State) (core : Nat) (lines : List (Nat × Nat)) : State :=
  let l1 := (s.core core).l1
  setL1 s core { l1 with marks := lines.foldl (fun m e => m.put e.1 e.2) l1.marks }

/-- Whether a wait that reads memory is to be evaluated afresh (R49, R228): it never has been; what another condition reads has
changed; a word's line has been written or invalidated in its core's L1; or 64 ticks have passed. -/
def WaitRec.stale (s : State) (t : Nat) (g : Option Nat) (team : Team) (w : WaitRec) : Bool :=
  match w.polled with
  | none => true
  | some n => 64 ≤ s.refclk - n || w.stands s t g team.id.ctx != w.base || w.lines s team.id.core team.id.ctx != w.seen

/-- The address of the agent's word. -/
def pcOf (s : State) (t : Nat) (g : Option Nat) (p : Nat) : Dword :=
  ((s.teams.get? t).map fun team => match g with
    | some g => (((team.groups.get? g).bind fun grp => grp.paths.get? p).map (·.pc)).getD 0
    | none => (team.seqOf (p == 0)).pc).getD 0

/-- A new evaluation of a held wait: its words are asked for. It waits for an acquire of the group that is not complete, as every
access does (R114). -/
def startPoll (s : State) (t : Nat) (g : Option Nat) (p : Nat) (w : WaitRec) : State :=
  match s.teams.get? t with
  | none => s
  | some team =>
    if mustWait s t (pollGroup g p) 4 w.lanes then setHold s t g p (some (.wait w))
    else
      let stand := (g.bind fun k => (team.groups.get? k).bind fun grp => (grp.paths.get? p).map (standOf team grp)).getD
        ⟨team.id.image, 0xFFFF, 0⟩
      let w := { w with polled := some s.refclk, base := w.stands s t g team.id.ctx, seen := w.lines s team.id.core team.id.ctx }
      let (id, s) := (watch s team.id.core w.seen).fresh
      let s := { s with accs := s.accs.put id (pollAccess t g p (pcOf s t g p) stand w) }
      progress (setHold s t g p (some (.wait { w with poll := some id }))) id [] allLanes

/-! ## The end of a wait -/

/-- The wait is over with a status. -/
def endWait (s : State) (t : Nat) (g : Option Nat) (p : Nat) (w : WaitRec) (status : Word) : State :=
  retireAgent (writeAgent s t g p w.sd status) t g p

/-- A held wait looked at again: a poll that has come back completes its evaluation, at which the other conditions are read;
without memory words the conditions are read at once; with some, a new evaluation begins when one is due. -/
def wakeWait (s : State) (t : Nat) (g : Option Nat) (p : Nat) (w : WaitRec) : State :=
  match s.teams.get? t with
  | none => s
  | some team =>
    match w.poll with
    | some id =>
      match s.accs.get? id with
      | none => setHold s t g p (some (.wait { w with poll := none }))
      | some a =>
        if !a.complete then s
        else
          let s := { s with accs := s.accs.del id }
          let w := { w with poll := none, base := w.stands s t g team.id.ctx,
                            got := a.lanes.foldl (fun m l => m.put l.lane (lowWord l.val)) w.got }
          match w.verdict s t g team.id.ctx with
          | some st => endWait s t g p w st
          | none => setHold s t g p (some (.wait w))
    | none =>
      if !w.reads then
        let sat := w.satisfied s t g team.id.ctx
        if w.ends sat then endWait s t g p w (BitVec.ofNat 32 sat) else s
      else if w.stale s t g team then startPoll s t g p w
      else s

/-- The waits of a team's agents: agent, path, record. -/
def Team.waits (team : Team) : List (Option Nat × Nat × WaitRec) :=
  (team.groups.flatMap fun ge => ge.2.paths.filterMap fun pe => match pe.2.hold with
    | some (.wait w) => some (some ge.1, pe.1, w)
    | _ => none) ++
  ([0, 1].filterMap fun p => match (team.seqOf (p == 0)).hold with
    | some (.wait w) => some (none, p, w)
    | _ => none)

/-- Every held wait of the resident teams that are not halted looked at again (R228). -/
def wakeAll (s : State) : State :=
  s.teams.foldl (fun s e =>
    match e.2.stat with
    | .saved _ _ => s
    | _ => if e.2.halted then s else e.2.waits.foldl (fun s x => wakeWait s e.1 x.1 x.2.1 x.2.2) s) s

/-! ## The instruction -/

/-- The condition that starts at register r. -/
def condAt (a : Agt) (r : Nat) : Cond := ⟨a.rd r, a.rd (r + 1), a.rd (r + 2), a.rd (r + 3)⟩

/-- A `wait` at issue: the checks in order, then the first evaluation. One that reads memory stands, and its switch marker acts at
once (R188). -/
def waitWord (sw : Bool) (s : State) (a : Agt) (p : Nat) (any : Bool) (n sd sa sb : Nat) : Res :=
  let conds := (List.range n).map fun i => condAt a (sa + 4 * i)
  match conds.findSome? fun c => c.check s a.team with
  | some r => r
  | none =>
    let w : WaitRec := { any, conds, timeout := (a.rd sb).toNat, since := s.refclk, sd, got := [], poll := none, polled := none,
                         base := [], seen := [] }
    let mark (s : State) : State := match a.group with | some g => if sw && !a.hold.any Hold.begun then switchPark s a.t g a.path else s | none => s
    if w.reads then .placed (wakeAll (mark (startPoll s a.t a.group p w)))
    else
      match w.verdict s a.t a.group a.team.id.ctx with
      | some st => .done (a.setS s sd st)
      | none => .hold s (.wait w)

end Sys2Proof.Machine
end

