-- ==== Sys2Proof/Machine/Memside.lean ====
section
/-! DEFINITION. The steps of the memory side: walks and their misses (R367, R372, R373, R430), service at the homes (R110,
R112, R117), replies and results (R111, R187), the remap filter's walks (R85), held waits and rows (R48, R64, R237). -/

namespace Sys2Proof.Machine

/-- A step whose occasion has not arisen. -/
def idle (name : String) : Out := .refused (.notEnabled name)

/-- A request gone. -/
def dropReq (s : State) (id : Nat) : State := { s with reqs := s.reqs.del id }

/-! ## Walks (R367) -/

/-- A copy's probe of a page that it is to write (0xFF), or of its context's synonym table (0xFE): it asks for a translation
only. -/
def Req.probe (r : Req) : Bool := r.op == 0xFF || r.op == 0xFE

/-- What a request needs of its page. -/
def Req.perm (r : Req) : Perm :=
  match r.who with
  | .fetch _ _ _ => .fetch
  | _ => if r.kind == .read && r.op != 0xFF && r.op != 0xFD then .read else .write

/-- The team on whose behalf a request is made; 0, which no team has, for a write-back's and the host's. -/
def Req.owner (r : Req) : Nat := match r.who with | .fetch t _ _ => t | .writeback => 0 | _ => r.team

/-- Whether two requests are messages of one atomic, which leave in lane order (R385). -/
def Req.sameAtomic (a b : Req) : Bool :=
  a.kind == .atomic && b.kind == .atomic && match a.who, b.who with | .access x _, .access y _ => x == y | _, _ => false

/-- Whether an earlier request must be handled before this one: for the same sector its own team's (R119), or a write on the way home
(R106); for any sector a message of the same atomic. -/
def Req.before (a b : Req) : Bool :=
  a.die == b.die && a.ctx == b.ctx && a.phys == b.phys && !a.probe && (a.sameAtomic b ||
    (a.va / 64 == b.va / 64 && (a.owner == b.owner || ((a.who == .writeback || b.who == .writeback) && a.kind != .read))))

/-- Whether a request that comes before another stands at a stage that `p` names. -/
def behind (s : State) (id : Nat) (r : Req) (p : Stage → Bool) : Bool := s.reqs.any fun e => e.1 < id && e.2.before r && p e.2.stage

/-- The record of a miss of a write-back (R430). -/
def writebackRec (s : State) (r : Req) : FaultRec :=
  { ctx := r.ctx, src := 0, acc := 1, grid := 0, team := 0, teamNo := 0xFFFFFFFF, group := 0xFF, path := 0xFF, va := r.va,
    image := List.replicate 32 0, token := none, since := s.refclk }

/-- The lowest lane of an access that waits on a page. -/
def pageLane (a : Access) (va : Nat) : Nat :=
  ((a.lanes.find? fun l => l.st == .out && l.va / 65536 == va / 65536).map (·.va)).getD va

/-- The record of a miss on a team's behalf; none where nobody waits any more. -/
def missRec (s : State) (r : Req) : Option FaultRec :=
  let base (t : Nat) (team : Team) : FaultRec :=
    { ctx := r.ctx, src := 0, acc := 0, grid := team.id.grid, team := t, teamNo := team.id.num, group := 0xFF, path := 0xFF,
      va := r.va, image := List.replicate 32 0, token := none, since := s.refclk }
  match r.who with
  | .access id _ =>
    match s.accs.get? id, (s.accs.get? id).bind fun a => s.teams.get? a.team with
    | some a, some team =>
      let rec0 := { base a.team team with
        va := pageLane a r.va
        acc := match a.kind with | .store => 1 | .atomic => 2 | _ => 0 }
      if 32 ≤ a.group then some rec0
      else some { rec0 with group := a.group, path := a.path, image := imagePart s team a.stand a.pc }
    | _, _ => none
  | .copy c =>
    match s.copies.get? c, (s.copies.get? c).bind fun x => s.teams.get? x.team with
    | some x, some team =>
      let rec0 := { base x.team team with src := if r.op = 0xFE then 3 else 1, acc := if r.op = 0xFF then 1 else 0 }
      match x.issuer with
      | some g => some { rec0 with group := g, path := x.path, image := imagePart s team x.stand x.pc }
      | none => some rec0
    | _, _ => none
  | .fetch t g p =>
    match s.teams.get? t with
    | some team =>
      let rec0 := { base t team with src := 4, acc := 3 }
      match g with
      | some k =>
        let stand := ((team.groups.get? k).bind fun grp => (grp.paths.get? p).map (standOf team grp)).getD ⟨0, 0xFFFF, 0⟩
        some { rec0 with group := k, path := p, image := imagePart s team stand (pcOf s t g p) }
      | none => some rec0
    | none => none
  | .writeback => some (writebackRec s r)
  | .host => none
  | .table _ => none

/-- A host access answered (R346): an error completion reads all ones. -/
def completeHost (s : State) (r : Req) (error : Bool) (data : BitVec 512) : State :=
  let n := 64 - r.va % 64
  let bs := (List.range (min n r.e.toNat)).map fun i =>
    if error then BitVec.allOnes 8 else data.extractLsb' (8 * ((r.va + i) % 64)) 8
  { s with completions := (error, if r.kind == .read then bs else []) :: s.completions }

/-- The group that waits for a request parks or goes on (R373); a step of its path ends at the park (R406). -/
def settleWaiter (s : State) (r : Req) : State :=
  match r.who with
  | .access id _ =>
    match s.accs.get? id with
    | some a => if a.group < 32 then settleService s a.team a.group else s
    | none => s
  | .fetch t (some g) p =>
    let s := settleService s t g
    let stepping := ((((s.teams.get? t).bind fun team => team.groups.get? g).bind fun grp => grp.paths.get? p).map (·.pass)).getD 0
    if heldFor s t g && stepping = 2 then updPath s t g p fun x => { x with st := 2, pass := 0 } else s
  | _ => s

/-- A miss: the request is held under its fault (R372, R373, R430), and its walk begins anew after the reply; reads that nothing waits
for are dropped, a host access is answered with an error, and the walk that has asked for a sector of its table has found no page. -/
def walkMiss (s : State) (id : Nat) (r : Req) : State :=
  if r.who == .writeback && r.kind == .read then dropReq s id
  else if r.who == .host then completeHost (dropReq s id) r true 0
  else if let .table w := r.who then noteTable (dropReq s id) w (r.va / 64) .miss
  else
    match missRec s r with
    | none => dropReq s id
    | some f =>
      let (n, s) := reportFault s f
      let s := match r.who with
        | .access a _ => { s with accs := s.accs.upd a fun x => { x with parked := true } }
        | _ => s
      settleWaiter (updReq s id fun q => { q with stage := .held n, got := [] }) r

/-- A copy stopped by a trap on its team; it never completes (R300). -/
def stopCopy (s : State) (id code detail va : Nat) : State :=
  match s.copies.get? id with
  | none => s
  | some c =>
    let s := { s with copies := s.copies.upd id fun x => { x with stopped := true } }
    stopLate s c.team c.issuer false c.path c.pc c.mask code detail (BitVec.ofNat 64 va)

/-- A trap at a fetch: at the header, or at the word whose table entry is read. -/
def stopFetch (s : State) (t : Nat) (g : Option Nat) (p code detail va : Nat) : State :=
  match g with
  | some k => stopGroup s t k p (pcOf s t g p) code detail (BitVec.ofNat 64 va)
  | none => stopSeq s t (p == 0) (pcOf s t g p) code detail (BitVec.ofNat 64 va)

/-- A forbidden access, or one whose data is bad (R284, R300): the waiter's team traps. -/
def failReq (s : State) (id : Nat) (r : Req) (code detail : Nat) : State :=
  let s := dropReq s id
  match r.who with
  | .access a lane =>
    let named := ((s.accs.get? a).map fun x => x.laneNo lane).getD lane
    failLanes s a lane code (if code = 0x0A then named else detail)
  | .copy c => stopCopy s c code detail r.va
  | .fetch t g p => stopFetch s t g p code detail r.va
  | .writeback => s
  | .host => completeHost s r true 0
  | .table w => noteTable s w (r.va / 64) (.fails code detail)

/-- The end of a walk that found a leaf: a probe has its answer, which a copy's walk of its synonym table then reads anew; another
request leaves the die. -/
def walkDone (s : State) (id : Nat) (r : Req) (pa : Nat) (sealed : Bool) : State :=
  if r.probe then
    match r.who with
    | .copy c => { dropReq s id with copies := s.copies.upd c fun x => { x with got := if r.op = 0xFE then [] else x.got } }
    | _ => dropReq s id
  else sendReq s id pa sealed

/-- The translation of a request, as far as its walk has read. -/
def Req.xlate (r : Req) (s : State) : Xlate × State := translateGot s r.die r.ctx (some r.got) r.va r.perm

/-- A request in the walk stage translated and sent, held or failed; or its walk asks for an entry of another die. A table sector
that is poisoned raises INTEGRITY_FAULT, detail 2, at the access (R421); a write-back, which no instruction waits for, is held as
R430 holds one that finds no page (DEDUCED, log entry 63). -/
def walk (s : State) (id : Nat) (r : Req) : State :=
  if r.phys then
    if targetOf r.va == .none then failReq s id r 0x0A 0 else walkDone s id r r.va false
  else if r.vaultOff.isSome then walkDone s id r (r.vaultOff.getD 0) false
  else
    let (x, s) := r.xlate s
    match x with
    | .ok pa sealed => walkDone s id r pa sealed
    | .ask pa => askTableSector s id r.die r.core r.ctx r.field r.team true pa
    | .miss => walkMiss s id r
    | .violation => if r.who == .writeback then walkMiss s id r else failReq s id r 0x0A 0
    | .bad detail => if r.who == .writeback then walkMiss s id r else failReq s id r 0x0B detail

/-- WALK_COMPLETE: a request's walk ends, or comes to an entry of another die, once what must leave the die before it has left.
Behind a request for its sector that is held on a fault, it may find the same miss, and then waits on the same reply (R372). -/
def execWalkComplete (id : Nat) (s : State) : Out :=
  match s.reqs.get? id with
  | none => idle "WALK_COMPLETE"
  | some r =>
    if r.stage != .walk || tableAsked s id || !r.after.all (isSent s) || behind s id r (· == .walk) then idle "WALK_COMPLETE"
    else if behind s id r fun x => match x with | .held _ => true | _ => false then
      match r.xlate s with
      | (.miss, s) => .next (walkMiss s id r)
      | _ => idle "WALK_COMPLETE"
    else .next (walk s id r)

/-! ## The homes (R110, R112, R117, R118) -/

/-- The level of R411 at which a request was served. -/
def homeLevel (s : State) (r : Req) : Nat :=
  if r.home ≠ r.die then 10 + 16 * r.home
  else match targetOf r.pa with
    | .hbm => if (s.die r.home).msc.has (r.pa / 64) then 6 else 7
    | .cxl => 8
    | .host => 9
    | .none => 0

/-- A request applied at a vault (R77, R107). -/
def serveVault (s : State) (r : Req) (off : Nat) : State × BitVec 512 × Nat :=
  let base := 64 * (off / 64)
  let bad := if poisoned s (vaultKey off) then 2 else 0
  let put (m : BitVec 64) (data : BitVec 512) : State :=
    let vault := (List.range 64).foldl (fun mem i =>
      if m.getLsbD i then Memory.put mem (base + i) (data.extractLsb' (8 * i) 8) else mem) s.store.vault
    { s with store := { s.store with vault } }
  let data := sectOf (s.store.vault.read base 64)
  match r.kind with
  | .beat => (s, 0, 0)
  | .read => (s, data, bad)
  | .write => (put r.mask r.data, 0, 0)
  | .atomic =>
    if bad ≠ 0 then (s, 0, bad)
    else
      let lo := off % 64
      let n := atomSize r.op
      let old := sectLoad data lo n
      (put (byteMask lo n) (sectStore lo (atomNew r.op old r.x r.e)), BitVec.ofNat 512 old, 0)

/-- A request applied at its home: the state, the reply's data, and what is wrong with it. A store to a doorbell is a notify
(R351). -/
def serve (s : State) (r : Req) : State × BitVec 512 × Nat :=
  let sector := r.pa / 64
  match r.vaultOff with
  | some off => serveVault s r off
  | none =>
  match r.kind with
  | .beat => (s, 0, 0)
  | .read =>
    let (data, bad) := readAtHome s r.home r.ctx sector r.sealed
    (if r.sys then s else mscAllocate s r.home sector r.cache, data, bad)
  | .write =>
    match doorbellAt s r.pa with
    | some q => (ringDoorbell s q, 0, 0)
    | none =>
    let s := writeAtHome s r.home r.ctx sector r.sealed r.mask r.data
    (if r.bad = 0 then s else setPoison s (cellOf s (64 * sector) / 64) true, 0, 0)
  | .atomic =>
    let (data, bad) := readAtHome s r.home r.ctx sector r.sealed
    if bad ≠ 0 then (s, 0, bad)
    else
      let lo := r.pa % 64
      let n := atomSize r.op
      let old := sectLoad data lo n
      (writeAtHome s r.home r.ctx sector r.sealed (byteMask lo n) (sectStore lo (atomNew r.op old r.x r.e)),
        BitVec.ofNat 512 old, 0)

/-- The range of R363 that a request's address lies in; a vault's is none of them. -/
def Req.target (r : Req) : Target363 := if r.vaultOff.isSome then .none else targetOf r.pa

/-- Whether the port behind a request's home takes it: the home die's CXL port, or for host memory the home die's Culvert link
or the one that it has been forwarded to (R347, R363). -/
def portOpen (s : State) (r : Req) : Bool :=
  match r.target with
  | .cxl => (s.die r.home).portUp
  | .host => (s.die (r.fwd.getD r.home)).portUp
  | _ => true

/-- The die whose Culvert link a home forwards a request for host memory to, its own link being down (R347). -/
def forwardTo (s : State) (r : Req) : Option Nat :=
  if r.target == .host && r.fwd.isNone && !(s.die r.home).portUp && (s.die (1 - r.home)).portUp then some (1 - r.home) else none

/-! ### The HBM controllers (R9, R360) -/

/-- The class of a request's field; one of no field is of class 0 (log entry 57). -/
def Req.cls (s : State) (r : Req) : Nat := ((s.fields.get? r.field).map (·.cls)).getD 0

/-- The requests whose turn has come at the HBM controller of a request's stack. -/
def waitingWith (s : State) (r : Req) : List Req :=
  (s.reqs.filter fun e => e.2.home == r.home && e.2.target == .hbm && e.2.pa / 2 ^ 36 == r.pa / 2 ^ 36 && e.2.kind != .beat &&
    servable s e.1 e.2).map (·.2)

/-- The key of a class's turn at the controller of a request. -/
def turnKey (s : State) (r : Req) : Nat := 4 * (r.pa / 2 ^ 36 % 2) + r.cls s

/-- The field whose request the weighted round-robin takes next, of those that wait: the one whose turn it is, else the next
one up, and round again. -/
def nextField (turn : Option (Nat × Nat)) (fields : List Nat) : Nat :=
  let low (fs : List Nat) : Option Nat := fs.foldl (fun m f => some (min f (m.getD f))) none
  match turn with
  | none => (low fields).getD 0
  | some (f, left) =>
    if left != 0 && fields.contains f then f
    else (low (fields.filter (f < ·))).getD ((low fields).getD 0)

/-- Whether an HBM controller serves a request now: by class, higher first, and within the class by weighted round-robin. -/
def hbmTurn (s : State) (r : Req) : Bool :=
  let ws := waitingWith s r
  r.target != .hbm ||
    (ws.all (fun x => x.cls s ≤ r.cls s) &&
      r.field == nextField ((s.die r.home).turns.get? (turnKey s r)) ((ws.filter fun x => x.cls s == r.cls s).map (·.field)))

/-- The turn after a request has been served: HBMW + 1 requests of a field make its turn. -/
def tookTurn (s : State) (r : Req) : State :=
  if r.target != .hbm then s
  else
    let d := s.die r.home
    let key := turnKey s r
    let whole := ((s.fields.get? r.field).map fun f => f.hbmw.getD r.home 0).getD 0
    let left := match d.turns.get? key with
      | some (f, left) => if f = r.field && left != 0 then left - 1 else whole
      | none => whole
    s.setDie r.home { d with turns := d.turns.put key (r.field, left) }

/-- HOME_REQUEST: the request's turn has come (R110): it is applied, STABLE follows, the reply leaves with STABLE. A request for
host memory whose home's link is down is first forwarded to the other link, and waits there (R347). -/
def execHomeRequest (id : Nat) (s : State) : Out :=
  match s.reqs.get? id with
  | none => idle "HOME_REQUEST"
  | some r =>
    if r.kind == .beat || !servable s id r || !hbmTurn s r then idle "HOME_REQUEST"
    else
      match forwardTo s r with
      | some d =>
        let hops := route s r.home d
        .next (setOff (updReq s id fun q => { q with fwd := some d, hops }) hops (.req id))
      | none =>
        if !portOpen s r then idle "HOME_REQUEST"
        else
          let s := match r.who with | .access a _ => if r.vaultOff.isSome then s else noteLevel s a (homeLevel s r) | _ => s
          let s := tookTurn s r
          let (s, reply, bad) := serve s r
          let s := noteStable s r.home r.die r.vc
          let hops := wayOf s r.replyEnds
          let r := { r with stage := .replied, reply, bad, hops, stable := (s.die r.home).stable }
          .next (setOff (updReq s id fun _ => { r with wire := r.replyMessage id }) hops (.reply id))

/-! ## Replies (R111) -/

/-- A vector merged into a die's, but for the die's own entry. -/
def mergeVc (s : State) (die : Nat) (v : List Nat) : State :=
  let d := s.die die
  let vc := (List.range 4).map fun x => if x = die then d.vc.getD x 0 else max (d.vc.getD x 0) (v.getD x 0)
  s.setDie die { d with vc }

/-- Who brings a request's line into L1. -/
def Req.filler (r : Req) (scope : Nat) : Filler := ⟨scope, r.cache, r.team, r.group, r.field⟩

/-- A sector that has come back fills L2 and L1, or L2 and the instruction cache (R14, R81, R83). Bytes that the L2 holds dirty
stay over the reply's. -/
def fillReply (s : State) (r : Req) : State :=
  match r.fillScope with
  | none => s
  | some scope =>
    let key := sectKey r.ctx r.va
    let s := l2Fill s r.die r.ctx r.field key r.cache r.reply
    let c := (s.die r.die).l2.sect key
    let data := mergeSect r.reply c.data c.held
    match r.who with
    | .fetch _ _ _ => icacheFill s r.core key data
    | .copy _ => s
    | _ => if 3 ≤ r.cache || c.bad then s else l1Fill s r.core key data (r.filler scope)

/-- A sector read for a copy. -/
def copyReply (s : State) (c : Nat) (r : Req) : State :=
  { s with copies := s.copies.upd c fun x => { x with buf := x.buf.put (r.va / 64) (mergeSect r.reply r.data r.mask) } }

/-- Whether another request of the die for the same sector, which was sent before, has not been answered: replies of a home to a
die keep their order (R110), and an older value must not fill a cache over a newer one (R106). -/
def replyWaits (s : State) (r : Req) : Bool :=
  s.reqs.any fun e => e.2.die == r.die && e.2.home == r.home && e.2.ctx == r.ctx && e.2.va / 64 == r.va / 64 &&
    e.2.kind != .beat && e.2.sentNo < r.sentNo && (e.2.stage == .sent || e.2.stage == .replied)

/-- REPLY_RECEIVE: the die merges STABLE, caches fill, and the waiter goes on. -/
def execReplyReceive (id : Nat) (s : State) : Out :=
  match s.reqs.get? id with
  | none => idle "REPLY_RECEIVE"
  | some r =>
    if r.stage != .replied || !r.hops.isEmpty || r.kind == .beat || replyWaits s r then idle "REPLY_RECEIVE"
    else
      let s := mergeVc s r.die r.stable
      if r.bad ≠ 0 then .next (failReq s id r 0x0B r.bad)
      else
        let s := dropReq (if r.kind == .read then fillReply s r else s) id
        .next (match r.who with
          | .access a lane =>
            if r.kind == .read then loadReply s a r r.reply else laneReply s a lane r.reply.toNat
          | .copy c => copyReply s c r
          | .fetch _ _ _ => s
          | .writeback => s
          | .host => completeHost s r false r.reply
          | .table w => noteTable s w (r.va / 64) (.data r.reply))

/-! ## Results (R187) -/

/-- RESULT_RETURN: a load's or an atomic's register result is written and LDCNT falls. -/
def execResultReturn (id : Nat) (s : State) : Out :=
  match s.accs.get? id with
  | none => idle "RESULT_RETURN"
  | some a =>
    if a.counter != some true || !a.complete || (s.teams.get? a.team).any Team.isSaved then idle "RESULT_RETURN"
    else
      let s := if a.cancelled then s else writeDest s a a.lanes
      .next (teamTest (endAccess s id) a.team)

/-- STORE_PERFORMED: a store, an atomic without a result or a write-back is performed and STCNT falls. -/
def execStorePerformed (id : Nat) (s : State) : Out :=
  match s.accs.get? id with
  | none => idle "STORE_PERFORMED"
  | some a =>
    if a.counter != some false || !a.complete || a.wbs.any s.reqs.has then idle "STORE_PERFORMED"
    else .next (teamTest (endAccess s id) a.team)

/-! ## The remap filter (R84, R85, R371) -/

/-- A new most recently used entry of a core's filter, of 64. -/
def remapPut (s : State) (core : Nat) (e : RemapEntry) : State :=
  let c := s.core core
  s.setCore core { c with remap := (e :: c.remap).take 64 }

/-- Whether the accesses of a fault may go on as soon as it is answered: a halted team's wait for its release, a saved
team's for its restore (R239, R380). -/
def mayContinue (s : State) (t : Nat) : Bool :=
  ((s.teams.get? t).map fun team => !team.halted && (match team.stat with | .saved _ _ => false | _ => true)).getD true

/-- The lane at which an access waits for the filter. -/
def stalledLane (s : State) (a : Access) (team : Team) : Option LaneAcc :=
  match a.lanes.find? fun l => l.st == .todo with
  | some l =>
    if regionOf l.va == .synonym && (remapHit (s.core team.id.core) team.id.ctx l.va).isNone then some l else none
  | none => none

/-- The record of a walk whose table is missing: path W (R119, R372). -/
def synRec (s : State) (team : Team) (a : Access) (va : Nat) : FaultRec :=
  { ctx := team.id.ctx, src := 3, acc := 0, grid := team.id.grid, team := a.team, teamNo := team.id.num,
    group := if 32 ≤ a.group then 0xFF else a.group, path := if 32 ≤ a.group then 0xFF else a.path, va,
    image := if 32 ≤ a.group then List.replicate 32 0 else imagePart s team a.stand a.pc, token := none,
    since := s.refclk }

/-- A prefetch lane that finds no page is dropped (R295). -/
def dropLane (s : State) (id : Nat) (l : LaneAcc) : State := progress (setLane s id { l with st := .done }) id [] allLanes

/-- REMAP_FILTER_WALK_COMPLETE: the stalled access goes on at the leader address, traps, or parks on a service fault, after
whose reply the walk is made again; a halted or saved team's access waits for its release (R239, R380). What another die holds of the
table is asked for first (R371, R382). -/
def execRemapFilterWalkComplete (id : Nat) (s : State) : Out :=
  match s.accs.get? id, (s.accs.get? id).bind fun a => s.teams.get? a.team with
  | some a, some team =>
    match stalledLane s a team with
    | none => idle "REMAP_FILTER_WALK_COMPLETE"
    | some l =>
      if tableAsked s id || a.parked && (!mayContinue s a.team || s.faults.any fun e => e.2.src == 3 && e.2.team == a.team) then
        idle "REMAP_FILTER_WALK_COMPLETE"
      else
        let prefetch := a.kind == .cache && a.op == 2
        match synWalkGot s (dieOf team.id.core) team.id.ctx (some a.got) l.va with
        | .entry e => .next (progress (remapPut s team.id.core e) id [] allLanes)
        | .ask va => .next (askTableSector s id (dieOf team.id.core) team.id.core team.id.ctx (fieldOfTeam s team) a.team false va)
        | .fails code detail =>
          .next (if prefetch then dropLane s id l else failLanes s id l.lane code (if code = 0x0A then a.laneNo l.lane else detail))
        | .miss va =>
          if prefetch then .next (dropLane s id l)
          else
            let s := (reportFault s (synRec s team a va)).2
            let s := { s with accs := s.accs.upd id fun x => { x with parked := true, got := [] } }
            .next (if a.group < 32 then settleService s a.team a.group else s)
  | _, _ => idle "REMAP_FILTER_WALK_COMPLETE"

/-! ## Service replies (R373, R430) -/

/-- FAULT_RING_ROOM: held records are written. -/
def execFaultRingRoom (s : State) : Out :=
  if (ringRoom s).isSome && !(heldFaults s).isEmpty then .next (drainFaults s) else idle "FAULT_RING_ROOM"

/-- The requests held under a fault. -/
def heldUnder (s : State) (f : Nat) : List (Nat × Req) := s.reqs.filter fun e => e.2.stage == .held f

/-- A fault answered with retry: its requests are translated again; a saved team is serviced (R374). -/
def retryFault (s : State) (f : Nat) (x : FaultRec) : State :=
  let held := heldUnder s f
  let s := { s with faults := s.faults.del f }
  let s := if mayContinue s x.team then
      held.foldl (fun s e => settleWaiter s e.2) (held.foldl (fun s e => updReq s e.1 fun q => { q with stage := .walk }) s)
    else s
  updTeam s x.team fun team => match team.stat with
    | .saved slot _ => if s.faults.any fun e => e.2.team == x.team then team else { team with stat := .saved slot true }
    | _ => team

/-- A fault answered with fail: the team traps, or the held write-backs are discarded. -/
def failFault (s : State) (f : Nat) (x : FaultRec) : State :=
  let held := heldUnder s f
  let s := { s with faults := s.faults.del f }
  let s := held.foldl (fun s e => if s.reqs.has e.1 then failReq s e.1 e.2 0x0A 0 else s) s
  if x.src = 3 then
    (s.accs.filter fun e => e.2.team == x.team && e.2.parked).foldl (fun s e =>
      match (s.teams.get? x.team).bind (stalledLane s e.2) with
      | some l => failLanes s e.1 l.lane 0x0A (e.2.laneNo l.lane)
      | none => s) s
  else s

/-! ## Held words (R48, R49, R64, R237) -/

/-- Whether a team issues. -/
def Team.active (team : Team) : Bool := (match team.stat with | .resident => true | _ => false) && !team.halted

/-- The held wait of an agent of a running team. -/
def heldWait (s : State) (t : Nat) (g : Option Nat) (p : Nat) : Option WaitRec :=
  if ((s.teams.get? t).map Team.active).getD false then
    match holdOf s t g p with
    | some (.wait w) => some w
    | _ => none
  else none

/-- WAIT_TIMEOUT: the deadline has passed at a failing complete evaluation; one with memory words is made first. -/
def execWaitTimeout (t : Nat) (g : Option Nat) (p : Nat) (s : State) : Out :=
  match heldWait s t g p with
  | none => idle "WAIT_TIMEOUT"
  | some w =>
    if !w.late s.refclk || w.poll.isSome then idle "WAIT_TIMEOUT"
    else if w.reads then .next (startPoll s t g p w)
    else
      match w.verdict s t g (((s.teams.get? t).map (·.id.ctx)).getD 0) with
      | some st => .next (endWait s t g p w st)
      | none => idle "WAIT_TIMEOUT"

/-- WAIT_MEMWORD_POLL: a new evaluation of a wait that reads memory words. -/
def execWaitMemwordPoll (t : Nat) (g : Option Nat) (p : Nat) (s : State) : Out :=
  match heldWait s t g p with
  | none => idle "WAIT_MEMWORD_POLL"
  | some w => if w.reads && w.poll.isNone then .next (startPoll s t g p w) else idle "WAIT_MEMWORD_POLL"

/-- ROW_POOL_EMPTY: a word has stood for rows for 4,096 ticks and there are none. -/
def execRowPoolEmpty (t g p : Nat) (s : State) : Out :=
  match holdOf s t (some g) p, s.teams.get? t with
  | some (.rows since names fresh), some team =>
    if team.active && 4096 ≤ s.refclk - since && !team.hasRows g names fresh then
      .next (stopGroup s t g p (pcOf s t (some g) p) 0x05 0 0)
    else idle "ROW_POOL_EMPTY"
  | _, _ => idle "ROW_POOL_EMPTY"

/-- EQP_HOLD_TIMEOUT: a group that has waited 1,024 ticks at `eqp` goes on. One that is parked on a service fault is not waiting
there (R342), and once every group waits at one point all are held for the migration (R338). DESIGN CHOICE (log entry 64): the ticks
that a group spends parked on a service fault after it has come to its `eqp` count; the manual does not say. -/
def execEqpHoldTimeout (t g : Nat) (s : State) : Out :=
  match s.teams.get? t with
  | none => idle "EQP_HOLD_TIMEOUT"
  | some team =>
    match (team.groups.get? g).bind Group.atEqp with
    | some (_, since) =>
      let free := !((team.groups.get? g).any (·.service)) && !migrating team
      if team.active && free && 1024 ≤ s.refclk - since then .next (passEqp s t g) else idle "EQP_HOLD_TIMEOUT"
    | none => idle "EQP_HOLD_TIMEOUT"

end Sys2Proof.Machine
end

