-- ==== Sys2Proof/Machine/Copies.lean ====
section
/-! DEFINITION. The Sluice's sectors (R90 to R93, R97, R101 to R103, R119, R299 to R301), the L2 write queue (R119), and
work queues at their homes (R305 to R307). -/

namespace Sys2Proof.Machine

/-! ## Where a copy writes -/

/-- Byte extent of a copy's destination in global memory, from its lowest to beyond its highest byte. -/
def Copy.span (c : Copy) : Nat × Nat :=
  let fmt := tnFormat c.src
  let per := perByte fmt
  let x0 := if per = 1 then c.reg 0 * elemBytes fmt else c.reg 0 / per
  let lo := rowAddr c.dst ([1, 2, 3, 4].map c.reg) x0
  let hi := rowAddr c.dst ([1, 2, 3, 4].map fun k => c.reg k + tnBox c.src k) (x0 + runBytes fmt (tnBox c.src 0 + 1) + 1)
  (lo, hi)

/-- Byte extent of what a copy reads in global memory, where it reads there; of a gather, the whole tensor. -/
def Copy.reads (c : Copy) : Option (Nat × Nat) :=
  let fmt := tnFormat c.src
  let per := perByte fmt
  let ends (lo hi : List Nat) (x0 n0 : Nat) : Nat × Nat :=
    (rowAddr c.src lo x0, rowAddr c.src hi (x0 + runBytes fmt n0 + 1))
  match c.kind with
  | .st => none
  | .gth => some (ends [0, 0, 0, 0] ([1, 2, 3, 4].map fun k => tnDim c.src k) 0 (tnDim c.src 0))
  | _ => some (ends ([1, 2, 3, 4].map c.reg) ([1, 2, 3, 4].map fun k => c.reg k + tnBox c.src k)
      (if per = 1 then c.reg 0 * elemBytes fmt else c.reg 0 / per) (tnBox c.src 0 + 1))

/-- Whether two extents of global memory may hold one byte; a synonym address may name any other's. -/
def mayMeet (a b : Nat × Nat) : Bool :=
  regionOf a.1 == .synonym || regionOf b.1 == .synonym || (a.1 < b.2 && b.1 < a.2)

/-- Whether what one copy writes may hold a byte that another writes or reads. -/
def Copy.touches (a b : Copy) : Bool :=
  (a.toGlobal && ((b.toGlobal && mayMeet a.span b.span) || (b.reads.any fun r => mayMeet a.span r))) ||
    a.scrWrites.any fun x => (b.scrWrites ++ b.scrReads).any fun y => x.1 == y.1 && x.2.1 < y.2.2 && y.2.1 < x.2.2

/-- Whether two copies meet: one writes a byte that the other writes or reads. -/
def Copy.meets (a b : Copy) : Bool := a.touches b || b.touches a

/-- Whether an earlier copy of the team that meets this one is still under way: what they do to one byte is done in their order
of issue (R119, R301). A copy that waits for its slot takes its place in that order when it has claimed it (DEDUCED, log entry
62). -/
def copyBehind (s : State) (c : Copy) : Bool :=
  s.copies.any fun e => e.2.order < c.order && e.2.team == c.team && e.2.begun && !e.2.stopped && e.2.meets c

/-! ## Source and merged sectors -/

/-- The VA sectors that sector i of the image reads in global memory, its own and those of merged destination bytes. -/
def Copy.needs (c : Copy) (i : Nat) : List Nat :=
  let src := if c.kind == .st then [] else (sectorBytes i).flatMap c.sources
  let old := if c.toGlobal then (sectorBytes i).filterMap c.merges else []
  ((src ++ old).map (· / 64)).eraseDups

/-- The sector that a VA sector names for a copy: itself in the global range, the leader's in the synonym aperture, as far as the copy
has read its context's table. -/
def copySect (s : State) (die ctx : Nat) (got : Tbl TabRead) (v : Nat) : SynWalk :=
  match regionOf (64 * v) with
  | .global => .entry ⟨ctx, 64 * v, 64, 64 * v⟩
  | .synonym => synWalkGot s die ctx (some got) (64 * v)
  | _ => .fails 0x0A 0

/-- The same where it is known. -/
def copyKey (s : State) (die ctx : Nat) (got : Tbl TabRead) (v : Nat) : Nat :=
  match copySect s die ctx got v with
  | .entry e => (e.leader + (64 * v - e.base)) / 64
  | _ => v

/-- The team's landed sectors that wait in the die's write queue for one sector performed: its copies' reads come after them in
the C path (R119). -/
def performBefore (s : State) (die team key : Nat) : State :=
  ((s.die die).writeQ.filter fun x => x.team == team && x.key == key).foldl (fun s x => performLanded s die x) s

/-- A sector asked for: from L2 where it is whole, else by one request. -/
def askSector (s : State) (id : Nat) (c : Copy) (ctx field w : Nat) : State :=
  let die := dieOf c.core
  let key := sectKey ctx (64 * w)
  if ((s.copies.get? id).map fun x => x.buf.has w).getD true then s
  else if s.reqs.any fun e => e.2.who == .copy id && e.2.va == 64 * w && !e.2.probe then s
  else
    let s := performBefore s die c.team key
    let l2 := (s.die die).l2.sect key
    if l2.whole && !l2.bad then { s with copies := s.copies.upd id fun x => { x with buf := x.buf.put w l2.data } }
    else (newReq (if l2.bad then l2Clean s die key else s) { Req.blank with
      die, core := c.core, ctx, field, team := c.team, who := .copy id, kind := .read, va := 64 * w,
      mask := if l2.bad then 0 else l2.held, data := l2.data, fillScope := if l2.bad then none else some 3 }).2

/-- The synonym table's page asked for, which a walk at an address has missed. -/
def askTable (s : State) (id : Nat) (c : Copy) (ctx field va : Nat) : State :=
  if s.reqs.any fun e => e.2.who == .copy id && e.2.op == 0xFE then s
  else (newReq s { Req.blank with
    die := dieOf c.core, core := c.core, ctx, field, team := c.team, who := .copy id, kind := .read, va := 64 * (va / 64),
    op := 0xFE }).2

/-- A destination sector's page asked for, where its translation does not allow a write. -/
def askPage (s : State) (id : Nat) (c : Copy) (ctx field w : Nat) : State :=
  let die := dieOf c.core
  let (x, s) := translateGot s die ctx (some []) (64 * w) .write
  match x with
  | .ok _ _ => s
  | _ =>
    if s.reqs.any fun e => e.2.who == .copy id && e.2.op == 0xFF && e.2.va / 65536 == 64 * w / 65536 then s
    else (newReq s { Req.blank with
      die, core := c.core, ctx, field, team := c.team, who := .copy id, kind := .read, va := 64 * w, op := 0xFF }).2

/-! ## One sector -/

/-- A byte of a sector that the copy has read. -/
def Copy.readByte (c : Copy) (resolve : Nat → Nat) (a : Nat) : Byte :=
  (c.buf.getD (resolve (a / 64)) 0).extractLsb' (8 * (a % 64)) 8

/-- An old byte of a destination: the L2 write queue's newest, then L2's, then the one that was read. -/
def oldByte (s : State) (c : Copy) (ctx : Nat) (resolve : Nat → Nat) (a : Nat) : Byte :=
  let die := dieOf c.core
  let key := sectKey ctx (64 * resolve (a / 64))
  let k := a % 64
  match (s.die die).writeQ.reverse.find? fun x => x.team == c.team && x.key == key && x.mask.getLsbD k with
  | some x => x.data.extractLsb' (8 * k) 8
  | none =>
    let l2 := (s.die die).l2.sect key
    if l2.held.getLsbD k then l2.data.extractLsb' (8 * k) 8 else c.readByte resolve a

/-- The image bytes of sector i: from the tensor, or from the scratchpad image. -/
def Copy.image (c : Copy) (s : State) (resolve : Nat → Nat) (i : Nat) : List Byte :=
  if c.kind == .st then
    let scr := ((s.teams.get? c.team).map fun t => t.res.scr).getD []
    (sectorBytes i).map fun o => Memory.get scr (c.loc + staggered (tnSwizzle c.src) (imageSize c.src) o)
  else (sectorBytes i).map fun o => c.byte o (c.readByte resolve)

/-- The image bytes of sector i written into a team's scratchpad. -/
def landScratch (s : State) (c : Copy) (t i : Nat) (bs : List Byte) : State :=
  updTeam s t fun team => { team with res := { team.res with
    scr := (bs.zip (sectorBytes i)).foldl (fun m e =>
      Memory.put m (c.loc + staggered (tnSwizzle c.src) (imageSize c.src) e.2) e.1) team.res.scr } }

/-- The bytes that sector i writes in global memory, with their addresses. -/
def Copy.writes (c : Copy) (s : State) (ctx : Nat) (resolve : Nat → Nat) (i : Nat) (bs : List Byte) : List (Nat × Byte) :=
  (bs.zip (sectorBytes i)).filterMap fun e => c.target e.2 e.1 (oldByte s c ctx resolve)

/-- The destination sectors of sector i. -/
def Copy.targets (c : Copy) (i : Nat) : List Nat :=
  if c.toGlobal then
    (((sectorBytes i).filterMap fun o => (c.target o 0 fun _ => 0).map (·.1)).map (· / 64)).eraseDups
  else []

/-- Written bytes accepted by the die's L2 write queue. -/
def landGlobal (s : State) (id : Nat) (c : Copy) (ctx field : Nat) (resolve : Nat → Nat) (ws : List (Nat × Byte)) : State :=
  ((ws.map fun x => x.1 / 64).eraseDups).foldl (fun s v =>
    let mine := ws.filter fun x => x.1 / 64 == v
    let mask := mine.foldl (fun m x => m ||| byteMask (x.1 % 64) 1) 0
    let data := mine.foldl (fun d x => mergeSect d (sectStore (x.1 % 64) x.2.toNat) (byteMask (x.1 % 64) 1)) 0
    let die := dieOf c.core
    let d := s.die die
    s.setDie die { d with writeQ := d.writeQ ++
      [{ team := c.team, copy := id, ctx, key := sectKey ctx (64 * resolve v), mask, data, field }] }) s

/-- The sector-count update of a copy's barrier or slot (R92, R97, R101). -/
def countSector (s : State) (c : Copy) (t : Nat) : State :=
  if c.bySlot then
    let (s, ok) := slotSector s t c.track c.slot
    if ok then s else stopLate s t c.issuer false c.path c.pc c.mask 0x0F 0 0
  else if c.trackNone then s
  else
    let (s, overrun) := tbApply s t c.track 0 1
    if overrun then stopLate s t c.issuer false c.path c.pc c.mask 0x0E 0 0 else s

/-- A copy whose every sector has been counted or dropped is complete: its batch and CPYCNT follow (R92, R301). -/
def finishCopy (s : State) (id : Nat) : State :=
  match s.copies.get? id with
  | none => s
  | some c =>
    if c.lands.all fun l => c.sectors ≤ l.landed.length then
      let s := { s with copies := s.copies.del id }
      let s := match c.issuer with
        | some g => updGroup s c.team g fun grp => { grp with cpycnt := grp.cpycnt - 1 }
        | none => s
      teamTest s c.team
    else s

/-- Sector i has been counted or dropped at landing l. -/
def noteLanded (s : State) (id l i : Nat) : State :=
  { s with copies := s.copies.upd id fun c => { c with
    lands := (c.lands.zip (List.range c.lands.length)).map fun x =>
      if x.2 = l then { x.1 with landed := x.1.landed ++ [i] } else x.1 } }

/-- Sector i of the image lands whole and is counted; at a core whose allocation has another generation it is dropped
(R103). -/
def landSector (s : State) (id : Nat) (c : Copy) (ctx field l i : Nat) (land : Landing) (resolve : Nat → Nat) : State :=
  let bs := c.image s resolve i
  match landingTeam s c land with
  | none =>
    let core := s.core land.core
    finishCopy (noteLanded (s.setCore land.core { core with staleDrop := core.staleDrop + 1 }) id l i) id
  | some t =>
    let s := if c.toGlobal then landGlobal s id c ctx field resolve (c.writes s ctx resolve i bs) else landScratch s c t i bs
    finishCopy (noteLanded (countSector s c t) id l i) id

/-- Whether what sector k of a copy reads has come or is on its way from its home, and what it writes may be written. -/
def Copy.under (c : Copy) (s : State) (id ctx : Nat) (k : Nat) : Bool :=
  let die := dieOf c.core
  let resolve := copyKey s die ctx c.got
  ((c.needs k).all fun v => c.buf.has (resolve v) ||
    s.reqs.any fun e => e.2.who == .copy id && !e.2.probe && e.2.va == 64 * resolve v && (e.2.stage == .sent || e.2.stage == .replied)) &&
  (c.targets k).all fun v => match (translateGot s die ctx (some []) (64 * resolve v) .write).1 with | .ok _ _ => true | _ => false

/-- Whether a sector may land: every lower sector is past its translation, so that the sector boundary at which a service fault stops
the copy (R373) always lies above what has landed, as a save needs it; those below the boundary still land (R377, DEDUCED, log
entry 59). -/
def Copy.mayLand (c : Copy) (s : State) (id ctx k : Nat) (land : Landing) : Bool :=
  (List.range k).all fun j => land.landed.contains j || c.under s id ctx j

/-- SECTOR_LAND: sector i of a copy, numbered over its landings: what it needs is asked for, or it lands. -/
def execSectorLand (id i : Nat) (s : State) : Out :=
  match s.copies.get? id, (s.copies.get? id).bind fun c => s.teams.get? c.team with
  | some c, some team =>
    let l := i / c.sectors
    let k := i % c.sectors
    match c.lands[l]? with
    | none => idle "SECTOR_LAND"
    | some land =>
      let ctx := team.id.ctx
      if !c.begun || c.stopped || land.landed.contains k || copyBehind s c || !c.mayLand s id ctx k land ||
          (match team.stat with | .saved _ _ => true | _ => false) then idle "SECTOR_LAND"
      else
        let field := fieldOfTeam s team
        let die := dieOf c.core
        let vs := (c.needs k ++ c.targets k).eraseDups
        match vs.findSome? fun v => match copySect s die ctx c.got v with | .entry _ => none | x => some (v, x) with
        | some (v, .fails code detail) => .next (stopCopy s id code detail (64 * v))
        | some (_, .miss va) =>
          let s' := askTable s id c ctx field va
          if s' = s then idle "SECTOR_LAND" else .next s'
        | some (_, .ask va) =>
          if tableAsked s id then idle "SECTOR_LAND" else .next (askTableSector s id die c.core ctx field c.team false va)
        | _ =>
          let resolve := copyKey s die ctx c.got
          let s1 := (c.needs k).foldl (fun s v => askSector s id c ctx field (resolve v)) s
          let s2 := (c.targets k).foldl (fun s v => askPage s id c ctx field (resolve v)) s1
          let waits := s2.reqs.any fun e => e.2.who == .copy id &&
            (if e.2.probe then (c.targets k).any fun v => 64 * resolve v / 65536 == e.2.va / 65536
             else (c.needs k).any fun v => 64 * resolve v == e.2.va)
          if waits then (if s2 = s then idle "SECTOR_LAND" else .next s2)
          else
            match s2.copies.get? id with
            | some c => .next (landSector s2 id c ctx field l k land resolve)
            | none => .next s2
  | _, _ => idle "SECTOR_LAND"

/-- L2_WRITE_QUEUE_PERFORM: the i-th queued sector of a copy is performed in the die's L2, behind earlier ones of its team
on the same sector (R119). -/
def execL2WriteQueuePerform (die c i : Nat) (s : State) : Out :=
  let q := (s.die die).writeQ
  match (q.filter fun x => x.copy == c)[i]? with
  | none => idle "L2_WRITE_QUEUE_PERFORM"
  | some x =>
    if ((q.takeWhile fun y => y != x).any fun y => y.team == x.team && y.key == x.key) then idle "L2_WRITE_QUEUE_PERFORM"
    else .next (performLanded s die x)

/-! ## Work queues (R305 to R307) -/

/-- A queue replaced. -/
def updQueue (s : State) (key : Nat) (f : WorkQ → WorkQ) : State := { s with workQs := s.workQs.upd key f }

/-- A receiver's registers are written; without RLX the entry's vector is merged and the receiver acquires at device
scope (R306). -/
def receive (s : State) (m : QueueMsg) (ws : List Word) (vc : List Nat) : State :=
  let s := (ws.zip (List.range 8)).foldl (fun s x => writeAgent s m.team m.agent m.path (m.sa + x.2) x.1) s
  match s.teams.get? m.team with
  | some team =>
    if m.rlx then s
    else acquire (if vc.isEmpty then s else mergeVc s (dieOf team.id.core) vc) team.id.core team.id.ctx 4
  | none => s

/-- The home's answer has come: an entry's words are received, a status is written, and the path goes on. -/
def takeAnswer (s : State) (id : Nat) (m : QueueMsg) (ws : List Word) (vc : List Nat) : State :=
  let s := { s with msgs := s.msgs.del id }
  let status (s : State) (v : Word) : State := writeAgent s m.team m.agent m.path m.sd v
  retireAgent (match m.op with
    | .push => s
    | .pushTry => status s (ws.headD 0)
    | .wait => receive s m ws vc
    | .popTry => if ws.isEmpty then status s 0 else status (receive s m ws vc) 1) m.team m.agent m.path

/-- The home answers: at once where the word has come from its own die, else by a message back (R305, R382). The answer of a push is
empty, of a `qpush.try` its status, of the others an entry's words, or none. -/
def answer (s : State) (id : Nat) (m : QueueMsg) (ws : List Word) (vc : List Nat) : State :=
  if m.src = m.home then takeAnswer s id m ws vc
  else
    let hops := route s m.home m.src
    setOff { s with msgs := s.msgs.put id { m with
      answer := some (ws, vc), hops, wire := m.answerMessage id ws (if vc.isEmpty then (s.die m.home).stable else vc) } } hops (.queue id)

/-- An entry given to a receiver. -/
def giveEntry (s : State) (id : Nat) (m : QueueMsg) (e : QEntry) : State := answer s id m e.words e.vc

/-- An insertion, an assignment or a removal noted (R48). -/
def noteQueue (s : State) (key : Nat) : State := updQueue s key fun q => { q with events := q.events + 1 }

/-- An entry inserted: assigned to the waiter that has waited longest, else kept (R307). -/
def insertEntry (s : State) (key : Nat) (e : QEntry) : State :=
  match s.workQs.get? key with
  | none => s
  | some q =>
    let s := noteQueue s key
    match q.waiters with
    | [] => updQueue s key fun q => { q with entries := q.entries ++ [e] }
    | w :: rest =>
      let s := updQueue s key fun q => { q with waiters := rest }
      match s.msgs.get? w with
      | some m => giveEntry s w m e
      | none => updQueue s key fun q => { q with entries := q.entries ++ [e] }

/-- The entry that a push inserts: with the pushing die's vector, unless it is relaxed. -/
def entryOfPush (s : State) (m : QueueMsg) : QEntry :=
  { words := m.data, vc := if m.rlx then [] else (s.die m.src).vc }

/-- Pushes that wait for room are inserted as far as there is room; n bounds the rounds. -/
def servePushers (key : Nat) : Nat → State → State
  | 0, s => s
  | n + 1, s =>
    match s.workQs.get? key with
    | none => s
    | some q =>
      match q.pushers with
      | [] => s
      | p :: rest =>
        if q.cap ≤ q.entries.length then s
        else
          let s := updQueue s key fun q => { q with pushers := rest }
          match s.msgs.get? p with
          | some m => servePushers key n (answer (insertEntry s key (entryOfPush s m)) p m [] [])
          | none => servePushers key n s

/-- The oldest unassigned entry removed for a receiver; a push that waited for room is let in. -/
def takeEntry (s : State) (key : Nat) (q : WorkQ) (id : Nat) (m : QueueMsg) (e : QEntry) (rest : List QEntry) : State :=
  let s := noteQueue (updQueue s key fun q => { q with entries := rest }) key
  servePushers key q.pushers.length (giveEntry s id m e)

/-- QUEUE_REQUEST_AT_HOME: a queue word reaches the home, once what its release sent first has left the die. -/
def execQueueRequestAtHome (id : Nat) (s : State) : Out :=
  match s.msgs.get? id with
  | none => idle "QUEUE_REQUEST_AT_HOME"
  | some m =>
    let key := workKey m.ctx m.q
    match s.workQs.get? key with
    | none => idle "QUEUE_REQUEST_AT_HOME"
    | some q =>
      if m.atHome || m.answer.isSome || !m.hops.isEmpty || !m.after.all (isSent s) then idle "QUEUE_REQUEST_AT_HOME"
      else
        let waitHere (f : WorkQ → WorkQ) : State :=
          updQueue { s with msgs := s.msgs.upd id fun m => { m with atHome := true } } key f
        let room := q.entries.length < q.cap
        .next (match m.op with
          | .push =>
            if room && q.pushers.isEmpty then answer (insertEntry s key (entryOfPush s m)) id m [] []
            else waitHere fun q => { q with pushers := q.pushers ++ [id] }
          | .pushTry =>
            if room then answer (insertEntry s key (entryOfPush s m)) id m [1] [] else answer s id m [0] []
          | .wait =>
            match q.entries with
            | e :: rest => takeEntry s key q id m e rest
            | [] => waitHere fun q => { q with waiters := q.waiters ++ [id] }
          | .popTry =>
            match q.entries with
            | e :: rest => takeEntry s key q id m e rest
            | [] => answer s id m [] [])

end Sys2Proof.Machine
end

