-- ==== Sys2Proof/Machine/Control.lean ====
section
/-! DEFINITION. The control, path, wait and system instructions: majors 0x08 to 0x0F (R217 to R239, R203). -/

namespace Sys2Proof.Machine

/-! ## Branches (R218, R219) -/

/-- A branch that the whole path takes or not. `regs` are the scalars it names, for a sequencer's limit. -/
def branch (w : Bool) (o : BitVec 20) (regs : List Nat) (s : State) (taken : (Nat → Word) → Bool) : Out :=
  runX .any0 w s
    (fun e => if taken (readS e.grp e.path) then .goto s (relTarget e.path.pc o) else .done s)
    (fun q =>
      if regs.any (31 < ·) then illegal 3
      else if taken q.s then .goto s (relTarget q.seq.pc o) else .done s)

def execBr (w : Bool) (o : BitVec 20) (s : State) : Out := branch w o [] s fun _ => true
def execBrZ (w : Bool) (x : BitVec 3) (o : BitVec 20) (s : State) : Out :=
  branch w o [x.toNat] s fun rd => rd x.toNat == 0
def execBrNz (w : Bool) (x : BitVec 3) (o : BitVec 20) (s : State) : Out :=
  branch w o [x.toNat] s fun rd => rd x.toNat != 0

def execBrAny (w : Bool) (p : BitVec 3) (o : BitVec 20) (s : State) : Out :=
  runG .group0 w s fun e =>
    if (e.grp.pred p.toNat &&& e.path.mask) != 0 then .goto s (relTarget e.path.pc o) else .done s

/-- The lowest free path entry and split record, if there are both (R37, R38). -/
def Group.freeSplit (g : Group) : Option (Nat × Nat) :=
  match g.paths.lowestFree 8, g.splits.lowestFree 7 with
  | some n, some r => some (n, r)
  | _, _ => none

/-- The split of R39: entry E keeps the lanes of F, entry N takes those of T at the label. The new path begins with its
parent's count, the branch included (R344). -/
def splitPath (s : State) (e : Env) (n r : Nat) (tk : LaneMask) (target : Dword) : State :=
  let new : Path := { e.path with
    pc := target, domain := tk, mask := tk, split := r, st := 0, label := 0, clause := none, hold := none,
    retired := bump e.path.retired, skid := 0, waited := 0, pass := 0 }
  updGroup s e.t e.g fun grp =>
    { grp with
      splits := grp.splits.put r e.path.split
      paths := (grp.paths.upd e.p fun p =>
        { p with domain := p.domain &&& ~~~tk, mask := p.mask &&& ~~~tk, split := r }).put n new }

/-- The vector branch, on a predicate or its complement. -/
def vectorBranch (w : Bool) (neg : Bool) (p : BitVec 3) (o : BitVec 20) (s : State) : Out :=
  runG .group0 w s fun e =>
    let pa := if neg then ~~~(e.grp.pred p.toNat) else e.grp.pred p.toNat
    let tk := e.path.mask &&& pa
    let target := relTarget e.path.pc o
    if tk = 0 then .done s
    else if tk = e.path.mask then .goto s target
    else if e.grp.emu.isSome then .trap 0x11 0 0
    else
      match e.grp.freeSplit with
      | none => .trap 0x08 0 0
      | some (n, r) => .done (splitPath s e n r tk target)

def execBrv (w : Bool) (p : BitVec 3) (o : BitVec 20) (s : State) : Out := vectorBranch w false p o s
def execBrvN (w : Bool) (p : BitVec 3) (o : BitVec 20) (s : State) : Out := vectorBranch w true p o s

/-! ## Calls and indirect jumps (R221, R222) -/

/-- The parts of the issuing agent that a call needs. -/
structure Caller where
  team : Team
  t : Nat
  group : Option Nat
  path : Nat
  pc : Dword
  cstack : List Dword
  depth : Nat
  rd : Nat → Word

/-- The agent's call stack replaced. -/
def Caller.setStack (c : Caller) (s : State) (k : List Dword) : State :=
  match c.group with
  | some g => updPath s c.t g c.path fun p => { p with cstack := k }
  | none => updSeq s c.t (c.path == 0) fun q => { q with cstack := k }

/-- A word of major 0x0A. -/
def callWord (w : Bool) (s : State) (regs : List Nat) (f : Caller → Res) : Out :=
  runX .any0 w s
    (fun e => f ⟨e.team, e.t, some e.g, e.p, e.path.pc, e.path.cstack, 32, readS e.grp e.path⟩)
    (fun q =>
      if regs.any (31 < ·) then illegal 3
      else f ⟨q.team, q.t, none, if q.flume then 0 else 1, q.seq.pc, q.seq.cstack, 8, q.s⟩)

/-- A transfer that pushes the address of the next word, or does not. -/
def Caller.go (c : Caller) (s : State) (push : Bool) (target : Dword) : Res :=
  .goto (if push then c.setStack s ((c.pc + 4) :: c.cstack) else s) target

/-- Whether a push finds no room. -/
def Caller.full (c : Caller) (push : Bool) : Bool := push && c.depth ≤ c.cstack.length

def execCall (w : Bool) (o : BitVec 20) (s : State) : Out :=
  callWord w s [] fun c => if c.full true then illegal 5 else c.go s true (relTarget c.pc o)

def execRet (w : Bool) (s : State) : Out :=
  callWord w s [] fun c =>
    match c.cstack with
    | [] => illegal 6
    | target :: rest => .goto (c.setStack s rest) target

/-- `jt` and `jt.call`: the entry is read over the I path. -/
def tableJump (w push : Bool) (a : BitVec 6) (s : State) : Out :=
  callWord w s [a.toNat] fun c =>
    if c.full push then illegal 5
    else
      let ctx := s.ctx c.team.id.ctx
      let (base, len) := if c.team.id.image = 0 then (ctx.ftabD, ctx.ftlenD) else (ctx.ftabL, ctx.ftlenL)
      let i := (c.rd a.toNat).toNat
      let va := base.toNat + 8 * i
      if len ≤ i then accessViolation 0 (BitVec.ofNat 64 va)
      else
        match fetch s c.team c.t c.group c.path va 8 with
        | .violation => accessViolation 0 (BitVec.ofNat 64 va)
        | .waiting s => .again s
        | .bytes b s =>
          let x := ofBytes b
          if x = 0 then accessViolation 0 (BitVec.ofNat 64 va) else c.go s push (BitVec.ofNat 64 (4 * (x / 4)))

def execJt (w : Bool) (a : BitVec 6) (s : State) : Out := tableJump w false a s
def execJtCall (w : Bool) (a : BitVec 6) (s : State) : Out := tableJump w true a s

/-- `jr` and `jr.call`: only pinned text may be reached. -/
def registerJump (w push : Bool) (a : BitVec 6) (s : State) : Out :=
  callWord w s [a.toNat, a.toNat + 1] fun c =>
    let x := pair (c.rd a.toNat) (c.rd (a.toNat + 1))
    let ctx := s.ctx c.team.id.ctx
    if c.full push then illegal 5
    else if x.toNat % 4 ≠ 0 then misaligned 0 x
    else if x.toNat < ctx.pinBase.toNat || ctx.pinBase.toNat + ctx.pinLen.toNat ≤ x.toNat then accessViolation 0 x
    else c.go s push x

def execJr (w : Bool) (a : BitVec 6) (s : State) : Out := registerJump w false a s
def execJrCall (w : Bool) (a : BitVec 6) (s : State) : Out := registerJump w true a s

/-! ## rejoin and eqp (R40, R220, R237) -/

/-- `rejoin`: without an open split the path goes on; else it waits, and its record is tested. -/
def execRejoin (w : Bool) (o : BitVec 20) (s : State) : Out :=
  runG .group0 w s fun e =>
    if e.path.split = 7 then .done s
    else
      let label := relTarget e.path.pc o
      let s := landAll s e.t e.g
      let s := updPath s e.t e.g e.p fun p => { p with st := 1, label, hold := none }
      .placed (markSwitch w e (closeRecord 8 s e.t e.g e.path.split))

def execEqp (w : Bool) (n : BitVec 16) (s : State) : Out :=
  runG .group0 w s fun e =>
    if (e.path.clause.map fun c => c.index != 0).getD true then illegal 2
    else if e.grp.emu.isSome then .done s
    else if e.team.target = 2 || e.team.target = e.team.ownKind then .placed (notePoint (retire w e s) e.t e.g n.toNat)
    else .placed (eqpTest (markStands w e (standAt s e (.eqp n.toNat s.refclk))) e.t)

/-! ## The predicate stack (R42, R223): its first entry is the lowest -/

/-- A mask and a stack of the issuing path. -/
def Env.setStack (e : Env) (s : State) (m : LaneMask) (k : List LaneMask) : State :=
  updPath s e.t e.g e.p fun p => { p with mask := m &&& p.domain, pstack := k }

/-- `ppush` on a predicate or its complement. -/
def pushWord (w neg : Bool) (a : BitVec 6) (s : State) : Out :=
  runG .group0 w s fun e =>
    if 7 < a.toNat then illegal 3
    else if 16 ≤ e.path.pstack.length then .trap 0x06 0 0
    else
      let pa := if neg then ~~~(e.grp.pred a.toNat) else e.grp.pred a.toNat
      .done (e.setStack s (e.path.mask &&& pa) (e.path.pstack ++ [e.path.mask]))

def execPpush (w : Bool) (a : BitVec 6) (s : State) : Out := pushWord w false a s
def execPpushN (w : Bool) (a : BitVec 6) (s : State) : Out := pushWord w true a s

def execPinv (w : Bool) (s : State) : Out :=
  runG .group0 w s fun e =>
    match e.path.pstack.getLast? with
    | none => .trap 0x07 0 0
    | some top => .done (e.setStack s (top &&& ~~~e.path.mask) e.path.pstack)

def execPpop (w : Bool) (s : State) : Out :=
  runG .group0 w s fun e =>
    match e.path.pstack.getLast? with
    | none => .trap 0x07 0 0
    | some top => .done (e.setStack s top e.path.pstack.dropLast)

/-! ## Predicate logic (R224) -/

/-- A word of major 0x0D: its predicate fields are checked. -/
def predWord (w : Bool) (ps : List (BitVec 6)) (s : State) (f : Env → Res) : Out :=
  runG .group0 w s fun e => if ps.any fun p => 7 < p.toNat then illegal 3 else f e

/-- A logic form of two predicates. -/
def logic (w : Bool) (d a b : BitVec 6) (s : State) (f : LaneMask → LaneMask → LaneMask) : Out :=
  predWord w [d, a, b] s fun e => .done (e.setP s d.toNat (f (e.grp.pred a.toNat) (e.grp.pred b.toNat)))

def execPand (w : Bool) (d a b : BitVec 6) (s : State) : Out := logic w d a b s fun x y => x &&& y
def execPor (w : Bool) (d a b : BitVec 6) (s : State) : Out := logic w d a b s fun x y => x ||| y
def execPxor (w : Bool) (d a b : BitVec 6) (s : State) : Out := logic w d a b s fun x y => x ^^^ y
def execPandn (w : Bool) (d a b : BitVec 6) (s : State) : Out := logic w d a b s fun x y => x &&& ~~~y
def execPnot (w : Bool) (d a : BitVec 6) (s : State) : Out :=
  predWord w [d, a] s fun e => .done (e.setP s d.toNat (~~~(e.grp.pred a.toNat)))

def execPelect (w : Bool) (d : BitVec 6) (s : State) : Out :=
  predWord w [d] s fun e =>
    .done (e.setP s d.toNat (match lowestLane e.path.mask with | some l => maskOf (· == l) | none => 0))

def execPld (w : Bool) (d a : BitVec 6) (s : State) : Out :=
  predWord w [d] s fun e =>
    if 61 < a.toNat then illegal 3
    else
      let r := fun i => readS e.grp e.path (a.toNat + i)
      .done (e.setP s d.toNat (r 2 ++ r 1 ++ r 0))

def execPst (w : Bool) (d a : BitVec 6) (s : State) : Out :=
  predWord w [a] s fun e =>
    if 61 < d.toNat then illegal 3
    else
      let p := e.grp.pred a.toNat
      .done ([0, 1, 2].foldl (fun s i => writeS s e.t e.g e.p (d.toNat + i) (maskWord p (61 + i))) s)

def execPcnt (w : Bool) (d a : BitVec 6) (s : State) : Out :=
  predWord w [a] s fun e => .done (e.setS s d (BitVec.ofNat 32 (popc (e.grp.pred a.toNat))))

/-! ## Barriers and waits (R225 to R229) -/

/-- `bar.sync`: a release at team scope, then the path waits. -/
def execBarSync (w : Bool) (i : BitVec 6) (s : State) : Out :=
  runG .group0 w s fun e =>
    if 15 < i.toNat then illegal 3
    else if pendingAccess s e.t e.g then .keep s []
    else .placed (barTest (markStands w e (standAt (landAll s e.t e.g) e (.bar i.toNat))) e.t i.toNat)

/-- `wait`: `all` chooses all-of; n is the number of conditions less 1. -/
def execWait (w : Bool) (all : Bool) (n : BitVec 2) (d a b : BitVec 6) (s : State) : Out :=
  let k := n.toNat + 1
  runX .any0 w s
    (fun e =>
      if 60 < a.toNat + 4 * k - 1 then illegal 3
      else waitWord w s e.agt e.p (!all) k d.toNat a.toNat b.toNat)
    (fun q =>
      if 31 < a.toNat + 4 * k - 1 || 31 < b.toNat || 31 < d.toNat then illegal 3
      else waitWord w s q.agt (if q.flume then 0 else 1) (!all) k d.toNat a.toNat b.toNat)

def execWaitcnt (w : Bool) (sel : BitVec 4) (lim : BitVec 6) (s : State) : Out :=
  runG .group0 w s fun e => if countersAt e.grp sel.toNat lim.toNat then .done s else .keep s []

/-! ## Ends and stops (R231, R232) -/

def execExit (w : Bool) (s : State) : Out :=
  runX .any0 w s
    (fun e => if e.grp.emu.isSome then illegal 2 else .placed (markSwitch w e (endPath s e)))
    (fun q => .placed (teamTest (updSeq s q.t q.flume fun x => { x with running := false, clause := none, hold := none }) q.t))

def execTrap (w : Bool) (n : BitVec 6) (s : State) : Out :=
  runX .any0 w s (fun _ => .trap (0x40 + n.toNat) 0 0) fun _ => .trap (0x40 + n.toNat) 0 0

/-- A path held in STATE 2 at its word. -/
def pathStop (s : State) (t g p n : Nat) : State := updPath s t g p fun x => { x with st := 2, hold := some (.stopped n), pass := 0 }

/-- `brk`: a path stop in a context with DEBUG; a path released from it passes it (R406). -/
def execBrk (w : Bool) (n : BitVec 6) (s : State) : Out :=
  runG .group0 w s fun e =>
    if (s.ctx e.team.id.ctx).debug && e.path.pass = 0 then .placed (pathStop s e.t e.g e.p n.toNat) else .done s

def execNop (w : Bool) (s : State) : Out := runG .group0 w s fun _ => .done s

/-! ## Special and context registers (R233, R234) -/

/-- Special registers 1 to 10. -/
def specialReg (e : Env) (n : Nat) : Option Word :=
  match n with
  | 1 => some (BitVec.ofNat 32 e.g)
  | 2 => some (BitVec.ofNat 32 e.team.id.num)
  | 3 => some (BitVec.ofNat 32 e.grp.role)
  | 4 => some (BitVec.ofNat 32 e.team.id.grid)
  | 5 => some (BitVec.ofNat 32 e.grp.slice)
  | 6 => some (BitVec.ofNat 32 e.team.id.core)
  | 7 => some (BitVec.ofNat 32 (dieOf e.team.id.core))
  | 8 => some (BitVec.ofNat 32 e.team.id.image)
  | 9 => some (BitVec.ofNat 32 e.p)
  | 10 => some e.grp.fflags
  | _ => none

def execRdsr (w : Bool) (d a : BitVec 6) (s : State) : Out :=
  runG .group0 w s fun e =>
    match specialReg e a.toNat with
    | some v => .done (e.setS s d v)
    | none => illegal 3

def execRdsrPair (w : Bool) (d a : BitVec 6) (s : State) : Out :=
  runG .group0 w s fun e =>
    match a.toNat with
    | 11 => .done (e.setPair s d (BitVec.ofNat 64 (s.coreClock e.team.id.core - e.team.clock0)))
    | 12 => .done (e.setPair s d (BitVec.ofNat 64 s.refclk))
    | _ => illegal 3

/-- The vector form: `%lane` gives each lane its own number. -/
def execRdsrVector (w : Bool) (d : BitVec 7) (a : BitVec 6) (s : State) : Out :=
  runG .group0 w s fun e =>
    let go (f : Nat → Word) : Res := vector s e .one [] [d.toNat] fun _ => { vals := [lanesFrom f], mask := e.path.mask }
    match a.toNat with
    | 0 => go fun l => BitVec.ofNat 32 l
    | n =>
      match specialReg e n with
      | some v => go fun _ => v
      | none => illegal 3

def execWrsr (w : Bool) (d a : BitVec 6) (s : State) : Out :=
  runG .group0 w s fun e =>
    if d.toNat = 10 then .done (updGroup s e.t e.g fun grp => { grp with fflags := e.s a &&& 0x3F }) else illegal 3

/-- Context register n as a pair; CTX_MEMDEF is the team's copy (R354). -/
def contextReg (s : State) (team : Team) (n : Nat) : Option Dword :=
  let c := s.ctx team.id.ctx
  match n with
  | 0 => some (team.memdef.setWidth 64)
  | 1 => some (c.trapen.setWidth 64)
  | 2 => some c.emuvec
  | 3 => some c.savearea
  | 4 => some c.preempt
  | 5 => some c.fwdtab
  | _ => none

def execRdctx (w : Bool) (d a : BitVec 6) (s : State) : Out :=
  runG .sys6 w s fun e =>
    match contextReg s e.team a.toNat with
    | some v => .done (e.setPair s d v)
    | none => illegal 3

/-! ## Engines (R161, R162, R235) -/

/-- A sequencer started at an address with the forking group's `s0` to `s31`. -/
def startSeq (s : State) (e : Env) (flume : Bool) (pc : Dword) : State :=
  if pc = 0 then s
  else updSeq s e.t flume fun q =>
    { q with running := true, pc, cstack := [], clause := none, hold := none, stop := none, skid := 0,
             s := (List.range 32).foldl (fun m i => m.put i (e.grp.s.getD i 0)) [] }

/-- `efork`: its addresses are read when it is first tried; it waits for the programs of an earlier one and for the group's
scratchpad accesses. -/
def execEfork (w : Bool) (a b : BitVec 6) (s : State) : Out :=
  runG .group0 w s fun e =>
    let held := (heldArgs e.path.hold).getD [(e.pair a).toNat, (e.pair b).toNat]
    let fa : Dword := BitVec.ofNat 64 (held.getD 0 0)
    let sb : Dword := BitVec.ofNat 64 (held.getD 1 0)
    match [fa, sb].find? fun x => x.toNat % 4 != 0 with
    | some x => misaligned 0 x
    | none =>
      match [fa, sb].find? fun x => 2 ^ 60 ≤ x.toNat with
      | some x => accessViolation 0 x
      | none =>
        if e.team.flume.running || e.team.sluice.running || pendingScratch s e.t e.g || pendingTransfer e.team e.g then
          .keep s [fa.toNat, sb.toNat]
        else
          let s := if fa = 0 then s else addFloor s e.t 32 fun o => o.src == some e.g
          .done (startSeq (startSeq s e true fa) e false sb)

/-- `erdv`: it returns when no program runs, the programs' operations have been applied, and their copies have made their
scratchpad accesses (R120). -/
def execErdv (w : Bool) (s : State) : Out :=
  runG .group0 w s fun e =>
    if e.team.flume.running || e.team.sluice.running || e.team.fl.ops.any (fun o => o.src == none) || sluiceScratch s e.t then
      .keep s []
    else
      let s := orFlags s e.t e.g e.team.fl.flags
      .done (updTeam s e.t fun t => { t with fl := { t.fl with flags := 0 } })

/-! ## Launch chaining and migration requests (R236, R237) -/

def execHintSucc (w : Bool) (s : State) : Out :=
  runG .group0 w s fun e =>
    let s := updTeam s e.t fun t => { t with hintSucc := true }
    .done { s with launches := s.launches.upd (launchKey e.team.id.ctx e.team.id.grid) fun l =>
      { l with hinted := if l.hinted.contains e.team.id.num then l.hinted else l.hinted ++ [e.team.id.num] } }

/-- `wait.pred`: it waits for the predecessor, then acquires at device scope. Without a predecessor the manual gives no
status: a free value. -/
def execWaitPred (w : Bool) (d : BitVec 6) (s : State) : Out :=
  runG .group0 w s fun e =>
    let acq (s : State) : State := acquire s e.team.id.core e.team.id.ctx 4
    match (s.launches.get? (launchKey e.team.id.ctx e.team.id.grid)).bind (·.pred) with
    | none =>
      let (k, s) := s.draw
      .done (e.setS (acq s) d (Config.freeWord k))
    | some key =>
      match s.launches.get? key with
      | none => .done (e.setS (acq s) d 0)
      | some l => if l.settled s then .done (e.setS (acq s) d (if l.destroyed then 1 else 0)) else .keep s []

/-- A kernel that the launch gives one image only never migrates: a request of the other kind acts as `migr.req 2`
(R329). The launch has no entry address for the missing image. -/
def oneImage (s : State) (team : Team) (k : Nat) : Nat :=
  match s.launches.get? (launchKey team.id.ctx team.id.grid) with
  | some l => if ofBytes ((l.pkt.drop (if k = 0 then 32 else 24)).take 8) = 0 then 2 else k
  | none => k

/-- The scheduler's write of a target kind (R237): it never sets one for a kernel with one image (R329). -/
def schedulerTarget (s : State) (t k : Nat) : Out :=
  match s.teams.get? t with
  | some team =>
    if 2 < k || oneImage s team 0 ≠ 0 || oneImage s team 1 ≠ 1 then .refused (.notEnabled "TARGET") else .next (setTarget s t k)
  | none => .refused (.notEnabled "TARGET")

def execMigrReq (w : Bool) (k : BitVec 6) (s : State) : Out :=
  runG .group0 w s fun e => if 2 < k.toNat then illegal 3 else .done (setTarget s e.t (oneImage s e.team k.toNat))

/-! ## emret (R203) -/

/-- The checks of both forms. -/
def emret (w : Bool) (s : State) (f : Env → Shadow → Res) : Out :=
  runG .sys6 w s fun e =>
    match e.grp.emu with
    | none => illegal 2
    | some sh => if e.path.pstack.length ≠ sh.pdepth then .trap 0x11 0 0 else f e sh

/-- DESIGN CHOICE (log entry 85): an address whose bits 1:0 or 63:60 are not zero is gone to as it stands; R203 does not speak of it. -/
def execEmretTo (w : Bool) (k : BitVec 6) (s : State) : Out :=
  emret w s fun e sh =>
    .goto (leaveEmulation s e sh k.toNat) (pair (e.grp.s.getD 0 0) (e.grp.s.getD 1 0))

/-- `emret.skip`: the reserved word's clause is fetched again and goes on at the next word, without its header's wait;
after its last word the next clause begins. -/
def execEmretSkip (w : Bool) (k : BitVec 6) (s : State) : Out :=
  emret w s fun e sh =>
    let head := BitVec.ofNat 64
      (forwarded s e.team.id.core e.team.id.ctx (sh.addr - BitVec.ofNat 64 (4 * sh.index)).toNat)
    let next := head + BitVec.ofNat 64 (4 * sh.index + 4)
    match fetch s e.team e.t (some e.g) e.p head.toNat 4 with
    | .violation => accessViolation 0 head
    | .waiting s => .again s
    | .bytes b s =>
      let h := (wordsOf b).headD 0
      let count := bits h.toNat 31 28
      if count ≤ sh.index then .goto (leaveEmulation s e sh k.toNat) next
      else if badHeader (.group e.g) h then illegalClause
      else
        match fetch s e.team e.t (some e.g) e.p next.toNat (4 * (count - sh.index)) with
        | .violation => accessViolation 0 next
        | .waiting s => .again s
        | .bytes b s =>
          .placed (updPath (take w e (leaveEmulation s e sh k.toNat) next) e.t e.g e.p fun p =>
            { p with clause := some ⟨head, h, sh.index, wordsOf b, none⟩ })

end Sys2Proof.Machine
end

