-- ==== Sys2Proof/Machine/Flume.lean ====
section
/-! DEFINITION. The Flume: majors 0x32 to 0x37 (R310 to R322), the operations it applies to tiles and their arithmetic
(R142, R143, R146, R154 to R172). A word checks and captures its operands at issue and joins the team's operations;
FLUME_OP_APPLIED applies one of them whole. -/

namespace Sys2Proof.Machine

/-! ## Issue (R310, R156, R187) -/

/-- Handles of a core (R79). -/
def coreHandles (core : Nat) : Nat := if isLCore core then 48 else 96

/-- The checks on handles: the core's range, then the team's tile count (R79, R154). -/
def handleCheck (a : Agt) (hs : List Nat) : Option Res :=
  if hs.any fun h => coreHandles a.team.id.core ≤ h then some (illegal 3)
  else if hs.any fun h => a.team.fl.tileN ≤ h then some (accessViolation 0 0)
  else none

/-- The key of a source among the floors. -/
def sourceKey (src : Option Nat) : Nat := src.getD 32

/-- An operation with nothing in it. -/
def Agt.op (a : Agt) (kind : FlumeKind) (handle : Nat) (args : List Nat) : FlumeOp :=
  { id := 0, src := a.group, pc := a.pc, path := a.path, kind, handle, args, rows := [], tn := 0, mask := a.mask,
    dests := [], after := [] }

/-- Whether an operation of a group counts in ENGCNT (R187, R321). -/
def FlumeKind.counts : FlumeKind → Bool
  | .vmma | .accLd | .accStF32 | .accStBf16 | .accStF16 | .accRd | .accZero => true
  | _ => false

/-- Whether a group's operation may raise flags, so that its trap must be precise (R267, R314). -/
def FlumeKind.precise : FlumeKind → Bool
  | .vmma | .accStBf16 | .accStF16 => true
  | _ => false

/-- An operation joins its team's. While CTX_TRAPEN is not 0, a group's operation that may raise flags holds its path
until it is applied. -/
def issueOp (s : State) (a : Agt) (o : FlumeOp) : Res :=
  let full : Bool := match a.group with
    | some g => o.kind.counts && ((a.team.groups.get? g).map fun grp => decide (255 ≤ grp.engcnt)).getD false
    | none => false
  if full then .again s
  else
    let (id, s) := s.fresh
    let s := updTeam s a.t fun team =>
      { team with fl := { team.fl with ops := team.fl.ops ++ [{ o with id, after := team.fl.floors.getD (sourceKey a.group) [] }] } }
    let s := match a.group with
      | some g => if o.kind.counts then updGroup s a.t g fun grp => { grp with engcnt := grp.engcnt + 1 } else s
      | none => s
    if a.group.isSome && o.kind.precise && trapen s a.team != 0 then .keep s [id] else .done s

/-- A word that may be standing at an operation it has issued (R314). -/
def standing (s : State) (a : Agt) (f : Res) : Res :=
  match heldArgs a.hold with
  | some ids => if a.team.fl.ops.any fun o => ids.contains o.id then .keep s ids else .done s
  | none => f

/-- A Flume word of a group or of the Flume's sequencer; `block` are the first register and the length of its block. -/
def runF (place : Place) (w : Bool) (s : State) (block : Nat × Nat) (singles : List Nat) (f : Agt → Res) : Out :=
  runX place w s
    (fun e => if 1 < block.2 && 60 < block.1 + block.2 - 1 then illegal 3 else f e.agt)
    (fun q => if 31 < block.1 + block.2 - 1 || singles.any (31 < ·) then illegal 3 else f q.agt)

/-- A result of checks made in order. -/
def firstOf (cs : List (Option Res)) (f : Res) : Res := (cs.findSome? id).getD f

/-! ## vmma (R157 to R159, R313, R314) -/

/-- The rows of R157 and R313: bits of an element, K, A names, B names. -/
def vmmaForm (f : Nat) : Nat × Nat × Nat × Nat :=
  match f with
  | 0 => (16, 32, 16, 3)
  | 1 => (16, 32, 16, 3)
  | 2 => (8, 64, 16, 3)
  | 3 => (8, 64, 16, 3)
  | 4 => (8, 64, 16, 3)
  | _ => (4, 128, 18, 4)

/-- The groups of the issuing group's quad that are present, by quarter (R30, R314). -/
def quadMembers (team : Team) (g : Nat) : List (Option Nat) :=
  [0, 1, 2, 3].map fun q =>
    let m := 4 * (g / 4) + q
    match team.groups.get? m with
    | some grp => if grp.ended then none else some m
    | none => none

def execVmma (w : Bool) (f : BitVec 4) (h va vb : BitVec 7) (s : State) : Out :=
  runG .flume3 w s fun e =>
    let a := e.agt
    standing s a (
      let (_, _, na, nb) := vmmaForm f.toNat
      let names (n k : Nat) : List Nat := (List.range k).map (n + ·)
      if 5 < f.toNat then illegal 1
      else if 127 < va.toNat + na - 1 || 127 < vb.toNat + nb - 1 then illegal 3
      else
        firstOf [handleCheck a [h.toNat]] (
          let quad := quadMembers e.team e.g
          let mapped := e.team.allMapped e.g (names va.toNat na ++ names vb.toNat nb) &&
            quad.all fun m => match m with | some g => e.team.allMapped g (names vb.toNat nb) | none => true
          if !mapped then unmappedName
          else
            let rows := ((names va.toNat na).map fun n => e.team.lanes e.g n) ++
              quad.flatMap fun m => match m with
                | some g => (names vb.toNat nb).map fun n => e.team.lanes g n
                | none => (names vb.toNat nb).map fun _ => []
            issueOp s a { a.op .vmma h.toNat (f.toNat :: quad.map fun m => if m.isSome then 1 else 0) with rows }))

/-! ## Operand formats of fmm and fmmt (R315 to R317) -/

/-- Whether an entry satisfies a row of R316. -/
def fmmAccepts (tern : Bool) (e : BitVec 512) : Bool :=
  let f := tnFormat e
  let b := tnBlock e
  let c := tnCompand e
  if tern then f == 0x0D && c == 0
  else
    match f with
    | 0x01 => b == 0 && c == 0
    | 0x02 => b == 0 && c == 0
    | 0x03 => b == 0 && c == 0
    | 0x04 => b == 0 && c == 0
    | 0x05 => true
    | 0x06 => true
    | 0x07 => true
    | 0x08 => c == 0
    | _ => false

/-- `fmm` and `fmmt`: the block and the entry are captured, the images checked. -/
def tileMultiply (w tern : Bool) (h : BitVec 7) (sa : BitVec 6) (z : Bool) (s : State) : Out :=
  runF .flume4 w s (sa.toNat, 6) [] fun a =>
    let blk := (a.block sa.toNat 6).map (·.toNat)
    let k := blk.getD 1 0
    let e := tnEntry s a.team.id.ctx (blk.getD 0 0 % 256)
    let rowsA := 96 * runBytes (if tern then 0x08 else tnFormat e) k
    let wide := if tnFormat e = 0x01 then 32 else 64
    let blocked := tnBlock e = 1
    firstOf [
      handleCheck a [h.toNat],
      if k % 32 ≠ 0 || k < 32 || 4096 < k then some (illegal 3) else none,
      if fmmAccepts tern e then none else some (accessViolation 0 0),
      scrCheck a.team (blk.getD 2 0) 128 rowsA,
      scrCheck a.team (blk.getD 3 0) 128 (wide * runBytes (tnFormat e) k),
      if blocked then scrCheck a.team (blk.getD 4 0) 4 (96 * (k / 32) * 2) else none,
      if blocked then scrCheck a.team (blk.getD 5 0) 4 (wide * (k / 32) * 2) else none]
      (issueOp s a { a.op (if tern then .fmmt else .fmm) h.toNat
        [k, blk.getD 2 0, blk.getD 3 0, blk.getD 4 0, blk.getD 5 0, if z then 1 else 0] with tn := e })

def execFmm (w : Bool) (h : BitVec 7) (a : BitVec 6) (z : Bool) (s : State) : Out := tileMultiply w false h a z s
def execFmmt (w : Bool) (h : BitVec 7) (a : BitVec 6) (z : Bool) (s : State) : Out := tileMultiply w true h a z s

/-! ## fpoly and fiter (R318) -/

/-- Tiles of a block of order n (R168). -/
def blockTiles (n : Nat) : Nat := (n + 95) / 96 * ((n + 63) / 64)

/-- An iteration word: its values, then its handles. -/
def iterWord (w : Bool) (kind : FlumeKind) (blocks limit : Nat) (h : BitVec 7) (sa : BitVec 6) (sd : Nat) (s : State) : Out :=
  runF .flume4 w s (sa.toNat, 1) [sd] fun a =>
    let x := (a.rd sa.toNat).toNat
    let n := bits x 7 0
    let m := bits x 27 16
    if sd % 2 ≠ 0 then illegal 4
    else if coreHandles a.team.id.core ≤ h.toNat then illegal 3
    else if n < 1 || 192 < n || limit < m then illegal 3
    else
      firstOf [if (List.range (blocks * blockTiles n)).any fun i => a.team.fl.tileN ≤ h.toNat + i then
          some (accessViolation 0 0) else none]
        (issueOp s a (a.op kind h.toNat [n, m, sd]))

def execFpoly (w : Bool) (h : BitVec 7) (a : BitVec 6) (s : State) : Out := iterWord w .fpoly 3 15 h a 0 s
def execFiter (w : Bool) (h : BitVec 7) (a d : BitVec 6) (s : State) : Out := iterWord w .fiter 5 4095 h a d.toNat s

/-! ## ftmask (R320) -/

def maskWord' (w : Bool) (kind : FlumeKind) (h : BitVec 7) (sa : BitVec 6) (s : State) : Out :=
  runF .flume4 w s (sa.toNat, 5) [] fun a =>
    let blk := (a.block sa.toNat 5).map (·.toNat)
    let n := blk.getD 1 0 % 256
    firstOf [
      handleCheck a [h.toNat],
      if n < 1 || 96 < n then some (illegal 3) else none,
      scrCheck a.team (blk.getD 0 0) 1 n]
      (issueOp s a (a.op kind h.toNat (blk.set 1 n)))

def execFtmask (w : Bool) (h : BitVec 7) (a : BitVec 6) (s : State) : Out := maskWord' w .ftmask h a s
def execFtmaskAnc (w : Bool) (h : BitVec 7) (a : BitVec 6) (s : State) : Out := maskWord' w .ftmaskAnc h a s

/-! ## Transfers (R321) -/

/-- A transfer between a tile and a scratchpad image. -/
def transfer (w : Bool) (kind : FlumeKind) (size : Nat) (h : BitVec 7) (sa : BitVec 6) (s : State) : Out :=
  runF .flume34 w s (0, 1) [sa.toNat] fun a =>
    standing s a (
      let off := (a.rd sa.toNat).toNat
      firstOf [handleCheck a [h.toNat], scrCheck a.team off 128 size] (issueOp s a (a.op kind h.toNat [off])))

def execFaccLd (w : Bool) (h : BitVec 7) (a : BitVec 6) (s : State) : Out := transfer w .accLd 24576 h a s
def execFaccStF32 (w : Bool) (h : BitVec 7) (a : BitVec 6) (s : State) : Out := transfer w .accStF32 24576 h a s
def execFaccStBf16 (w : Bool) (h : BitVec 7) (a : BitVec 6) (s : State) : Out := transfer w .accStBf16 12288 h a s
def execFaccStF16 (w : Bool) (h : BitVec 7) (a : BitVec 6) (s : State) : Out := transfer w .accStF16 12288 h a s

def execFaccZero (w : Bool) (h : BitVec 7) (s : State) : Out :=
  runF .flume34 w s (0, 1) [] fun a => firstOf [handleCheck a [h.toNat]] (issueOp s a (a.op .accZero h.toNat []))

/-- `facc.rd`: sixteen names get rows together, each with a result in flight. -/
def execFaccRd (w : Bool) (h d : BitVec 7) (cg : BitVec 2) (s : State) : Out :=
  runG .flume3 w s fun e =>
    let a := e.agt
    let ns := (List.range 16).map (d.toNat + ·)
    if 112 < d.toNat then illegal 3
    else
      firstOf [handleCheck a [h.toNat]] (
        if !e.team.canWrite e.g ns then needRows s e ns false
        else if 255 ≤ e.grp.engcnt then .again s
        else
          let s := updTeam s e.t fun t => t.mapAll e.g ns
          let dests := ns.map fun n => (((s.teams.get? e.t).bind fun t => t.mapped e.g n).map (·.row)).getD 0
          let s := updTeam s e.t fun t => dests.foldl (fun t r => t.pendUp r) t
          issueOp s a { a.op .accRd h.toNat [cg.toNat] with dests })

/-! ## Coefficients, slots, arrivals (R319, R322) -/

/-- A coefficient write: held while an iteration is in progress, with the operand it read. -/
def coefWord (w : Bool) (kind : FlumeKind) (n : Nat) (sa : BitVec 6) (align size : Nat) (s : State) : Out :=
  runF .flume34 w s (0, 1) [sa.toNat] fun a =>
    let v := ((heldArgs a.hold).bind List.head?).getD (a.rd sa.toNat).toNat
    firstOf [if size = 0 then none else scrCheck a.team v align size] (
      if a.team.fl.fiter.isSome then .keep s [v] else issueOp s a (a.op kind 0 [n, v]))

def execFcset (w : Bool) (n : BitVec 4) (a : BitVec 6) (s : State) : Out := coefWord w .fcset n.toNat a 1 0 s
def execFcld (w : Bool) (a : BitVec 6) (s : State) : Out := coefWord w .fcld 0 a 16 64 s

/-- `fcget`: it waits for the team's coefficient writes that came before it. -/
def execFcget (w : Bool) (n : BitVec 4) (d : BitVec 6) (s : State) : Out :=
  runF .flume34 w s (0, 1) [d.toNat] fun a =>
    let pending := (a.team.fl.ops.filter fun o => o.kind == .fcset || o.kind == .fcld).map (·.id)
    let ids := match heldArgs a.hold with
      | some ids => ids.filter pending.contains
      | none => pending
    if ids.isEmpty then .done (a.setS s d.toNat (a.team.fl.coef.getD n.toNat 0)) else .keep s ids

/-- The scratchpad bytes that an operation reads or writes: first byte, length. -/
def FlumeOp.scrBytes (o : FlumeOp) : List (Nat × Nat) :=
  let k := o.args.getD 0 0
  let fmt := tnFormat o.tn
  let image : List (Nat × Nat) :=
    let wide := if fmt = 0x01 then 32 else 64
    let blocked (n off : Nat) : List (Nat × Nat) := if tnBlock o.tn = 1 then [(off, n * (k / 32) * 2)] else []
    [(o.args.getD 1 0, 96 * runBytes (if o.kind == .fmmt then 0x08 else fmt) k), (o.args.getD 2 0, wide * runBytes fmt k)] ++
      blocked 96 (o.args.getD 3 0) ++ blocked wide (o.args.getD 4 0)
  match o.kind with
  | .accLd => [(k, 24576)]
  | .accStF32 => [(k, 24576)]
  | .accStBf16 => [(k, 12288)]
  | .accStF16 => [(k, 12288)]
  | .fcld => [(o.args.getD 1 0, 64)]
  | .ftmask => [(k, o.args.getD 1 0)]
  | .ftmaskAnc => [(k, o.args.getD 1 0)]
  | .fmm => image
  | .fmmt => image
  | _ => []

/-- Whether the engine program has an operation not applied yet that reads or writes a byte of the scratchpad: the program's later
access there comes after it (R119, R311). -/
def engineOwes (team : Team) (at' : Nat) : Bool :=
  team.fl.ops.any fun o => o.src == none && o.scrBytes.any fun r => r.1 ≤ at' && at' < r.1 + r.2

def execFslotTake (w : Bool) (x i : BitVec 6) (s : State) : Out :=
  runF .flume4 w s (0, 1) [x.toNat] fun a =>
    let off := ((heldArgs a.hold).bind List.head?).getD (a.rd x.toNat).toNat
    withRing a off i.toNat
      (if engineOwes a.team (off + i.toNat / 4) then .keep s [off] else takeSlotWord s a x.toNat i.toNat)

def execFslotRelease (w : Bool) (x i : BitVec 6) (s : State) : Out :=
  runF .flume4 w s (0, 1) [x.toNat] fun a => releaseSlotWord s a x.toNat i.toNat

def execFtbarrive (w : Bool) (x : BitVec 6) (k : BitVec 12) (s : State) : Out :=
  runF .flume4 w s (0, 1) [x.toNat] fun a =>
    if k.toNat = 0 then illegal 3 else arrive s a (a.rd x.toNat).toNat k.toNat

/-! ## Tiles (R154, R155) -/

/-- Word (i, j) of a tile. -/
def TeamFlume.word (fl : TeamFlume) (h i j : Nat) : Word := fl.tiles.getD (h * 6144 + 64 * i + j) 0

/-- The words of a tile that are not 0, by place. -/
def tileEntries (h : Nat) (ws : List Word) : Tbl Word :=
  ((List.range 6144).zip ws).filterMap fun e => if e.2 = 0 then none else some (h * 6144 + e.1, e.2)

/-- A whole tile written: its 6,144 words, row by row. -/
def TeamFlume.setTile (fl : TeamFlume) (h : Nat) (ws : List Word) : TeamFlume :=
  { fl with tiles := (fl.tiles.filter fun e => e.1 < h * 6144) ++ tileEntries h ws ++
      (fl.tiles.filter fun e => (h + 1) * 6144 ≤ e.1) }

/-- The 6,144 words from a function of row and column. -/
def tileWords (f : Nat → Nat → Word) : List Word := (List.range 6144).map fun k => f (k / 64) (k % 64)

/-! ## Chunk sums (R142, R143) -/

/-- The chunks of 32 of a list. -/
def chunks {α : Type} (l : List α) : List (List α) := (List.range ((l.length + 31) / 32)).map fun j => (l.drop (32 * j)).take 32

/-- Flags of a list of results. -/
def allFlags (gs : List Nat) : Nat := gs.foldl (fun a g => a ||| g) 0

/-- One chunk added to an accumulator element: products and sum exact, two roundings. -/
def chunkFloat (f : Fmt) (d : Nat) (ps : List (FV × FV)) : Nat × Nat :=
  let prods := ps.map fun p => fmul p.1 p.2
  let (x, g) := sumExact (prods.map (·.1))
  let (c, g1) := round f .rne x
  let (r, g2) := rounded f .rne (fadd .rne (decode f d) (decode f c))
  (r, allFlags (prods.map (·.2)) ||| g ||| g1 ||| g2)

/-- An element's chunks in order. -/
def dotFloat (f : Fmt) (d : Nat) (xs ys : List FV) : Nat × Nat :=
  (chunks (xs.zip ys)).foldl (fun acc ps => let (r, g) := chunkFloat f acc.1 ps; (r, acc.2 ||| g)) (d, 0)

/-- The integer sum of products. -/
def dotInt (ps : List (Int × Int)) : Int := ps.foldl (fun a p => a + p.1 * p.2) 0

/-- An INT32 element: exact chunk sums, wrapping. -/
def dotWrap (d : Nat) (xs ys : List Int) : Nat := (wrap32 (d + dotInt (xs.zip ys))).toNat

/-- An integer product under block scales: each chunk sum is scaled exactly and rounded once before it is added. -/
def dotScaled (d : Nat) (xs ys : List Int) (sa sb : List FV) : Nat × Nat :=
  ((chunks (xs.zip ys)).zip (sa.zip sb)).foldl (fun acc c =>
    let (x, g0) := fmul (FV.int (dotInt c.1)) c.2.1
    let (x, g1) := fmul x c.2.2
    let (v, g2) := round Fmt.f32 .rne x
    let (r, g3) := rounded Fmt.f32 .rne (fadd .rne (decode Fmt.f32 acc.1) (decode Fmt.f32 v))
    (r, acc.2 ||| g0 ||| g1 ||| g2 ||| g3)) (d, 0)

/-! ## vmma applied (R158, R159) -/

/-- The floating format of a `vmma` form. -/
def vmmaFmt (f : Nat) : Fmt := match f with | 0 => .bf16 | 1 => .f16 | 2 => .e4m3 | 3 => .e5m2 | _ => .e2m1

/-- The w bits at bit o of a row of words. -/
def bitsIn (word : Nat → Word) (o w : Nat) : Nat := bits (word (o / 32)).toNat (o % 32 + w - 1) (o % 32)

/-- Row i of A: codes. -/
def vmmaRow (rows : List (List Word)) (wd k i : Nat) : List Nat :=
  (List.range k).map fun e => bitsIn (fun n => laneAt (rows.getD n []) i) (wd * e) wd

/-- Column c of a quarter of B: codes. -/
def vmmaCol (rows : List (List Word)) (wd k c : Nat) : List Nat :=
  (List.range k).map fun e => bitsIn (fun n => laneAt (rows.getD (n / 96) []) (n % 96)) (wd * (16 * e + c)) wd

/-- A scale held in a half of a word. -/
def halfScale (x : Word) (odd : Bool) : FV := s10 (if odd then bits x.toNat 25 16 else bits x.toNat 9 0)

/-- The values of codes, under block scales where there are some. -/
def scaledValues (f : Fmt) (codes : List Nat) (scale : Option (Nat → FV)) : List FV :=
  (codes.zip (List.range codes.length)).map fun ck =>
    match scale with
    | none => decode f ck.1
    | some sc => (blockValue (sc (ck.2 / 32)) (decode f ck.1)).1

/-- The tile that a `vmma` leaves, with its flags. -/
def vmmaTile (fl : TeamFlume) (o : FlumeOp) : List Word × Nat :=
  let f := o.args.headD 0
  let (wd, k, na, nb) := vmmaForm f
  let a := o.rows.take na
  let quarter (q : Nat) : List (List Word) := (o.rows.drop (na + nb * q)).take nb
  let present (q : Nat) : Bool := (o.args.drop 1).getD q 0 == 1
  let aScale (i j : Nat) : FV := halfScale (laneAt (a.getD (16 + j / 2) []) i) (j % 2 == 1)
  let bScale (q c j : Nat) : FV := halfScale (laneAt ((quarter q).getD 3 []) ((4 * c + j) / 2)) (j % 2 == 1)
  let elem (i j : Nat) : Nat × Nat :=
    let old := (fl.word o.handle i j).toNat
    let q := j / 16
    let c := j % 16
    if !o.mask.getLsbD i || !present q then (old, 0)
    else
      let xs := vmmaRow a wd k i
      let ys := vmmaCol (quarter q) wd k c
      if f = 4 then (dotWrap old (xs.map (Machine.signed 8)) (ys.map (Machine.signed 8)), 0)
      else if f = 5 then
        dotFloat Fmt.f32 old (scaledValues Fmt.e2m1 xs (some (aScale i))) (scaledValues Fmt.e2m1 ys (some (bScale q c)))
      else dotFloat Fmt.f32 old (scaledValues (vmmaFmt f) xs none) (scaledValues (vmmaFmt f) ys none)
  let es := (List.range 6144).map fun n => elem (n / 64) (n % 64)
  (es.map fun e => BitVec.ofNat 32 e.1, allFlags (es.map (·.2)))

/-! ## fmm and fmmt applied (R317) -/

/-- Byte o of an image in scratchpad. -/
def imageByte (scr : Memory) (off swz size o : Nat) : Nat := (scr.get (off + staggered swz size o)).toNat

/-- Element k of row r of an image of a format: its code. -/
def imageCode (scr : Memory) (off swz size fmt rb r k : Nat) : Nat :=
  if fmt = 0x07 then bits (imageByte scr off swz size (r * rb + k / 2)) (4 * (k % 2) + 3) (4 * (k % 2))
  else
    (List.range (elemBytes fmt)).foldl (fun n b =>
      n + imageByte scr off swz size (r * rb + k * elemBytes fmt + b) * 256 ^ b) 0

/-- The floating format of a format code. -/
def fmtOf (fmt : Nat) : Fmt :=
  match fmt with
  | 0x01 => .f64 | 0x02 => .f32 | 0x03 => .bf16 | 0x04 => .f16 | 0x05 => .e4m3 | 0x06 => .e5m2 | _ => .e2m1

/-- The narrow format of a format code. -/
def packedOf (fmt : Nat) : Narrow := match fmt with | 0x05 => .e4m3 | 0x06 => .e5m2 | _ => .e2m1

/-- The value of a code: exact under compand index 0, else Dequant (R136, R138). -/
def operandValue (fmt : Nat) (compand : Option (Option Compand)) (scale : Option FV) (code : Nat) : FV × Nat :=
  match compand with
  | some table =>
    let (c, g) := dequant (packedOf fmt) table code (scale.getD (FV.int 1))
    (decode Fmt.f32 c, g)
  | none =>
    match scale with
    | none => (decode (fmtOf fmt) code, 0)
    | some sc => blockValue sc (decode (fmtOf fmt) code)

/-- A word of a scale image: row r, block m of nb. -/
def scaleAt (scr : Memory) (off nb r m : Nat) : FV := s10 (bits (scr.load (off + 2 * (r * nb + m)) 2) 9 0)

/-- A row of integers of an image, with flags: `.i8`, or `.t3` trits. -/
def intRow (scr : Memory) (off swz size fmt rb k r : Nat) : List Int × Nat :=
  let es := (List.range k).map fun i =>
    if fmt = 0x0D then tritOf (imageByte scr off swz size (r * rb + i / 5)) (i % 5)
    else (Machine.signed 8 (imageByte scr off swz size (r * rb + i)), 0)
  (es.map (·.1), allFlags (es.map (·.2)))

/-- A row of values of an image, with flags. -/
def floatRow (scr : Memory) (off swz size fmt rb k r : Nat) (compand : Option (Option Compand)) (scale : Option (Nat → FV)) :
    List FV × Nat :=
  let es := (List.range k).map fun i =>
    operandValue fmt compand (scale.map fun f => f (i / 32)) (imageCode scr off swz size fmt rb r i)
  (es.map (·.1), allFlags (es.map (·.2)))

/-- The tile that an `fmm` or `fmmt` leaves, with its flags. -/
def fmmTile (c : Ctx) (scr : Memory) (fl : TeamFlume) (o : FlumeOp) : List Word × Nat :=
  let fmt := tnFormat o.tn
  let fmtA := if o.kind == .fmmt then 0x08 else fmt
  let k := o.args.getD 0 0
  let nb := k / 32
  let swz := tnSwizzle o.tn
  let blocked := tnBlock o.tn = 1
  let wide := if fmt = 0x01 then 32 else 64
  let rbA := runBytes fmtA k
  let rbB := runBytes fmt k
  let compand := if tnCompand o.tn = 0 then none else some (c.compand.get? (tnCompand o.tn))
  let sA (r m : Nat) : FV := scaleAt scr (o.args.getD 3 0) nb r m
  let sB (r m : Nat) : FV := scaleAt scr (o.args.getD 4 0) nb r m
  let old (i j : Nat) : Nat := if o.args.getD 5 0 = 1 then 0 else (fl.word o.handle i j).toNat
  let blocks (f : Nat → FV) : List FV := (List.range nb).map f
  if fmt = 0x08 || fmt = 0x0D then
    let as := (List.range 96).map fun r => intRow scr (o.args.getD 1 0) swz (96 * rbA) fmtA rbA k r
    let bs := (List.range 64).map fun r => intRow scr (o.args.getD 2 0) swz (64 * rbB) fmt rbB k r
    let es := (List.range 6144).map fun n =>
      let i := n / 64
      let j := n % 64
      let xs := (as.getD i ([], 0)).1
      let ys := (bs.getD j ([], 0)).1
      if blocked then dotScaled (old i j) xs ys (blocks (sA i)) (blocks (sB j)) else (dotWrap (old i j) xs ys, 0)
    (es.map fun e => BitVec.ofNat 32 e.1,
      allFlags (as.map (·.2)) ||| allFlags (bs.map (·.2)) ||| allFlags (es.map (·.2)))
  else
    let as := (List.range 96).map fun r =>
      floatRow scr (o.args.getD 1 0) swz (96 * rbA) fmt rbA k r compand (if blocked then some (sA r) else none)
    let bs := (List.range wide).map fun r =>
      floatRow scr (o.args.getD 2 0) swz (wide * rbB) fmt rbB k r compand (if blocked then some (sB r) else none)
    let flags := allFlags (as.map (·.2)) ||| allFlags (bs.map (·.2))
    let row (i : Nat) : List FV := (as.getD i ([], 0)).1
    let col (j : Nat) : List FV := (bs.getD j ([], 0)).1
    if fmt = 0x01 then
      let es := (List.range 3072).map fun n =>
        let i := n / 32
        let j := n % 32
        dotFloat Fmt.f64 (old i (2 * j) + old i (2 * j + 1) * 2 ^ 32) (row i) (col j)
      (es.flatMap fun e => [BitVec.ofNat 32 e.1, BitVec.ofNat 32 (e.1 / 2 ^ 32)], flags ||| allFlags (es.map (·.2)))
    else
      let es := (List.range 6144).map fun n => dotFloat Fmt.f32 (old (n / 64) (n % 64)) (row (n / 64)) (col (n % 64))
      (es.map fun e => BitVec.ofNat 32 e.1, flags ||| allFlags (es.map (·.2)))

/-! ## ftmask applied (R167) -/

/-- Anc(i): node i and what following parents reaches, from the parents of a tree. -/
def ancestors (par : List Nat) : Nat → Nat → List Nat
  | 0, i => [i]
  | n + 1, i =>
    let p := par.getD i 0xFF
    if p < i then i :: ancestors par n p else [i]

/-- The tile that a mask word leaves. -/
def maskTile (scr : Memory) (fl : TeamFlume) (o : FlumeOp) : List Word :=
  let n := o.args.getD 1 0
  let par := (scr.read (o.args.getD 0 0) n).map (·.toNat)
  let anc := (List.range n).map fun i => ancestors par 96 i
  let c0 := o.args.getD 3 0
  tileWords fun i c =>
    let g := c0 + c
    let inTree (v : Nat) : Bool := v < n && (anc.getD i []).contains v
    if o.kind == .ftmaskAnc then (if i < n && inTree g then 0x3F800000 else 0)
    else
      let p := o.args.getD 2 0
      if n ≤ i || g < p || inTree (g - p) then fl.word o.handle i c else BitVec.ofNat 32 (o.args.getD 4 0)

/-! ## Square matrices (R146, R168 to R170) -/

/-- A square matrix of FP32 codes. -/
abbrev Matrix := List (List Nat)

def Matrix.at (m : Matrix) (i j : Nat) : Nat := (m.getD i []).getD j 0

/-- A matrix of order n from a function, with the flags that its elements raise. -/
def Matrix.make (n : Nat) (f : Nat → Nat → Nat × Nat) : Matrix × Nat :=
  let es := (List.range n).map fun i => (List.range n).map fun j => f i j
  (es.map fun r => r.map (·.1), allFlags (es.map fun r => allFlags (r.map (·.2))))

/-- Block m of the blocks at handle h, as a matrix of order n. -/
def blockGet (fl : TeamFlume) (h n m : Nat) : Matrix :=
  let base := h + m * blockTiles n
  (Matrix.make n fun i j =>
    ((fl.word (base + (n + 63) / 64 * (i / 96) + j / 64) (i % 96) (j % 64)).toNat, 0)).1

/-- A matrix written into block m; elements outside it become +0.0. -/
def blockPut (fl : TeamFlume) (h n m : Nat) (x : Matrix) : TeamFlume :=
  let base := h + m * blockTiles n
  let tc := (n + 63) / 64
  (List.range (blockTiles n)).foldl (fun fl u =>
    fl.setTile (base + u) (tileWords fun r c =>
      let i := 96 * (u / tc) + r
      let j := 64 * (u % tc) + c
      if i < n && j < n then BitVec.ofNat 32 (x.at i j) else 0)) fl

/-- An element as it is fed: rounded to BF16, without flags. -/
def feed (c : Nat) : FV := decode Fmt.bf16 (round Fmt.bf16 .rne (decode Fmt.f32 c)).1

/-- MatMul of R168. -/
def matMul (n : Nat) (x y : Matrix) : Matrix × Nat :=
  let rows := x.map fun r => r.map feed
  let cols := (List.range n).map fun j => (List.range n).map fun k => feed (y.at k j)
  Matrix.make n fun i j => dotFloat Fmt.f32 0 (rows.getD i []) (cols.getD j [])

def Matrix.transpose (n : Nat) (x : Matrix) : Matrix := (Matrix.make n fun i j => (x.at j i, 0)).1

/-- A rounded FP32 addition and product of codes. -/
def addC (a b : Nat) : Nat × Nat := rounded Fmt.f32 .rne (fadd .rne (decode Fmt.f32 a) (decode Fmt.f32 b))
def mulC (a b : Nat) : Nat × Nat := rounded Fmt.f32 .rne (fmul (decode Fmt.f32 a) (decode Fmt.f32 b))

/-- The sum of R146 step 3: runs of 32, each by Tree32, added in order. -/
def sumRuns (vs : List Nat) : Nat × Nat :=
  let padded := vs ++ List.replicate ((32 - vs.length % 32) % 32) 0
  let runs := (chunks padded).map fun r => tree32 (addR Fmt.f32 .rne) (r.map (decode Fmt.f32))
  match runs with
  | [] => (0, 0)
  | r :: rest =>
    let (v, g) := rest.foldl (fun (acc x : FV × Nat) =>
      let (v, g) := addR Fmt.f32 .rne acc.1 x.1
      (v, acc.2 ||| x.2 ||| g)) r
    ((round Fmt.f32 .rne v).1, g)

/-- Residual of R146, steps 2 to 5, from P. -/
def residual (n : Nat) (p : Matrix) : Nat × Nat :=
  let rows := (List.range n).map fun i =>
    let sq := (List.range n).map fun j =>
      let (e, g) := rounded Fmt.f32 .rne (fadd .rne (decode Fmt.f32 (p.at i j)) (FV.int (if i = j then -1 else 0)))
      let (q, h) := mulC e e
      ((q, g ||| h) : Nat × Nat)
    let (t, g) := sumRuns (sq.map Prod.fst)
    (t, g ||| allFlags (sq.map Prod.snd))
  let (t, g) := sumRuns (rows.map (·.1))
  let (r, h) := rounded Fmt.f32 .rne (fsqrt (decode Fmt.f32 t))
  (r, g ||| h ||| allFlags (rows.map (·.2)))

/-- Coefficient k as a code. -/
def TeamFlume.coefCode (fl : TeamFlume) (k : Nat) : Nat := (fl.coef.getD k 0).toNat

/-- fpoly (R169): the tiles after it and its flags. -/
def polyTiles (fl : TeamFlume) (h n d : Nat) : TeamFlume × Nat :=
  let x := blockGet fl h n 0
  let (y, g) := Matrix.make n fun i j => rounded Fmt.f32 .rne
    (fmul (decode Fmt.f32 (fl.coefCode d)) (FV.int (if i = j then 1 else 0)))
  let (y, fl', g) := (List.range d).reverse.foldl (fun (acc : Matrix × TeamFlume × Nat) k =>
    let (z, g1) := matMul n acc.1 x
    let (y, g2) := Matrix.make n fun i j => if i = j then addC (z.at i j) (fl.coefCode k) else (z.at i j, 0)
    (y, blockPut acc.2.1 h n 2 z, acc.2.2 ||| g1 ||| g2)) (y, fl, g)
  (blockPut fl' h n 1 y, g)

/-- What the top of `fiter`'s loop finds (R170). -/
inductive IterTop where
  | diverge (res : Nat)
  | stop (cap : Bool) (res : Nat)
  | go (grow res : Nat)
  deriving DecidableEq, Repr

/-- The top of the loop: A in block 2, the residual, what follows, the flags raised so far. -/
def iterTop (fl : TeamFlume) (f : Fiter) : TeamFlume × Matrix × IterTop × Nat :=
  let x := blockGet fl f.handle f.n f.live
  let (a, g1) := matMul f.n x (x.transpose f.n)
  let (res, g2) := residual f.n a
  let v := decode Fmt.f32 res
  let (d, g3) := match f.prev with
    | some p => rounded Fmt.f32 .rne (fadd .rne v (decode Fmt.f32 p.toNat).negate)
    | none => (0, 0)
  let bad := v.isNan || v.isInf
  let grow := if f.prev.isSome && fcond 4 (decode Fmt.f32 d) (decode Fmt.f32 (fl.coefCode 14)) then f.grow + 1 else 0
  let top := if bad then IterTop.diverge res
    else if grow = 2 then .diverge res
    else if fcond 3 v (decode Fmt.f32 (fl.coefCode 15)) then .stop false res
    else if f.k = f.cap then .stop true res
    else .go grow res
  (blockPut fl f.handle f.n 2 a, a, top, g1 ||| g2 ||| (if bad then 0 else g3))

/-- The rest of an iteration: B, E and the new X. -/
def iterRest (fl : TeamFlume) (f : Fiter) (a : Matrix) (grow res g : Nat) : TeamFlume × Fiter × Nat :=
  let x := blockGet fl f.handle f.n f.live
  let (b, g1) := matMul f.n a x
  let (e, g2) := matMul f.n a b
  let c := fl.coefCode
  let (x', g3) := Matrix.make f.n fun i j =>
    let (p, h0) := mulC (c 0) (x.at i j)
    let (q, h1) := mulC (c 1) (b.at i j)
    let (r, h2) := mulC (c 2) (e.at i j)
    let (u, h3) := addC p q
    let (v, h4) := addC u r
    (v, h0 ||| h1 ||| h2 ||| h3 ||| h4)
  let fl := blockPut (blockPut (blockPut fl f.handle f.n 3 b) f.handle f.n 4 e) f.handle f.n (1 - f.live) x'
  let all := g ||| g1 ||| g2 ||| g3
  (fl, { f with live := 1 - f.live, k := f.k + 1, prev := some (BitVec.ofNat 32 res), grow, raised := f.raised ||| all }, all)

/-! ## An operation applied (R153, R156) -/

/-- The team's Flume changed. -/
def updFlume (s : State) (t : Nat) (f : TeamFlume → TeamFlume) : State := updTeam s t fun team => { team with fl := f team.fl }

/-- An operation is gone; its group's ENGCNT falls. -/
def dropOp (s : State) (t : Nat) (o : FlumeOp) : State :=
  let s := updFlume s t fun fl => { fl with ops := fl.ops.filter fun x => x.id != o.id }
  match o.src with
  | some g =>
    let s := if o.kind.counts then updGroup s t g fun grp => { grp with engcnt := grp.engcnt - 1 } else s
    unpark s t g
  | none => s

/-- The flags of an operation and its trap: a group's is precise, with nothing written; an engine's comes after its
results (R152, R153). -/
def commitOp (s : State) (t : Nat) (team : Team) (o : FlumeOp) (flags : Nat) (write : State → State) : State :=
  let hot := flags &&& trapen s team &&& 0x3F != 0
  match o.src with
  | some g =>
    let s := dropOp (orFlags s t g (BitVec.ofNat 32 flags)) t o
    if hot then stopGroup s t g o.path o.pc 0x0C 0 0 else write s
  | none =>
    let s := write (dropOp s t o)
    let s := updFlume s t fun fl => { fl with flags := fl.flags ||| BitVec.ofNat 32 flags }
    if hot then stopSeq s t true o.pc 0x0C 0 0 else s

/-- Bytes written into a team's scratchpad. -/
def scrBytes (s : State) (t off : Nat) (bs : List Byte) : State :=
  updTeam s t fun x => { x with res := { x.res with scr := x.res.scr.write off bs } }

/-- The words of a tile, row by row. -/
def TeamFlume.words (fl : TeamFlume) (h : Nat) : List Word := tileWords fun i j => fl.word h i j

/-- A converting store's bytes and flags (R140, R321). -/
def convertTile (f : Fmt) (ws : List Word) : List Byte × Nat :=
  let cs := ws.map fun w => convert f .rne false (decode Fmt.f32 w.toNat)
  (cs.flatMap fun c => bytesOf 2 c.1, allFlags (cs.map (·.2)))

/-- The handles that an operation touches. -/
def FlumeOp.handles (o : FlumeOp) : List Nat :=
  match o.kind with
  | .fpoly => (List.range (3 * blockTiles (o.args.getD 0 0))).map (o.handle + ·)
  | .fiter => (List.range (5 * blockTiles (o.args.getD 0 0))).map (o.handle + ·)
  | .fcset => []
  | .fcld => []
  | _ => [o.handle]

/-- Whether an operation may be applied now: what it comes after is gone, and no iteration in progress holds its tiles or
its coefficients (R156, R319). -/
def opReady (fl : TeamFlume) (o : FlumeOp) : Bool :=
  !(fl.ops.any fun x => o.after.contains x.id) &&
  match fl.fiter with
  | none => true
  | some f =>
    o.src.isNone ||
      (o.kind != .fcset && o.kind != .fcld &&
        !(o.handles.any fun h => f.handle ≤ h && h < f.handle + 5 * blockTiles f.n))

/-- Whether a team is on its core. -/
def Team.resident (team : Team) : Bool := match team.stat with | .saved _ _ => false | _ => true

/-- Whether an operation may take the array when its turn comes: its team is on its core, and it is ready; an iteration instruction in
progress has stopped at its boundary while its team is being saved (R156, R171). -/
def Team.mayTake (team : Team) (o : FlumeOp) : Bool :=
  team.resident && opReady team.fl o && !(o.kind == .fiter && team.fl.fiter.isSome && (match team.stat with | .saving => true | _ => false))

/-- The first operation of each source of a team's Flume. -/
def firstOps (fl : TeamFlume) : List FlumeOp :=
  ((fl.ops.map (·.src)).eraseDups).filterMap fun src => fl.ops.find? fun o => o.src == src

/-- Iterations that an operation has made: one more than an iteration instruction in progress has, 0 otherwise. -/
def turnOf (fl : TeamFlume) (o : FlumeOp) : Nat := if o.kind = .fiter then ((fl.fiter.map fun f => f.k + 1).getD 0) else 0

/-- The operations of the core's other teams that are ready: the first of each source. -/
def turnsReady (s : State) (t : Nat) (team : Team) : List (Nat × Nat × Nat) :=
  (s.teams.filter fun e => e.1 != t && e.2.id.core == team.id.core).flatMap fun e =>
    ((firstOps e.2.fl).filter fun o => e.2.mayTake o).map fun o => (e.1, o.id, turnOf e.2.fl o)

/-- Whether an iteration instruction in progress has to let another team's operation go first: no team waits behind it for longer than
one iteration (R156). Its last pass, which stops it, waits like any other. -/
def iterationOwes (s : State) (t : Nat) (team : Team) : Bool :=
  (team.fl.fiter.map fun f => f.owed.any fun x => (turnsReady s t team).contains x).getD false

/-- Whether an older team of the core has an operation ready for the array, which it takes before `o` (R156): any but an iteration
instruction in progress that owes `o` its turn, since the team of `o` waits for no more than one iteration. Teams are numbered in
the order in which they were made, and keep their numbers over saves and restores: the manual does not say which of two teams is the
older, and the lower number is, DESIGN CHOICE (log entry 81). -/
def olderReady (s : State) (t : Nat) (team : Team) (o : FlumeOp) : Bool :=
  s.teams.any fun e => e.1 < t && e.2.id.core == team.id.core &&
    (firstOps e.2.fl).any fun x => e.2.mayTake x &&
      !(x.kind == .fiter && (e.2.fl.fiter.map fun f => f.owed.contains (t, o.id, turnOf team.fl o)).getD false)

/-- The iteration instruction begins, or makes one iteration where its loop goes on. -/
def iterate (s : State) (t : Nat) (team : Team) (o : FlumeOp) : Option State :=
  match team.fl.fiter with
  | none =>
    let f : Fiter :=
      { handle := o.handle, n := o.args.getD 0 0, cap := o.args.getD 1 0, k := 0, prev := none, grow := 0, live := 0,
        sd := o.args.getD 2 0, pc := o.pc, raised := 0, owed := [] }
    some (updFlume s t fun fl => { fl with fiter := some f })
  | some f =>
    let (fl, a, top, g) := iterTop team.fl f
    match top with
    | .go grow res =>
      let (fl, f, all) := iterRest fl f a grow res g
      some (updFlume s t fun _ => { fl with fiter := some { f with owed := turnsReady s t team }, flags := fl.flags ||| BitVec.ofNat 32 all })
    | _ => none

/-- One operation applied whole; none where the Flume does not apply it now. It reads its scratchpad images, and writes what it stores,
at that one moment: R311 lets each byte be old or new by itself where another path writes it without any order, and of two
ordered writes this model never sees the later one without the earlier: DESIGN CHOICE (log entry 69). All lanes of all the names
that a `facc.rd` writes are written at that moment too: a word that reads one of them early finds each lane old or each lane new,
where R191 lets each lane be either: DESIGN CHOICE (log entry 15). -/
def applyOp (s : State) (t : Nat) (team : Team) (o : FlumeOp) : Option State :=
  let fl := team.fl
  let scr := team.res.scr
  let put (ws : List Word) (s : State) : State := updFlume s t fun fl => fl.setTile o.handle ws
  let off := o.args.headD 0
  match o.kind with
  | .fiter => iterate s t team o
  | .vmma => let (ws, g) := vmmaTile fl o; some (commitOp s t team o g (put ws))
  | .fmm => let (ws, g) := fmmTile (s.ctx team.id.ctx) scr fl o; some (commitOp s t team o g (put ws))
  | .fmmt => let (ws, g) := fmmTile (s.ctx team.id.ctx) scr fl o; some (commitOp s t team o g (put ws))
  | .fpoly =>
    let (fl', g) := polyTiles fl o.handle (o.args.getD 0 0) (o.args.getD 1 0)
    some (commitOp s t team o g fun s => updFlume s t fun fl => { fl with tiles := fl'.tiles })
  | .ftmask => some (commitOp s t team o 0 (put (maskTile scr fl o)))
  | .ftmaskAnc => some (commitOp s t team o 0 (put (maskTile scr fl o)))
  | .accLd => some (commitOp s t team o 0 (put (wordsOf (scr.read off 24576))))
  | .accStF32 => some (commitOp s t team o 0 fun s => scrBytes s t off ((fl.words o.handle).flatMap fun w => bytesOf 4 w.toNat))
  | .accStBf16 =>
    let (bs, g) := convertTile Fmt.bf16 (fl.words o.handle)
    some (commitOp s t team o g fun s => scrBytes s t off bs)
  | .accStF16 =>
    let (bs, g) := convertTile Fmt.f16 (fl.words o.handle)
    some (commitOp s t team o g fun s => scrBytes s t off bs)
  | .accRd =>
    some (commitOp s t team o 0 fun s =>
      (o.dests.zip (List.range 16)).foldl (fun s d =>
        updTeam s t fun team =>
          (team.writeRow d.1 (lanesFrom fun i => fl.word o.handle i (16 * off + d.2)) o.mask).pendDown d.1) s)
  | .accZero => some (commitOp s t team o 0 (put []))
  | .fcset =>
    some (commitOp s t team o 0 fun s =>
      updFlume s t fun fl => { fl with coef := fl.coef.put off (BitVec.ofNat 32 (o.args.getD 1 0)) })
  | .fcld =>
    let ws := wordsOf (scr.read (o.args.getD 1 0) 64)
    let cs := (List.range 16).map fun i => (i, ws.getD i 0)
    some (commitOp s t team o 0 fun s => updFlume s t fun fl => { fl with coef := cs })

/-- FLUME_OP_APPLIED: the first operation of a source is applied; an iteration instruction begins or makes one
iteration. -/
def execFlumeOpApplied (t : Nat) (src : Option Nat) (s : State) : Out :=
  match s.teams.get? t with
  | none => .refused (.notEnabled "FLUME_OP_APPLIED")
  | some team =>
    match team.fl.ops.find? fun o => o.src == src with
    | none => .refused (.notEnabled "FLUME_OP_APPLIED")
    | some o =>
      if !team.mayTake o || olderReady s t team o || (o.kind == .fiter && iterationOwes s t team) then
        .refused (.notEnabled "FLUME_OP_APPLIED")
      else
        match applyOp s t team o with
        | some s => .next s
        | none => .refused (.notEnabled "FLUME_OP_APPLIED")

/-- FITER_STOP: the iteration in progress converges, reaches its cap or diverges at the top of its loop. -/
def execFiterStop (t : Nat) (s : State) : Out :=
  match s.teams.get? t with
  | none => .refused (.notEnabled "FITER_STOP")
  | some team =>
    match team.fl.fiter, team.fl.ops.find? fun o => o.kind == .fiter with
    | some f, some o =>
      if !team.mayTake o || olderReady s t team o || iterationOwes s t team then .refused (.notEnabled "FITER_STOP")
      else
        let (fl, _, top, g) := iterTop team.fl f
        let flags := BitVec.ofNat 32 g
        let settle (s : State) : State := dropOp (updFlume s t fun _ => { fl with fiter := none, flags := fl.flags ||| flags }) t o
        match top with
        | .go _ _ => .refused (.notEnabled "FITER_STOP")
        | .diverge res =>
          .next (stopSeqWith (settle s) t true f.pc 0x0D 0 0
            ([BitVec.ofNat 32 f.k, BitVec.ofNat 32 res] ++ f.prev.toList))
        | .stop cap res =>
            let status := f.k % 65536 + f.live * 2 ^ 30 + (if cap then 2 ^ 31 else 0)
            let s := updSeq (settle s) t true fun q =>
              { q with s := (q.s.put f.sd (BitVec.ofNat 32 status)).put (f.sd + 1) (BitVec.ofNat 32 res) }
            .next (if (f.raised ||| g) &&& trapen s team &&& 0x3F != 0 then stopSeq s t true f.pc 0x0C 0 0 else s)
    | _, _ => .refused (.notEnabled "FITER_STOP")

end Sys2Proof.Machine
end

