-- ==== Sys2Proof/Machine/Places.lean ====
section
/-! DEFINITION. Where teams may be placed: what a launch needs, what a core admits (R43, R58, R61, R76, R103, R154, R357),
the worlds of cores (R392, R393), and how groups take their slices (R28). -/

namespace Sys2Proof.Machine

/-! ## Launch packets (R353) -/

/-- Byte i of a launch's packet. -/
def Launch.byte (l : Launch) (i : Nat) : Nat := (l.pkt.getD i 0).toNat

/-- A field of a launch's packet, little-endian. -/
def Launch.num (l : Launch) (at' n : Nat) : Nat := ofBytes ((l.pkt.drop at').take n)

def Launch.flag (l : Launch) (i : Nat) : Bool := bit (l.byte 1) i
def Launch.coop (l : Launch) : Bool := l.flag 0
def Launch.standing (l : Launch) : Bool := l.flag 1
def Launch.idem (l : Launch) : Bool := l.flag 2
def Launch.succ (l : Launch) : Bool := l.flag 3
/-- The preferred image: 0 D, 1 L. -/
def Launch.pref (l : Launch) : Nat := if l.flag 4 then 1 else 0
def Launch.conc (l : Launch) : Bool := l.flag 6
def Launch.solo (l : Launch) : Bool := l.flag 7
def Launch.fieldNo (l : Launch) : Nat := l.byte 2
/-- Groups of each role. -/
def Launch.groups (l : Launch) : List Nat := (List.range 4).map fun i => l.byte (4 + i)
/-- Pool sizes of an image: budget × groups (R27). -/
def Launch.sizes (l : Launch) (image : Nat) : List Nat :=
  (List.range 4).map fun i => l.byte ((if image = 0 then 8 else 12) + i) * l.byte (4 + i)
/-- Scratchpad bytes of an image. -/
def Launch.scrLen (l : Launch) (image : Nat) : Nat := 16384 * l.byte (16 + image)
def Launch.tiles (l : Launch) (image : Nat) : Nat := l.byte (18 + image)
def Launch.entry (l : Launch) (image : Nat) : Nat := l.num (if image = 0 then 24 else 32) 8
def Launch.est (l : Launch) : Nat := l.num 48 4

/-! ## What a core admits -/

/-- What a team takes of a core. -/
structure Need where
  groups : Nat
  rows : Nat
  scr : Nat
  tiles : Nat
  deriving DecidableEq, Repr

/-- What a new team of a launch needs for an image. -/
def Launch.need (l : Launch) (image : Nat) : Need :=
  { groups := l.groups.sum, rows := (l.sizes image).sum, scr := l.scrLen image, tiles := l.tiles image }

/-- The groups of a team that hold a resident place. -/
def Team.liveGroups (team : Team) : Nat := (team.groups.filter fun e => !e.2.ended).length

/-- What a saved team needs for an image, with a launch's sizes for it (R61). -/
def Team.need (team : Team) (l : Launch) (image : Nat) : Need :=
  { groups := team.liveGroups
    rows := max (l.sizes image).sum team.usedAll
    scr := if image = team.id.image then team.res.scrLen else l.scrLen image
    tiles := if image = team.id.image then team.fl.tileN else l.tiles image }

/-- The teams that a core holds. -/
def coreTeams (s : State) (core : Nat) : List (Nat × Team) :=
  s.teams.filter fun e => e.2.id.core == core && !e.2.isSaved

def coreRows (core : Nat) : Nat := if isLCore core then 2048 else 8192
def coreSlices (core : Nat) : Nat := if isLCore core then 4 else 32
def slicePlaces (core : Nat) : Nat := if isLCore core then 8 else 16
def coreScr (core : Nat) : Nat := if isLCore core then 1048576 else 1572864
def coreTiles (core : Nat) : Nat := if isLCore core then 48 else 96

/-- Whether a core with these teams has room for a need (R43, R58, R76, R154). -/
def fitsWith (core : Nat) (teams : List (Nat × Team)) (n : Need) : Bool :=
  (teams.map fun e => e.2.res.reserve).sum + n.rows ≤ coreRows core &&
    (teams.map fun e => e.2.liveGroups).sum + n.groups ≤ coreSlices core * slicePlaces core &&
    (teams.map fun e => e.2.res.scrLen).sum + n.scr ≤ coreScr core &&
    (teams.map fun e => e.2.fl.tileN).sum + n.tiles ≤ coreTiles core

/-- Whether a multicast sector captured with the generation that the core would give next is still in flight toward it
(R103). -/
def genBusy (s : State) (core : Nat) : Bool :=
  let g := ((s.core core).gen + 1) % 64
  s.copies.any fun e =>
    (match e.2.kind with | .mc => true | .mcSlot => true | _ => false) &&
    e.2.lands.any fun l => l.core == core && l.gen == g && l.landed.length < e.2.sectors

/-- Whether a core's world allows teams of a context (R392). -/
def worldAllows (s : State) (core ctx : Nat) : Bool :=
  match (s.core core).world with
  | .ordinary => !(s.ctx ctx).prot
  | .prot c => c == ctx && (s.ctx ctx).prot
  | .clearing _ => false

/-- Whether a field's core map names a core. -/
def fieldHas (s : State) (f core : Nat) : Bool := ((s.fields.get? f).map fun x => x.cores.getLsbD core).getD false

/-- The cores on which a field places teams of an image: of its map and the kind, not fenced. -/
def fieldCores (s : State) (f image : Nat) : List Nat :=
  (List.range 128).filter fun c => isLCore c == (image == 1) && fieldHas s f c && !(s.core c).fenced

/-- Whether a core takes further teams: none of its teams drains (R376), no lane waits to be remapped (R422), and the next
generation is free. -/
def coreOpen (s : State) (core : Nat) : Bool :=
  (coreTeams s core).all (fun e => e.2.drain.isNone) && (s.core core).defects.isEmpty && !genBusy s core

/-- Whether a core admits a team of a context with a need. -/
def admits (s : State) (core ctx : Nat) (n : Need) : Bool :=
  worldAllows s core ctx && coreOpen s core && fitsWith core (coreTeams s core) n

/-- The core with the fewest resident teams, the lowest number among equals (R357). -/
def fewest (s : State) : List Nat → Option Nat
  | [] => none
  | c :: rest =>
    match fewest s rest with
    | none => some c
    | some d => some (if (coreTeams s d).length < (coreTeams s c).length then d else c)

/-- The core that takes a team, if some does. -/
def placeFor (s : State) (f image ctx : Nat) (n : Need) (also : Nat → Bool) : Option Nat :=
  fewest s ((fieldCores s f image).filter fun c => admits s c ctx n && also c)

/-! ## Slices (R28, R43) -/

/-- Resident groups of a slice. -/
def sliceGroups (s : State) (core slice : Nat) : Nat :=
  ((coreTeams s core).map fun e => (e.2.groups.filter fun g => !g.2.ended && g.2.slice == slice).length).sum

/-- A group takes a free resident place: the Headgate chooses the slice, which the manual leaves open, and the group its lowest free
place (DESIGN CHOICE, log entry 65). -/
def seatGroup (s : State) (core t g : Nat) : State :=
  let free := (List.range (coreSlices core)).filter fun k => sliceGroups s core k < slicePlaces core
  let (k, s) := s.draw
  let slice := free.getD (Config.freeNat k % free.length) 0
  let (age, s) := s.fresh
  let s := updGroup s t g fun grp => { grp with slice, age, score := 0 }
  let x := s.slice core slice
  let place := ((List.range (slicePlaces core)).find? fun k => !x.places.has k).getD 0
  s.setSlice core slice { x with pending := x.pending ++ [(t, g)], places := x.places.put place (t, g) }

/-- The live groups of a team take their places. A group waiting for one counts nowhere. -/
def seatTeam (s : State) (core t : Nat) : State :=
  match s.teams.get? t with
  | none => s
  | some team =>
    let live := (team.groups.filter fun e => !e.2.ended).map (·.1)
    let s := updTeam s t fun x => { x with groups := x.groups.mapVals fun _ g => if g.ended then g else { g with slice := coreSlices core } }
    live.foldl (fun s g => seatGroup s core t g) s

/-- A new scratchpad allocation's generation (R103). -/
def nextGen (s : State) (core : Nat) : Nat × State :=
  let g := ((s.core core).gen + 1) % 64
  (g, s.setCore core { s.core core with gen := g })

/-- The core's world while it holds a team of a context; the context has been scheduled last (R397). -/
def occupy (s : State) (core ctx : Nat) : State :=
  let (n, s) := s.fresh
  let s := { s with live := s.live.put ctx { s.ctxLive ctx with sched := n } }
  if (s.ctx ctx).prot then s.setCore core { s.core core with world := .prot ctx } else s

/-! ## The clear sequence (R392, R393) -/

/-- A core that holds no team and whose world does not allow a context begins its clear sequence for it. -/
def beginClear (s : State) (core ctx : Nat) : State :=
  s.setCore core { s.core core with world := .clearing (if (s.ctx ctx).prot then some ctx else none), clearAt := s.refclk }

/-- The cores that would admit a need once cleared. -/
def clearable (s : State) (f image ctx : Nat) (n : Need) : List Nat :=
  (fieldCores s f image).filter fun c =>
    (coreTeams s c).isEmpty && !worldAllows s c ctx && fitsWith c [] n && coreOpen s c &&
      (match (s.core c).world with | .clearing _ => false | _ => true)

/-- Whether some core is in its clear sequence for a context's world. -/
def clearingFor (s : State) (f image ctx : Nat) : Bool :=
  (fieldCores s f image).any fun c =>
    (s.core c).world == .clearing (if (s.ctx ctx).prot then some ctx else none)

/-- What the Headgate finds for a team: a core that admits it, a core to clear for it first, one that is being cleared, or
none. -/
inductive Spot where
  | core (c : Nat)
  | clear (c : Nat)
  | wait
  | nowhere
  deriving DecidableEq, Repr

/-- The place of a team of a context with a need, on cores of a field and an image (R357, R392). -/
def spotFor (s : State) (f image ctx : Nat) (n : Need) (also : Nat → Bool) : Spot :=
  match placeFor s f image ctx n also with
  | some c => .core c
  | none =>
    if clearingFor s f image ctx then .wait
    else match (clearable s f image ctx n).head? with
      | some c => .clear c
      | none => .nowhere

/-- What the clear sequence leaves of a core. -/
def Core.cleared (c : Core) (core : Nat) (world : World) : Core :=
  { c with
    l1 := ⟨[], [], []⟩, icache := [], remap := [], victims := [], llCap := activeSize core, world
    slices := c.slices.mapVals fun _ k => { k with tag := none, due := false } }

/-- CLEAR_SEQUENCE_DONE: every dirty L1 sector goes to L2, the core's caches, filter, tags and buffers are empty, and the
core changes world. -/
def execClearSequenceDone (core : Nat) (s : State) : Out :=
  match (s.core core).world with
  | .clearing next =>
    if (s.core core).fenced then idle "CLEAR_SEQUENCE_DONE"
    else
      let s := (s.core core).l1.lines.foldl (fun s l => l1CleanLine s core l.1) s
      .next (s.setCore core ((s.core core).cleared core (match next with | some c => .prot c | none => .ordinary)))
  | _ => idle "CLEAR_SEQUENCE_DONE"

end Sys2Proof.Machine
end

