-- ==== Sys2Proof/Machine/Saves.lean ====
section
/-! DEFINITION. Pre-emption (R374 to R376), saving and restoring a team (R54, R69, R171, R377 to R380), fenced cores and
defective lanes (R381, R422). -/

namespace Sys2Proof.Machine

/-! ## The registers of pre-emption (R374, R378) -/

/-- SVC_LIMIT, FLUSH and DRAIN of a context. -/
def svcLimit (s : State) (ctx : Nat) : Nat := bits (s.ctx ctx).preempt.toNat 31 0
def flushPct (s : State) (ctx : Nat) : Nat := bits (s.ctx ctx).preempt.toNat 39 32
def drainPct (s : State) (ctx : Nat) : Nat := bits (s.ctx ctx).preempt.toNat 47 40

/-- BASE and SLOTS of a context's save area. -/
def saveBase (s : State) (ctx : Nat) : Nat := 2 ^ 24 * bits (s.ctx ctx).savearea.toNat 59 24
def saveSlots (s : State) (ctx : Nat) : Nat := bits (s.ctx ctx).savearea.toNat 11 0

/-- Slots of a context that no saved team holds. -/
def freeSlots (s : State) (ctx : Nat) : List Nat :=
  (List.range (saveSlots s ctx)).filter fun k => !(s.teams.any fun e => e.2.id.ctx == ctx &&
    match e.2.stat with | .saved j _ => j == k | _ => false)

/-! ## Stop records (R343, R379) -/

/-- The 40 bytes of path p. -/
def pathRecord (s : State) (team : Team) (grp : Group) (p : Nat) : List Byte :=
  match grp.paths.get? p with
  | none => List.replicate 40 0
  | some x => bytesOf 1 (if grp.service && (x.st = 0 || x.hold == some (.stopped 65)) then 3 else x.st) ++
      bytesOf 1 (min 15 x.skid) ++ bytesOf 6 0 ++ imagePart s team (standOf team grp x) x.pc

/-- The 336 bytes of a group's stop record. -/
def stopRecord (s : State) (team : Team) (grp : Group) : List Byte :=
  let head := match grp.stop with
    | some r => bytesOf 1 r.code ++ bytesOf 1 (if r.cause then 1 else 0) ++ bytesOf 2 r.detail ++ bytesOf 8 r.addr.toNat
    | none => bytesOf 12 0
  let live := grp.paths.foldl (fun n e => n + 2 ^ e.1) 0
  head ++ bytesOf 1 live ++ bytesOf 1 (if grp.emu.isSome then 1 else 0) ++ bytesOf 2 0 ++
    (List.range 8).flatMap fun p => pathRecord s team grp p

/-! ## Choosing (R375, R376) -/

/-- The launch of a team. -/
def launchOf (s : State) (team : Team) : Option Launch := s.launches.get? (launchKey team.id.ctx team.id.grid)

/-- The actions of R375. -/
inductive Action where
  | save | drain | flush
  deriving DecidableEq, Repr

/-- The action that reaches a team: `ask` is a PREEMPT packet's ACTION, 0 to choose. -/
def chooseAction (s : State) (team : Team) (l : Launch) (ask : Nat) : Option Action :=
  if team.halted then none
  else
    let asked := if l.idem && !l.standing then Action.flush else .save
    match ask with
    | 1 => some .save
    | 2 => some .drain
    | 3 => some asked
    | _ =>
      if l.standing || l.est = 0 then some .save
      else if drainPct s team.id.ctx * l.est ≤ 100 * team.clauses then some .drain
      else if l.idem && 100 * team.clauses < flushPct s team.id.ctx * l.est then some .flush
      else some .save

/-- A save begins: the team's groups stop issuing at their next word boundaries (R377). -/
def startSave (s : State) (t : Nat) : State := updTeam s t fun team =>
  match team.stat with
  | .saved _ _ => team
  | _ => { team with stat := .saving, drain := none, saveAt := s.refclk }

/-- Queue messages of a team withdrawn: a word that waits begins again. -/
def dropMessages (s : State) (t : Nat) : State :=
  let mine := s.msgs.filter fun e => e.2.team == t
  mine.foldl (fun s e =>
    let m := e.2
    let s := updQueue { s with msgs := s.msgs.del e.1 } (workKey m.ctx m.q) fun q =>
      { q with waiters := q.waiters.filter (· != e.1), pushers := q.pushers.filter (· != e.1) }
    setHold s t m.agent m.path none) s

/-- A team that is gone leaves nothing behind that waits for it: its accesses, copies and messages end, and of its requests that
have not left the die the reads are dropped. Its stores and atomics are performed all the same, with nobody to wait for
them. -/
def forgetTeam (s : State) (t : Nat) : State :=
  let s := dropMessages s t
  let ofAcc (r : Req) : Bool := match r.who with
    | .access a _ => (s.accs.get? a).any fun x => x.team == t
    | _ => false
  let gone (r : Req) : Bool := r.kind == .read &&
    (match r.stage with | .walk => true | .held _ => true | _ => false) &&
    (ofAcc r || match r.who with
     | .copy c => (s.copies.get? c).any fun x => x.team == t
     | .fetch t' _ _ => t' == t
     | _ => false)
  let kept : Tbl Req := s.reqs.filter fun e => !gone e.2
  { s with
    reqs := kept.mapVals fun _ r =>
      if ofAcc r && r.kind != .read then { r with who := .writeback } else r
    accs := s.accs.filter fun e => e.2.team != t
    copies := s.copies.filter fun e => e.2.team != t }

/-- The lanes of an issued store or atomic that wait at the remap filter, or for the agenda, performed or sent: the walk of each
synonym address is made at once, and a lane that finds no page is left out. -/
def finishLanes (id : Nat) : Nat → State → State
  | 0, s => s
  | n + 1, s =>
    match s.accs.get? id, (s.accs.get? id).bind fun a => s.teams.get? a.team with
    | some a, some team =>
      match stalledLane s a team with
      | none => progress s id [] allLanes
      | some l =>
        finishLanes id n (match synWalk s (dieOf team.id.core) team.id.ctx l.va with
          | .entry e => progress (remapPut s team.id.core e) id [] allLanes
          | _ => dropLane s id l)
    | _, _ => s

/-- A flushed team is discarded and returns to the admission queue (R376): what it has stored, and what its outstanding atomics
do, stands, and goes home as at a team's end, so that its launch's writes are performed when the launch ends (R236). -/
def flushTeam (s : State) (t : Nat) : State :=
  match s.teams.get? t with
  | none => s
  | some team =>
    let s := performTeamLanded s t (dieOf team.id.core)
    let s := (s.accs.filter fun e => e.2.team == t && (e.2.kind == .store || e.2.kind == .atomic)).foldl
      (fun s e => finishLanes e.1 (e.2.lanes.length + 1) s) s
    let (wbs, s) := leaveWrites (forgetTeam s t) t team
    let s := removeTeam (noteLeft s team wbs) t team
    { s with launches := s.launches.upd (launchKey team.id.ctx team.id.grid) fun l =>
        { l with todo := (l.todo.filter (· < team.id.num)) ++ team.id.num :: l.todo.filter (team.id.num < ·)
                 hinted := l.hinted.filter (· != team.id.num) } }

/-- A drain begins: it ends in a save after SVC_LIMIT ticks, for a class-3 launch at the 2,000th at the latest, where the team drains
already too (R376, R425). The tick kept is the last one at which the team still drains. -/
def startDrain (s : State) (t : Nat) (team : Team) (class3 : Bool) : State :=
  let limit := match team.drain with | some d => d | none => s.refclk + svcLimit s team.id.ctx
  updTeam s t fun team => { team with drain := some (if class3 then min limit (s.refclk + 1999) else limit) }

/-- A pre-emption reaches a team. A team already being saved, or saved, is not reached again; one that drains drains no longer than a
class-3 launch allows (R425). -/
def preemptTeam (s : State) (t ask : Nat) (class3 : Bool) : State :=
  match s.teams.get? t, (s.teams.get? t).bind fun team => launchOf s team with
  | some team, some l =>
    match team.stat with
    | .resident =>
      let s := if class3 then updTeam s t fun team => { team with urgent := true } else s
      match if class3 && team.drain.isSome then some .drain else chooseAction s team l ask with
      | none => s
      | some .save => startSave s t
      | some .drain => startDrain s t team class3
      | some .flush => flushTeam s t
    | _ => s
  | _, _ => s

/-- DRAIN_TIMEOUT: a draining team that has not ended by the last tick of its drain is saved. -/
def execDrainTimeout (t : Nat) (s : State) : Out :=
  match s.teams.get? t with
  | none => idle "DRAIN_TIMEOUT"
  | some team =>
    match team.stat, team.drain with
    | .resident, some d => if d < s.refclk && !team.halted then .next (startSave s t) else idle "DRAIN_TIMEOUT"
    | _, _ => idle "DRAIN_TIMEOUT"

/-- The service faults of a team that stand. A held write-back names no launch. -/
def faultsOf (s : State) (t : Nat) : List (Nat × FaultRec) := s.faults.filter fun e => e.2.team == t && e.2.grid != 0

/-- SERVICE_LIMIT_EXPIRY: a fault has stood for SVC_LIMIT ticks: the team is saved (R374). A reply accepted within the tick at
which the limit is reached still prevents it, so that it is the tick after which the save begins. -/
def execServiceLimitExpiry (t : Nat) (s : State) : Out :=
  match s.teams.get? t with
  | none => idle "SERVICE_LIMIT_EXPIRY"
  | some team =>
    match team.stat with
    | .resident =>
      if !team.halted && (faultsOf s t).any fun e => svcLimit s team.id.ctx < s.refclk - e.2.since then .next (startSave s t)
      else idle "SERVICE_LIMIT_EXPIRY"
    | _ => idle "SERVICE_LIMIT_EXPIRY"

/-! ## When a save may be completed (R377) -/

/-- Whether a request stands until a service reply: it is held, or its sector's earlier request is. -/
def stuck (s : State) (id : Nat) (r : Req) : Bool :=
  match r.stage with
  | .held _ => true
  | .walk => behind s id r fun x => match x with | .held _ => true | _ => false
  | _ => false

/-- Whether an access is recorded as parked: it waits for service, and nothing of it is under way. -/
def parkedAccess (s : State) (id : Nat) (a : Access) : Bool :=
  let mine := s.reqs.filter fun e => match e.2.who with | .access k _ => k == id | _ => false
  (!mine.isEmpty && mine.all fun e => stuck s e.1 e.2) ||
    (mine.isEmpty && (faultsOf s a.team).any fun e => e.2.src == 3) && a.lanes.any fun l => l.st == .todo

/-- Whether an atomic waits for a line that it is to be performed on in L1 (R117). -/
def fillsForAtomic (s : State) (id : Nat) (a : Access) : Bool :=
  a.kind == .atomic && s.reqs.any fun e => e.2.kind == .read && match e.2.who with | .access k _ => k == id | _ => false

/-- Whether a save may pass an access: a register result is awaited, unless it is that of an atomic performed at home; an atomic
performed in L1 completes first (R293). -/
def quietAccess (s : State) (id : Nat) (a : Access) : Bool :=
  a.kind == .poll || parkedAccess s id a ||
    (if a.counter == some true && !a.far then false else a.lanes.all (fun l => l.st != .todo) && !fillsForAtomic s id a)

/-- Whether a copy stands at a sector index: the same sectors have landed everywhere, and they are those below some x. -/
def Copy.atIndex (c : Copy) : Bool :=
  let x := ((c.lands.head?.map (·.landed.length)).getD 0)
  c.lands.all fun l => l.landed.length == x && l.landed.all (· < x)

/-- Whether a copy's own reads are all back or held. -/
def quietCopy (s : State) (id : Nat) (c : Copy) : Bool :=
  (c.stopped || !c.begun || c.atIndex) &&
    !(s.reqs.any fun e => e.2.who == .copy id && !stuck s e.1 e.2)

/-- Whether the Flume has applied what has reached it (R171): of each source's first operation, none is ready but a `fiter` in
progress, which stops at its iteration's boundary. -/
def flumeQuiet (fl : TeamFlume) : Bool :=
  (firstOps fl).all fun o => !opReady fl o || (o.kind == .fiter && fl.fiter.isSome)

/-- Whether the memory of a slot can be reached: a slot in host memory only while a Culvert link is up (R347). -/
def slotReach (s : State) (team : Team) (slot : Nat) : Bool :=
  let base := saveBase s team.id.ctx + 2 ^ 24 * slot
  (List.range 256).all fun i => match (translate s (dieOf team.id.core) team.id.ctx (base + 65536 * i) .write).1 with
    | .ok pa _ => paReach s pa
    | _ => true

/-- The free slots that can be reached. -/
def openSlots (s : State) (team : Team) : List Nat := (freeSlots s team.id.ctx).filter (slotReach s team)

/-- Whether a team that is being saved has come to rest, and there is a slot for it (R377). A queue's answer on its way is a register
result (R305, R377). -/
def saveReady (s : State) (t : Nat) (team : Team) : Bool :=
  (match team.stat with | .saving => true | _ => false) && !(openSlots s team).isEmpty &&
    (s.accs.all fun e => e.2.team != t || quietAccess s e.1 e.2) &&
    (s.copies.all fun e => e.2.team != t || quietCopy s e.1 e.2) &&
    (s.msgs.all fun e => e.2.team != t || e.2.answer.isNone) &&
    flumeQuiet team.fl

/-! ## Writing the slot (R377, R378, R396) -/

/-- The regions of a slot that a team uses (R378), each from an offset, of so many bytes: its header, its groups' blocks, slots and
row records, an entry for each late reply, a continuation for each incomplete copy and parked access, its rows, its
scratchpad and its tiles. -/
def slotRegions (s : State) (t : Nat) (team : Team) : List (Nat × Nat) :=
  let parts := (s.copies.filter fun e => e.2.team == t).length +
    (s.accs.filter fun e => e.2.team == t && parkedAccess s e.1 e.2).length
  (0, 0x1000) :: team.groups.map (fun e => (0x1000 + 8192 * e.1, 8192)) ++
    [(0x41000, 0xF000), (0x50000, 1024 * farCount s t), (0x60000, 128 * parts), (0x160000, 384 * team.usedAll),
     (0x460000, team.res.scrLen), (0x5E0000, 24576 * team.fl.tileN)]

/-- What a path's part of its group's block holds (R378). -/
def pathData (p : Path) : List Nat :=
  [p.pc.toNat, p.domain.toNat, p.mask.toNat, p.split, p.st, p.label.toNat, p.pstack.length, p.cstack.length] ++
    p.pstack.map (·.toNat) ++ p.cstack.map (·.toNat)

/-- What a group's block holds: its paths, split records, registers, map, flags, counters and emulation shadow (R378). -/
def groupData (g : Group) : List Nat :=
  (List.range 8).flatMap (fun p => match g.paths.get? p with | some x => 1 :: pathData x | none => [0]) ++
    (List.range 8).map (fun r => match g.splits.get? r with | some x => x + 1 | none => 0) ++
    (List.range 64).map (fun i => (g.s.getD i 0).toNat) ++ (List.range 8).map (fun i => (g.p.getD i 0).toNat) ++
    (List.range 128).flatMap (fun n => match g.map.get? n with | some m => [m.row + 1, m.seq] | none => [0, 0]) ++
    [g.fflags.toNat, g.ldcnt, g.stcnt, g.cpycnt, g.engcnt, g.lastBatch, g.eqn] ++
    (match g.emu with
     | some x => [1, x.mask.toNat, x.pdepth, x.addr.toNat, x.index, x.path] ++ x.s.map (·.toNat)
     | none => [0])

/-- The 8,192 bytes of a group's block: its stop record, then what R378 lists. -/
def groupBlock (s : State) (team : Team) (grp : Group) : List Byte :=
  stopRecord s team grp ++ (List.range 7856).map (Config.blockByte (groupData grp))

/-- Byte o of a slot. Groups' blocks, scratchpad and tiles stand at their places; the team's live rows follow one another, 96 lanes
of 4 bytes each (DEDUCED, log entry 32). The rest R378 names and does not lay out: free values, `fresh` by place. -/
def slotByte (s : State) (team : Team) (fresh : Nat → Byte) (o : Nat) : Byte :=
  if 0x1000 ≤ o && o < 0x41000 then
    match team.groups.get? ((o - 0x1000) / 8192) with
    | some grp =>
      let j := (o - 0x1000) % 8192
      if j < 336 then (stopRecord s team grp).getD j 0 else Config.blockByte (groupData grp) (j - 336)
    | none => fresh o
  else if 0x160000 ≤ o && o < 0x460000 then
    let i := (o - 0x160000) / 384
    let j := (o - 0x160000) % 384
    match team.res.rows[i]? with
    | some r => (bytesOf 4 (r.2.lanes.getD (j / 4) 0).toNat).getD (j % 4) 0
    | none => fresh o
  else if 0x460000 ≤ o && o < 0x5E0000 then Memory.get team.res.scr (o - 0x460000)
  else if 0x5E0000 ≤ o && o < 0x820000 then
    let k := (o - 0x5E0000) / 4
    (bytesOf 4 (team.fl.tiles.getD k 0).toNat).getD (o % 4) 0
  else fresh o

/-- A range of bytes within each 64 KiB page that it touches. -/
def byPages (r : Nat × Nat) : List (Nat × Nat) :=
  ((List.range ((r.1 % 65536 + r.2 + 65535) / 65536)).map fun i =>
    let lo := if i = 0 then r.1 else r.1 / 65536 * 65536 + 65536 * i
    (lo, min (r.1 + r.2) ((lo / 65536 + 1) * 65536) - lo)).filter fun x => x.2 != 0

/-- n bytes stored within one page of a context's memory, whole sectors of it, at once; sealed for a protected context (R396). -/
def putRange (s : State) (die ctx va n : Nat) (byte : Nat → Byte) : State :=
  match (translate s die ctx va .write).1 with
  | .ok pa sealed =>
    if !paReach s pa then s else
    let home := homeOf s pa
    let base := cellOf s pa
    let hit (j : Nat) : Bool := pa / 64 ≤ j && j < pa / 64 + n / 64
    let plain (j : Nat) : BitVec 512 := sectOf ((List.range 64).map fun i => byte (64 * j + i))
    match sealed || (s.ctx ctx).prot, keyOf s ctx with
    | true, none => s
    | lock, key =>
      let key := if lock then key else none
      let cell (j : Nat) : BitVec 512 := match key with
        | some k => k.crypt true (pa / 64 + j) (plain j)
        | none => plain j
      let marks (k : KeyRec) : Tbl (Nat × Nat × BitVec 32) := (List.range (n / 64)).map fun j =>
        (pa / 64 + j, ctx, s.keys.gens.getD ctx 0, k.macOf (pa / 64 + j) (cell j))
      let seals := (s.keys.seals.filter fun e => e.1 < pa / 64) ++ ((key.map marks).getD []) ++
        s.keys.seals.filter fun e => pa / 64 + n / 64 ≤ e.1
      let s := s.setDie home ((s.die home).setMsc ((s.die home).msc.filter fun e => !hit e.1))
      clearPoison { s with
        store := { s.store with pa := s.store.pa.replace base n fun i => (cell (i / 64)).extractLsb' (8 * (i % 64)) 8 }
        keys := { s.keys with seals } } fun j => base / 64 ≤ j && j < base / 64 + n / 64
  | _ => s

/-- The team's state written into a slot: the parts of it that the team uses. -/
def writeSlot (s : State) (t : Nat) (team : Team) (slot : Nat) : State :=
  let die := dieOf team.id.core
  let base := saveBase s team.id.ctx + 2 ^ 24 * slot
  let (k, s) := s.draw
  let byte := slotByte s team fun o => Config.freeByte (2 ^ 24 * k + o)
  ((slotRegions s t team).flatMap byPages).foldl (fun s r =>
    putRange s die team.id.ctx (base + r.1) r.2 fun i => byte (r.1 + i)) s

/-! ## The save (R377) -/

/-- A wait's poll given up. -/
def dropPolls (s : State) (t : Nat) : State :=
  let mine := s.accs.filter fun e => e.2.team == t && e.2.kind == .poll
  let s := mine.foldl (fun s e => { dropRest s e.1 with accs := s.accs.del e.1 }) s
  updTeam s t fun team =>
    let fix : Option Hold → Option Hold := fun h => match h with
      | some (.wait w) => some (.wait { w with poll := none })
      | x => x
    { team with
      groups := team.groups.mapVals fun _ g => { g with paths := g.paths.mapVals fun _ p => { p with hold := fix p.hold } }
      flume := { team.flume with hold := fix team.flume.hold }
      sluice := { team.sluice with hold := fix team.sluice.hold } }

/-- Every fixed-latency result of a team written. -/
def landTeam (s : State) (t : Nat) : State :=
  (((s.teams.get? t).map fun team => team.groups.keys).getD []).foldl (fun s g => landAll s t g) s

/-- What a team's save leaves behind before its slot is written: results landed, messages and polls withdrawn, copies at
their indices, its writes on their way home. -/
def quiesce (s : State) (t : Nat) : State :=
  match s.teams.get? t with
  | none => s
  | some team =>
    let s := landTeam s t
    let s := dropPolls (dropMessages s t) t
    let s := { s with copies := s.copies.mapVals fun _ c => if c.team = t then { c with buf := [] } else c }
    let (wbs, s) := leaveWrites (dropTables s fun x _ => x == t) t team
    noteLeft s team wbs

/-- A team off its core. -/
def leaveCore (s : State) (t : Nat) (team : Team) : State :=
  team.groups.foldl (fun s e => leaveSlice s team.id.core e.2.slice t e.1) s

/-- The lanes that wait to be remapped, where their slices hold no group, are (R422). -/
def applyRemaps (s : State) (core : Nat) : State :=
  let c := s.core core
  let ready := c.defects.filter fun d => sliceGroups s core (d / 128) = 0
  if ready.isEmpty then s
  else raiseHealth (s.setCore core { c with
    remapped := c.remapped ++ ready, defects := c.defects.filter fun d => !ready.contains d }) 2

/-- TEAM_SAVE_COMPLETE: the team's state is in a free slot, which one the manual leaves open, and its core is free of
it. -/
def saveTeam (s : State) (t : Nat) : State :=
  let s := quiesce s t
  match s.teams.get? t with
  | none => s
  | some team =>
    let free := openSlots s team
    let (k, s) := s.draw
    let slot := free.getD (Config.freeNat k % free.length) 0
    let s := noteTeam (writeSlot s t team slot) team
    let saved := slotRegions s t team
    let s := updTeam (leaveCore s t team) t fun team => { team with stat := .saved slot (faultsOf s t).isEmpty, saved }
    applyRemaps (vacate s team.id.core) team.id.core

def execTeamSaveComplete (t : Nat) (s : State) : Out :=
  match s.teams.get? t with
  | none => idle "TEAM_SAVE_COMPLETE"
  | some team => if saveReady s t team then .next (saveTeam s t) else idle "TEAM_SAVE_COMPLETE"

/-! ## Continuing what service has answered (R373, R380) -/

/-- A team's requests whose faults are answered are translated again, from its core, and so are those that stood behind them (R380). -/
def releaseServiced (s : State) (t core : Nat) : State :=
  let live (f : Nat) : Bool := s.faults.has f
  let mine (r : Req) : Bool := match r.who with
    | .access a _ => (s.accs.get? a).any fun x => x.team == t
    | .copy c => (s.copies.get? c).any fun x => x.team == t
    | .fetch t' _ _ => t' == t
    | _ => false
  let s := { s with reqs := s.reqs.mapVals fun _ r => match r.stage with
    | .held f => if mine r && !live f then { r with stage := .walk, core, die := dieOf core } else r
    | .walk => if mine r then { r with core, die := dieOf core } else r
    | _ => r }
  match s.teams.get? t with
  | none => s
  | some team => team.groups.foldl (fun s e => settleService s t e.1) s

/-- Whether a team's core is still one of its field's (R361, R381). -/
def coreKept (s : State) (team : Team) : Bool :=
  !(s.core team.id.core).fenced && fieldHas s (fieldOfTeam s team) team.id.core

/-- A halted team released (R239, R380). One whose core its field has given up is saved before it runs on (R361). -/
def resumeTeam (s : State) (t : Nat) : State :=
  match s.teams.get? t with
  | none => s
  | some team => if team.halted then
      (match team.stat with
       | .saved _ _ => releaseTeam s t
       | _ =>
         let s := releaseServiced (releaseTeam s t) t team.id.core
         if coreKept s team then s else startSave s t)
    else s

/-! ## Restore (R380) -/

/-- Late replies that have come back are written into their rows, in the lanes that the atomics had active. -/
def lateReplies (s : State) (t : Nat) : State :=
  (s.accs.filter fun e => e.2.team == t && e.2.far && e.2.counter == some true && e.2.complete).foldl (fun s e =>
    endAccess (if e.2.cancelled then s else writeDest s e.2 e.2.lanes) e.1) s

/-- A die knows of another what the other knows (R111, R124): a team that moves keeps its order. -/
def carryClock (s : State) (fromDie toDie : Nat) : State :=
  if fromDie = toDie then s
  else
    let v := (s.die fromDie).vc.set fromDie (s.die fromDie).epoch
    mergeVc s toDie v

/-- What a restore finds wrong with the sectors of a slot that the save wrote, as R284's detail: 0 nothing, 2 a poisoned sector
(R421), 3 a seal of a protected context that does not open (R396). -/
def slotBad (s : State) (team : Team) (slot : Nat) : Nat :=
  let ctx := team.id.ctx
  let bad (r : Nat × Nat) : Nat :=
    match (translate s (dieOf team.id.core) ctx (saveBase s ctx + 2 ^ 24 * slot + r.1) .read).1 with
    | .ok pa _ =>
      let cell := cellOf s pa / 64
      if s.store.poison.any fun j => cell ≤ j && j < cell + r.2 / 64 then 2
      else if !(s.ctx ctx).prot then 0
      else if (s.keys.seals.filter fun e => pa / 64 ≤ e.1 && e.1 < pa / 64 + r.2 / 64 &&
        sealGood s (homeOf s pa) ctx e.1).length == r.2 / 64 then 0 else 3
    | .bad detail => detail
    | _ => if (s.ctx ctx).prot then 3 else 0
  (((team.saved.flatMap byPages).map bad).find? (· != 0)).getD 0

/-- A team set on a core: resident, with a new scratchpad generation; its copies go on from there. -/
def settleOn (s : State) (t core : Nat) : State :=
  match s.teams.get? t with
  | none => s
  | some team =>
    let s := carryClock s (dieOf team.id.core) (dieOf core)
    let (gen, s) := nextGen s core
    let s := { s with copies := s.copies.mapVals fun _ c =>
      if c.team = t then
        { c with core, claims := (match c.kind with | .mcSlot => c.claims | _ => c.claims.map fun _ => core), lands := match c.kind with
            | .mc => c.lands
            | .mcSlot => c.lands
            | _ => c.lands.map fun l => { l with core, gen } }
      else c }
    let s := updTeam s t fun x => { x with
      id := { x.id with core }, stat := .resident, urgent := false
      clock0 := if core = x.id.core then x.clock0 else s.coreClock core
      res := { x.res with scrGen := gen, reserve := max x.res.sizes.sum x.usedAll } }
    let s := seatTeam s core t
    acquire (occupy s core team.id.ctx) core team.id.ctx 4

/-- A saved team restored on a core of its own kind; where its slot does not read whole, every group stops (R284, R396, R421). -/
def restoreTeam (s : State) (t core slot : Nat) : State :=
  match s.teams.get? t with
  | none => s
  | some team =>
    let bad := slotBad s team slot
    let s := lateReplies s t
    let s := releaseServiced (settleOn s t core) t core
    let s := match s.teams.get? t with | some x => noteTeam s x | none => s
    if bad = 0 then s
    else team.groups.foldl (fun s e => stopGroup s t e.1 e.2.cur (((e.2.paths.get? e.2.cur).map (·.pc)).getD 0) 0x0B bad 0) s

/-- Whether the writes that a team's leaving sent home have left their die: what it does elsewhere comes after them (R124). One
held on a fault waits for its reply (R430). -/
def leftSent (s : State) (team : Team) : Bool := ((launchOf s team).map fun l => l.wbs.all (isSent s)).getD true

/-- Whether the atomics of a team whose replies its restore writes have come back, or are parked (R293, R380). -/
def lateIn (s : State) (t : Nat) : Bool :=
  s.accs.all fun e => e.2.team != t || !e.2.far || e.2.complete || parkedAccess s e.1 e.2 ||
    !(s.reqs.any fun r => match r.2.who with | .access a _ => a == e.1 | _ => false)

/-- Whether a context's key is seated in some slot, and is not being parked. -/
def keySeated (s : State) (ctx : Nat) : Bool := (s.keys.seated.any fun e => e.2 == ctx) && s.keys.parking.all fun e => e.2 != ctx

/-- Whether a saved team may be restored: no TOKEN of it is unanswered (R374), its late replies are in, its context's key is
seated, and what its save sent home has left its die. -/
def restorable (s : State) (t : Nat) (team : Team) : Bool :=
  (match team.stat with | .saved slot _ => slotReach s team slot | _ => true) && (faultsOf s t).isEmpty && lateIn s t &&
    (!(s.ctx team.id.ctx).prot || keySeated s team.id.ctx) &&
    leftSent s team

/-! ## Fencing (R381) and defective lanes (R422) -/

/-- A core fenced: no field holds it, its teams are saved, or halted where groups' state is lost. `lost` names groups as
32 × team + group. -/
def fence (s : State) (core : Nat) (lost : List Nat) : State :=
  let s := raiseHealth (s.setCore core { s.core core with fenced := true }) 3
  let s := { s with fields := s.fields.mapVals fun _ f => { f with cores := f.cores &&& ~~~(1#128 <<< core) } }
  (coreTeams s core).foldl (fun s e =>
    let gone := (e.2.groups.filter fun g => lost.contains (32 * e.1 + g.1)).map (·.1)
    if gone.isEmpty then startSave s e.1
    else gone.foldl (fun s g =>
      let p := ((e.2.groups.get? g).map (·.cur)).getD 0
      stopGroup s e.1 g p (pcOf s e.1 (some g) p) 0x0B 4 0) s) s

/-- CORE_UNCORRECTABLE_ERROR: a class-3 error of a core that is not fenced. -/
def execCoreUncorrectableError (core : Nat) (lost : List Nat) (s : State) : Out :=
  if core < 128 && !(s.core core).fenced then .next (fence (countError s 3) core lost) else idle "CORE_UNCORRECTABLE_ERROR"

/-- Physical lanes of a slice (R13). -/
def sliceLanes (core : Nat) : Nat := if isLCore core then 96 else 32

/-- A defective lane found: it takes its 32-lane group's spare once its slice holds no group; the core's teams are saved for it.
A second defect of the group fences the core. -/
def laneFound (s : State) (core d : Nat) : State :=
  let c := s.core core
  let s := countError s 4
  let group (x : Nat) : Bool := x / 128 == d / 128 && x % 128 / 32 == d % 128 / 32
  if c.remapped.any group || c.defects.any group then fence s core []
  else
    let s := s.setCore core { c with defects := c.defects ++ [d] }
    if sliceGroups s core (d / 128) = 0 then applyRemaps s core
    else (coreTeams s core).foldl (fun s e => startSave s e.1) s

/-- LANE_DEFECT: the lane stays defective for good (R422). -/
def execLaneDefect (core slice lane : Nat) (s : State) : Out :=
  if !(core < 128 && slice < coreSlices core && lane < sliceLanes core) || (s.core core).fenced then idle "LANE_DEFECT"
  else
    let x := (core, 128 * slice + lane)
    .next (laneFound { s with health := { s.health with faulty := x :: s.health.faulty.filter (· != x) } } core x.2)

/-- The self-test at a reset finds every defective lane again, the first found first (R422). -/
def selfTest (s : State) : State :=
  s.health.faulty.reverse.foldl (fun s x => if (s.core x.1).fenced then s else laneFound s x.1 x.2) s

end Sys2Proof.Machine
end

