-- ==== Sys2Proof/Machine/Migrate.lean ====
section
/-! DEFINITION. Migration between core kinds (R334 to R342, R172) and moved text (R333). -/

namespace Sys2Proof.Machine

/-! ## Directories and tables (R335 to R337) -/

/-- An entry of a state-mapping table. -/
structure MapEntry where
  kind : Nat
  src : Nat
  dst : Nat
  spill : Nat
  deriving DecidableEq, Repr

/-- A state-mapping table. -/
structure MapTable where
  tiles : Nat
  sprows : Nat
  spbase : Nat
  splive : Nat
  entries : List MapEntry
  /-- The twin PC in the target image. -/
  twin : Nat
  /-- COUNT as it stands in the header. -/
  count : Nat
  deriving DecidableEq, Repr

/-- The fields of an entry word. -/
def mapEntryOf (w : Nat) : MapEntry := ⟨bits w 31 30, bits w 29 23, bits w 22 16, bits w 15 0⟩

/-- n bytes of a context as a number. -/
def vaNum (s : State) (ctx va n : Nat) : Option Nat := (vaRead s 0 ctx va n).map ofBytes

/-- The table of point n for a move to an image, where directory, entry and table are there and match (detail 1 of
R341). A directory that cannot be read is taken as absent (DESIGN CHOICE, log entry 21). -/
def mapTable (s : State) (ctx dir n target : Nat) : Option MapTable :=
  if dir = 0 then none
  else
    match vaNum s ctx dir 2, vaRead s 0 ctx (dir + 2) 14 with
    | some cnt, some reserved =>
      if cnt ≤ n || reserved.any (· != 0) then none
      else
        let e := dir + 16 + 32 * n
        match vaNum s ctx (e + (if target = 0 then 8 else 0)) 8, vaNum s ctx (e + (if target = 0 then 16 else 20)) 4 with
        | some twin, some off =>
          if off = 0 || twin = 0 then none
          else
            let t := dir + off
            match vaRead s 0 ctx t 16 with
            | none => none
            | some h =>
              let num := fun o k => ofBytes ((h.drop o).take k)
              if num 0 2 ≠ n || num 2 1 ≠ target then none
              else
                let count := num 4 2
                match vaRead s 0 ctx (t + 16) (4 * min count 1024) with
                | none => none
                | some b => some
                  { tiles := num 3 1, sprows := num 6 2, spbase := num 8 4, splive := num 12 4, count, twin,
                    entries := (wordsOf b).map fun w => mapEntryOf w.toNat }
        | _, _ => none
    | _, _ => none

/-- The trap of a directory or a table that stands in a poisoned sector, or in one that does not open: the first of the reads above that
meets it (R284, R421). -/
def mapFails (s : State) (ctx dir n target : Nat) : Option (Nat × Nat) :=
  let bad (a k : Nat) : Option (Nat × Nat) := match vaLook s 0 ctx none a k with | .fails 0x0B d => some (0x0B, d) | _ => none
  let e := dir + 16 + 32 * n
  let off := (vaNum s ctx (e + (if target = 0 then 16 else 20)) 4).getD 0
  let count := (vaNum s ctx (dir + off + 4) 2).getD 0
  if dir = 0 then none
  else
    (bad dir 16).or <|
      if (vaNum s ctx dir 2).all (· ≤ n) then none
      else (bad (e + (if target = 0 then 8 else 0)) 8).or <| (bad (e + (if target = 0 then 16 else 20)) 4).or <|
        if off = 0 then none else (bad (dir + off) 16).or (bad (dir + off + 16) (4 * min count 1024))

/-! ## The checks of step 2 (R341) -/

/-- The live groups of a team. -/
def Team.live (team : Team) : List (Nat × Group) := team.groups.filter fun e => !e.2.ended

/-- The checks of detail 6. -/
def MapTable.badEntries (m : MapTable) : Bool :=
  let ks (p : Nat → Bool) := m.entries.filter fun e => p e.kind
  let dup (l : List Nat) : Bool := l.eraseDups.length != l.length
  1024 < m.count || (ks (· == 3)).any (fun e => 60 < e.src || 60 < e.dst) ||
    (ks fun k => k == 1 || k == 2).any (fun e => m.sprows ≤ e.spill) ||
    dup ((ks fun k => k == 0 || k == 2).map (·.dst)) || dup ((ks (· == 1)).map (·.spill)) || dup ((ks (· == 3)).map (·.dst)) ||
    dup ((ks fun k => k == 0 || k == 1).map (·.src))

/-- The first failing check, if any, for a team and a launch. -/
def migrateCheck (team : Team) (l : Launch) (target : Nat) (m : Option MapTable) : Option Nat :=
  match m with
  | none => some 1
  | some m =>
    if team.live.any fun e => 1 < e.2.paths.length || e.2.paths.any fun p => !p.2.pstack.isEmpty then some 2
    else if team.flume.running || team.sluice.running || !team.fl.ops.isEmpty || team.fl.fiter.isSome then some 3
    else if 48 < m.tiles || l.tiles target < m.tiles then some 4
    else if m.splive % 16384 ≠ 0 || 1048576 < m.splive || team.res.scrLen < m.splive || l.scrLen target < m.splive ||
        m.splive < m.spbase + 384 * (team.groups.length * m.sprows) then some 5
    else if m.badEntries then some 6
    else if team.live.any fun e => m.entries.any fun x => (x.kind == 0 || x.kind == 1) && !e.2.map.has x.src then some 7
    else none

/-! ## The mapping (R339, R340) -/

/-- The scratchpad offset of a spill row. -/
def MapTable.spillAt (m : MapTable) (g row : Nat) : Nat := m.spbase + 384 * (g * m.sprows + row)

/-- 96 lanes read from a scratchpad. -/
def readSpill (scr : Memory) (off : Nat) : List Word := lanesFrom fun i => BitVec.ofNat 32 (scr.load (off + 4 * i) 4)

/-- 96 lanes written into a scratchpad. -/
def writeSpill (scr : Memory) (off : Nat) (vals : List Word) : Memory :=
  scr.write off (vals.flatMap fun w => bytesOf 4 w.toNat)

/-- A name that takes a mapping with its sequence number, with no count changed. -/
def Team.rename (t : Team) (g : Nat) (held : List (Nat × Option Mapped)) : Team := held.foldl (fun t e => t.setName g e.1 e.2) t

/-- A fresh row for a spilled value, without the tests of R64 (R339). -/
def Team.unspill (t : Team) (g n : Nat) (vals : List Word) : Team :=
  let t := t.mapFresh g n
  match t.mapped g n with
  | some m => t.writeRow m.row vals (BitVec.allOnes 96)
  | none => t

/-- One group's part of the table: every read comes before any write. -/
def mapGroup (m : MapTable) (t : Team) (g : Nat) : Team :=
  let of (k : Nat) := m.entries.filter fun e => e.kind == k
  let names := (of 1).map fun e => (e, (t.nameLanes g e.src).getD zeroLanes)
  let spills := (of 2).map fun e => (e, readSpill t.res.scr (m.spillAt g e.spill))
  let held := (of 0).map fun e => (e.dst, t.mapped g e.src)
  let scalars := (of 3).map fun e => (e.dst, ((t.groups.get? g).map fun grp => grp.s.getD e.src 0).getD 0)
  let t := { t with res := { t.res with
    scr := names.foldl (fun (scr : Memory) (e : MapEntry × List Word) => writeSpill scr (m.spillAt g e.1.spill) e.2) t.res.scr } }
  let kept := (of 0).map (·.src)
  let t := (List.range 128).foldl (fun t n => if kept.contains n then t else t.unmap g n) t
  let t := t.rename g (kept.map fun n => (n, none))
  let t := t.rename g held
  let t := spills.foldl (fun (t : Team) (e : MapEntry × List Word) => t.unspill g e.1.dst e.2) t
  { t with groups := t.groups.upd g fun grp => { grp with s := scalars.foldl (fun (s : Tbl Word) (e : Nat × Word) => s.put e.1 e.2) grp.s } }

/-- The team's registers, scratchpad, tiles and pools as the target image has them. -/
def mapTeam (l : Launch) (target : Nat) (m : MapTable) (team : Team) : Team :=
  let t := team.live.foldl (fun t e => mapGroup m t e.1) team
  let scr := t.res.scr.filter fun c => c.1 < m.splive
  let n := min team.fl.tileN (l.tiles target)
  { t with
    res := { t.res with sizes := l.sizes target, scr, scrLen := l.scrLen target }
    fl := { t.fl with tileN := l.tiles target, tiles := t.fl.tiles.filter fun e => e.1 < 6144 * n }
    id := { t.id with image := target } }

/-- The clause of the twin point, gone on after its `eqp`; its header's wait is not repeated (R338). Text that cannot be
read stands at the header. -/
def twinPath (s : State) (core ctx twin : Nat) (p : Path) : Path :=
  let head := forwarded s core ctx (twin - 4)
  let p := { p with hold := none, retired := 0 }
  match vaNum s ctx head 4 with
  | none => { p with pc := BitVec.ofNat 64 (twin - 4), clause := none }
  | some h =>
    let n := bits h 31 28
    match vaRead s 0 ctx (head + 8) (4 * (n - 1)) with
    | none => { p with pc := BitVec.ofNat 64 (twin - 4), clause := none }
    | some b =>
      let words := wordsOf b
      { p with
        pc := BitVec.ofNat 64 (head + 8)
        clause := if words.isEmpty then none else some ⟨BitVec.ofNat 64 head, BitVec.ofNat 32 h, 1, words, none⟩ }

/-- Steps 4 and 5 of R338 on a chosen core: the mapping, the move, and the twin PC + 4. -/
def moveTeam (s : State) (t core target n : Nat) (l : Launch) (m : MapTable) : State :=
  let s := updTeam s t (mapTeam l target m)
  let s := settleOn s t core
  let ctx := ((s.teams.get? t).map (·.id.ctx)).getD 0
  updTeam s t fun team => { team with groups := team.groups.mapVals fun _ g =>
    if g.ended then g else { g with eqn := n, paths := g.paths.mapVals fun _ p => twinPath s core ctx m.twin p } }

/-- The need of a team that migrates: the launch's sizes for the target, and the rows after the mapping (R338). -/
def moveNeed (team : Team) (l : Launch) (target : Nat) (m : MapTable) : Need :=
  { groups := team.liveGroups, rows := max (l.sizes target).sum (mapTeam l target m team).usedAll, scr := l.scrLen target,
    tiles := l.tiles target }

/-! ## MIGRATION (R338) -/

/-- The point at which a team's live groups all wait for the other kind. -/
def eqpReady (team : Team) : Option Nat :=
  if team.target = 2 || team.target = team.ownKind then none
  else
    match eqpPoints team with
    | some (n :: ns) => if ns.all (· == n) then some n else none
    | _ => none

/-- Whether nothing of a team is outstanding (R338 step 1). The polls of a sequencer's `wait`, and the copies of a Sluice program
that runs, are no result or copy that its groups wait for: the check that follows finds the program. -/
def drained (s : State) (t : Nat) (team : Team) : Bool :=
  team.live.all (fun e => e.2.ldcnt == 0 && e.2.stcnt == 0 && e.2.cpycnt == 0 && e.2.engcnt == 0) &&
    !(s.accs.any fun e => e.2.team == t && e.2.kind != .poll) &&
    (team.sluice.running || !(s.copies.any fun e => e.2.team == t && !e.2.stopped))

/-- The image of a target kind: kind 0 is L-cores, which run the L-image. -/
def imageOf (kind : Nat) : Nat := if kind = 0 then 1 else 0

/-- Step 2 of R338 for a team whose groups all wait at one point: the point, the target image, and the table or the detail of
the failing check. -/
def moveOf (s : State) (team : Team) (l : Launch) : Option (Nat × Nat × Except (Nat × Nat) MapTable) :=
  (eqpReady team).map fun n =>
    let target := imageOf team.target
    let m := mapTable s team.id.ctx (l.num 40 8) n target
    (n, target, match mapFails s team.id.ctx (l.num 40 8) n target, migrateCheck team l target m, m with
      | some x, _, _ => .error x
      | none, some d, _ => .error (0x10, d)
      | none, none, some m => .ok m
      | none, none, none => .error (0x10, 1))

/-- A migration that fails on a team, with a code and a detail: MIGRATE_MISMATCH (R341), or INTEGRITY_FAULT. The rule names no group of
the team for its record: DESIGN CHOICE (log entry 67), the lowest live one. -/
def failMove (s : State) (t : Nat) (team : Team) (x : Nat × Nat) : State :=
  match team.live with
  | [] => s
  | (g, grp) :: _ => stopGroup s t g grp.cur (pcOf s t (some g) grp.cur) x.1 x.2 0

/-- Whether a team's leaving would still write something: a landed copy sector of its own, or dirty bytes of its context in its
core's L1 or its die's L2. -/
def leavesDirty (s : State) (t : Nat) (team : Team) : Bool :=
  let d := s.die (dieOf team.id.core)
  (d.writeQ.any fun w => w.team == t) ||
    ((s.core team.id.core).l1.sects.any fun e => ctxOfSect e.1 == team.id.ctx && e.2.dirty != 0) ||
    d.l2.sects.any fun e => ctxOfSect e.1 == team.id.ctx && e.2.dirty != 0

/-- The writes of a team that leaves its core sent on their way home, noted with its launch (R124, R236). -/
def leaveHome (s : State) (t : Nat) (team : Team) : State :=
  let (wbs, s) := leaveWrites s t team
  noteLeft s team wbs

/-- Steps 4 and 5 for a resident team: it leaves its core and goes on in the other image. -/
def migrateTo (s : State) (t core n target : Nat) (team : Team) (l : Launch) (m : MapTable) : State :=
  let s := moveTeam (leaveCore s t team) t core target n l m
  noteTeam (applyRemaps (vacate s team.id.core) team.id.core) team

/-- Steps 2 to 5 for a team whose groups wait at one point with nothing outstanding. -/
def migrate (s : State) (t : Nat) (team : Team) (l : Launch) : Out :=
  match moveOf s team l with
  | none => idle "MIGRATION"
  | some (_, _, .error x) => .next (failMove s t team x)
  | some (n, target, .ok m) =>
    match spotFor s l.fieldNo target team.id.ctx (moveNeed team l target m) (fun _ => true) with
    | .nowhere => .next (passAll s t)
    | .wait => idle "MIGRATION"
    | .clear c => .next (beginClear s c team.id.ctx)
    | .core c =>
      if leavesDirty s t team then .next (leaveHome s t team)
      else if leftSent s team then .next (migrateTo s t c n target team l m)
      else idle "MIGRATION"

/-- MIGRATION: after the drain, in which the fixed-latency results are written too, the team is checked and placed; a core that
must change world is cleared first (R392); where no core admits the team, it goes on. It moves once its writes have left its
die, as after a save (R124). -/
def execMigration (t : Nat) (s : State) : Out :=
  match s.teams.get? t, (s.teams.get? t).bind fun team => launchOf s team with
  | some team, some l =>
    if (eqpReady team).isNone || !team.active || !drained s t team then idle "MIGRATION"
    else
      let s := landTeam s t
      match s.teams.get? t with
      | some team => migrate s t team l
      | none => idle "MIGRATION"
  | _, _ => idle "MIGRATION"

/-! ## REFERENCE_REWRITE (R333) -/

/-- The range that a forwarding entry moves: OLD, LENGTH in bytes, NEW (R331). -/
def rangeOf (x : BitVec 256) : Nat × Nat × Nat := (256 * bits x.toNat 59 8, 256 * bits x.toNat 151 128, bits x.toNat 127 64)

/-- Whether an address lies in the old range. -/
def inRange (m : Nat × Nat × Nat) (a : Dword) : Bool := m.1 ≤ a.toNat && a.toNat < m.1 + m.2.1

/-- An address by R332's arithmetic. -/
def moved (m : Nat × Nat × Nat) (a : Dword) : Dword :=
  if inRange m a then BitVec.ofNat 64 (m.2.2 + (a.toNat - m.1)) else a

/-- Whether a path is held at an `efork`, whose addresses are then pending. -/
def Path.eforks (p : Path) : Bool := (p.clause.bind fun c => c.words.head?).any fun w => bits w.toNat 30 18 == 0x788

/-- The addresses of a pending `efork`. -/
def Path.pending (p : Path) : List Dword :=
  if p.eforks then ((heldArgs p.hold).getD []).map fun a => BitVec.ofNat 64 a else []

def Clause.moved (m : Nat × Nat × Nat) (c : Clause) : Clause := { c with addr := Machine.moved m c.addr }

def Path.moved (m : Nat × Nat × Nat) (p : Path) : Path :=
  { p with pc := Machine.moved m p.pc, cstack := p.cstack.map (Machine.moved m), label := Machine.moved m p.label,
           clause := p.clause.map (Clause.moved m)
           hold := match p.hold with
             | some (.waits args) =>
               if p.eforks then some (.waits (args.map fun a => (Machine.moved m (BitVec.ofNat 64 a)).toNat)) else p.hold
             | h => h }

def StopRec.moved (m : Nat × Nat × Nat) (r : StopRec) : StopRec := { r with pc := Machine.moved m r.pc }

def Seq.moved (m : Nat × Nat × Nat) (q : Seq) : Seq :=
  { q with pc := Machine.moved m q.pc, cstack := q.cstack.map (Machine.moved m), clause := q.clause.map (Clause.moved m),
           stop := q.stop.map (StopRec.moved m) }

def Group.moved (m : Nat × Nat × Nat) (g : Group) : Group :=
  { g with paths := g.paths.mapVals (fun _ p => p.moved m), stop := g.stop.map (StopRec.moved m) }

/-- Whether a group or a sequencer refers to the old range. The shadow's address counts: its group is parked after its
`emret`. -/
def Group.refers (m : Nat × Nat × Nat) (g : Group) : Bool :=
  (g.paths.any fun e => (e.2.pc :: e.2.cstack ++ e.2.pending).any (inRange m)) || g.emu.any fun x => inRange m x.addr
def Seq.refers (m : Nat × Nat × Nat) (q : Seq) : Bool := q.running && (q.pc :: q.cstack).any (inRange m)

/-- Whether a group stands at a clause boundary: the path that it issues from has opened no clause. -/
def Group.atBoundary (g : Group) : Bool := (g.paths.get? g.cur).all fun p => p.clause.isNone

/-- Whether the Headgate parks a group for a move: it refers to the old range, it does not emulate, and it stands at a clause
boundary. -/
def Group.parks (m : Nat × Nat × Nat) (g : Group) : Bool := g.emu.isNone && g.atBoundary && g.refers m

/-- Whether a word that holds its path goes on only when its team runs again. -/
def Hold.rests : Hold → Bool
  | .wait _ => true
  | .bar _ => true
  | .eqp _ _ => true
  | .regroup _ _ _ _ => true
  | .stopped _ => true
  | _ => false

/-- Whether a path of a halted team's group has come to rest: at a clause boundary, at its trap, in a word that is not tried again, at a
rejoin, or held. -/
def Group.restsAt (g : Group) (p : Nat) (x : Path) : Bool :=
  x.clause.isNone || x.st == 1 || x.st == 2 || (g.stop.any fun r => r.path == p) || x.hold.any Hold.rests

/-- Whether a halted team's group has come to rest: it is parked on service, or each of its paths has. -/
def Group.still (g : Group) : Bool := g.service || g.paths.all fun e => g.restsAt e.1 e.2
def Seq.still (q : Seq) : Bool := q.clause.isNone || q.stop.isSome || q.hold.any Hold.rests

/-- The same for a sequencer. -/
def Seq.parks (m : Nat × Nat × Nat) (q : Seq) : Bool := q.clause.isNone && q.refers m

/-- Whether a group, or a sequencer, of a team is parked by the move under way in its context. -/
def Group.parkedForMove (s : State) (team : Team) (g : Group) : Bool := (s.ctxLive team.id.ctx).moving.any fun m => g.parks m
def Seq.parkedForMove (s : State) (team : Team) (q : Seq) : Bool := (s.ctxLive team.id.ctx).moving.any fun m => q.parks m

/-- A team's references rewritten and its groups released: those of the groups and sequencers that are parked, those of a halted
team that have come to rest, and those of a saved team; a group that emulates keeps its own. -/
def Team.moved (m : Nat × Nat × Nat) (t : Team) : Team :=
  { t with
    groups := t.groups.mapVals fun _ g =>
      if g.parks m || (g.emu.isNone && (t.isSaved || (t.halted && g.still))) then g.moved m else g
    flume := if t.flume.parks m || t.isSaved || (t.halted && t.flume.still) then t.flume.moved m else t.flume
    sluice := if t.sluice.parks m || t.isSaved || (t.halted && t.sluice.still) then t.sluice.moved m else t.sluice }

/-- Whether a team still refers to the old range. -/
def Team.refers (m : Nat × Nat × Nat) (t : Team) : Bool :=
  (t.groups.any fun e => e.2.refers m) || t.flume.refers m || t.sluice.refers m

/-- The twin PCs of a directory rewritten. -/
def moveDirectory (s : State) (ctx dir : Nat) (m : Nat × Nat × Nat) : State :=
  if dir = 0 then s
  else
    match vaNum s ctx dir 2 with
    | none => s
    | some n => (List.range n).foldl (fun s i => [0, 8].foldl (fun s o =>
        let a := dir + 16 + 32 * i + o
        match vaNum s ctx a 8 with
        | some v => if inRange m (BitVec.ofNat 64 v) then vaWrite s 0 ctx a (bytesOf 8 (moved m (BitVec.ofNat 64 v)).toNat) else s
        | none => s) s) s

/-- What a move has changed in a saved team's slot, stored there again: the blocks of its groups, whose stop records, path PCs and call
stacks they hold, and the team header, which holds the sequencers' (R378). -/
def moveRecords (s : State) (old new : Team) : State :=
  match new.stat with
  | .saved slot _ =>
    let die := dieOf new.id.core
    let ctx := new.id.ctx
    let base := saveBase s ctx + 2 ^ 24 * slot
    let s := new.groups.foldl (fun s e =>
      if old.groups.get? e.1 = some e.2 then s
      else
        let block := groupBlock s new e.2
        putRange s die ctx (base + 0x1000 + 8192 * e.1) 8192 fun i => block.getD i 0) s
    if old.flume = new.flume && old.sluice = new.sluice then s
    else
      let (k, s) := s.draw
      putRange s die ctx base 0x1000 fun i => Config.freeByte (2 ^ 24 * k + i)
  | _ => s

/-- The start of a move's rewriting: the directories of the context's launches, and its comparators (R335, R405). -/
def beginMove (s : State) (ctx : Nat) (m : Nat × Nat × Nat) : State :=
  let dirs := ((s.launches.filter fun e => e.2.ctx == ctx && !e.2.done).map fun e => e.2.num 40 8).eraseDups
  let s := dirs.foldl (fun s d => moveDirectory s ctx d m) s
  { s with live := s.live.put ctx { s.ctxLive ctx with bps := (s.ctxLive ctx).bps.mapVals fun _ b => { b with addr := moved m b.addr } } }

/-- The references of a context's teams that can be rewritten now. -/
def moveTeams (s : State) (ctx : Nat) (m : Nat × Nat × Nat) : State :=
  let old := s.teams
  let s := { s with teams := s.teams.mapVals fun _ t => if t.id.ctx = ctx then t.moved m else t }
  s.teams.foldl (fun s e => match old.get? e.1 with
    | some t => if t.id.ctx = ctx then moveRecords s t e.2 else s
    | none => s) s

/-- REFERENCE_REWRITE: the Headgate parks every group of the context that refers to the range of a forwarding entry at its next
clause boundary, and rewrites the references of those that are parked. The step is taken again for those that come to a
boundary later; the move is over when no reference is left. DESIGN CHOICE (log entry 88): the manual does not say whether the Headgate
rewrites for two entries of one context at once; here the step for a second entry comes only when no reference to the first is left. -/
def execReferenceRewrite (ctx entry : Nat) (s : State) : Out :=
  match ((s.core 0).fwd.getD ctx [])[entry]? with
  | none => idle "REFERENCE_REWRITE"
  | some x =>
    let m := rangeOf x
    if !x.getLsbD 63 || (s.ctxLive ctx).moving.any (· != m) then idle "REFERENCE_REWRITE"
    else
      let s := moveTeams (if (s.ctxLive ctx).moving.isNone then beginMove s ctx m else s) ctx m
      let left := s.teams.any fun e => e.2.id.ctx == ctx && e.2.refers m
      .next { s with live := s.live.put ctx { s.ctxLive ctx with moving := if left then some m else none } }

end Sys2Proof.Machine
end

