-- ==== Sys2Proof/Machine/Admit.lean ====
section
/-! DEFINITION. Admission and restoration by the Headgate (R354, R355, R357, R380), and the seating and parking of keys
(R397, R398). -/

namespace Sys2Proof.Machine

/-! ## Keys (R397, R398) -/

/-- Every line of a context in every die's L2 written back, sealed at its home, and gone; no reply on its way brings one back (R398). -/
def dropProtected (s : State) (ctx : Nat) : State :=
  (List.range 4).foldl (fun s d => l2Drop (l2Flush (noFill s d fun r => r.ctx == ctx) d ctx) d ctx) s

/-- The 208 bytes of a key record (R398). -/
def KeyRec.bytes (k : KeyRec) : List Byte :=
  bytesOf 64 k.xts.toNat ++ bytesOf 32 k.mac.toNat ++ bytesOf 32 k.report.toNat ++ bytesOf 4 k.gen ++ List.replicate 76 0

/-- The key record of 208 bytes. -/
def keyRecOf (b : List Byte) : KeyRec :=
  { xts := BitVec.ofNat 512 (leNum b 0 64), mac := BitVec.ofNat 256 (leNum b 64 32), report := BitVec.ofNat 256 (leNum b 96 32)
    gen := leNum b 128 4 }

/-- The 96-bit nonce of a wrapped entry, from its first 16 bytes: the context number and the wrap counter. -/
def wrapNonce (head : List Byte) : List Byte := head.take 2 ++ (head.drop 4).take 10

/-- The 256 bytes of a wrapped entry: AES-256-GCM under the per-boot key, the first 16 bytes being the associated data. -/
def wrappedEntry (s : State) (ctx idx wrap : Nat) (k : KeyRec) : List Byte :=
  let head := bytesOf 2 ctx ++ bytesOf 2 idx ++ bytesOf 10 wrap ++ bytesOf 2 0
  head ++ Crypto.gcmSeal (bytesOf 32 s.keys.perBoot.toNat) (wrapNonce head) head k.bytes ++ bytesOf 16 0

/-- The key of a slot begins to be parked: the context's lines leave the protected ways, sealed on their way home (R398). -/
def startPark (s : State) (slot ctx : Nat) : State :=
  let s := dropProtected s ctx
  { s with keys := { s.keys with parking := some (slot, ctx) } }

/-- The park goes on once the lines are home: the record is wrapped and written out, then the slot is cleared. It waits for a
Culvert link (R347). -/
def finishPark (s : State) : State :=
  match s.keys.parking, s.keys.area with
  | some (slot, ctx), some area =>
    let idx := (s.ctxLive ctx).parkIndex.getD 0
    match s.keys.records.get? slot with
    | some k =>
      if (s.reqs.any fun e => e.2.ctx == ctx && e.2.kind != .read && e.2.stage != .replied) || !paReach s area then s
      else
        let wrap := s.keys.wraps.getD ctx 0
        let s := paWrite s (area + 256 * idx) (wrappedEntry s ctx idx wrap k)
        { s with keys := { s.keys with
            parking := none, seated := s.keys.seated.del slot, records := s.keys.records.del slot
            parked := s.keys.parked ++ [ctx], wraps := s.keys.wraps.put ctx ((wrap + 1) % 2 ^ 80) } }
    | none => s
  | _, _ => s

/-- The key record in the stored entry of a parked context, where the entry opens: it is the context's, its tag verifies and its
generation is the table's. -/
def openRecord (s : State) (ctx : Nat) : Option KeyRec :=
  match s.keys.area, (s.ctxLive ctx).parkIndex with
  | some area, some idx =>
    match paTake s (area + 256 * idx) 240 with
    | none => none
    | some b =>
      if leNum b 0 2 ≠ ctx || leNum b 2 2 ≠ idx then none
      else ((Crypto.gcmOpen (bytesOf 32 s.keys.perBoot.toNat) (wrapNonce b) (b.take 16) (b.drop 16)).map keyRecOf).filter fun k =>
        k.gen == s.keys.gens.getD ctx 1
  | _, _ => none

/-! ## Eligibility (R355, R362) -/

/-- Whether a launch's predecessor lets it begin. The rule speaks of a standing predecessor with every team resident: of one some of
whose teams have ended already it says nothing. DESIGN CHOICE (log entry 71): it counts as resident where none of its teams is
left to admit or saved. -/
def predAllows (s : State) (l : Launch) : Bool :=
  match l.pred.bind s.launches.get? with
  | none => true
  | some p =>
    p.done || l.conc || (l.succ && p.total ≤ p.ended + p.hinted.length) ||
      (p.standing && p.todo.isEmpty &&
        s.teams.all fun e => e.2.id.ctx != p.ctx || e.2.id.grid != p.grid || !e.2.isSaved)

/-- Whether the run of a launch lets its first launch begin: without CONCURRENT the graph's earlier runs have ended. A later packet
of the run with CONC is eligible by R355 before then, and the text after R362 forbids that the run starts: DESIGN CHOICE (log entry
72), the rule's words are followed, and only the first launch waits. -/
def runAllows (s : State) (key : Nat) (l : Launch) : Bool :=
  match l.run, l.run.bind s.runs.get? with
  | some id, some r =>
    r.concurrent || r.launches.head? != some key ||
      s.runs.all fun e => id ≤ e.1 || e.2.ctx != r.ctx || e.2.header != r.header
  | _, _ => true

/-- Whether a launch is eligible and has teams to admit. -/
def eligible (s : State) (key : Nat) (l : Launch) : Bool :=
  !l.done && !l.todo.isEmpty && predAllows s l && runAllows s key l

/-- Whether a protected context is busy (R397). A launch is being admitted from when it is eligible until no team of it is left to
admit: its batches, its clear sequences and its pre-emptions take several steps. -/
def keyBusy (s : State) (ctx : Nat) : Bool :=
  (s.teams.any fun e => e.2.id.ctx == ctx && !e.2.isSaved) ||
    (s.cores.any fun e => e.2.world == .prot ctx || e.2.world == .clearing (some ctx)) ||
    s.launches.any fun e => e.2.ctx == ctx && eligible s e.1 e.2

/-- The slot of the idle context, among those of a kind, that was scheduled least recently. -/
def parkVictim (s : State) (also : Nat → Bool) : Option (Nat × Nat) :=
  (s.keys.seated.filter fun e => !keyBusy s e.2 && also e.2).foldl (fun best e =>
    match best with
    | none => some e
    | some b => if (s.ctxLive e.2).sched < (s.ctxLive b.2).sched then some e else some b) none

/-- A place for a key. -/
inductive KeyPlace where
  | free (slot : Nat)
  /-- A key begins to be parked for it. -/
  | parks (s : State)
  /-- A key is being parked. -/
  | waits
  | none

/-- A place for a key: the lowest free slot of the 64, or the one that parking an idle context's key will free. -/
def keyPlace (s : State) (also : Nat → Bool) : KeyPlace :=
  match s.keys.seated.lowestFree 64, parkVictim s also, s.keys.area with
  | some k, _, _ => .free k
  | none, some v, some _ => if s.keys.parking.isSome then .waits else .parks (startPark s v.1 v.2)
  | none, _, _ => if s.keys.parking.isSome then .waits else .none

/-- The class of a field. -/
def classOfField (s : State) (f : Nat) : Nat := ((s.fields.get? f).map (·.cls)).getD 0

/-- A launch inserted among others by their order of acceptance. -/
def insertLaunch (x : Nat × Launch) : List (Nat × Launch) → List (Nat × Launch)
  | [] => [x]
  | y :: rest => if x.2.order < y.2.order then x :: y :: rest else y :: insertLaunch x rest

/-- The eligible launches in the order of R357. -/
def admissionOrder (s : State) : List (Nat × Launch) :=
  [3, 2, 1, 0].flatMap fun c =>
    (s.launches.filter fun e => eligible s e.1 e.2 && classOfField s e.2.fieldNo == c).foldl (fun l e => insertLaunch e l) []

/-! ## A new team (R57, R354) -/

/-- The roles of a team's groups, by group number (R27). -/
def Launch.roles (l : Launch) : List Nat :=
  (List.range 4).flatMap fun r => List.replicate (l.groups.getD r 0) r

/-- A group at its launch's entry. -/
def Launch.group (l : Launch) (role : Nat) : Group :=
  let g := freshGroup role 0 0
  { g with
    s := (g.s.put 0 (BitVec.ofNat 32 (l.num 56 4))).put 1 (BitVec.ofNat 32 (l.num 60 4))
    paths := [(0, { freshPath with pc := BitVec.ofNat 64 (l.entry l.pref) })] }

/-- A team placed on a core. -/
def makeTeam (s : State) (l : Launch) (num core : Nat) : State :=
  let image := l.pref
  let (t, s) := s.fresh
  let (gen, s) := nextGen s core
  let memdef := if l.flag 5 then BitVec.ofNat 32 (l.num 52 2) else (s.ctx l.ctx).memdef
  let roles := l.roles
  let groups : Tbl Group := (roles.zip (List.range roles.length)).map fun e => (e.2, l.group e.1)
  let sizes := l.sizes image
  let res : TeamRes := { sizes, reserve := sizes.sum, rows := [], nextRow := 0, seqCtr := 0, slots := [], scrLen := l.scrLen image,
                         scrGen := gen, scr := [] }
  let s := s.setTeam t (freshTeam { ctx := l.ctx, grid := l.grid, num, core, image } res (l.tiles image) memdef groups)
  seatTeam (occupy s core l.ctx) core t

/-- The cores that a grid's next team may take: with SOLO only one that holds no team of the grid (R357). -/
def soloOk (s : State) (l : Launch) (core : Nat) : Bool :=
  !l.solo || !(coreTeams s core).any fun e => e.2.id.ctx == l.ctx && e.2.id.grid == l.grid

/-- One team of a launch placed, if a core admits it. -/
def placeOne (l : Launch) (num : Nat) (s : State) : Option State :=
  (placeFor s l.fieldNo l.pref l.ctx (l.need l.pref) (soloOk s l)).map fun c => makeTeam s l num c

/-- All of a list of teams placed, or none. -/
def placeAll (l : Launch) : List Nat → State → Option State
  | [], s => some s
  | n :: rest, s => (placeOne l n s).bind (placeAll l rest)

/-- The teams that a launch admits in one step: its next one, or all of a co-operative grid. -/
def Launch.batch (l : Launch) : List Nat := if l.coop then l.todo else l.todo.take 1

/-- A launch's next admission, if it can be placed. -/
def admitLaunch (s : State) (key : Nat) (l : Launch) : Option State :=
  (placeAll l l.batch s).map fun s =>
    { s with launches := s.launches.upd key fun x => { x with todo := x.todo.drop l.batch.length } }

/-! ## Pre-emption by a launch (R357) -/

/-- The cores that a launch may pre-empt, by the number of their teams and then their own. -/
def preemptable (s : State) (l : Launch) : List Nat :=
  let cls := classOfField s l.fieldNo
  let ok (c : Nat) : Bool :=
    let ts := coreTeams s c
    !ts.isEmpty && (ts.all fun e => classOfField s (fieldOfTeam s e.2) < cls && !e.2.halted) &&
      fitsWith c [] (l.need l.pref) && (s.core c).defects.isEmpty
  let cores := (fieldCores s l.fieldNo l.pref).filter ok
  (List.range 513).flatMap fun n => cores.filter fun c => (coreTeams s c).length == n

/-- The state in which some cores have been emptied for a context. -/
def emptied (s : State) (ctx : Nat) (cs : List Nat) : State :=
  let s := { s with teams := s.teams.filter fun e => e.2.isSaved || !cs.contains e.2.id.core }
  cs.foldl (fun s c => s.setCore c { s.core c with world := if (s.ctx ctx).prot then .prot ctx else .ordinary }) s

/-- The fewest of a list of cores, in its order, whose emptying places a launch's next batch. -/
def coresNeeded (s : State) (l : Launch) (cs : List Nat) : Option (List Nat) :=
  ((List.range cs.length).map fun k => cs.take (k + 1)).find? fun some' => (placeAll l l.batch (emptied s l.ctx some')).isSome

/-- A pre-emption for a launch: every team of the chosen cores that has not been reached yet; for a class-3 launch also one whose
drain may last longer than R425 allows. -/
def preemptFor (s : State) (l : Launch) : Option State :=
  match coresNeeded s l (preemptable s l) with
  | none => none
  | some cs =>
    let class3 := classOfField s l.fieldNo == 3
    let ts := cs.flatMap fun c => (coreTeams s c).filter fun e =>
      e.2.stat == .resident && e.2.drain.all fun d => class3 && s.refclk + 1999 < d
    if ts.isEmpty then none
    else some (ts.foldl (fun s e => preemptTeam s e.1 0 class3) s)

/-! ## TEAM_ADMIT and TEAM_RESTORE -/

/-- What the Headgate does for a launch now, if anything: it places its next batch, begins a clear sequence, or
pre-empts. -/
def serveLaunch (s : State) (key : Nat) (l : Launch) : Option State :=
  if (s.ctx l.ctx).prot && !keySeated s l.ctx then none
  else
    match admitLaunch s key l with
    | some s => some s
    | none =>
      if clearingFor s l.fieldNo l.pref l.ctx then none
      else
        match (clearable s l.fieldNo l.pref l.ctx (l.need l.pref)).head? with
        | some c => some (beginClear s c l.ctx)
        | none => preemptFor s l

/-- TEAM_ADMIT: the first launch, in the order of R357, for which something can be done; a launch passed over keeps its
place. -/
def execTeamAdmit (s : State) : Out :=
  match (admissionOrder s).findSome? fun e => serveLaunch s e.1 e.2 with
  | some s => .next s
  | none => idle "TEAM_ADMIT"

/-- A saved team restored on the other kind: steps 4 and 5 of R338. -/
def restoreMoved (s : State) (t core n target : Nat) (l : Launch) (m : MapTable) : State :=
  let s := releaseServiced (moveTeam (lateReplies s t) t core target n l m) t core
  match s.teams.get? t with
  | some x => noteTeam s x
  | none => s

/-- A saved team that fails step 2: it is halted in its slot, whose record says so (R341, R342). -/
def restoreMismatch (s : State) (t : Nat) (team : Team) (x : Nat × Nat) : State :=
  let s := failMove s t team x
  match s.teams.get? t with
  | some new => moveRecords s team new
  | none => s

/-- What a saved team's restoration on its own kind comes to; none where it can only wait. -/
def restoreOwn (s : State) (t slot : Nat) (team : Team) (l : Launch) : Option State :=
  let ctx := team.id.ctx
  match spotFor s l.fieldNo team.id.image ctx (team.need l team.id.image) (soloOk s l) with
  | .core c => some (restoreTeam s t c slot)
  | .clear c => some (beginClear s c ctx)
  | _ => none

/-- The same on the other kind, for a team that waits to migrate (R342): steps 2 to 5 of R338. A slot that does not open is
restored on the team's own kind, where its trap stands (R396). -/
def restoreOther (s : State) (t slot : Nat) (team : Team) (l : Launch) : Option State :=
  if team.halted || slotBad s team slot != 0 then none
  else
    match moveOf s team l with
    | none => none
    | some (_, _, .error x) => some (restoreMismatch s t team x)
    | some (n, target, .ok m) =>
      match spotFor s l.fieldNo target team.id.ctx (moveNeed team l target m) (soloOk s l) with
      | .core c => some (restoreMoved s t c n target l m)
      | .clear c => some (beginClear s c team.id.ctx)
      | _ => none

/-- TEAM_RESTORE: a saved team is restored where R357 would place it; one that waits to migrate, on either kind, which one the
manual leaves open; where a core must change world first, its clear sequence begins. -/
def execTeamRestore (t : Nat) (s : State) : Out :=
  match s.teams.get? t, (s.teams.get? t).bind fun team => launchOf s team with
  | some team, some l =>
    match team.stat with
    | .saved slot _ =>
      if !restorable s t team then idle "TEAM_RESTORE"
      else
        match restoreOwn s t slot team l, restoreOther s t slot team l with
        | none, none => idle "TEAM_RESTORE"
        | some s', none => .next s'
        | own, some _ =>
          let (k, s1) := s.draw
          if Config.freeBit k then .next ((restoreOther s1 t slot team l).getD s1)
          else if own.isSome then .next ((restoreOwn s1 t slot team l).getD s1)
          else .next s1
    | _ => idle "TEAM_RESTORE"
  | _, _ => idle "TEAM_RESTORE"

/-! ## KEY_RESEAT (R397, R398) -/

/-- Whether a context waits for its key: an eligible launch, or a saved team. -/
def wantsKey (s : State) (ctx : Nat) : Bool :=
  (s.launches.any fun e => e.2.ctx == ctx && eligible s e.1 e.2) || s.teams.any fun e => e.2.id.ctx == ctx && e.2.isSaved

/-- A key record seated in a slot. -/
def seatKey (s : State) (slot ctx : Nat) (k : KeyRec) : State :=
  { s with keys := { s.keys with
      seated := s.keys.seated.put slot ctx, records := s.keys.records.put slot k, parked := s.keys.parked.filter (· != ctx) } }

/-- KEY_RESEAT: a parked key that is wanted is seated, where its record opens and a slot is free or can be freed. A key whose context
has not been scheduled since it was created is not parked for it (DEDUCED from the table after R403, log entry 74). -/
def execKeyReseat (ctx : Nat) (s : State) : Out :=
  if !(s.keys.parked.contains ctx && wantsKey s ctx) then idle "KEY_RESEAT"
  else
    match openRecord s ctx, keyPlace s fun x => (s.ctxLive x).sched != 0 with
    | some k, .free slot => .next (seatKey s slot ctx k)
    | some _, .parks s => .next s
    | _, _ => idle "KEY_RESEAT"

end Sys2Proof.Machine
end

