-- ==== Sys2Proof/Machine/Queues.lean ====
section
/-! DEFINITION. User queues (R348 to R352): the queue table, the hardware slots, doorbells and scans, how a packet is
accepted or rejected, and the plain packets NOP, SIGNAL and WAITMEM (R358). -/

namespace Sys2Proof.Machine

/-- Whether every byte outside some inclusive ranges is zero. -/
def onlyUses (p : List Byte) (used : List (Nat × Nat)) : Bool :=
  (List.range p.length).all fun i => p.getD i 0 == 0 || used.any fun u => u.1 ≤ i && i ≤ u.2

/-! ## The queue table (R348, R349) -/

/-- An entry of the queue table. -/
structure QEnt where
  ring : Nat
  log2n : Nat
  flags : Nat
  ctx : Nat
  ridx : Nat
  widx : Nat
  status : Nat
  deriving DecidableEq, Repr

/-- The entry of a queue that the Headgate may serve: EN, q below QTLEN, VALID, and either PRIV with physical addresses or a
context that exists. -/
def queueEntry (s : State) (q : Nat) : Option QEnt :=
  if s.hg.en && q < s.hg.qtlen.toNat then
    match paTake s (qtAddr s q) 64 with
    | none => none
    | some b =>
      let e : QEnt := { ring := leNum b 0 8, log2n := leNum b 8 1, flags := leNum b 9 1, ctx := leNum b 10 2,
                        ridx := leNum b 16 8, widx := leNum b 24 8, status := leNum b 32 8 }
      if bit e.flags 0 && (if e.ctx = 0xFFFF then bit e.flags 1 else s.ctxs.has e.ctx) then some e else none
  else none

/-- Whether an entry's queue is a PRIV queue. -/
def QEnt.priv (e : QEnt) : Bool := bit e.flags 1

/-! ## Slots (R351) -/

/-- A slot for a queue: a free one, or that of some idle queue, which the manual leaves open. -/
def freeSlot (s : State) : Option (Nat × State) :=
  match s.hg.slots.lowestFree 128 with
  | some k => some (k, s)
  | none =>
    let idles := (s.hg.slots.filter fun e => slotIdle s e.2).map (·.1)
    if idles.isEmpty then none
    else
      let (n, s) := s.draw
      let k := idles.getD (Config.freeNat n % idles.length) 0
      some (k, unmapSlot s k)

/-- A queue mapped onto a slot, with the read index of its DEVSTATE. -/
def mapQueue (s : State) (q k : Nat) : State :=
  let rd := devState s q / 2
  let s := updQ s q fun u => { u with rd, limit := rd }
  { s with hg := { s.hg with slots := s.hg.slots.put k ⟨q, false⟩ } }

/-- The scan of a mapped queue (R350): STOPPED and WIDX are read, and the notify that caused it is gone. -/
def scanQueue (s : State) (q k widx : Nat) (e : QEnt) : State :=
  let s := updQ s q fun u => { u with limit := widx, stopped := bit e.flags 2 }
  let s := { s with hg := { s.hg with slots := s.hg.slots.put k ⟨q, false⟩ } }
  if bit (devState s q) 0 then setDevState s q (devState s q - 1) else s

/-- QUEUE_SCAN: a queue that has been notified is scanned, mapped first where it has no slot. -/
def execQueueScan (q : Nat) (s : State) : Out :=
  match queueEntry s q, (queueEntry s q).bind fun e => qRead s e.ctx e.widx 8 with
  | some e, some w =>
    let widx := leNum w 0 8
    let pending := bit (devState s q) 0
    match slotOf s q with
    | some k =>
      if pending || ((s.hg.slots.get? k).map (·.notify)).getD false then .next (scanQueue s q k widx e)
      else idle "QUEUE_SCAN"
    | none =>
      if !pending then idle "QUEUE_SCAN"
      else
        match freeSlot s with
        | some (k, s) => .next (scanQueue (mapQueue s q k) q k widx e)
        | none => idle "QUEUE_SCAN"
  | _, _ => idle "QUEUE_SCAN"

/-- DOORBELL: the host's write of a notify. -/
def execDoorbell (q : Nat) (s : State) : Out := if barOpen s then .next (ringDoorbell s q) else idle "DOORBELL"

/-- ORPHAN_LATCH: the queue that a slot's latch has recorded gets its PENDING bit. -/
def execOrphanLatch (slot : Nat) (s : State) : Out :=
  match s.hg.orphans.get? slot with
  | some (q, _) =>
    if s.hg.en then .next (setPending { s with hg := { s.hg with orphans := s.hg.orphans.del slot } } q) else idle "ORPHAN_LATCH"
  | none => idle "ORPHAN_LATCH"

/-! ## Packets (R350, R352) -/

/-- The next packet of a queue that may accept one. -/
def nextPacket (s : State) (q : Nat) : Option (QEnt × List Byte) :=
  match queueEntry s q with
  | none => none
  | some e =>
    let u := s.queue q
    if (slotOf s q).isSome && !u.stopped && u.block.isNone && u.rd < u.limit then
      (qRead s e.ctx (e.ring + 64 * (u.rd % 2 ^ e.log2n)) 64).map fun p => (e, p)
    else none

/-- The opcode and the option byte of a packet. -/
def opcodeOf (p : List Byte) : Nat := leNum p 0 1
def flagsOf (p : List Byte) : Nat := leNum p 1 1

/-- A packet accepted: the read index moves on and RIDX is written. -/
def acceptPacket (s : State) (q : Nat) (e : QEnt) : State :=
  let k := (s.queue q).rd
  qWrite (updQ s q fun u => { u with rd := k + 1, desc := none }) e.ctx e.ridx (bytesOf 8 (k + 1))

/-- A packet that fails its checks: the error record, and STOPPED. -/
def rejectPacket (s : State) (q : Nat) (e : QEnt) (code : Nat) : State :=
  let k := (s.queue q).rd
  let s := qWrite s e.ctx e.status (bytesOf 2 code ++ bytesOf 6 0 ++ bytesOf 8 k)
  updQ (paWrite s (qtAddr s q + 9) (bytesOf 1 (e.flags ||| 4))) q fun u => { u with stopped := true, desc := none }

/-- What the checks and the effect of a packet come to. -/
inductive Verdict where
  /-- It fails with a code. -/
  | fail (code : Nat)
  /-- It is accepted, with its effect. -/
  | accept (s : State)
  /-- It waits to be accepted. -/
  | wait (w : QWaitFor)
  /-- A command is accepted; the queue waits for its effect to be complete, and for some requests. -/
  | command (s : State) (reqs : List Nat)
  /-- The Headgate acts first, and looks at the packet again. -/
  | hold (s : State)
  /-- Memory that it names cannot be read. -/
  | stay

/-- A packet of one of the kinds that an event takes: opcodes of PRIV queues fail elsewhere with code 2. -/
def runPacket (name : String) (isIt : List Byte → Bool) (priv : Bool) (q : Nat) (s : State)
    (f : QEnt → List Byte → Verdict) : Out :=
  match nextPacket s q with
  | none => idle name
  | some (e, p) =>
    if !isIt p then idle name
    else if priv && !e.priv then .next (rejectPacket s q e 2)
    else
      match f e p with
      | .fail code => .next (rejectPacket s q e code)
      | .accept s => .next (acceptPacket s q e)
      | .wait w => .next (updQ s q fun u => { u with block := some w })
      | .command s reqs => .next (updQ (acceptPacket s q e) q fun u => { u with block := some (.command p reqs) })
      | .hold s => .next s
      | .stay => idle name

/-- The opcodes that PRIV queues alone may send (R352). -/
def privOpcode (op : Nat) : Bool := op == 4 || op == 5 || op == 9 || (0x10 ≤ op && op ≤ 0x20)

/-- Packets that name no operation: reserved opcodes, and reserved values of TEAMCTL's and DBGCTL's OP and of FAULTREPLY's
OUTCOME (R352, R368, R404). -/
def noPacket (p : List Byte) : Bool :=
  let op := opcodeOf p
  (9 < op && op < 0x10) || 0x20 < op || ((op == 0x14 || op == 0x15) && 1 < flagsOf p) || (op == 0x1C && 5 < flagsOf p)

/-- PACKET_NOP: NOP does nothing; a packet that names no operation gives code 1. -/
def execPacketNop (q : Nat) (s : State) : Out :=
  runPacket "PACKET_NOP" (fun p => opcodeOf p == 0 || noPacket p) false q s fun e p =>
    if privOpcode (opcodeOf p) && !e.priv then .fail 2
    else if opcodeOf p ≠ 0 || !onlyUses p [(0, 0)] then .fail 1
    else .accept s

/-! ## SIGNAL and WAITMEM (R358) -/

/-- The doorbell that a queue's address names. -/
def doorbellOf (s : State) (ctx a : Nat) : Option Nat :=
  if ctx = 0xFFFF then doorbellAt s a
  else match (translate s 0 ctx a .write).1 with
    | .ok pa _ => doorbellAt s pa
    | _ => none

/-- The effect of a SIGNAL: its store, which is a notify at a doorbell, then its vector. -/
def signalNow (s : State) (ctx : Nat) (p : List Byte) : State :=
  let s := match doorbellOf s ctx (leNum p 8 8) with
    | some q => ringDoorbell s q
    | none => qWrite s ctx (leNum p 8 8) (bytesOf 8 (leNum p 16 8))
  if bit (flagsOf p) 0 then raiseIrq s (leNum p 24 2) else s

/-- SIGNAL: at once, or with WAITALL after the earlier launches of its queue. -/
def execSignal (q : Nat) (s : State) : Out :=
  runPacket "SIGNAL" (fun p => opcodeOf p == 2) false q s fun e p =>
    if !onlyUses p [(0, 1), (8, 25)] || 3 < flagsOf p || 2047 < leNum p 24 2 then .fail 1
    else if leNum p 8 8 % 8 ≠ 0 then .fail 6
    else if bit (flagsOf p) 1 then .wait (.signal p)
    else .accept (signalNow s e.ctx p)

/-- Whether every launch accepted so far from a queue has ended, its writes performed. -/
def launchesSettled (s : State) (q : Nat) : Bool := s.launches.all fun e => e.2.queue != q || e.2.settled s

/-- SIGNAL_WAITALL_RELEASE: the waiting SIGNAL performs its store and is accepted. -/
def execSignalWaitallRelease (q : Nat) (s : State) : Out :=
  match queueEntry s q, (s.queue q).block with
  | some e, some (.signal p) =>
    if launchesSettled s q then .next (updQ (acceptPacket (signalNow s e.ctx p) q e) q fun u => { u with block := none })
    else idle "SIGNAL_WAITALL_RELEASE"
  | _, _ => idle "SIGNAL_WAITALL_RELEASE"

/-- WAITMEM: the queue waits for a memory word. -/
def execWaitmem (q : Nat) (s : State) : Out :=
  runPacket "WAITMEM" (fun p => opcodeOf p == 3) false q s fun _ p =>
    if !onlyUses p [(0, 0), (8, 23)] then .fail 1
    else if leNum p 8 8 % 8 ≠ 0 then .fail 6
    else .wait (.waitmem (leNum p 8 8) (leNum p 16 8))

/-- WAITMEM_SATISFIED: the word has reached the value. -/
def execWaitmemSatisfied (q : Nat) (s : State) : Out :=
  match queueEntry s q, (s.queue q).block with
  | some e, some (.waitmem a v) =>
    match qRead s e.ctx a 8 with
    | some b =>
      if v ≤ leNum b 0 8 then .next (updQ (acceptPacket s q e) q fun u => { u with block := none })
      else idle "WAITMEM_SATISFIED"
    | none => idle "WAITMEM_SATISFIED"
  | _, _ => idle "WAITMEM_SATISFIED"

end Sys2Proof.Machine
end

