-- ==== Sys2Proof/Machine/Packets.lean ====
section
/-! DEFINITION. The packets that make launches, graphs, fields, contexts and work queues (R353 to R362, R397, R398, R402). -/

namespace Sys2Proof.Machine

/-! ## LAUNCH (R353 to R357) -/

/-- How many of a need fit in a capacity. -/
def fitCount (cap need : Nat) : Option Nat := if need = 0 then none else some (cap / need)

/-- The teams of a need that an empty core holds: every team has a group. -/
def coreFit (core : Nat) (n : Need) : Nat :=
  [fitCount (coreRows core) n.rows, fitCount (coreScr core) n.scr, fitCount (coreTiles core) n.tiles].foldl
    (fun m x => min m (x.getD m)) (coreSlices core * slicePlaces core / max 1 n.groups)

/-- The unfenced cores of an image's kind. -/
def kindCores (s : State) (image : Nat) : List Nat := (List.range 128).filter fun c => isLCore c == (image == 1) && !(s.core c).fenced

/-- Whether a grid could fit on the unfenced cores of its kind, were they empty: a field may be edited (R357, R361). -/
def couldFit (s : State) (l : Launch) : Bool :=
  let per := (kindCores s l.pref).map fun c => coreFit c (l.need l.pref)
  let per := if l.solo then per.map (min 1) else per
  if l.coop then l.total ≤ per.sum else 0 < per.sum

/-- A launch packet as a launch that waits for admission. -/
def launchOfPacket (ctx q : Nat) (p : List Byte) : Launch :=
  { ctx, grid := 0, pkt := p, queue := q, order := 0, pred := none, todo := [], ended := 0, hinted := [], done := false,
    destroyed := false, run := none, wbs := [] }

/-- Whether a context may name a field: it exists and is one of FIELDS. -/
def fieldNamed (s : State) (ctx f : Nat) : Bool := s.fields.has f && (s.ctx ctx).fields.getLsbD f

/-- The code with which a launch packet fails, if it does. -/
def launchCode (s : State) (ctx : Nat) (p : List Byte) : Option Nat :=
  let l := launchOfPacket ctx 0 p
  let within (at' n hi : Nat) : Bool := (List.range n).all fun i => l.byte (at' + i) ≤ hi
  if opcodeOf p ≠ 1 || l.byte 3 ≠ 0 || l.num 54 2 ≠ 0 || 7 < l.byte 2 || !within 4 4 32 || l.groups.sum = 0 || 32 < l.groups.sum ||
      !within 8 8 128 || 96 < l.byte 16 || 64 < l.byte 17 || 96 < l.byte 18 || 48 < l.byte 19 || 0xFFF < l.num 52 2 ||
      ((l.standing || l.solo) && !l.coop) then some 1
  else if ctx = 0xFFFF || !fieldNamed s ctx l.fieldNo then some 3
  else if l.entry 0 % 4 ≠ 0 || l.entry 1 % 4 ≠ 0 || l.num 40 8 % 16 ≠ 0 then some 6
  else if l.entry l.pref = 0 then some 5
  else if !couldFit s l then some 4
  else none

/-- The number after a launch number: 0 is skipped (R354). -/
def nextGrid (g : Nat) : Nat := if g + 1 < 2 ^ 32 then g + 1 else 1

/-- A launch added; its key. -/
def addLaunch (s : State) (ctx q : Nat) (p : List Byte) (pred run : Option Nat) : Nat × State :=
  let live := s.ctxLive ctx
  let grid := nextGrid live.lastGrid
  let (order, s) := s.fresh
  let key := launchKey ctx grid
  let l := launchOfPacket ctx q p
  (key, { s with
    live := s.live.put ctx { live with lastGrid := grid }
    launches := s.launches.put key { l with grid, order, pred, run, todo := List.range l.total } })

/-- LAUNCH. -/
def execLaunch (q : Nat) (s : State) : Out :=
  runPacket "LAUNCH" (fun p => opcodeOf p == 1) false q s fun e p =>
    match launchCode s e.ctx p with
    | some c => .fail c
    | none =>
      let (key, s) := addLaunch s e.ctx q p (s.queue q).last none
      .accept (updQ s q fun u => { u with last := some key })

/-! ## Graphs (R362) -/

/-- The launch packets of a version record. -/
def recordPackets (b : List Byte) (n : Nat) : List (List Byte) := (List.range n).map fun i => (b.drop (64 * i)).take 64

/-- The launches of a run, each behind the one before. -/
def addRun (ctx q run : Nat) : List (List Byte) → Option Nat → State → List Nat × State
  | [], _, s => ([], s)
  | p :: rest, pred, s =>
    let (key, s) := addLaunch s ctx q p pred (some run)
    let (keys, s) := addRun ctx q run rest (some key) s
    (key :: keys, s)

/-- GRAPHRUN: the header's current record is snapshotted and its launches are added. A launch packet that fails makes the
whole packet fail with its code. -/
def execGraphrun (q : Nat) (s : State) : Out :=
  runPacket "GRAPHRUN" (fun p => opcodeOf p == 7) false q s fun e p =>
    let header := leNum p 8 8
    if !onlyUses p [(0, 0), (8, 15)] then .fail 1
    else if e.ctx = 0xFFFF then .fail 3
    else if header % 16 ≠ 0 then .fail 6
    else
      match qRead s e.ctx header 16 with
      | none => .stay
      | some h =>
        let cur := leNum h 0 8
        match qRead s e.ctx cur 64 with
        | none => .stay
        | some r =>
          let count := leNum r 4 2
          if cur % 64 ≠ 0 then .fail 6
          else if count = 0 || 1024 < count || !onlyUses r [(0, 5)] || 1 < leNum h 12 1 || leNum h 13 3 ≠ 0 then .fail 1
          else
            match qRead s e.ctx (cur + 64) (64 * count) with
            | none => .stay
            | some b =>
              let ps := recordPackets b count
              match ps.findSome? (launchCode s e.ctx) with
              | some c => .fail c
              | none =>
                let (run, s) := s.fresh
                let (keys, s) := addRun e.ctx q run ps (s.queue q).last s
                .accept { s with runs := s.runs.put run ⟨e.ctx, header, leNum r 0 4, leNum h 12 1 == 1, keys⟩ }

/-- The graph of a header, or a new one. -/
def graphOf (s : State) (ctx header : Nat) : Nat × State :=
  match s.graphs.find? fun e => e.2.ctx == ctx && e.2.header == header with
  | some e => (e.1, s)
  | none =>
    let (id, s) := s.fresh
    (id, { s with graphs := s.graphs.put id ⟨ctx, header, []⟩ })

/-- GRAPHEDIT: the new record becomes current; the old version is retired once no run uses it. -/
def execGraphedit (q : Nat) (s : State) : Out :=
  runPacket "GRAPHEDIT" (fun p => opcodeOf p == 8) false q s fun e p =>
    let header := leNum p 8 8
    let new := leNum p 16 8
    if !onlyUses p [(0, 0), (8, 23)] then .fail 1
    else if e.ctx = 0xFFFF then .fail 3
    else if header % 16 ≠ 0 || new % 64 ≠ 0 then .fail 6
    else
      match (qRead s e.ctx header 8).bind fun h => qRead s e.ctx (leNum h 0 8) 4, qRead s e.ctx new 4 with
      | some old, some r =>
        if leNum r 0 4 ≤ leNum old 0 4 then .fail 1
        else
          let s := qWrite s e.ctx header (bytesOf 8 new)
          let (id, s) := graphOf s e.ctx header
          .accept (retireVersions { s with graphs := s.graphs.upd id fun g => { g with olds := g.olds ++ [leNum old 0 4] } } id)
      | _, _ => .stay

/-! ## FIELDSET (R360, R361) -/

/-- Queue memory of a field in use on a die, in bytes. -/
def queueUse (s : State) (f d : Nat) : Nat :=
  ((s.workQs.filter fun e => e.2.field == f && e.2.home == d).map fun e => 32 * e.2.cap).sum

/-- The core map of a packet without the cores that are fenced (R381). -/
def packetCores (s : State) (p : List Byte) : BitVec 128 :=
  (List.range 128).foldl (fun m c => if (s.core c).fenced then m &&& ~~~(1#128 <<< c) else m) (BitVec.ofNat 128 (leNum p 4 16))

/-- The field that a packet describes. -/
def packetField (s : State) (p : List Byte) : Field :=
  { cls := leNum p 3 1, cores := packetCores s p
    ways := (List.range 4).map fun d => BitVec.ofNat 16 (leNum p (20 + 2 * d) 2)
    qmem := (List.range 4).map fun d => leNum p (28 + 2 * d) 2
    hbmw := (List.range 4).map fun d => leNum p (36 + d) 1 }

/-- Whether a FIELDSET packet has a reserved byte or a value out of range. -/
def badField (p : List Byte) : Bool :=
  !onlyUses p [(0, 39)] || 1 < flagsOf p || 7 < leNum p 2 1 || 3 < leNum p 3 1 ||
    (List.range 4).any fun d => 64 < leNum p (28 + 2 * d) 2

/-- Whether the fields' shares of a die's queue memory would exceed its 4 MiB with this one in place of field f (R13). That such
a FIELDSET fails, with code 7, is a DESIGN CHOICE (log entry 36). -/
def queueMemoryOver (s : State) (f : Nat) (x : Field) : Bool :=
  (List.range 4).any fun d =>
    64 < x.qmem.getD d 0 + ((s.fields.filter fun e => e.1 != f).map fun e => e.2.qmem.getD d 0).sum

/-- FIELDSET: a field created or edited. Teams on removed cores are saved; a halted one stays halted in its slot (R239, R361). -/
def execFieldset (q : Nat) (s : State) : Out :=
  runPacket "FIELDSET" (fun p => opcodeOf p == 4 && !bit (flagsOf p) 0) true q s fun _ p =>
    let f := leNum p 2 1
    let x := packetField s p
    if badField p then .fail 1
    else if queueMemoryOver s f x || (List.range 4).any fun d => 65536 * x.qmem.getD d 0 < queueUse s f d then .fail 7
    else
      let s := { s with fields := s.fields.put f x }
      let gone := s.teams.filter fun e =>
        fieldOfTeam s e.2 == f && !e.2.isSaved && !x.cores.getLsbD e.2.id.core
      .accept (gone.foldl (fun s e => startSave s e.1) s)

/-- FIELDSET with DESTROY. -/
def execFieldsetDestroy (q : Nat) (s : State) : Out :=
  runPacket "FIELDSET_DESTROY" (fun p => opcodeOf p == 4 && bit (flagsOf p) 0) true q s fun _ p =>
    let f := leNum p 2 1
    if badField p then .fail 1
    else if !s.fields.has f then .fail 3
    else if (s.launches.any fun e => e.2.fieldNo == f && !e.2.done) || (s.teams.any fun e => fieldOfTeam s e.2 == f) then .fail 7
    else .accept { s with fields := s.fields.del f }

/-! ## SETCTX (R137, R356, R392, R397, R402) -/

/-- The order of finite FP32 numbers as integers. -/
def floatOrder (w : Word) : Int :=
  if w.getLsbD 31 then -((w.toNat % 2 ^ 31 : Nat) : Int) else (w.toNat : Int)

def floatFinite (w : Word) : Bool := bits w.toNat 30 23 ≠ 255

/-- Whether numbers are finite and strictly increasing. -/
def increasing : List Word → Bool
  | [] => true
  | x :: [] => floatFinite x
  | x :: y :: rest => floatFinite x && decide (floatOrder x < floatOrder y) && increasing (y :: rest)

/-- The 17 points of a compand table. -/
def compandPoints (b : List Byte) : List (Word × Word) :=
  (List.range 17).map fun i => (BitVec.ofNat 32 (leNum b (8 * i) 4), BitVec.ofNat 32 (leNum b (8 * i + 4) 4))

/-- Whether a table keeps R137. -/
def compandGood (t : List (Word × Word)) : Bool := increasing (t.map (·.1)) && increasing (t.map (·.2))

/-- The four tables at COMPAND; address 0 makes all of them the identity; none where memory cannot be read. R137 and R356 name no
address space for COMPAND: DESIGN CHOICE (log entry 73), that of the descriptor's own address, the queue's. -/
def readCompand (s : State) (ctx a : Nat) : Option (Tbl (List (Word × Word))) :=
  if a = 0 then some []
  else (List.range 4).foldr (fun i acc => match qRead s ctx (a + 136 * i) 136, acc with
    | some b, some t => some ((i + 1, compandPoints b) :: t)
    | _, _ => none) (some [])

/-- The context that a descriptor describes: reserved bits of its registers are ignored and read 0 (R151, R196, R200, R331,
R374, R378). -/
def descCtx (b : List Byte) (compand : Tbl (List (Word × Word))) : Ctx :=
  { prot := bit (leNum b 2 1) 0, debug := bit (leNum b 2 1) 1, fields := BitVec.ofNat 8 (leNum b 3 1)
    memdef := BitVec.ofNat 32 (leNum b 4 4) &&& 0xFFF
    trapen := BitVec.ofNat 32 (leNum b 8 4) &&& 0x3F
    emuvec := BitVec.ofNat 64 (leNum b 16 8) &&& 0x0FFFFFFFFFFFFFFD
    savearea := BitVec.ofNat 64 (leNum b 24 8) &&& 0x0FFFFFFFFF000FFF
    preempt := BitVec.ofNat 64 (leNum b 32 8) &&& 0x0000FFFFFFFFFFFF
    fwdtab := BitVec.ofNat 64 (leNum b 40 8) &&& 0x0FFFFFFFFFFFFE00
    ptroot := BitVec.ofNat 64 (leNum b 48 8), syntab := BitVec.ofNat 64 (leNum b 56 8)
    ftabD := BitVec.ofNat 64 (leNum b 64 8), ftabL := BitVec.ofNat 64 (leNum b 72 8)
    ftlenD := leNum b 80 4, ftlenL := leNum b 84 4
    pinBase := BitVec.ofNat 64 (leNum b 88 8), pinLen := BitVec.ofNat 64 (leNum b 96 8), compand }

/-- The code with which a descriptor fails for a context, if it does; what its reserved bytes and the reserved bits of its FLAGS
hold is ignored (R5). -/
def descCode (ctx : Nat) (b : List Byte) : Option Nat :=
  if leNum b 0 2 ≠ ctx || bits (leNum b 2 1) 1 0 = 3 || 100 < leNum b 37 1 || 100 < leNum b 36 1 ||
      65536 < leNum b 80 4 || 65536 < leNum b 84 4 || leNum b 96 8 % 65536 ≠ 0 then some 1
  else if leNum b 48 8 % 16384 ≠ 0 || targetOf (leNum b 48 8) != .hbm || leNum b 64 8 % 8 ≠ 0 || leNum b 72 8 % 8 ≠ 0 ||
      leNum b 88 8 % 65536 ≠ 0 || leNum b 104 8 % 16 ≠ 0 then some 6
  else none

/-- The lowest park index that no live protected context holds (R398). -/
def freePark (s : State) : Nat :=
  ((List.range 512).find? fun i => !(s.live.any fun e => e.2.parkIndex == some i)).getD 0

/-- Whether some team of a context is resident or saved. -/
def ctxHasTeams (s : State) (ctx : Nat) : Bool := s.teams.any fun e => e.2.id.ctx == ctx

/-- The writes of a context that are under way to sealed sectors given up: those that have left their die touch no location when they
are handled, the others are dropped (R402). -/
def dropSealed (s : State) (ctx : Nat) : State :=
  let writes (r : Req) : Bool := r.ctx == ctx && !r.phys && (r.kind == .write || r.kind == .atomic) && r.vaultOff.isNone
  let opens (r : Req) : Bool := match (translate s r.die ctx r.va .write).1 with | .ok _ lock => !lock | _ => false
  let kept : Tbl Req := s.reqs.filter fun e => !writes e.2 ||
    (match e.2.stage with | .walk => opens e.2 | .held _ => opens e.2 | _ => true)
  { s with reqs := kept.mapVals fun _ r => if writes r && r.sealed && r.stage == .sent then { r with kind := .beat } else r }

/-- What the cores and the dies hold of a context discarded without write-back: L1 and L2 lines, and landed copy sectors; no reply on
its way, opened at its home already, brings a line back (R402). -/
def discardLines (s : State) (ctx : Nat) : State :=
  let s := (List.range 4).foldl (fun s d => l2Drop (noFill s d fun r => r.ctx == ctx) d ctx) s
  { s with
    cores := s.cores.mapVals fun _ c => { c with l1 := { c.l1 with
      sects := c.l1.sects.filter fun e => ctxOfSect e.1 != ctx, lines := c.l1.lines.filter fun e => ctxOfSect (2 * e.1) != ctx } }
    dies := s.dies.mapVals fun _ d => { d with writeQ := d.writeQ.filter fun x => x.ctx != ctx } }

/-- A protected context's key erased (R402): its lines are discarded without write-back, its slot is cleared, its generation
moves on, so that no parked copy can be seated and no sector that it sealed opens. -/
def eraseKey (s : State) (ctx : Nat) : State :=
  let s := discardLines (dropSealed s ctx) ctx
  { s with
    keys := { s.keys with
      seated := s.keys.seated.filter fun e => e.2 != ctx
      records := s.keys.records.filter fun e => !s.keys.seated.any fun x => x.1 == e.1 && x.2 == ctx
      parking := s.keys.parking.filter fun e => e.2 != ctx
      parked := s.keys.parked.filter (· != ctx)
      gens := s.keys.gens.put ctx ((s.keys.gens.getD ctx 1 + 1) % 2 ^ 32) }
    live := s.live.upd ctx fun v => { v with parkIndex := none, traceKey := none } }

/-- A key record drawn with a generation (R394, R397). -/
def drawKey (s : State) (gen : Nat) : KeyRec × State :=
  let (k, s) := s.draw
  let key (i : Nat) : BitVec 256 := Config.freeKey (4 * k + i)
  ({ xts := key 0 ++ key 1, mac := key 2, report := key 3, gen }, s)

/-- A protected context's key drawn and seated in a slot, with its park index. The generation is 1 for a number's first context
(R397), and the next one for a number created anew (R402, and the text after it). -/
def createKey (s : State) (ctx slot : Nat) : State :=
  let gen := s.keys.gens.getD ctx 1
  let (k, s) := drawKey s gen
  { s with
    keys := { s.keys with
      seated := s.keys.seated.put slot ctx, records := s.keys.records.put slot k, gens := s.keys.gens.put ctx gen }
    live := s.live.put ctx { s.ctxLive ctx with parkIndex := some (freePark s), sched := 0 } }

/-- A context's write-backs that have not left their dies keep the addresses that its tables now give them, which are soon gone. -/
def detachWrites (s : State) (ctx : Nat) : State :=
  { s with reqs := s.reqs.mapVals fun _ r =>
      if r.ctx == ctx && !r.phys && r.kind == .write && r.vaultOff.isNone && (match r.stage with | .walk => true | .held _ => true | _ => false) then
        match (translate s r.die ctx r.va .write).1 with
        | .ok pa false => { r with phys := true, va := pa, stage := .walk }
        | _ => r
      else r }

/-- A context that becomes protected leaves the ordinary ways first: what the cores and dies hold of it is written back, to the
addresses that its tables give now, and dropped, so that no protected plaintext is put into a way that R396 does not allow. -/
def leaveOrdinary (s : State) (ctx : Nat) : State :=
  let s := s.cores.keys.foldl (fun s c => (s.core c).l1.lines.foldl (fun s e => if ctxOfSect (2 * e.1) = ctx then l1Drop s c e.1 else s) s) s
  detachWrites ((List.range 4).foldl (fun s d => l2Drop (l2Flush (noFill s d fun r => r.ctx == ctx) d ctx) d ctx) s) ctx

/-- The context installed: its key follows its protection, and may have to wait for a slot (R397). -/
def installCtx (s : State) (ctx : Nat) (x : Ctx) : Verdict :=
  let was := s.ctxs.has ctx && (s.ctx ctx).prot
  let put (s : State) : Verdict :=
    let s := dropTables s fun _ k => k == ctx
    .accept { s with ctxs := s.ctxs.put ctx x, live := s.live.put ctx (s.ctxLive ctx) }
  if was && !x.prot then put (eraseKey s ctx)
  else if x.prot && !was then
    match keyPlace s fun _ => true with
    | .free slot => put (createKey (if s.ctxs.has ctx then leaveOrdinary s ctx else s) ctx slot)
    | .parks s => .hold s
    | .waits => .stay
    | .none => .fail 9
  else put s

/-- Whether a VAULTGRANT of a context has been accepted and is not complete: the context is not described anew or destroyed before the
vaults that it gives up are zeroed (R403). -/
def grantPending (s : State) (ctx : Nat) : Bool :=
  s.hg.queues.any fun e => match e.2.block with
    | some (.command p _) => opcodeOf p == 0x12 && leNum p 2 2 == ctx
    | _ => false

/-- The context of a SETCTX, whose packet waits for a key to be parked: its descriptor, which has been read, is kept. -/
def Verdict.keeping (q : Nat) (p : List Byte) (x : Ctx) : Verdict → Verdict
  | .hold s => .hold (updQ s q fun u => { u with desc := some (p, x) })
  | v => v

/-- SETCTX: a context created or described anew from its descriptor, which is read once (R356). -/
def execSetctx (q : Nat) (s : State) : Out :=
  runPacket "SETCTX" (fun p => opcodeOf p == 5 && !bit (flagsOf p) 0) true q s fun e p =>
    let ctx := leNum p 2 2
    let desc := leNum p 8 8
    if !onlyUses p [(0, 3), (8, 15)] || 1 < flagsOf p || ctx = 0xFFFF then .fail 1
    else if desc % 16 ≠ 0 then .fail 6
    else
      let busy := ctxHasTeams s ctx || (!s.ctxs.has ctx && 512 ≤ s.ctxs.length)
      match (s.queue q).desc.filter fun d => d.1 == p with
      | some d => if busy then .fail 7 else if grantPending s ctx then .stay else (installCtx s ctx d.2).keeping q p d.2
      | none =>
        match qRead s e.ctx desc 128 with
        | none => .stay
        | some b =>
          match descCode ctx b with
          | some c => .fail c
          | none =>
            if busy then .fail 7
            else
              match readCompand s e.ctx (leNum b 104 8) with
              | none => .stay
              | some t =>
                if t.any fun x => !compandGood x.2 then .fail 8
                else if grantPending s ctx then .stay
                else (installCtx s ctx (descCtx b t)).keeping q p (descCtx b t)

/-- A context gone, with its key, its work queues and its launches: none of these precedes what a new context of its number
launches (R355). -/
def removeCtx (s : State) (ctx : Nat) : State :=
  let s := detachWrites (if (s.ctx ctx).prot then eraseKey s ctx else s) ctx
  { s with
    ctxs := s.ctxs.del ctx, live := s.live.del ctx
    launches := s.launches.filter fun e => e.2.ctx != ctx
    runs := s.runs.filter fun e => e.2.ctx != ctx
    graphs := s.graphs.filter fun e => e.2.ctx != ctx
    workQs := s.workQs.filter fun e => e.1 / 256 != ctx
    hg := { s.hg with queues := s.hg.queues.mapVals fun _ u => { u with last := u.last.filter fun k => k / 2 ^ 32 != ctx } }
    cores := s.cores.mapVals fun _ c => { c with fwd := c.fwd.del ctx } }

/-- SETCTX with DESTROY. -/
def execSetctxDestroy (q : Nat) (s : State) : Out :=
  runPacket "SETCTX_DESTROY" (fun p => opcodeOf p == 5 && bit (flagsOf p) 0) true q s fun _ p =>
    let ctx := leNum p 2 2
    if !onlyUses p [(0, 3), (8, 15)] || 1 < flagsOf p then .fail 1
    else if leNum p 8 8 % 16 ≠ 0 then .fail 6
    else if !s.ctxs.has ctx then .fail 3
    else if ctxHasTeams s ctx then .fail 7
    else if grantPending s ctx then .stay
    else .accept (removeCtx s ctx)

/-! ## WQCREATE (R359) -/

/-- Whether a WQCREATE packet has a reserved byte or a value out of range. -/
def badWork (p : List Byte) : Bool :=
  !onlyUses p [(0, 5), (8, 11)] || 1 < flagsOf p || 3 < leNum p 2 1 || 255 < leNum p 4 2

/-- WQCREATE. -/
def execWqcreate (q : Nat) (s : State) : Out :=
  runPacket "WQCREATE" (fun p => opcodeOf p == 6 && !bit (flagsOf p) 0) false q s fun e p =>
    let home := leNum p 2 1
    let f := leNum p 3 1
    let cap := leNum p 8 4
    let key := workKey e.ctx (leNum p 4 2)
    if badWork p || cap = 0 || 65536 < cap then .fail 1
    else if e.ctx = 0xFFFF || !fieldNamed s e.ctx f then .fail 3
    else if s.workQs.has key || 65536 * (((s.fields.get? f).map fun x => x.qmem.getD home 0).getD 0) < queueUse s f home + 32 * cap then
      .fail 7
    else .accept { s with workQs := s.workQs.put key ⟨home, f, cap, [], [], [], 0⟩ }

/-- The word that an agent stands at traps QUEUE_FAULT, before any other effect. -/
def queueFault (s : State) (t : Nat) (g : Option Nat) (p : Nat) : State :=
  stopIssuer (setHold s t g p none) t g (p == 0) p (pcOf s t g p) 0x0F 0 0

/-- The waits of a context's teams with a queue condition that names a queue. -/
def waitsOn (s : State) (ctx n : Nat) : List (Nat × Option Nat × Nat × WaitRec) :=
  (s.teams.filter fun e => e.2.id.ctx == ctx).flatMap fun e =>
    (e.2.waits.filter fun w => w.2.2.conds.any fun c => c.kind == 4 && c.index == n).map fun w => (e.1, w)

/-- WQCREATE with DESTROY: the queue and its entries are gone, and whatever waits on it traps. A word that its home has answered goes
on. -/
def destroyWork (s : State) (ctx n : Nat) : State :=
  let msgs := s.msgs.filter fun e => e.2.ctx == ctx && e.2.q == n && e.2.answer.isNone
  let s := { s with workQs := s.workQs.del (workKey ctx n) }
  let s := msgs.foldl (fun s e => queueFault { s with msgs := s.msgs.del e.1 } e.2.team e.2.agent e.2.path) s
  (waitsOn s ctx n).foldl (fun s w =>
    let s := match w.2.2.2.poll with
      | some a => { dropRest s a with accs := s.accs.del a }
      | none => s
    queueFault s w.1 w.2.1 w.2.2.1) s

def execWqDestroy (q : Nat) (s : State) : Out :=
  runPacket "WQ_DESTROY" (fun p => opcodeOf p == 6 && bit (flagsOf p) 0) false q s fun e p =>
    if badWork p then .fail 1
    else if e.ctx = 0xFFFF || !s.workQs.has (workKey e.ctx (leNum p 4 2)) then .fail 3
    else .accept (destroyWork s e.ctx (leNum p 4 2))

end Sys2Proof.Machine
end

