-- ==== Sys2Proof/Machine/Commands.lean ====
section
/-! DEFINITION. The driver's commands: forwarding tables (R331), translation (R368 to R370), pre-emption and teams (R375,
R380), service replies (R372, R373), keys, protected ways and attestation (R399 to R403). -/

namespace Sys2Proof.Machine

/-- A command of an opcode, from a PRIV queue. -/
def runCommand (name : String) (op : Nat) (q : Nat) (s : State) (f : QEnt → List Byte → Verdict) : Out :=
  runPacket name (fun p => opcodeOf p == op) true q s f

/-- Whether an address lies in HBM or host memory (R372, R404, R424). -/
def inHbmOrHost (pa : Nat) : Bool := targetOf pa == .hbm || targetOf pa == .host

/-- Whether n bytes from an address lie in HBM, or in host memory. -/
def rangeInHbmOrHost (pa n : Nat) : Bool := inHbmOrHost pa && targetOf (pa + n - 1) == targetOf pa

/-! ## FWDUPDATE (R331) -/

/-- A context's forwarding table as memory holds it; empty where it cannot be read. -/
def readFwd (s : State) (ctx : Nat) : List (BitVec 256) :=
  match vaRead s 0 ctx (s.ctx ctx).fwdtab.toNat 512 with
  | some b => (List.range 16).map fun i => BitVec.ofNat 256 (leNum b (32 * i) 32)
  | none => []

/-- Whether an address lies in the new range of some valid entry. -/
def inNewRange (t : List (BitVec 256)) (va : Nat) : Bool :=
  t.any fun x => x.getLsbD 63 && bits x.toNat 127 64 ≤ va && va < bits x.toNat 127 64 + 256 * bits x.toNat 151 128

/-- Whether a sector meets some new range. -/
def sectorInNew (t : List (BitVec 256)) (va : Nat) : Bool := (List.range 64).any fun i => inNewRange t (va / 64 * 64 + i)

/-- The landed copy sectors that meet the new ranges performed, then every dirty sector of the context that meets them on its way
home: from every L1, then from every L2. -/
def flushNew (s : State) (ctx : Nat) (t : List (BitVec 256)) : State :=
  let meets (key : Nat) : Bool := ctxOfSect key == ctx && sectorInNew t (vaOfSect key)
  let s := (List.range 4).foldl (fun s d =>
    ((s.die d).writeQ.filter fun x => meets x.key).foldl (fun s x => performLanded s d x) s) s
  let s := (List.range 128).foldl (fun s c => ((s.core c).l1.sects.filter fun e => meets e.1).foldl (fun s e => l1Clean s c e.1) s) s
  (List.range 4).foldl (fun s d => ((s.die d).l2.sects.filter fun e => meets e.1).foldl (fun s e => l2Clean s d e.1) s) s

/-- The new text's writes under way: those of the context, and those that the host makes through a window by physical address,
which name no context. -/
def newTextWrites (s : State) (ctx : Nat) (t : List (BitVec 256)) : List Nat :=
  reqsWhere s fun r => (r.kind == .write || r.kind == .atomic) &&
    ((r.phys && r.who == .host) || (r.ctx == ctx && !r.phys && sectorInNew t r.va))

/-- FWDUPDATE: every core's copy is loaded anew, and the new text's writes leave. R331 does not say whether the copies are loaded before
or after those writes are performed: DESIGN CHOICE (log entry 70), at acceptance. -/
def execFwdupdate (q : Nat) (s : State) : Out :=
  runCommand "FWDUPDATE" 9 q s fun _ p =>
    let ctx := leNum p 2 2
    if !onlyUses p [(0, 0), (2, 3)] then .fail 1
    else if !s.ctxs.has ctx then .fail 3
    else
      let t := readFwd s ctx
      let s := (List.range 128).foldl (fun s c => s.setCore c { s.core c with fwd := (s.core c).fwd.put ctx t }) s
      .command (flushNew s ctx t) (newTextWrites (flushNew s ctx t) ctx t)

/-- The end of a forwarding update: the instruction caches' entries for the new ranges are discarded, with the clean copies of them
in the L2s, and what is still on its way to a cache was read before and does not enter. -/
def fwdEnd (s : State) (ctx : Nat) : State :=
  let hit (key : Nat) : Bool := ctxOfSect key == ctx && sectorInNew ((s.core 0).fwd.getD ctx []) (vaOfSect key)
  let s := (List.range 4).foldl (fun s d => noFill s d fun r => r.ctx == ctx && hit (sectKey ctx r.va)) s
  { s with
    cores := s.cores.mapVals fun _ c => { c with icache := c.icache.filter fun e => !hit e.1 }
    dies := s.dies.mapVals fun _ d => { d with l2 := { d.l2 with sects := d.l2.sects.filter fun e => e.2.dirty != 0 || !hit e.1 } } }

/-! ## XLATEINV and SYNINV (R369) -/

/-- The first address and the length that a walk-cache entry translates: a member of a contiguous group, its whole group
(R366). -/
def walkSpan (key : Nat) (e : Dword) : Nat × Nat :=
  let level := key / 2 ^ 44 % 4
  let shift := 49 - 11 * level
  let size := 2 ^ shift * (if bit e.toNat 1 && bit e.toNat 5 then groupSize level else 1)
  (key % 2 ^ 44 * 2 ^ shift / size * size, size)

/-- Whether a range names a walk-cache entry of a context. -/
def namesWalk (ctx base len : Nat) (all : Bool) (key : Nat) (e : Dword) : Bool :=
  key % 2 ^ 70 / 2 ^ 46 == ctx && (all || ((walkSpan key e).1 < base + len && base < (walkSpan key e).1 + (walkSpan key e).2))

/-- The named entries dropped from every walk cache. -/
def dropWalks (s : State) (ctx base len : Nat) (all : Bool) : State :=
  let keep (e : Nat × Dword) : Bool := !namesWalk ctx base len all e.1 e.2
  { s with dies := s.dies.mapVals fun _ d => { d with walks := d.walks.filter keep } }

/-- The requests under way that a named entry has translated: those in its span, or in the named range (R369). -/
def translatedBy (s : State) (ctx base len : Nat) (all : Bool) : List Nat :=
  let dropped := s.dies.flatMap fun d => d.2.walks.filter fun e => namesWalk ctx base len all e.1 e.2
  reqsWhere s fun r => r.ctx == ctx && !r.phys && r.stage == .sent &&
    (all || (base ≤ r.va && r.va < base + len) ||
      dropped.any fun e => (walkSpan e.1 e.2).1 ≤ r.va && r.va < (walkSpan e.1 e.2).1 + (walkSpan e.1 e.2).2)

/-- XLATEINV: the named entries leave every walk cache; walks that have read entries of other dies' tables begin anew. -/
def execXlateinv (q : Nat) (s : State) : Out :=
  runCommand "XLATEINV" 0x10 q s fun _ p =>
    let ctx := leNum p 2 2
    let all := bit (flagsOf p) 0
    let base := leNum p 8 8
    let len := leNum p 16 8
    if !onlyUses p [(0, 3), (8, 23)] || 1 < flagsOf p || len % 65536 ≠ 0 || (all && (base ≠ 0 || len ≠ 0)) then .fail 1
    else if base % 65536 ≠ 0 then .fail 6
    else if !s.ctxs.has ctx then .fail 3
    else .command (dropTables (dropWalks s ctx base len all) fun _ x => x == ctx) (translatedBy s ctx base len all)

/-- SYNINV: the context's entries leave every remap filter, and its walks begin anew. -/
def execSyninv (q : Nat) (s : State) : Out :=
  runCommand "SYNINV" 0x11 q s fun _ p =>
    let ctx := leNum p 2 2
    if !onlyUses p [(0, 0), (2, 3)] then .fail 1
    else if !s.ctxs.has ctx then .fail 3
    else .command (dropTables { s with cores := s.cores.mapVals fun _ c => { c with remap := c.remap.filter fun e => e.ctx != ctx } }
      fun _ x => x == ctx) []

/-! ## Vaults (R78, R369, R370, R403) -/

/-- The vault window's offset of vault v of die d. -/
def vaultOff (d v : Nat) : Nat := d * 2 ^ 32 + v * 2 ^ 27

def vaultSize : Nat := 0x3000000

/-- A vault zeroed. -/
def zeroVault (s : State) (d v : Nat) : State :=
  let off := vaultOff d v
  clearPoison { s with store := { s.store with vault := s.store.vault.zero off vaultSize } } fun k =>
    vaultKey off ≤ k && k < vaultKey (off + vaultSize)

/-- What grant i allows: bit 0 reads, bit 1 writes; 10 acts as 00. -/
def grantAllows (g : BitVec 256) (i : Nat) : Nat := if grantOf g i = 2 then 0 else grantOf g i

/-- VAULTGRANT: the new grants take effect when the accesses under the old ones are done. -/
def execVaultgrant (q : Nat) (s : State) : Out :=
  runCommand "VAULTGRANT" 0x12 q s fun _ p =>
    if !onlyUses p [(0, 0), (2, 3), (16, 47)] then .fail 1
    else if !s.ctxs.has (leNum p 2 2) then .fail 3
    else .command s (reqsWhere s fun r => r.ctx == leNum p 2 2 && r.vaultOff.isSome)

/-- Whether no access of the context to a vault is under way; the stores of a team that is gone count. -/
def grantDone (s : State) (ctx : Nat) : Bool :=
  !(s.accs.any fun e => ((s.teams.get? e.2.team).map (·.id.ctx)) == some ctx && e.2.lanes.any fun l =>
    l.st != .done && match regionOf l.va with | .vault _ => true | _ => false) &&
  !(s.reqs.any fun e => e.2.ctx == ctx && e.2.kind != .beat && e.2.vaultOff.isSome && e.2.stage != .replied)

/-- What a VAULTGRANT's context may do with vault i before and after it. -/
def grantBefore (s : State) (p : List Byte) (i : Nat) : Nat := grantAllows (s.ctxLive (leNum p 2 2)).grants i
def grantAfter (p : List Byte) (i : Nat) : Nat := grantAllows (BitVec.ofNat 256 (leNum p 16 32)) i

/-- The vaults that a VAULTGRANT withdraws from a protected context: they are zeroed (R403). -/
def grantGone (s : State) (p : List Byte) : List Nat :=
  if (s.ctx (leNum p 2 2)).prot then
    (List.range 128).filter fun i => grantBefore s p i &&& grantAfter p i ≠ grantBefore s p i
  else []

/-- Whether a VAULTGRANT must wait: a vault that it grants is still to be zeroed for another one (R403). -/
def grantWaits (s : State) (p : List Byte) : Bool :=
  s.hg.queues.any fun e => match e.2.block with
    | some (.command p' _) => opcodeOf p' == 0x12 && p' != p && (grantGone s p').any fun i =>
        grantBefore s p i &&& grantAfter p i ≠ grantAfter p i
    | _ => false

/-- The vaults that a VAULTGRANT withdraws from a protected context zeroed, and its grants to them lowered. Two updates that wait for
each other are so released: DESIGN CHOICE (log entry 75). -/
def grantWithdraw (s : State) (p : List Byte) : State :=
  let ctx := leNum p 2 2
  let lower (g : BitVec 256) (i : Nat) : BitVec 256 :=
    (g &&& ~~~(3#256 <<< (2 * i))) ||| (BitVec.ofNat 256 (grantBefore s p i &&& grantAfter p i) <<< (2 * i))
  let gone := grantGone s p
  let s := gone.foldl (fun s i => zeroVault s (i / 32) (i % 32)) s
  { s with live := s.live.put ctx { s.ctxLive ctx with grants := gone.foldl lower (s.ctxLive ctx).grants } }

/-- The grants installed; a protected context's withdrawn vaults are zeroed. -/
def grantEnd (s : State) (p : List Byte) : State :=
  let ctx := leNum p 2 2
  if !s.ctxs.has ctx then s
  else
    let s := grantWithdraw s p
    { s with live := s.live.put ctx { s.ctxLive ctx with grants := BitVec.ofNat 256 (leNum p 16 32) } }

/-- The vaults of the eighths of a mask. -/
def eighthVaults (m : BitVec 8) : List Nat := (List.range 32).filter fun v => m.getLsbD (v / 4)

/-- Whether some context holds a grant to a vault. -/
def vaultGranted (s : State) (d v : Nat) : Bool :=
  s.live.any fun e => s.ctxs.has e.1 && grantAllows e.2.grants (32 * d + v) ≠ 0

/-- The grants of every context to some vaults of a die at 00. -/
def ungrant (g : BitVec 256) (d : Nat) (vs : List Nat) : BitVec 256 :=
  vs.foldl (fun g v => g &&& ~~~(3#256 <<< (2 * (32 * d + v)))) g

/-- An edit of the carve: joining eighths are zeroed; for leaving ones the memory-side cache writes back and drops its
sectors, the vaults are zeroed and appear with no grant. -/
def recarve (s : State) (d : Nat) (new : BitVec 8) : State :=
  let old := (s.die d).carve
  let joins := eighthVaults (new &&& ~~~old)
  let leaves := eighthVaults (old &&& ~~~new)
  let s := if leaves.isEmpty then s else (s.die d).msc.keys.foldl (fun s k => mscFlush s d k) s
  let s := (joins ++ leaves).foldl (fun s v => zeroVault s d v) s
  let s := { s with live := s.live.mapVals fun _ x => { x with grants := ungrant x.grants d leaves } }
  s.setDie d { s.die d with carve := new }

/-- VAULTCARVE. -/
def execVaultcarve (q : Nat) (s : State) : Out :=
  runCommand "VAULTCARVE" 0x20 q s fun _ p =>
    let d := leNum p 2 1
    let new := BitVec.ofNat 8 (leNum p 3 1)
    if !onlyUses p [(0, 0), (2, 3)] || 3 < d then .fail 1
    else if (eighthVaults (new &&& ~~~(s.die d).carve)).any (vaultGranted s d) then .fail 7
    else .command (recarve s d new) []

/-! ## PREEMPT and TEAMCTL (R368, R375, R380) -/

/-- A launch that a packet names: it exists and has not ended. -/
def namedLaunch (s : State) (ctx grid : Nat) : Option Launch :=
  match s.launches.get? (launchKey ctx grid) with
  | some l => if s.ctxs.has ctx && grid < 2 ^ 32 && !l.done then some l else none
  | none => none

/-- The teams of a launch. -/
def teamsOf (s : State) (ctx grid : Nat) : List (Nat × Team) :=
  s.teams.filter fun e => e.2.id.ctx == ctx && e.2.id.grid == grid

/-- PREEMPT: the teams of the named fields, or those of a launch that run in them. -/
def execPreempt (q : Nat) (s : State) : Out :=
  runCommand "PREEMPT" 0x13 q s fun _ p =>
    let by' := bit (flagsOf p) 0
    let mask := leNum p 2 1
    let grid := leNum p 4 4
    let ctx := leNum p 8 2
    if !onlyUses p [(0, 3), (4, 9)] || 1 < flagsOf p || 3 < leNum p 3 1 || (!by' && (grid ≠ 0 || ctx ≠ 0)) then .fail 1
    else if by' && (namedLaunch s ctx grid).isNone then .fail 3
    else
      let ts := s.teams.filter fun e =>
        bit mask (fieldOfTeam s e.2) && (!by' || (e.2.id.ctx == ctx && e.2.id.grid == grid))
      .accept (ts.foldl (fun s e => preemptTeam s e.1 (leNum p 3 1) false) s)

/-- A team of a destroyed launch released: what it has stored leaves for home, and nothing else of it stays. Gives the
requests that its launch waits for. -/
def destroyTeam (s : State) (t : Nat) (team : Team) : List Nat × State :=
  let mine := reqsWhere s fun r => r.kind != .read && match r.who with
    | .access a _ => (s.accs.get? a).any fun x => x.team == t
    | _ => false
  let (wbs, s) := leaveWrites s t team
  let s := forgetTeam s t
  (mine ++ wbs, if team.isSaved then { s with teams := s.teams.del t } else removeTeam s t team)

/-- A launch ended by the driver (R355, R380). -/
def destroyLaunch (s : State) (ctx grid : Nat) : State :=
  let key := launchKey ctx grid
  let x := (teamsOf s ctx grid).foldl (fun (x : List Nat × State) e =>
    let y := destroyTeam x.2 e.1 e.2
    (x.1 ++ y.1, y.2)) ([], s)
  let s := x.2
  endLaunch { s with launches := s.launches.upd key fun l => { l with destroyed := true, todo := [], wbs := l.wbs ++ x.1 } } key

/-- The code with which a TEAMCTL packet fails, if it does. -/
def teamctlCode (s : State) (p : List Byte) : Option Nat :=
  if !onlyUses p [(0, 7)] then some 1
  else if (namedLaunch s (leNum p 2 2) (leNum p 4 4)).isNone then some 3
  else none

/-- TEAMCTL with DESTROY. -/
def execTeamctlDestroy (q : Nat) (s : State) : Out :=
  runPacket "TEAMCTL_DESTROY" (fun p => opcodeOf p == 0x14 && flagsOf p == 0) true q s fun _ p =>
    match teamctlCode s p with
    | some c => .fail c
    | none => .accept (destroyLaunch s (leNum p 2 2) (leNum p 4 4))

/-- TEAMCTL with RESUME: the launch's halted teams are released. -/
def execTeamctlResume (q : Nat) (s : State) : Out :=
  runPacket "TEAMCTL_RESUME" (fun p => opcodeOf p == 0x14 && flagsOf p == 1) true q s fun _ p =>
    match teamctlCode s p with
    | some c => .fail c
    | none => .accept ((teamsOf s (leNum p 2 2) (leNum p 4 4)).foldl (fun s e => resumeTeam s e.1) s)

/-! ## FAULTREPLY and FAULTRING (R372, R373, R430) -/

/-- The fault whose TOKEN is live. -/
def faultOfToken (s : State) (token : Nat) : Option (Nat × FaultRec) := s.faults.find? fun e => e.2.token == some token

def faultReply (name : String) (outcome q : Nat) (s : State) (f : State → Nat → FaultRec → State) : Out :=
  runPacket name (fun p => opcodeOf p == 0x15 && flagsOf p == outcome) true q s fun _ p =>
    if !onlyUses p [(0, 3)] then .fail 1
    else
      match faultOfToken s (leNum p 2 2) with
      | none => .fail 3
      | some x => .accept (f s x.1 x.2)

/-- FAULTREPLY with OUTCOME retry. -/
def execFaultreplyRetry (q : Nat) (s : State) : Out := faultReply "FAULTREPLY_RETRY" 0 q s retryFault

/-- A fault failed; where its team is saved, the stop records in its slot follow (R373, R379). -/
def failRecorded (s : State) (id : Nat) (f : FaultRec) : State :=
  let s' := failFault s id f
  match s.teams.get? f.team, s'.teams.get? f.team with
  | some old, some new => moveRecords s' old new
  | _, _ => s'

/-- FAULTREPLY with OUTCOME fail. -/
def execFaultreplyFail (q : Nat) (s : State) : Out := faultReply "FAULTREPLY_FAIL" 1 q s failRecorded

/-- FAULTRING: the ring installed; the held records are written into it. -/
def execFaultring (q : Nat) (s : State) : Out :=
  runCommand "FAULTRING" 0x16 q s fun _ p =>
    let r : FaultRing := { log2n := flagsOf p, ring := leNum p 8 8, widx := leNum p 16 8, ridx := leNum p 32 8, vector := leNum p 24 2 }
    if !onlyUses p [(0, 1), (8, 25), (32, 39)] || r.log2n < 4 || 12 < r.log2n || 2047 < r.vector then .fail 1
    else if r.ring % 128 ≠ 0 || r.widx % 8 ≠ 0 || r.ridx % 8 ≠ 0 || !inHbmOrHost r.ring || !inHbmOrHost r.widx || !inHbmOrHost r.ridx then
      .fail 6
    else
      match (s.ring.map fun old => (paTake s old.ridx 8).map fun b => leNum b 0 8).getD (some s.faultCount) with
      | none => .stay
      | some n =>
        if n ≠ s.faultCount then .fail 7
        else .accept (drainFaults { paWrite s r.widx (bytesOf 8 s.faultCount) with ring := some r })

/-! ## Keys, ways and scrubbing (R396 to R399) -/

/-- KEYAREA. -/
def execKeyarea (q : Nat) (s : State) : Out :=
  runCommand "KEYAREA" 0x17 q s fun _ p =>
    let a := leNum p 8 8
    if !onlyUses p [(0, 0), (8, 15)] then .fail 1
    else if a % 4096 ≠ 0 || targetOf a != .host || targetOf (a + 0x1FFFF) != .host then .fail 6
    else if !s.keys.parked.isEmpty then .fail 7
    else .accept { s with keys := { s.keys with area := some a } }

/-- PROTWAYS: the lines of the ways that it removes are written back, sealed at home, and gone; so are the ordinary contexts' lines in
the ways that it adds, which no other context may hit (R396). -/
def execProtways (q : Nat) (s : State) : Out :=
  runCommand "PROTWAYS" 0x18 q s fun _ p =>
    let d := leNum p 2 1
    let n := leNum p 3 1
    if !onlyUses p [(0, 0), (2, 3)] || 3 < d || 8 < n then .fail 1
    else
      let old := (s.die d).protWays
      let gone := (s.die d).l2.lines.filter fun e => 16 - max old n ≤ e.2.way && e.2.way < 16 - min old n
      let s := gone.foldl (fun s e => evictL2Line s d e.1) s
      .command (s.setDie d { s.die d with protWays := n })
        (reqsWhere s fun r => r.die == d && r.who == .writeback && r.kind == .write && (s.ctx r.ctx).prot)

/-- Zero bytes and zero metadata in every sector of a range of HBM. -/
def scrub (s : State) (base len : Nat) : State :=
  let hit (k : Nat) : Bool := base ≤ 64 * k && 64 * k < base + len
  let s := { s with
    store := { s.store with pa := s.store.pa.zero base len }
    dies := s.dies.mapVals fun _ d => d.setMsc (d.msc.filter fun e => !hit e.1)
    keys := { s.keys with seals := s.keys.seals.filter fun e => !hit e.1 } }
  clearPoison s hit

/-- SCRUB. -/
def execScrub (q : Nat) (s : State) : Out :=
  runCommand "SCRUB" 0x19 q s fun _ p =>
    let base := leNum p 8 8
    let len := leNum p 16 8
    if !onlyUses p [(0, 0), (8, 23)] || len % 65536 ≠ 0 then .fail 1
    else if base % 65536 ≠ 0 || targetOf base != .hbm || 0x8000000000 < base + len then .fail 6
    else .command (scrub s base len) []

/-! ## ATTEST and TRACEKEY (R399, R400) -/

/-- The feature vector (R327). -/
def features (s : State) : Nat :=
  let some' (l : Bool) : Bool := (List.range 128).any fun c => isLCore c == l && !(s.core c).fenced
  0x3FF + (if some' true then 2 ^ 10 else 0) + (if some' false then 2 ^ 11 else 0)

/-- n bytes of what a signature or a key gives. -/
def exactly (n : Nat) (b : List Byte) : List Byte := (List.range n).map fun i => b.getD i 0

/-- A protected context's key record, as the firmware reads it: seated, or opened where it is parked (DESIGN CHOICE, log entry 77). -/
def keyRecord (s : State) (ctx : Nat) : Option KeyRec :=
  match keyOf s ctx with
  | some k => some k
  | none => openRecord s ctx

/-- The private half of a context's report key. -/
def KeyRec.reportKey (k : KeyRec) : List Byte := bytesOf 32 k.report.toNat

/-- The first 256 bytes of a report. -/
def reportBody (s : State) (ctx : Nat) (k : KeyRec) (nonce : List Byte) : List Byte :=
  bytesOf 2 1 ++ bytesOf 2 ctx ++ bytesOf 4 k.gen ++ bytesOf 48 s.boot.digest.toNat ++ bytesOf 4 s.boot.ucode.toNat ++
    bytesOf 4 s.boot.fuse ++ nonce ++ exactly 32 (Crypto.x25519Public k.reportKey) ++ bytesOf 16 (features s) ++ bytesOf 112 0

/-- The 3,629 bytes of a report, signed with the running image's alias keys (R400, R419), with the random bytes of the n-th free
value. -/
def report (s : State) (ctx : Nat) (k : KeyRec) (nonce : List Byte) (n : Nat) : List Byte :=
  let b := reportBody s ctx k nonce
  b ++ exactly 64 (Crypto.edSign (Crypto.aliasEdSeed s.boot.digest s.boot.rollback) b) ++
    exactly 3309 (Crypto.mlSign (Crypto.aliasMlSeed s.boot.digest s.boot.rollback) (bytesOf 32 (Config.mlRandom n).toNat) b)

/-- ATTEST: the report is stored at the buffer. -/
def execAttest (q : Nat) (s : State) : Out :=
  runCommand "ATTEST" 0x1A q s fun _ p =>
    let ctx := leNum p 2 2
    let a := leNum p 8 8
    if !onlyUses p [(0, 0), (2, 3), (8, 15), (16, 47)] then .fail 1
    else if !(s.ctxs.has ctx && (s.ctx ctx).prot) then .fail 3
    else if a % 4096 ≠ 0 then .fail 6
    else
      match keyRecord s ctx with
      | none => .stay
      | some k =>
        let (n, s) := s.draw
        .accept (vaWrite s 0 ctx a (report s ctx k ((p.drop 16).take 32) n))

/-- TRACEKEY: the message, sealed to the context's report key, opens to the context's trace key. -/
def execTracekey (q : Nat) (s : State) : Out :=
  runCommand "TRACEKEY" 0x1B q s fun _ p =>
    let ctx := leNum p 2 2
    if !onlyUses p [(0, 0), (2, 3), (8, 15)] then .fail 1
    else if !(s.ctxs.has ctx && (s.ctx ctx).prot) then .fail 3
    else
      match vaRead s 0 ctx (leNum p 8 8) 80, keyRecord s ctx with
      | some m, some k =>
        match Crypto.hpkeOpen k.reportKey m with
        | none => .fail 10
        | some key => .accept { s with live := s.live.put ctx { s.ctxLive ctx with traceKey := some (exactly 32 key) } }
      | _, _ => .stay

end Sys2Proof.Machine
end

