-- ==== Sys2Proof/Machine/HostIf.lean ====
section
/-! DEFINITION. The host's side: inbound windows (R346, R347), the writes of the host interface block (R348) and of the other
registers that a driver writes (R413, R414, R423), and the state of the Culvert links and CXL ports (R347, R363). -/

namespace Sys2Proof.Machine

/-! ## Windows (R346, R347) -/

def Window.ctx (w : Window) : Nat := bits w.toNat 127 112
/-- The target address of offset 0: bits 63:16 from TARGET. -/
def Window.target (w : Window) : Nat := 65536 * bits w.toNat 111 64
/-- The window's length in bytes. -/
def Window.size (w : Window) : Nat := 65536 * bits w.toNat 43 24
def Window.phys (w : Window) : Bool := w.getLsbD 2
def Window.wr (w : Window) : Bool := w.getLsbD 1
def Window.rd (w : Window) : Bool := w.getLsbD 0

/-- Whether a window refuses an access at once: beyond SIZE, of a forbidden kind, of a protected or absent context, or
outside the global addresses that the system space reaches (R74). -/
def windowRefuses (s : State) (w : Window) (off len : Nat) (wr : Bool) : Bool :=
  w.size < off + len || !(if wr then w.wr else w.rd) ||
    (!w.phys && (!s.ctxs.has w.ctx || (s.ctx w.ctx).prot || synonymBase < w.target + off + len))

/-- The request of a host access: at system scope in the system space, stamped by the link's die. It is of no field (log entry 57). -/
def hostReq (w : Window) (link off len : Nat) (wr : Bool) (data : List Byte) : Req :=
  let va := w.target + off
  { Req.blank with
    die := link, core := 32 * link, ctx := if w.phys then 0xFFFF else w.ctx, who := .host, field := noField, kind := if wr then .write else .read, va,
    phys := w.phys, mask := byteMask (va % 64) len, data := BitVec.ofNat 512 (ofBytes data * 2 ^ (8 * (va % 64))), e := BitVec.ofNat 32 len,
    sys := true, stamped := true }

/-- HOST_WINDOW_ACCESS: an access within one sector through a link that is up. -/
def execHostWindowAccess (link win off len : Nat) (wr : Bool) (data : List Byte) (s : State) : Out :=
  let w := s.hg.windows.getD (16 * link + win) 0
  let r := hostReq w link off len wr data
  if !s.boot.powered || 2 ≤ link || 16 ≤ win || 2 ^ 36 ≤ off || len = 0 || 64 < r.va % 64 + len || (wr && data.length ≠ len) ||
      !(s.die link).portUp then
    idle "HOST_WINDOW_ACCESS"
  else if windowRefuses s w off len wr then .next (completeHost s r true 0)
  else .next (newReq s r).2

/-! ## Registers (R348) -/

/-- EN cleared: what the orphan latches hold becomes PENDING, every slot is unmapped, and each queue's state goes into
DEVSTATE. -/
def disableQueues (s : State) (v : Dword) : State :=
  let s := s.hg.orphans.foldl (fun s e => setPending s e.2.1) s
  let s := s.hg.slots.keys.foldl unmapSlot s
  { s with hg := { s.hg with orphans := [], qtbase := v } }

/-- QTBASE_WRITE: while EN is 1 only a write that clears EN counts. -/
def execQtbaseWrite (v : Dword) (s : State) : Out :=
  let v := v &&& 0x000FFFFFFFFF0001
  if !barOpen s then idle "QTBASE_WRITE"
  else if !s.hg.en then .next { s with hg := { s.hg with qtbase := v } }
  else if v.getLsbD 0 then .next s
  else .next (disableQueues s v)

/-- The home of half h of the CXL range under a value of CXLDEC. -/
def halfHome (c h : Nat) : Nat := if c = 1 then 2 else if c = 2 then 3 else 2 + h

/-- Whether requests already sent to a half whose home changes are all performed. -/
def cxlQuiet (s : State) (c : Nat) : Bool :=
  !(s.reqs.any fun e => e.2.stage == .sent && targetOf e.2.pa == .cxl &&
    (let h := if bit e.2.pa 42 then 1 else 0; halfHome s.hg.cxldec h != halfHome c h))

/-- CXLDEC_WRITE: it takes effect after the requests already sent to the affected half; 3 is ignored. -/
def execCxldecWrite (v : Dword) (s : State) : Out :=
  let c := v.toNat % 4
  if !barOpen s then idle "CXLDEC_WRITE"
  else if c = 3 then .next s
  else if cxlQuiet s c then .next { s with hg := { s.hg with cxldec := c } }
  else idle "CXLDEC_WRITE"

/-- Half h of a window register written; reserved bits read 0. -/
def writeWindow (s : State) (k h : Nat) (v : Dword) : State :=
  let w := s.hg.windows.getD k 0
  let w : Window := if h = 1 then v ++ w.extractLsb' 0 64 else w.extractLsb' 64 64 ++ (v &&& 0x00000FFFFF000007)
  { s with hg := { s.hg with windows := s.hg.windows.put k w } }

/-- A register of a core's block written (R413). -/
def writeCoreReg (s : State) (core off : Nat) (v : Dword) : State :=
  let x := v.toNat % 2 ^ 32
  if off = 0x008 then s.setCore core { s.core core with llHigh := x }
  else if off = 0x00C then s.setCore core { s.core core with llLow := x }
  else s

/-- What a plain write to a BAR0 offset leaves: the window registers, QTLEN while EN is 0, IMGADDR in STATE 1 or 4,
LL_HIGH, LL_LOW and HEALTHVEC; a write to a read-only field, or to no field, is ignored. -/
def writeRegister (s : State) (off : Nat) (v : Dword) : State :=
  if 0x010000 ≤ off && off < 0x010200 && off % 8 = 0 then writeWindow s ((off - 0x010000) / 16) (off / 8 % 2) v
  else if off = 0x010208 then if s.hg.en then s else { s with hg := { s.hg with qtlen := (lowWord v) &&& 0x7FF } }
  else if off = 0x000008 then
    if s.boot.st = 1 || s.boot.st = 4 then { s with boot := { s.boot with img := v } } else s
  else if off = 0x4FF014 then { s with health := { s.health with vec := lowWord v &&& 0x800007FF } }
  else if 0x400000 ≤ off && off < 0x480000 then writeCoreReg s ((off - 0x400000) / 0x1000) (off % 0x1000) v
  else s

/-- Whether an offset is that of a register whose write is a step of its own. -/
def ownWrite (off : Nat) : Bool :=
  off == 0x010200 || off == 0x010210 || off == 0x000010 || off == 0x000018 || (0x100000 ≤ off && off < 0x110000)

/-- REGISTER_WRITE. -/
def execRegisterWrite (off : Nat) (v : Dword) (s : State) : Out :=
  if !barOpen s || ownWrite off then idle "REGISTER_WRITE" else .next (writeRegister s off v)

/-! ## Links and ports (R347, R363) -/

/-- CULVERT_LINK_STATE_CHANGE: link L is that of die L. -/
def execCulvertLinkStateChange (link : Nat) (up : Bool) (s : State) : Out :=
  if !s.boot.powered || 2 ≤ link then idle "CULVERT_LINK_STATE_CHANGE"
  else .next (s.setDie link { s.die link with portUp := up })

/-- CXL_PORT_STATE_CHANGE: port 0 is die 2's, port 1 die 3's. -/
def execCxlPortStateChange (port : Nat) (up : Bool) (s : State) : Out :=
  if !s.boot.powered || 2 ≤ port then idle "CXL_PORT_STATE_CHANGE"
  else .next (s.setDie (2 + port) { s.die (2 + port) with portUp := up })

end Sys2Proof.Machine
end

