-- ==== Sys2Proof/Machine/Boot.lean ====
section
/-! DEFINITION. The boot ROM (R414 to R418) and the resets (R402, R420). -/

namespace Sys2Proof.Machine

/-! ## The image (R415 to R417) -/

/-- Whether n bytes of the image, from an offset, can be read: a Culvert link is up and they lie in host memory, the image
aligned. -/
def bootReadable (s : State) (at' n : Nat) : Bool :=
  let a := s.boot.img.toNat
  barOpen s && a % 4096 == 0 && targetOf (a + at') == .host && targetOf (a + at' + n - 1) == .host

/-- The ROM reads the image as far as its first n bytes, each byte once; a read that fails ends it (R416, R417). -/
def bootReadTo (s : State) (n : Nat) : State :=
  let k := s.boot.copy.length
  if n ≤ k || s.boot.readError then s
  else if bootReadable s k (n - k) then
    { s with boot := { s.boot with copy := s.boot.copy ++ paRead s (s.boot.img.toNat + k) (n - k) } }
  else { s with boot := { s.boot with readError := true } }

/-- A digest: SHA-384 of some bytes. -/
def sha384 (b : List Byte) : BitVec 384 := BitVec.ofNat 384 (ofBytes (Crypto.sha384 b))

/-- The first n bytes of the image as they have been read. -/
def Boot.part (b : Boot) (at' n : Nat) : List Byte := (b.copy.drop at').take n

/-- BODYLEN and ROLLBACK of the image. -/
def Boot.bodyLen (b : Boot) : Nat := leNum (b.part 20 4) 0 4
def Boot.level (b : Boot) : Nat := leNum (b.part 8 4) 0 4

/-- The checks of R417 on the header, in their order: 0 where all pass. -/
def headerCode (b : Boot) : Nat :=
  let h := b.part 0 6144
  let len := b.bodyLen
  if b.copy.length < 6144 then 1
  else if leNum h 0 4 ≠ 0x31464D53 || leNum h 4 4 ≠ 1 || 255 < b.level || leNum h 72 56 ≠ 0 || leNum h 5485 659 ≠ 0 ||
      len % 64 ≠ 0 || len < 64 || 2 ^ 26 < len then 2
  else if sha384 (b.part 128 32) ≠ Config.fusedEdHash || sha384 (b.part 160 1952) ≠ Config.fusedMlHash then 3
  else if !Crypto.edVerify (b.part 128 32) (b.part 0 128) (b.part 2112 64) then 4
  else if !Crypto.mlVerify (b.part 160 1952) (b.part 0 128) (b.part 2176 3309) then 5
  else 0

/-- The checks of R417 on the body and on the rollback level. -/
def bodyCode (b : Boot) : Nat :=
  if b.copy.length < 6144 + b.bodyLen then 1
  else if sha384 (b.part 6144 b.bodyLen) ≠ BitVec.ofNat 384 (leNum (b.part 24 48) 0 48) then 6
  else if b.level < b.fuse then 7
  else 0

/-- The image read to its end, or as far as its header's checks let it be, with the code of the first failing check. -/
def loadImage (s : State) : Nat × State :=
  let s := bootReadTo s 6144
  match headerCode s.boot with
  | 0 =>
    let s := bootReadTo s (6144 + s.boot.bodyLen)
    (bodyCode s.boot, s)
  | code => (code, s)

/-- The image starts: FUSECNT is raised first, then the per-boot key is drawn (R418). -/
def startImage (s : State) : State :=
  let b := s.boot
  let (k, s) := s.draw
  { s with
    keys := { s.keys with perBoot := Config.freeKey (4 * k) }
    boot := { b with
      st := 3, code := 0, rnd := k, fwver := BitVec.ofNat 32 (leNum (b.part 16 4) 0 4), ucode := BitVec.ofNat 32 (leNum (b.part 12 4) 0 4)
      fuse := max b.fuse b.level, rollback := b.level, digest := sha384 (b.part 0 (6144 + b.bodyLen)) } }

/-- The ROM reads n bytes more of the image while it loads (R416). -/
def bootRead (s : State) (n : Nat) : Out :=
  if s.boot.st = 2 then .next (bootReadTo s (s.boot.copy.length + n)) else idle "BOOT_READ"

/-- A read of the image completes with an error (R417). -/
def bootError (s : State) : Out :=
  if s.boot.st = 2 then .next { s with boot := { s.boot with readError := true } } else idle "BOOT_ERROR"

/-- GO: a write of 1 in STATE 1 or 4 starts a load; any other is ignored. -/
def execGo (v : Word) (s : State) : Out :=
  if !barOpen s then idle "GO"
  else if v = 1 && (s.boot.st = 1 || s.boot.st = 4) then
    .next { s with boot := { s.boot with st := 2, code := 0, copy := [], readError := false } }
  else .next s

/-- BOOT_LOAD_COMPLETE: what is left of the image is read, and every check is made. -/
def execBootLoadComplete (s : State) : Out :=
  if s.boot.st ≠ 2 then idle "BOOT_LOAD_COMPLETE"
  else
    match loadImage s with
    | (0, s) => .next (startImage s)
    | (code, s) => .next { s with boot := { s.boot with st := 4, code } }

/-! ## ENDORSE (R419) -/

/-- The bytes of ENDORSE that the root keys sign. -/
def endorsed (b : Boot) : List Byte :=
  bytesOf 4 1 ++ bytesOf 4 b.rollback ++ bytesOf 48 b.digest.toNat ++ List.replicate 8 0 ++
    exactly 32 (Crypto.edPublic Crypto.rootEdSeed) ++ exactly 1952 Crypto.rootMlKey ++
    exactly 32 (Crypto.edPublic (Crypto.aliasEdSeed b.digest b.rollback)) ++ exactly 1952 (Crypto.aliasMlKey b.digest b.rollback) ++
    List.replicate 64 0

/-- ENDORSE, which the ROM places when an image starts; before that it reads zero (log entry 76). -/
def endorse (b : Boot) : List Byte :=
  if b.st = 3 then
    endorsed b ++ exactly 64 (Crypto.edSign Crypto.rootEdSeed (endorsed b)) ++
      exactly 3309 (Crypto.mlSign Crypto.rootMlSeed (bytesOf 32 (Config.mlRandom b.rnd).toNat) (endorsed b)) ++ List.replicate 723 0
  else List.replicate 8192 0

/-! ## Resets (R402, R420) -/

/-- FUSECNT after a reset or a loss of power: while an image is being loaded, some of the fuses may have been blown
already. -/
def fusesLeft (s : State) : Nat × State :=
  let (code, x) := loadImage s
  if s.boot.st = 2 && code = 0 then
    let (k, s) := s.draw
    (s.boot.fuse + Config.freeNat k % (x.boot.level - s.boot.fuse + 1), s)
  else (s.boot.fuse, s)

/-- The host's own memory, which no reset of the device touches. -/
def hostMemory (s : State) : Memory := s.store.pa.filter fun c => targetOf c.1 == .host

/-- The device with everything lost: nothing of it is left but FUSECNT and its defective lanes. The model's own counters and script go
on, and what the host has been told stays told. -/
def wipeDevice (s : State) : State :=
  let (fuse, s) := fusesLeft s
  { State.reset with
    store := { State.reset.store with pa := hostMemory s }
    boot := { Boot.reset with fuse }, health := { Health.reset with faulty := s.health.faulty }
    irqs := s.irqs, completions := s.completions, nextId := s.nextId, free := s.free, agenda := s.agenda }

/-- The device after a reset: its self-test has found the defective lanes again (R420, R422). -/
def resetDevice (s : State) : State := selfTest (wipeDevice s)

/-- The device without power. -/
def losePower (s : State) : State :=
  let s := wipeDevice s
  { s with boot := { s.boot with st := 0, powered := false } }

/-- RESETREQ: the key value resets the device; any other is ignored. -/
def execResetreq (v : Word) (s : State) : Out :=
  if !barOpen s then idle "RESETREQ" else if v = 0xD0E5 then .next (resetDevice s) else .next s

/-- POWER_ON_RESET: power is applied. -/
def execPowerOnReset (s : State) : Out := if s.boot.powered then idle "POWER_ON_RESET" else .next (resetDevice s)

/-- DEVICE_RESET: a link reset, or a fatal error of the firmware. -/
def execDeviceReset (s : State) : Out := if s.boot.powered then .next (resetDevice s) else idle "DEVICE_RESET"

/-- POWER_LOSS. -/
def execPowerLoss (s : State) : Out := if s.boot.powered then .next (losePower s) else idle "POWER_LOSS"

/-- COOLANT_FAULT: the board controller removes power (R427). -/
def execCoolantFault (s : State) : Out := if s.boot.powered then .next (losePower s) else idle "COOLANT_FAULT"

end Sys2Proof.Machine
end

