-- ==== Sys2Proof/Machine/Bar.lean ====
section
/-! DEFINITION. What the host reads in BAR0: the boot block (R414), the host interface block (R348), the links' counters (R391), the
cores' blocks and the device block (R413, R423). -/

namespace Sys2Proof.Machine

/-- The low or the high word of a register of two words. -/
def halfOf (v : Dword) (high : Bool) : Word := if high then highWord v else lowWord v

/-- A word of the boot block. -/
def bootWord (s : State) (off : Nat) : Word :=
  let b := s.boot
  if off = 0x000 then BitVec.ofNat 32 (b.st + 256 * b.code)
  else if off = 0x008 then halfOf b.img false
  else if off = 0x00C then halfOf b.img true
  else if off = 0x020 then b.fwver
  else if off = 0x024 then b.ucode
  else if off = 0x028 then BitVec.ofNat 32 b.fuse
  else if 0x1000 ≤ off && off < 0x3000 then BitVec.ofNat 32 (leNum (endorse b) (off - 0x1000) 4)
  else 0

/-- A word of the host interface block. -/
def hostWord (s : State) (off : Nat) : Word :=
  if off < 0x200 then (s.hg.windows.getD (off / 16) 0).extractLsb' (8 * (off % 16)) 32
  else if off = 0x200 then halfOf s.hg.qtbase false
  else if off = 0x204 then halfOf s.hg.qtbase true
  else if off = 0x208 then s.hg.qtlen
  else if off = 0x210 then BitVec.ofNat 32 s.hg.cxldec
  else 0

/-- A counter of a link's direction. -/
def linkWord (x : Link) (off : Nat) : Word :=
  if off = 0x000 then x.flitsTx
  else if off = 0x004 then x.resent
  else if off = 0x008 then x.naksRx
  else if off = 0x00C then x.dups
  else if off = 0x010 then x.timeouts
  else if 0x100 ≤ off && off < 0x300 then
    let m := x.module ((off - 0x100) / 0x20)
    match (off - 0x100) % 0x20 with
    | 0x0 => m.crcLo
    | 0x4 => m.crcHi
    | 0x8 => m.retrains
    | 0xC => BitVec.ofNat 32 m.st
    | _ => 0
  else 0

/-- SCORE of resident place k of a slice: VALID, the group's number and its score (R46, R413). -/
def scoreWord (s : State) (core slice k : Nat) : Word :=
  match (s.slice core slice).places.get? k with
  | none => 0
  | some x =>
    let score := (((s.teams.get? x.1).bind fun team => team.groups.get? x.2).map (·.score)).getD 0
    BitVec.ofNat 32 (2 ^ 31 + 2 ^ 16 * (x.2 % 32) + score % 2 ^ 16)

/-- A word of a core's block. -/
def coreWord (s : State) (core off : Nat) : Word :=
  let c := s.core core
  if off = 0x000 then BitVec.ofNat 32 c.llSum
  else if off = 0x004 then BitVec.ofNat 32 c.llCap
  else if off = 0x008 then BitVec.ofNat 32 c.llHigh
  else if off = 0x00C then BitVec.ofNat 32 c.llLow
  else if off = 0x010 then c.staleDrop
  else if off = 0x014 then c.sealedDrop
  else if off = 0x018 then c.samples
  else if off = 0x01C then c.sampleSkip
  else if 0x100 ≤ off && off < 0x100 + 64 * coreSlices core then scoreWord s core ((off - 0x100) / 64) ((off - 0x100) / 4 % 16)
  else 0

/-- A word of BAR0, at a multiple of 4. Write-only registers and offsets that no table names read zero (log entry 76). -/
def barWord (s : State) (off : Nat) : Word :=
  if off < 0x4000 then bootWord s off
  else if 0x10000 ≤ off && off < 0x11000 then hostWord s (off - 0x10000)
  else if 0x300000 ≤ off && off < 0x308000 then linkWord (s.link ((off - 0x300000) / 0x1000)) (off % 0x1000)
  else if 0x400000 ≤ off && off < 0x480000 then coreWord s ((off - 0x400000) / 0x1000) (off % 0x1000)
  else if off = 0x4FF000 then s.trace.drop
  else if off = 0x4FF010 then s.health.word
  else if off = 0x4FF014 then s.health.vec
  else 0

/-- Some bytes of BAR0. -/
def barBytes (s : State) (off n : Nat) : List Byte :=
  (List.range n).map fun i => (barWord s ((off + i) / 4 * 4)).extractLsb' (8 * ((off + i) % 4)) 8

/-- The host reads BAR0 through a link that is up. -/
def barRead (s : State) (off n : Nat) : Out :=
  if barOpen s then .next { s with completions := (false, barBytes s off n) :: s.completions } else idle "BAR_READ"

end Sys2Proof.Machine
end

