-- ==== Sys2Proof/Machine/Debug.lean ====
section
/-! DEFINITION. The debugger's packets (R404 to R408), trace control (R409), and the end of the commands that take time
(R368, R369). -/

namespace Sys2Proof.Machine

/-! ## What a debug packet names (R404) -/

/-- A debug packet of an OP. -/
def runDebug (name : String) (op q : Nat) (s : State) (f : QEnt → List Byte → Verdict) : Out :=
  runPacket name (fun p => opcodeOf p == 0x1C && flagsOf p == op) true q s f

/-- The group that a packet names: a live group of a resident or saved team. -/
def debugGroup (s : State) (p : List Byte) : Option (Nat × Team × Nat × Group) :=
  match (teamsOf s (leNum p 2 2) (leNum p 4 4)).find? fun e => e.2.id.num == leNum p 8 4 with
  | none => none
  | some e =>
    match e.2.groups.get? (leNum p 12 1) with
    | some grp => if grp.ended then none else some (e.1, e.2, leNum p 12 1, grp)
    | none => none

/-- Whether the bytes of a packet and its PATH are in range. -/
def badDebug (p : List Byte) : Bool :=
  !onlyUses p [(0, 14), (16, 31)] || (7 < leNum p 13 1 && leNum p 13 1 ≠ 0xFF)

/-- The code with which a packet's context fails, if it does. -/
def debugCtx (s : State) (p : List Byte) : Option Nat :=
  if badDebug p then some 1
  else if !s.ctxs.has (leNum p 2 2) then some 3
  else if !(s.ctx (leNum p 2 2)).debug then some 11
  else none

/-- A packet that names a group: its context is checked, then the group. -/
def withGroup (s : State) (p : List Byte) (f : Nat → Team → Nat → Group → Verdict) : Verdict :=
  match debugCtx s p with
  | some c => .fail c
  | none =>
    match debugGroup s p with
    | none => .fail 1
    | some (t, team, g, grp) => f t team g grp

/-- Whether a path is one that PATH names. -/
def namesPath (p : List Byte) (k : Nat) : Bool := leNum p 13 1 == 0xFF || leNum p 13 1 == k

/-! ## Comparators (R405) -/

/-- A filter: none for its "any". -/
def filterOf (x any : Nat) : Option Nat := if x = any then none else some x

/-- Whether GRID, TEAM and GROUP of a comparator name something: with a filter that is not its "any", a launch of the context that has
not ended, with such a team and such a group (R404). -/
def namesGroups (s : State) (ctx grid team group : Nat) : Bool :=
  (grid == 0 && team == 0xFFFFFFFF && group == 0xFF) ||
    s.launches.any fun e => e.2.ctx == ctx && !e.2.done && (grid == 0 || e.2.grid == grid) &&
      (team == 0xFFFFFFFF || decide (team < e.2.total)) && (group == 0xFF || decide (group < e.2.roles.length))

/-- DBGCTL BPSET. -/
def execDbgctlBpset (q : Nat) (s : State) : Out :=
  runDebug "DBGCTL_BPSET" 0 q s fun _ p =>
    let ctx := leNum p 2 2
    let grid := leNum p 4 4
    let team := leNum p 8 4
    match debugCtx s p with
    | some c => .fail c
    | none =>
      if 7 < leNum p 14 1 || (31 < leNum p 12 1 && leNum p 12 1 ≠ 0xFF) then .fail 1
      else if !namesGroups s ctx grid team (leNum p 12 1) then .fail 1
      else if leNum p 16 8 % 4 ≠ 0 then .fail 6
      else
        let x : Comparator := { addr := BitVec.ofNat 64 (leNum p 16 8), grid := filterOf grid 0, team := filterOf team 0xFFFFFFFF,
                                group := filterOf (leNum p 12 1) 0xFF, path := filterOf (leNum p 13 1) 0xFF }
        let live := s.ctxLive ctx
        let bps := if x.addr = 0 then live.bps.del (leNum p 14 1) else live.bps.put (leNum p 14 1) x
        .accept { s with live := s.live.put ctx { live with bps } }

/-! ## STOP, RESUME and STEP (R406) -/

/-- Whether a path is in the middle of a step: between a prefix and its instruction, or at a word that has issued and waits. -/
def halfDone (p : Path) : Bool := (p.clause.bind fun c => c.pfx).isSome || p.begun

/-- A runnable or parked path held at its next word; half a step is finished first, and what a waiting path waits for stands: its
arrival, its message, its time-out. A path in STATE 3, and one of a group parked on service, keep their STATE, and are held when the
park ends: mark 65. -/
def holdPath (s : State) (t g : Nat) (grp : Group) (e : Nat × Path) : State :=
  if halfDone e.2 then updPath s t g e.1 fun p => { p with pass := 2 }
  else if e.2.st = 3 || grp.service then updPath s t g e.1 fun p => { p with hold := some (.stopped 65), pass := 0 }
  else pathStop s t g e.1 64

/-- Every runnable or parked path of a group held at its next word. -/
def holdPaths (s : State) (t g : Nat) : State :=
  let s := landAll s t g
  match (s.teams.get? t).bind fun team => team.groups.get? g with
  | none => s
  | some grp => (grp.paths.filter fun e => e.2.st == 0 || e.2.st == 3).foldl (fun s e => holdPath s t g grp e) s

/-- Whether a group's results in flight are all parked on service. -/
def resultsIn (s : State) (t g : Nat) (grp : Group) : Bool :=
  grp.late.isEmpty && (s.accs.all fun e => e.2.team != t || e.2.group != g || e.2.dest == .none || parkedAccess s e.1 e.2) &&
    !flumeResult s t g

/-- Whether a path is runnable: its group is not parked, and it neither waits at a word that has issued nor is held (R50, R406). -/
def Group.runnable (grp : Group) (p : Path) : Bool := p.st == 0 && !grp.park && !grp.service && !p.begun && !p.held

/-- Whether a group is stopped. -/
def groupStopped (s : State) (t : Nat) (team : Team) (g : Nat) (grp : Group) : Bool :=
  team.halted || team.isSaved ||
    ((team.stat == .resident) && (grp.paths.all fun e => !grp.runnable e.2) && resultsIn s t g grp)

/-- DBGCTL STOP. -/
def execDbgctlStop (q : Nat) (s : State) : Out :=
  runDebug "DBGCTL_STOP" 1 q s fun _ p => withGroup s p fun t team g _ =>
    .command (if team.halted || team.isSaved then s else holdPaths s t g) []

/-- The paths of a group that are held and named go on: `pass` is 1 to run on, 2 to stop again after one word. One that is to be held
after the word at which it waits goes on too. -/
def releasePaths (s : State) (t g : Nat) (p : List Byte) (pass : Nat) : State :=
  let go (k : Nat) (x : Path) : Path :=
    if !namesPath p k then x
    else if x.st = 2 || x.held then { x with st := if x.st = 2 then 0 else x.st, hold := none, pass := pass }
    else if x.pass = 2 && pass = 1 then { x with pass := 0 }
    else x
  updGroup s t g fun grp => { grp with paths := grp.paths.mapVals go }

/-- DBGCTL RESUME. -/
def execDbgctlResume (q : Nat) (s : State) : Out :=
  runDebug "DBGCTL_RESUME" 2 q s fun _ p => withGroup s p fun t _ g _ => .accept (releasePaths s t g p 1)

/-- DBGCTL STEP: the queue waits for the step's end. -/
def execDbgctlStep (q : Nat) (s : State) : Out :=
  runDebug "DBGCTL_STEP" 3 q s fun _ p => withGroup s p fun t team g grp =>
    if groupStopped s t team g grp then .command (releasePaths s t g p 2) [] else .fail 7

/-! ## DUMP (R407) -/

/-- A mask of the names for which a condition holds, 16 bytes. -/
def nameMask (f : Nat → Bool) : List Byte := bytesOf 16 ((List.range 128).foldl (fun m v => if f v then m + 2 ^ v else m) 0)

/-- Whether a name is pending: results in flight target its row (R59). -/
def namePending (team : Team) (g v : Nat) : Bool :=
  (((team.mapped g v).bind fun m => team.res.rows.get? m.row).map fun r => decide (0 < r.pend)).getD false

/-- The 256 bytes of a dump's header. -/
def dumpHeader (team : Team) (g : Nat) : List Byte :=
  bytesOf 2 team.id.ctx ++ bytesOf 2 0 ++ bytesOf 4 team.id.grid ++ bytesOf 4 team.id.num ++ bytesOf 1 g ++
    bytesOf 1 (if team.isSaved then 3 else if team.halted then 2 else 1) ++ bytesOf 2 0 ++
    nameMask (fun v => (team.mapped g v).isSome) ++ nameMask (namePending team g) ++ bytesOf 208 0

/-- The 384 bytes of a name's row. -/
def rowBytes (team : Team) (g v : Nat) : List Byte :=
  match team.nameLanes g v with
  | some l => (List.range 96).flatMap fun i => bytesOf 4 (l.getD i 0).toNat
  | none => List.replicate 384 0

/-- The dump's stores: header, stop record, the group's block as a save slot has it, and its rows. -/
def dump (s : State) (a : Nat) (team : Team) (g : Nat) (grp : Group) : State :=
  let s := paWrite s a (dumpHeader team g ++ stopRecord s team grp)
  let s := paWrite s (a + 0x1000) (groupBlock s team grp)
  paWrite s (a + 0x3000) ((List.range 128).flatMap (rowBytes team g))

/-- DBGCTL DUMP. -/
def execDbgctlDump (q : Nat) (s : State) : Out :=
  runDebug "DBGCTL_DUMP" 4 q s fun _ p => withGroup s p fun t team g grp =>
    let a := leNum p 16 8
    if a % 4096 ≠ 0 || !inHbmOrHost a then .fail 6
    else if !groupStopped s t team g grp then .fail 7
    else .accept (dump s a team g grp)

/-! ## WRITE (R408) -/

/-- A row number that no row has: row numbers count up from 0 (R59), and nothing is stored in a row that is not there. -/
def noRow : Nat := 2 ^ 64

/-- The results in flight to a row cancelled: their data is discarded when it returns. -/
def cancelRow (s : State) (t r : Nat) : State :=
  let other (x : Nat) : Nat := if x = r then noRow else x
  let s := { s with accs := s.accs.mapVals fun _ a => if a.team ≠ t then a else match a.dest with
    | .rows lo hi => { a with dest := .rows (other lo) (hi.map other) }
    | _ => a }
  updTeam s t fun team => { team with
    res := { team.res with rows := team.res.rows.upd r fun row => { row with pend := 0 } }
    groups := team.groups.mapVals fun _ g => { g with late := g.late.filter fun l => l.target != .row r }
    fl := { team.fl with ops := team.fl.ops.map fun o => { o with dests := o.dests.map other } } }

/-- Rows of a team's core that hold nothing; a saved team takes none of a core. -/
def freeRows (s : State) (team : Team) : Bool :=
  team.isSaved || ((coreTeams s team.id.core).map fun e => e.2.usedAll).sum < coreRows team.id.core

/-- A name mapped to a fresh row with no pool test; the reservation grows with the team's total. -/
def mapForWrite (s : State) (t g v : Nat) : State :=
  updTeam s t fun team =>
    let team := team.mapFresh g v
    { team with res := { team.res with reserve := max team.res.reserve team.usedAll } }

/-- The selected lanes of a name's row written over whatever is in flight to it. -/
def overwriteName (s : State) (t g v : Nat) (b : List Byte) : State :=
  match (s.teams.get? t).bind fun team => team.mapped g v with
  | none => s
  | some m =>
    let vals : List Word := (List.range 96).map fun i => BitVec.ofNat 32 (leNum b (4 * i) 4)
    updTeam (cancelRow s t m.row) t fun team => team.writeRow m.row vals (BitVec.ofNat 96 (leNum b 384 12))

/-- A scalar written; a mask register of the path that PATH names, or of every live one (R35). -/
def writeScalar (s : State) (t g : Nat) (grp : Group) (p : List Byte) (r : Nat) (v : Word) : State :=
  (grp.paths.keys.filter (namesPath p)).foldl (fun s path => writeS s t g path r v) (if r < 61 then writeS s t g grp.cur r v else s)

/-- DBGCTL WRITE. -/
def execDbgctlWrite (q : Nat) (s : State) : Out :=
  runDebug "DBGCTL_WRITE" 5 q s fun _ p => withGroup s p fun t team g grp =>
    let a := leNum p 24 8
    let i := leNum p 14 1
    if 199 < i then .fail 1
    else if a % 16 ≠ 0 || !inHbmOrHost a then .fail 6
    else if !groupStopped s t team g grp then .fail 7
    else
      match paTake s a (if i < 128 then 396 else if i < 192 then 4 else 12) with
      | none => .stay
      | some b =>
        if i < 128 then
          if (team.mapped g i).isSome then .accept (overwriteName s t g i b)
          else if freeRows s team then .accept (overwriteName (mapForWrite s t g i) t g i b)
          else .fail 7
        else if i < 192 then .accept (writeScalar s t g grp p (i - 128) (BitVec.ofNat 32 (leNum b 0 4)))
        else .accept (writeP s t g (i - 192) (BitVec.ofNat 96 (leNum b 0 12)))

/-! ## TRACECTL (R409) -/

/-- The tags under way and due given up: no record of theirs follows. -/
def dropTags (s : State) : State :=
  { s with cores := s.cores.mapVals fun _ c => { c with slices := c.slices.mapVals fun _ k => { k with tag := none, due := false } } }

/-- TRACECTL: the trace ring and sampling set; ENABLE 0 stops all records. -/
def execTracectl (q : Nat) (s : State) : Out :=
  runCommand "TRACECTL" 0x1D q s fun _ p =>
    let log2n := leNum p 2 1
    let mean := leNum p 3 1
    if !onlyUses p [(0, 25)] || 1 < flagsOf p then .fail 1
    else if flagsOf p = 0 then .accept (dropTags { s with trace := { s.trace with enable := false } })
    else if log2n < 6 || 20 < log2n || (mean ≠ 0 && (mean < 8 || 24 < mean)) || 2047 < leNum p 24 2 then .fail 1
    else if leNum p 8 8 % 4096 ≠ 0 || !inHbmOrHost (leNum p 8 8) || leNum p 16 8 % 8 ≠ 0 || !inHbmOrHost (leNum p 16 8) then .fail 6
    else .accept { s with trace := { s.trace with
      enable := true, log2n, meanlog := mean, kinds := BitVec.ofNat 32 (leNum p 4 4), ring := leNum p 8 8,
      widxPA := leNum p 16 8, vector := leNum p 24 2, widx := 0 } }

/-! ## COMMAND_COMPLETE (R331, R368, R369, R399, R406) -/

/-- Whether a STEP's paths have come to their stops: none of those that it names is under way to it. -/
def stepDone (grp : Group) (p : List Byte) : Bool := grp.paths.all fun e => !(namesPath p e.1 && e.2.pass == 2 && e.2.st != 2)

/-- Whether the effect of a command that has been accepted is complete: the requests that it waits for have been performed, the
group that it stops is stopped, the step that it begins is made. -/
def commandDone (s : State) (p : List Byte) (reqs : List Nat) : Bool :=
  (reqs.all fun id => (s.reqs.get? id).all fun r => r.stage == .replied) &&
    match opcodeOf p with
    | 0x12 => grantDone s (leNum p 2 2) && !grantWaits s p
    | 0x1C => (debugGroup s p).all fun x =>
        groupStopped s x.1 x.2.1 x.2.2.1 x.2.2.2 || (flagsOf p == 3 && stepDone x.2.2.2 p)
    | _ => true

/-- Whether a VAULTGRANT that must wait for another may withdraw its own vaults meanwhile. -/
def mayWithdraw (s : State) (p : List Byte) : Bool :=
  opcodeOf p == 0x12 && grantDone s (leNum p 2 2) && !(grantGone s p).isEmpty

/-- What the completion of a command brings. -/
def commandEnd (s : State) (p : List Byte) : State :=
  match opcodeOf p with
  | 9 => fwdEnd s (leNum p 2 2)
  | 0x12 => grantEnd s p
  | _ => s

/-- COMMAND_COMPLETE: the queue may accept packets again. -/
def execCommandComplete (q : Nat) (s : State) : Out :=
  match (s.queue q).block with
  | some (.command p reqs) =>
    if commandDone s p reqs then .next (updQ (commandEnd s p) q fun u => { u with block := none })
    else if mayWithdraw s p then .next (grantWithdraw s p)
    else idle "COMMAND_COMPLETE"
  | _ => idle "COMMAND_COMPLETE"

end Sys2Proof.Machine
end

