-- ==== Sys2Proof/Machine/Health.lean ====
section
/-! DEFINITION. Errors and poison (R421), RESYNC (R424), and power and heat (R426, R427). -/

namespace Sys2Proof.Machine

/-! ## Errors (R421) -/

/-- ECC_CORRECTED: index 0 or 1. -/
def execEccCorrected (index : Nat) (s : State) : Out :=
  if s.boot.powered && index < 2 then .next (countError s index) else idle "ECC_CORRECTED"

/-- A class-2 error: the sixteenth asks for replacement (R423). -/
def class2 (s : State) : State :=
  let n := s.health.class2 + 1
  let s := countError { s with health := { s.health with class2 := n } } 2
  if 16 ≤ n then raiseHealth s 1 else s

/-- A dirty sector of a table marked poisoned. -/
def poisonDirty (t : Tbl Sect) (key : Nat) : Option (Tbl Sect) :=
  match t.get? key with
  | some c => if c.dirty = 0 then none else some (t.put key { c with bad := true })
  | none => none

/-- SECTOR_POISON: kind 0, the sector behind its home at physical address x; kind 1, a vault's at window offset x; kind 2,
the dirty sector with key x in the L2 of die `unit`; kind 3, the dirty sector with key x in the L1 of core `unit`. -/
def execSectorPoison (kind unit x : Nat) (s : State) : Out :=
  if !s.boot.powered then idle "SECTOR_POISON"
  else
    match kind with
    | 0 => if targetOf x == .none then idle "SECTOR_POISON" else .next (class2 (setPoison s (cellOf s x / 64) true))
    | 1 => if 2 ^ 34 ≤ x then idle "SECTOR_POISON" else .next (class2 (setPoison s (vaultKey x) true))
    | 2 =>
      let d := s.die unit
      match poisonDirty d.l2.sects x with
      | some sects => .next (class2 (notePoison (s.setDie unit { d with l2 := { d.l2 with sects } })))
      | none => idle "SECTOR_POISON"
    | 3 =>
      let c := s.core unit
      match poisonDirty c.l1.sects x with
      | some sects => .next (class2 (notePoison (s.setCore unit { c with l1 := { c.l1 with sects } })))
      | none => idle "SECTOR_POISON"
    | _ => idle "SECTOR_POISON"

/-! ## RESYNC (R424) -/

/-- A number whose bit i is f i. -/
def bitNum (n : Nat) (f : Nat → Bool) : Nat := (List.range n).foldl (fun m i => if f i then m + 2 ^ i else m) 0

/-- The 16 bytes of field f. -/
def fieldSummary (s : State) (f : Nat) : List Byte :=
  match s.fields.get? f with
  | none => bytesOf 16 0
  | some x =>
    let mine := s.teams.filter fun e => fieldOfTeam s e.2 == f
    let waiting := s.launches.filter fun e => e.2.fieldNo == f && eligible s e.1 e.2
    bytesOf 1 1 ++ bytesOf 1 x.cls ++ bytesOf 2 (mine.filter fun e => !e.2.isSaved).length ++
      bytesOf 4 (mine.filter fun e => e.2.isSaved).length ++ bytesOf 4 waiting.length ++ bytesOf 4 0

/-- The 8 bytes of a context. -/
def ctxSummary (s : State) (ctx : Nat) : List Byte :=
  let x := s.ctx ctx
  let key := ((s.keys.seated.find? fun e => e.2 == ctx).map (·.1)).getD 0xFF
  bytesOf 2 ctx ++ bytesOf 1 ((if x.prot then 1 else 0) + (if x.debug then 2 else 0)) ++ bytesOf 1 key ++
    bytesOf 4 (s.teams.filter fun e => e.2.id.ctx == ctx).length

/-- MOD_STATE of a link's modules, two bits each. -/
def modStates (x : Link) : Nat := (List.range 16).foldl (fun n m => n + (x.module m).st * 4 ^ m) 0

/-- The 8 KiB of a summary. Contexts stand in rising order. -/
def summary (s : State) : List Byte :=
  bytesOf 4 1 ++ bytesOf 4 s.health.word.toNat ++ bytesOf 16 (features s) ++ bytesOf 4 s.boot.fwver.toNat ++
    bytesOf 4 s.boot.ucode.toNat ++ bytesOf 4 s.boot.fuse ++ bytesOf 4 0 ++
    bytesOf 16 (bitNum 128 fun c => (s.core c).fenced) ++ bytesOf 8 (bitNum 64 fun k => s.keys.seated.has k) ++
    (List.range 8).flatMap (fieldSummary s) ++
    (List.range 128).flatMap (fun i => bytesOf 2 (((s.hg.slots.get? i).map (·.q)).getD 0xFFFF)) ++
    (List.range 512).flatMap (fun i => match s.ctxs.keys[i]? with
      | some c => ctxSummary s c
      | none => bytesOf 2 0xFFFF ++ bytesOf 6 0) ++
    (List.range 8).flatMap (fun l => bytesOf 4 (modStates (s.link l))) ++
    (List.range 8).flatMap (fun i => bytesOf 4 (s.health.errcnt.getD i 0).toNat) ++
    (List.range 128).flatMap (fun c => bytesOf 1 (s.core c).remapped.length) ++
    bytesOf 32 (bitNum 256 fun q => s.workQs.any fun e => e.1 % 256 == q) ++ bytesOf 3424 0

/-- RESYNC. -/
def execResync (q : Nat) (s : State) : Out :=
  runCommand "RESYNC" 0x1E q s fun _ p =>
    let a := leNum p 8 8
    if !onlyUses p [(0, 0), (8, 15)] then .fail 1
    else if a % 4096 ≠ 0 || !rangeInHbmOrHost a 8192 then .fail 6
    else .accept (paWrite s a (summary s))

/-! ## Power and heat (R426, R427) -/

/-- POWERCAP. -/
def execPowercap (q : Nat) (s : State) : Out :=
  runCommand "POWERCAP" 0x1F q s fun _ p =>
    let w := leNum p 4 4
    if !onlyUses p [(0, 0), (4, 7)] || w < 600 || 2600 < w then .fail 1
    else .accept { s with health := { s.health with cap := w } }

/-- The clocks at some sixteenths of nominal; THROTTLE while that is less than all. -/
def setClock (s : State) (n : Nat) : State :=
  let w := s.health.word
  setHealth { s with health := { s.health with clock := n } } (if n < 16 then w ||| 4 else w &&& ~~~4)

/-- POWER_THROTTLE: from 4 to 16 sixteenths. -/
def execPowerThrottle (sixteenths : Nat) (s : State) : Out :=
  if s.boot.powered && 4 ≤ sixteenths && sixteenths ≤ 16 then .next (setClock s sixteenths) else idle "POWER_THROTTLE"

/-- THERMAL_THROTTLE: the device throttles, how far the manual leaves open. -/
def execThermalThrottle (die : Nat) (s : State) : Out :=
  if s.boot.powered && die < 4 then
    let (k, s) := s.draw
    let top := min s.health.clock 15
    .next (setClock s (4 + Config.freeNat k % (top - 4 + 1)))
  else idle "THERMAL_THROTTLE"

/-- THERMAL_TRIP: a class-7 error and REPLACE; the loss of power that the device asks for is a step of its own. -/
def execThermalTrip (die : Nat) (s : State) : Out :=
  if s.boot.powered && die < 4 then .next (raiseHealth (countError s 7) 1) else idle "THERMAL_TRIP"

end Sys2Proof.Machine
end

