-- ==== Sys2Proof/Machine/Links.lean ====
section
/-! DEFINITION. The Qanat links: flits as they arrive, acknowledgement and replay (R386 to R388), lane fallback and lost
pairs (R389, R390), clock beats (R110). -/

namespace Sys2Proof.Machine

/-! ## Links -/

/-- The dies at the two ends of a link. -/
def linkEnds (l : Nat) : Nat × Nat :=
  match l with
  | 0 => (0, 1) | 1 => (1, 0) | 2 => (0, 2) | 3 => (2, 0) | 4 => (1, 3) | 5 => (3, 1) | 6 => (2, 3) | _ => (3, 2)

/-- Whether a link number names a direction of a pair that is not down. -/
def linkUp (s : State) (l : Nat) : Bool := l < 8 && !(s.link l).out && !(s.link (reverseOf l)).out

/-- A link changed. -/
def updLink (s : State) (l : Nat) (f : Link → Link) : State := s.setLink l (f (s.link l))

/-- Whether SEQ s precedes a (R386). -/
def precedes (s a : Nat) : Bool := let d := (a + 65536 - s) % 65536; 1 ≤ d && d ≤ 32767

/-! ## Flits as bytes (R384) -/

/-- One step of CRC-32C's shift register over a byte, bits low first. -/
def crcByte (crc : Word) (b : Byte) : Word :=
  (List.range 8).foldl (fun c _ => if c.getLsbD 0 then (c >>> 1) ^^^ 0x82F63B78 else c >>> 1) (crc ^^^ b.setWidth 32)

/-- CRC-32C of some bytes. -/
def crc32c (bs : List Byte) : Word := ~~~(bs.foldl crcByte (0xFFFFFFFF : Word))

/-- The bytes of a flit that one lane group carries in beats 0 to 14: four of each beat's eight, the low or the high. -/
def groupBytes (high : Bool) (bs : List Byte) : List Byte :=
  (List.range 15).flatMap fun b => (bs.drop (8 * b + (if high then 4 else 0))).take 4

/-- TYPE's code. -/
def FlitType.code : FlitType → Nat
  | .idle => 0
  | .bytes => 1
  | .nak => 2
  | .reserved c => c

/-- The 128 bytes of a flit on a wire (R384). -/
def Wire.bytes (w : Wire) : List Byte :=
  let f := w.flit
  let front := bytesOf 2 f.seq ++ bytesOf 2 (w.ack.getD 0) ++ bytesOf 1 f.type.code ++
    bytesOf 1 ((if w.ack.isSome then 1 else 0) + (if f.som then 2 else 0)) ++ bytesOf 2 f.body.length ++
    f.body ++ List.replicate (112 - f.body.length) 0
  front ++ bytesOf 4 (crc32c (groupBytes false front)).toNat ++ bytesOf 4 (crc32c (groupBytes true front)).toNat

/-- Whether a flit of 128 bytes passes the CRC of a lane group. -/
def crcGood (high : Bool) (bs : List Byte) : Bool :=
  ofBytes ((bs.drop (if high then 124 else 120)).take 4) == (crc32c (groupBytes high bs)).toNat

/-- The module that carries an idle or a NAK flit: the manual names modules for message flits only; the lowest in service
(DESIGN CHOICE, log entry 20). -/
def bareModule (x : Link) : Nat := x.inService.headD 0

/-- An idle or NAK flit put on a link, where some module is in service; it carries back EXP. Its SEQ, which takes no place in the
sequence, is the number of the next message flit (DESIGN CHOICE, log entry 20). A NAK holds the expected SEQ in its first
two bytes. -/
def sendBare (s : State) (l : Nat) (nak : Option Nat) : State :=
  let x := s.link l
  if x.inService.isEmpty then s
  else
    let f : Flit := { seq := x.nextSeq, type := if nak.isSome then .nak else .idle, som := false,
                      body := (nak.map (bytesOf 2)).getD [], msg := none, eom := false }
    carryAck (s.setLink l { x with wire := x.wire ++ [⟨f, bareModule x, some (s.link (reverseOf l)).exp⟩] }) l

/-! ## Sending -/

/-- Queued messages framed while the replay buffer has room; n bounds the rounds. -/
def drainQueue (l : Nat) : Nat → State → State
  | 0, s => s
  | n + 1, s =>
    let x := s.link l
    match x.queue with
    | [] => s
    | m :: rest =>
      let k := (flitsOf m (messageBytes s m)).length
      if x.buf.length + k ≤ 2048 && !x.inService.isEmpty then
        let s := sendOn (s.setLink l { x with queue := [] }) l m
        drainQueue l n (updLink s l fun y => { y with queue := rest })
      else s

/-- The flits that an acknowledgement value frees are gone from the replay buffer. -/
def freeOnly (s : State) (l a : Nat) : State := updLink s l fun x => { x with buf := x.buf.filter fun e => !precedes e.1.seq a }

/-- An acknowledgement frees the flits that precede it, and new ones go out. -/
def freeFlits (s : State) (l a : Nat) : State :=
  let s := freeOnly s l a
  drainQueue l (s.link l).queue.length s

/-- Every buffered flit resent in SEQ order, each on the module of R388, and then new ones (R387). -/
def resendAll (s : State) (l : Nat) : State :=
  let x := s.link l
  let ms := x.inService
  if ms.isEmpty then s
  else
    let ack := (s.link (reverseOf l)).exp
    let s := carryAck (s.setLink l { x with
      buf := x.buf.map fun e => (e.1, s.refclk)
      wire := x.wire ++ x.buf.map fun e => ⟨e.1, ms.getD (e.1.seq % ms.length) 0, some ack⟩
      resent := x.resent + BitVec.ofNat 32 x.buf.length }) l
    drainQueue l x.queue.length s

/-! ## A message at the end of a hop -/

/-- A message at a die, on its way to another: the rest of its route begins with a pair that is up, or is found anew. -/
def rerouted (s : State) (here dest : Nat) (hops : List Nat) : List Nat :=
  match hops with
  | l :: _ => if linkUp s l then hops else route s here dest
  | [] => []

/-- A message's last flit has been delivered: it goes on over the next link as it was received, or has arrived (R383). The answer to a
queue word reaches its issuer (R305). -/
def hopDone (s : State) (l : Nat) (m : Message) : State :=
  match msgHops s m with
  | none => s
  | some old =>
    let hops := rerouted s (linkEnds l).2 (msgGoal s m) (old.drop 1)
    let s := setHops s m hops
    match hops, m with
    | next :: _, _ => sendOn s next m
    | [], .queue id =>
      match s.msgs.get? id, (s.msgs.get? id).bind (·.answer) with
      | some q, some (ws, vc) => takeAnswer s id q ws vc
      | _, _ => s
    | [], _ => s

/-! ## Failures (R384, R389) -/

/-- Failures charged to a lane group within the last 4,096 ticks. -/
def recent (now : Nat) (ts : List Nat) : List Nat := now :: ts.filter fun t => now - t ≤ 4096

/-- A module of a direction put in a retrain, during which nothing of a message on it arrives. -/
def beginRetrain (s : State) (l m : Nat) : State :=
  updLink s l fun x =>
    let md := x.module m
    { x with
      modules := x.modules.put m { md with retrain := true, retrainAt := s.refclk, retrains := md.retrains + 1 }
      wire := x.wire.filter fun w => w.module != m || w.flit.type != .bytes }

/-- A failing flit charged to a module: to the group whose CRC failed, or to the group in use; a third failure of a group begins a
retrain. A module belongs to its pair: it retrains, and comes back, in both directions (DEDUCED, log entry 66). -/
def chargeModule (s : State) (l m : Nat) (lowBad highBad : Bool) : State :=
  let md := (s.link l).module m
  let low := if md.st = 0 then lowBad else md.st == 1
  let high := if md.st = 0 then highBad else md.st == 2
  let md := if low then { md with crcLo := md.crcLo + 1, lo := recent s.refclk md.lo } else md
  let md := if high then { md with crcHi := md.crcHi + 1, hi := recent s.refclk md.hi } else md
  let s := updLink s l fun x => { x with modules := x.modules.put m md }
  if !md.retrain && md.st < 3 && (3 ≤ md.lo.length || 3 ≤ md.hi.length) then beginRetrain (beginRetrain s l m) (reverseOf l) m else s

/-- The NAK of a receiver, unless one for the same EXP is outstanding (R387). -/
def nakNow (s : State) (l : Nat) : State :=
  let x := s.link l
  if (x.nak.map (·.1)) = some x.exp then s
  else sendBare (s.setLink l { x with nak := some (x.exp, s.refclk) }) (reverseOf l) (some x.exp)

/-- A flit whose CRC fails, or of a reserved type. -/
def badFlit (s : State) (l m : Nat) (lowBad highBad : Bool) : State := nakNow (countError (chargeModule s l m lowBad highBad) 1) l

/-- A message flit that has arrived intact. A duplicate is discarded unread, its ACK with it, and the next ACK is sent at once. -/
def goodFlit (s : State) (l : Nat) (f : Flit) (ack : Option Nat) : State :=
  let x := s.link l
  let acked (s : State) : State := match ack with | some a => freeFlits s (reverseOf l) a | none => s
  if f.seq = x.exp then
    let s := acked s
    let s := updLink s l fun x => { x with exp := (x.exp + 1) % 65536, nak := none, ackSince := s.refclk }
    match f.msg with
    | some m => if f.eom then hopDone s l m else s
    | none => s
  else if precedes f.seq x.exp then
    sendBare (s.setLink l { x with dups := x.dups + 1 }) (reverseOf l) none
  else acked s

/-- A NAK holding n: what precedes n is free, and every flit from n on goes out again before anything new (R387). -/
def nakFlit (s : State) (l : Nat) (f : Flit) : State :=
  let r := reverseOf l
  let s := updLink s r fun y => { y with naksRx := y.naksRx + 1 }
  resendAll (freeOnly s r (ofBytes (f.body.take 2))) r

/-- FLIT_RECEIVE: the first flit on the wires of a link arrives, intact or with an error in the bytes of either lane group, which
that group's CRC shows. A flit of a reserved TYPE is treated as failing its CRC, in the group that carries TYPE, the high
one (R384). -/
def execFlitReceive (link : Nat) (lowBad highBad : Bool) (s : State) : Out :=
  let x := s.link link
  match x.wire with
  | [] => idle "FLIT_RECEIVE"
  | w :: rest =>
    if !linkUp s link then idle "FLIT_RECEIVE"
    else
      let s := s.setLink link { x with wire := rest }
      if lowBad || highBad then .next (badFlit s link w.module lowBad highBad)
      else
        match w.flit.type with
        | .bytes => .next (goodFlit s link w.flit w.ack)
        | .idle => .next (match w.ack with | some a => freeFlits s (reverseOf link) a | none => s)
        | .nak => .next (nakFlit s link w.flit)
        | .reserved _ => .next (badFlit s link w.module false true)

/-! ## Timers (R386, R387) -/

/-- ACK_IDLE_TIMER: an idle flit carries EXP when no reverse flit has within 4 ticks. -/
def execAckIdleTimer (link : Nat) (s : State) : Out :=
  let x := s.link link
  if linkUp s link && 4 < s.refclk - x.ackSince && !(s.link (reverseOf link)).inService.isEmpty then
    .next (sendBare s (reverseOf link) none)
  else idle "ACK_IDLE_TIMER"

/-- NAK_REPEAT_TIMER: the NAK is repeated when the awaited flit has not come within 8 ticks. -/
def execNakRepeatTimer (link : Nat) (s : State) : Out :=
  let x := s.link link
  match x.nak with
  | none => idle "NAK_REPEAT_TIMER"
  | some (n, since) =>
    if linkUp s link && 8 ≤ s.refclk - since then
      .next (sendBare (s.setLink link { x with nak := some (n, s.refclk) }) (reverseOf link) (some n))
    else idle "NAK_REPEAT_TIMER"

/-- REPLAY_TIMEOUT: the oldest buffered flit has waited 32 ticks. -/
def execReplayTimeout (link : Nat) (s : State) : Out :=
  let x := s.link link
  match x.buf with
  | [] => idle "REPLAY_TIMEOUT"
  | e :: _ =>
    if linkUp s link && 32 ≤ s.refclk - e.2 && !x.inService.isEmpty then
      .next (resendAll (s.setLink link { x with timeouts := x.timeouts + 1 }) link)
    else idle "REPLAY_TIMEOUT"

/-! ## Retrains and lost pairs (R389, R390) -/

/-- The team that a write-through left behind halts when it is lost: its group's record names the word at which it stands. -/
def haltWriter (s : State) (r : Req) : State :=
  match (s.teams.get? r.team).bind fun team => team.groups.get? r.group with
  | some grp => stopGroup s r.team r.group grp.cur (pcOf s r.team (some r.group) grp.cur) 0x0B 1 0
  | none => s

/-- The teams that wait for a write-back halt when it is lost: a cache word whose count or whose path waits for it, and a release or a
`tlfence` (R295, R113, R122); each record names the waiting word. DEDUCED (log entry 89): a write-back that a word waits for is that
word's team's. -/
def haltWaiters (s : State) (id : Nat) (r : Req) : State :=
  let s := (s.accs.filter fun e => e.2.wbs.contains id).foldl (fun s e => failAccess s e.1 0x0B 1 r.va) s
  s.teams.foldl (fun s te => te.2.groups.foldl (fun s ge => ge.2.paths.foldl (fun s pe =>
    match pe.2.hold with
    | some (.fence reqs) => if reqs.contains id then stopGroup s te.1 ge.1 pe.1 pe.2.pc 0x0B 1 0 else s
    | _ => s) s) s) s

/-- A request or a reply lost with a link: its team halts. One that has already been delivered, and whose acknowledgement has not
come back, goes on without a waiter. -/
def loseReq (s : State) (l id : Nat) (there : Bool) : State :=
  match s.reqs.get? id with
  | none => s
  | some r =>
    let s := if r.kind == .beat then s else if r.who == .writeback then haltWaiters (haltWriter s r) id r else failReq s id r 0x0B 1
    if r.hops.head? = some l then
      let s := dropReq s id
      if there then
        let d := s.die r.die
        s.setDie r.die { d with told := d.told.set r.home 0 }
      else s
    else { s with reqs := s.reqs.put id { r with who := .writeback } }

/-- A message lost with a pair (R390). A queue word, or its answer, that is lost halts its team too. -/
def loseMessage (s : State) (l : Nat) (m : Message) : State :=
  match m with
  | .req id => loseReq s l id true
  | .reply id => loseReq s l id false
  | .queue id =>
    match s.msgs.get? id with
    | none => s
    | some q =>
      let gone := q.hops.head? == some l
      let s := if gone then setHold s q.team q.agent q.path none else s
      let s := stopIssuer s q.team q.agent (q.path == 0) q.path (pcOf s q.team q.agent q.path) 0x0B 1 0
      if gone then { s with msgs := s.msgs.del id } else s

/-- One direction of a pair that is down: its buffered flits are lost, its queued messages take another route; at their source they wait
for those on the old one (R390). -/
def dropLink (s : State) (l : Nat) : State :=
  let x := s.link l
  let lost := (x.buf.filterMap fun e => e.1.msg).eraseDups
  let s := s.setLink l { x with buf := [], queue := [], wire := [], nak := none }
  let s := lost.foldl (fun s m => loseMessage s l m) s
  let here := (linkEnds l).1
  x.queue.foldl (fun s m =>
    if (msgHops s m).isNone then s
    else
      let hops := route s here (msgGoal s m)
      let s := setHops s m hops
      if (msgEnds s m).head? = some here then setOff s hops m
      else match hops with
        | next :: _ => sendOn s next m
        | [] => s) s

/-- A retrained module of a direction in the state in which its pair's module comes back. -/
def endRetrain (s : State) (l m st : Nat) : State :=
  updLink s l fun x => { x with modules := x.modules.put m { x.module m with st, retrain := false, lo := [], hi := [] } }

/-- RETRAIN_COMPLETE: a retrained module of a pair returns in 32-lane mode on its other group, or is out of service; with its last
module the pair is down. -/
def execRetrainComplete (link module : Nat) (s : State) : Out :=
  let md := (s.link link).module module
  let rd := (s.link (reverseOf link)).module module
  if !(link < 8 && module < 16 && md.retrain) then idle "RETRAIN_COMPLETE"
  else
    let lowFailed := 3 ≤ md.lo.length || 3 ≤ rd.lo.length
    let both := lowFailed && (3 ≤ md.hi.length || 3 ≤ rd.hi.length)
    let (k, s) := if both then s.draw else (0, s)
    let low := if both then Config.freeBit k else lowFailed
    let st := if md.st = 0 then (if low then 2 else 1) else 3
    let s := endRetrain (endRetrain s link module st) (reverseOf link) module st
    let s := raiseHealth (countError s 5) (if st = 3 then 3 else 2)
    if (s.link link).out then .next (dropLink (dropLink (raiseHealth (countError s 6) 3) link) (reverseOf link))
    else
      let s := drainQueue link (s.link link).queue.length s
      .next (drainQueue (reverseOf link) (s.link (reverseOf link)).queue.length s)

/-! ## Clock beats (R110) -/

/-- CLOCK_BEAT_SEND: a die that has raised EPOCH since it last told another sends it its EPOCH. -/
def execClockBeatSend (src dst : Nat) (s : State) : Out :=
  let d := s.die src
  if !(src < 4 && dst < 4 && src != dst && d.told.getD dst 0 < d.epoch) then idle "CLOCK_BEAT_SEND"
  else
    let hops := route s src dst
    let (id, s) := newReq s { Req.blank with
      die := src, field := noField, kind := .beat, stage := .sent, home := dst, stamp := d.epoch, vc := d.vc.set src d.epoch,
      sentNo := d.sent, hops }
    let s := updReq s id fun r => { r with wire := r.message id }
    let s := s.setDie src { s.die src with sent := d.sent + 1, told := d.told.set dst d.epoch }
    .next (setOff s hops (.req id))

/-- CLOCK_BEAT: a beat that has arrived is taken in its turn: STABLE follows its vector. -/
def execClockBeat (src dst : Nat) (s : State) : Out :=
  match s.reqs.find? fun e => e.2.kind == .beat && e.2.die == src && e.2.home == dst && servable s e.1 e.2 with
  | none => idle "CLOCK_BEAT"
  | some (id, r) => .next (noteStable (dropReq s id) dst src r.vc)

end Sys2Proof.Machine
end

