-- ==== Sys2Proof/Machine/Map.lean ====
section
/-! DEFINITION. The map instructions, majors 0x10 to 0x13 (R240 to R248). Each edit happens in the step of its
instruction, so the map order of R62 is the order of steps. -/

namespace Sys2Proof.Machine

/-- A map word of a group: `need` are the names that must be mapped. -/
def runM (w : Bool) (s : State) (need : List Nat) (f : Env → Res) : Out :=
  runG .group0 w s fun e => if e.team.allMapped e.g need then f e else unmappedName

/-- A map edit of the issuing group's team. -/
def mapEdit (s : State) (e : Env) (f : Team → Team) : State := updTeam s e.t f

/-! ## Renames (R242) -/

def Team.move (t : Team) (g d a : Nat) : Team :=
  if d = a then t
  else
    match t.mapped g a with
    | none => t
    | some m => ((t.unmap g d).setName g a none).setName g d (some m)

def execNmove (w : Bool) (d a : BitVec 7) (s : State) : Out :=
  runM w s [a.toNat] fun e => .done (mapEdit s e fun t => t.move e.g d.toNat a.toNat)

def Team.swap (t : Team) (g d a : Nat) : Team := (t.setName g d (t.mapped g a)).setName g a (t.mapped g d)

def execNswap (w : Bool) (d a : BitVec 7) (s : State) : Out :=
  runM w s [d.toNat, a.toNat] fun e => .done (mapEdit s e fun t => t.swap e.g d.toNat a.toNat)

/-- Name d + i takes the mapping that name d + (i + k) mod L held. -/
def Team.permute (t : Team) (g d a k : Nat) : Team :=
  let n := a + 1 - d
  (List.range n).foldl (fun t' i => t'.setName g (d + i) (t.mapped g (d + (i + k) % n))) t

def execNperm (w : Bool) (d a k : BitVec 7) (s : State) : Out :=
  runM w s ((List.range (a.toNat + 1 - d.toNat)).map (· + d.toNat)) fun e =>
    .done (mapEdit s e fun t => t.permute e.g d.toNat a.toNat k.toNat)

/-! ## Names made and dropped (R243) -/

/-- A new mapping of a name to a row, with the next sequence number (R60). -/
def Team.mapTo (t : Team) (g n r : Nat) : Team :=
  let (q, t) := t.nextSeq
  t.setName g n (some ⟨r, q⟩)

def Team.addRef (t : Team) (r : Nat) : Team :=
  { t with res := { t.res with rows := t.res.rows.upd r fun row => { row with refcnt := row.refcnt + 1 } } }

def Team.share (t : Team) (g d a : Nat) : Team :=
  if d = a then t
  else
    match t.mapped g a with
    | none => t
    | some m => ((t.unmap g d).mapTo g d m.row).addRef m.row

def execNalias (w : Bool) (d a : BitVec 7) (s : State) : Out :=
  runM w s [a.toNat] fun e => .done (mapEdit s e fun t => t.share e.g d.toNat a.toNat)

def execNdrop (w : Bool) (a : BitVec 7) (s : State) : Out :=
  runM w s [] fun e => .done (mapEdit s e fun t => t.unmap e.g a.toNat)

def execNfresh (w : Bool) (d : BitVec 7) (s : State) : Out :=
  runM w s [] fun e =>
    if e.team.canRefresh e.g d.toNat then .done (mapEdit s e fun t => (t.unmap e.g d.toNat).mapFresh e.g d.toNat)
    else needRows s e [d.toNat] true

/-! ## Handoff (R244 to R246) -/

/-- A row's anchor set. -/
def Team.anchor (t : Team) (r : Nat) (a : Anchor) (charge : Nat) : Team :=
  { t with res := { t.res with rows := t.res.rows.upd r fun row => { row with anchor := a, charge } } }

/-- `ngive` into an empty slot: the slot takes the name's reference. -/
def Team.give (t : Team) (g a slot : Nat) : Team :=
  match t.mapped g a with
  | none => t
  | some m =>
    let t := (t.setName g a none)
    let t := { t with res := { t.res with slots := t.res.slots.put slot m.row } }
    match t.res.rows.get? m.row with
    | none => t
    | some row =>
      let keeps := ((t.groups.get? g).map fun grp => grp.maps m.row).getD false
      if row.anchor = .group g && !keeps then t.anchor m.row (.slot slot) row.charge else t

/-- `ntake` from a full slot: the name takes the slot's reference. -/
def Team.takeSlot (t : Team) (g d slot r : Nat) : Team :=
  let t := (t.unmap g d).mapTo g d r
  let t := { t with res := { t.res with slots := t.res.slots.del slot } }
  match t.res.rows.get? r with
  | none => t
  | some row => if row.anchor = .slot slot then t.anchor r (.group g) (t.roleOf g) else t

/-- The status of `ngive` and `ntake`, where one is asked for. -/
def mapStatus (s : State) (e : Env) (sts : BitVec 7) (v : Word) : State :=
  if sts.toNat = 127 then s else writeS s e.t e.g e.p sts.toNat v

/-- A given row's earlier writes are visible to its taker (R70): the giver's results to that row land first. -/
def execNgive (w : Bool) (sts a slot : BitVec 7) (s : State) : Out :=
  runM w s [a.toNat] fun e =>
    if e.team.res.slots.has slot.toNat then .done (mapStatus s e sts 0)
    else
      let s := match e.team.mapped e.g a.toNat with
        | some m => landRow s e.t e.g m.row
        | none => s
      .done (mapStatus (mapEdit s e fun t => t.give e.g a.toNat slot.toNat) e sts 1)

def execNtake (w : Bool) (d sts slot : BitVec 7) (s : State) : Out :=
  runM w s [] fun e =>
    match e.team.res.slots.get? slot.toNat with
    | none => .done (mapStatus s e sts 0)
    | some r => .done (mapStatus (mapEdit s e fun t => t.takeSlot e.g d.toNat slot.toNat r) e sts 1)

/-! ## nquery (R72, R247) -/

/-- The word of R72. -/
def Team.query (t : Team) (g n : Nat) : Word :=
  match (t.mapped g n).bind fun m => t.res.rows.get? m.row with
  | none => 0
  | some row =>
    let (isSlot, a) := match row.anchor with | .group k => (0, k) | .slot i => (1, i)
    let own := if row.anchor = .group g then 1 else 0
    BitVec.ofNat 32 (2 ^ 31 + isSlot * 2 ^ 30 + a * 2 ^ 24 + row.charge * 2 ^ 22 + own * 2 ^ 21 + row.refcnt % 2 ^ 13)

def execNquery (w : Bool) (d a : BitVec 7) (s : State) : Out :=
  runM w s [] fun e => .done (writeS s e.t e.g e.p d.toNat (e.team.query e.g a.toNat))

end Sys2Proof.Machine
end

