-- ==== Sys2Proof/Machine/VecFloat.lean ====
section
/-! DEFINITION. The vector floating-point and conversion instructions, majors 0x1C to 0x23 (R264 to R280). -/

namespace Sys2Proof.Machine

/-- The value of an FP32 and of an FP64 code. -/
def d32 (x : Nat) : FV := decode Fmt.f32 x
def d64 (x : Nat) : FV := decode Fmt.f64 x

/-- The FP32 or FP64 code of a value that is exact in the format. -/
def c32 (v : FV) : Nat := (round Fmt.f32 .rne v).1
def c64 (v : FV) : Nat := (round Fmt.f64 .rne v).1

/-- a − b, exact. -/
def fsub (mode : Mode) (a b : FV) : FV × Nat := fadd mode a b.negate

/-! ## Arithmetic, major 0x1C (R268) -/

/-- An FP32 word with a rounding mode over an exact operation. -/
def arith32 (w : Bool) (r : BitVec 2) (d a b : BitVec 7) (s : State) (op : Mode → FV → FV → FV × Nat) : Out :=
  let m := modeOf r.toNat
  vf3 w .fp d a b s fun x y => rounded Fmt.f32 m (op m (d32 x) (d32 y))

/-- An FP64 word, RNE only. -/
def arith64 (w : Bool) (d a b : BitVec 7) (s : State) (op : Mode → FV → FV → FV × Nat) : Out :=
  vf3p w .fp64 d a b s fun x y => rounded Fmt.f64 .rne (op .rne (d64 x) (d64 y))

def execVfaddF32 (w : Bool) (r : BitVec 2) (d a b : BitVec 7) (s : State) : Out := arith32 w r d a b s fadd
def execVfsubF32 (w : Bool) (r : BitVec 2) (d a b : BitVec 7) (s : State) : Out := arith32 w r d a b s fsub
def execVfmulF32 (w : Bool) (r : BitVec 2) (d a b : BitVec 7) (s : State) : Out := arith32 w r d a b s fun _ => fmul
def execVfaddF64 (w : Bool) (d a b : BitVec 7) (s : State) : Out := arith64 w d a b s fadd
def execVfsubF64 (w : Bool) (d a b : BitVec 7) (s : State) : Out := arith64 w d a b s fsub
def execVfmulF64 (w : Bool) (d a b : BitVec 7) (s : State) : Out := arith64 w d a b s fun _ => fmul

/-! ## Fused forms, major 0x1D (R269) -/

def execVffmaF32 (w : Bool) (r : BitVec 2) (d a b : BitVec 7) (s : State) : Out :=
  let m := modeOf r.toNat
  vf3acc w .fp d a b s fun z x y => rounded Fmt.f32 m (ffma m (d32 x) (d32 y) (d32 z))
def execVffmaF64 (w : Bool) (r : BitVec 2) (d a b : BitVec 7) (s : State) : Out :=
  let m := modeOf r.toNat
  runV w s .fp64 (pairNames d ++ pairNames a ++ pairNames b) (pairNames d) fun e rd =>
    pairsWithFlags e.path.mask fun l =>
      rounded Fmt.f64 m (ffma m (d64 (pairLane rd a.toNat l).toNat) (d64 (pairLane rd b.toNat l).toNat)
        (d64 (pairLane rd d.toNat l).toNat))
/-- `vfaddmin`. R269's table gives FMin(vd, sum), and its prose says that an infinite cost in vd stays infinite, which FMin
denies for +infinity and a finite sum. DESIGN CHOICE (log entry 52): the table is followed. -/
def execVfaddminF32 (w : Bool) (d a b : BitVec 7) (s : State) : Out :=
  vf3acc w .fp d a b s fun z x y =>
    let (c, g) := rounded Fmt.f32 .rne (fadd .rne (d32 x) (d32 y))
    (c32 (fmin (d32 z) (d32 c)), g)

/-! ## Packed forms, major 0x1E (R270) -/

/-- The element format: `.bf16x2` for T = 0, `.f16x2` for T = 1. -/
def packedFmt (t : Bool) : Fmt := if t then Fmt.f16 else Fmt.bf16

/-- Element i of a lane. -/
def elem16 (t : Bool) (x i : Nat) : FV := decode (packedFmt t) (bits x (16 * i + 15) (16 * i))

/-- Two elements' codes as a lane, with the union of their flags. -/
def packTwo (f : Nat → Nat × Nat) : Nat × Nat := ((f 0).1 + 2 ^ 16 * (f 1).1, (f 0).2 ||| (f 1).2)

/-- A packed word over an exact operation on elements. -/
def packedOp (w t : Bool) (d a b : BitVec 7) (s : State) (op : FV → FV → FV × Nat) : Out :=
  vf3 w .fp d a b s fun x y => packTwo fun i => rounded (packedFmt t) .rne (op (elem16 t x i) (elem16 t y i))

def execVfaddPacked (w t : Bool) (d a b : BitVec 7) (s : State) : Out := packedOp w t d a b s (fadd .rne)
def execVfsubPacked (w t : Bool) (d a b : BitVec 7) (s : State) : Out := packedOp w t d a b s (fsub .rne)
def execVfmulPacked (w t : Bool) (d a b : BitVec 7) (s : State) : Out := packedOp w t d a b s fmul
def execVffmaPacked (w t : Bool) (d a b : BitVec 7) (s : State) : Out :=
  vf3acc w .fp d a b s fun z x y => packTwo fun i =>
    rounded (packedFmt t) .rne (ffma .rne (elem16 t x i) (elem16 t y i) (elem16 t z i))
def execVfminPacked (w t : Bool) (d a b : BitVec 7) (s : State) : Out := packedOp w t d a b s fun x y => (fmin x y, 0)
def execVfmaxPacked (w t : Bool) (d a b : BitVec 7) (s : State) : Out := packedOp w t d a b s fun x y => (fmax x y, 0)
/-- `vfdot2`: the three-term sum is exact; infinite products of both signs set NV whatever stands beside them. -/
def execVfdot2 (w t : Bool) (d a b : BitVec 7) (s : State) : Out :=
  vf3acc w .fp d a b s fun z x y =>
    let p0 := fmul (elem16 t x 0) (elem16 t y 0)
    let p1 := fmul (elem16 t x 1) (elem16 t y 1)
    let (c, g) := rounded Fmt.f32 .rne (sumExact [d32 z, p0.1, p1.1])
    (c, g ||| p0.2 ||| p1.2)

/-! ## Conversions, major 0x1F (R271 to R273) -/

/-- The floating format of a conversion code. -/
def cvtFmt (c : Nat) : Option Fmt :=
  match c with
  | 0 => some Fmt.f32
  | 1 => some Fmt.f64
  | 2 | 12 => some Fmt.bf16
  | 3 | 13 => some Fmt.f16
  | 4 => some Fmt.e4m3
  | 5 => some Fmt.e5m2
  | 6 => some Fmt.e2m1
  | _ => none

/-- The integer format of a conversion code: width and whether it is signed. -/
def cvtInt (c : Nat) : Nat × Bool :=
  match c with
  | 7 => (32, true)
  | 8 => (32, false)
  | 9 => (8, true)
  | 10 => (8, false)
  | _ => (16, false)

/-- The range of an integer format. -/
def intRange (f : Nat × Bool) : Int × Int :=
  if f.2 then (-((2 ^ (f.1 - 1) : Nat) : Int), ((2 ^ (f.1 - 1) : Nat) : Int) - 1) else (0, ((2 ^ f.1 : Nat) : Int) - 1)

/-- The integer that the low bits of a lane hold. -/
def intOf (f : Nat × Bool) (x : Nat) : Int := if f.2 then signed f.1 x else (x % 2 ^ f.1 : Nat)

/-- An integer in the low bits of a lane. -/
def intCode (f : Nat × Bool) (x : Int) : Nat := (x % (2 ^ f.1 : Nat)).toNat

/-- The bits of the source value: the high half for the `.hi` codes, else the low bits of the format. -/
def cvtBits (c x : Nat) : Nat :=
  match c with
  | 12 | 13 => bits x 31 16
  | 2 | 3 => bits x 15 0
  | 4 | 5 => bits x 7 0
  | 6 => bits x 3 0
  | _ => x

/-- One lane of `vcvt` (R272). -/
def cvtLane (src dst : Nat) (mode : Mode) (nsat : Bool) (x : Nat) : Nat × Nat :=
  match cvtFmt src, cvtFmt dst with
  | some f, some g => convert g mode nsat (decode f (cvtBits src x))
  | some f, none =>
    let k := cvtInt dst
    let (v, fl) := toInt mode (intRange k).1 (intRange k).2 (decode f (cvtBits src x))
    (intCode k v, fl)
  | none, some g => convert g mode false (FV.int (intOf (cvtInt src) x))
  | none, none =>
    let k := cvtInt dst
    let v := intOf (cvtInt src) x
    let c := max (intRange k).1 (min (intRange k).2 v)
    (intCode k c, if c = v then 0 else NV)

def execVcvt (w : Bool) (c : BitVec 4) (d a : BitVec 7) (t : BitVec 4) (r : BitVec 2) (n : Bool) (s : State) : Out :=
  let src := c.toNat
  let dst := t.toNat
  let srcs := if src = 1 then pairNames a else [a.toNat]
  let lat : Latency := if src = 1 || dst = 1 then .fp64 else .fp
  let lane := fun (rd : Nat → List Word) l =>
    cvtLane src dst (modeOf r.toNat) n (if src = 1 then (pairLane rd a.toNat l).toNat else (laneAt (rd a.toNat) l).toNat)
  if dst = 1 then runV w s lat srcs (pairNames d) fun e rd => pairsWithFlags e.path.mask (lane rd)
  else runV w s lat srcs [d.toNat] fun e rd => lanesWithFlags e.path.mask (lane rd)

def execVcvtPkBf16x2 (w : Bool) (d a b : BitVec 7) (s : State) : Out :=
  vf3 w .fp d a b s fun x y => packTwo fun i => convert Fmt.bf16 .rne false (d32 (if i = 0 then x else y))
def execVcvtPkF16x2 (w : Bool) (d a b : BitVec 7) (s : State) : Out :=
  vf3 w .fp d a b s fun x y => packTwo fun i => convert Fmt.f16 .rne false (d32 (if i = 0 then x else y))

/-! ## Quantisation, major 0x20 (R274 to R276) -/

/-- The narrow format of R275. -/
def narrowOf (f : Nat) : Narrow :=
  match f with
  | 0 => .e4m3
  | 1 => .e5m2
  | 2 => .e2m1
  | 3 => .i8
  | _ => .t3

/-- The scale of a scale word: NaN, with NV, for a COMPAND of 5 to 7 (R274). -/
def scaleOf (x : Nat) : FV × Nat := if 5 ≤ bits x 12 10 then (.nan, NV) else (s10 (bits x 9 0), 0)

/-- The compand table that a COMPAND code selects; none for the identity (R137). -/
def compandOf (c : Ctx) (n : Nat) : Option Compand := if 1 ≤ n && n ≤ 4 then c.compand.get? n else none

def execVquant (w : Bool) (f : BitVec 3) (d a b : BitVec 7) (s : State) : Out :=
  runV w s .fp [a.toNat, b.toNat] [d.toNat] fun e rd =>
    lanesWithFlags e.path.mask fun l =>
      let x := (laneAt (rd b.toNat) l).toNat
      let (k, g) := scaleOf x
      let (q, h) := quant (narrowOf f.toNat) (compandOf (s.ctx e.team.id.ctx) (bits x 12 10)) (modeOf (bits x 14 13))
        (bit x 15) (d32 (laneAt (rd a.toNat) l).toNat) k
      (q, g ||| h)

def execVdequant (w : Bool) (f : BitVec 3) (d a b : BitVec 7) (s : State) : Out :=
  runV w s .fp [a.toNat, b.toNat] [d.toNat] fun e rd =>
    lanesWithFlags e.path.mask fun l =>
      let x := (laneAt (rd b.toNat) l).toNat
      let n := narrowOf f.toNat
      let (k, g) := scaleOf x
      let (v, h) := dequant n (compandOf (s.ctx e.team.id.ctx) (bits x 12 10))
        ((laneAt (rd a.toNat) l).toNat % 2 ^ n.width) k
      (v, g ||| h)

def execVtrit (w : Bool) (d a b : BitVec 7) (s : State) : Out :=
  vf3 w .fp d a b s fun x y =>
    let v := bits x 7 0
    let p := bits y 2 0
    if 243 ≤ v then (1, TRIT_BAD) else if 5 ≤ p then (1, 0) else (v / 3 ^ p % 3, 0)

/-! ## Special functions, major 0x21 (R277) -/

def execVrcpF32 (w : Bool) (r : BitVec 2) (d a : BitVec 7) (s : State) : Out :=
  vf2 w .special d a s fun x => rounded Fmt.f32 (modeOf r.toNat) (fdiv (FV.int 1) (d32 x))
def execVsqrtF32 (w : Bool) (r : BitVec 2) (d a : BitVec 7) (s : State) : Out :=
  vf2 w .special d a s fun x => rounded Fmt.f32 (modeOf r.toNat) (fsqrt (d32 x))
def execVdivF32 (w : Bool) (r : BitVec 2) (d a b : BitVec 7) (s : State) : Out :=
  vf3 w .special d a b s fun x y => rounded Fmt.f32 (modeOf r.toNat) (fdiv (d32 x) (d32 y))
def execVexp2F32 (w : Bool) (d a : BitVec 7) (s : State) : Out := vf2 w .special d a s exp2
def execVlog2F32 (w : Bool) (d a : BitVec 7) (s : State) : Out := vf2 w .special d a s log2F
def execVsinF32 (w : Bool) (d a : BitVec 7) (s : State) : Out := vf2 w .special d a s (trig false)
def execVcosF32 (w : Bool) (d a : BitVec 7) (s : State) : Out := vf2 w .special d a s (trig true)

/-! ## Compares, classes, min, max and sign, major 0x22 (R278, R279) -/

def execVfcmpF32 (w : Bool) (c p : BitVec 3) (a b : BitVec 7) (s : State) : Out :=
  vcompare w p [a.toNat, b.toNat] s fun rd l =>
    fcond c.toNat (d32 (laneAt (rd a.toNat) l).toNat) (d32 (laneAt (rd b.toNat) l).toNat)
def execVfcmpF64 (w : Bool) (c p : BitVec 3) (a b : BitVec 7) (s : State) : Out :=
  vcompare w p (pairNames a ++ pairNames b) s fun rd l =>
    fcond c.toNat (d64 (pairLane rd a.toNat l).toNat) (d64 (pairLane rd b.toNat l).toNat)
def execVfclassF32 (w : Bool) (p : BitVec 3) (a k : BitVec 7) (s : State) : Out :=
  vcompare w p [a.toNat] s fun rd l => classTest Fmt.f32 (laneAt (rd a.toNat) l).toNat k.toNat
def execVfclassF64 (w : Bool) (p : BitVec 3) (a k : BitVec 7) (s : State) : Out :=
  vcompare w p (pairNames a) s fun rd l => classTest Fmt.f64 (pairLane rd a.toNat l).toNat k.toNat

def execVfminF32 (w : Bool) (d a b : BitVec 7) (s : State) : Out :=
  vf3 w .fp d a b s fun x y => (c32 (fmin (d32 x) (d32 y)), 0)
def execVfmaxF32 (w : Bool) (d a b : BitVec 7) (s : State) : Out :=
  vf3 w .fp d a b s fun x y => (c32 (fmax (d32 x) (d32 y)), 0)
def execVfminF64 (w : Bool) (d a b : BitVec 7) (s : State) : Out :=
  vf3p w .fp64 d a b s fun x y => (c64 (fmin (d64 x) (d64 y)), 0)
def execVfmaxF64 (w : Bool) (d a b : BitVec 7) (s : State) : Out :=
  vf3p w .fp64 d a b s fun x y => (c64 (fmax (d64 x) (d64 y)), 0)

/-- The magnitude of a code under a sign; a NaN gives the canonical NaN. -/
def withSign (f : Fmt) (x : Nat) (neg : Bool) : Nat := if (decode f x).isNan then f.nan else signed' f neg (x % f.signBit)

/-- The sign bit of a code as stored. -/
def signOf (f : Fmt) (x : Nat) : Bool := bit x (f.ebits + f.mbits)

/-- The magnitude of one code with the sign of another; a NaN input gives the canonical NaN. -/
def copySign (f : Fmt) (x y : Nat) : Nat := if (decode f y).isNan then f.nan else withSign f x (signOf f y)

def execVfabsF32 (w : Bool) (d a : BitVec 7) (s : State) : Out :=
  vf2 w .fp d a s fun x => (withSign Fmt.f32 x false, 0)
def execVfnegF32 (w : Bool) (d a : BitVec 7) (s : State) : Out :=
  vf2 w .fp d a s fun x => (withSign Fmt.f32 x (!signOf Fmt.f32 x), 0)
def execVfcsgnF32 (w : Bool) (d a b : BitVec 7) (s : State) : Out :=
  vf3 w .fp d a b s fun x y => (copySign Fmt.f32 x y, 0)
def execVfabsF64 (w : Bool) (d a : BitVec 7) (s : State) : Out :=
  vf2p w .fp64 d a s fun x => (withSign Fmt.f64 x false, 0)
def execVfnegF64 (w : Bool) (d a : BitVec 7) (s : State) : Out :=
  vf2p w .fp64 d a s fun x => (withSign Fmt.f64 x (!signOf Fmt.f64 x), 0)
def execVfcsgnF64 (w : Bool) (d a b : BitVec 7) (s : State) : Out :=
  vf3p w .fp64 d a b s fun x y => (copySign Fmt.f64 x y, 0)

/-! ## Reductions and scans, major 0x23 (R144, R145, R280) -/

/-- The 96 values of a reduction: `unit` in the lanes outside ACTIVE. -/
def treeInputs (m : LaneMask) (unit : FV) (f : Nat → FV) : List FV :=
  (List.range 96).map fun l => if m.getLsbD l then f l else unit

/-- A reduction of FP32 lanes into every active lane. -/
def fred32 (w : Bool) (d a : BitVec 7) (s : State) (mode : Mode) (unit : FV) (op : FV → FV → FV × Nat) : Out :=
  runV w s .reduce [a.toNat] [d.toNat] fun e rd =>
    let r := reduce96 op (treeInputs e.path.mask unit fun l => d32 (laneAt (rd a.toNat) l).toNat)
    let (c, g) := round Fmt.f32 mode r.1
    { vals := [lanesFrom fun _ => BitVec.ofNat 32 c], mask := e.path.mask, flags := r.2 ||| g }

/-- A reduction of FP64 pairs. -/
def fred64 (w : Bool) (d a : BitVec 7) (s : State) (unit : FV) (op : FV → FV → FV × Nat) : Out :=
  runV w s .reduce (pairNames a) (pairNames d) fun e rd =>
    let r := reduce96 op (treeInputs e.path.mask unit fun l => d64 (pairLane rd a.toNat l).toNat)
    let (c, g) := round Fmt.f64 .rne r.1
    { vals := pairVals fun _ => BitVec.ofNat 64 c, mask := e.path.mask, flags := r.2 ||| g }

/-- The running codes of a scan from −0.0, and the flags of its roundings. -/
def fscan (f : Fmt) (mode : Mode) (m : LaneMask) (v : Nat → FV) : List Nat × Nat :=
  let r := (List.range 96).foldl (fun (acc : FV × List Nat × Nat) l =>
    if m.getLsbD l then
      let (c, g) := rounded f mode (fadd mode acc.1 (v l))
      (decode f c, c :: acc.2.1, acc.2.2 ||| g)
    else (acc.1, 0 :: acc.2.1, acc.2.2)) (FV.zero true, [], 0)
  (r.2.1.reverse, r.2.2)

def execVfredAddF32 (w : Bool) (r : BitVec 2) (d a : BitVec 7) (s : State) : Out :=
  let m := modeOf r.toNat
  fred32 w d a s m (FV.zero true) (addR Fmt.f32 m)
def execVfscanAddF32 (w : Bool) (r : BitVec 2) (d a : BitVec 7) (s : State) : Out :=
  runV w s .reduce [a.toNat] [d.toNat] fun e rd =>
    let (cs, g) := fscan Fmt.f32 (modeOf r.toNat) e.path.mask fun l => d32 (laneAt (rd a.toNat) l).toNat
    { vals := [lanesFrom fun l => BitVec.ofNat 32 (cs.getD l 0)], mask := e.path.mask, flags := g }
def execVfredMaxF32 (w : Bool) (d a : BitVec 7) (s : State) : Out :=
  fred32 w d a s .rne (.inf true) fun x y => (fmax x y, 0)
def execVfredMinF32 (w : Bool) (d a : BitVec 7) (s : State) : Out :=
  fred32 w d a s .rne (.inf false) fun x y => (fmin x y, 0)
def execVfredAddF64 (w : Bool) (d a : BitVec 7) (s : State) : Out :=
  fred64 w d a s (FV.zero true) (addR Fmt.f64 .rne)
def execVfredMaxF64 (w : Bool) (d a : BitVec 7) (s : State) : Out :=
  fred64 w d a s (.inf true) fun x y => (fmax x y, 0)
def execVfredMinF64 (w : Bool) (d a : BitVec 7) (s : State) : Out :=
  fred64 w d a s (.inf false) fun x y => (fmin x y, 0)
def execVfscanAddF64 (w : Bool) (d a : BitVec 7) (s : State) : Out :=
  runV w s .reduce (pairNames a) (pairNames d) fun e rd =>
    let (cs, g) := fscan Fmt.f64 .rne e.path.mask fun l => d64 (pairLane rd a.toNat l).toNat
    { vals := pairVals fun l => BitVec.ofNat 64 (cs.getD l 0), mask := e.path.mask, flags := g }

end Sys2Proof.Machine
end

