-- ==== Sys2Proof/Machine/Dispatch.lean ====
section
/-! DEFINITION. The meaning of every instruction and of every step of another agent: one arm for each constructor. -/

namespace Sys2Proof.Machine

def exec (i : Instr) (s : State) : Host.Outcome State Fault Refusal :=
  match i with
  | .clauseHeader n c sc l y => Sys2Proof.Machine.execClauseHeader n c sc l y s
  | .pfx w o sc p c => Sys2Proof.Machine.execPfx w o sc p c s
  | .sadd w d a b => Sys2Proof.Machine.execSadd w d a b s
  | .ssub w d a b => Sys2Proof.Machine.execSsub w d a b s
  | .smul w d a b => Sys2Proof.Machine.execSmul w d a b s
  | .smulwI32 w d a b => Sys2Proof.Machine.execSmulwI32 w d a b s
  | .smulwN32 w d a b => Sys2Proof.Machine.execSmulwN32 w d a b s
  | .sdivI32 w d a b => Sys2Proof.Machine.execSdivI32 w d a b s
  | .sdivN32 w d a b => Sys2Proof.Machine.execSdivN32 w d a b s
  | .sremI32 w d a b => Sys2Proof.Machine.execSremI32 w d a b s
  | .sremN32 w d a b => Sys2Proof.Machine.execSremN32 w d a b s
  | .sand w d a b => Sys2Proof.Machine.execSand w d a b s
  | .sor w d a b => Sys2Proof.Machine.execSor w d a b s
  | .sxor w d a b => Sys2Proof.Machine.execSxor w d a b s
  | .sandn w d a b => Sys2Proof.Machine.execSandn w d a b s
  | .sshl w d a b => Sys2Proof.Machine.execSshl w d a b s
  | .sshr w d a b => Sys2Proof.Machine.execSshr w d a b s
  | .ssra w d a b => Sys2Proof.Machine.execSsra w d a b s
  | .sminI32 w d a b => Sys2Proof.Machine.execSminI32 w d a b s
  | .sminN32 w d a b => Sys2Proof.Machine.execSminN32 w d a b s
  | .smaxI32 w d a b => Sys2Proof.Machine.execSmaxI32 w d a b s
  | .smaxN32 w d a b => Sys2Proof.Machine.execSmaxN32 w d a b s
  | .saddB64 w d a b => Sys2Proof.Machine.execSaddB64 w d a b s
  | .ssubB64 w d a b => Sys2Proof.Machine.execSsubB64 w d a b s
  | .smulB64 w d a b => Sys2Proof.Machine.execSmulB64 w d a b s
  | .saddwI32 w d a b => Sys2Proof.Machine.execSaddwI32 w d a b s
  | .saddwN32 w d a b => Sys2Proof.Machine.execSaddwN32 w d a b s
  | .sshlB64 w d a b => Sys2Proof.Machine.execSshlB64 w d a b s
  | .sshrB64 w d a b => Sys2Proof.Machine.execSshrB64 w d a b s
  | .ssraB64 w d a b => Sys2Proof.Machine.execSsraB64 w d a b s
  | .sandB64 w d a b => Sys2Proof.Machine.execSandB64 w d a b s
  | .sorB64 w d a b => Sys2Proof.Machine.execSorB64 w d a b s
  | .sxorB64 w d a b => Sys2Proof.Machine.execSxorB64 w d a b s
  | .saddi w d a ix => Sys2Proof.Machine.execSaddi w d a ix s
  | .saddiB64 w d a ix => Sys2Proof.Machine.execSaddiB64 w d a ix s
  | .smovl w d ix => Sys2Proof.Machine.execSmovl w d ix s
  | .smovh w d ix => Sys2Proof.Machine.execSmovh w d ix s
  | .smovs w d ix => Sys2Proof.Machine.execSmovs w d ix s
  | .scmpI32 w c d a b => Sys2Proof.Machine.execScmpI32 w c d a b s
  | .scmpN32 w c d a b => Sys2Proof.Machine.execScmpN32 w c d a b s
  | .scmpB64 w c d a b => Sys2Proof.Machine.execScmpB64 w c d a b s
  | .ssel w d a b => Sys2Proof.Machine.execSsel w d a b s
  | .sselB64 w d a b => Sys2Proof.Machine.execSselB64 w d a b s
  | .sshli w d a n => Sys2Proof.Machine.execSshli w d a n s
  | .sshri w d a n => Sys2Proof.Machine.execSshri w d a n s
  | .ssrai w d a n => Sys2Proof.Machine.execSsrai w d a n s
  | .sbfxN32 w d a b => Sys2Proof.Machine.execSbfxN32 w d a b s
  | .sbfxI32 w d a b => Sys2Proof.Machine.execSbfxI32 w d a b s
  | .sbfi w d a b => Sys2Proof.Machine.execSbfi w d a b s
  | .spopc w d a => Sys2Proof.Machine.execSpopc w d a s
  | .sclz w d a => Sys2Proof.Machine.execSclz w d a s
  | .sctz w d a => Sys2Proof.Machine.execSctz w d a s
  | .sbrev w d a => Sys2Proof.Machine.execSbrev w d a s
  | .sshliB64 w d a n => Sys2Proof.Machine.execSshliB64 w d a n s
  | .sshriB64 w d a n => Sys2Proof.Machine.execSshriB64 w d a n s
  | .ssraiB64 w d a n => Sys2Proof.Machine.execSsraiB64 w d a n s
  | .spopcB64 w d a => Sys2Proof.Machine.execSpopcB64 w d a s
  | .sclzB64 w d a => Sys2Proof.Machine.execSclzB64 w d a s
  | .sctzB64 w d a => Sys2Proof.Machine.execSctzB64 w d a s
  | .br w o => Sys2Proof.Machine.execBr w o s
  | .brAny w p o => Sys2Proof.Machine.execBrAny w p o s
  | .brZ w sc o => Sys2Proof.Machine.execBrZ w sc o s
  | .brNz w sc o => Sys2Proof.Machine.execBrNz w sc o s
  | .brv w p o => Sys2Proof.Machine.execBrv w p o s
  | .brvN w p o => Sys2Proof.Machine.execBrvN w p o s
  | .call w o => Sys2Proof.Machine.execCall w o s
  | .ret w => Sys2Proof.Machine.execRet w s
  | .jt w a => Sys2Proof.Machine.execJt w a s
  | .jtCall w a => Sys2Proof.Machine.execJtCall w a s
  | .jr w a => Sys2Proof.Machine.execJr w a s
  | .jrCall w a => Sys2Proof.Machine.execJrCall w a s
  | .rejoin w o => Sys2Proof.Machine.execRejoin w o s
  | .eqp w n => Sys2Proof.Machine.execEqp w n s
  | .ppush w a => Sys2Proof.Machine.execPpush w a s
  | .ppushN w a => Sys2Proof.Machine.execPpushN w a s
  | .pinv w => Sys2Proof.Machine.execPinv w s
  | .ppop w => Sys2Proof.Machine.execPpop w s
  | .pand w d a b => Sys2Proof.Machine.execPand w d a b s
  | .por w d a b => Sys2Proof.Machine.execPor w d a b s
  | .pxor w d a b => Sys2Proof.Machine.execPxor w d a b s
  | .pandn w d a b => Sys2Proof.Machine.execPandn w d a b s
  | .pnot w d a => Sys2Proof.Machine.execPnot w d a s
  | .pelect w d => Sys2Proof.Machine.execPelect w d s
  | .pld w d a => Sys2Proof.Machine.execPld w d a s
  | .pst w d a => Sys2Proof.Machine.execPst w d a s
  | .pcnt w d a => Sys2Proof.Machine.execPcnt w d a s
  | .barSync w ix => Sys2Proof.Machine.execBarSync w ix s
  | .wait w e n d a b => Sys2Proof.Machine.execWait w e n d a b s
  | .waitcnt w sc l => Sys2Proof.Machine.execWaitcnt w sc l s
  | .exit w => Sys2Proof.Machine.execExit w s
  | .trap w n => Sys2Proof.Machine.execTrap w n s
  | .brk w n => Sys2Proof.Machine.execBrk w n s
  | .nop w => Sys2Proof.Machine.execNop w s
  | .rdsr w d a => Sys2Proof.Machine.execRdsr w d a s
  | .rdsrPair w d a => Sys2Proof.Machine.execRdsrPair w d a s
  | .wrsr w d a => Sys2Proof.Machine.execWrsr w d a s
  | .efork w a b => Sys2Proof.Machine.execEfork w a b s
  | .erdv w => Sys2Proof.Machine.execErdv w s
  | .hintSucc w => Sys2Proof.Machine.execHintSucc w s
  | .waitPred w d => Sys2Proof.Machine.execWaitPred w d s
  | .migrReq w k => Sys2Proof.Machine.execMigrReq w k s
  | .rdsrVector w d a => Sys2Proof.Machine.execRdsrVector w d a s
  | .rdctx w d a => Sys2Proof.Machine.execRdctx w d a s
  | .emretTo w k => Sys2Proof.Machine.execEmretTo w k s
  | .emretSkip w k => Sys2Proof.Machine.execEmretSkip w k s
  | .nmove w d a => Sys2Proof.Machine.execNmove w d a s
  | .nalias w d a => Sys2Proof.Machine.execNalias w d a s
  | .nswap w d a => Sys2Proof.Machine.execNswap w d a s
  | .ndrop w a => Sys2Proof.Machine.execNdrop w a s
  | .nfresh w d => Sys2Proof.Machine.execNfresh w d s
  | .ngive w sc a l => Sys2Proof.Machine.execNgive w sc a l s
  | .ntake w d sc l => Sys2Proof.Machine.execNtake w d sc l s
  | .nperm w d a k => Sys2Proof.Machine.execNperm w d a k s
  | .nquery w d a => Sys2Proof.Machine.execNquery w d a s
  | .vaddI32 w d a b => Sys2Proof.Machine.execVaddI32 w d a b s
  | .vsubI32 w d a b => Sys2Proof.Machine.execVsubI32 w d a b s
  | .vmulI32 w d a b => Sys2Proof.Machine.execVmulI32 w d a b s
  | .vmulhiI32 w d a b => Sys2Proof.Machine.execVmulhiI32 w d a b s
  | .vmulhiN32 w d a b => Sys2Proof.Machine.execVmulhiN32 w d a b s
  | .vminI32 w d a b => Sys2Proof.Machine.execVminI32 w d a b s
  | .vminN32 w d a b => Sys2Proof.Machine.execVminN32 w d a b s
  | .vmaxI32 w d a b => Sys2Proof.Machine.execVmaxI32 w d a b s
  | .vmaxN32 w d a b => Sys2Proof.Machine.execVmaxN32 w d a b s
  | .vaddsI32 w d a b => Sys2Proof.Machine.execVaddsI32 w d a b s
  | .vsubsI32 w d a b => Sys2Proof.Machine.execVsubsI32 w d a b s
  | .vabsI32 w d a => Sys2Proof.Machine.execVabsI32 w d a s
  | .vaddminI32 w d a b => Sys2Proof.Machine.execVaddminI32 w d a b s
  | .vcopy w d a => Sys2Proof.Machine.execVcopy w d a s
  | .vaddB64 w d a b => Sys2Proof.Machine.execVaddB64 w d a b s
  | .vsubB64 w d a b => Sys2Proof.Machine.execVsubB64 w d a b s
  | .vand w d a b => Sys2Proof.Machine.execVand w d a b s
  | .vor w d a b => Sys2Proof.Machine.execVor w d a b s
  | .vxor w d a b => Sys2Proof.Machine.execVxor w d a b s
  | .vandn w d a b => Sys2Proof.Machine.execVandn w d a b s
  | .vnot w d a => Sys2Proof.Machine.execVnot w d a s
  | .vshl w d a b => Sys2Proof.Machine.execVshl w d a b s
  | .vshr w d a b => Sys2Proof.Machine.execVshr w d a b s
  | .vsra w d a b => Sys2Proof.Machine.execVsra w d a b s
  | .vpopc w d a => Sys2Proof.Machine.execVpopc w d a s
  | .vclz w d a => Sys2Proof.Machine.execVclz w d a s
  | .vctz w d a => Sys2Proof.Machine.execVctz w d a s
  | .vbrev w d a => Sys2Proof.Machine.execVbrev w d a s
  | .vaddiI32 w d a ix => Sys2Proof.Machine.execVaddiI32 w d a ix s
  | .vmuliI32 w d a ix => Sys2Proof.Machine.execVmuliI32 w d a ix s
  | .vandi w d a ix => Sys2Proof.Machine.execVandi w d a ix s
  | .vori w d a ix => Sys2Proof.Machine.execVori w d a ix s
  | .vxori w d a ix => Sys2Proof.Machine.execVxori w d a ix s
  | .vminiI32 w d a ix => Sys2Proof.Machine.execVminiI32 w d a ix s
  | .vmaxiI32 w d a ix => Sys2Proof.Machine.execVmaxiI32 w d a ix s
  | .vshli w d a ix => Sys2Proof.Machine.execVshli w d a ix s
  | .vshri w d a ix => Sys2Proof.Machine.execVshri w d a ix s
  | .vsrai w d a ix => Sys2Proof.Machine.execVsrai w d a ix s
  | .vmovi w d ix => Sys2Proof.Machine.execVmovi w d ix s
  | .vmoviH w d ix => Sys2Proof.Machine.execVmoviH w d ix s
  | .vmoviZ w d ix => Sys2Proof.Machine.execVmoviZ w d ix s
  | .vcmpI32 w c p a b => Sys2Proof.Machine.execVcmpI32 w c p a b s
  | .vcmpN32 w c p a b => Sys2Proof.Machine.execVcmpN32 w c p a b s
  | .vtst w p a b => Sys2Proof.Machine.execVtst w p a b s
  | .vsel w p d a b => Sys2Proof.Machine.execVsel w p d a b s
  | .vshfl w d a b => Sys2Proof.Machine.execVshfl w d a b s
  | .vlsh w d a n => Sys2Proof.Machine.execVlsh w d a n s
  | .vbcast w d a n => Sys2Proof.Machine.execVbcast w d a n s
  | .vbcastS w d sc => Sys2Proof.Machine.execVbcastS w d sc s
  | .vregroupRecv w d a g => Sys2Proof.Machine.execVregroupRecv w d a g s
  | .vregroupSend w d a g => Sys2Proof.Machine.execVregroupSend w d a g s
  | .vredAddI32 w d a => Sys2Proof.Machine.execVredAddI32 w d a s
  | .vredMinI32 w d a => Sys2Proof.Machine.execVredMinI32 w d a s
  | .vredMinN32 w d a => Sys2Proof.Machine.execVredMinN32 w d a s
  | .vredMaxI32 w d a => Sys2Proof.Machine.execVredMaxI32 w d a s
  | .vredMaxN32 w d a => Sys2Proof.Machine.execVredMaxN32 w d a s
  | .vredAnd w d a => Sys2Proof.Machine.execVredAnd w d a s
  | .vredOr w d a => Sys2Proof.Machine.execVredOr w d a s
  | .vredXor w d a => Sys2Proof.Machine.execVredXor w d a s
  | .vscanAddI32 w d a => Sys2Proof.Machine.execVscanAddI32 w d a s
  | .vscanMaxI32 w d a => Sys2Proof.Machine.execVscanMaxI32 w d a s
  | .vvoteAny w d p => Sys2Proof.Machine.execVvoteAny w d p s
  | .vvoteAll w d p => Sys2Proof.Machine.execVvoteAll w d p s
  | .vvoteFirst w d p => Sys2Proof.Machine.execVvoteFirst w d p s
  | .vballot w d p => Sys2Proof.Machine.execVballot w d p s
  | .vdot4I8 w d a b => Sys2Proof.Machine.execVdot4I8 w d a b s
  | .vdot4N8 w d a b => Sys2Proof.Machine.execVdot4N8 w d a b s
  | .vfaddF32 w r d a b => Sys2Proof.Machine.execVfaddF32 w r d a b s
  | .vfsubF32 w r d a b => Sys2Proof.Machine.execVfsubF32 w r d a b s
  | .vfmulF32 w r d a b => Sys2Proof.Machine.execVfmulF32 w r d a b s
  | .vfaddF64 w d a b => Sys2Proof.Machine.execVfaddF64 w d a b s
  | .vfsubF64 w d a b => Sys2Proof.Machine.execVfsubF64 w d a b s
  | .vfmulF64 w d a b => Sys2Proof.Machine.execVfmulF64 w d a b s
  | .vffmaF32 w r d a b => Sys2Proof.Machine.execVffmaF32 w r d a b s
  | .vffmaF64 w r d a b => Sys2Proof.Machine.execVffmaF64 w r d a b s
  | .vfaddminF32 w d a b => Sys2Proof.Machine.execVfaddminF32 w d a b s
  | .vfaddPacked w t d a b => Sys2Proof.Machine.execVfaddPacked w t d a b s
  | .vfsubPacked w t d a b => Sys2Proof.Machine.execVfsubPacked w t d a b s
  | .vfmulPacked w t d a b => Sys2Proof.Machine.execVfmulPacked w t d a b s
  | .vffmaPacked w t d a b => Sys2Proof.Machine.execVffmaPacked w t d a b s
  | .vfminPacked w t d a b => Sys2Proof.Machine.execVfminPacked w t d a b s
  | .vfmaxPacked w t d a b => Sys2Proof.Machine.execVfmaxPacked w t d a b s
  | .vfdot2 w t d a b => Sys2Proof.Machine.execVfdot2 w t d a b s
  | .vcvt w sc d a t r n => Sys2Proof.Machine.execVcvt w sc d a t r n s
  | .vcvtPkBf16x2 w d a b => Sys2Proof.Machine.execVcvtPkBf16x2 w d a b s
  | .vcvtPkF16x2 w d a b => Sys2Proof.Machine.execVcvtPkF16x2 w d a b s
  | .vquant w f d a b => Sys2Proof.Machine.execVquant w f d a b s
  | .vdequant w f d a b => Sys2Proof.Machine.execVdequant w f d a b s
  | .vtrit w d a b => Sys2Proof.Machine.execVtrit w d a b s
  | .vrcpF32 w r d a => Sys2Proof.Machine.execVrcpF32 w r d a s
  | .vsqrtF32 w r d a => Sys2Proof.Machine.execVsqrtF32 w r d a s
  | .vdivF32 w r d a b => Sys2Proof.Machine.execVdivF32 w r d a b s
  | .vexp2F32 w d a => Sys2Proof.Machine.execVexp2F32 w d a s
  | .vlog2F32 w d a => Sys2Proof.Machine.execVlog2F32 w d a s
  | .vsinF32 w d a => Sys2Proof.Machine.execVsinF32 w d a s
  | .vcosF32 w d a => Sys2Proof.Machine.execVcosF32 w d a s
  | .vfcmpF32 w c p a b => Sys2Proof.Machine.execVfcmpF32 w c p a b s
  | .vfcmpF64 w c p a b => Sys2Proof.Machine.execVfcmpF64 w c p a b s
  | .vfclassF32 w p a k => Sys2Proof.Machine.execVfclassF32 w p a k s
  | .vfclassF64 w p a k => Sys2Proof.Machine.execVfclassF64 w p a k s
  | .vfminF32 w d a b => Sys2Proof.Machine.execVfminF32 w d a b s
  | .vfmaxF32 w d a b => Sys2Proof.Machine.execVfmaxF32 w d a b s
  | .vfminF64 w d a b => Sys2Proof.Machine.execVfminF64 w d a b s
  | .vfmaxF64 w d a b => Sys2Proof.Machine.execVfmaxF64 w d a b s
  | .vfabsF32 w d a => Sys2Proof.Machine.execVfabsF32 w d a s
  | .vfnegF32 w d a => Sys2Proof.Machine.execVfnegF32 w d a s
  | .vfcsgnF32 w d a b => Sys2Proof.Machine.execVfcsgnF32 w d a b s
  | .vfabsF64 w d a => Sys2Proof.Machine.execVfabsF64 w d a s
  | .vfnegF64 w d a => Sys2Proof.Machine.execVfnegF64 w d a s
  | .vfcsgnF64 w d a b => Sys2Proof.Machine.execVfcsgnF64 w d a b s
  | .vfredAddF32 w r d a => Sys2Proof.Machine.execVfredAddF32 w r d a s
  | .vfscanAddF32 w r d a => Sys2Proof.Machine.execVfscanAddF32 w r d a s
  | .vfredMaxF32 w d a => Sys2Proof.Machine.execVfredMaxF32 w d a s
  | .vfredMinF32 w d a => Sys2Proof.Machine.execVfredMinF32 w d a s
  | .vfredAddF64 w d a => Sys2Proof.Machine.execVfredAddF64 w d a s
  | .vfredMaxF64 w d a => Sys2Proof.Machine.execVfredMaxF64 w d a s
  | .vfredMinF64 w d a => Sys2Proof.Machine.execVfredMinF64 w d a s
  | .vfscanAddF64 w d a => Sys2Proof.Machine.execVfscanAddF64 w d a s
  | .vld w t d o b sc => Sys2Proof.Machine.execVld w t d o b sc s
  | .vst w t d o b sc => Sys2Proof.Machine.execVst w t d o b sc s
  | .vatom w p d o b sc => Sys2Proof.Machine.execVatom w p d o b sc s
  | .fatom w p d o b sc => Sys2Proof.Machine.execFatom w p d o b sc s
  | .vldSp w z d o b sc => Sys2Proof.Machine.execVldSp w z d o b sc s
  | .vstSp w z d o b sc => Sys2Proof.Machine.execVstSp w z d o b sc s
  | .vldNv w z d o b sc => Sys2Proof.Machine.execVldNv w z d o b sc s
  | .vstNv w z d o b sc => Sys2Proof.Machine.execVstNv w z d o b sc s
  | .vcacheWb w o b sc => Sys2Proof.Machine.execVcacheWb w o b sc s
  | .vcacheWbinv w o b sc => Sys2Proof.Machine.execVcacheWbinv w o b sc s
  | .vcachePf w o b sc => Sys2Proof.Machine.execVcachePf w o b sc s
  | .vcacheDemote w o b sc => Sys2Proof.Machine.execVcacheDemote w o b sc s
  | .sld w d a t f => Sys2Proof.Machine.execSld w d a t f s
  | .sst w d a t f => Sys2Proof.Machine.execSst w d a t f s
  | .satom w p d a b => Sys2Proof.Machine.execSatom w p d a b s
  | .satomNr w p a b => Sys2Proof.Machine.execSatomNr w p a b s
  | .fence w o e => Sys2Proof.Machine.execFence w o e s
  | .xfence w a b => Sys2Proof.Machine.execXfence w a b s
  | .tlfence w e => Sys2Proof.Machine.execTlfence w e s
  | .ifence w => Sys2Proof.Machine.execIfence w s
  | .cpyLd w t a p => Sys2Proof.Machine.execCpyLd w t a p s
  | .cpySlot w t a p => Sys2Proof.Machine.execCpySlot w t a p s
  | .cpySt w t a p => Sys2Proof.Machine.execCpySt w t a p s
  | .cpyGg w t a p => Sys2Proof.Machine.execCpyGg w t a p s
  | .cpyGth w t a p => Sys2Proof.Machine.execCpyGth w t a p s
  | .cpyMc w t a p => Sys2Proof.Machine.execCpyMc w t a p s
  | .cpyMcSlot w t a p => Sys2Proof.Machine.execCpyMcSlot w t a p s
  | .tnset w t a d => Sys2Proof.Machine.execTnset w t a d s
  | .tnget w t d => Sys2Proof.Machine.execTnget w t d s
  | .cbat w e d => Sys2Proof.Machine.execCbat w e d s
  | .cwait w n => Sys2Proof.Machine.execCwait w n s
  | .cwaitR w a => Sys2Proof.Machine.execCwaitR w a s
  | .tbinit w a b => Sys2Proof.Machine.execTbinit w a b s
  | .tbarrive w a k => Sys2Proof.Machine.execTbarrive w a k s
  | .tbarriveR w a b => Sys2Proof.Machine.execTbarriveR w a b s
  | .tbwait w a b => Sys2Proof.Machine.execTbwait w a b s
  | .tbphase w a d => Sys2Proof.Machine.execTbphase w a d s
  | .sltake w a ix => Sys2Proof.Machine.execSltake w a ix s
  | .slrel w a ix => Sys2Proof.Machine.execSlrel w a ix s
  | .sltag w a d ix => Sys2Proof.Machine.execSltag w a d ix s
  | .slinit w a n => Sys2Proof.Machine.execSlinit w a n s
  | .qpush w g r a q => Sys2Proof.Machine.execQpush w g r a q s
  | .qpushTry w g r a d q => Sys2Proof.Machine.execQpushTry w g r a d q s
  | .qwait w g r a q => Sys2Proof.Machine.execQwait w g r a q s
  | .qpopTry w g r a d q => Sys2Proof.Machine.execQpopTry w g r a d q s
  | .vmma w f h a b => Sys2Proof.Machine.execVmma w f h a b s
  | .fmm w h a z => Sys2Proof.Machine.execFmm w h a z s
  | .fmmt w h a z => Sys2Proof.Machine.execFmmt w h a z s
  | .fpoly w h a => Sys2Proof.Machine.execFpoly w h a s
  | .fiter w h a d => Sys2Proof.Machine.execFiter w h a d s
  | .ftmask w h a => Sys2Proof.Machine.execFtmask w h a s
  | .ftmaskAnc w h a => Sys2Proof.Machine.execFtmaskAnc w h a s
  | .faccLd w h a => Sys2Proof.Machine.execFaccLd w h a s
  | .faccStF32 w h a => Sys2Proof.Machine.execFaccStF32 w h a s
  | .faccStBf16 w h a => Sys2Proof.Machine.execFaccStBf16 w h a s
  | .faccStF16 w h a => Sys2Proof.Machine.execFaccStF16 w h a s
  | .faccRd w h d c => Sys2Proof.Machine.execFaccRd w h d c s
  | .faccZero w h => Sys2Proof.Machine.execFaccZero w h s
  | .fcset w n a => Sys2Proof.Machine.execFcset w n a s
  | .fcget w n d => Sys2Proof.Machine.execFcget w n d s
  | .fcld w a => Sys2Proof.Machine.execFcld w a s
  | .fslotTake w a ix => Sys2Proof.Machine.execFslotTake w a ix s
  | .fslotRelease w a ix => Sys2Proof.Machine.execFslotRelease w a ix s
  | .ftbarrive w a k => Sys2Proof.Machine.execFtbarrive w a k s
  | .emulationEntry word => Sys2Proof.Machine.execEmulationEntry word s
  | .packetNop q => Sys2Proof.Machine.execPacketNop q s
  | .launch q => Sys2Proof.Machine.execLaunch q s
  | .signal q => Sys2Proof.Machine.execSignal q s
  | .signalWaitallRelease q => Sys2Proof.Machine.execSignalWaitallRelease q s
  | .waitmem q => Sys2Proof.Machine.execWaitmem q s
  | .waitmemSatisfied q => Sys2Proof.Machine.execWaitmemSatisfied q s
  | .fieldset q => Sys2Proof.Machine.execFieldset q s
  | .fieldsetDestroy q => Sys2Proof.Machine.execFieldsetDestroy q s
  | .setctx q => Sys2Proof.Machine.execSetctx q s
  | .setctxDestroy q => Sys2Proof.Machine.execSetctxDestroy q s
  | .wqcreate q => Sys2Proof.Machine.execWqcreate q s
  | .wqDestroy q => Sys2Proof.Machine.execWqDestroy q s
  | .graphrun q => Sys2Proof.Machine.execGraphrun q s
  | .graphedit q => Sys2Proof.Machine.execGraphedit q s
  | .fwdupdate q => Sys2Proof.Machine.execFwdupdate q s
  | .xlateinv q => Sys2Proof.Machine.execXlateinv q s
  | .syninv q => Sys2Proof.Machine.execSyninv q s
  | .vaultgrant q => Sys2Proof.Machine.execVaultgrant q s
  | .preempt q => Sys2Proof.Machine.execPreempt q s
  | .teamctlDestroy q => Sys2Proof.Machine.execTeamctlDestroy q s
  | .teamctlResume q => Sys2Proof.Machine.execTeamctlResume q s
  | .faultreplyRetry q => Sys2Proof.Machine.execFaultreplyRetry q s
  | .faultreplyFail q => Sys2Proof.Machine.execFaultreplyFail q s
  | .faultring q => Sys2Proof.Machine.execFaultring q s
  | .vaultcarve q => Sys2Proof.Machine.execVaultcarve q s
  | .keyarea q => Sys2Proof.Machine.execKeyarea q s
  | .protways q => Sys2Proof.Machine.execProtways q s
  | .scrub q => Sys2Proof.Machine.execScrub q s
  | .attest q => Sys2Proof.Machine.execAttest q s
  | .tracekey q => Sys2Proof.Machine.execTracekey q s
  | .dbgctlBpset q => Sys2Proof.Machine.execDbgctlBpset q s
  | .dbgctlStop q => Sys2Proof.Machine.execDbgctlStop q s
  | .dbgctlResume q => Sys2Proof.Machine.execDbgctlResume q s
  | .dbgctlStep q => Sys2Proof.Machine.execDbgctlStep q s
  | .dbgctlDump q => Sys2Proof.Machine.execDbgctlDump q s
  | .dbgctlWrite q => Sys2Proof.Machine.execDbgctlWrite q s
  | .tracectl q => Sys2Proof.Machine.execTracectl q s
  | .resync q => Sys2Proof.Machine.execResync q s
  | .powercap q => Sys2Proof.Machine.execPowercap q s
  | .doorbell q => Sys2Proof.Machine.execDoorbell q s
  | .queueScan q => Sys2Proof.Machine.execQueueScan q s
  | .orphanLatch slot => Sys2Proof.Machine.execOrphanLatch slot s
  | .qtbaseWrite v => Sys2Proof.Machine.execQtbaseWrite v s
  | .cxldecWrite v => Sys2Proof.Machine.execCxldecWrite v s
  | .registerWrite off v => Sys2Proof.Machine.execRegisterWrite off v s
  | .go v => Sys2Proof.Machine.execGo v s
  | .resetreq v => Sys2Proof.Machine.execResetreq v s
  | .bootLoadComplete => Sys2Proof.Machine.execBootLoadComplete s
  | .powerOnReset => Sys2Proof.Machine.execPowerOnReset s
  | .deviceReset => Sys2Proof.Machine.execDeviceReset s
  | .hostWindowAccess link win off len wr data => Sys2Proof.Machine.execHostWindowAccess link win off len wr data s
  | .teamAdmit => Sys2Proof.Machine.execTeamAdmit s
  | .teamSaveComplete t => Sys2Proof.Machine.execTeamSaveComplete t s
  | .teamRestore t => Sys2Proof.Machine.execTeamRestore t s
  | .drainTimeout t => Sys2Proof.Machine.execDrainTimeout t s
  | .serviceLimitExpiry t => Sys2Proof.Machine.execServiceLimitExpiry t s
  | .migration t => Sys2Proof.Machine.execMigration t s
  | .eqpHoldTimeout t g => Sys2Proof.Machine.execEqpHoldTimeout t g s
  | .clearSequenceDone core => Sys2Proof.Machine.execClearSequenceDone core s
  | .keyReseat ctx => Sys2Proof.Machine.execKeyReseat ctx s
  | .walkComplete r => Sys2Proof.Machine.execWalkComplete r s
  | .faultRingRoom => Sys2Proof.Machine.execFaultRingRoom s
  | .homeRequest r => Sys2Proof.Machine.execHomeRequest r s
  | .clockBeatSend src dst => Sys2Proof.Machine.execClockBeatSend src dst s
  | .clockBeat src dst => Sys2Proof.Machine.execClockBeat src dst s
  | .replyReceive r => Sys2Proof.Machine.execReplyReceive r s
  | .resultReturn a => Sys2Proof.Machine.execResultReturn a s
  | .storePerformed a => Sys2Proof.Machine.execStorePerformed a s
  | .sectorLand c ix => Sys2Proof.Machine.execSectorLand c ix s
  | .l2WriteQueuePerform die c ix => Sys2Proof.Machine.execL2WriteQueuePerform die c ix s
  | .flumeOpApplied t src => Sys2Proof.Machine.execFlumeOpApplied t src s
  | .fiterStop t => Sys2Proof.Machine.execFiterStop t s
  | .waitTimeout t g p => Sys2Proof.Machine.execWaitTimeout t g p s
  | .waitMemwordPoll t g p => Sys2Proof.Machine.execWaitMemwordPoll t g p s
  | .rowPoolEmpty t g p => Sys2Proof.Machine.execRowPoolEmpty t g p s
  | .queueRequestAtHome m => Sys2Proof.Machine.execQueueRequestAtHome m s
  | .llScoreHalve core => Sys2Proof.Machine.execLlScoreHalve core s
  | .llCapUpdate core => Sys2Proof.Machine.execLlCapUpdate core s
  | .sampleTag core slice => Sys2Proof.Machine.execSampleTag core slice s
  | .flitReceive link lowBad highBad => Sys2Proof.Machine.execFlitReceive link lowBad highBad s
  | .ackIdleTimer link => Sys2Proof.Machine.execAckIdleTimer link s
  | .nakRepeatTimer link => Sys2Proof.Machine.execNakRepeatTimer link s
  | .replayTimeout link => Sys2Proof.Machine.execReplayTimeout link s
  | .retrainComplete link module => Sys2Proof.Machine.execRetrainComplete link module s
  | .coreUncorrectableError core lost => Sys2Proof.Machine.execCoreUncorrectableError core lost s
  | .eccCorrected index => Sys2Proof.Machine.execEccCorrected index s
  | .sectorPoison kind unit x => Sys2Proof.Machine.execSectorPoison kind unit x s
  | .laneDefect core slice lane => Sys2Proof.Machine.execLaneDefect core slice lane s
  | .powerThrottle sixteenths => Sys2Proof.Machine.execPowerThrottle sixteenths s
  | .thermalThrottle die => Sys2Proof.Machine.execThermalThrottle die s
  | .thermalTrip die => Sys2Proof.Machine.execThermalTrip die s
  | .coolantFault => Sys2Proof.Machine.execCoolantFault s
  | .culvertLinkStateChange link up => Sys2Proof.Machine.execCulvertLinkStateChange link up s
  | .cxlPortStateChange port up => Sys2Proof.Machine.execCxlPortStateChange port up s
  | .powerLoss => Sys2Proof.Machine.execPowerLoss s
  | .commandComplete q => Sys2Proof.Machine.execCommandComplete q s
  | .referenceRewrite ctx entry => Sys2Proof.Machine.execReferenceRewrite ctx entry s
  | .remapFilterWalkComplete r => Sys2Proof.Machine.execRemapFilterWalkComplete r s

end Sys2Proof.Machine
end

