-- ==== Sys2Proof/Machine/Sched.lean ====
section
/-! DEFINITION. Who issues and what (R41 to R45, R184 to R202): the checks of a word, what surrounds it, the choice of a
path and of a group, sequencers, the other inputs of the agenda. -/

namespace Sys2Proof.Machine

/-! ## The checks of a word (R199) -/

/-- Where the instructions of a major may stand (R185, R197). -/
def majorPlace (m : Nat) : Place :=
  if m = 0x01 || m = 0x06 || (0x24 ≤ m && m ≤ 0x2B) then .mem1
  else if m ≤ 0x08 || m = 0x0A then .any0
  else if 0x2C ≤ m && m ≤ 0x31 then .async
  else if m = 0x32 then .flume3
  else if 0x33 ≤ m && m ≤ 0x35 then .flume4
  else if 0x36 ≤ m then .flume34
  else .group0

/-- Where an instruction of a major may stand. -/
def placeOf (m : Nat) : Instr → Place
  | .brAny _ _ _ => .group0
  | .wait _ _ _ _ _ _ => .any0
  | .exit _ => .any0
  | .trap _ _ => .any0
  | .rdctx _ _ _ => .sys6
  | .emretTo _ _ => .sys6
  | .emretSkip _ _ => .sys6
  | .faccRd _ _ _ _ => .flume3
  | .fslotTake _ _ _ => .flume4
  | .fslotRelease _ _ _ => .flume4
  | .ftbarrive _ _ _ => .flume4
  | _ => majorPlace m

/-- What the checks of R199 make of a word in a clause of a class: an instruction, or a trap's code and detail. DESIGN CHOICE (log entry
80): a minor of 0x6 to 0xF of `vmma` in a clause of class 4 is reported as detail 2, its class, before detail 1; R199 does not order the
two checks. -/
noncomputable def checkWord (cls : Nat) (may : Place → Bool) (w : Word) : Except (Nat × Nat) Instr :=
  let m := majorOf w
  if m = 0 then .error (0x01, 1)
  else if 0x38 ≤ m then .ok (.emulationEntry w)
  else if !classAccepts cls m then .error (0x02, 0)
  else
    match parse w with
    | .unallocated => .error (0x01, 1)
    | .reserved i => .error (0x01, if may (placeOf m i) then (reservedField i).detail else 2)
    | .ok i =>
      if !may (placeOf m i) then .error (0x01, 2)
      else
        match i.check with
        | some x => .error (0x01, x.detail)
        | none => .ok i

/-! ## A group's header and word -/

/-- A state that a step answers, gone on from. -/
def onNext (o : Out) (f : State → State) : Out :=
  match o with
  | .next s => .next (f s)
  | .fault x => .fault x
  | .refused x => .refused x

/-- What a step of the table answers, where its occasion has arisen. -/
def due (o : Out) (s : State) : State := match o with | .next s' => s' | _ => s

/-- A path whose header has not been opened keeps the address that it reached: each fetch redirects it once (R332). -/
def keepOld (s : State) (e : Env) (pc : Nat) : State :=
  updPath s e.t e.g e.p fun p =>
    if p.clause.isNone && p.hold.isSome && p.pc = BitVec.ofNat 64 pc then { p with pc := e.path.pc } else p

/-- A path at a clause header: its address goes through the forwarding table, the header is fetched, and it is a header
whatever its bits (R186, R332). -/
def groupHeader (s : State) (e : Env) : Out :=
  let pc := forwarded s e.team.id.core e.team.id.ctx e.path.pc.toNat
  match fetch s e.team e.t (some e.g) e.p pc 4 with
  | .violation => .next (stopGroup s e.t e.g e.p (BitVec.ofNat 64 pc) 0x0A 0 (BitVec.ofNat 64 pc))
  | .waiting s => .next (standAt s e (retryHold s e.path.hold))
  | .bytes b s =>
    let s := if pc = e.path.pc.toNat then s else updPath s e.t e.g e.p fun p => { p with pc := BitVec.ofNat 64 pc }
    match decodeHeader ((wordsOf b).headD 0) with
    | some i => if pc = e.path.pc.toNat then exec i s else onNext (exec i s) fun s => keepOld s e pc
    | none => .next (stopGroup s e.t e.g e.p (BitVec.ofNat 64 pc) 0x02 0 0)

/-- A path at a word of its clause. -/
noncomputable def groupWord (s : State) (e : Env) (c : Clause) (w : Word) : Out :=
  let cls := classOf c.header
  match checkWord cls (fun p => p.group cls) w with
  | .error (code, detail) => finish false e s (.trap code detail 0)
  | .ok i => exec i s

/-- The header or word at which a path stands, run with nothing around it. -/
noncomputable def groupBare (s : State) (e : Env) : Out :=
  match e.path.clause with
  | none => groupHeader s e
  | some c => match c.words with
    | [] => .fault .noAgent
    | w :: _ => groupWord s e c w

/-! ## What surrounds a word -/

/-- A slice's counts after a clock in which it has issued from a group, or from none (R45). -/
def Slice.clocked (k : Slice) (x : Option (Nat × Nat)) : Slice :=
  { k with
    last := x
    waited := (k.active ++ k.pending).map fun y =>
      (y, if some y = x then 0 else ((k.waited.find? fun z => z.1 == y).map (·.2)).getD 0 + 1) }

/-- The word that a path issues while a tag is due becomes the tagged word (R410). -/
def Slice.tagWord (k : Slice) (e : Env) (now : Nat) : Slice :=
  if k.due then
    { k with due := false, tag := some { team := e.t, group := e.g, path := e.p, pc := e.path.pc, mask := e.path.mask,
                                         refclk := now, access := none, op := none } }
  else k

/-- A word's issue counted by sampling, where that is on; the word is tagged where the countdown has run out (R410). -/
def sampleIssue (s : State) (e : Env) : State :=
  let core := e.team.id.core
  let s := due (execSampleTag core e.grp.slice s) s
  s.setSlice core e.grp.slice (((s.slice core e.grp.slice).tagWord e s.refclk).countIssue s.trace.meanlog)

/-- The waits of a group's other paths while one issues (R41). -/
def chargeIssue (s : State) (e : Env) : State :=
  updGroup s e.t e.g fun grp =>
    { grp with paths := grp.paths.mapVals fun q path =>
        if q = e.p then { path with waited := 0 } else { path with waited := path.waited + 1 } }

/-- Before a word of a path issues: the counts, and at its first try the results that are due and those that may come
early (R189, R191). Headers and prefix words do not count toward latencies. -/
def prepare (s : State) (e : Env) (w : Word) : State :=
  let s := chargeIssue s e
  if e.path.hold.isNone && majorOf w != 0x01 then settleEarly (settleLate s e.t e.g e.p) e.t e.g else s

/-- What a tagged word has begun: its access, its Flume operation, its fixed-latency results. `b` is the state in which it issued. -/
def linkTag (b s : State) (e : Env) : State :=
  let core := e.team.id.core
  let k := s.slice core e.grp.slice
  match k.tag with
  | some g =>
    if (b.slice core e.grp.slice).tag.isSome then s
    else
      let ops := ((s.teams.get? e.t).map fun team => team.fl.ops).getD []
      let old := (((b.teams.get? e.t).bind fun team => team.groups.get? e.g).map (·.late)).getD []
      let s := updGroup s e.t e.g fun grp =>
        { grp with late := grp.late.map fun l => if old.contains l then l else { l with tagged := true } }
      s.setSlice core e.grp.slice { k with tag := some { g with
        access := s.accs.keys.find? fun a => b.nextId ≤ a
        op := (ops.find? fun o => b.nextId ≤ o.id).map (·.id) } }
  | none => s

/-- A path released by RESUME or STEP after it has moved on from where `old` has it, or trapped (R406). -/
def settlePath (s : State) (t g p : Nat) (old : Path) : State :=
  match (s.teams.get? t).bind fun team => team.groups.get? g with
  | none => s
  | some grp =>
    match grp.paths.get? p with
    | none => s
    | some path =>
      let trapped := (grp.stop.map fun r => r.path == p).getD false
      let moved := path.pc != old.pc || path.clause != old.clause
      let prefixed := (path.clause.bind fun c => c.pfx).isSome
      if path.pass = 0 || path.st = 2 then s
      else if trapped then if path.pass = 2 then pathStop s t g p 64 else updPath s t g p fun p => { p with pass := 0 }
      else if !moved || prefixed then s
      else if path.pass = 1 then updPath s t g p fun p => { p with pass := 0 }
      else if old.clause.isSome then pathStop s t g p 64
      else s

/-- The same for the path that has just issued. -/
def settlePass (s : State) (e : Env) : State := settlePath s e.t e.g e.p e.path

/-- The same for every path whose word an event has ended since `b`: a barrier, a wait, a queue's answer, a merge (R406). -/
def settlePasses (b s : State) : State :=
  (s.teams.flatMap fun te => te.2.groups.flatMap fun ge => ge.2.paths.filterMap fun pe =>
    if pe.2.pass = 0 then none
    else (((b.teams.get? te.1).bind fun team => team.groups.get? ge.1).bind fun grp => grp.paths.get? pe.1).map
      fun old => (te.1, ge.1, pe.1, old)).foldl (fun s x => settlePath s x.1 x.2.1 x.2.2.1 x.2.2.2) s

/-- Whether a path has issued the word at which it stood: it has gone on, or waits for what the word has begun. A prefix is one
step with the word that follows it (R195). -/
def issuedWord (s : State) (e : Env) : Bool :=
  match ((s.teams.get? e.t).bind fun team => team.groups.get? e.g).bind fun grp => grp.paths.get? e.p with
  | none => true
  | some p =>
    (p.pc != e.path.pc || p.clause != e.path.clause || (p.st != e.path.st && p.st != 3) || !p.hold.all Hold.retried) &&
      (p.clause.bind fun c => c.pfx).isNone

/-- SKID of a path: a word that it issues after the halt has reached it (R53, R379). A word that stands and is tried again
counts once. -/
def countSkid (s : State) (e : Env) : State :=
  if e.team.halted && issuedWord s e then updPath s e.t e.g e.p fun p => { p with skid := p.skid + 1 } else s

/-- Whether the word at which a path stood has trapped: it has issued (R410). -/
def trappedWord (b s : State) (e : Env) : Bool :=
  let stop (x : State) : Option StopRec := ((x.teams.get? e.t).bind fun team => team.groups.get? e.g).bind (·.stop)
  (stop b).isNone && (stop s).any fun r => r.path == e.p && r.pc == e.path.pc

/-- After a word of a path, issued in `b`. -/
def settleWord (b s : State) (e : Env) : State :=
  let issued := issuedWord s e || trappedWord b s e
  settlePass (countSkid (if sampling s && issued then linkTag b (sampleIssue s e) e else s) e) e

/-! ## Comparators (R405) -/

/-- Whether a comparator names a path and an address. -/
def Comparator.hits (x : Comparator) (e : Env) (a : Nat) : Bool :=
  x.addr.toNat == a && x.addr != 0 && x.grid.all (· == e.team.id.grid) && x.team.all (· == e.team.id.num) &&
    x.group.all (· == e.g) && x.path.all (· == e.p)

/-- The addresses of a path's next step: its word's, and that of the word that follows a prefix. A header's is the one that it is
fetched from (R332). -/
def nextAddrs (s : State) (e : Env) : List Nat :=
  match e.path.clause with
  | none => [forwarded s e.team.id.core e.team.id.ctx e.path.pc.toNat]
  | some c =>
    if c.pfx.isSome then [e.path.pc.toNat, e.path.pc.toNat + 4]
    else match c.words with
      | w :: _ => if majorOf w = 0x01 then [e.path.pc.toNat, e.path.pc.toNat + 4] else [e.path.pc.toNat]
      | [] => []

/-- Whether a comparator of the context stops the path before its next step. -/
def comparatorHit (s : State) (e : Env) : Bool :=
  (s.ctx e.team.id.ctx).debug && e.path.pass == 0 && (e.path.clause.bind fun c => c.pfx).isNone &&
    (s.ctxLive e.team.id.ctx).bps.any fun x => (nextAddrs s e).any fun a => x.2.hits e a

/-! ## The issue of a path -/

/-- The path's header or word, with what surrounds it. -/
noncomputable def issueHere (s : State) (e : Env) : Out :=
  if comparatorHit s e then .next (pathStop s e.t e.g e.p 64)
  else
    match e.path.clause with
    | none => onNext (groupHeader s e) fun s' => settlePass s' e
    | some c =>
      match c.words with
      | [] => .fault .noAgent
      | w :: _ =>
        let b := prepare s e w
        onNext (groupWord b e c w) fun s' => settleWord b s' e

/-- The group's path changed: the outgoing path's results are written first (R190). -/
def selectPath (s : State) (t g p : Nat) : State :=
  match (s.teams.get? t).bind fun team => team.groups.get? g with
  | none => s
  | some grp => if grp.cur = p then s else updGroup (landAll s t g) t g fun grp => { grp with cur := p }

/-- Path p of a group issues. -/
noncomputable def issueFrom (s : State) (t g p : Nat) : Out :=
  let s := selectPath { s with cur := some ⟨t, .group g⟩ } t g p
  match issuer s with
  | .group e => issueHere s e
  | _ => .fault .noAgent

/-! ## Readiness -/

/-- Whether a team is on its core and runs. -/
def Team.runs (team : Team) : Bool := match team.stat with | .resident => true | _ => false

/-- Whether another path of a group has a Flume operation under way whose trap is to be precise: the group issues no later word
until its flags are known (R267, R314). -/
def preciseWaits (s : State) (team : Team) (g p : Nat) : Bool :=
  trapen s team != 0 && team.fl.ops.any fun o => o.src == some g && o.kind.precise && o.path != p

/-- Whether a path may issue at all: it is runnable; its group's clocks after a division have passed (R208); its group is not
parked, does not wait at an `eqp`, and is not parked for a move of text; no sibling emulates; and a halted team's path has not come
to its stop (R52, R53, R201, R237, R333). -/
def mayIssue (s : State) (team : Team) (g : Nat) (grp : Group) (p : Nat) (path : Path) : Bool :=
  team.runs && !grp.ended && grp.busy == 0 && !grp.park && !grp.service && path.st == 0 && grp.emu.all (fun x => x.path == p) &&
    (!team.halted || (path.clause.isSome && grp.stop.all fun r => r.path != p)) && grp.atEqp.isNone &&
    !grp.parkedForMove s team && !preciseWaits s team g p

/-- Whether trying the path's word again changes anything. -/
noncomputable def moves (s : State) (t g p : Nat) : Bool :=
  let s0 := selectPath { s with cur := some ⟨t, .group g⟩ } t g p
  match issuer s0 with
  | .group e =>
    match groupBare s0 e with
    | .next s' => s' != s0
    | _ => false
  | _ => false

/-- Whether a path is ready (R41, R44, R186). -/
noncomputable def pathReady (s : State) (t : Nat) (team : Team) (g : Nat) (grp : Group) (p : Nat) (path : Path) : Bool :=
  mayIssue s team g grp p path &&
    match path.hold with
    | none => !team.halted || moves s t g p
    | some h => h.retried && moves s t g p

/-- The ready paths of a group, rising. -/
noncomputable def readyPaths (s : State) (t g : Nat) : List (Nat × Path) :=
  match (s.teams.get? t).bind fun team => (team.groups.get? g).map fun grp => (team, grp) with
  | none => []
  | some (team, grp) => grp.paths.filter fun e => pathReady s t team g grp e.1 e.2

/-- The path that issues next (R41). -/
noncomputable def choosePath (s : State) (t g : Nat) : Option Nat :=
  let ready := readyPaths s t g
  let cur := ((s.teams.get? t).bind fun team => team.groups.get? g).map (·.cur)
  let longest := ready.foldl (fun n e => max n e.2.waited) 0
  if 64 ≤ longest then (ready.find? fun e => e.2.waited == longest).map (·.1)
  else match ready.find? fun e => some e.1 == cur with
    | some e => some e.1
    | none => ready.head?.map (·.1)

/-- Whether a group is ready. -/
noncomputable def groupReady (s : State) (x : Nat × Nat) : Bool := !(readyPaths s x.1 x.2).isEmpty

/-! ## The choice of a group (R43 to R45) -/

/-- A group's age. -/
def ageOf (s : State) (x : Nat × Nat) : Nat :=
  (((s.teams.get? x.1).bind fun team => team.groups.get? x.2).map (·.age)).getD 0

/-- The oldest of some groups. -/
def oldest (s : State) : List (Nat × Nat) → Option (Nat × Nat)
  | [] => none
  | x :: rest =>
    match oldest s rest with
    | none => some x
    | some y => some (if ageOf s y < ageOf s x then y else x)

/-- Whether a group stalls at a memory word under the throttle, which is no park (R47). -/
def stalls (s : State) (t : Nat) (team : Team) (g : Nat) (grp : Group) : Bool :=
  grp.paths.any fun e =>
    let memory := (e.2.clause.bind fun c => c.words.head?).any fun w => majorPlace (majorOf w) == .mem1
    e.2.st == 0 && memory && (match e.2.hold with | some (.retry _) => true | _ => false) && throttled s ⟨t, team, g, grp, e.1, e.2⟩

/-- Whether an active group gives its place to a ready pending one: a long park, or every live path waits (R44, R50). A stall
under the throttle leaves it in place, and so do the clocks after a division (R208). -/
def yields (s : State) (x : Nat × Nat) : Bool :=
  match (s.teams.get? x.1).bind fun team => (team.groups.get? x.2).map fun grp => (team, grp) with
  | none => true
  | some (team, grp) => if grp.park then grp.longPark else grp.busy == 0 && !stalls s x.1 team x.2 grp

/-- Ready pending groups take free places of the active set, oldest first; n bounds the rounds. -/
noncomputable def promote (core slice : Nat) : Nat → State → State
  | 0, s => s
  | n + 1, s =>
    let k := s.slice core slice
    if activeSize core ≤ k.active.length then s
    else
      match oldest s (k.pending.filter fun x => groupReady s x) with
      | none => s
      | some x =>
        promote core slice n (s.setSlice core slice { k with active := k.active ++ [x], pending := k.pending.filter (· != x) })

/-- Active groups that yield are exchanged for ready pending ones, oldest first. -/
noncomputable def exchange (core slice : Nat) : List (Nat × Nat) → State → State
  | [], s => s
  | x :: rest, s =>
    let k := s.slice core slice
    match oldest s (k.pending.filter fun y => groupReady s y) with
    | none => s
    | some y =>
      exchange core slice rest (s.setSlice core slice
        { k with active := k.active.filter (· != x) ++ [y], pending := k.pending.filter (· != y) ++ [x] })

/-- The active set brought up to date. -/
noncomputable def refill (s : State) (core slice : Nat) : State :=
  let s := promote core slice (s.slice core slice).pending.length s
  exchange core slice ((s.slice core slice).active.filter fun x => !groupReady s x && yields s x) s

/-- The group that issues (R45). -/
noncomputable def chooseGroup (s : State) (core slice : Nat) : Option (Nat × Nat) :=
  let k := s.slice core slice
  let ready := k.active.filter fun x => groupReady s x
  match oldest s (ready.filter fun x => 64 ≤ ((k.waited.find? fun z => z.1 == x).map (·.2)).getD 0) with
  | some x => some x
  | none => match ready.find? fun x => k.last == some x with
    | some x => some x
    | none => oldest s ready

/-- A group's turn in a clock of its slice: its path is chosen and issues. -/
noncomputable def issueTurn (s : State) (core slice : Nat) (x : Nat × Nat) : Out :=
  match choosePath s x.1 x.2 with
  | none => .next s
  | some p => issueFrom (s.setSlice core slice ((s.slice core slice).clocked (some x))) x.1 x.2 p

/-- A slice with its group placed among others by group number (R62). -/
def insertTurn (x : Nat × Nat × Nat) : List (Nat × Nat × Nat) → List (Nat × Nat × Nat)
  | [] => [x]
  | y :: rest => if x.2.2 < y.2.2 then x :: y :: rest else y :: insertTurn x rest

/-- One issue after another, each upon the state that the one before has left; held waits are evaluated at each update of what they
read, those between two words of one clock too (R228). -/
noncomputable def issueAll (core : Nat) : List (Nat × Nat × Nat) → State → Out
  | [], s => .next s
  | x :: rest, s =>
    match issueTurn s core x.1 x.2 with
    | .next s => issueAll core rest (settlePasses s (wakeAll s))
    | o => o

/-- The clocks that agents still wait after a division (R208), `n` of them passed on each core; of a core's groups those that `k`
names. -/
def easeBusy (n : Nat → Nat) (k : Nat → Group → Bool) (s : State) : State :=
  let waits (team : Team) : Bool := team.flume.busy != 0 || team.sluice.busy != 0 || team.groups.any fun g => g.2.busy != 0
  if s.teams.any fun e => waits e.2 then
    { s with teams := s.teams.mapVals fun _ team => { team with
        groups := team.groups.mapVals fun _ g => if k team.id.core g then { g with busy := g.busy - n team.id.core } else g
        flume := { team.flume with busy := team.flume.busy - n team.id.core }
        sluice := { team.sluice with busy := team.sluice.busy - n team.id.core } } }
  else s

/-- A slice clock of a core in which these slices issue: each chooses its group first, then they issue in the order of the
groups' numbers, in which edits of one clock take effect (R45, R62, R248). -/
noncomputable def clockStep (s : State) (core : Nat) (slices : List Nat) : Out :=
  let ks := (slices.filter (· < coreSlices core)).eraseDups
  let s := easeBusy (fun c => if c = core then 1 else 0) (fun _ g => ks.contains g.slice) s
  let s := ks.foldl (fun s k => refill s core k) s
  let picks := ks.filterMap fun k => (chooseGroup s core k).map fun x => (k, x)
  let none' := ks.filter fun k => (chooseGroup s core k).isNone
  let s := none'.foldl (fun s k => s.setSlice core k ((s.slice core k).clocked none)) s
  issueAll core (picks.foldl (fun l x => insertTurn x l) []) s

/-! ## Sequencers (R160, R161, R171) -/

/-- Whether a word of the Flume's sequencer may name the register pair that a `fiter` under way writes: the registers of
scalar words are compared; every other word that has registers is taken to name it. -/
def mayName (w : Word) (sd : Nat) : Bool :=
  let n := w.toNat
  let near (r : Nat) : Bool := sd ≤ r + 1 && r ≤ sd + 1
  let m := majorOf w
  if m = 0x02 || m = 0x05 || m = 0x07 then near (bits n 17 12) || near (bits n 11 6) || near (bits n 5 0)
  else if m = 0x03 then near (bits n 23 18) || near (bits n 17 12)
  else if m = 0x04 then near (bits n 24 19)
  else if m = 0x08 then near (bits n 22 20)
  else if m = 0x36 then near (bits n 12 7)
  else if m = 0x37 then near (bits n 15 10) || near (bits n 19 14)
  else m != 0x0F

/-- The pair of a `fiter` that has been issued and has not ended. -/
def fiterPair (team : Team) : Option Nat :=
  match team.fl.fiter with
  | some f => some f.sd
  | none => (team.fl.ops.find? fun o => o.kind == .fiter).map fun o => o.args.getD 2 0

/-- Whether a sequencer's word waits for a `fiter`'s status. -/
def fiterWaits (e : SeqEnv) (w : Word) : Bool := e.flume && (fiterPair e.team).any fun sd => mayName w sd

/-- The same as `keepOld` for a sequencer. -/
def keepOldSeq (s : State) (e : SeqEnv) (pc : Nat) : State :=
  updSeq s e.t e.flume fun q =>
    if q.clause.isNone && q.hold.isSome && q.pc = BitVec.ofNat 64 pc then { q with pc := e.seq.pc } else q

/-- A sequencer at a clause header. -/
def seqHeader (s : State) (e : SeqEnv) : Out :=
  let pc := forwarded s e.team.id.core e.team.id.ctx e.seq.pc.toNat
  match fetch s e.team e.t none (if e.flume then 0 else 1) pc 4 with
  | .violation => .next (stopSeq s e.t e.flume (BitVec.ofNat 64 pc) 0x0A 0 (BitVec.ofNat 64 pc))
  | .waiting s => .next (updSeq s e.t e.flume fun q => { q with hold := some (retryHold s e.seq.hold) })
  | .bytes b s =>
    let s := if pc = e.seq.pc.toNat then s else updSeq s e.t e.flume fun q => { q with pc := BitVec.ofNat 64 pc }
    match decodeHeader ((wordsOf b).headD 0) with
    | some i => if pc = e.seq.pc.toNat then exec i s else onNext (exec i s) fun s => keepOldSeq s e pc
    | none => .next (stopSeq s e.t e.flume (BitVec.ofNat 64 pc) 0x02 0 0)

/-- A sequencer at a word of its clause. -/
noncomputable def seqWord (s : State) (e : SeqEnv) (c : Clause) (w : Word) : Out :=
  let cls := classOf c.header
  match checkWord cls (fun p => p.seq e.flume cls) w with
  | .error (code, detail) => finishSeq e s (.trap code detail 0)
  | .ok i => exec i s

/-- SKID of a halted team's sequencer, counted as a path's. -/
def countSeqSkid (e : SeqEnv) (s : State) : State :=
  if e.team.halted && (s.teams.get? e.t).all fun team => (team.seqOf e.flume).pc != e.seq.pc then
    updSeq s e.t e.flume fun q => { q with skid := q.skid + 1 }
  else s

/-- A sequencer's header or word. -/
noncomputable def seqBare (s : State) (e : SeqEnv) : Out :=
  match e.seq.clause with
  | none => seqHeader s e
  | some c => match c.words with
    | [] => .fault .noAgent
    | w :: _ => if fiterWaits e w then .next s else onNext (seqWord s e c w) (countSeqSkid e)

/-- Whether a sequencer may issue. -/
def seqMay (s : State) (e : SeqEnv) : Bool :=
  e.team.runs && e.seq.running && e.seq.busy == 0 && e.seq.stop.isNone && (!e.team.halted || e.seq.clause.isSome) &&
    e.seq.hold.all Hold.retried && !e.seq.parkedForMove s e.team

/-- A sequencer issues, if it may. -/
noncomputable def seqStep (s : State) (t : Nat) (flume : Bool) : Out :=
  let s := { s with cur := some ⟨t, if flume then .flume else .sluice⟩ }
  match issuer s with
  | .seq e => if seqMay s e then seqBare s e else .next s
  | _ => .next s

/-- Whether a sequencer is ready: it may issue, and its word, if it has been tried and held, would do something now. -/
noncomputable def seqReady (s : State) (t : Nat) (flume : Bool) : Bool :=
  let s := { s with cur := some ⟨t, if flume then .flume else .sluice⟩ }
  match issuer s with
  | .seq e => seqMay s e && (e.seq.hold.isNone || (match seqBare s e with | .next s' => s' != s | _ => false))
  | _ => false

/-! ## Time (R4) -/

/-- The throttle's periods that have passed while a core had no group are no comparisons (R46, R47). -/
def llDue (s : State) (core : Nat) : State :=
  let late (n done : Nat) : Nat := if done < n then n - 1 else done
  let n := s.coreClock core
  let s := s.setCore core { s.core core with llHalved := late (n / 4096) (s.core core).llHalved, llCapped := late (n / 512) (s.core core).llCapped }
  let s := due (execLlScoreHalve core s) s
  due (execLlCapUpdate core s) s

/-- The fixed-latency results of paths that stand, written: a tick is more clocks than they are late, and R189 counts their latency in
the path's words, of which a path that stands issues none. That they are back by the first tick is a DESIGN CHOICE (log entry 15). -/
def landStanding (s : State) (t g : Nat) (grp : Group) : State :=
  let stands (l : Late) : Bool := (grp.paths.get? l.path).all fun p => p.hold.isSome || p.st != 0
  let due := grp.late.filter stands
  if due.isEmpty then s
  else updGroup (due.foldl (fun s l => landNow s t g l) s) t g fun grp => { grp with late := grp.late.filter fun l => !stands l }

/-- What a team's time limits bring at a tick: a save, the end of a wait, a trap for want of rows, the end of an `eqp` hold. -/
def teamDue (s : State) (t : Nat) (team : Team) : State :=
  let s := due (execServiceLimitExpiry t s) s
  let s := due (execDrainTimeout t s) s
  let s := if team.urgent && team.stat == .saving && 3500 ≤ s.refclk - team.saveAt then due (execTeamSaveComplete t s) s else s
  let s := team.waits.foldl (fun s x => due (execWaitTimeout t x.1 x.2.1 s) s) s
  team.groups.foldl (fun s e =>
    let s := landStanding s t e.1 e.2
    let s := e.2.paths.foldl (fun s p => due (execRowPoolEmpty t e.1 p.1 s) s) s
    due (execEqpHoldTimeout t e.1 s) s) s

/-- A die's EPOCH sent where it has been ahead for 16 ticks (R110). -/
def beatDue (s : State) (src dst : Nat) : State :=
  if 16 ≤ s.refclk - (s.die src).ahead.getD dst 0 then due (execClockBeatSend src dst s) s else s

/-- A clear sequence ends within 4,000 ticks on a D-core and 2,000 on an L-core (R393). -/
def clearDue (s : State) (core : Nat) : State :=
  if (if isLCore core then 2000 else 4000) ≤ s.refclk - (s.core core).clearAt then due (execClearSequenceDone core s) s else s

/-- The timers of a link's direction (R386, R387), and the end of a module's retrain, which takes at most 400 ticks (R389). -/
def linkDue (s : State) (l : Nat) : State :=
  let s := (List.range 16).foldl (fun s m =>
    if 400 ≤ s.refclk - ((s.link l).module m).retrainAt then due (execRetrainComplete l m s) s else s) s
  let s := due (execNakRepeatTimer l s) s
  let s := due (execReplayTimeout l s) s
  due (execAckIdleTimer l s) s

/-- An orphan latch's queue marked before 1,024 cycles of 940 MHz have passed (R351). -/
def orphanDue (s : State) (k since : Nat) : State := if 108 ≤ s.refclk - since then due (execOrphanLatch k s) s else s

/-- Everything that a tick makes due. -/
def fireDue (s : State) : State :=
  let s := s.teams.foldl (fun s e => teamDue s e.1 e.2) s
  let s := barAll (wakeAll s)
  let s := s.cores.keys.foldl (fun s c => clearDue (llDue s c) c) s
  let s := s.dies.keys.foldl (fun s src => (List.range 4).foldl (fun s dst => beatDue s src dst) s) s
  let s := (List.range 8).foldl linkDue s
  s.hg.orphans.foldl (fun s e => orphanDue s e.1 e.2.2) s

/-- Reference ticks pass, one at a time: with each, what it makes due happens. -/
def tick : Nat → State → State
  | 0, s => s
  | n + 1, s =>
    let s' := { s with refclk := s.refclk + 1, clock16 := s.clock16 + s.health.clock }
    tick n (fireDue (easeBusy (fun c => s'.coreClock c - s.coreClock c) (fun _ _ => true) s'))

/-! ## The other inputs -/

/-- Whether an instruction is a step of another agent: it has no word. -/
def isEvent : Instr → Bool
  | .emulationEntry _ => false
  | i => (encodeNat i).isNone

/-- The host writes its own memory, whether a Culvert link is up or not (R75, R347). -/
def hostWrite (s : State) (pa : Nat) (bytes : List Byte) : Out :=
  if (List.range bytes.length).all fun i => targetOf (pa + i) == .host then
    .next (unpoison ((bytes.zip (List.range bytes.length)).foldl (fun s e => paStore s (pa + e.2) e.1) s)
      ((wholeSectors pa bytes.length).map fun j => cellOf s (64 * j) / 64))
  else .refused (.notEnabled "HOST")

/-- The lines of a core's L1, of a line's set in a die's L2 or of its memory-side cache, that may be evicted: those of lowest
retention (R81). -/
def mayEvictL1 (s : State) (core line : Nat) : Bool :=
  (lowestKept ((s.core core).l1.lines.map fun e => (e.1, e.2.ret))).contains line
def mayEvictL2 (s : State) (die line : Nat) : Bool :=
  (lowestKept (((s.die die).l2.inSet (setOf line)).map fun e => (e.1, e.2.ret))).contains line

def mayEvictMsc (s : State) (die line : Nat) : Bool := (lowestKept (s.die die).mscLines).contains line

/-- The host places BAR0 of a Culvert link in its physical address space. -/
def placeBar (s : State) (link pa : Nat) : Out :=
  if link < 2 && pa % 65536 = 0 && targetOf pa == .host then .next { s with hg := { s.hg with bars := s.hg.bars.put link pa } }
  else .refused (.notEnabled "BAR")

/-- One input of the agenda. -/
noncomputable def handle (s : State) : Input → Out
  | .event i => if isEvent i then exec i s else .refused (.notEnabled "EVENT")
  | .clock core slices => clockStep s core slices
  | .seq t flume => seqStep s t flume
  | .tick n => .next (tick n s)
  | .evictL1 core line => if mayEvictL1 s core line then .next (evictL1Line s core line) else .refused (.notEnabled "EVICT")
  | .evictL2 die line => if mayEvictL2 s die line then .next (evictL2Line s die line) else .refused (.notEnabled "EVICT")
  | .evictMsc die line => if mayEvictMsc s die line then .next (evictMscLine s die line) else .refused (.notEnabled "EVICT")
  | .evictWalk die key => .next (s.setDie die { s.die die with walks := (s.die die).walks.del key })
  | .evictIcache core key => .next (s.setCore core { s.core core with icache := (s.core core).icache.del key })
  | .split lanes => .next { s with split := some lanes }
  | .lanes a lanes =>
    if (s.accs.get? a).any fun x => x.parked && !mayContinue s x.team then .refused (.notEnabled "LANES")
    else .next (progress s a [] lanes)
  | .controller die n => .next (s.setDie die { s.die die with ctl := n % 2 })
  | .target t k => schedulerTarget s t k
  | .bootRead n => bootRead s n
  | .bootError => bootError s
  | .barRead off n => barRead s off n
  | .host pa bytes => hostWrite s pa bytes
  | .bar link pa => placeBar s link pa

/-! ## Without an agenda -/

/-- A place from which words issue. -/
inductive Station where
  | slice (core k : Nat)
  | seq (t : Nat) (flume : Bool)
  deriving DecidableEq, Repr

/-- The stations' order: by core, slices first. -/
def Station.key (s : State) : Station → Nat
  | .slice core k => 2 ^ 64 * core + k
  | .seq t flume => 2 ^ 64 * (((s.teams.get? t).map (·.id.core)).getD 0) + 2 ^ 32 + 2 * t + (if flume then 0 else 1)

/-- The stations at which somebody may issue. -/
def stations (s : State) : List Station :=
  (s.teams.flatMap fun e =>
    if e.2.runs then
      (e.2.groups.filter fun g => !g.2.ended).map (fun g => Station.slice e.2.id.core g.2.slice) ++
        (if e.2.flume.running then [.seq e.1 true] else []) ++ (if e.2.sluice.running then [.seq e.1 false] else [])
    else []).eraseDups

/-- Whether a station issues now. -/
noncomputable def stationReady (s : State) : Station → Bool
  | .slice core k => (chooseGroup (refill s core k) core k).isSome
  | .seq t flume => seqReady s t flume

/-- The first station from the turn on that issues. -/
noncomputable def nextStation (s : State) : Option Station :=
  (((stations s).filter fun x => s.turn ≤ x.key s && stationReady s x)).foldl (fun (best : Option Station) x =>
    match best with
    | none => some x
    | some y => if x.key s < y.key s then some x else some y) none

/-- What happens when no input is given: the agents take turns, one word each; when the round is over a reference tick
passes (R51; log entry 1). -/
noncomputable def goOn (s : State) : Out :=
  match nextStation s with
  | some x =>
    let s := { s with turn := x.key s + 1 }
    match x with
    | .slice core k => clockStep s core [k]
    | .seq t flume => seqStep s t flume
  | none => .next (tick 1 { s with turn := 0 })

/-- What the device does of itself after every step: messages that waited for a route set off (R390), held waits, barriers and
equivalence points are looked at again, a park of a key and the remaps of lanes are finished (R398, R422). -/
def settleDevice (s : State) : State :=
  let s := finishPark (eqpAll (barAll (wakeAll (releaseDelayed s))))
  (s.cores.filter fun c => !c.2.defects.isEmpty).foldl (fun s c => applyRemaps s c.1) s

/-- After every step: what the device does of itself; stepped paths stop; POISONED follows the sectors (R423); stops and finished
samples leave their records. -/
def afterStep (b s : State) : State :=
  let s := notePoison (settlePasses b (settleDevice s))
  if s.trace.enable then finishTags b (traceStops b s) else s

end Sys2Proof.Machine
end

