-- ==== Sys2Proof/Machine/Step.lean ====
section
/-! DEFINITION. One step of the device, and the placing of a word where the next step takes its instruction. -/

namespace Sys2Proof.Machine

/-- One step: the first input of the agenda happens; without one the next agent takes its turn. -/
noncomputable def step (s : State) : Host.Outcome State Fault Refusal :=
  match s.agenda with
  | x :: rest => onNext (handle { s with agenda := rest } x) (afterStep s)
  | [] => onNext (goOn s) (afterStep s)

/-! ## Placing an instruction (log entry 1) -/

/-- The class of clause that holds words of a major for a group, and whether only the Flume's sequencer runs it. -/
def hostClass (m : Nat) : Nat × Bool :=
  if m = 0x01 || m = 0x06 || (0x24 ≤ m && m ≤ 0x2B) then (1, false)
  else if 0x2C ≤ m && m ≤ 0x31 then (2, false)
  else if 0x33 ≤ m && m ≤ 0x35 then (4, true)
  else if m = 0x32 || m = 0x36 then (3, false)
  else if m = 0x37 then (4, true)
  else (0, false)

/-- The class, where an instruction of the major asks for its own. -/
def classFor' (i : Option Instr) (m : Nat) : Nat × Bool :=
  match i with
  | some (.rdctx _ _ _) => (6, false)
  | some (.emretTo _ _) => (6, false)
  | some (.emretSkip _ _) => (6, false)
  | _ => hostClass m

/-- A one-group team of context 0 on core 0. -/
def fetchTeam : Team :=
  freshTeam { ctx := 0, grid := 1, num := 0, core := 0, image := 0 }
    { sizes := [128, 0, 0, 0], reserve := 128, rows := [], nextRow := 0, seqCtr := 0, slots := [], scrLen := 16384, scrGen := 0,
      scr := [] } 4 0x40 [(0, freshGroup 0 0 0)]

/-- A word of a clause of its own. -/
def clauseOf (cls : Nat) (w : Word) : Clause :=
  ⟨0, BitVec.ofNat 32 (2 * 2 ^ 28 + cls * 2 ^ 25), 0, [w, 0x20000000#32], none⟩

/-- The state in which the next step runs a word as a group's or a sequencer's next word, or reads it as a clause header
where it decodes to no instruction. -/
noncomputable def State.withFetchWord (s : State) (_nbits w : Nat) : State :=
  let word : Word := BitVec.ofNat 32 w
  let i := (decodeWord word).toOption
  let (cls, flume) := classFor' i (majorOf word)
  let team := fetchTeam
  let base : State := { s with agenda := [], turn := 0, split := none }
  let place (s : State) : State := s.setSlice 0 0 { s.slice 0 0 with active := [(0, 0)], pending := [], waited := [], last := some (0, 0) }
  match i, flume with
  | none, _ =>
    let core := base.core 0
    let sect : BitVec 512 := word.setWidth 512
    place ((base.setCore 0 { core with icache := core.icache.put 0 sect }).setTeam 0 team)
  | some _, true =>
    { base.setTeam 0 { team with flume := { idleSeq with running := true, pc := 4, clause := some (clauseOf cls word) } } with
      turn := 2 ^ 32 }
  | some _, false =>
    place (base.setTeam 0 { team with groups := team.groups.upd 0 fun g =>
      { g with paths := g.paths.upd 0 fun p => { p with pc := 4, clause := some (clauseOf cls word) } } })

end Sys2Proof.Machine
end

