-- ==== Sys2Proof/Safety.lean ====
section
/-! DEFINITION. What claims are stated in: where a word stands, what a word leaves as it was, and the invariants that
every step keeps. -/

namespace Sys2Proof

open Sys2Proof.Machine

/-! ## Outcomes -/

/-- An outcome that is a next state. -/
def Goes (o : Out) : Prop := ∃ s, o = .next s

/-- An outcome whose next state, if it is one, has a property. -/
def Keeps (o : Out) (P : State → Prop) : Prop := ∀ s, o = .next s → P s

/-! ## Where a word stands -/

/-- The issuing path of a group stands at a word of a clause of this class. -/
def GroupAt (s : State) (e : Env) (cls : Nat) : Prop := issuer s = .group e ∧ e.path.cls = cls

/-- The issuing sequencer stands at a word of a clause of this class. -/
def SeqAt (s : State) (e : SeqEnv) (cls : Nat) : Prop := issuer s = .seq e ∧ e.seq.cls = cls

/-- What the switch marker of a word adds once the word has retired, where it has not acted when the word began to wait (R188). -/
def marked (w : Bool) (e : Env) (u : State) : State :=
  if w && e.path.hold.all Hold.unmarked then switchPark u e.t e.g e.p else u

/-- What it adds where the word begins to wait (R188). -/
def markedWait (w : Bool) (e : Env) (u : State) : State := if w && !e.path.begun then switchPark u e.t e.g e.p else u

/-- Whether the issuing path's word is the last of its clause. -/
def Machine.Env.last (e : Env) : Bool := (e.path.clause.map fun c => (c.words.drop 1).isEmpty).getD true

/-! ## What a word leaves as it was -/

/-- Outside one team nothing changes; `Q` relates the team before and after. -/
def TeamOnly (s u : State) (t : Nat) (T : Team) (Q : Team → Prop) : Prop :=
  u = { s with teams := u.teams } ∧ (∀ n, n ≠ t → u.teams.get? n = s.teams.get? n) ∧
    s.teams.get? t = some T ∧ ∃ U, u.teams.get? t = some U ∧ Q U

/-- Outside one group of the issuing team nothing changes but the count of clauses: no register, row, tile or byte of
another group, no row, slot or byte of the team, nothing of another team, no memory. `Q` says what the group becomes. -/
def GroupOnly (s u : State) (e : Env) (Q : Group → Prop) : Prop :=
  TeamOnly s u e.t e.team fun U =>
    U = { e.team with groups := U.groups, clauses := U.clauses } ∧
    (∀ n, n ≠ e.g → U.groups.get? n = e.team.groups.get? n) ∧ ∃ G, U.groups.get? e.g = some G ∧ Q G

/-- Outside the issuing path the group keeps its paths; `R` says what the path becomes. -/
def PathOnly (e : Env) (G : Group) (R : Path → Prop) : Prop :=
  (∀ n, n ≠ e.p → G.paths.get? n = e.grp.paths.get? n) ∧ ∃ P, G.paths.get? e.p = some P ∧ R P

/-- What register r shows after writes: the last value written, a mask word only within the path's domain (R35), or its
old value. -/
def afterWrites (e : Env) (ws : List (Nat × Word)) (r : Nat) : Word :=
  match ws.reverse.find? fun x => x.1 == r with
  | some x => if 61 ≤ r then x.2 &&& maskWord e.path.domain r else x.2
  | none => readS e.grp e.path r

/-- The group's word has retired and only scalars have been written: of the group only its scalars change, of its path
only its place, its count of words and its mask. The group's next word is `busy` clocks away. -/
def ScalarsBusy (s u : State) (e : Env) (busy : Nat) (ws : List (Nat × Word)) : Prop :=
  GroupOnly s u e fun G =>
    G = { e.grp with s := G.s, paths := G.paths, busy } ∧
    PathOnly e G fun P => P = { e.path.advance with mask := P.mask } ∧
      ∀ r, r < 64 → readS G P r = afterWrites e ws r

/-- The same with the group's wait as it was. -/
def ScalarsOnly (s u : State) (e : Env) (ws : List (Nat × Word)) : Prop := ScalarsBusy s u e e.grp.busy ws

/-- The same for a sequencer: only its place, its scalars and its wait change. -/
def SeqScalarsBusy (s u : State) (e : SeqEnv) (busy : Nat) (ws : List (Nat × Word)) : Prop :=
  TeamOnly s u e.t e.team fun U =>
    ∃ q, U = e.team.setSeq e.flume q ∧ q = { e.seq.advance with s := q.s, busy } ∧
      ∀ r, q.s.getD r 0 = match ws.reverse.find? fun x => x.1 == r with
        | some x => x.2
        | none => e.seq.s.getD r 0

/-! ## Invariants -/

/-- Memory behind the homes is in its canonical form. -/
def StoreInv (s : State) : Prop := s.store.pa.wf = true ∧ s.store.vault.wf = true


end Sys2Proof
end

