-- ==== Sys2Proof/Certificates/Slice0/Obligations.lean ====
section
/-! DEFINITION. The statements for the provers. `Sys2Proof.…` definitions before a statement are the tables that it is
stated in, written from the rules that they cite. -/

open Sys2Proof Sys2Proof.Machine

/-! ## The scalar instructions (R204 to R216) -/

/-- A condition of R212 from "less" and "equal": 0 eq, 1 ne, 2 lt, 3 le, 4 gt, 5 ge. -/
def Sys2Proof.relHolds (c : Nat) (lt eq : Bool) : Bool :=
  match c with
  | 0 => eq
  | 1 => !eq
  | 2 => lt
  | 3 => lt || eq
  | 4 => !(lt || eq)
  | _ => !lt

/-- 1 or 0. -/
def Sys2Proof.flagWord (b : Bool) : Word := if b then 1#32 else 0#32

/-- The mask of a field of n bits from bit lo up (R215). -/
def Sys2Proof.fieldMask (lo n : Nat) : Word := ((BitVec.allOnes n).setWidth 32) <<< lo

/-- What a scalar word writes, by the tables of R206, R207, R209, R210 and R212 to R215: its switch marker, the registers
that it names, and its writes from the registers that it reads. A pair is written low register first (R56). -/
def Sys2Proof.scalarWrites : Instr → Option (Bool × List Nat × ((Nat → Word) → List (Nat × Word)))
  | .sadd w d a b => some (w, [d.toNat, a.toNat, b.toNat], fun x => [(d.toNat, x a.toNat + x b.toNat)])
  | .ssub w d a b => some (w, [d.toNat, a.toNat, b.toNat], fun x => [(d.toNat, x a.toNat - x b.toNat)])
  | .smul w d a b => some (w, [d.toNat, a.toNat, b.toNat], fun x => [(d.toNat, x a.toNat * x b.toNat)])
  | .smulwI32 w d a b => some (w, [d.toNat, a.toNat, b.toNat], fun x =>
      two d ((x a.toNat).signExtend 64 * (x b.toNat).signExtend 64))
  | .smulwN32 w d a b => some (w, [d.toNat, a.toNat, b.toNat], fun x =>
      two d ((x a.toNat).setWidth 64 * (x b.toNat).setWidth 64))
  | .sdivI32 w d a b => some (w, [d.toNat, a.toNat, b.toNat], fun x =>
      [(d.toNat, if x b.toNat = 0 then BitVec.allOnes 32 else (x a.toNat).sdiv (x b.toNat))])
  | .sdivN32 w d a b => some (w, [d.toNat, a.toNat, b.toNat], fun x =>
      [(d.toNat, if x b.toNat = 0 then BitVec.allOnes 32 else x a.toNat / x b.toNat)])
  | .sremI32 w d a b => some (w, [d.toNat, a.toNat, b.toNat], fun x =>
      [(d.toNat, if x b.toNat = 0 then x a.toNat else (x a.toNat).srem (x b.toNat))])
  | .sremN32 w d a b => some (w, [d.toNat, a.toNat, b.toNat], fun x =>
      [(d.toNat, if x b.toNat = 0 then x a.toNat else x a.toNat % x b.toNat)])
  | .sand w d a b => some (w, [d.toNat, a.toNat, b.toNat], fun x => [(d.toNat, x a.toNat &&& x b.toNat)])
  | .sor w d a b => some (w, [d.toNat, a.toNat, b.toNat], fun x => [(d.toNat, x a.toNat ||| x b.toNat)])
  | .sxor w d a b => some (w, [d.toNat, a.toNat, b.toNat], fun x => [(d.toNat, x a.toNat ^^^ x b.toNat)])
  | .sandn w d a b => some (w, [d.toNat, a.toNat, b.toNat], fun x => [(d.toNat, x a.toNat &&& ~~~(x b.toNat))])
  | .sshl w d a b => some (w, [d.toNat, a.toNat, b.toNat], fun x => [(d.toNat, x a.toNat <<< (x b.toNat).toNat)])
  | .sshr w d a b => some (w, [d.toNat, a.toNat, b.toNat], fun x => [(d.toNat, x a.toNat >>> (x b.toNat).toNat)])
  | .ssra w d a b => some (w, [d.toNat, a.toNat, b.toNat], fun x => [(d.toNat, (x a.toNat).sshiftRight (x b.toNat).toNat)])
  | .sminI32 w d a b => some (w, [d.toNat, a.toNat, b.toNat], fun x =>
      [(d.toNat, if (x a.toNat).slt (x b.toNat) then x a.toNat else x b.toNat)])
  | .sminN32 w d a b => some (w, [d.toNat, a.toNat, b.toNat], fun x =>
      [(d.toNat, if (x a.toNat).ult (x b.toNat) then x a.toNat else x b.toNat)])
  | .smaxI32 w d a b => some (w, [d.toNat, a.toNat, b.toNat], fun x =>
      [(d.toNat, if (x a.toNat).slt (x b.toNat) then x b.toNat else x a.toNat)])
  | .smaxN32 w d a b => some (w, [d.toNat, a.toNat, b.toNat], fun x =>
      [(d.toNat, if (x a.toNat).ult (x b.toNat) then x b.toNat else x a.toNat)])
  | .saddB64 w d a b => some (w, [d.toNat, a.toNat, b.toNat], fun x => two d (join x a + join x b))
  | .ssubB64 w d a b => some (w, [d.toNat, a.toNat, b.toNat], fun x => two d (join x a - join x b))
  | .smulB64 w d a b => some (w, [d.toNat, a.toNat, b.toNat], fun x => two d (join x a * join x b))
  | .saddwI32 w d a b => some (w, [d.toNat, a.toNat, b.toNat], fun x => two d (join x a + (x b.toNat).signExtend 64))
  | .saddwN32 w d a b => some (w, [d.toNat, a.toNat, b.toNat], fun x => two d (join x a + (x b.toNat).setWidth 64))
  | .sshlB64 w d a b => some (w, [d.toNat, a.toNat, b.toNat], fun x => two d (join x a <<< (x b.toNat).toNat))
  | .sshrB64 w d a b => some (w, [d.toNat, a.toNat, b.toNat], fun x => two d (join x a >>> (x b.toNat).toNat))
  | .ssraB64 w d a b => some (w, [d.toNat, a.toNat, b.toNat], fun x => two d ((join x a).sshiftRight (x b.toNat).toNat))
  | .sandB64 w d a b => some (w, [d.toNat, a.toNat, b.toNat], fun x => two d (join x a &&& join x b))
  | .sorB64 w d a b => some (w, [d.toNat, a.toNat, b.toNat], fun x => two d (join x a ||| join x b))
  | .sxorB64 w d a b => some (w, [d.toNat, a.toNat, b.toNat], fun x => two d (join x a ^^^ join x b))
  | .saddi w d a i => some (w, [d.toNat, a.toNat], fun x => [(d.toNat, x a.toNat + i.signExtend 32)])
  | .saddiB64 w d a i => some (w, [d.toNat, a.toNat], fun x => two d (join x a + i.signExtend 64))
  | .smovl w d i => some (w, [d.toNat], fun _ => [(d.toNat, i.setWidth 32)])
  | .smovh w d i => some (w, [d.toNat], fun x => [(d.toNat, i ++ (x d.toNat).setWidth 16)])
  | .smovs w d i => some (w, [d.toNat], fun _ => [(d.toNat, i.signExtend 32)])
  | .scmpI32 w c d a b => some (w, [d.toNat, a.toNat, b.toNat], fun x =>
      [(d.toNat, flagWord (relHolds c.toNat ((x a.toNat).slt (x b.toNat)) (x a.toNat == x b.toNat)))])
  | .scmpN32 w c d a b => some (w, [d.toNat, a.toNat, b.toNat], fun x =>
      [(d.toNat, flagWord (relHolds c.toNat ((x a.toNat).ult (x b.toNat)) (x a.toNat == x b.toNat)))])
  | .scmpB64 w c d a b => some (w, [d.toNat, a.toNat, b.toNat], fun x =>
      [(d.toNat, flagWord (relHolds c.toNat ((join x a).ult (join x b)) (join x a == join x b)))])
  | .ssel w d a b => some (w, [d.toNat, a.toNat, b.toNat], fun x => [(d.toNat, if x d.toNat = 0 then x b.toNat else x a.toNat)])
  | .sselB64 w d a b => some (w, [d.toNat, a.toNat, b.toNat], fun x => two d (if join x d = 0 then join x b else join x a))
  | .sshli w d a n => some (w, [d.toNat, a.toNat], fun x => [(d.toNat, x a.toNat <<< n.toNat)])
  | .sshri w d a n => some (w, [d.toNat, a.toNat], fun x => [(d.toNat, x a.toNat >>> n.toNat)])
  | .ssrai w d a n => some (w, [d.toNat, a.toNat], fun x => [(d.toNat, (x a.toNat).sshiftRight n.toNat)])
  | .sbfxN32 w d a b => some (w, [d.toNat, a.toNat, b.toNat], fun x =>
      [(d.toNat, ((x a.toNat >>> pos (x b.toNat)).setWidth (wid (x b.toNat))).setWidth 32)])
  | .sbfxI32 w d a b => some (w, [d.toNat, a.toNat, b.toNat], fun x =>
      [(d.toNat, ((x a.toNat >>> pos (x b.toNat)).setWidth (wid (x b.toNat))).signExtend 32)])
  | .sbfi w d a b => some (w, [d.toNat, a.toNat, b.toNat], fun x =>
      [(d.toNat, (x d.toNat &&& ~~~(fieldMask (pos (x b.toNat)) (wid (x b.toNat)))) |||
        ((x a.toNat <<< pos (x b.toNat)) &&& fieldMask (pos (x b.toNat)) (wid (x b.toNat))))])
  | .spopc w d a => some (w, [d.toNat, a.toNat], fun x => [(d.toNat, ones (x a.toNat))])
  | .sclz w d a => some (w, [d.toNat, a.toNat], fun x => [(d.toNat, BitVec.ofNat 32 (clzV (x a.toNat)))])
  | .sctz w d a => some (w, [d.toNat, a.toNat], fun x => [(d.toNat, BitVec.ofNat 32 (ctzV (x a.toNat)))])
  | .sbrev w d a => some (w, [d.toNat, a.toNat], fun x => [(d.toNat, brevV (x a.toNat))])
  | .sshliB64 w d a n => some (w, [d.toNat, a.toNat], fun x => two d (join x a <<< n.toNat))
  | .sshriB64 w d a n => some (w, [d.toNat, a.toNat], fun x => two d (join x a >>> n.toNat))
  | .ssraiB64 w d a n => some (w, [d.toNat, a.toNat], fun x => two d ((join x a).sshiftRight n.toNat))
  | .spopcB64 w d a => some (w, [d.toNat, a.toNat], fun x => [(d.toNat, ones (join x a))])
  | .sclzB64 w d a => some (w, [d.toNat, a.toNat], fun x => [(d.toNat, BitVec.ofNat 32 (clzV (join x a)))])
  | .sctzB64 w d a => some (w, [d.toNat, a.toNat], fun x => [(d.toNat, BitVec.ofNat 32 (ctzV (join x a)))])
  | _ => none
where
  /-- The pair of registers from `a` up: bits 31:0 in the first. -/
  join (x : Nat → Word) (a : BitVec 6) : Dword := x (a.toNat + 1) ++ x a.toNat
  /-- A pair written from `d` up. -/
  two (d : BitVec 6) (v : Dword) : List (Nat × Word) := [(d.toNat, v.setWidth 32), (d.toNat + 1, (v >>> 32).setWidth 32)]
  /-- The count of ones. -/
  ones {n : Nat} (v : BitVec n) : Word := BitVec.ofNat 32 ((List.range n).countP fun i => v.getLsbD i)
  /-- A field's place and width, from the register that names it (R215). -/
  pos (b : Word) : Nat := b.toNat % 32
  wid (b : Word) : Nat := min (b.toNat / 256 % 64) 32

/-- The clocks before the next word of the agent: 12 after a division on a D-core, 6 on an L-core, and none that a word of another
kind adds (R207, R208). -/
def Sys2Proof.clocksAfter (i : Instr) (core old : Nat) : Nat :=
  let n := if isLCore core then 6 else 12
  match i with
  | .sdivI32 .. => n
  | .sdivN32 .. => n
  | .sremI32 .. => n
  | .sremN32 .. => n
  | _ => old

/-- Every scalar word that a group issues completes: it writes the values of its table and changes nothing else, but for the
clocks of a division. -/
def Sys2Proof.scalarWordResultsRule : Prop :=
  ∀ (s : State) (e : Env) (i : Instr) (w : Bool) (rs : List Nat) (f : (Nat → Word) → List (Nat × Word)),
    GroupAt s e 0 → i.check = none → scalarWrites i = some (w, rs, f) →
    ∃ u, exec i s = .next (marked w e u) ∧
      ScalarsBusy s u e (clocksAfter i e.team.id.core e.grp.busy) (f (readS e.grp e.path))

/-- The same words in a sequencer's clause: with registers `s0` to `s31` they complete (R160, R204). -/
def Sys2Proof.sequencerScalarResultsRule : Prop :=
  ∀ (s : State) (e : SeqEnv) (i : Instr) (w : Bool) (rs : List Nat) (f : (Nat → Word) → List (Nat × Word)),
    SeqAt s e 0 → i.check = none → scalarWrites i = some (w, rs, f) → (∀ r ∈ rs, r ≤ 31) →
    ∃ u, exec i s = .next u ∧
      SeqScalarsBusy s u e (clocksAfter i e.team.id.core e.seq.busy) (f fun r => e.seq.s.getD r 0)

/-- Every scalar word completes, in a group and in a sequencer: it writes the values of its table and changes nothing else
(R160, R204 to R216). -/
def Obligations.ScalarWordResults : Prop := scalarWordResultsRule ∧ sequencerScalarResultsRule

/-! ## Scalars, predicates and masks of other words -/

/-- The next word of a sequencer, and a transfer of one. -/
def Sys2Proof.seqNext (s : State) (e : SeqEnv) : State := updSeq s e.t e.flume Seq.advance
def Sys2Proof.seqJump (s : State) (e : SeqEnv) (a : Dword) : State :=
  updSeq s e.t e.flume fun q => { q with pc := a, hold := none, clause := none }

/-- Three words of a mask, lowest lanes first. -/
def Sys2Proof.maskWords (d : Nat) (m : LaneMask) : List (Nat × Word) :=
  [(d, m.setWidth 32), (d + 1, (m >>> 32).setWidth 32), (d + 2, (m >>> 64).setWidth 32)]

/-- A pair written from `d` up, low word first (R56). -/
def Sys2Proof.pairWrite (d : Nat) (v : Dword) : List (Nat × Word) := [(d, v.setWidth 32), (d + 1, (v >>> 32).setWidth 32)]

/-- The special registers 1 to 10 (R233). -/
def Sys2Proof.specialOf (e : Env) (n : Nat) : Word :=
  match n with
  | 1 => BitVec.ofNat 32 e.g
  | 2 => BitVec.ofNat 32 e.team.id.num
  | 3 => BitVec.ofNat 32 e.grp.role
  | 4 => BitVec.ofNat 32 e.team.id.grid
  | 5 => BitVec.ofNat 32 e.grp.slice
  | 6 => BitVec.ofNat 32 e.team.id.core
  | 7 => BitVec.ofNat 32 (e.team.id.core / 32)
  | 8 => BitVec.ofNat 32 e.team.id.image
  | 9 => BitVec.ofNat 32 e.p
  | _ => e.grp.fflags

/-- The context registers (R234). -/
def Sys2Proof.contextOf (s : State) (e : Env) (n : Nat) : Dword :=
  match n with
  | 0 => e.team.memdef.setWidth 64
  | 1 => (s.ctx e.team.id.ctx).trapen.setWidth 64
  | 2 => (s.ctx e.team.id.ctx).emuvec
  | 3 => (s.ctx e.team.id.ctx).savearea
  | 4 => (s.ctx e.team.id.ctx).preempt
  | _ => (s.ctx e.team.id.ctx).fwdtab

/-- The words that only read the group's, the team's and the context's registers into scalars: marker, class, writes. -/
def Sys2Proof.readingWrites (s : State) (e : Env) : Instr → Option (Bool × Nat × List (Nat × Word))
  | .rdsr w d a => some (w, 0, [(d.toNat, specialOf e a.toNat)])
  | .rdsrPair w d a => some (w, 0, pairWrite d.toNat
      (BitVec.ofNat 64 (if a.toNat = 11 then s.coreClock e.team.id.core - e.team.clock0 else s.refclk)))
  | .rdctx w d a => some (w, 6, pairWrite d.toNat (contextOf s e a.toNat))
  | _ => none

/-- A word that reads special or context registers completes: it writes the scalars that it names and
changes nothing else. `rdctx` runs in a clause of class 6, the others in one of class 0. -/
def Obligations.ReadingWordResults : Prop :=
  ∀ (s : State) (e : Env) (i : Instr) (w : Bool) (k : Nat) (ws : List (Nat × Word)),
    i.check = none → readingWrites s e i = some (w, k, ws) → GroupAt s e k →
    ∃ u, exec i s = .next (marked w e u) ∧ ScalarsOnly s u e ws

/-- A mask from a test on lanes; lane l of a name and of a pair of names. -/
def Sys2Proof.lanesWhere (e : Env) (f : Nat → Bool) : LaneMask := maskOf fun l => e.path.mask.getLsbD l && f l
def Sys2Proof.nameLane (e : Env) (n : BitVec 7) (l : Nat) : Word := (e.team.lanes e.g n.toNat).getD l 0
def Sys2Proof.nameWide (e : Env) (n : BitVec 7) (l : Nat) : Dword :=
  (e.team.lanes e.g (n.toNat + 1)).getD l 0 ++ (e.team.lanes e.g n.toNat).getD l 0

/-- The predicate that a word of R224 writes: marker, predicate, value. -/
def Sys2Proof.logicWrite (e : Env) : Instr → Option (Bool × Nat × LaneMask)
  | .pand w d a b => some (w, d.toNat, e.grp.pred a.toNat &&& e.grp.pred b.toNat)
  | .por w d a b => some (w, d.toNat, e.grp.pred a.toNat ||| e.grp.pred b.toNat)
  | .pxor w d a b => some (w, d.toNat, e.grp.pred a.toNat ^^^ e.grp.pred b.toNat)
  | .pandn w d a b => some (w, d.toNat, e.grp.pred a.toNat &&& ~~~(e.grp.pred b.toNat))
  | .pnot w d a => some (w, d.toNat, ~~~(e.grp.pred a.toNat))
  | .pelect w d => some (w, d.toNat, lanesWhere e fun l => (List.range l).all fun k => !e.path.mask.getLsbD k)
  | .pld w d a => some (w, d.toNat,
      readS e.grp e.path (a.toNat + 2) ++ readS e.grp e.path (a.toNat + 1) ++ readS e.grp e.path a.toNat)
  | _ => none

/-- The predicate that a compare or class word writes: marker, names that it reads, predicate, value. All 96 bits are written,
0 in the lanes outside ACTIVE (R256, R278, R279). -/
def Sys2Proof.compareWrite (e : Env) : Instr → Option (Bool × List Nat × Nat × LaneMask)
  | .vcmpI32 w c p a b => some (w, [a.toNat, b.toNat], p.toNat, lanesWhere e fun l =>
      relHolds c.toNat ((nameLane e a l).slt (nameLane e b l)) (nameLane e a l == nameLane e b l))
  | .vcmpN32 w c p a b => some (w, [a.toNat, b.toNat], p.toNat, lanesWhere e fun l =>
      relHolds c.toNat ((nameLane e a l).ult (nameLane e b l)) (nameLane e a l == nameLane e b l))
  | .vtst w p a b => some (w, [a.toNat, b.toNat], p.toNat, lanesWhere e fun l => (nameLane e a l &&& nameLane e b l) != 0)
  | .vfcmpF32 w c p a b => some (w, [a.toNat, b.toNat], p.toNat, lanesWhere e fun l =>
      fcond c.toNat (decode Fmt.f32 (nameLane e a l).toNat) (decode Fmt.f32 (nameLane e b l).toNat))
  | .vfcmpF64 w c p a b => some (w, [a.toNat, a.toNat + 1, b.toNat, b.toNat + 1], p.toNat, lanesWhere e fun l =>
      fcond c.toNat (decode Fmt.f64 (nameWide e a l).toNat) (decode Fmt.f64 (nameWide e b l).toNat))
  | .vfclassF32 w p a k => some (w, [a.toNat], p.toNat, lanesWhere e fun l => classTest Fmt.f32 (nameLane e a l).toNat k.toNat)
  | .vfclassF64 w p a k => some (w, [a.toNat, a.toNat + 1], p.toNat, lanesWhere e fun l =>
      classTest Fmt.f64 (nameWide e a l).toNat k.toNat)
  | _ => none

/-- The group's word has retired and one predicate has been written. -/
def Sys2Proof.predOnly (s u : State) (e : Env) (d : Nat) (v : LaneMask) : Prop :=
  GroupOnly s u e fun G =>
    G = { e.grp with p := G.p, paths := G.paths } ∧
    (∀ k, G.pred k = if k = d then v else e.grp.pred k) ∧ PathOnly e G fun P => P = e.path.advance

/-- The words of major 0x0D (R224): the logic forms act on all 96 bits and write their predicate; `pelect` elects the lowest
active lane; `pld` takes three scalars; `pst` and `pcnt` write scalars; nothing else changes. Another minor is unallocated, a
nonzero field that a form does not use is refused, and so is an `sa` or `sd` above 61. -/
def Obligations.PredicateLogicWords : Prop :=
  (∀ (s : State) (e : Env) (i : Instr) (w : Bool) (d : Nat) (v : LaneMask),
    GroupAt s e 0 → i.check = none → logicWrite e i = some (w, d, v) →
    ∃ u, exec i s = .next (marked w e u) ∧ predOnly s u e d v) ∧
  (∀ (s : State) (e : Env) (w : Bool) (d a : BitVec 6), GroupAt s e 0 → a.toNat ≤ 7 →
    (d.toNat ≤ 61 → ∃ u, exec (.pst w d a) s = .next (marked w e u) ∧ ScalarsOnly s u e (maskWords d.toNat (e.grp.pred a.toNat))) ∧
    ∃ u, exec (.pcnt w d a) s = .next (marked w e u) ∧
      ScalarsOnly s u e [(d.toNat, BitVec.ofNat 32 ((List.range 96).countP fun l => (e.grp.pred a.toNat).getLsbD l))]) ∧
  (∀ w : Word, majorOf w = 0x0D →
    (bits w.toNat 24 18 ∉ [0, 1, 2, 3, 4, 8, 9, 10, 11] → parse w = .unallocated) ∧
    (∀ i, parse w = .ok i → encode i = some w)) ∧
  (∀ (w : Bool) (d a : BitVec 6), 61 < a.toNat → (Instr.pld w d a).check = some .outOfRange) ∧
  (∀ (w : Bool) (d a : BitVec 6), 61 < d.toNat → (Instr.pst w d a).check = some .outOfRange)

/-- Every vector compare and class word completes where its names are mapped, and stops the team with UNMAPPED_NAME where one
is not (R65, R256, R278, R279): its predicate takes the value of its table and nothing else changes. -/
def Obligations.CompareWords : Prop :=
  ∀ (s : State) (e : Env) (i : Instr) (w : Bool) (ns : List Nat) (d : Nat) (v : LaneMask),
    GroupAt s e 0 → i.check = none → compareWrite e i = some (w, ns, d, v) →
    (e.team.allMapped e.g ns = true → ∃ u, exec i s = .next (marked w e u) ∧ predOnly s u e d v) ∧
    (e.team.allMapped e.g ns = false → exec i s = .next (stopGroup s e.t e.g e.p e.path.pc 0x04 0 0))

/-- The mask and the predicate stack that a word leaves (R42, R223); the first entry of the stack is the lowest. -/
def Sys2Proof.stackWrite (e : Env) : Instr → Option (Bool × LaneMask × List LaneMask)
  | .ppush w a => if 16 ≤ e.path.pstack.length then none
      else some (w, e.path.mask &&& e.grp.pred a.toNat, e.path.pstack ++ [e.path.mask])
  | .ppushN w a => if 16 ≤ e.path.pstack.length then none
      else some (w, e.path.mask &&& ~~~(e.grp.pred a.toNat), e.path.pstack ++ [e.path.mask])
  | .pinv w => e.path.pstack.getLast?.map fun top => (w, top &&& ~~~e.path.mask, e.path.pstack)
  | .ppop w => e.path.pstack.getLast?.map fun top => (w, top, e.path.pstack.dropLast)
  | _ => none

/-- Every predicate-stack word completes where the stack has room or an entry: the path's mask, cut to its domain, and its
stack change and nothing else. -/
def Sys2Proof.predicateStackResultsRule : Prop :=
  ∀ (s : State) (e : Env) (i : Instr) (w : Bool) (m : LaneMask) (k : List LaneMask),
    GroupAt s e 0 → i.check = none → stackWrite e i = some (w, m, k) →
    ∃ u, exec i s = .next (marked w e u) ∧ GroupOnly s u e fun G =>
      G = { e.grp with paths := G.paths } ∧
      PathOnly e G fun P => P = { e.path.advance with mask := m &&& e.path.domain, pstack := k }

/-- The stack's traps (R42, R223): a push on 16 entries stops the team with PRED_STACK_OVERFLOW, `pinv` and `ppop` on none with
PRED_STACK_UNDERFLOW; the stack and the mask stay as they are. -/
def Sys2Proof.predicateStackTrapsRule : Prop :=
  ∀ (s : State) (e : Env), GroupAt s e 0 →
    (∀ (w : Bool) (a : BitVec 6), a.toNat ≤ 7 → 16 ≤ e.path.pstack.length →
      exec (.ppush w a) s = .next (stopGroup s e.t e.g e.p e.path.pc 0x06 0 0) ∧
      exec (.ppushN w a) s = .next (stopGroup s e.t e.g e.p e.path.pc 0x06 0 0)) ∧
    (∀ w : Bool, e.path.pstack = [] →
      exec (.pinv w) s = .next (stopGroup s e.t e.g e.p e.path.pc 0x07 0 0) ∧
      exec (.ppop w) s = .next (stopGroup s e.t e.g e.p e.path.pc 0x07 0 0))

/-- The words without operands in memory that change one register of the group or nothing (R232, R234): `nop`; `brk` in a
context without DEBUG or on a released path; `waitcnt` once the counters are low enough; `wrsr`, which writes bits 5:0 of
`%fflags`. -/
def Sys2Proof.plainWordResultsRule : Prop :=
  ∀ (s : State) (e : Env), GroupAt s e 0 →
    (∀ w, exec (.nop w) s = .next (retire w e s)) ∧
    (∀ w n, (s.ctx e.team.id.ctx).debug = false ∨ e.path.pass ≠ 0 → exec (.brk w n) s = .next (retire w e s)) ∧
    (∀ w n, (s.ctx e.team.id.ctx).debug = true → e.path.pass = 0 → exec (.brk w n) s =
      .next (updPath s e.t e.g e.p fun p => { p with st := 2, hold := some (.stopped n.toNat), pass := 0 })) ∧
    (∀ w sel lim, countersAt e.grp sel.toNat lim.toNat = true → exec (.waitcnt w sel lim) s = .next (retire w e s)) ∧
    (∀ w d a, d.toNat = 10 → exec (.wrsr w d a) s = .next (retire w e (updGroup s e.t e.g fun g =>
      { g with fflags := readS e.grp e.path a.toNat &&& 0x3F })))

/-- `trap n` stops the team with code 0x40 + n at its word, from a group and from a sequencer (R232). -/
def Sys2Proof.trapWordStopsRule : Prop :=
  (∀ (s : State) (e : Env) (w : Bool) (n : BitVec 6), GroupAt s e 0 →
    exec (.trap w n) s = .next (stopGroup s e.t e.g e.p e.path.pc (0x40 + n.toNat) 0 0)) ∧
  (∀ (s : State) (e : SeqEnv) (w : Bool) (n : BitVec 6), SeqAt s e 0 →
    exec (.trap w n) s = .next (stopSeq s e.t e.flume e.seq.pc (0x40 + n.toNat) 0 0))

/-! ## Branches, calls and ends -/

/-- The target of a relative word: its own address plus four times the signed field (R193, R218). -/
def Sys2Proof.relative (pc : Dword) (o : BitVec 20) : Dword := pc + 4 * o.signExtend 64

/-- The whole-path branches (R218): the path goes to the target or to the next word, a sequencer the same but for `br.any`,
which it may not issue; the words of major 0x08 by KIND and X. That KIND 0 with X not 0 is an unallocated word is the model's
reading (log entry 17). -/
def Obligations.BranchWords : Prop :=
  (∀ (s : State) (e : Env), GroupAt s e 0 →
    (∀ w o, exec (.br w o) s = .next (take w e s (relative e.path.pc o))) ∧
    (∀ w x o, exec (.brZ w x o) s = .next (if readS e.grp e.path x.toNat = 0 then take w e s (relative e.path.pc o) else retire w e s)) ∧
    (∀ w x o, exec (.brNz w x o) s = .next (if readS e.grp e.path x.toNat = 0 then retire w e s else take w e s (relative e.path.pc o))) ∧
    (∀ w p o, exec (.brAny w p o) s = .next
      (if e.grp.pred p.toNat &&& e.path.mask = 0 then retire w e s else take w e s (relative e.path.pc o)))) ∧
  (∀ (s : State) (e : SeqEnv), SeqAt s e 0 →
    (∀ w o, exec (.br w o) s = .next (seqJump s e (relative e.seq.pc o))) ∧
    (∀ w x o, exec (.brZ w x o) s = .next (if e.seq.s.getD x.toNat 0 = 0 then seqJump s e (relative e.seq.pc o) else seqNext s e)) ∧
    (∀ w x o, exec (.brNz w x o) s = .next (if e.seq.s.getD x.toNat 0 = 0 then seqNext s e else seqJump s e (relative e.seq.pc o)))) ∧
  (∀ (s : State) (e : SeqEnv) (w : Bool) (p : BitVec 3) (o : BitVec 20), SeqAt s e 0 →
    exec (.brAny w p o) s = .next (stopSeq s e.t e.flume e.seq.pc 0x01 2 0)) ∧
  (∀ w : Word, majorOf w = 8 →
    let x := w.extractLsb' 20 3
    let o := w.extractLsb' 0 20
    parse w = match (w.extractLsb' 23 2).toNat with
      | 0 => if x = 0 then .ok (.br (w.getLsbD 31) o) else .unallocated
      | 1 => .ok (.brAny (w.getLsbD 31) x o)
      | 2 => .ok (.brZ (w.getLsbD 31) x o)
      | _ => .ok (.brNz (w.getLsbD 31) x o))

/-- The lanes that a vector branch takes. -/
def Sys2Proof.takenLanes (e : Env) (neg : Bool) (p : BitVec 3) : LaneMask :=
  e.path.mask &&& if neg then ~~~(e.grp.pred p.toNat) else e.grp.pred p.toNat

/-- The vector branches complete (R39, R219): with no taken lane the path goes on, with all taken it jumps; otherwise, with a
free path entry n and a free split record r, entry n takes the taken lanes at the target with the path's stacks, the
issuing path keeps the others and goes on, both under record r, whose parent is the path's record before. -/
def Sys2Proof.vectorBranchResultsRule : Prop :=
  ∀ (s : State) (e : Env) (w neg : Bool) (p : BitVec 3) (o : BitVec 20), GroupAt s e 0 →
    let i : Instr := if neg then .brvN w p o else .brv w p o
    let tk := takenLanes e neg p
    (tk = 0 → exec i s = .next (retire w e s)) ∧
    (tk ≠ 0 → tk = e.path.mask → exec i s = .next (take w e s (relative e.path.pc o))) ∧
    (tk ≠ 0 → tk ≠ e.path.mask → e.grp.emu = none →
      ∀ n r, e.grp.paths.lowestFree 8 = some n → e.grp.splits.lowestFree 7 = some r →
      ∃ u, exec i s = .next (marked w e u) ∧ GroupOnly s u e fun G =>
        G = { e.grp with splits := G.splits, paths := G.paths } ∧
        (∀ k, G.splits.get? k = if k = r then some e.path.split else e.grp.splits.get? k) ∧
        (∀ k, k ≠ e.p → k ≠ n → G.paths.get? k = e.grp.paths.get? k) ∧
        G.paths.get? e.p = some { e.path.advance with
          domain := e.path.domain &&& ~~~tk, mask := e.path.mask &&& ~~~tk, split := r } ∧
        ∃ N, G.paths.get? n = some N ∧ N.pc = relative e.path.pc o ∧ N.domain = tk ∧ N.mask = tk ∧ N.split = r ∧ N.st = 0 ∧
          N.pstack = e.path.pstack ∧ N.cstack = e.path.cstack ∧ N.clause = none)

/-- A vector branch that would split a path traps PATH_TABLE_FULL without a free path entry or record, and EMU_DOUBLE in
emulation mode (R39, R202). -/
def Sys2Proof.vectorBranchTrapsRule : Prop :=
  ∀ (s : State) (e : Env) (w neg : Bool) (p : BitVec 3) (o : BitVec 20), GroupAt s e 0 →
    let i : Instr := if neg then .brvN w p o else .brv w p o
    takenLanes e neg p ≠ 0 → takenLanes e neg p ≠ e.path.mask →
    (e.grp.emu ≠ none → exec i s = .next (stopGroup s e.t e.g e.p e.path.pc 0x11 0 0)) ∧
    (e.grp.emu = none → e.grp.paths.lowestFree 8 = none ∨ e.grp.splits.lowestFree 7 = none →
      exec i s = .next (stopGroup s e.t e.g e.p e.path.pc 0x08 0 0))

/-- The call stack of the issuing path, and of a sequencer, replaced. -/
def Sys2Proof.withStack (s : State) (e : Env) (k : List Dword) : State := updPath s e.t e.g e.p fun p => { p with cstack := k }
def Sys2Proof.seqStack (s : State) (e : SeqEnv) (k : List Dword) : State :=
  updSeq s e.t e.flume fun q => { q with cstack := k }

/-- An address that `jr` and `jr.call` may reach: aligned, in the context's pinned text (R221). -/
def Sys2Proof.pinned (s : State) (team : Team) (a : Dword) : Prop :=
  a.toNat % 4 = 0 ∧ (s.ctx team.id.ctx).pinBase.toNat ≤ a.toNat ∧
    a.toNat < (s.ctx team.id.ctx).pinBase.toNat + (s.ctx team.id.ctx).pinLen.toNat

/-- Calls, returns and register jumps complete (R221): a call pushes the address of the next word where the stack has
room, 32 entries for a path and 8 for a sequencer; a return pops; a register jump goes to pinned text. -/
def Sys2Proof.callResultsRule : Prop :=
  (∀ (s : State) (e : Env), GroupAt s e 0 →
    (∀ w o, e.path.cstack.length < 32 → exec (.call w o) s =
      .next (take w e (withStack s e ((e.path.pc + 4) :: e.path.cstack)) (relative e.path.pc o))) ∧
    (∀ w a k, e.path.cstack = a :: k → exec (.ret w) s = .next (take w e (withStack s e k) a)) ∧
    (∀ w a, pinned s e.team (e.pair a) → exec (.jr w a) s = .next (take w e s (e.pair a))) ∧
    (∀ w a, e.path.cstack.length < 32 → pinned s e.team (e.pair a) → exec (.jrCall w a) s =
      .next (take w e (withStack s e ((e.path.pc + 4) :: e.path.cstack)) (e.pair a)))) ∧
  (∀ (s : State) (e : SeqEnv), SeqAt s e 0 →
    (∀ w o, e.seq.cstack.length < 8 → exec (.call w o) s =
      .next (seqJump (seqStack s e ((e.seq.pc + 4) :: e.seq.cstack)) e (relative e.seq.pc o))) ∧
    (∀ w a k, e.seq.cstack = a :: k → exec (.ret w) s = .next (seqJump (seqStack s e k) e a)))

/-- The bytes that a core's instruction cache holds for a team (R123). -/
def Sys2Proof.cachedBytes (s : State) (team : Team) (va n : Nat) : List Byte :=
  (List.range n).map fun i =>
    (((s.core team.id.core).icache.getD (sectKey team.id.ctx (va + i)) 0).extractLsb' (8 * ((va + i) % 64)) 8)

/-- Whether the instruction cache of a team's core holds n bytes from an address in the global range. -/
def Sys2Proof.cached (s : State) (team : Team) (va n : Nat) : Prop :=
  va + n ≤ 0x0F00000000000000 ∧ ∀ a ∈ sectorsOf va n, (s.core team.id.core).icache.has (sectKey team.id.ctx a) = true

/-- The function table of a team's image: its base and its length (R222). -/
def Sys2Proof.functionTable (s : State) (team : Team) : Nat × Nat :=
  if team.id.image = 0 then ((s.ctx team.id.ctx).ftabD.toNat, (s.ctx team.id.ctx).ftlenD)
  else ((s.ctx team.id.ctx).ftabL.toNat, (s.ctx team.id.ctx).ftlenL)

/-- `jt` and `jt.call` complete where the index is in the table and its entry, which is not 0, is in the instruction cache
(R221, R222): the path goes to the entry's address with bits 1:0 cleared. -/
def Sys2Proof.tableJumpResultsRule : Prop :=
  ∀ (s : State) (e : Env) (w : Bool) (a : BitVec 6), GroupAt s e 0 →
    let k := (readS e.grp e.path a.toNat).toNat
    let va := (functionTable s e.team).1 + 8 * k
    let x := ofBytes (cachedBytes s e.team va 8)
    k < (functionTable s e.team).2 → cached s e.team va 8 → x ≠ 0 →
    exec (.jt w a) s = .next (take w e s (BitVec.ofNat 64 (4 * (x / 4)))) ∧
    (e.path.cstack.length < 32 → exec (.jtCall w a) s =
      .next (take w e (withStack s e ((e.path.pc + 4) :: e.path.cstack)) (BitVec.ofNat 64 (4 * (x / 4)))))

/-- The indirect jumps of a sequencer, with registers `s0` to `s31` and a call stack of eight (R160, R221, R222). -/
def Sys2Proof.sequencerJumpResultsRule : Prop :=
  ∀ (s : State) (e : SeqEnv) (w : Bool) (a : BitVec 6), SeqAt s e 0 →
    (a.toNat ≤ 31 →
      let k := (e.seq.s.getD a.toNat 0).toNat
      let va := (functionTable s e.team).1 + 8 * k
      let x := ofBytes (cachedBytes s e.team va 8)
      k < (functionTable s e.team).2 → cached s e.team va 8 → x ≠ 0 →
      exec (.jt w a) s = .next (seqJump s e (BitVec.ofNat 64 (4 * (x / 4)))) ∧
      (e.seq.cstack.length < 8 → exec (.jtCall w a) s =
        .next (seqJump (seqStack s e ((e.seq.pc + 4) :: e.seq.cstack)) e (BitVec.ofNat 64 (4 * (x / 4)))))) ∧
    (a.toNat + 1 ≤ 31 →
      let x := e.seq.s.getD (a.toNat + 1) 0 ++ e.seq.s.getD a.toNat 0
      pinned s e.team x →
      exec (.jr w a) s = .next (seqJump s e x) ∧
      (e.seq.cstack.length < 8 →
        exec (.jrCall w a) s = .next (seqJump (seqStack s e ((e.seq.pc + 4) :: e.seq.cstack)) e x)))

/-- What the closing of a split record leaves (R40), whose carriers, some of them live, all wait and which is no record's parent: the
record is free; each part, of one label and one depth of calls, is left as its lowest entry, which goes on after its `rejoin` with the
union of the domains, the masks and, as far as the shallowest stack goes, the stacks, and with the record's parent as its split; the
part's other entries are free, and every other path stays. A record with a carrier that does not wait stays open. -/
def Sys2Proof.closedRecordRule : Prop :=
  ∀ (s : State) (t g r parent : Nat) (T : Team) (G : Group), s.teams.get? t = some T → T.groups.get? g = some G →
    G.splits.get? r = some parent → r ≠ parent → G.paths.keys.Pairwise (· < ·) → G.splits.keys.Pairwise (· < ·) →
    let cs := G.carriers r
    ((∃ e ∈ cs, e.2.st ≠ 1) → closeRecord 8 s t g r = s) ∧
    (cs ≠ [] → (∀ e ∈ cs, e.2.st = 1) → G.nested r = false →
      ∃ U H, (closeRecord 8 s t g r).teams.get? t = some U ∧ U.groups.get? g = some H ∧
        closeRecord 8 s t g r = { s with teams := (closeRecord 8 s t g r).teams } ∧
        H = { G with paths := H.paths, splits := H.splits } ∧
        H.splits.get? r = none ∧ (∀ n, n ≠ r → H.splits.get? n = G.splits.get? n) ∧
        (∀ n, G.paths.get? n ∉ cs.map (fun e => some e.2) → H.paths.get? n = G.paths.get? n) ∧
        ∀ e ∈ cs,
          let part := cs.filter fun x => x.2.label == e.2.label && x.2.cstack.length == e.2.cstack.length
          if part.head? = some e then
            ∃ P, H.paths.get? e.1 = some P ∧ P = { e.2.advance with domain := P.domain, mask := P.mask, pstack := P.pstack, split := parent,
                                                                      st := 0, label := 0 } ∧
              (∀ k, P.domain.getLsbD k = part.any fun x => x.2.domain.getLsbD k) ∧
              (∀ k, P.mask.getLsbD k = part.any fun x => x.2.mask.getLsbD k) ∧
              (∀ x ∈ part, P.pstack.length ≤ x.2.pstack.length) ∧ (∃ x ∈ part, P.pstack.length = x.2.pstack.length) ∧
              ∀ j k, j < P.pstack.length → (P.pstack.getD j 0).getLsbD k = part.any fun x => (x.2.pstack.getD j 0).getLsbD k
          else H.paths.get? e.1 = none)

/-- `rejoin` and `exit` complete (R40, R220, R231): a path without an open split goes on at `rejoin`; one with a split waits
at the label, with its group's results written, and its record is tested. `exit` ends the path, or the sequencer's
program; in emulation mode a group's `exit` is illegal and is not named here. -/
def Sys2Proof.rejoinAndExitRule : Prop :=
  (∀ (s : State) (e : Env), GroupAt s e 0 →
    (∀ w o, e.path.split = 7 → exec (.rejoin w o) s = .next (retire w e s)) ∧
    (∀ w o, e.path.split ≠ 7 → exec (.rejoin w o) s = .next (marked w e (closeRecord 8
      (updPath (landAll s e.t e.g) e.t e.g e.p fun p => { p with st := 1, label := relative e.path.pc o, hold := none })
      e.t e.g e.path.split))) ∧
    (∀ w, e.grp.emu = none → 1 < e.grp.paths.length → exec (.exit w) s = .next (marked w e (eqpTest (barTests (closeRecord 8
      (updGroup (landAll (countClause s e.t) e.t e.g) e.t e.g fun g => { g with paths := g.paths.del e.p })
      e.t e.g e.path.split) e.t) e.t))) ∧
    (∀ w, e.grp.emu = none → e.grp.paths.length ≤ 1 →
      exec (.exit w) s = .next (marked w e (endGroup (countClause s e.t) e.t e.g)))) ∧
  (∀ (s : State) (e : SeqEnv) (w : Bool), SeqAt s e 0 → exec (.exit w) s = .next
    (teamTest (updSeq s e.t e.flume fun q => { q with running := false, clause := none, hold := none }) e.t))

/-- The ends of paths, and what a split record leaves when it closes (R40, R220, R231). -/
def Obligations.RejoinAndExit : Prop := rejoinAndExitRule ∧ closedRecordRule

/-! ## Waits, engines, chaining -/

/-- The waits of a group complete (R225 to R229, R237): `bar.sync` with no access pending arrives and its phase is
tested; `wait`, whose conditions pass their checks and read no memory, writes its status at once where its first
evaluation ends it, and waits otherwise; `eqp`, first of its clause, passes where no move is wanted and waits otherwise. A word
that waits acts on its switch marker as it issues (R188). -/
def Sys2Proof.groupWaitsRule : Prop :=
  ∀ (s : State) (e : Env), GroupAt s e 0 →
    (∀ w i, i.toNat ≤ 15 → pendingAccess s e.t e.g = false → exec (.barSync w i) s =
      .next (barTest (markedWait w e (standAt (landAll s e.t e.g) e (.bar i.toNat))) e.t i.toNat)) ∧
    (∀ (w all : Bool) (n : BitVec 2) (d a b : BitVec 6), a.toNat + 4 * (n.toNat + 1) ≤ 61 →
      let cs := (List.range (n.toNat + 1)).map fun i => condAt e.agt (a.toNat + 4 * i)
      let r : WaitRec := { any := !all, conds := cs, timeout := (readS e.grp e.path b.toNat).toNat, since := s.refclk, sd := d.toNat,
                           got := [], poll := none, polled := none, base := [], seen := [] }
      (∀ c ∈ cs, c.check s e.team = none ∧ c.kind ≠ 3) →
      (∀ st, r.verdict s e.t (some e.g) e.team.id.ctx = some st →
        exec (.wait w all n d a b) s = .next (retire w e (writeS s e.t e.g e.p d.toNat st))) ∧
      (r.verdict s e.t (some e.g) e.team.id.ctx = none → exec (.wait w all n d a b) s = .next (markedWait w e (standAt s e (.wait r))))) ∧
    (∀ (w : Bool) (n : BitVec 16) (c : Clause), e.path.clause = some c → c.index = 0 →
      (e.grp.emu ≠ none → exec (.eqp w n) s = .next (retire w e s)) ∧
      (e.grp.emu = none → e.team.target = 2 ∨ e.team.target = e.team.ownKind →
        exec (.eqp w n) s = .next (notePoint (retire w e s) e.t e.g n.toNat)) ∧
      (e.grp.emu = none → e.team.target ≠ 2 → e.team.target ≠ e.team.ownKind →
        exec (.eqp w n) s = .next (eqpTest (markedWait w e (standAt s e (.eqp n.toNat s.refclk))) e.t)))

/-- A `wait` that reads a memory word, whose conditions pass their checks, stands at its word with its switch marker acted on
and the access out that reads its words; every wait is then looked at (R49, R227, R228). -/
def Sys2Proof.memoryWaitsRule : Prop :=
  ∀ (s : State) (e : Env), GroupAt s e 0 →
    ∀ (w all : Bool) (n : BitVec 2) (d a b : BitVec 6), a.toNat + 4 * (n.toNat + 1) ≤ 61 →
      let cs := (List.range (n.toNat + 1)).map fun i => condAt e.agt (a.toNat + 4 * i)
      let r : WaitRec := { any := !all, conds := cs, timeout := (readS e.grp e.path b.toNat).toNat, since := s.refclk, sd := d.toNat,
                           got := [], poll := none, polled := none, base := [], seen := [] }
      (∀ c ∈ cs, c.check s e.team = none) → (∃ c ∈ cs, c.kind = 3) →
      exec (.wait w all n d a b) s = .next (wakeAll (markedWait w e (startPoll s e.t (some e.g) e.p r)))

/-- A sequencer's `wait`, with registers `s0` to `s31`: as a group's, without a switch marker (R160, R188, R226). -/
def Sys2Proof.sequencerWaitsRule : Prop :=
  ∀ (s : State) (e : SeqEnv), SeqAt s e 0 →
    ∀ (w all : Bool) (n : BitVec 2) (d a b : BitVec 6), a.toNat + 4 * (n.toNat + 1) ≤ 32 → d.toNat ≤ 31 → b.toNat ≤ 31 →
      let p := if e.flume then 0 else 1
      let cs := (List.range (n.toNat + 1)).map fun i => condAt e.agt (a.toNat + 4 * i)
      let r : WaitRec := { any := !all, conds := cs, timeout := (e.seq.s.getD b.toNat 0).toNat, since := s.refclk, sd := d.toNat,
                           got := [], poll := none, polled := none, base := [], seen := [] }
      (∀ c ∈ cs, c.check s e.team = none) →
      ((∀ c ∈ cs, c.kind ≠ 3) →
        (∀ st, r.verdict s e.t none e.team.id.ctx = some st →
          exec (.wait w all n d a b) s = .next (seqNext (updSeq s e.t e.flume fun q => { q with s := q.s.put d.toNat st }) e)) ∧
        (r.verdict s e.t none e.team.id.ctx = none →
          exec (.wait w all n d a b) s = .next (updSeq s e.t e.flume fun q => { q with hold := some (.wait r) }))) ∧
      ((∃ c ∈ cs, c.kind = 3) → exec (.wait w all n d a b) s = .next (wakeAll (startPoll s e.t none p r)))

/-- The words that wait (R225 to R229, R237), in a group and in a sequencer. -/
def Obligations.WaitWordResults : Prop := groupWaitsRule ∧ memoryWaitsRule ∧ sequencerWaitsRule

/-- The engine words of a group complete (R161, R162, R235): `efork`, with aligned addresses whose bits 63:60 are 0, starts the
programs whose address is not 0 with copies of `s0` to `s31` once no program runs and none of the group's scratchpad accesses and
transfers is pending; `erdv` merges the engine flags into `%fflags` and clears them once no program runs, their operations are
applied and their copies have made their scratchpad accesses. -/
def Sys2Proof.engineForkResultsRule : Prop :=
  ∀ (s : State) (e : Env), GroupAt s e 0 → e.team.flume.running = false → e.team.sluice.running = false →
    (∀ (w : Bool) (a b : BitVec 6), (∀ x ∈ [e.pair a, e.pair b], x.toNat % 4 = 0 ∧ x.toNat < 2 ^ 60) →
      heldArgs e.path.hold = none → pendingScratch s e.t e.g = false → pendingTransfer e.team e.g = false →
      exec (.efork w a b) s = .next (retire w e (startSeq (startSeq
        (if e.pair a = 0 then s else addFloor s e.t 32 fun o => o.src == some e.g) e true (e.pair a)) e false (e.pair b)))) ∧
    (∀ w : Bool, (∀ o ∈ e.team.fl.ops, o.src ≠ none) → sluiceScratch s e.t = false → exec (.erdv w) s = .next (retire w e
      (updTeam (orFlags s e.t e.g e.team.fl.flags) e.t fun t => { t with fl := { t.fl with flags := 0 } })))

/-- Launch chaining and migration requests complete (R236, R237): `hint.succ` marks the team and its launch; `wait.pred` with
a predecessor that has ended and whose writes are performed acquires at device scope and writes 0, or 1 where it was
destroyed; `migr.req` writes the target kind. -/
def Sys2Proof.chainingResultsRule : Prop :=
  ∀ (s : State) (e : Env), GroupAt s e 0 →
    let key := launchKey e.team.id.ctx e.team.id.grid
    (∀ w, exec (.hintSucc w) s = .next (retire w e
      { updTeam s e.t (fun t => { t with hintSucc := true }) with
        launches := s.launches.upd key fun l =>
          { l with hinted := if l.hinted.contains e.team.id.num then l.hinted else l.hinted ++ [e.team.id.num] } })) ∧
    (∀ w d pk l, (s.launches.get? key).bind (·.pred) = some pk → s.launches.get? pk = some l → l.done = true →
      l.settled s = true →
      exec (.waitPred w d) s = .next (retire w e (writeS
        (acquire s e.team.id.core e.team.id.ctx 4) e.t e.g e.p d.toNat (if l.destroyed then 1 else 0)))) ∧
    (∀ w k, k.toNat ≤ 2 → exec (.migrReq w k) s = .next (retire w e (setTarget s e.t (oneImage s e.team k.toNat))))

/-! ## Emulation (R200 to R203) -/

/-- A word of a reserved major where CTX_EMUVEC has its enable bit and the group is not emulating: the fixed-latency results
of earlier words land. While another register result of the group is outstanding the path stands at the word; else it
enters the handler: the shadow keeps `s0` to `s5`, the mask and the stack's depth; the entry registers hold the word's
address, the word, its prefix, its place and the header; the path goes on at HANDLER. Without the enable bit, or in
emulation mode, the team stops with RESERVED_MAJOR, which R202 makes EMU_DOUBLE in emulation mode. -/
def Sys2Proof.emulationEntryResultsRule : Prop :=
  (∀ (s : State) (e : Env) (c : Clause) (word : Word), issuer s = .group e → e.path.clause = some c →
    let vec := (s.ctx e.team.id.ctx).emuvec
    let l := landAll s e.t e.g
    (vec.getLsbD 0 = true → e.grp.emu = none → outstanding l e.t e.g = true →
      exec (.emulationEntry word) s = .next (standAt l e (retryHold l e.path.hold))) ∧
    (∀ f : Env, vec.getLsbD 0 = true → e.grp.emu = none → outstanding l e.t e.g = false → issuer l = .group f →
      ∃ u, exec (.emulationEntry word) s = .next u ∧ GroupOnly l u f fun G =>
        G = { f.grp with emu := G.emu, s := G.s, paths := G.paths } ∧
        G.emu = some { s := (List.range 6).map fun i => f.grp.s.getD i 0, mask := f.path.mask, pdepth := f.path.pstack.length,
                       addr := f.path.wordAddr, index := c.index + 1, path := f.p } ∧
        (∀ r, 6 ≤ r → G.s.getD r 0 = f.grp.s.getD r 0) ∧
        G.s.getD 0 0 = lowWord f.path.wordAddr ∧ G.s.getD 1 0 = highWord f.path.wordAddr ∧ G.s.getD 2 0 = word ∧
        G.s.getD 3 0 = c.pfx.getD 0 ∧ G.s.getD 5 0 = c.header ∧
        G.s.getD 4 0 = BitVec.ofNat 32 (c.index + 1 + 16 * bits c.header.toNat 31 28 + if c.pfx.isSome then 256 else 0) ∧
        PathOnly f G fun P => P = { f.path with pc := BitVec.ofNat 64 (4 * bits vec.toNat 59 2), clause := none, hold := none }) ∧
    (vec.getLsbD 0 = false ∨ e.grp.emu ≠ none →
      exec (.emulationEntry word) s = .next (stopGroup s e.t e.g e.p e.path.pc 0x03 0 0))) ∧
  (∀ (s : State) (e : SeqEnv) (word : Word), issuer s = .seq e →
    exec (.emulationEntry word) s = .next (stopSeq s e.t e.flume e.seq.pc 0x03 0 0))

/-- `emret` in emulation mode with the stack at its entry depth (R203): the shadow's registers come back but for those that
KEEP names, the mask with them, and the group leaves emulation mode. `emret.to` goes to the header in `s0:s1`;
`emret.skip` goes on after the emulated word: in its clause fetched again, or at the next clause where it was the last. -/
def Sys2Proof.emulationReturnResultsRule : Prop :=
  ∀ (s : State) (e : Env) (sh : Shadow) (k : BitVec 6), GroupAt s e 6 → e.grp.emu = some sh → e.path.pstack.length = sh.pdepth →
    (∀ w, exec (.emretTo w k) s = .next (take w e (leaveEmulation s e sh k.toNat) (pair (e.grp.s.getD 0 0) (e.grp.s.getD 1 0)))) ∧
    (∀ w, let head := BitVec.ofNat 64 (forwarded s e.team.id.core e.team.id.ctx (sh.addr - BitVec.ofNat 64 (4 * sh.index)).toNat)
      let h := (wordsOf (cachedBytes s e.team head.toNat 4)).headD 0
      cached s e.team head.toNat 4 → bits h.toNat 31 28 ≤ sh.index →
      exec (.emretSkip w k) s = .next (take w e (leaveEmulation s e sh k.toNat) (head + BitVec.ofNat 64 (4 * sh.index + 4)))) ∧
    (∀ w, let head := BitVec.ofNat 64 (forwarded s e.team.id.core e.team.id.ctx (sh.addr - BitVec.ofNat 64 (4 * sh.index)).toNat)
      let h := (wordsOf (cachedBytes s e.team head.toNat 4)).headD 0
      let next := head + BitVec.ofNat 64 (4 * sh.index + 4)
      let n := 4 * (bits h.toNat 31 28 - sh.index)
      cached s e.team head.toNat 4 → cached s e.team next.toNat n → sh.index < bits h.toNat 31 28 → badHeader (.group e.g) h = false →
      exec (.emretSkip w k) s = .next (updPath (take w e (leaveEmulation s e sh k.toNat) next) e.t e.g e.p fun p =>
        { p with clause := some ⟨head, h, sh.index, wordsOf (cachedBytes s e.team next.toNat n), none⟩ }))

/-! ## Clauses (R184 to R187, R195) -/

/-- A header completes where it is legal for a group, its selected counters are low enough and its words are in the
instruction cache: the path stands at the first word of the clause, with the words as fetched (R184 to R186). -/
def Sys2Proof.headerResultsRule : Prop :=
  ∀ (s : State) (e : Env) (n : BitVec 4) (c : BitVec 3) (sel : BitVec 4) (l : BitVec 5) (y : Bool),
    issuer s = .group e → e.path.clause = none → n ≠ 0 → c.toNat ∈ [0, 1, 2, 3, 6] →
    (sel = 0 ∨ countersAt e.grp sel.toNat l.toNat = true) →
    cached s e.team (e.path.pc.toNat + 4) (4 * n.toNat) →
    exec (.clauseHeader n c sel l y) s = .next (updPath s e.t e.g e.p fun p =>
      { p with pc := p.pc + 4, hold := none,
               clause := some ⟨p.pc, headerWord n c sel l y, 0, wordsOf (cachedBytes s e.team (e.path.pc.toNat + 4) (4 * n.toNat)), none⟩ })

/-- A prefix word completes where a memory word or a reserved word follows it in the clause: the path stays at the
prefix, which the next word carries (R195). -/
def Sys2Proof.prefixResultsRule : Prop :=
  ∀ (s : State) (e : Env) (cl : Clause) (w : Bool) (o sc p c : BitVec 3) (x y : Word) (rest : List Word),
    GroupAt s e 1 → e.path.clause = some cl → cl.pfx = none → cl.words = x :: y :: rest → mayFollowPfx y = true →
    exec (.pfx w o sc p c) s = .next (updPath s e.t e.g e.p fun path =>
      { path with hold := none, clause := some { cl with index := cl.index + 1, words := y :: rest, pfx := some (pfxWord w o sc p c) } })

/-- The predicate stack (R42): `ppush` and `ppush.n` push the mask and narrow it, `pinv` turns it within the top entry, `ppop`
takes the top entry cut to the domain; a push on 16 entries and a `pinv` or `ppop` on none stop the team before any effect. -/
def Obligations.PredicateStackWords : Prop := predicateStackResultsRule ∧ predicateStackTrapsRule

/-- `nop`, `brk`, `waitcnt`, `wrsr` and `trap` (R229, R232, R234). -/
def Obligations.PlainAndTrapWords : Prop := plainWordResultsRule ∧ trapWordStopsRule

/-- `brv` and `brv.n` (R38, R39, R202, R219): no split where all or none of the active lanes are taken, a split otherwise, and
the traps of a split that cannot be made. -/
def Obligations.VectorBranchWords : Prop := vectorBranchResultsRule ∧ vectorBranchTrapsRule

/-- Calls, returns and jumps through registers and the function table (R221, R222). -/
def Obligations.CallAndJumpWords : Prop := callResultsRule ∧ tableJumpResultsRule ∧ sequencerJumpResultsRule

/-- `efork`, `erdv`, `hint.succ`, `wait.pred` and `migr.req` (R161, R162, R235 to R237). -/
def Obligations.EngineAndChainingWords : Prop := engineForkResultsRule ∧ chainingResultsRule

/-- Emulation of reserved majors, entered and left (R200 to R203). -/
def Obligations.EmulationWords : Prop := emulationEntryResultsRule ∧ emulationReturnResultsRule

/-- Clause headers and prefix words complete (R184 to R186, R195). -/
def Obligations.ClauseOpening : Prop := headerResultsRule ∧ prefixResultsRule

/-! ## The vector instructions (R249 to R280) -/

/-- What a vector word does: its marker, its latency, the names that it reads and writes, the lanes of each name written,
which lanes are written, the exception flags. -/
structure Sys2Proof.VecSpec where
  w : Bool
  lat : Latency
  srcs : List Nat
  dsts : List Nat
  vals : List (Nat → Word)
  mask : LaneMask
  flags : Nat := 0

/-- Lane l of a name of the issuing group, and of a pair of names (R56). -/
def Sys2Proof.laneOf (e : Env) (n : BitVec 7) (l : Nat) : Word := (e.team.lanes e.g n.toNat).getD l 0
def Sys2Proof.pairOf (e : Env) (n : BitVec 7) (l : Nat) : Dword :=
  (e.team.lanes e.g (n.toNat + 1)).getD l 0 ++ (e.team.lanes e.g n.toNat).getD l 0

/-- The names of a pair. -/
def Sys2Proof.bothNames (n : BitVec 7) : List Nat := [n.toNat, n.toNat + 1]

/-- A word of two names, of one name, of an immediate, of the old destination and two names; lane by lane. -/
def Sys2Proof.vec2 (e : Env) (w : Bool) (lat : Latency) (d a b : BitVec 7) (f : Word → Word → Word) : Option VecSpec :=
  some { w, lat, srcs := [a.toNat, b.toNat], dsts := [d.toNat], vals := [fun l => f (laneOf e a l) (laneOf e b l)], mask := e.path.mask }
def Sys2Proof.vec1 (e : Env) (w : Bool) (lat : Latency) (d a : BitVec 7) (f : Word → Word) : Option VecSpec :=
  some { w, lat, srcs := [a.toNat], dsts := [d.toNat], vals := [fun l => f (laneOf e a l)], mask := e.path.mask }
def Sys2Proof.vec0 (e : Env) (w : Bool) (d : BitVec 7) (lat : Latency) (f : Nat → Word) : Option VecSpec :=
  some { w, lat, srcs := [], dsts := [d.toNat], vals := [f], mask := e.path.mask }
def Sys2Proof.vec3 (e : Env) (w : Bool) (lat : Latency) (d a b : BitVec 7) (f : Word → Word → Word → Word) : Option VecSpec :=
  some { w, lat, srcs := [d.toNat, a.toNat, b.toNat], dsts := [d.toNat],
         vals := [fun l => f (laneOf e d l) (laneOf e a l) (laneOf e b l)], mask := e.path.mask }
/-- A pair from two pairs. -/
def Sys2Proof.vecPair (e : Env) (w : Bool) (d a b : BitVec 7) (f : Dword → Dword → Dword) : Option VecSpec :=
  some { w, lat := .one, srcs := bothNames a ++ bothNames b, dsts := bothNames d,
         vals := [fun l => lowWord (f (pairOf e a l) (pairOf e b l)), fun l => highWord (f (pairOf e a l) (pairOf e b l))],
         mask := e.path.mask }
/-- One value in every active lane. -/
def Sys2Proof.vecAll (e : Env) (w : Bool) (lat : Latency) (d a : BitVec 7) (v : Word) : Option VecSpec :=
  some { w, lat, srcs := [a.toNat], dsts := [d.toNat], vals := [fun _ => v], mask := e.path.mask }

/-- The values of the active lanes, in lane order. -/
def Sys2Proof.activeVals (e : Env) (a : BitVec 7) : List Word := (lanesOf e.path.mask).map (laneOf e a)

/-- The value of a scan at lane l: over the active lanes up to l. -/
def Sys2Proof.scanAt (e : Env) (a : BitVec 7) (op : Word → Word → Word) (unit : Word) (l : Nat) : Word :=
  (((List.range (l + 1)).filter fun k => e.path.mask.getLsbD k).map (laneOf e a)).foldl op unit

/-- A signed seven-bit and a signed sixteen-bit field as a word. -/
def Sys2Proof.word7 (i : BitVec 7) : Word := i.signExtend 32
def Sys2Proof.word16 (i : BitVec 16) : Word := i.signExtend 32

/-- The lesser and the greater of two words, signed and natural. -/
def Sys2Proof.least (x y : Word) : Word := if x.slt y then x else y
def Sys2Proof.greatest (x y : Word) : Word := if x.slt y then y else x
def Sys2Proof.leastN (x y : Word) : Word := if x.ult y then x else y
def Sys2Proof.greatestN (x y : Word) : Word := if x.ult y then y else x

/-- An integer held to the signed range of a word (R250). -/
def Sys2Proof.saturate (x : Int) : Word :=
  if x < -2147483648 then 0x80000000#32 else if 2147483647 < x then 0x7FFFFFFF#32 else BitVec.ofInt 32 x

/-- The sum of the four byte products of two words (R263). -/
def Sys2Proof.dotBytes (f : BitVec 8 → Int) (x y : Word) : Int :=
  f (x.extractLsb' 0 8) * f (y.extractLsb' 0 8) + f (x.extractLsb' 8 8) * f (y.extractLsb' 8 8) +
    f (x.extractLsb' 16 8) * f (y.extractLsb' 16 8) + f (x.extractLsb' 24 8) * f (y.extractLsb' 24 8)

/-- The vector integer and lane words, by the tables of R251 to R263; the vector form of `rdsr` with them (R234). -/
def Sys2Proof.integerVec (e : Env) : Instr → Option VecSpec
  | .vaddI32 w d a b => vec2 e w .one d a b fun x y => x + y
  | .vsubI32 w d a b => vec2 e w .one d a b fun x y => x - y
  | .vmulI32 w d a b => vec2 e w .one d a b fun x y => x * y
  | .vmulhiI32 w d a b => vec2 e w .one d a b fun x y => ((x.signExtend 64 * y.signExtend 64) >>> 32).setWidth 32
  | .vmulhiN32 w d a b => vec2 e w .one d a b fun x y => ((x.setWidth 64 * y.setWidth 64) >>> 32).setWidth 32
  | .vminI32 w d a b => vec2 e w .one d a b least
  | .vminN32 w d a b => vec2 e w .one d a b leastN
  | .vmaxI32 w d a b => vec2 e w .one d a b greatest
  | .vmaxN32 w d a b => vec2 e w .one d a b greatestN
  | .vaddsI32 w d a b => vec2 e w .one d a b fun x y => saturate (x.toInt + y.toInt)
  | .vsubsI32 w d a b => vec2 e w .one d a b fun x y => saturate (x.toInt - y.toInt)
  | .vabsI32 w d a => vec1 e w .one d a fun x => saturate x.toInt.natAbs
  | .vaddminI32 w d a b => vec3 e w .one d a b fun z x y => least z (saturate (x.toInt + y.toInt))
  | .vcopy w d a => vec1 e w .one d a fun x => x
  | .vaddB64 w d a b => vecPair e w d a b fun x y => x + y
  | .vsubB64 w d a b => vecPair e w d a b fun x y => x - y
  | .vand w d a b => vec2 e w .one d a b fun x y => x &&& y
  | .vor w d a b => vec2 e w .one d a b fun x y => x ||| y
  | .vxor w d a b => vec2 e w .one d a b fun x y => x ^^^ y
  | .vandn w d a b => vec2 e w .one d a b fun x y => x &&& ~~~y
  | .vnot w d a => vec1 e w .one d a fun x => ~~~x
  | .vshl w d a b => vec2 e w .one d a b fun x y => x <<< y.toNat
  | .vshr w d a b => vec2 e w .one d a b fun x y => x >>> y.toNat
  | .vsra w d a b => vec2 e w .one d a b fun x y => x.sshiftRight y.toNat
  | .vpopc w d a => vec1 e w .one d a fun x => BitVec.ofNat 32 ((List.range 32).countP fun i => x.getLsbD i)
  | .vclz w d a => vec1 e w .one d a fun x => BitVec.ofNat 32 (clzV x)
  | .vctz w d a => vec1 e w .one d a fun x => BitVec.ofNat 32 (ctzV x)
  | .vbrev w d a => vec1 e w .one d a brevV
  | .vaddiI32 w d a i => vec1 e w .one d a fun x => x + word7 i
  | .vmuliI32 w d a i => vec1 e w .one d a fun x => x * word7 i
  | .vandi w d a i => vec1 e w .one d a fun x => x &&& word7 i
  | .vori w d a i => vec1 e w .one d a fun x => x ||| word7 i
  | .vxori w d a i => vec1 e w .one d a fun x => x ^^^ word7 i
  | .vminiI32 w d a i => vec1 e w .one d a fun x => least x (word7 i)
  | .vmaxiI32 w d a i => vec1 e w .one d a fun x => greatest x (word7 i)
  | .vshli w d a i => vec1 e w .one d a fun x => x <<< i.toNat
  | .vshri w d a i => vec1 e w .one d a fun x => x >>> i.toNat
  | .vsrai w d a i => vec1 e w .one d a fun x => x.sshiftRight i.toNat
  | .vmovi w d i => vec0 e w d .one fun _ => word16 i
  | .vmoviH w d i => vec1 e w .one d d fun x => i ++ x.setWidth 16
  | .vmoviZ w d i => vec0 e w d .one fun _ => i.setWidth 32
  | .vsel w p d a b => some ⟨w, .one, [a.toNat, b.toNat], [d.toNat],
      [fun l => if (e.grp.pred p.toNat).getLsbD l then laneOf e a l else laneOf e b l], e.path.mask, 0⟩
  | .vshfl w d a b => some ⟨w, .move, [a.toNat, b.toNat], [d.toNat],
      [fun l => if (laneOf e b l).toNat < 96 then laneOf e a (laneOf e b l).toNat else 0], e.path.mask, 0⟩
  | .vlsh w d a n => some ⟨w, .move, [a.toNat], [d.toNat],
      [fun l => if 0 ≤ (l : Int) - n.toInt ∧ (l : Int) - n.toInt < 96 then laneOf e a ((l : Int) - n.toInt).toNat else 0],
      maskOf fun l => e.path.mask.getLsbD l && decide (0 ≤ (l : Int) - n.toInt ∧ (l : Int) - n.toInt < 96), 0⟩
  | .vbcast w d a n => vecAll e w .move d a (laneOf e a n.toNat)
  | .vbcastS w d x => vec0 e w d .move fun _ => readS e.grp e.path x.toNat
  | .vredAddI32 w d a => vecAll e w .reduce d a ((activeVals e a).foldl (fun x y => x + y) 0)
  | .vredMinI32 w d a => vecAll e w .reduce d a ((activeVals e a).foldl least 0x7FFFFFFF)
  | .vredMinN32 w d a => vecAll e w .reduce d a ((activeVals e a).foldl leastN 0xFFFFFFFF)
  | .vredMaxI32 w d a => vecAll e w .reduce d a ((activeVals e a).foldl greatest 0x80000000)
  | .vredMaxN32 w d a => vecAll e w .reduce d a ((activeVals e a).foldl greatestN 0)
  | .vredAnd w d a => vecAll e w .reduce d a ((activeVals e a).foldl (fun x y => x &&& y) 0xFFFFFFFF)
  | .vredOr w d a => vecAll e w .reduce d a ((activeVals e a).foldl (fun x y => x ||| y) 0)
  | .vredXor w d a => vecAll e w .reduce d a ((activeVals e a).foldl (fun x y => x ^^^ y) 0)
  | .vscanAddI32 w d a => some ⟨w, .reduce, [a.toNat], [d.toNat], [fun l => scanAt e a (fun x y => x + y) 0 l], e.path.mask, 0⟩
  | .vscanMaxI32 w d a => some ⟨w, .reduce, [a.toNat], [d.toNat], [fun l => scanAt e a greatest 0x80000000 l], e.path.mask, 0⟩
  | .vdot4I8 w d a b => vec3 e w .fp d a b fun z x y => z + BitVec.ofInt 32 (dotBytes BitVec.toInt x y)
  | .vdot4N8 w d a b => vec3 e w .fp d a b fun z x y => z + BitVec.ofInt 32 (dotBytes (fun v => v.toNat) x y)
  | .rdsrVector w d a => vec0 e w d .one fun l => if a = 0 then BitVec.ofNat 32 l else specialOf e a.toNat
  | _ => none

/-- The state in which a vector word's effect is made, before the word retires: unmapped destinations get fresh rows, and
the results are written at their latency with their flags (R64, R189, R249, R267). -/
def Sys2Proof.vectorDone (s : State) (e : Env) (v : VecSpec) : State :=
  writeNames (updTeam s e.t fun t => t.mapAll e.g v.dsts) e (v.lat.words e.team.id.image) v.mask (BitVec.ofNat 32 v.flags)
    (v.dsts.zip (v.vals.map fun f => lanesFrom f))

/-- Every vector integer and lane word completes where the names that it reads are mapped and the rows that it needs can be
allocated: it writes the lanes of its table. -/
def Obligations.IntegerVectorResults : Prop :=
  ∀ (s : State) (e : Env) (i : Instr) (v : VecSpec), GroupAt s e 0 → i.check = none → integerVec e i = some v →
    e.team.allMapped e.g v.srcs = true → e.team.canWrite e.g v.dsts = true →
    exec i s = .next (retire v.w e (vectorDone s e v))

/-- A floating word lane by lane from its exact operation: a code and flags in each lane; the flags are those of the active
lanes (R151, R152). -/
def Sys2Proof.float32 (e : Env) (w : Bool) (lat : Latency) (d : BitVec 7) (srcs : List (BitVec 7)) (f : Nat → Nat × Nat) :
    Option VecSpec :=
  some ⟨w, lat, srcs.map (·.toNat), [d.toNat], [fun l => BitVec.ofNat 32 (f l).1], e.path.mask, flagsOver e.path.mask fun l => (f l).2⟩
def Sys2Proof.float64 (e : Env) (w : Bool) (d : BitVec 7) (srcs : List (BitVec 7)) (f : Nat → Nat × Nat) : Option VecSpec :=
  some ⟨w, .fp64, srcs.flatMap bothNames, bothNames d,
    [fun l => lowWord (BitVec.ofNat 64 (f l).1), fun l => highWord (BitVec.ofNat 64 (f l).1)], e.path.mask,
    flagsOver e.path.mask fun l => (f l).2⟩

/-- The FP32 and the FP64 value of a lane, and its code. -/
def Sys2Proof.single (e : Env) (n : BitVec 7) (l : Nat) : FV := decode Fmt.f32 (laneOf e n l).toNat
def Sys2Proof.double (e : Env) (n : BitVec 7) (l : Nat) : FV := decode Fmt.f64 (pairOf e n l).toNat
def Sys2Proof.code32 (e : Env) (n : BitVec 7) (l : Nat) : Nat := (laneOf e n l).toNat
def Sys2Proof.code64 (e : Env) (n : BitVec 7) (l : Nat) : Nat := (pairOf e n l).toNat

/-- Element i of a packed lane (R270). -/
def Sys2Proof.element (e : Env) (t : Bool) (n : BitVec 7) (l i : Nat) : FV :=
  decode (if t then Fmt.f16 else Fmt.bf16) (((laneOf e n l).toNat / 2 ^ (16 * i)) % 2 ^ 16)

/-- A packed word from its two elements' codes and flags. -/
def Sys2Proof.packed16 (e : Env) (w t : Bool) (d : BitVec 7) (srcs : List (BitVec 7)) (f : Nat → Nat → FV × Nat) : Option VecSpec :=
  float32 e w .fp d srcs fun l =>
    let x := rounded (if t then Fmt.f16 else Fmt.bf16) .rne (f l 0)
    let y := rounded (if t then Fmt.f16 else Fmt.bf16) .rne (f l 1)
    (x.1 + 2 ^ 16 * y.1, x.2 ||| y.2)

/-- The floating-point, conversion and special-function words with one destination name or pair, by R268 to R278. -/
def Sys2Proof.floatVec (s : State) (e : Env) : Instr → Option VecSpec
  | .vfaddF32 w r d a b => float32 e w .fp d [a, b] fun l =>
      rounded Fmt.f32 (modeOf r.toNat) (fadd (modeOf r.toNat) (single e a l) (single e b l))
  | .vfsubF32 w r d a b => float32 e w .fp d [a, b] fun l =>
      rounded Fmt.f32 (modeOf r.toNat) (fadd (modeOf r.toNat) (single e a l) (single e b l).negate)
  | .vfmulF32 w r d a b => float32 e w .fp d [a, b] fun l => rounded Fmt.f32 (modeOf r.toNat) (fmul (single e a l) (single e b l))
  | .vfaddF64 w d a b => float64 e w d [a, b] fun l => rounded Fmt.f64 .rne (fadd .rne (double e a l) (double e b l))
  | .vfsubF64 w d a b => float64 e w d [a, b] fun l => rounded Fmt.f64 .rne (fadd .rne (double e a l) (double e b l).negate)
  | .vfmulF64 w d a b => float64 e w d [a, b] fun l => rounded Fmt.f64 .rne (fmul (double e a l) (double e b l))
  | .vffmaF32 w r d a b => float32 e w .fp d [d, a, b] fun l =>
      rounded Fmt.f32 (modeOf r.toNat) (ffma (modeOf r.toNat) (single e a l) (single e b l) (single e d l))
  | .vffmaF64 w r d a b => float64 e w d [d, a, b] fun l =>
      rounded Fmt.f64 (modeOf r.toNat) (ffma (modeOf r.toNat) (double e a l) (double e b l) (double e d l))
  | .vfaddminF32 w d a b => float32 e w .fp d [d, a, b] fun l =>
      let c := rounded Fmt.f32 .rne (fadd .rne (single e a l) (single e b l))
      ((round Fmt.f32 .rne (fmin (single e d l) (decode Fmt.f32 c.1))).1, c.2)
  | .vfaddPacked w t d a b => packed16 e w t d [a, b] fun l i => fadd .rne (element e t a l i) (element e t b l i)
  | .vfsubPacked w t d a b => packed16 e w t d [a, b] fun l i => fadd .rne (element e t a l i) (element e t b l i).negate
  | .vfmulPacked w t d a b => packed16 e w t d [a, b] fun l i => fmul (element e t a l i) (element e t b l i)
  | .vffmaPacked w t d a b => packed16 e w t d [d, a, b] fun l i => ffma .rne (element e t a l i) (element e t b l i) (element e t d l i)
  | .vfminPacked w t d a b => packed16 e w t d [a, b] fun l i => (fmin (element e t a l i) (element e t b l i), 0)
  | .vfmaxPacked w t d a b => packed16 e w t d [a, b] fun l i => (fmax (element e t a l i) (element e t b l i), 0)
  | .vfdot2 w t d a b => float32 e w .fp d [d, a, b] fun l =>
      let x := fmul (element e t a l 0) (element e t b l 0)
      let y := fmul (element e t a l 1) (element e t b l 1)
      let r := rounded Fmt.f32 .rne (sumExact [single e d l, x.1, y.1])
      (r.1, r.2 ||| x.2 ||| y.2)
  | .vcvt w c d a t r n =>
      let src := c.toNat
      let lat : Latency := if src = 1 ∨ t.toNat = 1 then .fp64 else .fp
      let f := fun l => cvtLane src t.toNat (modeOf r.toNat) n (if src = 1 then code64 e a l else code32 e a l)
      let names := if src = 1 then bothNames a else [a.toNat]
      if t.toNat = 1 then
        some ⟨w, lat, names, bothNames d,
          [fun l => lowWord (BitVec.ofNat 64 (f l).1), fun l => highWord (BitVec.ofNat 64 (f l).1)], e.path.mask,
          flagsOver e.path.mask fun l => (f l).2⟩
      else
        some ⟨w, lat, names, [d.toNat], [fun l => BitVec.ofNat 32 (f l).1], e.path.mask, flagsOver e.path.mask fun l => (f l).2⟩
  | .vcvtPkBf16x2 w d a b => float32 e w .fp d [a, b] fun l =>
      let x := convert Fmt.bf16 .rne false (single e a l)
      let y := convert Fmt.bf16 .rne false (single e b l)
      (x.1 + 2 ^ 16 * y.1, x.2 ||| y.2)
  | .vcvtPkF16x2 w d a b => float32 e w .fp d [a, b] fun l =>
      let x := convert Fmt.f16 .rne false (single e a l)
      let y := convert Fmt.f16 .rne false (single e b l)
      (x.1 + 2 ^ 16 * y.1, x.2 ||| y.2)
  | .vquant w f d a b => float32 e w .fp d [a, b] fun l =>
      let x := code32 e b l
      let k := scaleOf x
      let q := quant (narrowOf f.toNat) (compandOf (s.ctx e.team.id.ctx) (bits x 12 10)) (modeOf (bits x 14 13)) (bit x 15)
        (single e a l) k.1
      (q.1, k.2 ||| q.2)
  | .vdequant w f d a b => float32 e w .fp d [a, b] fun l =>
      let x := code32 e b l
      let k := scaleOf x
      let q := dequant (narrowOf f.toNat) (compandOf (s.ctx e.team.id.ctx) (bits x 12 10))
        (code32 e a l % 2 ^ (narrowOf f.toNat).width) k.1
      (q.1, k.2 ||| q.2)
  | .vtrit w d a b => float32 e w .fp d [a, b] fun l =>
      let v := code32 e a l % 256
      let p := code32 e b l % 8
      if 243 ≤ v then (1, TRIT_BAD) else if 5 ≤ p then (1, 0) else (v / 3 ^ p % 3, 0)
  | .vrcpF32 w r d a => float32 e w .special d [a] fun l => rounded Fmt.f32 (modeOf r.toNat) (fdiv (FV.int 1) (single e a l))
  | .vsqrtF32 w r d a => float32 e w .special d [a] fun l => rounded Fmt.f32 (modeOf r.toNat) (fsqrt (single e a l))
  | .vdivF32 w r d a b => float32 e w .special d [a, b] fun l => rounded Fmt.f32 (modeOf r.toNat) (fdiv (single e a l) (single e b l))
  | .vexp2F32 w d a => float32 e w .special d [a] fun l => exp2 (code32 e a l)
  | .vlog2F32 w d a => float32 e w .special d [a] fun l => log2F (code32 e a l)
  | .vsinF32 w d a => float32 e w .special d [a] fun l => trig false (code32 e a l)
  | .vcosF32 w d a => float32 e w .special d [a] fun l => trig true (code32 e a l)
  | .vfminF32 w d a b => float32 e w .fp d [a, b] fun l => ((round Fmt.f32 .rne (fmin (single e a l) (single e b l))).1, 0)
  | .vfmaxF32 w d a b => float32 e w .fp d [a, b] fun l => ((round Fmt.f32 .rne (fmax (single e a l) (single e b l))).1, 0)
  | .vfminF64 w d a b => float64 e w d [a, b] fun l => ((round Fmt.f64 .rne (fmin (double e a l) (double e b l))).1, 0)
  | .vfmaxF64 w d a b => float64 e w d [a, b] fun l => ((round Fmt.f64 .rne (fmax (double e a l) (double e b l))).1, 0)
  | .vfabsF32 w d a => float32 e w .fp d [a] fun l => (withSign Fmt.f32 (code32 e a l) false, 0)
  | .vfnegF32 w d a => float32 e w .fp d [a] fun l => (withSign Fmt.f32 (code32 e a l) (!signOf Fmt.f32 (code32 e a l)), 0)
  | .vfcsgnF32 w d a b => float32 e w .fp d [a, b] fun l => (copySign Fmt.f32 (code32 e a l) (code32 e b l), 0)
  | .vfabsF64 w d a => float64 e w d [a] fun l => (withSign Fmt.f64 (code64 e a l) false, 0)
  | .vfnegF64 w d a => float64 e w d [a] fun l => (withSign Fmt.f64 (code64 e a l) (!signOf Fmt.f64 (code64 e a l)), 0)
  | .vfcsgnF64 w d a b => float64 e w d [a, b] fun l => (copySign Fmt.f64 (code64 e a l) (code64 e b l), 0)
  | _ => none

/-- The reductions and scans of floating-point lanes, by R144, R145 and R280. -/
def Sys2Proof.floatReduce (e : Env) : Instr → Option VecSpec
  | .vfredAddF32 w r d a => one w d a (modeOf r.toNat) (FV.zero true) (addR Fmt.f32 (modeOf r.toNat))
  | .vfredMaxF32 w d a => one w d a .rne (.inf true) fun x y => (fmax x y, 0)
  | .vfredMinF32 w d a => one w d a .rne (.inf false) fun x y => (fmin x y, 0)
  | .vfredAddF64 w d a => wide w d a (FV.zero true) (addR Fmt.f64 .rne)
  | .vfredMaxF64 w d a => wide w d a (.inf true) fun x y => (fmax x y, 0)
  | .vfredMinF64 w d a => wide w d a (.inf false) fun x y => (fmin x y, 0)
  | .vfscanAddF32 w r d a =>
      let x := fscan Fmt.f32 (modeOf r.toNat) e.path.mask (single e a)
      some ⟨w, .reduce, [a.toNat], [d.toNat], [fun l => BitVec.ofNat 32 (x.1.getD l 0)], e.path.mask, x.2⟩
  | .vfscanAddF64 w d a =>
      let x := fscan Fmt.f64 .rne e.path.mask (double e a)
      some ⟨w, .reduce, bothNames a, bothNames d,
        [fun l => lowWord (BitVec.ofNat 64 (x.1.getD l 0)), fun l => highWord (BitVec.ofNat 64 (x.1.getD l 0))], e.path.mask, x.2⟩
  | _ => none
where
  /-- A tree reduction of FP32 lanes, `unit` standing for the lanes outside ACTIVE. -/
  one (w : Bool) (d a : BitVec 7) (m : Mode) (unit : FV) (op : FV → FV → FV × Nat) : Option VecSpec :=
    let x := reduce96 op ((List.range 96).map fun l => if e.path.mask.getLsbD l then single e a l else unit)
    let r := round Fmt.f32 m x.1
    some ⟨w, .reduce, [a.toNat], [d.toNat], [fun _ => BitVec.ofNat 32 r.1], e.path.mask, x.2 ||| r.2⟩
  wide (w : Bool) (d a : BitVec 7) (unit : FV) (op : FV → FV → FV × Nat) : Option VecSpec :=
    let x := reduce96 op ((List.range 96).map fun l => if e.path.mask.getLsbD l then double e a l else unit)
    let r := round Fmt.f64 .rne x.1
    some ⟨w, .reduce, bothNames a, bothNames d, [fun _ => lowWord (BitVec.ofNat 64 r.1), fun _ => highWord (BitVec.ofNat 64 r.1)],
      e.path.mask, x.2 ||| r.2⟩

/-- Every floating-point, conversion, special-function and reduction word completes where the names that it reads are mapped,
the rows that it needs can be allocated and no flag that it raises is enabled in CTX_TRAPEN: it writes the lanes of its
table and raises its flags (R267 to R278; the forms of min, max and sign R278, of scaling R274). What `vfaddmin` leaves where vd
is positive infinity follows the table of R269 against its prose, which is the model's choice (log entry 52, DESIGN
CHOICE). -/
def Obligations.FloatVectorResults : Prop :=
  ∀ (s : State) (e : Env) (i : Instr) (v : VecSpec), GroupAt s e 0 → i.check = none → floatVec s e i = some v ∨ floatReduce e i = some v →
    e.team.allMapped e.g v.srcs = true → e.team.canWrite e.g v.dsts = true →
    v.flags &&& (s.ctx e.team.id.ctx).trapen.toNat &&& 0x3F = 0 →
    exec i s = .next (retire v.w e (vectorDone s e v))

/-- Where a vector word stops (R64, R151, R238): a source name that is not mapped stops the team with UNMAPPED_NAME; for want
of rows the word is tried again, and after 4,096 ticks stops the team with ROW_POOL_EMPTY; an enabled flag stops it with
ARITH, the flags raised and no lane written. -/
def Obligations.VectorWordStops : Prop :=
  ∀ (s : State) (e : Env) (i : Instr) (v : VecSpec), GroupAt s e 0 → i.check = none →
    integerVec e i = some v ∨ floatVec s e i = some v ∨ floatReduce e i = some v →
    (e.team.allMapped e.g v.srcs = false → exec i s = .next (stopGroup s e.t e.g e.p e.path.pc 0x04 0 0)) ∧
    (e.team.allMapped e.g v.srcs = true → e.team.canWrite e.g v.dsts = false →
      (e.path.hold = none → exec i s = .next (standAt s e (.rows s.refclk v.dsts false))) ∧
      (∀ since ns fresh, e.path.hold = some (.rows since ns fresh) → since + 4096 ≤ s.refclk →
        exec i s = .next (stopGroup s e.t e.g e.p e.path.pc 0x05 0 0))) ∧
    (e.team.allMapped e.g v.srcs = true → e.team.canWrite e.g v.dsts = true →
      v.flags &&& (s.ctx e.team.id.ctx).trapen.toNat &&& 0x3F ≠ 0 →
      exec i s = .next (stopGroup (orFlags s e.t e.g (BitVec.ofNat 32 v.flags)) e.t e.g e.p e.path.pc 0x0C 0 0))

/-- A vector result of latency 1 is in its row at once; a longer one leaves the row as it is, goes in flight with its count
of words, and is in the row when it lands. Lanes outside the mask keep their values (R67, R189, R249). -/
def Obligations.VectorResultTiming : Prop :=
  ∀ (s : State) (e : Env) (lat n : Nat) (m : LaneMask) (vals : List Word) (T : Team) (G : Group) (x : Mapped) (row : Row),
    s.teams.get? e.t = some T → T.groups.get? e.g = some G → T.mapped e.g n = some x → T.res.rows.get? x.row = some row →
    row.refcnt ≠ 0 →
    let merged := lanesFrom fun l => if m.getLsbD l then vals.getD l 0 else row.lanes.getD l 0
    let u := writeName s e lat n m vals 0
    ∃ U H, u.teams.get? e.t = some U ∧ U.groups.get? e.g = some H ∧
      (lat ≤ 1 → U.res.rows.get? x.row = some { row with lanes := merged } ∧ H = G) ∧
      (1 < lat → U.res.rows.get? x.row = some { row with pend := row.pend + 1 } ∧
        ∃ l, H = { G with late := G.late ++ [l] } ∧ l.left = lat ∧ l.path = e.p ∧ l.target = .row x.row ∧
          ∃ V, (landNow u e.t e.g l).teams.get? e.t = some V ∧ V.res.rows.get? x.row = some { row with lanes := merged })

/-- The votes and the ballot complete (R262): 1 or 0, or a lane number or 96, or the three words of the predicate's active
lanes, at the latency of a reduction. -/
def Obligations.VoteResults : Prop :=
  ∀ (s : State) (e : Env) (w : Bool) (d p : BitVec 7), GroupAt s e 0 →
    let m := e.grp.pred p.toNat &&& e.path.mask
    let put (s : State) (r : Nat) (v : Word) : State :=
      result s e (Latency.reduce.words e.team.id.image) (.scalar r) (BitVec.allOnes 96) [v] 0 0
    exec (.vvoteAny w d p) s = .next (retire w e (put s d.toNat (if m = 0 then 0 else 1))) ∧
    exec (.vvoteAll w d p) s = .next (retire w e (put s d.toNat (if m = e.path.mask then 1 else 0))) ∧
    exec (.vvoteFirst w d p) s = .next (retire w e (put s d.toNat (BitVec.ofNat 32 ((lowestLane m).getD 96)))) ∧
    exec (.vballot w d p) s = .next (retire w e (put (put (put s d.toNat (m.setWidth 32)) (d.toNat + 1) ((m >>> 32).setWidth 32))
      (d.toNat + 2) ((m >>> 64).setWidth 32)))

/-- `vregroup` completes (R259, R260) between two groups of a team, each with one path and an empty predicate stack, the
names of the range mapped in both: the second to come performs the exchange, and both words retire; the first waits, its switch
marker acted on. Where
the partner has ended, the group packs its own lanes alone. -/
def Sys2Proof.regroupWordsRule : Prop :=
  ∀ (s : State) (e : Env) (w snd : Bool) (d a g : BitVec 7) (other : Group), GroupAt s e 0 →
    let i : Instr := if snd then .vregroupSend w d a g else .vregroupRecv w d a g
    let ns := nameRange d.toNat a.toNat
    i.check = none → g.toNat ≠ e.g → g.toNat < e.team.groups.length → e.grp.paths.length ≤ 1 → e.path.pstack = [] →
    e.team.allMapped e.g ns = true → e.team.groups.get? g.toNat = some other →
    (other.ended = true → exec i s = .next (retire w e (regroupAlone s e d.toNat a.toNat))) ∧
    (other.ended = false → regroupAt other = none → exec i s = .next (markedWait w e (standAt s e (.regroup g.toNat snd d.toNat a.toNat)))) ∧
    (other.ended = false → ∀ p o, regroupAt other = some (p, e.g, !snd, d.toNat, a.toNat) → envOf s e.t g.toNat p = some o →
      exec i s = .next (retire w e (retireRegroup (if snd then regroupPair s o e d.toNat a.toNat else regroupPair s e o d.toNat a.toNat)
        o.t o.g o.p)))

/-- Active lane number k of a path, in lane order: its word of a name. -/
def Sys2Proof.nthActive (e : Env) (n k : Nat) : Word := (e.team.lanes e.g n).getD ((lanesOf e.path.mask).getD k 0) 0

/-- The rows that a group maps for names. -/
def Sys2Proof.rowsOf (e : Env) (ns : List Nat) : List Nat := ns.filterMap fun n => (e.team.mapped e.g n).map (·.row)

/-- A path's domain and mask after a `vregroup` that leaves it n lanes. -/
def Sys2Proof.regrouped (u : State) (e : Env) (n : Nat) : Prop :=
  ∃ o, envOf u e.t e.g e.p = some o ∧
    o.path = { e.path with domain := BitVec.allOnes 96, mask := maskOf fun l => decide (l < n) }

/-- What the exchange leaves (R260), between two groups with no result in flight whose ranges map different rows: the
receiver's a active lanes are packed first, the donor's first min(b, 96 - a) active lanes follow them, and the donor's others
are packed in the donor; every other lane of the range is 0; both domains are all 96 lanes, and the masks the lanes filled. A group
that packs alone keeps its active lanes, packed. -/
def Sys2Proof.regroupLanesRule : Prop :=
  (∀ (s : State) (r d : Env) (first last : Nat),
    envOf s r.t r.g r.p = some r → envOf s d.t d.g d.p = some d → r.t = d.t → r.g ≠ d.g → r.grp.late = [] → d.grp.late = [] →
    let ns := nameRange first last
    let rows := rowsOf r ns ++ rowsOf d ns
    r.team.allMapped r.g ns = true → d.team.allMapped d.g ns = true → rows.Nodup →
    (∀ x ∈ rows, ∃ row, r.team.res.rows.get? x = some row ∧ row.refcnt ≠ 0) →
    let a := (lanesOf r.path.mask).length
    let b := (lanesOf d.path.mask).length
    let k := min b (96 - a)
    let u := regroupPair s r d first last
    regrouped u r (a + k) ∧ regrouped u d (b - k) ∧
    ∃ V, (landAll (landAll u r.t r.g) d.t d.g).teams.get? r.t = some V ∧ ∀ n ∈ ns, ∀ l, l < 96 →
      (V.lanes r.g n).getD l 0 = (if l < a then nthActive r n l else if l < a + k then nthActive d n (l - a) else 0) ∧
      (V.lanes d.g n).getD l 0 = (if l < b - k then nthActive d n (k + l) else 0)) ∧
  (∀ (s : State) (e : Env) (first last : Nat), envOf s e.t e.g e.p = some e → e.grp.late = [] →
    let ns := nameRange first last
    e.team.allMapped e.g ns = true → (rowsOf e ns).Nodup →
    (∀ x ∈ rowsOf e ns, ∃ row, e.team.res.rows.get? x = some row ∧ row.refcnt ≠ 0) →
    let a := (lanesOf e.path.mask).length
    let u := regroupAlone s e first last
    regrouped u e a ∧
    ∃ V, (landAll u e.t e.g).teams.get? e.t = some V ∧ ∀ n ∈ ns, ∀ l, l < 96 →
      (V.lanes e.g n).getD l 0 = if l < a then nthActive e n l else 0)

/-- `vregroup` and what it leaves (R259, R260). -/
def Obligations.RegroupResults : Prop := regroupWordsRule ∧ regroupLanesRule

/-! ## The map instructions (R240 to R248) -/

/-- Every map word completes where the names that it needs are mapped, and `nfresh` where a row can be had once its name is
unmapped: its edit of the team's map is made in its step (R62, R242 to R245). With the status number 127 `ngive` and `ntake`
write no status; otherwise 1 for an edit made and 0 for a slot that was full or empty. A given row's earlier results land first
(R70). -/
def Sys2Proof.mapWordResultsRule : Prop :=
  ∀ (s : State) (e : Env), GroupAt s e 0 →
    let edit (f : Team → Team) : State := updTeam s e.t f
    (∀ w d a, e.team.allMapped e.g [a.toNat] = true →
      exec (.nmove w d a) s = .next (retire w e (edit fun t => t.move e.g d.toNat a.toNat)) ∧
      exec (.nalias w d a) s = .next (retire w e (edit fun t => t.share e.g d.toNat a.toNat))) ∧
    (∀ w d a, e.team.allMapped e.g [d.toNat, a.toNat] = true →
      exec (.nswap w d a) s = .next (retire w e (edit fun t => t.swap e.g d.toNat a.toNat))) ∧
    (∀ w d a k, (∀ n, d.toNat ≤ n → n ≤ a.toNat → (e.team.mapped e.g n).isSome = true) →
      exec (.nperm w d a k) s = .next (retire w e (edit fun t => t.permute e.g d.toNat a.toNat k.toNat))) ∧
    (∀ w a, exec (.ndrop w a) s = .next (retire w e (edit fun t => t.unmap e.g a.toNat))) ∧
    (∀ w d, (e.team.unmap e.g d.toNat).roomFor (e.team.roleOf e.g) 1 = true →
      exec (.nfresh w d) s = .next (retire w e (edit fun t => (t.unmap e.g d.toNat).mapFresh e.g d.toNat))) ∧
    (∀ w x a l, (Instr.ngive w x a l).check = none → e.team.allMapped e.g [a.toNat] = true →
      exec (.ngive w x a l) s = .next (retire w e
        (if e.team.res.slots.has l.toNat then (if x.toNat = 127 then s else writeS s e.t e.g e.p x.toNat 0)
         else
          let landed := match e.team.mapped e.g a.toNat with
            | some m => landRow s e.t e.g m.row
            | none => s
          let u := updTeam landed e.t fun t => t.give e.g a.toNat l.toNat
          if x.toNat = 127 then u else writeS u e.t e.g e.p x.toNat 1))) ∧
    (∀ w d x l, (Instr.ntake w d x l).check = none →
      exec (.ntake w d x l) s = .next (retire w e
        (match e.team.res.slots.get? l.toNat with
         | none => if x.toNat = 127 then s else writeS s e.t e.g e.p x.toNat 0
         | some r =>
          let u := edit fun t => t.takeSlot e.g d.toNat l.toNat r
          if x.toNat = 127 then u else writeS u e.t e.g e.p x.toNat 1)))

/-- What the edits do to the map of the group (R242 to R245): a move takes the mapping away from its source, a swap
exchanges two, a permutation turns a range, an alias and a taken slot share a row under a new sequence number, a drop and a
give unmap, a fresh name maps a new row of 96 zeros. Every other name of the group maps what it mapped. -/
def Sys2Proof.mapEditNamesRule : Prop :=
  ∀ (T : Team) (g : Nat) (G : Group), T.groups.get? g = some G →
    (∀ d a n, d ≠ a → (T.mapped g a).isSome = true → (T.move g d a).mapped g n =
      if n = d then T.mapped g a else if n = a then none else T.mapped g n) ∧
    (∀ a, T.move g a a = T ∧ T.share g a a = T) ∧
    (∀ d a n, (T.swap g d a).mapped g n = if n = a then T.mapped g d else if n = d then T.mapped g a else T.mapped g n) ∧
    (∀ d a k n, d ≤ a → (T.permute g d a k).mapped g n =
      if d ≤ n ∧ n ≤ a then T.mapped g (d + (n - d + k) % (a + 1 - d)) else T.mapped g n) ∧
    (∀ d a n m, d ≠ a → T.mapped g a = some m → (T.share g d a).mapped g n =
      if n = d then some ⟨m.row, T.res.seqCtr + 1⟩ else T.mapped g n) ∧
    (∀ a n, (T.unmap g a).mapped g n = if n = a then none else T.mapped g n) ∧
    (∀ d n, (T.mapFresh g d).mapped g n = if n = d then some ⟨T.res.nextRow, T.res.seqCtr + 1⟩ else T.mapped g n) ∧
    (∀ d, ∃ row, (T.mapFresh g d).res.rows.get? T.res.nextRow = some row ∧ row.lanes = List.replicate 96 0 ∧ row.refcnt = 1) ∧
    (∀ a i n m, T.mapped g a = some m → (T.give g a i).mapped g n = (if n = a then none else T.mapped g n) ∧
      (T.give g a i).res.slots.get? i = some m.row) ∧
    (∀ d i r n, (T.takeSlot g d i r).mapped g n = (if n = d then some ⟨r, T.res.seqCtr + 1⟩ else T.mapped g n) ∧
      (T.takeSlot g d i r).res.slots.get? i = none)

/-- The map words and what their edits leave mapped (R62, R240 to R246). -/
def Obligations.MapWords : Prop := mapWordResultsRule ∧ mapEditNamesRule

/-- The word of R72 for a mapped name: MAPPED, ANCHOR_SLOT, ANCHOR, CHARGE, OWN, REFCNT. -/
def Sys2Proof.queryWord (g : Nat) (row : Row) : Nat :=
  2 ^ 31 + (match row.anchor with | .group k => k * 2 ^ 24 + (if k = g then 2 ^ 21 else 0) | .slot i => 2 ^ 30 + i * 2 ^ 24) +
    row.charge * 2 ^ 22 + row.refcnt % 2 ^ 13

/-- `nquery` completes for every name (R72, R247): it writes the word of R72 into its scalar, 0 where the name is unmapped, and
nothing else changes. -/
def Obligations.QueryWord : Prop :=
  ∀ (s : State) (e : Env) (w : Bool) (d a : BitVec 7), GroupAt s e 0 → (Instr.nquery w d a).check = none →
    (e.team.mapped e.g a.toNat = none → ∃ u, exec (.nquery w d a) s = .next (marked w e u) ∧ ScalarsOnly s u e [(d.toNat, 0)]) ∧
    (∀ m row, e.team.mapped e.g a.toNat = some m → e.team.res.rows.get? m.row = some row →
      ∃ u, exec (.nquery w d a) s = .next (marked w e u) ∧ ScalarsOnly s u e [(d.toNat, BitVec.ofNat 32 (queryWord e.g row))])

/-! ## Memory words (R187, R196, R281 to R295) -/

/-- What a memory word asks for: its row of R286, the names that it reads and writes, whether it writes memory, the
access with its lanes, and the lanes that its own rule bars. -/
structure Sys2Proof.MemWord where
  w : Bool
  row : MemClass
  reads : List Nat
  writes : List Nat
  store : Bool
  acc : Access
  barred : LaneAcc → Bool

/-- The lanes of a vector access in lane order, and the one lane of a scalar access. -/
def Sys2Proof.vlanes (e : Env) (va : Nat → Nat) (x : Nat → Dword) (c : Nat → Word) : List LaneAcc :=
  (lanesOf e.path.mask).map fun l => ⟨l, va l, x l, c l, .todo, 0⟩
def Sys2Proof.slane (va : Nat) (x : Dword) (c : Word) : List LaneAcc := [⟨0, va, x, c, .todo, 0⟩]

/-- The address of lane l: the pair plus the name's word as signed, scaled by the size where the word says so (R282). -/
def Sys2Proof.vaddr (e : Env) (b : BitVec 6) (o : BitVec 7) (sc : Bool) (z l : Nat) : Nat :=
  (e.pair b + ((e.team.lanes e.g o.toNat).getD l 0).signExtend 64 * BitVec.ofNat 64 (if sc then z else 1)).toNat

/-- The address of a near access: an offset reduced to 32 bits, in the scratchpad or in the core's vault (R288). -/
def Sys2Proof.noff (e : Env) (b : BitVec 6) (o : BitVec 7) (sc : Bool) (z l : Nat) : Nat :=
  ((readS e.grp e.path b.toNat).toNat + ((e.team.lanes e.g o.toNat).getD l 0).toNat * (if sc then z else 1)) % 2 ^ 32
def Sys2Proof.vaultOf (core : Nat) : Nat := vaultBase + core / 32 * 2 ^ 32 + core % 32 * 2 ^ 27

/-- A name's word, or its pair, as stored. -/
def Sys2Proof.dataOf (e : Env) (wide : Bool) (d : BitVec 7) (l : Nat) : Dword :=
  (if wide then (e.team.lanes e.g (d.toNat + 1)).getD l 0 else 0) ++ (e.team.lanes e.g d.toNat).getD l 0
def Sys2Proof.namesOf (wide : Bool) (d : BitVec 7) : List Nat := if wide then [d.toNat, d.toNat + 1] else [d.toNat]
/-- Bytes of a size code (R287), of an atomic (R290). -/
def Sys2Proof.zcode (t : Nat) : Nat := if t = 4 then 1 else 2 ^ t
def Sys2Proof.zatom (op : Nat) : Nat := if op = 10 ∨ op = 11 then 8 else 4

/-- A near form: space 0 and CACHE 0 whatever the word's fields (R288). -/
def Sys2Proof.nearWord (e : Env) (w nv store : Bool) (z : BitVec 2) (d o : BitVec 7) (b : BitVec 6) (sc : Bool) : MemWord :=
  let f : MemF := { memFields e with space := 0, cache := 0 }
  let n := zcode z.toNat
  let wide := decide (z.toNat = 3)
  let base := if nv then vaultOf e.team.id.core else scratchBase
  { w, row := if store then .store else .load
    reads := o.toNat :: (if store then namesOf wide d else []), writes := if store then [] else namesOf wide d, store
    acc := { Access.blank e f (if store then .store else .load) n with
      lanes := vlanes e (fun l => base + noff e b o sc n l) (fun l => if store then dataOf e wide d l else 0) fun _ => 0 }
    barred := fun l => nv && 0x3000000 ≤ noff e b o sc n l.lane }

/-- A vector atomic; `fatom` is always performed at its home and takes no scratchpad address (R291). -/
def Sys2Proof.atomWord (e : Env) (w home : Bool) (op : Nat) (d o : BitVec 7) (b : BitVec 6) (sc : Bool) : MemWord :=
  let f := memFields e
  let wide := decide (op = 10 ∨ op = 11)
  let ls := vlanes e (vaddr e b o sc (zatom op)) (dataOf e wide d) fun l =>
    if op = 9 then (e.team.lanes e.g (d.toNat + 1)).getD l 0 else 0
  { w, row := if home then .fatom else .atomic, reads := o.toNat :: namesOf (wide || op == 9) d
    writes := namesOf wide d, store := true
    acc := { Access.blank e f .atomic (zatom op) with op, atHome := home, far := performedAtHome f home ls, lanes := ls }
    barred := fun l => home && match regionOf l.va with | .scratch _ => true | _ => false }

/-- A scalar atomic. -/
def Sys2Proof.satomWord (e : Env) (w : Bool) (op : Nat) (dest : Dest) (a b : BitVec 6) : MemWord :=
  let f := memFields e
  let x := if op = 10 ∨ op = 11 then e.pair b else (0 : Word) ++ readS e.grp e.path b.toNat
  let ls := slane (e.pair a).toNat x (if op = 9 then readS e.grp e.path (b.toNat + 1) else 0)
  { w, row := .atomic, reads := [], writes := [], store := true
    acc := { Access.blank e f .atomic (zatom op) with op, dest, far := dest != .none && performedAtHome f false ls, lanes := ls }
    barred := fun _ => false }

/-- The memory words that access memory for data. -/
def Sys2Proof.memWord (e : Env) : Instr → Option MemWord
  | .vld w t d o b sc => some
      { w, row := .load, reads := [o.toNat], writes := namesOf (decide (t.toNat = 3)) d, store := false
        acc := { Access.blank e (memFields e) .load (zcode t.toNat) with
          sext := decide (t.toNat = 4), lanes := vlanes e (vaddr e b o sc (zcode t.toNat)) (fun _ => 0) fun _ => 0 }
        barred := fun _ => false }
  | .vst w t d o b sc => some
      { w, row := .store, reads := o.toNat :: namesOf (decide (t.toNat = 3)) d, writes := [], store := true
        acc := { Access.blank e (memFields e) .store (zcode t.toNat) with
          lanes := vlanes e (vaddr e b o sc (zcode t.toNat)) (dataOf e (decide (t.toNat = 3)) d) fun _ => 0 }
        barred := fun _ => false }
  | .vldSp w z d o b sc => some (nearWord e w false false z d o b sc)
  | .vstSp w z d o b sc => some (nearWord e w false true z d o b sc)
  | .vldNv w z d o b sc => some (nearWord e w true false z d o b sc)
  | .vstNv w z d o b sc => some (nearWord e w true true z d o b sc)
  | .vatom w p d o b sc => some (atomWord e w false p.toNat d o b sc)
  | .fatom w p d o b sc => some (atomWord e w true p.toNat d o b sc)
  | .sld w d a t off => some
      { w, row := .load, reads := [], writes := [], store := false
        acc := { Access.blank e (memFields e) .load (zcode t.toNat) with
          sext := decide (t.toNat = 4), dest := if t.toNat = 3 then .pair d.toNat else .scalar d.toNat
          lanes := slane (e.pair a + off.signExtend 64 * BitVec.ofNat 64 (zcode t.toNat)).toNat 0 0 }
        barred := fun _ => false }
  | .sst w d a t off => some
      { w, row := .store, reads := [], writes := [], store := true
        acc := { Access.blank e (memFields e) .store (zcode t.toNat) with
          lanes := slane (e.pair a + off.signExtend 64 * BitVec.ofNat 64 (zcode t.toNat)).toNat
            (if t.toNat = 3 then e.pair d else (0 : Word) ++ readS e.grp e.path d.toNat) 0 }
        barred := fun _ => false }
  | .satom w p d a b => some (satomWord e w p.toNat (if p.toNat = 10 ∨ p.toNat = 11 then .pair d.toNat else .scalar d.toNat) a b)
  | .satomNr w p a b => some (satomWord e w p.toNat .none a b)
  | _ => none

/-- What a memory word needs to issue: accepted fields, no throttle, its names mapped, rows for its destinations, addresses
that pass R283 and the word's own rule, counters below 255 (R187), room for a late reply (R293), and no earlier access of
its group that it must wait for (R106, R114). -/
def Sys2Proof.mayIssue (s : State) (e : Env) (m : MemWord) : Prop :=
  (memFields e).reserved = false ∧ m.row.accepts (memFields e) = true ∧ throttled s e = false ∧
  e.team.allMapped e.g m.reads = true ∧ e.team.canWrite e.g m.writes = true ∧
  checkLanes s e m.acc.space m.acc.size m.store m.barred m.acc.lanes = none ∧
  e.grp.ldcnt < 255 ∧ e.grp.stcnt < 255 ∧ (m.acc.far = true → farCount s e.t < 64) ∧
  mustWait s e.t e.g m.acc.size m.acc.lanes = false

/-- The state with the destination names mapped, and the access with the rows that they map. -/
def Sys2Proof.mapDests (s : State) (e : Env) (m : MemWord) : State :=
  if m.reads = [] then s else updTeam s e.t fun t => t.mapAll e.g m.writes
def Sys2Proof.accessOf (s : State) (e : Env) (m : MemWord) : Access :=
  if m.reads = [] then m.acc else { m.acc with dest := destRows (mapDests s e m) e m.writes }

/-- Every load, store and atomic completes once it may issue: with no active lane it only maps its destinations; else its
access is issued, for an acquire after the acquire, for a release after its release has made ready (R113, R114). -/
def Obligations.MemoryWordIssue : Prop :=
  ∀ (s : State) (e : Env) (i : Instr) (m : MemWord),
    GroupAt s e 1 → i.check = none → memWord e i = some m → mayIssue s e m →
    (m.acc.lanes = [] → exec i s = .next (retire m.w e (mapDests s e m))) ∧
    (m.acc.lanes ≠ [] → (memFields e).releases = false →
      let s1 := mapDests s e m
      let s2 := if m.acc.kind = .load ∧ (memFields e).acquires = true then
        acquire s1 e.team.id.core e.team.id.ctx (memFields e).scope else s1
      exec i s = .next (retire m.w e (issueAccess s2 e (accessOf s e m) []))) ∧
    (m.acc.lanes ≠ [] → (memFields e).releases = true → ∀ after s2,
      release (mapDests s e m) e (memFields e).scope (!(m.acc.lanes.any fun l => inBank l.va)) = .go after s2 →
      exec i s = .next (retire m.w e (issueAccess s2 e (accessOf s e m) after)))

/-- Lanes performed one after another on a scratchpad: what they leave in it, and the lanes with what they return. -/
def Sys2Proof.scrLanes (a : Access) : List LaneAcc → Memory → Memory × List LaneAcc
  | [], m => (m, [])
  | l :: rest, m =>
    let off := l.va - scratchBase
    let old := m.load off a.size
    let m' := match a.kind with
      | .store => m.store off a.size (l.x.toNat % 2 ^ (8 * a.size))
      | .atomic => m.store off a.size (atomNew a.op old l.x l.e)
      | _ => m
    let r := scrLanes a rest m'
    (r.1, { l with st := .done, val := loaded a.size a.sext (if a.kind = .store then 0 else old) } :: r.2)

/-- A relaxed access to the scratchpad is performed in its own step (R76, R288 to R290): its record holds the lanes with
what they return; the scratchpad holds what its lanes store and every other byte as before; no memory, cache, copy or
other team changes. -/
def Sys2Proof.scratchpadAccessRule : Prop :=
  ∀ (s : State) (e : Env) (i : Instr) (m : MemWord),
    GroupAt s e 1 → i.check = none → memWord e i = some m → mayIssue s e m → s.split = none → (memFields e).order = 0 →
    m.acc.lanes ≠ [] → (∀ l ∈ m.acc.lanes, scratchBase ≤ l.va ∧ l.va < vaultBase) →
    ∃ u U, exec i s = .next (marked m.w e u) ∧ u = { s with teams := u.teams, accs := u.accs, nextId := s.nextId + 1 } ∧
      u.accs.get? s.nextId = some { accessOf s e m with
        lanes := (scrLanes m.acc m.acc.lanes e.team.res.scr).2, level := 2 } ∧
      (∀ n, n ≠ s.nextId → u.accs.get? n = s.accs.get? n) ∧
      (∀ n, n ≠ e.t → u.teams.get? n = s.teams.get? n) ∧ u.teams.get? e.t = some U ∧
      U.res.scr = (scrLanes m.acc m.acc.lanes e.team.res.scr).1 ∧
      (∀ a, (m.acc.kind = .load ∨ ∀ l ∈ m.acc.lanes, a < l.va - scratchBase ∨ l.va - scratchBase + m.acc.size ≤ a) →
        U.res.scr.get a = e.team.res.scr.get a) ∧
      (∀ n, n ≠ e.g → U.groups.get? n = e.team.groups.get? n) ∧
      ∃ G, U.groups.get? e.g = some G ∧ G.s = e.grp.s ∧ G.p = e.grp.p ∧ G.fflags = e.grp.fflags ∧
        (∀ n, n ∉ m.writes → G.map.get? n = e.grp.map.get? n) ∧
        G.ldcnt = e.grp.ldcnt + (if m.acc.kind = .load ∨ m.acc.kind = .atomic ∧ (accessOf s e m).dest ≠ .none then 1 else 0) ∧
        G.stcnt = e.grp.stcnt + (if m.acc.kind = .store ∨ m.acc.kind = .atomic ∧ (accessOf s e m).dest = .none then 1 else 0) ∧
        PathOnly e G fun P => P = e.path.advance

/-- A relaxed or home-order access to a vault, by a vault form (R288), by another form at such an address, or by an atomic (R107): each
lane sends a request to the vault, load lanes one for each sector, or for each address in home order; a store's carries its bytes,
lowest first, an atomic's its operation and operands. Nothing else of memory, caches, copies or other teams changes. -/
def Sys2Proof.vaultAccessRule : Prop :=
  ∀ (s : State) (e : Env) (i : Instr) (m : MemWord),
    GroupAt s e 1 → i.check = none → memWord e i = some m → mayIssue s e m → s.split = none →
    (memFields e).order = 0 ∨ (memFields e).order = 4 → m.acc.lanes ≠ [] → (∀ l ∈ m.acc.lanes, vaultBase ≤ l.va) →
    (∀ x ∈ s.reqs, x.1 < s.nextId ∧ x.2.of s.nextId = false) →
    ∃ u, exec i s = .next (marked m.w e u) ∧
      u = { s with teams := u.teams, accs := u.accs, reqs := u.reqs, nextId := u.nextId } ∧
      (∀ n, n ≤ s.nextId → u.reqs.get? n = s.reqs.get? n) ∧
      (∀ n, n ≠ s.nextId → u.accs.get? n = s.accs.get? n) ∧
      (u.accs.get? s.nextId).map (fun a => a.lanes.map fun l => (l.lane, l.va, l.st)) =
        some (m.acc.lanes.map fun l => (l.lane, l.va, .out)) ∧
      ∀ l ∈ m.acc.lanes, ∃ n r, s.nextId < n ∧ u.reqs.get? n = some r ∧ r.of s.nextId = true ∧ r.stage = .walk ∧ r.phys = false ∧
        r.die = dieOf e.team.id.core ∧ r.order = m.acc.order ∧
        (m.acc.kind = .load → r.kind = .read ∧ r.va = if m.acc.order = 4 then l.va else 64 * (l.va / 64)) ∧
        (m.acc.kind = .store → r.who = .access s.nextId l.lane ∧ r.kind = .write ∧ r.va / 64 = l.va / 64 ∧
          ∀ k, k < 64 → r.mask.getLsbD k = decide (l.va % 64 ≤ k ∧ k < l.va % 64 + m.acc.size) ∧
            (l.va % 64 ≤ k → k < l.va % 64 + m.acc.size →
              r.data.extractLsb' (8 * k) 8 = l.x.extractLsb' (8 * (k - l.va % 64)) 8)) ∧
        (m.acc.kind = .atomic → r.who = .access s.nextId l.lane ∧ r.kind = .atomic ∧ r.va = l.va ∧ r.op = m.acc.op ∧ r.x = l.x ∧ r.e = l.e)

/-- Accesses to scratchpads and vaults (R76, R107, R288 to R290). -/
def Obligations.ScratchpadAndVaultAccess : Prop := scratchpadAccessRule ∧ vaultAccessRule

/-- The byte that a core's L1 holds for an address of a context. -/
def Sys2Proof.l1Byte (s : State) (core ctx va : Nat) : Option Byte :=
  let c := (s.core core).l1.sect (sectKey ctx va)
  if c.held.getLsbD (va % 64) then some (c.data.extractLsb' (8 * (va % 64)) 8) else none

/-- A scalar access to a global address that the core's L1 answers (R13, R81, R83, R289). A relaxed `sst` at core scope or narrower,
whose line L1 holds or, as one set of 4,096 lines (log entry 30, DESIGN CHOICE), has room for, puts its bytes, lowest first, into L1
and leaves every other byte of every cache and all memory behind the homes as they were. A relaxed `sld` whose bytes L1 holds, in a
sector that is not poisoned, returns them, extended, and leaves every cache and all memory. -/
def Sys2Proof.nearGlobalAccessRule : Prop :=
  ∀ (s : State) (e : Env) (i : Instr) (m : MemWord) (l : LaneAcc),
    GroupAt s e 1 → i.check = none → memWord e i = some m → mayIssue s e m → s.split = none →
    (memFields e).order = 0 → (memFields e).space ≠ 4 → m.reads = [] → m.acc.lanes = [l] → l.va < synonymBase →
    let core := e.team.id.core
    let ctx := e.team.id.ctx
    let bytes := (List.range m.acc.size).map fun k => (l1Byte s core ctx (l.va + k)).getD 0
    (m.acc.kind = .store → (memFields e).scope < 3 → (memFields e).cache < 3 →
      (s.core core).l1.lines.has (lineOfSect (sectKey ctx l.va)) = true ∨ (s.core core).l1.lines.length < 4096 →
      ∃ u, exec i s = .next (marked m.w e u) ∧ u.store = s.store ∧ u.reqs = s.reqs ∧ u.dies = s.dies ∧
        (∀ c, c ≠ core → u.core c = s.core c) ∧
        (∀ c va, va < 2 ^ 60 → c < 2 ^ 16 → l1Byte u core c va =
          if c = ctx ∧ l.va ≤ va ∧ va < l.va + m.acc.size then some (l.x.extractLsb' (8 * (va - l.va)) 8)
          else l1Byte s core c va) ∧
        (u.accs.get? s.nextId).map (·.complete) = some true) ∧
    (m.acc.kind = .load → ((s.core core).l1.sect (sectKey ctx l.va)).bad = false →
      (∀ k, k < m.acc.size → (l1Byte s core ctx (l.va + k)).isSome = true) →
      ∃ u, exec i s = .next (marked m.w e u) ∧ u = { s with teams := u.teams, accs := u.accs, nextId := s.nextId + 1 } ∧
        u.accs.get? s.nextId = some { m.acc with
          level := 1
          lanes := [{ l with st := .done, val := loaded m.acc.size m.acc.sext (ofBytes bytes) }] })

/-- What a vector or scalar store to global addresses leaves as it was (R13, R83, R106): at core scope or narrower, relaxed,
while L1, one set of 4,096 lines by the model's choice (log entry 30), has room for its lines,
every byte outside its lanes' bytes reads in L1 as before, in every context, and so does all of L2 and of memory. -/
def Sys2Proof.globalStoreFrameRule : Prop :=
  ∀ (s : State) (e : Env) (i : Instr) (m : MemWord),
    GroupAt s e 1 → i.check = none → memWord e i = some m → mayIssue s e m → s.split = none → (memFields e).order = 0 →
    (memFields e).space ≠ 4 → (memFields e).scope < 3 → (memFields e).cache < 3 → m.acc.kind = .store → m.acc.lanes ≠ [] →
    (s.core e.team.id.core).l1.lines.length + m.acc.lanes.length ≤ 4096 →
    (∀ l ∈ m.acc.lanes, l.va < synonymBase) →
    ∃ u, exec i s = .next (marked m.w e u) ∧ u.store = s.store ∧ u.reqs = s.reqs ∧ u.dies = s.dies ∧
      (∀ c, c ≠ e.team.id.core → u.core c = s.core c) ∧
      ∀ c va, va < 2 ^ 60 → c < 2 ^ 16 → (c = e.team.id.ctx → ∀ l ∈ m.acc.lanes, va < l.va ∨ l.va + m.acc.size ≤ va) →
        l1Byte u e.team.id.core c va = l1Byte s e.team.id.core c va

/-! ## Fences and cache words (R113, R114, R121, R122, R294, R295) -/

/-- The fences complete once what they wait for is done. `fence` with ORDER 1, no load or atomic of the group pending, acquires; with
ORDER 2 or 3, no access of it pending, it releases, at die scope by writing L1's narrower lines to L2, at device scope once its die's
write-backs of the context are sent, at system scope once the die's are acknowledged, and with ORDER 3 acquires too. `tlfence` goes on
once the context's writes of the die are acknowledged. `xfence` cleans the context's lines of L1 into L2 for C after G, has the copies'
landed sectors performed for G or F after C, and waits for the group's tile stores for a later access after F. `ifence`, with no store
of its path pending, empties the context's part of the instruction cache, and lets no fetch on its way refill it. -/
def Sys2Proof.fenceResultsRule : Prop :=
  ∀ (s : State) (e : Env), GroupAt s e 1 → (memFields e).reserved = false → throttled s e = false →
    (∀ r, e.path.hold ≠ some (.fence r)) →
    let core := e.team.id.core
    let die := dieOf core
    let acq (u : State) (sc : Nat) : State := acquire u core e.team.id.ctx sc
    let stores (p : Access → Bool) : Prop := pendingStore s e.t e.g p = false
    (∀ w o sc, o.toNat = 1 → pendingRead s e.t e.g = false → exec (.fence w o sc) s = .next (retire w e (acq s sc.toNat))) ∧
    (∀ w o sc, o.toNat = 2 ∨ o.toNat = 3 → pendingAccess s e.t e.g = false → sc.toNat ≤ 3 →
      let u := if sc.toNat = 3 then l1Release s core 3 else s
      exec (.fence w o sc) s = .next (retire w e (if o.toNat = 3 then acq u sc.toNat else u))) ∧
    (∀ w o sc, o.toNat = 2 ∨ o.toNat = 3 → pendingAccess s e.t e.g = false → 4 ≤ sc.toNat →
      let u := l2Flush (l1Release s core sc.toNat) die e.team.id.ctx
      (if sc.toNat = 5 then unacked u die else unsent u die e.team.id.ctx) = [] →
      exec (.fence w o sc) s = .next (retire w e (if o.toNat = 3 then acq u sc.toNat else u))) ∧
    (∀ w sc, let u := l2Flush (l1Release s core 5) die e.team.id.ctx
      stores (fun _ => true) → unackedWrites u die e.team.id.ctx = [] → exec (.tlfence w sc) s = .next (retire w e u)) ∧
    (∀ w a b, a.toNat = 1 → exec (.xfence w a b) s = .next (retire w e (performTeamLanded s e.t die))) ∧
    (∀ w a b, a.toNat = 0 → b.toNat = 1 → stores (fun _ => true) → exec (.xfence w a b) s = .next (retire w e
      ((s.core core).l1.lines.foldl (fun u l => if ctxOfSect (2 * l.1) = e.team.id.ctx then l1CleanLine u core l.1 else u) s))) ∧
    (∀ w a b, a.toNat = 0 → b.toNat ≠ 1 → stores Access.inBank → exec (.xfence w a b) s = .next (retire w e s)) ∧
    (∀ w a b, 2 ≤ a.toNat → pendingTileStore e.team e.g = false → exec (.xfence w a b) s = .next (retire w e s)) ∧
    (∀ w, stores (fun a => a.path == e.p) → exec (.ifence w) s = .next (retire w e
      (let u := noFill (l1Release s core 3) (dieOf core) fun r =>
         r.core == core && r.ctx == e.team.id.ctx && (match r.who with | .fetch _ _ _ => true | _ => false)
       u.setCore core { u.core core with icache := (u.core core).icache.filter fun x => ctxOfSect x.1 != e.team.id.ctx })))

/-- The operation code of a cache word, with its operands. -/
def Sys2Proof.cacheOp : Instr → Option (Nat × Bool × BitVec 7 × BitVec 6 × Bool)
  | .vcacheWb w o b sc => some (0, w, o, b, sc)
  | .vcacheWbinv w o b sc => some (1, w, o, b, sc)
  | .vcachePf w o b sc => some (2, w, o, b, sc)
  | .vcacheDemote w o b sc => some (3, w, o, b, sc)
  | _ => none

/-- A cache word completes (R295) where its name is mapped and its addresses lie below 2^60: its lanes' lines are taken one
by one; a write-back at system scope holds its path until its sectors are home, any other word goes on. -/
def Sys2Proof.cacheWordResultsRule : Prop :=
  ∀ (s : State) (e : Env) (i : Instr) (op : Nat) (w : Bool) (o : BitVec 7) (b : BitVec 6) (sc : Bool),
    GroupAt s e 1 → cacheOp i = some (op, w, o, b, sc) → (memFields e).reserved = false → throttled s e = false →
    (∀ r, e.path.hold ≠ some (.fence r)) → (e.team.mapped e.g o.toNat).isSome = true → e.grp.stcnt < 255 →
    let ls := vlanes e (vaddr e b o sc 1) (fun _ => 0) fun _ => 0
    (∀ l ∈ ls, l.va < 2 ^ 60) →
    let u := issueAccess s e { Access.blank e { memFields e with order := 0 } .cache 1 with op, lanes := ls } []
    (ls = [] → exec i s = .next (retire w e s)) ∧
    (ls ≠ [] → op ≤ 1 → (memFields e).scope = 5 → exec i s = .next (markedWait w e (standAt u e (.fence [])))) ∧
    (ls ≠ [] → 2 ≤ op ∨ (memFields e).scope ≠ 5 → exec i s = .next (retire w e u))

/-- Fences and cache words (R113, R114, R121, R122, R294, R295). -/
def Obligations.FenceAndCacheWords : Prop := fenceResultsRule ∧ cacheWordResultsRule

/-- Accesses to global addresses that L1 answers, and what stores leave as it was (R81, R83, R106, R289). -/
def Obligations.GlobalAccess : Prop := nearGlobalAccessRule ∧ globalStoreFrameRule

/-! ## Copies, batches, barriers, slots, queues, tensor identifiers (R87 to R103, R296 to R309) -/

/-- The agent of a class-2 or class-5 word at that word: a group's path, or the Sluice's sequencer. -/
def Sys2Proof.agentAt (s : State) : Option Agt :=
  match issuer s with
  | .group e => if e.path.cls = 2 then some e.agt else none
  | .seq q => if q.flume = false ∧ q.seq.cls = 5 then some q.agt else none
  | .nobody => none

/-- A word of an agent retired. -/
def Sys2Proof.agentNext (w : Bool) (s u : State) : State :=
  match issuer s with
  | .group e => retire w e u
  | .seq q => seqNext u q
  | .nobody => u

/-- An agent that stands at a word that has issued, whose switch marker acts at once (R188). -/
def Sys2Proof.agentAsks (w : Bool) (s u : State) (h : Hold) : State :=
  match issuer s with
  | .group e => markedWait w e (standAt u e h)
  | .seq q => updSeq u q.t q.flume fun x => { x with hold := some h }
  | .nobody => u

/-- A register number that the agent has: a sequencer has `s0` to `s31`. -/
def Sys2Proof.agentHas (a : Agt) (r : Nat) : Prop := a.top = 60 ∨ r ≤ 31

/-- An operand in the scratchpad: aligned and within the allocation (R297). -/
def Sys2Proof.inScr (a : Agt) (off align size : Nat) : Prop := off % align = 0 ∧ off + size ≤ a.team.res.scrLen

/-- `tnset` and `tnget` complete where their 16 registers exist (R308, R309): an entry that passes the checks is written and
its status 0, another leaves the table and gives its status; `tnget` writes the entry's words, lowest first. -/
def Sys2Proof.tensorEntryResultsRule : Prop :=
  ∀ (s : State) (a : Agt) (w : Bool) (tn : BitVec 8) (x d : BitVec 6), agentAt s = some a →
    (x.toNat + 15 ≤ a.top → agentHas a d.toNat →
      let entry := BitVec.ofNat 512 (ofBytes ((a.block x.toNat 16).flatMap fun v => bytesOf 4 v.toNat))
      exec (.tnset w tn x d) s = .next (agentNext w s (a.setS
        (if tnStatus entry = 0 then setTn s a.team.id.ctx tn.toNat entry else s) d.toNat (BitVec.ofNat 32 (tnStatus entry))))) ∧
    (d.toNat + 15 ≤ a.top → exec (.tnget w tn d) s = .next (agentNext w s (a.setBlock s d.toNat
      ((List.range 16).map fun k => (tnEntry s a.team.id.ctx tn.toNat).extractLsb' (32 * k) 32))))

/-- Batches (R94, R95, R302): `cbat`, which would leave fewer than 256 closed batches incomplete, closes the agent's open copies
under the next number, modulo 2^16, and may write it; `cwait` completes where every batch at or before its number has, and stands
otherwise. -/
def Obligations.BatchResults : Prop :=
  ∀ (s : State) (a : Agt) (w : Bool), agentAt s = some a →
    (∀ (wr : Bool) (d : BitVec 6), agentHas a d.toNat → batchesAfter s a.t a.group < 256 →
      let n := (a.lastBatch + 1) % 65536
      let u := a.setLast { s with copies := s.copies.mapVals fun _ c => if c.openOf a.t a.group then { c with batch := some n } else c } n
      exec (.cbat w wr d) s = .next (agentNext w s (if wr then a.setS u d.toNat (BitVec.ofNat 32 n) else u))) ∧
    (∀ n : BitVec 16,
      (batchesDone s a.t a.group n.toNat = true → exec (.cwait w n) s = .next (agentNext w s s)) ∧
      (batchesDone s a.t a.group n.toNat = false →
        exec (.cwait w n) s = .next (agentAsks w s s (.waits [])))) ∧
    (∀ r : BitVec 6, agentHas a r.toNat → a.hold = none →
      let n := (a.rd r.toNat).toNat % 65536
      (batchesDone s a.t a.group n = true → exec (.cwaitR w r) s = .next (agentNext w s s)) ∧
      (batchesDone s a.t a.group n = false → exec (.cwaitR w r) s = .next (agentAsks w s s (.waits [n]))))

/-- The fields of a barrier word (R96): phase, pending arrivals and sectors, their reload values, OVR. -/
structure Sys2Proof.TBar where
  phase : Nat
  pa : Nat
  arr : Nat
  ps : Nat
  sec : Nat
  ovr : Nat
def Sys2Proof.TBar.ok (b : TBar) : Prop := b.phase < 16 ∧ b.pa < 2 ^ 12 ∧ b.arr < 2 ^ 12 ∧ b.ps < 2 ^ 24 ∧ b.sec < 2 ^ 24 ∧ b.ovr < 2
def Sys2Proof.TBar.word (b : TBar) : Nat :=
  b.phase + b.pa * 2 ^ 4 + b.arr * 2 ^ 16 + b.ps * 2 ^ 28 + b.sec * 2 ^ 52 + b.ovr * 2 ^ 76

/-- A barrier after k arrivals and n sectors (R97): an overrun sets OVR and leaves the rest; an update that brings both
pending counts to 0 begins the next phase. -/
def Sys2Proof.TBar.after (b : TBar) (k n : Nat) : TBar × Bool :=
  if b.pa < k ∨ b.ps < n then ({ b with ovr := 1 }, true)
  else if b.pa = k ∧ b.ps = n then ({ b with phase := (b.phase + 1) % 16, pa := b.arr, ps := b.sec }, false)
  else ({ b with pa := b.pa - k, ps := b.ps - n }, false)

/-- Barrier words (R96 to R99, R120, R303) at a barrier in the scratchpad, once the issuer's earlier scratchpad accesses are
applied where the word writes, its transfers between tiles and scratchpad and a sequencer's copies or operations among them for
an arrival: `tbinit` writes a fresh barrier; an arrival updates it, and one that overruns traps
TB_OVERRUN with OVR set; `tbwait` goes on once the phase has another number; `tbphase`
reads the phase and OVR. -/
def Sys2Proof.barrierResultsRule : Prop :=
  ∀ (s : State) (a : Agt) (w : Bool) (x : BitVec 6), agentAt s = some a → agentHas a x.toNat →
    let off := (a.rd x.toNat).toNat
    inScr a off 16 16 →
    (∀ b : BitVec 6, agentHas a (b.toNat + 1) → a.storeWaits s = false →
      let arr := (a.rd b.toNat).toNat % 2 ^ 12
      let sec := (a.rd (b.toNat + 1)).toNat % 2 ^ 24
      exec (.tbinit w x b) s = .next (agentNext w s (scrWrite s a.t off 16 (TBar.word ⟨0, arr, arr, sec, sec, 0⟩)))) ∧
    ∀ t : TBar, t.ok → scrRead s a.t off 16 = t.word →
      (∀ k : BitVec 12, (k ≠ 0 → a.signalWaits s = false) → (t.after k.toNat 0).2 = false → exec (.tbarrive w x k) s = .next (agentNext w s
        (if k = 0 then s else scrWrite s a.t off 16 (t.after k.toNat 0).1.word))) ∧
      (∀ b : BitVec 6, agentHas a b.toNat → let k := (a.rd b.toNat).toNat % 2 ^ 12
        (k ≠ 0 → a.signalWaits s = false) → (t.after k 0).2 = false → exec (.tbarriveR w x b) s = .next (agentNext w s
          (if k = 0 then s else scrWrite s a.t off 16 (t.after k 0).1.word))) ∧
      (∀ (k : BitVec 12) (e : Env), issuer s = .group e → a.signalWaits s = false → (t.after k.toNat 0).2 = true →
        exec (.tbarrive w x k) s = .next
        (stopGroup (scrWrite s a.t off 16 (t.after k.toNat 0).1.word) e.t e.g e.p e.path.pc 0x0E 0 0)) ∧
      (∀ b : BitVec 6, agentHas a b.toNat → a.hold = none → let k := (a.rd b.toNat).toNat % 16
        (t.phase ≠ k → exec (.tbwait w x b) s = .next (agentNext w s s)) ∧
        (t.phase = k → exec (.tbwait w x b) s = .next (agentAsks w s s (.waits [off, k])))) ∧
      (∀ d : BitVec 6, agentHas a d.toNat →
        exec (.tbphase w x d) s = .next (agentNext w s (a.setS s d.toNat (BitVec.ofNat 32 (t.phase + 16 * t.ovr)))))

/-- Slot words (R100, R101, R120, R304) on slot i of a ring whose header and counter lie in the scratchpad, for a releaser and
`slinit` once the issuer's earlier scratchpad accesses are applied: a taker turns full (2)
into draining (3) or stands; a releaser turns draining into empty (0), and traps QUEUE_FAULT on any other tag; `sltag` reads
the tag and the counter; `slinit` empties the slots 0 to n. -/
def Sys2Proof.slotResultsRule : Prop :=
  ∀ (s : State) (a : Agt) (w : Bool) (x i : BitVec 6), agentAt s = some a → agentHas a x.toNat → a.hold = none →
    let off := (a.rd x.toNat).toNat
    let tag := slotTag s a.t off i.toNat
    inScr a off 16 (20 + 4 * i.toNat) →
    (tag = 2 → exec (.sltake w x i) s = .next (agentNext w s (setTag s a.t off i.toNat 3))) ∧
    (tag ≠ 2 → exec (.sltake w x i) s = .next (agentAsks w s s (.waits [off]))) ∧
    (tag = 3 → a.signalWaits s = false → exec (.slrel w x i) s = .next (agentNext w s (setTag s a.t off i.toNat 0))) ∧
    (tag ≠ 3 → a.signalWaits s = false → ∀ e, issuer s = .group e →
      exec (.slrel w x i) s = .next (stopGroup s e.t e.g e.p e.path.pc 0x0F 0 0)) ∧
    (∀ d : BitVec 6, agentHas a d.toNat → exec (.sltag w x d i) s = .next (agentNext w s (a.setS s d.toNat
      (BitVec.ofNat 32 (tag + 4 * (slotCounter s a.t off i.toNat % 2 ^ 30)))))) ∧
    (a.storeWaits s = false → ∃ u, exec (.slinit w x i) s = .next (agentNext w s u) ∧ u = { s with teams := u.teams } ∧
      (∀ n, n ≠ a.t → u.teams.get? n = s.teams.get? n) ∧ ∃ U, u.teams.get? a.t = some U ∧
        U = { a.team with res := { a.team.res with scr := U.res.scr } } ∧
        (∀ k, k ≤ i.toNat → slotTag u a.t off k = 0 ∧ slotCounter u a.t off k = 0) ∧
        (∀ k, i.toNat < k → k < 64 → slotTag u a.t off k = slotTag s a.t off k) ∧
        (∀ b, b < off ∨ off + 20 + 4 * i.toNat ≤ b → U.res.scr.get b = a.team.res.scr.get b))

/-- The kind, table entry, descriptor register and predicate of a copy word. -/
def Sys2Proof.copyForm : Instr → Option (Bool × CopyKind × BitVec 8 × BitVec 6 × BitVec 3)
  | .cpyLd w tn a p => some (w, .ld, tn, a, p)
  | .cpySlot w tn a p => some (w, .slot, tn, a, p)
  | .cpySt w tn a p => some (w, .st, tn, a, p)
  | .cpyGg w tn a p => some (w, .gg, tn, a, p)
  | .cpyGth w tn a p => some (w, .gth, tn, a, p)
  | .cpyMc w tn a p => some (w, .mc, tn, a, p)
  | .cpyMcSlot w tn a p => some (w, .mcSlot, tn, a, p)
  | _ => none

/-- The copy that a word issues: the tensor entry captured, eight registers from its descriptor, its landings, the index
list of a gather and the slots that it must claim (R298, R299). -/
def Sys2Proof.copyOf (s : State) (a : Agt) (k : CopyKind) (tn : BitVec 8) (r : BitVec 6) : Copy :=
  let desc := a.block r.toNat 8
  let src := tnEntry s a.team.id.ctx tn.toNat
  let lands := landingsOf s a k (desc.getD 7 0).toNat
  { team := a.t, issuer := a.group, path := a.path, pc := a.pc, kind := k, src
    dst := if k = .gg then tnEntry s a.team.id.ctx ((desc.getD 5 0).toNat % 256) else src
    desc
    index := if k = .gth then (List.range (tnBox src 1 + 1)).map fun j => scrRead s a.t ((desc.getD 1 0).toNat + 4 * j) 4 else []
    sectors := imageSize src / 64, lands, batch := none
    claims := if k = .slot ∨ k = .mcSlot then lands.map (·.core) else []
    begun := false, order := 0, buf := [], core := a.team.id.core, stopped := false, mask := a.mask, stand := a.stand, got := [] }

/-- A copy word of a group completes (R91, R298 to R301): with no active lane under its predicate nothing happens; otherwise a
copy whose checks pass is recorded once, a gather's once the group's scratchpad accesses and the earlier copies' writes of its
index list are applied. A copy that lands nowhere is over at once. One without a slot begins, last in the order of copies (log
entry 62), and raises CPYCNT. One with slots, all empty, fills each: its tag is filling, its counter the image's size; one whose
own slot is not empty stands and claims. -/
def Sys2Proof.copyWordResultsRule : Prop :=
  ∀ (s : State) (e : Env) (i : Instr) (w : Bool) (k : CopyKind) (tn : BitVec 8) (r : BitVec 6) (p : BitVec 3),
    GroupAt s e 2 → copyForm i = some (w, k, tn, r, p) → r.toNat + 7 ≤ 60 → e.path.hold = none →
    let lanes := e.path.mask &&& e.grp.pred p.toNat
    let c := copyOf s e.agt k tn r
    (lanes = 0 → exec i s = .next (retire w e s)) ∧
    (lanes ≠ 0 → e.grp.cpycnt < 255 → copyChecks s e.agt c = none →
      (k = .gth → pendingScratch s e.t e.g = false ∧ listBehind s e.agt c = false) →
      (c.lands = [] → exec i s = .next (retire w e
        { s with nextId := s.nextId + 1, copies := (s.copies.put s.nextId c).del s.nextId })) ∧
      (c.claims = [] → c.lands ≠ [] → exec i s = .next (retire w e
        (updGroup { s with nextId := s.nextId + 2, copies := s.copies.put s.nextId { c with begun := true, order := s.nextId + 1 } }
          e.t e.g fun G => { G with cpycnt := G.cpycnt + 1 }))) ∧
      (k = .slot ∨ k = .mcSlot → c.lands ≠ [] →
        (∀ l ∈ c.lands, ∃ t, landingTeam s c l = some t ∧ slotTag s t c.track c.slot = 0) →
        ∃ u G, exec i s = .next (marked w e u) ∧
          u.copies.get? s.nextId = some { c with claims := [], begun := true, order := s.nextId + 1 } ∧
          (∀ l ∈ c.lands, ∀ t, landingTeam s c l = some t →
            slotTag u t c.track c.slot = 1 ∧ slotCounter u t c.track c.slot = imageSize c.src) ∧
          (u.teams.get? e.t).bind (fun U => U.groups.get? e.g) = some G ∧ G.cpycnt = e.grp.cpycnt + 1) ∧
      (k = .slot → slotTag s e.t c.track c.slot ≠ 0 → exec i s = .next (markedWait w e (standAt
        { s with nextId := s.nextId + 1, copies := s.copies.put s.nextId c } e (.claim s.nextId)))))

/-- The queue number of a queue word: its immediate, or bits 7:0 of a scalar. -/
def Sys2Proof.queueNo (a : Agt) (byReg : Bool) (q : BitVec 8) : Nat :=
  if byReg then (a.rd (q.toNat % 64)).toNat % 256 else q.toNat

/-- The message of a queue word, with the bytes that a link carries, sent on its way where the queue's home is another die, and
the word standing for its answer. -/
def Sys2Proof.asked (s u : State) (a : Agt) (w : Bool) (op : QueueOp) (rlx : Bool) (sa sd n : Nat) (data : List Word)
    (after : List Nat) : State :=
  let here := dieOf a.team.id.core
  let home := ((s.workQs.get? (workKey a.team.id.ctx n)).map (·.home)).getD here
  let hops := route u here home
  let m : QueueMsg :=
    { team := a.t, src := here, home, agent := a.group, path := a.path, ctx := a.team.id.ctx, q := n, op, rlx, sa, sd, data,
      atHome := false, after, hops, answer := none, wire := [] }
  let v := { u with nextId := u.nextId + 1, msgs := u.msgs.put u.nextId { m with wire := m.message u.nextId (u.die here).vc } }
  agentAsks w s (setOff v hops (.queue u.nextId)) (.queue u.nextId)

/-- Queue words (R305, R306, R382) on a queue that exists: the word sends its message to the queue's home and stands for the
answer, with its switch marker acted on; a push carries its eight words, and without RLX is sent behind its release at device
scope, a sequencer's writing back what its core and its die hold. On a queue that does not exist it traps QUEUE_FAULT. -/
def Obligations.QueueWordResults : Prop :=
  ∀ (s : State) (a : Agt) (w g r : Bool) (x d : BitVec 6) (q : BitVec 8), agentAt s = some a →
    x.toNat + 7 ≤ a.top → agentHas a d.toNat → (a.group = none → g = true → q.toNat ≤ 31) → heldArgs a.hold = none →
    let n := queueNo a g q
    (s.workQs.has (workKey a.team.id.ctx n) = true →
      exec (.qwait w g r x q) s = .next (asked s s a w .wait r x.toNat 0 n [] []) ∧
      exec (.qpopTry w g r x d q) s = .next (asked s s a w .popTry r x.toNat d.toNat n [] []) ∧
      (r = true →
        exec (.qpush w g r x q) s = .next (asked s s a w .push r x.toNat 0 n (a.block x.toNat 8) []) ∧
        exec (.qpushTry w g r x d q) s = .next (asked s s a w .pushTry r x.toNat d.toNat n (a.block x.toNat 8) [])) ∧
      (r = false → ∀ e after u, issuer s = .group e → release s e 4 true = .go after u →
        exec (.qpush w g r x q) s = .next (asked s u a w .push r x.toNat 0 n (a.block x.toNat 8) after) ∧
        exec (.qpushTry w g r x d q) s = .next (asked s u a w .pushTry r x.toNat d.toNat n (a.block x.toNat 8) after)) ∧
      (r = false → a.group = none →
        let u := l2Flush (l1Release s a.team.id.core 4) (dieOf a.team.id.core) a.team.id.ctx
        let after := unsent u (dieOf a.team.id.core) a.team.id.ctx
        exec (.qpush w g r x q) s = .next (asked s u a w .push r x.toNat 0 n (a.block x.toNat 8) after) ∧
        exec (.qpushTry w g r x d q) s = .next (asked s u a w .pushTry r x.toNat d.toNat n (a.block x.toNat 8) after))) ∧
    (s.workQs.has (workKey a.team.id.ctx n) = false → ∀ e, issuer s = .group e →
      exec (.qpush w g r x q) s = .next (stopGroup s e.t e.g e.p e.path.pc 0x0F 0 0) ∧
      exec (.qpushTry w g r x d q) s = .next (stopGroup s e.t e.g e.p e.path.pc 0x0F 0 0) ∧
      exec (.qwait w g r x q) s = .next (stopGroup s e.t e.g e.p e.path.pc 0x0F 0 0) ∧
      exec (.qpopTry w g r x d q) s = .next (stopGroup s e.t e.g e.p e.path.pc 0x0F 0 0))

/-- Tensor identifiers and copies (R89, R91, R298 to R301, R308, R309). -/
def Obligations.CopyAndTensorWords : Prop := tensorEntryResultsRule ∧ copyWordResultsRule

/-- Transaction barriers and slots (R96 to R101, R303, R304). -/
def Obligations.BarrierAndSlotWords : Prop := barrierResultsRule ∧ slotResultsRule

/-! ## The Flume (R153 to R172, R310 to R322) -/

/-- The agent of a Flume word at that word: a group's path in a clause of class 3, or the Flume's sequencer in class 4. -/
def Sys2Proof.flumeAgent (s : State) : Option Agt :=
  match issuer s with
  | .group e => if e.path.cls = 3 then some e.agt else none
  | .seq q => if q.flume = true ∧ q.seq.cls = 4 then some q.agt else none
  | .nobody => none

/-- Handles of the issuing team's core and of its tiles (R79, R154). -/
def Sys2Proof.tiles (a : Agt) (h n : Nat) : Prop :=
  h < (if a.team.id.core % 32 < 24 then 96 else 48) ∧ h + n ≤ a.team.fl.tileN

/-- Tiles of a block of order n (R168). -/
def Sys2Proof.tilesOf (n : Nat) : Nat := (n + 95) / 96 * ((n + 63) / 64)

/-- The operation of a Flume word: marker, kind, handle, operands, tensor entry; and what its issue needs (R315 to R321). -/
def Sys2Proof.flumeOp (s : State) (a : Agt) : Instr → Option (Bool × FlumeKind × Nat × List Nat × BitVec 512 × Prop)
  | .fmm w h r z => some (multiply false w h r z)
  | .fmmt w h r z => some (multiply true w h r z)
  | .fpoly w h r =>
    let (n, m) := iter r
    some (w, .fpoly, h.toNat, [n, m, 0], 0, seqOnly ∧ r.toNat ≤ 31 ∧ 1 ≤ n ∧ n ≤ 192 ∧ m ≤ 15 ∧ tiles a h.toNat (3 * tilesOf n))
  | .fiter w h r d =>
    let (n, m) := iter r
    some (w, .fiter, h.toNat, [n, m, d.toNat], 0, seqOnly ∧ r.toNat ≤ 31 ∧ d.toNat ≤ 31 ∧ d.toNat % 2 = 0 ∧ 1 ≤ n ∧ n ≤ 192 ∧
      m ≤ 4095 ∧ tiles a h.toNat (5 * tilesOf n))
  | .ftmask w h r => some (treeMask w .ftmask h r)
  | .ftmaskAnc w h r => some (treeMask w .ftmaskAnc h r)
  | .faccLd w h r => some (image w .accLd 24576 h r)
  | .faccStF32 w h r => some (image w .accStF32 24576 h r)
  | .faccStBf16 w h r => some (image w .accStBf16 12288 h r)
  | .faccStF16 w h r => some (image w .accStF16 12288 h r)
  | .faccZero w h => some (w, .accZero, h.toNat, [], 0, tiles a h.toNat 1)
  | .fcset w n r => some (w, .fcset, 0, [n.toNat, (a.rd r.toNat).toNat], 0, agentHas a r.toNat ∧ a.team.fl.fiter = none)
  | .fcld w r => some (w, .fcld, 0, [0, (a.rd r.toNat).toNat], 0,
      agentHas a r.toNat ∧ a.team.fl.fiter = none ∧ inScr a (a.rd r.toNat).toNat 16 64)
  | _ => none
where
  seqOnly : Prop := a.group = none
  /-- Order and count of an iteration word. -/
  iter (r : BitVec 6) : Nat × Nat := ((a.rd r.toNat).toNat % 256, (a.rd r.toNat).toNat / 65536 % 4096)
  image (w : Bool) (k : FlumeKind) (n : Nat) (h : BitVec 7) (r : BitVec 6) : Bool × FlumeKind × Nat × List Nat × BitVec 512 × Prop :=
    (w, k, h.toNat, [(a.rd r.toNat).toNat], 0, agentHas a r.toNat ∧ tiles a h.toNat 1 ∧ inScr a (a.rd r.toNat).toNat 128 n)
  treeMask (w : Bool) (k : FlumeKind) (h : BitVec 7) (r : BitVec 6) : Bool × FlumeKind × Nat × List Nat × BitVec 512 × Prop :=
    let x (i : Nat) : Nat := (a.rd (r.toNat + i)).toNat
    (w, k, h.toNat, [x 0, x 1 % 256, x 2, x 3, x 4], 0,
      seqOnly ∧ r.toNat ≤ 27 ∧ tiles a h.toNat 1 ∧ 1 ≤ x 1 % 256 ∧ x 1 % 256 ≤ 96 ∧ inScr a (x 0) 1 (x 1 % 256))
  multiply (tern w : Bool) (h : BitVec 7) (r : BitVec 6) (z : Bool) : Bool × FlumeKind × Nat × List Nat × BitVec 512 × Prop :=
    let x (i : Nat) : Nat := (a.rd (r.toNat + i)).toNat
    let e := tnEntry s a.team.id.ctx (x 0 % 256)
    let cols := if tnFormat e = 1 then 32 else 64
    (w, if tern then .fmmt else .fmm, h.toNat, [x 1, x 2, x 3, x 4, x 5, if z then 1 else 0], e,
      seqOnly ∧ r.toNat ≤ 26 ∧ tiles a h.toNat 1 ∧ x 1 % 32 = 0 ∧ 32 ≤ x 1 ∧ x 1 ≤ 4096 ∧ fmmAccepts tern e = true ∧
        inScr a (x 2) 128 (96 * runBytes (if tern then 8 else tnFormat e) (x 1)) ∧
        inScr a (x 3) 128 (cols * runBytes (tnFormat e) (x 1)) ∧
        (tnBlock e = 1 → inScr a (x 4) 4 (96 * (x 1 / 32) * 2) ∧ inScr a (x 5) 4 (cols * (x 1 / 32) * 2)))

/-- A word of a Flume agent retired. -/
def Sys2Proof.flumeNext (w : Bool) (s u : State) : State :=
  match issuer s with
  | .group e => retire w e u
  | .seq q => seqNext u q
  | .nobody => u

/-- An operation joins its team's, behind the agent's floor; a group's counted operation raises ENGCNT (R156, R187). -/
def Sys2Proof.joinOp (s : State) (a : Agt) (o : FlumeOp) : State :=
  let u := updTeam { s with nextId := s.nextId + 1 } a.t fun T =>
    { T with fl := { T.fl with ops := T.fl.ops ++ [{ o with id := s.nextId, after := T.fl.floors.getD (a.group.getD 32) [] }] } }
  match a.group with
  | some g => if o.kind.counts then updGroup u a.t g fun G => { G with engcnt := G.engcnt + 1 } else u
  | none => u

/-- A Flume word completes where its operands pass: its operation, with its operands captured, joins the team's. A group's
converting store waits for its operation while CTX_TRAPEN is not 0 (R314). -/
def Sys2Proof.flumeWordIssueRule : Prop :=
  ∀ (s : State) (a : Agt) (i : Instr) (w : Bool) (k : FlumeKind) (h : Nat) (args : List Nat) (tn : BitVec 512) (needs : Prop),
    flumeAgent s = some a → i.check = none → flumeOp s a i = some (w, k, h, args, tn, needs) → needs → a.hold = none →
    (∀ e, issuer s = .group e → e.grp.engcnt < 255 ∧ ((k = .accStBf16 ∨ k = .accStF16) → trapen s e.team = 0)) →
    exec i s = .next (flumeNext w s (joinOp s a { a.op k h args with tn }))

/-- The rows of `vmma` by format: A names and B names (R157, R313). -/
def Sys2Proof.vmmaNames (f : Nat) : Nat × Nat := if f = 5 then (18, 4) else (16, 3)

/-- `vmma` and `facc.rd` complete (R313, R321): `vmma` captures its A names and, for each group of the quad that is there,
its B names; `facc.rd` maps sixteen names, each with a result in flight. While CTX_TRAPEN is not 0 a `vmma` stands for its
operation. -/
def Obligations.FlumeVectorWordIssue : Prop :=
  ∀ (s : State) (e : Env), GroupAt s e 3 → e.path.hold = none → e.grp.engcnt < 255 →
    (∀ (w : Bool) (f : BitVec 4) (h va vb : BitVec 7), (Instr.vmma w f h va vb).check = none → tiles e.agt h.toNat 1 →
      let quad := (List.range 4).map fun q =>
        let m := 4 * (e.g / 4) + q
        (e.team.groups.get? m).bind fun G => if G.ended then none else some m
      let names (n k : Nat) : List Nat := (List.range k).map (n + ·)
      let an := names va.toNat (vmmaNames f.toNat).1
      let bn := names vb.toNat (vmmaNames f.toNat).2
      e.team.allMapped e.g (an ++ bn) = true → (∀ m, some m ∈ quad → e.team.allMapped m bn = true) →
      let rows := (an.map fun n => e.team.lanes e.g n) ++ quad.flatMap fun m =>
        bn.map fun n => match m with | some g => e.team.lanes g n | none => []
      let o := { e.agt.op .vmma h.toNat (f.toNat :: quad.map fun m => if m.isSome then 1 else 0) with rows }
      (trapen s e.team = 0 → exec (.vmma w f h va vb) s = .next (retire w e (joinOp s e.agt o))) ∧
      (trapen s e.team ≠ 0 → exec (.vmma w f h va vb) s =
        .next (markedWait w e (standAt (joinOp s e.agt o) e (.waits [s.nextId]))))) ∧
    (∀ (w : Bool) (h d : BitVec 7) (c : BitVec 2), d.toNat ≤ 112 → tiles e.agt h.toNat 1 →
      let ns := (List.range 16).map (d.toNat + ·)
      e.team.canWrite e.g ns = true →
      let u := updTeam s e.t fun t => t.mapAll e.g ns
      let dests := ns.map fun n => (((u.teams.get? e.t).bind fun t => t.mapped e.g n).map (·.row)).getD 0
      exec (.faccRd w h d c) s = .next (retire w e
        (joinOp (updTeam u e.t fun t => dests.foldl (fun t r => t.pendUp r) t) e.agt
          { e.agt.op .accRd h.toNat [c.toNat] with dests })))

/-- The other Flume words complete (R319, R322): `fcget` with no coefficient write before it reads a coefficient; `fslot.take`, with
no write of the engine to the slot's tag outstanding, takes a full slot; `fslot.release` and `ftbarrive`, with the engine's
scratchpad operations applied, release a draining slot and arrive at a barrier. -/
def Sys2Proof.flumeScalarResultsRule : Prop :=
  ∀ (s : State) (a : Agt) (w : Bool), flumeAgent s = some a → a.hold = none →
    (∀ (n : BitVec 4) (d : BitVec 6), agentHas a d.toNat → (∀ o ∈ a.team.fl.ops, o.kind ≠ .fcset ∧ o.kind ≠ .fcld) →
      exec (.fcget w n d) s = .next (flumeNext w s (a.setS s d.toNat (a.team.fl.coef.getD n.toNat 0)))) ∧
    (∀ x i : BitVec 6, a.group = none → agentHas a x.toNat →
      let off := (a.rd x.toNat).toNat
      inScr a off 16 (20 + 4 * i.toNat) →
      (slotTag s a.t off i.toNat = 2 → engineOwes a.team (off + i.toNat / 4) = false → exec (.fslotTake w x i) s = .next (flumeNext w s (setTag s a.t off i.toNat 3))) ∧
      (slotTag s a.t off i.toNat = 3 → engineScratch a.team = false →
        exec (.fslotRelease w x i) s = .next (flumeNext w s (setTag s a.t off i.toNat 0)))) ∧
    (∀ (x : BitVec 6) (k : BitVec 12) (b : TBar), a.group = none → agentHas a x.toNat → k ≠ 0 → engineScratch a.team = false →
      let off := (a.rd x.toNat).toNat
      inScr a off 16 16 → b.ok → scrRead s a.t off 16 = b.word → (b.after k.toNat 0).2 = false →
      exec (.ftbarrive w x k) s = .next (flumeNext w s (scrWrite s a.t off 16 (b.after k.toNat 0).1.word)))

/-- What an applied operation leaves in its team's tiles, coefficients and scratchpad, where it raises no flag that traps and
no older team of its core has an operation ready (R155, R156, R319, R321): word (i, j) of a tile is word 64i + j of its image,
lowest byte first. It reads and writes its whole image at that moment (log entry 69). -/
def Sys2Proof.flumeTransfersRule : Prop :=
  ∀ (s : State) (t : Nat) (src : Option Nat) (T : Team) (o : FlumeOp),
    s.teams.get? t = some T → T.fl.ops.find? (fun x => x.src == src) = some o → T.mayTake o = true → olderReady s t T o = false →
    (o.kind ≠ .fiter → ∃ u, exec (.flumeOpApplied t src) s = .next u) ∧
    (o.kind = .fiter → T.fl.fiter = none → ∃ u, exec (.flumeOpApplied t src) s = .next u) ∧
    (o.kind = .accLd ∨ o.kind = .accZero ∨ o.kind = .accStF32 ∨ o.kind = .fcset →
      ∃ u U, exec (.flumeOpApplied t src) s = .next u ∧ u = { s with teams := u.teams } ∧
        (∀ n, n ≠ t → u.teams.get? n = s.teams.get? n) ∧ u.teams.get? t = some U ∧
        U.fl.ops = T.fl.ops.filter (fun x => x.id != o.id) ∧
        (∀ h i j, i < 96 → j < 64 → U.fl.word h i j =
          if h = o.handle ∧ o.kind = .accLd then
            BitVec.ofNat 32 (T.res.scr.load (o.args.headD 0 + 4 * (64 * i + j)) 4)
          else if h = o.handle ∧ o.kind = .accZero then 0 else T.fl.word h i j) ∧
        (∀ k, U.fl.coef.getD k 0 = if o.kind = .fcset ∧ k = o.args.headD 0 then BitVec.ofNat 32 (o.args.getD 1 0)
          else T.fl.coef.getD k 0) ∧
        (∀ b, U.res.scr.get b = if o.kind = .accStF32 ∧ o.args.headD 0 ≤ b ∧ b < o.args.headD 0 + 24576 then
            let k := b - o.args.headD 0
            (T.fl.word o.handle (k / 256) (k / 4 % 64)).extractLsb' (8 * (k % 4)) 8
          else T.res.scr.get b) ∧
        U.res.rows = T.res.rows ∧ U.res.slots = T.res.slots)

/-- n bits of a word from bit lo up. -/
def Sys2Proof.fieldAt (x : Word) (lo n : Nat) : Nat := x.toNat / 2 ^ lo % 2 ^ n

/-- Element k of row i of a `vmma`'s A, of b bits: byte B of the row lies in name B div 4 at bits 8(B mod 4) up (R158). -/
def Sys2Proof.vmmaA (o : FlumeOp) (b i k : Nat) : Nat :=
  let at' := b * k / 8
  fieldAt ((o.rows.getD (at' / 4) []).getD i 0) (8 * (at' % 4) + b * k % 8) b

/-- Element k of column j of its B: element 16k + j mod 16 of quarter j div 16, byte B of a quarter in its name B div 384 and lane
(B mod 384) div 4 (R158). The quarters' names follow those of A. -/
def Sys2Proof.vmmaB (o : FlumeOp) (b na nb j k : Nat) : Nat :=
  let x := 16 * k + j % 16
  let at' := b * x / 8
  fieldAt ((o.rows.getD (na + nb * (j / 16) + at' / 384) []).getD (at' % 384 / 4) 0) (8 * (at' % 4) + b * x % 8) b

/-- The S10 scales of block m of row i of A and of column j of B under `.e2m1` (R135, R158). -/
def Sys2Proof.vmmaScales (o : FlumeOp) (i j m : Nat) : FV × FV :=
  let x := 4 * (j % 16) + m
  (s10 (fieldAt ((o.rows.getD (16 + m / 2) []).getD i 0) (16 * (m % 2)) 10),
   s10 (fieldAt ((o.rows.getD (18 + 4 * (j / 16) + 3) []).getD (x / 2) 0) (16 * (x % 2)) 10))

/-- Element (i, j) after a `vmma` in lane i's row and a present quarter's column: ChunkAccumulate over K (R142, R143, R157,
R159). -/
def Sys2Proof.vmmaElement (old : Nat) (o : FlumeOp) (i j : Nat) : Nat :=
  let f := o.args.headD 0
  let ks (n : Nat) := List.range n
  let fl (fmt : Fmt) (b n : Nat) : Nat := (dotFloat Fmt.f32 old ((ks n).map fun k => decode fmt (vmmaA o b i k))
    ((ks n).map fun k => decode fmt (vmmaB o b 16 3 j k))).1
  match f with
  | 0 => fl Fmt.bf16 16 32
  | 1 => fl Fmt.f16 16 32
  | 2 => fl Fmt.e4m3 8 64
  | 3 => fl Fmt.e5m2 8 64
  | 4 => dotWrap old ((ks 64).map fun k => (BitVec.ofNat 8 (vmmaA o 8 i k)).toInt)
      ((ks 64).map fun k => (BitVec.ofNat 8 (vmmaB o 8 16 3 j k)).toInt)
  | _ => (dotFloat Fmt.f32 old
      ((ks 128).map fun k => (blockValue (vmmaScales o i j (k / 32)).1 (decode Fmt.e2m1 (vmmaA o 4 i k))).1)
      ((ks 128).map fun k => (blockValue (vmmaScales o i j (k / 32)).2 (decode Fmt.e2m1 (vmmaB o 4 18 4 j k))).1)).1

/-- Byte x of an image of a size at an offset, moved by a swizzle (R90). -/
def Sys2Proof.imageAt (scr : Memory) (off swz size x : Nat) : Byte := scr.get (off + staggered swz size x)

/-- Element k of row r of an image whose rows take rb bytes: a nibble of `.e2m1`, else the element's bytes, lowest first. -/
def Sys2Proof.imageElement (scr : Memory) (off swz size fmt rb r k : Nat) : Nat :=
  if fmt = 7 then fieldAt ((imageAt scr off swz size (r * rb + k / 2)).setWidth 32) (4 * (k % 2)) 4
  else ofBytes ((List.range (elemBytes fmt)).map fun b => imageAt scr off swz size (r * rb + k * elemBytes fmt + b))

/-- The integer of element k of row r: a signed byte, or a trit, 0 in a byte above 242 (R134). -/
def Sys2Proof.imageInt (scr : Memory) (off swz size fmt rb r k : Nat) : Int :=
  if fmt = 13 then
    let v := (imageAt scr off swz size (r * rb + k / 5)).toNat
    if 243 ≤ v then 0 else (v / 3 ^ (k % 5) % 3 : Nat) - 1
  else (imageAt scr off swz size (r * rb + k)).toInt

/-- Element (i, j) after an `fmm` or `fmmt`, from its old value, or from 0 with Z = 1 (R142, R143, R316, R317). The operands are
K, the images and the scale images of A and B, and Z. -/
def Sys2Proof.fmmElement (c : Ctx) (scr : Memory) (o : FlumeOp) (was i j : Nat) : Nat :=
  let fmt := tnFormat o.tn
  let fmtA := if o.kind = .fmmt then 8 else fmt
  let x (n : Nat) : Nat := o.args.getD n 0
  let k := x 0
  let w := if fmt = 1 then 32 else 64
  let swz := tnSwizzle o.tn
  let old := if x 5 = 1 then 0 else was
  let scale (off r m : Nat) : FV := s10 (scr.load (off + 2 * (r * (k / 32) + m)) 2 % 1024)
  let scaled (off r m : Nat) : Option FV := if tnBlock o.tn = 1 then some (scale off r m) else none
  let compand := if tnCompand o.tn = 0 then none else some (c.compand.get? (tnCompand o.tn))
  if fmt = 8 ∨ fmt = 13 then
    let xs := (List.range k).map fun m => imageInt scr (x 1) swz (96 * runBytes fmtA k) fmtA (runBytes fmtA k) i m
    let ys := (List.range k).map fun m => imageInt scr (x 2) swz (w * runBytes fmt k) fmt (runBytes fmt k) j m
    if tnBlock o.tn = 1 then
      (dotScaled old xs ys ((List.range (k / 32)).map (scale (x 3) i)) ((List.range (k / 32)).map (scale (x 4) j))).1
    else dotWrap old xs ys
  else
    (dotFloat (if fmt = 1 then Fmt.f64 else Fmt.f32) old
      ((List.range k).map fun m => (operandValue fmt compand (scaled (x 3) i (m / 32))
        (imageElement scr (x 1) swz (96 * runBytes fmt k) fmt (runBytes fmt k) i m)).1)
      ((List.range k).map fun m => (operandValue fmt compand (scaled (x 4) j (m / 32))
        (imageElement scr (x 2) swz (w * runBytes fmt k) fmt (runBytes fmt k) j m)).1)).1

/-- Whether node v is node i or is reached from it by following parents; a byte at or above its node hangs from the prefix
(R167). -/
def Sys2Proof.descends (par : Nat → Nat) : Nat → Nat → Nat → Bool
  | 0, i, v => i == v
  | n + 1, i, v => i == v || (decide (par i < i) && descends par n (par i) v)

/-- What the tile operations leave (R155, R157 to R159, R167, R316, R317, R320), where no flag of a group's operation traps: every
element of the tile of the operation as its rule gives it, every other tile, every coefficient and the scratchpad as before. -/
def Sys2Proof.flumeTilesRule : Prop :=
  ∀ (s : State) (t : Nat) (src : Option Nat) (T : Team) (o : FlumeOp),
    s.teams.get? t = some T → T.fl.ops.find? (fun x => x.src == src) = some o → T.mayTake o = true → olderReady s t T o = false →
    let leaves (f : Nat → Nat → Word) : Prop :=
      ∃ u U, exec (.flumeOpApplied t src) s = .next u ∧ u.teams.get? t = some U ∧
        U.fl.ops = T.fl.ops.filter (fun x => x.id != o.id) ∧
        (∀ h i j, i < 96 → j < 64 → U.fl.word h i j = if h = o.handle then f i j else T.fl.word h i j) ∧
        U.fl.coef = T.fl.coef ∧ U.res.scr = T.res.scr
    let old (i j : Nat) : Nat := (T.fl.word o.handle i j).toNat
    (o.kind = .vmma → (vmmaTile T.fl o).2 &&& trapen s T &&& 0x3F = 0 → leaves fun i j =>
      if o.mask.getLsbD i = true ∧ (o.args.drop 1).getD (j / 16) 0 = 1 then BitVec.ofNat 32 (vmmaElement (old i j) o i j)
      else T.fl.word o.handle i j) ∧
    (o.kind = .fmm ∨ o.kind = .fmmt → src = none →
      let new := fmmElement (s.ctx T.id.ctx) T.res.scr o
      leaves fun i j =>
        if tnFormat o.tn = 1 then
          let d := new (old i (j / 2 * 2) + old i (j / 2 * 2 + 1) * 2 ^ 32) i (j / 2)
          BitVec.ofNat 32 (if j % 2 = 0 then d else d / 2 ^ 32)
        else BitVec.ofNat 32 (new (old i j) i j)) ∧
    (o.kind = .ftmask ∨ o.kind = .ftmaskAnc →
      let n := o.args.getD 1 0
      let par (i : Nat) : Nat := if i < n then (T.res.scr.get (o.args.getD 0 0 + i)).toNat else 255
      let inTree (i v : Nat) : Bool := v < n && descends par i i v
      n ≤ 96 → leaves fun i j =>
        let g := o.args.getD 3 0 + j
        let p := o.args.getD 2 0
        if o.kind = .ftmaskAnc then (if i < n ∧ inTree i g = true then 0x3F800000 else 0)
        else if i < n ∧ p ≤ g ∧ inTree i (g - p) = false then BitVec.ofNat 32 (o.args.getD 4 0)
        else T.fl.word o.handle i j)

/-- What an applied operation leaves (R155 to R159, R167, R317, R319 to R321). -/
def Obligations.FlumeOperationResults : Prop := flumeTransfersRule ∧ flumeTilesRule

/-- The iteration word (R156, R170, R171), where no older team of its core has an operation ready, its team is not being saved, and no
operation that was ready at its last iteration is left waiting: begun, it makes one iteration at each application while its loop goes
on; where the loop
converges or reaches its cap it writes its status and the residual into its pair of registers; where it diverges the team
stops with FLUME_DIVERGE, and the record carries the count of iterations, the residual and the one before it. -/
def Obligations.IterationResults : Prop :=
  ∀ (s : State) (t : Nat) (T : Team) (f : Fiter) (o : FlumeOp), s.teams.get? t = some T →
    T.fl.fiter = some f → T.fl.ops.find? (fun x => x.kind == .fiter) = some o → o.src = none →
    T.mayTake o = true → olderReady s t T o = false → iterationOwes s t T = false →
    match (iterTop T.fl f).2.2.1 with
    | .go grow res => T.fl.ops.find? (fun x => x.src == none) = some o →
      let r := iterRest (iterTop T.fl f).1 f (iterTop T.fl f).2.1 grow res (iterTop T.fl f).2.2.2
      exec (.flumeOpApplied t none) s = .next (updTeam s t fun x =>
        { x with fl := { r.1 with fiter := some { r.2.1 with owed := turnsReady s t T }, flags := r.1.flags ||| BitVec.ofNat 32 r.2.2 } })
    | .stop cap res =>
      ((f.raised ||| (iterTop T.fl f).2.2.2) &&& trapen s T &&& 0x3F = 0 →
        ∃ u U, exec (.fiterStop t) s = .next u ∧ u = { s with teams := u.teams } ∧ u.teams.get? t = some U ∧
          U.fl.fiter = none ∧ (∀ x ∈ U.fl.ops, x.id ≠ o.id) ∧
          U.flume = { T.flume with s := (T.flume.s.put f.sd
            (BitVec.ofNat 32 (f.k % 65536 + f.live * 2 ^ 30 + if cap then 2 ^ 31 else 0))).put (f.sd + 1) (BitVec.ofNat 32 res) })
    | .diverge res => ∃ u U, exec (.fiterStop t) s = .next u ∧ u.teams.get? t = some U ∧ U.halted = true ∧ U.fl.fiter = none ∧
      (T.flume.stop = none → (U.flume.stop.map fun x => (x.code, x.detail, x.pc, x.more)) =
        some (0x0D, 0, f.pc, [BitVec.ofNat 32 f.k, BitVec.ofNat 32 res] ++ f.prev.toList))

/-- The Flume words but for `vmma` and `facc.rd` (R155, R156, R165 to R172, R314 to R322). -/
def Obligations.FlumeWords : Prop := flumeWordIssueRule ∧ flumeScalarResultsRule

/-! ## Packets (R350 to R362, R368 to R380, R396 to R409, R424, R426) -/

/-- A launch's packet accepted: the launch, with its grid number, waits for admission behind its queue's last (R353, R354). -/
def Sys2Proof.launched (s : State) (q : Nat) (e : QEnt) (p : List Byte) : State :=
  let x := addLaunch s e.ctx q p (s.queue q).last none
  updQ x.2 q fun u => { u with last := some x.1 }

/-- A debug packet's context and group are there (R404). -/
def Sys2Proof.debugs (s : State) (p : List Byte) (t : Nat) (T : Team) (g : Nat) (G : Group) : Prop :=
  debugCtx s p = none ∧ debugGroup s p = some (t, T, g, G)

/-- The packets of user queues that take effect at acceptance: what each needs, and its effect. -/
def Sys2Proof.userPacket (s : State) (q : Nat) (e : QEnt) (p : List Byte) : Instr → Option (Nat × Prop × State)
  | .packetNop k => some (k, opcodeOf p = 0 ∧ onlyUses p [(0, 0)] = true, s)
  | .launch k => some (k, opcodeOf p = 1 ∧ launchCode s e.ctx p = none, launched s q e p)
  | .signal k => some (k, opcodeOf p = 2 ∧ onlyUses p [(0, 1), (8, 25)] = true ∧ flagsOf p ≤ 1 ∧ leNum p 24 2 ≤ 2047 ∧
      leNum p 8 8 % 8 = 0, signalNow s e.ctx p)
  | .wqcreate k => some (k, opcodeOf p = 6 ∧ flagsOf p = 0 ∧ badWork p = false ∧ 0 < leNum p 8 4 ∧ leNum p 8 4 ≤ 65536 ∧
      e.ctx ≠ 0xFFFF ∧ fieldNamed s e.ctx (leNum p 3 1) = true ∧ s.workQs.has (workKey e.ctx (leNum p 4 2)) = false ∧
      queueUse s (leNum p 3 1) (leNum p 2 1) + 32 * leNum p 8 4 ≤
        65536 * (((s.fields.get? (leNum p 3 1)).map fun x => x.qmem.getD (leNum p 2 1) 0).getD 0),
      { s with workQs := s.workQs.put (workKey e.ctx (leNum p 4 2)) ⟨leNum p 2 1, leNum p 3 1, leNum p 8 4, [], [], [], 0⟩ })
  | .wqDestroy k => some (k, opcodeOf p = 6 ∧ flagsOf p = 1 ∧ badWork p = false ∧ e.ctx ≠ 0xFFFF ∧
      s.workQs.has (workKey e.ctx (leNum p 4 2)) = true, destroyWork s e.ctx (leNum p 4 2))
  | _ => none

/-- The packets of PRIV queues that take effect at acceptance. -/
def Sys2Proof.privPacket (s : State) (p : List Byte) : Instr → Option (Nat × Prop × State)
  | .fieldset k =>
    let u := { s with fields := s.fields.put (leNum p 2 1) (packetField s p) }
    some (k, opcodeOf p = 4 ∧ flagsOf p = 0 ∧ badField p = false ∧ queueMemoryOver s (leNum p 2 1) (packetField s p) = false ∧
      (∀ d, d < 4 → queueUse s (leNum p 2 1) d ≤ 65536 * (packetField s p).qmem.getD d 0),
      (s.teams.filter fun x => fieldOfTeam s x.2 == leNum p 2 1 && !x.2.isSaved &&
        !(packetField s p).cores.getLsbD x.2.id.core).foldl (fun u x => startSave u x.1) u)
  | .fieldsetDestroy k => some (k, opcodeOf p = 4 ∧ flagsOf p = 1 ∧ badField p = false ∧ s.fields.has (leNum p 2 1) = true ∧
      (∀ x ∈ s.launches, x.2.fieldNo = leNum p 2 1 → x.2.done = true) ∧ (∀ x ∈ s.teams, fieldOfTeam s x.2 ≠ leNum p 2 1),
      { s with fields := s.fields.del (leNum p 2 1) })
  | .setctxDestroy k => some (k, opcodeOf p = 5 ∧ flagsOf p = 1 ∧ onlyUses p [(0, 3), (8, 15)] = true ∧ leNum p 8 8 % 16 = 0 ∧
      s.ctxs.has (leNum p 2 2) = true ∧ ctxHasTeams s (leNum p 2 2) = false ∧ grantPending s (leNum p 2 2) = false, removeCtx s (leNum p 2 2))
  | .preempt k => some (k, opcodeOf p = 0x13 ∧ onlyUses p [(0, 3), (4, 9)] = true ∧ flagsOf p = 0 ∧ leNum p 3 1 ≤ 3 ∧ leNum p 4 4 = 0 ∧
      leNum p 8 2 = 0,
      (s.teams.filter fun x => bit (leNum p 2 1) (fieldOfTeam s x.2)).foldl (fun u x => preemptTeam u x.1 (leNum p 3 1) false) s)
  | .teamctlDestroy k => some (k, opcodeOf p = 0x14 ∧ flagsOf p = 0 ∧ teamctlCode s p = none,
      destroyLaunch s (leNum p 2 2) (leNum p 4 4))
  | .teamctlResume k => some (k, opcodeOf p = 0x14 ∧ flagsOf p = 1 ∧ teamctlCode s p = none,
      (teamsOf s (leNum p 2 2) (leNum p 4 4)).foldl (fun u x => resumeTeam u x.1) s)
  | .faultring k =>
    let r : FaultRing := { log2n := flagsOf p, ring := leNum p 8 8, widx := leNum p 16 8, ridx := leNum p 32 8, vector := leNum p 24 2 }
    some (k, opcodeOf p = 0x16 ∧ onlyUses p [(0, 1), (8, 25), (32, 39)] = true ∧ 4 ≤ r.log2n ∧ r.log2n ≤ 12 ∧ r.vector ≤ 2047 ∧
      r.ring % 128 = 0 ∧ r.widx % 8 = 0 ∧ r.ridx % 8 = 0 ∧ inHbmOrHost r.ring = true ∧ inHbmOrHost r.widx = true ∧
      inHbmOrHost r.ridx = true ∧ s.ring = none, drainFaults { paWrite s r.widx (bytesOf 8 s.faultCount) with ring := some r })
  | .keyarea k => some (k, opcodeOf p = 0x17 ∧ onlyUses p [(0, 0), (8, 15)] = true ∧ leNum p 8 8 % 4096 = 0 ∧
      targetOf (leNum p 8 8) = .host ∧ targetOf (leNum p 8 8 + 0x1FFFF) = .host ∧ s.keys.parked = [],
      { s with keys := { s.keys with area := some (leNum p 8 8) } })
  | .attest k => some (k, opcodeOf p = 0x1A ∧ onlyUses p [(0, 0), (2, 3), (8, 15), (16, 47)] = true ∧ s.ctxs.has (leNum p 2 2) = true ∧
      (s.ctx (leNum p 2 2)).prot = true ∧ leNum p 8 8 % 4096 = 0 ∧ (keyRecord s (leNum p 2 2)).isSome = true,
      ((keyRecord s (leNum p 2 2)).map fun k =>
        vaWrite s.draw.2 0 (leNum p 2 2) (leNum p 8 8) (report s.draw.2 (leNum p 2 2) k ((p.drop 16).take 32) s.draw.1)).getD s)
  | .tracectl k => some (k, opcodeOf p = 0x1D ∧ onlyUses p [(0, 25)] = true ∧ flagsOf p = 0,
      dropTags { s with trace := { s.trace with enable := false } })
  | .resync k => some (k, opcodeOf p = 0x1E ∧ onlyUses p [(0, 0), (8, 15)] = true ∧ leNum p 8 8 % 4096 = 0 ∧
      rangeInHbmOrHost (leNum p 8 8) 8192 = true, paWrite s (leNum p 8 8) (summary s))
  | .powercap k => some (k, opcodeOf p = 0x1F ∧ onlyUses p [(0, 0), (4, 7)] = true ∧ 600 ≤ leNum p 4 4 ∧ leNum p 4 4 ≤ 2600,
      { s with health := { s.health with cap := leNum p 4 4 } })
  | _ => none

/-- A packet that stands first in an open queue and passes its checks is accepted with its effect: RIDX moves on (R350). What the
manual does not fix of the checks, and at which die the Headgate's accesses are translated, is the model's (log entries 29 and
36), and so is that ATTEST of a context whose key is parked reads its record where it lies (log entry 77). -/
def Obligations.PacketResults : Prop :=
  ∀ (s : State) (q : Nat) (e : QEnt) (p : List Byte) (i : Instr) (needs : Prop) (u : State),
    nextPacket s q = some (e, p) → needs →
    (userPacket s q e p i = some (q, needs, u) → exec i s = .next (acceptPacket u q e)) ∧
    (e.priv = true → privPacket s p i = some (q, needs, u) → exec i s = .next (acceptPacket u q e))

/-- The packets whose effect depends on memory that they name, or on what a debugger or the driver names (R356, R362, R373,
R399, R405 to R408): each is accepted where its checks pass; STEP holds its queue until the step is made. The compand tables are
read in the space of the queue (log entry 73), the key record of a context whose key is parked where it lies (log entry 77), and what
TRACEKEY, GRAPHRUN, GRAPHEDIT and SETCTX read of a context through die 0's translation (log entry 29). -/
def Obligations.NamedPacketResults : Prop :=
  ∀ (s : State) (q : Nat) (e : QEnt) (p : List Byte), nextPacket s q = some (e, p) →
    (∀ h r b, opcodeOf p = 7 → onlyUses p [(0, 0), (8, 15)] = true → e.ctx ≠ 0xFFFF → leNum p 8 8 % 16 = 0 →
      qRead s e.ctx (leNum p 8 8) 16 = some h → leNum h 0 8 % 64 = 0 → leNum h 12 1 ≤ 1 → leNum h 13 3 = 0 →
      qRead s e.ctx (leNum h 0 8) 64 = some r → 1 ≤ leNum r 4 2 → leNum r 4 2 ≤ 1024 → onlyUses r [(0, 5)] = true →
      qRead s e.ctx (leNum h 0 8 + 64) (64 * leNum r 4 2) = some b →
      (∀ x ∈ recordPackets b (leNum r 4 2), launchCode s e.ctx x = none) →
      let x := addRun e.ctx q s.nextId (recordPackets b (leNum r 4 2)) (s.queue q).last { s with nextId := s.nextId + 1 }
      exec (.graphrun q) s = .next (acceptPacket
        { x.2 with runs := x.2.runs.put s.nextId ⟨e.ctx, leNum p 8 8, leNum r 0 4, leNum h 12 1 == 1, x.1⟩ } q e)) ∧
    (∀ h old r, opcodeOf p = 8 → onlyUses p [(0, 0), (8, 23)] = true → e.ctx ≠ 0xFFFF → leNum p 8 8 % 16 = 0 → leNum p 16 8 % 64 = 0 →
      qRead s e.ctx (leNum p 8 8) 8 = some h → qRead s e.ctx (leNum h 0 8) 4 = some old → qRead s e.ctx (leNum p 16 8) 4 = some r →
      leNum old 0 4 < leNum r 0 4 →
      let x := graphOf (qWrite s e.ctx (leNum p 8 8) (bytesOf 8 (leNum p 16 8))) e.ctx (leNum p 8 8)
      exec (.graphedit q) s = .next (acceptPacket (retireVersions
        { x.2 with graphs := x.2.graphs.upd x.1 fun g => { g with olds := g.olds ++ [leNum old 0 4] } } x.1) q e)) ∧
    (e.priv = true →
      (∀ b t u, opcodeOf p = 5 → (s.queue q).desc = none → flagsOf p = 0 → onlyUses p [(0, 3), (8, 15)] = true → leNum p 2 2 ≠ 0xFFFF → leNum p 8 8 % 16 = 0 →
        qRead s e.ctx (leNum p 8 8) 128 = some b → descCode (leNum p 2 2) b = none → ctxHasTeams s (leNum p 2 2) = false →
        s.ctxs.length < 512 → readCompand s e.ctx (leNum b 104 8) = some t → (∀ x ∈ t, compandGood x.2 = true) →
        grantPending s (leNum p 2 2) = false → installCtx s (leNum p 2 2) (descCtx b t) = .accept u →
        exec (.setctx q) s = .next (acceptPacket u q e)) ∧
      (∀ f, flagsOf p = 0 ∨ flagsOf p = 1 → opcodeOf p = 0x15 → onlyUses p [(0, 3)] = true → faultOfToken s (leNum p 2 2) = some f →
        (flagsOf p = 0 → exec (.faultreplyRetry q) s = .next (acceptPacket (retryFault s f.1 f.2) q e)) ∧
        (flagsOf p = 1 → exec (.faultreplyFail q) s = .next (acceptPacket (failRecorded s f.1 f.2) q e))) ∧
      (∀ m k, opcodeOf p = 0x1B → onlyUses p [(0, 0), (2, 3), (8, 15)] = true → s.ctxs.has (leNum p 2 2) = true →
        (s.ctx (leNum p 2 2)).prot = true → vaRead s 0 (leNum p 2 2) (leNum p 8 8) 80 = some m → keyRecord s (leNum p 2 2) = some k →
        exec (.tracekey q) s = .next (
          match Crypto.hpkeOpen k.reportKey m with
          | none => rejectPacket s q e 10
          | some key => acceptPacket
            { s with live := s.live.put (leNum p 2 2) { s.ctxLive (leNum p 2 2) with traceKey := some (exactly 32 key) } } q e)) ∧
      (opcodeOf p = 0x1C → flagsOf p = 0 → debugCtx s p = none → leNum p 14 1 ≤ 7 → leNum p 12 1 ≤ 31 ∨ leNum p 12 1 = 0xFF →
        namesGroups s (leNum p 2 2) (leNum p 4 4) (leNum p 8 4) (leNum p 12 1) = true → leNum p 16 8 % 4 = 0 →
        let x : Comparator :=
          { addr := BitVec.ofNat 64 (leNum p 16 8), grid := filterOf (leNum p 4 4) 0, team := filterOf (leNum p 8 4) 0xFFFFFFFF
            group := filterOf (leNum p 12 1) 0xFF, path := filterOf (leNum p 13 1) 0xFF }
        let y : CtxLive := { s.ctxLive (leNum p 2 2) with 
          bps := if leNum p 16 8 = 0 then (s.ctxLive (leNum p 2 2)).bps.del (leNum p 14 1)
            else (s.ctxLive (leNum p 2 2)).bps.put (leNum p 14 1) x }
        exec (.dbgctlBpset q) s = .next (acceptPacket { s with live := s.live.put (leNum p 2 2) y } q e)) ∧
      (∀ t T g G, opcodeOf p = 0x1C → debugs s p t T g G →
        (flagsOf p = 2 → exec (.dbgctlResume q) s = .next (acceptPacket (releasePaths s t g p 1) q e)) ∧
        (flagsOf p = 3 → groupStopped s t T g G = true →
          exec (.dbgctlStep q) s = .next (updQ (acceptPacket (releasePaths s t g p 2) q e) q fun u =>
            { u with block := some (.command p []) })) ∧
        (flagsOf p = 4 → groupStopped s t T g G = true → leNum p 16 8 % 4096 = 0 → inHbmOrHost (leNum p 16 8) = true →
          exec (.dbgctlDump q) s = .next (acceptPacket (dump s (leNum p 16 8) T g G) q e)) ∧
        (flagsOf p = 5 → groupStopped s t T g G = true → leNum p 24 8 % 16 = 0 → inHbmOrHost (leNum p 24 8) = true →
          let x := leNum p 14 1
          (paTake s (leNum p 24 8) (if x < 128 then 396 else if x < 192 then 4 else 12)).isSome = true →
          (x < 128 → (T.mapped g x).isSome = true →
            exec (.dbgctlWrite q) s = .next (acceptPacket (overwriteName s t g x (paRead s (leNum p 24 8) 396)) q e)) ∧
          (x < 128 → (T.mapped g x).isSome = false → freeRows s T = true → exec (.dbgctlWrite q) s =
            .next (acceptPacket (overwriteName (mapForWrite s t g x) t g x (paRead s (leNum p 24 8) 396)) q e)) ∧
          (128 ≤ x → x < 189 → exec (.dbgctlWrite q) s = .next (acceptPacket (updGroup s t g fun G =>
            { G with s := G.s.put (x - 128) (BitVec.ofNat 32 (leNum (paRead s (leNum p 24 8) 4) 0 4)) }) q e)) ∧
          (189 ≤ x → x < 192 → exec (.dbgctlWrite q) s = .next (acceptPacket
            ((G.paths.keys.filter fun k => leNum p 13 1 == 0xFF || leNum p 13 1 == k).foldl (fun u k => updPath u t g k fun P => { P with
              mask := writeMaskWord P.mask P.domain (x - 128) (BitVec.ofNat 32 (leNum (paRead s (leNum p 24 8) 4) 0 4)) }) s) q e)) ∧
          (192 ≤ x → x < 200 → exec (.dbgctlWrite q) s = .next (acceptPacket (updGroup s t g fun G =>
            { G with p := G.p.put (x - 192) (BitVec.ofNat 96 (leNum (paRead s (leNum p 24 8) 12) 0 12)) }) q e)))))

/-- Commands that take time (R331, R368, R369, R396, R399, R406): what each needs, what it does at acceptance, and the requests
that its completion waits for. -/
def Sys2Proof.timedCommand (s : State) (p : List Byte) : Instr → Option (Nat × Prop × State × List Nat)
  | .fwdupdate k =>
    let t := readFwd s (leNum p 2 2)
    let u := flushNew ((List.range 128).foldl (fun u c => u.setCore c { u.core c with fwd := (u.core c).fwd.put (leNum p 2 2) t }) s)
      (leNum p 2 2) t
    some (k, opcodeOf p = 9 ∧ onlyUses p [(0, 0), (2, 3)] = true ∧ s.ctxs.has (leNum p 2 2) = true, u,
      newTextWrites u (leNum p 2 2) t)
  | .xlateinv k => some (k, opcodeOf p = 0x10 ∧ onlyUses p [(0, 3), (8, 23)] = true ∧ flagsOf p ≤ 1 ∧ leNum p 16 8 % 65536 = 0 ∧
      (flagsOf p = 1 → leNum p 8 8 = 0 ∧ leNum p 16 8 = 0) ∧ leNum p 8 8 % 65536 = 0 ∧ s.ctxs.has (leNum p 2 2) = true,
      dropTables (dropWalks s (leNum p 2 2) (leNum p 8 8) (leNum p 16 8) (bit (flagsOf p) 0)) fun _ x => x == leNum p 2 2,
      translatedBy s (leNum p 2 2) (leNum p 8 8) (leNum p 16 8) (bit (flagsOf p) 0))
  | .syninv k => some (k, opcodeOf p = 0x11 ∧ onlyUses p [(0, 0), (2, 3)] = true ∧ s.ctxs.has (leNum p 2 2) = true,
      dropTables { s with cores := s.cores.mapVals fun _ c => { c with remap := c.remap.filter fun e => e.ctx != leNum p 2 2 } }
        fun _ x => x == leNum p 2 2, [])
  | .vaultgrant k => some (k, opcodeOf p = 0x12 ∧ onlyUses p [(0, 0), (2, 3), (16, 47)] = true ∧ s.ctxs.has (leNum p 2 2) = true, s,
      reqsWhere s fun r => r.ctx == leNum p 2 2 && r.vaultOff.isSome)
  | .vaultcarve k => some (k, opcodeOf p = 0x20 ∧ onlyUses p [(0, 0), (2, 3)] = true ∧ leNum p 2 1 ≤ 3 ∧
      (∀ v ∈ eighthVaults (BitVec.ofNat 8 (leNum p 3 1) &&& ~~~(s.die (leNum p 2 1)).carve), vaultGranted s (leNum p 2 1) v = false),
      recarve s (leNum p 2 1) (BitVec.ofNat 8 (leNum p 3 1)), [])
  | .protways k =>
    let d := leNum p 2 1
    let n := leNum p 3 1
    let was := (s.die d).protWays
    let u := ((s.die d).l2.lines.filter fun e => 16 - max was n ≤ e.2.way && e.2.way < 16 - min was n).foldl
      (fun u e => evictL2Line u d e.1) s
    some (k, opcodeOf p = 0x18 ∧ onlyUses p [(0, 0), (2, 3)] = true ∧ d ≤ 3 ∧ n ≤ 8, u.setDie d { u.die d with protWays := n },
      reqsWhere u fun r => r.die == d && r.who == .writeback && r.kind == .write && (u.ctx r.ctx).prot)
  | .scrub k => some (k, opcodeOf p = 0x19 ∧ onlyUses p [(0, 0), (8, 23)] = true ∧ leNum p 16 8 % 65536 = 0 ∧ leNum p 8 8 % 65536 = 0 ∧
      targetOf (leNum p 8 8) = .hbm ∧ leNum p 8 8 + leNum p 16 8 ≤ 0x8000000000, Machine.scrub s (leNum p 8 8) (leNum p 16 8), [])
  | .dbgctlStop k => some (k, opcodeOf p = 0x1C ∧ flagsOf p = 1 ∧ debugCtx s p = none ∧ (debugGroup s p).isSome = true,
      ((debugGroup s p).map fun x => if x.2.1.halted || x.2.1.isSaved then s else holdPaths s x.1 x.2.2.1).getD s, [])
  | _ => none

/-- A command that takes time is accepted with what it does at once, and its queue stands until COMMAND_COMPLETE, which
comes where its requests are performed and its effect is complete. A forwarding update loads the cores' copies at acceptance (log
entry 70). A VAULTGRANT that must wait for another withdraws its own vaults meanwhile (log entry 75). -/
def Obligations.TimedCommandResults : Prop :=
  ∀ (s : State) (q : Nat),
    (∀ (e : QEnt) (p : List Byte) (i : Instr) (needs : Prop) (u : State) (rs : List Nat),
      nextPacket s q = some (e, p) → e.priv = true → timedCommand s p i = some (q, needs, u, rs) → needs →
      exec i s = .next (updQ (acceptPacket u q e) q fun x => { x with block := some (.command p rs) })) ∧
    (∀ p rs, (s.queue q).block = some (.command p rs) → commandDone s p rs = true →
      exec (.commandComplete q) s = .next (updQ (commandEnd s p) q fun x => { x with block := none })) ∧
    (∀ p rs, (s.queue q).block = some (.command p rs) → commandDone s p rs = false → mayWithdraw s p = true →
      exec (.commandComplete q) s = .next (grantWithdraw s p))

/-- The event that takes a packet of a PRIV opcode, by its opcode and its option byte (R352). -/
def Sys2Proof.privEvent (q op f : Nat) (i : Instr) : Prop :=
  match op with
  | 4 => i = if bit f 0 then .fieldsetDestroy q else .fieldset q
  | 5 => i = if bit f 0 then .setctxDestroy q else .setctx q
  | 9 => i = .fwdupdate q
  | 0x10 => i = .xlateinv q
  | 0x11 => i = .syninv q
  | 0x12 => i = .vaultgrant q
  | 0x13 => i = .preempt q
  | 0x14 => f = 0 ∧ i = .teamctlDestroy q ∨ f = 1 ∧ i = .teamctlResume q
  | 0x15 => f = 0 ∧ i = .faultreplyRetry q ∨ f = 1 ∧ i = .faultreplyFail q
  | 0x16 => i = .faultring q
  | 0x17 => i = .keyarea q
  | 0x18 => i = .protways q
  | 0x19 => i = .scrub q
  | 0x1A => i = .attest q
  | 0x1B => i = .tracekey q
  | 0x1C => f = 0 ∧ i = .dbgctlBpset q ∨ f = 1 ∧ i = .dbgctlStop q ∨ f = 2 ∧ i = .dbgctlResume q ∨ f = 3 ∧ i = .dbgctlStep q ∨
      f = 4 ∧ i = .dbgctlDump q ∨ f = 5 ∧ i = .dbgctlWrite q
  | 0x1D => i = .tracectl q
  | 0x1E => i = .resync q
  | 0x1F => i = .powercap q
  | 0x20 => i = .vaultcarve q
  | _ => False

/-- A PRIV opcode in a queue that is not PRIV is rejected with code 2 (R352), whatever else it holds: that this check goes before those
for code 1 is the model's reading (log entry 36). The error record has code 2,
the queue is STOPPED, its read index stays and nothing of the packet's effect happens: no team, context, field, launch or key
changes. -/
def Obligations.PrivilegeOfPackets : Prop :=
  ∀ (s : State) (q : Nat) (e : QEnt) (p : List Byte) (i : Instr),
    nextPacket s q = some (e, p) → e.priv = false → privEvent q (opcodeOf p) (flagsOf p) i →
    ∃ u, exec i s = .next u ∧ u = rejectPacket s q e 2 ∧ (u.queue q).stopped = true ∧ (u.queue q).rd = (s.queue q).rd ∧
      u.teams = s.teams ∧ u.ctxs = s.ctxs ∧ u.live = s.live ∧ u.fields = s.fields ∧ u.launches = s.launches ∧
      u.keys.seated = s.keys.seated ∧ u.keys.records = s.keys.records ∧ u.keys.gens = s.keys.gens ∧ u.boot = s.boot

/-- Doorbells, scans and the packets that wait (R349 to R351, R358), while a Culvert link is up: a doorbell sets NOTIFY of the
queue's slot, or PENDING where it has none; that one does nothing while EN is 0 or at or above QTLEN is the model's reading (log
entry 37). A scan reads WIDX; `WAITMEM` waits until its word has reached its value, `SIGNAL` with WAITALL until its
queue's launches have settled. -/
def Obligations.QueueEvents : Prop :=
  ∀ (s : State) (q : Nat),
    (barOpen s = true → s.hg.en = false ∨ s.hg.qtlen.toNat ≤ q → exec (.doorbell q) s = .next s) ∧
    (barOpen s = true → s.hg.en = true → q < s.hg.qtlen.toNat → slotOf s q = none → exec (.doorbell q) s = .next (setPending s q)) ∧
    (∀ k, barOpen s = true → s.hg.en = true → q < s.hg.qtlen.toNat → slotOf s q = some k → (s.hg.slots.lowestFree 128).isSome = true →
      exec (.doorbell q) s = .next (notifySlot s k q)) ∧
    (∀ k x e w, queueEntry s q = some e → qRead s e.ctx e.widx 8 = some w → slotOf s q = some k → s.hg.slots.get? k = some x →
      x.notify = true → exec (.queueScan q) s = .next (scanQueue s q k (leNum w 0 8) e)) ∧
    (∀ k since, s.hg.en = true → s.hg.orphans.get? k = some (q, since) → exec (.orphanLatch k) s =
      .next (setPending { s with hg := { s.hg with orphans := s.hg.orphans.del k } } q)) ∧
    (∀ e p, nextPacket s q = some (e, p) → opcodeOf p = 3 → onlyUses p [(0, 0), (8, 23)] = true → leNum p 8 8 % 8 = 0 →
      exec (.waitmem q) s = .next (updQ s q fun u => { u with block := some (.waitmem (leNum p 8 8) (leNum p 16 8)) })) ∧
    (∀ e a v b, queueEntry s q = some e → (s.queue q).block = some (.waitmem a v) → qRead s e.ctx a 8 = some b → v ≤ leNum b 0 8 →
      exec (.waitmemSatisfied q) s = .next (updQ (acceptPacket s q e) q fun u => { u with block := none })) ∧
    (∀ e p, queueEntry s q = some e → (s.queue q).block = some (.signal p) → launchesSettled s q = true →
      exec (.signalWaitallRelease q) s = .next (updQ (acceptPacket (signalNow s e.ctx p) q e) q fun u => { u with block := none }))

/-! ## Homes and replies (R110, R111, R117, R118) -/

/-- A request whose turn has come, of its die and of its HBM controller, is applied at its home (R110, R117, R118, R360); a
request of a lower class waits behind one of a higher; one for host memory whose home's link is down is forwarded to the
other link (R347). On a sector of HBM that the memory-side cache does not hold, unsealed and unpoisoned, a read also where that
cache has room or holds the sector's line, its lines one set (R12, log entry 30): a write puts the
bytes of its mask, an atomic its new value, a read nothing; every other byte of memory stays; the reply holds what was
read. The same holds at a vault, the home of its own bytes, where its sector is not poisoned (R77, R107). -/
def Obligations.HomeResults : Prop :=
  ∀ (s : State) (id : Nat) (r : Req), s.reqs.get? id = some r → r.kind ≠ .beat → servable s id r = true →
    (∀ x ∈ waitingWith s r, r.target = .hbm → r.cls s < x.cls s →
      exec (.homeRequest id) s = .refused (.notEnabled "HOME_REQUEST")) ∧
    (hbmTurn s r = true → forwardTo s r = none → portOpen s r = true → ∃ u, exec (.homeRequest id) s = .next u) ∧
    (∀ d, hbmTurn s r = true → forwardTo s r = some d → exec (.homeRequest id) s = .next
      (setOff (updReq s id fun q => { q with fwd := some d, hops := route s r.home d }) (route s r.home d) (.req id))) ∧
    (hbmTurn s r = true → r.vaultOff = none → targetOf r.pa = .hbm → r.sealed = false →
      (s.die r.home).msc.get? (r.pa / 64) = none → poisoned s (r.pa / 64) = false → doorbellAt s r.pa = none →
      (r.kind = .atomic → r.pa % zatom r.op = 0) →
      (r.kind = .read → (s.die r.home).mscLines = [] ∨ (s.die r.home).mscLines.has (lineOfSect (r.pa / 64)) = true ∨
        (s.die r.home).mscLines.length < mscSize s r.home) →
      let base := 64 * (r.pa / 64)
      let n := zatom r.op
      let old := s.store.pa.load r.pa n
      let new := atomNew r.op old r.x r.e
      ∃ u q, exec (.homeRequest id) s = .next u ∧ u.reqs.get? id = some q ∧ q.stage = .replied ∧ q.bad = 0 ∧
        q.reply = (match r.kind with
          | .read => sectOf (s.store.pa.read base 64)
          | .atomic => BitVec.ofNat 512 old
          | _ => 0) ∧
        ∀ a, u.store.pa.get a =
          if r.kind = .write ∧ base ≤ a ∧ a < base + 64 ∧ r.mask.getLsbD (a - base) = true then r.data.extractLsb' (8 * (a - base)) 8
          else if r.kind = .atomic ∧ r.pa ≤ a ∧ a < r.pa + n then BitVec.ofNat 8 (new / 2 ^ (8 * (a - r.pa)))
          else s.store.pa.get a) ∧
    (∀ off, r.vaultOff = some off → poisoned s (vaultKey off) = false → (r.kind = .atomic → off % zatom r.op = 0) →
      let base := 64 * (off / 64)
      let n := zatom r.op
      let old := s.store.vault.load off n
      let new := atomNew r.op old r.x r.e
      ∃ u q, exec (.homeRequest id) s = .next u ∧ u.reqs.get? id = some q ∧ q.stage = .replied ∧ q.bad = 0 ∧
        q.reply = (match r.kind with
          | .read => sectOf (s.store.vault.read base 64)
          | .atomic => BitVec.ofNat 512 old
          | _ => 0) ∧
        u.store.pa = s.store.pa ∧
        ∀ a, u.store.vault.get a =
          if r.kind = .write ∧ base ≤ a ∧ a < base + 64 ∧ r.mask.getLsbD (a - base) = true then r.data.extractLsb' (8 * (a - base)) 8
          else if r.kind = .atomic ∧ off ≤ a ∧ a < off + n then BitVec.ofNat 8 (new / 2 ^ (8 * (a - off)))
          else s.store.vault.get a)

/-- Walks, replies and what they release (R85, R111, R366, R367, R372, R382): a request's walk ends once what must leave before it
has, or sends a request of its own for an entry that another die holds, whose reply it goes on with; a reply of a write or of an
atomic takes effect at its die; a filter walk that finds an entry lets its access go on at the leader; held fault records are
written once their ring has room; a die that has raised EPOCH tells another. -/
def Obligations.RequestEvents : Prop :=
  ∀ (s : State) (id : Nat) (r : Req),
    (s.reqs.get? id = some r → r.stage = .walk → (∀ k ∈ r.after, isSent s k = true) → tableAsked s id = false →
      behind s id r (· == .walk) = false → behind s id r (fun x => match x with | .held _ => true | _ => false) = false →
      exec (.walkComplete id) s = .next (walk s id r) ∧
      (r.phys = false → r.vaultOff = none →
        (r.probe = false → ∀ pa sl, (r.xlate s).1 = .ok pa sl → walk s id r = sendReq (r.xlate s).2 id pa sl) ∧
        (∀ pa v, r.xlate s = (.ask pa, v) → ∃ u q, walk s id r = u ∧ u = { v with reqs := u.reqs, nextId := v.nextId + 1 } ∧
          u.reqs.get? v.nextId = some q ∧ q.who = .table id ∧ q.kind = .read ∧ q.phys = true ∧ q.va = 64 * (pa / 64) ∧
          q.die = r.die ∧ q.stage = .walk ∧ ∀ n, n ≠ v.nextId → u.reqs.get? n = v.reqs.get? n))) ∧
    (s.reqs.get? id = some r → r.stage = .replied → r.hops = [] → r.kind ≠ .beat → r.bad = 0 → replyWaits s r = false →
      let u := mergeVc s r.die r.stable
      (∃ v, exec (.replyReceive id) s = .next v) ∧
      (∀ w, r.who = .table w → r.kind = .read → r.fillScope = none →
        exec (.replyReceive id) s = .next (noteTable (dropReq u id) w (r.va / 64) (.data r.reply))) ∧
      (r.who = .writeback → r.kind = .write → exec (.replyReceive id) s = .next (dropReq u id)) ∧
      (∀ a lane, r.who = .access a lane → r.kind ≠ .read →
        exec (.replyReceive id) s = .next (laneReply (dropReq u id) a lane r.reply.toNat))) ∧
    (∀ a T l x, s.accs.get? id = some a → s.teams.get? a.team = some T → stalledLane s a T = some l →
      (a.parked = true → mayContinue s a.team = true ∧ ∀ f ∈ s.faults, f.2.src = 3 → f.2.team ≠ a.team) →
      tableAsked s id = false → synWalkGot s (dieOf T.id.core) T.id.ctx (some a.got) l.va = .entry x →
      exec (.remapFilterWalkComplete id) s = .next (progress (remapPut s T.id.core x) id [] allLanes)) ∧
    ((ringRoom s).isSome = true → heldFaults s ≠ [] → exec .faultRingRoom s = .next (drainFaults s)) ∧
    (∀ src dst, src < 4 → dst < 4 → src ≠ dst → (s.die src).told.getD dst 0 < (s.die src).epoch →
      ∃ u, exec (.clockBeatSend src dst) s = .next u ∧ (u.die src).sent = (s.die src).sent + 1) ∧
    (∀ src dst n q, s.reqs.find? (fun e => e.2.kind == .beat && e.2.die == src && e.2.home == dst && servable s e.1 e.2) = some (n, q) →
      exec (.clockBeat src dst) s = .next (noteStable (dropReq s n) dst src q.vc))

/-- Results return (R187, R191, R287, R289): a complete load or atomic of a group that has not ended writes its
destination, and LDCNT falls; a complete store, once its write-backs are gone, lowers STCNT. A scalar takes the low word
of the lane's value, a row the low words of its lanes' values; the other scalars and the row's other lanes stay. -/
def Obligations.ReturnResults : Prop :=
  ∀ (s : State) (id : Nat) (a : Access) (T : Team) (G : Group),
    s.accs.get? id = some a → a.complete = true → a.cancelled = false → s.teams.get? a.team = some T → T.isSaved = false →
    T.groups.get? a.group = some G → G.ended = false →
    (a.counter = some true → ∃ u U G', exec (.resultReturn id) s = .next u ∧ u.accs.get? id = none ∧
      u.teams.get? a.team = some U ∧ U.groups.get? a.group = some G' ∧ G'.ldcnt = G.ldcnt - 1 ∧ G'.stcnt = G.stcnt ∧
      G'.p = G.p ∧ G'.fflags = G.fflags ∧
      (∀ d l, a.dest = .scalar d → d < 61 → a.lanes = [l] → G'.s = G.s.put d (l.val.setWidth 32)) ∧
      (a.dest = .none → G'.s = G.s) ∧
      (∀ r row, a.dest = .rows r none → T.res.rows.get? r = some row → row.refcnt ≠ 0 → ∃ row', U.res.rows.get? r = some row' ∧
        row'.pend = row.pend - 1 ∧ ∀ k, k < 96 → row'.lanes.getD k 0 =
          match a.lanes.find? fun l => l.lane == k with | some l => l.val.setWidth 32 | none => row.lanes.getD k 0)) ∧
    (a.counter = some false → (∀ w ∈ a.wbs, s.reqs.has w = false) → ∃ u U G', exec (.storePerformed id) s = .next u ∧
      u.accs.get? id = none ∧ u.teams.get? a.team = some U ∧ U.groups.get? a.group = some G' ∧ G'.stcnt = G.stcnt - 1 ∧
      G'.ldcnt = G.ldcnt ∧ G'.s = G.s)

/-! ## Copies and queues at work (R90, R92, R119, R307) -/

/-- Sector k of a copy may land at its one landing: its team is there with a live group, no earlier copy of the team meets it, and
the source sectors of it and of the lower ones that have not landed are in the copy's buffer. -/
def Sys2Proof.landsNow (s : State) (id i : Nat) (c : Copy) (T : Team) : Prop :=
  ∃ l g G, s.copies.get? id = some c ∧ s.teams.get? c.team = some T ∧ T.isSaved = false ∧ T.groups.get? g = some G ∧
    G.ended = false ∧ c.begun = true ∧ c.stopped = false ∧ c.lands = [l] ∧ i < c.sectors ∧ i ∉ l.landed ∧
    copyBehind s c = false ∧ (∀ e ∈ s.reqs, e.2.who ≠ .copy id) ∧
    (∀ v ∈ c.needs i, 64 * v < synonymBase ∧ c.buf.has v = true) ∧
    ∀ j, j < i → j ∈ l.landed ∨ ∀ v ∈ c.needs j, 64 * v < synonymBase ∧ c.buf.has v = true

/-- The scratchpad byte that sector i leaves at b: an image byte, staggered by the swizzle, or the byte that was there (R90). -/
def Sys2Proof.landedByte (c : Copy) (i : Nat) (old : Memory) (b : Nat) : Byte :=
  match (sectorBytes i).reverse.find? fun o => c.loc + staggered (tnSwizzle c.src) (imageSize c.src) o == b with
  | some o => c.byte o fun a => (c.buf.getD (a / 64) 0).extractLsb' (8 * (a % 64)) 8
  | none => old.get b

/-- Whether sector i of a copy writes none of n bytes from an offset. -/
def Sys2Proof.landsClear (c : Copy) (i off n : Nat) : Prop :=
  ∀ o ∈ sectorBytes i, c.loc + staggered (tnSwizzle c.src) (imageSize c.src) o < off ∨
    off + n ≤ c.loc + staggered (tnSwizzle c.src) (imageSize c.src) o

/-- A sector of a copy from global addresses to its team's scratchpad lands (R90, R97, R101): it writes its 64 image bytes and no
other byte but its tracker's. At a transaction barrier it counts one sector, and an overrun halts the team with OVR set; at a ring
slot it takes 64 from the counter, the slot is full when that comes to 0, and a counter that is 0 already halts the team. That the
lower sectors are past their translation is the model's (log entry 59), and so is that a counter of 1 to 63 goes to 0 (log entry 54,
DESIGN CHOICE). Landings in global memory, at a filled slot of another core and of gathers and multicasts are not named here. -/
def Sys2Proof.copySectorsRule : Prop :=
  ∀ (s : State) (id i : Nat) (c : Copy) (T : Team), landsNow s id i c T →
    (c.kind = .ld → c.trackNone = true →
      ∃ u U, exec (.sectorLand id i) s = .next u ∧ u.store = s.store ∧ u.teams.get? c.team = some U ∧
        ∀ b, U.res.scr.get b = landedByte c i T.res.scr b) ∧
    (∀ t : TBar, c.kind = .ld → c.trackNone = false → t.ok → T.res.scr.load c.track 16 = t.word → landsClear c i c.track 16 →
      ∃ u U, exec (.sectorLand id i) s = .next u ∧ u.store = s.store ∧ u.teams.get? c.team = some U ∧
        U.res.scr.load c.track 16 = (t.after 0 1).1.word ∧ ((t.after 0 1).2 = true → U.halted = true) ∧
        ∀ b, b < c.track ∨ c.track + 16 ≤ b → U.res.scr.get b = landedByte c i T.res.scr b) ∧
    (c.kind = .slot → c.slot < 64 → landsClear c i c.track (20 + 4 * c.slot) →
      let n := slotCounter s c.team c.track c.slot
      let tag := slotTag s c.team c.track c.slot
      ∃ u U, exec (.sectorLand id i) s = .next u ∧ u.store = s.store ∧ u.teams.get? c.team = some U ∧
        (n = 0 → U.halted = true ∧ slotTag u c.team c.track c.slot = tag) ∧
        (n ≠ 0 → slotCounter u c.team c.track c.slot = n - 64 ∧
          slotTag u c.team c.track c.slot = if n ≤ 64 ∧ tag = 1 then 2 else tag) ∧
        ∀ b, b ≠ c.track + c.slot / 4 → b < c.track + 16 + 4 * c.slot ∨ c.track + 20 + 4 * c.slot ≤ b →
          U.res.scr.get b = landedByte c i T.res.scr b)

/-- A queued sector of a copy is performed in L2 with no earlier one of its team on the same sector before it (R119). -/
def Sys2Proof.queuedSectorsRule : Prop :=
  ∀ (s : State) (die c i : Nat) (x : LandedSector), ((s.die die).writeQ.filter fun x => x.copy == c)[i]? = some x →
    (∀ y ∈ (s.die die).writeQ.takeWhile fun y => y != x, y.team = x.team → y.key ≠ x.key) →
    exec (.l2WriteQueuePerform die c i) s = .next (performLanded s die x)

/-- Sectors of copies land and are performed (R90, R97, R101, R119). -/
def Obligations.CopyLandingResults : Prop := copySectorsRule ∧ queuedSectorsRule

/-- A queue word that has come to its queue's home (R306, R307): a push finds room and no one before it and appends its words, with its
die's vector unless it is relaxed; `qpush.try` on a full queue writes 0, `qpop.try` on an empty one writes 0; a receiver
takes the first entry's eight words into its registers. A word from the home's own die is answered at once, one from another die by
a message back (R382); an insertion and a removal are noted for the waits that read the queue (R48). -/
def Obligations.QueueHomeResults : Prop :=
  ∀ (s : State) (id : Nat) (m : QueueMsg) (q : WorkQ), s.msgs.get? id = some m → s.workQs.get? (workKey m.ctx m.q) = some q →
    m.atHome = false → m.answer = none → m.hops = [] → (∀ r ∈ m.after, isSent s r = true) →
    let key := workKey m.ctx m.q
    (∃ u, exec (.queueRequestAtHome id) s = .next u) ∧
    (m.op = .push → q.entries.length < q.cap → q.pushers = [] → q.waiters = [] →
      ∃ u, exec (.queueRequestAtHome id) s = .next u ∧ (m.src = m.home → u.msgs.get? id = none) ∧
        (m.src ≠ m.home → ∃ n, u.msgs.get? id = some n ∧ n.answer = some ([], [])) ∧
        u.workQs.get? key = some { q with
          entries := q.entries ++ [⟨m.data, if m.rlx then [] else (s.die m.src).vc⟩], events := q.events + 1 }) ∧
    (m.op = .pushTry → q.cap ≤ q.entries.length → m.src = m.home →
      exec (.queueRequestAtHome id) s = .next (retireAgent (writeAgent { s with msgs := s.msgs.del id } m.team m.agent m.path m.sd 0)
        m.team m.agent m.path)) ∧
    (m.op = .popTry → q.entries = [] → m.src = m.home →
      exec (.queueRequestAtHome id) s = .next (retireAgent (writeAgent { s with msgs := s.msgs.del id } m.team m.agent m.path m.sd 0)
        m.team m.agent m.path)) ∧
    (m.op = .push → q.cap ≤ q.entries.length ∨ q.pushers ≠ [] → exec (.queueRequestAtHome id) s =
      .next { s with msgs := s.msgs.upd id (fun m => { m with atHome := true }),
                     workQs := s.workQs.upd key fun q => { q with pushers := q.pushers ++ [id] } }) ∧
    (m.op = .wait → m.rlx = true → m.src = m.home → q.pushers = [] → ∀ e rest g, q.entries = e :: rest → m.agent = some g →
      m.sa + 8 ≤ 61 → e.words.length = 8 → ∀ T G, s.teams.get? m.team = some T → T.groups.get? g = some G → G.late = [] → ∃ u U G',
        exec (.queueRequestAtHome id) s = .next u ∧ u.workQs.get? key = some { q with entries := rest, events := q.events + 1 } ∧
        u.msgs.get? id = none ∧ u.teams.get? m.team = some U ∧ U.groups.get? g = some G' ∧
        ∀ r, G'.s.getD r 0 = if m.sa ≤ r ∧ r < m.sa + 8 then e.words.getD (r - m.sa) 0 else G.s.getD r 0)

/-- Held words that time ends (R48, R49, R64, R237): a wait past its deadline writes its status, with bit 31, at a complete
evaluation; a wait that reads memory is evaluated anew; a word that has stood 4,096 ticks for rows traps; a group that has
stood 1,024 ticks at `eqp`, and is not held for a migration, goes on; that the ticks of a park on a service fault count is the model's
(log entry 64, DESIGN CHOICE). -/
def Obligations.HeldWordEvents : Prop :=
  ∀ (s : State) (t p : Nat) (T : Team), s.teams.get? t = some T → T.active = true →
    (∀ g w, holdOf s t g p = some (.wait w) → w.poll = none → (w.reads = true → exec (.waitMemwordPoll t g p) s = .next (startPoll s t g p w)) ∧
      (w.late s.refclk = true → w.reads = true → exec (.waitTimeout t g p) s = .next (startPoll s t g p w)) ∧
      (w.late s.refclk = true → w.reads = false → w.ends (w.satisfied s t g T.id.ctx) = false →
        exec (.waitTimeout t g p) s = .next (endWait s t g p w (BitVec.ofNat 32 (2 ^ 31 + w.satisfied s t g T.id.ctx))))) ∧
    (∀ g since names fresh, holdOf s t (some g) p = some (.rows since names fresh) → 4096 ≤ s.refclk - since →
      T.hasRows g names fresh = false →
      exec (.rowPoolEmpty t g p) s = .next (stopGroup s t g p (pcOf s t (some g) p) 0x05 0 0)) ∧
    (∀ g G n since, T.groups.get? g = some G → G.atEqp = some (n, since) → G.service = false → migrating T = false → 1024 ≤ s.refclk - since →
      exec (.eqpHoldTimeout t g) s = .next (passEqp s t g))

/-! ## Links (R386 to R390) -/

/-- Flits and timers of a link that is up (R384, R386, R387): an intact message flit in its turn raises EXP modulo 2^16, any
other leaves it; a bad flit, or one of a reserved TYPE, leaves EXP and a NAK that names it is outstanding; a NAK has the
flits that it names sent again; idle flits, repeated NAKs and replays go out when their times have passed. -/
def Sys2Proof.linkEventsRule : Prop :=
  ∀ (s : State) (l : Nat), linkUp s l = true →
    let x := s.link l
    (∀ w rest, x.wire = w :: rest →
      (∀ lo hi, ∃ u, exec (.flitReceive l lo hi) s = .next u) ∧
      (w.flit.type = .bytes → ∃ u, exec (.flitReceive l false false) s = .next u ∧
        (u.link l).exp = if w.flit.seq = x.exp then (x.exp + 1) % 65536 else x.exp) ∧
      (∀ lo hi, (lo || hi) = true ∨ (∃ c, w.flit.type = .reserved c) → ∃ u, exec (.flitReceive l lo hi) s = .next u ∧
        (u.link l).exp = x.exp ∧ (u.link l).nak.map (·.1) = some x.exp) ∧
      (w.flit.type = .nak → exec (.flitReceive l false false) s = .next (nakFlit (s.setLink l { x with wire := rest }) l w.flit))) ∧
    (4 < s.refclk - x.ackSince → (s.link (reverseOf l)).inService ≠ [] →
      exec (.ackIdleTimer l) s = .next (sendBare s (reverseOf l) none)) ∧
    (∀ n since, x.nak = some (n, since) → 8 ≤ s.refclk - since →
      exec (.nakRepeatTimer l) s = .next (sendBare (s.setLink l { x with nak := some (n, s.refclk) }) (reverseOf l) (some n))) ∧
    (∀ e rest, x.buf = e :: rest → 32 ≤ s.refclk - e.2 → x.inService ≠ [] →
      exec (.replayTimeout l) s = .next (resendAll (s.setLink l { x with timeouts := x.timeouts + 1 }) l))

/-- The end of a retrain (R389): the module returns, in both directions of its pair (log entry 66), on the other lane group of the
one that failed in either direction, and a module that had fallen back goes out of service. -/
def Sys2Proof.retrainResultsRule : Prop :=
  ∀ (s : State) (l m : Nat), l < 8 → m < 16 → ((s.link l).module m).retrain = true →
    let x := (s.link l).module m
    let y := (s.link (reverseOf l)).module m
    let low := 3 ≤ x.lo.length ∨ 3 ≤ y.lo.length
    let high := 3 ≤ x.hi.length ∨ 3 ≤ y.hi.length
    ∃ u, exec (.retrainComplete l m) s = .next u ∧ ∀ k, k = l ∨ k = reverseOf l →
      ((u.link k).module m).retrain = false ∧ (x.st ≠ 0 → ((u.link k).module m).st = 3) ∧
      (x.st = 0 → low → ¬high → ((u.link k).module m).st = 2) ∧ (x.st = 0 → ¬low → ((u.link k).module m).st = 1)

/-- Flits, timers and retrains of the die links (R386, R387, R389). -/
def Obligations.LinkEvents : Prop := linkEventsRule ∧ retrainResultsRule

/-- Flits on the wires (R384, R388): a flit's 128 bytes pass the CRC of each lane group; message flits sent and resent go each to
module SEQ mod M of the modules in service, in their order; one that arrives intact has the effect of its SEQ, whatever
module carried it. -/
def Obligations.FlitModules : Prop :=
  (∀ (w : Wire) (high : Bool), w.flit.body.length ≤ 112 → w.bytes.length = 128 ∧ crcGood high w.bytes = true) ∧
  ∀ (s : State) (l : Nat),
    let x := s.link l
    let own (y : Wire) : Prop := y.module = x.inService.getD (y.flit.seq % x.inService.length) 0
    (∀ m, ∃ new, ((sendOn s l m).link l).wire = x.wire ++ new ∧ ∀ y ∈ new, own y) ∧
    (∃ new, ((resendAll s l).link l).wire = x.wire ++ new ∧ ∀ y ∈ new, own y) ∧
    (∀ w rest, linkUp s l = true → x.wire = w :: rest → w.flit.type = .bytes →
      exec (.flitReceive l false false) s = .next (goodFlit (s.setLink l { x with wire := rest }) l w.flit w.ack))

/-! ## Errors, power, trace (R46, R47, R410, R421 to R427) -/

/-- Error events count (R421 to R423): a corrected error raises its counter; an uncorrectable error of a sector of memory, of a
vault, or dirty in an L2 or an L1 poisons it, raises counter 2 and sets POISONED; a core's uncorrectable error fences it; a lane
defect is noted in an empty slice's lane, a second of its lane group fences the core. -/
def Sys2Proof.errorEventsRule : Prop :=
  ∀ (s : State), s.boot.powered = true →
    (∀ k, k < 2 → exec (.eccCorrected k) s = .next (countError s k)) ∧
    (∀ pa, targetOf pa ≠ .none → ∃ u, exec (.sectorPoison 0 0 pa) s = .next u ∧ poisoned u (cellOf s pa / 64) = true ∧
      u.health.errcnt.getD 2 0 = s.health.errcnt.getD 2 0 + 1 ∧ u.health.word.getLsbD 3 = true) ∧
    (∀ off, off < 2 ^ 34 → ∃ u, exec (.sectorPoison 1 0 off) s = .next u ∧ poisoned u (vaultKey off) = true ∧
      u.health.errcnt.getD 2 0 = s.health.errcnt.getD 2 0 + 1 ∧ u.health.word.getLsbD 3 = true) ∧
    (∀ die key, ((s.die die).l2.sect key).dirty ≠ 0 → ∃ u, exec (.sectorPoison 2 die key) s = .next u ∧
      ((u.die die).l2.sect key).bad = true ∧
      u.health.errcnt.getD 2 0 = s.health.errcnt.getD 2 0 + 1 ∧ u.health.word.getLsbD 3 = true) ∧
    (∀ core key, ((s.core core).l1.sect key).dirty ≠ 0 → ∃ u, exec (.sectorPoison 3 core key) s = .next u ∧
      ((u.core core).l1.sect key).bad = true ∧
      u.health.errcnt.getD 2 0 = s.health.errcnt.getD 2 0 + 1 ∧ u.health.word.getLsbD 3 = true) ∧
    (∀ core lost, core < 128 → (s.core core).fenced = false → ∃ u, exec (.coreUncorrectableError core lost) s = .next u ∧
      (u.core core).fenced = true ∧ u.health.word.getLsbD 0 = true ∧ u.health.word.getLsbD 1 = true ∧
      u.health.errcnt.getD 3 0 = s.health.errcnt.getD 3 0 + 1 ∧
      ∀ f x, u.fields.get? f = some x → x.cores.getLsbD core = false) ∧
    (∀ core slice lane, core < 128 → slice < coreSlices core → lane < sliceLanes core → (s.core core).fenced = false →
      ∃ u, exec (.laneDefect core slice lane) s = .next u ∧ u.health.errcnt.getD 4 0 = s.health.errcnt.getD 4 0 + 1 ∧
        ((∃ d ∈ (s.core core).remapped, d / 128 = slice ∧ d % 128 / 32 = lane / 32) → (u.core core).fenced = true) ∧
        ((∀ d ∈ (s.core core).remapped ++ (s.core core).defects, ¬ (d / 128 = slice ∧ d % 128 / 32 = lane / 32)) →
          sliceGroups s core slice = 0 → 128 * slice + lane ∈ (u.core core).remapped))

/-- Power and heat (R426, R427): a throttle sets the clocks to its sixteenths, and THROTTLE of HEALTH where they are fewer
than all; the thermal throttle's clocks, which the model leaves open, lie below nominal and not below a quarter; a trip
counts a class-7 error and sets REPLACE; a coolant fault removes power. -/
def Sys2Proof.powerEventsRule : Prop :=
  ∀ (s : State), s.boot.powered = true →
    (∀ n, 4 ≤ n → n ≤ 16 → ∃ u, exec (.powerThrottle n) s = .next u ∧ u.health.clock = n ∧
      u.health.word.getLsbD 2 = decide (n < 16)) ∧
    (∀ die, die < 4 → 4 ≤ s.health.clock → ∃ u, exec (.thermalThrottle die) s = .next u ∧ 4 ≤ u.health.clock ∧ u.health.clock ≤ 15 ∧
      u.health.clock ≤ s.health.clock ∧ u.health.word.getLsbD 2 = true) ∧
    (∀ die, die < 4 → ∃ u, exec (.thermalTrip die) s = .next u ∧ u.health.word.getLsbD 0 = true ∧
      u.health.errcnt.getD 7 0 = s.health.errcnt.getD 7 0 + 1) ∧
    exec .coolantFault s = .next (losePower s)

/-- Locality scores and sampling (R46, R47, R410): scores halve once in 4,096 slice clocks; once in 512 the cap falls to no
less than 2 above LL_HIGH, rises to no more than the active set below LL_LOW, and stays between; a tag that comes due
draws the next countdown and marks the slice, or is counted as skipped where one is under way. -/
def Obligations.LocalityEvents : Prop :=
  ∀ (s : State) (core : Nat),
    ((s.core core).llHalved < s.coreClock core / 4096 → exec (.llScoreHalve core) s = .next
      (mapScores (s.setCore core { s.core core with llHalved := (s.core core).llHalved + 1 }) core fun n => n / 2)) ∧
    ((s.core core).llCapped < s.coreClock core / 512 → ∃ u, exec (.llCapUpdate core) s = .next u ∧
      (u.core core).llSum = scoreSum s core ∧ u.teams = s.teams ∧
      (u.core core).llCap =
        if (s.core core).llHigh < scoreSum s core then max 2 ((s.core core).llCap - 1)
        else if scoreSum s core < (s.core core).llLow then min (if core % 32 < 24 then 8 else 4) ((s.core core).llCap + 1)
        else (s.core core).llCap) ∧
    (∀ slice, s.trace.enable = true → s.trace.meanlog ≠ 0 → (s.slice core slice).count = some 0 →
      ∃ u, exec (.sampleTag core slice) s = .next u ∧
        (u.core core).sampleSkip = (if (s.slice core slice).tag ≠ none ∨ (s.slice core slice).due = true
          then (s.core core).sampleSkip + 1 else (s.core core).sampleSkip) ∧
        ((s.slice core slice).tag = none → (u.slice core slice).due = true))

/-! ## Registers, windows, resets (R346 to R348, R402, R414 to R420) -/

/-- The driver's register writes, through a link that is up (R347, R348, R414, R423): reserved bits read 0; QTBASE while EN is 1
changes only where EN is cleared; QTLEN is written while EN is 0, IMGADDR in STATE 1 or 4; CXLDEC takes 0 to 2; the links and
ports go up and down. That clearing EN empties the orphan latches is the model's (log entry 37, DEDUCED). -/
def Sys2Proof.registerWriteResultsRule : Prop :=
  ∀ (s : State) (v : Dword), (barOpen s = true →
    (s.hg.en = false → exec (.qtbaseWrite v) s = .next { s with hg := { s.hg with qtbase := v &&& 0x000FFFFFFFFF0001 } }) ∧
    (s.hg.en = true → v.getLsbD 0 = true → exec (.qtbaseWrite v) s = .next s) ∧
    (s.hg.en = true → v.getLsbD 0 = false → ∃ u, exec (.qtbaseWrite v) s = .next u ∧ u.hg.en = false ∧ u.hg.slots = [] ∧
      u.hg.orphans = [] ∧ u.teams = s.teams) ∧
    (v.toNat % 4 = 3 → exec (.cxldecWrite v) s = .next s) ∧
    (v.toNat % 4 < 3 → (∀ e ∈ s.reqs, e.2.stage = .sent → targetOf e.2.pa ≠ .cxl) →
      exec (.cxldecWrite v) s = .next { s with hg := { s.hg with cxldec := v.toNat % 4 } }) ∧
    (s.hg.en = false → exec (.registerWrite 0x010208 v) s = .next { s with hg := { s.hg with qtlen := v.setWidth 32 &&& 0x7FF } }) ∧
    (s.hg.en = true → exec (.registerWrite 0x010208 v) s = .next s) ∧
    exec (.registerWrite 0x000008 v) s =
      .next (if s.boot.st = 1 ∨ s.boot.st = 4 then { s with boot := { s.boot with img := v } } else s) ∧
    exec (.registerWrite 0x4FF014 v) s = .next { s with health := { s.health with vec := v.setWidth 32 &&& 0x800007FF } } ∧
    (∀ k h, k < 32 → h < 2 →
      let old : Window := s.hg.windows.getD k 0
      let new : Window := if h = 1 then v ++ old.extractLsb' 0 64 else old.extractLsb' 64 64 ++ (v &&& 0x00000FFFFF000007)
      exec (.registerWrite (0x010000 + 16 * k + 8 * h) v) s = .next { s with hg := { s.hg with windows := s.hg.windows.put k new } })) ∧
    (s.boot.powered = true → ∀ l up, l < 2 → exec (.culvertLinkStateChange l up) s = .next (s.setDie l { s.die l with portUp := up }) ∧
      exec (.cxlPortStateChange l up) s = .next (s.setDie (2 + l) { s.die (2 + l) with portUp := up }))

/-- Window accesses (R346): one of a forbidden kind, beyond SIZE, or to a protected or absent context is answered with an
error, all ones where it reads; another becomes a request of the link's die at its target address. That an access takes at most
one sector is the model's (log entry 45, DESIGN CHOICE). -/
def Sys2Proof.windowAccessResultsRule : Prop :=
  ∀ (s : State) (link win off len : Nat) (wr : Bool) (data : List Byte), s.boot.powered = true → link < 2 → win < 16 → off < 2 ^ 36 →
    0 < len → (s.die link).portUp = true →
    let w := s.hg.windows.getD (16 * link + win) 0
    let va := 65536 * (w.toNat / 2 ^ 64 % 2 ^ 48) + off
    va % 64 + len ≤ 64 → (wr = true → data.length = len) →
    (windowRefuses s w off len wr = true → exec (.hostWindowAccess link win off len wr data) s =
      .next { s with completions := (true, if wr then [] else List.replicate len 0xFF) :: s.completions }) ∧
    (windowRefuses s w off len wr = false → ∃ u r, exec (.hostWindowAccess link win off len wr data) s = .next u ∧
      u = { s with nextId := s.nextId + 1, reqs := s.reqs.put s.nextId r } ∧ r.va = va ∧ r.die = link ∧ r.who = .host ∧ r.stage = .walk ∧
      r.kind = (if wr then .write else .read) ∧ r.phys = w.getLsbD 2 ∧ (w.getLsbD 2 = false → r.ctx = w.toNat / 2 ^ 112))

/-- The ROM (R414 to R418): through a link that is up GO with 1 in STATE 1 or 4 starts a load with nothing read, and is ignored
otherwise; a load reads what is left of the image and makes its checks, the header's and then the body's; where all pass it
ends in STATE 3 with FUSECNT raised to the image's level, and else in STATE 4 with the code of the first failing check, 1 to 7,
and FUSECNT as it was. -/
def Obligations.BootResults : Prop :=
  ∀ (s : State),
    (barOpen s = true → ∀ v : Word, exec (.go v) s =
      .next (if v = 1 ∧ (s.boot.st = 1 ∨ s.boot.st = 4)
        then { s with boot := { s.boot with st := 2, code := 0, copy := [], readError := false } } else s)) ∧
    (s.boot.st = 2 → ∃ u b, exec .bootLoadComplete s = .next u ∧ (loadImage s).2 = { s with boot := b } ∧
      u.teams = s.teams ∧ u.store = s.store ∧ b.fuse = s.boot.fuse ∧
      if headerCode b ≠ 0 then u = { s with boot := { b with st := 4, code := headerCode b } } ∧ headerCode b ≤ 5
      else if bodyCode b ≠ 0 then u = { s with boot := { b with st := 4, code := bodyCode b } } ∧ bodyCode b ≤ 7
      else u.boot.st = 3 ∧ u.boot.code = 0 ∧ u.boot.fuse = max s.boot.fuse b.level ∧ u.boot.rollback = b.level)

/-- The device before its self-test, after a reset (R420): nothing but FUSECNT of the ROM's state and its defective lanes, and no
byte of the device's memories; the model's own counters, its inputs and what the host has been told are not the device's. The
values that the registers then have, and blank memories, are the model's where the spec gives none (log entries 2, 5,
41). -/
def Sys2Proof.afterReset (s u : State) (st : Nat) (on : Bool) : Prop :=
  u = { State.reset with
    store := { State.reset.store with pa := u.store.pa }
    boot := { Boot.reset with st, powered := on, fuse := u.boot.fuse }
    health := { Health.reset with faulty := s.health.faulty }
    irqs := u.irqs, completions := u.completions, nextId := u.nextId, free := u.free, agenda := u.agenda } ∧
  s.boot.fuse ≤ u.boot.fuse ∧ (s.boot.st ≠ 2 → u.boot.fuse = s.boot.fuse) ∧
  ∀ a, targetOf a ≠ .host → u.store.pa.get a = State.reset.store.pa.get a

/-- Every kind of reset leaves the same device, at once and whatever it was doing (R420): no context, field, queue or team, no
key, no generation, no counter, no lane fallback; STATE 1; FUSECNT never cleared; then the self-test finds the defective lanes
again (R422), and nothing more happens where there are none. RESETREQ resets with its key alone; a loss of power leaves the
device off. -/
def Obligations.ResetResults : Prop :=
  ∀ (s : State),
    (barOpen s = true →
      (∃ u, exec (.resetreq 0xD0E5) s = .next (selfTest u) ∧ afterReset s u 1 true) ∧
      (∀ v, v ≠ 0xD0E5 → exec (.resetreq v) s = .next s)) ∧
    (s.boot.powered = true →
      (∃ u, exec .deviceReset s = .next (selfTest u) ∧ afterReset s u 1 true) ∧
      (∃ u, exec .powerLoss s = .next u ∧ afterReset s u 0 false)) ∧
    (s.boot.powered = false → ∃ u, exec .powerOnReset s = .next (selfTest u) ∧ afterReset s u 1 true) ∧
    (s.health.faulty = [] → selfTest s = s)

/-! ## Teams come and go (R331 to R338, R354 to R357, R374 to R380, R392, R397) -/

/-- Admission and the ends of residence (R354, R357, R374, R376, R377, R392): a launch that a core admits gets its next team
there; a drain's or a service fault's limit begins a save; a team at rest is saved; the clear sequence ends in the core's
new world with its caches empty. -/
def Sys2Proof.residenceEventsRule : Prop :=
  ∀ (s : State) (t : Nat) (T : Team),
    (∀ k l rest u, admissionOrder s = (k, l) :: rest → ((s.ctx l.ctx).prot = true → keySeated s l.ctx = true) →
      admitLaunch s k l = some u → exec .teamAdmit s = .next u) ∧
    (∀ l n m c, placeFor s l.fieldNo l.pref l.ctx (l.need l.pref) (soloOk s l) = some c → l.batch = [n] →
      ∃ u U, admitLaunch s m l = some u ∧ u.teams.get? s.nextId = some U ∧ U.id.ctx = l.ctx ∧ U.id.num = n ∧ U.id.core = c ∧
        U.stat = .resident ∧ U.halted = false) ∧
    (s.teams.get? t = some T → T.halted = false → T.stat = .resident →
      (∀ d, T.drain = some d → d < s.refclk → exec (.drainTimeout t) s = .next (startSave s t)) ∧
      ((∃ f ∈ faultsOf s t, svcLimit s T.id.ctx < s.refclk - f.2.since) →
        exec (.serviceLimitExpiry t) s = .next (startSave s t)) ∧
      ∃ U, (startSave s t).teams.get? t = some U ∧ U.stat = .saving ∧ U.drain = none) ∧
    (s.teams.get? t = some T → saveReady s t T = true → exec (.teamSaveComplete t) s = .next (saveTeam s t)) ∧
    (∀ core w, (s.core core).world = .clearing w → (s.core core).fenced = false →
      ∃ u, exec (.clearSequenceDone core) s = .next u ∧ (u.core core).l1 = ⟨[], [], []⟩ ∧ (u.core core).icache = [] ∧
        (u.core core).remap = [] ∧ (u.core core).victims = [] ∧ (u.core core).world = (match w with | some c => .prot c | none => .ordinary))

/-- Restoration, migration and rewriting (R331 to R342, R380, R392, R397, R398): a saved team whose faults are answered is restored
where a core of its kind admits it; a drained team whose groups wait at one point, its results written, stops with MIGRATE_MISMATCH
where it fails a check, or with INTEGRITY_FAULT where its directory cannot be read whole (R284, R421), goes on where no core admits
it, has a core cleared for it where one must be, and else moves to the other kind; that it first sends its writes home is the
model's (log entry 35, DEDUCED). A parked key that is wanted is seated where its record opens and a slot is free, and where none is,
another key begins to be parked; which one may be is the model's for a context never scheduled (log entry 74, DEDUCED). The parked
references to a forwarded range are rewritten; that this event may be repeated, and that the move lasts while any reference is left,
is the model's (log entry 35, DESIGN CHOICE). -/
def Sys2Proof.movementEventsRule : Prop :=
  ∀ (s : State) (t : Nat) (T : Team) (l : Launch), s.teams.get? t = some T → launchOf s T = some l →
    (∀ slot ok, T.stat = .saved slot ok → restorable s t T = true → restoreOther s t slot T l = none →
      (∀ c, placeFor s l.fieldNo T.id.image T.id.ctx (T.need l T.id.image) (soloOk s l) = some c →
        exec (.teamRestore t) s = .next (restoreTeam s t c slot)) ∧
      (∀ c, spotFor s l.fieldNo T.id.image T.id.ctx (T.need l T.id.image) (soloOk s l) = .clear c →
        exec (.teamRestore t) s = .next (beginClear s c T.id.ctx))) ∧
    (∀ n v V, eqpReady T ≠ none → T.active = true → drained s t T = true → landTeam s t = v → v.teams.get? t = some V →
      eqpReady V = some n →
      let target := imageOf V.target
      let table := mapTable v V.id.ctx (l.num 40 8) n target
      let bad := mapFails v V.id.ctx (l.num 40 8) n target
      (∀ x, bad = some x → exec (.migration t) s = .next (failMove v t V x)) ∧
      (∀ d, bad = none → migrateCheck V l target table = some d → exec (.migration t) s = .next (failMove v t V (0x10, d))) ∧
      (∀ m, bad = none → table = some m → migrateCheck V l target table = none →
        let spot := spotFor v l.fieldNo target V.id.ctx (moveNeed V l target m) (fun _ => true)
        (spot = .nowhere → exec (.migration t) s = .next (passAll v t)) ∧
        (∀ c, spot = .clear c → exec (.migration t) s = .next (beginClear v c V.id.ctx)) ∧
        (∀ c, spot = .core c → leavesDirty v t V = true → exec (.migration t) s = .next (leaveHome v t V)) ∧
        (∀ c, spot = .core c → leavesDirty v t V = false → leftSent v V = true →
          exec (.migration t) s = .next (migrateTo v t c n target V l m)))) ∧
    (∀ ctx k slot u, s.keys.parked.contains ctx = true → wantsKey s ctx = true → openRecord s ctx = some k →
      let place := keyPlace s fun x => (s.ctxLive x).sched != 0
      (place = .free slot → exec (.keyReseat ctx) s = .next (seatKey s slot ctx k)) ∧
      (place = .parks u → exec (.keyReseat ctx) s = .next u)) ∧
    (∀ ctx k x, ((s.core 0).fwd.getD ctx [])[k]? = some x → x.getLsbD 63 = true → (∀ y ∈ (s.ctxLive ctx).moving, y = rangeOf x) →
      ∃ u, exec (.referenceRewrite ctx k) s = .next u ∧
        (u.teams = s.teams.mapVals fun _ y => if y.id.ctx = ctx then y.moved (rangeOf x) else y) ∧
        (u.ctxLive ctx).moving =
          if u.teams.any (fun e => e.2.id.ctx == ctx && e.2.refers (rangeOf x)) then some (rangeOf x) else none)

/-- Errors, power and heat (R421 to R427). -/
def Obligations.ErrorAndPowerEvents : Prop := errorEventsRule ∧ powerEventsRule

/-- The driver's registers and windows (R346 to R348, R414, R423). -/
def Obligations.RegisterAndWindowAccess : Prop := registerWriteResultsRule ∧ windowAccessResultsRule

/-- Teams come, go and move (R331 to R338, R354 to R357, R374 to R380, R392, R397). -/
def Obligations.TeamMovement : Prop := residenceEventsRule ∧ movementEventsRule

/-! ## Words, clauses and steps (R186 to R199) -/

/-- The end of a word (R186, R188): a word that retires moves its path to the next word of its clause, or past it, and one
that transfers control ends the clause; of the group nothing else changes, and the team counts a clause at its end. The
switch marker then writes every result of fixed latency, and parks the group, and its path if it can run, where other results
are outstanding; the park is long where one of them is. -/
def Sys2Proof.wordEndRule : Prop :=
  ∀ (s : State) (e : Env), issuer s = .group e → e.path.hold.all Hold.unmarked = true →
    GroupOnly s (retire false e s) e (fun G => G = { e.grp with paths := G.paths } ∧ PathOnly e G fun P => P = e.path.advance) ∧
    ((retire false e s).teams.get? e.t).map (·.clauses) = some (e.team.clauses + if e.last then 1 else 0) ∧
    (∀ a, GroupOnly s (take false e s a) e
      (fun G => G = { e.grp with paths := G.paths } ∧ PathOnly e G fun P => P = e.path.jump a)) ∧
    (∀ a, ((take false e s a).teams.get? e.t).map (·.clauses) = some (e.team.clauses + 1)) ∧
    ∃ T G, (marked true e s).teams.get? e.t = some T ∧ T.groups.get? e.g = some G ∧ G.late = [] ∧
      (outstanding (landAll s e.t e.g) e.t e.g = true → G.park = true ∧ G.longPark = awaitsLong (landAll s e.t e.g) e.t e.g ∧
        (G.paths.get? e.p).map (·.st) = some (if e.path.st = 0 then 3 else e.path.st)) ∧
      (outstanding (landAll s e.t e.g) e.t e.g = false → G.park = e.grp.park)

/-- A stopping trap of a group (R202, R238, R239, R379): the team is halted, one that is being saved stands again; the group, unless
it has a record already, records the code, the detail, the data address, the word's address, its path, its path's mask, and whether
no other record is the cause; in emulation mode codes 1 and 3 become 0x11 with detail 0. Its other fields, its siblings, which stop
because the team is halted, and all else stay; a path that stands at the word is held there no longer. The first bytes of the stop
record show it. -/
def Sys2Proof.stopRecordRule : Prop :=
  ∀ (s : State) (t g p code detail : Nat) (pc addr : Dword) (T : Team) (G : Group), s.teams.get? t = some T → T.groups.get? g = some G →
    ∃ U H, (stopGroup s t g p pc code detail addr).teams.get? t = some U ∧ U.groups.get? g = some H ∧
      stopGroup s t g p pc code detail addr = { s with teams := (stopGroup s t g p pc code detail addr).teams } ∧
      (∀ n, n ≠ t → (stopGroup s t g p pc code detail addr).teams.get? n = s.teams.get? n) ∧
      U = { T with halted := true, stat := U.stat, groups := U.groups } ∧
      (U.stat = if T.stat = .saving ∧ T.halted = false then .resident else T.stat) ∧
      (∀ n, n ≠ g → U.groups.get? n = T.groups.get? n) ∧ (G.stop.isSome = true → H = G) ∧
      (G.stop = none →
        let c := if G.emu.isSome = true ∧ (code = 1 ∨ code = 3) then 0x11 else code
        let d := if c = 0x11 then 0 else detail
        ∃ r, H = { G with stop := some r, paths := H.paths } ∧
          (∀ n, H.paths.get? n = (G.paths.get? n).map fun P => if n = p ∧ P.pc = pc then { P with hold := none } else P) ∧
          r.code = c ∧ r.detail = d ∧ r.addr = addr ∧ r.pc = pc ∧ r.path = p ∧ r.mask = ((G.paths.get? p).map (·.mask)).getD 0 ∧
          (r.cause = true ↔ (∀ x ∈ T.groups, ∀ y ∈ x.2.stop, y.cause = false) ∧ (∀ y ∈ T.flume.stop, y.cause = false) ∧
            ∀ y ∈ T.sluice.stop, y.cause = false) ∧
          ∀ v W, (stopRecord v W H).take 12 =
            [BitVec.ofNat 8 c, if r.cause then 1 else 0, BitVec.ofNat 8 d, BitVec.ofNat 8 (d / 256)] ++
              (List.range 8).map fun k => addr.extractLsb' (8 * k) 8)

/-- The end of a word, and the stop that a trap makes of it (R186, R188, R202, R238, R239, R379). -/
def Obligations.WordEnd : Prop := wordEndRule ∧ stopRecordRule

/-- From this state a slice takes its clock in the next step: it has the turn, or the agenda names it; b is the state in
which it chooses. -/
def Sys2Proof.sliceTurn (s : State) (core k : Nat) (b : State) : Prop :=
  (s.agenda = [] ∧ nextStation s = some (.slice core k) ∧ b = { s with turn := (Station.slice core k).key s + 1 }) ∨
  ∃ rest, s.agenda = .clock core [k] :: rest ∧ b = { s with agenda := rest }

/-- In its clock, in which its groups wait one clock less after a division (R208), a slice chooses a group and its path (R41,
R45); u is the state in which the path issues. -/
def Sys2Proof.sliceChooses (s : State) (u : State) (e : Env) : Prop :=
  ∃ core k b, sliceTurn s core k b ∧ k < coreSlices core ∧
    let r := refill (easeBusy (fun c => if c = core then 1 else 0) (fun _ g => [k].contains g.slice) b) core k
    chooseGroup r core k = some (e.t, e.g) ∧ choosePath r e.t e.g = some e.p ∧
    u = selectPath { r.setSlice core k ((r.slice core k).clocked (some (e.t, e.g))) with cur := some ⟨e.t, .group e.g⟩ } e.t e.g e.p ∧
    issuer u = .group e

/-- A step in which a path issues its word w from state u with this outcome. -/
def Sys2Proof.issues (s u : State) (e : Env) (w : Word) (o : State → Out) : Prop :=
  step s = onNext (onNext (o (prepare u e w)) fun v => settleWord u v e) (afterStep s)

/-- A step runs the decoded instruction (R41, R45, R186, R199). Where a slice has its clock, it chooses a group and a path; where
the path stands at a word, the step is what
its instruction does to the state in which the counts of the issue and the results due have been made, and after it the
marks of sampling and of a released path, then what ends every step. A word of a reserved major runs the emulation entry; a
word that its class does not accept, that has no form, that may not stand there, or whose fields are refused stops the
team with the code and the detail of the first check that fails. A path at a header runs the header that its bytes give, a
sequencer that has the turn its word in the same way, and an event of the agenda happens as it is; where nobody is ready, a
reference tick passes. The turns and the agenda are the model's (log entry 1). -/
def Obligations.StepRunsDecoded : Prop :=
  (∀ (s u : State) (e : Env) (c : Clause) (w : Word) (rest : List Word),
    sliceChooses s u e → comparatorHit u e = false → e.path.clause = some c → c.words = w :: rest →
    let cls := classOf c.header
    let stop (code detail : Nat) (v : State) : Out := .next (stopGroup v e.t e.g e.p e.path.pc code detail 0)
    (majorOf w = 0 → issues s u e w (stop 0x01 1)) ∧
    (0x38 ≤ majorOf w → issues s u e w (exec (.emulationEntry w))) ∧
    (majorOf w ≠ 0 → majorOf w < 0x38 → classAccepts cls (majorOf w) = false → issues s u e w (stop 0x02 0)) ∧
    (majorOf w ≠ 0 → majorOf w < 0x38 → classAccepts cls (majorOf w) = true →
      (parse w = .unallocated → issues s u e w (stop 0x01 1)) ∧
      (∀ i, (placeOf (majorOf w) i).group cls = false → parse w = .ok i ∨ parse w = .reserved i → issues s u e w (stop 0x01 2)) ∧
      (∀ i, (placeOf (majorOf w) i).group cls = true →
        (parse w = .reserved i → issues s u e w (stop 0x01 (reservedField i).detail)) ∧
        (∀ x, parse w = .ok i → i.check = some x → issues s u e w (stop 0x01 x.detail)) ∧
        (decodeWord w = .ok i → issues s u e w (exec i))))) ∧
  (∀ (s u : State) (e : Env) (i : Instr),
    sliceChooses s u e → comparatorHit u e = false → e.path.clause = none →
    forwarded u e.team.id.core e.team.id.ctx e.path.pc.toNat = e.path.pc.toNat → cached u e.team e.path.pc.toNat 4 →
    decodeHeader ((wordsOf (cachedBytes u e.team e.path.pc.toNat 4)).headD 0) = some i →
    step s = onNext (onNext (exec i u) fun v => settlePass v e) (afterStep s)) ∧
  (∀ (s : State) (t : Nat) (flume : Bool) (e : SeqEnv) (c : Clause) (w : Word) (rest : List Word) (i : Instr),
    s.agenda = [] → nextStation s = some (.seq t flume) →
    let u := { s with turn := (Station.seq t flume).key s + 1, cur := some ⟨t, if flume then .flume else .sluice⟩ }
    issuer u = .seq e → seqMay u e = true → e.seq.clause = some c → c.words = w :: rest → fiterWaits e w = false →
    classAccepts (classOf c.header) (majorOf w) = true → majorOf w ≠ 0 → majorOf w < 0x38 →
    decodeWord w = .ok i → (placeOf (majorOf w) i).seq e.flume (classOf c.header) = true →
    step s = onNext (onNext (exec i u) (countSeqSkid e)) (afterStep s)) ∧
  (∀ (s : State) (i : Instr) (rest : List Input), isEvent i = true → s.agenda = .event i :: rest →
    step s = onNext (exec i { s with agenda := rest }) (afterStep s)) ∧
  (∀ s : State, s.agenda = [] → nextStation s = none → step s = .next (afterStep s (tick 1 { s with turn := 0 })))

/-- Words that the manual writes out (R199, R203, R222, R241) decode to the instructions that it gives them for. -/
def Obligations.WrittenWords : Prop :=
  decodeWord 0x06186FFF = .ok (.saddi false 6 6 0xFFF) ∧
  decodeWord 0x11EFFFFE = .ok (.brNz false 6 0xFFFFE) ∧
  decodeWord 0x48410089 = .ok (.vld false 2 4 1 4 true) ∧
  decodeWord 0x1FFC0000 = .ok (.emretSkip false 0) ∧
  decodeWord 0x20010480 = .ok (.nmove false 4 9) ∧
  decodeWord 0x22210A03 = .ok (.ntake false 4 20 3) ∧
  decodeHeader 0x20000000 = some (.clauseHeader 2 0 0 0 false) ∧
  decodeHeader 0x22000000 = some (.clauseHeader 2 1 0 0 false)

/-- Every well-formed instruction that has a word is read back from it with every operand: a clause header as a header, every
other as a word (R184, R193 to R197). -/
def Obligations.EncodeDecode : Prop :=
  (∀ (i : Instr) (w : Word), i.check = none → encode i = some w → (∀ n c sel l y, i ≠ .clauseHeader n c sel l y) →
    decodeWord w = .ok i) ∧
  (∀ n c sel l y, ∃ w, encode (.clauseHeader n c sel l y) = some w ∧ decodeHeader w = some (.clauseHeader n c sel l y))

/-- No word is read as an instruction that would be written otherwise: what a word decodes to is well formed and encodes to
that word, so no bit is dropped and no two words share a meaning (R184, R194, R197, R198). -/
def Obligations.DecodeEncode : Prop :=
  (∀ (w : Word) (i : Instr), decodeWord w = .ok i → i.check = none ∧ encode i = some w) ∧
  (∀ (w : Word) (i : Instr), decodeHeader w = some i → encode i = some w)

/-! ## The memory behind the homes -/

/-- Every step keeps the memory behind the homes in its canonical form: equal memories are equal data. The form is the
model's own (log entry 2). -/
def Obligations.StoreFormKept : Prop := ∀ s : State, StoreInv s → Keeps (step s) StoreInv

/-- The memory has that form after reset. -/
def Obligations.StoreFormAtReset : Prop := StoreInv State.reset
end

