-- ==== Sys2Proof/Laws/Dispatch.lean ====
section
/-! SUPPORT. What `exec` calls for each instruction. -/

namespace Sys2Proof.Machine

theorem exec_clauseHeader (x0 : BitVec 4) (x1 : BitVec 3) (x2 : BitVec 4) (x3 : BitVec 5) (x4 : Bool) (s : State) : exec (.clauseHeader x0 x1 x2 x3 x4) s = execClauseHeader x0 x1 x2 x3 x4 s := rfl
theorem exec_pfx (x0 : Bool) (x1 : BitVec 3) (x2 : BitVec 3) (x3 : BitVec 3) (x4 : BitVec 3) (s : State) : exec (.pfx x0 x1 x2 x3 x4) s = execPfx x0 x1 x2 x3 x4 s := rfl
theorem exec_sadd (x0 : Bool) (x1 : BitVec 6) (x2 : BitVec 6) (x3 : BitVec 6) (s : State) : exec (.sadd x0 x1 x2 x3) s = execSadd x0 x1 x2 x3 s := rfl
theorem exec_ssub (x0 : Bool) (x1 : BitVec 6) (x2 : BitVec 6) (x3 : BitVec 6) (s : State) : exec (.ssub x0 x1 x2 x3) s = execSsub x0 x1 x2 x3 s := rfl
theorem exec_smul (x0 : Bool) (x1 : BitVec 6) (x2 : BitVec 6) (x3 : BitVec 6) (s : State) : exec (.smul x0 x1 x2 x3) s = execSmul x0 x1 x2 x3 s := rfl
theorem exec_smulwI32 (x0 : Bool) (x1 : BitVec 6) (x2 : BitVec 6) (x3 : BitVec 6) (s : State) : exec (.smulwI32 x0 x1 x2 x3) s = execSmulwI32 x0 x1 x2 x3 s := rfl
theorem exec_smulwN32 (x0 : Bool) (x1 : BitVec 6) (x2 : BitVec 6) (x3 : BitVec 6) (s : State) : exec (.smulwN32 x0 x1 x2 x3) s = execSmulwN32 x0 x1 x2 x3 s := rfl
theorem exec_sdivI32 (x0 : Bool) (x1 : BitVec 6) (x2 : BitVec 6) (x3 : BitVec 6) (s : State) : exec (.sdivI32 x0 x1 x2 x3) s = execSdivI32 x0 x1 x2 x3 s := rfl
theorem exec_sdivN32 (x0 : Bool) (x1 : BitVec 6) (x2 : BitVec 6) (x3 : BitVec 6) (s : State) : exec (.sdivN32 x0 x1 x2 x3) s = execSdivN32 x0 x1 x2 x3 s := rfl
theorem exec_sremI32 (x0 : Bool) (x1 : BitVec 6) (x2 : BitVec 6) (x3 : BitVec 6) (s : State) : exec (.sremI32 x0 x1 x2 x3) s = execSremI32 x0 x1 x2 x3 s := rfl
theorem exec_sremN32 (x0 : Bool) (x1 : BitVec 6) (x2 : BitVec 6) (x3 : BitVec 6) (s : State) : exec (.sremN32 x0 x1 x2 x3) s = execSremN32 x0 x1 x2 x3 s := rfl
theorem exec_sand (x0 : Bool) (x1 : BitVec 6) (x2 : BitVec 6) (x3 : BitVec 6) (s : State) : exec (.sand x0 x1 x2 x3) s = execSand x0 x1 x2 x3 s := rfl
theorem exec_sor (x0 : Bool) (x1 : BitVec 6) (x2 : BitVec 6) (x3 : BitVec 6) (s : State) : exec (.sor x0 x1 x2 x3) s = execSor x0 x1 x2 x3 s := rfl
theorem exec_sxor (x0 : Bool) (x1 : BitVec 6) (x2 : BitVec 6) (x3 : BitVec 6) (s : State) : exec (.sxor x0 x1 x2 x3) s = execSxor x0 x1 x2 x3 s := rfl
theorem exec_sandn (x0 : Bool) (x1 : BitVec 6) (x2 : BitVec 6) (x3 : BitVec 6) (s : State) : exec (.sandn x0 x1 x2 x3) s = execSandn x0 x1 x2 x3 s := rfl
theorem exec_sshl (x0 : Bool) (x1 : BitVec 6) (x2 : BitVec 6) (x3 : BitVec 6) (s : State) : exec (.sshl x0 x1 x2 x3) s = execSshl x0 x1 x2 x3 s := rfl
theorem exec_sshr (x0 : Bool) (x1 : BitVec 6) (x2 : BitVec 6) (x3 : BitVec 6) (s : State) : exec (.sshr x0 x1 x2 x3) s = execSshr x0 x1 x2 x3 s := rfl
theorem exec_ssra (x0 : Bool) (x1 : BitVec 6) (x2 : BitVec 6) (x3 : BitVec 6) (s : State) : exec (.ssra x0 x1 x2 x3) s = execSsra x0 x1 x2 x3 s := rfl
theorem exec_sminI32 (x0 : Bool) (x1 : BitVec 6) (x2 : BitVec 6) (x3 : BitVec 6) (s : State) : exec (.sminI32 x0 x1 x2 x3) s = execSminI32 x0 x1 x2 x3 s := rfl
theorem exec_sminN32 (x0 : Bool) (x1 : BitVec 6) (x2 : BitVec 6) (x3 : BitVec 6) (s : State) : exec (.sminN32 x0 x1 x2 x3) s = execSminN32 x0 x1 x2 x3 s := rfl
theorem exec_smaxI32 (x0 : Bool) (x1 : BitVec 6) (x2 : BitVec 6) (x3 : BitVec 6) (s : State) : exec (.smaxI32 x0 x1 x2 x3) s = execSmaxI32 x0 x1 x2 x3 s := rfl
theorem exec_smaxN32 (x0 : Bool) (x1 : BitVec 6) (x2 : BitVec 6) (x3 : BitVec 6) (s : State) : exec (.smaxN32 x0 x1 x2 x3) s = execSmaxN32 x0 x1 x2 x3 s := rfl
theorem exec_saddB64 (x0 : Bool) (x1 : BitVec 6) (x2 : BitVec 6) (x3 : BitVec 6) (s : State) : exec (.saddB64 x0 x1 x2 x3) s = execSaddB64 x0 x1 x2 x3 s := rfl
theorem exec_ssubB64 (x0 : Bool) (x1 : BitVec 6) (x2 : BitVec 6) (x3 : BitVec 6) (s : State) : exec (.ssubB64 x0 x1 x2 x3) s = execSsubB64 x0 x1 x2 x3 s := rfl
theorem exec_smulB64 (x0 : Bool) (x1 : BitVec 6) (x2 : BitVec 6) (x3 : BitVec 6) (s : State) : exec (.smulB64 x0 x1 x2 x3) s = execSmulB64 x0 x1 x2 x3 s := rfl
theorem exec_saddwI32 (x0 : Bool) (x1 : BitVec 6) (x2 : BitVec 6) (x3 : BitVec 6) (s : State) : exec (.saddwI32 x0 x1 x2 x3) s = execSaddwI32 x0 x1 x2 x3 s := rfl
theorem exec_saddwN32 (x0 : Bool) (x1 : BitVec 6) (x2 : BitVec 6) (x3 : BitVec 6) (s : State) : exec (.saddwN32 x0 x1 x2 x3) s = execSaddwN32 x0 x1 x2 x3 s := rfl
theorem exec_sshlB64 (x0 : Bool) (x1 : BitVec 6) (x2 : BitVec 6) (x3 : BitVec 6) (s : State) : exec (.sshlB64 x0 x1 x2 x3) s = execSshlB64 x0 x1 x2 x3 s := rfl
theorem exec_sshrB64 (x0 : Bool) (x1 : BitVec 6) (x2 : BitVec 6) (x3 : BitVec 6) (s : State) : exec (.sshrB64 x0 x1 x2 x3) s = execSshrB64 x0 x1 x2 x3 s := rfl
theorem exec_ssraB64 (x0 : Bool) (x1 : BitVec 6) (x2 : BitVec 6) (x3 : BitVec 6) (s : State) : exec (.ssraB64 x0 x1 x2 x3) s = execSsraB64 x0 x1 x2 x3 s := rfl
theorem exec_sandB64 (x0 : Bool) (x1 : BitVec 6) (x2 : BitVec 6) (x3 : BitVec 6) (s : State) : exec (.sandB64 x0 x1 x2 x3) s = execSandB64 x0 x1 x2 x3 s := rfl
theorem exec_sorB64 (x0 : Bool) (x1 : BitVec 6) (x2 : BitVec 6) (x3 : BitVec 6) (s : State) : exec (.sorB64 x0 x1 x2 x3) s = execSorB64 x0 x1 x2 x3 s := rfl
theorem exec_sxorB64 (x0 : Bool) (x1 : BitVec 6) (x2 : BitVec 6) (x3 : BitVec 6) (s : State) : exec (.sxorB64 x0 x1 x2 x3) s = execSxorB64 x0 x1 x2 x3 s := rfl
theorem exec_saddi (x0 : Bool) (x1 : BitVec 6) (x2 : BitVec 6) (x3 : BitVec 12) (s : State) : exec (.saddi x0 x1 x2 x3) s = execSaddi x0 x1 x2 x3 s := rfl
theorem exec_saddiB64 (x0 : Bool) (x1 : BitVec 6) (x2 : BitVec 6) (x3 : BitVec 12) (s : State) : exec (.saddiB64 x0 x1 x2 x3) s = execSaddiB64 x0 x1 x2 x3 s := rfl
theorem exec_smovl (x0 : Bool) (x1 : BitVec 6) (x2 : BitVec 16) (s : State) : exec (.smovl x0 x1 x2) s = execSmovl x0 x1 x2 s := rfl
theorem exec_smovh (x0 : Bool) (x1 : BitVec 6) (x2 : BitVec 16) (s : State) : exec (.smovh x0 x1 x2) s = execSmovh x0 x1 x2 s := rfl
theorem exec_smovs (x0 : Bool) (x1 : BitVec 6) (x2 : BitVec 16) (s : State) : exec (.smovs x0 x1 x2) s = execSmovs x0 x1 x2 s := rfl
theorem exec_scmpI32 (x0 : Bool) (x1 : BitVec 3) (x2 : BitVec 6) (x3 : BitVec 6) (x4 : BitVec 6) (s : State) : exec (.scmpI32 x0 x1 x2 x3 x4) s = execScmpI32 x0 x1 x2 x3 x4 s := rfl
theorem exec_scmpN32 (x0 : Bool) (x1 : BitVec 3) (x2 : BitVec 6) (x3 : BitVec 6) (x4 : BitVec 6) (s : State) : exec (.scmpN32 x0 x1 x2 x3 x4) s = execScmpN32 x0 x1 x2 x3 x4 s := rfl
theorem exec_scmpB64 (x0 : Bool) (x1 : BitVec 3) (x2 : BitVec 6) (x3 : BitVec 6) (x4 : BitVec 6) (s : State) : exec (.scmpB64 x0 x1 x2 x3 x4) s = execScmpB64 x0 x1 x2 x3 x4 s := rfl
theorem exec_ssel (x0 : Bool) (x1 : BitVec 6) (x2 : BitVec 6) (x3 : BitVec 6) (s : State) : exec (.ssel x0 x1 x2 x3) s = execSsel x0 x1 x2 x3 s := rfl
theorem exec_sselB64 (x0 : Bool) (x1 : BitVec 6) (x2 : BitVec 6) (x3 : BitVec 6) (s : State) : exec (.sselB64 x0 x1 x2 x3) s = execSselB64 x0 x1 x2 x3 s := rfl
theorem exec_sshli (x0 : Bool) (x1 : BitVec 6) (x2 : BitVec 6) (x3 : BitVec 6) (s : State) : exec (.sshli x0 x1 x2 x3) s = execSshli x0 x1 x2 x3 s := rfl
theorem exec_sshri (x0 : Bool) (x1 : BitVec 6) (x2 : BitVec 6) (x3 : BitVec 6) (s : State) : exec (.sshri x0 x1 x2 x3) s = execSshri x0 x1 x2 x3 s := rfl
theorem exec_ssrai (x0 : Bool) (x1 : BitVec 6) (x2 : BitVec 6) (x3 : BitVec 6) (s : State) : exec (.ssrai x0 x1 x2 x3) s = execSsrai x0 x1 x2 x3 s := rfl
theorem exec_sbfxN32 (x0 : Bool) (x1 : BitVec 6) (x2 : BitVec 6) (x3 : BitVec 6) (s : State) : exec (.sbfxN32 x0 x1 x2 x3) s = execSbfxN32 x0 x1 x2 x3 s := rfl
theorem exec_sbfxI32 (x0 : Bool) (x1 : BitVec 6) (x2 : BitVec 6) (x3 : BitVec 6) (s : State) : exec (.sbfxI32 x0 x1 x2 x3) s = execSbfxI32 x0 x1 x2 x3 s := rfl
theorem exec_sbfi (x0 : Bool) (x1 : BitVec 6) (x2 : BitVec 6) (x3 : BitVec 6) (s : State) : exec (.sbfi x0 x1 x2 x3) s = execSbfi x0 x1 x2 x3 s := rfl
theorem exec_spopc (x0 : Bool) (x1 : BitVec 6) (x2 : BitVec 6) (s : State) : exec (.spopc x0 x1 x2) s = execSpopc x0 x1 x2 s := rfl
theorem exec_sclz (x0 : Bool) (x1 : BitVec 6) (x2 : BitVec 6) (s : State) : exec (.sclz x0 x1 x2) s = execSclz x0 x1 x2 s := rfl
theorem exec_sctz (x0 : Bool) (x1 : BitVec 6) (x2 : BitVec 6) (s : State) : exec (.sctz x0 x1 x2) s = execSctz x0 x1 x2 s := rfl
theorem exec_sbrev (x0 : Bool) (x1 : BitVec 6) (x2 : BitVec 6) (s : State) : exec (.sbrev x0 x1 x2) s = execSbrev x0 x1 x2 s := rfl
theorem exec_sshliB64 (x0 : Bool) (x1 : BitVec 6) (x2 : BitVec 6) (x3 : BitVec 6) (s : State) : exec (.sshliB64 x0 x1 x2 x3) s = execSshliB64 x0 x1 x2 x3 s := rfl
theorem exec_sshriB64 (x0 : Bool) (x1 : BitVec 6) (x2 : BitVec 6) (x3 : BitVec 6) (s : State) : exec (.sshriB64 x0 x1 x2 x3) s = execSshriB64 x0 x1 x2 x3 s := rfl
theorem exec_ssraiB64 (x0 : Bool) (x1 : BitVec 6) (x2 : BitVec 6) (x3 : BitVec 6) (s : State) : exec (.ssraiB64 x0 x1 x2 x3) s = execSsraiB64 x0 x1 x2 x3 s := rfl
theorem exec_spopcB64 (x0 : Bool) (x1 : BitVec 6) (x2 : BitVec 6) (s : State) : exec (.spopcB64 x0 x1 x2) s = execSpopcB64 x0 x1 x2 s := rfl
theorem exec_sclzB64 (x0 : Bool) (x1 : BitVec 6) (x2 : BitVec 6) (s : State) : exec (.sclzB64 x0 x1 x2) s = execSclzB64 x0 x1 x2 s := rfl
theorem exec_sctzB64 (x0 : Bool) (x1 : BitVec 6) (x2 : BitVec 6) (s : State) : exec (.sctzB64 x0 x1 x2) s = execSctzB64 x0 x1 x2 s := rfl
theorem exec_br (x0 : Bool) (x1 : BitVec 20) (s : State) : exec (.br x0 x1) s = execBr x0 x1 s := rfl
theorem exec_brAny (x0 : Bool) (x1 : BitVec 3) (x2 : BitVec 20) (s : State) : exec (.brAny x0 x1 x2) s = execBrAny x0 x1 x2 s := rfl
theorem exec_brZ (x0 : Bool) (x1 : BitVec 3) (x2 : BitVec 20) (s : State) : exec (.brZ x0 x1 x2) s = execBrZ x0 x1 x2 s := rfl
theorem exec_brNz (x0 : Bool) (x1 : BitVec 3) (x2 : BitVec 20) (s : State) : exec (.brNz x0 x1 x2) s = execBrNz x0 x1 x2 s := rfl
theorem exec_brv (x0 : Bool) (x1 : BitVec 3) (x2 : BitVec 20) (s : State) : exec (.brv x0 x1 x2) s = execBrv x0 x1 x2 s := rfl
theorem exec_brvN (x0 : Bool) (x1 : BitVec 3) (x2 : BitVec 20) (s : State) : exec (.brvN x0 x1 x2) s = execBrvN x0 x1 x2 s := rfl
theorem exec_call (x0 : Bool) (x1 : BitVec 20) (s : State) : exec (.call x0 x1) s = execCall x0 x1 s := rfl
theorem exec_ret (x0 : Bool) (s : State) : exec (.ret x0) s = execRet x0 s := rfl
theorem exec_jt (x0 : Bool) (x1 : BitVec 6) (s : State) : exec (.jt x0 x1) s = execJt x0 x1 s := rfl
theorem exec_jtCall (x0 : Bool) (x1 : BitVec 6) (s : State) : exec (.jtCall x0 x1) s = execJtCall x0 x1 s := rfl
theorem exec_jr (x0 : Bool) (x1 : BitVec 6) (s : State) : exec (.jr x0 x1) s = execJr x0 x1 s := rfl
theorem exec_jrCall (x0 : Bool) (x1 : BitVec 6) (s : State) : exec (.jrCall x0 x1) s = execJrCall x0 x1 s := rfl
theorem exec_rejoin (x0 : Bool) (x1 : BitVec 20) (s : State) : exec (.rejoin x0 x1) s = execRejoin x0 x1 s := rfl
theorem exec_eqp (x0 : Bool) (x1 : BitVec 16) (s : State) : exec (.eqp x0 x1) s = execEqp x0 x1 s := rfl
theorem exec_ppush (x0 : Bool) (x1 : BitVec 6) (s : State) : exec (.ppush x0 x1) s = execPpush x0 x1 s := rfl
theorem exec_ppushN (x0 : Bool) (x1 : BitVec 6) (s : State) : exec (.ppushN x0 x1) s = execPpushN x0 x1 s := rfl
theorem exec_pinv (x0 : Bool) (s : State) : exec (.pinv x0) s = execPinv x0 s := rfl
theorem exec_ppop (x0 : Bool) (s : State) : exec (.ppop x0) s = execPpop x0 s := rfl
theorem exec_pand (x0 : Bool) (x1 : BitVec 6) (x2 : BitVec 6) (x3 : BitVec 6) (s : State) : exec (.pand x0 x1 x2 x3) s = execPand x0 x1 x2 x3 s := rfl
theorem exec_por (x0 : Bool) (x1 : BitVec 6) (x2 : BitVec 6) (x3 : BitVec 6) (s : State) : exec (.por x0 x1 x2 x3) s = execPor x0 x1 x2 x3 s := rfl
theorem exec_pxor (x0 : Bool) (x1 : BitVec 6) (x2 : BitVec 6) (x3 : BitVec 6) (s : State) : exec (.pxor x0 x1 x2 x3) s = execPxor x0 x1 x2 x3 s := rfl
theorem exec_pandn (x0 : Bool) (x1 : BitVec 6) (x2 : BitVec 6) (x3 : BitVec 6) (s : State) : exec (.pandn x0 x1 x2 x3) s = execPandn x0 x1 x2 x3 s := rfl
theorem exec_pnot (x0 : Bool) (x1 : BitVec 6) (x2 : BitVec 6) (s : State) : exec (.pnot x0 x1 x2) s = execPnot x0 x1 x2 s := rfl
theorem exec_pelect (x0 : Bool) (x1 : BitVec 6) (s : State) : exec (.pelect x0 x1) s = execPelect x0 x1 s := rfl
theorem exec_pld (x0 : Bool) (x1 : BitVec 6) (x2 : BitVec 6) (s : State) : exec (.pld x0 x1 x2) s = execPld x0 x1 x2 s := rfl
theorem exec_pst (x0 : Bool) (x1 : BitVec 6) (x2 : BitVec 6) (s : State) : exec (.pst x0 x1 x2) s = execPst x0 x1 x2 s := rfl
theorem exec_pcnt (x0 : Bool) (x1 : BitVec 6) (x2 : BitVec 6) (s : State) : exec (.pcnt x0 x1 x2) s = execPcnt x0 x1 x2 s := rfl
theorem exec_barSync (x0 : Bool) (x1 : BitVec 6) (s : State) : exec (.barSync x0 x1) s = execBarSync x0 x1 s := rfl
theorem exec_wait (x0 : Bool) (x1 : Bool) (x2 : BitVec 2) (x3 : BitVec 6) (x4 : BitVec 6) (x5 : BitVec 6) (s : State) : exec (.wait x0 x1 x2 x3 x4 x5) s = execWait x0 x1 x2 x3 x4 x5 s := rfl
theorem exec_waitcnt (x0 : Bool) (x1 : BitVec 4) (x2 : BitVec 6) (s : State) : exec (.waitcnt x0 x1 x2) s = execWaitcnt x0 x1 x2 s := rfl
theorem exec_exit (x0 : Bool) (s : State) : exec (.exit x0) s = execExit x0 s := rfl
theorem exec_trap (x0 : Bool) (x1 : BitVec 6) (s : State) : exec (.trap x0 x1) s = execTrap x0 x1 s := rfl
theorem exec_brk (x0 : Bool) (x1 : BitVec 6) (s : State) : exec (.brk x0 x1) s = execBrk x0 x1 s := rfl
theorem exec_nop (x0 : Bool) (s : State) : exec (.nop x0) s = execNop x0 s := rfl
theorem exec_rdsr (x0 : Bool) (x1 : BitVec 6) (x2 : BitVec 6) (s : State) : exec (.rdsr x0 x1 x2) s = execRdsr x0 x1 x2 s := rfl
theorem exec_rdsrPair (x0 : Bool) (x1 : BitVec 6) (x2 : BitVec 6) (s : State) : exec (.rdsrPair x0 x1 x2) s = execRdsrPair x0 x1 x2 s := rfl
theorem exec_wrsr (x0 : Bool) (x1 : BitVec 6) (x2 : BitVec 6) (s : State) : exec (.wrsr x0 x1 x2) s = execWrsr x0 x1 x2 s := rfl
theorem exec_efork (x0 : Bool) (x1 : BitVec 6) (x2 : BitVec 6) (s : State) : exec (.efork x0 x1 x2) s = execEfork x0 x1 x2 s := rfl
theorem exec_erdv (x0 : Bool) (s : State) : exec (.erdv x0) s = execErdv x0 s := rfl
theorem exec_hintSucc (x0 : Bool) (s : State) : exec (.hintSucc x0) s = execHintSucc x0 s := rfl
theorem exec_waitPred (x0 : Bool) (x1 : BitVec 6) (s : State) : exec (.waitPred x0 x1) s = execWaitPred x0 x1 s := rfl
theorem exec_migrReq (x0 : Bool) (x1 : BitVec 6) (s : State) : exec (.migrReq x0 x1) s = execMigrReq x0 x1 s := rfl
theorem exec_rdsrVector (x0 : Bool) (x1 : BitVec 7) (x2 : BitVec 6) (s : State) : exec (.rdsrVector x0 x1 x2) s = execRdsrVector x0 x1 x2 s := rfl
theorem exec_rdctx (x0 : Bool) (x1 : BitVec 6) (x2 : BitVec 6) (s : State) : exec (.rdctx x0 x1 x2) s = execRdctx x0 x1 x2 s := rfl
theorem exec_emretTo (x0 : Bool) (x1 : BitVec 6) (s : State) : exec (.emretTo x0 x1) s = execEmretTo x0 x1 s := rfl
theorem exec_emretSkip (x0 : Bool) (x1 : BitVec 6) (s : State) : exec (.emretSkip x0 x1) s = execEmretSkip x0 x1 s := rfl
theorem exec_nmove (x0 : Bool) (x1 : BitVec 7) (x2 : BitVec 7) (s : State) : exec (.nmove x0 x1 x2) s = execNmove x0 x1 x2 s := rfl
theorem exec_nalias (x0 : Bool) (x1 : BitVec 7) (x2 : BitVec 7) (s : State) : exec (.nalias x0 x1 x2) s = execNalias x0 x1 x2 s := rfl
theorem exec_nswap (x0 : Bool) (x1 : BitVec 7) (x2 : BitVec 7) (s : State) : exec (.nswap x0 x1 x2) s = execNswap x0 x1 x2 s := rfl
theorem exec_ndrop (x0 : Bool) (x1 : BitVec 7) (s : State) : exec (.ndrop x0 x1) s = execNdrop x0 x1 s := rfl
theorem exec_nfresh (x0 : Bool) (x1 : BitVec 7) (s : State) : exec (.nfresh x0 x1) s = execNfresh x0 x1 s := rfl
theorem exec_ngive (x0 : Bool) (x1 : BitVec 7) (x2 : BitVec 7) (x3 : BitVec 7) (s : State) : exec (.ngive x0 x1 x2 x3) s = execNgive x0 x1 x2 x3 s := rfl
theorem exec_ntake (x0 : Bool) (x1 : BitVec 7) (x2 : BitVec 7) (x3 : BitVec 7) (s : State) : exec (.ntake x0 x1 x2 x3) s = execNtake x0 x1 x2 x3 s := rfl
theorem exec_nperm (x0 : Bool) (x1 : BitVec 7) (x2 : BitVec 7) (x3 : BitVec 7) (s : State) : exec (.nperm x0 x1 x2 x3) s = execNperm x0 x1 x2 x3 s := rfl
theorem exec_nquery (x0 : Bool) (x1 : BitVec 7) (x2 : BitVec 7) (s : State) : exec (.nquery x0 x1 x2) s = execNquery x0 x1 x2 s := rfl
theorem exec_vaddI32 (x0 : Bool) (x1 : BitVec 7) (x2 : BitVec 7) (x3 : BitVec 7) (s : State) : exec (.vaddI32 x0 x1 x2 x3) s = execVaddI32 x0 x1 x2 x3 s := rfl
theorem exec_vsubI32 (x0 : Bool) (x1 : BitVec 7) (x2 : BitVec 7) (x3 : BitVec 7) (s : State) : exec (.vsubI32 x0 x1 x2 x3) s = execVsubI32 x0 x1 x2 x3 s := rfl
theorem exec_vmulI32 (x0 : Bool) (x1 : BitVec 7) (x2 : BitVec 7) (x3 : BitVec 7) (s : State) : exec (.vmulI32 x0 x1 x2 x3) s = execVmulI32 x0 x1 x2 x3 s := rfl
theorem exec_vmulhiI32 (x0 : Bool) (x1 : BitVec 7) (x2 : BitVec 7) (x3 : BitVec 7) (s : State) : exec (.vmulhiI32 x0 x1 x2 x3) s = execVmulhiI32 x0 x1 x2 x3 s := rfl
theorem exec_vmulhiN32 (x0 : Bool) (x1 : BitVec 7) (x2 : BitVec 7) (x3 : BitVec 7) (s : State) : exec (.vmulhiN32 x0 x1 x2 x3) s = execVmulhiN32 x0 x1 x2 x3 s := rfl
theorem exec_vminI32 (x0 : Bool) (x1 : BitVec 7) (x2 : BitVec 7) (x3 : BitVec 7) (s : State) : exec (.vminI32 x0 x1 x2 x3) s = execVminI32 x0 x1 x2 x3 s := rfl
theorem exec_vminN32 (x0 : Bool) (x1 : BitVec 7) (x2 : BitVec 7) (x3 : BitVec 7) (s : State) : exec (.vminN32 x0 x1 x2 x3) s = execVminN32 x0 x1 x2 x3 s := rfl
theorem exec_vmaxI32 (x0 : Bool) (x1 : BitVec 7) (x2 : BitVec 7) (x3 : BitVec 7) (s : State) : exec (.vmaxI32 x0 x1 x2 x3) s = execVmaxI32 x0 x1 x2 x3 s := rfl
theorem exec_vmaxN32 (x0 : Bool) (x1 : BitVec 7) (x2 : BitVec 7) (x3 : BitVec 7) (s : State) : exec (.vmaxN32 x0 x1 x2 x3) s = execVmaxN32 x0 x1 x2 x3 s := rfl
theorem exec_vaddsI32 (x0 : Bool) (x1 : BitVec 7) (x2 : BitVec 7) (x3 : BitVec 7) (s : State) : exec (.vaddsI32 x0 x1 x2 x3) s = execVaddsI32 x0 x1 x2 x3 s := rfl
theorem exec_vsubsI32 (x0 : Bool) (x1 : BitVec 7) (x2 : BitVec 7) (x3 : BitVec 7) (s : State) : exec (.vsubsI32 x0 x1 x2 x3) s = execVsubsI32 x0 x1 x2 x3 s := rfl
theorem exec_vabsI32 (x0 : Bool) (x1 : BitVec 7) (x2 : BitVec 7) (s : State) : exec (.vabsI32 x0 x1 x2) s = execVabsI32 x0 x1 x2 s := rfl
theorem exec_vaddminI32 (x0 : Bool) (x1 : BitVec 7) (x2 : BitVec 7) (x3 : BitVec 7) (s : State) : exec (.vaddminI32 x0 x1 x2 x3) s = execVaddminI32 x0 x1 x2 x3 s := rfl
theorem exec_vcopy (x0 : Bool) (x1 : BitVec 7) (x2 : BitVec 7) (s : State) : exec (.vcopy x0 x1 x2) s = execVcopy x0 x1 x2 s := rfl
theorem exec_vaddB64 (x0 : Bool) (x1 : BitVec 7) (x2 : BitVec 7) (x3 : BitVec 7) (s : State) : exec (.vaddB64 x0 x1 x2 x3) s = execVaddB64 x0 x1 x2 x3 s := rfl
theorem exec_vsubB64 (x0 : Bool) (x1 : BitVec 7) (x2 : BitVec 7) (x3 : BitVec 7) (s : State) : exec (.vsubB64 x0 x1 x2 x3) s = execVsubB64 x0 x1 x2 x3 s := rfl
theorem exec_vand (x0 : Bool) (x1 : BitVec 7) (x2 : BitVec 7) (x3 : BitVec 7) (s : State) : exec (.vand x0 x1 x2 x3) s = execVand x0 x1 x2 x3 s := rfl
theorem exec_vor (x0 : Bool) (x1 : BitVec 7) (x2 : BitVec 7) (x3 : BitVec 7) (s : State) : exec (.vor x0 x1 x2 x3) s = execVor x0 x1 x2 x3 s := rfl
theorem exec_vxor (x0 : Bool) (x1 : BitVec 7) (x2 : BitVec 7) (x3 : BitVec 7) (s : State) : exec (.vxor x0 x1 x2 x3) s = execVxor x0 x1 x2 x3 s := rfl
theorem exec_vandn (x0 : Bool) (x1 : BitVec 7) (x2 : BitVec 7) (x3 : BitVec 7) (s : State) : exec (.vandn x0 x1 x2 x3) s = execVandn x0 x1 x2 x3 s := rfl
theorem exec_vnot (x0 : Bool) (x1 : BitVec 7) (x2 : BitVec 7) (s : State) : exec (.vnot x0 x1 x2) s = execVnot x0 x1 x2 s := rfl
theorem exec_vshl (x0 : Bool) (x1 : BitVec 7) (x2 : BitVec 7) (x3 : BitVec 7) (s : State) : exec (.vshl x0 x1 x2 x3) s = execVshl x0 x1 x2 x3 s := rfl
theorem exec_vshr (x0 : Bool) (x1 : BitVec 7) (x2 : BitVec 7) (x3 : BitVec 7) (s : State) : exec (.vshr x0 x1 x2 x3) s = execVshr x0 x1 x2 x3 s := rfl
theorem exec_vsra (x0 : Bool) (x1 : BitVec 7) (x2 : BitVec 7) (x3 : BitVec 7) (s : State) : exec (.vsra x0 x1 x2 x3) s = execVsra x0 x1 x2 x3 s := rfl
theorem exec_vpopc (x0 : Bool) (x1 : BitVec 7) (x2 : BitVec 7) (s : State) : exec (.vpopc x0 x1 x2) s = execVpopc x0 x1 x2 s := rfl
theorem exec_vclz (x0 : Bool) (x1 : BitVec 7) (x2 : BitVec 7) (s : State) : exec (.vclz x0 x1 x2) s = execVclz x0 x1 x2 s := rfl
theorem exec_vctz (x0 : Bool) (x1 : BitVec 7) (x2 : BitVec 7) (s : State) : exec (.vctz x0 x1 x2) s = execVctz x0 x1 x2 s := rfl
theorem exec_vbrev (x0 : Bool) (x1 : BitVec 7) (x2 : BitVec 7) (s : State) : exec (.vbrev x0 x1 x2) s = execVbrev x0 x1 x2 s := rfl
theorem exec_vaddiI32 (x0 : Bool) (x1 : BitVec 7) (x2 : BitVec 7) (x3 : BitVec 7) (s : State) : exec (.vaddiI32 x0 x1 x2 x3) s = execVaddiI32 x0 x1 x2 x3 s := rfl
theorem exec_vmuliI32 (x0 : Bool) (x1 : BitVec 7) (x2 : BitVec 7) (x3 : BitVec 7) (s : State) : exec (.vmuliI32 x0 x1 x2 x3) s = execVmuliI32 x0 x1 x2 x3 s := rfl
theorem exec_vandi (x0 : Bool) (x1 : BitVec 7) (x2 : BitVec 7) (x3 : BitVec 7) (s : State) : exec (.vandi x0 x1 x2 x3) s = execVandi x0 x1 x2 x3 s := rfl
theorem exec_vori (x0 : Bool) (x1 : BitVec 7) (x2 : BitVec 7) (x3 : BitVec 7) (s : State) : exec (.vori x0 x1 x2 x3) s = execVori x0 x1 x2 x3 s := rfl
theorem exec_vxori (x0 : Bool) (x1 : BitVec 7) (x2 : BitVec 7) (x3 : BitVec 7) (s : State) : exec (.vxori x0 x1 x2 x3) s = execVxori x0 x1 x2 x3 s := rfl
theorem exec_vminiI32 (x0 : Bool) (x1 : BitVec 7) (x2 : BitVec 7) (x3 : BitVec 7) (s : State) : exec (.vminiI32 x0 x1 x2 x3) s = execVminiI32 x0 x1 x2 x3 s := rfl
theorem exec_vmaxiI32 (x0 : Bool) (x1 : BitVec 7) (x2 : BitVec 7) (x3 : BitVec 7) (s : State) : exec (.vmaxiI32 x0 x1 x2 x3) s = execVmaxiI32 x0 x1 x2 x3 s := rfl
theorem exec_vshli (x0 : Bool) (x1 : BitVec 7) (x2 : BitVec 7) (x3 : BitVec 7) (s : State) : exec (.vshli x0 x1 x2 x3) s = execVshli x0 x1 x2 x3 s := rfl
theorem exec_vshri (x0 : Bool) (x1 : BitVec 7) (x2 : BitVec 7) (x3 : BitVec 7) (s : State) : exec (.vshri x0 x1 x2 x3) s = execVshri x0 x1 x2 x3 s := rfl
theorem exec_vsrai (x0 : Bool) (x1 : BitVec 7) (x2 : BitVec 7) (x3 : BitVec 7) (s : State) : exec (.vsrai x0 x1 x2 x3) s = execVsrai x0 x1 x2 x3 s := rfl
theorem exec_vmovi (x0 : Bool) (x1 : BitVec 7) (x2 : BitVec 16) (s : State) : exec (.vmovi x0 x1 x2) s = execVmovi x0 x1 x2 s := rfl
theorem exec_vmoviH (x0 : Bool) (x1 : BitVec 7) (x2 : BitVec 16) (s : State) : exec (.vmoviH x0 x1 x2) s = execVmoviH x0 x1 x2 s := rfl
theorem exec_vmoviZ (x0 : Bool) (x1 : BitVec 7) (x2 : BitVec 16) (s : State) : exec (.vmoviZ x0 x1 x2) s = execVmoviZ x0 x1 x2 s := rfl
theorem exec_vcmpI32 (x0 : Bool) (x1 : BitVec 3) (x2 : BitVec 3) (x3 : BitVec 7) (x4 : BitVec 7) (s : State) : exec (.vcmpI32 x0 x1 x2 x3 x4) s = execVcmpI32 x0 x1 x2 x3 x4 s := rfl
theorem exec_vcmpN32 (x0 : Bool) (x1 : BitVec 3) (x2 : BitVec 3) (x3 : BitVec 7) (x4 : BitVec 7) (s : State) : exec (.vcmpN32 x0 x1 x2 x3 x4) s = execVcmpN32 x0 x1 x2 x3 x4 s := rfl
theorem exec_vtst (x0 : Bool) (x1 : BitVec 3) (x2 : BitVec 7) (x3 : BitVec 7) (s : State) : exec (.vtst x0 x1 x2 x3) s = execVtst x0 x1 x2 x3 s := rfl
theorem exec_vsel (x0 : Bool) (x1 : BitVec 3) (x2 : BitVec 7) (x3 : BitVec 7) (x4 : BitVec 7) (s : State) : exec (.vsel x0 x1 x2 x3 x4) s = execVsel x0 x1 x2 x3 x4 s := rfl
theorem exec_vshfl (x0 : Bool) (x1 : BitVec 7) (x2 : BitVec 7) (x3 : BitVec 7) (s : State) : exec (.vshfl x0 x1 x2 x3) s = execVshfl x0 x1 x2 x3 s := rfl
theorem exec_vlsh (x0 : Bool) (x1 : BitVec 7) (x2 : BitVec 7) (x3 : BitVec 7) (s : State) : exec (.vlsh x0 x1 x2 x3) s = execVlsh x0 x1 x2 x3 s := rfl
theorem exec_vbcast (x0 : Bool) (x1 : BitVec 7) (x2 : BitVec 7) (x3 : BitVec 7) (s : State) : exec (.vbcast x0 x1 x2 x3) s = execVbcast x0 x1 x2 x3 s := rfl
theorem exec_vbcastS (x0 : Bool) (x1 : BitVec 7) (x2 : BitVec 7) (s : State) : exec (.vbcastS x0 x1 x2) s = execVbcastS x0 x1 x2 s := rfl
theorem exec_vregroupRecv (x0 : Bool) (x1 : BitVec 7) (x2 : BitVec 7) (x3 : BitVec 7) (s : State) : exec (.vregroupRecv x0 x1 x2 x3) s = execVregroupRecv x0 x1 x2 x3 s := rfl
theorem exec_vregroupSend (x0 : Bool) (x1 : BitVec 7) (x2 : BitVec 7) (x3 : BitVec 7) (s : State) : exec (.vregroupSend x0 x1 x2 x3) s = execVregroupSend x0 x1 x2 x3 s := rfl
theorem exec_vredAddI32 (x0 : Bool) (x1 : BitVec 7) (x2 : BitVec 7) (s : State) : exec (.vredAddI32 x0 x1 x2) s = execVredAddI32 x0 x1 x2 s := rfl
theorem exec_vredMinI32 (x0 : Bool) (x1 : BitVec 7) (x2 : BitVec 7) (s : State) : exec (.vredMinI32 x0 x1 x2) s = execVredMinI32 x0 x1 x2 s := rfl
theorem exec_vredMinN32 (x0 : Bool) (x1 : BitVec 7) (x2 : BitVec 7) (s : State) : exec (.vredMinN32 x0 x1 x2) s = execVredMinN32 x0 x1 x2 s := rfl
theorem exec_vredMaxI32 (x0 : Bool) (x1 : BitVec 7) (x2 : BitVec 7) (s : State) : exec (.vredMaxI32 x0 x1 x2) s = execVredMaxI32 x0 x1 x2 s := rfl
theorem exec_vredMaxN32 (x0 : Bool) (x1 : BitVec 7) (x2 : BitVec 7) (s : State) : exec (.vredMaxN32 x0 x1 x2) s = execVredMaxN32 x0 x1 x2 s := rfl
theorem exec_vredAnd (x0 : Bool) (x1 : BitVec 7) (x2 : BitVec 7) (s : State) : exec (.vredAnd x0 x1 x2) s = execVredAnd x0 x1 x2 s := rfl
theorem exec_vredOr (x0 : Bool) (x1 : BitVec 7) (x2 : BitVec 7) (s : State) : exec (.vredOr x0 x1 x2) s = execVredOr x0 x1 x2 s := rfl
theorem exec_vredXor (x0 : Bool) (x1 : BitVec 7) (x2 : BitVec 7) (s : State) : exec (.vredXor x0 x1 x2) s = execVredXor x0 x1 x2 s := rfl
theorem exec_vscanAddI32 (x0 : Bool) (x1 : BitVec 7) (x2 : BitVec 7) (s : State) : exec (.vscanAddI32 x0 x1 x2) s = execVscanAddI32 x0 x1 x2 s := rfl
theorem exec_vscanMaxI32 (x0 : Bool) (x1 : BitVec 7) (x2 : BitVec 7) (s : State) : exec (.vscanMaxI32 x0 x1 x2) s = execVscanMaxI32 x0 x1 x2 s := rfl
theorem exec_vvoteAny (x0 : Bool) (x1 : BitVec 7) (x2 : BitVec 7) (s : State) : exec (.vvoteAny x0 x1 x2) s = execVvoteAny x0 x1 x2 s := rfl
theorem exec_vvoteAll (x0 : Bool) (x1 : BitVec 7) (x2 : BitVec 7) (s : State) : exec (.vvoteAll x0 x1 x2) s = execVvoteAll x0 x1 x2 s := rfl
theorem exec_vvoteFirst (x0 : Bool) (x1 : BitVec 7) (x2 : BitVec 7) (s : State) : exec (.vvoteFirst x0 x1 x2) s = execVvoteFirst x0 x1 x2 s := rfl
theorem exec_vballot (x0 : Bool) (x1 : BitVec 7) (x2 : BitVec 7) (s : State) : exec (.vballot x0 x1 x2) s = execVballot x0 x1 x2 s := rfl
theorem exec_vdot4I8 (x0 : Bool) (x1 : BitVec 7) (x2 : BitVec 7) (x3 : BitVec 7) (s : State) : exec (.vdot4I8 x0 x1 x2 x3) s = execVdot4I8 x0 x1 x2 x3 s := rfl
theorem exec_vdot4N8 (x0 : Bool) (x1 : BitVec 7) (x2 : BitVec 7) (x3 : BitVec 7) (s : State) : exec (.vdot4N8 x0 x1 x2 x3) s = execVdot4N8 x0 x1 x2 x3 s := rfl
theorem exec_vfaddF32 (x0 : Bool) (x1 : BitVec 2) (x2 : BitVec 7) (x3 : BitVec 7) (x4 : BitVec 7) (s : State) : exec (.vfaddF32 x0 x1 x2 x3 x4) s = execVfaddF32 x0 x1 x2 x3 x4 s := rfl
theorem exec_vfsubF32 (x0 : Bool) (x1 : BitVec 2) (x2 : BitVec 7) (x3 : BitVec 7) (x4 : BitVec 7) (s : State) : exec (.vfsubF32 x0 x1 x2 x3 x4) s = execVfsubF32 x0 x1 x2 x3 x4 s := rfl
theorem exec_vfmulF32 (x0 : Bool) (x1 : BitVec 2) (x2 : BitVec 7) (x3 : BitVec 7) (x4 : BitVec 7) (s : State) : exec (.vfmulF32 x0 x1 x2 x3 x4) s = execVfmulF32 x0 x1 x2 x3 x4 s := rfl
theorem exec_vfaddF64 (x0 : Bool) (x1 : BitVec 7) (x2 : BitVec 7) (x3 : BitVec 7) (s : State) : exec (.vfaddF64 x0 x1 x2 x3) s = execVfaddF64 x0 x1 x2 x3 s := rfl
theorem exec_vfsubF64 (x0 : Bool) (x1 : BitVec 7) (x2 : BitVec 7) (x3 : BitVec 7) (s : State) : exec (.vfsubF64 x0 x1 x2 x3) s = execVfsubF64 x0 x1 x2 x3 s := rfl
theorem exec_vfmulF64 (x0 : Bool) (x1 : BitVec 7) (x2 : BitVec 7) (x3 : BitVec 7) (s : State) : exec (.vfmulF64 x0 x1 x2 x3) s = execVfmulF64 x0 x1 x2 x3 s := rfl
theorem exec_vffmaF32 (x0 : Bool) (x1 : BitVec 2) (x2 : BitVec 7) (x3 : BitVec 7) (x4 : BitVec 7) (s : State) : exec (.vffmaF32 x0 x1 x2 x3 x4) s = execVffmaF32 x0 x1 x2 x3 x4 s := rfl
theorem exec_vffmaF64 (x0 : Bool) (x1 : BitVec 2) (x2 : BitVec 7) (x3 : BitVec 7) (x4 : BitVec 7) (s : State) : exec (.vffmaF64 x0 x1 x2 x3 x4) s = execVffmaF64 x0 x1 x2 x3 x4 s := rfl
theorem exec_vfaddminF32 (x0 : Bool) (x1 : BitVec 7) (x2 : BitVec 7) (x3 : BitVec 7) (s : State) : exec (.vfaddminF32 x0 x1 x2 x3) s = execVfaddminF32 x0 x1 x2 x3 s := rfl
theorem exec_vfaddPacked (x0 : Bool) (x1 : Bool) (x2 : BitVec 7) (x3 : BitVec 7) (x4 : BitVec 7) (s : State) : exec (.vfaddPacked x0 x1 x2 x3 x4) s = execVfaddPacked x0 x1 x2 x3 x4 s := rfl
theorem exec_vfsubPacked (x0 : Bool) (x1 : Bool) (x2 : BitVec 7) (x3 : BitVec 7) (x4 : BitVec 7) (s : State) : exec (.vfsubPacked x0 x1 x2 x3 x4) s = execVfsubPacked x0 x1 x2 x3 x4 s := rfl
theorem exec_vfmulPacked (x0 : Bool) (x1 : Bool) (x2 : BitVec 7) (x3 : BitVec 7) (x4 : BitVec 7) (s : State) : exec (.vfmulPacked x0 x1 x2 x3 x4) s = execVfmulPacked x0 x1 x2 x3 x4 s := rfl
theorem exec_vffmaPacked (x0 : Bool) (x1 : Bool) (x2 : BitVec 7) (x3 : BitVec 7) (x4 : BitVec 7) (s : State) : exec (.vffmaPacked x0 x1 x2 x3 x4) s = execVffmaPacked x0 x1 x2 x3 x4 s := rfl
theorem exec_vfminPacked (x0 : Bool) (x1 : Bool) (x2 : BitVec 7) (x3 : BitVec 7) (x4 : BitVec 7) (s : State) : exec (.vfminPacked x0 x1 x2 x3 x4) s = execVfminPacked x0 x1 x2 x3 x4 s := rfl
theorem exec_vfmaxPacked (x0 : Bool) (x1 : Bool) (x2 : BitVec 7) (x3 : BitVec 7) (x4 : BitVec 7) (s : State) : exec (.vfmaxPacked x0 x1 x2 x3 x4) s = execVfmaxPacked x0 x1 x2 x3 x4 s := rfl
theorem exec_vfdot2 (x0 : Bool) (x1 : Bool) (x2 : BitVec 7) (x3 : BitVec 7) (x4 : BitVec 7) (s : State) : exec (.vfdot2 x0 x1 x2 x3 x4) s = execVfdot2 x0 x1 x2 x3 x4 s := rfl
theorem exec_vcvt (x0 : Bool) (x1 : BitVec 4) (x2 : BitVec 7) (x3 : BitVec 7) (x4 : BitVec 4) (x5 : BitVec 2) (x6 : Bool) (s : State) : exec (.vcvt x0 x1 x2 x3 x4 x5 x6) s = execVcvt x0 x1 x2 x3 x4 x5 x6 s := rfl
theorem exec_vcvtPkBf16x2 (x0 : Bool) (x1 : BitVec 7) (x2 : BitVec 7) (x3 : BitVec 7) (s : State) : exec (.vcvtPkBf16x2 x0 x1 x2 x3) s = execVcvtPkBf16x2 x0 x1 x2 x3 s := rfl
theorem exec_vcvtPkF16x2 (x0 : Bool) (x1 : BitVec 7) (x2 : BitVec 7) (x3 : BitVec 7) (s : State) : exec (.vcvtPkF16x2 x0 x1 x2 x3) s = execVcvtPkF16x2 x0 x1 x2 x3 s := rfl
theorem exec_vquant (x0 : Bool) (x1 : BitVec 3) (x2 : BitVec 7) (x3 : BitVec 7) (x4 : BitVec 7) (s : State) : exec (.vquant x0 x1 x2 x3 x4) s = execVquant x0 x1 x2 x3 x4 s := rfl
theorem exec_vdequant (x0 : Bool) (x1 : BitVec 3) (x2 : BitVec 7) (x3 : BitVec 7) (x4 : BitVec 7) (s : State) : exec (.vdequant x0 x1 x2 x3 x4) s = execVdequant x0 x1 x2 x3 x4 s := rfl
theorem exec_vtrit (x0 : Bool) (x1 : BitVec 7) (x2 : BitVec 7) (x3 : BitVec 7) (s : State) : exec (.vtrit x0 x1 x2 x3) s = execVtrit x0 x1 x2 x3 s := rfl
theorem exec_vrcpF32 (x0 : Bool) (x1 : BitVec 2) (x2 : BitVec 7) (x3 : BitVec 7) (s : State) : exec (.vrcpF32 x0 x1 x2 x3) s = execVrcpF32 x0 x1 x2 x3 s := rfl
theorem exec_vsqrtF32 (x0 : Bool) (x1 : BitVec 2) (x2 : BitVec 7) (x3 : BitVec 7) (s : State) : exec (.vsqrtF32 x0 x1 x2 x3) s = execVsqrtF32 x0 x1 x2 x3 s := rfl
theorem exec_vdivF32 (x0 : Bool) (x1 : BitVec 2) (x2 : BitVec 7) (x3 : BitVec 7) (x4 : BitVec 7) (s : State) : exec (.vdivF32 x0 x1 x2 x3 x4) s = execVdivF32 x0 x1 x2 x3 x4 s := rfl
theorem exec_vexp2F32 (x0 : Bool) (x1 : BitVec 7) (x2 : BitVec 7) (s : State) : exec (.vexp2F32 x0 x1 x2) s = execVexp2F32 x0 x1 x2 s := rfl
theorem exec_vlog2F32 (x0 : Bool) (x1 : BitVec 7) (x2 : BitVec 7) (s : State) : exec (.vlog2F32 x0 x1 x2) s = execVlog2F32 x0 x1 x2 s := rfl
theorem exec_vsinF32 (x0 : Bool) (x1 : BitVec 7) (x2 : BitVec 7) (s : State) : exec (.vsinF32 x0 x1 x2) s = execVsinF32 x0 x1 x2 s := rfl
theorem exec_vcosF32 (x0 : Bool) (x1 : BitVec 7) (x2 : BitVec 7) (s : State) : exec (.vcosF32 x0 x1 x2) s = execVcosF32 x0 x1 x2 s := rfl
theorem exec_vfcmpF32 (x0 : Bool) (x1 : BitVec 3) (x2 : BitVec 3) (x3 : BitVec 7) (x4 : BitVec 7) (s : State) : exec (.vfcmpF32 x0 x1 x2 x3 x4) s = execVfcmpF32 x0 x1 x2 x3 x4 s := rfl
theorem exec_vfcmpF64 (x0 : Bool) (x1 : BitVec 3) (x2 : BitVec 3) (x3 : BitVec 7) (x4 : BitVec 7) (s : State) : exec (.vfcmpF64 x0 x1 x2 x3 x4) s = execVfcmpF64 x0 x1 x2 x3 x4 s := rfl
theorem exec_vfclassF32 (x0 : Bool) (x1 : BitVec 3) (x2 : BitVec 7) (x3 : BitVec 7) (s : State) : exec (.vfclassF32 x0 x1 x2 x3) s = execVfclassF32 x0 x1 x2 x3 s := rfl
theorem exec_vfclassF64 (x0 : Bool) (x1 : BitVec 3) (x2 : BitVec 7) (x3 : BitVec 7) (s : State) : exec (.vfclassF64 x0 x1 x2 x3) s = execVfclassF64 x0 x1 x2 x3 s := rfl
theorem exec_vfminF32 (x0 : Bool) (x1 : BitVec 7) (x2 : BitVec 7) (x3 : BitVec 7) (s : State) : exec (.vfminF32 x0 x1 x2 x3) s = execVfminF32 x0 x1 x2 x3 s := rfl
theorem exec_vfmaxF32 (x0 : Bool) (x1 : BitVec 7) (x2 : BitVec 7) (x3 : BitVec 7) (s : State) : exec (.vfmaxF32 x0 x1 x2 x3) s = execVfmaxF32 x0 x1 x2 x3 s := rfl
theorem exec_vfminF64 (x0 : Bool) (x1 : BitVec 7) (x2 : BitVec 7) (x3 : BitVec 7) (s : State) : exec (.vfminF64 x0 x1 x2 x3) s = execVfminF64 x0 x1 x2 x3 s := rfl
theorem exec_vfmaxF64 (x0 : Bool) (x1 : BitVec 7) (x2 : BitVec 7) (x3 : BitVec 7) (s : State) : exec (.vfmaxF64 x0 x1 x2 x3) s = execVfmaxF64 x0 x1 x2 x3 s := rfl
theorem exec_vfabsF32 (x0 : Bool) (x1 : BitVec 7) (x2 : BitVec 7) (s : State) : exec (.vfabsF32 x0 x1 x2) s = execVfabsF32 x0 x1 x2 s := rfl
theorem exec_vfnegF32 (x0 : Bool) (x1 : BitVec 7) (x2 : BitVec 7) (s : State) : exec (.vfnegF32 x0 x1 x2) s = execVfnegF32 x0 x1 x2 s := rfl
theorem exec_vfcsgnF32 (x0 : Bool) (x1 : BitVec 7) (x2 : BitVec 7) (x3 : BitVec 7) (s : State) : exec (.vfcsgnF32 x0 x1 x2 x3) s = execVfcsgnF32 x0 x1 x2 x3 s := rfl
theorem exec_vfabsF64 (x0 : Bool) (x1 : BitVec 7) (x2 : BitVec 7) (s : State) : exec (.vfabsF64 x0 x1 x2) s = execVfabsF64 x0 x1 x2 s := rfl
theorem exec_vfnegF64 (x0 : Bool) (x1 : BitVec 7) (x2 : BitVec 7) (s : State) : exec (.vfnegF64 x0 x1 x2) s = execVfnegF64 x0 x1 x2 s := rfl
theorem exec_vfcsgnF64 (x0 : Bool) (x1 : BitVec 7) (x2 : BitVec 7) (x3 : BitVec 7) (s : State) : exec (.vfcsgnF64 x0 x1 x2 x3) s = execVfcsgnF64 x0 x1 x2 x3 s := rfl
theorem exec_vfredAddF32 (x0 : Bool) (x1 : BitVec 2) (x2 : BitVec 7) (x3 : BitVec 7) (s : State) : exec (.vfredAddF32 x0 x1 x2 x3) s = execVfredAddF32 x0 x1 x2 x3 s := rfl
theorem exec_vfscanAddF32 (x0 : Bool) (x1 : BitVec 2) (x2 : BitVec 7) (x3 : BitVec 7) (s : State) : exec (.vfscanAddF32 x0 x1 x2 x3) s = execVfscanAddF32 x0 x1 x2 x3 s := rfl
theorem exec_vfredMaxF32 (x0 : Bool) (x1 : BitVec 7) (x2 : BitVec 7) (s : State) : exec (.vfredMaxF32 x0 x1 x2) s = execVfredMaxF32 x0 x1 x2 s := rfl
theorem exec_vfredMinF32 (x0 : Bool) (x1 : BitVec 7) (x2 : BitVec 7) (s : State) : exec (.vfredMinF32 x0 x1 x2) s = execVfredMinF32 x0 x1 x2 s := rfl
theorem exec_vfredAddF64 (x0 : Bool) (x1 : BitVec 7) (x2 : BitVec 7) (s : State) : exec (.vfredAddF64 x0 x1 x2) s = execVfredAddF64 x0 x1 x2 s := rfl
theorem exec_vfredMaxF64 (x0 : Bool) (x1 : BitVec 7) (x2 : BitVec 7) (s : State) : exec (.vfredMaxF64 x0 x1 x2) s = execVfredMaxF64 x0 x1 x2 s := rfl
theorem exec_vfredMinF64 (x0 : Bool) (x1 : BitVec 7) (x2 : BitVec 7) (s : State) : exec (.vfredMinF64 x0 x1 x2) s = execVfredMinF64 x0 x1 x2 s := rfl
theorem exec_vfscanAddF64 (x0 : Bool) (x1 : BitVec 7) (x2 : BitVec 7) (s : State) : exec (.vfscanAddF64 x0 x1 x2) s = execVfscanAddF64 x0 x1 x2 s := rfl
theorem exec_vld (x0 : Bool) (x1 : BitVec 4) (x2 : BitVec 7) (x3 : BitVec 7) (x4 : BitVec 6) (x5 : Bool) (s : State) : exec (.vld x0 x1 x2 x3 x4 x5) s = execVld x0 x1 x2 x3 x4 x5 s := rfl
theorem exec_vst (x0 : Bool) (x1 : BitVec 4) (x2 : BitVec 7) (x3 : BitVec 7) (x4 : BitVec 6) (x5 : Bool) (s : State) : exec (.vst x0 x1 x2 x3 x4 x5) s = execVst x0 x1 x2 x3 x4 x5 s := rfl
theorem exec_vatom (x0 : Bool) (x1 : BitVec 4) (x2 : BitVec 7) (x3 : BitVec 7) (x4 : BitVec 6) (x5 : Bool) (s : State) : exec (.vatom x0 x1 x2 x3 x4 x5) s = execVatom x0 x1 x2 x3 x4 x5 s := rfl
theorem exec_fatom (x0 : Bool) (x1 : BitVec 4) (x2 : BitVec 7) (x3 : BitVec 7) (x4 : BitVec 6) (x5 : Bool) (s : State) : exec (.fatom x0 x1 x2 x3 x4 x5) s = execFatom x0 x1 x2 x3 x4 x5 s := rfl
theorem exec_vldSp (x0 : Bool) (x1 : BitVec 2) (x2 : BitVec 7) (x3 : BitVec 7) (x4 : BitVec 6) (x5 : Bool) (s : State) : exec (.vldSp x0 x1 x2 x3 x4 x5) s = execVldSp x0 x1 x2 x3 x4 x5 s := rfl
theorem exec_vstSp (x0 : Bool) (x1 : BitVec 2) (x2 : BitVec 7) (x3 : BitVec 7) (x4 : BitVec 6) (x5 : Bool) (s : State) : exec (.vstSp x0 x1 x2 x3 x4 x5) s = execVstSp x0 x1 x2 x3 x4 x5 s := rfl
theorem exec_vldNv (x0 : Bool) (x1 : BitVec 2) (x2 : BitVec 7) (x3 : BitVec 7) (x4 : BitVec 6) (x5 : Bool) (s : State) : exec (.vldNv x0 x1 x2 x3 x4 x5) s = execVldNv x0 x1 x2 x3 x4 x5 s := rfl
theorem exec_vstNv (x0 : Bool) (x1 : BitVec 2) (x2 : BitVec 7) (x3 : BitVec 7) (x4 : BitVec 6) (x5 : Bool) (s : State) : exec (.vstNv x0 x1 x2 x3 x4 x5) s = execVstNv x0 x1 x2 x3 x4 x5 s := rfl
theorem exec_vcacheWb (x0 : Bool) (x1 : BitVec 7) (x2 : BitVec 6) (x3 : Bool) (s : State) : exec (.vcacheWb x0 x1 x2 x3) s = execVcacheWb x0 x1 x2 x3 s := rfl
theorem exec_vcacheWbinv (x0 : Bool) (x1 : BitVec 7) (x2 : BitVec 6) (x3 : Bool) (s : State) : exec (.vcacheWbinv x0 x1 x2 x3) s = execVcacheWbinv x0 x1 x2 x3 s := rfl
theorem exec_vcachePf (x0 : Bool) (x1 : BitVec 7) (x2 : BitVec 6) (x3 : Bool) (s : State) : exec (.vcachePf x0 x1 x2 x3) s = execVcachePf x0 x1 x2 x3 s := rfl
theorem exec_vcacheDemote (x0 : Bool) (x1 : BitVec 7) (x2 : BitVec 6) (x3 : Bool) (s : State) : exec (.vcacheDemote x0 x1 x2 x3) s = execVcacheDemote x0 x1 x2 x3 s := rfl
theorem exec_sld (x0 : Bool) (x1 : BitVec 6) (x2 : BitVec 6) (x3 : BitVec 3) (x4 : BitVec 9) (s : State) : exec (.sld x0 x1 x2 x3 x4) s = execSld x0 x1 x2 x3 x4 s := rfl
theorem exec_sst (x0 : Bool) (x1 : BitVec 6) (x2 : BitVec 6) (x3 : BitVec 3) (x4 : BitVec 9) (s : State) : exec (.sst x0 x1 x2 x3 x4) s = execSst x0 x1 x2 x3 x4 s := rfl
theorem exec_satom (x0 : Bool) (x1 : BitVec 4) (x2 : BitVec 6) (x3 : BitVec 6) (x4 : BitVec 6) (s : State) : exec (.satom x0 x1 x2 x3 x4) s = execSatom x0 x1 x2 x3 x4 s := rfl
theorem exec_satomNr (x0 : Bool) (x1 : BitVec 4) (x2 : BitVec 6) (x3 : BitVec 6) (s : State) : exec (.satomNr x0 x1 x2 x3) s = execSatomNr x0 x1 x2 x3 s := rfl
theorem exec_fence (x0 : Bool) (x1 : BitVec 6) (x2 : BitVec 6) (s : State) : exec (.fence x0 x1 x2) s = execFence x0 x1 x2 s := rfl
theorem exec_xfence (x0 : Bool) (x1 : BitVec 6) (x2 : BitVec 6) (s : State) : exec (.xfence x0 x1 x2) s = execXfence x0 x1 x2 s := rfl
theorem exec_tlfence (x0 : Bool) (x1 : BitVec 6) (s : State) : exec (.tlfence x0 x1) s = execTlfence x0 x1 s := rfl
theorem exec_ifence (x0 : Bool) (s : State) : exec (.ifence x0) s = execIfence x0 s := rfl
theorem exec_cpyLd (x0 : Bool) (x1 : BitVec 8) (x2 : BitVec 6) (x3 : BitVec 3) (s : State) : exec (.cpyLd x0 x1 x2 x3) s = execCpyLd x0 x1 x2 x3 s := rfl
theorem exec_cpySlot (x0 : Bool) (x1 : BitVec 8) (x2 : BitVec 6) (x3 : BitVec 3) (s : State) : exec (.cpySlot x0 x1 x2 x3) s = execCpySlot x0 x1 x2 x3 s := rfl
theorem exec_cpySt (x0 : Bool) (x1 : BitVec 8) (x2 : BitVec 6) (x3 : BitVec 3) (s : State) : exec (.cpySt x0 x1 x2 x3) s = execCpySt x0 x1 x2 x3 s := rfl
theorem exec_cpyGg (x0 : Bool) (x1 : BitVec 8) (x2 : BitVec 6) (x3 : BitVec 3) (s : State) : exec (.cpyGg x0 x1 x2 x3) s = execCpyGg x0 x1 x2 x3 s := rfl
theorem exec_cpyGth (x0 : Bool) (x1 : BitVec 8) (x2 : BitVec 6) (x3 : BitVec 3) (s : State) : exec (.cpyGth x0 x1 x2 x3) s = execCpyGth x0 x1 x2 x3 s := rfl
theorem exec_cpyMc (x0 : Bool) (x1 : BitVec 8) (x2 : BitVec 6) (x3 : BitVec 3) (s : State) : exec (.cpyMc x0 x1 x2 x3) s = execCpyMc x0 x1 x2 x3 s := rfl
theorem exec_cpyMcSlot (x0 : Bool) (x1 : BitVec 8) (x2 : BitVec 6) (x3 : BitVec 3) (s : State) : exec (.cpyMcSlot x0 x1 x2 x3) s = execCpyMcSlot x0 x1 x2 x3 s := rfl
theorem exec_tnset (x0 : Bool) (x1 : BitVec 8) (x2 : BitVec 6) (x3 : BitVec 6) (s : State) : exec (.tnset x0 x1 x2 x3) s = execTnset x0 x1 x2 x3 s := rfl
theorem exec_tnget (x0 : Bool) (x1 : BitVec 8) (x2 : BitVec 6) (s : State) : exec (.tnget x0 x1 x2) s = execTnget x0 x1 x2 s := rfl
theorem exec_cbat (x0 : Bool) (x1 : Bool) (x2 : BitVec 6) (s : State) : exec (.cbat x0 x1 x2) s = execCbat x0 x1 x2 s := rfl
theorem exec_cwait (x0 : Bool) (x1 : BitVec 16) (s : State) : exec (.cwait x0 x1) s = execCwait x0 x1 s := rfl
theorem exec_cwaitR (x0 : Bool) (x1 : BitVec 6) (s : State) : exec (.cwaitR x0 x1) s = execCwaitR x0 x1 s := rfl
theorem exec_tbinit (x0 : Bool) (x1 : BitVec 6) (x2 : BitVec 6) (s : State) : exec (.tbinit x0 x1 x2) s = execTbinit x0 x1 x2 s := rfl
theorem exec_tbarrive (x0 : Bool) (x1 : BitVec 6) (x2 : BitVec 12) (s : State) : exec (.tbarrive x0 x1 x2) s = execTbarrive x0 x1 x2 s := rfl
theorem exec_tbarriveR (x0 : Bool) (x1 : BitVec 6) (x2 : BitVec 6) (s : State) : exec (.tbarriveR x0 x1 x2) s = execTbarriveR x0 x1 x2 s := rfl
theorem exec_tbwait (x0 : Bool) (x1 : BitVec 6) (x2 : BitVec 6) (s : State) : exec (.tbwait x0 x1 x2) s = execTbwait x0 x1 x2 s := rfl
theorem exec_tbphase (x0 : Bool) (x1 : BitVec 6) (x2 : BitVec 6) (s : State) : exec (.tbphase x0 x1 x2) s = execTbphase x0 x1 x2 s := rfl
theorem exec_sltake (x0 : Bool) (x1 : BitVec 6) (x2 : BitVec 6) (s : State) : exec (.sltake x0 x1 x2) s = execSltake x0 x1 x2 s := rfl
theorem exec_slrel (x0 : Bool) (x1 : BitVec 6) (x2 : BitVec 6) (s : State) : exec (.slrel x0 x1 x2) s = execSlrel x0 x1 x2 s := rfl
theorem exec_sltag (x0 : Bool) (x1 : BitVec 6) (x2 : BitVec 6) (x3 : BitVec 6) (s : State) : exec (.sltag x0 x1 x2 x3) s = execSltag x0 x1 x2 x3 s := rfl
theorem exec_slinit (x0 : Bool) (x1 : BitVec 6) (x2 : BitVec 6) (s : State) : exec (.slinit x0 x1 x2) s = execSlinit x0 x1 x2 s := rfl
theorem exec_qpush (x0 : Bool) (x1 : Bool) (x2 : Bool) (x3 : BitVec 6) (x4 : BitVec 8) (s : State) : exec (.qpush x0 x1 x2 x3 x4) s = execQpush x0 x1 x2 x3 x4 s := rfl
theorem exec_qpushTry (x0 : Bool) (x1 : Bool) (x2 : Bool) (x3 : BitVec 6) (x4 : BitVec 6) (x5 : BitVec 8) (s : State) : exec (.qpushTry x0 x1 x2 x3 x4 x5) s = execQpushTry x0 x1 x2 x3 x4 x5 s := rfl
theorem exec_qwait (x0 : Bool) (x1 : Bool) (x2 : Bool) (x3 : BitVec 6) (x4 : BitVec 8) (s : State) : exec (.qwait x0 x1 x2 x3 x4) s = execQwait x0 x1 x2 x3 x4 s := rfl
theorem exec_qpopTry (x0 : Bool) (x1 : Bool) (x2 : Bool) (x3 : BitVec 6) (x4 : BitVec 6) (x5 : BitVec 8) (s : State) : exec (.qpopTry x0 x1 x2 x3 x4 x5) s = execQpopTry x0 x1 x2 x3 x4 x5 s := rfl
theorem exec_vmma (x0 : Bool) (x1 : BitVec 4) (x2 : BitVec 7) (x3 : BitVec 7) (x4 : BitVec 7) (s : State) : exec (.vmma x0 x1 x2 x3 x4) s = execVmma x0 x1 x2 x3 x4 s := rfl
theorem exec_fmm (x0 : Bool) (x1 : BitVec 7) (x2 : BitVec 6) (x3 : Bool) (s : State) : exec (.fmm x0 x1 x2 x3) s = execFmm x0 x1 x2 x3 s := rfl
theorem exec_fmmt (x0 : Bool) (x1 : BitVec 7) (x2 : BitVec 6) (x3 : Bool) (s : State) : exec (.fmmt x0 x1 x2 x3) s = execFmmt x0 x1 x2 x3 s := rfl
theorem exec_fpoly (x0 : Bool) (x1 : BitVec 7) (x2 : BitVec 6) (s : State) : exec (.fpoly x0 x1 x2) s = execFpoly x0 x1 x2 s := rfl
theorem exec_fiter (x0 : Bool) (x1 : BitVec 7) (x2 : BitVec 6) (x3 : BitVec 6) (s : State) : exec (.fiter x0 x1 x2 x3) s = execFiter x0 x1 x2 x3 s := rfl
theorem exec_ftmask (x0 : Bool) (x1 : BitVec 7) (x2 : BitVec 6) (s : State) : exec (.ftmask x0 x1 x2) s = execFtmask x0 x1 x2 s := rfl
theorem exec_ftmaskAnc (x0 : Bool) (x1 : BitVec 7) (x2 : BitVec 6) (s : State) : exec (.ftmaskAnc x0 x1 x2) s = execFtmaskAnc x0 x1 x2 s := rfl
theorem exec_faccLd (x0 : Bool) (x1 : BitVec 7) (x2 : BitVec 6) (s : State) : exec (.faccLd x0 x1 x2) s = execFaccLd x0 x1 x2 s := rfl
theorem exec_faccStF32 (x0 : Bool) (x1 : BitVec 7) (x2 : BitVec 6) (s : State) : exec (.faccStF32 x0 x1 x2) s = execFaccStF32 x0 x1 x2 s := rfl
theorem exec_faccStBf16 (x0 : Bool) (x1 : BitVec 7) (x2 : BitVec 6) (s : State) : exec (.faccStBf16 x0 x1 x2) s = execFaccStBf16 x0 x1 x2 s := rfl
theorem exec_faccStF16 (x0 : Bool) (x1 : BitVec 7) (x2 : BitVec 6) (s : State) : exec (.faccStF16 x0 x1 x2) s = execFaccStF16 x0 x1 x2 s := rfl
theorem exec_faccRd (x0 : Bool) (x1 : BitVec 7) (x2 : BitVec 7) (x3 : BitVec 2) (s : State) : exec (.faccRd x0 x1 x2 x3) s = execFaccRd x0 x1 x2 x3 s := rfl
theorem exec_faccZero (x0 : Bool) (x1 : BitVec 7) (s : State) : exec (.faccZero x0 x1) s = execFaccZero x0 x1 s := rfl
theorem exec_fcset (x0 : Bool) (x1 : BitVec 4) (x2 : BitVec 6) (s : State) : exec (.fcset x0 x1 x2) s = execFcset x0 x1 x2 s := rfl
theorem exec_fcget (x0 : Bool) (x1 : BitVec 4) (x2 : BitVec 6) (s : State) : exec (.fcget x0 x1 x2) s = execFcget x0 x1 x2 s := rfl
theorem exec_fcld (x0 : Bool) (x1 : BitVec 6) (s : State) : exec (.fcld x0 x1) s = execFcld x0 x1 s := rfl
theorem exec_fslotTake (x0 : Bool) (x1 : BitVec 6) (x2 : BitVec 6) (s : State) : exec (.fslotTake x0 x1 x2) s = execFslotTake x0 x1 x2 s := rfl
theorem exec_fslotRelease (x0 : Bool) (x1 : BitVec 6) (x2 : BitVec 6) (s : State) : exec (.fslotRelease x0 x1 x2) s = execFslotRelease x0 x1 x2 s := rfl
theorem exec_ftbarrive (x0 : Bool) (x1 : BitVec 6) (x2 : BitVec 12) (s : State) : exec (.ftbarrive x0 x1 x2) s = execFtbarrive x0 x1 x2 s := rfl
theorem exec_emulationEntry (x0 : Word) (s : State) : exec (.emulationEntry x0) s = execEmulationEntry x0 s := rfl
theorem exec_packetNop (x0 : Nat) (s : State) : exec (.packetNop x0) s = execPacketNop x0 s := rfl
theorem exec_launch (x0 : Nat) (s : State) : exec (.launch x0) s = execLaunch x0 s := rfl
theorem exec_signal (x0 : Nat) (s : State) : exec (.signal x0) s = execSignal x0 s := rfl
theorem exec_signalWaitallRelease (x0 : Nat) (s : State) : exec (.signalWaitallRelease x0) s = execSignalWaitallRelease x0 s := rfl
theorem exec_waitmem (x0 : Nat) (s : State) : exec (.waitmem x0) s = execWaitmem x0 s := rfl
theorem exec_waitmemSatisfied (x0 : Nat) (s : State) : exec (.waitmemSatisfied x0) s = execWaitmemSatisfied x0 s := rfl
theorem exec_fieldset (x0 : Nat) (s : State) : exec (.fieldset x0) s = execFieldset x0 s := rfl
theorem exec_fieldsetDestroy (x0 : Nat) (s : State) : exec (.fieldsetDestroy x0) s = execFieldsetDestroy x0 s := rfl
theorem exec_setctx (x0 : Nat) (s : State) : exec (.setctx x0) s = execSetctx x0 s := rfl
theorem exec_setctxDestroy (x0 : Nat) (s : State) : exec (.setctxDestroy x0) s = execSetctxDestroy x0 s := rfl
theorem exec_wqcreate (x0 : Nat) (s : State) : exec (.wqcreate x0) s = execWqcreate x0 s := rfl
theorem exec_wqDestroy (x0 : Nat) (s : State) : exec (.wqDestroy x0) s = execWqDestroy x0 s := rfl
theorem exec_graphrun (x0 : Nat) (s : State) : exec (.graphrun x0) s = execGraphrun x0 s := rfl
theorem exec_graphedit (x0 : Nat) (s : State) : exec (.graphedit x0) s = execGraphedit x0 s := rfl
theorem exec_fwdupdate (x0 : Nat) (s : State) : exec (.fwdupdate x0) s = execFwdupdate x0 s := rfl
theorem exec_xlateinv (x0 : Nat) (s : State) : exec (.xlateinv x0) s = execXlateinv x0 s := rfl
theorem exec_syninv (x0 : Nat) (s : State) : exec (.syninv x0) s = execSyninv x0 s := rfl
theorem exec_vaultgrant (x0 : Nat) (s : State) : exec (.vaultgrant x0) s = execVaultgrant x0 s := rfl
theorem exec_preempt (x0 : Nat) (s : State) : exec (.preempt x0) s = execPreempt x0 s := rfl
theorem exec_teamctlDestroy (x0 : Nat) (s : State) : exec (.teamctlDestroy x0) s = execTeamctlDestroy x0 s := rfl
theorem exec_teamctlResume (x0 : Nat) (s : State) : exec (.teamctlResume x0) s = execTeamctlResume x0 s := rfl
theorem exec_faultreplyRetry (x0 : Nat) (s : State) : exec (.faultreplyRetry x0) s = execFaultreplyRetry x0 s := rfl
theorem exec_faultreplyFail (x0 : Nat) (s : State) : exec (.faultreplyFail x0) s = execFaultreplyFail x0 s := rfl
theorem exec_faultring (x0 : Nat) (s : State) : exec (.faultring x0) s = execFaultring x0 s := rfl
theorem exec_vaultcarve (x0 : Nat) (s : State) : exec (.vaultcarve x0) s = execVaultcarve x0 s := rfl
theorem exec_keyarea (x0 : Nat) (s : State) : exec (.keyarea x0) s = execKeyarea x0 s := rfl
theorem exec_protways (x0 : Nat) (s : State) : exec (.protways x0) s = execProtways x0 s := rfl
theorem exec_scrub (x0 : Nat) (s : State) : exec (.scrub x0) s = execScrub x0 s := rfl
theorem exec_attest (x0 : Nat) (s : State) : exec (.attest x0) s = execAttest x0 s := rfl
theorem exec_tracekey (x0 : Nat) (s : State) : exec (.tracekey x0) s = execTracekey x0 s := rfl
theorem exec_dbgctlBpset (x0 : Nat) (s : State) : exec (.dbgctlBpset x0) s = execDbgctlBpset x0 s := rfl
theorem exec_dbgctlStop (x0 : Nat) (s : State) : exec (.dbgctlStop x0) s = execDbgctlStop x0 s := rfl
theorem exec_dbgctlResume (x0 : Nat) (s : State) : exec (.dbgctlResume x0) s = execDbgctlResume x0 s := rfl
theorem exec_dbgctlStep (x0 : Nat) (s : State) : exec (.dbgctlStep x0) s = execDbgctlStep x0 s := rfl
theorem exec_dbgctlDump (x0 : Nat) (s : State) : exec (.dbgctlDump x0) s = execDbgctlDump x0 s := rfl
theorem exec_dbgctlWrite (x0 : Nat) (s : State) : exec (.dbgctlWrite x0) s = execDbgctlWrite x0 s := rfl
theorem exec_tracectl (x0 : Nat) (s : State) : exec (.tracectl x0) s = execTracectl x0 s := rfl
theorem exec_resync (x0 : Nat) (s : State) : exec (.resync x0) s = execResync x0 s := rfl
theorem exec_powercap (x0 : Nat) (s : State) : exec (.powercap x0) s = execPowercap x0 s := rfl
theorem exec_doorbell (x0 : Nat) (s : State) : exec (.doorbell x0) s = execDoorbell x0 s := rfl
theorem exec_queueScan (x0 : Nat) (s : State) : exec (.queueScan x0) s = execQueueScan x0 s := rfl
theorem exec_orphanLatch (x0 : Nat) (s : State) : exec (.orphanLatch x0) s = execOrphanLatch x0 s := rfl
theorem exec_qtbaseWrite (x0 : Dword) (s : State) : exec (.qtbaseWrite x0) s = execQtbaseWrite x0 s := rfl
theorem exec_cxldecWrite (x0 : Dword) (s : State) : exec (.cxldecWrite x0) s = execCxldecWrite x0 s := rfl
theorem exec_registerWrite (x0 : Nat) (x1 : Dword) (s : State) : exec (.registerWrite x0 x1) s = execRegisterWrite x0 x1 s := rfl
theorem exec_go (x0 : Word) (s : State) : exec (.go x0) s = execGo x0 s := rfl
theorem exec_resetreq (x0 : Word) (s : State) : exec (.resetreq x0) s = execResetreq x0 s := rfl
theorem exec_bootLoadComplete (s : State) : exec .bootLoadComplete s = execBootLoadComplete s := rfl
theorem exec_powerOnReset (s : State) : exec .powerOnReset s = execPowerOnReset s := rfl
theorem exec_deviceReset (s : State) : exec .deviceReset s = execDeviceReset s := rfl
theorem exec_hostWindowAccess (x0 : Nat) (x1 : Nat) (x2 : Nat) (x3 : Nat) (x4 : Bool) (x5 : List Byte) (s : State) : exec (.hostWindowAccess x0 x1 x2 x3 x4 x5) s = execHostWindowAccess x0 x1 x2 x3 x4 x5 s := rfl
theorem exec_teamAdmit (s : State) : exec .teamAdmit s = execTeamAdmit s := rfl
theorem exec_teamSaveComplete (x0 : Nat) (s : State) : exec (.teamSaveComplete x0) s = execTeamSaveComplete x0 s := rfl
theorem exec_teamRestore (x0 : Nat) (s : State) : exec (.teamRestore x0) s = execTeamRestore x0 s := rfl
theorem exec_drainTimeout (x0 : Nat) (s : State) : exec (.drainTimeout x0) s = execDrainTimeout x0 s := rfl
theorem exec_serviceLimitExpiry (x0 : Nat) (s : State) : exec (.serviceLimitExpiry x0) s = execServiceLimitExpiry x0 s := rfl
theorem exec_migration (x0 : Nat) (s : State) : exec (.migration x0) s = execMigration x0 s := rfl
theorem exec_eqpHoldTimeout (x0 : Nat) (x1 : Nat) (s : State) : exec (.eqpHoldTimeout x0 x1) s = execEqpHoldTimeout x0 x1 s := rfl
theorem exec_clearSequenceDone (x0 : Nat) (s : State) : exec (.clearSequenceDone x0) s = execClearSequenceDone x0 s := rfl
theorem exec_keyReseat (x0 : Nat) (s : State) : exec (.keyReseat x0) s = execKeyReseat x0 s := rfl
theorem exec_walkComplete (x0 : Nat) (s : State) : exec (.walkComplete x0) s = execWalkComplete x0 s := rfl
theorem exec_faultRingRoom (s : State) : exec .faultRingRoom s = execFaultRingRoom s := rfl
theorem exec_homeRequest (x0 : Nat) (s : State) : exec (.homeRequest x0) s = execHomeRequest x0 s := rfl
theorem exec_clockBeatSend (x0 : Nat) (x1 : Nat) (s : State) : exec (.clockBeatSend x0 x1) s = execClockBeatSend x0 x1 s := rfl
theorem exec_clockBeat (x0 : Nat) (x1 : Nat) (s : State) : exec (.clockBeat x0 x1) s = execClockBeat x0 x1 s := rfl
theorem exec_replyReceive (x0 : Nat) (s : State) : exec (.replyReceive x0) s = execReplyReceive x0 s := rfl
theorem exec_resultReturn (x0 : Nat) (s : State) : exec (.resultReturn x0) s = execResultReturn x0 s := rfl
theorem exec_storePerformed (x0 : Nat) (s : State) : exec (.storePerformed x0) s = execStorePerformed x0 s := rfl
theorem exec_sectorLand (x0 : Nat) (x1 : Nat) (s : State) : exec (.sectorLand x0 x1) s = execSectorLand x0 x1 s := rfl
theorem exec_l2WriteQueuePerform (x0 : Nat) (x1 : Nat) (x2 : Nat) (s : State) : exec (.l2WriteQueuePerform x0 x1 x2) s = execL2WriteQueuePerform x0 x1 x2 s := rfl
theorem exec_flumeOpApplied (x0 : Nat) (x1 : Option Nat) (s : State) : exec (.flumeOpApplied x0 x1) s = execFlumeOpApplied x0 x1 s := rfl
theorem exec_fiterStop (x0 : Nat) (s : State) : exec (.fiterStop x0) s = execFiterStop x0 s := rfl
theorem exec_waitTimeout (x0 : Nat) (x1 : Option Nat) (x2 : Nat) (s : State) : exec (.waitTimeout x0 x1 x2) s = execWaitTimeout x0 x1 x2 s := rfl
theorem exec_waitMemwordPoll (x0 : Nat) (x1 : Option Nat) (x2 : Nat) (s : State) : exec (.waitMemwordPoll x0 x1 x2) s = execWaitMemwordPoll x0 x1 x2 s := rfl
theorem exec_rowPoolEmpty (x0 : Nat) (x1 : Nat) (x2 : Nat) (s : State) : exec (.rowPoolEmpty x0 x1 x2) s = execRowPoolEmpty x0 x1 x2 s := rfl
theorem exec_queueRequestAtHome (x0 : Nat) (s : State) : exec (.queueRequestAtHome x0) s = execQueueRequestAtHome x0 s := rfl
theorem exec_llScoreHalve (x0 : Nat) (s : State) : exec (.llScoreHalve x0) s = execLlScoreHalve x0 s := rfl
theorem exec_llCapUpdate (x0 : Nat) (s : State) : exec (.llCapUpdate x0) s = execLlCapUpdate x0 s := rfl
theorem exec_sampleTag (x0 : Nat) (x1 : Nat) (s : State) : exec (.sampleTag x0 x1) s = execSampleTag x0 x1 s := rfl
theorem exec_flitReceive (x0 : Nat) (x1 : Bool) (x2 : Bool) (s : State) : exec (.flitReceive x0 x1 x2) s = execFlitReceive x0 x1 x2 s := rfl
theorem exec_ackIdleTimer (x0 : Nat) (s : State) : exec (.ackIdleTimer x0) s = execAckIdleTimer x0 s := rfl
theorem exec_nakRepeatTimer (x0 : Nat) (s : State) : exec (.nakRepeatTimer x0) s = execNakRepeatTimer x0 s := rfl
theorem exec_replayTimeout (x0 : Nat) (s : State) : exec (.replayTimeout x0) s = execReplayTimeout x0 s := rfl
theorem exec_retrainComplete (x0 : Nat) (x1 : Nat) (s : State) : exec (.retrainComplete x0 x1) s = execRetrainComplete x0 x1 s := rfl
theorem exec_coreUncorrectableError (x0 : Nat) (x1 : List Nat) (s : State) : exec (.coreUncorrectableError x0 x1) s = execCoreUncorrectableError x0 x1 s := rfl
theorem exec_eccCorrected (x0 : Nat) (s : State) : exec (.eccCorrected x0) s = execEccCorrected x0 s := rfl
theorem exec_sectorPoison (x0 : Nat) (x1 : Nat) (x2 : Nat) (s : State) : exec (.sectorPoison x0 x1 x2) s = execSectorPoison x0 x1 x2 s := rfl
theorem exec_laneDefect (x0 : Nat) (x1 : Nat) (x2 : Nat) (s : State) : exec (.laneDefect x0 x1 x2) s = execLaneDefect x0 x1 x2 s := rfl
theorem exec_powerThrottle (x0 : Nat) (s : State) : exec (.powerThrottle x0) s = execPowerThrottle x0 s := rfl
theorem exec_thermalThrottle (x0 : Nat) (s : State) : exec (.thermalThrottle x0) s = execThermalThrottle x0 s := rfl
theorem exec_thermalTrip (x0 : Nat) (s : State) : exec (.thermalTrip x0) s = execThermalTrip x0 s := rfl
theorem exec_coolantFault (s : State) : exec .coolantFault s = execCoolantFault s := rfl
theorem exec_culvertLinkStateChange (x0 : Nat) (x1 : Bool) (s : State) : exec (.culvertLinkStateChange x0 x1) s = execCulvertLinkStateChange x0 x1 s := rfl
theorem exec_cxlPortStateChange (x0 : Nat) (x1 : Bool) (s : State) : exec (.cxlPortStateChange x0 x1) s = execCxlPortStateChange x0 x1 s := rfl
theorem exec_powerLoss (s : State) : exec .powerLoss s = execPowerLoss s := rfl
theorem exec_commandComplete (x0 : Nat) (s : State) : exec (.commandComplete x0) s = execCommandComplete x0 s := rfl
theorem exec_referenceRewrite (x0 : Nat) (x1 : Nat) (s : State) : exec (.referenceRewrite x0 x1) s = execReferenceRewrite x0 x1 s := rfl
theorem exec_remapFilterWalkComplete (x0 : Nat) (s : State) : exec (.remapFilterWalkComplete x0) s = execRemapFilterWalkComplete x0 s := rfl

end Sys2Proof.Machine
end

