-- ==== Sys2Proof/Laws/Tbl.lean ====
section
/-! SUPPORT. Reading a table after it has been changed. The laws hold of every table, its keys rising or not. -/

namespace Sys2Proof.Machine.Tbl

variable {α : Type}

@[simp] theorem get?_nil (k : Nat) : Tbl.get? ([] : Tbl α) k = none := rfl

theorem get?_cons (k k' : Nat) (v : α) (t : Tbl α) :
    Tbl.get? ((k', v) :: t) k = if k' = k then some v else Tbl.get? t k := rfl

@[simp] theorem get?_put_same (t : Tbl α) (k : Nat) (v : α) : Tbl.get? (Tbl.put t k v) k = some v := by
  induction t <;> grind [put, get?]

@[simp] theorem get?_put_other (t : Tbl α) (k j : Nat) (v : α) (h : j ≠ k) :
    Tbl.get? (Tbl.put t k v) j = Tbl.get? t j := by
  induction t <;> grind [put, get?]

theorem get?_put (t : Tbl α) (k j : Nat) (v : α) :
    Tbl.get? (Tbl.put t k v) j = if j = k then some v else Tbl.get? t j := by
  grind [get?_put_same, get?_put_other]

@[simp] theorem get?_del_same (t : Tbl α) (k : Nat) : Tbl.get? (Tbl.del t k) k = none := by
  induction t <;> grind [del, get?]

@[simp] theorem get?_del_other (t : Tbl α) (k j : Nat) (h : j ≠ k) : Tbl.get? (Tbl.del t k) j = Tbl.get? t j := by
  induction t <;> grind [del, get?]

theorem get?_del (t : Tbl α) (k j : Nat) : Tbl.get? (Tbl.del t k) j = if j = k then none else Tbl.get? t j := by
  grind [get?_del_same, get?_del_other]

theorem get?_upd (t : Tbl α) (k j : Nat) (f : α → α) :
    Tbl.get? (Tbl.upd t k f) j = if j = k then (Tbl.get? t k).map f else Tbl.get? t j := by
  grind [upd, get?_put]

@[simp] theorem get?_upd_same (t : Tbl α) (k : Nat) (f : α → α) : Tbl.get? (Tbl.upd t k f) k = (Tbl.get? t k).map f := by
  simp [get?_upd]

@[simp] theorem get?_upd_other (t : Tbl α) (k j : Nat) (f : α → α) (h : j ≠ k) :
    Tbl.get? (Tbl.upd t k f) j = Tbl.get? t j := by
  simp [get?_upd, h]

@[simp] theorem get?_mapVals (t : Tbl α) (f : Nat → α → α) (k : Nat) :
    Tbl.get? (Tbl.mapVals t f) k = (Tbl.get? t k).map (f k) := by
  induction t <;> grind [mapVals, get?]

theorem getD_put (t : Tbl α) (k j : Nat) (v d : α) :
    Tbl.getD (Tbl.put t k v) j d = if j = k then v else Tbl.getD t j d := by
  grind [getD, get?_put]

@[simp] theorem getD_put_same (t : Tbl α) (k : Nat) (v d : α) : Tbl.getD (Tbl.put t k v) k d = v := by
  simp [getD_put]

@[simp] theorem getD_put_other (t : Tbl α) (k j : Nat) (v d : α) (h : j ≠ k) :
    Tbl.getD (Tbl.put t k v) j d = Tbl.getD t j d := by
  simp [getD_put, h]

theorem getD_del (t : Tbl α) (k j : Nat) (d : α) :
    Tbl.getD (Tbl.del t k) j d = if j = k then d else Tbl.getD t j d := by
  grind [getD, get?_del]

theorem has_put (t : Tbl α) (k j : Nat) (v : α) : Tbl.has (Tbl.put t k v) j = (decide (j = k) || Tbl.has t j) := by
  grind [has, get?_put]

/-- Putting twice at one key leaves the second value. -/
@[simp] theorem put_put_same (t : Tbl α) (k : Nat) (v u : α) : Tbl.put (Tbl.put t k v) k u = Tbl.put t k u := by
  induction t <;> grind [put]

end Sys2Proof.Machine.Tbl
end

