-- ==== Sys2Proof/Laws/Memory.lean ====
section
/-! SUPPORT. The canonical form of memories, kept by every memory operation, what a byte reads after a
write, and memory read as its bytes. -/

namespace Sys2Proof.Machine

/-- The canonical form as a property: rising addresses, no blank entry. -/
theorem Memory.wf_iff (m : Memory) :
    Memory.wf m = true ↔ m.Pairwise (fun x y => x.1 < y.1) ∧ ∀ c ∈ m, c.2 ≠ Memory.blank := by
  induction m with
  | nil => simp [Memory.wf]
  | cons c m ih =>
    obtain ⟨a, v⟩ := c
    cases m with
    | nil => simp [Memory.wf]
    | cons d m =>
      obtain ⟨b, u⟩ := d
      simp only [Memory.wf, Bool.and_eq_true, bne_iff_ne, ne_eq, decide_eq_true_eq, ih, List.pairwise_cons, List.forall_mem_cons]
      grind

theorem Memory.empty_wf : Memory.wf Memory.empty = true := rfl

/-- Entries removed leave the form. -/
theorem Memory.filter_wf (m : Memory) (p : Host.Cell → Bool) (h : Memory.wf m = true) :
    Memory.wf (m.filter p) = true := by
  rw [Memory.wf_iff] at h ⊢
  exact ⟨h.1.filter p, fun c hc => h.2 c (List.mem_of_mem_filter hc)⟩

theorem Memory.mem_put {m : Memory} {a : Nat} {v : Byte} {c : Host.Cell} (h : c ∈ Tbl.put m a v) :
    c = (a, v) ∨ c ∈ m := by
  induction m <;> grind [Tbl.put]

theorem Memory.tblPut_wf (m : Memory) (a : Nat) (v : Byte) (hv : v ≠ Memory.blank) (h : Memory.wf m = true) :
    Memory.wf (Tbl.put m a v) = true := by
  rw [Memory.wf_iff] at h ⊢
  refine ⟨?_, fun c hc => (Memory.mem_put hc).elim (fun e => e ▸ hv) (h.2 c)⟩
  replace h := h.1
  induction m with
  | nil => simp [Tbl.put]
  | cons e m ih =>
    have above (c : Host.Cell) (hc : c ∈ Tbl.put m a v) : c = (a, v) ∨ c ∈ m := Memory.mem_put hc
    grind [Tbl.put, List.pairwise_cons]

theorem Memory.tblDel_eq (m : Memory) (a : Nat) : Tbl.del m a = m.filter fun c => !(c.1 == a) := by
  induction m <;> grind [Tbl.del]

/-- A byte written keeps the form. -/
theorem Memory.put_wf (m : Memory) (a : Nat) (v : Byte) (h : Memory.wf m = true) : Memory.wf (m.put a v) = true := by
  unfold Memory.put
  split
  · rw [Memory.tblDel_eq]; exact Memory.filter_wf _ _ h
  · next hv => exact Memory.tblPut_wf m a v hv h

/-- Bytes written keep the form. -/
theorem Memory.write_wf (bs : List Byte) (m : Memory) (a : Nat) (h : Memory.wf m = true) :
    Memory.wf (m.write a bs) = true := by
  induction bs generalizing m a with
  | nil => exact h
  | cons b bs ih => exact ih _ _ (Memory.put_wf m a b h)

/-- A number stored keeps the form. -/
theorem Memory.store_wf (m : Memory) (a n v : Nat) (h : Memory.wf m = true) : Memory.wf (m.store a n v) = true :=
  Memory.write_wf _ _ _ h

/-- A range zeroed keeps the form. -/
theorem Memory.zero_wf (m : Memory) (a n : Nat) (h : Memory.wf m = true) : Memory.wf (m.zero a n) = true :=
  Memory.filter_wf _ _ h

/-- A range replaced keeps the form. -/
theorem Memory.replace_wf (m : Memory) (a n : Nat) (f : Nat → Byte) (h : Memory.wf m = true) :
    Memory.wf (m.replace a n f) = true := by
  rw [Memory.wf_iff] at h ⊢
  have mid : ∀ c ∈ ((List.range n).map fun i => (a + i, f i)).filter (fun c => c.2 != Memory.blank),
      a ≤ c.1 ∧ c.1 < a + n := by
    intro c hc
    obtain ⟨i, hi, rfl⟩ := List.mem_map.1 (List.mem_of_mem_filter hc)
    have := List.mem_range.1 hi
    exact ⟨by simp, by simpa using this⟩
  have hmap : ((List.range n).map fun i => ((a + i, f i) : Host.Cell)).Pairwise fun x y => x.1 < y.1 := by
    rw [List.pairwise_map]
    exact (List.pairwise_lt_range).imp fun h => by simpa using h
  have low : ∀ c ∈ m.filter (fun c => decide (c.1 < a)), c.1 < a := fun c hc => by simpa using List.of_mem_filter hc
  have high : ∀ c ∈ m.filter (fun c => decide (a + n ≤ c.1)), a + n ≤ c.1 := fun c hc => by simpa using List.of_mem_filter hc
  unfold Memory.replace
  refine ⟨?_, fun c hc => ?_⟩
  · simp only [List.pairwise_append, List.mem_append]
    refine ⟨⟨h.1.filter _, hmap.filter _, ?_⟩, h.1.filter _, ?_⟩ <;> intro x hx y hy
    · have := low x hx; have := (mid y hy).1; omega
    · have := high y hy; have := hx.imp (low x) fun hx => (mid x hx).2; omega
  · simp only [List.mem_append, List.mem_filter, bne_iff_ne] at hc
    exact hc.elim (fun hc => hc.elim (fun hc => h.2 c hc.1) fun hc => hc.2) fun hc => h.2 c hc.1

/-- Bytes put one after another by a fold keep the form. -/
theorem Memory.foldl_put_wf {β : Type} (l : List β) (a : β → Nat) (v : β → Byte) (m : Memory) (h : Memory.wf m = true) :
    Memory.wf (l.foldl (fun m x => Memory.put m (a x) (v x)) m) = true := by
  induction l generalizing m with
  | nil => exact h
  | cons x l ih => exact ih _ (Memory.put_wf _ _ _ h)

/-! ## Reads after writes -/

/-- A byte read after a byte written. -/
theorem Memory.get_put (m : Memory) (a b : Nat) (v : Byte) : (m.put a v).get b = if b = a then v else m.get b := by
  unfold Memory.put Memory.get
  split
  · next hv =>
    rw [Tbl.getD_del, hv]
  · rw [Tbl.getD_put]

/-- A byte read after bytes written. -/
theorem Memory.get_write (bs : List Byte) (m : Memory) (a b : Nat) :
    (m.write a bs).get b = if a ≤ b ∧ b < a + bs.length then bs.getD (b - a) 0 else m.get b := by
  induction bs generalizing m a with
  | nil => simp [Memory.write]
  | cons x bs ih =>
    show ((m.put a x).write (a + 1) bs).get b = _
    rw [ih, Memory.get_put, List.length_cons]
    rcases Nat.lt_trichotomy b a with hb | rfl | hb
    · simp [show ¬ a + 1 ≤ b by omega, show ¬ a ≤ b by omega, show b ≠ a by omega]
    · simp
    · rw [show b - a = b - (a + 1) + 1 by omega, List.getD_cons_succ]
      grind

theorem bytesOf_length (n v : Nat) : (bytesOf n v).length = n := by simp [bytesOf]

/-- A byte outside a stored number reads as before. -/
theorem Memory.get_store_other (m : Memory) (a n v b : Nat) (h : b < a ∨ a + n ≤ b) :
    (m.store a n v).get b = m.get b := by
  unfold Memory.store
  rw [Memory.get_write, bytesOf_length, if_neg (by omega)]

/-- A byte inside a stored number is that byte of the number (R2). -/
theorem Memory.get_store_same (m : Memory) (a n v i : Nat) (h : i < n) :
    (m.store a n v).get (a + i) = BitVec.ofNat 8 (v / 2 ^ (8 * i)) := by
  unfold Memory.store
  rw [Memory.get_write, bytesOf_length, if_pos (by omega)]
  simp [bytesOf, h]

theorem ofBytes_bytesOf (n v : Nat) : ofBytes (bytesOf n v) = v % 2 ^ (8 * n) := by
  induction n generalizing v with
  | zero => simp [bytesOf, ofBytes, Nat.mod_one]
  | succ n ih =>
    have hs : bytesOf (n + 1) v = BitVec.ofNat 8 v :: bytesOf n (v / 256) := by
      simp only [bytesOf, List.range_succ_eq_map, List.map_cons, List.map_map]
      refine congr_arg₂ _ (by simp) (List.map_congr_left fun i _ => ?_)
      simp only [Function.comp]
      congr 1
      rw [Nat.div_div_eq_div_mul]
      congr 1
      rw [show 8 * (i + 1) = 8 + 8 * i by ring, pow_add]
      norm_num
    rw [hs]
    simp only [ofBytes, ih, BitVec.toNat_ofNat]
    rw [show 8 * (n + 1) = 8 + 8 * n by ring, pow_add, show (2 : Nat) ^ 8 = 256 by norm_num, Nat.mod_mul]

/-- A number loaded from where it was stored (R2). -/
theorem Memory.load_store (m : Memory) (a n v : Nat) : (m.store a n v).load a n = v % 2 ^ (8 * n) := by
  rw [← ofBytes_bytesOf]
  unfold Memory.load Memory.read
  congr 1
  unfold bytesOf
  refine List.map_congr_left fun i hi => ?_
  exact Memory.get_store_same m a n v i (List.mem_range.1 hi)

/-- Bytes read where they were written. -/
theorem Memory.read_write (m : Memory) (a : Nat) (bs : List Byte) : (m.write a bs).read a bs.length = bs := by
  apply List.ext_getElem
  · simp [Memory.read]
  · intro i h1 h2
    simp [Memory.read, Memory.get_write, h2]

/-- n bytes are a number below 2^(8n). -/
theorem ofBytes_lt (bs : List Byte) : ofBytes bs < 2 ^ (8 * bs.length) := by
  induction bs with
  | nil => simp [ofBytes]
  | cons b bs ih =>
    have := b.isLt
    simp only [ofBytes, List.length_cons, show 8 * (bs.length + 1) = 8 + 8 * bs.length by ring, pow_add]
    omega

/-- Byte k of a number is byte k of the list that gave it (R2). -/
theorem ofBytes_byte (bs : List Byte) (k : Nat) : ofBytes bs / 2 ^ (8 * k) % 256 = (bs.getD k 0).toNat := by
  induction bs generalizing k with
  | nil => simp [ofBytes]
  | cons b bs ih =>
    have := b.isLt
    cases k with
    | zero => simp only [ofBytes]; simp; omega
    | succ k =>
      simp only [ofBytes, List.getD_cons_succ, ← ih k]
      rw [show 8 * (k + 1) = 8 + 8 * k by ring, pow_add, ← Nat.div_div_eq_div_mul]
      congr 2
      omega

/-- A byte of a sector made of bytes. -/
theorem sectOf_byte (bs : List Byte) (k : Nat) (h : bs.length = 64) :
    (sectOf bs).extractLsb' (8 * k) 8 = bs.getD k 0 := by
  apply BitVec.eq_of_toNat_eq
  have lt := ofBytes_lt bs
  rw [h] at lt
  rw [← ofBytes_byte, BitVec.extractLsb'_toNat, sectOf, BitVec.toNat_ofNat, Nat.mod_eq_of_lt lt, Nat.shiftRight_eq_div_pow]

/-- A byte of memory is that byte of the sector that its home reads. -/
theorem homeByte_eq (s : State) (pa : Nat) :
    homeByte s pa = (homeSector s (homeOf s pa) (pa / 64)).extractLsb' (8 * (pa % 64)) 8 := by
  have h : pa % 64 < 64 := Nat.mod_lt _ (by norm_num)
  unfold homeByte homeSector
  cases (s.die (homeOf s pa)).msc.get? (pa / 64) with
  | some c => rfl
  | none =>
    simp only []
    rw [sectOf_byte _ _ (by simp [Memory.read])]
    simp [Memory.read, h]

/-- Memory that no memory-side cache holds, read as its bytes. -/
theorem paRead_plain (s : State) (pa n : Nat) (hm : ∀ a, (s.die (homeOf s a)).msc = []) (hc : ∀ i, i < n →
    cellOf s (64 * ((pa + i) / 64)) = 64 * ((pa + i) / 64)) : paRead s pa n = s.store.pa.read pa n := by
  unfold paRead Memory.read
  refine List.map_congr_left fun i hi => ?_
  simp only [homeByte, hm, Tbl.get?, hc i (List.mem_range.1 hi), Nat.div_add_mod]

end Sys2Proof.Machine
end

