-- ==== Sys2Proof/Laws/PerInstr.lean ====
section
/-! SUPPORT. What holds of every instruction as syntax: its encoding, where it has one, is a 32-bit word. -/

namespace Sys2Proof.Laws

/-- An instruction that has an encoding has one of 32 bits (R193). -/
def Encoding.Statement (i : Instr) : Prop := ∀ n, encodeNat i = some n → n < 2 ^ 32

theorem bitNat_le (b : Bool) : bitNat b ≤ 1 := by cases b <;> decide

theorem Encoding.clauseHeader (n : BitVec 4) (c : BitVec 3) (s : BitVec 4) (l : BitVec 5) (y : Bool) : Encoding.Statement (.clauseHeader n c s l y) := by
  intro k h; injection h with h; subst h; have := n.isLt; have := c.isLt; have := s.isLt; have := l.isLt; have := bitNat_le y; omega
theorem Encoding.pfx (w : Bool) (o : BitVec 3) (s : BitVec 3) (p : BitVec 3) (c : BitVec 3) : Encoding.Statement (.pfx w o s p c) := by
  intro k h; injection h with h; subst h; have := bitNat_le w; have := o.isLt; have := s.isLt; have := p.isLt; have := c.isLt; omega
theorem Encoding.sadd (w : Bool) (d : BitVec 6) (a : BitVec 6) (b : BitVec 6) : Encoding.Statement (.sadd w d a b) := by
  intro k h; injection h with h; subst h; have := bitNat_le w; have := d.isLt; have := a.isLt; have := b.isLt; omega
theorem Encoding.ssub (w : Bool) (d : BitVec 6) (a : BitVec 6) (b : BitVec 6) : Encoding.Statement (.ssub w d a b) := by
  intro k h; injection h with h; subst h; have := bitNat_le w; have := d.isLt; have := a.isLt; have := b.isLt; omega
theorem Encoding.smul (w : Bool) (d : BitVec 6) (a : BitVec 6) (b : BitVec 6) : Encoding.Statement (.smul w d a b) := by
  intro k h; injection h with h; subst h; have := bitNat_le w; have := d.isLt; have := a.isLt; have := b.isLt; omega
theorem Encoding.smulwI32 (w : Bool) (d : BitVec 6) (a : BitVec 6) (b : BitVec 6) : Encoding.Statement (.smulwI32 w d a b) := by
  intro k h; injection h with h; subst h; have := bitNat_le w; have := d.isLt; have := a.isLt; have := b.isLt; omega
theorem Encoding.smulwN32 (w : Bool) (d : BitVec 6) (a : BitVec 6) (b : BitVec 6) : Encoding.Statement (.smulwN32 w d a b) := by
  intro k h; injection h with h; subst h; have := bitNat_le w; have := d.isLt; have := a.isLt; have := b.isLt; omega
theorem Encoding.sdivI32 (w : Bool) (d : BitVec 6) (a : BitVec 6) (b : BitVec 6) : Encoding.Statement (.sdivI32 w d a b) := by
  intro k h; injection h with h; subst h; have := bitNat_le w; have := d.isLt; have := a.isLt; have := b.isLt; omega
theorem Encoding.sdivN32 (w : Bool) (d : BitVec 6) (a : BitVec 6) (b : BitVec 6) : Encoding.Statement (.sdivN32 w d a b) := by
  intro k h; injection h with h; subst h; have := bitNat_le w; have := d.isLt; have := a.isLt; have := b.isLt; omega
theorem Encoding.sremI32 (w : Bool) (d : BitVec 6) (a : BitVec 6) (b : BitVec 6) : Encoding.Statement (.sremI32 w d a b) := by
  intro k h; injection h with h; subst h; have := bitNat_le w; have := d.isLt; have := a.isLt; have := b.isLt; omega
theorem Encoding.sremN32 (w : Bool) (d : BitVec 6) (a : BitVec 6) (b : BitVec 6) : Encoding.Statement (.sremN32 w d a b) := by
  intro k h; injection h with h; subst h; have := bitNat_le w; have := d.isLt; have := a.isLt; have := b.isLt; omega
theorem Encoding.sand (w : Bool) (d : BitVec 6) (a : BitVec 6) (b : BitVec 6) : Encoding.Statement (.sand w d a b) := by
  intro k h; injection h with h; subst h; have := bitNat_le w; have := d.isLt; have := a.isLt; have := b.isLt; omega
theorem Encoding.sor (w : Bool) (d : BitVec 6) (a : BitVec 6) (b : BitVec 6) : Encoding.Statement (.sor w d a b) := by
  intro k h; injection h with h; subst h; have := bitNat_le w; have := d.isLt; have := a.isLt; have := b.isLt; omega
theorem Encoding.sxor (w : Bool) (d : BitVec 6) (a : BitVec 6) (b : BitVec 6) : Encoding.Statement (.sxor w d a b) := by
  intro k h; injection h with h; subst h; have := bitNat_le w; have := d.isLt; have := a.isLt; have := b.isLt; omega
theorem Encoding.sandn (w : Bool) (d : BitVec 6) (a : BitVec 6) (b : BitVec 6) : Encoding.Statement (.sandn w d a b) := by
  intro k h; injection h with h; subst h; have := bitNat_le w; have := d.isLt; have := a.isLt; have := b.isLt; omega
theorem Encoding.sshl (w : Bool) (d : BitVec 6) (a : BitVec 6) (b : BitVec 6) : Encoding.Statement (.sshl w d a b) := by
  intro k h; injection h with h; subst h; have := bitNat_le w; have := d.isLt; have := a.isLt; have := b.isLt; omega
theorem Encoding.sshr (w : Bool) (d : BitVec 6) (a : BitVec 6) (b : BitVec 6) : Encoding.Statement (.sshr w d a b) := by
  intro k h; injection h with h; subst h; have := bitNat_le w; have := d.isLt; have := a.isLt; have := b.isLt; omega
theorem Encoding.ssra (w : Bool) (d : BitVec 6) (a : BitVec 6) (b : BitVec 6) : Encoding.Statement (.ssra w d a b) := by
  intro k h; injection h with h; subst h; have := bitNat_le w; have := d.isLt; have := a.isLt; have := b.isLt; omega
theorem Encoding.sminI32 (w : Bool) (d : BitVec 6) (a : BitVec 6) (b : BitVec 6) : Encoding.Statement (.sminI32 w d a b) := by
  intro k h; injection h with h; subst h; have := bitNat_le w; have := d.isLt; have := a.isLt; have := b.isLt; omega
theorem Encoding.sminN32 (w : Bool) (d : BitVec 6) (a : BitVec 6) (b : BitVec 6) : Encoding.Statement (.sminN32 w d a b) := by
  intro k h; injection h with h; subst h; have := bitNat_le w; have := d.isLt; have := a.isLt; have := b.isLt; omega
theorem Encoding.smaxI32 (w : Bool) (d : BitVec 6) (a : BitVec 6) (b : BitVec 6) : Encoding.Statement (.smaxI32 w d a b) := by
  intro k h; injection h with h; subst h; have := bitNat_le w; have := d.isLt; have := a.isLt; have := b.isLt; omega
theorem Encoding.smaxN32 (w : Bool) (d : BitVec 6) (a : BitVec 6) (b : BitVec 6) : Encoding.Statement (.smaxN32 w d a b) := by
  intro k h; injection h with h; subst h; have := bitNat_le w; have := d.isLt; have := a.isLt; have := b.isLt; omega
theorem Encoding.saddB64 (w : Bool) (d : BitVec 6) (a : BitVec 6) (b : BitVec 6) : Encoding.Statement (.saddB64 w d a b) := by
  intro k h; injection h with h; subst h; have := bitNat_le w; have := d.isLt; have := a.isLt; have := b.isLt; omega
theorem Encoding.ssubB64 (w : Bool) (d : BitVec 6) (a : BitVec 6) (b : BitVec 6) : Encoding.Statement (.ssubB64 w d a b) := by
  intro k h; injection h with h; subst h; have := bitNat_le w; have := d.isLt; have := a.isLt; have := b.isLt; omega
theorem Encoding.smulB64 (w : Bool) (d : BitVec 6) (a : BitVec 6) (b : BitVec 6) : Encoding.Statement (.smulB64 w d a b) := by
  intro k h; injection h with h; subst h; have := bitNat_le w; have := d.isLt; have := a.isLt; have := b.isLt; omega
theorem Encoding.saddwI32 (w : Bool) (d : BitVec 6) (a : BitVec 6) (b : BitVec 6) : Encoding.Statement (.saddwI32 w d a b) := by
  intro k h; injection h with h; subst h; have := bitNat_le w; have := d.isLt; have := a.isLt; have := b.isLt; omega
theorem Encoding.saddwN32 (w : Bool) (d : BitVec 6) (a : BitVec 6) (b : BitVec 6) : Encoding.Statement (.saddwN32 w d a b) := by
  intro k h; injection h with h; subst h; have := bitNat_le w; have := d.isLt; have := a.isLt; have := b.isLt; omega
theorem Encoding.sshlB64 (w : Bool) (d : BitVec 6) (a : BitVec 6) (b : BitVec 6) : Encoding.Statement (.sshlB64 w d a b) := by
  intro k h; injection h with h; subst h; have := bitNat_le w; have := d.isLt; have := a.isLt; have := b.isLt; omega
theorem Encoding.sshrB64 (w : Bool) (d : BitVec 6) (a : BitVec 6) (b : BitVec 6) : Encoding.Statement (.sshrB64 w d a b) := by
  intro k h; injection h with h; subst h; have := bitNat_le w; have := d.isLt; have := a.isLt; have := b.isLt; omega
theorem Encoding.ssraB64 (w : Bool) (d : BitVec 6) (a : BitVec 6) (b : BitVec 6) : Encoding.Statement (.ssraB64 w d a b) := by
  intro k h; injection h with h; subst h; have := bitNat_le w; have := d.isLt; have := a.isLt; have := b.isLt; omega
theorem Encoding.sandB64 (w : Bool) (d : BitVec 6) (a : BitVec 6) (b : BitVec 6) : Encoding.Statement (.sandB64 w d a b) := by
  intro k h; injection h with h; subst h; have := bitNat_le w; have := d.isLt; have := a.isLt; have := b.isLt; omega
theorem Encoding.sorB64 (w : Bool) (d : BitVec 6) (a : BitVec 6) (b : BitVec 6) : Encoding.Statement (.sorB64 w d a b) := by
  intro k h; injection h with h; subst h; have := bitNat_le w; have := d.isLt; have := a.isLt; have := b.isLt; omega
theorem Encoding.sxorB64 (w : Bool) (d : BitVec 6) (a : BitVec 6) (b : BitVec 6) : Encoding.Statement (.sxorB64 w d a b) := by
  intro k h; injection h with h; subst h; have := bitNat_le w; have := d.isLt; have := a.isLt; have := b.isLt; omega
theorem Encoding.saddi (w : Bool) (d : BitVec 6) (a : BitVec 6) (xi : BitVec 12) : Encoding.Statement (.saddi w d a xi) := by
  intro k h; injection h with h; subst h; have := bitNat_le w; have := d.isLt; have := a.isLt; have := xi.isLt; omega
theorem Encoding.saddiB64 (w : Bool) (d : BitVec 6) (a : BitVec 6) (xi : BitVec 12) : Encoding.Statement (.saddiB64 w d a xi) := by
  intro k h; injection h with h; subst h; have := bitNat_le w; have := d.isLt; have := a.isLt; have := xi.isLt; omega
theorem Encoding.smovl (w : Bool) (d : BitVec 6) (xi : BitVec 16) : Encoding.Statement (.smovl w d xi) := by
  intro k h; injection h with h; subst h; have := bitNat_le w; have := d.isLt; have := xi.isLt; omega
theorem Encoding.smovh (w : Bool) (d : BitVec 6) (xi : BitVec 16) : Encoding.Statement (.smovh w d xi) := by
  intro k h; injection h with h; subst h; have := bitNat_le w; have := d.isLt; have := xi.isLt; omega
theorem Encoding.smovs (w : Bool) (d : BitVec 6) (xi : BitVec 16) : Encoding.Statement (.smovs w d xi) := by
  intro k h; injection h with h; subst h; have := bitNat_le w; have := d.isLt; have := xi.isLt; omega
theorem Encoding.scmpI32 (w : Bool) (c : BitVec 3) (d : BitVec 6) (a : BitVec 6) (b : BitVec 6) : Encoding.Statement (.scmpI32 w c d a b) := by
  intro k h; injection h with h; subst h; have := bitNat_le w; have := c.isLt; have := d.isLt; have := a.isLt; have := b.isLt; omega
theorem Encoding.scmpN32 (w : Bool) (c : BitVec 3) (d : BitVec 6) (a : BitVec 6) (b : BitVec 6) : Encoding.Statement (.scmpN32 w c d a b) := by
  intro k h; injection h with h; subst h; have := bitNat_le w; have := c.isLt; have := d.isLt; have := a.isLt; have := b.isLt; omega
theorem Encoding.scmpB64 (w : Bool) (c : BitVec 3) (d : BitVec 6) (a : BitVec 6) (b : BitVec 6) : Encoding.Statement (.scmpB64 w c d a b) := by
  intro k h; injection h with h; subst h; have := bitNat_le w; have := c.isLt; have := d.isLt; have := a.isLt; have := b.isLt; omega
theorem Encoding.ssel (w : Bool) (d : BitVec 6) (a : BitVec 6) (b : BitVec 6) : Encoding.Statement (.ssel w d a b) := by
  intro k h; injection h with h; subst h; have := bitNat_le w; have := d.isLt; have := a.isLt; have := b.isLt; omega
theorem Encoding.sselB64 (w : Bool) (d : BitVec 6) (a : BitVec 6) (b : BitVec 6) : Encoding.Statement (.sselB64 w d a b) := by
  intro k h; injection h with h; subst h; have := bitNat_le w; have := d.isLt; have := a.isLt; have := b.isLt; omega
theorem Encoding.sshli (w : Bool) (d : BitVec 6) (a : BitVec 6) (n : BitVec 6) : Encoding.Statement (.sshli w d a n) := by
  intro k h; injection h with h; subst h; have := bitNat_le w; have := d.isLt; have := a.isLt; have := n.isLt; omega
theorem Encoding.sshri (w : Bool) (d : BitVec 6) (a : BitVec 6) (n : BitVec 6) : Encoding.Statement (.sshri w d a n) := by
  intro k h; injection h with h; subst h; have := bitNat_le w; have := d.isLt; have := a.isLt; have := n.isLt; omega
theorem Encoding.ssrai (w : Bool) (d : BitVec 6) (a : BitVec 6) (n : BitVec 6) : Encoding.Statement (.ssrai w d a n) := by
  intro k h; injection h with h; subst h; have := bitNat_le w; have := d.isLt; have := a.isLt; have := n.isLt; omega
theorem Encoding.sbfxN32 (w : Bool) (d : BitVec 6) (a : BitVec 6) (b : BitVec 6) : Encoding.Statement (.sbfxN32 w d a b) := by
  intro k h; injection h with h; subst h; have := bitNat_le w; have := d.isLt; have := a.isLt; have := b.isLt; omega
theorem Encoding.sbfxI32 (w : Bool) (d : BitVec 6) (a : BitVec 6) (b : BitVec 6) : Encoding.Statement (.sbfxI32 w d a b) := by
  intro k h; injection h with h; subst h; have := bitNat_le w; have := d.isLt; have := a.isLt; have := b.isLt; omega
theorem Encoding.sbfi (w : Bool) (d : BitVec 6) (a : BitVec 6) (b : BitVec 6) : Encoding.Statement (.sbfi w d a b) := by
  intro k h; injection h with h; subst h; have := bitNat_le w; have := d.isLt; have := a.isLt; have := b.isLt; omega
theorem Encoding.spopc (w : Bool) (d : BitVec 6) (a : BitVec 6) : Encoding.Statement (.spopc w d a) := by
  intro k h; injection h with h; subst h; have := bitNat_le w; have := d.isLt; have := a.isLt; omega
theorem Encoding.sclz (w : Bool) (d : BitVec 6) (a : BitVec 6) : Encoding.Statement (.sclz w d a) := by
  intro k h; injection h with h; subst h; have := bitNat_le w; have := d.isLt; have := a.isLt; omega
theorem Encoding.sctz (w : Bool) (d : BitVec 6) (a : BitVec 6) : Encoding.Statement (.sctz w d a) := by
  intro k h; injection h with h; subst h; have := bitNat_le w; have := d.isLt; have := a.isLt; omega
theorem Encoding.sbrev (w : Bool) (d : BitVec 6) (a : BitVec 6) : Encoding.Statement (.sbrev w d a) := by
  intro k h; injection h with h; subst h; have := bitNat_le w; have := d.isLt; have := a.isLt; omega
theorem Encoding.sshliB64 (w : Bool) (d : BitVec 6) (a : BitVec 6) (n : BitVec 6) : Encoding.Statement (.sshliB64 w d a n) := by
  intro k h; injection h with h; subst h; have := bitNat_le w; have := d.isLt; have := a.isLt; have := n.isLt; omega
theorem Encoding.sshriB64 (w : Bool) (d : BitVec 6) (a : BitVec 6) (n : BitVec 6) : Encoding.Statement (.sshriB64 w d a n) := by
  intro k h; injection h with h; subst h; have := bitNat_le w; have := d.isLt; have := a.isLt; have := n.isLt; omega
theorem Encoding.ssraiB64 (w : Bool) (d : BitVec 6) (a : BitVec 6) (n : BitVec 6) : Encoding.Statement (.ssraiB64 w d a n) := by
  intro k h; injection h with h; subst h; have := bitNat_le w; have := d.isLt; have := a.isLt; have := n.isLt; omega
theorem Encoding.spopcB64 (w : Bool) (d : BitVec 6) (a : BitVec 6) : Encoding.Statement (.spopcB64 w d a) := by
  intro k h; injection h with h; subst h; have := bitNat_le w; have := d.isLt; have := a.isLt; omega
theorem Encoding.sclzB64 (w : Bool) (d : BitVec 6) (a : BitVec 6) : Encoding.Statement (.sclzB64 w d a) := by
  intro k h; injection h with h; subst h; have := bitNat_le w; have := d.isLt; have := a.isLt; omega
theorem Encoding.sctzB64 (w : Bool) (d : BitVec 6) (a : BitVec 6) : Encoding.Statement (.sctzB64 w d a) := by
  intro k h; injection h with h; subst h; have := bitNat_le w; have := d.isLt; have := a.isLt; omega
theorem Encoding.br (w : Bool) (o : BitVec 20) : Encoding.Statement (.br w o) := by
  intro k h; injection h with h; subst h; have := bitNat_le w; have := o.isLt; omega
theorem Encoding.brAny (w : Bool) (p : BitVec 3) (o : BitVec 20) : Encoding.Statement (.brAny w p o) := by
  intro k h; injection h with h; subst h; have := bitNat_le w; have := p.isLt; have := o.isLt; omega
theorem Encoding.brZ (w : Bool) (s : BitVec 3) (o : BitVec 20) : Encoding.Statement (.brZ w s o) := by
  intro k h; injection h with h; subst h; have := bitNat_le w; have := s.isLt; have := o.isLt; omega
theorem Encoding.brNz (w : Bool) (s : BitVec 3) (o : BitVec 20) : Encoding.Statement (.brNz w s o) := by
  intro k h; injection h with h; subst h; have := bitNat_le w; have := s.isLt; have := o.isLt; omega
theorem Encoding.brv (w : Bool) (p : BitVec 3) (o : BitVec 20) : Encoding.Statement (.brv w p o) := by
  intro k h; injection h with h; subst h; have := bitNat_le w; have := p.isLt; have := o.isLt; omega
theorem Encoding.brvN (w : Bool) (p : BitVec 3) (o : BitVec 20) : Encoding.Statement (.brvN w p o) := by
  intro k h; injection h with h; subst h; have := bitNat_le w; have := p.isLt; have := o.isLt; omega
theorem Encoding.call (w : Bool) (o : BitVec 20) : Encoding.Statement (.call w o) := by
  intro k h; injection h with h; subst h; have := bitNat_le w; have := o.isLt; omega
theorem Encoding.ret (w : Bool) : Encoding.Statement (.ret w) := by
  intro k h; injection h with h; subst h; have := bitNat_le w; omega
theorem Encoding.jt (w : Bool) (a : BitVec 6) : Encoding.Statement (.jt w a) := by
  intro k h; injection h with h; subst h; have := bitNat_le w; have := a.isLt; omega
theorem Encoding.jtCall (w : Bool) (a : BitVec 6) : Encoding.Statement (.jtCall w a) := by
  intro k h; injection h with h; subst h; have := bitNat_le w; have := a.isLt; omega
theorem Encoding.jr (w : Bool) (a : BitVec 6) : Encoding.Statement (.jr w a) := by
  intro k h; injection h with h; subst h; have := bitNat_le w; have := a.isLt; omega
theorem Encoding.jrCall (w : Bool) (a : BitVec 6) : Encoding.Statement (.jrCall w a) := by
  intro k h; injection h with h; subst h; have := bitNat_le w; have := a.isLt; omega
theorem Encoding.rejoin (w : Bool) (o : BitVec 20) : Encoding.Statement (.rejoin w o) := by
  intro k h; injection h with h; subst h; have := bitNat_le w; have := o.isLt; omega
theorem Encoding.eqp (w : Bool) (n : BitVec 16) : Encoding.Statement (.eqp w n) := by
  intro k h; injection h with h; subst h; have := bitNat_le w; have := n.isLt; omega
theorem Encoding.ppush (w : Bool) (a : BitVec 6) : Encoding.Statement (.ppush w a) := by
  intro k h; injection h with h; subst h; have := bitNat_le w; have := a.isLt; omega
theorem Encoding.ppushN (w : Bool) (a : BitVec 6) : Encoding.Statement (.ppushN w a) := by
  intro k h; injection h with h; subst h; have := bitNat_le w; have := a.isLt; omega
theorem Encoding.pinv (w : Bool) : Encoding.Statement (.pinv w) := by
  intro k h; injection h with h; subst h; have := bitNat_le w; omega
theorem Encoding.ppop (w : Bool) : Encoding.Statement (.ppop w) := by
  intro k h; injection h with h; subst h; have := bitNat_le w; omega
theorem Encoding.pand (w : Bool) (d : BitVec 6) (a : BitVec 6) (b : BitVec 6) : Encoding.Statement (.pand w d a b) := by
  intro k h; injection h with h; subst h; have := bitNat_le w; have := d.isLt; have := a.isLt; have := b.isLt; omega
theorem Encoding.por (w : Bool) (d : BitVec 6) (a : BitVec 6) (b : BitVec 6) : Encoding.Statement (.por w d a b) := by
  intro k h; injection h with h; subst h; have := bitNat_le w; have := d.isLt; have := a.isLt; have := b.isLt; omega
theorem Encoding.pxor (w : Bool) (d : BitVec 6) (a : BitVec 6) (b : BitVec 6) : Encoding.Statement (.pxor w d a b) := by
  intro k h; injection h with h; subst h; have := bitNat_le w; have := d.isLt; have := a.isLt; have := b.isLt; omega
theorem Encoding.pandn (w : Bool) (d : BitVec 6) (a : BitVec 6) (b : BitVec 6) : Encoding.Statement (.pandn w d a b) := by
  intro k h; injection h with h; subst h; have := bitNat_le w; have := d.isLt; have := a.isLt; have := b.isLt; omega
theorem Encoding.pnot (w : Bool) (d : BitVec 6) (a : BitVec 6) : Encoding.Statement (.pnot w d a) := by
  intro k h; injection h with h; subst h; have := bitNat_le w; have := d.isLt; have := a.isLt; omega
theorem Encoding.pelect (w : Bool) (d : BitVec 6) : Encoding.Statement (.pelect w d) := by
  intro k h; injection h with h; subst h; have := bitNat_le w; have := d.isLt; omega
theorem Encoding.pld (w : Bool) (d : BitVec 6) (a : BitVec 6) : Encoding.Statement (.pld w d a) := by
  intro k h; injection h with h; subst h; have := bitNat_le w; have := d.isLt; have := a.isLt; omega
theorem Encoding.pst (w : Bool) (d : BitVec 6) (a : BitVec 6) : Encoding.Statement (.pst w d a) := by
  intro k h; injection h with h; subst h; have := bitNat_le w; have := d.isLt; have := a.isLt; omega
theorem Encoding.pcnt (w : Bool) (d : BitVec 6) (a : BitVec 6) : Encoding.Statement (.pcnt w d a) := by
  intro k h; injection h with h; subst h; have := bitNat_le w; have := d.isLt; have := a.isLt; omega
theorem Encoding.barSync (w : Bool) (xi : BitVec 6) : Encoding.Statement (.barSync w xi) := by
  intro k h; injection h with h; subst h; have := bitNat_le w; have := xi.isLt; omega
theorem Encoding.wait (w : Bool) (e : Bool) (n : BitVec 2) (d : BitVec 6) (a : BitVec 6) (b : BitVec 6) : Encoding.Statement (.wait w e n d a b) := by
  intro k h; injection h with h; subst h; have := bitNat_le w; have := bitNat_le e; have := n.isLt; have := d.isLt; have := a.isLt; have := b.isLt; omega
theorem Encoding.waitcnt (w : Bool) (s : BitVec 4) (l : BitVec 6) : Encoding.Statement (.waitcnt w s l) := by
  intro k h; injection h with h; subst h; have := bitNat_le w; have := s.isLt; have := l.isLt; omega
theorem Encoding.exit (w : Bool) : Encoding.Statement (.exit w) := by
  intro k h; injection h with h; subst h; have := bitNat_le w; omega
theorem Encoding.trap (w : Bool) (n : BitVec 6) : Encoding.Statement (.trap w n) := by
  intro k h; injection h with h; subst h; have := bitNat_le w; have := n.isLt; omega
theorem Encoding.brk (w : Bool) (n : BitVec 6) : Encoding.Statement (.brk w n) := by
  intro k h; injection h with h; subst h; have := bitNat_le w; have := n.isLt; omega
theorem Encoding.nop (w : Bool) : Encoding.Statement (.nop w) := by
  intro k h; injection h with h; subst h; have := bitNat_le w; omega
theorem Encoding.rdsr (w : Bool) (d : BitVec 6) (a : BitVec 6) : Encoding.Statement (.rdsr w d a) := by
  intro k h; injection h with h; subst h; have := bitNat_le w; have := d.isLt; have := a.isLt; omega
theorem Encoding.rdsrPair (w : Bool) (d : BitVec 6) (a : BitVec 6) : Encoding.Statement (.rdsrPair w d a) := by
  intro k h; injection h with h; subst h; have := bitNat_le w; have := d.isLt; have := a.isLt; omega
theorem Encoding.wrsr (w : Bool) (d : BitVec 6) (a : BitVec 6) : Encoding.Statement (.wrsr w d a) := by
  intro k h; injection h with h; subst h; have := bitNat_le w; have := d.isLt; have := a.isLt; omega
theorem Encoding.efork (w : Bool) (a : BitVec 6) (b : BitVec 6) : Encoding.Statement (.efork w a b) := by
  intro k h; injection h with h; subst h; have := bitNat_le w; have := a.isLt; have := b.isLt; omega
theorem Encoding.erdv (w : Bool) : Encoding.Statement (.erdv w) := by
  intro k h; injection h with h; subst h; have := bitNat_le w; omega
theorem Encoding.hintSucc (w : Bool) : Encoding.Statement (.hintSucc w) := by
  intro k h; injection h with h; subst h; have := bitNat_le w; omega
theorem Encoding.waitPred (w : Bool) (d : BitVec 6) : Encoding.Statement (.waitPred w d) := by
  intro k h; injection h with h; subst h; have := bitNat_le w; have := d.isLt; omega
theorem Encoding.migrReq (w : Bool) (k : BitVec 6) : Encoding.Statement (.migrReq w k) := by
  intro k h; injection h with h; subst h; have := bitNat_le w; have := k.isLt; omega
theorem Encoding.rdsrVector (w : Bool) (d : BitVec 7) (a : BitVec 6) : Encoding.Statement (.rdsrVector w d a) := by
  intro k h; injection h with h; subst h; have := bitNat_le w; have := d.isLt; have := a.isLt; omega
theorem Encoding.rdctx (w : Bool) (d : BitVec 6) (a : BitVec 6) : Encoding.Statement (.rdctx w d a) := by
  intro k h; injection h with h; subst h; have := bitNat_le w; have := d.isLt; have := a.isLt; omega
theorem Encoding.emretTo (w : Bool) (k : BitVec 6) : Encoding.Statement (.emretTo w k) := by
  intro k h; injection h with h; subst h; have := bitNat_le w; have := k.isLt; omega
theorem Encoding.emretSkip (w : Bool) (k : BitVec 6) : Encoding.Statement (.emretSkip w k) := by
  intro k h; injection h with h; subst h; have := bitNat_le w; have := k.isLt; omega
theorem Encoding.nmove (w : Bool) (d : BitVec 7) (a : BitVec 7) : Encoding.Statement (.nmove w d a) := by
  intro k h; injection h with h; subst h; have := bitNat_le w; have := d.isLt; have := a.isLt; omega
theorem Encoding.nalias (w : Bool) (d : BitVec 7) (a : BitVec 7) : Encoding.Statement (.nalias w d a) := by
  intro k h; injection h with h; subst h; have := bitNat_le w; have := d.isLt; have := a.isLt; omega
theorem Encoding.nswap (w : Bool) (d : BitVec 7) (a : BitVec 7) : Encoding.Statement (.nswap w d a) := by
  intro k h; injection h with h; subst h; have := bitNat_le w; have := d.isLt; have := a.isLt; omega
theorem Encoding.ndrop (w : Bool) (a : BitVec 7) : Encoding.Statement (.ndrop w a) := by
  intro k h; injection h with h; subst h; have := bitNat_le w; have := a.isLt; omega
theorem Encoding.nfresh (w : Bool) (d : BitVec 7) : Encoding.Statement (.nfresh w d) := by
  intro k h; injection h with h; subst h; have := bitNat_le w; have := d.isLt; omega
theorem Encoding.ngive (w : Bool) (s : BitVec 7) (a : BitVec 7) (l : BitVec 7) : Encoding.Statement (.ngive w s a l) := by
  intro k h; injection h with h; subst h; have := bitNat_le w; have := s.isLt; have := a.isLt; have := l.isLt; omega
theorem Encoding.ntake (w : Bool) (d : BitVec 7) (s : BitVec 7) (l : BitVec 7) : Encoding.Statement (.ntake w d s l) := by
  intro k h; injection h with h; subst h; have := bitNat_le w; have := d.isLt; have := s.isLt; have := l.isLt; omega
theorem Encoding.nperm (w : Bool) (d : BitVec 7) (a : BitVec 7) (k : BitVec 7) : Encoding.Statement (.nperm w d a k) := by
  intro k h; injection h with h; subst h; have := bitNat_le w; have := d.isLt; have := a.isLt; have := k.isLt; omega
theorem Encoding.nquery (w : Bool) (d : BitVec 7) (a : BitVec 7) : Encoding.Statement (.nquery w d a) := by
  intro k h; injection h with h; subst h; have := bitNat_le w; have := d.isLt; have := a.isLt; omega
theorem Encoding.vaddI32 (w : Bool) (d : BitVec 7) (a : BitVec 7) (b : BitVec 7) : Encoding.Statement (.vaddI32 w d a b) := by
  intro k h; injection h with h; subst h; have := bitNat_le w; have := d.isLt; have := a.isLt; have := b.isLt; omega
theorem Encoding.vsubI32 (w : Bool) (d : BitVec 7) (a : BitVec 7) (b : BitVec 7) : Encoding.Statement (.vsubI32 w d a b) := by
  intro k h; injection h with h; subst h; have := bitNat_le w; have := d.isLt; have := a.isLt; have := b.isLt; omega
theorem Encoding.vmulI32 (w : Bool) (d : BitVec 7) (a : BitVec 7) (b : BitVec 7) : Encoding.Statement (.vmulI32 w d a b) := by
  intro k h; injection h with h; subst h; have := bitNat_le w; have := d.isLt; have := a.isLt; have := b.isLt; omega
theorem Encoding.vmulhiI32 (w : Bool) (d : BitVec 7) (a : BitVec 7) (b : BitVec 7) : Encoding.Statement (.vmulhiI32 w d a b) := by
  intro k h; injection h with h; subst h; have := bitNat_le w; have := d.isLt; have := a.isLt; have := b.isLt; omega
theorem Encoding.vmulhiN32 (w : Bool) (d : BitVec 7) (a : BitVec 7) (b : BitVec 7) : Encoding.Statement (.vmulhiN32 w d a b) := by
  intro k h; injection h with h; subst h; have := bitNat_le w; have := d.isLt; have := a.isLt; have := b.isLt; omega
theorem Encoding.vminI32 (w : Bool) (d : BitVec 7) (a : BitVec 7) (b : BitVec 7) : Encoding.Statement (.vminI32 w d a b) := by
  intro k h; injection h with h; subst h; have := bitNat_le w; have := d.isLt; have := a.isLt; have := b.isLt; omega
theorem Encoding.vminN32 (w : Bool) (d : BitVec 7) (a : BitVec 7) (b : BitVec 7) : Encoding.Statement (.vminN32 w d a b) := by
  intro k h; injection h with h; subst h; have := bitNat_le w; have := d.isLt; have := a.isLt; have := b.isLt; omega
theorem Encoding.vmaxI32 (w : Bool) (d : BitVec 7) (a : BitVec 7) (b : BitVec 7) : Encoding.Statement (.vmaxI32 w d a b) := by
  intro k h; injection h with h; subst h; have := bitNat_le w; have := d.isLt; have := a.isLt; have := b.isLt; omega
theorem Encoding.vmaxN32 (w : Bool) (d : BitVec 7) (a : BitVec 7) (b : BitVec 7) : Encoding.Statement (.vmaxN32 w d a b) := by
  intro k h; injection h with h; subst h; have := bitNat_le w; have := d.isLt; have := a.isLt; have := b.isLt; omega
theorem Encoding.vaddsI32 (w : Bool) (d : BitVec 7) (a : BitVec 7) (b : BitVec 7) : Encoding.Statement (.vaddsI32 w d a b) := by
  intro k h; injection h with h; subst h; have := bitNat_le w; have := d.isLt; have := a.isLt; have := b.isLt; omega
theorem Encoding.vsubsI32 (w : Bool) (d : BitVec 7) (a : BitVec 7) (b : BitVec 7) : Encoding.Statement (.vsubsI32 w d a b) := by
  intro k h; injection h with h; subst h; have := bitNat_le w; have := d.isLt; have := a.isLt; have := b.isLt; omega
theorem Encoding.vabsI32 (w : Bool) (d : BitVec 7) (a : BitVec 7) : Encoding.Statement (.vabsI32 w d a) := by
  intro k h; injection h with h; subst h; have := bitNat_le w; have := d.isLt; have := a.isLt; omega
theorem Encoding.vaddminI32 (w : Bool) (d : BitVec 7) (a : BitVec 7) (b : BitVec 7) : Encoding.Statement (.vaddminI32 w d a b) := by
  intro k h; injection h with h; subst h; have := bitNat_le w; have := d.isLt; have := a.isLt; have := b.isLt; omega
theorem Encoding.vcopy (w : Bool) (d : BitVec 7) (a : BitVec 7) : Encoding.Statement (.vcopy w d a) := by
  intro k h; injection h with h; subst h; have := bitNat_le w; have := d.isLt; have := a.isLt; omega
theorem Encoding.vaddB64 (w : Bool) (d : BitVec 7) (a : BitVec 7) (b : BitVec 7) : Encoding.Statement (.vaddB64 w d a b) := by
  intro k h; injection h with h; subst h; have := bitNat_le w; have := d.isLt; have := a.isLt; have := b.isLt; omega
theorem Encoding.vsubB64 (w : Bool) (d : BitVec 7) (a : BitVec 7) (b : BitVec 7) : Encoding.Statement (.vsubB64 w d a b) := by
  intro k h; injection h with h; subst h; have := bitNat_le w; have := d.isLt; have := a.isLt; have := b.isLt; omega
theorem Encoding.vand (w : Bool) (d : BitVec 7) (a : BitVec 7) (b : BitVec 7) : Encoding.Statement (.vand w d a b) := by
  intro k h; injection h with h; subst h; have := bitNat_le w; have := d.isLt; have := a.isLt; have := b.isLt; omega
theorem Encoding.vor (w : Bool) (d : BitVec 7) (a : BitVec 7) (b : BitVec 7) : Encoding.Statement (.vor w d a b) := by
  intro k h; injection h with h; subst h; have := bitNat_le w; have := d.isLt; have := a.isLt; have := b.isLt; omega
theorem Encoding.vxor (w : Bool) (d : BitVec 7) (a : BitVec 7) (b : BitVec 7) : Encoding.Statement (.vxor w d a b) := by
  intro k h; injection h with h; subst h; have := bitNat_le w; have := d.isLt; have := a.isLt; have := b.isLt; omega
theorem Encoding.vandn (w : Bool) (d : BitVec 7) (a : BitVec 7) (b : BitVec 7) : Encoding.Statement (.vandn w d a b) := by
  intro k h; injection h with h; subst h; have := bitNat_le w; have := d.isLt; have := a.isLt; have := b.isLt; omega
theorem Encoding.vnot (w : Bool) (d : BitVec 7) (a : BitVec 7) : Encoding.Statement (.vnot w d a) := by
  intro k h; injection h with h; subst h; have := bitNat_le w; have := d.isLt; have := a.isLt; omega
theorem Encoding.vshl (w : Bool) (d : BitVec 7) (a : BitVec 7) (b : BitVec 7) : Encoding.Statement (.vshl w d a b) := by
  intro k h; injection h with h; subst h; have := bitNat_le w; have := d.isLt; have := a.isLt; have := b.isLt; omega
theorem Encoding.vshr (w : Bool) (d : BitVec 7) (a : BitVec 7) (b : BitVec 7) : Encoding.Statement (.vshr w d a b) := by
  intro k h; injection h with h; subst h; have := bitNat_le w; have := d.isLt; have := a.isLt; have := b.isLt; omega
theorem Encoding.vsra (w : Bool) (d : BitVec 7) (a : BitVec 7) (b : BitVec 7) : Encoding.Statement (.vsra w d a b) := by
  intro k h; injection h with h; subst h; have := bitNat_le w; have := d.isLt; have := a.isLt; have := b.isLt; omega
theorem Encoding.vpopc (w : Bool) (d : BitVec 7) (a : BitVec 7) : Encoding.Statement (.vpopc w d a) := by
  intro k h; injection h with h; subst h; have := bitNat_le w; have := d.isLt; have := a.isLt; omega
theorem Encoding.vclz (w : Bool) (d : BitVec 7) (a : BitVec 7) : Encoding.Statement (.vclz w d a) := by
  intro k h; injection h with h; subst h; have := bitNat_le w; have := d.isLt; have := a.isLt; omega
theorem Encoding.vctz (w : Bool) (d : BitVec 7) (a : BitVec 7) : Encoding.Statement (.vctz w d a) := by
  intro k h; injection h with h; subst h; have := bitNat_le w; have := d.isLt; have := a.isLt; omega
theorem Encoding.vbrev (w : Bool) (d : BitVec 7) (a : BitVec 7) : Encoding.Statement (.vbrev w d a) := by
  intro k h; injection h with h; subst h; have := bitNat_le w; have := d.isLt; have := a.isLt; omega
theorem Encoding.vaddiI32 (w : Bool) (d : BitVec 7) (a : BitVec 7) (xi : BitVec 7) : Encoding.Statement (.vaddiI32 w d a xi) := by
  intro k h; injection h with h; subst h; have := bitNat_le w; have := d.isLt; have := a.isLt; have := xi.isLt; omega
theorem Encoding.vmuliI32 (w : Bool) (d : BitVec 7) (a : BitVec 7) (xi : BitVec 7) : Encoding.Statement (.vmuliI32 w d a xi) := by
  intro k h; injection h with h; subst h; have := bitNat_le w; have := d.isLt; have := a.isLt; have := xi.isLt; omega
theorem Encoding.vandi (w : Bool) (d : BitVec 7) (a : BitVec 7) (xi : BitVec 7) : Encoding.Statement (.vandi w d a xi) := by
  intro k h; injection h with h; subst h; have := bitNat_le w; have := d.isLt; have := a.isLt; have := xi.isLt; omega
theorem Encoding.vori (w : Bool) (d : BitVec 7) (a : BitVec 7) (xi : BitVec 7) : Encoding.Statement (.vori w d a xi) := by
  intro k h; injection h with h; subst h; have := bitNat_le w; have := d.isLt; have := a.isLt; have := xi.isLt; omega
theorem Encoding.vxori (w : Bool) (d : BitVec 7) (a : BitVec 7) (xi : BitVec 7) : Encoding.Statement (.vxori w d a xi) := by
  intro k h; injection h with h; subst h; have := bitNat_le w; have := d.isLt; have := a.isLt; have := xi.isLt; omega
theorem Encoding.vminiI32 (w : Bool) (d : BitVec 7) (a : BitVec 7) (xi : BitVec 7) : Encoding.Statement (.vminiI32 w d a xi) := by
  intro k h; injection h with h; subst h; have := bitNat_le w; have := d.isLt; have := a.isLt; have := xi.isLt; omega
theorem Encoding.vmaxiI32 (w : Bool) (d : BitVec 7) (a : BitVec 7) (xi : BitVec 7) : Encoding.Statement (.vmaxiI32 w d a xi) := by
  intro k h; injection h with h; subst h; have := bitNat_le w; have := d.isLt; have := a.isLt; have := xi.isLt; omega
theorem Encoding.vshli (w : Bool) (d : BitVec 7) (a : BitVec 7) (xi : BitVec 7) : Encoding.Statement (.vshli w d a xi) := by
  intro k h; injection h with h; subst h; have := bitNat_le w; have := d.isLt; have := a.isLt; have := xi.isLt; omega
theorem Encoding.vshri (w : Bool) (d : BitVec 7) (a : BitVec 7) (xi : BitVec 7) : Encoding.Statement (.vshri w d a xi) := by
  intro k h; injection h with h; subst h; have := bitNat_le w; have := d.isLt; have := a.isLt; have := xi.isLt; omega
theorem Encoding.vsrai (w : Bool) (d : BitVec 7) (a : BitVec 7) (xi : BitVec 7) : Encoding.Statement (.vsrai w d a xi) := by
  intro k h; injection h with h; subst h; have := bitNat_le w; have := d.isLt; have := a.isLt; have := xi.isLt; omega
theorem Encoding.vmovi (w : Bool) (d : BitVec 7) (xi : BitVec 16) : Encoding.Statement (.vmovi w d xi) := by
  intro k h; injection h with h; subst h; have := bitNat_le w; have := d.isLt; have := xi.isLt; omega
theorem Encoding.vmoviH (w : Bool) (d : BitVec 7) (xi : BitVec 16) : Encoding.Statement (.vmoviH w d xi) := by
  intro k h; injection h with h; subst h; have := bitNat_le w; have := d.isLt; have := xi.isLt; omega
theorem Encoding.vmoviZ (w : Bool) (d : BitVec 7) (xi : BitVec 16) : Encoding.Statement (.vmoviZ w d xi) := by
  intro k h; injection h with h; subst h; have := bitNat_le w; have := d.isLt; have := xi.isLt; omega
theorem Encoding.vcmpI32 (w : Bool) (c : BitVec 3) (p : BitVec 3) (a : BitVec 7) (b : BitVec 7) : Encoding.Statement (.vcmpI32 w c p a b) := by
  intro k h; injection h with h; subst h; have := bitNat_le w; have := c.isLt; have := p.isLt; have := a.isLt; have := b.isLt; omega
theorem Encoding.vcmpN32 (w : Bool) (c : BitVec 3) (p : BitVec 3) (a : BitVec 7) (b : BitVec 7) : Encoding.Statement (.vcmpN32 w c p a b) := by
  intro k h; injection h with h; subst h; have := bitNat_le w; have := c.isLt; have := p.isLt; have := a.isLt; have := b.isLt; omega
theorem Encoding.vtst (w : Bool) (p : BitVec 3) (a : BitVec 7) (b : BitVec 7) : Encoding.Statement (.vtst w p a b) := by
  intro k h; injection h with h; subst h; have := bitNat_le w; have := p.isLt; have := a.isLt; have := b.isLt; omega
theorem Encoding.vsel (w : Bool) (p : BitVec 3) (d : BitVec 7) (a : BitVec 7) (b : BitVec 7) : Encoding.Statement (.vsel w p d a b) := by
  intro k h; injection h with h; subst h; have := bitNat_le w; have := p.isLt; have := d.isLt; have := a.isLt; have := b.isLt; omega
theorem Encoding.vshfl (w : Bool) (d : BitVec 7) (a : BitVec 7) (b : BitVec 7) : Encoding.Statement (.vshfl w d a b) := by
  intro k h; injection h with h; subst h; have := bitNat_le w; have := d.isLt; have := a.isLt; have := b.isLt; omega
theorem Encoding.vlsh (w : Bool) (d : BitVec 7) (a : BitVec 7) (n : BitVec 7) : Encoding.Statement (.vlsh w d a n) := by
  intro k h; injection h with h; subst h; have := bitNat_le w; have := d.isLt; have := a.isLt; have := n.isLt; omega
theorem Encoding.vbcast (w : Bool) (d : BitVec 7) (a : BitVec 7) (n : BitVec 7) : Encoding.Statement (.vbcast w d a n) := by
  intro k h; injection h with h; subst h; have := bitNat_le w; have := d.isLt; have := a.isLt; have := n.isLt; omega
theorem Encoding.vbcastS (w : Bool) (d : BitVec 7) (s : BitVec 7) : Encoding.Statement (.vbcastS w d s) := by
  intro k h; injection h with h; subst h; have := bitNat_le w; have := d.isLt; have := s.isLt; omega
theorem Encoding.vregroupRecv (w : Bool) (d : BitVec 7) (a : BitVec 7) (g : BitVec 7) : Encoding.Statement (.vregroupRecv w d a g) := by
  intro k h; injection h with h; subst h; have := bitNat_le w; have := d.isLt; have := a.isLt; have := g.isLt; omega
theorem Encoding.vregroupSend (w : Bool) (d : BitVec 7) (a : BitVec 7) (g : BitVec 7) : Encoding.Statement (.vregroupSend w d a g) := by
  intro k h; injection h with h; subst h; have := bitNat_le w; have := d.isLt; have := a.isLt; have := g.isLt; omega
theorem Encoding.vredAddI32 (w : Bool) (d : BitVec 7) (a : BitVec 7) : Encoding.Statement (.vredAddI32 w d a) := by
  intro k h; injection h with h; subst h; have := bitNat_le w; have := d.isLt; have := a.isLt; omega
theorem Encoding.vredMinI32 (w : Bool) (d : BitVec 7) (a : BitVec 7) : Encoding.Statement (.vredMinI32 w d a) := by
  intro k h; injection h with h; subst h; have := bitNat_le w; have := d.isLt; have := a.isLt; omega
theorem Encoding.vredMinN32 (w : Bool) (d : BitVec 7) (a : BitVec 7) : Encoding.Statement (.vredMinN32 w d a) := by
  intro k h; injection h with h; subst h; have := bitNat_le w; have := d.isLt; have := a.isLt; omega
theorem Encoding.vredMaxI32 (w : Bool) (d : BitVec 7) (a : BitVec 7) : Encoding.Statement (.vredMaxI32 w d a) := by
  intro k h; injection h with h; subst h; have := bitNat_le w; have := d.isLt; have := a.isLt; omega
theorem Encoding.vredMaxN32 (w : Bool) (d : BitVec 7) (a : BitVec 7) : Encoding.Statement (.vredMaxN32 w d a) := by
  intro k h; injection h with h; subst h; have := bitNat_le w; have := d.isLt; have := a.isLt; omega
theorem Encoding.vredAnd (w : Bool) (d : BitVec 7) (a : BitVec 7) : Encoding.Statement (.vredAnd w d a) := by
  intro k h; injection h with h; subst h; have := bitNat_le w; have := d.isLt; have := a.isLt; omega
theorem Encoding.vredOr (w : Bool) (d : BitVec 7) (a : BitVec 7) : Encoding.Statement (.vredOr w d a) := by
  intro k h; injection h with h; subst h; have := bitNat_le w; have := d.isLt; have := a.isLt; omega
theorem Encoding.vredXor (w : Bool) (d : BitVec 7) (a : BitVec 7) : Encoding.Statement (.vredXor w d a) := by
  intro k h; injection h with h; subst h; have := bitNat_le w; have := d.isLt; have := a.isLt; omega
theorem Encoding.vscanAddI32 (w : Bool) (d : BitVec 7) (a : BitVec 7) : Encoding.Statement (.vscanAddI32 w d a) := by
  intro k h; injection h with h; subst h; have := bitNat_le w; have := d.isLt; have := a.isLt; omega
theorem Encoding.vscanMaxI32 (w : Bool) (d : BitVec 7) (a : BitVec 7) : Encoding.Statement (.vscanMaxI32 w d a) := by
  intro k h; injection h with h; subst h; have := bitNat_le w; have := d.isLt; have := a.isLt; omega
theorem Encoding.vvoteAny (w : Bool) (d : BitVec 7) (p : BitVec 7) : Encoding.Statement (.vvoteAny w d p) := by
  intro k h; injection h with h; subst h; have := bitNat_le w; have := d.isLt; have := p.isLt; omega
theorem Encoding.vvoteAll (w : Bool) (d : BitVec 7) (p : BitVec 7) : Encoding.Statement (.vvoteAll w d p) := by
  intro k h; injection h with h; subst h; have := bitNat_le w; have := d.isLt; have := p.isLt; omega
theorem Encoding.vvoteFirst (w : Bool) (d : BitVec 7) (p : BitVec 7) : Encoding.Statement (.vvoteFirst w d p) := by
  intro k h; injection h with h; subst h; have := bitNat_le w; have := d.isLt; have := p.isLt; omega
theorem Encoding.vballot (w : Bool) (d : BitVec 7) (p : BitVec 7) : Encoding.Statement (.vballot w d p) := by
  intro k h; injection h with h; subst h; have := bitNat_le w; have := d.isLt; have := p.isLt; omega
theorem Encoding.vdot4I8 (w : Bool) (d : BitVec 7) (a : BitVec 7) (b : BitVec 7) : Encoding.Statement (.vdot4I8 w d a b) := by
  intro k h; injection h with h; subst h; have := bitNat_le w; have := d.isLt; have := a.isLt; have := b.isLt; omega
theorem Encoding.vdot4N8 (w : Bool) (d : BitVec 7) (a : BitVec 7) (b : BitVec 7) : Encoding.Statement (.vdot4N8 w d a b) := by
  intro k h; injection h with h; subst h; have := bitNat_le w; have := d.isLt; have := a.isLt; have := b.isLt; omega
theorem Encoding.vfaddF32 (w : Bool) (r : BitVec 2) (d : BitVec 7) (a : BitVec 7) (b : BitVec 7) : Encoding.Statement (.vfaddF32 w r d a b) := by
  intro k h; injection h with h; subst h; have := bitNat_le w; have := r.isLt; have := d.isLt; have := a.isLt; have := b.isLt; omega
theorem Encoding.vfsubF32 (w : Bool) (r : BitVec 2) (d : BitVec 7) (a : BitVec 7) (b : BitVec 7) : Encoding.Statement (.vfsubF32 w r d a b) := by
  intro k h; injection h with h; subst h; have := bitNat_le w; have := r.isLt; have := d.isLt; have := a.isLt; have := b.isLt; omega
theorem Encoding.vfmulF32 (w : Bool) (r : BitVec 2) (d : BitVec 7) (a : BitVec 7) (b : BitVec 7) : Encoding.Statement (.vfmulF32 w r d a b) := by
  intro k h; injection h with h; subst h; have := bitNat_le w; have := r.isLt; have := d.isLt; have := a.isLt; have := b.isLt; omega
theorem Encoding.vfaddF64 (w : Bool) (d : BitVec 7) (a : BitVec 7) (b : BitVec 7) : Encoding.Statement (.vfaddF64 w d a b) := by
  intro k h; injection h with h; subst h; have := bitNat_le w; have := d.isLt; have := a.isLt; have := b.isLt; omega
theorem Encoding.vfsubF64 (w : Bool) (d : BitVec 7) (a : BitVec 7) (b : BitVec 7) : Encoding.Statement (.vfsubF64 w d a b) := by
  intro k h; injection h with h; subst h; have := bitNat_le w; have := d.isLt; have := a.isLt; have := b.isLt; omega
theorem Encoding.vfmulF64 (w : Bool) (d : BitVec 7) (a : BitVec 7) (b : BitVec 7) : Encoding.Statement (.vfmulF64 w d a b) := by
  intro k h; injection h with h; subst h; have := bitNat_le w; have := d.isLt; have := a.isLt; have := b.isLt; omega
theorem Encoding.vffmaF32 (w : Bool) (r : BitVec 2) (d : BitVec 7) (a : BitVec 7) (b : BitVec 7) : Encoding.Statement (.vffmaF32 w r d a b) := by
  intro k h; injection h with h; subst h; have := bitNat_le w; have := r.isLt; have := d.isLt; have := a.isLt; have := b.isLt; omega
theorem Encoding.vffmaF64 (w : Bool) (r : BitVec 2) (d : BitVec 7) (a : BitVec 7) (b : BitVec 7) : Encoding.Statement (.vffmaF64 w r d a b) := by
  intro k h; injection h with h; subst h; have := bitNat_le w; have := r.isLt; have := d.isLt; have := a.isLt; have := b.isLt; omega
theorem Encoding.vfaddminF32 (w : Bool) (d : BitVec 7) (a : BitVec 7) (b : BitVec 7) : Encoding.Statement (.vfaddminF32 w d a b) := by
  intro k h; injection h with h; subst h; have := bitNat_le w; have := d.isLt; have := a.isLt; have := b.isLt; omega
theorem Encoding.vfaddPacked (w : Bool) (t : Bool) (d : BitVec 7) (a : BitVec 7) (b : BitVec 7) : Encoding.Statement (.vfaddPacked w t d a b) := by
  intro k h; injection h with h; subst h; have := bitNat_le w; have := bitNat_le t; have := d.isLt; have := a.isLt; have := b.isLt; omega
theorem Encoding.vfsubPacked (w : Bool) (t : Bool) (d : BitVec 7) (a : BitVec 7) (b : BitVec 7) : Encoding.Statement (.vfsubPacked w t d a b) := by
  intro k h; injection h with h; subst h; have := bitNat_le w; have := bitNat_le t; have := d.isLt; have := a.isLt; have := b.isLt; omega
theorem Encoding.vfmulPacked (w : Bool) (t : Bool) (d : BitVec 7) (a : BitVec 7) (b : BitVec 7) : Encoding.Statement (.vfmulPacked w t d a b) := by
  intro k h; injection h with h; subst h; have := bitNat_le w; have := bitNat_le t; have := d.isLt; have := a.isLt; have := b.isLt; omega
theorem Encoding.vffmaPacked (w : Bool) (t : Bool) (d : BitVec 7) (a : BitVec 7) (b : BitVec 7) : Encoding.Statement (.vffmaPacked w t d a b) := by
  intro k h; injection h with h; subst h; have := bitNat_le w; have := bitNat_le t; have := d.isLt; have := a.isLt; have := b.isLt; omega
theorem Encoding.vfminPacked (w : Bool) (t : Bool) (d : BitVec 7) (a : BitVec 7) (b : BitVec 7) : Encoding.Statement (.vfminPacked w t d a b) := by
  intro k h; injection h with h; subst h; have := bitNat_le w; have := bitNat_le t; have := d.isLt; have := a.isLt; have := b.isLt; omega
theorem Encoding.vfmaxPacked (w : Bool) (t : Bool) (d : BitVec 7) (a : BitVec 7) (b : BitVec 7) : Encoding.Statement (.vfmaxPacked w t d a b) := by
  intro k h; injection h with h; subst h; have := bitNat_le w; have := bitNat_le t; have := d.isLt; have := a.isLt; have := b.isLt; omega
theorem Encoding.vfdot2 (w : Bool) (t : Bool) (d : BitVec 7) (a : BitVec 7) (b : BitVec 7) : Encoding.Statement (.vfdot2 w t d a b) := by
  intro k h; injection h with h; subst h; have := bitNat_le w; have := bitNat_le t; have := d.isLt; have := a.isLt; have := b.isLt; omega
theorem Encoding.vcvt (w : Bool) (s : BitVec 4) (d : BitVec 7) (a : BitVec 7) (t : BitVec 4) (r : BitVec 2) (n : Bool) : Encoding.Statement (.vcvt w s d a t r n) := by
  intro k h; injection h with h; subst h; have := bitNat_le w; have := s.isLt; have := d.isLt; have := a.isLt; have := t.isLt; have := r.isLt; have := bitNat_le n; omega
theorem Encoding.vcvtPkBf16x2 (w : Bool) (d : BitVec 7) (a : BitVec 7) (b : BitVec 7) : Encoding.Statement (.vcvtPkBf16x2 w d a b) := by
  intro k h; injection h with h; subst h; have := bitNat_le w; have := d.isLt; have := a.isLt; have := b.isLt; omega
theorem Encoding.vcvtPkF16x2 (w : Bool) (d : BitVec 7) (a : BitVec 7) (b : BitVec 7) : Encoding.Statement (.vcvtPkF16x2 w d a b) := by
  intro k h; injection h with h; subst h; have := bitNat_le w; have := d.isLt; have := a.isLt; have := b.isLt; omega
theorem Encoding.vquant (w : Bool) (f : BitVec 3) (d : BitVec 7) (a : BitVec 7) (b : BitVec 7) : Encoding.Statement (.vquant w f d a b) := by
  intro k h; injection h with h; subst h; have := bitNat_le w; have := f.isLt; have := d.isLt; have := a.isLt; have := b.isLt; omega
theorem Encoding.vdequant (w : Bool) (f : BitVec 3) (d : BitVec 7) (a : BitVec 7) (b : BitVec 7) : Encoding.Statement (.vdequant w f d a b) := by
  intro k h; injection h with h; subst h; have := bitNat_le w; have := f.isLt; have := d.isLt; have := a.isLt; have := b.isLt; omega
theorem Encoding.vtrit (w : Bool) (d : BitVec 7) (a : BitVec 7) (b : BitVec 7) : Encoding.Statement (.vtrit w d a b) := by
  intro k h; injection h with h; subst h; have := bitNat_le w; have := d.isLt; have := a.isLt; have := b.isLt; omega
theorem Encoding.vrcpF32 (w : Bool) (r : BitVec 2) (d : BitVec 7) (a : BitVec 7) : Encoding.Statement (.vrcpF32 w r d a) := by
  intro k h; injection h with h; subst h; have := bitNat_le w; have := r.isLt; have := d.isLt; have := a.isLt; omega
theorem Encoding.vsqrtF32 (w : Bool) (r : BitVec 2) (d : BitVec 7) (a : BitVec 7) : Encoding.Statement (.vsqrtF32 w r d a) := by
  intro k h; injection h with h; subst h; have := bitNat_le w; have := r.isLt; have := d.isLt; have := a.isLt; omega
theorem Encoding.vdivF32 (w : Bool) (r : BitVec 2) (d : BitVec 7) (a : BitVec 7) (b : BitVec 7) : Encoding.Statement (.vdivF32 w r d a b) := by
  intro k h; injection h with h; subst h; have := bitNat_le w; have := r.isLt; have := d.isLt; have := a.isLt; have := b.isLt; omega
theorem Encoding.vexp2F32 (w : Bool) (d : BitVec 7) (a : BitVec 7) : Encoding.Statement (.vexp2F32 w d a) := by
  intro k h; injection h with h; subst h; have := bitNat_le w; have := d.isLt; have := a.isLt; omega
theorem Encoding.vlog2F32 (w : Bool) (d : BitVec 7) (a : BitVec 7) : Encoding.Statement (.vlog2F32 w d a) := by
  intro k h; injection h with h; subst h; have := bitNat_le w; have := d.isLt; have := a.isLt; omega
theorem Encoding.vsinF32 (w : Bool) (d : BitVec 7) (a : BitVec 7) : Encoding.Statement (.vsinF32 w d a) := by
  intro k h; injection h with h; subst h; have := bitNat_le w; have := d.isLt; have := a.isLt; omega
theorem Encoding.vcosF32 (w : Bool) (d : BitVec 7) (a : BitVec 7) : Encoding.Statement (.vcosF32 w d a) := by
  intro k h; injection h with h; subst h; have := bitNat_le w; have := d.isLt; have := a.isLt; omega
theorem Encoding.vfcmpF32 (w : Bool) (c : BitVec 3) (p : BitVec 3) (a : BitVec 7) (b : BitVec 7) : Encoding.Statement (.vfcmpF32 w c p a b) := by
  intro k h; injection h with h; subst h; have := bitNat_le w; have := c.isLt; have := p.isLt; have := a.isLt; have := b.isLt; omega
theorem Encoding.vfcmpF64 (w : Bool) (c : BitVec 3) (p : BitVec 3) (a : BitVec 7) (b : BitVec 7) : Encoding.Statement (.vfcmpF64 w c p a b) := by
  intro k h; injection h with h; subst h; have := bitNat_le w; have := c.isLt; have := p.isLt; have := a.isLt; have := b.isLt; omega
theorem Encoding.vfclassF32 (w : Bool) (p : BitVec 3) (a : BitVec 7) (k : BitVec 7) : Encoding.Statement (.vfclassF32 w p a k) := by
  intro k h; injection h with h; subst h; have := bitNat_le w; have := p.isLt; have := a.isLt; have := k.isLt; omega
theorem Encoding.vfclassF64 (w : Bool) (p : BitVec 3) (a : BitVec 7) (k : BitVec 7) : Encoding.Statement (.vfclassF64 w p a k) := by
  intro k h; injection h with h; subst h; have := bitNat_le w; have := p.isLt; have := a.isLt; have := k.isLt; omega
theorem Encoding.vfminF32 (w : Bool) (d : BitVec 7) (a : BitVec 7) (b : BitVec 7) : Encoding.Statement (.vfminF32 w d a b) := by
  intro k h; injection h with h; subst h; have := bitNat_le w; have := d.isLt; have := a.isLt; have := b.isLt; omega
theorem Encoding.vfmaxF32 (w : Bool) (d : BitVec 7) (a : BitVec 7) (b : BitVec 7) : Encoding.Statement (.vfmaxF32 w d a b) := by
  intro k h; injection h with h; subst h; have := bitNat_le w; have := d.isLt; have := a.isLt; have := b.isLt; omega
theorem Encoding.vfminF64 (w : Bool) (d : BitVec 7) (a : BitVec 7) (b : BitVec 7) : Encoding.Statement (.vfminF64 w d a b) := by
  intro k h; injection h with h; subst h; have := bitNat_le w; have := d.isLt; have := a.isLt; have := b.isLt; omega
theorem Encoding.vfmaxF64 (w : Bool) (d : BitVec 7) (a : BitVec 7) (b : BitVec 7) : Encoding.Statement (.vfmaxF64 w d a b) := by
  intro k h; injection h with h; subst h; have := bitNat_le w; have := d.isLt; have := a.isLt; have := b.isLt; omega
theorem Encoding.vfabsF32 (w : Bool) (d : BitVec 7) (a : BitVec 7) : Encoding.Statement (.vfabsF32 w d a) := by
  intro k h; injection h with h; subst h; have := bitNat_le w; have := d.isLt; have := a.isLt; omega
theorem Encoding.vfnegF32 (w : Bool) (d : BitVec 7) (a : BitVec 7) : Encoding.Statement (.vfnegF32 w d a) := by
  intro k h; injection h with h; subst h; have := bitNat_le w; have := d.isLt; have := a.isLt; omega
theorem Encoding.vfcsgnF32 (w : Bool) (d : BitVec 7) (a : BitVec 7) (b : BitVec 7) : Encoding.Statement (.vfcsgnF32 w d a b) := by
  intro k h; injection h with h; subst h; have := bitNat_le w; have := d.isLt; have := a.isLt; have := b.isLt; omega
theorem Encoding.vfabsF64 (w : Bool) (d : BitVec 7) (a : BitVec 7) : Encoding.Statement (.vfabsF64 w d a) := by
  intro k h; injection h with h; subst h; have := bitNat_le w; have := d.isLt; have := a.isLt; omega
theorem Encoding.vfnegF64 (w : Bool) (d : BitVec 7) (a : BitVec 7) : Encoding.Statement (.vfnegF64 w d a) := by
  intro k h; injection h with h; subst h; have := bitNat_le w; have := d.isLt; have := a.isLt; omega
theorem Encoding.vfcsgnF64 (w : Bool) (d : BitVec 7) (a : BitVec 7) (b : BitVec 7) : Encoding.Statement (.vfcsgnF64 w d a b) := by
  intro k h; injection h with h; subst h; have := bitNat_le w; have := d.isLt; have := a.isLt; have := b.isLt; omega
theorem Encoding.vfredAddF32 (w : Bool) (r : BitVec 2) (d : BitVec 7) (a : BitVec 7) : Encoding.Statement (.vfredAddF32 w r d a) := by
  intro k h; injection h with h; subst h; have := bitNat_le w; have := r.isLt; have := d.isLt; have := a.isLt; omega
theorem Encoding.vfscanAddF32 (w : Bool) (r : BitVec 2) (d : BitVec 7) (a : BitVec 7) : Encoding.Statement (.vfscanAddF32 w r d a) := by
  intro k h; injection h with h; subst h; have := bitNat_le w; have := r.isLt; have := d.isLt; have := a.isLt; omega
theorem Encoding.vfredMaxF32 (w : Bool) (d : BitVec 7) (a : BitVec 7) : Encoding.Statement (.vfredMaxF32 w d a) := by
  intro k h; injection h with h; subst h; have := bitNat_le w; have := d.isLt; have := a.isLt; omega
theorem Encoding.vfredMinF32 (w : Bool) (d : BitVec 7) (a : BitVec 7) : Encoding.Statement (.vfredMinF32 w d a) := by
  intro k h; injection h with h; subst h; have := bitNat_le w; have := d.isLt; have := a.isLt; omega
theorem Encoding.vfredAddF64 (w : Bool) (d : BitVec 7) (a : BitVec 7) : Encoding.Statement (.vfredAddF64 w d a) := by
  intro k h; injection h with h; subst h; have := bitNat_le w; have := d.isLt; have := a.isLt; omega
theorem Encoding.vfredMaxF64 (w : Bool) (d : BitVec 7) (a : BitVec 7) : Encoding.Statement (.vfredMaxF64 w d a) := by
  intro k h; injection h with h; subst h; have := bitNat_le w; have := d.isLt; have := a.isLt; omega
theorem Encoding.vfredMinF64 (w : Bool) (d : BitVec 7) (a : BitVec 7) : Encoding.Statement (.vfredMinF64 w d a) := by
  intro k h; injection h with h; subst h; have := bitNat_le w; have := d.isLt; have := a.isLt; omega
theorem Encoding.vfscanAddF64 (w : Bool) (d : BitVec 7) (a : BitVec 7) : Encoding.Statement (.vfscanAddF64 w d a) := by
  intro k h; injection h with h; subst h; have := bitNat_le w; have := d.isLt; have := a.isLt; omega
theorem Encoding.vld (w : Bool) (t : BitVec 4) (d : BitVec 7) (o : BitVec 7) (b : BitVec 6) (s : Bool) : Encoding.Statement (.vld w t d o b s) := by
  intro k h; injection h with h; subst h; have := bitNat_le w; have := t.isLt; have := d.isLt; have := o.isLt; have := b.isLt; have := bitNat_le s; omega
theorem Encoding.vst (w : Bool) (t : BitVec 4) (d : BitVec 7) (o : BitVec 7) (b : BitVec 6) (s : Bool) : Encoding.Statement (.vst w t d o b s) := by
  intro k h; injection h with h; subst h; have := bitNat_le w; have := t.isLt; have := d.isLt; have := o.isLt; have := b.isLt; have := bitNat_le s; omega
theorem Encoding.vatom (w : Bool) (p : BitVec 4) (d : BitVec 7) (o : BitVec 7) (b : BitVec 6) (s : Bool) : Encoding.Statement (.vatom w p d o b s) := by
  intro k h; injection h with h; subst h; have := bitNat_le w; have := p.isLt; have := d.isLt; have := o.isLt; have := b.isLt; have := bitNat_le s; omega
theorem Encoding.fatom (w : Bool) (p : BitVec 4) (d : BitVec 7) (o : BitVec 7) (b : BitVec 6) (s : Bool) : Encoding.Statement (.fatom w p d o b s) := by
  intro k h; injection h with h; subst h; have := bitNat_le w; have := p.isLt; have := d.isLt; have := o.isLt; have := b.isLt; have := bitNat_le s; omega
theorem Encoding.vldSp (w : Bool) (z : BitVec 2) (d : BitVec 7) (o : BitVec 7) (b : BitVec 6) (s : Bool) : Encoding.Statement (.vldSp w z d o b s) := by
  intro k h; injection h with h; subst h; have := bitNat_le w; have := z.isLt; have := d.isLt; have := o.isLt; have := b.isLt; have := bitNat_le s; omega
theorem Encoding.vstSp (w : Bool) (z : BitVec 2) (d : BitVec 7) (o : BitVec 7) (b : BitVec 6) (s : Bool) : Encoding.Statement (.vstSp w z d o b s) := by
  intro k h; injection h with h; subst h; have := bitNat_le w; have := z.isLt; have := d.isLt; have := o.isLt; have := b.isLt; have := bitNat_le s; omega
theorem Encoding.vldNv (w : Bool) (z : BitVec 2) (d : BitVec 7) (o : BitVec 7) (b : BitVec 6) (s : Bool) : Encoding.Statement (.vldNv w z d o b s) := by
  intro k h; injection h with h; subst h; have := bitNat_le w; have := z.isLt; have := d.isLt; have := o.isLt; have := b.isLt; have := bitNat_le s; omega
theorem Encoding.vstNv (w : Bool) (z : BitVec 2) (d : BitVec 7) (o : BitVec 7) (b : BitVec 6) (s : Bool) : Encoding.Statement (.vstNv w z d o b s) := by
  intro k h; injection h with h; subst h; have := bitNat_le w; have := z.isLt; have := d.isLt; have := o.isLt; have := b.isLt; have := bitNat_le s; omega
theorem Encoding.vcacheWb (w : Bool) (o : BitVec 7) (b : BitVec 6) (s : Bool) : Encoding.Statement (.vcacheWb w o b s) := by
  intro k h; injection h with h; subst h; have := bitNat_le w; have := o.isLt; have := b.isLt; have := bitNat_le s; omega
theorem Encoding.vcacheWbinv (w : Bool) (o : BitVec 7) (b : BitVec 6) (s : Bool) : Encoding.Statement (.vcacheWbinv w o b s) := by
  intro k h; injection h with h; subst h; have := bitNat_le w; have := o.isLt; have := b.isLt; have := bitNat_le s; omega
theorem Encoding.vcachePf (w : Bool) (o : BitVec 7) (b : BitVec 6) (s : Bool) : Encoding.Statement (.vcachePf w o b s) := by
  intro k h; injection h with h; subst h; have := bitNat_le w; have := o.isLt; have := b.isLt; have := bitNat_le s; omega
theorem Encoding.vcacheDemote (w : Bool) (o : BitVec 7) (b : BitVec 6) (s : Bool) : Encoding.Statement (.vcacheDemote w o b s) := by
  intro k h; injection h with h; subst h; have := bitNat_le w; have := o.isLt; have := b.isLt; have := bitNat_le s; omega
theorem Encoding.sld (w : Bool) (d : BitVec 6) (a : BitVec 6) (t : BitVec 3) (f : BitVec 9) : Encoding.Statement (.sld w d a t f) := by
  intro k h; injection h with h; subst h; have := bitNat_le w; have := d.isLt; have := a.isLt; have := t.isLt; have := f.isLt; omega
theorem Encoding.sst (w : Bool) (d : BitVec 6) (a : BitVec 6) (t : BitVec 3) (f : BitVec 9) : Encoding.Statement (.sst w d a t f) := by
  intro k h; injection h with h; subst h; have := bitNat_le w; have := d.isLt; have := a.isLt; have := t.isLt; have := f.isLt; omega
theorem Encoding.satom (w : Bool) (p : BitVec 4) (d : BitVec 6) (a : BitVec 6) (b : BitVec 6) : Encoding.Statement (.satom w p d a b) := by
  intro k h; injection h with h; subst h; have := bitNat_le w; have := p.isLt; have := d.isLt; have := a.isLt; have := b.isLt; omega
theorem Encoding.satomNr (w : Bool) (p : BitVec 4) (a : BitVec 6) (b : BitVec 6) : Encoding.Statement (.satomNr w p a b) := by
  intro k h; injection h with h; subst h; have := bitNat_le w; have := p.isLt; have := a.isLt; have := b.isLt; omega
theorem Encoding.fence (w : Bool) (o : BitVec 6) (e : BitVec 6) : Encoding.Statement (.fence w o e) := by
  intro k h; injection h with h; subst h; have := bitNat_le w; have := o.isLt; have := e.isLt; omega
theorem Encoding.xfence (w : Bool) (a : BitVec 6) (b : BitVec 6) : Encoding.Statement (.xfence w a b) := by
  intro k h; injection h with h; subst h; have := bitNat_le w; have := a.isLt; have := b.isLt; omega
theorem Encoding.tlfence (w : Bool) (e : BitVec 6) : Encoding.Statement (.tlfence w e) := by
  intro k h; injection h with h; subst h; have := bitNat_le w; have := e.isLt; omega
theorem Encoding.ifence (w : Bool) : Encoding.Statement (.ifence w) := by
  intro k h; injection h with h; subst h; have := bitNat_le w; omega
theorem Encoding.cpyLd (w : Bool) (t : BitVec 8) (a : BitVec 6) (p : BitVec 3) : Encoding.Statement (.cpyLd w t a p) := by
  intro k h; injection h with h; subst h; have := bitNat_le w; have := t.isLt; have := a.isLt; have := p.isLt; omega
theorem Encoding.cpySlot (w : Bool) (t : BitVec 8) (a : BitVec 6) (p : BitVec 3) : Encoding.Statement (.cpySlot w t a p) := by
  intro k h; injection h with h; subst h; have := bitNat_le w; have := t.isLt; have := a.isLt; have := p.isLt; omega
theorem Encoding.cpySt (w : Bool) (t : BitVec 8) (a : BitVec 6) (p : BitVec 3) : Encoding.Statement (.cpySt w t a p) := by
  intro k h; injection h with h; subst h; have := bitNat_le w; have := t.isLt; have := a.isLt; have := p.isLt; omega
theorem Encoding.cpyGg (w : Bool) (t : BitVec 8) (a : BitVec 6) (p : BitVec 3) : Encoding.Statement (.cpyGg w t a p) := by
  intro k h; injection h with h; subst h; have := bitNat_le w; have := t.isLt; have := a.isLt; have := p.isLt; omega
theorem Encoding.cpyGth (w : Bool) (t : BitVec 8) (a : BitVec 6) (p : BitVec 3) : Encoding.Statement (.cpyGth w t a p) := by
  intro k h; injection h with h; subst h; have := bitNat_le w; have := t.isLt; have := a.isLt; have := p.isLt; omega
theorem Encoding.cpyMc (w : Bool) (t : BitVec 8) (a : BitVec 6) (p : BitVec 3) : Encoding.Statement (.cpyMc w t a p) := by
  intro k h; injection h with h; subst h; have := bitNat_le w; have := t.isLt; have := a.isLt; have := p.isLt; omega
theorem Encoding.cpyMcSlot (w : Bool) (t : BitVec 8) (a : BitVec 6) (p : BitVec 3) : Encoding.Statement (.cpyMcSlot w t a p) := by
  intro k h; injection h with h; subst h; have := bitNat_le w; have := t.isLt; have := a.isLt; have := p.isLt; omega
theorem Encoding.tnset (w : Bool) (t : BitVec 8) (a : BitVec 6) (d : BitVec 6) : Encoding.Statement (.tnset w t a d) := by
  intro k h; injection h with h; subst h; have := bitNat_le w; have := t.isLt; have := a.isLt; have := d.isLt; omega
theorem Encoding.tnget (w : Bool) (t : BitVec 8) (d : BitVec 6) : Encoding.Statement (.tnget w t d) := by
  intro k h; injection h with h; subst h; have := bitNat_le w; have := t.isLt; have := d.isLt; omega
theorem Encoding.cbat (w : Bool) (e : Bool) (d : BitVec 6) : Encoding.Statement (.cbat w e d) := by
  intro k h; injection h with h; subst h; have := bitNat_le w; have := bitNat_le e; have := d.isLt; omega
theorem Encoding.cwait (w : Bool) (n : BitVec 16) : Encoding.Statement (.cwait w n) := by
  intro k h; injection h with h; subst h; have := bitNat_le w; have := n.isLt; omega
theorem Encoding.cwaitR (w : Bool) (a : BitVec 6) : Encoding.Statement (.cwaitR w a) := by
  intro k h; injection h with h; subst h; have := bitNat_le w; have := a.isLt; omega
theorem Encoding.tbinit (w : Bool) (a : BitVec 6) (b : BitVec 6) : Encoding.Statement (.tbinit w a b) := by
  intro k h; injection h with h; subst h; have := bitNat_le w; have := a.isLt; have := b.isLt; omega
theorem Encoding.tbarrive (w : Bool) (a : BitVec 6) (k : BitVec 12) : Encoding.Statement (.tbarrive w a k) := by
  intro k h; injection h with h; subst h; have := bitNat_le w; have := a.isLt; have := k.isLt; omega
theorem Encoding.tbarriveR (w : Bool) (a : BitVec 6) (b : BitVec 6) : Encoding.Statement (.tbarriveR w a b) := by
  intro k h; injection h with h; subst h; have := bitNat_le w; have := a.isLt; have := b.isLt; omega
theorem Encoding.tbwait (w : Bool) (a : BitVec 6) (b : BitVec 6) : Encoding.Statement (.tbwait w a b) := by
  intro k h; injection h with h; subst h; have := bitNat_le w; have := a.isLt; have := b.isLt; omega
theorem Encoding.tbphase (w : Bool) (a : BitVec 6) (d : BitVec 6) : Encoding.Statement (.tbphase w a d) := by
  intro k h; injection h with h; subst h; have := bitNat_le w; have := a.isLt; have := d.isLt; omega
theorem Encoding.sltake (w : Bool) (a : BitVec 6) (xi : BitVec 6) : Encoding.Statement (.sltake w a xi) := by
  intro k h; injection h with h; subst h; have := bitNat_le w; have := a.isLt; have := xi.isLt; omega
theorem Encoding.slrel (w : Bool) (a : BitVec 6) (xi : BitVec 6) : Encoding.Statement (.slrel w a xi) := by
  intro k h; injection h with h; subst h; have := bitNat_le w; have := a.isLt; have := xi.isLt; omega
theorem Encoding.sltag (w : Bool) (a : BitVec 6) (d : BitVec 6) (xi : BitVec 6) : Encoding.Statement (.sltag w a d xi) := by
  intro k h; injection h with h; subst h; have := bitNat_le w; have := a.isLt; have := d.isLt; have := xi.isLt; omega
theorem Encoding.slinit (w : Bool) (a : BitVec 6) (n : BitVec 6) : Encoding.Statement (.slinit w a n) := by
  intro k h; injection h with h; subst h; have := bitNat_le w; have := a.isLt; have := n.isLt; omega
theorem Encoding.qpush (w : Bool) (g : Bool) (r : Bool) (a : BitVec 6) (q : BitVec 8) : Encoding.Statement (.qpush w g r a q) := by
  intro k h; injection h with h; subst h; have := bitNat_le w; have := bitNat_le g; have := bitNat_le r; have := a.isLt; have := q.isLt; omega
theorem Encoding.qpushTry (w : Bool) (g : Bool) (r : Bool) (a : BitVec 6) (d : BitVec 6) (q : BitVec 8) : Encoding.Statement (.qpushTry w g r a d q) := by
  intro k h; injection h with h; subst h; have := bitNat_le w; have := bitNat_le g; have := bitNat_le r; have := a.isLt; have := d.isLt; have := q.isLt; omega
theorem Encoding.qwait (w : Bool) (g : Bool) (r : Bool) (a : BitVec 6) (q : BitVec 8) : Encoding.Statement (.qwait w g r a q) := by
  intro k h; injection h with h; subst h; have := bitNat_le w; have := bitNat_le g; have := bitNat_le r; have := a.isLt; have := q.isLt; omega
theorem Encoding.qpopTry (w : Bool) (g : Bool) (r : Bool) (a : BitVec 6) (d : BitVec 6) (q : BitVec 8) : Encoding.Statement (.qpopTry w g r a d q) := by
  intro k h; injection h with h; subst h; have := bitNat_le w; have := bitNat_le g; have := bitNat_le r; have := a.isLt; have := d.isLt; have := q.isLt; omega
theorem Encoding.vmma (w : Bool) (f : BitVec 4) (h : BitVec 7) (a : BitVec 7) (b : BitVec 7) : Encoding.Statement (.vmma w f h a b) := by
  intro k h; injection h with h; subst h; have := bitNat_le w; have := f.isLt; have := h.isLt; have := a.isLt; have := b.isLt; omega
theorem Encoding.fmm (w : Bool) (h : BitVec 7) (a : BitVec 6) (z : Bool) : Encoding.Statement (.fmm w h a z) := by
  intro k h; injection h with h; subst h; have := bitNat_le w; have := h.isLt; have := a.isLt; have := bitNat_le z; omega
theorem Encoding.fmmt (w : Bool) (h : BitVec 7) (a : BitVec 6) (z : Bool) : Encoding.Statement (.fmmt w h a z) := by
  intro k h; injection h with h; subst h; have := bitNat_le w; have := h.isLt; have := a.isLt; have := bitNat_le z; omega
theorem Encoding.fpoly (w : Bool) (h : BitVec 7) (a : BitVec 6) : Encoding.Statement (.fpoly w h a) := by
  intro k h; injection h with h; subst h; have := bitNat_le w; have := h.isLt; have := a.isLt; omega
theorem Encoding.fiter (w : Bool) (h : BitVec 7) (a : BitVec 6) (d : BitVec 6) : Encoding.Statement (.fiter w h a d) := by
  intro k h; injection h with h; subst h; have := bitNat_le w; have := h.isLt; have := a.isLt; have := d.isLt; omega
theorem Encoding.ftmask (w : Bool) (h : BitVec 7) (a : BitVec 6) : Encoding.Statement (.ftmask w h a) := by
  intro k h; injection h with h; subst h; have := bitNat_le w; have := h.isLt; have := a.isLt; omega
theorem Encoding.ftmaskAnc (w : Bool) (h : BitVec 7) (a : BitVec 6) : Encoding.Statement (.ftmaskAnc w h a) := by
  intro k h; injection h with h; subst h; have := bitNat_le w; have := h.isLt; have := a.isLt; omega
theorem Encoding.faccLd (w : Bool) (h : BitVec 7) (a : BitVec 6) : Encoding.Statement (.faccLd w h a) := by
  intro k h; injection h with h; subst h; have := bitNat_le w; have := h.isLt; have := a.isLt; omega
theorem Encoding.faccStF32 (w : Bool) (h : BitVec 7) (a : BitVec 6) : Encoding.Statement (.faccStF32 w h a) := by
  intro k h; injection h with h; subst h; have := bitNat_le w; have := h.isLt; have := a.isLt; omega
theorem Encoding.faccStBf16 (w : Bool) (h : BitVec 7) (a : BitVec 6) : Encoding.Statement (.faccStBf16 w h a) := by
  intro k h; injection h with h; subst h; have := bitNat_le w; have := h.isLt; have := a.isLt; omega
theorem Encoding.faccStF16 (w : Bool) (h : BitVec 7) (a : BitVec 6) : Encoding.Statement (.faccStF16 w h a) := by
  intro k h; injection h with h; subst h; have := bitNat_le w; have := h.isLt; have := a.isLt; omega
theorem Encoding.faccRd (w : Bool) (h : BitVec 7) (d : BitVec 7) (c : BitVec 2) : Encoding.Statement (.faccRd w h d c) := by
  intro k h; injection h with h; subst h; have := bitNat_le w; have := h.isLt; have := d.isLt; have := c.isLt; omega
theorem Encoding.faccZero (w : Bool) (h : BitVec 7) : Encoding.Statement (.faccZero w h) := by
  intro k h; injection h with h; subst h; have := bitNat_le w; have := h.isLt; omega
theorem Encoding.fcset (w : Bool) (n : BitVec 4) (a : BitVec 6) : Encoding.Statement (.fcset w n a) := by
  intro k h; injection h with h; subst h; have := bitNat_le w; have := n.isLt; have := a.isLt; omega
theorem Encoding.fcget (w : Bool) (n : BitVec 4) (d : BitVec 6) : Encoding.Statement (.fcget w n d) := by
  intro k h; injection h with h; subst h; have := bitNat_le w; have := n.isLt; have := d.isLt; omega
theorem Encoding.fcld (w : Bool) (a : BitVec 6) : Encoding.Statement (.fcld w a) := by
  intro k h; injection h with h; subst h; have := bitNat_le w; have := a.isLt; omega
theorem Encoding.fslotTake (w : Bool) (a : BitVec 6) (xi : BitVec 6) : Encoding.Statement (.fslotTake w a xi) := by
  intro k h; injection h with h; subst h; have := bitNat_le w; have := a.isLt; have := xi.isLt; omega
theorem Encoding.fslotRelease (w : Bool) (a : BitVec 6) (xi : BitVec 6) : Encoding.Statement (.fslotRelease w a xi) := by
  intro k h; injection h with h; subst h; have := bitNat_le w; have := a.isLt; have := xi.isLt; omega
theorem Encoding.ftbarrive (w : Bool) (a : BitVec 6) (k : BitVec 12) : Encoding.Statement (.ftbarrive w a k) := by
  intro k h; injection h with h; subst h; have := bitNat_le w; have := a.isLt; have := k.isLt; omega
theorem Encoding.emulationEntry (word : Word) : Encoding.Statement (.emulationEntry word) := fun _ h => nomatch h
theorem Encoding.packetNop (q : Nat) : Encoding.Statement (.packetNop q) := fun _ h => nomatch h
theorem Encoding.launch (q : Nat) : Encoding.Statement (.launch q) := fun _ h => nomatch h
theorem Encoding.signal (q : Nat) : Encoding.Statement (.signal q) := fun _ h => nomatch h
theorem Encoding.signalWaitallRelease (q : Nat) : Encoding.Statement (.signalWaitallRelease q) := fun _ h => nomatch h
theorem Encoding.waitmem (q : Nat) : Encoding.Statement (.waitmem q) := fun _ h => nomatch h
theorem Encoding.waitmemSatisfied (q : Nat) : Encoding.Statement (.waitmemSatisfied q) := fun _ h => nomatch h
theorem Encoding.fieldset (q : Nat) : Encoding.Statement (.fieldset q) := fun _ h => nomatch h
theorem Encoding.fieldsetDestroy (q : Nat) : Encoding.Statement (.fieldsetDestroy q) := fun _ h => nomatch h
theorem Encoding.setctx (q : Nat) : Encoding.Statement (.setctx q) := fun _ h => nomatch h
theorem Encoding.setctxDestroy (q : Nat) : Encoding.Statement (.setctxDestroy q) := fun _ h => nomatch h
theorem Encoding.wqcreate (q : Nat) : Encoding.Statement (.wqcreate q) := fun _ h => nomatch h
theorem Encoding.wqDestroy (q : Nat) : Encoding.Statement (.wqDestroy q) := fun _ h => nomatch h
theorem Encoding.graphrun (q : Nat) : Encoding.Statement (.graphrun q) := fun _ h => nomatch h
theorem Encoding.graphedit (q : Nat) : Encoding.Statement (.graphedit q) := fun _ h => nomatch h
theorem Encoding.fwdupdate (q : Nat) : Encoding.Statement (.fwdupdate q) := fun _ h => nomatch h
theorem Encoding.xlateinv (q : Nat) : Encoding.Statement (.xlateinv q) := fun _ h => nomatch h
theorem Encoding.syninv (q : Nat) : Encoding.Statement (.syninv q) := fun _ h => nomatch h
theorem Encoding.vaultgrant (q : Nat) : Encoding.Statement (.vaultgrant q) := fun _ h => nomatch h
theorem Encoding.preempt (q : Nat) : Encoding.Statement (.preempt q) := fun _ h => nomatch h
theorem Encoding.teamctlDestroy (q : Nat) : Encoding.Statement (.teamctlDestroy q) := fun _ h => nomatch h
theorem Encoding.teamctlResume (q : Nat) : Encoding.Statement (.teamctlResume q) := fun _ h => nomatch h
theorem Encoding.faultreplyRetry (q : Nat) : Encoding.Statement (.faultreplyRetry q) := fun _ h => nomatch h
theorem Encoding.faultreplyFail (q : Nat) : Encoding.Statement (.faultreplyFail q) := fun _ h => nomatch h
theorem Encoding.faultring (q : Nat) : Encoding.Statement (.faultring q) := fun _ h => nomatch h
theorem Encoding.vaultcarve (q : Nat) : Encoding.Statement (.vaultcarve q) := fun _ h => nomatch h
theorem Encoding.keyarea (q : Nat) : Encoding.Statement (.keyarea q) := fun _ h => nomatch h
theorem Encoding.protways (q : Nat) : Encoding.Statement (.protways q) := fun _ h => nomatch h
theorem Encoding.scrub (q : Nat) : Encoding.Statement (.scrub q) := fun _ h => nomatch h
theorem Encoding.attest (q : Nat) : Encoding.Statement (.attest q) := fun _ h => nomatch h
theorem Encoding.tracekey (q : Nat) : Encoding.Statement (.tracekey q) := fun _ h => nomatch h
theorem Encoding.dbgctlBpset (q : Nat) : Encoding.Statement (.dbgctlBpset q) := fun _ h => nomatch h
theorem Encoding.dbgctlStop (q : Nat) : Encoding.Statement (.dbgctlStop q) := fun _ h => nomatch h
theorem Encoding.dbgctlResume (q : Nat) : Encoding.Statement (.dbgctlResume q) := fun _ h => nomatch h
theorem Encoding.dbgctlStep (q : Nat) : Encoding.Statement (.dbgctlStep q) := fun _ h => nomatch h
theorem Encoding.dbgctlDump (q : Nat) : Encoding.Statement (.dbgctlDump q) := fun _ h => nomatch h
theorem Encoding.dbgctlWrite (q : Nat) : Encoding.Statement (.dbgctlWrite q) := fun _ h => nomatch h
theorem Encoding.tracectl (q : Nat) : Encoding.Statement (.tracectl q) := fun _ h => nomatch h
theorem Encoding.resync (q : Nat) : Encoding.Statement (.resync q) := fun _ h => nomatch h
theorem Encoding.powercap (q : Nat) : Encoding.Statement (.powercap q) := fun _ h => nomatch h
theorem Encoding.doorbell (q : Nat) : Encoding.Statement (.doorbell q) := fun _ h => nomatch h
theorem Encoding.queueScan (q : Nat) : Encoding.Statement (.queueScan q) := fun _ h => nomatch h
theorem Encoding.orphanLatch (slot : Nat) : Encoding.Statement (.orphanLatch slot) := fun _ h => nomatch h
theorem Encoding.qtbaseWrite (v : Dword) : Encoding.Statement (.qtbaseWrite v) := fun _ h => nomatch h
theorem Encoding.cxldecWrite (v : Dword) : Encoding.Statement (.cxldecWrite v) := fun _ h => nomatch h
theorem Encoding.registerWrite (off : Nat) (v : Dword) : Encoding.Statement (.registerWrite off v) := fun _ h => nomatch h
theorem Encoding.go (v : Word) : Encoding.Statement (.go v) := fun _ h => nomatch h
theorem Encoding.resetreq (v : Word) : Encoding.Statement (.resetreq v) := fun _ h => nomatch h
theorem Encoding.bootLoadComplete : Encoding.Statement .bootLoadComplete := fun _ h => nomatch h
theorem Encoding.powerOnReset : Encoding.Statement .powerOnReset := fun _ h => nomatch h
theorem Encoding.deviceReset : Encoding.Statement .deviceReset := fun _ h => nomatch h
theorem Encoding.hostWindowAccess (link : Nat) (win : Nat) (off : Nat) (len : Nat) (wr : Bool) (data : List Byte) : Encoding.Statement (.hostWindowAccess link win off len wr data) := fun _ h => nomatch h
theorem Encoding.teamAdmit : Encoding.Statement .teamAdmit := fun _ h => nomatch h
theorem Encoding.teamSaveComplete (t : Nat) : Encoding.Statement (.teamSaveComplete t) := fun _ h => nomatch h
theorem Encoding.teamRestore (t : Nat) : Encoding.Statement (.teamRestore t) := fun _ h => nomatch h
theorem Encoding.drainTimeout (t : Nat) : Encoding.Statement (.drainTimeout t) := fun _ h => nomatch h
theorem Encoding.serviceLimitExpiry (t : Nat) : Encoding.Statement (.serviceLimitExpiry t) := fun _ h => nomatch h
theorem Encoding.migration (t : Nat) : Encoding.Statement (.migration t) := fun _ h => nomatch h
theorem Encoding.eqpHoldTimeout (t : Nat) (g : Nat) : Encoding.Statement (.eqpHoldTimeout t g) := fun _ h => nomatch h
theorem Encoding.clearSequenceDone (core : Nat) : Encoding.Statement (.clearSequenceDone core) := fun _ h => nomatch h
theorem Encoding.keyReseat (ctx : Nat) : Encoding.Statement (.keyReseat ctx) := fun _ h => nomatch h
theorem Encoding.walkComplete (r : Nat) : Encoding.Statement (.walkComplete r) := fun _ h => nomatch h
theorem Encoding.faultRingRoom : Encoding.Statement .faultRingRoom := fun _ h => nomatch h
theorem Encoding.homeRequest (r : Nat) : Encoding.Statement (.homeRequest r) := fun _ h => nomatch h
theorem Encoding.clockBeatSend (src : Nat) (dst : Nat) : Encoding.Statement (.clockBeatSend src dst) := fun _ h => nomatch h
theorem Encoding.clockBeat (src : Nat) (dst : Nat) : Encoding.Statement (.clockBeat src dst) := fun _ h => nomatch h
theorem Encoding.replyReceive (r : Nat) : Encoding.Statement (.replyReceive r) := fun _ h => nomatch h
theorem Encoding.resultReturn (a : Nat) : Encoding.Statement (.resultReturn a) := fun _ h => nomatch h
theorem Encoding.storePerformed (a : Nat) : Encoding.Statement (.storePerformed a) := fun _ h => nomatch h
theorem Encoding.sectorLand (c : Nat) (xi : Nat) : Encoding.Statement (.sectorLand c xi) := fun _ h => nomatch h
theorem Encoding.l2WriteQueuePerform (die : Nat) (c : Nat) (xi : Nat) : Encoding.Statement (.l2WriteQueuePerform die c xi) := fun _ h => nomatch h
theorem Encoding.flumeOpApplied (t : Nat) (src : Option Nat) : Encoding.Statement (.flumeOpApplied t src) := fun _ h => nomatch h
theorem Encoding.fiterStop (t : Nat) : Encoding.Statement (.fiterStop t) := fun _ h => nomatch h
theorem Encoding.waitTimeout (t : Nat) (g : Option Nat) (p : Nat) : Encoding.Statement (.waitTimeout t g p) := fun _ h => nomatch h
theorem Encoding.waitMemwordPoll (t : Nat) (g : Option Nat) (p : Nat) : Encoding.Statement (.waitMemwordPoll t g p) := fun _ h => nomatch h
theorem Encoding.rowPoolEmpty (t : Nat) (g : Nat) (p : Nat) : Encoding.Statement (.rowPoolEmpty t g p) := fun _ h => nomatch h
theorem Encoding.queueRequestAtHome (m : Nat) : Encoding.Statement (.queueRequestAtHome m) := fun _ h => nomatch h
theorem Encoding.llScoreHalve (core : Nat) : Encoding.Statement (.llScoreHalve core) := fun _ h => nomatch h
theorem Encoding.llCapUpdate (core : Nat) : Encoding.Statement (.llCapUpdate core) := fun _ h => nomatch h
theorem Encoding.sampleTag (core : Nat) (slice : Nat) : Encoding.Statement (.sampleTag core slice) := fun _ h => nomatch h
theorem Encoding.flitReceive (link : Nat) (lowBad : Bool) (highBad : Bool) : Encoding.Statement (.flitReceive link lowBad highBad) := fun _ h => nomatch h
theorem Encoding.ackIdleTimer (link : Nat) : Encoding.Statement (.ackIdleTimer link) := fun _ h => nomatch h
theorem Encoding.nakRepeatTimer (link : Nat) : Encoding.Statement (.nakRepeatTimer link) := fun _ h => nomatch h
theorem Encoding.replayTimeout (link : Nat) : Encoding.Statement (.replayTimeout link) := fun _ h => nomatch h
theorem Encoding.retrainComplete (link : Nat) (module : Nat) : Encoding.Statement (.retrainComplete link module) := fun _ h => nomatch h
theorem Encoding.coreUncorrectableError (core : Nat) (lost : List Nat) : Encoding.Statement (.coreUncorrectableError core lost) := fun _ h => nomatch h
theorem Encoding.eccCorrected (index : Nat) : Encoding.Statement (.eccCorrected index) := fun _ h => nomatch h
theorem Encoding.sectorPoison (kind unit x : Nat) : Encoding.Statement (.sectorPoison kind unit x) := fun _ h => nomatch h
theorem Encoding.laneDefect (core : Nat) (slice : Nat) (lane : Nat) : Encoding.Statement (.laneDefect core slice lane) := fun _ h => nomatch h
theorem Encoding.powerThrottle (sixteenths : Nat) : Encoding.Statement (.powerThrottle sixteenths) := fun _ h => nomatch h
theorem Encoding.thermalThrottle (die : Nat) : Encoding.Statement (.thermalThrottle die) := fun _ h => nomatch h
theorem Encoding.thermalTrip (die : Nat) : Encoding.Statement (.thermalTrip die) := fun _ h => nomatch h
theorem Encoding.coolantFault : Encoding.Statement .coolantFault := fun _ h => nomatch h
theorem Encoding.culvertLinkStateChange (link : Nat) (up : Bool) : Encoding.Statement (.culvertLinkStateChange link up) := fun _ h => nomatch h
theorem Encoding.cxlPortStateChange (port : Nat) (up : Bool) : Encoding.Statement (.cxlPortStateChange port up) := fun _ h => nomatch h
theorem Encoding.powerLoss : Encoding.Statement .powerLoss := fun _ h => nomatch h
theorem Encoding.commandComplete (q : Nat) : Encoding.Statement (.commandComplete q) := fun _ h => nomatch h
theorem Encoding.referenceRewrite (ctx : Nat) (entry : Nat) : Encoding.Statement (.referenceRewrite ctx entry) := fun _ h => nomatch h
theorem Encoding.remapFilterWalkComplete (r : Nat) : Encoding.Statement (.remapFilterWalkComplete r) := fun _ h => nomatch h

end Sys2Proof.Laws
end

