-- ==== Sys2Proof/Laws/State.lean ====
section
/-! SUPPORT. One lemma for each field and each update of the state, a team and a group: the fields that an update does not
name stay as they are. -/

namespace Sys2Proof.Machine

@[simp] theorem State.setDie_refclk (s : State) (d : Nat) (x : Die) : (s.setDie d x).refclk = s.refclk := rfl
@[simp] theorem State.setDie_clock16 (s : State) (d : Nat) (x : Die) : (s.setDie d x).clock16 = s.clock16 := rfl
@[simp] theorem State.setDie_store (s : State) (d : Nat) (x : Die) : (s.setDie d x).store = s.store := rfl
@[simp] theorem State.setDie_links (s : State) (d : Nat) (x : Die) : (s.setDie d x).links = s.links := rfl
@[simp] theorem State.setDie_cores (s : State) (d : Nat) (x : Die) : (s.setDie d x).cores = s.cores := rfl
@[simp] theorem State.setDie_teams (s : State) (d : Nat) (x : Die) : (s.setDie d x).teams = s.teams := rfl
@[simp] theorem State.setDie_ctxs (s : State) (d : Nat) (x : Die) : (s.setDie d x).ctxs = s.ctxs := rfl
@[simp] theorem State.setDie_live (s : State) (d : Nat) (x : Die) : (s.setDie d x).live = s.live := rfl
@[simp] theorem State.setDie_fields (s : State) (d : Nat) (x : Die) : (s.setDie d x).fields = s.fields := rfl
@[simp] theorem State.setDie_launches (s : State) (d : Nat) (x : Die) : (s.setDie d x).launches = s.launches := rfl
@[simp] theorem State.setDie_runs (s : State) (d : Nat) (x : Die) : (s.setDie d x).runs = s.runs := rfl
@[simp] theorem State.setDie_graphs (s : State) (d : Nat) (x : Die) : (s.setDie d x).graphs = s.graphs := rfl
@[simp] theorem State.setDie_workQs (s : State) (d : Nat) (x : Die) : (s.setDie d x).workQs = s.workQs := rfl
@[simp] theorem State.setDie_msgs (s : State) (d : Nat) (x : Die) : (s.setDie d x).msgs = s.msgs := rfl
@[simp] theorem State.setDie_reqs (s : State) (d : Nat) (x : Die) : (s.setDie d x).reqs = s.reqs := rfl
@[simp] theorem State.setDie_delayed (s : State) (d : Nat) (x : Die) : (s.setDie d x).delayed = s.delayed := rfl
@[simp] theorem State.setDie_accs (s : State) (d : Nat) (x : Die) : (s.setDie d x).accs = s.accs := rfl
@[simp] theorem State.setDie_copies (s : State) (d : Nat) (x : Die) : (s.setDie d x).copies = s.copies := rfl
@[simp] theorem State.setDie_faults (s : State) (d : Nat) (x : Die) : (s.setDie d x).faults = s.faults := rfl
@[simp] theorem State.setDie_ring (s : State) (d : Nat) (x : Die) : (s.setDie d x).ring = s.ring := rfl
@[simp] theorem State.setDie_faultCount (s : State) (d : Nat) (x : Die) : (s.setDie d x).faultCount = s.faultCount := rfl
@[simp] theorem State.setDie_hg (s : State) (d : Nat) (x : Die) : (s.setDie d x).hg = s.hg := rfl
@[simp] theorem State.setDie_keys (s : State) (d : Nat) (x : Die) : (s.setDie d x).keys = s.keys := rfl
@[simp] theorem State.setDie_trace (s : State) (d : Nat) (x : Die) : (s.setDie d x).trace = s.trace := rfl
@[simp] theorem State.setDie_boot (s : State) (d : Nat) (x : Die) : (s.setDie d x).boot = s.boot := rfl
@[simp] theorem State.setDie_health (s : State) (d : Nat) (x : Die) : (s.setDie d x).health = s.health := rfl
@[simp] theorem State.setDie_irqs (s : State) (d : Nat) (x : Die) : (s.setDie d x).irqs = s.irqs := rfl
@[simp] theorem State.setDie_completions (s : State) (d : Nat) (x : Die) : (s.setDie d x).completions = s.completions := rfl
@[simp] theorem State.setDie_nextId (s : State) (d : Nat) (x : Die) : (s.setDie d x).nextId = s.nextId := rfl
@[simp] theorem State.setDie_free (s : State) (d : Nat) (x : Die) : (s.setDie d x).free = s.free := rfl
@[simp] theorem State.setDie_split (s : State) (d : Nat) (x : Die) : (s.setDie d x).split = s.split := rfl
@[simp] theorem State.setDie_agenda (s : State) (d : Nat) (x : Die) : (s.setDie d x).agenda = s.agenda := rfl
@[simp] theorem State.setDie_turn (s : State) (d : Nat) (x : Die) : (s.setDie d x).turn = s.turn := rfl
@[simp] theorem State.setDie_cur (s : State) (d : Nat) (x : Die) : (s.setDie d x).cur = s.cur := rfl

@[simp] theorem State.setCore_refclk (s : State) (c : Nat) (x : Core) : (s.setCore c x).refclk = s.refclk := rfl
@[simp] theorem State.setCore_clock16 (s : State) (c : Nat) (x : Core) : (s.setCore c x).clock16 = s.clock16 := rfl
@[simp] theorem State.setCore_store (s : State) (c : Nat) (x : Core) : (s.setCore c x).store = s.store := rfl
@[simp] theorem State.setCore_dies (s : State) (c : Nat) (x : Core) : (s.setCore c x).dies = s.dies := rfl
@[simp] theorem State.setCore_links (s : State) (c : Nat) (x : Core) : (s.setCore c x).links = s.links := rfl
@[simp] theorem State.setCore_teams (s : State) (c : Nat) (x : Core) : (s.setCore c x).teams = s.teams := rfl
@[simp] theorem State.setCore_ctxs (s : State) (c : Nat) (x : Core) : (s.setCore c x).ctxs = s.ctxs := rfl
@[simp] theorem State.setCore_live (s : State) (c : Nat) (x : Core) : (s.setCore c x).live = s.live := rfl
@[simp] theorem State.setCore_fields (s : State) (c : Nat) (x : Core) : (s.setCore c x).fields = s.fields := rfl
@[simp] theorem State.setCore_launches (s : State) (c : Nat) (x : Core) : (s.setCore c x).launches = s.launches := rfl
@[simp] theorem State.setCore_runs (s : State) (c : Nat) (x : Core) : (s.setCore c x).runs = s.runs := rfl
@[simp] theorem State.setCore_graphs (s : State) (c : Nat) (x : Core) : (s.setCore c x).graphs = s.graphs := rfl
@[simp] theorem State.setCore_workQs (s : State) (c : Nat) (x : Core) : (s.setCore c x).workQs = s.workQs := rfl
@[simp] theorem State.setCore_msgs (s : State) (c : Nat) (x : Core) : (s.setCore c x).msgs = s.msgs := rfl
@[simp] theorem State.setCore_reqs (s : State) (c : Nat) (x : Core) : (s.setCore c x).reqs = s.reqs := rfl
@[simp] theorem State.setCore_delayed (s : State) (c : Nat) (x : Core) : (s.setCore c x).delayed = s.delayed := rfl
@[simp] theorem State.setCore_accs (s : State) (c : Nat) (x : Core) : (s.setCore c x).accs = s.accs := rfl
@[simp] theorem State.setCore_copies (s : State) (c : Nat) (x : Core) : (s.setCore c x).copies = s.copies := rfl
@[simp] theorem State.setCore_faults (s : State) (c : Nat) (x : Core) : (s.setCore c x).faults = s.faults := rfl
@[simp] theorem State.setCore_ring (s : State) (c : Nat) (x : Core) : (s.setCore c x).ring = s.ring := rfl
@[simp] theorem State.setCore_faultCount (s : State) (c : Nat) (x : Core) : (s.setCore c x).faultCount = s.faultCount := rfl
@[simp] theorem State.setCore_hg (s : State) (c : Nat) (x : Core) : (s.setCore c x).hg = s.hg := rfl
@[simp] theorem State.setCore_keys (s : State) (c : Nat) (x : Core) : (s.setCore c x).keys = s.keys := rfl
@[simp] theorem State.setCore_trace (s : State) (c : Nat) (x : Core) : (s.setCore c x).trace = s.trace := rfl
@[simp] theorem State.setCore_boot (s : State) (c : Nat) (x : Core) : (s.setCore c x).boot = s.boot := rfl
@[simp] theorem State.setCore_health (s : State) (c : Nat) (x : Core) : (s.setCore c x).health = s.health := rfl
@[simp] theorem State.setCore_irqs (s : State) (c : Nat) (x : Core) : (s.setCore c x).irqs = s.irqs := rfl
@[simp] theorem State.setCore_completions (s : State) (c : Nat) (x : Core) : (s.setCore c x).completions = s.completions := rfl
@[simp] theorem State.setCore_nextId (s : State) (c : Nat) (x : Core) : (s.setCore c x).nextId = s.nextId := rfl
@[simp] theorem State.setCore_free (s : State) (c : Nat) (x : Core) : (s.setCore c x).free = s.free := rfl
@[simp] theorem State.setCore_split (s : State) (c : Nat) (x : Core) : (s.setCore c x).split = s.split := rfl
@[simp] theorem State.setCore_agenda (s : State) (c : Nat) (x : Core) : (s.setCore c x).agenda = s.agenda := rfl
@[simp] theorem State.setCore_turn (s : State) (c : Nat) (x : Core) : (s.setCore c x).turn = s.turn := rfl
@[simp] theorem State.setCore_cur (s : State) (c : Nat) (x : Core) : (s.setCore c x).cur = s.cur := rfl

@[simp] theorem State.setLink_refclk (s : State) (l : Nat) (x : Link) : (s.setLink l x).refclk = s.refclk := rfl
@[simp] theorem State.setLink_clock16 (s : State) (l : Nat) (x : Link) : (s.setLink l x).clock16 = s.clock16 := rfl
@[simp] theorem State.setLink_store (s : State) (l : Nat) (x : Link) : (s.setLink l x).store = s.store := rfl
@[simp] theorem State.setLink_dies (s : State) (l : Nat) (x : Link) : (s.setLink l x).dies = s.dies := rfl
@[simp] theorem State.setLink_cores (s : State) (l : Nat) (x : Link) : (s.setLink l x).cores = s.cores := rfl
@[simp] theorem State.setLink_teams (s : State) (l : Nat) (x : Link) : (s.setLink l x).teams = s.teams := rfl
@[simp] theorem State.setLink_ctxs (s : State) (l : Nat) (x : Link) : (s.setLink l x).ctxs = s.ctxs := rfl
@[simp] theorem State.setLink_live (s : State) (l : Nat) (x : Link) : (s.setLink l x).live = s.live := rfl
@[simp] theorem State.setLink_fields (s : State) (l : Nat) (x : Link) : (s.setLink l x).fields = s.fields := rfl
@[simp] theorem State.setLink_launches (s : State) (l : Nat) (x : Link) : (s.setLink l x).launches = s.launches := rfl
@[simp] theorem State.setLink_runs (s : State) (l : Nat) (x : Link) : (s.setLink l x).runs = s.runs := rfl
@[simp] theorem State.setLink_graphs (s : State) (l : Nat) (x : Link) : (s.setLink l x).graphs = s.graphs := rfl
@[simp] theorem State.setLink_workQs (s : State) (l : Nat) (x : Link) : (s.setLink l x).workQs = s.workQs := rfl
@[simp] theorem State.setLink_msgs (s : State) (l : Nat) (x : Link) : (s.setLink l x).msgs = s.msgs := rfl
@[simp] theorem State.setLink_reqs (s : State) (l : Nat) (x : Link) : (s.setLink l x).reqs = s.reqs := rfl
@[simp] theorem State.setLink_delayed (s : State) (l : Nat) (x : Link) : (s.setLink l x).delayed = s.delayed := rfl
@[simp] theorem State.setLink_accs (s : State) (l : Nat) (x : Link) : (s.setLink l x).accs = s.accs := rfl
@[simp] theorem State.setLink_copies (s : State) (l : Nat) (x : Link) : (s.setLink l x).copies = s.copies := rfl
@[simp] theorem State.setLink_faults (s : State) (l : Nat) (x : Link) : (s.setLink l x).faults = s.faults := rfl
@[simp] theorem State.setLink_ring (s : State) (l : Nat) (x : Link) : (s.setLink l x).ring = s.ring := rfl
@[simp] theorem State.setLink_faultCount (s : State) (l : Nat) (x : Link) : (s.setLink l x).faultCount = s.faultCount := rfl
@[simp] theorem State.setLink_hg (s : State) (l : Nat) (x : Link) : (s.setLink l x).hg = s.hg := rfl
@[simp] theorem State.setLink_keys (s : State) (l : Nat) (x : Link) : (s.setLink l x).keys = s.keys := rfl
@[simp] theorem State.setLink_trace (s : State) (l : Nat) (x : Link) : (s.setLink l x).trace = s.trace := rfl
@[simp] theorem State.setLink_boot (s : State) (l : Nat) (x : Link) : (s.setLink l x).boot = s.boot := rfl
@[simp] theorem State.setLink_health (s : State) (l : Nat) (x : Link) : (s.setLink l x).health = s.health := rfl
@[simp] theorem State.setLink_irqs (s : State) (l : Nat) (x : Link) : (s.setLink l x).irqs = s.irqs := rfl
@[simp] theorem State.setLink_completions (s : State) (l : Nat) (x : Link) : (s.setLink l x).completions = s.completions := rfl
@[simp] theorem State.setLink_nextId (s : State) (l : Nat) (x : Link) : (s.setLink l x).nextId = s.nextId := rfl
@[simp] theorem State.setLink_free (s : State) (l : Nat) (x : Link) : (s.setLink l x).free = s.free := rfl
@[simp] theorem State.setLink_split (s : State) (l : Nat) (x : Link) : (s.setLink l x).split = s.split := rfl
@[simp] theorem State.setLink_agenda (s : State) (l : Nat) (x : Link) : (s.setLink l x).agenda = s.agenda := rfl
@[simp] theorem State.setLink_turn (s : State) (l : Nat) (x : Link) : (s.setLink l x).turn = s.turn := rfl
@[simp] theorem State.setLink_cur (s : State) (l : Nat) (x : Link) : (s.setLink l x).cur = s.cur := rfl

@[simp] theorem State.setSlice_refclk (s : State) (c k : Nat) (x : Slice) : (s.setSlice c k x).refclk = s.refclk := rfl
@[simp] theorem State.setSlice_clock16 (s : State) (c k : Nat) (x : Slice) : (s.setSlice c k x).clock16 = s.clock16 := rfl
@[simp] theorem State.setSlice_store (s : State) (c k : Nat) (x : Slice) : (s.setSlice c k x).store = s.store := rfl
@[simp] theorem State.setSlice_dies (s : State) (c k : Nat) (x : Slice) : (s.setSlice c k x).dies = s.dies := rfl
@[simp] theorem State.setSlice_links (s : State) (c k : Nat) (x : Slice) : (s.setSlice c k x).links = s.links := rfl
@[simp] theorem State.setSlice_teams (s : State) (c k : Nat) (x : Slice) : (s.setSlice c k x).teams = s.teams := rfl
@[simp] theorem State.setSlice_ctxs (s : State) (c k : Nat) (x : Slice) : (s.setSlice c k x).ctxs = s.ctxs := rfl
@[simp] theorem State.setSlice_live (s : State) (c k : Nat) (x : Slice) : (s.setSlice c k x).live = s.live := rfl
@[simp] theorem State.setSlice_fields (s : State) (c k : Nat) (x : Slice) : (s.setSlice c k x).fields = s.fields := rfl
@[simp] theorem State.setSlice_launches (s : State) (c k : Nat) (x : Slice) : (s.setSlice c k x).launches = s.launches := rfl
@[simp] theorem State.setSlice_runs (s : State) (c k : Nat) (x : Slice) : (s.setSlice c k x).runs = s.runs := rfl
@[simp] theorem State.setSlice_graphs (s : State) (c k : Nat) (x : Slice) : (s.setSlice c k x).graphs = s.graphs := rfl
@[simp] theorem State.setSlice_workQs (s : State) (c k : Nat) (x : Slice) : (s.setSlice c k x).workQs = s.workQs := rfl
@[simp] theorem State.setSlice_msgs (s : State) (c k : Nat) (x : Slice) : (s.setSlice c k x).msgs = s.msgs := rfl
@[simp] theorem State.setSlice_reqs (s : State) (c k : Nat) (x : Slice) : (s.setSlice c k x).reqs = s.reqs := rfl
@[simp] theorem State.setSlice_delayed (s : State) (c k : Nat) (x : Slice) : (s.setSlice c k x).delayed = s.delayed := rfl
@[simp] theorem State.setSlice_accs (s : State) (c k : Nat) (x : Slice) : (s.setSlice c k x).accs = s.accs := rfl
@[simp] theorem State.setSlice_copies (s : State) (c k : Nat) (x : Slice) : (s.setSlice c k x).copies = s.copies := rfl
@[simp] theorem State.setSlice_faults (s : State) (c k : Nat) (x : Slice) : (s.setSlice c k x).faults = s.faults := rfl
@[simp] theorem State.setSlice_ring (s : State) (c k : Nat) (x : Slice) : (s.setSlice c k x).ring = s.ring := rfl
@[simp] theorem State.setSlice_faultCount (s : State) (c k : Nat) (x : Slice) : (s.setSlice c k x).faultCount = s.faultCount := rfl
@[simp] theorem State.setSlice_hg (s : State) (c k : Nat) (x : Slice) : (s.setSlice c k x).hg = s.hg := rfl
@[simp] theorem State.setSlice_keys (s : State) (c k : Nat) (x : Slice) : (s.setSlice c k x).keys = s.keys := rfl
@[simp] theorem State.setSlice_trace (s : State) (c k : Nat) (x : Slice) : (s.setSlice c k x).trace = s.trace := rfl
@[simp] theorem State.setSlice_boot (s : State) (c k : Nat) (x : Slice) : (s.setSlice c k x).boot = s.boot := rfl
@[simp] theorem State.setSlice_health (s : State) (c k : Nat) (x : Slice) : (s.setSlice c k x).health = s.health := rfl
@[simp] theorem State.setSlice_irqs (s : State) (c k : Nat) (x : Slice) : (s.setSlice c k x).irqs = s.irqs := rfl
@[simp] theorem State.setSlice_completions (s : State) (c k : Nat) (x : Slice) : (s.setSlice c k x).completions = s.completions := rfl
@[simp] theorem State.setSlice_nextId (s : State) (c k : Nat) (x : Slice) : (s.setSlice c k x).nextId = s.nextId := rfl
@[simp] theorem State.setSlice_free (s : State) (c k : Nat) (x : Slice) : (s.setSlice c k x).free = s.free := rfl
@[simp] theorem State.setSlice_split (s : State) (c k : Nat) (x : Slice) : (s.setSlice c k x).split = s.split := rfl
@[simp] theorem State.setSlice_agenda (s : State) (c k : Nat) (x : Slice) : (s.setSlice c k x).agenda = s.agenda := rfl
@[simp] theorem State.setSlice_turn (s : State) (c k : Nat) (x : Slice) : (s.setSlice c k x).turn = s.turn := rfl
@[simp] theorem State.setSlice_cur (s : State) (c k : Nat) (x : Slice) : (s.setSlice c k x).cur = s.cur := rfl

@[simp] theorem State.setTeam_refclk (s : State) (t : Nat) (x : Team) : (s.setTeam t x).refclk = s.refclk := rfl
@[simp] theorem State.setTeam_clock16 (s : State) (t : Nat) (x : Team) : (s.setTeam t x).clock16 = s.clock16 := rfl
@[simp] theorem State.setTeam_store (s : State) (t : Nat) (x : Team) : (s.setTeam t x).store = s.store := rfl
@[simp] theorem State.setTeam_dies (s : State) (t : Nat) (x : Team) : (s.setTeam t x).dies = s.dies := rfl
@[simp] theorem State.setTeam_links (s : State) (t : Nat) (x : Team) : (s.setTeam t x).links = s.links := rfl
@[simp] theorem State.setTeam_cores (s : State) (t : Nat) (x : Team) : (s.setTeam t x).cores = s.cores := rfl
@[simp] theorem State.setTeam_ctxs (s : State) (t : Nat) (x : Team) : (s.setTeam t x).ctxs = s.ctxs := rfl
@[simp] theorem State.setTeam_live (s : State) (t : Nat) (x : Team) : (s.setTeam t x).live = s.live := rfl
@[simp] theorem State.setTeam_fields (s : State) (t : Nat) (x : Team) : (s.setTeam t x).fields = s.fields := rfl
@[simp] theorem State.setTeam_launches (s : State) (t : Nat) (x : Team) : (s.setTeam t x).launches = s.launches := rfl
@[simp] theorem State.setTeam_runs (s : State) (t : Nat) (x : Team) : (s.setTeam t x).runs = s.runs := rfl
@[simp] theorem State.setTeam_graphs (s : State) (t : Nat) (x : Team) : (s.setTeam t x).graphs = s.graphs := rfl
@[simp] theorem State.setTeam_workQs (s : State) (t : Nat) (x : Team) : (s.setTeam t x).workQs = s.workQs := rfl
@[simp] theorem State.setTeam_msgs (s : State) (t : Nat) (x : Team) : (s.setTeam t x).msgs = s.msgs := rfl
@[simp] theorem State.setTeam_reqs (s : State) (t : Nat) (x : Team) : (s.setTeam t x).reqs = s.reqs := rfl
@[simp] theorem State.setTeam_delayed (s : State) (t : Nat) (x : Team) : (s.setTeam t x).delayed = s.delayed := rfl
@[simp] theorem State.setTeam_accs (s : State) (t : Nat) (x : Team) : (s.setTeam t x).accs = s.accs := rfl
@[simp] theorem State.setTeam_copies (s : State) (t : Nat) (x : Team) : (s.setTeam t x).copies = s.copies := rfl
@[simp] theorem State.setTeam_faults (s : State) (t : Nat) (x : Team) : (s.setTeam t x).faults = s.faults := rfl
@[simp] theorem State.setTeam_ring (s : State) (t : Nat) (x : Team) : (s.setTeam t x).ring = s.ring := rfl
@[simp] theorem State.setTeam_faultCount (s : State) (t : Nat) (x : Team) : (s.setTeam t x).faultCount = s.faultCount := rfl
@[simp] theorem State.setTeam_hg (s : State) (t : Nat) (x : Team) : (s.setTeam t x).hg = s.hg := rfl
@[simp] theorem State.setTeam_keys (s : State) (t : Nat) (x : Team) : (s.setTeam t x).keys = s.keys := rfl
@[simp] theorem State.setTeam_trace (s : State) (t : Nat) (x : Team) : (s.setTeam t x).trace = s.trace := rfl
@[simp] theorem State.setTeam_boot (s : State) (t : Nat) (x : Team) : (s.setTeam t x).boot = s.boot := rfl
@[simp] theorem State.setTeam_health (s : State) (t : Nat) (x : Team) : (s.setTeam t x).health = s.health := rfl
@[simp] theorem State.setTeam_irqs (s : State) (t : Nat) (x : Team) : (s.setTeam t x).irqs = s.irqs := rfl
@[simp] theorem State.setTeam_completions (s : State) (t : Nat) (x : Team) : (s.setTeam t x).completions = s.completions := rfl
@[simp] theorem State.setTeam_nextId (s : State) (t : Nat) (x : Team) : (s.setTeam t x).nextId = s.nextId := rfl
@[simp] theorem State.setTeam_free (s : State) (t : Nat) (x : Team) : (s.setTeam t x).free = s.free := rfl
@[simp] theorem State.setTeam_split (s : State) (t : Nat) (x : Team) : (s.setTeam t x).split = s.split := rfl
@[simp] theorem State.setTeam_agenda (s : State) (t : Nat) (x : Team) : (s.setTeam t x).agenda = s.agenda := rfl
@[simp] theorem State.setTeam_turn (s : State) (t : Nat) (x : Team) : (s.setTeam t x).turn = s.turn := rfl
@[simp] theorem State.setTeam_cur (s : State) (t : Nat) (x : Team) : (s.setTeam t x).cur = s.cur := rfl

@[simp] theorem updTeam_refclk (s : State) (t : Nat) (f : Team → Team) : (updTeam s t f).refclk = s.refclk := rfl
@[simp] theorem updTeam_clock16 (s : State) (t : Nat) (f : Team → Team) : (updTeam s t f).clock16 = s.clock16 := rfl
@[simp] theorem updTeam_store (s : State) (t : Nat) (f : Team → Team) : (updTeam s t f).store = s.store := rfl
@[simp] theorem updTeam_dies (s : State) (t : Nat) (f : Team → Team) : (updTeam s t f).dies = s.dies := rfl
@[simp] theorem updTeam_links (s : State) (t : Nat) (f : Team → Team) : (updTeam s t f).links = s.links := rfl
@[simp] theorem updTeam_cores (s : State) (t : Nat) (f : Team → Team) : (updTeam s t f).cores = s.cores := rfl
@[simp] theorem updTeam_ctxs (s : State) (t : Nat) (f : Team → Team) : (updTeam s t f).ctxs = s.ctxs := rfl
@[simp] theorem updTeam_live (s : State) (t : Nat) (f : Team → Team) : (updTeam s t f).live = s.live := rfl
@[simp] theorem updTeam_fields (s : State) (t : Nat) (f : Team → Team) : (updTeam s t f).fields = s.fields := rfl
@[simp] theorem updTeam_launches (s : State) (t : Nat) (f : Team → Team) : (updTeam s t f).launches = s.launches := rfl
@[simp] theorem updTeam_runs (s : State) (t : Nat) (f : Team → Team) : (updTeam s t f).runs = s.runs := rfl
@[simp] theorem updTeam_graphs (s : State) (t : Nat) (f : Team → Team) : (updTeam s t f).graphs = s.graphs := rfl
@[simp] theorem updTeam_workQs (s : State) (t : Nat) (f : Team → Team) : (updTeam s t f).workQs = s.workQs := rfl
@[simp] theorem updTeam_msgs (s : State) (t : Nat) (f : Team → Team) : (updTeam s t f).msgs = s.msgs := rfl
@[simp] theorem updTeam_reqs (s : State) (t : Nat) (f : Team → Team) : (updTeam s t f).reqs = s.reqs := rfl
@[simp] theorem updTeam_delayed (s : State) (t : Nat) (f : Team → Team) : (updTeam s t f).delayed = s.delayed := rfl
@[simp] theorem updTeam_accs (s : State) (t : Nat) (f : Team → Team) : (updTeam s t f).accs = s.accs := rfl
@[simp] theorem updTeam_copies (s : State) (t : Nat) (f : Team → Team) : (updTeam s t f).copies = s.copies := rfl
@[simp] theorem updTeam_faults (s : State) (t : Nat) (f : Team → Team) : (updTeam s t f).faults = s.faults := rfl
@[simp] theorem updTeam_ring (s : State) (t : Nat) (f : Team → Team) : (updTeam s t f).ring = s.ring := rfl
@[simp] theorem updTeam_faultCount (s : State) (t : Nat) (f : Team → Team) : (updTeam s t f).faultCount = s.faultCount := rfl
@[simp] theorem updTeam_hg (s : State) (t : Nat) (f : Team → Team) : (updTeam s t f).hg = s.hg := rfl
@[simp] theorem updTeam_keys (s : State) (t : Nat) (f : Team → Team) : (updTeam s t f).keys = s.keys := rfl
@[simp] theorem updTeam_trace (s : State) (t : Nat) (f : Team → Team) : (updTeam s t f).trace = s.trace := rfl
@[simp] theorem updTeam_boot (s : State) (t : Nat) (f : Team → Team) : (updTeam s t f).boot = s.boot := rfl
@[simp] theorem updTeam_health (s : State) (t : Nat) (f : Team → Team) : (updTeam s t f).health = s.health := rfl
@[simp] theorem updTeam_irqs (s : State) (t : Nat) (f : Team → Team) : (updTeam s t f).irqs = s.irqs := rfl
@[simp] theorem updTeam_completions (s : State) (t : Nat) (f : Team → Team) : (updTeam s t f).completions = s.completions := rfl
@[simp] theorem updTeam_nextId (s : State) (t : Nat) (f : Team → Team) : (updTeam s t f).nextId = s.nextId := rfl
@[simp] theorem updTeam_free (s : State) (t : Nat) (f : Team → Team) : (updTeam s t f).free = s.free := rfl
@[simp] theorem updTeam_split (s : State) (t : Nat) (f : Team → Team) : (updTeam s t f).split = s.split := rfl
@[simp] theorem updTeam_agenda (s : State) (t : Nat) (f : Team → Team) : (updTeam s t f).agenda = s.agenda := rfl
@[simp] theorem updTeam_turn (s : State) (t : Nat) (f : Team → Team) : (updTeam s t f).turn = s.turn := rfl
@[simp] theorem updTeam_cur (s : State) (t : Nat) (f : Team → Team) : (updTeam s t f).cur = s.cur := rfl

@[simp] theorem updGroup_refclk (s : State) (t g : Nat) (f : Group → Group) : (updGroup s t g f).refclk = s.refclk := rfl
@[simp] theorem updGroup_clock16 (s : State) (t g : Nat) (f : Group → Group) : (updGroup s t g f).clock16 = s.clock16 := rfl
@[simp] theorem updGroup_store (s : State) (t g : Nat) (f : Group → Group) : (updGroup s t g f).store = s.store := rfl
@[simp] theorem updGroup_dies (s : State) (t g : Nat) (f : Group → Group) : (updGroup s t g f).dies = s.dies := rfl
@[simp] theorem updGroup_links (s : State) (t g : Nat) (f : Group → Group) : (updGroup s t g f).links = s.links := rfl
@[simp] theorem updGroup_cores (s : State) (t g : Nat) (f : Group → Group) : (updGroup s t g f).cores = s.cores := rfl
@[simp] theorem updGroup_ctxs (s : State) (t g : Nat) (f : Group → Group) : (updGroup s t g f).ctxs = s.ctxs := rfl
@[simp] theorem updGroup_live (s : State) (t g : Nat) (f : Group → Group) : (updGroup s t g f).live = s.live := rfl
@[simp] theorem updGroup_fields (s : State) (t g : Nat) (f : Group → Group) : (updGroup s t g f).fields = s.fields := rfl
@[simp] theorem updGroup_launches (s : State) (t g : Nat) (f : Group → Group) : (updGroup s t g f).launches = s.launches := rfl
@[simp] theorem updGroup_runs (s : State) (t g : Nat) (f : Group → Group) : (updGroup s t g f).runs = s.runs := rfl
@[simp] theorem updGroup_graphs (s : State) (t g : Nat) (f : Group → Group) : (updGroup s t g f).graphs = s.graphs := rfl
@[simp] theorem updGroup_workQs (s : State) (t g : Nat) (f : Group → Group) : (updGroup s t g f).workQs = s.workQs := rfl
@[simp] theorem updGroup_msgs (s : State) (t g : Nat) (f : Group → Group) : (updGroup s t g f).msgs = s.msgs := rfl
@[simp] theorem updGroup_reqs (s : State) (t g : Nat) (f : Group → Group) : (updGroup s t g f).reqs = s.reqs := rfl
@[simp] theorem updGroup_delayed (s : State) (t g : Nat) (f : Group → Group) : (updGroup s t g f).delayed = s.delayed := rfl
@[simp] theorem updGroup_accs (s : State) (t g : Nat) (f : Group → Group) : (updGroup s t g f).accs = s.accs := rfl
@[simp] theorem updGroup_copies (s : State) (t g : Nat) (f : Group → Group) : (updGroup s t g f).copies = s.copies := rfl
@[simp] theorem updGroup_faults (s : State) (t g : Nat) (f : Group → Group) : (updGroup s t g f).faults = s.faults := rfl
@[simp] theorem updGroup_ring (s : State) (t g : Nat) (f : Group → Group) : (updGroup s t g f).ring = s.ring := rfl
@[simp] theorem updGroup_faultCount (s : State) (t g : Nat) (f : Group → Group) : (updGroup s t g f).faultCount = s.faultCount := rfl
@[simp] theorem updGroup_hg (s : State) (t g : Nat) (f : Group → Group) : (updGroup s t g f).hg = s.hg := rfl
@[simp] theorem updGroup_keys (s : State) (t g : Nat) (f : Group → Group) : (updGroup s t g f).keys = s.keys := rfl
@[simp] theorem updGroup_trace (s : State) (t g : Nat) (f : Group → Group) : (updGroup s t g f).trace = s.trace := rfl
@[simp] theorem updGroup_boot (s : State) (t g : Nat) (f : Group → Group) : (updGroup s t g f).boot = s.boot := rfl
@[simp] theorem updGroup_health (s : State) (t g : Nat) (f : Group → Group) : (updGroup s t g f).health = s.health := rfl
@[simp] theorem updGroup_irqs (s : State) (t g : Nat) (f : Group → Group) : (updGroup s t g f).irqs = s.irqs := rfl
@[simp] theorem updGroup_completions (s : State) (t g : Nat) (f : Group → Group) : (updGroup s t g f).completions = s.completions := rfl
@[simp] theorem updGroup_nextId (s : State) (t g : Nat) (f : Group → Group) : (updGroup s t g f).nextId = s.nextId := rfl
@[simp] theorem updGroup_free (s : State) (t g : Nat) (f : Group → Group) : (updGroup s t g f).free = s.free := rfl
@[simp] theorem updGroup_split (s : State) (t g : Nat) (f : Group → Group) : (updGroup s t g f).split = s.split := rfl
@[simp] theorem updGroup_agenda (s : State) (t g : Nat) (f : Group → Group) : (updGroup s t g f).agenda = s.agenda := rfl
@[simp] theorem updGroup_turn (s : State) (t g : Nat) (f : Group → Group) : (updGroup s t g f).turn = s.turn := rfl
@[simp] theorem updGroup_cur (s : State) (t g : Nat) (f : Group → Group) : (updGroup s t g f).cur = s.cur := rfl

@[simp] theorem updPath_refclk (s : State) (t g p : Nat) (f : Path → Path) : (updPath s t g p f).refclk = s.refclk := rfl
@[simp] theorem updPath_clock16 (s : State) (t g p : Nat) (f : Path → Path) : (updPath s t g p f).clock16 = s.clock16 := rfl
@[simp] theorem updPath_store (s : State) (t g p : Nat) (f : Path → Path) : (updPath s t g p f).store = s.store := rfl
@[simp] theorem updPath_dies (s : State) (t g p : Nat) (f : Path → Path) : (updPath s t g p f).dies = s.dies := rfl
@[simp] theorem updPath_links (s : State) (t g p : Nat) (f : Path → Path) : (updPath s t g p f).links = s.links := rfl
@[simp] theorem updPath_cores (s : State) (t g p : Nat) (f : Path → Path) : (updPath s t g p f).cores = s.cores := rfl
@[simp] theorem updPath_ctxs (s : State) (t g p : Nat) (f : Path → Path) : (updPath s t g p f).ctxs = s.ctxs := rfl
@[simp] theorem updPath_live (s : State) (t g p : Nat) (f : Path → Path) : (updPath s t g p f).live = s.live := rfl
@[simp] theorem updPath_fields (s : State) (t g p : Nat) (f : Path → Path) : (updPath s t g p f).fields = s.fields := rfl
@[simp] theorem updPath_launches (s : State) (t g p : Nat) (f : Path → Path) : (updPath s t g p f).launches = s.launches := rfl
@[simp] theorem updPath_runs (s : State) (t g p : Nat) (f : Path → Path) : (updPath s t g p f).runs = s.runs := rfl
@[simp] theorem updPath_graphs (s : State) (t g p : Nat) (f : Path → Path) : (updPath s t g p f).graphs = s.graphs := rfl
@[simp] theorem updPath_workQs (s : State) (t g p : Nat) (f : Path → Path) : (updPath s t g p f).workQs = s.workQs := rfl
@[simp] theorem updPath_msgs (s : State) (t g p : Nat) (f : Path → Path) : (updPath s t g p f).msgs = s.msgs := rfl
@[simp] theorem updPath_reqs (s : State) (t g p : Nat) (f : Path → Path) : (updPath s t g p f).reqs = s.reqs := rfl
@[simp] theorem updPath_delayed (s : State) (t g p : Nat) (f : Path → Path) : (updPath s t g p f).delayed = s.delayed := rfl
@[simp] theorem updPath_accs (s : State) (t g p : Nat) (f : Path → Path) : (updPath s t g p f).accs = s.accs := rfl
@[simp] theorem updPath_copies (s : State) (t g p : Nat) (f : Path → Path) : (updPath s t g p f).copies = s.copies := rfl
@[simp] theorem updPath_faults (s : State) (t g p : Nat) (f : Path → Path) : (updPath s t g p f).faults = s.faults := rfl
@[simp] theorem updPath_ring (s : State) (t g p : Nat) (f : Path → Path) : (updPath s t g p f).ring = s.ring := rfl
@[simp] theorem updPath_faultCount (s : State) (t g p : Nat) (f : Path → Path) : (updPath s t g p f).faultCount = s.faultCount := rfl
@[simp] theorem updPath_hg (s : State) (t g p : Nat) (f : Path → Path) : (updPath s t g p f).hg = s.hg := rfl
@[simp] theorem updPath_keys (s : State) (t g p : Nat) (f : Path → Path) : (updPath s t g p f).keys = s.keys := rfl
@[simp] theorem updPath_trace (s : State) (t g p : Nat) (f : Path → Path) : (updPath s t g p f).trace = s.trace := rfl
@[simp] theorem updPath_boot (s : State) (t g p : Nat) (f : Path → Path) : (updPath s t g p f).boot = s.boot := rfl
@[simp] theorem updPath_health (s : State) (t g p : Nat) (f : Path → Path) : (updPath s t g p f).health = s.health := rfl
@[simp] theorem updPath_irqs (s : State) (t g p : Nat) (f : Path → Path) : (updPath s t g p f).irqs = s.irqs := rfl
@[simp] theorem updPath_completions (s : State) (t g p : Nat) (f : Path → Path) : (updPath s t g p f).completions = s.completions := rfl
@[simp] theorem updPath_nextId (s : State) (t g p : Nat) (f : Path → Path) : (updPath s t g p f).nextId = s.nextId := rfl
@[simp] theorem updPath_free (s : State) (t g p : Nat) (f : Path → Path) : (updPath s t g p f).free = s.free := rfl
@[simp] theorem updPath_split (s : State) (t g p : Nat) (f : Path → Path) : (updPath s t g p f).split = s.split := rfl
@[simp] theorem updPath_agenda (s : State) (t g p : Nat) (f : Path → Path) : (updPath s t g p f).agenda = s.agenda := rfl
@[simp] theorem updPath_turn (s : State) (t g p : Nat) (f : Path → Path) : (updPath s t g p f).turn = s.turn := rfl
@[simp] theorem updPath_cur (s : State) (t g p : Nat) (f : Path → Path) : (updPath s t g p f).cur = s.cur := rfl

@[simp] theorem updSeq_refclk (s : State) (t : Nat) (b : Bool) (f : Seq → Seq) : (updSeq s t b f).refclk = s.refclk := rfl
@[simp] theorem updSeq_clock16 (s : State) (t : Nat) (b : Bool) (f : Seq → Seq) : (updSeq s t b f).clock16 = s.clock16 := rfl
@[simp] theorem updSeq_store (s : State) (t : Nat) (b : Bool) (f : Seq → Seq) : (updSeq s t b f).store = s.store := rfl
@[simp] theorem updSeq_dies (s : State) (t : Nat) (b : Bool) (f : Seq → Seq) : (updSeq s t b f).dies = s.dies := rfl
@[simp] theorem updSeq_links (s : State) (t : Nat) (b : Bool) (f : Seq → Seq) : (updSeq s t b f).links = s.links := rfl
@[simp] theorem updSeq_cores (s : State) (t : Nat) (b : Bool) (f : Seq → Seq) : (updSeq s t b f).cores = s.cores := rfl
@[simp] theorem updSeq_ctxs (s : State) (t : Nat) (b : Bool) (f : Seq → Seq) : (updSeq s t b f).ctxs = s.ctxs := rfl
@[simp] theorem updSeq_live (s : State) (t : Nat) (b : Bool) (f : Seq → Seq) : (updSeq s t b f).live = s.live := rfl
@[simp] theorem updSeq_fields (s : State) (t : Nat) (b : Bool) (f : Seq → Seq) : (updSeq s t b f).fields = s.fields := rfl
@[simp] theorem updSeq_launches (s : State) (t : Nat) (b : Bool) (f : Seq → Seq) : (updSeq s t b f).launches = s.launches := rfl
@[simp] theorem updSeq_runs (s : State) (t : Nat) (b : Bool) (f : Seq → Seq) : (updSeq s t b f).runs = s.runs := rfl
@[simp] theorem updSeq_graphs (s : State) (t : Nat) (b : Bool) (f : Seq → Seq) : (updSeq s t b f).graphs = s.graphs := rfl
@[simp] theorem updSeq_workQs (s : State) (t : Nat) (b : Bool) (f : Seq → Seq) : (updSeq s t b f).workQs = s.workQs := rfl
@[simp] theorem updSeq_msgs (s : State) (t : Nat) (b : Bool) (f : Seq → Seq) : (updSeq s t b f).msgs = s.msgs := rfl
@[simp] theorem updSeq_reqs (s : State) (t : Nat) (b : Bool) (f : Seq → Seq) : (updSeq s t b f).reqs = s.reqs := rfl
@[simp] theorem updSeq_delayed (s : State) (t : Nat) (b : Bool) (f : Seq → Seq) : (updSeq s t b f).delayed = s.delayed := rfl
@[simp] theorem updSeq_accs (s : State) (t : Nat) (b : Bool) (f : Seq → Seq) : (updSeq s t b f).accs = s.accs := rfl
@[simp] theorem updSeq_copies (s : State) (t : Nat) (b : Bool) (f : Seq → Seq) : (updSeq s t b f).copies = s.copies := rfl
@[simp] theorem updSeq_faults (s : State) (t : Nat) (b : Bool) (f : Seq → Seq) : (updSeq s t b f).faults = s.faults := rfl
@[simp] theorem updSeq_ring (s : State) (t : Nat) (b : Bool) (f : Seq → Seq) : (updSeq s t b f).ring = s.ring := rfl
@[simp] theorem updSeq_faultCount (s : State) (t : Nat) (b : Bool) (f : Seq → Seq) : (updSeq s t b f).faultCount = s.faultCount := rfl
@[simp] theorem updSeq_hg (s : State) (t : Nat) (b : Bool) (f : Seq → Seq) : (updSeq s t b f).hg = s.hg := rfl
@[simp] theorem updSeq_keys (s : State) (t : Nat) (b : Bool) (f : Seq → Seq) : (updSeq s t b f).keys = s.keys := rfl
@[simp] theorem updSeq_trace (s : State) (t : Nat) (b : Bool) (f : Seq → Seq) : (updSeq s t b f).trace = s.trace := rfl
@[simp] theorem updSeq_boot (s : State) (t : Nat) (b : Bool) (f : Seq → Seq) : (updSeq s t b f).boot = s.boot := rfl
@[simp] theorem updSeq_health (s : State) (t : Nat) (b : Bool) (f : Seq → Seq) : (updSeq s t b f).health = s.health := rfl
@[simp] theorem updSeq_irqs (s : State) (t : Nat) (b : Bool) (f : Seq → Seq) : (updSeq s t b f).irqs = s.irqs := rfl
@[simp] theorem updSeq_completions (s : State) (t : Nat) (b : Bool) (f : Seq → Seq) : (updSeq s t b f).completions = s.completions := rfl
@[simp] theorem updSeq_nextId (s : State) (t : Nat) (b : Bool) (f : Seq → Seq) : (updSeq s t b f).nextId = s.nextId := rfl
@[simp] theorem updSeq_free (s : State) (t : Nat) (b : Bool) (f : Seq → Seq) : (updSeq s t b f).free = s.free := rfl
@[simp] theorem updSeq_split (s : State) (t : Nat) (b : Bool) (f : Seq → Seq) : (updSeq s t b f).split = s.split := rfl
@[simp] theorem updSeq_agenda (s : State) (t : Nat) (b : Bool) (f : Seq → Seq) : (updSeq s t b f).agenda = s.agenda := rfl
@[simp] theorem updSeq_turn (s : State) (t : Nat) (b : Bool) (f : Seq → Seq) : (updSeq s t b f).turn = s.turn := rfl
@[simp] theorem updSeq_cur (s : State) (t : Nat) (b : Bool) (f : Seq → Seq) : (updSeq s t b f).cur = s.cur := rfl

@[simp] theorem State.fresh_refclk (s : State) : (s.fresh.2).refclk = s.refclk := rfl
@[simp] theorem State.fresh_clock16 (s : State) : (s.fresh.2).clock16 = s.clock16 := rfl
@[simp] theorem State.fresh_store (s : State) : (s.fresh.2).store = s.store := rfl
@[simp] theorem State.fresh_dies (s : State) : (s.fresh.2).dies = s.dies := rfl
@[simp] theorem State.fresh_links (s : State) : (s.fresh.2).links = s.links := rfl
@[simp] theorem State.fresh_cores (s : State) : (s.fresh.2).cores = s.cores := rfl
@[simp] theorem State.fresh_teams (s : State) : (s.fresh.2).teams = s.teams := rfl
@[simp] theorem State.fresh_ctxs (s : State) : (s.fresh.2).ctxs = s.ctxs := rfl
@[simp] theorem State.fresh_live (s : State) : (s.fresh.2).live = s.live := rfl
@[simp] theorem State.fresh_fields (s : State) : (s.fresh.2).fields = s.fields := rfl
@[simp] theorem State.fresh_launches (s : State) : (s.fresh.2).launches = s.launches := rfl
@[simp] theorem State.fresh_runs (s : State) : (s.fresh.2).runs = s.runs := rfl
@[simp] theorem State.fresh_graphs (s : State) : (s.fresh.2).graphs = s.graphs := rfl
@[simp] theorem State.fresh_workQs (s : State) : (s.fresh.2).workQs = s.workQs := rfl
@[simp] theorem State.fresh_msgs (s : State) : (s.fresh.2).msgs = s.msgs := rfl
@[simp] theorem State.fresh_reqs (s : State) : (s.fresh.2).reqs = s.reqs := rfl
@[simp] theorem State.fresh_delayed (s : State) : (s.fresh.2).delayed = s.delayed := rfl
@[simp] theorem State.fresh_accs (s : State) : (s.fresh.2).accs = s.accs := rfl
@[simp] theorem State.fresh_copies (s : State) : (s.fresh.2).copies = s.copies := rfl
@[simp] theorem State.fresh_faults (s : State) : (s.fresh.2).faults = s.faults := rfl
@[simp] theorem State.fresh_ring (s : State) : (s.fresh.2).ring = s.ring := rfl
@[simp] theorem State.fresh_faultCount (s : State) : (s.fresh.2).faultCount = s.faultCount := rfl
@[simp] theorem State.fresh_hg (s : State) : (s.fresh.2).hg = s.hg := rfl
@[simp] theorem State.fresh_keys (s : State) : (s.fresh.2).keys = s.keys := rfl
@[simp] theorem State.fresh_trace (s : State) : (s.fresh.2).trace = s.trace := rfl
@[simp] theorem State.fresh_boot (s : State) : (s.fresh.2).boot = s.boot := rfl
@[simp] theorem State.fresh_health (s : State) : (s.fresh.2).health = s.health := rfl
@[simp] theorem State.fresh_irqs (s : State) : (s.fresh.2).irqs = s.irqs := rfl
@[simp] theorem State.fresh_completions (s : State) : (s.fresh.2).completions = s.completions := rfl
@[simp] theorem State.fresh_free (s : State) : (s.fresh.2).free = s.free := rfl
@[simp] theorem State.fresh_split (s : State) : (s.fresh.2).split = s.split := rfl
@[simp] theorem State.fresh_agenda (s : State) : (s.fresh.2).agenda = s.agenda := rfl
@[simp] theorem State.fresh_turn (s : State) : (s.fresh.2).turn = s.turn := rfl
@[simp] theorem State.fresh_cur (s : State) : (s.fresh.2).cur = s.cur := rfl

@[simp] theorem State.draw_refclk (s : State) : (s.draw.2).refclk = s.refclk := rfl
@[simp] theorem State.draw_clock16 (s : State) : (s.draw.2).clock16 = s.clock16 := rfl
@[simp] theorem State.draw_store (s : State) : (s.draw.2).store = s.store := rfl
@[simp] theorem State.draw_dies (s : State) : (s.draw.2).dies = s.dies := rfl
@[simp] theorem State.draw_links (s : State) : (s.draw.2).links = s.links := rfl
@[simp] theorem State.draw_cores (s : State) : (s.draw.2).cores = s.cores := rfl
@[simp] theorem State.draw_teams (s : State) : (s.draw.2).teams = s.teams := rfl
@[simp] theorem State.draw_ctxs (s : State) : (s.draw.2).ctxs = s.ctxs := rfl
@[simp] theorem State.draw_live (s : State) : (s.draw.2).live = s.live := rfl
@[simp] theorem State.draw_fields (s : State) : (s.draw.2).fields = s.fields := rfl
@[simp] theorem State.draw_launches (s : State) : (s.draw.2).launches = s.launches := rfl
@[simp] theorem State.draw_runs (s : State) : (s.draw.2).runs = s.runs := rfl
@[simp] theorem State.draw_graphs (s : State) : (s.draw.2).graphs = s.graphs := rfl
@[simp] theorem State.draw_workQs (s : State) : (s.draw.2).workQs = s.workQs := rfl
@[simp] theorem State.draw_msgs (s : State) : (s.draw.2).msgs = s.msgs := rfl
@[simp] theorem State.draw_reqs (s : State) : (s.draw.2).reqs = s.reqs := rfl
@[simp] theorem State.draw_delayed (s : State) : (s.draw.2).delayed = s.delayed := rfl
@[simp] theorem State.draw_accs (s : State) : (s.draw.2).accs = s.accs := rfl
@[simp] theorem State.draw_copies (s : State) : (s.draw.2).copies = s.copies := rfl
@[simp] theorem State.draw_faults (s : State) : (s.draw.2).faults = s.faults := rfl
@[simp] theorem State.draw_ring (s : State) : (s.draw.2).ring = s.ring := rfl
@[simp] theorem State.draw_faultCount (s : State) : (s.draw.2).faultCount = s.faultCount := rfl
@[simp] theorem State.draw_hg (s : State) : (s.draw.2).hg = s.hg := rfl
@[simp] theorem State.draw_keys (s : State) : (s.draw.2).keys = s.keys := rfl
@[simp] theorem State.draw_trace (s : State) : (s.draw.2).trace = s.trace := rfl
@[simp] theorem State.draw_boot (s : State) : (s.draw.2).boot = s.boot := rfl
@[simp] theorem State.draw_health (s : State) : (s.draw.2).health = s.health := rfl
@[simp] theorem State.draw_irqs (s : State) : (s.draw.2).irqs = s.irqs := rfl
@[simp] theorem State.draw_completions (s : State) : (s.draw.2).completions = s.completions := rfl
@[simp] theorem State.draw_nextId (s : State) : (s.draw.2).nextId = s.nextId := rfl
@[simp] theorem State.draw_split (s : State) : (s.draw.2).split = s.split := rfl
@[simp] theorem State.draw_agenda (s : State) : (s.draw.2).agenda = s.agenda := rfl
@[simp] theorem State.draw_turn (s : State) : (s.draw.2).turn = s.turn := rfl
@[simp] theorem State.draw_cur (s : State) : (s.draw.2).cur = s.cur := rfl

@[simp] theorem countClause_refclk (s : State) (t : Nat) : (countClause s t).refclk = s.refclk := rfl
@[simp] theorem countClause_clock16 (s : State) (t : Nat) : (countClause s t).clock16 = s.clock16 := rfl
@[simp] theorem countClause_store (s : State) (t : Nat) : (countClause s t).store = s.store := rfl
@[simp] theorem countClause_dies (s : State) (t : Nat) : (countClause s t).dies = s.dies := rfl
@[simp] theorem countClause_links (s : State) (t : Nat) : (countClause s t).links = s.links := rfl
@[simp] theorem countClause_cores (s : State) (t : Nat) : (countClause s t).cores = s.cores := rfl
@[simp] theorem countClause_ctxs (s : State) (t : Nat) : (countClause s t).ctxs = s.ctxs := rfl
@[simp] theorem countClause_live (s : State) (t : Nat) : (countClause s t).live = s.live := rfl
@[simp] theorem countClause_fields (s : State) (t : Nat) : (countClause s t).fields = s.fields := rfl
@[simp] theorem countClause_launches (s : State) (t : Nat) : (countClause s t).launches = s.launches := rfl
@[simp] theorem countClause_runs (s : State) (t : Nat) : (countClause s t).runs = s.runs := rfl
@[simp] theorem countClause_graphs (s : State) (t : Nat) : (countClause s t).graphs = s.graphs := rfl
@[simp] theorem countClause_workQs (s : State) (t : Nat) : (countClause s t).workQs = s.workQs := rfl
@[simp] theorem countClause_msgs (s : State) (t : Nat) : (countClause s t).msgs = s.msgs := rfl
@[simp] theorem countClause_reqs (s : State) (t : Nat) : (countClause s t).reqs = s.reqs := rfl
@[simp] theorem countClause_delayed (s : State) (t : Nat) : (countClause s t).delayed = s.delayed := rfl
@[simp] theorem countClause_accs (s : State) (t : Nat) : (countClause s t).accs = s.accs := rfl
@[simp] theorem countClause_copies (s : State) (t : Nat) : (countClause s t).copies = s.copies := rfl
@[simp] theorem countClause_faults (s : State) (t : Nat) : (countClause s t).faults = s.faults := rfl
@[simp] theorem countClause_ring (s : State) (t : Nat) : (countClause s t).ring = s.ring := rfl
@[simp] theorem countClause_faultCount (s : State) (t : Nat) : (countClause s t).faultCount = s.faultCount := rfl
@[simp] theorem countClause_hg (s : State) (t : Nat) : (countClause s t).hg = s.hg := rfl
@[simp] theorem countClause_keys (s : State) (t : Nat) : (countClause s t).keys = s.keys := rfl
@[simp] theorem countClause_trace (s : State) (t : Nat) : (countClause s t).trace = s.trace := rfl
@[simp] theorem countClause_boot (s : State) (t : Nat) : (countClause s t).boot = s.boot := rfl
@[simp] theorem countClause_health (s : State) (t : Nat) : (countClause s t).health = s.health := rfl
@[simp] theorem countClause_irqs (s : State) (t : Nat) : (countClause s t).irqs = s.irqs := rfl
@[simp] theorem countClause_completions (s : State) (t : Nat) : (countClause s t).completions = s.completions := rfl
@[simp] theorem countClause_nextId (s : State) (t : Nat) : (countClause s t).nextId = s.nextId := rfl
@[simp] theorem countClause_free (s : State) (t : Nat) : (countClause s t).free = s.free := rfl
@[simp] theorem countClause_split (s : State) (t : Nat) : (countClause s t).split = s.split := rfl
@[simp] theorem countClause_agenda (s : State) (t : Nat) : (countClause s t).agenda = s.agenda := rfl
@[simp] theorem countClause_turn (s : State) (t : Nat) : (countClause s t).turn = s.turn := rfl
@[simp] theorem countClause_cur (s : State) (t : Nat) : (countClause s t).cur = s.cur := rfl

@[simp] theorem writeP_refclk (s : State) (t g p : Nat) (v : LaneMask) : (writeP s t g p v).refclk = s.refclk := rfl
@[simp] theorem writeP_clock16 (s : State) (t g p : Nat) (v : LaneMask) : (writeP s t g p v).clock16 = s.clock16 := rfl
@[simp] theorem writeP_store (s : State) (t g p : Nat) (v : LaneMask) : (writeP s t g p v).store = s.store := rfl
@[simp] theorem writeP_dies (s : State) (t g p : Nat) (v : LaneMask) : (writeP s t g p v).dies = s.dies := rfl
@[simp] theorem writeP_links (s : State) (t g p : Nat) (v : LaneMask) : (writeP s t g p v).links = s.links := rfl
@[simp] theorem writeP_cores (s : State) (t g p : Nat) (v : LaneMask) : (writeP s t g p v).cores = s.cores := rfl
@[simp] theorem writeP_ctxs (s : State) (t g p : Nat) (v : LaneMask) : (writeP s t g p v).ctxs = s.ctxs := rfl
@[simp] theorem writeP_live (s : State) (t g p : Nat) (v : LaneMask) : (writeP s t g p v).live = s.live := rfl
@[simp] theorem writeP_fields (s : State) (t g p : Nat) (v : LaneMask) : (writeP s t g p v).fields = s.fields := rfl
@[simp] theorem writeP_launches (s : State) (t g p : Nat) (v : LaneMask) : (writeP s t g p v).launches = s.launches := rfl
@[simp] theorem writeP_runs (s : State) (t g p : Nat) (v : LaneMask) : (writeP s t g p v).runs = s.runs := rfl
@[simp] theorem writeP_graphs (s : State) (t g p : Nat) (v : LaneMask) : (writeP s t g p v).graphs = s.graphs := rfl
@[simp] theorem writeP_workQs (s : State) (t g p : Nat) (v : LaneMask) : (writeP s t g p v).workQs = s.workQs := rfl
@[simp] theorem writeP_msgs (s : State) (t g p : Nat) (v : LaneMask) : (writeP s t g p v).msgs = s.msgs := rfl
@[simp] theorem writeP_reqs (s : State) (t g p : Nat) (v : LaneMask) : (writeP s t g p v).reqs = s.reqs := rfl
@[simp] theorem writeP_delayed (s : State) (t g p : Nat) (v : LaneMask) : (writeP s t g p v).delayed = s.delayed := rfl
@[simp] theorem writeP_accs (s : State) (t g p : Nat) (v : LaneMask) : (writeP s t g p v).accs = s.accs := rfl
@[simp] theorem writeP_copies (s : State) (t g p : Nat) (v : LaneMask) : (writeP s t g p v).copies = s.copies := rfl
@[simp] theorem writeP_faults (s : State) (t g p : Nat) (v : LaneMask) : (writeP s t g p v).faults = s.faults := rfl
@[simp] theorem writeP_ring (s : State) (t g p : Nat) (v : LaneMask) : (writeP s t g p v).ring = s.ring := rfl
@[simp] theorem writeP_faultCount (s : State) (t g p : Nat) (v : LaneMask) : (writeP s t g p v).faultCount = s.faultCount := rfl
@[simp] theorem writeP_hg (s : State) (t g p : Nat) (v : LaneMask) : (writeP s t g p v).hg = s.hg := rfl
@[simp] theorem writeP_keys (s : State) (t g p : Nat) (v : LaneMask) : (writeP s t g p v).keys = s.keys := rfl
@[simp] theorem writeP_trace (s : State) (t g p : Nat) (v : LaneMask) : (writeP s t g p v).trace = s.trace := rfl
@[simp] theorem writeP_boot (s : State) (t g p : Nat) (v : LaneMask) : (writeP s t g p v).boot = s.boot := rfl
@[simp] theorem writeP_health (s : State) (t g p : Nat) (v : LaneMask) : (writeP s t g p v).health = s.health := rfl
@[simp] theorem writeP_irqs (s : State) (t g p : Nat) (v : LaneMask) : (writeP s t g p v).irqs = s.irqs := rfl
@[simp] theorem writeP_completions (s : State) (t g p : Nat) (v : LaneMask) : (writeP s t g p v).completions = s.completions := rfl
@[simp] theorem writeP_nextId (s : State) (t g p : Nat) (v : LaneMask) : (writeP s t g p v).nextId = s.nextId := rfl
@[simp] theorem writeP_free (s : State) (t g p : Nat) (v : LaneMask) : (writeP s t g p v).free = s.free := rfl
@[simp] theorem writeP_split (s : State) (t g p : Nat) (v : LaneMask) : (writeP s t g p v).split = s.split := rfl
@[simp] theorem writeP_agenda (s : State) (t g p : Nat) (v : LaneMask) : (writeP s t g p v).agenda = s.agenda := rfl
@[simp] theorem writeP_turn (s : State) (t g p : Nat) (v : LaneMask) : (writeP s t g p v).turn = s.turn := rfl
@[simp] theorem writeP_cur (s : State) (t g p : Nat) (v : LaneMask) : (writeP s t g p v).cur = s.cur := rfl

@[simp] theorem standAt_refclk (s : State) (e : Env) (h : Hold) : (standAt s e h).refclk = s.refclk := rfl
@[simp] theorem standAt_clock16 (s : State) (e : Env) (h : Hold) : (standAt s e h).clock16 = s.clock16 := rfl
@[simp] theorem standAt_store (s : State) (e : Env) (h : Hold) : (standAt s e h).store = s.store := rfl
@[simp] theorem standAt_dies (s : State) (e : Env) (h : Hold) : (standAt s e h).dies = s.dies := rfl
@[simp] theorem standAt_links (s : State) (e : Env) (h : Hold) : (standAt s e h).links = s.links := rfl
@[simp] theorem standAt_cores (s : State) (e : Env) (h : Hold) : (standAt s e h).cores = s.cores := rfl
@[simp] theorem standAt_ctxs (s : State) (e : Env) (h : Hold) : (standAt s e h).ctxs = s.ctxs := rfl
@[simp] theorem standAt_live (s : State) (e : Env) (h : Hold) : (standAt s e h).live = s.live := rfl
@[simp] theorem standAt_fields (s : State) (e : Env) (h : Hold) : (standAt s e h).fields = s.fields := rfl
@[simp] theorem standAt_launches (s : State) (e : Env) (h : Hold) : (standAt s e h).launches = s.launches := rfl
@[simp] theorem standAt_runs (s : State) (e : Env) (h : Hold) : (standAt s e h).runs = s.runs := rfl
@[simp] theorem standAt_graphs (s : State) (e : Env) (h : Hold) : (standAt s e h).graphs = s.graphs := rfl
@[simp] theorem standAt_workQs (s : State) (e : Env) (h : Hold) : (standAt s e h).workQs = s.workQs := rfl
@[simp] theorem standAt_msgs (s : State) (e : Env) (h : Hold) : (standAt s e h).msgs = s.msgs := rfl
@[simp] theorem standAt_reqs (s : State) (e : Env) (h : Hold) : (standAt s e h).reqs = s.reqs := rfl
@[simp] theorem standAt_delayed (s : State) (e : Env) (h : Hold) : (standAt s e h).delayed = s.delayed := rfl
@[simp] theorem standAt_accs (s : State) (e : Env) (h : Hold) : (standAt s e h).accs = s.accs := rfl
@[simp] theorem standAt_copies (s : State) (e : Env) (h : Hold) : (standAt s e h).copies = s.copies := rfl
@[simp] theorem standAt_faults (s : State) (e : Env) (h : Hold) : (standAt s e h).faults = s.faults := rfl
@[simp] theorem standAt_ring (s : State) (e : Env) (h : Hold) : (standAt s e h).ring = s.ring := rfl
@[simp] theorem standAt_faultCount (s : State) (e : Env) (h : Hold) : (standAt s e h).faultCount = s.faultCount := rfl
@[simp] theorem standAt_hg (s : State) (e : Env) (h : Hold) : (standAt s e h).hg = s.hg := rfl
@[simp] theorem standAt_keys (s : State) (e : Env) (h : Hold) : (standAt s e h).keys = s.keys := rfl
@[simp] theorem standAt_trace (s : State) (e : Env) (h : Hold) : (standAt s e h).trace = s.trace := rfl
@[simp] theorem standAt_boot (s : State) (e : Env) (h : Hold) : (standAt s e h).boot = s.boot := rfl
@[simp] theorem standAt_health (s : State) (e : Env) (h : Hold) : (standAt s e h).health = s.health := rfl
@[simp] theorem standAt_irqs (s : State) (e : Env) (h : Hold) : (standAt s e h).irqs = s.irqs := rfl
@[simp] theorem standAt_completions (s : State) (e : Env) (h : Hold) : (standAt s e h).completions = s.completions := rfl
@[simp] theorem standAt_nextId (s : State) (e : Env) (h : Hold) : (standAt s e h).nextId = s.nextId := rfl
@[simp] theorem standAt_free (s : State) (e : Env) (h : Hold) : (standAt s e h).free = s.free := rfl
@[simp] theorem standAt_split (s : State) (e : Env) (h : Hold) : (standAt s e h).split = s.split := rfl
@[simp] theorem standAt_agenda (s : State) (e : Env) (h : Hold) : (standAt s e h).agenda = s.agenda := rfl
@[simp] theorem standAt_turn (s : State) (e : Env) (h : Hold) : (standAt s e h).turn = s.turn := rfl
@[simp] theorem standAt_cur (s : State) (e : Env) (h : Hold) : (standAt s e h).cur = s.cur := rfl

@[simp] theorem stopGroup_refclk (s : State) (t g p : Nat) (pc : Dword) (c d : Nat) (a : Dword) : (stopGroup s t g p pc c d a).refclk = s.refclk := rfl
@[simp] theorem stopGroup_clock16 (s : State) (t g p : Nat) (pc : Dword) (c d : Nat) (a : Dword) : (stopGroup s t g p pc c d a).clock16 = s.clock16 := rfl
@[simp] theorem stopGroup_store (s : State) (t g p : Nat) (pc : Dword) (c d : Nat) (a : Dword) : (stopGroup s t g p pc c d a).store = s.store := rfl
@[simp] theorem stopGroup_dies (s : State) (t g p : Nat) (pc : Dword) (c d : Nat) (a : Dword) : (stopGroup s t g p pc c d a).dies = s.dies := rfl
@[simp] theorem stopGroup_links (s : State) (t g p : Nat) (pc : Dword) (c d : Nat) (a : Dword) : (stopGroup s t g p pc c d a).links = s.links := rfl
@[simp] theorem stopGroup_cores (s : State) (t g p : Nat) (pc : Dword) (c d : Nat) (a : Dword) : (stopGroup s t g p pc c d a).cores = s.cores := rfl
@[simp] theorem stopGroup_ctxs (s : State) (t g p : Nat) (pc : Dword) (c d : Nat) (a : Dword) : (stopGroup s t g p pc c d a).ctxs = s.ctxs := rfl
@[simp] theorem stopGroup_live (s : State) (t g p : Nat) (pc : Dword) (c d : Nat) (a : Dword) : (stopGroup s t g p pc c d a).live = s.live := rfl
@[simp] theorem stopGroup_fields (s : State) (t g p : Nat) (pc : Dword) (c d : Nat) (a : Dword) : (stopGroup s t g p pc c d a).fields = s.fields := rfl
@[simp] theorem stopGroup_launches (s : State) (t g p : Nat) (pc : Dword) (c d : Nat) (a : Dword) : (stopGroup s t g p pc c d a).launches = s.launches := rfl
@[simp] theorem stopGroup_runs (s : State) (t g p : Nat) (pc : Dword) (c d : Nat) (a : Dword) : (stopGroup s t g p pc c d a).runs = s.runs := rfl
@[simp] theorem stopGroup_graphs (s : State) (t g p : Nat) (pc : Dword) (c d : Nat) (a : Dword) : (stopGroup s t g p pc c d a).graphs = s.graphs := rfl
@[simp] theorem stopGroup_workQs (s : State) (t g p : Nat) (pc : Dword) (c d : Nat) (a : Dword) : (stopGroup s t g p pc c d a).workQs = s.workQs := rfl
@[simp] theorem stopGroup_msgs (s : State) (t g p : Nat) (pc : Dword) (c d : Nat) (a : Dword) : (stopGroup s t g p pc c d a).msgs = s.msgs := rfl
@[simp] theorem stopGroup_reqs (s : State) (t g p : Nat) (pc : Dword) (c d : Nat) (a : Dword) : (stopGroup s t g p pc c d a).reqs = s.reqs := rfl
@[simp] theorem stopGroup_delayed (s : State) (t g p : Nat) (pc : Dword) (c d : Nat) (a : Dword) : (stopGroup s t g p pc c d a).delayed = s.delayed := rfl
@[simp] theorem stopGroup_accs (s : State) (t g p : Nat) (pc : Dword) (c d : Nat) (a : Dword) : (stopGroup s t g p pc c d a).accs = s.accs := rfl
@[simp] theorem stopGroup_copies (s : State) (t g p : Nat) (pc : Dword) (c d : Nat) (a : Dword) : (stopGroup s t g p pc c d a).copies = s.copies := rfl
@[simp] theorem stopGroup_faults (s : State) (t g p : Nat) (pc : Dword) (c d : Nat) (a : Dword) : (stopGroup s t g p pc c d a).faults = s.faults := rfl
@[simp] theorem stopGroup_ring (s : State) (t g p : Nat) (pc : Dword) (c d : Nat) (a : Dword) : (stopGroup s t g p pc c d a).ring = s.ring := rfl
@[simp] theorem stopGroup_faultCount (s : State) (t g p : Nat) (pc : Dword) (c d : Nat) (a : Dword) : (stopGroup s t g p pc c d a).faultCount = s.faultCount := rfl
@[simp] theorem stopGroup_hg (s : State) (t g p : Nat) (pc : Dword) (c d : Nat) (a : Dword) : (stopGroup s t g p pc c d a).hg = s.hg := rfl
@[simp] theorem stopGroup_keys (s : State) (t g p : Nat) (pc : Dword) (c d : Nat) (a : Dword) : (stopGroup s t g p pc c d a).keys = s.keys := rfl
@[simp] theorem stopGroup_trace (s : State) (t g p : Nat) (pc : Dword) (c d : Nat) (a : Dword) : (stopGroup s t g p pc c d a).trace = s.trace := rfl
@[simp] theorem stopGroup_boot (s : State) (t g p : Nat) (pc : Dword) (c d : Nat) (a : Dword) : (stopGroup s t g p pc c d a).boot = s.boot := rfl
@[simp] theorem stopGroup_health (s : State) (t g p : Nat) (pc : Dword) (c d : Nat) (a : Dword) : (stopGroup s t g p pc c d a).health = s.health := rfl
@[simp] theorem stopGroup_irqs (s : State) (t g p : Nat) (pc : Dword) (c d : Nat) (a : Dword) : (stopGroup s t g p pc c d a).irqs = s.irqs := rfl
@[simp] theorem stopGroup_completions (s : State) (t g p : Nat) (pc : Dword) (c d : Nat) (a : Dword) : (stopGroup s t g p pc c d a).completions = s.completions := rfl
@[simp] theorem stopGroup_nextId (s : State) (t g p : Nat) (pc : Dword) (c d : Nat) (a : Dword) : (stopGroup s t g p pc c d a).nextId = s.nextId := rfl
@[simp] theorem stopGroup_free (s : State) (t g p : Nat) (pc : Dword) (c d : Nat) (a : Dword) : (stopGroup s t g p pc c d a).free = s.free := rfl
@[simp] theorem stopGroup_split (s : State) (t g p : Nat) (pc : Dword) (c d : Nat) (a : Dword) : (stopGroup s t g p pc c d a).split = s.split := rfl
@[simp] theorem stopGroup_agenda (s : State) (t g p : Nat) (pc : Dword) (c d : Nat) (a : Dword) : (stopGroup s t g p pc c d a).agenda = s.agenda := rfl
@[simp] theorem stopGroup_turn (s : State) (t g p : Nat) (pc : Dword) (c d : Nat) (a : Dword) : (stopGroup s t g p pc c d a).turn = s.turn := rfl
@[simp] theorem stopGroup_cur (s : State) (t g p : Nat) (pc : Dword) (c d : Nat) (a : Dword) : (stopGroup s t g p pc c d a).cur = s.cur := rfl

@[simp] theorem stopSeq_refclk (s : State) (t : Nat) (b : Bool) (pc : Dword) (c d : Nat) (a : Dword) : (stopSeq s t b pc c d a).refclk = s.refclk := rfl
@[simp] theorem stopSeq_clock16 (s : State) (t : Nat) (b : Bool) (pc : Dword) (c d : Nat) (a : Dword) : (stopSeq s t b pc c d a).clock16 = s.clock16 := rfl
@[simp] theorem stopSeq_store (s : State) (t : Nat) (b : Bool) (pc : Dword) (c d : Nat) (a : Dword) : (stopSeq s t b pc c d a).store = s.store := rfl
@[simp] theorem stopSeq_dies (s : State) (t : Nat) (b : Bool) (pc : Dword) (c d : Nat) (a : Dword) : (stopSeq s t b pc c d a).dies = s.dies := rfl
@[simp] theorem stopSeq_links (s : State) (t : Nat) (b : Bool) (pc : Dword) (c d : Nat) (a : Dword) : (stopSeq s t b pc c d a).links = s.links := rfl
@[simp] theorem stopSeq_cores (s : State) (t : Nat) (b : Bool) (pc : Dword) (c d : Nat) (a : Dword) : (stopSeq s t b pc c d a).cores = s.cores := rfl
@[simp] theorem stopSeq_ctxs (s : State) (t : Nat) (b : Bool) (pc : Dword) (c d : Nat) (a : Dword) : (stopSeq s t b pc c d a).ctxs = s.ctxs := rfl
@[simp] theorem stopSeq_live (s : State) (t : Nat) (b : Bool) (pc : Dword) (c d : Nat) (a : Dword) : (stopSeq s t b pc c d a).live = s.live := rfl
@[simp] theorem stopSeq_fields (s : State) (t : Nat) (b : Bool) (pc : Dword) (c d : Nat) (a : Dword) : (stopSeq s t b pc c d a).fields = s.fields := rfl
@[simp] theorem stopSeq_launches (s : State) (t : Nat) (b : Bool) (pc : Dword) (c d : Nat) (a : Dword) : (stopSeq s t b pc c d a).launches = s.launches := rfl
@[simp] theorem stopSeq_runs (s : State) (t : Nat) (b : Bool) (pc : Dword) (c d : Nat) (a : Dword) : (stopSeq s t b pc c d a).runs = s.runs := rfl
@[simp] theorem stopSeq_graphs (s : State) (t : Nat) (b : Bool) (pc : Dword) (c d : Nat) (a : Dword) : (stopSeq s t b pc c d a).graphs = s.graphs := rfl
@[simp] theorem stopSeq_workQs (s : State) (t : Nat) (b : Bool) (pc : Dword) (c d : Nat) (a : Dword) : (stopSeq s t b pc c d a).workQs = s.workQs := rfl
@[simp] theorem stopSeq_msgs (s : State) (t : Nat) (b : Bool) (pc : Dword) (c d : Nat) (a : Dword) : (stopSeq s t b pc c d a).msgs = s.msgs := rfl
@[simp] theorem stopSeq_reqs (s : State) (t : Nat) (b : Bool) (pc : Dword) (c d : Nat) (a : Dword) : (stopSeq s t b pc c d a).reqs = s.reqs := rfl
@[simp] theorem stopSeq_delayed (s : State) (t : Nat) (b : Bool) (pc : Dword) (c d : Nat) (a : Dword) : (stopSeq s t b pc c d a).delayed = s.delayed := rfl
@[simp] theorem stopSeq_accs (s : State) (t : Nat) (b : Bool) (pc : Dword) (c d : Nat) (a : Dword) : (stopSeq s t b pc c d a).accs = s.accs := rfl
@[simp] theorem stopSeq_copies (s : State) (t : Nat) (b : Bool) (pc : Dword) (c d : Nat) (a : Dword) : (stopSeq s t b pc c d a).copies = s.copies := rfl
@[simp] theorem stopSeq_faults (s : State) (t : Nat) (b : Bool) (pc : Dword) (c d : Nat) (a : Dword) : (stopSeq s t b pc c d a).faults = s.faults := rfl
@[simp] theorem stopSeq_ring (s : State) (t : Nat) (b : Bool) (pc : Dword) (c d : Nat) (a : Dword) : (stopSeq s t b pc c d a).ring = s.ring := rfl
@[simp] theorem stopSeq_faultCount (s : State) (t : Nat) (b : Bool) (pc : Dword) (c d : Nat) (a : Dword) : (stopSeq s t b pc c d a).faultCount = s.faultCount := rfl
@[simp] theorem stopSeq_hg (s : State) (t : Nat) (b : Bool) (pc : Dword) (c d : Nat) (a : Dword) : (stopSeq s t b pc c d a).hg = s.hg := rfl
@[simp] theorem stopSeq_keys (s : State) (t : Nat) (b : Bool) (pc : Dword) (c d : Nat) (a : Dword) : (stopSeq s t b pc c d a).keys = s.keys := rfl
@[simp] theorem stopSeq_trace (s : State) (t : Nat) (b : Bool) (pc : Dword) (c d : Nat) (a : Dword) : (stopSeq s t b pc c d a).trace = s.trace := rfl
@[simp] theorem stopSeq_boot (s : State) (t : Nat) (b : Bool) (pc : Dword) (c d : Nat) (a : Dword) : (stopSeq s t b pc c d a).boot = s.boot := rfl
@[simp] theorem stopSeq_health (s : State) (t : Nat) (b : Bool) (pc : Dword) (c d : Nat) (a : Dword) : (stopSeq s t b pc c d a).health = s.health := rfl
@[simp] theorem stopSeq_irqs (s : State) (t : Nat) (b : Bool) (pc : Dword) (c d : Nat) (a : Dword) : (stopSeq s t b pc c d a).irqs = s.irqs := rfl
@[simp] theorem stopSeq_completions (s : State) (t : Nat) (b : Bool) (pc : Dword) (c d : Nat) (a : Dword) : (stopSeq s t b pc c d a).completions = s.completions := rfl
@[simp] theorem stopSeq_nextId (s : State) (t : Nat) (b : Bool) (pc : Dword) (c d : Nat) (a : Dword) : (stopSeq s t b pc c d a).nextId = s.nextId := rfl
@[simp] theorem stopSeq_free (s : State) (t : Nat) (b : Bool) (pc : Dword) (c d : Nat) (a : Dword) : (stopSeq s t b pc c d a).free = s.free := rfl
@[simp] theorem stopSeq_split (s : State) (t : Nat) (b : Bool) (pc : Dword) (c d : Nat) (a : Dword) : (stopSeq s t b pc c d a).split = s.split := rfl
@[simp] theorem stopSeq_agenda (s : State) (t : Nat) (b : Bool) (pc : Dword) (c d : Nat) (a : Dword) : (stopSeq s t b pc c d a).agenda = s.agenda := rfl
@[simp] theorem stopSeq_turn (s : State) (t : Nat) (b : Bool) (pc : Dword) (c d : Nat) (a : Dword) : (stopSeq s t b pc c d a).turn = s.turn := rfl
@[simp] theorem stopSeq_cur (s : State) (t : Nat) (b : Bool) (pc : Dword) (c d : Nat) (a : Dword) : (stopSeq s t b pc c d a).cur = s.cur := rfl

@[simp] theorem Team.setGroup_id (t : Team) (g : Nat) (x : Group) : (t.setGroup g x).id = t.id := rfl
@[simp] theorem Team.setGroup_stat (t : Team) (g : Nat) (x : Group) : (t.setGroup g x).stat = t.stat := rfl
@[simp] theorem Team.setGroup_halted (t : Team) (g : Nat) (x : Group) : (t.setGroup g x).halted = t.halted := rfl
@[simp] theorem Team.setGroup_res (t : Team) (g : Nat) (x : Group) : (t.setGroup g x).res = t.res := rfl
@[simp] theorem Team.setGroup_fl (t : Team) (g : Nat) (x : Group) : (t.setGroup g x).fl = t.fl := rfl
@[simp] theorem Team.setGroup_flume (t : Team) (g : Nat) (x : Group) : (t.setGroup g x).flume = t.flume := rfl
@[simp] theorem Team.setGroup_sluice (t : Team) (g : Nat) (x : Group) : (t.setGroup g x).sluice = t.sluice := rfl
@[simp] theorem Team.setGroup_memdef (t : Team) (g : Nat) (x : Group) : (t.setGroup g x).memdef = t.memdef := rfl
@[simp] theorem Team.setGroup_bars (t : Team) (g : Nat) (x : Group) : (t.setGroup g x).bars = t.bars := rfl
@[simp] theorem Team.setGroup_target (t : Team) (g : Nat) (x : Group) : (t.setGroup g x).target = t.target := rfl
@[simp] theorem Team.setGroup_hintSucc (t : Team) (g : Nat) (x : Group) : (t.setGroup g x).hintSucc = t.hintSucc := rfl
@[simp] theorem Team.setGroup_clauses (t : Team) (g : Nat) (x : Group) : (t.setGroup g x).clauses = t.clauses := rfl
@[simp] theorem Team.setGroup_drain (t : Team) (g : Nat) (x : Group) : (t.setGroup g x).drain = t.drain := rfl
@[simp] theorem Team.setGroup_clock0 (t : Team) (g : Nat) (x : Group) : (t.setGroup g x).clock0 = t.clock0 := rfl
@[simp] theorem Team.setGroup_urgent (t : Team) (g : Nat) (x : Group) : (t.setGroup g x).urgent = t.urgent := rfl
@[simp] theorem Team.setGroup_saveAt (t : Team) (g : Nat) (x : Group) : (t.setGroup g x).saveAt = t.saveAt := rfl
@[simp] theorem Team.setGroup_saved (t : Team) (g : Nat) (x : Group) : (t.setGroup g x).saved = t.saved := rfl

@[simp] theorem Team.setRow_id (t : Team) (r : Nat) (x : Row) : (t.setRow r x).id = t.id := rfl
@[simp] theorem Team.setRow_stat (t : Team) (r : Nat) (x : Row) : (t.setRow r x).stat = t.stat := rfl
@[simp] theorem Team.setRow_halted (t : Team) (r : Nat) (x : Row) : (t.setRow r x).halted = t.halted := rfl
@[simp] theorem Team.setRow_fl (t : Team) (r : Nat) (x : Row) : (t.setRow r x).fl = t.fl := rfl
@[simp] theorem Team.setRow_flume (t : Team) (r : Nat) (x : Row) : (t.setRow r x).flume = t.flume := rfl
@[simp] theorem Team.setRow_sluice (t : Team) (r : Nat) (x : Row) : (t.setRow r x).sluice = t.sluice := rfl
@[simp] theorem Team.setRow_groups (t : Team) (r : Nat) (x : Row) : (t.setRow r x).groups = t.groups := rfl
@[simp] theorem Team.setRow_memdef (t : Team) (r : Nat) (x : Row) : (t.setRow r x).memdef = t.memdef := rfl
@[simp] theorem Team.setRow_bars (t : Team) (r : Nat) (x : Row) : (t.setRow r x).bars = t.bars := rfl
@[simp] theorem Team.setRow_target (t : Team) (r : Nat) (x : Row) : (t.setRow r x).target = t.target := rfl
@[simp] theorem Team.setRow_hintSucc (t : Team) (r : Nat) (x : Row) : (t.setRow r x).hintSucc = t.hintSucc := rfl
@[simp] theorem Team.setRow_clauses (t : Team) (r : Nat) (x : Row) : (t.setRow r x).clauses = t.clauses := rfl
@[simp] theorem Team.setRow_drain (t : Team) (r : Nat) (x : Row) : (t.setRow r x).drain = t.drain := rfl
@[simp] theorem Team.setRow_clock0 (t : Team) (r : Nat) (x : Row) : (t.setRow r x).clock0 = t.clock0 := rfl
@[simp] theorem Team.setRow_urgent (t : Team) (r : Nat) (x : Row) : (t.setRow r x).urgent = t.urgent := rfl
@[simp] theorem Team.setRow_saveAt (t : Team) (r : Nat) (x : Row) : (t.setRow r x).saveAt = t.saveAt := rfl
@[simp] theorem Team.setRow_saved (t : Team) (r : Nat) (x : Row) : (t.setRow r x).saved = t.saved := rfl

@[simp] theorem Team.dropRow_id (t : Team) (r : Nat) : (t.dropRow r).id = t.id := rfl
@[simp] theorem Team.dropRow_stat (t : Team) (r : Nat) : (t.dropRow r).stat = t.stat := rfl
@[simp] theorem Team.dropRow_halted (t : Team) (r : Nat) : (t.dropRow r).halted = t.halted := rfl
@[simp] theorem Team.dropRow_fl (t : Team) (r : Nat) : (t.dropRow r).fl = t.fl := rfl
@[simp] theorem Team.dropRow_flume (t : Team) (r : Nat) : (t.dropRow r).flume = t.flume := rfl
@[simp] theorem Team.dropRow_sluice (t : Team) (r : Nat) : (t.dropRow r).sluice = t.sluice := rfl
@[simp] theorem Team.dropRow_groups (t : Team) (r : Nat) : (t.dropRow r).groups = t.groups := rfl
@[simp] theorem Team.dropRow_memdef (t : Team) (r : Nat) : (t.dropRow r).memdef = t.memdef := rfl
@[simp] theorem Team.dropRow_bars (t : Team) (r : Nat) : (t.dropRow r).bars = t.bars := rfl
@[simp] theorem Team.dropRow_target (t : Team) (r : Nat) : (t.dropRow r).target = t.target := rfl
@[simp] theorem Team.dropRow_hintSucc (t : Team) (r : Nat) : (t.dropRow r).hintSucc = t.hintSucc := rfl
@[simp] theorem Team.dropRow_clauses (t : Team) (r : Nat) : (t.dropRow r).clauses = t.clauses := rfl
@[simp] theorem Team.dropRow_drain (t : Team) (r : Nat) : (t.dropRow r).drain = t.drain := rfl
@[simp] theorem Team.dropRow_clock0 (t : Team) (r : Nat) : (t.dropRow r).clock0 = t.clock0 := rfl
@[simp] theorem Team.dropRow_urgent (t : Team) (r : Nat) : (t.dropRow r).urgent = t.urgent := rfl
@[simp] theorem Team.dropRow_saveAt (t : Team) (r : Nat) : (t.dropRow r).saveAt = t.saveAt := rfl
@[simp] theorem Team.dropRow_saved (t : Team) (r : Nat) : (t.dropRow r).saved = t.saved := rfl

@[simp] theorem Team.writeRow_id (t : Team) (r : Nat) (v : List Word) (m : LaneMask) : (t.writeRow r v m).id = t.id := rfl
@[simp] theorem Team.writeRow_stat (t : Team) (r : Nat) (v : List Word) (m : LaneMask) : (t.writeRow r v m).stat = t.stat := rfl
@[simp] theorem Team.writeRow_halted (t : Team) (r : Nat) (v : List Word) (m : LaneMask) : (t.writeRow r v m).halted = t.halted := rfl
@[simp] theorem Team.writeRow_fl (t : Team) (r : Nat) (v : List Word) (m : LaneMask) : (t.writeRow r v m).fl = t.fl := rfl
@[simp] theorem Team.writeRow_flume (t : Team) (r : Nat) (v : List Word) (m : LaneMask) : (t.writeRow r v m).flume = t.flume := rfl
@[simp] theorem Team.writeRow_sluice (t : Team) (r : Nat) (v : List Word) (m : LaneMask) : (t.writeRow r v m).sluice = t.sluice := rfl
@[simp] theorem Team.writeRow_groups (t : Team) (r : Nat) (v : List Word) (m : LaneMask) : (t.writeRow r v m).groups = t.groups := rfl
@[simp] theorem Team.writeRow_memdef (t : Team) (r : Nat) (v : List Word) (m : LaneMask) : (t.writeRow r v m).memdef = t.memdef := rfl
@[simp] theorem Team.writeRow_bars (t : Team) (r : Nat) (v : List Word) (m : LaneMask) : (t.writeRow r v m).bars = t.bars := rfl
@[simp] theorem Team.writeRow_target (t : Team) (r : Nat) (v : List Word) (m : LaneMask) : (t.writeRow r v m).target = t.target := rfl
@[simp] theorem Team.writeRow_hintSucc (t : Team) (r : Nat) (v : List Word) (m : LaneMask) : (t.writeRow r v m).hintSucc = t.hintSucc := rfl
@[simp] theorem Team.writeRow_clauses (t : Team) (r : Nat) (v : List Word) (m : LaneMask) : (t.writeRow r v m).clauses = t.clauses := rfl
@[simp] theorem Team.writeRow_drain (t : Team) (r : Nat) (v : List Word) (m : LaneMask) : (t.writeRow r v m).drain = t.drain := rfl
@[simp] theorem Team.writeRow_clock0 (t : Team) (r : Nat) (v : List Word) (m : LaneMask) : (t.writeRow r v m).clock0 = t.clock0 := rfl
@[simp] theorem Team.writeRow_urgent (t : Team) (r : Nat) (v : List Word) (m : LaneMask) : (t.writeRow r v m).urgent = t.urgent := rfl
@[simp] theorem Team.writeRow_saveAt (t : Team) (r : Nat) (v : List Word) (m : LaneMask) : (t.writeRow r v m).saveAt = t.saveAt := rfl
@[simp] theorem Team.writeRow_saved (t : Team) (r : Nat) (v : List Word) (m : LaneMask) : (t.writeRow r v m).saved = t.saved := rfl

@[simp] theorem Team.pendUp_id (t : Team) (r : Nat) : (t.pendUp r).id = t.id := rfl
@[simp] theorem Team.pendUp_stat (t : Team) (r : Nat) : (t.pendUp r).stat = t.stat := rfl
@[simp] theorem Team.pendUp_halted (t : Team) (r : Nat) : (t.pendUp r).halted = t.halted := rfl
@[simp] theorem Team.pendUp_fl (t : Team) (r : Nat) : (t.pendUp r).fl = t.fl := rfl
@[simp] theorem Team.pendUp_flume (t : Team) (r : Nat) : (t.pendUp r).flume = t.flume := rfl
@[simp] theorem Team.pendUp_sluice (t : Team) (r : Nat) : (t.pendUp r).sluice = t.sluice := rfl
@[simp] theorem Team.pendUp_groups (t : Team) (r : Nat) : (t.pendUp r).groups = t.groups := rfl
@[simp] theorem Team.pendUp_memdef (t : Team) (r : Nat) : (t.pendUp r).memdef = t.memdef := rfl
@[simp] theorem Team.pendUp_bars (t : Team) (r : Nat) : (t.pendUp r).bars = t.bars := rfl
@[simp] theorem Team.pendUp_target (t : Team) (r : Nat) : (t.pendUp r).target = t.target := rfl
@[simp] theorem Team.pendUp_hintSucc (t : Team) (r : Nat) : (t.pendUp r).hintSucc = t.hintSucc := rfl
@[simp] theorem Team.pendUp_clauses (t : Team) (r : Nat) : (t.pendUp r).clauses = t.clauses := rfl
@[simp] theorem Team.pendUp_drain (t : Team) (r : Nat) : (t.pendUp r).drain = t.drain := rfl
@[simp] theorem Team.pendUp_clock0 (t : Team) (r : Nat) : (t.pendUp r).clock0 = t.clock0 := rfl
@[simp] theorem Team.pendUp_urgent (t : Team) (r : Nat) : (t.pendUp r).urgent = t.urgent := rfl
@[simp] theorem Team.pendUp_saveAt (t : Team) (r : Nat) : (t.pendUp r).saveAt = t.saveAt := rfl
@[simp] theorem Team.pendUp_saved (t : Team) (r : Nat) : (t.pendUp r).saved = t.saved := rfl

@[simp] theorem Team.setName_id (t : Team) (g n : Nat) (m : Option Mapped) : (t.setName g n m).id = t.id := rfl
@[simp] theorem Team.setName_stat (t : Team) (g n : Nat) (m : Option Mapped) : (t.setName g n m).stat = t.stat := rfl
@[simp] theorem Team.setName_halted (t : Team) (g n : Nat) (m : Option Mapped) : (t.setName g n m).halted = t.halted := rfl
@[simp] theorem Team.setName_res (t : Team) (g n : Nat) (m : Option Mapped) : (t.setName g n m).res = t.res := rfl
@[simp] theorem Team.setName_fl (t : Team) (g n : Nat) (m : Option Mapped) : (t.setName g n m).fl = t.fl := rfl
@[simp] theorem Team.setName_flume (t : Team) (g n : Nat) (m : Option Mapped) : (t.setName g n m).flume = t.flume := rfl
@[simp] theorem Team.setName_sluice (t : Team) (g n : Nat) (m : Option Mapped) : (t.setName g n m).sluice = t.sluice := rfl
@[simp] theorem Team.setName_memdef (t : Team) (g n : Nat) (m : Option Mapped) : (t.setName g n m).memdef = t.memdef := rfl
@[simp] theorem Team.setName_bars (t : Team) (g n : Nat) (m : Option Mapped) : (t.setName g n m).bars = t.bars := rfl
@[simp] theorem Team.setName_target (t : Team) (g n : Nat) (m : Option Mapped) : (t.setName g n m).target = t.target := rfl
@[simp] theorem Team.setName_hintSucc (t : Team) (g n : Nat) (m : Option Mapped) : (t.setName g n m).hintSucc = t.hintSucc := rfl
@[simp] theorem Team.setName_clauses (t : Team) (g n : Nat) (m : Option Mapped) : (t.setName g n m).clauses = t.clauses := rfl
@[simp] theorem Team.setName_drain (t : Team) (g n : Nat) (m : Option Mapped) : (t.setName g n m).drain = t.drain := rfl
@[simp] theorem Team.setName_clock0 (t : Team) (g n : Nat) (m : Option Mapped) : (t.setName g n m).clock0 = t.clock0 := rfl
@[simp] theorem Team.setName_urgent (t : Team) (g n : Nat) (m : Option Mapped) : (t.setName g n m).urgent = t.urgent := rfl
@[simp] theorem Team.setName_saveAt (t : Team) (g n : Nat) (m : Option Mapped) : (t.setName g n m).saveAt = t.saveAt := rfl
@[simp] theorem Team.setName_saved (t : Team) (g n : Nat) (m : Option Mapped) : (t.setName g n m).saved = t.saved := rfl

@[simp] theorem Team.mapFresh_id (t : Team) (g n : Nat) : (t.mapFresh g n).id = t.id := rfl
@[simp] theorem Team.mapFresh_stat (t : Team) (g n : Nat) : (t.mapFresh g n).stat = t.stat := rfl
@[simp] theorem Team.mapFresh_halted (t : Team) (g n : Nat) : (t.mapFresh g n).halted = t.halted := rfl
@[simp] theorem Team.mapFresh_fl (t : Team) (g n : Nat) : (t.mapFresh g n).fl = t.fl := rfl
@[simp] theorem Team.mapFresh_flume (t : Team) (g n : Nat) : (t.mapFresh g n).flume = t.flume := rfl
@[simp] theorem Team.mapFresh_sluice (t : Team) (g n : Nat) : (t.mapFresh g n).sluice = t.sluice := rfl
@[simp] theorem Team.mapFresh_memdef (t : Team) (g n : Nat) : (t.mapFresh g n).memdef = t.memdef := rfl
@[simp] theorem Team.mapFresh_bars (t : Team) (g n : Nat) : (t.mapFresh g n).bars = t.bars := rfl
@[simp] theorem Team.mapFresh_target (t : Team) (g n : Nat) : (t.mapFresh g n).target = t.target := rfl
@[simp] theorem Team.mapFresh_hintSucc (t : Team) (g n : Nat) : (t.mapFresh g n).hintSucc = t.hintSucc := rfl
@[simp] theorem Team.mapFresh_clauses (t : Team) (g n : Nat) : (t.mapFresh g n).clauses = t.clauses := rfl
@[simp] theorem Team.mapFresh_drain (t : Team) (g n : Nat) : (t.mapFresh g n).drain = t.drain := rfl
@[simp] theorem Team.mapFresh_clock0 (t : Team) (g n : Nat) : (t.mapFresh g n).clock0 = t.clock0 := rfl
@[simp] theorem Team.mapFresh_urgent (t : Team) (g n : Nat) : (t.mapFresh g n).urgent = t.urgent := rfl
@[simp] theorem Team.mapFresh_saveAt (t : Team) (g n : Nat) : (t.mapFresh g n).saveAt = t.saveAt := rfl
@[simp] theorem Team.mapFresh_saved (t : Team) (g n : Nat) : (t.mapFresh g n).saved = t.saved := rfl

@[simp] theorem Group.setPath_role (g : Group) (p : Nat) (x : Path) : (g.setPath p x).role = g.role := rfl
@[simp] theorem Group.setPath_slice (g : Group) (p : Nat) (x : Path) : (g.setPath p x).slice = g.slice := rfl
@[simp] theorem Group.setPath_age (g : Group) (p : Nat) (x : Path) : (g.setPath p x).age = g.age := rfl
@[simp] theorem Group.setPath_ended (g : Group) (p : Nat) (x : Path) : (g.setPath p x).ended = g.ended := rfl
@[simp] theorem Group.setPath_s (g : Group) (p : Nat) (x : Path) : (g.setPath p x).s = g.s := rfl
@[simp] theorem Group.setPath_p (g : Group) (p : Nat) (x : Path) : (g.setPath p x).p = g.p := rfl
@[simp] theorem Group.setPath_map (g : Group) (p : Nat) (x : Path) : (g.setPath p x).map = g.map := rfl
@[simp] theorem Group.setPath_fflags (g : Group) (p : Nat) (x : Path) : (g.setPath p x).fflags = g.fflags := rfl
@[simp] theorem Group.setPath_ldcnt (g : Group) (p : Nat) (x : Path) : (g.setPath p x).ldcnt = g.ldcnt := rfl
@[simp] theorem Group.setPath_stcnt (g : Group) (p : Nat) (x : Path) : (g.setPath p x).stcnt = g.stcnt := rfl
@[simp] theorem Group.setPath_cpycnt (g : Group) (p : Nat) (x : Path) : (g.setPath p x).cpycnt = g.cpycnt := rfl
@[simp] theorem Group.setPath_engcnt (g : Group) (p : Nat) (x : Path) : (g.setPath p x).engcnt = g.engcnt := rfl
@[simp] theorem Group.setPath_lastBatch (g : Group) (p : Nat) (x : Path) : (g.setPath p x).lastBatch = g.lastBatch := rfl
@[simp] theorem Group.setPath_emu (g : Group) (p : Nat) (x : Path) : (g.setPath p x).emu = g.emu := rfl
@[simp] theorem Group.setPath_eqn (g : Group) (p : Nat) (x : Path) : (g.setPath p x).eqn = g.eqn := rfl
@[simp] theorem Group.setPath_splits (g : Group) (p : Nat) (x : Path) : (g.setPath p x).splits = g.splits := rfl
@[simp] theorem Group.setPath_cur (g : Group) (p : Nat) (x : Path) : (g.setPath p x).cur = g.cur := rfl
@[simp] theorem Group.setPath_late (g : Group) (p : Nat) (x : Path) : (g.setPath p x).late = g.late := rfl
@[simp] theorem Group.setPath_park (g : Group) (p : Nat) (x : Path) : (g.setPath p x).park = g.park := rfl
@[simp] theorem Group.setPath_longPark (g : Group) (p : Nat) (x : Path) : (g.setPath p x).longPark = g.longPark := rfl
@[simp] theorem Group.setPath_service (g : Group) (p : Nat) (x : Path) : (g.setPath p x).service = g.service := rfl
@[simp] theorem Group.setPath_stop (g : Group) (p : Nat) (x : Path) : (g.setPath p x).stop = g.stop := rfl
@[simp] theorem Group.setPath_score (g : Group) (p : Nat) (x : Path) : (g.setPath p x).score = g.score := rfl
@[simp] theorem Group.setPath_busy (g : Group) (p : Nat) (x : Path) : (g.setPath p x).busy = g.busy := rfl

@[simp] theorem Path.jump_domain (p : Path) (a : Dword) : (p.jump a).domain = p.domain := rfl
@[simp] theorem Path.jump_mask (p : Path) (a : Dword) : (p.jump a).mask = p.mask := rfl
@[simp] theorem Path.jump_pstack (p : Path) (a : Dword) : (p.jump a).pstack = p.pstack := rfl
@[simp] theorem Path.jump_cstack (p : Path) (a : Dword) : (p.jump a).cstack = p.cstack := rfl
@[simp] theorem Path.jump_split (p : Path) (a : Dword) : (p.jump a).split = p.split := rfl
@[simp] theorem Path.jump_st (p : Path) (a : Dword) : (p.jump a).st = p.st := rfl
@[simp] theorem Path.jump_label (p : Path) (a : Dword) : (p.jump a).label = p.label := rfl
@[simp] theorem Path.jump_skid (p : Path) (a : Dword) : (p.jump a).skid = p.skid := rfl
@[simp] theorem Path.jump_waited (p : Path) (a : Dword) : (p.jump a).waited = p.waited := rfl
@[simp] theorem Path.jump_pass (p : Path) (a : Dword) : (p.jump a).pass = p.pass := rfl

end Sys2Proof.Machine
end

