-- ==== Sys2Proof/Laws/Reads.lean ====
section
/-! SUPPORT. The issuing agent, and the one form that changes of one team, group and path take: a change of a team that is
listed is `setTeam`, and a second one at the same place replaces it. -/

namespace Sys2Proof.Machine

/-! ## One change after another -/

@[simp] theorem setTeam_get (s : State) (t : Nat) (T : Team) : (s.setTeam t T).teams.get? t = some T := by
  simp [State.setTeam]

@[simp] theorem setTeam_get_other (s : State) (t n : Nat) (T : Team) (h : n ≠ t) :
    (s.setTeam t T).teams.get? n = s.teams.get? n := by
  simp [State.setTeam, h]

@[simp] theorem setTeam_setTeam (s : State) (t : Nat) (T U : Team) : (s.setTeam t T).setTeam t U = s.setTeam t U := by
  simp [State.setTeam]

@[simp] theorem setGroup_get (T : Team) (g : Nat) (G : Group) : (T.setGroup g G).groups.get? g = some G := by
  simp [Team.setGroup]

@[simp] theorem setGroup_get_other (T : Team) (g n : Nat) (G : Group) (h : n ≠ g) :
    (T.setGroup g G).groups.get? n = T.groups.get? n := by
  simp [Team.setGroup, h]

@[simp] theorem setGroup_setGroup (T : Team) (g : Nat) (G H : Group) : (T.setGroup g G).setGroup g H = T.setGroup g H := by
  simp [Team.setGroup]

@[simp] theorem setPath_get (G : Group) (p : Nat) (P : Path) : (G.setPath p P).paths.get? p = some P := by
  simp [Group.setPath]

@[simp] theorem setPath_get_other (G : Group) (p n : Nat) (P : Path) (h : n ≠ p) :
    (G.setPath p P).paths.get? n = G.paths.get? n := by
  simp [Group.setPath, h]

@[simp] theorem setPath_setPath (G : Group) (p : Nat) (P Q : Path) : (G.setPath p P).setPath p Q = G.setPath p Q := by
  simp [Group.setPath]

/-! ## Changes of what is listed -/

theorem Tbl.upd_of {α : Type} {t : Tbl α} {k : Nat} {v : α} (h : t.get? k = some v) (f : α → α) :
    t.upd k f = t.put k (f v) := by
  unfold Tbl.upd; rw [h]

theorem updTeam_of {s : State} {t : Nat} {T : Team} (h : s.teams.get? t = some T) (f : Team → Team) :
    updTeam s t f = s.setTeam t (f T) := by
  unfold updTeam State.setTeam; rw [Tbl.upd_of h]

theorem updGroup_of {s : State} {t g : Nat} {T : Team} {G : Group} (h : s.teams.get? t = some T)
    (hg : T.groups.get? g = some G) (f : Group → Group) :
    updGroup s t g f = s.setTeam t (T.setGroup g (f G)) := by
  unfold updGroup State.setTeam Team.setGroup; rw [Tbl.upd_of h, Tbl.upd_of hg]

theorem updPath_of {s : State} {t g p : Nat} {T : Team} {G : Group} {P : Path} (h : s.teams.get? t = some T)
    (hg : T.groups.get? g = some G) (hp : G.paths.get? p = some P) (f : Path → Path) :
    updPath s t g p f = s.setTeam t (T.setGroup g (G.setPath p (f P))) := by
  unfold updPath; rw [updGroup_of h hg]; unfold Group.setPath; rw [Tbl.upd_of hp]

theorem updSeq_of {s : State} {t : Nat} {b : Bool} {T : Team} (h : s.teams.get? t = some T) (f : Seq → Seq) :
    updSeq s t b f = s.setTeam t (T.setSeq b (f (T.seqOf b))) := by
  unfold updSeq; rw [updTeam_of h]

theorem countClause_of {s : State} {t : Nat} {T : Team} (h : s.teams.get? t = some T) :
    countClause s t = s.setTeam t { T with clauses := T.clauses + 1 } := by
  unfold countClause; rw [updTeam_of h]

@[simp] theorem seqOf_setSeq (T : Team) (b : Bool) (q : Seq) : (T.setSeq b q).seqOf b = q := by
  cases b <;> rfl

@[simp] theorem setSeq_setSeq (T : Team) (b : Bool) (q r : Seq) : (T.setSeq b q).setSeq b r = T.setSeq b r := by
  cases b <;> rfl

/-! ## The issuing agent -/

/-- An issuing group's team, group and path are those the state lists. -/
theorem issuer_group {s : State} {e : Env} (h : issuer s = .group e) :
    s.teams.get? e.t = some e.team ∧ e.team.groups.get? e.g = some e.grp ∧ e.grp.paths.get? e.p = some e.path ∧
      e.p = e.grp.cur := by
  revert h; fun_cases issuer s <;> rintro ⟨⟩; simp_all

/-- An issuing sequencer is its team's. -/
theorem issuer_seq {s : State} {e : SeqEnv} (h : issuer s = .seq e) :
    s.teams.get? e.t = some e.team ∧ e.seq = e.team.seqOf e.flume := by
  revert h; fun_cases issuer s <;> rintro ⟨⟩ <;> simp_all [Team.seqOf]

theorem classOf_lt (h : Word) : classOf h < 8 := by
  unfold classOf bits
  exact Nat.mod_lt _ (by decide)

/-- A path in a clause of a class below 8 is in a clause. -/
theorem clause_of_cls {p : Path} {k : Nat} (h : p.cls = k) (hk : k < 8) : p.clause.isNone = false := by
  unfold Path.cls at h
  cases hc : p.clause with
  | none => rw [hc] at h; simp at h; omega
  | some c => rfl

theorem clause_of_seq_cls {q : Seq} {k : Nat} (h : q.cls = k) (hk : k < 8) : q.clause.isNone = false := by
  unfold Seq.cls at h
  cases hc : q.clause with
  | none => rw [hc] at h; simp at h; omega
  | some c => rfl

/-- A word of a group, in a clause of its class, runs its meaning. -/
theorem runX_group {place : Place} {w : Bool} {s : State} {f : Env → Res} {q : SeqEnv → Res} {e : Env} {k : Nat}
    (h : issuer s = .group e) (hc : e.path.cls = k) (hk : k < 8) (hp : place.group k = true) :
    runX place w s f q = finish w e s (f e) := by
  unfold runX
  rw [h]
  simp only [clause_of_cls hc hk, hc, hp, Bool.false_eq_true, if_false, if_true]

/-- A word of a sequencer, in a clause of its class, runs its meaning. -/
theorem runX_seq {place : Place} {w : Bool} {s : State} {f : Env → Res} {q : SeqEnv → Res} {e : SeqEnv} {k : Nat}
    (h : issuer s = .seq e) (hc : e.seq.cls = k) (hk : k < 8) (hp : place.seq e.flume k = true) :
    runX place w s f q = finishSeq e s (q e) := by
  unfold runX
  rw [h]
  simp only [clause_of_seq_cls hc hk, hc, hp, Bool.false_eq_true, if_false, if_true]

/-- A word that only groups issue. -/
theorem runG_group {place : Place} {w : Bool} {s : State} {f : Env → Res} {e : Env} {k : Nat}
    (h : issuer s = .group e) (hc : e.path.cls = k) (hk : k < 8) (hp : place.group k = true) :
    runG place w s f = finish w e s (f e) := runX_group h hc hk hp

/-! ## Scalars -/

/-- A mask word read after it has been written: the value within the domain (R35). -/
theorem maskWord_write_same (m dom : LaneMask) (r : Nat) (v : Word) (h1 : 61 ≤ r) (h2 : r < 64) :
    maskWord (writeMaskWord m dom r v) r = v &&& maskWord dom r := by
  unfold maskWord writeMaskWord
  apply BitVec.eq_of_getLsbD_eq
  intro i hi
  have h3 : 32 * (r - 61) + i < 96 := by omega
  simp only [BitVec.getLsbD_extractLsb', BitVec.getLsbD_or, BitVec.getLsbD_and, BitVec.getLsbD_not, BitVec.getLsbD_ofNat, hi,
    h3, decide_true, Bool.true_and]
  rw [Nat.testBit_mul_two_pow, Nat.testBit_mul_two_pow, Nat.testBit_two_pow_sub_one]
  simp [hi, BitVec.getLsbD]

/-- Another mask word stays as it was. -/
theorem maskWord_write_other (m dom : LaneMask) (r k : Nat) (v : Word) (h1 : 61 ≤ r) (h2 : r < 64) (h3 : 61 ≤ k)
    (h4 : k < 64) (hk : k ≠ r) : maskWord (writeMaskWord m dom r v) k = maskWord m k := by
  unfold maskWord writeMaskWord
  apply BitVec.eq_of_getLsbD_eq
  intro i hi
  have h5 : 32 * (k - 61) + i < 96 := by omega
  simp only [BitVec.getLsbD_extractLsb', BitVec.getLsbD_or, BitVec.getLsbD_and, BitVec.getLsbD_not, BitVec.getLsbD_ofNat, hi,
    h5, decide_true, Bool.true_and]
  rw [Nat.testBit_mul_two_pow, Nat.testBit_mul_two_pow, Nat.testBit_two_pow_sub_one]
  by_cases hlt : 32 * (r - 61) ≤ 32 * (k - 61) + i
  · have : ¬ 32 * (k - 61) + i - 32 * (r - 61) < 32 := by omega
    have hv : v.toNat.testBit (32 * (k - 61) + i - 32 * (r - 61)) = false :=
      Nat.testBit_lt_two_pow (Nat.lt_of_lt_of_le v.isLt (Nat.pow_le_pow_right (by decide) (by omega)))
    simp [this, hv]
  · simp [hlt]

/-- Scalar writes in the one form of a change. -/
theorem writeS_of {s : State} {t g p r : Nat} {T : Team} {G : Group} {P : Path} (v : Word) (h : s.teams.get? t = some T)
    (hg : T.groups.get? g = some G) (hp : G.paths.get? p = some P) :
    writeS s t g p r v = s.setTeam t (T.setGroup g
      (if 61 ≤ r then G.setPath p { P with mask := writeMaskWord P.mask P.domain r v } else { G with s := G.s.put r v })) := by
  unfold writeS
  split
  · rw [updPath_of h hg hp]
  · rw [updGroup_of h hg]

/-! ## A word retires -/

/-- The path's word retires: only its path's place, hold, count and clause change, and the team's count of clauses. -/
theorem retire_of {s : State} {e : Env} {T : Team} {G : Group} {P : Path} (w : Bool)
    (h : s.teams.get? e.t = some T) (hg : T.groups.get? e.g = some G) (hp : G.paths.get? e.p = some P) :
    retire w e s =
      (let u := s.setTeam e.t { T.setGroup e.g (G.setPath e.p P.advance) with
        clauses := T.clauses + if (e.path.clause.map fun c => (c.words.drop 1).isEmpty).getD true then 1 else 0 }
       markSwitch w e u) := by
  have key : ∀ b : Bool, (if b then countClause (updPath s e.t e.g e.p Path.advance) e.t
      else updPath s e.t e.g e.p Path.advance) =
      s.setTeam e.t { T.setGroup e.g (G.setPath e.p P.advance) with clauses := T.clauses + if b then 1 else 0 } := by
    intro b
    rw [updPath_of h hg hp]
    cases b
    · rfl
    · simp only [if_true]
      rw [countClause_of (setTeam_get _ _ _), setTeam_setTeam]
      rfl
  unfold retire
  simp only [key]

end Sys2Proof.Machine
end

