-- ==== Sys2Proof/Tests/Slice0.lean ====
section
/-! SUPPORT. Tests: words written out from the encoding tables, ill-formed terms, single steps, and for every statement that has
hypotheses a state and operands that meet them. -/

namespace Sys2Proof.Tests

-- One theorem at a time: the kernel evaluations below would else each keep a thread waiting.
set_option Elab.async false

open Sys2Proof Sys2Proof.Machine

/-! ## Small states -/

/-- A team of one group at a word of a clause, changed here and there. -/
def at' (cls : Nat) (ft : Team → Team) (fg : Group → Group) (fp : Path → Path) : State :=
  let path := fp { freshPath with pc := 4, clause := some (clauseOf cls 0) }
  { State.reset.setTeam 0 (ft { fetchTeam with groups := [(0, fg { freshGroup 0 0 0 with paths := [(0, path)] })] }) with
    cur := some ⟨0, .group 0⟩ }
def at0 (cls : Nat) : State := at' cls id id id

/-- A team whose sequencer is at a word of a clause. -/
def seqAt' (flume : Bool) (cls : Nat) (ft : Team → Team) (fq : Seq → Seq) : State :=
  let q := fq { idleSeq with running := true, pc := 4, clause := some (clauseOf cls 0) }
  let team := if flume then { fetchTeam with flume := q } else { fetchTeam with sluice := q }
  { State.reset.setTeam 0 (ft team) with cur := some ⟨0, if flume then .flume else .sluice⟩ }
def seq0 (flume : Bool) (cls : Nat) : State := seqAt' flume cls id id

/-- The issuing group's place, and the issuing sequencer's. -/
def envIn (s : State) : Env :=
  match issuer s with
  | .group e => e
  | _ => ⟨0, fetchTeam, 0, freshGroup 0 0 0, 0, freshPath⟩
def seqIn (s : State) : SeqEnv :=
  match issuer s with
  | .seq e => e
  | _ => ⟨0, fetchTeam, true, idleSeq⟩
def agtIn (s : State) : Agt :=
  match issuer s with
  | .seq e => e.agt
  | _ => (envIn s).agt

/-- Rows of 96 lanes of one value, mapped by the group's names in order. -/
def rowOf (v : Word) : Row := { lanes := List.replicate 96 v, refcnt := 1, anchor := .group 0, charge := 0, pend := 0 }
def withRows (n : Nat) (t : Team) : Team :=
  { t with
    res := { t.res with rows := (List.range n).map fun i => (i, rowOf (BitVec.ofNat 32 i)), nextRow := n, seqCtr := n }
    groups := t.groups.mapVals fun _ g => { g with map := (List.range n).map fun i => (i, ⟨i, i⟩) } }

/-- The scalars of a group and of a sequencer. -/
def withS (l : List (Nat × Word)) (g : Group) : Group := { g with s := l }


/-! ## Words written out from the encoding tables -/

/-- `pfx` (R195). -/
theorem test_decode_pfx : decodeWord (0b0#1 ++ 0b000001#6 ++ 0b010#3 ++ 0b100#3 ++ 0b001#3 ++ 0b000#3 ++ 0b0000000000000#13) =
    .ok (.pfx (w := false) (o := 2) (s := 4) (p := 1) (c := 0)) := by rfl
/-- `sadd` (R206). -/
theorem test_decode_sadd : decodeWord (0b0#1 ++ 0b000010#6 ++ 0b0000000#7 ++ 0b000010#6 ++ 0b000100#6 ++ 0b000110#6) =
    .ok (.sadd (w := false) (d := 2) (a := 4) (b := 6)) := by rfl
/-- `saddi` (R209). -/
theorem test_decode_saddi : decodeWord (0b0#1 ++ 0b000011#6 ++ 0b0#1 ++ 0b000010#6 ++ 0b000100#6 ++ 0b000000000110#12) =
    .ok (.saddi (w := false) (d := 2) (a := 4) (i := 6)) := by rfl
/-- `smovl` (R210). -/
theorem test_decode_smovl : decodeWord (0b0#1 ++ 0b000100#6 ++ 0b000010#6 ++ 0b000#3 ++ 0b0000000000000100#16) =
    .ok (.smovl (w := false) (d := 2) (i := 4)) := by rfl
/-- `scmp.cond.i32` (R212). -/
theorem test_decode_scmpI32 : decodeWord (0b0#1 ++ 0b000101#6 ++ 0b0000#4 ++ 0b010#3 ++ 0b000100#6 ++ 0b000110#6 ++ 0b001000#6) =
    .ok (.scmpI32 (w := false) (c := 2) (d := 4) (a := 6) (b := 8)) := by rfl
/-- `sshli` (R214). -/
theorem test_decode_sshli : decodeWord (0b0#1 ++ 0b000111#6 ++ 0b0000000#7 ++ 0b000010#6 ++ 0b000100#6 ++ 0b000110#6) =
    .ok (.sshli (w := false) (d := 2) (a := 4) (n := 6)) := by rfl
/-- `br` (R218). -/
theorem test_decode_br : decodeWord (0b0#1 ++ 0b001000#6 ++ 0b00000#5 ++ 0b00000000000000000010#20) =
    .ok (.br (w := false) (o := 2)) := by rfl
/-- `brv` (R39). -/
theorem test_decode_brv : decodeWord (0b0#1 ++ 0b001001#6 ++ 0b00#2 ++ 0b010#3 ++ 0b00000000000000000100#20) =
    .ok (.brv (w := false) (p := 2) (o := 4)) := by rfl
/-- `call` (R221). -/
theorem test_decode_call : decodeWord (0b0#1 ++ 0b001010#6 ++ 0b00000#5 ++ 0b00000000000000000010#20) =
    .ok (.call (w := false) (o := 2)) := by rfl
/-- `rejoin` (R40). -/
theorem test_decode_rejoin : decodeWord (0b0#1 ++ 0b001011#6 ++ 0b00000#5 ++ 0b00000000000000000010#20) =
    .ok (.rejoin (w := false) (o := 2)) := by rfl
/-- `ppush` (R42). -/
theorem test_decode_ppush : decodeWord (0b0#1 ++ 0b001100#6 ++ 0b0000000000000#13 ++ 0b000010#6 ++ 0b000000#6) =
    .ok (.ppush (w := false) (a := 2)) := by rfl
/-- `pand` (R224). -/
theorem test_decode_pand : decodeWord (0b0#1 ++ 0b001101#6 ++ 0b0000000#7 ++ 0b000010#6 ++ 0b000100#6 ++ 0b000110#6) =
    .ok (.pand (w := false) (d := 2) (a := 4) (b := 6)) := by rfl
/-- `bar.sync` (R225). -/
theorem test_decode_barSync : decodeWord (0b0#1 ++ 0b001110#6 ++ 0b0000000000000000000#19 ++ 0b000010#6) =
    .ok (.barSync (w := false) (i := 2)) := by rfl
/-- `exit` (R231). -/
theorem test_decode_exit : decodeWord (0b0#1 ++ 0b001111#6 ++ 0b0000000000000000000000000#25) =
    .ok (.exit (w := false)) := by rfl
/-- `nmove` (R242). -/
theorem test_decode_nmove : decodeWord (0b0#1 ++ 0b010000#6 ++ 0b0000#4 ++ 0b0000010#7 ++ 0b0000100#7 ++ 0b0000000#7) =
    .ok (.nmove (w := false) (d := 2) (a := 4)) := by rfl
/-- `ngive` (R244). -/
theorem test_decode_ngive : decodeWord (0b0#1 ++ 0b010001#6 ++ 0b0000#4 ++ 0b0000010#7 ++ 0b0000100#7 ++ 0b0000110#7) =
    .ok (.ngive (w := false) (s := 2) (a := 4) (l := 6)) := by rfl
/-- `nquery` (R247). -/
theorem test_decode_nquery : decodeWord (0b0#1 ++ 0b010010#6 ++ 0b0000#4 ++ 0b0000010#7 ++ 0b0000100#7 ++ 0b0000000#7) =
    .ok (.nquery (w := false) (d := 2) (a := 4)) := by rfl
/-- `vadd.i32` (R251). -/
theorem test_decode_vaddI32 : decodeWord (0b0#1 ++ 0b010100#6 ++ 0b0000#4 ++ 0b0000010#7 ++ 0b0000100#7 ++ 0b0000110#7) =
    .ok (.vaddI32 (w := false) (d := 2) (a := 4) (b := 6)) := by rfl
/-- `vand` (R253). -/
theorem test_decode_vand : decodeWord (0b0#1 ++ 0b010101#6 ++ 0b0000#4 ++ 0b0000010#7 ++ 0b0000100#7 ++ 0b0000110#7) =
    .ok (.vand (w := false) (d := 2) (a := 4) (b := 6)) := by rfl
/-- `vaddi.i32` (R254). -/
theorem test_decode_vaddiI32 : decodeWord (0b0#1 ++ 0b010110#6 ++ 0b0000#4 ++ 0b0000010#7 ++ 0b0000100#7 ++ 0b0000110#7) =
    .ok (.vaddiI32 (w := false) (d := 2) (a := 4) (i := 6)) := by rfl
/-- `vmovi` (R255). -/
theorem test_decode_vmovi : decodeWord (0b0#1 ++ 0b010111#6 ++ 0b00#2 ++ 0b0000010#7 ++ 0b0000000000000100#16) =
    .ok (.vmovi (w := false) (d := 2) (i := 4)) := by rfl
/-- `vcmp.cond.i32` (R256). -/
theorem test_decode_vcmpI32 : decodeWord (0b0#1 ++ 0b011000#6 ++ 0b00000#5 ++ 0b010#3 ++ 0b100#3 ++ 0b0000110#7 ++ 0b0001000#7) =
    .ok (.vcmpI32 (w := false) (c := 2) (p := 4) (a := 6) (b := 8)) := by rfl
/-- `vshfl` (R258). -/
theorem test_decode_vshfl : decodeWord (0b0#1 ++ 0b011001#6 ++ 0b0000#4 ++ 0b0000010#7 ++ 0b0000100#7 ++ 0b0000110#7) =
    .ok (.vshfl (w := false) (d := 2) (a := 4) (b := 6)) := by rfl
/-- `vred.add.i32` (R261). -/
theorem test_decode_vredAddI32 : decodeWord (0b0#1 ++ 0b011010#6 ++ 0b0000#4 ++ 0b0000010#7 ++ 0b0000100#7 ++ 0b0000000#7) =
    .ok (.vredAddI32 (w := false) (d := 2) (a := 4)) := by rfl
/-- `vdot4.i8` (R263). -/
theorem test_decode_vdot4I8 : decodeWord (0b0#1 ++ 0b011011#6 ++ 0b0000#4 ++ 0b0000010#7 ++ 0b0000100#7 ++ 0b0000110#7) =
    .ok (.vdot4I8 (w := false) (d := 2) (a := 4) (b := 6)) := by rfl
/-- `vfadd.f32` (R268). -/
theorem test_decode_vfaddF32 : decodeWord (0b0#1 ++ 0b011100#6 ++ 0b00#2 ++ 0b10#2 ++ 0b0000100#7 ++ 0b0000110#7 ++ 0b0001000#7) =
    .ok (.vfaddF32 (w := false) (r := 2) (d := 4) (a := 6) (b := 8)) := by rfl
/-- `vffma.f32` (R269). -/
theorem test_decode_vffmaF32 : decodeWord (0b0#1 ++ 0b011101#6 ++ 0b00#2 ++ 0b10#2 ++ 0b0000100#7 ++ 0b0000110#7 ++ 0b0001000#7) =
    .ok (.vffmaF32 (w := false) (r := 2) (d := 4) (a := 6) (b := 8)) := by rfl
/-- `vfadd.bf16x2` (R270). -/
theorem test_decode_vfaddPacked : decodeWord (0b0#1 ++ 0b011110#6 ++ 0b1#1 ++ 0b000#3 ++ 0b0000100#7 ++ 0b0000110#7 ++ 0b0001000#7) =
    .ok (.vfaddPacked (w := false) (t := true) (d := 4) (a := 6) (b := 8)) := by rfl
/-- `vcvt` (R272). -/
theorem test_decode_vcvt : decodeWord (0b0#1 ++ 0b011111#6 ++ 0b0000#4 ++ 0b0000100#7 ++ 0b0000110#7 ++ 0b0100#4 ++ 0b10#2 ++ 0b0#1) =
    .ok (.vcvt (w := false) (s := 0) (d := 4) (a := 6) (t := 4) (r := 2) (n := false)) := by rfl
/-- `vquant` (R275). -/
theorem test_decode_vquant : decodeWord (0b0#1 ++ 0b100000#6 ++ 0b0#1 ++ 0b010#3 ++ 0b0000100#7 ++ 0b0000110#7 ++ 0b0001000#7) =
    .ok (.vquant (w := false) (f := 2) (d := 4) (a := 6) (b := 8)) := by rfl
/-- `vrcp.f32` (R277). -/
theorem test_decode_vrcpF32 : decodeWord (0b0#1 ++ 0b100001#6 ++ 0b00#2 ++ 0b10#2 ++ 0b0000100#7 ++ 0b0000110#7 ++ 0b0000000#7) =
    .ok (.vrcpF32 (w := false) (r := 2) (d := 4) (a := 6)) := by rfl
/-- `vfcmp.cond.f32` (R278). -/
theorem test_decode_vfcmpF32 : decodeWord (0b0#1 ++ 0b100010#6 ++ 0b00000#5 ++ 0b010#3 ++ 0b100#3 ++ 0b0000110#7 ++ 0b0001000#7) =
    .ok (.vfcmpF32 (w := false) (c := 2) (p := 4) (a := 6) (b := 8)) := by rfl
/-- `vfred.add.f32` (R144). -/
theorem test_decode_vfredAddF32 : decodeWord (0b0#1 ++ 0b100011#6 ++ 0b00#2 ++ 0b10#2 ++ 0b0000100#7 ++ 0b0000110#7 ++ 0b0000000#7) =
    .ok (.vfredAddF32 (w := false) (r := 2) (d := 4) (a := 6)) := by rfl
/-- `vld` (R287). -/
theorem test_decode_vld : decodeWord (0b0#1 ++ 0b100100#6 ++ 0b0010#4 ++ 0b0000100#7 ++ 0b0000110#7 ++ 0b001000#6 ++ 0b1#1) =
    .ok (.vld (w := false) (t := 2) (d := 4) (o := 6) (b := 8) (s := true)) := by rfl
/-- `vst` (R287). -/
theorem test_decode_vst : decodeWord (0b0#1 ++ 0b100101#6 ++ 0b0010#4 ++ 0b0000100#7 ++ 0b0000110#7 ++ 0b001000#6 ++ 0b1#1) =
    .ok (.vst (w := false) (t := 2) (d := 4) (o := 6) (b := 8) (s := true)) := by rfl
/-- `vatom` (R291). -/
theorem test_decode_vatom : decodeWord (0b0#1 ++ 0b100110#6 ++ 0b0010#4 ++ 0b0000100#7 ++ 0b0000110#7 ++ 0b001000#6 ++ 0b1#1) =
    .ok (.vatom (w := false) (p := 2) (d := 4) (o := 6) (b := 8) (s := true)) := by rfl
/-- `fatom` (R291). -/
theorem test_decode_fatom : decodeWord (0b0#1 ++ 0b100111#6 ++ 0b0010#4 ++ 0b0000100#7 ++ 0b0000110#7 ++ 0b001000#6 ++ 0b1#1) =
    .ok (.fatom (w := false) (p := 2) (d := 4) (o := 6) (b := 8) (s := true)) := by rfl
/-- `vld.sp` (R288). -/
theorem test_decode_vldSp : decodeWord (0b0#1 ++ 0b101001#6 ++ 0b00#2 ++ 0b10#2 ++ 0b0000100#7 ++ 0b0000110#7 ++ 0b001000#6 ++ 0b1#1) =
    .ok (.vldSp (w := false) (z := 2) (d := 4) (o := 6) (b := 8) (s := true)) := by rfl
/-- `vcache.wb` (R295). -/
theorem test_decode_vcacheWb : decodeWord (0b0#1 ++ 0b101010#6 ++ 0b00000000000#11 ++ 0b0000010#7 ++ 0b000100#6 ++ 0b1#1) =
    .ok (.vcacheWb (w := false) (o := 2) (b := 4) (s := true)) := by rfl
/-- `sld` (R289). -/
theorem test_decode_sld : decodeWord (0b0#1 ++ 0b000110#6 ++ 0b0#1 ++ 0b000010#6 ++ 0b000100#6 ++ 0b010#3 ++ 0b000001000#9) =
    .ok (.sld (w := false) (d := 2) (a := 4) (t := 2) (f := 8)) := by rfl
/-- `satom` (R292). -/
theorem test_decode_satom : decodeWord (0b0#1 ++ 0b101011#6 ++ 0b000#3 ++ 0b0010#4 ++ 0b000100#6 ++ 0b000110#6 ++ 0b001000#6) =
    .ok (.satom (w := false) (p := 2) (d := 4) (a := 6) (b := 8)) := by rfl
/-- `fence` (R294). -/
theorem test_decode_fence : decodeWord (0b0#1 ++ 0b101000#6 ++ 0b0000000000000#13 ++ 0b000010#6 ++ 0b000100#6) =
    .ok (.fence (w := false) (o := 2) (e := 4)) := by rfl
/-- `cpy.ld` (R299). -/
theorem test_decode_cpyLd : decodeWord (0b0#1 ++ 0b101100#6 ++ 0b00000#5 ++ 0b00000010#8 ++ 0b000100#6 ++ 0b110#3 ++ 0b000#3) =
    .ok (.cpyLd (w := false) (t := 2) (a := 4) (p := 6)) := by rfl
/-- `cpy.gth` (R299). -/
theorem test_decode_cpyGth : decodeWord (0b0#1 ++ 0b110001#6 ++ 0b00000#5 ++ 0b00000010#8 ++ 0b000100#6 ++ 0b110#3 ++ 0b000#3) =
    .ok (.cpyGth (w := false) (t := 2) (a := 4) (p := 6)) := by rfl
/-- `cbat` (R94). -/
theorem test_decode_cbat : decodeWord (0b0#1 ++ 0b101101#6 ++ 0b00000#5 ++ 0b1#1 ++ 0b0000000000000#13 ++ 0b000100#6) =
    .ok (.cbat (w := false) (e := true) (d := 4)) := by rfl
/-- `tbinit` (R303). -/
theorem test_decode_tbinit : decodeWord (0b0#1 ++ 0b101110#6 ++ 0b00000#5 ++ 0b000010#6 ++ 0b000100#6 ++ 0b00000000#8) =
    .ok (.tbinit (w := false) (a := 2) (b := 4)) := by rfl
/-- `sltake` (R304). -/
theorem test_decode_sltake : decodeWord (0b0#1 ++ 0b101111#6 ++ 0b00000#5 ++ 0b000010#6 ++ 0b00000000#8 ++ 0b000100#6) =
    .ok (.sltake (w := false) (a := 2) (i := 4)) := by rfl
/-- `qpush` (R306). -/
theorem test_decode_qpush : decodeWord (0b0#1 ++ 0b110000#6 ++ 0b1#1 ++ 0b1#1 ++ 0b000#3 ++ 0b000110#6 ++ 0b000000#6 ++ 0b00001000#8) =
    .ok (.qpush (w := false) (g := true) (r := true) (a := 6) (q := 8)) := by rfl
/-- `vmma` (R159). -/
theorem test_decode_vmma : decodeWord (0b0#1 ++ 0b110010#6 ++ 0b0010#4 ++ 0b0000100#7 ++ 0b0000110#7 ++ 0b0001000#7) =
    .ok (.vmma (w := false) (f := 2) (h := 4) (a := 6) (b := 8)) := by rfl
/-- `fmm` (R317). -/
theorem test_decode_fmm : decodeWord (0b0#1 ++ 0b110011#6 ++ 0b00000#5 ++ 0b0000010#7 ++ 0b000100#6 ++ 0b000000#6 ++ 0b1#1) =
    .ok (.fmm (w := false) (h := 2) (a := 4) (z := true)) := by rfl
/-- `fpoly` (R169). -/
theorem test_decode_fpoly : decodeWord (0b0#1 ++ 0b110100#6 ++ 0b00000#5 ++ 0b0000010#7 ++ 0b000100#6 ++ 0b0000000#7) =
    .ok (.fpoly (w := false) (h := 2) (a := 4)) := by rfl
/-- `ftmask` (R167). -/
theorem test_decode_ftmask : decodeWord (0b0#1 ++ 0b110101#6 ++ 0b00000#5 ++ 0b0000010#7 ++ 0b000100#6 ++ 0b0000000#7) =
    .ok (.ftmask (w := false) (h := 2) (a := 4)) := by rfl
/-- `facc.ld` (R321). -/
theorem test_decode_faccLd : decodeWord (0b0#1 ++ 0b110110#6 ++ 0b00000#5 ++ 0b0000010#7 ++ 0b000100#6 ++ 0b0000000#7) =
    .ok (.faccLd (w := false) (h := 2) (a := 4)) := by rfl
/-- `fcset` (R322). -/
theorem test_decode_fcset : decodeWord (0b0#1 ++ 0b110111#6 ++ 0b00000#5 ++ 0b0010#4 ++ 0b000100#6 ++ 0b0000000000#10) =
    .ok (.fcset (w := false) (n := 2) (a := 4)) := by rfl

/-! ## Ill-formed terms -/

/-- Ill-formed terms, one for each check of `Instr.check`, in its order (part 1): each is refused for its reason. -/
noncomputable def illFormed1 : List (Instr × IllForm) :=
  [(.pfx false 7 5 2 5, .prefixCode), (.pfx false 4 6 0 5, .prefixCode), (.pfx false 0 2 6 3, .prefixCode),
   (.pfx true 1 5 3 6, .prefixCode), (.smulwI32 true 3 17 3, .oddPair), (.smulwN32 false 9 30 7, .oddPair),
   (.saddB64 true 3 36 30, .oddPair), (.saddB64 false 0 1 4, .oddPair), (.saddB64 false 14 0 23, .oddPair),
   (.ssubB64 true 7 46 0, .oddPair), (.ssubB64 false 2 35 35, .oddPair), (.ssubB64 false 58 8 9, .oddPair),
   (.smulB64 false 3 8 57, .oddPair), (.smulB64 false 2 5 4, .oddPair), (.smulB64 false 42 48 7, .oddPair),
   (.saddwI32 false 7 5 6, .oddPair), (.saddwI32 false 58 3 42, .oddPair), (.saddwN32 false 9 34 4, .oddPair),
   (.saddwN32 false 4 1 3, .oddPair), (.sshlB64 false 61 29 1, .oddPair), (.sshlB64 false 0 5 44, .oddPair),
   (.sshrB64 true 3 20 26, .oddPair), (.sshrB64 true 6 11 4, .oddPair), (.ssraB64 false 5 14 16, .oddPair),
   (.ssraB64 false 34 13 37, .oddPair), (.sandB64 true 35 5 20, .oddPair), (.sandB64 true 12 7 7, .oddPair),
   (.sandB64 true 52 44 59, .oddPair), (.sorB64 true 5 38 12, .oddPair), (.sorB64 true 12 5 50, .oddPair),
   (.sorB64 true 0 6 5, .oddPair), (.sxorB64 true 47 7 3, .oddPair), (.sxorB64 true 0 3 1, .oddPair),
   (.sxorB64 false 56 4 3, .oddPair), (.saddiB64 false 33 8 678, .oddPair), (.saddiB64 false 6 21 1759, .oddPair),
   (.scmpI32 false 6 6 2 1, .unallocated), (.scmpN32 true 6 1 7 4, .unallocated), (.scmpB64 true 6 3 0 6, .unallocated),
   (.scmpB64 false 0 1 7 17, .oddPair), (.scmpB64 true 2 17 0 39, .oddPair), (.sselB64 false 1 5 7, .oddPair)]

theorem test_illformed_1 : (illFormed1.all fun x => x.1.check == some x.2) = true := by decide

/-- Ill-formed terms, one for each check of `Instr.check`, in its order (part 2): each is refused for its reason. -/
noncomputable def illFormed2 : List (Instr × IllForm) :=
  [(.sselB64 false 2 63 6, .oddPair), (.sselB64 true 8 6 27, .oddPair), (.sshli true 1 41 56, .outOfRange),
   (.sshri false 61 41 36, .outOfRange), (.ssrai true 0 3 56, .outOfRange), (.sshliB64 false 3 28 15, .oddPair),
   (.sshliB64 true 2 1 4, .oddPair), (.sshriB64 false 53 5 30, .oddPair), (.sshriB64 false 2 3 35, .oddPair),
   (.ssraiB64 false 5 1 17, .oddPair), (.ssraiB64 false 20 7 2, .oddPair), (.spopcB64 true 0 3, .oddPair),
   (.sclzB64 true 40 7, .oddPair), (.sctzB64 false 1 27, .oddPair), (.jr true 39, .oddPair),
   (.jrCall true 1, .oddPair), (.ppush true 52, .outOfRange), (.ppushN true 44, .outOfRange),
   (.pand false 46 28 0, .outOfRange), (.pand true 1 37 7, .outOfRange), (.pand true 2 1 61, .outOfRange),
   (.por false 12 10 40, .outOfRange), (.por false 6 29 4, .outOfRange), (.por false 3 3 22, .outOfRange),
   (.pxor true 62 4 5, .outOfRange), (.pxor true 0 43 6, .outOfRange), (.pxor false 2 7 49, .outOfRange),
   (.pandn false 44 48 5, .outOfRange), (.pandn false 4 34 54, .outOfRange), (.pandn false 4 0 10, .outOfRange),
   (.pnot false 14 36, .outOfRange), (.pnot false 0 58, .outOfRange), (.pelect true 23, .outOfRange),
   (.pld false 27 54, .outOfRange), (.pld true 1 63, .outOfRange), (.pst false 63 6, .outOfRange),
   (.pst false 25 35, .outOfRange), (.pcnt true 2 41, .outOfRange), (.barSync false 48, .outOfRange),
   (.rdsr false 1 0, .outOfRange), (.rdsr true 4 40, .outOfRange), (.rdsrPair false 2 6, .outOfRange)]

theorem test_illformed_2 : (illFormed2.all fun x => x.1.check == some x.2) = true := by decide

/-- Ill-formed terms, one for each check of `Instr.check`, in its order (part 3): each is refused for its reason. -/
noncomputable def illFormed3 : List (Instr × IllForm) :=
  [(.rdsrPair false 4 36, .outOfRange), (.rdsrPair true 5 12, .oddPair), (.wrsr true 1 2, .outOfRange),
   (.efork false 3 5, .oddPair), (.efork false 2 1, .oddPair), (.migrReq true 58, .outOfRange),
   (.rdsrVector false 121 28, .outOfRange), (.rdctx true 8 39, .outOfRange), (.rdctx false 7 1, .oddPair),
   (.ngive true 98 1 106, .outOfRange), (.ngive true 2 0 72, .outOfRange), (.ntake false 5 106 0, .outOfRange),
   (.ntake false 5 2 114, .outOfRange), (.nperm true 7 0 60, .outOfRange), (.nperm false 44 111 0, .outOfRange),
   (.nperm true 5 6 2, .outOfRange), (.nquery false 97 6, .outOfRange), (.vaddB64 true 35 4 3, .oddPair),
   (.vaddB64 false 2 5 1, .oddPair), (.vaddB64 true 4 6 103, .oddPair), (.vsubB64 true 77 2 7, .oddPair),
   (.vsubB64 false 126 1 6, .oddPair), (.vsubB64 true 4 2 3, .oddPair), (.vshli false 75 4 71, .outOfRange),
   (.vshri true 3 7 114, .outOfRange), (.vsrai false 118 3 119, .outOfRange), (.vcmpI32 true 7 7 1 5, .outOfRange),
   (.vcmpN32 false 6 1 7 3, .outOfRange), (.vbcast true 82 36 99, .outOfRange), (.vbcastS false 23 110, .outOfRange),
   (.vregroupRecv false 4 6 41, .outOfRange), (.vregroupRecv true 58 5 7, .outOfRange), (.vregroupSend false 1 70 68, .outOfRange),
   (.vregroupSend true 6 0 0, .outOfRange), (.vvoteAny true 92 5, .outOfRange), (.vvoteAny false 22 73, .outOfRange),
   (.vvoteAll false 105 1, .outOfRange), (.vvoteAll false 26 43, .outOfRange), (.vvoteFirst false 70 0, .outOfRange),
   (.vvoteFirst false 5 28, .outOfRange), (.vballot true 94 34, .outOfRange), (.vballot false 6 12, .outOfRange)]

theorem test_illformed_3 : (illFormed3.all fun x => x.1.check == some x.2) = true := by decide

/-- Ill-formed terms, one for each check of `Instr.check`, in its order (part 4): each is refused for its reason. -/
noncomputable def illFormed4 : List (Instr × IllForm) :=
  [(.vfaddF64 true 1 7 16, .oddPair), (.vfaddF64 false 94 65 7, .oddPair), (.vfaddF64 true 0 54 5, .oddPair),
   (.vfsubF64 false 3 0 22, .oddPair), (.vfsubF64 false 0 1 89, .oddPair), (.vfsubF64 true 2 2 5, .oddPair),
   (.vfmulF64 true 3 113 0, .oddPair), (.vfmulF64 true 4 7 115, .oddPair), (.vfmulF64 true 96 0 1, .oddPair),
   (.vffmaF64 false 1 41 22 63, .oddPair), (.vffmaF64 false 1 4 7 55, .oddPair), (.vffmaF64 true 0 96 6 3, .oddPair),
   (.vcvt false 14 97 103 3 2 true, .unallocated), (.vcvt true 1 37 12 13 2 true, .outOfRange), (.vcvt true 7 0 2 0 0 true, .outOfRange),
   (.vcvt false 1 63 39 2 2 true, .oddPair), (.vcvt false 3 57 122 1 1 true, .oddPair), (.vquant true 7 116 106 0, .unallocated),
   (.vdequant true 7 5 0 1, .unallocated), (.vfcmpF32 false 7 6 5 86, .outOfRange), (.vfcmpF64 false 7 2 2 4, .outOfRange),
   (.vfcmpF64 false 5 7 7 9, .oddPair), (.vfcmpF64 true 5 0 68 5, .oddPair), (.vfclassF32 true 2 3 121, .outOfRange),
   (.vfclassF64 false 0 32 121, .outOfRange), (.vfclassF64 false 5 5 59, .oddPair), (.vfminF64 false 1 1 7, .oddPair),
   (.vfminF64 true 52 43 27, .oddPair), (.vfminF64 false 4 82 47, .oddPair), (.vfmaxF64 false 63 7 6, .oddPair),
   (.vfmaxF64 true 96 7 0, .oddPair), (.vfmaxF64 true 4 0 87, .oddPair), (.vfabsF64 false 117 5, .oddPair),
   (.vfabsF64 false 2 71, .oddPair), (.vfnegF64 false 7 41, .oddPair), (.vfnegF64 false 82 113, .oddPair),
   (.vfcsgnF64 true 63 0 1, .oddPair), (.vfcsgnF64 false 4 123 5, .oddPair), (.vfcsgnF64 true 76 70 57, .oddPair),
   (.vfredAddF64 true 7 2, .oddPair), (.vfredAddF64 true 88 3, .oddPair), (.vfredMaxF64 true 3 5, .oddPair)]

theorem test_illformed_4 : (illFormed4.all fun x => x.1.check == some x.2) = true := by decide

/-- Ill-formed terms, one for each check of `Instr.check`, in its order (part 5): each is refused for its reason. -/
noncomputable def illFormed5 : List (Instr × IllForm) :=
  [(.vfredMaxF64 true 42 1, .oddPair), (.vfredMinF64 false 65 3, .oddPair), (.vfredMinF64 true 2 47, .oddPair),
   (.vfscanAddF64 false 29 2, .oddPair), (.vfscanAddF64 false 4 93, .oddPair), (.vld true 5 6 5 6 true, .unallocated),
   (.vld true 1 46 95 25 false, .oddPair), (.vld true 3 7 3 6 true, .oddPair), (.vst true 5 4 5 15 false, .unallocated),
   (.vst false 3 41 65 49 true, .oddPair), (.vst false 3 11 7 4 true, .oddPair), (.vatom false 15 7 3 1 true, .unallocated),
   (.vatom false 1 6 59 7 false, .oddPair), (.vatom false 10 107 30 62 true, .oddPair), (.fatom false 15 1 86 4 true, .unallocated),
   (.fatom false 6 111 68 5 false, .oddPair), (.fatom false 10 5 5 20 true, .oddPair), (.vldSp true 2 3 84 3 true, .oddPair),
   (.vldSp false 3 55 7 6 false, .oddPair), (.vstSp true 3 3 86 41 true, .oddPair), (.vstSp true 3 103 3 4 true, .oddPair),
   (.vldNv false 0 6 2 1 false, .oddPair), (.vldNv false 3 1 95 6 false, .oddPair), (.vstNv true 1 104 4 53 false, .oddPair),
   (.vstNv true 3 83 7 6 false, .oddPair), (.vcacheWb false 58 19 false, .oddPair), (.vcacheWbinv true 95 5 true, .oddPair),
   (.vcachePf false 1 7 false, .oddPair), (.vcacheDemote true 5 1 false, .oddPair), (.sld true 40 2 6 94, .unallocated),
   (.sld false 0 31 2 6, .oddPair), (.sld true 25 2 3 466, .oddPair), (.sst false 1 5 4 300, .unallocated),
   (.sst false 45 3 1 0, .oddPair), (.sst false 3 26 3 425, .oddPair), (.satom false 14 4 3 6, .unallocated),
   (.satom true 3 21 3 25, .oddPair), (.satom true 11 2 4 5, .oddPair), (.satom true 10 3 40 56, .oddPair),
   (.satomNr true 15 52 18, .unallocated), (.satomNr false 6 27 6, .oddPair), (.satomNr true 10 42 7, .oddPair)]

theorem test_illformed_5 : (illFormed5.all fun x => x.1.check == some x.2) = true := by decide

/-- Ill-formed terms, one for each check of `Instr.check`, in its order (part 6): each is refused for its reason. -/
noncomputable def illFormed6 : List (Instr × IllForm) :=
  [(.fence true 0 44, .outOfRange), (.fence false 10 4, .outOfRange), (.fence false 1 58, .outOfRange),
   (.xfence true 52 5, .outOfRange), (.tlfence true 10, .outOfRange), (.cbat false false 61, .outOfRange),
   (.tbinit true 21 35, .oddPair), (.tbarrive false 1 0, .outOfRange), (.qpush true true true 2 95, .outOfRange),
   (.qpushTry false true false 4 5 189, .outOfRange), (.qwait true true false 38 225, .outOfRange), (.qpopTry false true true 4 47 157, .outOfRange),
   (.vmma true 12 6 4 81, .unallocated), (.vmma true 1 114 92 7, .outOfRange), (.vmma true 1 91 122 6, .outOfRange),
   (.vmma true 2 6 1 127, .outOfRange), (.vmma false 5 14 111 2, .outOfRange), (.fmm false 110 22 true, .outOfRange),
   (.fmm false 5 33 true, .outOfRange), (.fmmt false 126 4 true, .outOfRange), (.fmmt false 0 48 false, .outOfRange),
   (.fpoly false 127 4, .outOfRange), (.fpoly true 60 55, .outOfRange), (.fiter true 102 4 14, .outOfRange),
   (.fiter true 5 63 4, .outOfRange), (.fiter true 79 3 60, .outOfRange), (.fiter true 41 3 13, .oddPair),
   (.ftmask true 100 62, .outOfRange), (.ftmask true 2 34, .outOfRange), (.ftmaskAnc false 104 22, .outOfRange),
   (.ftmaskAnc false 3 38, .outOfRange), (.faccLd false 109 19, .outOfRange), (.faccStF32 false 127 7, .outOfRange),
   (.faccStBf16 true 106 53, .outOfRange), (.faccStF16 true 120 54, .outOfRange), (.faccRd false 118 84 2, .outOfRange),
   (.faccRd true 1 126 2, .outOfRange), (.faccZero false 126, .outOfRange), (.ftbarrive false 5 0, .outOfRange)]

theorem test_illformed_6 : (illFormed6.all fun x => x.1.check == some x.2) = true := by decide

/-! ## Hypotheses that are met: scalars, predicates, branches, waits, emulation, clauses -/

theorem witness_ScalarWordResults :
    GroupAt (at0 0) (envIn (at0 0)) 0 ∧ (Instr.smulwI32 false 62 1 2).check = none ∧ (scalarWrites (.smulwI32 false 62 1 2)).isSome = true := by
  exact ⟨⟨rfl, rfl⟩, rfl, rfl⟩
theorem witness_ScalarWordResults_sequencer :
    SeqAt (seq0 true 0) (seqIn (seq0 true 0)) 0 ∧ (Instr.sadd false 31 0 31).check = none ∧
      ∃ w rs f, scalarWrites (.sadd false 31 0 31) = some (w, rs, f) ∧ ∀ r ∈ rs, r ≤ 31 :=
  ⟨⟨rfl, rfl⟩, rfl, _, _, _, rfl, by decide⟩

theorem witness_ReadingWordResults : GroupAt (at0 0) (envIn (at0 0)) 0 ∧ (Instr.rdsr false 0 10).check = none ∧
    ∃ ws, readingWrites (at0 0) (envIn (at0 0)) (.rdsr false 0 10) = some (false, 0, ws) := ⟨⟨rfl, rfl⟩, rfl, _, rfl⟩
theorem witness_ReadingWordResults_context : GroupAt (at0 6) (envIn (at0 6)) 6 ∧ (Instr.rdctx false 0 5).check = none ∧
    ∃ ws, readingWrites (at0 6) (envIn (at0 6)) (.rdctx false 0 5) = some (false, 6, ws) := ⟨⟨rfl, rfl⟩, rfl, _, rfl⟩

theorem witness_PredicateLogicWords : GroupAt (at0 0) (envIn (at0 0)) 0 ∧ (Instr.pld false 7 61).check = none ∧
    ∃ v, logicWrite (envIn (at0 0)) (.pld false 7 61) = some (false, 7, v) := ⟨⟨rfl, rfl⟩, rfl, _, rfl⟩
theorem witness_PredicateLogicWords_bounds : (7#6).toNat ≤ 7 ∧ (61#6).toNat ≤ 61 ∧ 61 < (62#6).toNat ∧
    majorOf (0x0D#32 <<< 25) = 0x0D ∧ bits (0x0D#32 <<< 25 ||| 5#32 <<< 18).toNat 24 18 ∉ [0, 1, 2, 3, 4, 8, 9, 10, 11] := by decide

theorem witness_CompareWords : let s := at' 0 (withRows 2) id id
    GroupAt s (envIn s) 0 ∧ (Instr.vcmpI32 false 5 7 0 1).check = none ∧
      ∃ v, compareWrite (envIn s) (.vcmpI32 false 5 7 0 1) = some (false, [0, 1], 7, v) ∧ (envIn s).team.allMapped 0 [0, 1] = true :=
  ⟨⟨rfl, rfl⟩, rfl, _, rfl, by decide⟩
theorem witness_CompareWords_unmapped : let s := at' 0 (withRows 1) id id
    GroupAt s (envIn s) 0 ∧ (envIn s).team.allMapped 0 [0, 1] = false := ⟨⟨rfl, rfl⟩, by decide⟩

theorem witness_BranchWords : GroupAt (at0 0) (envIn (at0 0)) 0 ∧ SeqAt (seq0 false 0) (seqIn (seq0 false 0)) 0 ∧
    majorOf 0x11EFFFFE = 8 := ⟨⟨rfl, rfl⟩, ⟨rfl, rfl⟩, by decide⟩

/-- Two paths of a group, under record 0. -/
def twoPaths : Group → Group := fun g =>
  { g with
    splits := [(0, 7)]
    paths := [(0, { freshPath with pc := 4, clause := some (clauseOf 0 0), split := 0, domain := 1, mask := 1 }),
              (1, { freshPath with split := 0, domain := 2, mask := 2 })] }

theorem witness_RejoinAndExit : (envIn (at0 0)).path.split = 7 ∧ (envIn (at0 0)).grp.emu = none ∧
    (envIn (at0 0)).grp.paths.length ≤ 1 := by decide
theorem witness_RejoinAndExit_split : let s := at' 0 id twoPaths id
    GroupAt s (envIn s) 0 ∧ (envIn s).path.split ≠ 7 ∧ (envIn s).grp.emu = none ∧ 1 < (envIn s).grp.paths.length :=
  ⟨⟨rfl, rfl⟩, by decide, by decide, by decide⟩

/-- Its record, with one path waiting at the label and with both. -/
theorem witness_RejoinAndExit_closes :
    let G (a b : Nat) : Group := { twoPaths (freshGroup 0 0 0) with
      splits := [(0, 7)], paths := (twoPaths (freshGroup 0 0 0)).paths.map fun x => (x.1, { x.2 with st := if x.1 = 0 then a else b }) }
    (G 1 0).splits.get? 0 = some 7 ∧ (G 1 0).paths.keys.Pairwise (· < ·) ∧ (G 1 0).splits.keys.Pairwise (· < ·) ∧
      (∃ x ∈ (G 1 0).carriers 0, x.2.st ≠ 1) ∧ (G 1 1).carriers 0 ≠ [] ∧ (∀ x ∈ (G 1 1).carriers 0, x.2.st = 1) ∧
      (G 1 1).nested 0 = false := by decide

theorem witness_WaitWordResults_barrier : GroupAt (at0 0) (envIn (at0 0)) 0 ∧ pendingAccess (at0 0) 0 0 = false ∧ (15#6).toNat ≤ 15 :=
  ⟨⟨rfl, rfl⟩, by decide, by decide⟩
/-- One condition in `s57` to `s60`: a barrier of the scratchpad at a phase. -/
def barCond (phase : Word) : Group → Group := withS [(0, 100), (57, phase <<< 8)]
/-- What a `wait` on it begins with. -/
def barWait (s : State) : WaitRec :=
  { any := true, conds := [condAt (envIn s).agt 57], timeout := ((readS (envIn s).grp (envIn s).path 0).toNat), since := s.refclk,
    sd := 1, got := [], poll := none, polled := none, base := [], seen := [] }
theorem witness_WaitWordResults_wait : let s := at' 0 id (barCond 1) id
    let c := condAt (envIn s).agt 57
    57 + 4 * (0 + 1) ≤ 61 ∧ (c.check s (envIn s).team).isNone = true ∧ c.kind ≠ 3 ∧
      ((barWait s).verdict s 0 (some 0) 0).isSome = true := by decide
theorem witness_WaitWordResults_waits : let s := at' 0 id (barCond 0) id
    let c := condAt (envIn s).agt 57
    (c.check s (envIn s).team).isNone = true ∧ c.kind ≠ 3 ∧ (barWait s).verdict s 0 (some 0) 0 = none := by decide
theorem witness_WaitWordResults_eqp : (envIn (at0 0)).path.clause = some (clauseOf 0 0) ∧ (clauseOf 0 0).index = 0 ∧
    (envIn (at0 0)).grp.emu = none ∧ (envIn (at0 0)).team.target = 2 := ⟨rfl, rfl, rfl, rfl⟩
theorem witness_WaitWordResults_eqp_holds : let s := at' 0 (fun t => { t with target := 0 }) id id
    (envIn s).grp.emu = none ∧ (envIn s).team.target ≠ 2 ∧ (envIn s).team.target ≠ (envIn s).team.ownKind := by decide

/-- Entries on the predicate stack. -/
def deep (n : Nat) (p : Path) : Path := { p with pstack := List.replicate n 1 }
theorem witness_PredicateStackWords : let s := at' 0 id id (deep 15)
    GroupAt s (envIn s) 0 ∧ (Instr.ppush false 7).check = none ∧ (∃ m k, stackWrite (envIn s) (.ppush false 7) = some (false, m, k)) ∧
      ∃ m k, stackWrite (envIn s) (.ppop false) = some (false, m, k) := ⟨⟨rfl, rfl⟩, rfl, ⟨_, _, rfl⟩, _, _, rfl⟩
theorem witness_PredicateStackWords_full : let s := at' 0 id id (deep 16)
    GroupAt s (envIn s) 0 ∧ (7#6).toNat ≤ 7 ∧ 16 ≤ (envIn s).path.pstack.length := ⟨⟨rfl, rfl⟩, by decide, by decide⟩
theorem witness_PredicateStackWords_empty : GroupAt (at0 0) (envIn (at0 0)) 0 ∧ (envIn (at0 0)).path.pstack = [] := ⟨⟨rfl, rfl⟩, rfl⟩

/-- A state whose context 0 is this one. -/
def ctx0 : Ctx :=
  { prot := false, debug := false, fields := 1, memdef := 0, trapen := 0, emuvec := 0, savearea := 0, preempt := 0, fwdtab := 0,
    ptroot := 0, syntab := 0, ftabD := 0, ftabL := 0, ftlenD := 0, ftlenL := 0, pinBase := 0, pinLen := 0, compand := [] }
def withCtx (c : Ctx) (s : State) : State := { s with ctxs := [(0, c)] }

theorem witness_PlainAndTrapWords : GroupAt (at0 0) (envIn (at0 0)) 0 ∧ ((at0 0).ctx 0).debug = false ∧
    countersAt (envIn (at0 0)).grp 15 0 = true ∧ (10#6).toNat = 10 ∧ SeqAt (seq0 true 0) (seqIn (seq0 true 0)) 0 :=
  ⟨⟨rfl, rfl⟩, rfl, by decide, by decide, rfl, rfl⟩
theorem witness_PlainAndTrapWords_break : let s := withCtx { ctx0 with debug := true } (at0 0)
    GroupAt s (envIn s) 0 ∧ (s.ctx 0).debug = true ∧ (envIn s).path.pass = 0 := ⟨⟨rfl, rfl⟩, rfl, rfl⟩

/-- A group with a predicate p1, and one in emulation mode. -/
def withPred (m : LaneMask) (g : Group) : Group := { g with p := [(1, m)] }
def shadow0 : Shadow := { s := [], mask := 0, pdepth := 0, addr := 8, index := 1, path := 0 }
theorem witness_VectorBranchWords : let s := at' 0 id (withPred 1) id
    GroupAt s (envIn s) 0 ∧ takenLanes (envIn s) false 1 ≠ 0 ∧ takenLanes (envIn s) false 1 ≠ (envIn s).path.mask ∧
      (envIn s).grp.emu = none ∧ (envIn s).grp.paths.lowestFree 8 = some 1 ∧ (envIn s).grp.splits.lowestFree 7 = some 0 :=
  ⟨⟨rfl, rfl⟩, by decide, by decide, rfl, by decide, by decide⟩
theorem witness_VectorBranchWords_whole : takenLanes (envIn (at0 0)) false 1 = 0 ∧
    takenLanes (envIn (at0 0)) true 1 = (envIn (at0 0)).path.mask ∧ takenLanes (envIn (at0 0)) true 1 ≠ 0 := by decide
theorem witness_VectorBranchWords_traps :
    (let s := at' 0 id (fun g => { withPred 1 g with emu := some shadow0 }) id
     GroupAt s (envIn s) 0 ∧ takenLanes (envIn s) false 1 ≠ (envIn s).path.mask ∧ (envIn s).grp.emu ≠ none) ∧
    (let s := at' 0 id (fun g => { withPred 1 g with splits := (List.range 7).map fun i => (i, 7) }) id
     GroupAt s (envIn s) 0 ∧ (envIn s).grp.splits.lowestFree 7 = none) :=
  ⟨⟨⟨rfl, rfl⟩, by decide, by decide⟩, ⟨rfl, rfl⟩, by decide⟩

/-- A state whose core 0 holds the sector at address 0 in its instruction cache: a function table with the entry 8. -/
def withTable (s : State) : State :=
  (withCtx { ctx0 with ftlenD := 1, ftlenL := 1, pinLen := 16 } s).setCore 0 { Core.reset 0 with icache := [(0, 8)] }
theorem witness_CallAndJumpWords :
    (let s := withTable (at' 0 id (withS [(2, 12)]) fun p => { p with cstack := List.replicate 31 8 })
     GroupAt s (envIn s) 0 ∧ (envIn s).path.cstack.length < 32 ∧ (∃ a k, (envIn s).path.cstack = a :: k) ∧
       (((envIn s).pair 2).toNat % 4 = 0 ∧ ((envIn s).pair 2).toNat < (s.ctx 0).pinLen.toNat) ∧
       (readS (envIn s).grp (envIn s).path 0).toNat < (functionTable s (envIn s).team).2 ∧
       cached s (envIn s).team 0 8 ∧ ofBytes (cachedBytes s (envIn s).team 0 8) ≠ 0) ∧
    (let s := seqAt' true 0 id fun q => { q with cstack := List.replicate 7 8 }
     SeqAt s (seqIn s) 0 ∧ (seqIn s).seq.cstack.length < 8) :=
  ⟨⟨⟨rfl, rfl⟩, by decide, ⟨_, _, rfl⟩, by decide, by decide, ⟨by decide, by decide +kernel⟩, by decide +kernel⟩, ⟨rfl, rfl⟩, by decide⟩

theorem witness_EngineAndChainingWords : GroupAt (at0 0) (envIn (at0 0)) 0 ∧ (envIn (at0 0)).team.flume.running = false ∧
    (envIn (at0 0)).team.sluice.running = false ∧ ((envIn (at0 0)).pair 0).toNat % 4 = 0 ∧ ((envIn (at0 0)).pair 0).toNat < 2 ^ 60 ∧
    pendingScratch (at0 0) 0 0 = false ∧ (envIn (at0 0)).team.fl.ops = [] ∧ heldArgs (envIn (at0 0)).path.hold = none ∧
    pendingTransfer (envIn (at0 0)).team 0 = false ∧ sluiceScratch (at0 0) 0 = false :=
  ⟨⟨rfl, rfl⟩, rfl, rfl, by decide, by decide, by decide, rfl, rfl, by decide, by decide⟩
/-- A launch of context 0. -/
def launch0 : Launch :=
  { ctx := 0, grid := 1, pkt := [], queue := 0, order := 0, pred := none, todo := [], ended := 0, hinted := [], done := true,
    destroyed := false, run := none, wbs := [] }
theorem witness_EngineAndChainingWords_pred :
    let s := { at0 0 with launches := [(launchKey 0 1, { launch0 with pred := some (launchKey 0 2) }), (launchKey 0 2, launch0)] }
    (s.launches.get? (launchKey 0 1)).bind (·.pred) = some (launchKey 0 2) ∧ s.launches.get? (launchKey 0 2) = some launch0 ∧
      launch0.done = true ∧ launch0.settled s = true ∧ (2#2).toNat ≤ 2 := by decide

theorem witness_EmulationWords :
    (let s := withCtx { ctx0 with emuvec := 1 } (at0 0)
     issuer s = .group (envIn s) ∧ (envIn s).path.clause = some (clauseOf 0 0) ∧ (s.ctx 0).emuvec.getLsbD 0 = true ∧
       (envIn s).grp.emu = none ∧ outstanding (landAll s 0 0) 0 0 = false ∧ issuer (landAll s 0 0) = .group (envIn (landAll s 0 0))) ∧
    (let s := at' 6 id (fun g => { g with emu := some shadow0 }) id
     GroupAt s (envIn s) 6 ∧ (envIn s).grp.emu = some shadow0 ∧ (envIn s).path.pstack.length = shadow0.pdepth) :=
  ⟨⟨rfl, rfl, by decide, rfl, by decide, rfl⟩, ⟨rfl, rfl⟩, rfl, rfl⟩
/-- The clause of an emulated word in the instruction cache: a header of n words at address 4. -/
def withHeader (n : Nat) (s : State) : State :=
  s.setCore 0 { Core.reset 0 with icache := [(0, BitVec.ofNat 512 (n * 2 ^ 28 * 2 ^ 32))] }
theorem witness_EmulationWords_skip :
    (let s := withHeader 1 (at' 6 id (fun g => { g with emu := some shadow0 }) id)
     cached s (envIn s).team 4 4 ∧ bits ((wordsOf (cachedBytes s (envIn s).team 4 4)).headD 0).toNat 31 28 ≤ shadow0.index) ∧
    (let s := withHeader 2 (at' 6 id (fun g => { g with emu := some shadow0 }) id)
     cached s (envIn s).team 4 4 ∧ shadow0.index < bits ((wordsOf (cachedBytes s (envIn s).team 4 4)).headD 0).toNat 31 28 ∧
       cached s (envIn s).team 12 4) :=
  ⟨⟨⟨by decide, by decide +kernel⟩, by decide +kernel⟩, ⟨by decide, by decide +kernel⟩, by decide +kernel, ⟨by decide, by decide +kernel⟩⟩

theorem witness_ClauseOpening :
    (let s := withHeader 1 (at' 0 id id fun p => { p with clause := none })
     issuer s = .group (envIn s) ∧ (envIn s).path.clause = none ∧ (15#4 ≠ 0) ∧ (6#3).toNat ∈ [0, 1, 2, 3, 6] ∧
       countersAt (envIn s).grp 15 0 = true ∧ cached s (envIn s).team ((envIn s).path.pc.toNat + 4) (4 * 14)) ∧
    (let s := at' 1 id id fun p => { p with clause := some (⟨0, 0x22000000, 0, [0x02000000, 0x48410089], none⟩) }
     GroupAt s (envIn s) 1 ∧ mayFollowPfx 0x48410089 = true) :=
  ⟨⟨rfl, rfl, by decide, by decide, by decide, ⟨by decide, by decide +kernel⟩⟩, ⟨rfl, rfl⟩, by decide⟩

/-! ## Vectors, maps, memory -/

theorem witness_IntegerVectorResults : let s := at' 0 (withRows 2) id id
    GroupAt s (envIn s) 0 ∧ (Instr.vaddI32 false 0 0 1).check = none ∧ ∃ v, integerVec (envIn s) (.vaddI32 false 0 0 1) = some v ∧
      (envIn s).team.allMapped 0 v.srcs = true ∧ (envIn s).team.canWrite 0 v.dsts = true :=
  ⟨⟨rfl, rfl⟩, rfl, _, rfl, by decide, by decide⟩

/-- Two rows of the FP32 values 1 and 0. -/
def oneZero (t : Team) : Team :=
  { withRows 2 t with res := { (withRows 2 t).res with rows := [(0, rowOf 0x3F800000), (1, rowOf 0)] } }
theorem witness_FloatVectorResults : let s := at' 0 oneZero id id
    GroupAt s (envIn s) 0 ∧ (Instr.vfaddF32 false 3 127 0 1).check = none ∧
      ∃ v, floatVec s (envIn s) (.vfaddF32 false 3 127 0 1) = some v ∧
        (envIn s).team.allMapped 0 v.srcs = true ∧ (envIn s).team.canWrite 0 v.dsts = true ∧
        v.flags &&& (s.ctx 0).trapen.toNat &&& 0x3F = 0 :=
  ⟨⟨rfl, rfl⟩, rfl, _, rfl, by decide, by decide, by decide +kernel⟩
theorem witness_FloatVectorResults_reduction : let s := at' 0 oneZero id id
    ∃ v, floatReduce (envIn s) (.vfredMaxF32 false 2 0) = some v ∧
      (envIn s).team.allMapped 0 v.srcs = true ∧ (envIn s).team.canWrite 0 v.dsts = true ∧
      v.flags &&& (s.ctx 0).trapen.toNat &&& 0x3F = 0 := ⟨_, rfl, by decide, by decide, by decide +kernel⟩

theorem witness_VectorWordStops_unmapped : let s := at' 0 (withRows 1) id id
    GroupAt s (envIn s) 0 ∧ ∃ v, integerVec (envIn s) (.vaddI32 false 0 0 1) = some v ∧ (envIn s).team.allMapped 0 v.srcs = false :=
  ⟨⟨rfl, rfl⟩, _, rfl, by decide⟩
theorem witness_VectorWordStops_rows :
    let s := at' 0 (fun t => { t with res := { t.res with sizes := [0, 0, 0, 0] } }) id fun p => { p with hold := some (.rows 0 [0] false) }
    let u := { s with refclk := 4096 }
    GroupAt u (envIn u) 0 ∧ (∃ v, integerVec (envIn u) (.vmovi false 0 7) = some v ∧ (envIn u).team.allMapped 0 v.srcs = true ∧
      (envIn u).team.canWrite 0 v.dsts = false) ∧ (envIn u).path.hold = some (.rows 0 [0] false) ∧ 0 + 4096 ≤ u.refclk :=
  ⟨⟨rfl, rfl⟩, ⟨_, rfl, by decide, by decide⟩, rfl, by decide⟩
theorem witness_VectorWordStops_flag : let s := withCtx { ctx0 with trapen := 0x3F } (at' 0 oneZero id id)
    ∃ v, floatVec s (envIn s) (.vdivF32 false 0 2 0 1) = some v ∧ (envIn s).team.allMapped 0 v.srcs = true ∧
      (envIn s).team.canWrite 0 v.dsts = true ∧ v.flags &&& (s.ctx 0).trapen.toNat &&& 0x3F ≠ 0 :=
  ⟨_, rfl, by decide, by decide, by decide +kernel⟩

theorem witness_VectorResultTiming : let s := at' 0 (withRows 1) id id
    ∃ T G x row, s.teams.get? 0 = some T ∧ T.groups.get? 0 = some G ∧ T.mapped 0 0 = some x ∧ T.res.rows.get? x.row = some row ∧
      row.refcnt ≠ 0 := ⟨_, _, _, _, rfl, rfl, rfl, rfl, by decide⟩

theorem witness_VoteResults : GroupAt (at0 0) (envIn (at0 0)) 0 := ⟨rfl, rfl⟩

/-- A second group of the team; where it waits, it stands at the other half of a `vregroup` of the name 0. -/
def twoGroups (wait : Bool) (ended : Bool) (t : Team) : Team :=
  let g : Group := { freshGroup 0 0 1 with
    ended, map := [(0, ⟨0, 0⟩)]
    paths := [(0, { freshPath with pc := 4, clause := some (clauseOf 0 0), hold := if wait then some (.regroup 0 false 0 0) else none })] }
  let u := withRows 1 t
  { u with groups := u.groups.put 1 g }
theorem witness_RegroupResults :
    let s := at' 0 (twoGroups true false) id id
    GroupAt s (envIn s) 0 ∧ (Instr.vregroupSend false 0 0 1).check = none ∧ 1 ≠ (envIn s).g ∧ 1 < (envIn s).team.groups.length ∧
      (envIn s).grp.paths.length ≤ 1 ∧ (envIn s).path.pstack = [] ∧ (envIn s).team.allMapped 0 (nameRange 0 0) = true ∧
      (∃ o, (envIn s).team.groups.get? 1 = some o ∧ o.ended = false ∧ regroupAt o = some (0, 0, false, 0, 0)) ∧
      (envOf s 0 1 0).isSome = true :=
  ⟨⟨rfl, rfl⟩, rfl, by decide, by decide, by decide, rfl, by decide, ⟨_, rfl, rfl, rfl⟩, by decide⟩
theorem witness_RegroupResults_first : let s := at' 0 (twoGroups false false) id id
    ∃ o, (envIn s).team.groups.get? 1 = some o ∧ o.ended = false ∧ regroupAt o = none := ⟨_, rfl, rfl, rfl⟩
theorem witness_RegroupResults_alone : let s := at' 0 (twoGroups false true) id id
    ∃ o, (envIn s).team.groups.get? 1 = some o ∧ o.ended = true := ⟨_, rfl, rfl⟩

theorem witness_MapWords : let s := at' 0 (withRows 2) id id
    GroupAt s (envIn s) 0 ∧ (envIn s).team.allMapped 0 [0, 1] = true ∧ ((envIn s).team.unmap 0 127).roomFor 0 1 = true ∧
      (Instr.ngive false 127 1 63).check = none ∧ (Instr.ntake false 127 63 0).check = none ∧
      ((envIn s).team.mapped 0 0).isSome = true ∧ ((envIn s).team.mapped 0 1).isSome = true ∧
      ∃ G m, (envIn s).team.groups.get? 0 = some G ∧ (envIn s).team.mapped 0 1 = some m :=
  ⟨⟨rfl, rfl⟩, by decide, by decide, rfl, rfl, by decide, by decide, _, _, rfl, rfl⟩
theorem witness_QueryWord : let s := at' 0 (withRows 1) id id
    GroupAt s (envIn s) 0 ∧ (Instr.nquery false 60 0).check = none ∧ (envIn s).team.mapped 0 1 = none ∧
      ∃ m row, (envIn s).team.mapped 0 0 = some m ∧ (envIn s).team.res.rows.get? m.row = some row :=
  ⟨⟨rfl, rfl⟩, rfl, rfl, _, _, rfl, rfl⟩

theorem witness_MemoryWordIssue : let s := at0 1
    GroupAt s (envIn s) 1 ∧ (Instr.sst false 0 0 2 0).check = none ∧ ∃ m, memWord (envIn s) (.sst false 0 0 2 0) = some m ∧
      mayIssue s (envIn s) m ∧ m.acc.lanes ≠ [] ∧ (memFields (envIn s)).releases = false :=
  ⟨⟨rfl, rfl⟩, rfl, _, rfl, ⟨rfl, rfl, rfl, rfl, rfl, rfl, by decide, by decide, by decide, rfl⟩, by decide, rfl⟩
theorem witness_MemoryWordIssue_no_lane : let s := at' 1 (withRows 1) id fun p => { p with mask := 0 }
    ∃ m, memWord (envIn s) (.vld false 2 127 0 0 false) = some m ∧ mayIssue s (envIn s) m ∧ m.acc.lanes = [] :=
  ⟨_, rfl, ⟨rfl, rfl, rfl, by decide, by decide, rfl, by decide, by decide, by decide, rfl⟩, rfl⟩
/-- A release at core scope in the prefix of the word. -/
def released (p : Path) : Path :=
  { p with clause := some ⟨0, 0x22000000, 1, [0], some (pfxWord false 2 1 0 0)⟩ }
theorem witness_MemoryWordIssue_release : let s := at' 1 id id released
    GroupAt s (envIn s) 1 ∧ (memFields (envIn s)).releases = true ∧ ∃ m, memWord (envIn s) (.sst false 0 0 2 0) = some m ∧
      mayIssue s (envIn s) m ∧ ∃ u, release (mapDests s (envIn s) m) (envIn s) (memFields (envIn s)).scope false = .go [] u :=
  ⟨⟨rfl, rfl⟩, rfl, _, rfl, ⟨rfl, rfl, rfl, rfl, rfl, rfl, by decide, by decide, by decide, rfl⟩, _, rfl⟩

theorem witness_ScratchpadAndVaultAccess : let s := at' 1 (withRows 2) id fun p => { p with mask := 1 }
    GroupAt s (envIn s) 1 ∧ (Instr.vstSp false 2 0 0 0 false).check = none ∧ ∃ m, memWord (envIn s) (.vstSp false 2 0 0 0 false) = some m ∧
      mayIssue s (envIn s) m ∧ (memFields (envIn s)).order = 0 ∧ m.acc.lanes ≠ [] ∧
      ∀ l ∈ m.acc.lanes, scratchBase ≤ l.va ∧ l.va < vaultBase :=
  ⟨⟨rfl, rfl⟩, rfl, _, rfl, ⟨rfl, rfl, rfl, by decide, by decide, rfl, by decide, by decide, by decide, rfl⟩, rfl,
    by decide, by decide⟩

/-- The sector at address 0 in the L1 of core 0, with all its bytes. -/
def withL1 (s : State) : State := s.setCore 0 { Core.reset 0 with
  l1 := ⟨[(0, ⟨true, 0, 1, false⟩)], [(0, ⟨7, 0, .normal, 0, 0, 0⟩)], []⟩ }
theorem witness_GlobalAccess_load : let s := withL1 (at0 1)
    ∃ m l, memWord (envIn s) (.sld false 0 0 2 0) = some m ∧ mayIssue s (envIn s) m ∧ (memFields (envIn s)).order = 0 ∧
      (memFields (envIn s)).space ≠ 4 ∧ m.reads = [] ∧ m.acc.lanes = [l] ∧ l.va < synonymBase ∧ m.acc.kind = .load ∧
      ((s.core 0).l1.sect (sectKey 0 l.va)).bad = false ∧ ∀ k, k < m.acc.size → (l1Byte s 0 0 (l.va + k)).isSome = true :=
  ⟨_, _, rfl, ⟨rfl, rfl, rfl, rfl, rfl, rfl, by decide, by decide, by decide, rfl⟩, rfl, by decide, rfl, rfl, by decide, rfl,
    by decide +kernel, by decide +kernel⟩
theorem witness_GlobalAccess_store : let s := at' 1 (withRows 1) id fun p => { p with mask := 1 }
    ∃ m, memWord (envIn s) (.vst false 2 0 0 0 false) = some m ∧ mayIssue s (envIn s) m ∧ (memFields (envIn s)).scope < 3 ∧
      (memFields (envIn s)).cache < 3 ∧ m.acc.kind = .store ∧ m.acc.lanes ≠ [] ∧ ∀ l ∈ m.acc.lanes, l.va < synonymBase :=
  ⟨_, rfl, ⟨rfl, rfl, rfl, by decide, by decide, rfl, by decide, by decide, by decide, rfl⟩, by decide, by decide, rfl,
    by decide, by decide⟩

/-- A lane of an access, and an access of group 0. -/
def lane0 (st : LaneSt) (va : Nat) : LaneAcc := { lane := 0, va, x := 0, e := 0, st, val := 7 }
def acc0 (k : AccKind) (d : Dest) (ls : List LaneAcc) : Access :=
  { team := 0, group := 0, path := 0, pc := 0, mask := 1, kind := k, size := 4, sext := false, op := 0, order := 0, scope := 0, space := 0,
    cache := 0, dest := d, lanes := ls, atHome := false, far := false, cancelled := false, parked := false, wbs := [],
    level := 0, stand := ⟨0, 0, 0⟩, got := [] }

theorem witness_FenceAndCacheWords : let s := at' 1 (withRows 1) id id
    GroupAt s (envIn s) 1 ∧ (memFields (envIn s)).reserved = false ∧ throttled s (envIn s) = false ∧ pendingAccess s 0 0 = false ∧
      (envIn s).path.hold = none ∧ ((envIn s).team.mapped 0 0).isSome = true ∧ (envIn s).grp.stcnt < 255 ∧
      unacked (l2Flush (l1Release s 0 5) 0 0) 0 = [] ∧ unsent (l2Flush (l1Release s 0 4) 0 0) 0 0 = [] :=
  ⟨⟨rfl, rfl⟩, rfl, rfl, rfl, rfl, rfl, by decide, by decide, by decide⟩
/-- The fences that do not wait for every access: one that acquires with a store of the group out, `tlfence` with a load out. -/
theorem witness_FenceAndCacheWords_waits :
    let s (k : AccKind) : State := { at0 1 with accs := [(4, acc0 k .none [lane0 .out 0])] }
    pendingRead (s .store) 0 0 = false ∧ pendingAccess (s .store) 0 0 = true ∧ pendingStore (s .load) 0 0 (fun _ => true) = false ∧
      pendingStore (s .load) 0 0 Access.inBank = false ∧ pendingStore (s .store) 0 0 (fun a => a.path == 1) = false ∧
      unackedWrites (l2Flush (l1Release (s .load) 0 5) 0 0) 0 0 = [] := by decide

/-! ## Copies, barriers, slots, queues, the Flume -/

/-- A tensor of 64 bytes in one dimension, its entry, and context 0 with it as entry 1. -/
def tensor64 : BitVec 512 := BitVec.ofNat 512
  (5 + 2 ^ 5 + 64 * 2 ^ 160 + 2 ^ 184 + 2 ^ 208 + 2 ^ 232 + 2 ^ 256 + 63 * (2 ^ 200 * 2 ^ 224))
def live0 : CtxLive :=
  { tns := [(1, tensor64)], grants := 0, lastGrid := 0, bps := [], records := 0, traceKey := none, parkIndex := none, moving := none,
    sched := 0 }
def withTn (s : State) : State := { s with live := [(0, live0)] }

/-- One active lane, and read and write granted of vault 0. -/
def granted (f : Group → Group) : State :=
  { at' 1 (withRows 2) f (fun p => { p with mask := 1 }) with live := [(0, { live0 with grants := 3 })] }
/-- A store, a load and an atomic on the vault. -/
theorem witness_ScratchpadAndVaultAccess_vault :
    (let s := granted id
     ∃ m, memWord (envIn s) (.vstNv false 2 0 0 0 false) = some m ∧ mayIssue s (envIn s) m ∧ s.split = none ∧
       (memFields (envIn s)).order = 0 ∧ m.acc.lanes ≠ [] ∧ m.acc.kind = .store ∧ s.reqs = [] ∧
       ∀ l ∈ m.acc.lanes, vaultBase ≤ l.va) ∧
    (let s := granted id
     ∃ m, memWord (envIn s) (.vldNv false 2 0 0 0 false) = some m ∧ mayIssue s (envIn s) m ∧ m.acc.kind = .load ∧
       m.acc.lanes ≠ [] ∧ ∀ l ∈ m.acc.lanes, vaultBase ≤ l.va) ∧
    (let s := granted (withS [(5, 0x0FF00000)])
     ∃ m, memWord (envIn s) (.satom false 2 1 4 6) = some m ∧ mayIssue s (envIn s) m ∧ m.acc.kind = .atomic ∧
       m.acc.lanes ≠ [] ∧ ∀ l ∈ m.acc.lanes, vaultBase ≤ l.va) :=
  ⟨⟨_, rfl, ⟨rfl, rfl, rfl, by decide, by decide, rfl, by decide, by decide, by decide, rfl⟩, rfl, rfl, by decide, rfl, rfl, by decide⟩,
    ⟨_, rfl, ⟨rfl, rfl, rfl, by decide, by decide, rfl, by decide, by decide, by decide, rfl⟩, rfl, by decide, by decide⟩,
    ⟨_, rfl, ⟨rfl, rfl, rfl, by decide, by decide, rfl, by decide, by decide, by decide, rfl⟩, rfl, by decide, by decide⟩⟩

theorem witness_CopyAndTensorWords : let s := withTn (at0 2)
    agentAt s = some (envIn s).agt ∧ (45#6).toNat + 15 ≤ (envIn s).agt.top ∧ agentHas (envIn s).agt 63 ∧
      copyForm (.cpyLd false 1 53 0) = some (false, .ld, 1, 53, 0) ∧ (53#6).toNat + 7 ≤ 60 ∧ (envIn s).path.hold = none ∧
      (envIn s).path.mask &&& (envIn s).grp.pred 0 = 0 := ⟨rfl, by decide, Or.inl rfl, rfl, by decide, rfl, by decide⟩
theorem witness_CopyAndTensorWords_copy : let s := withTn (at' 2 id (withPred 1) id)
    let c := copyOf s (envIn s).agt .ld 1 53
    GroupAt s (envIn s) 2 ∧ (envIn s).path.mask &&& (envIn s).grp.pred 1 ≠ 0 ∧ (envIn s).grp.cpycnt < 255 ∧
      (copyChecks s (envIn s).agt c).isNone = true ∧ c.claims = [] ∧ c.lands ≠ [] :=
  ⟨⟨rfl, rfl⟩, by decide, by decide, by decide +kernel, rfl, by decide⟩
theorem witness_CopyAndTensorWords_slot : let s := withTn (at' 2 id (withPred 1) id)
    let c := copyOf s (envIn s).agt .slot 1 53
    (copyChecks s (envIn s).agt c).isNone = true ∧ slotTag s 0 c.track c.slot = 0 := ⟨by decide +kernel, by decide +kernel⟩
/-- Field 0 of every core, and a multicast to core 0. -/
def field0 : Field := ⟨0, BitVec.allOnes 128, [], [], []⟩
theorem witness_CopyAndTensorWords_mcSlot :
    let s := { withTn (at' 2 id (fun g => withPred 1 (withS [(60, 1)] g)) id) with fields := [(0, field0)], launches := [(launchKey 0 1, launch0)] }
    let c := copyOf s (envIn s).agt .mcSlot 1 53
    GroupAt s (envIn s) 2 ∧ copyForm (.cpyMcSlot false 1 53 1) = some (false, .mcSlot, 1, 53, 1) ∧
      (envIn s).path.mask &&& (envIn s).grp.pred 1 ≠ 0 ∧ (envIn s).grp.cpycnt < 255 ∧ (copyChecks s (envIn s).agt c).isNone = true ∧
      c.lands = [⟨0, 0, []⟩] ∧ landingTeam s c ⟨0, 0, []⟩ = some 0 ∧ slotTag s 0 c.track c.slot = 0 :=
  ⟨⟨rfl, rfl⟩, rfl, by decide, by decide, by decide +kernel, by decide +kernel, by decide +kernel, by decide +kernel⟩

theorem witness_BatchResults : let s := seq0 false 5
    agentAt s = some (agtIn s) ∧ agentHas (agtIn s) 31 ∧ batchesAfter s 0 none < 256 ∧ batchesDone s 0 none 65535 = true ∧
      (agtIn s).hold = none := ⟨rfl, Or.inr (by decide), by decide, by decide, rfl⟩
/-- A copy of group 0. -/
def copy0 : Copy :=
  { team := 0, issuer := some 0, path := 0, pc := 0, kind := .ld, src := tensor64, dst := tensor64, desc := [0, 0, 0, 0, 0, 0, 0x80000000, 0],
    index := [], sectors := 1, lands := [⟨0, 0, []⟩], batch := some 0, claims := [], buf := [(0, 0)], core := 0, begun := true,
    order := 0, mask := 1, stopped := false, stand := ⟨0, 0, 0⟩, got := [] }
theorem witness_BatchResults_waits : let s := { at0 2 with copies := [(7, copy0)] }
    batchesDone s 0 (some 0) 0 = false := by decide

theorem witness_BarrierAndSlotWords : let s := at0 2
    agentAt s = some (envIn s).agt ∧ agentHas (envIn s).agt 63 ∧ inScr (envIn s).agt ((envIn s).agt.rd 0).toNat 16 16 ∧
      TBar.ok ⟨0, 0, 0, 0, 0, 0⟩ ∧ scrRead s 0 0 16 = TBar.word ⟨0, 0, 0, 0, 0, 0⟩ ∧ (TBar.after ⟨0, 0, 0, 0, 0, 0⟩ 0 0).2 = false ∧
      (TBar.after ⟨0, 0, 0, 0, 0, 0⟩ 1 0).2 = true ∧ issuer s = .group (envIn s) ∧
      inScr (envIn s).agt 0 16 (20 + 4 * 63) ∧ slotTag s 0 0 63 ≠ 2 ∧ slotTag s 0 0 63 ≠ 3 ∧ (envIn s).agt.storeWaits s = false :=
  ⟨rfl, Or.inl rfl, ⟨by decide, by decide⟩, by unfold TBar.ok; decide, by decide +kernel, by decide, by decide, rfl, ⟨by decide, by decide⟩,
    by decide +kernel, by decide +kernel, by decide⟩
/-- A scratchpad that begins with this byte. -/
def scr0 (v : Byte) (t : Team) : Team := { t with res := { t.res with scr := [(0, v)] } }
theorem witness_BarrierAndSlotWords_full : slotTag (at' 2 (scr0 2) id id) 0 0 0 = 2 ∧ slotTag (at' 2 (scr0 3) id id) 0 0 0 = 3 := by
  exact ⟨by decide +kernel, by decide +kernel⟩

/-- Work queue 0 of context 0. -/
def workQ0 : WorkQ := { home := 0, field := 0, cap := 1, entries := [], waiters := [], pushers := [], events := 0 }
theorem witness_QueueWordResults :
    (let s := { at0 2 with workQs := [(workKey 0 0, workQ0)] }
     agentAt s = some (envIn s).agt ∧ (53#6).toNat + 7 ≤ (envIn s).agt.top ∧ agentHas (envIn s).agt 63 ∧
       s.workQs.has (workKey 0 (queueNo (envIn s).agt false 0)) = true ∧ ∃ u, release s (envIn s) 4 true = .go [] u) ∧
    (at0 2).workQs.has (workKey 0 0) = false :=
  ⟨⟨rfl, by decide, Or.inl rfl, by decide, _, rfl⟩, by decide⟩

theorem witness_FlumeWords :
    (let s := at0 3
     flumeAgent s = some (envIn s).agt ∧ (Instr.faccZero false 3).check = none ∧
       (∃ needs, flumeOp s (envIn s).agt (.faccZero false 3) = some (false, .accZero, 3, [], 0, needs) ∧ needs) ∧
       (envIn s).agt.hold = none ∧ (envIn s).grp.engcnt < 255) ∧
    (let s := seq0 true 4
     flumeAgent s = some (agtIn s) ∧ agentHas (agtIn s) 31 ∧ inScr (agtIn s) 0 16 (20 + 4 * 63) ∧ engineScratch (agtIn s).team = false ∧
       engineOwes (agtIn s).team 15 = false ∧ TBar.ok ⟨0, 4095, 0, 0, 0, 0⟩ ∧ (TBar.after ⟨0, 4095, 0, 0, 0, 0⟩ 4095 0).2 = false ∧ (∀ o ∈ (agtIn s).team.fl.ops, o.kind ≠ .fcset)) :=
  ⟨⟨rfl, rfl, ⟨_, rfl, by decide, by decide⟩, rfl, by decide⟩, rfl, Or.inr (by decide), ⟨by decide, by decide⟩, by decide, by decide,
    by unfold TBar.ok; decide, by decide, by decide⟩
theorem witness_FlumeWords_sequencer :
    let s := seqAt' true 4 (fun t => { t with fl := { t.fl with tileN := 96 } }) fun q => { q with s := [(31, 192)] }
    ∃ needs, flumeOp s (agtIn s) (.fiter false 66 31 30) = some (false, .fiter, 66, [192, 0, 30], 0, needs) ∧ needs :=
  ⟨_, rfl, rfl, by decide, by decide, by decide, by decide, by decide, by decide, by decide, by decide⟩

theorem witness_FlumeVectorWordIssue : let s := at' 3 (withRows 20) id id
    GroupAt s (envIn s) 3 ∧ (envIn s).path.hold = none ∧ (envIn s).grp.engcnt < 255 ∧ (Instr.vmma false 2 3 0 16).check = none ∧
      tiles (envIn s).agt 3 1 ∧ (envIn s).team.allMapped 0 (List.range 20) = true ∧ trapen s (envIn s).team = 0 ∧
      (112#7).toNat ≤ 112 ∧ (envIn s).team.canWrite 0 ((List.range 16).map (112 + ·)) = true :=
  ⟨⟨rfl, rfl⟩, rfl, by decide, rfl, ⟨by decide, by decide⟩, by decide, rfl, by decide, by decide⟩

/-- An operation of the engine program, first of its team. -/
def op0 (k : FlumeKind) : FlumeOp :=
  { id := 1, src := none, pc := 0, path := 0, kind := k, handle := 0, args := [0, 0, 0], rows := [], tn := 0, mask := 0, dests := [],
    after := [] }
def withOps (k : FlumeKind) (f : Option Fiter) (t : Team) : Team := { t with fl := { t.fl with ops := [op0 k], fiter := f } }
theorem witness_FlumeOperationResults : let s := seqAt' true 4 (withOps .accZero none) id
    s.teams.get? 0 = some (agtIn s).team ∧ (agtIn s).team.mayTake (op0 .accZero) = true ∧
      (agtIn s).team.fl.ops.find? (fun x => x.src == none) = some (op0 .accZero) ∧
      olderReady s 0 (agtIn s).team (op0 .accZero) = false :=
  ⟨rfl, rfl, rfl, rfl⟩
/-- An iteration whose cap is reached. -/
def fiter0 : Fiter :=
  { handle := 0, n := 1, cap := 0, k := 0, prev := none, grow := 0, live := 0, sd := 0, pc := 0, raised := 0, owed := [] }
theorem witness_IterationResults : let s := seqAt' true 4 (withOps .fiter (some fiter0)) id
    s.teams.get? 0 = some (agtIn s).team ∧ (agtIn s).team.mayTake (op0 .fiter) = true ∧ (agtIn s).team.fl.fiter = some fiter0 ∧
      (agtIn s).team.fl.ops.find? (fun x => x.kind == .fiter) = some (op0 .fiter) ∧ (op0 .fiter).src = none ∧
      olderReady s 0 (agtIn s).team (op0 .fiter) = false ∧ iterationOwes s 0 (agtIn s).team = false :=
  ⟨rfl, rfl, rfl, rfl, rfl, rfl, rfl⟩

/-! ## Packets -/

/-- A sector of the memory-side cache that holds these words: address, value. -/
def sect (l : List (Nat × Nat)) : Sect :=
  ⟨true, 0, BitVec.ofNat 512 (l.foldl (fun n x => n + x.2 * 256 ^ x.1) 0), false⟩
/-- Die 0 with context 0's address 0 walked to physical 0x10000, and these sectors in its memory-side cache. -/
def die0 (sects : Tbl Sect) : Die :=
  { Die.reset with
    walks := [(walkKey 0 0 0 49 0, 0x4001), (walkKey 0 0 1 38 0, 0x8001), (walkKey 0 0 2 27 0, 0xC001), (walkKey 0 0 3 16 0, 0x10007)]
    msc := sects }
/-- A device with user queue 0, or a PRIV queue in its place, and these words from physical 0x10000 up, sector by sector: the
packet first. -/
def queueState (priv : Bool) (sects : List (List (Nat × Nat))) (s : State) : State :=
  let entry : List (Nat × Nat) := if priv then [(0, 0x10000), (9, 3), (10, 0xFFFF)] else [(9, 1)]
  { s with
    dies := [(0, die0 ((List.range sects.length).map (fun i => (0x400 + i, sect (sects.getD i []))) ++ [(0x800, sect entry)]))]
    ctxs := [(0, { ctx0 with debug := true, fields := 1 })]
    hg := { Headgate.reset with
      qtbase := 0x20001, qtlen := 1, slots := [(0, ⟨0, true⟩)], queues := [(0, { UQueue.new with limit := 1 })] } }
/-- The packet of these words, and the entry of its queue. -/
def pkt (l : List (Nat × Nat)) : List Byte := (List.range 64).map fun i => (sect l).data.extractLsb' (8 * i) 8
def entry (priv : Bool) : QEnt := if priv then ⟨0x10000, 0, 3, 0xFFFF, 0, 0, 0⟩ else ⟨0, 0, 1, 0, 0, 0, 0⟩
/-- The packet stands first in queue 0. -/
def first (s : State) (priv : Bool) (l : List (Nat × Nat)) : Prop := nextPacket s 0 = some (entry priv, pkt l)

theorem witness_PacketResults : let s := queueState false [[]] State.reset
    first s false [] ∧ (∃ needs u, userPacket s 0 (entry false) (pkt []) (.packetNop 0) = some (0, needs, u) ∧ needs) :=
  ⟨by unfold first; decide +kernel, _, _, rfl, by decide +kernel, by decide +kernel⟩
theorem witness_PacketResults_priv : let l := [(0, 0x1F), (4, 2600)]
    let s := queueState true [l] State.reset
    first s true l ∧ (entry true).priv = true ∧ (∃ needs u, privPacket s (pkt l) (.powercap 0) = some (0, needs, u) ∧ needs) :=
  ⟨by unfold first; decide +kernel, by decide, _, _, rfl, by decide +kernel, by decide +kernel, by decide +kernel, by decide +kernel⟩

theorem witness_NamedPacketResults_graphrun :
    let l := [(0, 7), (8, 0x40)]
    let launch := [(0, 1), (4, 1), (24, 4), (32, 4)]
    let s := { queueState false [l, [(0, 0x80)], [(4, 1)], launch] State.reset with fields := [(0, ⟨0, BitVec.allOnes 128, [], [], []⟩)] }
    first s false l ∧ opcodeOf (pkt l) = 7 ∧ onlyUses (pkt l) [(0, 0), (8, 15)] = true ∧ leNum (pkt l) 8 8 = 0x40 ∧
      (qRead s 0 0x40 16 = some ((pkt [(0, 0x80)]).take 16)) ∧ leNum ((pkt [(0, 0x80)]).take 16) 0 8 = 0x80 ∧
      qRead s 0 0x80 64 = some (pkt [(4, 1)]) ∧ leNum (pkt [(4, 1)]) 4 2 = 1 ∧ onlyUses (pkt [(4, 1)]) [(0, 5)] = true ∧
      qRead s 0 0xC0 64 = some (pkt launch) ∧ (launchCode s 0 (pkt launch)) = none := by
  refine ⟨?_, ?_, ?_, ?_, ?_, ?_, ?_, ?_, ?_, ?_, ?_⟩ <;> (try unfold first) <;> decide +kernel
theorem witness_NamedPacketResults_graphedit :
    let l := [(0, 8), (8, 0x40), (16, 0x80)]
    let s := queueState false [l, [(0, 0x60)], [(0, 1)]] State.reset
    first s false l ∧ opcodeOf (pkt l) = 8 ∧ onlyUses (pkt l) [(0, 0), (8, 23)] = true ∧ leNum (pkt l) 8 8 = 0x40 ∧
      leNum (pkt l) 16 8 = 0x80 ∧ (qRead s 0 0x40 8).map (fun h => leNum h 0 8) = some 0x60 ∧
      (qRead s 0 0x60 4).map (fun o => leNum o 0 4) = some 0 ∧ (qRead s 0 0x80 4).map (fun r => leNum r 0 4) = some 1 := by
  refine ⟨?_, ?_, ?_, ?_, ?_, ?_, ?_, ?_⟩ <;> (try unfold first) <;> decide +kernel
/-- The packet is accepted. -/
def accepts : Verdict → Bool
  | .accept _ => true
  | _ => false
theorem witness_NamedPacketResults_setctx :
    let l := [(0, 5), (2, 1), (8, 0x10040)]
    let s := queueState true [l, [(0, 1)], []] State.reset
    let b := pkt [(0, 1)] ++ pkt []
    first s true l ∧ opcodeOf (pkt l) = 5 ∧ (s.queue 0).desc = none ∧ flagsOf (pkt l) = 0 ∧ onlyUses (pkt l) [(0, 3), (8, 15)] = true ∧
      leNum (pkt l) 2 2 = 1 ∧ leNum (pkt l) 8 8 = 0x10040 ∧ ctxHasTeams s 1 = false ∧ s.ctxs.length < 512 ∧
      qRead s 0xFFFF 0x10040 128 = some b ∧ descCode 1 b = none ∧ readCompand s 0xFFFF (leNum b 104 8) = some [] ∧
      grantPending s 1 = false ∧ accepts (installCtx s 1 (descCtx b [])) = true :=
  ⟨by unfold first; decide +kernel, by decide +kernel, by decide, by decide +kernel, by decide +kernel, by decide +kernel, by decide +kernel,
    by decide, by decide, by decide +kernel, by decide +kernel, by decide +kernel, by decide, by decide +kernel⟩
/-- A fault with token 3. -/
def fault0 : FaultRec :=
  { ctx := 0, src := 0, acc := 0, grid := 1, team := 0, teamNo := 0, group := 0, path := 0, va := 0, image := [], token := some 3, since := 0 }
theorem witness_NamedPacketResults_faultreply :
    let l := [(0, 0x15), (1, 1), (2, 3)]
    let s := { queueState true [l] State.reset with faults := [(9, fault0)] }
    first s true l ∧ flagsOf (pkt l) = 1 ∧ opcodeOf (pkt l) = 0x15 ∧ onlyUses (pkt l) [(0, 3)] = true ∧
      faultOfToken s (leNum (pkt l) 2 2) = some (9, fault0) :=
  ⟨by unfold first; decide +kernel, by decide +kernel, by decide +kernel, by decide +kernel, by decide +kernel⟩
theorem witness_NamedPacketResults_tracekey :
    let l := [(0, 0x1B)]
    let s := { queueState true [l, []] State.reset with ctxs := [(0, { ctx0 with prot := true })] }
    first s true l ∧ opcodeOf (pkt l) = 0x1B ∧ onlyUses (pkt l) [(0, 0), (2, 3), (8, 15)] = true ∧
      s.ctxs.has 0 = true ∧ (s.ctx 0).prot = true ∧ (vaRead s 0 0 (leNum (pkt l) 8 8) 80).isSome = true :=
  ⟨by unfold first; decide +kernel, by decide +kernel, by decide +kernel, by decide, by decide, by decide +kernel⟩
theorem witness_NamedPacketResults_bpset :
    let l := [(0, 0x1C), (8, 0xFFFFFFFF), (12, 31), (13, 7), (14, 7), (16, 4)]
    let s := { queueState true [l] State.reset with
      launches := [(launchKey 0 1, { launch0 with pkt := pkt [(0, 1), (4, 32), (8, 4)], done := false })] }
    first s true l ∧ opcodeOf (pkt l) = 0x1C ∧ flagsOf (pkt l) = 0 ∧ debugCtx s (pkt l) = none ∧
      leNum (pkt l) 14 1 = 7 ∧ leNum (pkt l) 12 1 = 31 ∧ leNum (pkt l) 4 4 = 0 ∧ leNum (pkt l) 16 8 % 4 = 0 ∧ leNum (pkt l) 16 8 ≠ 0 ∧
      namesGroups s 0 0 0xFFFFFFFF 31 = true ∧ leNum (pkt [(0, 0x1C), (14, 7)]) 16 8 = 0 := by
  refine ⟨?_, ?_, ?_, ?_, ?_, ?_, ?_, ?_, ?_, ?_, ?_⟩ <;> (try unfold first) <;> decide +kernel
theorem witness_NamedPacketResults_bpset_clears :
    let l := [(0, 0x1C), (8, 0xFFFFFFFF), (12, 0xFF), (13, 0xFF)]
    let s := queueState true [l] State.reset
    first s true l ∧ opcodeOf (pkt l) = 0x1C ∧ debugCtx s (pkt l) = none ∧ leNum (pkt l) 12 1 = 0xFF ∧
      namesGroups s 0 0 0xFFFFFFFF 0xFF = true ∧ leNum (pkt l) 16 8 = 0 := by
  refine ⟨?_, ?_, ?_, ?_, ?_, ?_⟩ <;> (try unfold first) <;> decide +kernel
/-- A stopped group of team 0, launch 1. -/
def stoppedAt : State := at' 0 (withRows 1) id fun p => { p with st := 2 }
theorem witness_NamedPacketResults_debug :
    let l := [(0, 0x1C), (1, 5), (4, 1), (13, 0xFF), (24, 0x10040)]
    let s := queueState true [l] stoppedAt
    first s true l ∧ opcodeOf (pkt l) = 0x1C ∧ flagsOf (pkt l) = 5 ∧ debugCtx s (pkt l) = none ∧
      ((debugGroup s (pkt l)).map fun x => groupStopped s x.1 x.2.1 x.2.2.1 x.2.2.2) = some true ∧ leNum (pkt l) 24 8 % 16 = 0 ∧
      inHbmOrHost (leNum (pkt l) 24 8) = true ∧ (paTake s (leNum (pkt l) 24 8) 396).isSome = true ∧ ((debugGroup s (pkt l)).map fun x => (x.2.1.mapped 0 (leNum (pkt l) 14 1)).isSome) = some true := by
  refine ⟨?_, ?_, ?_, ?_, ?_, ?_, ?_, ?_, ?_⟩ <;> (try unfold first) <;> decide +kernel

theorem witness_TimedCommandResults :
    let l := [(0, 0x18), (2, 3), (3, 8)]
    let s := queueState true [l] State.reset
    first s true l ∧ (entry true).priv = true ∧ opcodeOf (pkt l) = 0x18 ∧ onlyUses (pkt l) [(0, 0), (2, 3)] = true ∧
      leNum (pkt l) 2 1 ≤ 3 ∧ leNum (pkt l) 3 1 ≤ 8 :=
  ⟨by unfold first; decide +kernel, by decide, by decide +kernel, by decide +kernel, by decide +kernel, by decide +kernel⟩
theorem witness_TimedCommandResults_complete :
    let s := { State.reset with hg := { Headgate.reset with queues := [(0, { UQueue.new with block := some (.command [0x11] []) })] } }
    (s.queue 0).block = some (.command [0x11] []) ∧ commandDone s [0x11] [] = true := by decide

theorem witness_PrivilegeOfPackets : let l := [(0, 0x1F)]
    let s := queueState false [l] State.reset
    first s false l ∧ (entry false).priv = false ∧ opcodeOf (pkt l) = 0x1F ∧ flagsOf (pkt l) = 0 ∧ privEvent 0 0x1F 0 (.powercap 0) :=
  ⟨by unfold first; decide +kernel, by decide, by decide +kernel, by decide +kernel, rfl⟩
theorem witness_PrivilegeOfPackets_destroys : privEvent 0 4 1 (.fieldsetDestroy 0) ∧ privEvent 0 5 1 (.setctxDestroy 0) ∧
    privEvent 0 0x1C 5 (.dbgctlWrite 0) := ⟨rfl, rfl, by unfold privEvent; simp⟩

theorem witness_QueueEvents :
    let l := [(0, 3)]
    let s := queueState true [l] State.reset
    s.hg.en = true ∧ 0 < s.hg.qtlen.toNat ∧ slotOf s 0 = some 0 ∧ (s.hg.slots.lowestFree 128).isSome = true ∧
      queueEntry s 0 = some (entry true) ∧ (qRead s 0xFFFF 0 8).isSome = true ∧ s.hg.slots.get? 0 = some ⟨0, true⟩ ∧
      opcodeOf (pkt l) = 3 ∧ onlyUses (pkt l) [(0, 0), (8, 23)] = true ∧ leNum (pkt l) 8 8 % 8 = 0 ∧ State.reset.hg.en = false :=
  ⟨by decide, by decide, by decide, by decide, by decide +kernel, by decide +kernel, by decide, by decide +kernel, by decide +kernel,
    by decide +kernel, by decide⟩
theorem witness_QueueEvents_waits :
    let s := queueState true [] State.reset
    let u := updQ { s with hg := { s.hg with slots := [], orphans := [(0, (0, 0))] } } 0 fun x => { x with block := some (.waitmem 0 0) }
    let v := updQ s 0 fun x => { x with block := some (.signal []) }
    slotOf u 0 = none ∧ u.hg.orphans.get? 0 = some (0, 0) ∧ queueEntry u 0 = some (entry true) ∧ (u.queue 0).block = some (.waitmem 0 0) ∧
      (v.queue 0).block = some (.signal []) ∧ launchesSettled v 0 = true :=
  ⟨by decide, by decide, by decide +kernel, by decide, by decide, by decide⟩

/-! ## Homes, replies, results, links, errors -/

/-- A request at its home. -/
def req0 (k : ReqKind) : Req := { Req.blank with kind := k, stage := .sent, mask := BitVec.allOnes 64, op := 0 }
theorem witness_HomeResults : let s := { State.reset with reqs := [(5, req0 .write)] }
    servable s 5 (req0 .write) = true ∧ portOpen s (req0 .write) = true ∧ targetOf (req0 .write).pa = .hbm ∧
      (s.die 0).msc.get? 0 = none ∧ poisoned s 0 = false ∧ hbmTurn s (req0 .write) = true ∧ forwardTo s (req0 .write) = none ∧
      (req0 .write).vaultOff = none ∧ doorbellAt s (req0 .write).pa = none := by decide
/-- A request of a field of class 3 beside one of class 0; one for host memory whose home's link is down. -/
theorem witness_HomeResults_class : let q := { req0 .read with field := 1, va := 64, pa := 64 }
    let s := { State.reset with fields := [(1, { field0 with cls := 3 })], reqs := [(5, req0 .write), (6, q)] }
    servable s 5 (req0 .write) = true ∧ q ∈ waitingWith s (req0 .write) ∧ (req0 .write).target = .hbm ∧ (req0 .write).cls s < q.cls s :=
  ⟨by decide +kernel, by decide +kernel, by decide, by decide⟩
theorem witness_HomeResults_forward : let r := { req0 .read with pa := 2 ^ 51, home := 0 }
    let s := { State.reset with dies := [(0, { Die.reset with portUp := false })], reqs := [(5, r)] }
    servable s 5 r = true ∧ hbmTurn s r = true ∧ (forwardTo s r).isSome = true :=
  ⟨by decide +kernel, by decide +kernel, by decide +kernel⟩
theorem witness_HomeResults_atomic : let s := { State.reset with reqs := [(5, req0 .atomic)] }
    servable s 5 (req0 .atomic) = true ∧ (req0 .atomic).pa % zatom (req0 .atomic).op = 0 := by decide

theorem witness_RequestEvents :
    (let r := { req0 .write with stage := .walk, after := [9] }
     let s := { State.reset with reqs := [(5, r)], dies := [(0, die0 [])], ctxs := [(0, ctx0)] }
     s.reqs.get? 5 = some r ∧ (∀ k ∈ r.after, isSent s k = true) ∧ tableAsked s 5 = false ∧ behind s 5 r (· == .walk) = false ∧
       behind s 5 r (fun x => match x with | .held _ => true | _ => false) = false ∧ r.phys = false ∧ r.vaultOff = none ∧ r.probe = false ∧
       ∃ pa sl, (r.xlate s).1 = .ok pa sl) ∧
    (let r := { req0 .write with stage := .replied, who := .access 3 0 }
     let s := { State.reset with reqs := [(5, r), (6, { r with who := .writeback })] }
     s.reqs.get? 5 = some r ∧ r.hops = [] ∧ r.bad = 0 ∧ r.kind ≠ .read ∧ replyWaits s r = false) :=
  ⟨⟨by decide +kernel, by decide +kernel, by decide +kernel, by decide +kernel, by decide +kernel, by decide +kernel, by decide +kernel,
    by decide +kernel, 0x10000, false, by decide +kernel⟩, by decide +kernel, by decide +kernel, by decide +kernel, by decide +kernel, by decide +kernel⟩
theorem witness_RequestEvents_walk :
    let s := { queueState false [[], [(0, 1), (16, synonymBase + 1), (24, 0x20000), (32, 1)]] (at0 1) with
      ctxs := [(0, { ctx0 with syntab := 64 })], accs := [(4, acc0 .load (.scalar 1) [lane0 .todo (synonymBase + 8)])] }
    s.accs.get? 4 = some (acc0 .load (.scalar 1) [lane0 .todo (synonymBase + 8)]) ∧ s.teams.get? 0 = some (envIn s).team ∧
      stalledLane s (acc0 .load (.scalar 1) [lane0 .todo (synonymBase + 8)]) (envIn s).team = some (lane0 .todo (synonymBase + 8)) ∧
      tableAsked s 4 = false ∧ (match synWalkGot s 0 0 (some []) (synonymBase + 8) with | .entry _ => true | _ => false) = true := by
  exact ⟨by decide +kernel, by rfl, by decide +kernel, by decide, by decide +kernel⟩
/-- A walk of die 1 whose root table die 0 holds, and the answer of the sector that it asks for. -/
theorem witness_RequestEvents_asks :
    let r := { req0 .write with stage := .walk, die := 1, ctx := 0 }
    let s := { State.reset with reqs := [(5, r)], ctxs := [(0, ctx0)] }
    let a := { req0 .read with stage := .replied, who := .table 5, die := 1 }
    let u := { State.reset with reqs := [(5, r), (6, a)] }
    tableAsked s 5 = false ∧ r.phys = false ∧ r.vaultOff = none ∧ (match r.xlate s with | (.ask _, _) => true | _ => false) = true ∧
      u.reqs.get? 6 = some a ∧ a.hops = [] ∧ a.bad = 0 ∧ a.fillScope = none ∧ replyWaits u a = false := by
  refine ⟨?_, ?_, ?_, ?_, ?_, ?_, ?_, ?_, ?_⟩ <;> decide +kernel
theorem witness_RequestEvents_others :
    let s := { State.reset with
      ring := some { log2n := 6, ring := 0x10000, widx := 0x20000, ridx := 0x20040, vector := 0 }, faults := [(2, { fault0 with token := none })],
      dies := [(0, { die0 [] with epoch := 1 })],
      reqs := [(5, { req0 .beat with die := 0, home := 1 })] }
    (ringRoom s).isSome = true ∧ heldFaults s ≠ [] ∧ (s.die 0).told.getD 3 0 < (s.die 0).epoch ∧
      (s.reqs.find? fun e => e.2.kind == .beat && e.2.die == 0 && e.2.home == 1 && servable s e.1 e.2).isSome = true :=
  ⟨by decide +kernel, by decide +kernel, by decide +kernel, by decide +kernel⟩

theorem witness_ReturnResults :
    let a := acc0 .load (.scalar 3) [lane0 .done 0]
    let b := acc0 .load (.rows 0 none) [lane0 .done 0]
    let c := acc0 .store .none [lane0 .done 0]
    let s := { at' 1 (withRows 1) id id with accs := [(4, a), (5, b), (6, c)] }
    s.accs.get? 4 = some a ∧ a.complete = true ∧ s.teams.get? 0 = some (envIn s).team ∧ (envIn s).team.isSaved = false ∧
      (envIn s).team.groups.get? 0 = some (envIn s).grp ∧ (envIn s).grp.ended = false ∧ a.counter = some true ∧ b.counter = some true ∧
      c.counter = some false ∧ (∀ w ∈ c.wbs, s.reqs.has w = false) ∧
      ((envIn s).team.res.rows.get? 0).map (·.refcnt) = some 1 :=
  ⟨by decide, by decide, by rfl, by rfl, by rfl, by rfl, by decide, by decide, by decide, by decide, by rfl⟩

theorem witness_CopyLandingResults :
    let c := { copy0 with batch := none }
    let s := { at0 2 with copies := [(7, c)] }
    landsNow s 7 0 c (envIn s).team ∧ c.kind = .ld ∧ c.trackNone = true :=
  ⟨⟨⟨0, 0, []⟩, 0, _, by decide +kernel, by rfl, by rfl, by rfl, by rfl, rfl, rfl, rfl, by decide +kernel, by decide +kernel,
    by decide +kernel, by decide +kernel, by decide +kernel, by decide⟩, rfl, by decide +kernel⟩
/-- The same counted at a barrier at byte 4096 of the scratchpad, which expects two sectors; and at slot 63 of a ring there. -/
theorem witness_CopyLandingResults_barrier :
    let c := { copy0 with batch := none, desc := [0, 0, 0, 0, 0, 0, 4096, 0] }
    let t : TBar := ⟨0, 0, 0, 2, 2, 0⟩
    let s := { at' 2 (fun T => { T with res := { T.res with scr := T.res.scr.store 4096 16 t.word } }) id id with copies := [(7, c)] }
    landsNow s 7 0 c (envIn s).team ∧ c.trackNone = false ∧ t.ok ∧ (envIn s).team.res.scr.load c.track 16 = t.word ∧
      landsClear c 0 c.track 16 :=
  ⟨⟨⟨0, 0, []⟩, 0, _, by decide +kernel, by rfl, by rfl, by rfl, by rfl, rfl, rfl, rfl, by decide +kernel, by decide +kernel,
    by decide +kernel, by decide +kernel, by decide +kernel, by decide⟩, by decide +kernel, by unfold TBar.ok; decide, by decide +kernel,
    by unfold landsClear; decide +kernel⟩
theorem witness_CopyLandingResults_slot :
    let c := { copy0 with kind := .slot, batch := none, desc := [0, 0, 0, 0, 0, 0, 4096 + 63 * 2 ^ 21, 0] }
    let s := { at0 2 with copies := [(7, c)] }
    landsNow s 7 0 c (envIn s).team ∧ c.slot = 63 ∧ landsClear c 0 c.track (20 + 4 * c.slot) :=
  ⟨⟨⟨0, 0, []⟩, 0, _, by decide +kernel, by rfl, by rfl, by rfl, by rfl, rfl, rfl, rfl, by decide +kernel, by decide +kernel,
    by decide +kernel, by decide +kernel, by decide +kernel, by decide⟩, by decide +kernel, by unfold landsClear; decide +kernel⟩
/-- Slot 63 filling, its counter at 64, the last sector to land. -/
theorem witness_CopyLandingResults_lastSector :
    let c := { copy0 with kind := .slot, batch := none, desc := [0, 0, 0, 0, 0, 0, 4096 + 63 * 2 ^ 21, 0] }
    let fills (m : Memory) : Memory := (m.store (4096 + 15) 1 0x40).store (4096 + 16 + 4 * 63) 4 64
    let s := { at' 2 (fun T => { T with res := { T.res with scr := fills T.res.scr } }) id id with copies := [(7, c)] }
    landsNow s 7 0 c (envIn s).team ∧ slotTag s 0 c.track 63 = 1 ∧ slotCounter s 0 c.track 63 = 64 ∧
      landsClear c 0 c.track (20 + 4 * c.slot) :=
  ⟨⟨⟨0, 0, []⟩, 0, _, by decide +kernel, by rfl, by rfl, by rfl, by rfl, rfl, rfl, rfl, by decide +kernel, by decide +kernel,
    by decide +kernel, by decide +kernel, by decide +kernel, by decide⟩, by decide +kernel, by decide +kernel,
    by unfold landsClear; decide +kernel⟩
/-- A landed sector that waits in L2. -/
def landed0 : LandedSector := { team := 0, copy := 7, ctx := 0, key := 0, mask := 1, data := 0, field := 0 }
theorem witness_CopyLandingResults_queue :
    let s := { State.reset with dies := [(0, { Die.reset with writeQ := [landed0] })] }
    ((s.die 0).writeQ.filter fun x => x.copy == 7)[0]? = some landed0 ∧
      ∀ y ∈ (s.die 0).writeQ.takeWhile fun y => y != landed0, y.team = landed0.team → y.key ≠ landed0.key := by decide +kernel

/-- A queue word on its way. -/
def msg0 (op : QueueOp) : QueueMsg :=
  { team := 0, agent := some 0, path := 0, ctx := 0, q := 0, op, rlx := true, sa := 53, sd := 1, data := List.replicate 8 7, atHome := false,
    after := [], hops := [], src := 0, home := 0, answer := none, wire := [] }
def queueHome (op : QueueOp) (q : WorkQ) : State := { at0 2 with workQs := [(workKey 0 0, q)], msgs := [(4, msg0 op)] }
theorem witness_QueueHomeResults : let s := queueHome .push workQ0
    s.msgs.get? 4 = some (msg0 .push) ∧ s.workQs.get? (workKey 0 0) = some workQ0 ∧ (∀ r ∈ (msg0 .push).after, isSent s r = true) ∧
      workQ0.entries.length < workQ0.cap ∧ workQ0.pushers = [] ∧ workQ0.waiters = [] := by decide
theorem witness_QueueHomeResults_full : let q := { workQ0 with entries := [⟨List.replicate 8 1, []⟩] }
    let s := queueHome .wait q
    s.workQs.get? (workKey 0 0) = some q ∧ q.cap ≤ q.entries.length ∧ (msg0 .wait).sa + 8 ≤ 61 ∧
      s.teams.get? 0 = some (envIn s).team ∧ (envIn s).team.groups.get? 0 = some (envIn s).grp ∧ (envIn s).grp.late = [] :=
  ⟨by decide, by decide, by decide, by rfl, by rfl, by rfl⟩

/-- A group held at a wait of one condition since tick 0, and at a word for rows. -/
def wait0 (kind : Word) : WaitRec :=
  { any := true, conds := [⟨kind, 0, 0, 0⟩], timeout := 3, since := 0, sd := 1, got := [], poll := none, polled := none,
    base := [], seen := [] }
def heldAt (h : Hold) (ft : Team → Team) (fg : Group → Group) : State :=
  { at' 0 ft fg (fun p => { p with hold := some h }) with refclk := 5000 }
theorem witness_HeldWordEvents : let w := wait0 3
    let s := heldAt (.wait w) id id
    s.teams.get? 0 = some (envIn s).team ∧ (envIn s).team.active = true ∧ holdOf s 0 (some 0) 0 = some (.wait w) ∧ w.reads = true ∧
      w.late s.refclk = true := ⟨by rfl, by rfl, by rfl, by decide, by decide⟩
theorem witness_HeldWordEvents_late : let w := wait0 0
    let s := heldAt (.wait w) id id
    holdOf s 0 (some 0) 0 = some (.wait w) ∧ w.reads = false ∧ w.late s.refclk = true ∧ w.ends (w.satisfied s 0 (some 0) 0) = false :=
  ⟨by rfl, by decide, by decide, by decide +kernel⟩
theorem witness_HeldWordEvents_others :
    let s := heldAt (.rows 0 [0] false) (fun t => { t with res := { t.res with sizes := [0, 0, 0, 0], reserve := 0 } }) id
    let u := heldAt (.eqp 0 0) (twoGroups false false) id
    holdOf s 0 (some 0) 0 = some (.rows 0 [0] false) ∧ 4096 ≤ s.refclk - 0 ∧ (envIn s).team.hasRows 0 [0] false = false ∧
      (envIn u).team.groups.get? 0 = some (envIn u).grp ∧ (envIn u).grp.atEqp = some (0, 0) ∧ (envIn u).grp.service = false ∧
      migrating (envIn u).team = false ∧ 1024 ≤ u.refclk - 0 :=
  ⟨by rfl, by decide, by decide, by rfl, by rfl, by rfl, by decide, by decide⟩

/-- Link 0 with these flits on its wire. -/
def onWire (ws : List Wire) : State := State.reset.setLink 0 { Link.reset with wire := ws }
/-- A flit of SEQ 0, and one on the wire of a module with its ACK. -/
def flit0 : Flit := { seq := 0, type := .bytes, som := true, body := [], msg := some (.req 5), eom := true }
def wire0 (m : Nat) : Wire := ⟨flit0, m, some 0⟩
theorem witness_LinkEvents :
    linkUp (onWire [wire0 0]) 0 = true ∧ ((onWire [wire0 0]).link 0).wire = [wire0 0] ∧ flit0.type = .bytes ∧
    (let s := { onWire [] with refclk := 5 }
     linkUp s 0 = true ∧ 4 < s.refclk - (s.link 0).ackSince ∧ (s.link (reverseOf 0)).inService ≠ []) ∧
    (let s := { State.reset with refclk := 32 }.setLink 0 { Link.reset with nak := some (0, 0), buf := [(flit0, 0)] }
     linkUp s 0 = true ∧ (s.link 0).nak = some (0, 0) ∧ (s.link 0).buf = [(flit0, 0)] ∧ 32 ≤ s.refclk - 0 ∧ (s.link 0).inService ≠ []) := by
  decide
theorem witness_LinkEvents_reserved : let w : Wire := ⟨{ flit0 with type := .reserved 7 }, 0, none⟩
    linkUp (onWire [w]) 0 = true ∧ ((onWire [w]).link 0).wire = [w] ∧ ∃ c, w.flit.type = .reserved c := ⟨by decide, by decide, 7, rfl⟩
theorem witness_LinkEvents_retrain :
    let m := { Module.reset with retrain := true, lo := [0, 1, 2] }
    let s := State.reset.setLink 0 { Link.reset with modules := [(0, m), (1, { m with lo := [] }), (2, { m with st := 1 })] }
    ((s.link 0).module 0).retrain = true ∧ ((s.link 0).module 0).st = 0 ∧ 3 ≤ ((s.link 0).module 0).lo.length ∧
      ((s.link 0).module 0).hi.length < 3 ∧ ((s.link 0).module 1).retrain = true ∧ ((s.link 0).module 1).lo.length < 3 ∧
      ((s.link 0).module 2).retrain = true ∧ ((s.link 0).module 2).st ≠ 0 := by decide
theorem witness_FlitModules : linkUp (onWire [wire0 3]) 0 = true ∧ ((onWire [wire0 3]).link 0).wire = [wire0 3] ∧
    (wire0 3).flit.type = .bytes ∧ (wire0 3).flit.body.length ≤ 112 := by decide

theorem witness_LocalityEvents :
    let s := { State.reset with
      clock16 := 16 * 4096 * 4
      cores := [(0, { Core.reset 0 with slices := [(0, { Slice.reset 0 0 with count := some 0 })] })]
      trace := { Trace.reset with enable := true, meanlog := 12 } }
    (s.core 0).llHalved < s.coreClock 0 / 4096 ∧ (s.core 0).llCapped < s.coreClock 0 / 512 ∧ s.trace.enable = true ∧ s.trace.meanlog ≠ 0 ∧
      (s.slice 0 0).count = some 0 ∧ (s.slice 0 0).tag = none := by decide

theorem witness_ErrorAndPowerEvents :
    let s := State.reset.setCore 0 { Core.reset 0 with remapped := [1] }
    s.boot.powered = true ∧ targetOf 0 ≠ .none ∧ (s.core 0).fenced = false ∧ 0 < coreSlices 0 ∧ 31 < sliceLanes 0 ∧
      (∃ d ∈ (s.core 0).remapped, d / 128 = 0 ∧ d % 128 / 32 = 31 / 32) ∧
      (∀ d ∈ (s.core 0).remapped ++ (s.core 0).defects, ¬ (d / 128 = 1 ∧ d % 128 / 32 = 31 / 32)) ∧ sliceGroups s 0 1 = 0 ∧
      4 ≤ s.health.clock := by
  refine ⟨by decide, by decide, by decide, by decide, by decide, ⟨1, by decide, by decide⟩, by decide, by decide, by decide⟩

/-- A device with one dirty sector, with key 0, in the L1 of core 0 and in the L2 of die 0. -/
def dirtyCaches (bad : Bool) : State :=
  (State.reset.setCore 0 { Core.reset 0 with l1 := ⟨[(0, ⟨true, 1, 7, bad⟩)], [(0, ⟨0, 3, .normal, 0, 0, 0⟩)], []⟩ }).setDie 0
    { Die.reset with l2 := ⟨[(0, ⟨true, 1, 7, bad⟩)], []⟩ }
theorem witness_ErrorAndPowerEvents_caches : let s := dirtyCaches false
    s.boot.powered = true ∧ ((s.die 0).l2.sect 0).dirty ≠ 0 ∧ ((s.core 0).l1.sect 0).dirty ≠ 0 := by decide

theorem witness_RegisterAndWindowAccess :
    let s := { State.reset with
      dies := [(0, { Die.reset with portUp := true })]
      ctxs := [(0, ctx0)]
      hg := { Headgate.reset with windows := [(0, BitVec.ofNat 128 (2 ^ 24 + 3))] } }
    let w := s.hg.windows.getD 0 0
    s.boot.powered = true ∧ s.hg.en = false ∧ (s.die 0).portUp = true ∧ windowRefuses s w 0 8 false = false ∧
      windowRefuses s 0 0 8 false = true ∧ (65536 * (w.toNat / 2 ^ 64 % 2 ^ 48) + 56) % 64 + 8 ≤ 64 := by decide
theorem witness_RegisterAndWindowAccess_enabled : let s := { State.reset with hg := { Headgate.reset with qtbase := 1 } }
    s.hg.en = true ∧ s.boot.powered = true ∧ (1 : Dword).getLsbD 0 = true ∧ (2 : Dword).getLsbD 0 = false ∧
      (∀ e ∈ s.reqs, e.2.stage = .sent → targetOf e.2.pa ≠ .cxl) := by decide

theorem witness_BootResults : State.reset.boot.powered = true ∧ State.reset.boot.st = 1 ∧
    { State.reset with boot := { Boot.reset with st := 2 } }.boot.st = 2 := by decide
theorem witness_ResetResults : State.reset.boot.powered = true ∧ State.reset.boot.st ≠ 2 ∧
    { State.reset with boot := { Boot.reset with powered := false } }.boot.powered = false ∧ (0 : Dword) ≠ 0xD0E5 := by decide

/-! ## Teams come and go -/

/-- A launch packet of one group on D-cores, entered at address 4, and its launch. -/
def launch1 : Launch :=
  { launch0 with pkt := pkt [(0, 1), (4, 1), (8, 4), (16, 1), (20, 1), (24, 4), (32, 4), (40, 0)], todo := [0], done := false }
/-- A field of every core. -/
def withField (s : State) : State :=
  { s with
    fields := [(0, ⟨0, BitVec.allOnes 128, [], [], []⟩)]
    ctxs := [(0, { ctx0 with fields := 1 })]
    launches := [(launchKey 0 1, launch1)] }

theorem witness_TeamMovement_admission : let s := withField State.reset
    admissionOrder s = [(launchKey 0 1, launch1)] ∧ (s.ctx launch1.ctx).prot = false ∧ (admitLaunch s (launchKey 0 1) launch1).isSome = true ∧
      (placeFor s launch1.fieldNo launch1.pref launch1.ctx (launch1.need launch1.pref) (soloOk s launch1)) = some 0 ∧
      launch1.batch = [0] := by
  exact ⟨by decide +kernel, by decide +kernel, by decide +kernel, by decide +kernel, by decide +kernel⟩
theorem witness_TeamMovement_ends :
    let s := { at' 0 (fun t => { t with drain := some 0 }) id id with refclk := 2 ^ 40, faults := [(2, fault0)], ctxs := [(0, ctx0)] }
    (envIn s).team.halted = false ∧ (envIn s).team.stat = .resident ∧ (envIn s).team.drain = some 0 ∧
      (∃ f ∈ faultsOf s 0, svcLimit s 0 < s.refclk - f.2.since) := ⟨by rfl, by rfl, by rfl, (2, fault0), by decide, by decide⟩
theorem witness_TeamMovement_saves :
    let s := { at' 0 (fun t => { t with stat := .saving }) id id with ctxs := [(0, { ctx0 with savearea := 1 })], cores := [(0, { Core.reset 0 with world := .clearing (some 3) })] }
    saveReady s 0 (envIn s).team = true ∧ (s.core 0).world = .clearing (some 3) ∧ (s.core 0).fenced = false :=
  ⟨by decide +kernel, by rfl, by rfl⟩

/-- A team whose groups stand at point 0 on their way to the L-cores. -/
def moving (t : Team) : Team := { t with target := 0 }
def atPoint (sects : List (List (Nat × Nat))) (l : Launch) : State :=
  { queueState false sects (at' 0 moving id fun p => { p with clause := none, hold := some (.eqp 0 0) }) with
    ctxs := [(0, ctx0)], launches := [(launchKey 0 1, l)] }
theorem witness_TeamMovement_restore :
    let s := { withField State.reset with teams := [(0, { fetchTeam with stat := .saved 0 true, groups := [(0, freshGroup 0 0 0)] })] }
    let T := { fetchTeam with stat := .saved 0 true, groups := [(0, freshGroup 0 0 0)] }
    s.teams.get? 0 = some T ∧ launchOf s T = some launch1 ∧ restorable s 0 T = true ∧ (restoreOther s 0 0 T launch1).isNone = true ∧
      placeFor s launch1.fieldNo T.id.image T.id.ctx (T.need launch1 T.id.image) (soloOk s launch1) = some 0 :=
  ⟨by rfl, by decide +kernel, by decide +kernel, by decide +kernel, by decide +kernel⟩
theorem witness_TeamMovement_mismatch : let s := atPoint [] launch1
    launchOf s (envIn s).team = some launch1 ∧ eqpReady (envIn s).team = some 0 ∧ (envIn s).team.active = true ∧ drained s 0 (envIn s).team = true ∧
      mapFails s 0 (launch1.num 40 8) 0 1 = none ∧ migrateCheck (envIn s).team launch1 1 (mapTable s 0 (launch1.num 40 8) 0 1) = some 1 :=
  ⟨by decide +kernel, by decide +kernel, by rfl, by decide +kernel, by decide +kernel, by decide +kernel⟩
/-- A launch whose directory of points stands at 0x40, and its table for point 0 and L-cores. -/
def launch2 : Launch := { launch1 with pkt := pkt [(0, 1), (4, 1), (8, 4), (16, 1), (17, 1), (20, 1), (24, 4), (32, 4), (40, 0x40)] }
def table0 : MapTable := { tiles := 0, sprows := 0, spbase := 0, splive := 0, entries := [], twin := 4, count := 0 }
/-- The team at its point, with the directory and the table of that launch and a field of these cores. -/
def atTwin (cores : BitVec 128) : State :=
  { atPoint [[], [(0, 1), (16, 4), (36, 0x40)], [(2, 1)]] launch2 with fields := [(0, { field0 with cores })] }
theorem witness_TeamMovement_stays : let s := atTwin 0
    launchOf s (envIn s).team = some launch2 ∧ eqpReady (envIn s).team = some 0 ∧ (envIn s).team.active = true ∧
      drained s 0 (envIn s).team = true ∧ mapFails s 0 (launch2.num 40 8) 0 1 = none ∧
      mapTable s 0 (launch2.num 40 8) 0 1 = some table0 ∧ migrateCheck (envIn s).team launch2 1 (some table0) = none ∧
      spotFor s launch2.fieldNo 1 0 (moveNeed (envIn s).team launch2 1 table0) (fun _ => true) = .nowhere :=
  ⟨by decide +kernel, by decide +kernel, by rfl, by decide +kernel, by decide +kernel, by decide +kernel, by decide +kernel, by decide +kernel⟩
/-- The directory's sector is poisoned. -/
theorem witness_TeamMovement_poisoned : let s := { atTwin 0 with store := { (atTwin 0).store with poison := [0x401] } }
    drained s 0 (envIn s).team = true ∧ mapFails s 0 (launch2.num 40 8) 0 1 = some (0x0B, 2) := ⟨by decide +kernel, by decide +kernel⟩
/-- MIGRATION moves the team: a core of the other kind admits it, and its leaving has nothing to write. -/
theorem witness_TeamMovement_moves : let s := atTwin (BitVec.allOnes 128)
    drained s 0 (envIn s).team = true ∧ mapTable s 0 (launch2.num 40 8) 0 1 = some table0 ∧
      spotFor s launch2.fieldNo 1 0 (moveNeed (envIn s).team launch2 1 table0) (fun _ => true) = .core 24 ∧
      leavesDirty s 0 (envIn s).team = false ∧ leftSent s (envIn s).team = true :=
  ⟨by decide +kernel, by decide +kernel, by decide +kernel, by decide +kernel, by decide +kernel⟩
theorem witness_TeamMovement_leaves : let s := (atTwin (BitVec.allOnes 128)).setCore 0 { Core.reset 0 with l1 := (dirtyCaches false).core 0 |>.l1 }
    drained s 0 (envIn s).team = true ∧ mapTable s 0 (launch2.num 40 8) 0 1 = some table0 ∧
      spotFor s launch2.fieldNo 1 0 (moveNeed (envIn s).team launch2 1 table0) (fun _ => true) = .core 24 ∧
      leavesDirty s 0 (envIn s).team = true :=
  ⟨by decide +kernel, by decide +kernel, by decide +kernel, by decide +kernel⟩
theorem witness_TeamMovement_clears : let s := (atTwin (1 <<< 24)).setCore 24 { Core.reset 24 with world := .prot 5 }
    drained s 0 (envIn s).team = true ∧ mapTable s 0 (launch2.num 40 8) 0 1 = some table0 ∧
      spotFor s launch2.fieldNo 1 0 (moveNeed (envIn s).team launch2 1 table0) (fun _ => true) = .clear 24 :=
  ⟨by decide +kernel, by decide +kernel, by decide +kernel⟩
theorem witness_TeamMovement_rest :
    let x := BitVec.ofNat 256 (2 ^ 63)
    let s := { withField State.reset with
      cores := [(0, { Core.reset 0 with fwd := [(0, [x])] })]
      teams := [(0, fetchTeam)] }
    ((s.core 0).fwd.getD 0 [])[0]? = some x ∧ x.getLsbD 63 = true ∧ ∀ y ∈ (s.ctxLive 0).moving, y = rangeOf x :=
  ⟨by decide +kernel, by decide +kernel, by decide +kernel⟩

/-! ## Words, steps, encodings, the store -/

theorem witness_WordEnd : issuer (at0 0) = .group (envIn (at0 0)) ∧ (envIn (at0 0)).path.hold.all Hold.unmarked = true ∧ outstanding (landAll (at0 0) 0 0) 0 0 = false ∧
    (let s := { at0 0 with accs := [(4, acc0 .load (.scalar 1) [lane0 .out 0])] }
     outstanding (landAll s 0 0) 0 0 = true) := ⟨by rfl, by rfl, by decide +kernel, by decide +kernel⟩
theorem witness_WordEnd_stop : let T := (envIn (at0 0)).team
    let G := (envIn (at0 0)).grp
    (at0 0).teams.get? 0 = some T ∧ T.groups.get? 0 = some G ∧ G.stop = none ∧
      (G.paths.get? 0).isSome = true := ⟨by rfl, by rfl, by rfl, by rfl⟩
/-- The state in which the one path of `at'` issues. -/
noncomputable def issuing (s : State) (e : Env) : State :=
  let r := refill { s with turn := (Station.slice 0 0).key s + 1 } 0 0
  selectPath { r.setSlice 0 0 ((r.slice 0 0).clocked (some (e.t, e.g))) with cur := some ⟨e.t, .group e.g⟩ } e.t e.g e.p
/-- The group in its slice's active set. -/
def active (s : State) : State := s.setSlice 0 0 { Slice.reset 0 0 with active := [(0, 0)] }
theorem witness_StepRunsDecoded : let s := active (at' 0 id id fun p => { p with clause := some (clauseOf 0 0x06186FFF) })
    let u := issuing s (envIn s)
    sliceChooses s u (envIn u) ∧ comparatorHit u (envIn u) = false ∧
      (envIn u).path.clause = some (clauseOf 0 0x06186FFF) ∧ (clauseOf 0 0x06186FFF).words = 0x06186FFF :: [0x20000000] ∧
      classAccepts 0 (majorOf 0x06186FFF) = true ∧ decodeWord 0x06186FFF = .ok (.saddi false 6 6 0xFFF) ∧
      (placeOf (majorOf 0x06186FFF) (.saddi false 6 6 0xFFF)).group 0 = true ∧
      classAccepts 0 (majorOf 0x48410089) = false ∧ majorOf 0 = 0 ∧ 0x38 ≤ majorOf 0x70000000 :=
  ⟨⟨0, 0, _, .inl ⟨by rfl, by decide +kernel, rfl⟩, by decide +kernel, by decide +kernel, by decide +kernel, by rfl, by rfl⟩,
    by decide +kernel, by rfl, by rfl, by decide +kernel, by rfl, by decide +kernel, by decide +kernel, by decide +kernel, by decide +kernel⟩
theorem witness_StepRunsDecoded_clock : let s := { active (at0 0) with agenda := [.clock 0 [0]] }
    sliceTurn s 0 0 { s with agenda := [] } := .inr ⟨[], rfl, rfl⟩
theorem witness_StepRunsDecoded_idle : State.reset.agenda = [] ∧ nextStation State.reset = none := ⟨by rfl, by rfl⟩
theorem witness_StepRunsDecoded_stops :
    parse 0x1A140000 = .unallocated ∧ parse 0x1A249780 = .ok (.pld false 9 30) ∧ (Instr.pld false 9 30).check.isSome = true :=
  ⟨by rfl, by rfl, by rfl⟩
theorem witness_StepRunsDecoded_header :
    let s := active (withHeader 2 (at' 0 id id fun p => { p with clause := none }))
    let u := issuing s (envIn s)
    sliceChooses s u (envIn u) ∧ comparatorHit u (envIn u) = false ∧ (envIn u).path.clause = none ∧
      forwarded u 0 0 4 = 4 ∧ cached u (envIn u).team 4 4 ∧
      decodeHeader ((wordsOf (cachedBytes u (envIn u).team 4 4)).headD 0) = some (.clauseHeader 2 0 0 0 false) :=
  ⟨⟨0, 0, _, .inl ⟨by rfl, by decide +kernel, rfl⟩, by decide +kernel, by decide +kernel, by decide +kernel, by rfl, by rfl⟩,
    by decide +kernel, by rfl, by decide +kernel, ⟨by decide, by decide +kernel⟩, by decide +kernel⟩
theorem witness_StepRunsDecoded_sequencer : let s := seqAt' true 4 id fun q => { q with clause := some (clauseOf 4 0x66000000) }
    let u := { s with turn := (Station.seq 0 true).key s + 1, cur := some ⟨0, .flume⟩ }
    s.agenda = [] ∧ nextStation { s with turn := 2 ^ 32 } = some (.seq 0 true) ∧ issuer u = .seq (seqIn u) ∧ seqMay u (seqIn u) = true ∧
      (seqIn u).seq.clause = some (clauseOf 4 0x66000000) ∧ fiterWaits (seqIn u) 0x66000000 = false :=
  ⟨by rfl, by decide +kernel, by rfl, by decide +kernel, by rfl, by decide +kernel⟩
theorem witness_StepRunsDecoded_event : isEvent .deviceReset = true ∧
    { State.reset with agenda := [.event .deviceReset] }.agenda = [.event .deviceReset] := ⟨by rfl, by rfl⟩

theorem witness_EncodeDecode : (Instr.saddi false 6 6 0xFFF).check = none ∧ encode (.saddi false 6 6 0xFFF) = some 0x06186FFF :=
  ⟨by rfl, by rfl⟩
theorem witness_DecodeEncode : decodeWord 0x06186FFF = .ok (.saddi false 6 6 0xFFF) ∧
    decodeHeader 0x22000000 = some (.clauseHeader 2 1 0 0 false) := ⟨by rfl, by rfl⟩
theorem witness_StoreFormKept : StoreInv (State.reset.withFetchWord 32 0x06186FFF) ∧
    ∃ u, step (State.reset.withFetchWord 32 0x06186FFF) = .next u := ⟨⟨by rfl, by rfl⟩, _, by rfl⟩

/-- Groups 0 and 1 of a team, the name 0 of each mapped to a row of its own. -/
def apart (t : Team) : Team :=
  let u := withRows 2 t
  { u with groups := [(0, { freshGroup 0 0 0 with map := [(0, ⟨0, 0⟩)], paths := [(0, freshPath)] }),
                      (1, { freshGroup 0 0 1 with map := [(0, ⟨1, 1⟩)], paths := [(0, freshPath)] })] }
/-- The path of a group of team 0 in its place. -/
def envAt (s : State) (g : Nat) : Env := (envOf s 0 g 0).getD (envIn s)
theorem witness_RegroupResults_lanes :
    let s := at' 0 apart id id
    let r := envAt s 0
    let d := envAt s 1
    let ns := nameRange 0 0
    envOf s r.t r.g r.p = some r ∧ envOf s d.t d.g d.p = some d ∧ r.t = d.t ∧ r.g ≠ d.g ∧ r.grp.late = [] ∧ d.grp.late = [] ∧
      r.team.allMapped r.g ns = true ∧ d.team.allMapped d.g ns = true ∧ (rowsOf r ns ++ rowsOf d ns).Nodup ∧
      ∀ x ∈ rowsOf r ns ++ rowsOf d ns, ∃ row, r.team.res.rows.get? x = some row ∧ row.refcnt ≠ 0 :=
  ⟨by rfl, by rfl, by rfl, by decide, by rfl, by rfl, by decide, by decide, by decide, fun x hx => by
    have h : x = 0 ∨ x = 1 := by
      have e : rowsOf (envAt (at' 0 apart id id) 0) (nameRange 0 0) ++ rowsOf (envAt (at' 0 apart id id) 1) (nameRange 0 0) = [0, 1] := by rfl
      rw [e] at hx; simpa using hx
    rcases h with rfl | rfl <;> exact ⟨_, rfl, by decide⟩⟩

/-- One condition on the memory word at address 8. -/
def memCond : List (Nat × Word) := [(0, 100), (57, 3), (58, 7), (59, 8)]
theorem witness_WaitWordResults_memory : let s := at' 0 id (withS memCond) id
    57 + 4 * (0 + 1) ≤ 61 ∧ ((condAt (envIn s).agt 57).check s (envIn s).team).isNone = true ∧ (condAt (envIn s).agt 57).kind = 3 := by decide
theorem witness_WaitWordResults_sequencer :
    (let s := seqAt' true 0 id fun q => { q with s := [(28, 0x100)] }
     SeqAt s (seqIn s) 0 ∧ 28 + 4 * (0 + 1) ≤ 32 ∧ ((condAt (seqIn s).agt 28).check s (seqIn s).team).isNone = true ∧
       (condAt (seqIn s).agt 28).kind ≠ 3) ∧
    (let s := seqAt' false 0 id fun q => { q with s := [(28, 3), (29, 7), (30, 8)] }
     ((condAt (seqIn s).agt 28).check s (seqIn s).team).isNone = true ∧ (condAt (seqIn s).agt 28).kind = 3) :=
  ⟨⟨⟨rfl, rfl⟩, by decide, by decide, by decide⟩, by decide, by decide⟩

theorem witness_CallAndJumpWords_sequencer : let s := withTable (seqAt' true 0 id fun q => { q with s := [(30, 12)] })
    SeqAt s (seqIn s) 0 ∧ (31#6).toNat ≤ 31 ∧ ((seqIn s).seq.s.getD 31 0).toNat < (functionTable s (seqIn s).team).2 ∧
      cached s (seqIn s).team 0 8 ∧ ofBytes (cachedBytes s (seqIn s).team 0 8) ≠ 0 ∧ (seqIn s).seq.cstack.length < 8 ∧
      (30#6).toNat + 1 ≤ 31 ∧ pinned s (seqIn s).team ((seqIn s).seq.s.getD 31 0 ++ (seqIn s).seq.s.getD 30 0) :=
  ⟨⟨rfl, rfl⟩, by decide, by decide, ⟨by decide, by decide +kernel⟩, by decide +kernel, by decide, by decide,
    by decide, by decide, by decide⟩

theorem witness_CopyAndTensorWords_gather :
    let tn := tensor64 + BitVec.ofNat 512 (2 ^ 8)
    let s := { withTn (at' 2 id (withPred 1) id) with live := [(0, { live0 with tns := [(1, tn)] })] }
    let c := copyOf s (envIn s).agt .gth 1 53
    pendingScratch s 0 0 = false ∧ listBehind s (envIn s).agt c = false := ⟨by decide, by decide⟩
theorem witness_CopyAndTensorWords_nowhere :
    let s := { withTn (at' 2 id (fun g => withPred 1 (withS [(60, 2)] g)) id) with fields := [(0, field0)], launches := [(launchKey 0 1, launch0)] }
    let c := copyOf s (envIn s).agt .mc 1 53
    (copyChecks s (envIn s).agt c).isNone = true ∧ c.lands = [] := ⟨by decide +kernel, by decide +kernel⟩

theorem witness_BarrierAndSlotWords_signals : let s := at0 2
    (envIn s).agt.signalWaits s = false ∧ (let u := seq0 false 5; (agtIn u).signalWaits u = false) := by decide

theorem witness_QueueWordResults_sequencer : let s := { seq0 false 5 with workQs := [(workKey 0 0, workQ0)] }
    agentAt s = some (agtIn s) ∧ (24#6).toNat + 7 ≤ (agtIn s).top ∧ agentHas (agtIn s) 31 ∧ (agtIn s).group = none ∧
      s.workQs.has (workKey 0 (queueNo (agtIn s) false 0)) = true ∧ heldArgs (agtIn s).hold = none :=
  ⟨rfl, by decide, Or.inr (by decide), rfl, by decide, rfl⟩

theorem witness_FlumeOperationResults_tiles :
    (let s := seqAt' true 4 (withOps .vmma none) id
     (agtIn s).team.mayTake (op0 .vmma) = true ∧ (vmmaTile (agtIn s).team.fl (op0 .vmma)).2 &&& trapen s (agtIn s).team &&& 0x3F = 0) ∧
    (let s := seqAt' true 4 (withOps .fmm none) id
     (agtIn s).team.mayTake (op0 .fmm) = true ∧ olderReady s 0 (agtIn s).team (op0 .fmm) = false) ∧
    (let o := { op0 .ftmask with args := [0, 96, 0, 0, 7] }
     let s := seqAt' true 4 (fun t => { t with fl := { t.fl with ops := [o] } }) id
     (agtIn s).team.mayTake o = true ∧ o.args.getD 1 0 ≤ 96) := by
  refine ⟨⟨by rfl, ?_⟩, ⟨by rfl, by rfl⟩, by rfl, by decide⟩
  have h : trapen (seqAt' true 4 (withOps .vmma none) id) (agtIn (seqAt' true 4 (withOps .vmma none) id)).team = 0 := by rfl
  show _ &&& trapen (seqAt' true 4 (withOps .vmma none) id) (agtIn (seqAt' true 4 (withOps .vmma none) id)).team &&& 0x3F = 0
  rw [h, Nat.and_zero, Nat.zero_and]

theorem witness_IterationResults_goes :
    let f := { fiter0 with cap := 2 }
    let s := seqAt' true 4 (withOps .fiter (some f)) id
    let r := iterTop (agtIn s).team.fl f
    (match r.2.2.1 with | .go _ _ => true | _ => false) = true ∧ (agtIn s).team.fl.ops.find? (fun x => x.src == none) = some (op0 .fiter) ∧
      (agtIn s).team.mayTake (op0 .fiter) = true ∧ iterationOwes s 0 (agtIn s).team = false :=
  ⟨by decide +kernel, by rfl, by rfl, by rfl⟩
theorem witness_IterationResults_diverges :
    let f := { fiter0 with cap := 2 }
    let fl (t : Team) : Team := { t with fl := { (withOps .fiter (some f) t).fl with tiles := [(0, 0x7F800000)] } }
    (match (iterTop (agtIn (seqAt' true 4 fl id)).team.fl f).2.2.1 with | .diverge _ => true | _ => false) = true := by decide +kernel

theorem witness_TimedCommandResults_withdraws :
    let p := pkt [(0, 0x12)]
    let other := pkt [(0, 0x12), (2, 1), (16, 1)]
    let q (b : List Byte) : UQueue := { UQueue.new with block := some (.command b []) }
    let s := { State.reset with
      ctxs := [(0, { ctx0 with prot := true }), (1, { ctx0 with prot := true })]
      live := [(0, { live0 with grants := 1 }), (1, { live0 with grants := 4 })]
      hg := { Headgate.reset with queues := [(0, q p), (1, q other)] } }
    (s.queue 0).block = some (.command p []) ∧ mayWithdraw s p = true := ⟨by decide +kernel, by decide +kernel⟩
theorem witness_NamedPacketResults_key :
    let k : KeyRec := { xts := 1, mac := 2, report := 3, gen := 1 }
    let s := { State.reset with keys := { Keys.reset with seated := [(0, 5)], records := [(0, k)] } }
    keyRecord s 5 = some k := by rfl

theorem witness_QueueEvents_link : barOpen State.reset = true ∧ barOpen (queueState true [] State.reset) = true := by decide
theorem witness_HomeResults_cached : let d : Die := { Die.reset with carve := 0x80, msc := [(1, ⟨true, 0, 0, false⟩)], mscLines := [(lineOfSect 1, .normal)] }
    let s := { State.reset with dies := [(0, d)], reqs := [(5, req0 .read)] }
    servable s 5 (req0 .read) = true ∧ (s.die 0).msc.get? 0 = none ∧ (s.die 0).mscLines.has (lineOfSect 0) = true ∧
      (s.die 0).mscLines.length < mscSize s 0 ∧ hbmTurn s (req0 .read) = true :=
  ⟨by decide +kernel, by decide, by decide, by decide +kernel, by decide +kernel⟩
theorem witness_HomeResults_vault : let r (k : ReqKind) : Req := { req0 k with va := vaultBase + 56 }
    let s (k : ReqKind) : State := { State.reset with reqs := [(5, r k)] }
    servable (s .write) 5 (r .write) = true ∧ servable (s .read) 5 (r .read) = true ∧ servable (s .atomic) 5 (r .atomic) = true ∧
      (∀ k, k = .write ∨ k = .read ∨ k = .atomic → (r k).vaultOff = some 56) ∧ poisoned (s .write) (vaultKey 56) = false ∧ (∀ k, k = .write ∨ k = .read ∨ k = .atomic → hbmTurn (s k) (r k) = true) ∧
      56 % zatom (r .atomic).op = 0 :=
  ⟨by decide +kernel, by decide +kernel, by decide +kernel, fun _ h => by rcases h with rfl | rfl | rfl <;> decide +kernel,
    by decide +kernel, fun _ h => by rcases h with rfl | rfl | rfl <;> decide +kernel, by decide⟩

theorem witness_QueueHomeResults_remote :
    let m := { msg0 .push with src := 3, home := 0 }
    let s := { at0 2 with workQs := [(workKey 0 0, workQ0)], msgs := [(4, m)] }
    s.msgs.get? 4 = some m ∧ m.src ≠ m.home ∧ m.answer = none ∧ m.hops = [] := by decide

/-- A module pair whose two directions have failed in different groups: three failures of the high group in the other direction. -/
theorem witness_LinkEvents_retrain_pair :
    let m := { Module.reset with retrain := true, hi := [0, 1, 2] }
    let s := (State.reset.setLink 6 { Link.reset with modules := [(15, { Module.reset with retrain := true })] }).setLink 7
      { Link.reset with modules := [(15, m)] }
    ((s.link 6).module 15).retrain = true ∧ ((s.link 6).module 15).st = 0 ∧ 3 ≤ ((s.link (reverseOf 6)).module 15).hi.length := by decide

theorem witness_FenceAndCacheWords_tiles : let s := at0 1
    pendingTileStore (envIn s).team 0 = false ∧ 2 ≤ (63#6).toNat := by decide

theorem witness_ResetResults_faulty : barOpen State.reset = true ∧ State.reset.health.faulty = [] ∧
    ({ Health.reset with faulty := [(127, 0)] } : Health).faulty ≠ [] := by decide

/-- A 240-byte entry of the key area: its 16 clear bytes, a ciphertext of zeros, and the tag of both. -/
def parkedHead : List Byte := bytesOf 16 0
def parkedCipher : List Byte := List.replicate 208 0
def parkedTag : List Byte :=
  Crypto.gcmTag (Crypto.roundKeys (bytesOf 32 0)) (wrapNonce parkedHead) parkedHead parkedCipher
def parkedPlain : List Byte := Crypto.counterMode (Crypto.roundKeys (bytesOf 32 0)) (wrapNonce parkedHead) 2 parkedCipher
theorem parkedHead_length : parkedHead.length = 16 := by decide +kernel
theorem parkedCipher_length : parkedCipher.length = 208 := by decide +kernel
theorem parkedTag_length : parkedTag.length = 16 := by decide +kernel
def parkedEntry : List Byte := parkedHead ++ (parkedCipher ++ parkedTag)
/-- A memory that holds the entry alone. -/
@[irreducible] def keyMem : Memory := Memory.write Memory.empty (2 ^ 51) parkedEntry
/-- The key area at the base of host memory, with that entry for context 0, whose team is saved, and these
keys seated. -/
def keyState (seated : Tbl Nat) : State :=
  { withField State.reset with
    store := { State.reset.store with pa := keyMem }
    keys := { Keys.reset with area := some (2 ^ 51), parked := [0], gens := [(0, (keyRecOf parkedPlain).gen)], seated := seated }
    live := [(0, { live0 with parkIndex := some 0 }), (1, { live0 with sched := 1 })]
    teams := [(0, { fetchTeam with stat := .saved 0 true })] }
theorem parkedEntry_length : parkedEntry.length = 240 := by
  simp only [parkedEntry, List.length_append, parkedHead_length, parkedCipher_length, parkedTag_length]
theorem keyState_mem (l : Tbl Nat) : (keyState l).store.pa = keyMem := rfl
theorem keyMem_read : keyMem.read (2 ^ 51) 240 = parkedEntry := by
  have w := Memory.read_write Memory.empty (2 ^ 51) parkedEntry
  rw [parkedEntry_length] at w
  delta keyMem; exact w
theorem keyState_entry (l : Tbl Nat) : paRead (keyState l) (2 ^ 51) 240 = parkedEntry := by
  rw [paRead_plain, keyState_mem, keyMem_read]
  · intro a; rfl
  · intro i hi
    have h : targetOf (64 * ((2 ^ 51 + i) / 64)) = .host := by
      unfold targetOf
      rw [if_neg (by omega), if_neg (by simp; omega), if_pos (by simp; omega)]
    rw [cellOf, h]; rfl
theorem keyState_takes (l : Tbl Nat) : paTake (keyState l) (2 ^ 51) 240 = some parkedEntry := by
  have p (k : Nat) : poisoned (keyState l) k = false := rfl
  have r : paReach (keyState l) (2 ^ 51) = true := by rfl
  unfold paTake
  simp only [p, r, keyState_entry, Bool.not_false, List.all_eq_true, implies_true, Bool.true_and, if_true]
theorem parked_opens : Crypto.gcmOpen (bytesOf 32 0) (wrapNonce parkedHead) parkedHead (parkedCipher ++ parkedTag) = some parkedPlain := by
  have n : (parkedCipher ++ parkedTag).length - 16 = parkedCipher.length := by simp [parkedTag_length]
  unfold Crypto.gcmOpen
  simp only [n, List.take_left, List.drop_left]
  rw [if_pos]
  · rfl
  · have h : (Crypto.gcmTag (Crypto.roundKeys (bytesOf 32 0)) (wrapNonce parkedHead) parkedHead parkedCipher == parkedTag) = true := beq_self_eq_true parkedTag
    rw [h, Bool.and_true, List.length_append, parkedTag_length]
    exact decide_eq_true (Nat.le_add_left _ _)
theorem keyState_opens (l : Tbl Nat) : openRecord (keyState l) 0 = some (keyRecOf parkedPlain) := by
  have a : (keyState l).keys.area = some (2 ^ 51) := rfl
  have i : ((keyState l).ctxLive 0).parkIndex = some 0 := rfl
  have g : (keyState l).keys.gens.getD 0 1 = (keyRecOf parkedPlain).gen := by
    have h (x : Nat) : Tbl.getD [(0, x)] 0 1 = x := rfl
    exact h _
  have b : bytesOf 32 (keyState l).keys.perBoot.toNat = bytesOf 32 0 := rfl
  have t : (parkedHead ++ (parkedCipher ++ parkedTag)).take 16 = parkedHead := rfl
  have d : (parkedHead ++ (parkedCipher ++ parkedTag)).drop 16 = parkedCipher ++ parkedTag := rfl
  have n : wrapNonce (parkedHead ++ (parkedCipher ++ parkedTag)) = wrapNonce parkedHead := rfl
  have c : (decide (leNum (parkedHead ++ (parkedCipher ++ parkedTag)) 0 2 ≠ 0) ||
      decide (leNum (parkedHead ++ (parkedCipher ++ parkedTag)) 2 2 ≠ 0)) = false := by rfl
  unfold openRecord
  rw [a, i]
  simp only [Nat.mul_zero, Nat.add_zero, keyState_takes, parkedEntry]
  rw [c, t, d, n]
  rw [b]
  rw [parked_opens]
  rw [g, if_neg Bool.false_ne_true, Option.map_some, Option.filter_some, if_pos (beq_self_eq_true _)]
/-- Every slot taken; the key of context 1 alone is idle and has been scheduled. -/
def fullSlots : Tbl Nat := (List.range 64).map fun k => (k, k + 1)
theorem witness_TeamMovement_reseat : (keyState []).keys.parked.contains 0 = true ∧ wantsKey (keyState []) 0 = true ∧
    openRecord (keyState []) 0 = some (keyRecOf parkedPlain) ∧
    (keyPlace (keyState []) fun x => ((keyState []).ctxLive x).sched != 0) = .free 0 :=
  ⟨by rfl, by decide +kernel, keyState_opens [], by rfl⟩
theorem witness_TeamMovement_reseat_parks : wantsKey (keyState fullSlots) 0 = true ∧
    openRecord (keyState fullSlots) 0 = some (keyRecOf parkedPlain) ∧
    (keyPlace (keyState fullSlots) fun x => ((keyState fullSlots).ctxLive x).sched != 0) = .parks (startPark (keyState fullSlots) 0 1) :=
  ⟨by decide +kernel, keyState_opens _, by rfl⟩

/-! ## Single steps -/

/-- The state of a next state. -/
def nextOf (o : Out) : State := match o with | .next u => u | _ => State.reset
/-- Register r of group 0's path 0, the issuing path of these tests. -/
def regOf (s : State) (r : Nat) : Option Word := do
  let t ← s.teams.get? 0
  let g ← t.groups.get? 0
  let p ← g.paths.get? 0
  pure (readS g p r)
/-- A scalar word on these registers, and then register r. -/
def scalar (i : Instr) (l : List (Nat × Word)) (r : Nat) : Option Word := regOf (nextOf (exec i (at' 0 id (withS l) id))) r
/-- Lane 5 of a name of group 0 once every result has landed. -/
def lane5 (s : State) (n : Nat) : Option Word := ((landAll s 0 0).teams.get? 0).map fun t => (t.lanes 0 n).getD 5 0
/-- A vector word on rows that hold these values in every lane, mapped in order, and then a name. -/
def vector (i : Instr) (l : List Word) (n : Nat) : Option Word :=
  lane5 (nextOf (exec i (at' 0 (fun t => { withRows l.length t with
    res := { (withRows l.length t).res with rows := (List.range l.length).zip (l.map rowOf) } }) id id))) n
/-- The code and the detail with which path 0 of group 0 stopped. -/
def stopOf (s : State) : Option (Nat × Nat) := do
  let t ← s.teams.get? 0
  let g ← t.groups.get? 0
  let r ← g.stop
  pure (r.code, r.detail)

/-- R209: 0 + sign-extended 0xFFF, through fetch and decode. -/
theorem test_step_saddi : regOf (nextOf (step (State.reset.withFetchWord 32 0x06186FFF))) 6 = some 0xFFFFFFFF := by rfl
/-- R206: a shift by 32 gives 0; an arithmetic one keeps the sign. -/
theorem test_sshl_32 : scalar (.sshl false 1 2 3) [(2, 1), (3, 32)] 1 = some 0 := by rfl
theorem test_ssra_40 : scalar (.ssra false 1 2 3) [(2, 0x80000000), (3, 40)] 1 = some 0xFFFFFFFF := by rfl
/-- R206: a division by 0, and the one quotient that wraps. -/
theorem test_sdiv_zero : scalar (.sdivI32 false 1 2 3) [(2, 7)] 1 = some 0xFFFFFFFF := by rfl
theorem test_sdiv_wraps : scalar (.sdivI32 false 1 2 3) [(2, 0x80000000), (3, 0xFFFFFFFF)] 1 = some 0x80000000 := by rfl
theorem test_srem_sign : scalar (.sremI32 false 1 2 3) [(2, 0xFFFFFFF9), (3, 2)] 1 = some 0xFFFFFFFF := by rfl
/-- R207: the carry crosses into the high register of a pair. -/
theorem test_sadd_b64_carry : scalar (.saddB64 false 2 4 6) [(4, 0xFFFFFFFF), (6, 1)] 3 = some 1 := by rfl
/-- R206: the high word of -1 × -1 signed is 0, and natural 0xFFFFFFFE. -/
theorem test_smulw_i32 : scalar (.smulwI32 false 2 4 6) [(4, 0xFFFFFFFF), (6, 0xFFFFFFFF)] 3 = some 0 := by rfl
theorem test_smulw_n32 : scalar (.smulwN32 false 2 4 6) [(4, 0xFFFFFFFF), (6, 0xFFFFFFFF)] 3 = some 0xFFFFFFFE := by rfl
/-- R215: a field of 4 bits from bit 4 up. -/
theorem test_sbfx_i32 : scalar (.sbfxI32 false 1 2 3) [(2, 0xF0), (3, 0x404)] 1 = some 0xFFFFFFFF := by rfl
/-- R210: `smovh` keeps the low half. -/
theorem test_smovh : scalar (.smovh false 1 0x1234) [(1, 0xAAAA5678)] 1 = some 0x12345678 := by rfl
/-- R35: a write of the mask keeps within the domain of 96 lanes. -/
theorem test_smovs_mask : scalar (.smovs false 61 0xFFFF) [] 61 = some 0xFFFFFFFF := by rfl

/-- R218: a target is counted in words from the branch, which stands at 4 + 4 × its offset. -/
theorem test_br : (do
    let t ← (nextOf (exec (.br false 0xFFFFF) (at0 0))).teams.get? 0
    let g ← t.groups.get? 0
    let p ← g.paths.get? 0
    pure (p.pc, p.clause.isNone)) = some (0, true) := by rfl
/-- R42: a seventeenth push traps. -/
theorem test_ppush_full : stopOf (nextOf (exec (.ppush false 0) (at' 0 id id (deep 16)))) = some (0x06, 0) := by rfl

/-- R251, R252: integer lanes. -/
theorem test_vadd_wraps : vector (.vaddI32 false 2 0 1) [0x7FFFFFFF, 1] 2 = some 0x80000000 := by decide +kernel
theorem test_vadds_holds : vector (.vaddsI32 false 2 0 1) [0x7FFFFFFF, 1] 2 = some 0x7FFFFFFF := by decide +kernel
theorem test_vred_add : vector (.vredAddI32 false 2 0) [3] 2 = some 288 := by decide +kernel
/-- R268, R269: 1 + 1, and the smallest normal number halved, which keeps its subnormal result. -/
theorem test_vfadd_one : vector (.vfaddF32 false 0 2 0 1) [0x3F800000, 0x3F800000] 2 = some 0x40000000 := by decide +kernel
theorem test_vfmul_subnormal : vector (.vfmulF32 false 0 2 0 1) [0x00800000, 0x3F000000] 2 = some 0x00400000 := by decide +kernel
/-- R421: a write-back carries the poison of its sector. -/
theorem test_poison_carried : (evictL2Line (dirtyCaches true) 0 0).reqs.map (fun e => (e.2.mask, e.2.bad)) = [(1, 2)] := by decide
/-- R64: a name that is not mapped traps. -/
theorem test_vadd_unmapped : stopOf (nextOf (exec (.vaddI32 false 2 0 1) (at' 0 (withRows 1) id id))) = some (0x04, 0) := by decide +kernel

end Sys2Proof.Tests
end

section
/-! O40: a request that is served at its home (R107, R110, R117, R118, R360). First what a masked sector does to the bytes of a memory,
then what a plain sector of HBM and a vault give a request, then the step of HOME_REQUEST. -/

namespace Sys2Proof.Machine

/-! ## Bytes of a sector (R2, R14) -/

/-- The bytes of a sector that the mask names put over a memory from `base` up: what `homeWrite` and `serveVault` both do. -/
def Memory.putSect (mem : Memory) (base : Nat) (m : BitVec 64) (data : BitVec 512) : Memory :=
  (List.range 64).foldl (fun mem i => if m.getLsbD i then Memory.put mem (base + i) (data.extractLsb' (8 * i) 8) else mem) mem

/-- The fold over the first n places: the bytes that the mask names among them are written, the others stay. -/
theorem Memory.get_foldl_putSect (mem : Memory) (base : Nat) (m : BitVec 64) (data : BitVec 512) (n a : Nat) :
    ((List.range n).foldl (fun mem i => if m.getLsbD i then Memory.put mem (base + i) (data.extractLsb' (8 * i) 8) else mem)
      mem).get a =
      if base ≤ a ∧ a < base + n ∧ m.getLsbD (a - base) = true then data.extractLsb' (8 * (a - base)) 8 else mem.get a := by
  induction n with
  | zero => rw [if_neg (by omega)]; rfl
  | succ n ih =>
    rw [List.range_succ, List.foldl_append, List.foldl_cons, List.foldl_nil]
    by_cases ha : a = base + n
    · subst ha
      split <;> simp_all [Memory.get_put]
    · have hlt : a < base + (n + 1) ↔ a < base + n := by omega
      split <;> simp [Memory.get_put, ha, hlt, ih]

theorem Memory.get_putSect (mem : Memory) (base : Nat) (m : BitVec 64) (data : BitVec 512) (a : Nat) :
    (mem.putSect base m data).get a =
      if base ≤ a ∧ a < base + 64 ∧ m.getLsbD (a - base) = true then data.extractLsb' (8 * (a - base)) 8 else mem.get a :=
  Memory.get_foldl_putSect mem base m data 64 a

theorem byteMask_getLsbD (lo n i : Nat) (h : i < 64) : (byteMask lo n).getLsbD i = decide (lo ≤ i ∧ i < lo + n) := by
  rw [byteMask, BitVec.getLsbD_ofNat, Nat.testBit_mul_two_pow, Nat.testBit_two_pow_sub_one, Bool.eq_iff_iff]
  simp [h]
  omega

/-- Byte i of a number placed at byte lo of a sector is byte i - lo of the number. -/
theorem sectStore_byte (lo v i : Nat) (h : lo ≤ i) (hi : i < 64) :
    (sectStore lo v).extractLsb' (8 * i) 8 = BitVec.ofNat 8 (v / 2 ^ (8 * (i - lo))) := by
  apply BitVec.eq_of_getLsbD_eq
  intro k hk
  have hin : 8 * i + k < 512 := by omega
  have hlo : 8 * lo ≤ 8 * i + k := by omega
  rw [BitVec.getLsbD_extractLsb', BitVec.getLsbD_ofNat, sectStore, BitVec.getLsbD_ofNat, Nat.testBit_mul_two_pow,
    Nat.testBit_div_two_pow, show 8 * i + k - 8 * lo = 8 * (i - lo) + k by omega, Nat.add_comm k]
  simp [hk, hin, hlo]

theorem ofBytes_drop (bs : List Byte) (k : Nat) : ofBytes bs / 2 ^ (8 * k) = ofBytes (bs.drop k) := by
  induction bs generalizing k with
  | nil => simp [ofBytes]
  | cons b bs ih =>
    cases k with
    | zero => simp
    | succ k =>
      have hb := b.isLt
      rw [List.drop_succ_cons, ← ih, show 8 * (k + 1) = 8 + 8 * k by ring, pow_add, ← Nat.div_div_eq_div_mul]
      congr 1
      simp only [ofBytes]
      omega

theorem ofBytes_take (bs : List Byte) (n : Nat) : ofBytes bs % 2 ^ (8 * n) = ofBytes (bs.take n) := by
  induction bs generalizing n with
  | nil => simp [ofBytes]
  | cons b bs ih =>
    cases n with
    | zero => simp [ofBytes, Nat.mod_one]
    | succ n =>
      have hb := b.isLt
      have hdiv : (b.toNat + 256 * ofBytes bs) / 2 ^ 8 = ofBytes bs := by omega
      rw [List.take_succ_cons, ofBytes, ofBytes, ← ih, show 8 * (n + 1) = 8 + 8 * n by ring, pow_add, Nat.mod_mul, hdiv]
      omega

theorem Memory.read_drop_take (mem : Memory) (a lo n k : Nat) (h : lo + n ≤ k) :
    ((mem.read a k).drop lo).take n = mem.read (a + lo) n := by
  apply List.ext_getElem
  · simp [Memory.read]
    omega
  · intro i h1 h2
    simp [Memory.read, Nat.add_assoc]

/-- Bytes of a sector that memory holds, as a number: those at their own address. -/
theorem sectLoad_read (mem : Memory) (base lo n : Nat) (h : lo + n ≤ 64) :
    sectLoad (sectOf (mem.read base 64)) lo n = mem.load (base + lo) n := by
  have lt : ofBytes (mem.read base 64) < 2 ^ 512 :=
    (ofBytes_lt _).trans_eq (congrArg (2 ^ ·) (by simp [Memory.read]))
  rw [sectLoad, sectOf, BitVec.toNat_ofNat, Nat.mod_eq_of_lt lt, ofBytes_drop, ofBytes_take, Memory.read_drop_take _ _ _ _ _ h]
  rfl

/-- A number written over bytes lo to lo + n - 1 of a sector changes those bytes of memory alone. -/
theorem Memory.get_putSect_number (mem : Memory) (base lo n v a : Nat) (h : lo + n ≤ 64) :
    (mem.putSect base (byteMask lo n) (sectStore lo v)).get a =
      if base + lo ≤ a ∧ a < base + lo + n then BitVec.ofNat 8 (v / 2 ^ (8 * (a - (base + lo)))) else mem.get a := by
  rw [Memory.get_putSect]
  by_cases hin : base ≤ a ∧ a < base + 64
  · obtain ⟨hlo, hhi⟩ := hin
    rw [byteMask_getLsbD _ _ _ (by omega)]
    by_cases hn : base + lo ≤ a ∧ a < base + lo + n
    · rw [if_pos hn, if_pos (by simp; omega), sectStore_byte _ _ _ (by omega) (by omega), Nat.sub_sub]
    · rw [if_neg hn, if_neg (by simp; omega)]
  · rw [if_neg (by omega), if_neg (by omega)]

/-! ## What a request does to the memory that it names -/

/-- The data of the reply to a request for address `a` of a memory: a sector, the old value of an atomic, or nothing. -/
def Req.servedReply (r : Req) (mem : Memory) (a : Nat) : BitVec 512 :=
  match r.kind with
  | .read => sectOf (mem.read (64 * (a / 64)) 64)
  | .atomic => BitVec.ofNat 512 (mem.load a (zatom r.op))
  | _ => 0

/-- Byte b of a memory after a request for address `a` of it. -/
def Req.servedByte (r : Req) (mem : Memory) (a b : Nat) : Byte :=
  if r.kind = .write ∧ 64 * (a / 64) ≤ b ∧ b < 64 * (a / 64) + 64 ∧ r.mask.getLsbD (b - 64 * (a / 64)) = true then
    r.data.extractLsb' (8 * (b - 64 * (a / 64))) 8
  else if r.kind = .atomic ∧ a ≤ b ∧ b < a + zatom r.op then
    BitVec.ofNat 8 (atomNew r.op (mem.load a (zatom r.op)) r.x r.e / 2 ^ (8 * (b - a)))
  else mem.get b

theorem atomSize_eq_zatom (op : Nat) : atomSize op = zatom op := by simp [atomSize, zatom]

/-- An aligned operand lies in one sector (R290). -/
theorem zatom_in_sector (op a : Nat) (h : a % zatom op = 0) : a % 64 + zatom op ≤ 64 := by
  unfold zatom at *
  split at h <;> split <;> omega

theorem Req.servedByte_read {r : Req} (h : r.kind = .read) (mem : Memory) (a b : Nat) : r.servedByte mem a b = mem.get b := by
  simp [Req.servedByte, h]

theorem Req.servedByte_write {r : Req} (h : r.kind = .write) (mem : Memory) (a b : Nat) :
    r.servedByte mem a b = (mem.putSect (64 * (a / 64)) r.mask r.data).get b := by
  simp [Req.servedByte, h, Memory.get_putSect]

/-- The value that an atomic finds, read out of the sector of its operand. -/
theorem atom_old (mem : Memory) (op a : Nat) (h : a % zatom op = 0) :
    sectLoad (sectOf (mem.read (64 * (a / 64)) 64)) (a % 64) (zatom op) = mem.load a (zatom op) := by
  rw [sectLoad_read _ _ _ _ (zatom_in_sector op a h), Nat.div_add_mod]

theorem Req.servedByte_atomic {r : Req} (h : r.kind = .atomic) (mem : Memory) (a b : Nat) (ha : a % zatom r.op = 0) :
    r.servedByte mem a b = (mem.putSect (64 * (a / 64)) (byteMask (a % 64) (zatom r.op))
      (sectStore (a % 64) (atomNew r.op (mem.load a (zatom r.op)) r.x r.e))).get b := by
  rw [Memory.get_putSect_number _ _ _ _ _ _ (zatom_in_sector r.op a ha), Nat.div_add_mod]
  simp [Req.servedByte, h]

/-! ## A vault (R77, R107) -/

/-- A request applied at a vault whose sector is not poisoned: nothing but the vaults' bytes changes, and these as the request says. -/
theorem serveVault_clean {s : State} {r : Req} {off : Nat} (hk : r.kind ≠ .beat) (hp : poisoned s (vaultKey off) = false)
    (ha : r.kind = .atomic → off % zatom r.op = 0) :
    ∃ vault, serveVault s r off = ({ s with store := { s.store with vault } }, r.servedReply s.store.vault off, 0) ∧
      ∀ b, vault.get b = r.servedByte s.store.vault off b := by
  unfold serveVault Req.servedReply
  cases h : r.kind with
  | beat => exact absurd h hk
  | read => exact ⟨s.store.vault, by simp [hp], fun b => (Req.servedByte_read h _ _ _).symm⟩
  | write => exact ⟨s.store.vault.putSect (64 * (off / 64)) r.mask r.data, rfl, fun b => (Req.servedByte_write h _ _ _).symm⟩
  | atomic =>
    refine ⟨_, ?_, fun b => (Req.servedByte_atomic h _ off b (ha h)).symm⟩
    simp only [hp, atomSize_eq_zatom, atom_old _ _ _ (ha h), Bool.false_eq_true, if_false, ne_eq, not_true_eq_false]
    rfl

/-! ## A plain sector of HBM (R118, R363) -/

/-- A sector of HBM that its home's memory-side cache does not hold and that is not poisoned. -/
structure PlainSector (s : State) (home sector : Nat) : Prop where
  target : targetOf (64 * sector) = .hbm
  absent : (s.die home).msc.get? sector = none
  clean : poisoned s sector = false

/-- HBM ends where a sector ends. -/
theorem targetOf_sector {pa : Nat} (h : targetOf pa = .hbm) : targetOf (64 * (pa / 64)) = .hbm := by
  have hlt : pa < 0x8000000000 := by
    unfold targetOf at h
    split at h
    · assumption
    · split at h
      · cases h
      · split at h <;> cases h
  exact if_pos (by omega)

namespace PlainSector

variable {s : State} {home sector : Nat} (h : PlainSector s home sector)
include h

theorem cellOf_eq : cellOf s (64 * sector) = 64 * sector := by simp [cellOf, h.target]

theorem homeSector_eq : homeSector s home sector = sectOf (s.store.pa.read (64 * sector) 64) := by
  rw [homeSector, h.absent, h.cellOf_eq]

theorem readAtHome_eq (ctx : Nat) : readAtHome s home ctx sector false = (sectOf (s.store.pa.read (64 * sector) 64), 0) := by
  simp [readAtHome, h.cellOf_eq, h.clean, h.homeSector_eq]

theorem homeWrite_eq (m : BitVec 64) (data : BitVec 512) : homeWrite s home sector m data =
    { s with store := { s.store with pa := s.store.pa.putSect (64 * sector) m data } } := by
  rw [homeWrite, h.absent, h.cellOf_eq]
  rfl

theorem breakSeal_plain : PlainSector (breakSeal s sector) home sector := ⟨h.target, h.absent, h.clean⟩

/-- An unsealed write: the requests stay, and memory holds the bytes of the mask. -/
theorem writeAtHome_plain (ctx : Nat) (m : BitVec 64) (data : BitVec 512) :
    (writeAtHome s home ctx sector false m data).reqs = s.reqs ∧
      ∀ b, (writeAtHome s home ctx sector false m data).store.pa.get b = (s.store.pa.putSect (64 * sector) m data).get b := by
  simp only [writeAtHome, h.cellOf_eq, Nat.mul_div_cancel_left sector (show 0 < 64 by decide), h.clean, Bool.and_false,
    Bool.false_eq_true, if_false]
  split
  · next hm => exact ⟨rfl, fun b => by simp [hm, Memory.get_putSect]⟩
  · rw [h.breakSeal_plain.homeWrite_eq]
    exact ⟨rfl, fun b => rfl⟩

end PlainSector

/-! ### What keeps memory and requests -/

@[simp] theorem setHealth_store (s : State) (w : Word) : (setHealth s w).store = s.store := by
  unfold setHealth
  split
  · rfl
  · dsimp only
    split <;> rfl

@[simp] theorem setHealth_reqs (s : State) (w : Word) : (setHealth s w).reqs = s.reqs := by
  unfold setHealth
  split
  · rfl
  · dsimp only
    split <;> rfl

@[simp] theorem setPoison_pa (s : State) (k : Nat) (on : Bool) : (setPoison s k on).store.pa = s.store.pa := by
  simp [setPoison, notePoison]

@[simp] theorem setPoison_reqs (s : State) (k : Nat) (on : Bool) : (setPoison s k on).reqs = s.reqs := by
  simp [setPoison, notePoison]

/-- Whether a home's memory-side cache can take the line of a sector with no line leaving it (R12, R81). -/
def mscHasPlace (s : State) (home line : Nat) : Prop :=
  (s.die home).mscLines = [] ∨ (s.die home).mscLines.has line = true ∨ (s.die home).mscLines.length < mscSize s home

theorem mscRoom_of_place {s : State} {home line : Nat} (h : mscHasPlace s home line) : mscRoom s home line = s := by
  unfold mscRoom
  split
  · rfl
  · next hfull =>
    have hempty : (s.die home).mscLines = [] := h.resolve_right fun h' => hfull (by simpa using h')
    rw [hempty]
    rfl

/-- A read that allocates writes no byte of memory where no line has to leave. -/
theorem mscAllocate_of_place {s : State} {home sector : Nat} (cache : Nat) (h : mscHasPlace s home (lineOfSect sector)) :
    (mscAllocate s home sector cache).store = s.store ∧ (mscAllocate s home sector cache).reqs = s.reqs := by
  unfold mscAllocate
  split
  · simp [mscRoom_of_place h]
  · exact ⟨rfl, rfl⟩

/-! ### A request at a plain sector -/

/-- A request applied at a plain sector: its reply, and memory as the request says. -/
theorem serve_plain {s : State} {r : Req} (hk : r.kind ≠ .beat) (hv : r.vaultOff = none) (hs : r.sealed = false)
    (hp : PlainSector s r.home (r.pa / 64)) (hd : doorbellAt s r.pa = none)
    (ha : r.kind = .atomic → r.pa % zatom r.op = 0)
    (hr : r.kind = .read → mscHasPlace s r.home (lineOfSect (r.pa / 64))) :
    ∃ u, serve s r = (u, r.servedReply s.store.pa r.pa, 0) ∧ u.reqs = s.reqs ∧
      ∀ b, u.store.pa.get b = r.servedByte s.store.pa r.pa b := by
  unfold serve Req.servedReply
  simp only [hv, hs, hp.readAtHome_eq]
  cases h : r.kind with
  | beat => exact absurd h hk
  | read =>
    obtain ⟨hstore, hreqs⟩ := mscAllocate_of_place r.cache (hr h)
    refine ⟨_, rfl, ?_, fun b => ?_⟩
    · split <;> simp [hreqs]
    · rw [Req.servedByte_read h]
      split <;> simp [hstore]
  | write =>
    obtain ⟨hreqs, hpa⟩ := hp.writeAtHome_plain r.ctx r.mask r.data
    simp only [hd]
    refine ⟨_, rfl, ?_, fun b => ?_⟩
    · split <;> simp [hreqs]
    · rw [Req.servedByte_write h]
      split <;> simp [hpa]
  | atomic =>
    simp only [ne_eq, not_true_eq_false, if_false, atomSize_eq_zatom, atom_old _ _ _ (ha h)]
    obtain ⟨hreqs, hpa⟩ := hp.writeAtHome_plain r.ctx (byteMask (r.pa % 64) (zatom r.op))
      (sectStore (r.pa % 64) (atomNew r.op (s.store.pa.load r.pa (zatom r.op)) r.x r.e))
    exact ⟨_, rfl, hreqs, fun b => by rw [hpa, Req.servedByte_atomic h _ _ _ (ha h)]⟩

/-! ## HOME_REQUEST (R110, R347, R360) -/

theorem Req.target_of_vault {r : Req} {off : Nat} (h : r.vaultOff = some off) : r.target = .none := by simp [Req.target, h]

theorem Req.target_of_no_vault {r : Req} (h : r.vaultOff = none) : r.target = targetOf r.pa := by simp [Req.target, h]

/-- Only a request for host memory is forwarded to the other link. -/
theorem forwardTo_of_not_host {s : State} {r : Req} (h : r.target ≠ .host) : forwardTo s r = none := by
  simp [forwardTo, h]

/-- HBM and vaults lie behind no port. -/
theorem portOpen_of_no_port {s : State} {r : Req} (h : r.target ≠ .host) (hc : r.target ≠ .cxl) : portOpen s r = true := by
  unfold portOpen
  split <;> simp_all

theorem hbmTurn_of_not_hbm {s : State} {r : Req} (h : r.target ≠ .hbm) : hbmTurn s r = true := by
  simp [hbmTurn, h]

/-- While a request of a higher class waits at its controller, a request has no turn. -/
theorem hbmTurn_of_higher {s : State} {r x : Req} (hx : x ∈ waitingWith s r) (ht : r.target = .hbm) (hc : r.cls s < x.cls s) :
    hbmTurn s r = false := by
  have hall : (waitingWith s r).all (fun y => y.cls s ≤ r.cls s) = false :=
    List.all_eq_false.2 ⟨x, hx, by simpa using hc⟩
  simp [hbmTurn, ht, hall]

/-- The state in which a request is served: its access's level is noted, and its field's turn is taken. -/
def beforeService (s : State) (r : Req) : State :=
  tookTurn (match r.who with | .access a _ => if r.vaultOff.isSome then s else noteLevel s a (homeLevel s r) | _ => s) r

/-- A served request's reply sets off: STABLE follows, and the request holds what was read. -/
def sendReply (s : State) (id : Nat) (r : Req) (reply : BitVec 512) (bad : Nat) : State :=
  let s := noteStable s r.home r.die r.vc
  let hops := wayOf s r.replyEnds
  let r := { r with stage := .replied, reply, bad, hops, stable := (s.die r.home).stable }
  setOff (updReq s id fun _ => { r with wire := r.replyMessage id }) hops (.reply id)

section
variable {s : State} {id : Nat} {r : Req} (hget : s.reqs.get? id = some r) (hk : r.kind ≠ .beat)
include hget

theorem exec_homeRequest_no_turn (ht : hbmTurn s r = false) :
    exec (.homeRequest id) s = .refused (.notEnabled "HOME_REQUEST") := by
  show execHomeRequest id s = _
  simp [execHomeRequest, hget, ht, idle]

include hk

theorem exec_homeRequest_forwarded {d : Nat} (hs : servable s id r = true) (ht : hbmTurn s r = true)
    (hf : forwardTo s r = some d) : exec (.homeRequest id) s = .next
      (setOff (updReq s id fun q => { q with fwd := some d, hops := route s r.home d }) (route s r.home d) (.req id)) := by
  show execHomeRequest id s = _
  simp [execHomeRequest, hget, hk, hs, ht, hf]

theorem exec_homeRequest_served (hs : servable s id r = true) (ht : hbmTurn s r = true) (hf : forwardTo s r = none)
    (hp : portOpen s r = true) : exec (.homeRequest id) s = .next
      (sendReply (serve (beforeService s r) r).1 id r (serve (beforeService s r) r).2.1 (serve (beforeService s r) r).2.2) := by
  show execHomeRequest id s = _
  have hbeat : (r.kind == .beat) = false := by simpa using hk
  unfold execHomeRequest
  simp only [hget, hbeat, hs, ht, hf, hp, Bool.not_true, Bool.or_false, Bool.false_eq_true, if_false]
  rfl

end

/-! ### Before and after the service -/

@[simp] theorem noteLevel_store (s : State) (a l : Nat) : (noteLevel s a l).store = s.store := by
  unfold noteLevel; dsimp only; split <;> rfl
@[simp] theorem noteLevel_reqs (s : State) (a l : Nat) : (noteLevel s a l).reqs = s.reqs := by
  unfold noteLevel; dsimp only; split <;> rfl
@[simp] theorem noteLevel_hg (s : State) (a l : Nat) : (noteLevel s a l).hg = s.hg := by
  unfold noteLevel; dsimp only; split <;> rfl
@[simp] theorem noteLevel_dies (s : State) (a l : Nat) : (noteLevel s a l).dies = s.dies := by
  unfold noteLevel; dsimp only; split <;> rfl

/-- Die d after die e has been replaced. -/
theorem State.die_setDie (s : State) (e d : Nat) (x : Die) : (s.setDie e x).die d = if d = e then x else s.die d := by
  simp [State.die, State.setDie, Tbl.getD_put]

@[simp] theorem tookTurn_store (s : State) (r : Req) : (tookTurn s r).store = s.store := by
  unfold tookTurn; split <;> rfl
@[simp] theorem tookTurn_reqs (s : State) (r : Req) : (tookTurn s r).reqs = s.reqs := by
  unfold tookTurn; split <;> rfl
@[simp] theorem tookTurn_hg (s : State) (r : Req) : (tookTurn s r).hg = s.hg := by
  unfold tookTurn; split <;> rfl

/-- A turn that is taken changes only the controllers' turns of a die. -/
theorem tookTurn_die (s : State) (r : Req) (d : Nat) : ∃ turns, (tookTurn s r).die d = { s.die d with turns } := by
  unfold tookTurn
  split
  · exact ⟨_, rfl⟩
  · dsimp only
    rw [State.die_setDie]
    split
    · next h => exact h ▸ ⟨_, rfl⟩
    · exact ⟨_, rfl⟩

/-- Before its service a request takes its turn, in the state as it stands or with a level noted. -/
theorem beforeService_cases (s : State) (r : Req) :
    beforeService s r = tookTurn s r ∨ ∃ a l, beforeService s r = tookTurn (noteLevel s a l) r := by
  unfold beforeService
  split
  · split
    · exact .inl rfl
    · exact .inr ⟨_, _, rfl⟩
  · exact .inl rfl

@[simp] theorem beforeService_store (s : State) (r : Req) : (beforeService s r).store = s.store := by
  obtain h | ⟨a, l, h⟩ := beforeService_cases s r <;> simp [h]
@[simp] theorem beforeService_reqs (s : State) (r : Req) : (beforeService s r).reqs = s.reqs := by
  obtain h | ⟨a, l, h⟩ := beforeService_cases s r <;> simp [h]
@[simp] theorem beforeService_hg (s : State) (r : Req) : (beforeService s r).hg = s.hg := by
  obtain h | ⟨a, l, h⟩ := beforeService_cases s r <;> simp [h]

theorem beforeService_die (s : State) (r : Req) (d : Nat) : ∃ turns, (beforeService s r).die d = { s.die d with turns } := by
  obtain h | ⟨a, l, h⟩ := beforeService_cases s r
  · exact h ▸ tookTurn_die s r d
  · have hdie : (noteLevel s a l).die d = s.die d := by simp [State.die]
    exact h ▸ hdie ▸ tookTurn_die (noteLevel s a l) r d

/-- A sector that is plain before a request's turn is plain when it is served. -/
theorem PlainSector.at_service {s : State} {home sector : Nat} (h : PlainSector s home sector) (r : Req) :
    PlainSector (beforeService s r) home sector := by
  obtain ⟨turns, hdie⟩ := beforeService_die s r home
  exact ⟨h.target, by rw [hdie]; exact h.absent, by simpa [poisoned] using h.clean⟩

theorem mscHasPlace_beforeService {s : State} {home line : Nat} (h : mscHasPlace s home line) (r : Req) :
    mscHasPlace (beforeService s r) home line := by
  obtain ⟨turns, hdie⟩ := beforeService_die s r home
  simpa [mscHasPlace, mscSize, hdie] using h

theorem doorbellAt_beforeService (s : State) (r : Req) (pa : Nat) : doorbellAt (beforeService s r) pa = doorbellAt s pa := by
  simp [doorbellAt]

@[simp] theorem sendOn_store (s : State) (l : Nat) (m : Message) : (sendOn s l m).store = s.store := by
  unfold sendOn; dsimp only; split <;> rfl
@[simp] theorem sendOn_reqs (s : State) (l : Nat) (m : Message) : (sendOn s l m).reqs = s.reqs := by
  unfold sendOn; dsimp only; split <;> rfl
@[simp] theorem setOff_store (s : State) (hops : List Nat) (m : Message) : (setOff s hops m).store = s.store := by
  unfold setOff
  split
  · rfl
  · split <;> simp
@[simp] theorem setOff_reqs (s : State) (hops : List Nat) (m : Message) : (setOff s hops m).reqs = s.reqs := by
  unfold setOff
  split
  · rfl
  · split <;> simp

@[simp] theorem sendReply_store (s : State) (id : Nat) (r : Req) (reply : BitVec 512) (bad : Nat) :
    (sendReply s id r reply bad).store = s.store := by
  simp [sendReply, updReq, noteStable]

/-- The request that is answered holds its reply. -/
theorem sendReply_get {s : State} {id : Nat} {x : Req} (h : s.reqs.get? id = some x) (r : Req) (reply : BitVec 512) (bad : Nat) :
    ∃ q, (sendReply s id r reply bad).reqs.get? id = some q ∧ q.stage = .replied ∧ q.bad = bad ∧ q.reply = reply := by
  simp [sendReply, updReq, noteStable, h]

/-! ## The statement -/

/-- A request at a plain sector of HBM, whose turn has come. -/
theorem homeRequest_hbm {s : State} {id : Nat} {r : Req} (hget : s.reqs.get? id = some r) (hk : r.kind ≠ .beat)
    (hs : servable s id r = true) (ht : hbmTurn s r = true) (hv : r.vaultOff = none) (hpa : targetOf r.pa = .hbm)
    (hseal : r.sealed = false) (habs : (s.die r.home).msc.get? (r.pa / 64) = none) (hclean : poisoned s (r.pa / 64) = false)
    (hd : doorbellAt s r.pa = none) (ha : r.kind = .atomic → r.pa % zatom r.op = 0)
    (hr : r.kind = .read → mscHasPlace s r.home (lineOfSect (r.pa / 64))) :
    ∃ u q, exec (.homeRequest id) s = .next u ∧ u.reqs.get? id = some q ∧ q.stage = .replied ∧ q.bad = 0 ∧
      q.reply = r.servedReply s.store.pa r.pa ∧ ∀ b, u.store.pa.get b = r.servedByte s.store.pa r.pa b := by
  have htarget : r.target = .hbm := (Req.target_of_no_vault hv).trans hpa
  have hexec := exec_homeRequest_served hget hk hs ht (forwardTo_of_not_host (by simp [htarget]))
    (portOpen_of_no_port (by simp [htarget]) (by simp [htarget]))
  have hplain : PlainSector s r.home (r.pa / 64) := ⟨targetOf_sector hpa, habs, hclean⟩
  obtain ⟨v, hserve, hreqs, hmem⟩ := serve_plain hk hv hseal (hplain.at_service r)
    ((doorbellAt_beforeService s r r.pa).trans hd) ha fun h => mscHasPlace_beforeService (hr h) r
  rw [beforeService_reqs] at hreqs
  rw [beforeService_store] at hserve hmem
  rw [hserve] at hexec
  obtain ⟨q, hq, hstage, hbad, hreply⟩ := sendReply_get (hreqs ▸ hget) r (r.servedReply s.store.pa r.pa) 0
  exact ⟨_, q, hexec, hq, hstage, hbad, hreply, fun b => by rw [sendReply_store, hmem]⟩

/-- A request at a vault, whose sector is not poisoned. -/
theorem homeRequest_vault {s : State} {id : Nat} {r : Req} {off : Nat} (hget : s.reqs.get? id = some r) (hk : r.kind ≠ .beat)
    (hs : servable s id r = true) (hv : r.vaultOff = some off) (hclean : poisoned s (vaultKey off) = false)
    (ha : r.kind = .atomic → off % zatom r.op = 0) :
    ∃ u q, exec (.homeRequest id) s = .next u ∧ u.reqs.get? id = some q ∧ q.stage = .replied ∧ q.bad = 0 ∧
      q.reply = r.servedReply s.store.vault off ∧ u.store.pa = s.store.pa ∧
      ∀ b, u.store.vault.get b = r.servedByte s.store.vault off b := by
  have htarget : r.target = .none := Req.target_of_vault hv
  have hexec := exec_homeRequest_served hget hk hs (hbmTurn_of_not_hbm (by simp [htarget]))
    (forwardTo_of_not_host (by simp [htarget])) (portOpen_of_no_port (by simp [htarget]) (by simp [htarget]))
  have hserves : serve (beforeService s r) r = serveVault (beforeService s r) r off := by rw [serve, hv]
  have hclean' : poisoned (beforeService s r) (vaultKey off) = false := by simpa [poisoned] using hclean
  obtain ⟨vault, hserve, hmem⟩ := serveVault_clean hk hclean' ha
  rw [beforeService_store] at hserve hmem
  rw [hserves, hserve] at hexec
  obtain ⟨q, hq, hstage, hbad, hreply⟩ := sendReply_get
    (s := { beforeService s r with store := { s.store with vault } }) ((beforeService_reqs s r).symm ▸ hget) r
    (r.servedReply s.store.vault off) 0
  exact ⟨_, q, hexec, hq, hstage, hbad, hreply, by rw [sendReply_store], fun b => by rw [sendReply_store]; exact hmem b⟩

/-- Settles O40: a request whose turn has come is served in the state that differs from the present one only in its access's level
and its controller's turn, and the service writes the bytes that its kind names. -/
theorem homeResults : Obligations.HomeResults := by
  intro s id r hget hk hs
  refine ⟨fun x hx ht hc => exec_homeRequest_no_turn hget (hbmTurn_of_higher hx ht hc),
    fun ht hf hp => ⟨_, exec_homeRequest_served hget hk hs ht hf hp⟩,
    fun d ht hf => exec_homeRequest_forwarded hget hk hs ht hf, ?_, ?_⟩
  · intro ht hv hpa hseal habs hclean hd ha hr
    exact homeRequest_hbm hget hk hs ht hv hpa hseal habs hclean hd ha hr
  · intro off hv hclean ha
    exact homeRequest_vault hget hk hs hv hclean ha

end Sys2Proof.Machine
end

section
/-! The words of a group that change its path, its splits or its stack (R38 to R42, R219, R223): first what a retired word leaves of the
team, then the predicate stack (O8) and the vector branches (O10). -/

namespace Sys2Proof.Machine

/-! ## A word of a group and what it leaves -/

section
variable {s : State} {e : Env}

/-- A word that only groups issue runs its meaning where its path stands at a word of a clause of its class. -/
theorem runG_at {place : Place} {k : Nat} (h : GroupAt s e k) (w : Bool) (f : Env → Res) (hk : k < 8) (hp : place.group k = true) :
    runG place w s f = finish w e s (f e) :=
  runG_group h.1 h.2 hk hp

theorem groupOnly_mono {u : State} {Q R : Group → Prop} (h : GroupOnly s u e Q) (hQ : ∀ G, Q G → R G) : GroupOnly s u e R := by
  obtain ⟨hu, hother, hT, U, hU, hteam, hgroups, G, hG, hq⟩ := h
  exact ⟨hu, hother, hT, U, hU, hteam, hgroups, G, hG, hQ G hq⟩

/-- A state that differs from `s` in one group of the issuing team, and in the team's count of clauses. -/
theorem groupOnly_setTeam (h : issuer s = .group e) (G : Group) (n : Nat) {Q : Group → Prop} (hQ : Q G) :
    GroupOnly s (s.setTeam e.t { e.team.setGroup e.g G with clauses := n }) e Q := by
  refine ⟨rfl, fun k hk => setTeam_get_other s e.t k _ hk, (issuer_group h).1, _, setTeam_get s e.t _, rfl, ?_, G, ?_, hQ⟩
  · exact fun k hk => setGroup_get_other e.team e.g k G hk
  · exact setGroup_get e.team e.g G

/-- A word that has made `G` of its group retires: its path, which is `P` by then, advances, and the group is else left as `G`. -/
theorem retire_groupOnly (h : issuer s = .group e) (w : Bool) {G : Group} {P : Path} (hP : G.paths.get? e.p = some P) :
    ∃ u, retire w e (s.setTeam e.t (e.team.setGroup e.g G)) = marked w e u ∧
      GroupOnly s u e fun H => H = G.setPath e.p P.advance := by
  refine ⟨_, ?_, groupOnly_setTeam h (G.setPath e.p P.advance)
    (e.team.clauses + if (e.path.clause.map fun c => (c.words.drop 1).isEmpty).getD true then 1 else 0) rfl⟩
  rw [retire_of w (setTeam_get _ _ _) (setGroup_get _ _ _) hP]
  simp only [setTeam_setTeam, setGroup_setGroup]
  rfl

/-- The same for a word that changes its path alone. -/
theorem retire_pathOnly (h : issuer s = .group e) (w : Bool) (f : Path → Path) :
    ∃ u, retire w e (updPath s e.t e.g e.p f) = marked w e u ∧ GroupOnly s u e fun G =>
      G = { e.grp with paths := G.paths } ∧ PathOnly e G fun P => P = (f e.path).advance := by
  obtain ⟨hT, hG, hP, -⟩ := issuer_group h
  obtain ⟨u, hu, hu'⟩ := retire_groupOnly h w (setPath_get e.grp e.p (f e.path))
  refine ⟨u, by rw [updPath_of hT hG hP, hu], groupOnly_mono hu' ?_⟩
  rintro _ rfl
  rw [setPath_setPath]
  exact ⟨rfl, fun n hn => setPath_get_other _ _ _ _ hn, _, setPath_get _ _ _, rfl⟩

end

/-! ## The predicate stack (R42, R223) -/

section
variable {s : State} {e : Env} (h : GroupAt s e 0) (w : Bool)
include h

theorem exec_ppush_at (a : BitVec 6) (ha : a.toNat ≤ 7) : exec (.ppush w a) s = finish w e s
    (if 16 ≤ e.path.pstack.length then .trap 0x06 0 0
     else .done (e.setStack s (e.path.mask &&& e.grp.pred a.toNat) (e.path.pstack ++ [e.path.mask]))) := by
  rw [exec_ppush, execPpush, pushWord, runG_at h w _ (by decide) rfl, if_neg (Nat.not_lt.mpr ha)]
  rfl

theorem exec_ppushN_at (a : BitVec 6) (ha : a.toNat ≤ 7) : exec (.ppushN w a) s = finish w e s
    (if 16 ≤ e.path.pstack.length then .trap 0x06 0 0
     else .done (e.setStack s (e.path.mask &&& ~~~(e.grp.pred a.toNat)) (e.path.pstack ++ [e.path.mask]))) := by
  rw [exec_ppushN, execPpushN, pushWord, runG_at h w _ (by decide) rfl, if_neg (Nat.not_lt.mpr ha)]
  rfl

theorem exec_pinv_at : exec (.pinv w) s = finish w e s
    (match e.path.pstack.getLast? with
     | none => .trap 0x07 0 0
     | some top => .done (e.setStack s (top &&& ~~~e.path.mask) e.path.pstack)) :=
  runG_at h w _ (by decide) rfl

theorem exec_ppop_at : exec (.ppop w) s = finish w e s
    (match e.path.pstack.getLast? with
     | none => .trap 0x07 0 0
     | some top => .done (e.setStack s top e.path.pstack.dropLast)) :=
  runG_at h w _ (by decide) rfl

/-- A word that replaces the mask and the stack of its path completes and changes nothing else. -/
theorem setStack_completes (m : LaneMask) (k : List LaneMask) :
    ∃ u, finish w e s (.done (e.setStack s m k)) = .next (marked w e u) ∧ GroupOnly s u e fun G =>
      G = { e.grp with paths := G.paths } ∧
      PathOnly e G fun P => P = { e.path.advance with mask := m &&& e.path.domain, pstack := k } := by
  obtain ⟨u, hu, hu'⟩ := retire_pathOnly h.1 w fun p => { p with mask := m &&& p.domain, pstack := k }
  refine ⟨u, congrArg Host.Outcome.next hu, groupOnly_mono hu' ?_⟩
  rintro G ⟨hG, hother, P, hP, hadv⟩
  refine ⟨hG, hother, P, hP, hadv.trans ?_⟩
  cases hc : e.path.clause <;> simp [Path.advance, hc]

end

theorem predicateStackResults : predicateStackResultsRule := by
  intro s e i w m k h hcheck hwrite
  unfold stackWrite at hwrite
  split at hwrite
  case h_1 a => -- ppush
    have ha : a.toNat ≤ 7 := by simpa [Instr.check] using hcheck
    split at hwrite
    · cases hwrite
    · next hroom =>
      cases hwrite
      rw [exec_ppush_at h _ a ha, if_neg hroom]
      exact setStack_completes h _ _ _
  case h_2 a => -- ppush.n
    have ha : a.toNat ≤ 7 := by simpa [Instr.check] using hcheck
    split at hwrite
    · cases hwrite
    · next hroom =>
      cases hwrite
      rw [exec_ppushN_at h _ a ha, if_neg hroom]
      exact setStack_completes h _ _ _
  case h_3 => -- pinv
    obtain ⟨top, htop, heq⟩ := Option.map_eq_some_iff.mp hwrite
    cases heq
    rw [exec_pinv_at h, htop]
    exact setStack_completes h _ _ _
  case h_4 => -- ppop
    obtain ⟨top, htop, heq⟩ := Option.map_eq_some_iff.mp hwrite
    cases heq
    rw [exec_ppop_at h, htop]
    exact setStack_completes h _ _ _
  case h_5 => cases hwrite

theorem predicateStackTraps : predicateStackTrapsRule := by
  intro s e h
  refine ⟨fun w a ha hfull => ⟨?_, ?_⟩, fun w hempty => ⟨?_, ?_⟩⟩
  · rw [exec_ppush_at h w a ha, if_pos hfull]; rfl
  · rw [exec_ppushN_at h w a ha, if_pos hfull]; rfl
  · rw [exec_pinv_at h, hempty]; rfl
  · rw [exec_ppop_at h, hempty]; rfl

/-- Settles O8: each word is its case of the stack, and what replaces the mask and the stack of a path completes. -/
theorem predicateStackWords : Obligations.PredicateStackWords := ⟨predicateStackResults, predicateStackTraps⟩

/-! ## The vector branches (R38, R39, R202, R219) -/

theorem relTarget_eq_relative (pc : Dword) (o : BitVec 20) : relTarget pc o = relative pc o := by
  unfold relTarget relative sext
  rw [BitVec.ofInt_mul]
  rfl

theorem Tbl.lowestFree_get? {α : Type} {t : Tbl α} {m n : Nat} (h : t.lowestFree m = some n) : t.get? n = none := by
  have := List.find?_some h
  simpa [Tbl.has] using this

section
variable {s : State} {e : Env} (h : GroupAt s e 0) (w neg : Bool) (p : BitVec 3) (o : BitVec 20)
include h

theorem exec_vectorBranch_at : exec (if neg then .brvN w p o else .brv w p o) s = finish w e s
    (if takenLanes e neg p = 0 then .done s
     else if takenLanes e neg p = e.path.mask then .goto s (relative e.path.pc o)
     else if e.grp.emu.isSome then .trap 0x11 0 0
     else match e.grp.freeSplit with
       | none => .trap 0x08 0 0
       | some (n, r) => .done (splitPath s e n r (takenLanes e neg p) (relative e.path.pc o))) := by
  rw [← relTarget_eq_relative]
  cases neg <;> exact runG_at h w _ (by decide) rfl

end

/-- A split, whose new entry is not the issuing path's, and the word that makes it retires (R39). -/
theorem splitPath_completes {s : State} {e : Env} (h : GroupAt s e 0) (w : Bool) {n : Nat} (r : Nat) (hn : n ≠ e.p) (tk : LaneMask)
    (target : Dword) :
    ∃ u, retire w e (splitPath s e n r tk target) = marked w e u ∧ GroupOnly s u e fun G =>
      G = { e.grp with splits := G.splits, paths := G.paths } ∧
      (∀ k, G.splits.get? k = if k = r then some e.path.split else e.grp.splits.get? k) ∧
      (∀ k, k ≠ e.p → k ≠ n → G.paths.get? k = e.grp.paths.get? k) ∧
      G.paths.get? e.p = some { e.path.advance with
        domain := e.path.domain &&& ~~~tk, mask := e.path.mask &&& ~~~tk, split := r } ∧
      ∃ N, G.paths.get? n = some N ∧ N.pc = target ∧ N.domain = tk ∧ N.mask = tk ∧ N.split = r ∧ N.st = 0 ∧
        N.pstack = e.path.pstack ∧ N.cstack = e.path.cstack ∧ N.clause = none := by
  obtain ⟨hT, hG, hP, -⟩ := issuer_group h.1
  unfold splitPath
  rw [updGroup_of hT hG]
  obtain ⟨u, hu, hu'⟩ := retire_groupOnly h.1 w (G := { e.grp with
      splits := e.grp.splits.put r e.path.split
      paths := (e.grp.paths.upd e.p fun p =>
        { p with domain := p.domain &&& ~~~tk, mask := p.mask &&& ~~~tk, split := r }).put n
        { e.path with
          pc := target, domain := tk, mask := tk, split := r, st := 0, label := 0, clause := none, hold := none,
          retired := bump e.path.retired, skid := 0, waited := 0, pass := 0 } })
    (P := { e.path with domain := e.path.domain &&& ~~~tk, mask := e.path.mask &&& ~~~tk, split := r })
    (by simp [hn.symm, hP])
  refine ⟨u, hu, groupOnly_mono hu' ?_⟩
  rintro _ rfl
  refine ⟨rfl, fun k => Tbl.get?_put _ _ _ _, fun k hk hkn => ?_, ?_, _,
    (setPath_get_other _ _ _ _ hn).trans (Tbl.get?_put_same _ _ _), rfl, rfl, rfl, rfl, rfl, rfl, rfl, rfl⟩
  · simp [Group.setPath, hk, hkn]
  · rw [setPath_get]
    cases hc : e.path.clause <;> simp [Path.advance, hc]

theorem vectorBranchResults : vectorBranchResultsRule := by
  intro s e w neg p o h i tk
  have hexec : exec i s = _ := exec_vectorBranch_at h w neg p o
  refine ⟨fun h0 => ?_, fun h0 hall => ?_, fun h0 hall hemu n r hn hr => ?_⟩
  · rw [hexec, if_pos h0]; rfl
  · rw [hexec, if_neg h0, if_pos hall]; rfl
  · have hne : n ≠ e.p := by
      rintro rfl
      exact absurd ((issuer_group h.1).2.2.1) (by simp [Tbl.lowestFree_get? hn])
    obtain ⟨u, hu, hu'⟩ := splitPath_completes h w r hne tk (relative e.path.pc o)
    refine ⟨u, ?_, hu'⟩
    rw [hexec, if_neg h0, if_neg hall, hemu, Group.freeSplit, hn, hr]
    exact congrArg Host.Outcome.next hu

theorem vectorBranchTraps : vectorBranchTrapsRule := by
  intro s e w neg p o h i h0 hall
  have hexec : exec i s = _ := exec_vectorBranch_at h w neg p o
  rw [if_neg h0, if_neg hall] at hexec
  refine ⟨fun hemu => ?_, fun hemu hfull => ?_⟩
  · rw [hexec, if_pos (Option.isSome_iff_ne_none.mpr hemu)]; rfl
  · have hfree : e.grp.freeSplit = none := by
      unfold Group.freeSplit
      rcases hfull with hn | hr
      · rw [hn]
      · rw [hr]; cases e.grp.paths.lowestFree 8 <;> rfl
    rw [hexec, hemu, hfree]; rfl

/-- Settles O10: the lanes that a branch takes choose its case, and a split retires with the two paths of R39. -/
theorem vectorBranchWords : Obligations.VectorBranchWords := ⟨vectorBranchResults, vectorBranchTraps⟩

end Sys2Proof.Machine
end

section
/-! The words that wait (O7): `bar.sync`, `wait` and `eqp` (R225 to R229, R237). -/

namespace Sys2Proof.Machine

/-- A word that groups and sequencers issue runs a group's meaning where the group's path stands at a word of a clause of class 0. -/
theorem runX_any0_group {s : State} {e : Env} (h : GroupAt s e 0) (w : Bool) (f : Env → Res) (q : SeqEnv → Res) :
    runX .any0 w s f q = finish w e s (f e) :=
  runX_group h.1 h.2 (by decide) rfl

/-- The same for a sequencer. -/
theorem runX_any0_seq {s : State} {e : SeqEnv} (h : SeqAt s e 0) (w : Bool) (f : Env → Res) (q : SeqEnv → Res) :
    runX .any0 w s f q = finishSeq e s (q e) :=
  runX_seq h.1 h.2 (by decide) rfl

/-! ## The record of a wait (R226 to R228) -/

/-- The conditions of a `wait` from register `sa` on, and its record at issue. -/
def condsAt (a : Agt) (n sa : Nat) : List Cond := (List.range n).map fun i => condAt a (sa + 4 * i)
def issuedWait (s : State) (a : Agt) (any : Bool) (n sd sa sb : Nat) : WaitRec :=
  { any, conds := condsAt a n sa, timeout := (a.rd sb).toNat, since := s.refclk, sd, got := [], poll := none, polled := none,
    base := [], seen := [] }

section
variable {s : State} {a : Agt} {sw any : Bool} {p n sd sa sb : Nat} (hc : ∀ c ∈ condsAt a n sa, c.check s a.team = none)
include hc

/-- No condition fails its check. -/
theorem conds_pass : ((List.range n).map fun i => condAt a (sa + 4 * i)).findSome? (fun c => c.check s a.team) = none :=
  List.findSome?_eq_none_iff.mpr hc

/-- A group's wait that reads memory asks for its words; its switch marker acts, and every wait is looked at. -/
theorem waitWord_reads_group {g : Nat} (hg : a.group = some g) (hr : (issuedWait s a any n sd sa sb).reads = true) :
    waitWord sw s a p any n sd sa sb = .placed (wakeAll
      (if sw && !a.hold.any Hold.begun then
         switchPark (startPoll s a.t (some g) p (issuedWait s a any n sd sa sb)) a.t g a.path
       else startPoll s a.t (some g) p (issuedWait s a any n sd sa sb))) := by
  simp only [issuedWait, condsAt] at hr ⊢
  simp only [waitWord, conds_pass hc, hr, hg, if_true]

/-- A sequencer's has no marker. -/
theorem waitWord_reads_seq (hg : a.group = none) (hr : (issuedWait s a any n sd sa sb).reads = true) :
    waitWord sw s a p any n sd sa sb = .placed (wakeAll (startPoll s a.t none p (issuedWait s a any n sd sa sb))) := by
  simp only [issuedWait, condsAt] at hr ⊢
  simp only [waitWord, conds_pass hc, hr, hg, if_true]

/-- A wait that reads no memory ends where its first evaluation has a verdict, with that as its status. -/
theorem waitWord_ends (hr : (issuedWait s a any n sd sa sb).reads = false) {st : Word}
    (hv : (issuedWait s a any n sd sa sb).verdict s a.t a.group a.team.id.ctx = some st) :
    waitWord sw s a p any n sd sa sb = .done (a.setS s sd st) := by
  simp only [issuedWait, condsAt] at hr hv
  simp only [waitWord, conds_pass hc, hr, hv]
  rfl

/-- Where it has none, the wait stands. -/
theorem waitWord_stands (hr : (issuedWait s a any n sd sa sb).reads = false)
    (hv : (issuedWait s a any n sd sa sb).verdict s a.t a.group a.team.id.ctx = none) :
    waitWord sw s a p any n sd sa sb = .hold s (.wait (issuedWait s a any n sd sa sb)) := by
  simp only [issuedWait, condsAt] at hr hv ⊢
  simp only [waitWord, conds_pass hc, hr, hv]
  rfl

end

/-- A wait reads memory where one of its conditions is of kind 3. -/
theorem WaitRec.reads_iff (w : WaitRec) : w.reads = true ↔ ∃ c ∈ w.conds, c.kind = 3 := by
  simp [WaitRec.reads]

theorem WaitRec.reads_eq_false_iff (w : WaitRec) : w.reads = false ↔ ∀ c ∈ w.conds, c.kind ≠ 3 := by
  simp [WaitRec.reads]

/-! ## The words -/

section
variable {s : State} {e : Env} (h : GroupAt s e 0)
include h

theorem exec_barSync_at (w : Bool) (i : BitVec 6) (hi : i.toNat ≤ 15) (hp : pendingAccess s e.t e.g = false) :
    exec (.barSync w i) s =
      .next (barTest (markedWait w e (standAt (landAll s e.t e.g) e (.bar i.toNat))) e.t i.toNat) := by
  rw [exec_barSync, execBarSync, runG_at h w _ (by decide) rfl, if_neg (Nat.not_lt.mpr hi), hp]
  rfl

theorem exec_wait_at (w all : Bool) (n : BitVec 2) (d a b : BitVec 6) (ha : a.toNat + 4 * (n.toNat + 1) ≤ 61) :
    exec (.wait w all n d a b) s = finish w e s (waitWord w s e.agt e.p (!all) (n.toNat + 1) d.toNat a.toNat b.toNat) := by
  rw [exec_wait, execWait, runX_any0_group h, if_neg (by omega)]

theorem exec_eqp_at (w : Bool) (n : BitVec 16) {c : Clause} (hc : e.path.clause = some c) (hi : c.index = 0) :
    exec (.eqp w n) s = finish w e s
      (if e.grp.emu.isSome then .done s
       else if e.team.target = 2 ∨ e.team.target = e.team.ownKind then .placed (notePoint (retire w e s) e.t e.g n.toNat)
       else .placed (eqpTest (markStands w e (standAt s e (.eqp n.toNat s.refclk))) e.t)) := by
  rw [exec_eqp, execEqp, runG_at h w _ (by decide) rfl]
  simp [hc, hi]

end

theorem exec_wait_atSeq {s : State} {e : SeqEnv} (h : SeqAt s e 0) (w all : Bool) (n : BitVec 2) (d a b : BitVec 6)
    (ha : a.toNat + 4 * (n.toNat + 1) ≤ 32) (hd : d.toNat ≤ 31) (hb : b.toNat ≤ 31) :
    exec (.wait w all n d a b) s = finishSeq e s
      (waitWord w s e.agt (if e.flume then 0 else 1) (!all) (n.toNat + 1) d.toNat a.toNat b.toNat) := by
  rw [exec_wait, execWait, runX_any0_seq h, if_neg]
  simp only [Bool.or_eq_true, decide_eq_true_eq]
  omega

/-! ## The rules -/

theorem groupWaits : groupWaitsRule := by
  intro s e h
  refine ⟨exec_barSync_at h, ?_, ?_⟩
  · intro w all n d a b ha cs r hcs
    have hreads : (issuedWait s e.agt (!all) (n.toNat + 1) d.toNat a.toNat b.toNat).reads = false :=
      (WaitRec.reads_eq_false_iff _).mpr fun c hc => (hcs c hc).2
    have hcheck : ∀ c ∈ condsAt e.agt (n.toNat + 1) a.toNat, c.check s e.agt.team = none := fun c hc => (hcs c hc).1
    rw [exec_wait_at h w all n d a b ha]
    refine ⟨fun st hst => ?_, fun hst => ?_⟩
    · rw [waitWord_ends hcheck hreads hst]; rfl
    · rw [waitWord_stands hcheck hreads hst]
      cases w <;> rfl
  · intro w n c hc hi
    have hexec := exec_eqp_at h w n hc hi
    refine ⟨fun hemu => ?_, fun hemu htarget => ?_, fun hemu h2 hown => ?_⟩
    · rw [hexec, if_pos (Option.isSome_iff_ne_none.mpr hemu)]; rfl
    · rw [hexec, if_neg (by simp [hemu]), if_pos htarget]; rfl
    · rw [hexec, if_neg (by simp [hemu]), if_neg (not_or.mpr ⟨h2, hown⟩)]; rfl

theorem memoryWaits : memoryWaitsRule := by
  intro s e h w all n d a b ha cs r hcs hmem
  have hreads : (issuedWait s e.agt (!all) (n.toNat + 1) d.toNat a.toNat b.toNat).reads = true := (WaitRec.reads_iff _).mpr hmem
  rw [exec_wait_at h w all n d a b ha, waitWord_reads_group hcs rfl hreads]
  rfl

theorem sequencerWaits : sequencerWaitsRule := by
  intro s e h w all n d a b ha hd hb p cs r hcs
  rw [exec_wait_atSeq h w all n d a b ha hd hb]
  refine ⟨fun hkinds => ?_, fun hmem => ?_⟩
  · have hreads : (issuedWait s e.agt (!all) (n.toNat + 1) d.toNat a.toNat b.toNat).reads = false :=
      (WaitRec.reads_eq_false_iff _).mpr hkinds
    refine ⟨fun st hst => ?_, fun hst => ?_⟩
    · rw [waitWord_ends hcs hreads hst]; rfl
    · rw [waitWord_stands hcs hreads hst]; rfl
  · have hreads : (issuedWait s e.agt (!all) (n.toNat + 1) d.toNat a.toNat b.toNat).reads = true := (WaitRec.reads_iff _).mpr hmem
    rw [waitWord_reads_seq hcs rfl hreads]
    rfl

/-- Settles O7: a `wait` that passes its checks either asks for its memory words or is evaluated at once, and the outcome of that
evaluation chooses between the end of the word and its standing. -/
theorem waitWordResults : Obligations.WaitWordResults := ⟨groupWaits, memoryWaits, sequencerWaits⟩

end Sys2Proof.Machine
end

section
/-! `rejoin`, `exit` and the closing of a split record (O6; R40, R220, R231). A record that closes leaves each part of its carriers as one
path; the parts' keys do not meet, so what a path entry holds at the end is what its own part has left there. -/

namespace Sys2Proof.Machine

/-! ## Tables with rising keys -/

/-- What is listed in a table with rising keys is what its key reads. -/
theorem Tbl.get?_of_mem {α : Type} {t : Tbl α} {k : Nat} {v : α} (ht : t.keys.Pairwise (· < ·)) (h : (k, v) ∈ t) :
    t.get? k = some v := by
  induction t with
  | nil => cases h
  | cons x t ih =>
    obtain ⟨hlt, ht⟩ := List.pairwise_cons.mp ht
    rw [Tbl.get?_cons]
    rcases List.mem_cons.mp h with rfl | h
    · simp
    · have : x.1 < k := hlt k (List.mem_map_of_mem h)
      rw [if_neg (by omega), ih ht h]

/-- What a key reads is listed. -/
theorem Tbl.mem_of_get? {α : Type} {t : Tbl α} {k : Nat} {v : α} (h : t.get? k = some v) : (k, v) ∈ t := by
  induction t with
  | nil => cases h
  | cons x t ih =>
    rw [Tbl.get?_cons] at h
    split at h
    · next hk => cases h; rw [← hk]; exact List.mem_cons_self
    · exact List.mem_cons_of_mem _ (ih h)

theorem Tbl.get?_foldl_del {α : Type} (rest : List (Nat × α)) (t : Tbl α) (n : Nat) :
    Tbl.get? (rest.foldl (fun t e => t.del e.1) t) n = if n ∈ rest.map (·.1) then none else t.get? n := by
  induction rest generalizing t with
  | nil => simp
  | cons x rest ih =>
    rw [List.foldl_cons, ih, Tbl.get?_del]
    grind

/-! ## Paths that meet (R40) -/

theorem unionStacks_length (a b : List LaneMask) : (unionStacks a b).length = min a.length b.length := by
  simp [unionStacks]

theorem unionStacks_getD (a b : List LaneMask) (j : Nat) (h : j < (unionStacks a b).length) :
    (unionStacks a b).getD j 0 = a.getD j 0 ||| b.getD j 0 := by
  rw [unionStacks_length, lt_min_iff] at h
  simp [unionStacks, List.getD_eq_getElem?_getD, h.1, h.2]

/-- A path with the domain, the mask and the stack of another joined to its own. -/
def Path.join (x : Path) (e : Nat × Path) : Path :=
  { x with domain := x.domain ||| e.2.domain, mask := x.mask ||| e.2.mask, pstack := unionStacks x.pstack e.2.pstack }

section
variable (path : Path) (rest : List (Nat × Path))

theorem joined_eq : rest.foldl Path.join path =
    { path with domain := (rest.foldl Path.join path).domain, mask := (rest.foldl Path.join path).mask,
                pstack := (rest.foldl Path.join path).pstack } := by
  induction rest generalizing path with
  | nil => rfl
  | cons x rest ih => exact ih (path.join x)

theorem joined_domain (k : Nat) : (rest.foldl Path.join path).domain.getLsbD k =
    (path.domain.getLsbD k || rest.any fun x => x.2.domain.getLsbD k) := by
  induction rest generalizing path with
  | nil => simp
  | cons x rest ih => simp [ih, Path.join, Bool.or_assoc]

theorem joined_mask (k : Nat) : (rest.foldl Path.join path).mask.getLsbD k =
    (path.mask.getLsbD k || rest.any fun x => x.2.mask.getLsbD k) := by
  induction rest generalizing path with
  | nil => simp
  | cons x rest ih => simp [ih, Path.join, Bool.or_assoc]

/-- The joined stack is as long as the shallowest one. -/
theorem joined_pstack_length : (rest.foldl Path.join path).pstack.length ≤ path.pstack.length ∧
    (∀ x ∈ rest, (rest.foldl Path.join path).pstack.length ≤ x.2.pstack.length) ∧
    ((rest.foldl Path.join path).pstack.length = path.pstack.length ∨
      ∃ x ∈ rest, (rest.foldl Path.join path).pstack.length = x.2.pstack.length) := by
  induction rest generalizing path with
  | nil => simp
  | cons x rest ih =>
    obtain ⟨hself, hrest, hsome⟩ := ih (path.join x)
    have hmin : (path.join x).pstack.length = min path.pstack.length x.2.pstack.length := unionStacks_length _ _
    simp only [List.foldl_cons, List.forall_mem_cons, List.exists_mem_cons_iff]
    refine ⟨by omega, ⟨by omega, hrest⟩, ?_⟩
    rcases hsome with hsome | hsome
    · omega
    · exact .inr (.inr hsome)

theorem joined_pstack_getD {j : Nat} (h : j < (rest.foldl Path.join path).pstack.length) (k : Nat) :
    ((rest.foldl Path.join path).pstack.getD j 0).getLsbD k =
      ((path.pstack.getD j 0).getLsbD k || rest.any fun x => (x.2.pstack.getD j 0).getLsbD k) := by
  induction rest generalizing path with
  | nil => simp
  | cons x rest ih =>
    have hx : j < (path.join x).pstack.length := lt_of_lt_of_le h (joined_pstack_length (path.join x) rest).1
    rw [List.foldl_cons, ih (path.join x) h, Path.join, unionStacks_getD _ _ _ hx, BitVec.getLsbD_or, List.any_cons, Bool.or_assoc]

end

/-! ## A part merged into its lowest entry (R40) -/

/-- What a part of waiting paths becomes: its first path, joined with the others, under the record's parent and past its `rejoin`. -/
def mergedPath (parent : Nat) (path : Path) (rest : List (Nat × Path)) : Path :=
  Path.advance { rest.foldl Path.join path with split := parent, st := 0, label := 0, hold := none }

/-- A group whose part has been joined in its lowest entry, which has not gone on yet. -/
def joinedGroup (H : Group) (parent p : Nat) (path : Path) (rest : List (Nat × Path)) : Group :=
  { H with
    paths := (rest.foldl (fun ps e => ps.del e.1) H.paths).put p
      { rest.foldl Path.join path with split := parent, st := 0, label := 0, hold := none } }

/-- The paths of a group once a part has been merged. -/
def mergedPaths (parent : Nat) (ps : Tbl Path) : List (Nat × Path) → Tbl Path
  | [] => ps
  | (p, path) :: rest => (rest.foldl (fun ps e => ps.del e.1) ps).put p (mergedPath parent path rest)

theorem mergedPaths_get? (parent : Nat) (ps : Tbl Path) (x : Nat × Path) (rest : List (Nat × Path)) (n : Nat) :
    (mergedPaths parent ps (x :: rest)).get? n =
      if n = x.1 then some (mergedPath parent x.2 rest) else if n ∈ rest.map (·.1) then none else ps.get? n := by
  rw [mergedPaths, Tbl.get?_put, Tbl.get?_foldl_del]

/-- A part leaves the entries of other paths. -/
theorem mergedPaths_get?_other (parent : Nat) (ps : Tbl Path) {part : List (Nat × Path)} {n : Nat} (h : n ∉ part.map (·.1)) :
    (mergedPaths parent ps part).get? n = ps.get? n := by
  cases part with
  | nil => rfl
  | cons x rest =>
    rw [List.map_cons, List.mem_cons, not_or] at h
    rw [mergedPaths_get?, if_neg h.1, if_neg h.2]

/-- An entry that every part of its own leaves as `v` is `v` at the end, where there is such a part or it was `v` before. -/
theorem foldl_mergedPaths_get? {parent n : Nat} {v : Option Path} {parts : List (List (Nat × Path))}
    (h : ∀ q ∈ parts, n ∈ q.map (·.1) → ∀ ps, (mergedPaths parent ps q).get? n = v) (ps : Tbl Path)
    (hv : ps.get? n = v ∨ ∃ q ∈ parts, n ∈ q.map (·.1)) : (parts.foldl (mergedPaths parent) ps).get? n = v := by
  induction parts generalizing ps with
  | nil => simpa using hv
  | cons q parts ih =>
    rw [List.forall_mem_cons] at h
    rw [List.exists_mem_cons_iff] at hv
    refine ih h.2 _ ?_
    by_cases hn : n ∈ q.map (·.1)
    · exact .inl (h.1 hn ps)
    · rw [mergedPaths_get?_other parent ps hn]
      exact hv.imp_right fun hq => hq.resolve_left hn

section
variable (parent : Nat) (path : Path) (rest : List (Nat × Path))

theorem mergedPath_eq : mergedPath parent path rest = { path.advance with
    domain := (mergedPath parent path rest).domain, mask := (mergedPath parent path rest).mask,
    pstack := (mergedPath parent path rest).pstack, split := parent, st := 0, label := 0 } := by
  unfold mergedPath
  rw [joined_eq]
  cases hc : path.clause <;> simp [Path.advance, hc]

theorem mergedPath_lanes : (mergedPath parent path rest).domain = (rest.foldl Path.join path).domain ∧
    (mergedPath parent path rest).mask = (rest.foldl Path.join path).mask ∧
    (mergedPath parent path rest).pstack = (rest.foldl Path.join path).pstack := by
  unfold mergedPath
  cases hc : (rest.foldl Path.join path).clause <;> simp [Path.advance, hc]

theorem mergedPath_st : (mergedPath parent path rest).st = 0 := by rw [mergedPath_eq]

theorem mergedPath_split : (mergedPath parent path rest).split = parent := by rw [mergedPath_eq]

end

/-! ## The parts of the carriers -/

/-- The part of a waiting path: the paths with its label and its depth of calls. -/
def partOf (cs : List (Nat × Path)) (e : Nat × Path) : List (Nat × Path) :=
  cs.filter fun x => x.2.label == e.2.label && x.2.cstack.length == e.2.cstack.length

theorem mem_partOf {cs : List (Nat × Path)} {e x : Nat × Path} :
    x ∈ partOf cs e ↔ x ∈ cs ∧ x.2.label = e.2.label ∧ x.2.cstack.length = e.2.cstack.length := by
  simp [partOf]

theorem partsOf_eq (cs : List (Nat × Path)) :
    partsOf cs = (cs.map fun e => (e.2.label, e.2.cstack.length)).eraseDups.map fun k =>
      cs.filter fun x => x.2.label == k.1 && x.2.cstack.length == k.2 := rfl

theorem partOf_mem_partsOf {cs : List (Nat × Path)} {e : Nat × Path} (he : e ∈ cs) : partOf cs e ∈ partsOf cs := by
  rw [partsOf_eq]
  exact List.mem_map_of_mem (List.mem_eraseDups.mpr (List.mem_map_of_mem he))

/-- A part is the part of each of its paths, which are carriers. -/
theorem eq_partOf_of_mem {cs : List (Nat × Path)} {q : List (Nat × Path)} (hq : q ∈ partsOf cs) {x : Nat × Path} (hx : x ∈ q) :
    x ∈ cs ∧ q = partOf cs x := by
  rw [partsOf_eq] at hq
  obtain ⟨k, -, rfl⟩ := List.mem_map.mp hq
  simp only [List.mem_filter, Bool.and_eq_true, beq_iff_eq] at hx
  obtain ⟨hmem, hlabel, hdepth⟩ := hx
  exact ⟨hmem, by rw [partOf, hlabel, hdepth]⟩

/-! ## The record closes (R40) -/

/-- A state in which one group of a team has become `H` and the team's count of clauses `n`. -/
def withOneGroup (s : State) (t : Nat) (T : Team) (g : Nat) (H : Group) (n : Nat) : State :=
  s.setTeam t { T.setGroup g H with clauses := n }

section
variable (s : State) (t : Nat) (T : Team) (g : Nat) (H : Group) (n : Nat)

theorem withOneGroup_team : (withOneGroup s t T g H n).teams.get? t = some { T.setGroup g H with clauses := n } := setTeam_get _ _ _

theorem updGroup_withOneGroup (f : Group → Group) : updGroup (withOneGroup s t T g H n) t g f = withOneGroup s t T g (f H) n := by
  rw [updGroup_of (withOneGroup_team s t T g H n) (setGroup_get T g H), withOneGroup, setTeam_setTeam]
  simp only [Team.setGroup, Tbl.put_put_same]
  rfl

theorem countClause_withOneGroup : countClause (withOneGroup s t T g H n) t = withOneGroup s t T g H (n + 1) := by
  rw [countClause_of (withOneGroup_team s t T g H n), withOneGroup, setTeam_setTeam]
  rfl

/-- A path retires: its group has it advanced, and the team's count is what it is. -/
theorem retireAt_withOneGroup {p : Nat} {P : Path} (hP : H.paths.get? p = some P) :
    ∃ m, retireAt (withOneGroup s t T g H n) t g p = withOneGroup s t T g (H.setPath p P.advance) m := by
  have henv : envOf (withOneGroup s t T g H n) t g p =
      some ⟨t, { T.setGroup g H with clauses := n }, g, H, p, P⟩ := by
    simp [envOf, withOneGroup_team, Team.setGroup, hP]
  rw [retireAt, henv]
  refine ⟨n + if (P.clause.map fun c => (c.words.drop 1).isEmpty).getD true then 1 else 0,
    (retire_of false (withOneGroup_team s t T g H n) (setGroup_get T g H) hP).trans ?_⟩
  simp only [withOneGroup, setTeam_setTeam, Team.setGroup, Tbl.put_put_same]
  rfl

theorem foldl_countClause_withOneGroup {β : Type} (rest : List β) :
    ∃ m, rest.foldl (fun s _ => countClause s t) (withOneGroup s t T g H n) = withOneGroup s t T g H m := by
  induction rest generalizing n with
  | nil => exact ⟨n, rfl⟩
  | cons x rest ih =>
    rw [List.foldl_cons, countClause_withOneGroup]
    exact ih (n + 1)

theorem mergePart_withOneGroup (parent : Nat) (part : List (Nat × Path)) :
    ∃ m, mergePart (withOneGroup s t T g H n) t g parent part =
      withOneGroup s t T g { H with paths := mergedPaths parent H.paths part } m := by
  match part with
  | [] => exact ⟨n, rfl⟩
  | (p, path) :: rest =>
    unfold mergePart
    simp only [updGroup_withOneGroup]
    obtain ⟨m, hm⟩ := foldl_countClause_withOneGroup s t T g (joinedGroup H parent p path rest) n rest
    obtain ⟨k, hk⟩ := retireAt_withOneGroup s t T g (joinedGroup H parent p path rest) m (Tbl.get?_put_same _ p _)
    refine ⟨k, (congrArg (fun u => retireAt u t g p) hm).trans (hk.trans ?_)⟩
    rw [Group.setPath, joinedGroup, Tbl.put_put_same]
    rfl

theorem foldl_mergePart_withOneGroup (parent : Nat) (parts : List (List (Nat × Path))) :
    ∃ m, parts.foldl (fun s part => mergePart s t g parent part) (withOneGroup s t T g H n) =
      withOneGroup s t T g { H with paths := parts.foldl (mergedPaths parent) H.paths } m := by
  induction parts generalizing H n with
  | nil => exact ⟨n, rfl⟩
  | cons q parts ih =>
    obtain ⟨m, hm⟩ := mergePart_withOneGroup s t T g H n parent q
    rw [List.foldl_cons, hm]
    exact ih { H with paths := mergedPaths parent H.paths q } m

end

/-- The group that a closed record leaves. -/
def closedGroup (G : Group) (r parent : Nat) : Group :=
  { G with splits := G.splits.del r, paths := (partsOf (G.carriers r)).foldl (mergedPaths parent) G.paths }

section
variable {s : State} {t g r : Nat} {T : Team} {G : Group} (hT : s.teams.get? t = some T) (hG : T.groups.get? g = some G)
include hT hG

/-- A record stays open where it is none, is another's parent, or has a carrier that does not wait. -/
theorem closeRecord_stays (n : Nat) (h : G.splits.get? r = none ∨ G.nested r = true ∨ ∃ e ∈ G.carriers r, e.2.st ≠ 1) :
    closeRecord n s t g r = s := by
  cases n with
  | zero => rfl
  | succ n =>
    unfold closeRecord
    simp only [hT, Option.bind_some, hG]
    cases hr : G.splits.get? r with
    | none => rfl
    | some parent =>
      have hopen : (G.nested r || !((G.carriers r).all fun e => e.2.st == 1)) = true := by
        rcases h with h | h | ⟨e, he, hst⟩
        · rw [hr] at h; cases h
        · simp [h]
        · simp only [Bool.or_eq_true, Bool.not_eq_true', List.all_eq_false]
          exact .inr ⟨e, he, by simpa using hst⟩
      simp only [hopen, if_true]

/-- Else it closes, and its parent is tested. -/
theorem closeRecord_closes (n : Nat) {parent : Nat} (hr : G.splits.get? r = some parent) (hnested : G.nested r = false)
    (hwait : ∀ e ∈ G.carriers r, e.2.st = 1) :
    ∃ m, closeRecord (n + 1) s t g r = closeRecord n (withOneGroup s t T g (closedGroup G r parent) m) t g parent := by
  have hclosed : (G.nested r || !((G.carriers r).all fun e => e.2.st == 1)) = false := by
    simpa [hnested] using hwait
  obtain ⟨m, hm⟩ := foldl_mergePart_withOneGroup s t T g { G with splits := G.splits.del r } T.clauses parent (partsOf (G.carriers r))
  have hdel : updGroup s t g (fun grp => { grp with splits := grp.splits.del r }) =
      withOneGroup s t T g { G with splits := G.splits.del r } T.clauses := updGroup_of hT hG _
  refine ⟨m, ?_⟩
  rw [closeRecord]
  simp only [hT, Option.bind_some, hG, hr, hclosed, Bool.false_eq_true, if_false, hdel, hm]
  rfl

end

/-! ## What the closed record leaves -/

section
variable {G : Group} {r : Nat} (parent : Nat) (hkeys : G.paths.keys.Pairwise (· < ·))
include hkeys

/-- A carrier is what its entry reads. -/
theorem carrier_get? {e : Nat × Path} (he : e ∈ G.carriers r) : G.paths.get? e.1 = some e.2 :=
  Tbl.get?_of_mem hkeys (List.mem_of_mem_filter he)

/-- Carriers with one key are one. -/
theorem carrier_unique {e x : Nat × Path} (he : e ∈ G.carriers r) (hx : x ∈ G.carriers r) (h : e.1 = x.1) : e = x := by
  have := carrier_get? hkeys he
  rw [h, carrier_get? hkeys hx] at this
  exact Prod.ext h (Option.some.inj this).symm

/-- The only part that has a carrier's entry is the carrier's own. -/
theorem part_of_key {e : Nat × Path} (he : e ∈ G.carriers r) {q : List (Nat × Path)} (hq : q ∈ partsOf (G.carriers r))
    (hn : e.1 ∈ q.map (·.1)) : q = partOf (G.carriers r) e := by
  obtain ⟨x, hx, hxe⟩ := List.mem_map.mp hn
  obtain ⟨hxc, hpart⟩ := eq_partOf_of_mem hq hx
  rw [hpart, carrier_unique hkeys hxc he hxe]

/-- A carrier's entry is left as its part leaves it. -/
theorem closedGroup_carrier {e x : Nat × Path} {rest : List (Nat × Path)} (he : e ∈ G.carriers r)
    (hpart : partOf (G.carriers r) e = x :: rest) : (closedGroup G r parent).paths.get? e.1 =
      if e = x then some (mergedPath parent x.2 rest) else none := by
  have hmem : e ∈ x :: rest := hpart ▸ mem_partOf.mpr ⟨he, rfl, rfl⟩
  refine foldl_mergedPaths_get? (fun q hq hn ps => ?_) _ (.inr ⟨_, partOf_mem_partsOf he, List.mem_map_of_mem (hpart ▸ hmem)⟩)
  have hx : x ∈ G.carriers r := (mem_partOf.mp (hpart ▸ List.mem_cons_self)).1
  rw [part_of_key hkeys he hq hn, hpart, mergedPaths_get?]
  by_cases hex : e = x
  · rw [if_pos (congrArg Prod.fst hex), if_pos hex]
  · have hrest : e ∈ rest := (List.mem_cons.mp hmem).resolve_left hex
    rw [if_neg fun h => hex (carrier_unique hkeys he hx h), if_pos (List.mem_map_of_mem hrest), if_neg hex]

/-- The entry of a path that is no carrier stays. -/
theorem closedGroup_other {n : Nat} (hn : G.paths.get? n ∉ (G.carriers r).map fun e => some e.2) :
    (closedGroup G r parent).paths.get? n = G.paths.get? n := by
  refine foldl_mergedPaths_get? (fun q hq hq' => ?_) _ (.inl rfl)
  obtain ⟨x, hx, rfl⟩ := List.mem_map.mp hq'
  have hxc := (eq_partOf_of_mem hq hx).1
  exact absurd (List.mem_map.mpr ⟨x, hxc, (carrier_get? hkeys hxc).symm⟩) hn

/-- The lowest entry of a part carries on under the record's parent, without waiting. -/
theorem closedGroup_parent_open (hsome : G.carriers r ≠ []) :
    ∃ e ∈ (closedGroup G r parent).carriers parent, e.2.st ≠ 1 := by
  obtain ⟨e, he⟩ := List.exists_mem_of_ne_nil _ hsome
  obtain ⟨x, rest, hpart⟩ : ∃ x rest, partOf (G.carriers r) e = x :: rest :=
    List.exists_cons_of_ne_nil (List.ne_nil_of_mem (mem_partOf.mpr ⟨he, rfl, rfl⟩))
  obtain ⟨hx, hlabel, hdepth⟩ := mem_partOf.mp (hpart ▸ List.mem_cons_self : x ∈ partOf (G.carriers r) e)
  have hxpart : partOf (G.carriers r) x = x :: rest := by rw [← hpart, partOf, partOf, hlabel, hdepth]
  have hget := closedGroup_carrier parent hkeys hx hxpart
  rw [if_pos rfl] at hget
  refine ⟨(x.1, mergedPath parent x.2 rest), List.mem_filter.mpr ⟨Tbl.mem_of_get? hget, ?_⟩, ?_⟩
  · simp [mergedPath_split]
  · simp [mergedPath_st]

/-- The lowest entry of a part: the union of its part's lanes and, as far as the shallowest goes, stacks. -/
theorem closedGroup_lowest {e : Nat × Path} (he : e ∈ G.carriers r) (hhead : (partOf (G.carriers r) e).head? = some e) :
    ∃ P, (closedGroup G r parent).paths.get? e.1 = some P ∧
      P = { e.2.advance with domain := P.domain, mask := P.mask, pstack := P.pstack, split := parent, st := 0, label := 0 } ∧
      (∀ k, P.domain.getLsbD k = (partOf (G.carriers r) e).any fun x => x.2.domain.getLsbD k) ∧
      (∀ k, P.mask.getLsbD k = (partOf (G.carriers r) e).any fun x => x.2.mask.getLsbD k) ∧
      (∀ x ∈ partOf (G.carriers r) e, P.pstack.length ≤ x.2.pstack.length) ∧
      (∃ x ∈ partOf (G.carriers r) e, P.pstack.length = x.2.pstack.length) ∧
      ∀ j k, j < P.pstack.length → (P.pstack.getD j 0).getLsbD k =
        (partOf (G.carriers r) e).any fun x => (x.2.pstack.getD j 0).getLsbD k := by
  obtain ⟨rest, hpart⟩ := List.head?_eq_some_iff.mp hhead
  obtain ⟨hdomain, hmask, hpstack⟩ := mergedPath_lanes parent e.2 rest
  obtain ⟨hself, hrest, hsome⟩ := joined_pstack_length e.2 rest
  refine ⟨mergedPath parent e.2 rest, by rw [closedGroup_carrier parent hkeys he hpart, if_pos rfl], mergedPath_eq parent e.2 rest, ?_⟩
  rw [hpart, hdomain, hmask, hpstack]
  refine ⟨joined_domain e.2 rest, joined_mask e.2 rest, ?_, ?_, fun j k hj => joined_pstack_getD e.2 rest hj k⟩
  · exact List.forall_mem_cons.mpr ⟨hself, hrest⟩
  · exact (List.exists_mem_cons_iff ..).mpr hsome

/-- Another entry of a part is free. -/
theorem closedGroup_joined {e : Nat × Path} (he : e ∈ G.carriers r) (hhead : (partOf (G.carriers r) e).head? ≠ some e) :
    (closedGroup G r parent).paths.get? e.1 = none := by
  obtain ⟨x, rest, hpart⟩ : ∃ x rest, partOf (G.carriers r) e = x :: rest :=
    List.exists_cons_of_ne_nil (List.ne_nil_of_mem (mem_partOf.mpr ⟨he, rfl, rfl⟩))
  rw [closedGroup_carrier parent hkeys he hpart, if_neg]
  rintro rfl
  exact hhead (by rw [hpart]; rfl)

end

theorem closedRecord : closedRecordRule := by
  intro s t g r parent T G hT hG hr _ hkeys _ cs
  refine ⟨fun hopen => closeRecord_stays hT hG 8 (.inr (.inr hopen)), fun hsome hwait hnested => ?_⟩
  obtain ⟨m, hm⟩ := closeRecord_closes hT hG 7 hr hnested hwait
  have hclosed : closeRecord 8 s t g r = withOneGroup s t T g (closedGroup G r parent) m :=
    hm.trans (closeRecord_stays (withOneGroup_team s t T g (closedGroup G r parent) m) (setGroup_get T g _) 7
      (.inr (.inr (closedGroup_parent_open parent hkeys hsome))))
  rw [hclosed]
  refine ⟨_, closedGroup G r parent, withOneGroup_team s t T g (closedGroup G r parent) m, setGroup_get T g _, rfl, rfl,
    Tbl.get?_del_same G.splits r, fun n hn => Tbl.get?_del_other G.splits r n hn,
    fun n hn => closedGroup_other parent hkeys hn, fun e he => ?_⟩
  intro part
  split
  · next hhead => exact closedGroup_lowest parent hkeys he hhead
  · next hhead => exact closedGroup_joined parent hkeys he hhead

/-! ## rejoin and exit (R40, R220, R231) -/

theorem rejoinAndExit_complete : rejoinAndExitRule := by
  refine ⟨fun s e h => ⟨fun w o hs => ?_, fun w o hs => ?_, fun w hemu hpaths => ?_, fun w hemu hpaths => ?_⟩, fun s e w h => ?_⟩
  · rw [exec_rejoin, execRejoin, runG_at h w _ (by decide) rfl, if_pos hs]
    rfl
  · rw [exec_rejoin, execRejoin, runG_at h w _ (by decide) rfl, if_neg hs, relTarget_eq_relative]
    rfl
  · rw [exec_exit, execExit, runX_any0_group h, hemu, endPath, if_neg (Nat.not_le.mpr hpaths)]
    rfl
  · rw [exec_exit, execExit, runX_any0_group h, hemu, endPath, if_pos hpaths]
    rfl
  · rw [exec_exit, execExit, runX_any0_seq h]
    rfl

/-- Settles O6: a word that ends or stops its path tests the path's record, and a record whose carriers all wait closes part by part. -/
theorem rejoinAndExit : Obligations.RejoinAndExit := ⟨rejoinAndExit_complete, closedRecord⟩

end Sys2Proof.Machine
end

section
/-! What time ends and what it changes: held words (O45; R48, R49, R64, R237), and locality scores and sample tags (O48; R46, R47,
R410). -/

namespace Sys2Proof.Machine

/-! ## Held words -/

section
variable {s : State} {t : Nat} {T : Team} (hT : s.teams.get? t = some T) (hact : T.active = true)
include hT hact

/-- An agent of an active team that is held at a wait has that wait. -/
theorem heldWait_of {g : Option Nat} {p : Nat} {w : WaitRec} (hw : holdOf s t g p = some (.wait w)) :
    heldWait s t g p = some w := by
  simp [heldWait, hT, hact, hw]

/-- A wait that reads memory, with no poll out, is polled. -/
theorem exec_waitMemwordPoll_of {g : Option Nat} {p : Nat} {w : WaitRec} (hw : holdOf s t g p = some (.wait w)) (hpoll : w.poll = none)
    (hr : w.reads = true) : exec (.waitMemwordPoll t g p) s = .next (startPoll s t g p w) := by
  simp [exec_waitMemwordPoll, execWaitMemwordPoll, heldWait_of hT hact hw, hr, hpoll]

/-- A wait past its deadline that reads memory is polled. -/
theorem exec_waitTimeout_polls {g : Option Nat} {p : Nat} {w : WaitRec} (hw : holdOf s t g p = some (.wait w)) (hpoll : w.poll = none)
    (hlate : w.late s.refclk = true) (hr : w.reads = true) : exec (.waitTimeout t g p) s = .next (startPoll s t g p w) := by
  simp [exec_waitTimeout, execWaitTimeout, heldWait_of hT hact hw, hlate, hpoll, hr]

/-- One that reads none ends with its verdict. -/
theorem exec_waitTimeout_ends {g : Option Nat} {p : Nat} {w : WaitRec} {st : Word} (hw : holdOf s t g p = some (.wait w))
    (hpoll : w.poll = none) (hlate : w.late s.refclk = true) (hr : w.reads = false) (hv : w.verdict s t g T.id.ctx = some st) :
    exec (.waitTimeout t g p) s = .next (endWait s t g p w st) := by
  simp [exec_waitTimeout, execWaitTimeout, heldWait_of hT hact hw, hlate, hpoll, hr, hT, hv]

theorem exec_rowPoolEmpty_of {g p since : Nat} {names : List Nat} {fresh : Bool}
    (hw : holdOf s t (some g) p = some (.rows since names fresh)) (hlong : 4096 ≤ s.refclk - since)
    (hrows : T.hasRows g names fresh = false) :
    exec (.rowPoolEmpty t g p) s = .next (stopGroup s t g p (pcOf s t (some g) p) 0x05 0 0) := by
  simp [exec_rowPoolEmpty, execRowPoolEmpty, hw, hT, hact, hlong, hrows]

theorem exec_eqpHoldTimeout_of {g n since : Nat} {G : Group} (hG : T.groups.get? g = some G) (hat : G.atEqp = some (n, since))
    (hservice : G.service = false) (hmove : migrating T = false) (hlong : 1024 ≤ s.refclk - since) :
    exec (.eqpHoldTimeout t g) s = .next (passEqp s t g) := by
  simp [exec_eqpHoldTimeout, execEqpHoldTimeout, hT, hact, hG, hat, hservice, hmove, hlong]

end

/-- What an evaluation past the deadline gives where the conditions that hold do not end the wait: their bits, with bit 31. -/
theorem WaitRec.verdict_late {s : State} {t : Nat} {g : Option Nat} {ctx : Nat} {w : WaitRec} (hlate : w.late s.refclk = true)
    (hends : w.ends (w.satisfied s t g ctx) = false) :
    w.verdict s t g ctx = some (BitVec.ofNat 32 (2 ^ 31 + w.satisfied s t g ctx)) := by
  simp [WaitRec.verdict, hends, hlate]

/-- Settles O45: each event finds the held word that it names and its limit passed, and does what that word's limit brings. -/
theorem heldWordEvents : Obligations.HeldWordEvents := by
  intro s t p T hT hact
  refine ⟨fun g w hw hpoll => ⟨exec_waitMemwordPoll_of hT hact hw hpoll, exec_waitTimeout_polls hT hact hw hpoll,
      fun hlate hr hends => exec_waitTimeout_ends hT hact hw hpoll hlate hr (WaitRec.verdict_late hlate hends)⟩,
    fun g since names fresh => exec_rowPoolEmpty_of hT hact, fun g G n since => exec_eqpHoldTimeout_of hT hact⟩

/-! ## Locality scores and sample tags -/

@[simp] theorem State.core_setCore (s : State) (c : Nat) (x : Core) : (s.setCore c x).core c = x := by
  simp [State.core, State.setCore]

@[simp] theorem State.core_setSlice (s : State) (c k : Nat) (x : Slice) :
    (s.setSlice c k x).core c = { s.core c with slices := (s.core c).slices.put k x } := by
  simp [State.setSlice]

@[simp] theorem State.slice_setSlice (s : State) (c k : Nat) (x : Slice) : (s.setSlice c k x).slice c k = x := by
  simp [State.slice]

theorem activeSize_eq (core : Nat) : activeSize core = if core % 32 < 24 then 8 else 4 := by
  unfold activeSize isLCore
  by_cases h : core % 32 < 24
  · simp [h, Nat.not_le.mpr h]
  · simp [h, Nat.not_lt.mp h]

@[simp] theorem Slice.draw_due (k : Slice) (meanlog : Nat) : (k.draw meanlog).due = k.due := rfl

section
variable {s : State} {core : Nat}

theorem exec_llScoreHalve_of (h : (s.core core).llHalved < s.coreClock core / 4096) : exec (.llScoreHalve core) s =
    .next (mapScores (s.setCore core { s.core core with llHalved := (s.core core).llHalved + 1 }) core fun n => n / 2) := by
  rw [exec_llScoreHalve, execLlScoreHalve, if_neg (Nat.not_le.mpr h)]

theorem exec_llCapUpdate_of (h : (s.core core).llCapped < s.coreClock core / 512) : exec (.llCapUpdate core) s =
    .next (s.setCore core { s.core core with
      llCapped := (s.core core).llCapped + 1, llSum := scoreSum s core
      llCap := if (s.core core).llHigh < scoreSum s core then max 2 ((s.core core).llCap - 1)
        else if scoreSum s core < (s.core core).llLow then min (activeSize core) ((s.core core).llCap + 1)
        else (s.core core).llCap }) := by
  rw [exec_llCapUpdate, execLlCapUpdate, if_neg (Nat.not_le.mpr h)]

section
variable {slice : Nat} (hon : s.trace.enable = true) (hmean : s.trace.meanlog ≠ 0) (hrun : (s.slice core slice).count = some 0)
include hon hmean hrun

/-- A countdown that has run out draws the next one; where a tag is under way or due, this one is skipped. -/
theorem exec_sampleTag_skips (h : (s.slice core slice).tag ≠ none ∨ (s.slice core slice).due = true) :
    exec (.sampleTag core slice) s = .next
      (let u := s.setSlice core slice ((s.slice core slice).draw s.trace.meanlog)
       u.setCore core { u.core core with sampleSkip := (u.core core).sampleSkip + 1 }) := by
  have hbusy : ((s.slice core slice).tag.isSome || (s.slice core slice).due) = true := by
    simpa [Option.isSome_iff_ne_none] using h
  simp only [exec_sampleTag, execSampleTag, sampling, hon, hrun, hbusy]
  simp [hmean]

/-- Where none is, the slice's next word is to be tagged. -/
theorem exec_sampleTag_marks (htag : (s.slice core slice).tag = none) (hdue : (s.slice core slice).due = false) :
    exec (.sampleTag core slice) s = .next
      (s.setSlice core slice { (s.slice core slice).draw s.trace.meanlog with due := true }) := by
  simp [exec_sampleTag, execSampleTag, sampling, hon, hrun, hmean, htag, hdue]

end

end

/-- Settles O48: each event, where it is due, makes one change of its core, whose fields are read back. -/
theorem localityEvents : Obligations.LocalityEvents := by
  intro s core
  refine ⟨exec_llScoreHalve_of, fun h => ⟨_, exec_llCapUpdate_of h, ?_, rfl, ?_⟩, fun slice hon hmean hrun => ?_⟩
  · simp
  · simp [activeSize_eq]
  · by_cases hbusy : (s.slice core slice).tag ≠ none ∨ (s.slice core slice).due = true
    · refine ⟨_, exec_sampleTag_skips hon hmean hrun hbusy, by simp [hbusy], fun htag => ?_⟩
      have hdue : (s.slice core slice).due = true := hbusy.resolve_left (not_not_intro htag)
      simpa [State.slice] using hdue
    · obtain ⟨htag, hdue⟩ := not_or.mp hbusy
      refine ⟨_, exec_sampleTag_marks hon hmean hrun (not_not.mp htag) (by simpa using hdue), by simp [hbusy], fun _ => ?_⟩
      simp

end Sys2Proof.Machine
end

section
/-! A step of a slice (O55; R41, R45, R228). A slice's clock looks at every held wait once its word has been issued (`issueAll`), and
what ends every step looks at them again. The statement has them looked at only at the end of the step. The two differ where a wait that
reads memory is due for another poll: the first look takes the poll that has come back and the second sends the next one out. -/

namespace Sys2Proof.Machine

/-! ## A slice with a word to issue and a poll to take -/

/-- The word of `nop`. -/
def nopWord : Word := 0x1E0C0000

/-- A `wait`, without a deadline, for the memory word at address 0 to be 0, last polled at tick 0. -/
def polledWait : WaitRec :=
  { any := true, conds := [⟨3, 0, 0, 0⟩], timeout := 0xFFFFFFFF, since := 0, sd := 1, got := [], poll := some 9, polled := some 0,
    base := [], seen := [] }

/-- Its poll, which has come back with 7. -/
def doneAccess : Access :=
  { team := 0, group := 0, path := 1, pc := 0, mask := 0, kind := .poll, size := 4, sext := false, op := 0, order := 0, scope := 5,
    space := 0, cache := 0, dest := .none, lanes := [⟨0, 0, 0, 0, .done, 7⟩], atHome := false, far := false, cancelled := false,
    parked := false, wbs := [], level := 0, stand := ⟨0, 0xFFFF, 0⟩, got := [] }

/-- A group whose path 0 stands at a `nop` and whose path 1 is held at the wait. -/
def pollingGroup : Group :=
  { freshGroup 0 0 0 with
    paths := [(0, { freshPath with pc := 4, clause := some (clauseOf 0 nopWord) }),
              (1, { freshPath with pc := 4, clause := some (clauseOf 0 0), hold := some (.wait polledWait) })] }

/-- The state at tick 64, at which the wait's next poll is due. -/
def pollingState : State :=
  let s := { State.reset.setTeam 0 { fetchTeam with groups := [(0, pollingGroup)] } with
    refclk := 64, nextId := 10, accs := [(9, doneAccess)] }
  s.setSlice 0 0 { Slice.reset 0 0 with active := [(0, 0)] }

/-- The issuing path, and the state in which it issues. -/
def pollingEnv : Env :=
  { t := 0, team := { fetchTeam with groups := [(0, pollingGroup)] }, g := 0, grp := pollingGroup, p := 0,
    path := { freshPath with pc := 4, clause := some (clauseOf 0 nopWord) } }
def pollingIssue : State :=
  selectPath { pollingState.setSlice 0 0 ((pollingState.slice 0 0).clocked (some (0, 0))) with
    turn := (Station.slice 0 0).key pollingState + 1, cur := some ⟨0, .group 0⟩ } 0 0 0

/-- The poll that path 1's wait has out after an outcome. -/
def pollOut : Out → Option Nat
  | .next v => match holdOf v 0 (some 0) 1 with
    | some (.wait w) => w.poll
    | _ => none
  | _ => none

theorem pollingState_chooses : sliceChooses pollingState pollingIssue pollingEnv :=
  ⟨0, 0, _, .inl ⟨rfl, by decide +kernel, rfl⟩, by decide, by decide +kernel, by decide +kernel, by decide +kernel, by rfl⟩

theorem decodeWord_nopWord : decodeWord nopWord = .ok (.nop false) := by rfl

/-- The step looks at the waits twice: the next poll is out. -/
theorem pollOut_step : pollOut (step pollingState) = some 10 := by decide +kernel

/-- The outcome of the statement looks at them once: no poll is out. -/
theorem pollOut_looked_at_once :
    pollOut (onNext (onNext (exec (.nop false) (prepare pollingIssue pollingEnv nopWord)) fun v => settleWord pollingIssue v pollingEnv)
      (afterStep pollingState)) = none := by decide +kernel

/-- Refutes O55: where a path issues a `nop` while its sibling's wait has a poll that has come back and is due for the next, the step
sends that poll out, and the outcome that the statement gives does not. -/
theorem not_stepRunsDecoded : ¬ Obligations.StepRunsDecoded := by
  intro ⟨hwords, _⟩
  obtain ⟨-, -, -, hdecoded⟩ := hwords pollingState pollingIssue pollingEnv (clauseOf 0 nopWord) nopWord [0x20000000]
    pollingState_chooses (by decide +kernel) rfl rfl
  obtain ⟨-, -, hplaced⟩ := hdecoded (by decide) (by decide) (by decide)
  obtain ⟨-, -, hruns⟩ := hplaced (.nop false) (by decide)
  have hstep := congrArg pollOut (hruns decodeWord_nopWord)
  rw [pollOut_step, pollOut_looked_at_once] at hstep
  cases hstep

end Sys2Proof.Machine
end

section
/-! Vector words (O4, O17, O18; R64, R65, R67, R151, R189, R249, R256, R278, R279): compares and their predicates, where a vector word
stops, and when its result is in its row. -/

namespace Sys2Proof.Machine

/-! ## Compares and class tests (R256, R278, R279) -/

/-- A condition on two integers is its relation on their order and equality (R212). -/
theorem condHolds_eq_relHolds {c : Nat} (hc : c ≤ 5) (a b : Int) : condHolds c a b = relHolds c (decide (a < b)) (decide (a = b)) := by
  interval_cases c <;> simp only [condHolds, relHolds] <;> grind

theorem condHolds_toInt {c : Nat} (hc : c ≤ 5) (x y : Word) : condHolds c x.toInt y.toInt = relHolds c (x.slt y) (x == y) := by
  simp only [condHolds_eq_relHolds hc, BitVec.slt_eq_decide, BitVec.toInt_inj]
  rfl

theorem condHolds_toNat {c : Nat} (hc : c ≤ 5) (x y : Word) : condHolds c x.toNat y.toNat = relHolds c (x.ult y) (x == y) := by
  simp only [condHolds_eq_relHolds hc, Int.ofNat_lt, Int.ofNat_inj, BitVec.ult_eq_decide, BitVec.toNat_inj]
  rfl

section
variable {s : State} {e : Env}

/-- A word that writes one predicate completes and changes nothing else. -/
theorem setP_completes (h : GroupAt s e 0) (w : Bool) (d : Nat) (v : LaneMask) :
    ∃ u, finish w e s (.done (e.setP s d v)) = .next (marked w e u) ∧ predOnly s u e d v := by
  obtain ⟨hT, hG, hP, -⟩ := issuer_group h.1
  obtain ⟨u, hu, honly⟩ := retire_groupOnly h.1 w (G := { e.grp with p := e.grp.p.put d v }) hP
  have hput : e.setP s d v = s.setTeam e.t (e.team.setGroup e.g { e.grp with p := e.grp.p.put d v }) := updGroup_of hT hG _
  refine ⟨u, congrArg Host.Outcome.next (hput ▸ hu), groupOnly_mono honly ?_⟩
  rintro _ rfl
  exact ⟨rfl, fun k => Tbl.getD_put e.grp.p d k v 0, fun n hn => setPath_get_other _ _ _ _ hn, _, setPath_get _ _ _, rfl⟩

/-- A compare whose test on the lanes is `g`: it completes where its names are mapped, and traps where one is not. -/
theorem vcompare_results (h : GroupAt s e 0) {i : Instr} {w : Bool} {p : BitVec 3} {ns : List Nat} {f : (Nat → List Word) → Nat → Bool}
    {g : Nat → Bool} (hexec : exec i s = vcompare w p ns s f) (htest : ∀ l, f (fun n => e.team.lanes e.g n) l = g l) :
    (e.team.allMapped e.g ns = true → ∃ u, exec i s = .next (marked w e u) ∧ predOnly s u e p.toNat (lanesWhere e g)) ∧
    (e.team.allMapped e.g ns = false → exec i s = .next (stopGroup s e.t e.g e.p e.path.pc 0x04 0 0)) := by
  obtain rfl : f (fun n => e.team.lanes e.g n) = g := funext htest
  rw [hexec, vcompare, runG_at h w _ (by decide) rfl]
  refine ⟨fun hmapped => ?_, fun hmapped => ?_⟩
  · simp only [hmapped, Bool.not_true, Bool.false_eq_true, if_false]
    exact setP_completes h w p.toNat _
  · simp only [hmapped, Bool.not_false, if_true]
    rfl

end

/-- Settles O4: each word is a compare with the test of its table; the integer conditions are relations on order and equality. -/
theorem compareWords : Obligations.CompareWords := by
  intro s e i w ns d v h hcheck hwrite
  unfold compareWrite at hwrite
  split at hwrite <;> cases hwrite
  case h_1 c p a b => -- vcmp.i32
    have hc : c.toNat ≤ 5 := by simpa [Instr.check] using hcheck
    exact vcompare_results h (exec_vcmpI32 ..) fun l => condHolds_toInt hc _ _
  case h_2 c p a b => -- vcmp.n32
    have hc : c.toNat ≤ 5 := by simpa [Instr.check] using hcheck
    exact vcompare_results h (exec_vcmpN32 ..) fun l => condHolds_toNat hc _ _
  case h_3 => exact vcompare_results h (exec_vtst ..) fun _ => rfl
  case h_4 => exact vcompare_results h (exec_vfcmpF32 ..) fun _ => rfl
  case h_5 => exact vcompare_results h (exec_vfcmpF64 ..) fun _ => rfl
  case h_6 => exact vcompare_results h (exec_vfclassF32 ..) fun _ => rfl
  case h_7 => exact vcompare_results h (exec_vfclassF64 ..) fun _ => rfl

/-! ## When a result is in its row (R67, R189, R249) -/

section
variable {s : State} {t g r : Nat} {T : Team} {row : Row}

/-- A result that returns to a row that is still referred to leaves the row, with one result fewer in flight (R67). -/
theorem pendDown_of (hrow : T.res.rows.get? r = some row) (href : row.refcnt ≠ 0) :
    T.pendDown r = T.setRow r { row with pend := row.pend - 1 } := by
  simp [Team.pendDown, hrow, href]

@[simp] theorem setRow_get (T : Team) (r : Nat) (x : Row) : (T.setRow r x).res.rows.get? r = some x := by
  simp [Team.setRow]

theorem pendUp_get (hrow : T.res.rows.get? r = some row) :
    (T.pendUp r).res.rows.get? r = some { row with pend := row.pend + 1 } := by
  simp [Team.pendUp, hrow]

theorem writeRow_get (hrow : T.res.rows.get? r = some row) (vals : List Word) (m : LaneMask) :
    (T.writeRow r vals m).res.rows.get? r = some { row with lanes := mergeLanes row.lanes vals m } := by
  simp [Team.writeRow, hrow]

/-- A result without flags that lands in a row: the lanes of its mask are written, and one result fewer is in flight. -/
theorem landNow_row {l : Late} (hT : s.teams.get? t = some T) (htarget : l.target = .row r) (hflags : l.flags = 0)
    (hrow : T.res.rows.get? r = some row) (href : row.refcnt ≠ 0) :
    landNow s t g l = s.setTeam t ((T.writeRow r l.vals l.lanes).setRow r
      { row with lanes := mergeLanes row.lanes l.vals l.lanes, pend := row.pend - 1 }) := by
  simp only [landNow, landLanes, htarget, orFlags, hflags, if_true]
  rw [updTeam_of hT, updTeam_of (setTeam_get _ _ _), setTeam_setTeam, pendDown_of (writeRow_get hrow _ _) href]

/-- The row that such a result leaves, and the groups of its team. -/
theorem landNow_row_get {l : Late} (hT : s.teams.get? t = some T) (htarget : l.target = .row r) (hflags : l.flags = 0)
    (hrow : T.res.rows.get? r = some { row with pend := row.pend + 1 }) (href : row.refcnt ≠ 0) :
    ∃ V, (landNow s t g l).teams.get? t = some V ∧ V.groups = T.groups ∧
      V.res.rows.get? r = some { row with lanes := mergeLanes row.lanes l.vals l.lanes } := by
  rw [landNow_row hT htarget hflags hrow href]
  exact ⟨_, setTeam_get _ _ _, rfl, setRow_get _ _ _⟩

end

/-- The result, without flags, of a word of the issuing path to a row. -/
def rowResult (e : Env) (lat r : Nat) (m : LaneMask) (vals : List Word) : Late :=
  { left := lat, path := e.p, target := .row r, lanes := m, vals, bits := 0, flags := 0, tagged := false }

section
variable {s : State} {e : Env} {lat n : Nat} {m : LaneMask} {vals : List Word} {T : Team} {G : Group} {x : Mapped}
  (hT : s.teams.get? e.t = some T) (hx : T.mapped e.g n = some x)
include hT hx

/-- A result of latency 1 to a mapped name lands at once, counted in flight for that moment. -/
theorem writeName_at_once (hlat : lat ≤ 1) :
    writeName s e lat n m vals 0 = landNow (s.setTeam e.t (T.pendUp x.row)) e.t e.g (rowResult e lat x.row m vals) := by
  simp [writeName, result, hT, hx, hlat, updTeam_of hT, rowResult]

/-- A longer one is counted in flight and goes to the end of the group's late results. -/
theorem writeName_in_flight (hG : T.groups.get? e.g = some G) (hlat : 1 < lat) :
    writeName s e lat n m vals 0 = s.setTeam e.t
      ((T.pendUp x.row).setGroup e.g { G with late := G.late ++ [rowResult e lat x.row m vals] }) := by
  have hpend : (T.pendUp x.row).groups.get? e.g = some G := hG
  simp [writeName, result, hT, hx, Nat.not_le.mpr hlat, updTeam_of hT, updGroup_of (setTeam_get _ _ _) hpend, rowResult]

end

/-- Settles O18: the result is counted in flight, and lands at once or goes to the end of the group's late results. -/
theorem vectorResultTiming : Obligations.VectorResultTiming := by
  intro s e lat n m vals T G x row hT hG hx hrow href merged u
  have hpend := pendUp_get hrow
  rcases Nat.lt_or_ge 1 lat with hlat | hlat
  · have hu : u = _ := writeName_in_flight hT hx hG hlat
    have hU : u.teams.get? e.t = some _ := hu ▸ setTeam_get _ _ _
    obtain ⟨V, hV, -, hland⟩ := landNow_row_get (g := e.g) (l := rowResult e lat x.row m vals) hU rfl rfl hpend href
    exact ⟨_, _, hU, setGroup_get _ _ _, fun hshort => absurd hlat (Nat.not_lt.mpr hshort),
      fun _ => ⟨hpend, _, rfl, rfl, rfl, rfl, V, hV, hland⟩⟩
  · have hu : u = _ := writeName_at_once hT hx hlat
    obtain ⟨V, hV, hgroups, hland⟩ := landNow_row_get (s := s.setTeam e.t (T.pendUp x.row)) (g := e.g)
      (l := rowResult e lat x.row m vals) (setTeam_get _ _ _) rfl rfl hpend href
    exact ⟨V, G, hu ▸ hV, hgroups ▸ hG, fun _ => ⟨hland, rfl⟩, fun hlong => absurd hlong (Nat.not_lt.mpr hlat)⟩

/-! ## Where a vector word stops (R64, R151, R238) -/

/-- The word runs as a vector word with the marker, the latency, the names and the flags of `v`. -/
def RunsAs (s : State) (e : Env) (i : Instr) (v : VecSpec) : Prop :=
  ∃ f : (Nat → List Word) → VRes, exec i s = finish v.w e s (vector s e v.lat v.srcs v.dsts f) ∧
    (f fun n => e.team.lanes e.g n).flags = v.flags

section
variable {s : State} {e : Env} {i : Instr} {v : VecSpec}

theorem RunsAs.of_runV (h : GroupAt s e 0) {f : Env → (Nat → List Word) → VRes} (hexec : exec i s = runV v.w s v.lat v.srcs v.dsts f)
    (hflags : (f e fun n => e.team.lanes e.g n).flags = v.flags) : RunsAs s e i v :=
  ⟨f e, hexec.trans (runG_at h v.w _ (by decide) rfl), hflags⟩

/-- Every special register of R233 but the lane number has one value for the group. -/
theorem specialReg_of {n : Nat} (h1 : 1 ≤ n) (h2 : n ≤ 10) : specialReg e n = some (specialOf e n) := by
  interval_cases n <;> rfl

theorem exec_rdsrVector_at (h : GroupAt s e 0) (w : Bool) (d : BitVec 7) (a : BitVec 6) (ha : a.toNat ≤ 10) :
    exec (.rdsrVector w d a) s = finish w e s (vector s e .one [] [d.toNat] fun _ =>
      { vals := [lanesFrom fun l => if a = 0 then BitVec.ofNat 32 l else specialOf e a.toNat], mask := e.path.mask }) := by
  rw [exec_rdsrVector, execRdsrVector, runG_at h w _ (by decide) rfl]
  by_cases h0 : a = 0
  · subst h0; rfl
  · have hpos : a.toNat ≠ 0 := fun hz => h0 (BitVec.eq_of_toNat_eq hz)
    simp only [if_neg h0, specialReg_of (Nat.one_le_iff_ne_zero.mpr hpos) ha]

theorem runsAs_of_integerVec (h : GroupAt s e 0) (hcheck : i.check = none) (hv : integerVec e i = some v) : RunsAs s e i v := by
  unfold integerVec at hv
  split at hv
  case h_59 w d a => -- rdsr into a name
    cases hv
    exact ⟨_, exec_rdsrVector_at h w d a (by simpa [Instr.check] using hcheck), rfl⟩
  all_goals cases hv
  all_goals exact .of_runV h rfl rfl

/-- A conversion writes one name or a pair, as its destination code says, at the latency that both of its codes give (R271). -/
theorem runsAs_of_vcvt (h : GroupAt s e 0) {w n : Bool} {c t : BitVec 4} {d a : BitVec 7} {r : BitVec 2}
    (hv : floatVec s e (.vcvt w c d a t r n) = some v) : RunsAs s e (.vcvt w c d a t r n) v := by
  simp only [floatVec] at hv
  split at hv <;> cases hv
  case isTrue ht =>
    apply RunsAs.of_runV h
    · simp only [exec_vcvt, execVcvt, if_pos ht, Bool.or_eq_true, decide_eq_true_eq]
      rfl
    · rfl
  case isFalse ht =>
    apply RunsAs.of_runV h
    · simp only [exec_vcvt, execVcvt, if_neg ht, Bool.or_eq_true, decide_eq_true_eq]
      rfl
    · rfl

theorem runsAs_of_floatVec (h : GroupAt s e 0) (hv : floatVec s e i = some v) : RunsAs s e i v := by
  unfold floatVec at hv
  split at hv
  case h_17 => exact runsAs_of_vcvt h hv
  case h_22 => -- vtrit
    cases hv
    exact .of_runV h rfl (by simp [lanesWithFlags, bits, code32, laneAt, laneOf])
  all_goals cases hv
  all_goals exact .of_runV h rfl rfl

theorem runsAs_of_floatReduce (h : GroupAt s e 0) (hv : floatReduce e i = some v) : RunsAs s e i v := by
  unfold floatReduce at hv
  split at hv <;> cases hv
  all_goals exact .of_runV h rfl rfl

end

section
variable {s : State} {e : Env} {names : List Nat} {fresh : Bool}

/-- A word that finds no rows stands at its first try (R64). -/
theorem needRows_first (hhold : e.path.hold = none) : needRows s e names fresh = .hold s (.rows s.refclk names fresh) := by
  simp [needRows, stalledFor, hhold]

/-- It traps once it has stood for 4,096 ticks (R64). -/
theorem needRows_late {since : Nat} {ns : List Nat} {b : Bool} (hhold : e.path.hold = some (.rows since ns b))
    (hlate : since + 4096 ≤ s.refclk) : needRows s e names fresh = .trap 0x05 0 0 := by
  have hstalled : 4096 ≤ stalledFor s.refclk e.path.hold := by
    simp only [stalledFor, hhold]
    omega
  rw [needRows, if_pos hstalled]

end

section
variable {s : State} {e : Env} {lat : Latency} {srcs dsts : List Nat} {f : (Nat → List Word) → VRes}

theorem vector_unmapped (hsrcs : e.team.allMapped e.g srcs = false) : vector s e lat srcs dsts f = .trap 0x04 0 0 := by
  simp [vector, hsrcs, unmappedName]

theorem vector_no_rows (hsrcs : e.team.allMapped e.g srcs = true) (hdsts : e.team.canWrite e.g dsts = false) :
    vector s e lat srcs dsts f = needRows s e dsts false := by
  simp [vector, hsrcs, hdsts]

theorem vector_enabled_flag (hsrcs : e.team.allMapped e.g srcs = true) (hdsts : e.team.canWrite e.g dsts = true) {flags : Nat}
    (hflags : (f fun n => e.team.lanes e.g n).flags = flags) (htrap : flags &&& (s.ctx e.team.id.ctx).trapen.toNat &&& 0x3F ≠ 0) :
    vector s e lat srcs dsts f = .trapWith (orFlags s e.t e.g (BitVec.ofNat 32 flags)) 0x0C 0 0 := by
  subst hflags
  simp [vector, hsrcs, hdsts, trapen, htrap]

end

/-- Settles O17: each word runs as a vector word with the names and flags of its table, and such a word stops in its first three tests. -/
theorem vectorWordStops : Obligations.VectorWordStops := by
  intro s e i v h hcheck hv
  obtain ⟨f, hexec, hflags⟩ : RunsAs s e i v :=
    hv.elim (runsAs_of_integerVec h hcheck) fun hv => hv.elim (runsAs_of_floatVec h) (runsAs_of_floatReduce h)
  rw [hexec]
  refine ⟨fun hsrcs => ?_, fun hsrcs hdsts => ?_, fun hsrcs hdsts htrap => ?_⟩
  · rw [vector_unmapped hsrcs]; rfl
  · rw [vector_no_rows hsrcs hdsts]
    refine ⟨fun hhold => ?_, fun since ns fresh hhold hlate => ?_⟩
    · rw [needRows_first hhold]; simp [finish, markStands, Hold.begun]
    · rw [needRows_late hhold hlate]; rfl
  · rw [vector_enabled_flag hsrcs hdsts hflags htrap]; rfl

end Sys2Proof.Machine
end

section
/-! The map words (O21; R62, R70, R240 to R246): first what the steps of an edit leave mapped, then the edits, then the words. -/

namespace Sys2Proof.Machine

/-! ## What a name maps -/

/-- What a name maps is in the groups alone. -/
theorem mapped_congr {T U : Team} (h : T.groups = U.groups) (g n : Nat) : T.mapped g n = U.mapped g n := by
  simp only [Team.mapped, h]

section
variable (T : Team) (g : Nat)

@[simp] theorem setName_has (k n : Nat) (m : Option Mapped) : (T.setName k n m).groups.has g = T.groups.has g := by
  simp only [Team.setName, Tbl.has, Tbl.get?_upd]
  split
  · simp [*]
  · rfl

/-- A name's entry replaced: that name maps the new entry, every other name of the group what it mapped. -/
theorem mapped_setName {T : Team} {g : Nat} (hg : T.groups.has g = true) (k : Nat) (m : Option Mapped) (n : Nat) :
    (T.setName g k m).mapped g n = if n = k then m else T.mapped g n := by
  obtain ⟨G, hG⟩ := Option.isSome_iff_exists.mp hg
  cases m <;> simp [Team.mapped, Team.setName, hG, Tbl.get?_put, Tbl.get?_del]

@[simp] theorem settleRow_groups (r : Nat) (row : Row) : (T.settleRow r row).groups = T.groups := by
  fun_cases Team.settleRow T r row <;> rfl

@[simp] theorem release_groups (r : Nat) : (T.release r).groups = T.groups := by
  unfold Team.release
  split
  · rfl
  · exact settleRow_groups ..

theorem settleRow_seqCtr (r : Nat) (row : Row) : (T.settleRow r row).res.seqCtr = T.res.seqCtr := by
  fun_cases Team.settleRow T r row <;> rfl

@[simp] theorem release_seqCtr (r : Nat) : (T.release r).res.seqCtr = T.res.seqCtr := by
  unfold Team.release
  split
  · rfl
  · exact settleRow_seqCtr ..

@[simp] theorem addRef_groups (r : Nat) : (T.addRef r).groups = T.groups := rfl
@[simp] theorem anchor_groups (r : Nat) (a : Anchor) (c : Nat) : (T.anchor r a c).groups = T.groups := rfl
@[simp] theorem anchor_slots (r : Nat) (a : Anchor) (c : Nat) : (T.anchor r a c).res.slots = T.res.slots := rfl

/-- The names from `d` on, `k` of them, each brought onto a mapping of its own. -/
def setNames (T : Team) (g d : Nat) (f : Nat → Option Mapped) (k : Nat) : Team :=
  (List.range k).foldl (fun t i => t.setName g (d + i) (f i)) T

theorem setNames_succ (d : Nat) (f : Nat → Option Mapped) (k : Nat) :
    setNames T g d f (k + 1) = (setNames T g d f k).setName g (d + k) (f k) := by
  simp [setNames, List.range_succ]

@[simp] theorem setNames_has (d : Nat) (f : Nat → Option Mapped) (k : Nat) : (setNames T g d f k).groups.has g = T.groups.has g := by
  induction k with
  | zero => rfl
  | succ k ih => rw [setNames_succ, setName_has, ih]

/-- A fresh row is 96 zeros with one name (R64). -/
def freshRow (T : Team) (g : Nat) : Row := { lanes := zeroLanes, refcnt := 1, anchor := .group g, charge := T.roleOf g, pend := 0 }

theorem mapFresh_row (n : Nat) : (T.mapFresh g n).res.rows.get? T.res.nextRow = some (freshRow T g) := Tbl.get?_put_same ..

/-! ## The edits (R242 to R245) -/

@[simp] theorem unmap_has (n : Nat) : (T.unmap g n).groups.has g = T.groups.has g := by
  unfold Team.unmap
  split
  · rfl
  · simp

@[simp] theorem unmap_seqCtr (n : Nat) : (T.unmap g n).res.seqCtr = T.res.seqCtr := by
  unfold Team.unmap
  split
  · rfl
  · simp

/-- A give unmaps its name and puts the row in the slot, whatever becomes of the row's anchor. -/
theorem give_of {T : Team} {g a : Nat} {m : Mapped} (ha : T.mapped g a = some m) (i : Nat) :
    (T.give g a i).groups = (T.setName g a none).groups ∧ (T.give g a i).res.slots = T.res.slots.put i m.row := by
  simp only [Team.give, ha]
  split
  · exact ⟨rfl, rfl⟩
  · split <;> exact ⟨rfl, rfl⟩

/-- A take maps its name to the slot's row and empties the slot, whatever becomes of the row's anchor. -/
theorem takeSlot_of (d i r : Nat) : (T.takeSlot g d i r).groups = ((T.unmap g d).mapTo g d r).groups ∧
    (T.takeSlot g d i r).res.slots = ((T.unmap g d).mapTo g d r).res.slots.del i := by
  simp only [Team.takeSlot]
  split
  · exact ⟨rfl, rfl⟩
  · split <;> exact ⟨rfl, rfl⟩

end

section
variable {T : Team} {g : Nat} (hg : T.groups.has g = true)
include hg

theorem mapped_unmap (a n : Nat) : (T.unmap g a).mapped g n = if n = a then none else T.mapped g n := by
  unfold Team.unmap
  split
  case h_1 hnone => split <;> simp [*]
  case h_2 => rw [mapped_congr (release_groups _ _), mapped_setName hg]

/-- A new mapping takes the next sequence number (R60). -/
theorem mapped_mapTo (d r n : Nat) :
    (T.mapTo g d r).mapped g n = if n = d then some ⟨r, T.res.seqCtr + 1⟩ else T.mapped g n :=
  mapped_setName (T := T.nextSeq.2) hg d _ n

theorem mapped_move {d a : Nat} (hda : d ≠ a) (ha : (T.mapped g a).isSome = true) (n : Nat) :
    (T.move g d a).mapped g n = if n = d then T.mapped g a else if n = a then none else T.mapped g n := by
  obtain ⟨m, hm⟩ := Option.isSome_iff_exists.mp ha
  simp only [Team.move, if_neg hda, hm]
  rw [mapped_setName (by simpa using hg), mapped_setName (by simpa using hg), mapped_unmap hg]
  by_cases hn : n = d <;> simp [hn]

theorem mapped_swap (d a n : Nat) :
    (T.swap g d a).mapped g n = if n = a then T.mapped g d else if n = d then T.mapped g a else T.mapped g n := by
  rw [Team.swap, mapped_setName (by simpa using hg), mapped_setName hg]

theorem mapped_setNames (d : Nat) (f : Nat → Option Mapped) (k n : Nat) :
    (setNames T g d f k).mapped g n = if d ≤ n ∧ n < d + k then f (n - d) else T.mapped g n := by
  induction k with
  | zero =>
    have hempty : ¬(d ≤ n ∧ n < d + 0) := by omega
    rw [if_neg hempty]
    rfl
  | succ k ih =>
    rw [setNames_succ, mapped_setName (by simpa using hg), ih]
    by_cases hn : n = d + k
    · simp [hn]
    · have hrange : (d ≤ n ∧ n < d + (k + 1)) ↔ (d ≤ n ∧ n < d + k) := by omega
      simp only [if_neg hn, hrange]

theorem mapped_permute {d a : Nat} (hda : d ≤ a) (k n : Nat) : (T.permute g d a k).mapped g n =
    if d ≤ n ∧ n ≤ a then T.mapped g (d + (n - d + k) % (a + 1 - d)) else T.mapped g n := by
  have hfold : T.permute g d a k = setNames T g d (fun i => T.mapped g (d + (i + k) % (a + 1 - d))) (a + 1 - d) := rfl
  rw [hfold, mapped_setNames hg]
  have hrange : (d ≤ n ∧ n < d + (a + 1 - d)) ↔ (d ≤ n ∧ n ≤ a) := by omega
  simp only [hrange]

theorem mapped_share {d a : Nat} {m : Mapped} (hda : d ≠ a) (ha : T.mapped g a = some m) (n : Nat) :
    (T.share g d a).mapped g n = if n = d then some ⟨m.row, T.res.seqCtr + 1⟩ else T.mapped g n := by
  simp only [Team.share, if_neg hda, ha]
  rw [mapped_congr (addRef_groups _ _), mapped_mapTo (by simpa using hg), mapped_unmap hg, unmap_seqCtr]
  split <;> rfl

theorem mapped_mapFresh (d n : Nat) :
    (T.mapFresh g d).mapped g n = if n = d then some ⟨T.res.nextRow, T.res.seqCtr + 1⟩ else T.mapped g n :=
  mapped_setName (T := { T.nextSeq.2 with res := { T.nextSeq.2.res with
    rows := T.res.rows.put T.res.nextRow (freshRow T g), nextRow := T.res.nextRow + 1 } }) hg d _ n

theorem mapped_give {a : Nat} {m : Mapped} (ha : T.mapped g a = some m) (i n : Nat) :
    (T.give g a i).mapped g n = (if n = a then none else T.mapped g n) ∧ (T.give g a i).res.slots.get? i = some m.row := by
  obtain ⟨hgroups, hslots⟩ := give_of ha i
  rw [mapped_congr hgroups, mapped_setName hg, hslots, Tbl.get?_put_same]
  exact ⟨rfl, rfl⟩

theorem mapped_takeSlot (d i r n : Nat) :
    (T.takeSlot g d i r).mapped g n = (if n = d then some ⟨r, T.res.seqCtr + 1⟩ else T.mapped g n) ∧
      (T.takeSlot g d i r).res.slots.get? i = none := by
  obtain ⟨hgroups, hslots⟩ := takeSlot_of T g d i r
  rw [mapped_congr hgroups, mapped_mapTo (by simpa using hg), mapped_unmap hg, unmap_seqCtr, hslots, Tbl.get?_del_same]
  refine ⟨?_, rfl⟩
  split <;> rfl

end

theorem mapEditNames : mapEditNamesRule := by
  intro T g G hG
  have hg : T.groups.has g = true := Option.isSome_iff_exists.mpr ⟨G, hG⟩
  exact ⟨fun d a n hda ha => mapped_move hg hda ha n, fun a => by simp [Team.move, Team.share], mapped_swap hg,
    fun d a k n hda => mapped_permute hg hda k n, fun d a n m hda ha => mapped_share hg hda ha n, mapped_unmap hg,
    mapped_mapFresh hg, fun d => ⟨_, mapFresh_row T g d, rfl, rfl⟩, fun a i n m ha => mapped_give hg ha i n, mapped_takeSlot hg⟩

/-! ## The words -/

section
variable {s : State} {e : Env} (h : GroupAt s e 0)
include h

/-- A map word runs its edit where the names that it needs are mapped. -/
theorem runM_at (w : Bool) {need : List Nat} (f : Env → Res) (hneed : e.team.allMapped e.g need = true) :
    runM w s need f = finish w e s (f e) := by
  rw [runM, runG_at h w _ (by decide) rfl, if_pos hneed]

theorem exec_nperm_at (w : Bool) (d a k : BitVec 7) (hrange : ∀ n, d.toNat ≤ n → n ≤ a.toNat → (e.team.mapped e.g n).isSome = true) :
    exec (.nperm w d a k) s = .next (retire w e (updTeam s e.t fun t => t.permute e.g d.toNat a.toNat k.toNat)) := by
  refine runM_at h w _ (List.all_eq_true.mpr fun n hn => ?_)
  obtain ⟨i, hi, rfl⟩ := List.mem_map.mp hn
  have hi := List.mem_range.mp hi
  exact hrange _ (by omega) (by omega)

theorem exec_nfresh_at (w : Bool) (d : BitVec 7) (hroom : (e.team.unmap e.g d.toNat).roomFor (e.team.roleOf e.g) 1 = true) :
    exec (.nfresh w d) s =
      .next (retire w e (updTeam s e.t fun t => (t.unmap e.g d.toNat).mapFresh e.g d.toNat)) := by
  have hrow : e.team.canRefresh e.g d.toNat = true := hroom
  rw [exec_nfresh, execNfresh, runM_at h w _ rfl, if_pos hrow]
  rfl

end

theorem mapWordResults : mapWordResultsRule := by
  intro s e h edit
  refine ⟨fun w d a hmapped => ⟨runM_at h w _ hmapped, runM_at h w _ hmapped⟩, fun w d a hmapped => runM_at h w _ hmapped,
    exec_nperm_at h, fun w a => runM_at h w _ rfl, exec_nfresh_at h, fun w x a l _ hmapped => ?_, fun w d x l _ => ?_⟩
  · rw [exec_ngive, execNgive, runM_at h w _ hmapped]
    split <;> rfl
  · rw [exec_ntake, execNtake, runM_at h w _ rfl]
    cases e.team.res.slots.get? l.toNat <;> rfl

/-- Settles O21: each word runs its edit where its names are mapped, and each edit replaces entries of the map one after another. -/
theorem mapWords : Obligations.MapWords := ⟨mapWordResults, mapEditNames⟩

end Sys2Proof.Machine
end

section
/-! The words of a class-2 agent, a group or the Sluice's sequencer (O27, O30; R94 to R101, R296, R302 to R304). -/

namespace Sys2Proof.Machine

/-! ## A word of the agent -/

/-- How a word of the agent ends. -/
def agentEnd (w : Bool) (s : State) (r : Res) : Out :=
  match issuer s with
  | .group e => finish w e s r
  | .seq q => finishSeq q s r
  | .nobody => .fault .noAgent

/-- The agent is a group at a word of class 2, or the Sluice's sequencer at one of class 5. -/
theorem agentAt_cases {s : State} {a : Agt} (h : agentAt s = some a) :
    (∃ e, GroupAt s e 2 ∧ a = e.agt) ∨ ∃ q, SeqAt s q 5 ∧ q.flume = false ∧ a = q.agt := by
  unfold agentAt at h
  split at h
  · next e he =>
    split at h
    · next hc => exact .inl ⟨e, ⟨he, hc⟩, (Option.some.inj h).symm⟩
    · cases h
  · next q hq =>
    split at h
    · next hc => exact .inr ⟨q, ⟨hq, hc.2⟩, hc.1, (Option.some.inj h).symm⟩
    · cases h
  · cases h

/-- The agent of a group that stands at a word of class 2. -/
theorem agentAt_group {s : State} {e : Env} (h : GroupAt s e 2) : agentAt s = some e.agt := by
  unfold agentAt
  rw [h.1]
  exact if_pos h.2

section
variable {s : State} {a : Agt} (h : agentAt s = some a)
include h

/-- The agent's team is the one that the state lists. -/
theorem agent_team : s.teams.get? a.t = some a.team := by
  obtain ⟨e, he, rfl⟩ | ⟨q, hq, -, rfl⟩ := agentAt_cases h
  · exact (issuer_group he.1).1
  · exact (issuer_seq hq.1).1

/-- Where a group issues, the agent is that group. -/
theorem agent_of_group {e : Env} (he : issuer s = .group e) : a = e.agt := by
  obtain ⟨e', he', rfl⟩ | ⟨q, hq, -⟩ := agentAt_cases h
  · cases he'.1.symm.trans he
    rfl
  · cases hq.1.symm.trans he

/-- A word whose blocks end within the agent's registers and whose scalars it has runs its meaning (R296). -/
theorem runA_at (w : Bool) {blocks : List (Nat × Nat)} {singles : List Nat} (f : Agt → Res)
    (hb : ∀ b ∈ blocks, b.1 + b.2 - 1 ≤ a.top) (hs : ∀ r ∈ singles, agentHas a r) :
    runA w s blocks singles f = agentEnd w s (f a) := by
  have hblocks : (blocks.any fun b => decide (a.top < b.1 + b.2 - 1)) = false := by
    simpa using hb
  obtain ⟨e, he, rfl⟩ | ⟨q, hq, hflume, rfl⟩ := agentAt_cases h
  · unfold runA agentEnd
    rw [runX_group he.1 he.2 (by decide) rfl, he.1]
    simp only [hblocks, Bool.false_eq_true, if_false]
  · have hsingles : (singles.any fun r => decide (31 < r)) = false := by
      simpa [agentHas, SeqEnv.agt] using hs
    unfold runA agentEnd
    rw [runX_seq hq.1 hq.2 (by decide) (by simp [Place.seq, hflume]), hq.1]
    simp only [hblocks, hsingles, Bool.or_false, Bool.false_eq_true, if_false]

theorem agentEnd_done (w : Bool) (u : State) : agentEnd w s (.done u) = .next (agentNext w s u) := by
  obtain ⟨e, he, -⟩ | ⟨q, hq, -⟩ := agentAt_cases h
  · simp only [agentEnd, agentNext, he.1]; rfl
  · simp only [agentEnd, agentNext, hq.1]; rfl

theorem agentEnd_keep (w : Bool) (u : State) (args : List Nat) :
    agentEnd w s (.keep u args) = .next (agentAsks w s u (.waits args)) := by
  obtain ⟨e, he, -⟩ | ⟨q, hq, -⟩ := agentAt_cases h
  · simp only [agentEnd, agentAsks, he.1]; rfl
  · simp only [agentEnd, agentAsks, hq.1]; rfl

end

theorem agentEnd_group {s : State} {e : Env} (h : issuer s = .group e) (w : Bool) (r : Res) : agentEnd w s r = finish w e s r := by
  unfold agentEnd; rw [h]

/-! ## Batches (R94, R95, R302) -/

section
variable {s : State} {a : Agt} (h : agentAt s = some a) (w : Bool)
include h

theorem exec_cbat_at (wr : Bool) (d : BitVec 6) (hd : agentHas a d.toNat) (hroom : batchesAfter s a.t a.group < 256) :
    let n := (a.lastBatch + 1) % 65536
    let u := a.setLast { s with copies := s.copies.mapVals fun _ c => if c.openOf a.t a.group then { c with batch := some n } else c } n
    exec (.cbat w wr d) s = .next (agentNext w s (if wr then a.setS u d.toNat (BitVec.ofNat 32 n) else u)) := by
  intro n u
  rw [exec_cbat, execCbat, runA_at h w _ (by simp) (by simpa using hd), if_neg (Nat.not_le.mpr hroom), agentEnd_done h]

/-- A word that waits for batches goes on where they are done, and stands with what it has read otherwise. -/
theorem agentEnd_batches (n : Nat) (args : List Nat) :
    (batchesDone s a.t a.group n = true →
      agentEnd w s (if batchesDone s a.t a.group n then .done s else .keep s args) = .next (agentNext w s s)) ∧
    (batchesDone s a.t a.group n = false →
      agentEnd w s (if batchesDone s a.t a.group n then .done s else .keep s args) = .next (agentAsks w s s (.waits args))) := by
  refine ⟨fun hn => ?_, fun hn => ?_⟩
  · rw [if_pos hn, agentEnd_done h]
  · rw [if_neg (by simp [hn]), agentEnd_keep h]

theorem exec_cwait_at (n : BitVec 16) : exec (.cwait w n) s =
    agentEnd w s (if batchesDone s a.t a.group n.toNat then .done s else .keep s []) := by
  rw [exec_cwait, execCwait, runA_at h w _ (by simp) (by simp)]

theorem exec_cwaitR_at (r : BitVec 6) (hr : agentHas a r.toNat) (hhold : a.hold = none) :
    let n := (a.rd r.toNat).toNat % 65536
    exec (.cwaitR w r) s = agentEnd w s (if batchesDone s a.t a.group n then .done s else .keep s [n]) := by
  rw [exec_cwaitR, execCwaitR, runA_at h w _ (by simp) (by simpa using hr), hhold]
  rfl

end

/-- Settles O27: the agent runs the word's meaning, and whether its batches are done chooses between its end and its standing. -/
theorem batchResults : Obligations.BatchResults := by
  intro s a w h
  refine ⟨exec_cbat_at h w, fun n => ?_, fun r hr hhold => ?_⟩
  · rw [exec_cwait_at h w n]
    exact agentEnd_batches h w n.toNat []
  · rw [exec_cwaitR_at h w r hr hhold]
    exact agentEnd_batches h w _ _

end Sys2Proof.Machine
end

section
/-! Scratchpads as memories: barriers and ring slots (R96 to R101). A barrier or a slot word of a team's scratchpad is a word of one memory;
what it reads and leaves is said of that memory, and a change of it is one `setTeam`. -/

namespace Sys2Proof.Machine

/-! ## One change of a scratchpad -/

/-- A team with another scratchpad. -/
def Team.withScr (T : Team) (m : Memory) : Team := { T with res := { T.res with scr := m } }

@[simp] theorem Team.withScr_scr (T : Team) (m : Memory) : (T.withScr m).res.scr = m := rfl
@[simp] theorem Team.withScr_groups (T : Team) (m : Memory) : (T.withScr m).groups = T.groups := rfl
@[simp] theorem Team.withScr_id (T : Team) (m : Memory) : (T.withScr m).id = T.id := rfl
@[simp] theorem Team.withScr_stat (T : Team) (m : Memory) : (T.withScr m).stat = T.stat := rfl
@[simp] theorem Team.withScr_scrGen (T : Team) (m : Memory) : (T.withScr m).res.scrGen = T.res.scrGen := rfl
@[simp] theorem Team.withScr_withScr (T : Team) (m n : Memory) : (T.withScr m).withScr n = T.withScr n := rfl

section
variable {s : State} {t : Nat} {T : Team} (h : s.teams.get? t = some T)
include h

theorem scrRead_of (off n : Nat) : scrRead s t off n = T.res.scr.load off n := by
  unfold scrRead; rw [h]; rfl

theorem scrWrite_of (off n v : Nat) : scrWrite s t off n v = s.setTeam t (T.withScr (T.res.scr.store off n v)) := updTeam_of h _

end

/-! ## Numbers in memory -/

theorem Memory.load_congr {m m' : Memory} {a n : Nat} (h : ∀ b, a ≤ b → b < a + n → m.get b = m'.get b) : m.load a n = m'.load a n := by
  unfold Memory.load Memory.read
  congr 1
  exact List.map_congr_left fun i hi => h _ (Nat.le_add_right a i) (Nat.add_lt_add_left (List.mem_range.1 hi) a)

theorem Memory.load_store_other (m : Memory) {a n b k : Nat} (v : Nat) (h : b + k ≤ a ∨ a + n ≤ b) :
    (m.store a n v).load b k = m.load b k :=
  Memory.load_congr fun c hc hlt => Memory.get_store_other m a n v c (by omega)

theorem Memory.load_one (m : Memory) (a : Nat) : m.load a 1 = (m.get a).toNat := by
  simp [Memory.load, Memory.read, ofBytes]

/-! ## Barriers (R96, R97) -/

/-- The fields of a barrier are the bits of its word. -/
theorem TBar.bits_word {t : TBar} (h : t.ok) : bits t.word 3 0 = t.phase ∧ bits t.word 15 4 = t.pa ∧ bits t.word 27 16 = t.arr ∧
    bits t.word 51 28 = t.ps ∧ bits t.word 75 52 = t.sec ∧ bits t.word 76 76 = t.ovr := by
  obtain ⟨hphase, hpa, harr, hps, hsec, hovr⟩ := h
  unfold TBar.word bits
  refine ⟨?_, ?_, ?_, ?_, ?_, ?_⟩ <;> omega

/-- The model's update of a barrier's word is R97's update of its fields. -/
theorem tbUpdate_word {t : TBar} (h : t.ok) (k n : Nat) : tbUpdate t.word k n = ((t.after k n).1.word, (t.after k n).2) := by
  obtain ⟨bphase, bpa, barr, bps, bsec, bovr⟩ := TBar.bits_word h
  obtain ⟨hphase, hpa, harr, hps, hsec, hovr⟩ := h
  unfold tbUpdate TBar.after
  simp only [bphase, bpa, barr, bps, bsec, bit, bovr]
  by_cases hover : t.pa < k ∨ t.ps < n
  · rw [if_pos (by simpa using hover), if_pos hover]
    refine Prod.ext ?_ rfl
    unfold TBar.word
    split
    · next h1 => simp only [beq_iff_eq] at h1; rw [h1]
    · next h0 => simp only [beq_iff_eq] at h0; dsimp only; omega
  · rw [if_neg (by simpa using hover), if_neg hover]
    by_cases hlast : t.pa = k ∧ t.ps = n
    · rw [if_pos (by simp; omega), if_pos hlast]
      refine Prod.ext ?_ rfl
      unfold TBar.word
      dsimp only
      omega
    · rw [if_neg (by simp; omega), if_neg hlast]
      refine Prod.ext ?_ rfl
      unfold TBar.word
      dsimp only
      omega

/-- A barrier of a scratchpad after an update, and whether it overran. -/
theorem tbApply_word {s : State} {t off : Nat} {b : TBar} (hb : b.ok) (hread : scrRead s t off 16 = b.word) (k n : Nat) :
    tbApply s t off k n = (scrWrite s t off 16 (b.after k n).1.word, (b.after k n).2) := by
  unfold tbApply; rw [hread, tbUpdate_word hb]

/-! ## Ring slots (R100, R101) -/

/-- The tag of slot i of a ring at h, its counter, and the memory with either replaced. -/
def Memory.slotTag (m : Memory) (h i : Nat) : Nat := bits (m.load (h + i / 4) 1) (2 * (i % 4) + 1) (2 * (i % 4))
def Memory.setSlotTag (m : Memory) (h i v : Nat) : Memory :=
  m.store (h + i / 4) 1 (m.load (h + i / 4) 1 - m.slotTag h i * 2 ^ (2 * (i % 4)) + v * 2 ^ (2 * (i % 4)))
def Memory.slotCounter (m : Memory) (h i : Nat) : Nat := m.load (h + 16 + 4 * i) 4
def Memory.setSlotCounter (m : Memory) (h i v : Nat) : Memory := m.store (h + 16 + 4 * i) 4 v

section
variable {s : State} {t : Nat} {T : Team} (hT : s.teams.get? t = some T) (h i : Nat)
include hT

theorem slotTag_of : slotTag s t h i = T.res.scr.slotTag h i := by
  unfold slotTag Memory.slotTag; rw [scrRead_of hT]

theorem slotCounter_of : slotCounter s t h i = T.res.scr.slotCounter h i := scrRead_of hT _ _

theorem setTag_of (v : Nat) : setTag s t h i v = s.setTeam t (T.withScr (T.res.scr.setSlotTag h i v)) := by
  unfold setTag
  rw [scrRead_of hT, scrWrite_of hT]
  rfl

theorem setCounter_of (v : Nat) : setCounter s t h i v = s.setTeam t (T.withScr (T.res.scr.setSlotCounter h i v)) := scrWrite_of hT _ _ _

end

namespace Memory

variable (m : Memory) (h i v : Nat)

theorem slotTag_lt : m.slotTag h i < 4 := by
  unfold slotTag bits
  refine (Nat.mod_lt _ (Nat.two_pow_pos _)).trans_eq ?_
  rw [show 2 * (i % 4) + 1 + 1 - 2 * (i % 4) = 2 by omega]

theorem slotTag_congr {m m' : Memory} {h i : Nat} (hb : m.get (h + i / 4) = m'.get (h + i / 4)) : m.slotTag h i = m'.slotTag h i := by
  unfold slotTag; rw [load_one, load_one, hb]

theorem slotCounter_congr {m m' : Memory} {h i : Nat} (hb : ∀ b, h + 16 + 4 * i ≤ b → b < h + 20 + 4 * i → m.get b = m'.get b) :
    m.slotCounter h i = m'.slotCounter h i :=
  load_congr fun b hlo hhi => hb b hlo (by omega)

theorem get_setSlotTag_other {b : Nat} (hb : b ≠ h + i / 4) : (m.setSlotTag h i v).get b = m.get b :=
  get_store_other _ _ _ _ _ (by omega)

theorem get_setSlotCounter_other {b : Nat} (hb : b < h + 16 + 4 * i ∨ h + 20 + 4 * i ≤ b) : (m.setSlotCounter h i v).get b = m.get b :=
  get_store_other _ _ _ _ _ (by omega)

/-- Field j of a byte of four 2-bit fields, of which field q is replaced. -/
theorem field_replaced {x q j v : Nat} (hx : x < 256) (hq : q < 4) (hj : j < 4) (hv : v < 4) :
    (x - x / 2 ^ (2 * q) % 4 * 2 ^ (2 * q) + v * 2 ^ (2 * q)) % 256 / 2 ^ (2 * j) % 4 = if j = q then v else x / 2 ^ (2 * j) % 4 := by
  interval_cases q <;> interval_cases j <;> norm_num <;> omega

theorem slotTag_eq : m.slotTag h i = (m.get (h + i / 4)).toNat / 2 ^ (2 * (i % 4)) % 4 := by
  unfold slotTag bits
  rw [load_one, show 2 * (i % 4) + 1 + 1 - 2 * (i % 4) = 2 by omega]
  rfl

/-- A slot's tag replaced: the others stay, those of its byte among them. -/
theorem slotTag_setSlotTag (j : Nat) (hv : v < 4) : (m.setSlotTag h i v).slotTag h j = if j = i then v else m.slotTag h j := by
  by_cases hbyte : j / 4 = i / 4
  · have hload : (m.setSlotTag h i v).load (h + i / 4) 1 = _ := load_store m (h + i / 4) 1 _
    rw [slotTag_eq, ← load_one, hbyte, hload, load_one, slotTag_eq]
    refine (field_replaced (m.get _).isLt (Nat.mod_lt _ (by decide)) (Nat.mod_lt _ (by decide)) hv).trans ?_
    by_cases hji : j = i
    · rw [if_pos (by omega), if_pos hji]
    · rw [if_neg (by omega), if_neg hji, slotTag_eq, hbyte]
  · rw [if_neg (by rintro rfl; exact hbyte rfl)]
    exact slotTag_congr (get_setSlotTag_other m h i v (by omega))

/-- A counter does not share a byte with the header's tags. -/
theorem slotTag_setSlotCounter (j : Nat) (hj : j < 64) : (m.setSlotCounter h i v).slotTag h j = m.slotTag h j :=
  slotTag_congr (get_setSlotCounter_other m h i v (by omega))

theorem slotCounter_setSlotTag (j : Nat) (hi : i < 64) : (m.setSlotTag h i v).slotCounter h j = m.slotCounter h j :=
  slotCounter_congr fun b hlo _ => get_setSlotTag_other m h i v (by omega)

theorem slotCounter_setSlotCounter (j : Nat) (hv : v < 2 ^ 32) :
    (m.setSlotCounter h i v).slotCounter h j = if j = i then v else m.slotCounter h j := by
  split
  · next hji => rw [hji]; exact (load_store _ _ _ _).trans (Nat.mod_eq_of_lt hv)
  · exact slotCounter_congr fun b hlo hhi => get_setSlotCounter_other m h i v (by omega)

/-! ### Slots emptied (R304) -/

/-- The slots of a list with their tags, and with their counters, at 0. -/
def emptyTags (l : List Nat) : Memory := l.foldl (fun m i => m.setSlotTag h i 0) m
def emptyCounters (l : List Nat) : Memory := l.foldl (fun m i => m.setSlotCounter h i 0) m

theorem slotTag_emptyTags (l : List Nat) (j : Nat) : (m.emptyTags h l).slotTag h j = if j ∈ l then 0 else m.slotTag h j := by
  induction l generalizing m with
  | nil => rfl
  | cons i l ih =>
    refine (ih (m.setSlotTag h i 0)).trans ?_
    rw [slotTag_setSlotTag m h i 0 j (by decide)]
    by_cases hl : j ∈ l <;> simp [hl]

theorem get_emptyTags {l : List Nat} {b : Nat} (hb : ∀ i ∈ l, b ≠ h + i / 4) : (m.emptyTags h l).get b = m.get b := by
  induction l generalizing m with
  | nil => rfl
  | cons i l ih =>
    rw [List.forall_mem_cons] at hb
    exact (ih (m.setSlotTag h i 0) hb.2).trans (get_setSlotTag_other m h i 0 hb.1)

theorem slotCounter_emptyCounters (l : List Nat) (j : Nat) :
    (m.emptyCounters h l).slotCounter h j = if j ∈ l then 0 else m.slotCounter h j := by
  induction l generalizing m with
  | nil => rfl
  | cons i l ih =>
    refine (ih (m.setSlotCounter h i 0)).trans ?_
    rw [slotCounter_setSlotCounter m h i 0 j (by decide)]
    by_cases hl : j ∈ l <;> simp [hl]

theorem get_emptyCounters {l : List Nat} {b : Nat} (hb : ∀ i ∈ l, b < h + 16 + 4 * i ∨ h + 20 + 4 * i ≤ b) :
    (m.emptyCounters h l).get b = m.get b := by
  induction l generalizing m with
  | nil => rfl
  | cons i l ih =>
    rw [List.forall_mem_cons] at hb
    exact (ih (m.setSlotCounter h i 0) hb.2).trans (get_setSlotCounter_other m h i 0 hb.1)

end Memory

/-- The tags of a list of slots emptied, one after another, and then their counters. -/
theorem foldl_setTag_of {s : State} {t : Nat} {T : Team} (h : Nat) (m : Memory) (l : List Nat) :
    l.foldl (fun s i => setTag s t h i 0) (s.setTeam t (T.withScr m)) = s.setTeam t (T.withScr (m.emptyTags h l)) := by
  induction l generalizing m with
  | nil => rfl
  | cons i l ih =>
    rw [List.foldl_cons, setTag_of (setTeam_get _ _ _), setTeam_setTeam]
    exact ih (m.setSlotTag h i 0)

theorem foldl_setCounter_of {s : State} {t : Nat} {T : Team} (h : Nat) (m : Memory) (l : List Nat) :
    l.foldl (fun s i => setCounter s t h i 0) (s.setTeam t (T.withScr m)) = s.setTeam t (T.withScr (m.emptyCounters h l)) := by
  induction l generalizing m with
  | nil => rfl
  | cons i l ih =>
    rw [List.foldl_cons, setCounter_of (setTeam_get _ _ _), setTeam_setTeam]
    exact ih (m.setSlotCounter h i 0)

end Sys2Proof.Machine
end

section
/-! The barrier and the slot words (O30; R96 to R101, R120, R303, R304). -/

namespace Sys2Proof.Machine

/-! ## Operands (R297) -/

theorem scrCheck_inScr {a : Agt} {off align size : Nat} (h : inScr a off align size) : scrCheck a.team off align size = none := by
  unfold scrCheck
  rw [if_neg (not_not_intro h.1), if_neg (Nat.not_lt.mpr h.2)]

theorem withBarrier_inScr {a : Agt} {off : Nat} (h : inScr a off 16 16) (f : Res) : withBarrier a off f = f := by
  unfold withBarrier; rw [scrCheck_inScr h]; rfl

theorem withRing_inScr {a : Agt} {off i : Nat} (h : inScr a off 16 (20 + 4 * i)) (f : Res) : withRing a off i f = f := by
  unfold withRing ringExtent; rw [show 16 + 4 * i + 4 = 20 + 4 * i by omega, scrCheck_inScr h]; rfl

theorem bits_from_zero (n hi : Nat) : bits n hi 0 = n % 2 ^ (hi + 1) := by simp [bits]

/-- An agent that has a register has those below it. -/
theorem agentHas_mono {a : Agt} {r k : Nat} (h : agentHas a r) (hk : k ≤ r) : agentHas a k := h.imp id hk.trans

/-! ## Barrier words (R303) -/

section
variable {s : State} {a : Agt} (h : agentAt s = some a) (w : Bool) {x : BitVec 6} (hx : agentHas a x.toNat)
  (hin : inScr a (a.rd x.toNat).toNat 16 16)
include h hx hin

theorem exec_tbinit_at (b : BitVec 6) (hb : agentHas a (b.toNat + 1)) (hwait : a.storeWaits s = false) :
    let arr := (a.rd b.toNat).toNat % 2 ^ 12
    let sec := (a.rd (b.toNat + 1)).toNat % 2 ^ 24
    exec (.tbinit w x b) s =
      .next (agentNext w s (scrWrite s a.t (a.rd x.toNat).toNat 16 (TBar.word ⟨0, arr, arr, sec, sec, 0⟩))) := by
  intro arr sec
  have hregs : ∀ r ∈ [x.toNat, b.toNat, b.toNat + 1], agentHas a r := by
    simpa using ⟨hx, agentHas_mono hb (Nat.le_succ _), hb⟩
  have hword : TBar.word ⟨0, arr, arr, sec, sec, 0⟩ = arr * 2 ^ 4 + arr * 2 ^ 16 + sec * 2 ^ 28 + sec * 2 ^ 52 := by simp [TBar.word]
  rw [exec_tbinit, execTbinit, runA_at h w _ (by simp) hregs, withBarrier_inScr hin, Agt.behindScratch, hwait, hword]
  exact (agentEnd_done h w _).trans (by rw [bits_from_zero, bits_from_zero])

omit hin in
theorem exec_tbarrive_at (k : BitVec 12) :
    exec (.tbarrive w x k) s = agentEnd w s (arrive s a (a.rd x.toNat).toNat k.toNat) := by
  rw [exec_tbarrive, execTbarrive, runA_at h w _ (by simp) (by simpa using hx)]

omit hin in
theorem exec_tbarriveR_at (b : BitVec 6) (hb : agentHas a b.toNat) : exec (.tbarriveR w x b) s =
    agentEnd w s (arrive s a (a.rd x.toNat).toNat ((a.rd b.toNat).toNat % 2 ^ 12)) := by
  rw [exec_tbarriveR, execTbarriveR, runA_at h w _ (by simp) (by simpa using ⟨hx, hb⟩), bits_from_zero]

theorem exec_tbwait_at (b : BitVec 6) (hb : agentHas a b.toNat) (hhold : a.hold = none) :
    let off := (a.rd x.toNat).toNat
    let k := (a.rd b.toNat).toNat % 16
    exec (.tbwait w x b) s = agentEnd w s (if bits (scrRead s a.t off 16) 3 0 ≠ k then .done s else .keep s [off, k]) := by
  intro off k
  rw [exec_tbwait, execTbwait, runA_at h w _ (by simp) (by simpa using ⟨hx, hb⟩), hhold]
  exact congrArg (agentEnd w s) (withBarrier_inScr hin _)

theorem exec_tbphase_at (d : BitVec 6) (hd : agentHas a d.toNat) :
    let v := scrRead s a.t (a.rd x.toNat).toNat 16
    exec (.tbphase w x d) s = .next (agentNext w s (a.setS s d.toNat (BitVec.ofNat 32 (bits v 3 0 + bits v 76 76 * 16)))) := by
  intro v
  rw [exec_tbphase, execTbphase, runA_at h w _ (by simp) (by simpa using ⟨hx, hd⟩), withBarrier_inScr hin, agentEnd_done h]

end

/-- An arrival that does not overrun: the barrier after it. -/
theorem arrive_of {s : State} {a : Agt} {off : Nat} (hin : inScr a off 16 16) {t : TBar} (ht : t.ok)
    (hread : scrRead s a.t off 16 = t.word) {k : Nat} (hwait : k ≠ 0 → a.signalWaits s = false) :
    arrive s a off k =
      if k = 0 then .done s
      else if (t.after k 0).2 then .trapWith (scrWrite s a.t off 16 (t.after k 0).1.word) 0x0E 0 0
      else .done (scrWrite s a.t off 16 (t.after k 0).1.word) := by
  unfold arrive
  rw [withBarrier_inScr hin]
  split
  · rfl
  · next hk => rw [Agt.signals, hwait hk, tbApply_word ht hread]; rfl

theorem barrierResults : barrierResultsRule := by
  intro s a w x h hx off hin
  refine ⟨exec_tbinit_at h w hx hin, fun t ht hread => ?_⟩
  obtain ⟨hphase, -, -, -, -, hovr⟩ := TBar.bits_word ht
  have arrives (k : Nat) (hwait : k ≠ 0 → a.signalWaits s = false) (hfits : (t.after k 0).2 = false) :
      agentEnd w s (arrive s a off k) =
        .next (agentNext w s (if k = 0 then s else scrWrite s a.t off 16 (t.after k 0).1.word)) := by
    rw [arrive_of hin ht hread hwait, hfits, if_neg Bool.false_ne_true, ← agentEnd_done h]
    split <;> rfl
  refine ⟨fun k hwait hfits => ?_, ?_, fun k e he hwait hover => ?_, ?_, fun d hd => ?_⟩
  · have hk : k = 0 ↔ k.toNat = 0 := BitVec.toNat_inj.symm
    rw [exec_tbarrive_at h w hx, arrives _ (fun h0 => hwait fun h' => h0 (hk.1 h')) hfits]
    simp only [hk]
  · intro b hb k hwait hfits
    rw [exec_tbarriveR_at h w hx b hb]
    exact arrives _ hwait hfits
  · have hk : k.toNat ≠ 0 := fun h0 => by simp [h0, TBar.after] at hover; split at hover <;> cases hover
    obtain rfl := agent_of_group h he
    rw [exec_tbarrive_at h w hx, arrive_of hin ht hread fun _ => hwait, if_neg hk, if_pos hover, agentEnd_group he]
    rfl
  · intro b hb hhold k
    rw [exec_tbwait_at h w hx hin b hb hhold, hread, hphase]
    refine ⟨fun hne => ?_, fun heq => ?_⟩
    · rw [if_pos hne, agentEnd_done h]
    · rw [if_neg (not_not_intro heq), agentEnd_keep h]
  · rw [exec_tbphase_at h w hx hin d hd, hread, hphase, hovr, Nat.mul_comm]

/-! ## Slot words (R304) -/

section
variable {s : State} {a : Agt} (h : agentAt s = some a) (w : Bool) {x i : BitVec 6} (hx : agentHas a x.toNat)
  (hin : inScr a (a.rd x.toNat).toNat 16 (20 + 4 * i.toNat))
include h hx hin

theorem exec_sltake_at (hhold : a.hold = none) :
    let off := (a.rd x.toNat).toNat
    exec (.sltake w x i) s =
      agentEnd w s (if slotTag s a.t off i.toNat = 2 then .done (setTag s a.t off i.toNat 3) else .keep s [off]) := by
  intro off
  rw [exec_sltake, execSltake, runA_at h w _ (by simp) (by simpa using hx), takeSlotWord, hhold]
  exact congrArg (agentEnd w s) (withRing_inScr hin _)

theorem exec_slrel_at (hwait : a.signalWaits s = false) :
    let off := (a.rd x.toNat).toNat
    exec (.slrel w x i) s =
      agentEnd w s (if slotTag s a.t off i.toNat = 3 then .done (setTag s a.t off i.toNat 0) else .trap 0x0F 0 0) := by
  intro off
  rw [exec_slrel, execSlrel, runA_at h w _ (by simp) (by simpa using hx), releaseSlotWord, Agt.signals, hwait]
  exact congrArg (agentEnd w s) (withRing_inScr hin _)

theorem exec_sltag_at (d : BitVec 6) (hd : agentHas a d.toNat) :
    let off := (a.rd x.toNat).toNat
    exec (.sltag w x d i) s = .next (agentNext w s (a.setS s d.toNat
      (BitVec.ofNat 32 (slotTag s a.t off i.toNat + 4 * (slotCounter s a.t off i.toNat % 2 ^ 30))))) := by
  intro off
  rw [exec_sltag, execSltag, runA_at h w _ (by simp) (by simpa using ⟨hx, hd⟩), withRing_inScr hin, agentEnd_done h]

/-- `slinit` leaves a scratchpad in which the slots 0 to i have been emptied. -/
theorem exec_slinit_at (hwait : a.storeWaits s = false) :
    let off := (a.rd x.toNat).toNat
    let slots := List.range (i.toNat + 1)
    exec (.slinit w x i) s = .next (agentNext w s
      (s.setTeam a.t (a.team.withScr ((a.team.res.scr.emptyTags off slots).emptyCounters off slots)))) := by
  intro off slots
  have htags : slots.foldl (fun s k => setTag s a.t off k 0) s =
      s.setTeam a.t (a.team.withScr (a.team.res.scr.emptyTags off slots)) := by
    simp only [slots, List.range_succ_eq_map, List.foldl_cons]
    rw [setTag_of (agent_team h), foldl_setTag_of]
    rfl
  rw [exec_slinit, execSlinit, runA_at h w _ (by simp) (by simpa using hx), withRing_inScr hin, Agt.behindScratch, hwait]
  exact (agentEnd_done h w _).trans (by rw [htags, foldl_setCounter_of])

end

/-- A scratchpad whose slots 0 to n have been emptied. -/
theorem emptied_slots (m : Memory) (h n : Nat) (hn : n < 64) :
    let slots := List.range (n + 1)
    let m' := (m.emptyTags h slots).emptyCounters h slots
    (∀ k, k ≤ n → m'.slotTag h k = 0 ∧ m'.slotCounter h k = 0) ∧ (∀ k, n < k → k < 64 → m'.slotTag h k = m.slotTag h k) ∧
      ∀ b, b < h ∨ h + 20 + 4 * n ≤ b → m'.get b = m.get b := by
  intro slots m'
  have hmem (k : Nat) : k ∈ slots ↔ k ≤ n := by simp [slots]
  have htag (k : Nat) (hk : k < 64) : m'.slotTag h k = if k ∈ slots then 0 else m.slotTag h k := by
    refine (Memory.slotTag_congr (Memory.get_emptyCounters _ _ fun j _ => ?_)).trans (Memory.slotTag_emptyTags m h slots k)
    omega
  refine ⟨fun k hk => ⟨?_, ?_⟩, fun k hk hk64 => ?_, fun b hb => ?_⟩
  · rw [htag k (by omega), if_pos ((hmem k).2 hk)]
  · rw [Memory.slotCounter_emptyCounters, if_pos ((hmem k).2 hk)]
  · rw [htag k hk64, if_neg fun hin => Nat.not_le.mpr hk ((hmem k).1 hin)]
  · rw [Memory.get_emptyCounters, Memory.get_emptyTags]
    all_goals
      intro j hj
      have := (hmem j).1 hj
      omega

theorem slotResults : slotResultsRule := by
  intro s a w x i h hx hhold off tag hin
  have hT := agent_team h
  refine ⟨fun ht => ?_, fun ht => ?_, fun ht hwait => ?_, fun ht hwait e he => ?_, fun d hd => exec_sltag_at h w hx hin d hd,
    fun hwait => ⟨_, exec_slinit_at h w hx hin hwait, rfl, fun n hn => setTeam_get_other _ _ _ _ hn, _, setTeam_get _ _ _, rfl, ?_⟩⟩
  · rw [exec_sltake_at h w hx hin hhold, if_pos ht, agentEnd_done h]
  · rw [exec_sltake_at h w hx hin hhold, if_neg ht, agentEnd_keep h]
  · rw [exec_slrel_at h w hx hin hwait, if_pos ht, agentEnd_done h]
  · rw [exec_slrel_at h w hx hin hwait, if_neg ht, agentEnd_group he]
    rfl
  · obtain ⟨hempty, hothers, hbytes⟩ := emptied_slots a.team.res.scr off i.toNat i.isLt
    refine ⟨fun k hk => ?_, fun k hk hk64 => ?_, hbytes⟩
    · rw [slotTag_of (setTeam_get _ _ _), slotCounter_of (setTeam_get _ _ _)]
      exact hempty k hk
    · rw [slotTag_of (setTeam_get _ _ _), slotTag_of hT]
      exact hothers k hk hk64

/-- Settles O30: a barrier's word is the word of R96's fields, on which the model's update is R97's; a slot's tag and counter are
fields of one memory, and a word on them goes on, stands or traps by the tag that it finds. -/
theorem barrierAndSlotWords : Obligations.BarrierAndSlotWords := ⟨barrierResults, slotResults⟩

end Sys2Proof.Machine
end

section
/-! The steps of requests (O41; R85, R110, R111, R366, R367, R372, R382): each step's occasion, once, and what the step then is. -/

namespace Sys2Proof.Machine

/-! ## Walks (R367, R382) -/

/-- A walk ends where nothing of its die must leave before its request. -/
theorem exec_walkComplete_of {s : State} {id : Nat} {r : Req} (hget : s.reqs.get? id = some r) (hstage : r.stage = .walk)
    (hafter : ∀ k ∈ r.after, isSent s k = true) (htable : tableAsked s id = false) (hwalks : behind s id r (· == .walk) = false)
    (hheld : behind s id r (fun x => match x with | .held _ => true | _ => false) = false) :
    exec (.walkComplete id) s = .next (walk s id r) := by
  have hsent : r.after.all (isSent s) = true := List.all_eq_true.2 hafter
  rw [exec_walkComplete, execWalkComplete]
  simp only [hget, hstage, htable, hsent, hwalks, bne_self_eq_false, Bool.not_true, Bool.or_false, Bool.false_eq_true, if_false]
  exact if_neg (ne_true_of_eq_false hheld)

section
variable {s : State} {id : Nat} {r : Req} (hphys : r.phys = false) (hvault : r.vaultOff = none)
include hphys hvault

/-- A request at a virtual address outside the vaults is translated. -/
theorem walk_translates_ok {pa : Nat} {sl : Bool} (hprobe : r.probe = false) (hx : (r.xlate s).1 = .ok pa sl) :
    walk s id r = sendReq (r.xlate s).2 id pa sl := by
  unfold walk walkDone
  simp only [hphys, hvault, hx, hprobe, Option.isSome_none, Bool.false_eq_true, if_false]

theorem walk_translates_ask {pa : Nat} {v : State} (hx : r.xlate s = (.ask pa, v)) :
    walk s id r = askTableSector v id r.die r.core r.ctx r.field r.team true pa := by
  unfold walk
  simp only [hphys, hvault, hx, Option.isSome_none, Bool.false_eq_true, if_false]

end

/-! ## Replies (R111) -/

/-- What the reply of a request brings to those who wait for it. -/
def wakeWaiter (s : State) (r : Req) : State :=
  match r.who with
  | .access a lane => if r.kind == .read then loadReply s a r r.reply else laneReply s a lane r.reply.toNat
  | .copy c => copyReply s c r
  | .fetch _ _ _ => s
  | .writeback => s
  | .host => completeHost s r false r.reply
  | .table w => noteTable s w (r.va / 64) (.data r.reply)

/-- A good reply that no earlier one must precede merges STABLE, fills the caches and wakes its waiter. -/
theorem exec_replyReceive_of {s : State} {id : Nat} {r : Req} (hget : s.reqs.get? id = some r) (hstage : r.stage = .replied)
    (hhops : r.hops = []) (hkind : r.kind ≠ .beat) (hbad : r.bad = 0) (hwaits : replyWaits s r = false) :
    exec (.replyReceive id) s = .next (wakeWaiter
      (dropReq (if r.kind == .read then fillReply (mergeVc s r.die r.stable) r else mergeVc s r.die r.stable) id) r) := by
  have hbeat : (r.kind == .beat) = false := by simpa using hkind
  rw [exec_replyReceive, execReplyReceive]
  simp only [hget, hstage, hhops, hbeat, hwaits, hbad, bne_self_eq_false, List.isEmpty_nil, Bool.not_true, Bool.or_false,
    Bool.false_eq_true, if_false, ne_eq, not_true_eq_false]
  rfl

/-- A reply that fills no cache. -/
theorem fillReply_none {s : State} {r : Req} (h : r.fillScope = none) : fillReply s r = s := by
  unfold fillReply; rw [h]

/-! ## The remap filter (R85, R371) -/

/-- The walk of the filter that finds an entry: the access goes on at the leader. -/
theorem exec_remapFilterWalkComplete_of {s : State} {id : Nat} {a : Access} {T : Team} {l : LaneAcc} {x : RemapEntry}
    (ha : s.accs.get? id = some a) (hT : s.teams.get? a.team = some T) (hl : stalledLane s a T = some l)
    (hparked : a.parked = true → mayContinue s a.team = true ∧ ∀ f ∈ s.faults, f.2.src = 3 → f.2.team ≠ a.team)
    (htable : tableAsked s id = false)
    (hwalk : synWalkGot s (dieOf T.id.core) T.id.ctx (some a.got) l.va = .entry x) :
    exec (.remapFilterWalkComplete id) s = .next (progress (remapPut s T.id.core x) id [] allLanes) := by
  have hfree : (a.parked && (!mayContinue s a.team || s.faults.any fun e => e.2.src == 3 && e.2.team == a.team)) = false := by
    cases hp : a.parked with
    | false => rfl
    | true =>
      obtain ⟨hmay, hfaults⟩ := hparked hp
      have : (s.faults.any fun e => e.2.src == 3 && e.2.team == a.team) = false := by simpa using hfaults
      simp [hmay, this]
  rw [exec_remapFilterWalkComplete, execRemapFilterWalkComplete]
  simp only [ha, Option.bind_some, hT, hl, htable, hfree, Bool.or_false, Bool.false_eq_true, if_false, hwalk]

/-! ## Clock beats (R110) -/

@[simp] theorem sendOn_dies (s : State) (l : Nat) (m : Message) : (sendOn s l m).dies = s.dies := by
  unfold sendOn; dsimp only; split <;> rfl
@[simp] theorem setOff_dies (s : State) (hops : List Nat) (m : Message) : (setOff s hops m).dies = s.dies := by
  unfold setOff
  split
  · rfl
  · split <;> simp

/-- A die that has raised EPOCH tells another. -/
theorem exec_clockBeatSend_of {s : State} {src dst : Nat} (hsrc : src < 4) (hdst : dst < 4) (hne : src ≠ dst)
    (hahead : (s.die src).told.getD dst 0 < (s.die src).epoch) :
    ∃ u, exec (.clockBeatSend src dst) s = .next u ∧ (u.die src).sent = (s.die src).sent + 1 := by
  rw [exec_clockBeatSend, execClockBeatSend]
  refine ⟨_, if_neg (by simpa [hsrc, hdst, hne] using hahead), ?_⟩
  simp only [State.die, setOff_dies]
  exact congrArg Die.sent (State.die_setDie _ src src _ |>.trans (if_pos rfl))

/-! ## The statement -/

/-- Settles O41: each step's occasion is what the statement asks for, so the step is taken, and its outcome is read off. -/
theorem requestEvents : Obligations.RequestEvents := by
  intro s id r
  refine ⟨fun hget hstage hafter htable hwalks hheld => ⟨exec_walkComplete_of hget hstage hafter htable hwalks hheld,
      fun hphys hvault => ⟨fun hprobe pa sl hx => walk_translates_ok hphys hvault hprobe hx, fun pa v hx => ?_⟩⟩, ?_,
    fun a T l x ha hT hl hparked htable hwalk => exec_remapFilterWalkComplete_of ha hT hl hparked htable hwalk, ?_,
    fun src dst hsrc hdst hne hahead => exec_clockBeatSend_of hsrc hdst hne hahead, fun src dst n q hq => ?_⟩
  · exact ⟨_, _, walk_translates_ask hphys hvault hx, rfl, Tbl.get?_put_same _ _ _, rfl, rfl, rfl, rfl, rfl, rfl,
      fun n hn => Tbl.get?_put_other _ _ _ _ hn⟩
  · intro hget hstage hhops hkind hbad hwaits u
    have hexec := exec_replyReceive_of hget hstage hhops hkind hbad hwaits
    refine ⟨⟨_, hexec⟩, fun w hwho hread hfill => ?_, fun hwho hwrite => ?_, fun a lane hwho hread => ?_⟩
    · rw [hexec, fillReply_none hfill, ite_self, wakeWaiter, hwho]
    · rw [hexec, hwrite, wakeWaiter, hwho]
      rfl
    · have hkind : (r.kind == .read) = false := by simpa using hread
      rw [hexec, wakeWaiter, hwho, hkind]
      rfl
  · intro hroom hheld
    rw [exec_faultRingRoom, execFaultRingRoom]
    exact if_pos (by simpa [hroom] using hheld)
  · rw [exec_clockBeat, execClockBeat, hq]

end Sys2Proof.Machine
end

section
/-! A multicast into ring slots (O29; R102, R103, R299 to R301). The slots that a copy claims are claimed one after another, each by the
number of the team that its landing finds. The statement has every one of them claimed where each is empty at first. It does not ask the
table of teams to list a number once: where two cores' teams stand in it under one number, both landings name the slot of the team that
is listed first, and the second claim finds it taken by the first. -/

namespace Sys2Proof.Machine

/-- An entry of FORMAT 5 and rank 1: a tensor of 64 elements, whose box is the whole of it, an image of 64 bytes. -/
def lineTensor : BitVec 512 := BitVec.ofNat 512
  (5 + 2 ^ 5 + 64 * 2 ^ 160 + (2 ^ 184 + 2 ^ 208 + 2 ^ 232 + 2 ^ 256) + 63 * 2 ^ 424)

/-- A team of a group that stands at a word of class 2, under predicate 1 of lane 0, with the core mask 3 in register 60. -/
def multicastTeam (core : Nat) : Team :=
  { fetchTeam with
    id := { fetchTeam.id with core }
    groups := [(0, { freshGroup 0 0 0 with
      s := [(60, 3)], p := [(1, 1)], paths := [(0, { freshPath with pc := 4, clause := some (clauseOf 2 0) })] })] }

/-- Their launch, all of whose teams have been placed. -/
def issuedLaunch : Launch :=
  { ctx := 0, grid := 1, pkt := [], queue := 0, order := 0, pred := none, todo := [], ended := 0, hinted := [], done := true,
    destroyed := false, run := none, wbs := [] }

/-- Two teams of one launch, on cores 0 and 1, under one number. -/
def sharedNumberState : State :=
  { State.reset with
    teams := [(0, multicastTeam 0), (0, multicastTeam 1)]
    live := [(0, { CtxLive.new with tns := [(1, lineTensor)] })]
    fields := [(0, ⟨0, BitVec.allOnes 128, [], [], []⟩)]
    launches := [(launchKey 0 1, issuedLaunch)]
    cur := some ⟨0, .group 0⟩ }

/-- The group of the first of them, at its word, and the copy that the word issues. -/
def multicastEnv : Env :=
  let grp : Group := { freshGroup 0 0 0 with
    s := [(60, 3)], p := [(1, 1)], paths := [(0, { freshPath with pc := 4, clause := some (clauseOf 2 0) })] }
  { t := 0, team := multicastTeam 0, g := 0, grp, p := 0, path := { freshPath with pc := 4, clause := some (clauseOf 2 0) } }
def multicastCopy : Copy := copyOf sharedNumberState multicastEnv.agt .mcSlot 1 53

theorem multicastCopy_lands : multicastCopy.lands = [⟨0, 0, []⟩, ⟨1, 0, []⟩] := by decide +kernel

/-- Both landings find an empty slot. -/
theorem multicastCopy_slots_empty : ∀ l ∈ multicastCopy.lands, ∃ t, landingTeam sharedNumberState multicastCopy l = some t ∧
    slotTag sharedNumberState t multicastCopy.track multicastCopy.slot = 0 := by
  have first : landingTeam sharedNumberState multicastCopy ⟨0, 0, []⟩ = some 0 := by decide +kernel
  have second : landingTeam sharedNumberState multicastCopy ⟨1, 0, []⟩ = some 0 := by decide +kernel
  have empty : slotTag sharedNumberState 0 multicastCopy.track multicastCopy.slot = 0 := by decide +kernel
  rw [multicastCopy_lands]
  simpa using ⟨⟨0, first, empty⟩, ⟨0, second, empty⟩⟩

theorem multicastCopy_checks : copyChecks sharedNumberState multicastEnv.agt multicastCopy = none := by
  have h : (copyChecks sharedNumberState multicastEnv.agt multicastCopy).isNone = true := by decide +kernel
  exact Option.isNone_iff_eq_none.1 h

/-- Whether the copy of a number has begun after an outcome. -/
def copyBegun (n : Nat) : Out → Option Bool
  | .next u => (u.copies.get? n).map (·.begun)
  | _ => none

/-- The word stands with its second slot unclaimed, and its copy has not begun. -/
theorem multicast_stands : copyBegun 1 (exec (.cpyMcSlot false 1 53 1) sharedNumberState) = some false := by decide +kernel

/-- Refutes O29: where the teams of both cores of a multicast stand under one number, its first claim fills the slot that the second
finds, and the word stands; the statement has the copy begin. -/
theorem not_copyAndTensorWords : ¬ Obligations.CopyAndTensorWords := by
  intro ⟨_, hcopies⟩
  obtain ⟨-, hissues⟩ := hcopies sharedNumberState multicastEnv (.cpyMcSlot false 1 53 1) false .mcSlot 1 53 1 ⟨rfl, rfl⟩ rfl
    (by decide) rfl
  obtain ⟨-, -, hslots, -⟩ := hissues (by decide) (by decide) multicastCopy_checks (fun h => nomatch h)
  obtain ⟨u, -, hexec, hcopy, -⟩ := hslots (.inr rfl) (by decide +kernel) multicastCopy_slots_empty
  have hbegun := congrArg (copyBegun 1) hexec
  rw [multicast_stands] at hbegun
  have hget : u.copies.get? 1 = _ := hcopy
  simp [copyBegun, marked, hget] at hbegun

end Sys2Proof.Machine
end

section
/-! The landing of a copy's sector (O43; R90, R97, R101, R119). `exec_sectorLand_of` says once what the event does where the sector may
land: the scratchpad takes the sector's bytes (`Memory.landed`), the tracker counts it (`countSector`), and the copy ends or goes on,
which changes no scratchpad and halts no team (`finishCopy_keeps`). -/

namespace Sys2Proof.Machine

/-! ## The end of a copy in a team that goes on -/

/-- A team with a group that has not ended. -/
def Team.hasLive (T : Team) : Prop := ∃ g G, T.groups.get? g = some G ∧ G.ended = false

/-- A group's change that does not end it leaves its team a live group. -/
theorem Team.hasLive_upd {T U : Team} {g : Nat} {f : Group → Group} (h : T.hasLive) (hU : U.groups = T.groups.upd g f)
    (hf : ∀ G, (f G).ended = G.ended) : U.hasLive := by
  obtain ⟨g', G, hG, hlive⟩ := h
  by_cases hg : g' = g
  · subst hg
    exact ⟨g', f G, by simp [hU, hG], (hf G).trans hlive⟩
  · exact ⟨g', G, by simp [hU, hG, hg], hlive⟩

@[simp] theorem Team.hasLive_withScr (T : Team) (m : Memory) : (T.withScr m).hasLive ↔ T.hasLive := Iff.rfl

/-- Such a team is not over. -/
theorem teamTest_of_live {s : State} {t : Nat} {T : Team} (hT : s.teams.get? t = some T) (h : T.hasLive) : teamTest s t = s := by
  obtain ⟨g, G, hG, hlive⟩ := h
  have hgroups : T.groups.all (fun e => e.2.ended) = false := List.all_eq_false.2 ⟨_, Tbl.mem_of_get? hG, by simp [hlive]⟩
  unfold teamTest
  rw [hT]
  simp [Team.over, hgroups]

/-- A complete copy gone from the table, and out of its group's CPYCNT. -/
def releaseCopy (s : State) (id : Nat) (c : Copy) : State :=
  let s := { s with copies := s.copies.del id }
  match c.issuer with
  | some g => updGroup s c.team g fun grp => { grp with cpycnt := grp.cpycnt - 1 }
  | none => s

theorem finishCopy_of {s : State} {id : Nat} {c : Copy} (hc : s.copies.get? id = some c) :
    finishCopy s id = if c.lands.all fun l => c.sectors ≤ l.landed.length then teamTest (releaseCopy s id c) c.team else s := by
  unfold finishCopy; rw [hc]; rfl

@[simp] theorem releaseCopy_store (s : State) (id : Nat) (c : Copy) : (releaseCopy s id c).store = s.store := by
  unfold releaseCopy; cases c.issuer <;> rfl

/-- What the release leaves of the copy's team: its resources, whether it is halted, and a live group. -/
theorem releaseCopy_team {s : State} {c : Copy} {T : Team} (id : Nat) (hT : s.teams.get? c.team = some T) (h : T.hasLive) :
    ∃ U, (releaseCopy s id c).teams.get? c.team = some U ∧ U.res = T.res ∧ U.halted = T.halted ∧ U.hasLive := by
  unfold releaseCopy
  cases c.issuer with
  | none => exact ⟨T, hT, rfl, rfl, h⟩
  | some g =>
    exact ⟨{ T with groups := T.groups.upd g fun grp => { grp with cpycnt := grp.cpycnt - 1 } }, by simp [updGroup, hT], rfl, rfl,
      Team.hasLive_upd h rfl fun _ => rfl⟩

/-- The end of a copy leaves its team's resources and whether it is halted. -/
theorem finishCopy_keeps {s : State} {id : Nat} {c : Copy} {T : Team} (hc : s.copies.get? id = some c)
    (hT : s.teams.get? c.team = some T) (h : T.hasLive) :
    ∃ U, (finishCopy s id).store = s.store ∧ (finishCopy s id).teams.get? c.team = some U ∧ U.res = T.res ∧ U.halted = T.halted := by
  rw [finishCopy_of hc]
  split
  · obtain ⟨U, hU, hres, hhalted, hlive⟩ := releaseCopy_team id hT h
    rw [teamTest_of_live hU hlive]
    exact ⟨U, releaseCopy_store s id c, hU, hres, hhalted⟩
  · exact ⟨T, rfl, hT, rfl, rfl⟩

/-- A trap that a copy raises halts its team, leaves its resources, and ends no group. -/
theorem stopLate_of {s : State} {t : Nat} {T : Team} (hT : s.teams.get? t = some T) (h : T.hasLive) (issuer : Option Nat) (p : Nat)
    (pc : Dword) (mask : LaneMask) (code detail : Nat) (addr : Dword) :
    ∃ U, stopLate s t issuer false p pc mask code detail addr = s.setTeam t U ∧ U.res = T.res ∧ U.halted = true ∧ U.hasLive := by
  cases issuer with
  | some g =>
    exact ⟨_, updTeam_of hT _, rfl, rfl, Team.hasLive_upd h rfl fun G => by split <;> rfl⟩
  | none =>
    refine ⟨_, updTeam_of hT _, ?_⟩
    dsimp only
    split
    · exact ⟨rfl, rfl, h⟩
    · exact ⟨rfl, rfl, h⟩

/-! ## The bytes of a sector (R90) -/

theorem Copy.parts_ne_nil (c : Copy) (e : BitVec 512) (o : Nat) : c.parts e o ≠ [] := by
  have hper : perByte (tnFormat c.src) ≠ 0 := by unfold perByte; split_ifs <;> decide
  unfold Copy.parts
  dsimp only
  split
  · exact List.cons_ne_nil _ _
  · simpa using hper

/-- An image byte depends on the bytes at its sources only. -/
theorem Copy.byte_congr {c : Copy} {o : Nat} {rd rd' : Nat → Byte} (h : ∀ a ∈ c.sources o, rd a = rd' a) :
    c.byte o rd = c.byte o rd' := by
  have hpart : ∀ p ∈ c.parts c.src o, ∀ a, p.addr = some a → rd a = rd' a := fun p hp a ha =>
    h a (List.mem_eraseDups.2 (List.mem_filterMap.2 ⟨p, hp, ha⟩))
  have hzip : ∀ (l : List Nat), ∀ q ∈ (c.parts c.src o).zip l, ∀ a, q.1.addr = some a → rd a = rd' a := fun l q hq =>
    hpart q.1 (List.of_mem_zip hq).1
  unfold Copy.byte
  dsimp only
  split
  · refine congrArg _ (List.foldl_ext _ _ _ fun n q hq => ?_)
    cases ha : q.1.addr with
    | none => rfl
    | some a => simp only [hzip _ q hq a ha]
  · split
    · next hall =>
      obtain ⟨p, ps, hparts⟩ := List.exists_cons_of_ne_nil (c.parts_ne_nil c.src o)
      have hp : p ∈ c.parts c.src o := hparts ▸ List.mem_cons_self
      have hsome := (Bool.and_eq_true_iff.1 (List.all_eq_true.1 hall p hp)).1
      obtain ⟨a, ha⟩ := Option.isSome_iff_exists.1 hsome
      rw [hparts]
      simpa [ha] using hpart p hp a ha
    · refine congrArg _ (List.foldl_ext _ _ _ fun n q hq => ?_)
      cases ha : q.1.addr with
      | none => rfl
      | some a => simp only [hzip _ q hq a ha]
  · next p _ hparts _ _ =>
    cases ha : p.addr with
    | none => rfl
    | some a => exact hpart p (hparts ▸ List.mem_cons_self) a ha
  · rfl

/-- A scratchpad with the bytes of sector i of a copy's image. -/
def Memory.landed (m : Memory) (c : Copy) (i : Nat) : Memory :=
  (sectorBytes i).foldl (fun m o => m.put (c.loc + staggered (tnSwizzle c.src) (imageSize c.src) o)
    (c.byte o fun a => (c.buf.getD (a / 64) 0).extractLsb' (8 * (a % 64)) 8)) m

/-- A byte after bytes have been put one after another: the last one that was put there. -/
theorem Memory.get_foldl_put {α : Type} (m : Memory) (l : List α) (place : α → Nat) (val : α → Byte) (b : Nat) :
    (l.foldl (fun m o => m.put (place o) (val o)) m).get b = ((l.reverse.find? fun o => place o == b).map val).getD (m.get b) := by
  induction l generalizing m with
  | nil => rfl
  | cons x l ih =>
    rw [List.foldl_cons, ih, List.reverse_cons, List.find?_append, Memory.get_put]
    cases hl : l.reverse.find? fun o => place o == b with
    | some o => rfl
    | none =>
      by_cases hx : place x = b
      · simp [hx]
      · simp [hx, Ne.symm hx]

theorem Memory.get_landed (m : Memory) (c : Copy) (i b : Nat) : (m.landed c i).get b = landedByte c i m b := by
  refine (Memory.get_foldl_put m (sectorBytes i) _ _ b).trans ?_
  unfold landedByte
  cases (sectorBytes i).reverse.find? fun o => c.loc + staggered (tnSwizzle c.src) (imageSize c.src) o == b <;> rfl

/-- A sector that is clear of some bytes leaves them. -/
theorem Memory.get_landed_clear {c : Copy} {i off n b : Nat} (m : Memory) (h : landsClear c i off n) (hlo : off ≤ b)
    (hhi : b < off + n) : (m.landed c i).get b = m.get b := by
  have hnone : (sectorBytes i).reverse.find? (fun o => c.loc + staggered (tnSwizzle c.src) (imageSize c.src) o == b) = none :=
    List.find?_eq_none.2 fun o ho heq => by
      have := h o (List.mem_reverse.1 ho)
      have := beq_iff_eq.1 heq
      omega
  rw [Memory.get_landed]
  unfold landedByte
  rw [hnone]

/-! ## The event -/

theorem copySect_global (s : State) (die ctx : Nat) (got : Tbl TabRead) {v : Nat} (hv : 64 * v < synonymBase) :
    copySect s die ctx got v = .entry ⟨ctx, 64 * v, 64, 64 * v⟩ := by
  unfold copySect regionOf; rw [if_pos hv]

theorem copyKey_global (s : State) (die ctx : Nat) (got : Tbl TabRead) {v : Nat} (hv : 64 * v < synonymBase) :
    copyKey s die ctx got v = v := by
  unfold copyKey; rw [copySect_global s die ctx got hv]; dsimp only; omega

/-- A sector that the copy has is not asked for. -/
theorem askSector_of_has {s : State} {id w : Nat} {c : Copy} (ctx field : Nat) (hc : s.copies.get? id = some c)
    (hw : c.buf.has w = true) : askSector s id c ctx field w = s := by
  simp [askSector, hc, hw]

theorem foldl_eq_self {α β : Type} {f : β → α → β} {b : β} {l : List α} (h : ∀ a ∈ l, f b a = b) : l.foldl f b = b := by
  induction l with
  | nil => rfl
  | cons a l ih =>
    rw [List.foldl_cons, h a List.mem_cons_self]
    exact ih fun a' ha => h a' (List.mem_cons_of_mem a ha)

section
variable {s : State} {id i : Nat} {c : Copy} {T : Team} (h : landsNow s id i c T) (hkind : c.kind = .ld ∨ c.kind = .slot)

include hkind in
theorem targets_of_scratch (k : Nat) : c.targets k = [] := by
  unfold Copy.targets Copy.toGlobal
  rcases hkind with hk | hk <;> rw [hk] <;> rfl

include hkind in
/-- A sector whose sources have arrived is past its translation. -/
theorem under_of_arrived {k : Nat} (hneeds : ∀ v ∈ c.needs k, 64 * v < synonymBase ∧ c.buf.has v = true) (ctx : Nat) :
    c.under s id ctx k = true := by
  unfold Copy.under
  rw [targets_of_scratch hkind]
  simp only [List.all_nil, Bool.and_true, List.all_eq_true]
  intro v hv
  obtain ⟨hglobal, harrived⟩ := hneeds v hv
  rw [copyKey_global s _ _ _ hglobal, harrived]
  rfl

include hkind in
/-- The image bytes of a sector whose sources have arrived. -/
theorem image_of_arrived {k : Nat} (hneeds : ∀ v ∈ c.needs k, 64 * v < synonymBase ∧ c.buf.has v = true) (die ctx : Nat) :
    c.image s (copyKey s die ctx c.got) k =
      (sectorBytes k).map fun o => c.byte o fun a => (c.buf.getD (a / 64) 0).extractLsb' (8 * (a % 64)) 8 := by
  have hst : (c.kind == .st) = false := by rcases hkind with hk | hk <;> rw [hk] <;> rfl
  unfold Copy.image
  rw [hst, if_neg Bool.false_ne_true]
  refine List.map_congr_left fun o ho => Copy.byte_congr fun a ha => ?_
  have hneed : a / 64 ∈ c.needs k := by
    unfold Copy.needs
    rw [hst]
    simp only [Bool.false_eq_true, if_false, List.mem_eraseDups, List.mem_map, List.mem_append, List.mem_flatMap]
    exact ⟨a, .inl ⟨o, ho, ha⟩, rfl⟩
  unfold Copy.readByte
  rw [copyKey_global s _ _ _ (hneeds _ hneed).1]

include hkind in
theorem landScratch_of (hT : s.teams.get? c.team = some T)
    (hneeds : ∀ v ∈ c.needs i, 64 * v < synonymBase ∧ c.buf.has v = true) (die ctx : Nat) :
    landScratch s c c.team i (c.image s (copyKey s die ctx c.got) i) = s.setTeam c.team (T.withScr (T.res.scr.landed c i)) := by
  unfold landScratch
  have hzip (l : List Nat) (f : Nat → Byte) : (l.map f).zip l = l.map fun o => (f o, o) := by
    simpa using List.zip_map' (f := f) (g := id) (l := l)
  rw [image_of_arrived hkind hneeds, updTeam_of hT, hzip, List.foldl_map]
  rfl

include h hkind in
/-- The event of a sector that may land: the scratchpad takes its bytes, its tracker counts it, and the copy goes on or ends. -/
theorem exec_sectorLand_of : exec (.sectorLand id i) s = .next (finishCopy (noteLanded
    (countSector (s.setTeam c.team (T.withScr (T.res.scr.landed c i))) c c.team) id 0 i) id) := by
  obtain ⟨l, g, G, hc, hT, hsaved, -, -, hbegun, hstopped, hlands, hi, hfresh, hbehind, hreqs, hneeds, hlower⟩ := h
  have hmay (ctx : Nat) : c.mayLand s id ctx i l = true := by
    simp only [Copy.mayLand, List.all_eq_true, List.mem_range, Bool.or_eq_true, List.contains_iff_mem]
    exact fun j hj => (hlower j hj).imp_right fun hn => under_of_arrived hkind hn ctx
  have hstat : (match T.stat with | .saved _ _ => true | _ => false) = false := hsaved
  have hwalk (die ctx : Nat) : ((c.needs i ++ c.targets i).eraseDups.findSome? fun v =>
      match copySect s die ctx c.got v with | .entry _ => none | x => some (v, x)) = none := by
    rw [targets_of_scratch hkind, List.append_nil]
    refine List.findSome?_eq_none_iff.2 fun v hv => ?_
    rw [copySect_global s die ctx c.got (hneeds v (List.mem_eraseDups.1 hv)).1]
  have hasked (die ctx field : Nat) :
      (c.needs i).foldl (fun s' v => askSector s' id c ctx field (copyKey s die ctx c.got v)) s = s :=
    foldl_eq_self fun v hv => by
      rw [copyKey_global s die ctx c.got (hneeds v hv).1, askSector_of_has ctx field hc (hneeds v hv).2]
  rw [exec_sectorLand]
  unfold execSectorLand
  simp only [hc, Option.bind_some, hT, Nat.div_eq_of_lt hi, Nat.mod_eq_of_lt hi, hlands, List.getElem?_cons_zero]
  rw [if_neg (by simp [hbegun, hstopped, hfresh, hbehind, hmay]; exact hstat)]
  split
  · next heq => exact absurd (heq.symm.trans (hwalk _ _)) (Option.some_ne_none _)
  · next heq => exact absurd (heq.symm.trans (hwalk _ _)) (Option.some_ne_none _)
  · next heq => exact absurd (heq.symm.trans (hwalk _ _)) (Option.some_ne_none _)
  · rw [hasked]
    rw [targets_of_scratch hkind, List.foldl_nil]
    rw [if_neg]
    · have hteam : landingTeam s c l = some c.team := by
        unfold landingTeam
        rcases hkind with hk | hk <;> rw [hk]
      have hglobal : c.toGlobal = false := by
        unfold Copy.toGlobal
        rcases hkind with hk | hk <;> rw [hk]
      simp only [hc, landSector, hteam, hglobal, landScratch_of hkind hT hneeds, Bool.false_eq_true, if_false]
    · exact Bool.eq_false_iff.1 (List.any_eq_false.2 fun e he => by simp [hreqs e he])

include h hkind in
/-- What it leaves, by what the count makes of the team. -/
theorem sectorLand_of_counted {U : Team}
    (hcount : countSector (s.setTeam c.team (T.withScr (T.res.scr.landed c i))) c c.team = s.setTeam c.team U) (hlive : U.hasLive) :
    ∃ u U', exec (.sectorLand id i) s = .next u ∧ u.store = s.store ∧ u.teams.get? c.team = some U' ∧ U'.res = U.res ∧
      U'.halted = U.halted := by
  have hc : s.copies.get? id = some c := by obtain ⟨_, _, _, hc, _⟩ := h; exact hc
  have hnoted : (noteLanded (s.setTeam c.team U) id 0 i).copies.get? id = some { c with
      lands := (c.lands.zip (List.range c.lands.length)).map fun x =>
        if x.2 = 0 then { x.1 with landed := x.1.landed ++ [i] } else x.1 } := by
    simp [noteLanded, hc]
  obtain ⟨U', hstore, hteam, hres, hhalted⟩ := finishCopy_keeps hnoted (setTeam_get s c.team U) hlive
  refine ⟨_, U', exec_sectorLand_of h hkind, ?_⟩
  rw [hcount]
  exact ⟨hstore, hteam, hres, hhalted⟩

include h in
theorem teamOf_landsNow : s.teams.get? c.team = some T := by
  obtain ⟨_, _, _, _, hT, _⟩ := h
  exact hT

include h in
theorem hasLive_of_landsNow : T.hasLive := by
  obtain ⟨_, g, G, _, _, _, hG, hlive, _⟩ := h
  exact ⟨g, G, hG, hlive⟩

end

/-! ## The trackers (R97, R101) -/

theorem TBar.word_after_lt {t : TBar} (h : t.ok) (k n : Nat) : (t.after k n).1.word < 2 ^ 128 := by
  obtain ⟨hphase, hpa, harr, hps, hsec, hovr⟩ := h
  unfold TBar.after
  split_ifs <;> unfold TBar.word <;> dsimp only <;> omega

namespace Memory

/-- A scratchpad whose slot i, with a counter that is not 0, has counted a sector. -/
def slotCounted (m : Memory) (h i : Nat) : Memory :=
  let m' := m.setSlotCounter h i (m.slotCounter h i - 64)
  if m.slotCounter h i ≤ 64 ∧ m'.slotTag h i = 1 then m'.setSlotTag h i 2 else m'

variable (m : Memory) (h : Nat) {i : Nat}

theorem slotCounter_slotCounted (hi : i < 64) : (m.slotCounted h i).slotCounter h i = m.slotCounter h i - 64 := by
  have hlt : m.slotCounter h i - 64 < 2 ^ 32 := (Nat.sub_le _ _).trans_lt ((ofBytes_lt _).trans_eq (by simp [Memory.read]))
  have hset : (m.setSlotCounter h i (m.slotCounter h i - 64)).slotCounter h i = m.slotCounter h i - 64 := by
    rw [slotCounter_setSlotCounter m h i _ i hlt, if_pos rfl]
  unfold slotCounted
  dsimp only
  split
  · rw [slotCounter_setSlotTag _ h i 2 i hi, hset]
  · exact hset

theorem slotTag_slotCounted (hi : i < 64) :
    (m.slotCounted h i).slotTag h i = if m.slotCounter h i ≤ 64 ∧ m.slotTag h i = 1 then 2 else m.slotTag h i := by
  unfold slotCounted
  simp only [slotTag_setSlotCounter m h i _ i hi]
  split
  · rw [slotTag_setSlotTag _ h i 2 i (by decide), if_pos rfl]
  · exact slotTag_setSlotCounter m h i _ i hi

theorem get_slotCounted_other {b : Nat} (htag : b ≠ h + i / 4) (hcounter : b < h + 16 + 4 * i ∨ h + 20 + 4 * i ≤ b) :
    (m.slotCounted h i).get b = m.get b := by
  unfold slotCounted
  dsimp only
  split
  · rw [get_setSlotTag_other _ h i 2 htag, get_setSlotCounter_other m h i _ hcounter]
  · exact get_setSlotCounter_other m h i _ hcounter

end Memory

section
variable {s : State} {c : Copy} {T : Team} {m : Memory}

/-- A sector counted at a barrier, by the barrier's word after it and whether it overruns. -/
theorem countSector_barrier {x : Nat} {overrun : Bool} (hlive : T.hasLive) (hkind : c.kind = .ld) (htrack : c.trackNone = false)
    (hupdate : tbUpdate (m.load c.track 16) 0 1 = (x, overrun)) :
    ∃ U, countSector (s.setTeam c.team (T.withScr m)) c c.team = s.setTeam c.team U ∧ U.hasLive ∧
      U.res.scr = m.store c.track 16 x ∧ (overrun = true → U.halted = true) := by
  have happly : tbApply (s.setTeam c.team (T.withScr m)) c.team c.track 0 1 =
      (s.setTeam c.team (T.withScr (m.store c.track 16 x)), overrun) := by
    unfold tbApply
    rw [scrRead_of (setTeam_get _ _ _), Team.withScr_scr, hupdate]
    dsimp only
    rw [scrWrite_of (setTeam_get _ _ _), setTeam_setTeam, Team.withScr_withScr, Team.withScr_scr]
  unfold countSector Copy.bySlot
  rw [hkind, htrack, happly]
  cases overrun with
  | false => exact ⟨T.withScr (m.store c.track 16 x), rfl, hlive, rfl, fun h => nomatch h⟩
  | true =>
    obtain ⟨U, hU, hres, hhalted, hlive'⟩ := stopLate_of (T := T.withScr (m.store c.track 16 x)) (setTeam_get s c.team _) hlive
      c.issuer c.path c.pc c.mask 0x0E 0 0
    rw [setTeam_setTeam] at hU
    exact ⟨U, hU, hlive', congrArg TeamRes.scr hres, fun _ => hhalted⟩

/-- A sector counted by a slot whose counter is 0 already. -/
theorem countSector_slot_zero (hlive : T.hasLive) (hkind : c.kind = .slot) (hzero : m.slotCounter c.track c.slot = 0) :
    ∃ U, countSector (s.setTeam c.team (T.withScr m)) c c.team = s.setTeam c.team U ∧ U.hasLive ∧ U.res.scr = m ∧ U.halted = true := by
  unfold countSector Copy.bySlot slotSector
  simp only [hkind, slotCounter_of (setTeam_get _ _ _), Team.withScr_scr, hzero, if_true, Bool.false_eq_true, if_false]
  obtain ⟨U, hU, hres, hhalted, hlive'⟩ := stopLate_of (T := T.withScr m) (setTeam_get s c.team _) hlive c.issuer c.path c.pc c.mask
    0x0F 0 0
  exact ⟨U, by rw [hU, setTeam_setTeam], hlive', by rw [hres]; rfl, hhalted⟩

/-- A sector counted by a slot. -/
theorem countSector_slot (hkind : c.kind = .slot) (hcount : m.slotCounter c.track c.slot ≠ 0) :
    countSector (s.setTeam c.team (T.withScr m)) c c.team = s.setTeam c.team (T.withScr (m.slotCounted c.track c.slot)) := by
  unfold countSector Copy.bySlot slotSector
  rw [hkind, slotCounter_of (setTeam_get _ _ _), Team.withScr_scr]
  simp only [if_true, if_neg hcount]
  rw [setCounter_of (setTeam_get _ _ _), setTeam_setTeam, Team.withScr_withScr, Team.withScr_scr, slotTag_of (setTeam_get _ _ _),
    setTag_of (setTeam_get _ _ _), setTeam_setTeam, Team.withScr_withScr, Team.withScr_scr]
  unfold Memory.slotCounted
  simp only [Bool.and_eq_true, decide_eq_true_eq]
  split <;> rfl

end

/-! ## The rules -/

theorem queuedSectors : queuedSectorsRule := by
  intro s die c i x hx hfirst
  rw [exec_l2WriteQueuePerform]
  unfold execL2WriteQueuePerform
  simp only [hx]
  rw [if_neg]
  simp only [Bool.not_eq_true, List.any_eq_false, Bool.and_eq_true, beq_iff_eq, not_and]
  exact fun y hy => hfirst y hy

theorem copySectors : copySectorsRule := by
  refine fun s id i c T h => ⟨fun hkind htrack => ?_, fun t hkind htrack ht hword hclear => ?_, fun hkind hslot hclear => ?_⟩
  · have hcount : countSector (s.setTeam c.team (T.withScr (T.res.scr.landed c i))) c c.team =
        s.setTeam c.team (T.withScr (T.res.scr.landed c i)) := by
      simp [countSector, Copy.bySlot, hkind, htrack]
    obtain ⟨u, U, hexec, hstore, hU, hres, -⟩ := sectorLand_of_counted h (.inl hkind) hcount
      ((Team.hasLive_withScr _ _).2 (hasLive_of_landsNow h))
    exact ⟨u, U, hexec, hstore, hU, fun b => by rw [hres]; exact Memory.get_landed _ _ _ _⟩
  · have hword' : (T.res.scr.landed c i).load c.track 16 = t.word :=
      (Memory.load_congr fun b hlo hhi => Memory.get_landed_clear _ hclear hlo hhi).trans hword
    obtain ⟨V, hcount, hlive, hscr, hover⟩ := countSector_barrier (s := s) (hasLive_of_landsNow h) hkind htrack
      ((congrArg (tbUpdate · 0 1) hword').trans (tbUpdate_word ht 0 1))
    obtain ⟨u, U, hexec, hstore, hU, hres, hhalted⟩ := sectorLand_of_counted h (.inl hkind) hcount hlive
    refine ⟨u, U, hexec, hstore, hU, ?_, fun ho => hhalted.trans (hover ho), fun b hb => ?_⟩
    · rw [hres, hscr, Memory.load_store]
      exact Nat.mod_eq_of_lt (TBar.word_after_lt ht 0 1)
    · rw [hres, hscr, Memory.get_store_other _ _ _ _ _ hb, Memory.get_landed]
  · have hT : s.teams.get? c.team = some T := teamOf_landsNow h
    have hcounter : (T.res.scr.landed c i).slotCounter c.track c.slot = slotCounter s c.team c.track c.slot := by
      rw [slotCounter_of hT]
      exact Memory.slotCounter_congr fun b hlo hhi => Memory.get_landed_clear _ hclear (by omega) (by omega)
    have htag : (T.res.scr.landed c i).slotTag c.track c.slot = slotTag s c.team c.track c.slot := by
      rw [slotTag_of hT]
      exact Memory.slotTag_congr (Memory.get_landed_clear _ hclear (by omega) (by omega))
    dsimp only
    rw [← hcounter, ← htag]
    by_cases hzero : (T.res.scr.landed c i).slotCounter c.track c.slot = 0
    · obtain ⟨V, hcount, hlive, hscr, hhalt⟩ := countSector_slot_zero (s := s) (hasLive_of_landsNow h) hkind hzero
      obtain ⟨u, U, hexec, hstore, hU, hres, hhalted⟩ := sectorLand_of_counted h (.inr hkind) hcount hlive
      refine ⟨u, U, hexec, hstore, hU, fun _ => ⟨hhalted.trans hhalt, ?_⟩, fun hn => absurd hzero hn, fun b _ _ => ?_⟩
      · rw [slotTag_of hU, hres, hscr]
      · rw [hres, hscr, Memory.get_landed]
    · obtain ⟨u, U, hexec, hstore, hU, hres, -⟩ := sectorLand_of_counted h (.inr hkind)
        (countSector_slot (s := s) hkind hzero) ((Team.hasLive_withScr _ _).2 (hasLive_of_landsNow h))
      have hscr : U.res.scr = (T.res.scr.landed c i).slotCounted c.track c.slot := by rw [hres, Team.withScr_scr]
      refine ⟨u, U, hexec, hstore, hU, fun hn => absurd hn hzero, fun _ => ⟨?_, ?_⟩, fun b hbyte hb => ?_⟩
      · rw [slotCounter_of hU, hscr, Memory.slotCounter_slotCounted _ _ hslot]
      · rw [slotTag_of hU, hscr, Memory.slotTag_slotCounted _ _ hslot]
      · rw [hscr, Memory.get_slotCounted_other _ _ hbyte hb, Memory.get_landed]

/-- Settles O43: a sector's landing is its bytes, its tracker's count and the end of its copy, taken one after another; a queued sector
is performed unless an earlier one of its team on the same sector is before it. -/
theorem copyLandingResults : Obligations.CopyLandingResults := ⟨copySectors, queuedSectors⟩

end Sys2Proof.Machine
end

section
/-! Memory words (O24, O26; R187, R281 to R293): what each of them hands to the common forms, and the access that it issues once
it may. -/

namespace Sys2Proof.Machine

/-! ## Operands -/

theorem sizeOfCode_eq_zcode {t : Nat} (h : t ≤ 4) : sizeOfCode t = zcode t := by
  interval_cases t <;> rfl

theorem ofInt_toInt_mul {w : Nat} (o : BitVec w) (z : Nat) :
    BitVec.ofInt 64 (o.toInt * (z : Int)) = o.signExtend 64 * BitVec.ofNat 64 z := by
  rw [BitVec.ofInt_mul, BitVec.ofInt_natCast]; rfl

theorem laneVa_eq_vaddr (e : Env) (b : BitVec 6) (o : BitVec 7) (sc : Bool) (z l : Nat) :
    laneVa (e.pair b) (laneAt (e.team.lanes e.g o.toNat) l) sc z = vaddr e b o sc z l := by
  unfold laneVa vaddr laneAt
  have hscale : (if sc then (z : Int) else 1) = ((if sc then z else 1 : Nat) : Int) := by split <;> rfl
  rw [hscale, ofInt_toInt_mul]

theorem scalarVa_eq (e : Env) (a : BitVec 6) (off : BitVec 9) (z : Nat) :
    scalarVa e a off z = (e.pair a + off.signExtend 64 * BitVec.ofNat 64 z).toNat := by
  unfold scalarVa sext
  rw [ofInt_toInt_mul]

theorem data_eq_dataOf (e : Env) (p : Prop) [Decidable p] (d : BitVec 7) (l : Nat) :
    (if p then pairLane (fun n => e.team.lanes e.g n) d.toNat l else pair (laneAt (e.team.lanes e.g d.toNat) l) 0) =
      dataOf e (decide p) d l := by
  by_cases hp : p <;> simp [hp, dataOf, pairLane, pair, laneAt]

theorem names_eq_namesOf (p : Prop) [Decidable p] (d : BitVec 7) :
    (if p then pairNames d else [d.toNat]) = namesOf (decide p) d := by
  by_cases hp : p <;> simp [hp, namesOf, pairNames]

theorem atomWide_eq (op : Nat) : atomWide op = decide (op = 10 ∨ op = 11) :=
  Bool.eq_iff_iff.2 (by simp [atomWide])

theorem atomPair_eq (op : Nat) : atomPair op = (decide (op = 10 ∨ op = 11) || op == 9) :=
  Bool.eq_iff_iff.2 (by simp only [atomPair, Bool.or_eq_true, beq_iff_eq, decide_eq_true_eq]; omega)

@[simp] theorem highWord_pair (lo hi : Word) : highWord (pair lo hi) = hi := by
  unfold highWord pair
  exact BitVec.extractLsb'_append_eq_left

theorem atomOperand_eq (e : Env) (op : Nat) (b : BitVec 6) : atomOperand e op b =
    (if op = 10 ∨ op = 11 then e.pair b else (0 : Word) ++ readS e.grp e.path b.toNat,
      if op = 9 then readS e.grp e.path (b.toNat + 1) else 0) := by
  unfold atomOperand
  simp only [atomWide_eq, decide_eq_true_eq]
  by_cases hwide : op = 10 ∨ op = 11
  · have hcas : op ≠ 9 := by omega
    simp [hwide, hcas]
  · simp only [hwide, if_false, Env.pair, highWord_pair]
    rfl

/-! ## The common forms -/

section
variable {s : State} {e : Env}

/-- A memory word whose fields are accepted, of a group that the throttle lets go on. -/
theorem runMem_at (hat : GroupAt s e 1) (w : Bool) {c : MemClass} (f : Env → MemF → Res) (hreserved : (memFields e).reserved = false)
    (haccepts : c.accepts (memFields e) = true) (hthrottled : throttled s e = false) :
    runMem w s c f = finish w e s (f e (memFields e)) := by
  unfold runMem
  rw [runG_at hat w _ (by decide) rfl]
  simp [hreserved, haccepts, hthrottled]

/-- An access that neither releases nor acquires, whose counter, late replies and earlier accesses let it go on. -/
theorem performAccess_of {s' : State} {f : MemF} {a : Access} (hld : e.grp.ldcnt < 255) (hst : e.grp.stcnt < 255)
    (hfar : a.far = true → farCount s' e.t < 64) (hwait : mustWait s' e.t e.g a.size a.lanes = false) (hrel : f.releases = false)
    (hacq : f.acquires = false) : performAccess s' e f a = .done (issueAccess s' e a []) := by
  have hfull : (match a.counter with
      | some true => decide (255 ≤ e.grp.ldcnt)
      | some false => decide (255 ≤ e.grp.stcnt)
      | none => false) = false := by
    rcases a.counter with _ | _ | _ <;> simp <;> omega
  have hlate : (a.far && decide (64 ≤ farCount s' e.t)) = false := by
    cases hf : a.far with
    | false => rfl
    | true => simpa using hfar hf
  unfold performAccess
  simp only [hlate, hwait, hrel, hacq, Bool.and_false, Bool.false_eq_true, if_false]
  rw [if_neg]
  exact Bool.eq_false_iff.1 hfull

/-- A vector word that may issue issues its access, its destinations mapped. -/
theorem vectorWord_issues {m : MemWord} (hat : GroupAt s e 1) (hissue : Sys2Proof.mayIssue s e m) (hreads : m.reads ≠ []) (hlanes : m.acc.lanes ≠ [])
    {f : MemF} (hspace : f.space = m.acc.space) (hrel : f.releases = false) (hacq : f.acquires = false) {F : Env → MemF → Res}
    (hF : F e (memFields e) = vectorAccess s e f m.reads m.writes m.store { m.acc with lanes := [] } m.barred m.acc.lanes) :
    runMem m.w s m.row F = .next (retire m.w e (issueAccess (mapDests s e m) e (accessOf s e m) [])) := by
  obtain ⟨hreserved, haccepts, hthrottled, hmapped, hrows, hcheck, hld, hst, hfar, hwait⟩ := hissue
  rw [runMem_at hat m.w F hreserved haccepts hthrottled, hF]
  unfold vectorAccess
  have hempty : m.acc.lanes.isEmpty = false := by simpa using hlanes
  simp only [hspace, hmapped, hrows, hcheck, hempty, Bool.not_true, Bool.false_eq_true, if_false]
  have hperform := performAccess_of (s' := updTeam s e.t fun t => t.mapAll e.g m.writes)
    (a := { m.acc with dest := destRows (updTeam s e.t fun t => t.mapAll e.g m.writes) e m.writes }) hld hst hfar hwait hrel hacq
  refine (congrArg (finish m.w e s) hperform).trans ?_
  unfold accessOf mapDests
  rw [if_neg hreads, if_neg hreads]
  rfl

/-- The same for a scalar word. -/
theorem scalarWord_issues {m : MemWord} (hat : GroupAt s e 1) (hissue : Sys2Proof.mayIssue s e m) (hreads : m.reads = [])
    {f : MemF} (hspace : f.space = m.acc.space) (hrel : f.releases = false) (hacq : f.acquires = false) {F : Env → MemF → Res} {va : Nat}
    {x : Dword} {c : Word} (hlanes : m.acc.lanes = slane va x c) (hbarred : m.barred = fun _ => false)
    (hF : F e (memFields e) = scalarAccess s e f m.store { m.acc with lanes := [] } va x c) :
    runMem m.w s m.row F = .next (retire m.w e (issueAccess (mapDests s e m) e (accessOf s e m) [])) := by
  obtain ⟨hreserved, haccepts, hthrottled, -, -, hcheck, hld, hst, hfar, hwait⟩ := hissue
  rw [runMem_at hat m.w F hreserved haccepts hthrottled, hF]
  unfold scalarAccess
  have hlanes' : [laneTodo 0 va x c] = m.acc.lanes := hlanes.symm
  simp only [hspace, hlanes', ← hbarred, hcheck]
  refine (congrArg (finish m.w e s) (performAccess_of (a := m.acc) hld hst hfar hwait hrel hacq)).trans ?_
  unfold mapDests accessOf
  rw [if_pos hreads, if_pos hreads]
  rfl

/-! ## Each word -/

/-- A word's size code, where its check leaves five of them. -/
theorem code_le_four {t : Nat} {x : Option IllForm} (h : (if 4 < t then some .unallocated else x) = none) : t ≤ 4 := by
  by_contra hlt
  rw [if_pos (by omega)] at h
  cases h

theorem code_le_three {t : Nat} {x : Option IllForm} (h : (if 3 < t then some .unallocated else x) = none) : t ≤ 3 := by
  by_contra hlt
  rw [if_pos (by omega)] at h
  cases h

section
variable (hat : GroupAt s e 1) (hrel : (memFields e).releases = false) (hacq : (memFields e).acquires = false) {m : MemWord}
  (hissue : Sys2Proof.mayIssue s e m) (hlanes : m.acc.lanes ≠ [])
include hat hrel hacq hissue hlanes

theorem vld_issues {w : Bool} {t : BitVec 4} {d o : BitVec 7} {b : BitVec 6} {sc : Bool} (hcheck : (Instr.vld w t d o b sc).check = none)
    (hm : memWord e (.vld w t d o b sc) = some m) :
    execVld w t d o b sc s = .next (retire m.w e (issueAccess (mapDests s e m) e (accessOf s e m) [])) := by
  obtain rfl := Option.some.inj hm
  refine vectorWord_issues hat hissue (List.cons_ne_nil _ _) hlanes rfl hrel hacq ?_
  simp only [sizeOfCode_eq_zcode (code_le_four hcheck), laneVa_eq_vaddr, names_eq_namesOf]
  rfl

theorem vst_issues {w : Bool} {t : BitVec 4} {d o : BitVec 7} {b : BitVec 6} {sc : Bool} (hcheck : (Instr.vst w t d o b sc).check = none)
    (hm : memWord e (.vst w t d o b sc) = some m) :
    execVst w t d o b sc s = .next (retire m.w e (issueAccess (mapDests s e m) e (accessOf s e m) [])) := by
  obtain rfl := Option.some.inj hm
  refine vectorWord_issues hat hissue (List.cons_ne_nil _ _) hlanes rfl hrel hacq ?_
  simp only [sizeOfCode_eq_zcode (code_le_three hcheck).step, laneVa_eq_vaddr, names_eq_namesOf, data_eq_dataOf]
  rfl

theorem near_issues {w nv store : Bool} {z : BitVec 2} {d o : BitVec 7} {b : BitVec 6} {sc : Bool}
    (hm : nearWord e w nv store z d o b sc = m) :
    nearAccess w nv store z d o b sc s = .next (retire m.w e (issueAccess (mapDests s e m) e (accessOf s e m) [])) := by
  subst hm
  have hz : z.toNat ≤ 4 := z.isLt.le
  refine vectorWord_issues (f := { memFields e with space := 0, cache := 0 }) hat hissue (List.cons_ne_nil _ _) hlanes rfl hrel hacq ?_
  cases store
  · simp only [sizeOfCode_eq_zcode hz, names_eq_namesOf, Bool.false_eq_true, if_false]
    cases nv <;> rfl
  · simp only [sizeOfCode_eq_zcode hz, names_eq_namesOf, data_eq_dataOf, Bool.not_true, Bool.false_eq_true, if_true, if_false]
    cases nv <;> rfl

theorem vectorAtomic_issues {w home : Bool} {p : BitVec 4} {d o : BitVec 7} {b : BitVec 6} {sc : Bool}
    (hm : atomWord e w home p.toNat d o b sc = m) :
    vectorAtomic w home p d o b sc s = .next (retire m.w e (issueAccess (mapDests s e m) e (accessOf s e m) [])) := by
  subst hm
  refine vectorWord_issues hat hissue (List.cons_ne_nil _ _) hlanes rfl hrel hacq ?_
  simp only [atomSize_eq_zatom, laneVa_eq_vaddr, names_eq_namesOf, data_eq_dataOf, atomWide_eq, atomPair_eq, Bool.decide_eq_true]
  rfl

omit hlanes in
theorem sld_issues {w : Bool} {t : BitVec 3} {d a : BitVec 6} {off : BitVec 9} (hcheck : (Instr.sld w d a t off).check = none)
    (hm : memWord e (.sld w d a t off) = some m) :
    execSld w d a t off s = .next (retire m.w e (issueAccess (mapDests s e m) e (accessOf s e m) [])) := by
  obtain rfl := Option.some.inj hm
  refine scalarWord_issues hat hissue rfl (f := memFields e) rfl hrel hacq rfl rfl ?_
  simp only [sizeOfCode_eq_zcode (code_le_four hcheck), scalarVa_eq]
  rfl

omit hlanes in
theorem sst_issues {w : Bool} {t : BitVec 3} {d a : BitVec 6} {off : BitVec 9} (hcheck : (Instr.sst w d a t off).check = none)
    (hm : memWord e (.sst w d a t off) = some m) :
    execSst w d a t off s = .next (retire m.w e (issueAccess (mapDests s e m) e (accessOf s e m) [])) := by
  obtain rfl := Option.some.inj hm
  refine scalarWord_issues hat hissue rfl (f := memFields e) rfl hrel hacq rfl rfl ?_
  simp only [sizeOfCode_eq_zcode (code_le_three hcheck).step, scalarVa_eq]
  rfl

omit hlanes in
theorem scalarAtomic_issues {w : Bool} {p : BitVec 4} {dest : Dest} {a b : BitVec 6}
    (hm : satomWord e w p.toNat dest a b = m) :
    scalarAtomic w p a b dest s = .next (retire m.w e (issueAccess (mapDests s e m) e (accessOf s e m) [])) := by
  subst hm
  refine scalarWord_issues hat hissue rfl (f := memFields e) rfl hrel hacq rfl rfl ?_
  simp only [atomSize_eq_zatom, atomOperand_eq]
  rfl

end

/-- A memory word that neither releases nor acquires and may issue issues its access, its destinations mapped. -/
theorem exec_memWord {i : Instr} {m : MemWord} (hat : GroupAt s e 1) (hcheck : i.check = none) (hm : memWord e i = some m)
    (hissue : Sys2Proof.mayIssue s e m) (hrel : (memFields e).releases = false) (hacq : (memFields e).acquires = false)
    (hlanes : m.acc.lanes ≠ []) :
    exec i s = .next (retire m.w e (issueAccess (mapDests s e m) e (accessOf s e m) [])) := by
  have near {w nv store : Bool} {z : BitVec 2} {d o : BitVec 7} {b : BitVec 6} {sc : Bool} :=
    near_issues (w := w) (nv := nv) (store := store) (z := z) (d := d) (o := o) (b := b) (sc := sc) hat hrel hacq hissue hlanes
  have hm' := hm
  unfold memWord at hm'
  split at hm'
  case h_1 => exact vld_issues hat hrel hacq hissue hlanes hcheck hm
  case h_2 => exact vst_issues hat hrel hacq hissue hlanes hcheck hm
  case h_3 => exact near (Option.some.inj hm)
  case h_4 => exact near (Option.some.inj hm)
  case h_5 => exact near (Option.some.inj hm)
  case h_6 => exact near (Option.some.inj hm)
  case h_7 => exact vectorAtomic_issues hat hrel hacq hissue hlanes (Option.some.inj hm)
  case h_8 => exact vectorAtomic_issues hat hrel hacq hissue hlanes (Option.some.inj hm)
  case h_9 => exact sld_issues hat hrel hacq hissue hcheck hm
  case h_10 => exact sst_issues hat hrel hacq hissue hcheck hm
  case h_11 w p d a b =>
    rw [exec_satom]
    unfold execSatom
    simp only [atomWide_eq, decide_eq_true_eq]
    exact scalarAtomic_issues hat hrel hacq hissue (Option.some.inj hm)
  case h_12 => exact scalarAtomic_issues hat hrel hacq hissue (Option.some.inj hm)
  case h_13 => cases hm'

end

end Sys2Proof.Machine
end

section
/-! An issued access and its lanes (O24, O26; R187, R284, R285): the team that its issue leaves, the record that it adds, and what
the changes to a lane, to its level and to its team do to that record. -/

namespace Sys2Proof.Machine

/-! ## The team after an issue -/

/-- A team in which group g has other names mapped, none outside a list among those changed, and other rows. -/
def Team.remapped (g : Nat) (ns : List Nat) (T U : Team) : Prop :=
  U.id = T.id ∧ U.res.scr = T.res.scr ∧ (∀ n, n ≠ g → U.groups.get? n = T.groups.get? n) ∧
    ∀ G, T.groups.get? g = some G → ∃ M, U.groups.get? g = some { G with map := M } ∧ ∀ n, n ∉ ns → M.get? n = G.map.get? n

theorem Team.remapped_refl (g : Nat) (ns : List Nat) (T : Team) : T.remapped g ns T :=
  ⟨rfl, rfl, fun _ _ => rfl, fun G hG => ⟨G.map, hG, fun _ _ => rfl⟩⟩

theorem Team.remapped_trans {g : Nat} {ns : List Nat} {T U V : Team} (h : T.remapped g ns U) (h' : U.remapped g ns V) :
    T.remapped g ns V := by
  obtain ⟨hid, hscr, hother, hgroup⟩ := h
  obtain ⟨hid', hscr', hother', hgroup'⟩ := h'
  refine ⟨hid'.trans hid, hscr'.trans hscr, fun n hn => (hother' n hn).trans (hother n hn), fun G hG => ?_⟩
  obtain ⟨M, hM, hkeep⟩ := hgroup G hG
  obtain ⟨M', hM', hkeep'⟩ := hgroup' _ hM
  exact ⟨M', hM', fun n hn => (hkeep' n hn).trans (hkeep n hn)⟩

theorem Team.mapFresh_remapped {g n : Nat} {ns : List Nat} (T : Team) (hn : n ∈ ns) : T.remapped g ns (T.mapFresh g n) := by
  refine ⟨rfl, rfl, fun k hk => Tbl.get?_upd_other _ _ _ _ hk, fun G hG => ?_⟩
  refine ⟨G.map.put n ⟨T.res.nextRow, T.res.seqCtr + 1⟩, ?_, fun k hk => Tbl.get?_put_other _ _ _ _ fun h => hk (h ▸ hn)⟩
  exact (Tbl.get?_upd_same _ _ _).trans (congrArg _ hG)

theorem Team.mapAll_remapped (g : Nat) (ns : List Nat) (T : Team) : T.remapped g ns (T.mapAll g ns) := by
  have hfold : ∀ (l : List Nat) (U : Team), (∀ n ∈ l, n ∈ ns) → U.remapped g ns (l.foldl (fun t n => t.mapFresh g n) U) := by
    intro l
    induction l with
    | nil => exact fun U _ => U.remapped_refl g ns
    | cons n l ih =>
      intro U h
      rw [List.forall_mem_cons] at h
      exact Team.remapped_trans (U.mapFresh_remapped h.1) (ih _ h.2)
  refine hfold _ T fun n hn => ?_
  exact (List.mem_filter.1 (List.mem_eraseDups.1 hn)).1

/-- The rows that an access goes to have one more result in flight. -/
def Team.pendDest (T : Team) : Dest → Team
  | .rows lo hi => let T := T.pendUp lo; match hi with | some h => T.pendUp h | none => T
  | _ => T

theorem Team.pendDest_remapped (g : Nat) (ns : List Nat) (T : Team) (d : Dest) : T.remapped g ns (T.pendDest d) := by
  unfold Team.pendDest
  split
  · split <;> exact ⟨rfl, rfl, fun _ _ => rfl, fun G hG => ⟨G.map, hG, fun _ _ => rfl⟩⟩
  · exact T.remapped_refl g ns

/-- The team of a group that has issued an access: its destinations mapped, its rows and its counter raised. -/
def issuedTeam (e : Env) (m : MemWord) (a : Access) : Team :=
  let T := (if m.reads = [] then e.team else e.team.mapAll e.g m.writes).pendDest a.dest
  { T with groups := T.groups.upd e.g fun g => count g a.counter fun n => n + 1 }

/-- A state in which team t stands as T and access id as a. -/
def accessing (s : State) (t : Nat) (T : Team) (id : Nat) (a : Access) : State :=
  { s with teams := s.teams.put t T, accs := s.accs.put id a }

theorem updGroup_team {s : State} {t g : Nat} {T : Team} (hT : s.teams.get? t = some T) (f : Group → Group) :
    updGroup s t g f = s.setTeam t { T with groups := T.groups.upd g f } := updTeam_of hT _

/-- An access issued in a state that lists its team. -/
theorem issueAccess_in {s : State} {e : Env} {T : Team} (a : Access) (hT : s.teams.get? e.t = some T) (hsplit : s.split = none) :
    issueAccess s e a [] = progress (accessing { s with nextId := s.nextId + 1 } e.t
      { T.pendDest a.dest with groups := (T.pendDest a.dest).groups.upd e.g fun g => count g a.counter fun n => n + 1 } s.nextId a)
      s.nextId [] allLanes := by
  have hT' : ({ s with nextId := s.nextId + 1, accs := s.accs.put s.nextId a } : State).teams.get? e.t = some T := hT
  have hrun (S : State) (hS : S = accessing { s with nextId := s.nextId + 1 } e.t
      { T.pendDest a.dest with groups := (T.pendDest a.dest).groups.upd e.g fun g => count g a.counter fun n => n + 1 } s.nextId a) :
      progress { S with split := none } s.nextId [] (S.split.getD allLanes) = progress S s.nextId [] allLanes := by
    have hnone : S.split = none := by rw [hS]; exact hsplit
    have hS' : ({ S with split := none } : State) = S := by rw [← hnone]
    rw [hS', hnone]
    rfl
  refine (hrun _ ?state).trans (congrArg (progress · s.nextId [] allLanes) ?state)
  unfold Team.pendDest
  cases hd : a.dest with
  | rows lo hi =>
    dsimp only
    rw [updTeam_of hT', updGroup_team (setTeam_get _ _ _), setTeam_setTeam]
    rfl
  | none | scalar | pair => exact updGroup_team hT' _

theorem issueAccess_of {s : State} {e : Env} {m : MemWord} {a : Access} (h : issuer s = .group e) (hsplit : s.split = none) :
    issueAccess (mapDests s e m) e a [] =
      progress (accessing { s with nextId := s.nextId + 1 } e.t (issuedTeam e m a) s.nextId a) s.nextId [] allLanes := by
  obtain ⟨hT, -⟩ := issuer_group h
  unfold mapDests issuedTeam
  by_cases hreads : m.reads = []
  · rw [if_pos hreads, if_pos hreads, issueAccess_in a hT hsplit]
  · rw [if_neg hreads, if_neg hreads, updTeam_of hT, issueAccess_in a (setTeam_get _ _ _) hsplit]
    simp only [accessing, State.setTeam, Tbl.put_put_same]

/-! ## Changes of the record -/

/-- An access that has reached a level (R411). -/
def Access.reach (a : Access) (lvl : Nat) : Access := if a.level % 16 < lvl % 16 then { a with level := lvl } else a

@[simp] theorem Access.reach_lanes (a : Access) (lvl : Nat) : (a.reach lvl).lanes = a.lanes := by unfold reach; split <;> rfl
@[simp] theorem Access.reach_team (a : Access) (lvl : Nat) : (a.reach lvl).team = a.team := by unfold reach; split <;> rfl

/-- The park of a group that awaits a slow access is long (R44). -/
def Team.slowed (T : Team) (a : Access) : Team :=
  { T with groups := T.groups.upd a.group fun grp =>
      if grp.park && a.slow && a.awaited a.team a.group then { grp with longPark := true } else grp }

/-- A record with other lanes. -/
def Access.withLanes (a : Access) (ls : List LaneAcc) : Access := { a with lanes := ls }

@[simp] theorem Access.withLanes_lanes (a : Access) (ls : List LaneAcc) : (a.withLanes ls).lanes = ls := rfl
@[simp] theorem Access.withLanes_team (a : Access) (ls : List LaneAcc) : (a.withLanes ls).team = a.team := rfl
@[simp] theorem Access.withLanes_withLanes (a : Access) (ls ls' : List LaneAcc) : (a.withLanes ls).withLanes ls' = a.withLanes ls' := rfl
theorem Access.reach_withLanes (a : Access) (ls : List LaneAcc) (lvl : Nat) :
    (a.withLanes ls).reach lvl = (a.reach lvl).withLanes ls := by
  unfold reach withLanes; split <;> rfl

section
variable (s : State) (t : Nat) (T : Team) (id : Nat) (a : Access)

@[simp] theorem accessing_team : (accessing s t T id a).teams.get? t = some T := Tbl.get?_put_same _ _ _
@[simp] theorem accessing_acc : (accessing s t T id a).accs.get? id = some a := Tbl.get?_put_same _ _ _

theorem accessing_updTeam (f : Team → Team) : updTeam (accessing s t T id a) t f = accessing s t (f T) id a := by
  rw [updTeam_of (accessing_team s t T id a)]
  unfold State.setTeam accessing
  simp only [Tbl.put_put_same]

theorem accessing_updAcc (f : Access → Access) :
    { accessing s t T id a with accs := (accessing s t T id a).accs.upd id f } = accessing s t T id (f a) := by
  rw [Tbl.upd_of (accessing_acc s t T id a)]
  unfold accessing
  simp only [Tbl.put_put_same]

theorem accessing_setLane (l : LaneAcc) : setLane (accessing s t T id a) id l =
    accessing s t T id (a.withLanes (a.lanes.map fun x => if x.lane = l.lane then l else x)) := accessing_updAcc s t T id a _

theorem accessing_noteLevel (hteam : a.team = t) (lvl : Nat) :
    noteLevel (accessing s t T id a) id lvl = accessing s t (T.slowed (a.reach lvl)) id (a.reach lvl) := by
  have hupd : { accessing s t T id a with accs := (accessing s t T id a).accs.upd id fun a =>
      if a.level % 16 < lvl % 16 then { a with level := lvl } else a } = accessing s t T id (a.reach lvl) :=
    accessing_updAcc s t T id a _
  unfold noteLevel
  rw [hupd]
  simp only [accessing_acc]
  have hteam' : (a.reach lvl).team = t := (a.reach_team lvl).trans hteam
  subst hteam'
  exact accessing_updTeam s _ T id (a.reach lvl) _

end

/-- A lane's record replaced among lanes of which no other has its number. -/
theorem map_setLane {pre rest : List LaneAcc} {l l' : LaneAcc} (hlane : l'.lane = l.lane)
    (hnodup : ((pre ++ l :: rest).map (·.lane)).Nodup) :
    ((pre ++ l :: rest).map fun x => if x.lane = l'.lane then l' else x) = pre ++ l' :: rest := by
  rw [List.map_append, List.map_cons, List.nodup_append] at hnodup
  obtain ⟨-, hrest, hpre⟩ := hnodup
  have hkeep (ls : List LaneAcc) (h : ∀ x ∈ ls, x.lane ≠ l.lane) : (ls.map fun x => if x.lane = l'.lane then l' else x) = ls := by
    refine (List.map_congr_left fun x hx => ?_).trans (List.map_id ls)
    rw [hlane, if_neg (h x hx)]
    rfl
  rw [List.map_append, List.map_cons, hlane, if_pos rfl, ← hlane, hkeep pre, hkeep rest]
  · exact fun x hx heq => (List.nodup_cons.1 hrest).1 (heq ▸ List.mem_map_of_mem hx)
  · exact fun x hx heq => hpre _ (List.mem_map_of_mem hx) _ List.mem_cons_self heq

/-! ## The lanes in order -/

/-- A load, store or atomic, relaxed or in home order, of a group that goes on. -/
structure Access.plain (a : Access) : Prop where
  kind : a.kind = .load ∨ a.kind = .store ∨ a.kind = .atomic
  order : a.order = 0 ∨ a.order = 4
  parked : a.parked = false

/-- Its completion does nothing more. -/
theorem completeAccess_of_plain {s : State} {id : Nat} {a : Access} (ha : s.accs.get? id = some a) (h : a.plain) :
    completeAccess s id = s := by
  have hcache : (a.kind == .cache) = false := by rcases h.kind with hk | hk | hk <;> rw [hk] <;> rfl
  have horder : (a.order == 1 || a.order == 3) = false := by rcases h.order with ho | ho <;> rw [ho] <;> rfl
  unfold completeAccess
  rw [ha, Option.bind_some]
  cases s.teams.get? a.team with
  | none => rfl
  | some team => simp [h.parked, hcache, horder]

/-- A lane that has not started, at an address that is no synonym. -/
def LaneAcc.fresh (l : LaneAcc) : Prop := l.st = .todo ∧ l.lane < 96 ∧ regionOf l.va ≠ .synonym

theorem goes_of_fresh (s : State) (id : Nat) {a : Access} (team : Team) (hplain : a.plain) (hfresh : ∀ l ∈ a.lanes, l.fresh)
    {l : LaneAcc} (hl : l ∈ a.lanes) : a.goes s id team allLanes l = true := by
  have hall {l : LaneAcc} (hl : l ∈ a.lanes) : allLanes.getLsbD l.lane = true := by
    obtain ⟨-, hlt, -⟩ := hfresh l hl
    unfold allLanes
    rw [BitVec.getLsbD_allOnes, decide_eq_true hlt]
  have hnone : (a.lanes.any fun k => k.lane < l.lane && (overlaps k.va a.size l.va a.size || a.bothSend s team k l) &&
      match k.st with
      | .todo => !allLanes.getLsbD k.lane
      | .out => askedFor s id k.va
      | .done => false) = false :=
    List.any_eq_false.2 fun k hk => by
      obtain ⟨htodo, -, -⟩ := hfresh k hk
      simp [htodo, hall hk]
  unfold Access.goes
  rcases hplain.kind with hk | hk | hk
  · rw [hk]
    exact List.any_eq_true.2 ⟨l, hl, by simp [hall hl]⟩
  · rw [hk]
    exact Bool.and_eq_true_iff.2 ⟨hall hl, congrArg not hnone⟩
  · rw [hk]
    exact Bool.and_eq_true_iff.2 ⟨hall hl, congrArg not hnone⟩

theorem resolveLanes_of_fresh (s : State) (id : Nat) {a : Access} (team : Team) (hfresh : ∀ l ∈ a.lanes, l.fresh) :
    resolveLanes s id a team = (true, s) :=
  foldl_eq_self fun l hl => by
    obtain ⟨-, -, hregion⟩ := hfresh l hl
    simp [hregion]

/-- The lanes of an access at addresses that are no synonyms are tried one after another. -/
theorem progress_of_fresh {s : State} {t : Nat} {T : Team} {id : Nat} {a : Access} (hteam : a.team = t) (hplain : a.plain)
    (hfresh : ∀ l ∈ a.lanes, l.fresh) : progress (accessing s t T id a) id [] allLanes =
      completeAccess (a.lanes.foldl (fun u l => tryLane u id a T [] l) (accessing s t T id a)) id := by
  subst hteam
  have hfilter (u : State) : (a.lanes.filter fun l => l.st == .todo && a.goes u id T allLanes l) = a.lanes :=
    List.filter_eq_self.2 fun l hl => by
      obtain ⟨htodo, -, -⟩ := hfresh l hl
      simp [htodo, goes_of_fresh u id T hplain hfresh hl]
  unfold progress
  simp only [accessing_acc, Option.bind_some, accessing_team, resolveLanes_of_fresh _ _ _ hfresh, hfilter]

end Sys2Proof.Machine
end

section
/-! The access of a memory word and what its checks give (O24, O26; R281 to R293). -/

namespace Sys2Proof.Machine

/-- What every memory word's access is at its issue. -/
structure Access.atIssue (e : Env) (a : Access) : Prop where
  team : a.team = e.t
  group : a.group = e.g
  kind : a.kind = .load ∨ a.kind = .store ∨ a.kind = .atomic
  order : a.order = (memFields e).order
  scope : a.scope = (memFields e).scope
  space : a.space = (memFields e).space ∨ a.space = 0
  cache : a.cache = (memFields e).cache ∨ a.cache = 0
  parked : a.parked = false
  level : a.level = 0
  size : a.size = 1 ∨ a.size = 2 ∨ a.size = 4 ∨ a.size = 8
  todo : ∀ l ∈ a.lanes, l.st = .todo ∧ l.lane < 96
  nodup : (a.lanes.map (·.lane)).Nodup

theorem vlanes_todo (e : Env) (va : Nat → Nat) (x : Nat → Dword) (c : Nat → Word) :
    ∀ l ∈ vlanes e va x c, l.st = .todo ∧ l.lane < 96 := by
  intro l hl
  obtain ⟨k, hk, rfl⟩ := List.mem_map.1 hl
  exact ⟨rfl, List.mem_range.1 (List.mem_filter.1 hk).1⟩

theorem vlanes_nodup (e : Env) (va : Nat → Nat) (x : Nat → Dword) (c : Nat → Word) : ((vlanes e va x c).map (·.lane)).Nodup := by
  have hlanes : (vlanes e va x c).map (·.lane) = lanesOf e.path.mask := by simp [vlanes, Function.comp_def]
  rw [hlanes]
  exact List.nodup_range.filter _

theorem slane_todo (va : Nat) (x : Dword) (c : Word) : ∀ l ∈ slane va x c, l.st = .todo ∧ l.lane < 96 := by simp [slane]
theorem slane_nodup (va : Nat) (x : Dword) (c : Word) : ((slane va x c).map (·.lane)).Nodup := by simp [slane]

theorem zcode_cases {t : Nat} (h : t ≤ 4) : zcode t = 1 ∨ zcode t = 2 ∨ zcode t = 4 ∨ zcode t = 8 := by
  interval_cases t <;> decide

theorem zatom_cases (op : Nat) : zatom op = 1 ∨ zatom op = 2 ∨ zatom op = 4 ∨ zatom op = 8 := by
  unfold zatom; split <;> decide

theorem nearWord_atIssue (e : Env) (w nv store : Bool) (z : BitVec 2) (d o : BitVec 7) (b : BitVec 6) (sc : Bool) :
    (nearWord e w nv store z d o b sc).acc.atIssue e :=
  ⟨rfl, rfl, by cases store; exacts [.inl rfl, .inr (.inl rfl)], rfl, rfl, .inr rfl, .inr rfl, rfl, rfl, zcode_cases z.isLt.le, vlanes_todo e _ _ _,
    vlanes_nodup e _ _ _⟩

theorem atomWord_atIssue (e : Env) (w home : Bool) (op : Nat) (d o : BitVec 7) (b : BitVec 6) (sc : Bool) :
    (atomWord e w home op d o b sc).acc.atIssue e :=
  ⟨rfl, rfl, .inr (.inr rfl), rfl, rfl, .inl rfl, .inl rfl, rfl, rfl, zatom_cases op, vlanes_todo e _ _ _, vlanes_nodup e _ _ _⟩

theorem satomWord_atIssue (e : Env) (w : Bool) (op : Nat) (dest : Dest) (a b : BitVec 6) :
    (satomWord e w op dest a b).acc.atIssue e :=
  ⟨rfl, rfl, .inr (.inr rfl), rfl, rfl, .inl rfl, .inl rfl, rfl, rfl, zatom_cases op, slane_todo _ _ _, slane_nodup _ _ _⟩

theorem memWord_atIssue {e : Env} {i : Instr} {m : MemWord} (hcheck : i.check = none) (hm : memWord e i = some m) : m.acc.atIssue e := by
  unfold memWord at hm
  split at hm
  case h_13 => cases hm
  all_goals obtain rfl := Option.some.inj hm
  case h_1 => exact ⟨rfl, rfl, .inl rfl, rfl, rfl, .inl rfl, .inl rfl, rfl, rfl, zcode_cases (code_le_four hcheck), vlanes_todo e _ _ _,
    vlanes_nodup e _ _ _⟩
  case h_2 => exact ⟨rfl, rfl, .inr (.inl rfl), rfl, rfl, .inl rfl, .inl rfl, rfl, rfl, zcode_cases (code_le_three hcheck).step,
    vlanes_todo e _ _ _, vlanes_nodup e _ _ _⟩
  case h_9 => exact ⟨rfl, rfl, .inl rfl, rfl, rfl, .inl rfl, .inl rfl, rfl, rfl, zcode_cases (code_le_four hcheck), slane_todo _ _ _,
    slane_nodup _ _ _⟩
  case h_10 => exact ⟨rfl, rfl, .inr (.inl rfl), rfl, rfl, .inl rfl, .inl rfl, rfl, rfl, zcode_cases (code_le_three hcheck).step,
    slane_todo _ _ _, slane_nodup _ _ _⟩
  case h_7 | h_8 => exact atomWord_atIssue ..
  case h_11 | h_12 => exact satomWord_atIssue ..
  all_goals exact nearWord_atIssue ..

/-- Lanes that pass the checks of R283 lie below 2^60 and are aligned. -/
theorem checkLanes_none {s : State} {e : Env} {space z : Nat} {write : Bool} {extra : LaneAcc → Bool} {ls : List LaneAcc}
    (h : checkLanes s e space z write extra ls = none) : ∀ l ∈ ls, l.va < 2 ^ 60 ∧ l.va % z = 0 := by
  unfold checkLanes at h
  split at h
  · cases h
  · next hrange =>
    split at h
    · cases h
    · next halign =>
      intro l hl
      have hr := List.find?_eq_none.1 hrange l hl
      have ha := List.find?_eq_none.1 halign l hl
      simp only [decide_eq_true_eq, not_le, bne_iff_ne, ne_eq, not_not] at hr ha
      exact ⟨hr, ha⟩

/-- An aligned access of a lane does not leave its sector. -/
theorem aligned_in_sector {va z : Nat} (hz : z = 1 ∨ z = 2 ∨ z = 4 ∨ z = 8) (h : va % z = 0) : va % 64 + z ≤ 64 := by
  rcases hz with rfl | rfl | rfl | rfl <;> omega

/-! ## What an access leaves beside its team -/

/-- The retirement of a word changes teams only, but for its switch marker. -/
theorem retire_teams (w : Bool) (e : Env) (s : State) : ∃ u, retire w e s = marked w e u ∧ u = { s with teams := u.teams } := by
  unfold retire
  dsimp only
  split
  · exact ⟨_, rfl, rfl⟩
  · exact ⟨_, rfl, rfl⟩

/-- The access that is issued is the word's, but for the rows that its destinations map. -/
theorem accessOf_eq (s : State) (e : Env) (m : MemWord) : ∃ d, accessOf s e m = { m.acc with dest := d } := by
  unfold accessOf
  split
  · exact ⟨m.acc.dest, rfl⟩
  · exact ⟨_, rfl⟩

section
variable (s : State) (e : Env) (m : MemWord)

@[simp] theorem accessOf_lanes : (accessOf s e m).lanes = m.acc.lanes := by obtain ⟨d, h⟩ := accessOf_eq s e m; rw [h]
@[simp] theorem accessOf_kind : (accessOf s e m).kind = m.acc.kind := by obtain ⟨d, h⟩ := accessOf_eq s e m; rw [h]
@[simp] theorem accessOf_size : (accessOf s e m).size = m.acc.size := by obtain ⟨d, h⟩ := accessOf_eq s e m; rw [h]
@[simp] theorem accessOf_order : (accessOf s e m).order = m.acc.order := by obtain ⟨d, h⟩ := accessOf_eq s e m; rw [h]
@[simp] theorem accessOf_op : (accessOf s e m).op = m.acc.op := by obtain ⟨d, h⟩ := accessOf_eq s e m; rw [h]

theorem accessOf_atIssue (h : m.acc.atIssue e) : (accessOf s e m).atIssue e := by
  obtain ⟨d, ha⟩ := accessOf_eq s e m
  rw [ha]
  exact ⟨h.team, h.group, h.kind, h.order, h.scope, h.space, h.cache, h.parked, h.level, h.size, h.todo, h.nodup⟩

end

/-- A relaxed or home-order access. -/
theorem Access.atIssue.plain {e : Env} {a : Access} (h : a.atIssue e) (horder : (memFields e).order = 0 ∨ (memFields e).order = 4) :
    a.plain := ⟨h.kind, h.order ▸ horder, h.parked⟩

section
variable {s : State} {e : Env} {i : Instr} {m : MemWord} (hat : GroupAt s e 1) (hcheck : i.check = none) (hm : memWord e i = some m)
  (hissue : Sys2Proof.mayIssue s e m) (hsplit : s.split = none) (horder : (memFields e).order = 0 ∨ (memFields e).order = 4)
  (hlanes : m.acc.lanes ≠ [])
include hat hcheck hm hissue hsplit horder hlanes

/-- A memory word that neither releases nor acquires, at addresses that are no synonyms: its lanes are tried one after another. -/
theorem exec_memWord_lanes (hregion : ∀ l ∈ m.acc.lanes, regionOf l.va ≠ .synonym) :
    let a := accessOf s e m
    let T := issuedTeam e m a
    exec i s = .next (retire m.w e (completeAccess (m.acc.lanes.foldl (fun u l => tryLane u s.nextId a T [] l)
      (accessing { s with nextId := s.nextId + 1 } e.t T s.nextId a)) s.nextId)) := by
  have hform := accessOf_atIssue s e m (memWord_atIssue hcheck hm)
  have hrel : (memFields e).releases = false := by rcases horder with h | h <;> rw [MemF.releases, h] <;> rfl
  have hacq : (memFields e).acquires = false := by rcases horder with h | h <;> rw [MemF.acquires, h] <;> rfl
  have hfresh : ∀ l ∈ (accessOf s e m).lanes, l.fresh := fun l hl =>
    ⟨(hform.todo l hl).1, (hform.todo l hl).2, hregion l (accessOf_lanes s e m ▸ hl)⟩
  dsimp only
  rw [exec_memWord hat hcheck hm hissue hrel hacq hlanes, issueAccess_of hat.1 hsplit, progress_of_fresh hform.team (hform.plain horder) hfresh,
    accessOf_lanes]

end

end Sys2Proof.Machine
end

section
/-! A relaxed access to the scratchpad (O24; R76, R288 to R290): its lanes are performed one after another on the team's bytes. -/

namespace Sys2Proof.Machine

/-! ## The team -/

theorem issuedTeam_remapped {s : State} {e : Env} (h : issuer s = .group e) (m : MemWord) (a : Access) :
    (issuedTeam e m a).id = e.team.id ∧ (issuedTeam e m a).res.scr = e.team.res.scr ∧
      (∀ n, n ≠ e.g → (issuedTeam e m a).groups.get? n = e.team.groups.get? n) ∧
      ∃ M, (issuedTeam e m a).groups.get? e.g = some (count { e.grp with map := M } a.counter fun n => n + 1) ∧
        ∀ n, n ∉ m.writes → M.get? n = e.grp.map.get? n := by
  obtain ⟨-, hG, -⟩ := issuer_group h
  have hmap : e.team.remapped e.g m.writes (if m.reads = [] then e.team else e.team.mapAll e.g m.writes) := by
    split
    · exact Team.remapped_refl _ _ _
    · exact Team.mapAll_remapped _ _ _
  obtain ⟨hid, hscr, hother, hgroup⟩ := Team.remapped_trans hmap (Team.pendDest_remapped e.g m.writes _ a.dest)
  obtain ⟨M, hM, hkeep⟩ := hgroup e.grp hG
  refine ⟨hid, hscr, fun n hn => (Tbl.get?_upd_other _ _ _ _ hn).trans (hother n hn), M, ?_, hkeep⟩
  exact (Tbl.get?_upd_same _ _ _).trans (congrArg _ hM)

/-- A team in which group g may stand in a longer park. -/
def Team.parkOnly (g : Nat) (T U : Team) : Prop :=
  U.id = T.id ∧ U.res = T.res ∧ (∀ n, n ≠ g → U.groups.get? n = T.groups.get? n) ∧
    ∀ G, T.groups.get? g = some G → ∃ b, U.groups.get? g = some { G with longPark := b }

theorem Team.parkOnly_refl (g : Nat) (T : Team) : T.parkOnly g T := ⟨rfl, rfl, fun _ _ => rfl, fun G hG => ⟨G.longPark, hG⟩⟩

theorem Team.parkOnly_trans {g : Nat} {T U V : Team} (h : T.parkOnly g U) (h' : U.parkOnly g V) : T.parkOnly g V := by
  obtain ⟨hid, hres, hother, hgroup⟩ := h
  obtain ⟨hid', hres', hother', hgroup'⟩ := h'
  refine ⟨hid'.trans hid, hres'.trans hres, fun n hn => (hother' n hn).trans (hother n hn), fun G hG => ?_⟩
  obtain ⟨b, hb⟩ := hgroup G hG
  obtain ⟨b', hb'⟩ := hgroup' _ hb
  exact ⟨b', hb'⟩

theorem Team.slowed_parkOnly (T : Team) (a : Access) : T.parkOnly a.group (T.slowed a) := by
  refine ⟨rfl, rfl, fun n hn => Tbl.get?_upd_other _ _ _ _ hn, fun G hG => ?_⟩
  have hslow : (T.slowed a).groups.get? a.group = _ := (Tbl.get?_upd_same _ _ _).trans (congrArg _ hG)
  rw [hslow]
  by_cases hlong : (G.park && a.slow && a.awaited a.team a.group) = true
  · exact ⟨true, by rw [Option.map_some, if_pos hlong]⟩
  · exact ⟨G.longPark, by rw [Option.map_some, if_neg hlong]⟩

/-- What is true of a team's bytes and groups stays true with other bytes. -/
theorem Team.parkOnly_withScr {g : Nat} {T U : Team} (h : T.parkOnly g U) (m : Memory) : (T.withScr m).parkOnly g (U.withScr m) := by
  obtain ⟨hid, hres, hother, hgroup⟩ := h
  refine ⟨hid, ?_, hother, hgroup⟩
  unfold Team.withScr
  rw [hres]

/-! ## One lane -/

/-- A lane performed on a scratchpad: the memory after it, and the lane with what it returns. -/
def bankMem (a : Access) (l : LaneAcc) (m : Memory) : Memory :=
  match a.kind with
  | .store => m.store (l.va - scratchBase) a.size (l.x.toNat % 2 ^ (8 * a.size))
  | .atomic => m.store (l.va - scratchBase) a.size (atomNew a.op (m.load (l.va - scratchBase) a.size) l.x l.e)
  | _ => m
def bankLane (a : Access) (l : LaneAcc) (m : Memory) : LaneAcc :=
  { l with st := .done, val := loaded a.size a.sext (if a.kind = .store then 0 else m.load (l.va - scratchBase) a.size) }

theorem scrLanes_cons (a : Access) (l : LaneAcc) (rest : List LaneAcc) (m : Memory) : scrLanes a (l :: rest) m =
    ((scrLanes a rest (bankMem a l m)).1, bankLane a l m :: (scrLanes a rest (bankMem a l m)).2) := rfl

/-- The destination of an access is nothing to its lanes. -/
theorem scrLanes_dest (a : Access) (d : Dest) (ls : List LaneAcc) (m : Memory) : scrLanes { a with dest := d } ls m = scrLanes a ls m := by
  induction ls generalizing m with
  | nil => rfl
  | cons l ls ih => rw [scrLanes_cons, scrLanes_cons, ← ih]; rfl

/-- A byte that no lane stores to. -/
theorem get_scrLanes {a : Access} {ls : List LaneAcc} {b : Nat}
    (h : a.kind = .load ∨ ∀ l ∈ ls, b < l.va - scratchBase ∨ l.va - scratchBase + a.size ≤ b) (m : Memory) :
    (scrLanes a ls m).1.get b = m.get b := by
  induction ls generalizing m with
  | nil => rfl
  | cons l ls ih =>
    rw [scrLanes_cons]
    refine (ih (h.imp_right fun h l hl => h l (List.mem_cons_of_mem _ hl)) _).trans ?_
    unfold bankMem
    rcases h with hload | hclear
    · rw [hload]
    · split
      · exact Memory.get_store_other _ _ _ _ _ (hclear l List.mem_cons_self)
      · exact Memory.get_store_other _ _ _ _ _ (hclear l List.mem_cons_self)
      · rfl

theorem regionOf_scratch {va : Nat} (hlo : scratchBase ≤ va) (hhi : va < vaultBase) : regionOf va = .scratch (va - scratchBase) := by
  have hbase : synonymBase ≤ scratchBase := by decide
  unfold regionOf
  rw [if_neg (by omega), if_neg (by omega), if_pos hhi]

section
variable {s : State} {t id : Nat} {a : Access} (hteam : a.team = t) (hkind : a.kind = .load ∨ a.kind = .store ∨ a.kind = .atomic)
include hteam hkind

theorem tryLane_scratch {T V : Team} {b : Access} (hteam' : b.team = t) {l : LaneAcc} (hlo : scratchBase ≤ l.va) (hhi : l.va < vaultBase) :
    tryLane (accessing s t T id b) id a V [] l = accessing s t ((T.withScr (bankMem a l T.res.scr)).slowed (b.reach 2)) id
      ((b.reach 2).withLanes ((b.reach 2).lanes.map fun x => if x.lane = l.lane then bankLane a l T.res.scr else x)) := by
  subst hteam
  unfold tryLane
  rw [regionOf_scratch hlo hhi]
  have hread : scrRead (accessing s a.team T id b) a.team (l.va - scratchBase) a.size = T.res.scr.load (l.va - scratchBase) a.size :=
    scrRead_of (accessing_team ..) _ _
  have hwrite (x : Nat) : scrWrite (accessing s a.team T id b) a.team (l.va - scratchBase) a.size x =
      accessing s a.team (T.withScr (T.res.scr.store (l.va - scratchBase) a.size x)) id b := accessing_updTeam s a.team T id b _
  unfold bankMem bankLane
  rcases hkind with hk | hk | hk
  all_goals simp only [hk, laneAtBank, hread, hwrite, accessing_noteLevel _ _ _ _ _ hteam', accessing_setLane]
  all_goals rfl

/-- The lanes of an access to the scratchpad, in order: the lanes before them are performed, the access has reached level 2 once one
is. -/
theorem foldl_tryLane_scratch (V : Team) (rest : List LaneAcc) : ∀ (pre : List LaneAcc) (T : Team) (lvl : Nat), lvl = 0 ∨ lvl = 2 →
    ((pre ++ rest).map (·.lane)).Nodup → (∀ l ∈ rest, scratchBase ≤ l.va ∧ l.va < vaultBase) →
    ∃ U, rest.foldl (fun u l => tryLane u id a V [] l) (accessing s t T id { a with lanes := pre ++ rest, level := lvl }) =
        accessing s t U id { a with
          lanes := pre ++ (scrLanes a rest T.res.scr).2, level := if rest = [] then lvl else 2 } ∧
      (T.withScr (scrLanes a rest T.res.scr).1).parkOnly a.group U := by
  induction rest with
  | nil => exact fun pre T lvl _ _ _ => ⟨T, rfl, Team.parkOnly_refl _ _⟩
  | cons l rest ih =>
    intro pre T lvl hlvl hnodup hscr
    rw [List.forall_mem_cons] at hscr
    obtain ⟨⟨hlo, hhi⟩, hrest⟩ := hscr
    have hreach : ({ a with lanes := pre ++ l :: rest, level := lvl } : Access).reach 2 = { a with lanes := pre ++ l :: rest, level := 2 } := by
      unfold Access.reach
      rcases hlvl with rfl | rfl <;> rfl
    have hset := map_setLane (l := l) (l' := bankLane a l T.res.scr) rfl hnodup
    have hnodup' : ((pre ++ [bankLane a l T.res.scr] ++ rest).map (·.lane)).Nodup := by
      simpa [bankLane] using hnodup
    obtain ⟨U, hfold, hpark⟩ := ih (pre ++ [bankLane a l T.res.scr])
      ((T.withScr (bankMem a l T.res.scr)).slowed { a with lanes := pre ++ l :: rest, level := 2 }) 2 (.inr rfl) hnodup' hrest
    refine ⟨U, ?_, ?_⟩
    · rw [List.foldl_cons, tryLane_scratch (b := { a with lanes := pre ++ l :: rest, level := lvl }) hteam hkind hteam hlo hhi,
        hreach]
      have hlane : ({ a with lanes := pre ++ l :: rest, level := 2 } : Access).withLanes ((pre ++ l :: rest).map fun x =>
          if x.lane = l.lane then bankLane a l T.res.scr else x) =
          { a with lanes := pre ++ [bankLane a l T.res.scr] ++ rest, level := 2 } := by
        unfold Access.withLanes
        rw [List.append_assoc]
        exact congrArg (fun ls => { a with lanes := ls, level := 2 }) hset
      rw [hlane, hfold, scrLanes_cons, List.append_assoc]
      simp only [ite_self, List.singleton_append, reduceCtorEq, if_false]
      rfl
    · have hslow := Team.parkOnly_withScr (Team.slowed_parkOnly (T.withScr (bankMem a l T.res.scr))
        { a with lanes := pre ++ l :: rest, level := 2 }) (scrLanes a rest (bankMem a l T.res.scr)).1
      rw [Team.withScr_withScr] at hslow
      exact Team.parkOnly_trans hslow hpark

end

/-! ## The rule -/

/-- The counters that an access raises at its issue (R187). -/
theorem count_counters (e : Env) (M : Tbl Mapped) {a : Access} (hkind : a.kind = .load ∨ a.kind = .store ∨ a.kind = .atomic) :
    let G := count { e.grp with map := M } a.counter fun n => n + 1
    G.ldcnt = e.grp.ldcnt + (if a.kind = .load ∨ a.kind = .atomic ∧ a.dest ≠ .none then 1 else 0) ∧
      G.stcnt = e.grp.stcnt + (if a.kind = .store ∨ a.kind = .atomic ∧ a.dest = .none then 1 else 0) := by
  unfold Access.counter
  rcases hkind with hk | hk | hk
  · simp [hk, count]
  · simp [hk, count]
  · by_cases hd : a.dest = .none
    · simp [hk, hd, count]
    · have hdest : (a.dest != .none) = true := bne_iff_ne.2 hd
      simp [hk, hd, hdest, count]

/-- What it leaves of its group besides. -/
theorem count_frame (e : Env) (M : Tbl Mapped) (c : Option Bool) :
    let G := count { e.grp with map := M } c fun n => n + 1
    G.s = e.grp.s ∧ G.p = e.grp.p ∧ G.fflags = e.grp.fflags ∧ G.map = M ∧ G.paths = e.grp.paths := by
  rcases c with _ | _ | _ <;> exact ⟨rfl, rfl, rfl, rfl, rfl⟩

/-- A relaxed access to the scratchpad is performed in its step: its lanes are done, and its team has their bytes. -/
theorem exec_scratchWord {s : State} {e : Env} {i : Instr} {m : MemWord} (hat : GroupAt s e 1) (hcheck : i.check = none)
    (hm : memWord e i = some m) (hissue : Sys2Proof.mayIssue s e m) (hsplit : s.split = none) (horder : (memFields e).order = 0)
    (hlanes : m.acc.lanes ≠ []) (hscr : ∀ l ∈ m.acc.lanes, scratchBase ≤ l.va ∧ l.va < vaultBase) :
    ∃ U, exec i s = .next (retire m.w e (accessing { s with nextId := s.nextId + 1 } e.t U s.nextId
        { accessOf s e m with lanes := (scrLanes m.acc m.acc.lanes e.team.res.scr).2, level := 2 })) ∧
      ((issuedTeam e m (accessOf s e m)).withScr (scrLanes m.acc m.acc.lanes e.team.res.scr).1).parkOnly e.g U := by
  have hform := accessOf_atIssue s e m (memWord_atIssue hcheck hm)
  have hplain := hform.plain (.inl horder)
  have hsame (ls : List LaneAcc) (mem : Memory) : scrLanes (accessOf s e m) ls mem = scrLanes m.acc ls mem := by
    obtain ⟨d, ha⟩ := accessOf_eq s e m
    rw [ha, scrLanes_dest]
  have hregion : ∀ l ∈ m.acc.lanes, regionOf l.va ≠ .synonym := fun l hl => by
    rw [regionOf_scratch (hscr l hl).1 (hscr l hl).2]
    exact nofun
  have hexec := exec_memWord_lanes hat hcheck hm hissue hsplit (.inl horder) hlanes hregion
  dsimp only at hexec
  obtain ⟨-, hres, -⟩ := issuedTeam_remapped hat.1 m (accessOf s e m)
  have hlanes' := accessOf_lanes s e m
  generalize accessOf s e m = a at *
  have hinit : a = { a with lanes := [] ++ m.acc.lanes, level := 0 } := by
    rw [← hlanes', ← hform.level]
    rfl
  obtain ⟨U, hfold, hpark⟩ := foldl_tryLane_scratch (s := { s with nextId := s.nextId + 1 }) (id := s.nextId)
    hform.team hform.kind (issuedTeam e m a) m.acc.lanes [] (issuedTeam e m a) 0 (.inl rfl) (hlanes' ▸ hform.nodup) hscr
  have hdone : ({ a with lanes := (scrLanes m.acc m.acc.lanes e.team.res.scr).2, level := 2 } : Access).plain :=
    ⟨hplain.kind, hplain.order, hplain.parked⟩
  rw [← hinit, if_neg hlanes, List.nil_append, hsame, hres] at hfold
  rw [hfold, completeAccess_of_plain (accessing_acc ..) hdone] at hexec
  rw [hsame, hres, hform.group] at hpark
  exact ⟨U, hexec, hpark⟩

theorem scratchpadAccess : scratchpadAccessRule := by
  intro s e i m hat hcheck hm hissue hsplit horder hlanes hscr
  have hform := accessOf_atIssue s e m (memWord_atIssue hcheck hm)
  obtain ⟨-, -, hP, -⟩ := issuer_group hat.1
  obtain ⟨U, hexec, -, hres, hUothers, hUgroup⟩ := exec_scratchWord hat hcheck hm hissue hsplit horder hlanes hscr
  obtain ⟨-, -, hothers, M, hM, hkeep⟩ := issuedTeam_remapped hat.1 m (accessOf s e m)
  obtain ⟨hld, hst⟩ := count_counters e M hform.kind
  obtain ⟨hs, hp, hflags, hmap, hpaths⟩ := count_frame e M (accessOf s e m).counter
  rw [accessOf_kind] at hld hst
  obtain ⟨b, hb⟩ := hUgroup _ hM
  have hpath := (congrArg (fun t : Tbl Path => t.get? e.p) hpaths).trans hP
  refine ⟨_, _, hexec.trans (congrArg _ (retire_of m.w (accessing_team ..) hb hpath)), rfl, ?_, ?_, ?_, setTeam_get _ _ _, ?_, ?_, ?_, _,
    setGroup_get _ _ _, hs, hp, hflags, ?_, hld, hst, ?_, e.path.advance, setPath_get _ _ _, rfl⟩
  · exact Tbl.get?_put_same _ _ _
  · exact fun n hn => Tbl.get?_put_other _ _ _ _ hn
  · exact fun n hn => (setTeam_get_other _ _ _ _ hn).trans (Tbl.get?_put_other _ _ _ _ hn)
  · exact congrArg TeamRes.scr hres
  · exact fun b hb => (congrArg (fun r : TeamRes => r.scr.get b) hres).trans (get_scrLanes hb _)
  · exact fun n hn => (setGroup_get_other _ _ _ _ hn).trans ((hUothers n hn).trans (hothers n hn))
  · exact fun n hn => (congrArg (fun t : Tbl Mapped => t.get? n) hmap).trans (hkeep n hn)
  · exact fun n hn => (setPath_get_other _ _ _ _ hn).trans (congrArg (fun t : Tbl Path => t.get? n) hpaths)

end Sys2Proof.Machine
end

section
/-! A relaxed or home-order access to a vault (O24; R77, R107): each lane sends a request, or waits for one that its access has sent. -/

namespace Sys2Proof.Machine

theorem Tbl.mem_of_mem_put {α : Type} {t : Tbl α} {k : Nat} {v : α} {x : Nat × α} (h : x ∈ t.put k v) : x = (k, v) ∨ x ∈ t := by
  induction t with
  | nil => exact .inl (by simpa [Tbl.put] using h)
  | cons y t ih =>
    unfold Tbl.put at h
    split at h
    · exact (List.mem_cons.1 h).imp_right id
    · split at h
      · exact (List.mem_cons.1 h).imp_right (List.mem_cons_of_mem _)
      · rcases List.mem_cons.1 h with rfl | h
        · exact .inr List.mem_cons_self
        · exact (ih h).imp_right (List.mem_cons_of_mem _)

/-! ## Operands -/

/-- A byte of a number cut to n bytes. -/
theorem byte_mod (x : Dword) {n i : Nat} (h : i < n) :
    BitVec.ofNat 8 (x.toNat % 2 ^ (8 * n) / 2 ^ (8 * i)) = x.extractLsb' (8 * i) 8 := by
  apply BitVec.eq_of_getLsbD_eq
  intro k hk
  have hin : 8 * i + k < 8 * n := by omega
  rw [BitVec.getLsbD_extractLsb', BitVec.getLsbD_ofNat, Nat.testBit_div_two_pow, Nat.testBit_mod_two_pow, BitVec.getLsbD]
  simp [hk, Nat.add_comm k, hin]

theorem regionOf_vault {va : Nat} (h : vaultBase ≤ va) : regionOf va = .vault (va - vaultBase) := by
  have hbase : synonymBase ≤ scratchBase ∧ scratchBase ≤ vaultBase := by decide
  unfold regionOf
  rw [if_neg (by omega), if_neg (by omega), if_neg (by omega)]

/-! ## A lane's request -/

/-- What a request that serves lane l of an access to a vault is. -/
structure vaultAsks (die id : Nat) (a : Access) (l : LaneAcc) (r : Req) : Prop where
  own : r.of id = true
  walk : r.stage = .walk
  virt : r.phys = false
  die : r.die = die
  order : r.order = a.order
  load : a.kind = .load → r.kind = .read ∧ r.va = if a.order = 4 then l.va else 64 * (l.va / 64)
  store : a.kind = .store → r.who = .access id l.lane ∧ r.kind = .write ∧ r.va / 64 = l.va / 64 ∧
    ∀ k, k < 64 → r.mask.getLsbD k = decide (l.va % 64 ≤ k ∧ k < l.va % 64 + a.size) ∧
      (l.va % 64 ≤ k → k < l.va % 64 + a.size → r.data.extractLsb' (8 * k) 8 = l.x.extractLsb' (8 * (k - l.va % 64)) 8)
  atomic : a.kind = .atomic → r.who = .access id l.lane ∧ r.kind = .atomic ∧ r.va = l.va ∧ r.op = a.op ∧ r.x = l.x ∧ r.e = l.e

/-- The request that a lane sends. -/
def vaultReq (s : State) (a : Access) (V : Team) (id : Nat) (l : LaneAcc) : Req :=
  match a.kind with
  | .store => { laneReq s a V id l .write with
      va := if a.order = 4 then l.va else 64 * (l.va / 64), mask := byteMask (l.va % 64) a.size,
      data := sectStore (l.va % 64) (l.x.toNat % 2 ^ (8 * a.size)), stamped := a.order = 4, after := [] }
  | .atomic => { laneReq s a V id l .atomic with op := a.op, x := l.x, e := l.e, stamped := true, after := [] }
  | _ => { laneReq s a V id l .read with va := if a.order = 4 then l.va else 64 * (l.va / 64), stamped := a.order = 4 }

theorem vaultReq_asks (s : State) (a : Access) (V : Team) (id : Nat) (l : LaneAcc)
    (hkind : a.kind = .load ∨ a.kind = .store ∨ a.kind = .atomic) :
    vaultAsks (dieOf V.id.core) id a l (vaultReq s a V id l) := by
  have hof (k : ReqKind) : (laneReq s a V id l k).of id = true := by simp [laneReq, Req.of]
  unfold vaultReq
  rcases hkind with hk | hk | hk
  · rw [hk]
    exact ⟨hof .read, rfl, rfl, rfl, rfl, fun _ => ⟨rfl, rfl⟩, fun h => (nomatch hk.symm.trans h), fun h => (nomatch hk.symm.trans h)⟩
  · rw [hk]
    refine ⟨hof .write, rfl, rfl, rfl, rfl, fun h => (nomatch hk.symm.trans h), fun _ => ⟨rfl, rfl, ?_, fun k hlt => ⟨?_, fun hlo hhi => ?_⟩⟩,
      fun h => (nomatch hk.symm.trans h)⟩
    · dsimp only
      split
      · rfl
      · omega
    · exact byteMask_getLsbD _ _ _ hlt
    · exact (sectStore_byte _ _ _ hlo hlt).trans (byte_mod l.x (by omega))
  · rw [hk]
    exact ⟨hof .atomic, rfl, rfl, rfl, rfl, fun h => (nomatch hk.symm.trans h), fun h => (nomatch hk.symm.trans h),
      fun _ => ⟨rfl, rfl, rfl, rfl, rfl, rfl⟩⟩

/-- A lane of a load waits for a request of its access that brings its bytes; any other sends its own. -/
theorem vaultLane_of (s : State) (id : Nat) (a : Access) (V : Team) (l : LaneAcc)
    (hkind : a.kind = .load ∨ a.kind = .store ∨ a.kind = .atomic) : vaultLane s id a V l [] =
      if a.kind = .load ∧ askedFor s id l.va = true then setLane s id { l with st := .out } else sendLane s id l (vaultReq s a V id l) := by
  unfold vaultLane vaultReq
  rcases hkind with hk | hk | hk <;> rw [hk] <;> simp

/-! ## The requests of the lanes -/

/-- The requests of a state in which some lanes of access id have sent theirs, under numbers from id + 1 up to N. -/
structure vaultSent (s : State) (die id : Nat) (a : Access) (ls : List LaneAcc) (R : Tbl Req) (N : Nat) : Prop where
  above : id < N
  below : ∀ x ∈ R, x.1 < N
  old : ∀ n, n ≤ id → R.get? n = s.reqs.get? n
  own : ∀ x ∈ R, x.2.of id = true → id < x.1 ∧ R.get? x.1 = some x.2 ∧ ∃ l, vaultAsks die id a l x.2
  sent : ∀ l ∈ ls, ∃ n r, id < n ∧ R.get? n = some r ∧ vaultAsks die id a l r

theorem vaultSent_put {s : State} {die id N : Nat} {a : Access} {ls : List LaneAcc} {R : Tbl Req} (h : vaultSent s die id a ls R N)
    {l : LaneAcc} {r : Req} (hr : vaultAsks die id a l r) : vaultSent s die id a (ls ++ [l]) (R.put N r) (N + 1) := by
  have hother {x : Nat × Req} (hx : x ∈ R) (r' : Req) : (R.put N r).get? x.1 = R.get? x.1 :=
    Tbl.get?_put_other _ _ _ _ (Nat.ne_of_lt (h.below x hx))
  refine ⟨Nat.lt_succ_of_lt h.above, fun x hx => ?_, fun n hn => ?_, fun x hx hof => ?_, fun k hk => ?_⟩
  · rcases Tbl.mem_of_mem_put hx with rfl | hx
    · exact Nat.lt_succ_self N
    · exact Nat.lt_succ_of_lt (h.below x hx)
  · exact (Tbl.get?_put_other _ _ _ _ (Nat.ne_of_lt (hn.trans_lt h.above))).trans (h.old n hn)
  · rcases Tbl.mem_of_mem_put hx with rfl | hx
    · exact ⟨h.above, Tbl.get?_put_same _ _ _, l, hr⟩
    · obtain ⟨hlt, hget, hasks⟩ := h.own x hx hof
      exact ⟨hlt, (hother hx r).trans hget, hasks⟩
  · rcases List.mem_append.1 hk with hk | hk
    · obtain ⟨n, q, hlt, hget, hasks⟩ := h.sent k hk
      exact ⟨n, q, hlt, (hother (Tbl.mem_of_get? hget) r).trans hget, hasks⟩
    · obtain rfl := List.mem_singleton.1 hk
      exact ⟨N, r, h.above, Tbl.get?_put_same _ _ _, hr⟩

/-- A lane of a load whose bytes a request of its access brings. -/
theorem vaultSent_share {s u : State} {die id N : Nat} {a : Access} {ls : List LaneAcc} (h : vaultSent s die id a ls u.reqs N)
    {l : LaneAcc} (hkind : a.kind = .load) (hasked : askedFor u id l.va = true) : vaultSent s die id a (ls ++ [l]) u.reqs N := by
  refine ⟨h.above, h.below, h.old, h.own, fun k hk => ?_⟩
  rcases List.mem_append.1 hk with hk | hk
  · exact h.sent k hk
  · obtain rfl := List.mem_singleton.1 hk
    obtain ⟨x, hx, hmatch⟩ := List.any_eq_true.1 hasked
    simp only [Bool.and_eq_true] at hmatch
    obtain ⟨⟨hbrings, -⟩, hof⟩ := hmatch
    obtain ⟨hlt, hget, l', hasks⟩ := h.own x hx hof
    obtain ⟨hread, hva⟩ := hasks.load hkind
    have hplace : x.2.va = if a.order = 4 then k.va else 64 * (k.va / 64) := by
      unfold Req.brings at hbrings
      rw [hasks.order] at hbrings
      by_cases ho : a.order = 4
      · rw [if_pos ho] at hbrings ⊢
        exact beq_iff_eq.1 hbrings
      · rw [if_neg ho] at hbrings hva ⊢
        have := beq_iff_eq.1 hbrings
        omega
    exact ⟨x.1, x.2, hlt, hget, hasks.own, hasks.walk, hasks.virt, hasks.die, hasks.order, fun _ => ⟨hread, hplace⟩,
      fun h => (nomatch hkind.symm.trans h), fun h => (nomatch hkind.symm.trans h)⟩

/-! ## The lanes -/

/-- A lane that waits for a request. -/
def LaneAcc.waiting (l : LaneAcc) : LaneAcc := { l with st := .out }

/-- A state with other requests. -/
def withReqs (s : State) (R : Tbl Req) (N : Nat) : State := { s with reqs := R, nextId := N }

section
variable {s : State} {t id : Nat} {a : Access} (hkind : a.kind = .load ∨ a.kind = .store ∨ a.kind = .atomic)
include hkind

/-- One lane: the requests have come to serve it too, and it waits. -/
theorem tryLane_vault {V T : Team} {b : Access} (hteam' : b.team = t) {l : LaneAcc} (hva : vaultBase ≤ l.va) {ls : List LaneAcc}
    {R : Tbl Req} {N : Nat} (h : vaultSent s (dieOf V.id.core) id a ls R N) : ∃ R' N' U lvl,
      tryLane (accessing (withReqs s R N) t T id b) id a V [] l = accessing (withReqs s R' N') t U id
        (({ b with level := lvl } : Access).withLanes (b.lanes.map fun x : LaneAcc => if x.lane = l.lane then l.waiting else x)) ∧
      vaultSent s (dieOf V.id.core) id a (ls ++ [l]) R' N' := by
  have hlevel (lvl : Nat) : ∃ lvl', b.reach lvl = { b with level := lvl' } := by
    unfold Access.reach; split
    · exact ⟨_, rfl⟩
    · exact ⟨b.level, rfl⟩
  obtain ⟨lvl, hlvl⟩ := hlevel (vaultLevel V.id.core (l.va - vaultBase))
  have htry (u : State) : tryLane u id a V [] l = vaultLane (noteLevel u id (vaultLevel V.id.core (l.va - vaultBase))) id a V l [] := by
    unfold tryLane
    rw [regionOf_vault hva]
    rcases hkind with hk | hk | hk <;> rw [hk]
  rw [htry, accessing_noteLevel _ _ _ _ _ hteam', vaultLane_of _ _ _ _ _ hkind, hlvl]
  split
  · next hshare =>
    exact ⟨R, N, _, lvl, accessing_setLane _ _ _ _ _ _, vaultSent_share (u := accessing (withReqs s R N) t _ id _) h hshare.1 hshare.2⟩
  · exact ⟨_, N + 1, _, lvl, accessing_setLane (withReqs s _ (N + 1)) t _ id _ _, vaultSent_put h (vaultReq_asks _ _ _ _ _ hkind)⟩

theorem foldl_tryLane_vault (hteam : a.team = t) (V : Team) (rest : List LaneAcc) : ∀ (pre : List LaneAcc) (R : Tbl Req) (N : Nat) (T : Team) (lvl : Nat),
    ((pre ++ rest).map (·.lane)).Nodup → (∀ l ∈ rest, vaultBase ≤ l.va) → vaultSent s (dieOf V.id.core) id a pre R N →
    ∃ R' N' U lvl', rest.foldl (fun u l => tryLane u id a V [] l)
        (accessing (withReqs s R N) t T id { a with lanes := pre.map LaneAcc.waiting ++ rest, level := lvl }) =
        accessing (withReqs s R' N') t U id { a with lanes := (pre ++ rest).map LaneAcc.waiting, level := lvl' } ∧
      vaultSent s (dieOf V.id.core) id a (pre ++ rest) R' N' := by
  induction rest with
  | nil =>
    intro pre R N T lvl _ _ h
    exact ⟨R, N, T, lvl, by simp, by simpa using h⟩
  | cons l rest ih =>
    intro pre R N T lvl hnodup hva h
    rw [List.forall_mem_cons] at hva
    obtain ⟨hl, hrest⟩ := hva
    obtain ⟨R₁, N₁, T₁, lvl₁, htry, h₁⟩ := tryLane_vault hkind (V := V) (T := T)
      (b := { a with lanes := pre.map LaneAcc.waiting ++ l :: rest, level := lvl }) hteam hl h
    have hset := map_setLane (l := l) (l' := l.waiting) (pre := pre.map LaneAcc.waiting) (rest := rest) rfl
      (by simpa [LaneAcc.waiting, Function.comp_def] using hnodup)
    obtain ⟨R₂, N₂, U, lvl₂, hfold, h₂⟩ := ih (pre ++ [l]) R₁ N₁ T₁ lvl₁ (by simpa using hnodup) hrest h₁
    refine ⟨R₂, N₂, U, lvl₂, ?_, by simpa using h₂⟩
    have hlane : ({ a with lanes := pre.map LaneAcc.waiting ++ l :: rest, level := lvl₁ } : Access).withLanes
        ((pre.map LaneAcc.waiting ++ l :: rest).map fun x => if x.lane = l.lane then l.waiting else x) =
        { a with lanes := (pre ++ [l]).map LaneAcc.waiting ++ rest, level := lvl₁ } :=
      congrArg (fun ls => { a with lanes := ls, level := lvl₁ }) (hset.trans (by simp))
    rw [List.append_assoc] at hfold
    exact (congrArg (rest.foldl _) (htry.trans (congrArg (accessing (withReqs s R₁ N₁) t T₁ id) hlane))).trans hfold

end

/-! ## The rule -/

/-- A relaxed or home-order access to a vault: its lanes wait, and the requests that serve them are on their way. -/
theorem exec_vaultWord {s : State} {e : Env} {i : Instr} {m : MemWord} (hat : GroupAt s e 1) (hcheck : i.check = none)
    (hm : memWord e i = some m) (hissue : Sys2Proof.mayIssue s e m) (hsplit : s.split = none)
    (horder : (memFields e).order = 0 ∨ (memFields e).order = 4) (hlanes : m.acc.lanes ≠ []) (hva : ∀ l ∈ m.acc.lanes, vaultBase ≤ l.va)
    (hreqs : ∀ x ∈ s.reqs, x.1 < s.nextId ∧ x.2.of s.nextId = false) :
    ∃ R N U lvl, exec i s = .next (retire m.w e (accessing (withReqs s R N) e.t U s.nextId
        { accessOf s e m with lanes := m.acc.lanes.map LaneAcc.waiting, level := lvl })) ∧
      vaultSent s (dieOf e.team.id.core) s.nextId (accessOf s e m) m.acc.lanes R N := by
  have hform := accessOf_atIssue s e m (memWord_atIssue hcheck hm)
  have hplain := hform.plain horder
  have hregion : ∀ l ∈ m.acc.lanes, regionOf l.va ≠ .synonym := fun l hl => by
    rw [regionOf_vault (hva l hl)]
    exact nofun
  have hexec := exec_memWord_lanes hat hcheck hm hissue hsplit horder hlanes hregion
  dsimp only at hexec
  obtain ⟨hid, -⟩ := issuedTeam_remapped hat.1 m (accessOf s e m)
  have hlanes' := accessOf_lanes s e m
  generalize accessOf s e m = a at *
  have hinit : a = { a with lanes := ([] : List LaneAcc).map LaneAcc.waiting ++ m.acc.lanes, level := a.level } := by
    rw [← hlanes']
    rfl
  have hnone : vaultSent s (dieOf (issuedTeam e m a).id.core) s.nextId a [] s.reqs (s.nextId + 1) :=
    ⟨Nat.lt_succ_self _, fun x hx => Nat.lt_succ_of_lt (hreqs x hx).1, fun _ _ => rfl,
      fun x hx hof => (Bool.false_ne_true ((hreqs x hx).2.symm.trans hof)).elim, fun _ h => (nomatch h)⟩
  obtain ⟨R, N, U, lvl, hfold, hsent⟩ := foldl_tryLane_vault hform.kind hform.team (issuedTeam e m a) m.acc.lanes [] s.reqs
    (s.nextId + 1) (issuedTeam e m a) a.level (hlanes' ▸ hform.nodup) hva hnone
  rw [hid, List.nil_append] at hsent
  rw [← hinit, List.nil_append] at hfold
  have hdone : ({ a with lanes := m.acc.lanes.map LaneAcc.waiting, level := lvl } : Access).plain :=
    ⟨hplain.kind, hplain.order, hplain.parked⟩
  refine ⟨R, N, U, lvl, hexec.trans ?_, hsent⟩
  exact congrArg (fun u => (.next (retire m.w e u) : Out)) ((congrArg (completeAccess · s.nextId) hfold).trans
    (completeAccess_of_plain (accessing_acc ..) hdone))

theorem vaultAccess : vaultAccessRule := by
  intro s e i m hat hcheck hm hissue hsplit horder hlanes hva hreqs
  obtain ⟨R, N, U, lvl, hexec, hsent⟩ := exec_vaultWord hat hcheck hm hissue hsplit horder hlanes hva hreqs
  obtain ⟨u, hu, hteams⟩ := retire_teams m.w e (accessing (withReqs s R N) e.t U s.nextId
    { accessOf s e m with lanes := m.acc.lanes.map LaneAcc.waiting, level := lvl })
  have hur : u.reqs = R := congrArg State.reqs hteams
  have hua : u.accs = _ := congrArg State.accs hteams
  refine ⟨u, hexec.trans (congrArg _ hu), ?_, ?_, ?_, ?_, fun l hl => ?_⟩
  · rw [hteams]; rfl
  · rw [hur]; exact hsent.old
  · rw [hua]; exact fun n hn => Tbl.get?_put_other _ _ _ _ hn
  · rw [hua]
    exact (congrArg _ (Tbl.get?_put_same _ _ _)).trans (by simp [LaneAcc.waiting, Function.comp_def])
  · obtain ⟨n, r, hlt, hget, hasks⟩ := hsent.sent l hl
    rw [hur]
    have hload := hasks.load
    have hstore := hasks.store
    have hatomic := hasks.atomic
    have horder := hasks.order
    rw [accessOf_kind, accessOf_order] at hload
    rw [accessOf_kind, accessOf_size] at hstore
    rw [accessOf_kind, accessOf_op] at hatomic
    rw [accessOf_order] at horder
    exact ⟨n, r, hlt, hget, hasks.own, hasks.walk, hasks.virt, hasks.die, horder, hload, hstore, hatomic⟩

/-- Settles O24: an access's lanes are tried in order in its own step; on the scratchpad each leaves its bytes, and at a vault each
has a request on its way. -/
theorem scratchpadAndVaultAccess : Obligations.ScratchpadAndVaultAccess := ⟨scratchpadAccess, vaultAccess⟩

end Sys2Proof.Machine
end

section
/-! Bytes of an L1 (O26; R13, R14, R83): what a masked store does to the byte that L1 shows for an address. -/

namespace Sys2Proof.Machine

/-! ## Masks over sectors -/

theorem foldl_spread (m : BitVec 64) (n i : Nat) (hi : i < 512) :
    ((List.range n).foldl (fun acc j => if m.getLsbD j then acc ||| BitVec.ofNat 512 (255 * 2 ^ (8 * j)) else acc) 0).getLsbD i =
      (decide (i / 8 < n) && m.getLsbD (i / 8)) := by
  have hbyte (j : Nat) : (BitVec.ofNat 512 (255 * 2 ^ (8 * j))).getLsbD i = decide (i / 8 = j) := by
    rw [BitVec.getLsbD_ofNat, Nat.testBit_mul_two_pow, show 255 = 2 ^ 8 - 1 from rfl, Nat.testBit_two_pow_sub_one, Bool.eq_iff_iff]
    simp [hi]
    omega
  induction n with
  | zero => simp
  | succ n ih =>
    rw [List.range_succ, List.foldl_append, List.foldl_cons, List.foldl_nil]
    have hlt : i / 8 < n + 1 ↔ i / 8 < n ∨ i / 8 = n := by omega
    by_cases hn : i / 8 = n
    · split <;> simp_all
    · split <;> simp_all

theorem spread_getLsbD (m : BitVec 64) (i : Nat) (hi : i < 512) : (spread m).getLsbD i = m.getLsbD (i / 8) := by
  have hlt : i / 8 < 64 := by omega
  exact (foldl_spread m 64 i hi).trans (by simp [hlt])

/-- A byte of a sector over which the bytes that a mask names have been put. -/
theorem mergeSect_byte (old new : BitVec 512) (m : BitVec 64) {k : Nat} (hk : k < 64) : (mergeSect old new m).extractLsb' (8 * k) 8 =
    if m.getLsbD k then new.extractLsb' (8 * k) 8 else old.extractLsb' (8 * k) 8 := by
  apply BitVec.eq_of_getLsbD_eq
  intro j hj
  have hlt : 8 * k + j < 512 := by omega
  have hdiv : (8 * k + j) / 8 = k := by omega
  have hspread : (spread m).getLsbD (8 * k + j) = m.getLsbD k := (spread_getLsbD m _ hlt).trans (by rw [hdiv])
  rw [mergeSect, BitVec.getLsbD_extractLsb', BitVec.getLsbD_or, BitVec.getLsbD_and, BitVec.getLsbD_not, BitVec.getLsbD_and, hspread]
  split
  · next hm => rw [BitVec.getLsbD_extractLsb', hm]; simp [hj]
  · next hm => rw [BitVec.getLsbD_extractLsb', Bool.eq_false_iff.2 hm]; simp [hj, hlt]

theorem held_write (c : Sect) (m : BitVec 64) (data : BitVec 512) (k : Nat) (hk : k < 64) :
    (c.write m data true).held.getLsbD k = (c.held.getLsbD k || m.getLsbD k) := by
  unfold Sect.held Sect.write
  dsimp only
  split
  · rw [BitVec.getLsbD_allOnes, decide_eq_true hk, Bool.true_or]
  · exact BitVec.getLsbD_or

/-- A sector answers for bytes that it holds. -/
theorem covers_of_held {c : Sect} {lo n : Nat} (h : ∀ k, lo ≤ k → k < lo + n → k < 64 → c.held.getLsbD k = true) :
    c.covers (byteMask lo n) = true := by
  refine beq_iff_eq.2 (BitVec.eq_of_getLsbD_eq fun k hk => ?_)
  rw [BitVec.getLsbD_and, BitVec.getLsbD_not, byteMask_getLsbD _ _ _ hk]
  by_cases hin : lo ≤ k ∧ k < lo + n
  · simp [h k hin.1 hin.2 hk, hk]
  · simp [hin]

theorem sectLoad_eq_ofBytes (d : BitVec 512) (lo n : Nat) :
    sectLoad d lo n = ofBytes ((List.range n).map fun k => d.extractLsb' (8 * (lo + k)) 8) := by
  induction n generalizing lo with
  | zero => simp [sectLoad, ofBytes, Nat.mod_one]
  | succ n ih =>
    have hmap : ((List.range n).map Nat.succ).map (fun k => d.extractLsb' (8 * (lo + k)) 8) =
        (List.range n).map fun k => d.extractLsb' (8 * (lo + 1 + k)) 8 := by
      rw [List.map_map]
      exact List.map_congr_left fun k _ => by simp only [Function.comp, Nat.add_succ, Nat.succ_add, Nat.add_zero]
    rw [List.range_succ_eq_map, List.map_cons, hmap, ofBytes, ← ih (lo + 1)]
    unfold sectLoad
    rw [BitVec.extractLsb'_toNat, Nat.shiftRight_eq_div_pow, Nat.add_zero, show 8 * (lo + 1) = 8 * lo + 8 by ring, pow_add,
      ← Nat.div_div_eq_div_mul, show 8 * (n + 1) = 8 + 8 * n by ring, pow_add, Nat.mod_mul]
    rfl

/-! ## Keys -/

/-- A sector's key names its context and its place, below 2^60. -/
theorem sectKey_inj {c c' va va' : Nat} (h : va < 2 ^ 60) (h' : va' < 2 ^ 60) :
    sectKey c va = sectKey c' va' ↔ c = c' ∧ va / 64 = va' / 64 := by
  unfold sectKey
  constructor
  · intro heq; omega
  · rintro ⟨rfl, hva⟩; rw [hva]

/-! ## L1 -/

/-- The byte that an L1 holds for an address of a context. -/
def L1.byte (L : L1) (c va : Nat) : Option Byte :=
  let x := L.sect (sectKey c va)
  if x.held.getLsbD (va % 64) then some (x.data.extractLsb' (8 * (va % 64)) 8) else none

theorem l1Byte_eq (s : State) (core c va : Nat) : l1Byte s core c va = (s.core core).l1.byte c va := rfl

/-- What an L1 shows depends on what its sectors hold and on their bytes. -/
theorem L1.byte_congr {L L' : L1} {c va : Nat} (hheld : (L.sect (sectKey c va)).held = (L'.sect (sectKey c va)).held)
    (hdata : (L.sect (sectKey c va)).data = (L'.sect (sectKey c va)).data) : L.byte c va = L'.byte c va := by
  unfold byte
  dsimp only
  rw [hheld, hdata]

theorem L1.sect_store (L : L1) (key : Nat) (m : BitVec 64) (data : BitVec 512) (f : Filler) (k : Nat) :
    (L.store key m data f).sect k = if k = key then (L.sect key).write m data true else L.sect k := by
  unfold store L1.sect Tbl.getD
  simp only [Tbl.get?_put]
  split <;> rfl

/-- The bytes of an L1 after a number of z bytes has been stored at an address, inside a sector. -/
theorem L1.byte_store (L : L1) (f : Filler) {ctx a z c va : Nat} (x : Dword) (ha : a < 2 ^ 60) (hva : va < 2 ^ 60) (hz : a % 64 + z ≤ 64) :
    (L.store (sectKey ctx a) (byteMask (a % 64) z) (sectStore (a % 64) (x.toNat % 2 ^ (8 * z))) f).byte c va =
      if c = ctx ∧ a ≤ va ∧ va < a + z then some (x.extractLsb' (8 * (va - a)) 8) else L.byte c va := by
  have hk : va % 64 < 64 := Nat.mod_lt _ (by decide)
  unfold byte
  rw [sect_store]
  by_cases hkey : sectKey c va = sectKey ctx a
  · obtain ⟨hc, hsect⟩ := (sectKey_inj hva ha).1 hkey
    have hin : (a % 64 ≤ va % 64 ∧ va % 64 < a % 64 + z) ↔ (a ≤ va ∧ va < a + z) := by omega
    rw [if_pos hkey]
    dsimp only
    rw [held_write _ _ _ _ hk, byteMask_getLsbD _ _ _ hk, hkey]
    by_cases hrange : a ≤ va ∧ va < a + z
    · have hplace : va % 64 - a % 64 = va - a := by omega
      rw [if_pos (by simp [hin.2 hrange]), if_pos ⟨hc, hrange⟩]
      unfold Sect.write
      rw [mergeSect_byte _ _ _ hk, byteMask_getLsbD _ _ _ hk, if_pos (by simpa using hin.2 hrange),
        sectStore_byte _ _ _ (hin.2 hrange).1 hk, hplace, byte_mod x (by omega)]
    · have hout : ¬(a % 64 ≤ va % 64 ∧ va % 64 < a % 64 + z) := fun h => hrange (hin.1 h)
      rw [if_neg (fun h : c = ctx ∧ a ≤ va ∧ va < a + z => hrange h.2)]
      unfold Sect.write
      rw [mergeSect_byte _ _ _ hk, byteMask_getLsbD _ _ _ hk, decide_eq_false hout, Bool.or_false,
        if_neg Bool.false_ne_true]
  · have hout : ¬(c = ctx ∧ a ≤ va ∧ va < a + z) := fun ⟨hc, hlo, hhi⟩ => hkey ((sectKey_inj hva ha).2 ⟨hc, by omega⟩)
    rw [if_neg hkey, if_neg hout]

/-- Poison cleared from a sector of an L1: its bytes stay. -/
theorem L1.byte_cleared (L : L1) (key c va : Nat) :
    ({ L with sects := L.sects.upd key fun x => { x with bad := false } } : L1).byte c va = L.byte c va := by
  have hsect : ∀ k, (({ L with sects := L.sects.upd key fun x => { x with bad := false } } : L1).sect k).held = (L.sect k).held ∧
      (({ L with sects := L.sects.upd key fun x => { x with bad := false } } : L1).sect k).data = (L.sect k).data := by
    intro k
    unfold L1.sect Tbl.getD
    rw [Tbl.get?_upd]
    split
    · next hk =>
      rw [hk]
      cases L.sects.get? key <;> exact ⟨rfl, rfl⟩
    · exact ⟨rfl, rfl⟩
  exact L1.byte_congr (hsect _).1 (hsect _).2

theorem Tbl.length_put_le {α : Type} (t : Tbl α) (k : Nat) (v : α) : (t.put k v).length ≤ t.length + 1 := by
  induction t with
  | nil => exact Nat.le_refl 1
  | cons x t ih =>
    unfold Tbl.put
    split
    · exact Nat.le_refl _
    · split
      · exact Nat.le_succ _
      · exact Nat.succ_le_succ ih

end Sys2Proof.Machine
end

section
/-! Accesses to global addresses that L1 answers (O26; R13, R81, R83, R106, R289): stores at core scope or narrower put their bytes into
L1, one lane after another, and a load takes bytes that L1 holds. -/

namespace Sys2Proof.Machine

theorem regionOf_global {va : Nat} (h : va < synonymBase) : regionOf va = .global := if_pos h

theorem lt_of_global {va : Nat} (h : va < synonymBase) : va < 2 ^ 60 := h.trans (by decide)

/-! ## L1 of one core -/

@[simp] theorem setL1_l1 (s : State) (core : Nat) (L : L1) : ((setL1 s core L).core core).l1 = L := by
  unfold setL1; rw [State.core_setCore]

theorem setL1_setL1 (s : State) (core : Nat) (L L' : L1) : setL1 (setL1 s core L) core L' = setL1 s core L' := by
  unfold setL1
  rw [State.core_setCore]
  simp [State.setCore]

theorem setL1_core_other (s : State) {core c : Nat} (L : L1) (h : c ≠ core) : (setL1 s core L).core c = s.core c := by
  simp [setL1, State.core, State.setCore, Tbl.getD, h]

/-- A store into a line that L1 holds or has room for. -/
theorem l1Store_of_room {s : State} {core key : Nat} (m : BitVec 64) (data : BitVec 512) (f : Filler)
    (h : (s.core core).l1.lines.has (lineOfSect key) = true ∨ (s.core core).l1.lines.length < 4096) :
    l1Store s core key m data f = setL1 s core ((s.core core).l1.store key m data f) := by
  have hroom : l1Room s core (lineOfSect key) = s := by
    unfold l1Room
    rcases h with h | h <;> simp [h, l1Lines]
  unfold l1Store
  rw [hroom]

theorem L1.length_lines_store (L : L1) (key : Nat) (m : BitVec 64) (data : BitVec 512) (f : Filler) :
    (L.store key m data f).lines.length ≤ L.lines.length + 1 := Tbl.length_put_le _ _ _

/-! ## One lane of a store -/

/-- Clearing the poison of a sector that a store has covered changes no byte of L1. -/
theorem cacheClear_near (s : State) (id : Nat) {a : Access} (V : Team) (va : Nat) (hscope : a.scope < 3) (hcache : a.cache < 3) :
    ∃ L, (cacheClear s id a V va = s ∨ cacheClear s id a V va = setL1 s V.id.core L) ∧
      L.lines = (s.core V.id.core).l1.lines ∧ ∀ c v, L.byte c v = (s.core V.id.core).l1.byte c v := by
  refine ⟨{ (s.core V.id.core).l1 with
    sects := (s.core V.id.core).l1.sects.upd (sectKey V.id.ctx va) fun x => { x with bad := false } }, ?_, rfl, L1.byte_cleared _ _⟩
  unfold cacheClear
  dsimp only
  split
  · exact .inl rfl
  · rw [if_pos (by simp [hscope, hcache])]
    exact .inr rfl

theorem cacheClear_accessing (s : State) (t id : Nat) (T V : Team) (L : L1) {a : Access} (b : Access) (va : Nat) (hscope : a.scope < 3)
    (hcache : a.cache < 3) : ∃ L',
    cacheClear (accessing (setL1 s V.id.core L) t T id b) id a V va = accessing (setL1 s V.id.core L') t T id b ∧ L'.lines = L.lines ∧
      ∀ c v, L'.byte c v = L.byte c v := by
  obtain ⟨L', hclear, hlines, hsame⟩ := cacheClear_near (accessing (setL1 s V.id.core L) t T id b) id V va hscope hcache
  have hl1 : ((accessing (setL1 s V.id.core L) t T id b).core V.id.core).l1 = L := setL1_l1 s _ L
  rw [hl1] at hlines hsame
  rcases hclear with hclear | hclear
  · exact ⟨L, hclear, rfl, fun _ _ => rfl⟩
  · exact ⟨L', hclear.trans (congrArg (accessing · t T id b) (setL1_setL1 s _ L L')), hlines, hsame⟩

section
variable {t id : Nat} {a : Access} (hkind : a.kind = .store) (horder : a.order = 0) (hspace : a.space ≠ 4)
  (hscope : a.scope < 3) (hcache : a.cache < 3)
include horder hspace hscope hcache

theorem storeLane_near (s : State) (V : Team) (l : LaneAcc) : storeLane s id a V l [] =
    setLane (noteLevel (l1Store s V.id.core (sectKey V.id.ctx l.va) (byteMask (l.va % 64) a.size)
      (sectStore (l.va % 64) (l.x.toNat % 2 ^ (8 * a.size))) (a.filler s V)) id 1) id { l with st := .done } := by
  unfold storeLane
  have hhome : (a.order = 4 || a.space = 4 || (a.order = 2 && 3 ≤ a.scope)) = false := by simp [horder, hspace]
  have h4 : a.cache ≠ 4 := by omega
  have h3 : ¬(a.scope = 3 || a.cache = 3) = true := by simp; omega
  have hnear : (decide (a.cache < 3) && decide (a.scope < 3)) = true := by simp [hscope, hcache]
  dsimp only
  rw [hhome, if_neg Bool.false_ne_true, if_neg h4, if_neg (by omega), if_neg h3, hnear, if_pos rfl]

include hkind

/-- A lane of a store at core scope or narrower puts its bytes into L1 and changes no other byte there. -/
theorem tryLane_store {s : State} {V T : Team} {b : Access} (hteam' : b.team = t) {l : LaneAcc} (hva : l.va < synonymBase)
    (hsect : l.va % 64 + a.size ≤ 64) (hroom : (s.core V.id.core).l1.lines.has (lineOfSect (sectKey V.id.ctx l.va)) = true ∨
      (s.core V.id.core).l1.lines.length < 4096) : ∃ L U lvl,
    tryLane (accessing s t T id b) id a V [] l = accessing (setL1 s V.id.core L) t U id
      (({ b with level := lvl } : Access).withLanes (b.lanes.map fun x : LaneAcc => if x.lane = l.lane then { l with st := .done } else x)) ∧
    L.lines.length ≤ (s.core V.id.core).l1.lines.length + 1 ∧
    ∀ c va, va < 2 ^ 60 → L.byte c va = if c = V.id.ctx ∧ l.va ≤ va ∧ va < l.va + a.size then some (l.x.extractLsb' (8 * (va - l.va)) 8)
      else (s.core V.id.core).l1.byte c va := by
  have htry (u : State) : tryLane u id a V [] l = cacheClear (storeLane u id a V l []) id a V l.va := by
    unfold tryLane
    rw [regionOf_global hva, hkind]
  obtain ⟨lvl, hlvl⟩ : ∃ lvl, b.reach 1 = { b with level := lvl } := by
    unfold Access.reach; split
    · exact ⟨1, rfl⟩
    · exact ⟨b.level, rfl⟩
  let L := (s.core V.id.core).l1.store (sectKey V.id.ctx l.va) (byteMask (l.va % 64) a.size)
    (sectStore (l.va % 64) (l.x.toNat % 2 ^ (8 * a.size))) (a.filler (accessing s t T id b) V)
  have hbytes (c va : Nat) (hlt : va < 2 ^ 60) := L1.byte_store (s.core V.id.core).l1 (a.filler (accessing s t T id b) V) (c := c) (va := va)
    (ctx := V.id.ctx) l.x (lt_of_global hva) hlt hsect
  have hstore : storeLane (accessing s t T id b) id a V l [] = accessing (setL1 s V.id.core L) t (T.slowed (b.reach 1)) id
      ((b.reach 1).withLanes ((b.reach 1).lanes.map fun x => if x.lane = l.lane then { l with st := .done } else x)) := by
    rw [storeLane_near horder hspace hscope hcache, l1Store_of_room (s := accessing s t T id b) _ _ _ hroom]
    exact (congrArg (setLane · id _) (accessing_noteLevel (setL1 s V.id.core L) t T id b hteam' 1)).trans (accessing_setLane _ _ _ _ _ _)
  rw [hlvl] at hstore
  obtain ⟨L', hclear, hlines, hsame⟩ := cacheClear_accessing s t id (T.slowed { b with level := lvl }) V L
    (({ b with level := lvl } : Access).withLanes (b.lanes.map fun x : LaneAcc => if x.lane = l.lane then { l with st := .done } else x))
    l.va hscope hcache
  exact ⟨L', _, lvl, ((htry _).trans (congrArg (cacheClear · id a V l.va) hstore)).trans hclear,
    hlines ▸ L1.length_lines_store _ _ _ _ _, fun c va hlt => (hsame c va).trans (hbytes c va hlt)⟩

end

/-! ## The lanes of a store -/

/-- A lane that has been performed and returns nothing. -/
def LaneAcc.stored (l : LaneAcc) : LaneAcc := { l with st := .done }

/-- A state that some lanes' stores have left: nothing but the core's L1 is other than it was, and that at their bytes alone. -/
structure storedIn (s u : State) (core ctx size : Nat) (ls : List LaneAcc) : Prop where
  store : u.store = s.store
  reqs : u.reqs = s.reqs
  dies : u.dies = s.dies
  cores : ∀ c, c ≠ core → u.core c = s.core c
  room : (u.core core).l1.lines.length ≤ (s.core core).l1.lines.length + ls.length
  bytes : ∀ c va, va < 2 ^ 60 → (c = ctx → ∀ l ∈ ls, va < l.va ∨ l.va + size ≤ va) →
    (u.core core).l1.byte c va = (s.core core).l1.byte c va

theorem storedIn_setL1 {s u : State} {core ctx size : Nat} {ls : List LaneAcc} (h : storedIn s u core ctx size ls) {l : LaneAcc} {L : L1}
    (hroom : L.lines.length ≤ (u.core core).l1.lines.length + 1)
    (hbytes : ∀ c va, va < 2 ^ 60 → ¬(c = ctx ∧ l.va ≤ va ∧ va < l.va + size) → L.byte c va = (u.core core).l1.byte c va) :
    storedIn s (setL1 u core L) core ctx size (ls ++ [l]) := by
  refine ⟨h.store, h.reqs, h.dies, fun c hc => (setL1_core_other u L hc).trans (h.cores c hc), ?_, fun c va hlt hclear => ?_⟩
  · rw [setL1_l1, List.length_append, List.length_singleton]
    have := h.room
    omega
  · rw [setL1_l1]
    refine (hbytes c va hlt fun ⟨hc, hlo, hhi⟩ => ?_).trans
      (h.bytes c va hlt fun hc k hk => hclear hc k (List.mem_append_left _ hk))
    have := hclear hc l (List.mem_append_right _ (List.mem_singleton_self l))
    omega

theorem foldl_tryLane_store {s : State} {t id : Nat} {a : Access} (hteam : a.team = t) (hkind : a.kind = .store) (horder : a.order = 0)
    (hspace : a.space ≠ 4) (hscope : a.scope < 3) (hcache : a.cache < 3) (V : Team) (rest : List LaneAcc) :
    ∀ (pre : List LaneAcc) (u : State) (T : Team) (lvl : Nat), ((pre ++ rest).map (·.lane)).Nodup →
    (∀ l ∈ rest, l.va < synonymBase ∧ l.va % 64 + a.size ≤ 64) →
    (s.core V.id.core).l1.lines.length + (pre ++ rest).length ≤ 4096 → storedIn s u V.id.core V.id.ctx a.size pre →
    ∃ u' U lvl', rest.foldl (fun u l => tryLane u id a V [] l)
        (accessing u t T id { a with lanes := pre.map LaneAcc.stored ++ rest, level := lvl }) =
        accessing u' t U id { a with lanes := (pre ++ rest).map LaneAcc.stored, level := lvl' } ∧
      storedIn s u' V.id.core V.id.ctx a.size (pre ++ rest) := by
  induction rest with
  | nil =>
    intro pre u T lvl _ _ _ h
    exact ⟨u, T, lvl, by simp, by simpa using h⟩
  | cons l rest ih =>
    intro pre u T lvl hnodup hlanes hlen h
    rw [List.forall_mem_cons] at hlanes
    obtain ⟨⟨hva, hsect⟩, hrest⟩ := hlanes
    have hroom : (u.core V.id.core).l1.lines.length < 4096 := by
      have := h.room
      rw [List.length_append, List.length_cons] at hlen
      omega
    obtain ⟨L, T₁, lvl₁, htry, hlines, hbytes⟩ := tryLane_store hkind horder hspace hscope hcache (id := id) (T := T)
      (b := { a with lanes := pre.map LaneAcc.stored ++ l :: rest, level := lvl }) hteam hva hsect (.inr hroom)
    have hset := map_setLane (l := l) (l' := l.stored) (pre := pre.map LaneAcc.stored) (rest := rest) rfl
      (by simpa [LaneAcc.stored, Function.comp_def] using hnodup)
    have h₁ := storedIn_setL1 h (l := l) hlines fun c va hlt hout => (hbytes c va hlt).trans (if_neg hout)
    obtain ⟨u', U, lvl₂, hfold, h₂⟩ := ih (pre ++ [l]) (setL1 u V.id.core L) T₁ lvl₁ (by simpa using hnodup) hrest
      (by simpa using hlen) h₁
    refine ⟨u', U, lvl₂, ?_, by simpa using h₂⟩
    have hlane : ({ a with lanes := pre.map LaneAcc.stored ++ l :: rest, level := lvl₁ } : Access).withLanes
        ((pre.map LaneAcc.stored ++ l :: rest).map fun x => if x.lane = l.lane then l.stored else x) =
        { a with lanes := (pre ++ [l]).map LaneAcc.stored ++ rest, level := lvl₁ } :=
      congrArg (fun ls => { a with lanes := ls, level := lvl₁ }) (hset.trans (by simp))
    rw [List.append_assoc] at hfold
    exact (congrArg (rest.foldl _) (htry.trans (congrArg (accessing (setL1 u V.id.core L) t T₁ id) hlane))).trans hfold

/-! ## A load that L1 answers -/

theorem tryLane_load_hit {s : State} {t id : Nat} {a b : Access} {V T : Team} {l : LaneAcc} (hteam : b.team = t) (hkind : a.kind = .load)
    (horder : a.order = 0) (hspace : a.space ≠ 4) (hva : l.va < synonymBase)
    (hbad : ((s.core V.id.core).l1.sect (sectKey V.id.ctx l.va)).bad = false)
    (hcovers : ((s.core V.id.core).l1.sect (sectKey V.id.ctx l.va)).covers (byteMask (l.va % 64) a.size) = true) :
    tryLane (accessing s t T id b) id a V [] l = accessing s t (T.slowed (b.reach 1)) id ((b.reach 1).withLanes
      ((b.reach 1).lanes.map fun x => if x.lane = l.lane then { l with
        st := .done, val := loaded a.size a.sext (sectLoad ((s.core V.id.core).l1.sect (sectKey V.id.ctx l.va)).data (l.va % 64) a.size) }
        else x)) := by
  have hcore : (accessing s t T id b).core V.id.core = s.core V.id.core := rfl
  unfold tryLane
  rw [regionOf_global hva, hkind]
  unfold loadLane meetsPoison
  simp [horder, hspace, hcore, hbad, hcovers, accessing_noteLevel _ _ _ _ _ hteam, accessing_setLane]

/-! ## The rules -/

section
variable {s : State} {e : Env} {i : Instr} {m : MemWord} (hat : GroupAt s e 1) (hcheck : i.check = none) (hm : memWord e i = some m)
  (hissue : Sys2Proof.mayIssue s e m)
include hcheck hm hissue

/-- A lane of a word that may issue lies in one sector. -/
theorem lane_in_sector {l : LaneAcc} (hl : l ∈ m.acc.lanes) : l.va % 64 + m.acc.size ≤ 64 := by
  obtain ⟨-, -, -, -, -, hlanes, -⟩ := hissue
  exact aligned_in_sector (memWord_atIssue hcheck hm).size (checkLanes_none hlanes l hl).2

include hat

/-- A relaxed word at global addresses: its lanes are tried one after another, for a team with the issuing team's number and place. -/
theorem exec_globalWord (hsplit : s.split = none) (horder : (memFields e).order = 0) (hlanes : m.acc.lanes ≠ [])
    (hva : ∀ l ∈ m.acc.lanes, l.va < synonymBase) : ∃ V : Team, V.id = e.team.id ∧
    exec i s = .next (retire m.w e (completeAccess (m.acc.lanes.foldl (fun u l => tryLane u s.nextId (accessOf s e m) V [] l)
      (accessing { s with nextId := s.nextId + 1 } e.t V s.nextId (accessOf s e m))) s.nextId)) := by
  have hregion : ∀ l ∈ m.acc.lanes, regionOf l.va ≠ .synonym := fun l hl => by
    rw [regionOf_global (hva l hl)]
    exact nofun
  obtain ⟨hid, -⟩ := issuedTeam_remapped hat.1 m (accessOf s e m)
  exact ⟨_, hid, exec_memWord_lanes hat hcheck hm hissue hsplit (.inl horder) hlanes hregion⟩

/-- A relaxed store to global addresses, at core scope or narrower, for whose lines L1 has room: it is complete in its step. -/
theorem exec_globalStore (hsplit : s.split = none) (horder : (memFields e).order = 0) (hspace : (memFields e).space ≠ 4)
    (hscope : (memFields e).scope < 3) (hcache : (memFields e).cache < 3) (hkind : m.acc.kind = .store) (hlanes : m.acc.lanes ≠ [])
    (hroom : (s.core e.team.id.core).l1.lines.length + m.acc.lanes.length ≤ 4096) (hva : ∀ l ∈ m.acc.lanes, l.va < synonymBase) :
    ∃ u U a, exec i s = .next (retire m.w e (accessing u e.t U s.nextId a)) ∧
      storedIn s u e.team.id.core e.team.id.ctx m.acc.size m.acc.lanes := by
  have hform := accessOf_atIssue s e m (memWord_atIssue hcheck hm)
  obtain ⟨V, hid, hexec⟩ := exec_globalWord hat hcheck hm hissue hsplit horder hlanes hva
  have hsect := fun l (hl : l ∈ m.acc.lanes) => lane_in_sector hcheck hm hissue hl
  have hlanes' := accessOf_lanes s e m
  rw [← accessOf_kind s e m] at hkind
  rw [← accessOf_size s e m] at hsect ⊢
  generalize accessOf s e m = a at *
  have hspace' : a.space ≠ 4 := by rcases hform.space with h | h <;> omega
  have hscope' : a.scope < 3 := hform.scope ▸ hscope
  have hcache' : a.cache < 3 := by rcases hform.cache with h | h <;> omega
  have hinit : a = { a with lanes := ([] : List LaneAcc).map LaneAcc.stored ++ m.acc.lanes, level := a.level } := by
    rw [← hlanes']
    rfl
  have hnone : storedIn s { s with nextId := s.nextId + 1 } V.id.core V.id.ctx a.size [] :=
    ⟨rfl, rfl, rfl, fun _ _ => rfl, Nat.le_refl _, fun _ _ _ _ => rfl⟩
  obtain ⟨u, U, lvl, hfold, hstored⟩ := foldl_tryLane_store hform.team hkind (hform.order.trans horder) hspace' hscope' hcache' V
    m.acc.lanes [] { s with nextId := s.nextId + 1 } V a.level (hlanes' ▸ hform.nodup) (fun l hl => ⟨hva l hl, hsect l hl⟩)
    (by rw [hid]; exact hroom) hnone
  rw [← hinit, List.nil_append] at hfold
  rw [hid, List.nil_append] at hstored
  have hdone : ({ a with lanes := m.acc.lanes.map LaneAcc.stored, level := lvl } : Access).plain :=
    ⟨hform.kind, .inl (hform.order.trans horder), hform.parked⟩
  refine ⟨u, U, { a with lanes := m.acc.lanes.map LaneAcc.stored, level := lvl }, hexec.trans ?_, hstored⟩
  exact congrArg (fun u => (.next (retire m.w e u) : Out)) ((congrArg (completeAccess · s.nextId) hfold).trans
    (completeAccess_of_plain (accessing_acc ..) hdone))

end

theorem globalStoreFrame : globalStoreFrameRule := by
  intro s e i m hat hcheck hm hissue hsplit horder hspace hscope hcache hkind hlanes hroom hva
  obtain ⟨v, U, a, hexec, hstored⟩ := exec_globalStore hat hcheck hm hissue hsplit horder hspace hscope hcache hkind hlanes hroom hva
  obtain ⟨u, hu, hteams⟩ := retire_teams m.w e (accessing v e.t U s.nextId a)
  refine ⟨u, hexec.trans (congrArg _ hu), ?_⟩
  rw [hteams]
  exact ⟨hstored.store, hstored.reqs, hstored.dies, hstored.cores, fun c va hlt _ => hstored.bytes c va hlt⟩

theorem accessOf_scalar {s : State} {e : Env} {m : MemWord} (h : m.reads = []) : accessOf s e m = m.acc := if_pos h

/-- The one lane of a record replaced. -/
theorem setLane_single {l l' : LaneAcc} (h : l'.lane = l.lane) : ([l].map fun x => if x.lane = l'.lane then l' else x) = [l'] := by
  simp [h]

/-- A byte further up in a sector. -/
theorem L1.byte_add (L : L1) (c : Nat) {va k : Nat} (h : va % 64 + k < 64) : L.byte c (va + k) =
    if (L.sect (sectKey c va)).held.getLsbD (va % 64 + k) then
      some ((L.sect (sectKey c va)).data.extractLsb' (8 * (va % 64 + k)) 8) else none := by
  have hdiv : (va + k) / 64 = va / 64 := by omega
  have hmod : (va + k) % 64 = va % 64 + k := by omega
  unfold byte sectKey
  rw [hdiv, hmod]

/-- The bytes of a load within a sector, all of which L1 holds. -/
theorem L1.load_of_held {L : L1} {c va n : Nat} (hsect : va % 64 + n ≤ 64) (hheld : ∀ k, k < n → (L.byte c (va + k)).isSome = true) :
    (L.sect (sectKey c va)).covers (byteMask (va % 64) n) = true ∧
    sectLoad (L.sect (sectKey c va)).data (va % 64) n = ofBytes ((List.range n).map fun k => (L.byte c (va + k)).getD 0) := by
  have hthere (k : Nat) (hk : k < n) : (L.sect (sectKey c va)).held.getLsbD (va % 64 + k) = true := by
    have h := hheld k hk
    rw [L1.byte_add L c (by omega)] at h
    by_contra hnot
    rw [if_neg hnot] at h
    cases h
  constructor
  · refine covers_of_held fun k hlo hhi _ => ?_
    have h := hthere (k - va % 64) (by omega)
    rwa [Nat.add_sub_cancel' hlo] at h
  · rw [sectLoad_eq_ofBytes]
    refine congrArg ofBytes (List.map_congr_left fun k hk => ?_)
    rw [L1.byte_add L c (by have := List.mem_range.1 hk; omega), if_pos (hthere k (List.mem_range.1 hk))]
    rfl

section
variable {s : State} {e : Env} {i : Instr} {m : MemWord} {l : LaneAcc} (hat : GroupAt s e 1) (hcheck : i.check = none)
  (hm : memWord e i = some m) (hissue : Sys2Proof.mayIssue s e m) (hsplit : s.split = none) (horder : (memFields e).order = 0)
  (hspace : (memFields e).space ≠ 4) (hreads : m.reads = []) (hlane : m.acc.lanes = [l]) (hva : l.va < synonymBase)
include hat hcheck hm hissue hsplit horder hreads hlane hva

/-- A scalar word at a global address: its one lane is tried. -/
theorem exec_globalScalar : ∃ V : Team, V.id = e.team.id ∧ exec i s = .next (retire m.w e (completeAccess
    (tryLane (accessing { s with nextId := s.nextId + 1 } e.t V s.nextId m.acc) s.nextId m.acc V [] l) s.nextId)) := by
  obtain ⟨V, hid, hexec⟩ := exec_globalWord hat hcheck hm hissue hsplit horder (by rw [hlane]; exact List.cons_ne_nil _ _)
    (by rw [hlane]; simpa using hva)
  rw [accessOf_scalar hreads, hlane] at hexec
  exact ⟨V, hid, hexec⟩

include hspace

/-- A scalar load that L1 answers. -/
theorem exec_globalLoad (hkind : m.acc.kind = .load)
    (hbad : ((s.core e.team.id.core).l1.sect (sectKey e.team.id.ctx l.va)).bad = false)
    (hheld : ∀ k, k < m.acc.size → (l1Byte s e.team.id.core e.team.id.ctx (l.va + k)).isSome = true) :
    ∃ U, exec i s = .next (retire m.w e (accessing { s with nextId := s.nextId + 1 } e.t U s.nextId { m.acc with
      level := 1
      lanes := [{ l with st := .done, val := loaded m.acc.size m.acc.sext (ofBytes ((List.range m.acc.size).map fun k =>
        (l1Byte s e.team.id.core e.team.id.ctx (l.va + k)).getD 0)) }] })) := by
  have hform := memWord_atIssue hcheck hm
  obtain ⟨V, hid, hexec⟩ := exec_globalScalar hat hcheck hm hissue hsplit horder hreads hlane hva
  have hspace' : m.acc.space ≠ 4 := by rcases hform.space with h | h <;> omega
  have hsect := lane_in_sector hcheck hm hissue (l := l) (by rw [hlane]; exact List.mem_singleton_self l)
  obtain ⟨hcovers, hvalue⟩ := L1.load_of_held hsect hheld
  have htry := tryLane_load_hit (s := { s with nextId := s.nextId + 1 }) (id := s.nextId) (V := V) (T := V) (b := m.acc) (l := l) hform.team
    hkind (hform.order.trans horder) hspace' hva (by rw [hid]; exact hbad) (by rw [hid]; exact hcovers)
  have hreach : m.acc.reach 1 = { m.acc with level := 1 } := by
    unfold Access.reach
    rw [hform.level]
    rfl
  have hone : ∀ v, (m.acc.reach 1).withLanes ((m.acc.reach 1).lanes.map fun x => if x.lane = l.lane then
      { l with st := .done, val := v } else x) = { m.acc with level := 1, lanes := [{ l with st := .done, val := v }] } := fun v => by
    rw [hreach, hlane]
    exact congrArg (fun ls => ({ m.acc with level := 1, lanes := ls } : Access))
      (setLane_single (l := l) (l' := { l with st := .done, val := v }) rfl)
  rw [hone, hreach, hid] at htry
  simp only [l1Byte_eq, ← hvalue]
  have hdone : ∀ v, ({ m.acc with level := 1, lanes := [{ l with st := .done, val := v }] } : Access).plain := fun _ =>
    ⟨hform.kind, .inl (hform.order.trans horder), hform.parked⟩
  refine ⟨V.slowed { m.acc with level := 1 }, hexec.trans ?_⟩
  exact congrArg (fun u => (.next (retire m.w e u) : Out)) ((congrArg (completeAccess · s.nextId) htry).trans
    (completeAccess_of_plain (accessing_acc ..) (hdone _)))

/-- A relaxed scalar store, at core scope or narrower, whose line L1 holds or has room for. -/
theorem exec_globalScalarStore (hkind : m.acc.kind = .store) (hscope : (memFields e).scope < 3) (hcache : (memFields e).cache < 3)
    (hroom : (s.core e.team.id.core).l1.lines.has (lineOfSect (sectKey e.team.id.ctx l.va)) = true ∨
      (s.core e.team.id.core).l1.lines.length < 4096) : ∃ L U lvl,
    exec i s = .next (retire m.w e (accessing (setL1 { s with nextId := s.nextId + 1 } e.team.id.core L) e.t U s.nextId
      { m.acc with level := lvl, lanes := [l.stored] })) ∧
    ∀ c va, va < 2 ^ 60 → L.byte c va = if c = e.team.id.ctx ∧ l.va ≤ va ∧ va < l.va + m.acc.size then
      some (l.x.extractLsb' (8 * (va - l.va)) 8) else (s.core e.team.id.core).l1.byte c va := by
  have hform := memWord_atIssue hcheck hm
  obtain ⟨V, hid, hexec⟩ := exec_globalScalar hat hcheck hm hissue hsplit horder hreads hlane hva
  have hspace' : m.acc.space ≠ 4 := by rcases hform.space with h | h <;> omega
  have hcache' : m.acc.cache < 3 := by rcases hform.cache with h | h <;> omega
  have hsect := lane_in_sector hcheck hm hissue (l := l) (by rw [hlane]; exact List.mem_singleton_self l)
  obtain ⟨L, U, lvl, htry, -, hbytes⟩ := tryLane_store hkind (hform.order.trans horder) hspace' (hform.scope ▸ hscope) hcache'
    (s := { s with nextId := s.nextId + 1 }) (id := s.nextId) (V := V) (T := V) hform.team hva hsect (by rw [hid]; exact hroom)
  have hone : ({ m.acc with level := lvl } : Access).withLanes (m.acc.lanes.map fun x : LaneAcc => if x.lane = l.lane then
      { l with st := .done } else x) = { m.acc with level := lvl, lanes := [l.stored] } := by
    rw [hlane]
    exact congrArg (fun ls => ({ m.acc with level := lvl, lanes := ls } : Access)) (setLane_single (l := l) (l' := l.stored) rfl)
  rw [hone] at htry
  rw [hid] at htry hbytes
  have hdone : ({ m.acc with level := lvl, lanes := [l.stored] } : Access).plain :=
    ⟨hform.kind, .inl (hform.order.trans horder), hform.parked⟩
  refine ⟨L, U, lvl, hexec.trans ?_, hbytes⟩
  exact congrArg (fun u => (.next (retire m.w e u) : Out)) ((congrArg (completeAccess · s.nextId) htry).trans
    (completeAccess_of_plain (accessing_acc ..) hdone))

end

theorem nearGlobalAccess : nearGlobalAccessRule := by
  intro s e i m l hat hcheck hm hissue hsplit horder hspace hreads hlane hva
  refine ⟨fun hkind hscope hcache hroom => ?_, fun hkind hbad hheld => ?_⟩
  · obtain ⟨L, U, lvl, hexec, hbytes⟩ := exec_globalScalarStore hat hcheck hm hissue hsplit horder hspace hreads hlane hva
      hkind hscope hcache hroom
    obtain ⟨u, hu, hteams⟩ := retire_teams m.w e (accessing (setL1 { s with nextId := s.nextId + 1 } e.team.id.core L) e.t U s.nextId
      { m.acc with level := lvl, lanes := [l.stored] })
    refine ⟨u, hexec.trans (congrArg _ hu), ?_⟩
    rw [hteams]
    refine ⟨rfl, rfl, rfl, fun c hc => setL1_core_other _ _ hc, fun c va hlt _ => ?_, ?_⟩
    · exact (congrArg (L1.byte · c va) (setL1_l1 _ _ _)).trans (hbytes c va hlt)
    · exact congrArg (Option.map Access.complete) (Tbl.get?_put_same _ _ _)
  · obtain ⟨U, hexec⟩ := exec_globalLoad hat hcheck hm hissue hsplit horder hspace hreads hlane hva hkind hbad hheld
    obtain ⟨u, hu, hteams⟩ := retire_teams m.w e (accessing { s with nextId := s.nextId + 1 } e.t U s.nextId _)
    refine ⟨u, hexec.trans (congrArg _ hu), ?_, ?_⟩
    · rw [hteams]; rfl
    · rw [hteams]; exact Tbl.get?_put_same _ _ _

/-- Settles O26: a store's lanes pass one after another through L1 (`foldl_tryLane_store`), each of which puts its bytes into L1 and
leaves the rest; a load that L1 answers leaves L1 as it was. -/
theorem globalAccess : Obligations.GlobalAccess := ⟨nearGlobalAccess, globalStoreFrame⟩

end Sys2Proof.Machine
end

section
/-! Memory words of any ORDER (O23; R113, R114, R187, R281 to R293): a word that may issue maps its destinations and performs its access,
which acquires or releases first where its ORDER says so. -/

namespace Sys2Proof.Machine

/-- What a memory word that may issue does: it maps its destinations and performs its access, where it has one. -/
def performWord (s : State) (e : Env) (m : MemWord) : Res :=
  if m.acc.lanes = [] then .done (mapDests s e m) else performAccess (mapDests s e m) e (memFields e) (accessOf s e m)

section
variable {s : State} {e : Env}

/-! ## The common forms -/

/-- SPACE and CACHE play no part in how an access waits, releases and acquires. -/
theorem performAccess_congr {f f' : MemF} (horder : f.order = f'.order) (hscope : f.scope = f'.scope) (a : Access) :
    performAccess s e f a = performAccess s e f' a := by
  unfold performAccess MemF.releases MemF.acquires
  rw [horder, hscope]

/-- A vector word that may issue, whose common form takes the word's fields but for SPACE and CACHE. -/
theorem vectorWord_performs {m : MemWord} (hat : GroupAt s e 1) (hissue : Sys2Proof.mayIssue s e m) (hreads : m.reads ≠ [])
    {f : MemF} (hspace : f.space = m.acc.space) (horder : f.order = (memFields e).order) (hscope : f.scope = (memFields e).scope)
    {F : Env → MemF → Res}
    (hF : F e (memFields e) = vectorAccess s e f m.reads m.writes m.store { m.acc with lanes := [] } m.barred m.acc.lanes) :
    runMem m.w s m.row F = finish m.w e s (performWord s e m) := by
  obtain ⟨hreserved, haccepts, hthrottled, hmapped, hrows, hcheck, -⟩ := hissue
  rw [runMem_at hat m.w F hreserved haccepts hthrottled, hF]
  unfold vectorAccess performWord accessOf mapDests
  rw [if_neg hreads, if_neg hreads]
  simp only [hspace, hmapped, hrows, hcheck, performAccess_congr horder hscope, Bool.not_true, Bool.false_eq_true, if_false,
    List.isEmpty_iff]

/-- The same for a scalar word. -/
theorem scalarWord_performs {m : MemWord} (hat : GroupAt s e 1) (hissue : Sys2Proof.mayIssue s e m) (hreads : m.reads = [])
    (hspace : (memFields e).space = m.acc.space) {F : Env → MemF → Res} {va : Nat} {x : Dword} {c : Word}
    (hlanes : m.acc.lanes = slane va x c) (hbarred : m.barred = fun _ => false)
    (hF : F e (memFields e) = scalarAccess s e (memFields e) m.store { m.acc with lanes := [] } va x c) :
    runMem m.w s m.row F = finish m.w e s (performWord s e m) := by
  obtain ⟨hreserved, haccepts, hthrottled, -, -, hcheck, -⟩ := hissue
  have hne : m.acc.lanes ≠ [] := by rw [hlanes]; exact List.cons_ne_nil _ _
  have hlanes' : [laneTodo 0 va x c] = m.acc.lanes := hlanes.symm
  rw [runMem_at hat m.w F hreserved haccepts hthrottled, hF]
  unfold scalarAccess performWord accessOf mapDests
  rw [if_pos hreads, if_pos hreads, if_neg hne]
  simp only [hspace, hlanes', ← hbarred, hcheck]

/-! ## Each word -/

section
variable (hat : GroupAt s e 1) {m : MemWord} (hissue : Sys2Proof.mayIssue s e m)
include hat hissue

theorem near_performs {w nv store : Bool} {z : BitVec 2} {d o : BitVec 7} {b : BitVec 6} {sc : Bool}
    (hm : nearWord e w nv store z d o b sc = m) : nearAccess w nv store z d o b sc s = finish m.w e s (performWord s e m) := by
  subst hm
  have hz : z.toNat ≤ 4 := z.isLt.le
  refine vectorWord_performs (f := { memFields e with space := 0, cache := 0 }) hat hissue (List.cons_ne_nil _ _) rfl rfl rfl ?_
  cases store
  · simp only [sizeOfCode_eq_zcode hz, names_eq_namesOf, Bool.false_eq_true, if_false]
    cases nv <;> rfl
  · simp only [sizeOfCode_eq_zcode hz, names_eq_namesOf, data_eq_dataOf, Bool.not_true, Bool.false_eq_true, if_true, if_false]
    cases nv <;> rfl

theorem vectorAtomic_performs {w home : Bool} {p : BitVec 4} {d o : BitVec 7} {b : BitVec 6} {sc : Bool}
    (hm : atomWord e w home p.toNat d o b sc = m) : vectorAtomic w home p d o b sc s = finish m.w e s (performWord s e m) := by
  subst hm
  refine vectorWord_performs hat hissue (List.cons_ne_nil _ _) rfl rfl rfl ?_
  simp only [atomSize_eq_zatom, laneVa_eq_vaddr, names_eq_namesOf, data_eq_dataOf, atomWide_eq, atomPair_eq, Bool.decide_eq_true]
  rfl

theorem scalarAtomic_performs {w : Bool} {p : BitVec 4} {dest : Dest} {a b : BitVec 6} (hm : satomWord e w p.toNat dest a b = m) :
    scalarAtomic w p a b dest s = finish m.w e s (performWord s e m) := by
  subst hm
  refine scalarWord_performs hat hissue rfl rfl rfl rfl ?_
  simp only [atomSize_eq_zatom, atomOperand_eq]
  rfl

/-- A memory word that may issue, of any ORDER. -/
theorem exec_memWord_performs {i : Instr} (hcheck : i.check = none) (hm : memWord e i = some m) :
    exec i s = finish m.w e s (performWord s e m) := by
  unfold memWord at hm
  split at hm
  case h_1 =>
    obtain rfl := Option.some.inj hm
    rw [exec_vld]
    refine vectorWord_performs hat hissue (List.cons_ne_nil _ _) rfl rfl rfl ?_
    simp only [sizeOfCode_eq_zcode (code_le_four hcheck), laneVa_eq_vaddr, names_eq_namesOf]
    rfl
  case h_2 =>
    obtain rfl := Option.some.inj hm
    rw [exec_vst]
    refine vectorWord_performs hat hissue (List.cons_ne_nil _ _) rfl rfl rfl ?_
    simp only [sizeOfCode_eq_zcode (code_le_three hcheck).step, laneVa_eq_vaddr, names_eq_namesOf, data_eq_dataOf]
    rfl
  case h_3 | h_4 | h_5 | h_6 => exact near_performs hat hissue (Option.some.inj hm)
  case h_7 | h_8 => exact vectorAtomic_performs hat hissue (Option.some.inj hm)
  case h_9 =>
    obtain rfl := Option.some.inj hm
    rw [exec_sld]
    refine scalarWord_performs hat hissue rfl rfl rfl rfl ?_
    simp only [sizeOfCode_eq_zcode (code_le_four hcheck), scalarVa_eq]
    rfl
  case h_10 =>
    obtain rfl := Option.some.inj hm
    rw [exec_sst]
    refine scalarWord_performs hat hissue rfl rfl rfl rfl ?_
    simp only [sizeOfCode_eq_zcode (code_le_three hcheck).step, scalarVa_eq]
    rfl
  case h_11 w p d a b =>
    rw [exec_satom]
    unfold execSatom
    simp only [atomWide_eq, decide_eq_true_eq]
    exact scalarAtomic_performs hat hissue (Option.some.inj hm)
  case h_12 => exact scalarAtomic_performs hat hissue (Option.some.inj hm)
  case h_13 => cases hm

end

/-! ## The access -/

/-- What the release of an access answers before the access is issued; an access that does not release goes on at once. -/
def readyFor (s : State) (e : Env) (a : Access) : Ready :=
  if (memFields e).releases then release s e (memFields e).scope (!(a.lanes.any fun l => inBank l.va)) else .go [] s

/-- An access that neither its counters, the late replies, its group's earlier accesses nor its release hold. -/
theorem performAccess_of_ready {u s' : State} {a : Access} {after : List Nat} (hld : e.grp.ldcnt < 255) (hst : e.grp.stcnt < 255)
    (hfar : a.far = true → farCount u e.t < 64) (hwait : mustWait u e.t e.g a.size a.lanes = false)
    (hready : readyFor u e a = .go after s') :
    performAccess u e (memFields e) a = .done (issueAccess (if a.kind = .load ∧ (memFields e).acquires = true then
      acquire s' e.team.id.core e.team.id.ctx (memFields e).scope else s') e a after) := by
  have hfull : (match a.counter with
      | some true => decide (255 ≤ e.grp.ldcnt)
      | some false => decide (255 ≤ e.grp.stcnt)
      | none => false) = false := by
    rcases a.counter with _ | _ | _ <;> simp <;> omega
  have hlate : (a.far && decide (64 ≤ farCount u e.t)) = false := by
    cases hf : a.far with
    | false => rfl
    | true => simpa using hfar hf
  unfold readyFor at hready
  unfold performAccess
  simp only [hlate, hwait, hready, Bool.false_eq_true, if_false, Bool.and_eq_true, beq_iff_eq]
  rw [if_neg]
  exact Bool.eq_false_iff.1 hfull

/-- No row of R286 for loads takes an ORDER that releases. -/
theorem loads_never_release {i : Instr} {m : MemWord} (hm : memWord e i = some m) (hissue : Sys2Proof.mayIssue s e m)
    (hrel : (memFields e).releases = true) : m.acc.kind ≠ .load := by
  obtain ⟨-, haccepts, -⟩ := hissue
  have hload : MemClass.load.accepts (memFields e) = false := by
    have horder : (memFields e).order = 2 ∨ (memFields e).order = 3 := by simpa [MemF.releases] using hrel
    rcases horder with h | h <;> simp [MemClass.accepts, h]
  have near {w nv store : Bool} {z : BitVec 2} {d o : BitVec 7} {b : BitVec 6} {sc : Bool}
      (h : nearWord e w nv store z d o b sc = m) : m.acc.kind ≠ .load := by
    subst h
    cases store with
    | true => exact AccKind.noConfusion
    | false => exact absurd (hload.symm.trans haccepts) Bool.false_ne_true
  unfold memWord at hm
  split at hm
  case h_3 | h_4 | h_5 | h_6 => exact near (Option.some.inj hm)
  case h_13 => cases hm
  all_goals obtain rfl := Option.some.inj hm
  case h_1 | h_9 => exact absurd (hload.symm.trans haccepts) Bool.false_ne_true
  all_goals exact AccKind.noConfusion

theorem mapDests_accs (s : State) (e : Env) (m : MemWord) : (mapDests s e m).accs = s.accs := by
  unfold mapDests
  split <;> rfl

/-- A word that may issue, once its release has made ready: the mapping of its destinations adds nothing that holds its access. -/
theorem performWord_of_ready {m : MemWord} {s' : State} {after : List Nat} (hissue : Sys2Proof.mayIssue s e m) (hlanes : m.acc.lanes ≠ [])
    (hready : readyFor (mapDests s e m) e m.acc = .go after s') :
    performWord s e m = .done (issueAccess (if m.acc.kind = .load ∧ (memFields e).acquires = true then
      acquire s' e.team.id.core e.team.id.ctx (memFields e).scope else s') e (accessOf s e m) after) := by
  obtain ⟨-, -, -, -, -, -, hld, hst, hfar, hwait⟩ := hissue
  obtain ⟨d, hd⟩ := accessOf_eq s e m
  unfold performWord
  rw [if_neg hlanes, hd]
  refine performAccess_of_ready hld hst ?_ ?_ hready
  · unfold farCount
    rw [mapDests_accs]
    exact hfar
  · unfold mustWait
    rw [mapDests_accs]
    exact hwait

end

/-- Settles O23: every memory word hands its access to the common forms (`exec_memWord_performs`), which issue it once its release has
made ready (`performWord_of_ready`); a releasing word is no load (R286), so it does not acquire before it issues. -/
theorem memoryWordIssue : Obligations.MemoryWordIssue := by
  intro s e i m hat hcheck hm hissue
  have hexec := exec_memWord_performs hat hissue hcheck hm
  refine ⟨fun hnone => ?_, fun hlanes hrel => ?_, fun hlanes hrel after s2 hgo => ?_⟩
  · rw [hexec, performWord, if_pos hnone]
    rfl
  · have hready : readyFor (mapDests s e m) e m.acc = .go [] (mapDests s e m) := if_neg (ne_true_of_eq_false hrel)
    rw [hexec, performWord_of_ready hissue hlanes hready]
    rfl
  · have hready : readyFor (mapDests s e m) e m.acc = .go after s2 := (if_pos hrel).trans hgo
    rw [hexec, performWord_of_ready hissue hlanes hready, if_neg fun h => loads_never_release hm hissue hrel h.1]
    rfl

end Sys2Proof.Machine
end

section
/-! The fences and the cache words (O25; R113 to R115, R121 to R123, R294, R295): each completes once what it waits for is done. -/

namespace Sys2Proof.Machine

section
variable {s : State} {e : Env}

/-- A fence or a cache word, which takes every ORDER, of a group that the throttle lets go on. -/
theorem runMem_other (hat : GroupAt s e 1) (w : Bool) (f : Env → MemF → Res) (hreserved : (memFields e).reserved = false)
    (hthrottled : throttled s e = false) : runMem w s .other f = finish w e s (f e (memFields e)) :=
  runMem_at hat w f hreserved rfl hthrottled

/-! ## The release of a fence (R113) -/

section
variable (hhold : ∀ r, e.path.hold ≠ some (.fence r)) (hpending : pendingAccess s e.t e.g = false)
include hhold hpending

/-- At core and cluster scope a release only waits for the group's accesses; at die scope it writes L1's narrower lines to L2 too. -/
theorem release_within_die {scope : Nat} (hscope : scope ≤ 3) (own : Bool) :
    release s e scope own = .go [] (if scope = 3 then l1Release s e.team.id.core 3 else s) := by
  unfold release
  split
  case h_1 r h => exact absurd h (hhold r)
  case h_2 =>
    rw [hpending, if_neg Bool.false_ne_true]
    by_cases hdie : scope = 3
    · subst hdie
      rfl
    · rw [if_pos (by omega), if_neg hdie]

/-- Beyond the die a fence's release goes on once the write-backs are sent, at system scope once they are acknowledged. -/
theorem release_beyond_die {scope : Nat} (hscope : 4 ≤ scope) :
    let u := l2Flush (l1Release s e.team.id.core scope) (dieOf e.team.id.core) e.team.id.ctx
    (if scope = 5 then unacked u (dieOf e.team.id.core) else unsent u (dieOf e.team.id.core) e.team.id.ctx) = [] →
    release s e scope false = .go [] u := by
  intro u hnone
  unfold release
  split
  case h_1 r h => exact absurd h (hhold r)
  case h_2 =>
    rw [hpending, if_neg Bool.false_ne_true, if_neg (by omega)]
    dsimp only
    rw [if_neg (by omega), hnone, Bool.and_false, if_neg Bool.false_ne_true]
    rfl

end

/-! ## The fences (R294) -/

section
variable (hat : GroupAt s e 1) (hreserved : (memFields e).reserved = false) (hthrottled : throttled s e = false)
include hat hreserved hthrottled

theorem exec_fence_acquires (w : Bool) {o : BitVec 6} (sc : BitVec 6) (ho : o.toNat = 1) (hreads : pendingRead s e.t e.g = false) :
    exec (.fence w o sc) s = .next (retire w e (acquire s e.team.id.core e.team.id.ctx sc.toNat)) := by
  rw [exec_fence, execFence, runMem_other hat w _ hreserved hthrottled, ho, hreads, if_neg Bool.false_ne_true]
  rfl

/-- A fence that releases, and with ORDER 3 acquires after it. -/
theorem exec_fence_releases (w : Bool) {o sc : BitVec 6} (ho : o.toNat = 2 ∨ o.toNat = 3) {after : List Nat} {u : State}
    (hgo : release s e sc.toNat false = .go after u) : exec (.fence w o sc) s =
      .next (retire w e (if o.toNat = 3 then acquire u e.team.id.core e.team.id.ctx sc.toNat else u)) := by
  rw [exec_fence, execFence, runMem_other hat w _ hreserved hthrottled]
  rcases ho with ho | ho
  · rw [ho, hgo]
    rfl
  · rw [ho, hgo]
    rfl

theorem exec_tlfence_completes (hhold : ∀ r, e.path.hold ≠ some (.fence r)) (w : Bool) (sc : BitVec 6)
    (hstores : pendingStore s e.t e.g (fun _ => true) = false) :
    let u := l2Flush (l1Release s e.team.id.core 5) (dieOf e.team.id.core) e.team.id.ctx
    unackedWrites u (dieOf e.team.id.core) e.team.id.ctx = [] → exec (.tlfence w sc) s = .next (retire w e u) := by
  intro u hnone
  rw [exec_tlfence, execTlfence, runMem_other hat w _ hreserved hthrottled]
  dsimp only
  split
  case h_1 r h => exact absurd h (hhold r)
  case h_2 =>
    rw [hstores, if_neg Bool.false_ne_true, hnone]
    rfl

/-- `xfence C,…`: what the team's copies have landed is performed in L2. -/
theorem exec_xfence_copies (w : Bool) {a : BitVec 6} (b : BitVec 6) (ha : a.toNat = 1) :
    exec (.xfence w a b) s = .next (retire w e (performTeamLanded s e.t (dieOf e.team.id.core))) := by
  rw [exec_xfence, execXfence, runMem_other hat w _ hreserved hthrottled, ha]
  rfl

/-- `xfence G,C`: the context's lines of L1 are written to L2. -/
theorem exec_xfence_group_copies (w : Bool) {a b : BitVec 6} (ha : a.toNat = 0) (hb : b.toNat = 1)
    (hstores : pendingStore s e.t e.g (fun _ => true) = false) : exec (.xfence w a b) s = .next (retire w e
      ((s.core e.team.id.core).l1.lines.foldl (fun u l =>
        if ctxOfSect (2 * l.1) = e.team.id.ctx then l1CleanLine u e.team.id.core l.1 else u) s)) := by
  rw [exec_xfence, execXfence, runMem_other hat w _ hreserved hthrottled, ha, hb]
  dsimp only
  rw [hstores, if_neg Bool.false_ne_true]
  rfl

/-- `xfence G,…` for another later access: the group's scratchpad stores are applied. -/
theorem exec_xfence_group (w : Bool) {a b : BitVec 6} (ha : a.toNat = 0) (hb : b.toNat ≠ 1)
    (hstores : pendingStore s e.t e.g Access.inBank = false) : exec (.xfence w a b) s = .next (retire w e s) := by
  rw [exec_xfence, execXfence, runMem_other hat w _ hreserved hthrottled, ha]
  dsimp only
  split
  case h_1 hb' => exact absurd hb' hb
  case h_2 =>
    rw [hstores, if_neg Bool.false_ne_true]
    rfl
  case h_3 hzero => cases hzero
  case h_4 hzero _ _ => exact (hzero rfl).elim

/-- `xfence F,…`: the group's tile stores are applied. -/
theorem exec_xfence_flume (w : Bool) {a b : BitVec 6} (ha : 2 ≤ a.toNat) (htiles : pendingTileStore e.team e.g = false) :
    exec (.xfence w a b) s = .next (retire w e s) := by
  rw [exec_xfence, execXfence, runMem_other hat w _ hreserved hthrottled]
  dsimp only
  split
  case h_1 ha' _ => omega
  case h_2 ha' _ => omega
  case h_3 ha' => omega
  case h_4 =>
    rw [htiles, if_neg Bool.false_ne_true]
    rfl

theorem exec_ifence_completes (w : Bool) (hstores : pendingStore s e.t e.g (fun a => a.path == e.p) = false) :
    exec (.ifence w) s = .next (retire w e
      (let u := noFill (l1Release s e.team.id.core 3) (dieOf e.team.id.core) fun r =>
         r.core == e.team.id.core && r.ctx == e.team.id.ctx && (match r.who with | .fetch _ _ _ => true | _ => false)
       u.setCore e.team.id.core { u.core e.team.id.core with
         icache := (u.core e.team.id.core).icache.filter fun x => ctxOfSect x.1 != e.team.id.ctx })) := by
  rw [exec_ifence, execIfence, runMem_other hat w _ hreserved hthrottled]
  dsimp only
  rw [hstores, if_neg Bool.false_ne_true]
  rfl

end

end

theorem fenceResults : fenceResultsRule := by
  intro s e hat hreserved hthrottled hhold
  refine ⟨?_, ?_, ?_, ?_, ?_, ?_, ?_, ?_, ?_⟩
  · exact fun w o sc ho hreads => exec_fence_acquires hat hreserved hthrottled w sc ho hreads
  · exact fun w o sc ho hpending hscope =>
      exec_fence_releases hat hreserved hthrottled w ho (release_within_die hhold hpending hscope false)
  · exact fun w o sc ho hpending hscope hnone =>
      exec_fence_releases hat hreserved hthrottled w ho (release_beyond_die hhold hpending hscope hnone)
  · exact fun w sc hstores hnone => exec_tlfence_completes hat hreserved hthrottled hhold w sc hstores hnone
  · exact fun w a b ha => exec_xfence_copies hat hreserved hthrottled w b ha
  · exact fun w a b ha hb hstores => exec_xfence_group_copies hat hreserved hthrottled w ha hb hstores
  · exact fun w a b ha hb hstores => exec_xfence_group hat hreserved hthrottled w ha hb hstores
  · exact fun w a b ha htiles => exec_xfence_flume hat hreserved hthrottled w ha htiles
  · exact fun w hstores => exec_ifence_completes hat hreserved hthrottled w hstores

/-! ## The cache words (R295) -/

/-- The four cache words differ in their operation alone. -/
theorem exec_cacheOp {i : Instr} {op : Nat} {w : Bool} {o : BitVec 7} {b : BitVec 6} {sc : Bool}
    (h : cacheOp i = some (op, w, o, b, sc)) (s : State) : exec i s = cacheWord w op o b sc s := by
  unfold cacheOp at h
  split at h
  case h_5 => cases h
  all_goals
    obtain ⟨rfl, rfl, rfl, rfl, rfl⟩ : _ ∧ _ ∧ _ ∧ _ ∧ _ := by simpa only [Option.some.injEq, Prod.mk.injEq] using h
    rfl

/-- A cache word that has not issued, whose name is mapped, whose counter has room and whose addresses lie below 2^60. -/
theorem cacheWord_at {s : State} {e : Env} (hat : GroupAt s e 1) (w : Bool) (op : Nat) {o : BitVec 7} {b : BitVec 6} {sc : Bool}
    (hreserved : (memFields e).reserved = false) (hthrottled : throttled s e = false) (hhold : ∀ r, e.path.hold ≠ some (.fence r))
    (hmapped : (e.team.mapped e.g o.toNat).isSome = true) (hst : e.grp.stcnt < 255) :
    let ls := vlanes e (vaddr e b o sc 1) (fun _ => 0) fun _ => 0
    (∀ l ∈ ls, l.va < 2 ^ 60) →
    let u := issueAccess s e { Access.blank e { memFields e with order := 0 } .cache 1 with op, lanes := ls } []
    cacheWord w op o b sc s = finish w e s (if ls.isEmpty then .done s
      else if op ≤ 1 && (memFields e).scope = 5 then .hold u (.fence []) else .done u) := by
  intro ls hrange u
  have hnames : e.team.allMapped e.g [o.toNat] = true := by simpa [Team.allMapped] using hmapped
  have hlanes : vectorLanes e (fun l => laneVa (e.pair b) (laneAt (e.team.lanes e.g o.toNat) l) sc 1) (fun _ => 0) (fun _ => 0) = ls := by
    simp only [laneVa_eq_vaddr]
    rfl
  have hfind : (ls.find? fun l => 2 ^ 60 ≤ l.va) = none :=
    List.find?_eq_none.2 fun l hl => by simpa using hrange l hl
  have hroom : (decide (op ≤ 1) && decide (255 ≤ e.grp.stcnt)) = false := by
    rw [decide_eq_false (by omega : ¬ 255 ≤ e.grp.stcnt), Bool.and_false]
  rw [cacheWord, runMem_other hat w _ hreserved hthrottled]
  dsimp only
  split
  case h_1 r h => exact absurd h (hhold r)
  case h_2 =>
    rw [hnames, hlanes, hfind]
    dsimp only
    rw [hroom, if_neg Bool.false_ne_true, Bool.not_true, if_neg Bool.false_ne_true]

theorem cacheWordResults : cacheWordResultsRule := by
  intro s e i op w o b sc hat hop hreserved hthrottled hhold hmapped hst ls hrange u
  have hexec := (exec_cacheOp hop s).trans (cacheWord_at hat w op hreserved hthrottled hhold hmapped hst hrange)
  refine ⟨fun hnone => ?_, fun hlanes hwrites hscope => ?_, fun hlanes hgoes => ?_⟩
  · rw [hexec, if_pos (List.isEmpty_iff.2 hnone)]
    rfl
  · have hstands : (decide (op ≤ 1) && decide ((memFields e).scope = 5)) = true := by simp [hwrites, hscope]
    rw [hexec, if_neg (mt List.isEmpty_iff.1 hlanes), if_pos hstands]
    simp only [finish, Hold.begun, Bool.and_true]
    rfl
  · have hgoes' : (decide (op ≤ 1) && decide ((memFields e).scope = 5)) ≠ true := by
      simp only [ne_eq, Bool.and_eq_true, decide_eq_true_eq]
      omega
    rw [hexec, if_neg (mt List.isEmpty_iff.1 hlanes), if_neg hgoes']
    rfl

/-- Settles O25: a fence goes on with what its release makes of the state (`release_within_die`, `release_beyond_die`) or with what it
waits for done; a cache word issues the access of its lanes' lines and stands only where it writes back at system scope. -/
theorem fenceAndCacheWords : Obligations.FenceAndCacheWords := ⟨fenceResults, cacheWordResults⟩

end Sys2Proof.Machine
end

section
/-! Calls and indirect jumps (O11; R160, R221, R222). A word of major 0x0A sees its agent, a path of a group or a sequencer, as a
`Caller`; what the word does with it is said once for both. -/

namespace Sys2Proof.Machine

/-! ## The agent of a call -/

/-- A group's path and a sequencer as the words of major 0x0A see them. -/
def Env.caller (e : Env) : Caller := ⟨e.team, e.t, some e.g, e.p, e.path.pc, e.path.cstack, 32, readS e.grp e.path⟩
def SeqEnv.caller (q : SeqEnv) : Caller := ⟨q.team, q.t, none, if q.flume then 0 else 1, q.seq.pc, q.seq.cstack, 8, q.s⟩

theorem SeqEnv.caller_setStack (q : SeqEnv) (s : State) (k : List Dword) : q.caller.setStack s k = seqStack s q k := by
  unfold seqStack Caller.setStack SeqEnv.caller
  cases q.flume <;> rfl

theorem callWord_group {s : State} {e : Env} (h : GroupAt s e 0) (w : Bool) (regs : List Nat) (f : Caller → Res) :
    callWord w s regs f = finish w e s (f e.caller) :=
  runX_any0_group h w _ _

theorem callWord_seq {s : State} {q : SeqEnv} (h : SeqAt s q 0) (w : Bool) {regs : List Nat} (f : Caller → Res)
    (hregs : ∀ r ∈ regs, r ≤ 31) : callWord w s regs f = finishSeq q s (f q.caller) := by
  have hnone : (regs.any fun r => decide (31 < r)) = false := by simpa using hregs
  rw [callWord, runX_any0_seq h, hnone]
  rfl

theorem Caller.full_eq_false {c : Caller} {push : Bool} (h : push = true → c.cstack.length < c.depth) : c.full push = false := by
  cases push
  · rfl
  · simpa [Caller.full] using h rfl

/-! ## A fetch from the instruction cache (R123) -/

/-- Sectors that a core's instruction cache holds are not asked for. -/
theorem foldl_fetchSector_held {s : State} {core ctx : Nat} (field : State → Nat) (team : Nat) (group : Option Nat) (path : Nat)
    {l : List Nat} (h : ∀ a ∈ l, (s.core core).icache.has (sectKey ctx a) = true) :
    l.foldl (fun s a => fetchSector s core ctx (field s) team group path a) s = s := by
  induction l with
  | nil => rfl
  | cons a l ih =>
    rw [List.forall_mem_cons] at h
    rw [List.foldl_cons, fetchSector, if_pos h.1]
    exact ih h.2

/-- A fetch of bytes that are cached gives them and changes nothing. -/
theorem fetch_cached {s : State} {team : Team} {va n : Nat} (h : cached s team va n) (t : Nat) (group : Option Nat) (path : Nat) :
    fetch s team t group path va n = .bytes (cachedBytes s team va n) s := by
  obtain ⟨hrange, hheld⟩ := h
  unfold fetch
  rw [if_neg (show ¬ synonymBase < va + n from Nat.not_lt.mpr hrange)]
  dsimp only
  rw [foldl_fetchSector_held (fun s => fieldOfTeam s team) t group path hheld, if_pos (List.all_eq_true.mpr hheld)]
  rfl

/-! ## The words -/

/-- A team's function table as the words read it from its context. -/
theorem functionTable_eq (s : State) (T : Team) : functionTable s T =
    (let ctx := s.ctx T.id.ctx
     let r := if T.id.image = 0 then (ctx.ftabD, ctx.ftlenD) else (ctx.ftabL, ctx.ftlenL)
     (r.1.toNat, r.2)) := by
  unfold functionTable; split <;> rfl

section
variable {s : State} {w : Bool} {c : Caller} {fin : Res → Out}

/-- A table jump whose entry is in the table and cached, and not 0, goes there. -/
theorem tableJump_goes {push : Bool} {a : BitVec 6} (hrun : ∀ f, callWord w s [a.toNat] f = fin (f c))
    (hroom : push = true → c.cstack.length < c.depth) {va : Nat}
    (hva : (functionTable s c.team).1 + 8 * (c.rd a.toNat).toNat = va) (hin : (c.rd a.toNat).toNat < (functionTable s c.team).2)
    (hcached : cached s c.team va 8) (hx : ofBytes (cachedBytes s c.team va 8) ≠ 0) :
    tableJump w push a s = fin (c.go s push (BitVec.ofNat 64 (4 * (ofBytes (cachedBytes s c.team va 8) / 4)))) := by
  rw [functionTable_eq] at hva hin
  dsimp only at hva hin
  unfold tableJump
  rw [hrun, if_neg (by simp [Caller.full_eq_false hroom])]
  dsimp only
  rw [hva, if_neg (Nat.not_le.mpr hin), fetch_cached hcached]
  exact congrArg fin (if_neg hx)

/-- A register jump to pinned text goes there. -/
theorem registerJump_goes {push : Bool} {a : BitVec 6} (hrun : ∀ f, callWord w s [a.toNat, a.toNat + 1] f = fin (f c))
    (hroom : push = true → c.cstack.length < c.depth) (hpin : pinned s c.team (pair (c.rd a.toNat) (c.rd (a.toNat + 1)))) :
    registerJump w push a s = fin (c.go s push (pair (c.rd a.toNat) (c.rd (a.toNat + 1)))) := by
  obtain ⟨haligned, hlow, hhigh⟩ := hpin
  unfold registerJump
  rw [hrun, if_neg (by simp [Caller.full_eq_false hroom]), if_neg (not_not_intro haligned), if_neg]
  simp only [Bool.or_eq_true, decide_eq_true_eq]
  omega

theorem execCall_goes {o : BitVec 20} (hrun : ∀ f, callWord w s [] f = fin (f c)) (hroom : c.cstack.length < c.depth) :
    execCall w o s = fin (.goto (c.setStack s ((c.pc + 4) :: c.cstack)) (relative c.pc o)) := by
  unfold execCall
  rw [hrun, if_neg (by simp [Caller.full_eq_false fun _ => hroom]), relTarget_eq_relative]
  rfl

theorem execRet_goes (hrun : ∀ f, callWord w s [] f = fin (f c)) {a : Dword} {k : List Dword} (hstack : c.cstack = a :: k) :
    execRet w s = fin (.goto (c.setStack s k) a) := by
  unfold execRet
  rw [hrun, hstack]

end

/-! ## The rules -/

theorem callResults : callResultsRule := by
  refine ⟨fun s e h => ?_, fun s q h => ?_⟩
  · refine ⟨fun w o hroom => ?_, fun w a k hstack => ?_, fun w a hpin => ?_, fun w a hroom hpin => ?_⟩
    · rw [exec_call, execCall_goes (callWord_group h w []) hroom]; rfl
    · rw [exec_ret, execRet_goes (callWord_group h w []) hstack]; rfl
    · rw [exec_jr, execJr, registerJump_goes (push := false) (callWord_group h w _) nofun hpin]; rfl
    · rw [exec_jrCall, execJrCall, registerJump_goes (callWord_group h w _) (fun _ => hroom) hpin]; rfl
  · refine ⟨fun w o hroom => ?_, fun w a k hstack => ?_⟩
    · rw [exec_call, execCall_goes (fun f => callWord_seq h w f (by simp)) hroom, q.caller_setStack]; rfl
    · rw [exec_ret, execRet_goes (fun f => callWord_seq h w f (by simp)) hstack, q.caller_setStack]; rfl

theorem tableJumpResults : tableJumpResultsRule := by
  intro s e w a h k va x hin hcached hx
  refine ⟨?_, fun hroom => ?_⟩
  · rw [exec_jt, execJt, tableJump_goes (push := false) (callWord_group h w _) nofun rfl hin hcached hx]; rfl
  · rw [exec_jtCall, execJtCall, tableJump_goes (callWord_group h w _) (fun _ => hroom) rfl hin hcached hx]; rfl

theorem sequencerJumpResults : sequencerJumpResultsRule := by
  intro s q w a h
  constructor
  · intro ha k va x hin hcached hx
    have hrun (f : Caller → Res) := callWord_seq h w (regs := [a.toNat]) f (by simpa using ha)
    refine ⟨?_, fun hroom => ?_⟩
    · rw [exec_jt, execJt, tableJump_goes (push := false) hrun nofun rfl hin hcached hx]; rfl
    · rw [exec_jtCall, execJtCall, tableJump_goes hrun (fun _ => hroom) rfl hin hcached hx, Caller.go, if_pos rfl,
        q.caller_setStack]
      rfl
  · intro ha x hpin
    have hrun (f : Caller → Res) := callWord_seq h w (regs := [a.toNat, a.toNat + 1]) f (by simp; omega)
    refine ⟨?_, fun hroom => ?_⟩
    · rw [exec_jr, execJr, registerJump_goes (push := false) hrun nofun hpin]; rfl
    · rw [exec_jrCall, execJrCall, registerJump_goes hrun (fun _ => hroom) hpin, Caller.go, if_pos rfl, q.caller_setStack]
      rfl

/-- Settles O11: a word of major 0x0A runs on its agent's `Caller`, and its target and its stack are those of the statement. -/
theorem callAndJumpWords : Obligations.CallAndJumpWords := ⟨callResults, tableJumpResults, sequencerJumpResults⟩

end Sys2Proof.Machine
end

section
/-! The engine words and launch chaining (O12; R161, R162, R235 to R237). -/

namespace Sys2Proof.Machine

section
variable {s : State} {e : Env} (h : GroupAt s e 0) (w : Bool)
include h

/-- Two addresses, both aligned and below 2^60, with nothing to wait for: the programs start. -/
theorem exec_efork_at (a b : BitVec 6) (hf : e.team.flume.running = false) (hs : e.team.sluice.running = false)
    (haddr : ∀ x ∈ [e.pair a, e.pair b], x.toNat % 4 = 0 ∧ x.toNat < 2 ^ 60) (hhold : heldArgs e.path.hold = none)
    (hscr : pendingScratch s e.t e.g = false) (htr : pendingTransfer e.team e.g = false) :
    exec (.efork w a b) s = .next (retire w e (startSeq (startSeq
      (if e.pair a = 0 then s else addFloor s e.t 32 fun o => o.src == some e.g) e true (e.pair a)) e false (e.pair b))) := by
  have haligned : [e.pair a, e.pair b].find? (fun x => x.toNat % 4 != 0) = none :=
    List.find?_eq_none.mpr fun x hx => by simpa using (haddr x hx).1
  have hlow : [e.pair a, e.pair b].find? (fun x => decide (2 ^ 60 ≤ x.toNat)) = none :=
    List.find?_eq_none.mpr fun x hx => by simpa using (haddr x hx).2
  have hread (d : Dword) : BitVec.ofNat 64 d.toNat = d := by simp
  rw [exec_efork, execEfork, runG_at h w _ (by decide) rfl, hhold]
  simp only [Option.getD_none, List.getD_cons_zero, List.getD_cons_succ, hread, haligned, hlow, hf, hs, hscr, htr]
  rfl

theorem exec_erdv_at (hf : e.team.flume.running = false) (hs : e.team.sluice.running = false)
    (hops : ∀ o ∈ e.team.fl.ops, o.src ≠ none) (hscr : sluiceScratch s e.t = false) :
    exec (.erdv w) s = .next (retire w e
      (updTeam (orFlags s e.t e.g e.team.fl.flags) e.t fun t => { t with fl := { t.fl with flags := 0 } })) := by
  have hnone : (e.team.fl.ops.any fun o => o.src == none) = false := by simpa using hops
  rw [exec_erdv, execErdv, runG_at h w _ (by decide) rfl, hf, hs, hnone, hscr]
  rfl

theorem exec_hintSucc_at : exec (.hintSucc w) s = .next (retire w e
    { updTeam s e.t (fun t => { t with hintSucc := true }) with
      launches := s.launches.upd (launchKey e.team.id.ctx e.team.id.grid) fun l =>
        { l with hinted := if l.hinted.contains e.team.id.num then l.hinted else l.hinted ++ [e.team.id.num] } }) :=
  runG_at h w _ (by decide) rfl

/-- A settled predecessor lets the word acquire at device scope and write its status. -/
theorem exec_waitPred_at (d : BitVec 6) {k : Nat} {l : Launch}
    (hk : (s.launches.get? (launchKey e.team.id.ctx e.team.id.grid)).bind (·.pred) = some k) (hl : s.launches.get? k = some l)
    (hset : l.settled s = true) :
    exec (.waitPred w d) s = .next (retire w e (writeS
      (acquire s e.team.id.core e.team.id.ctx 4) e.t e.g e.p d.toNat (if l.destroyed then 1 else 0))) := by
  rw [exec_waitPred, execWaitPred, runG_at h w _ (by decide) rfl]
  simp only [hk, hl, hset, if_true]
  rfl

theorem exec_migrReq_at (k : BitVec 6) (hk : k.toNat ≤ 2) :
    exec (.migrReq w k) s = .next (retire w e (setTarget s e.t (oneImage s e.team k.toNat))) := by
  rw [exec_migrReq, execMigrReq, runG_at h w _ (by decide) rfl, if_neg (Nat.not_lt.mpr hk)]
  rfl

end

/-- Settles O12: each word's meaning runs, and with what the statement asks of the state it is in the branch that completes. -/
theorem engineAndChainingWords : Obligations.EngineAndChainingWords := by
  refine ⟨fun s e h hf hs => ⟨fun w a b => exec_efork_at h w a b hf hs, fun w => exec_erdv_at h w hf hs⟩, fun s e h => ?_⟩
  exact ⟨exec_hintSucc_at h, fun w d k l hk hl _ hset => exec_waitPred_at h w d hk hl hset, exec_migrReq_at h⟩

end Sys2Proof.Machine
end

section
/-! The Flume's words (O31, O34; R155, R156, R165 to R172, R187, R310 to R322). A word of a group in class 3 or of the Flume's
sequencer in class 4 checks its operands, captures them and joins its team's operations; each word is taken to its operation once, and
the operation joins in one lemma. -/

namespace Sys2Proof.Machine

/-! ## The agent of a Flume word -/

/-- The agent is a group at a word of class 3, or the Flume's sequencer at one of class 4. -/
theorem flumeAgent_cases {s : State} {a : Agt} (h : flumeAgent s = some a) :
    (∃ e, GroupAt s e 3 ∧ a = e.agt) ∨ ∃ q, SeqAt s q 4 ∧ q.flume = true ∧ a = q.agt := by
  unfold flumeAgent at h
  split at h
  · next e he =>
    split at h
    · next hc => exact .inl ⟨e, ⟨he, hc⟩, (Option.some.inj h).symm⟩
    · cases h
  · next q hq =>
    split at h
    · next hc => exact .inr ⟨q, ⟨hq, hc.2⟩, hc.1, (Option.some.inj h).symm⟩
    · cases h
  · cases h

/-- Where a word of the Flume may stand for an agent: a word of class 4 alone has the sequencer as its agent. -/
def Place.flumeOf (p : Place) (a : Agt) : Prop := p = .flume34 ∨ p = .flume4 ∧ a.group = none

section
variable {s : State} {a : Agt} (h : flumeAgent s = some a) (w : Bool)
include h

/-- A word whose block ends within the agent's registers and whose scalars it has runs its meaning (R310). -/
theorem runF_at {place : Place} (hp : place.flumeOf a) {block : Nat × Nat} {singles : List Nat} (f : Agt → Res)
    (hb : block.1 + block.2 - 1 ≤ a.top) (hs : ∀ r ∈ singles, agentHas a r) :
    runF place w s block singles f = agentEnd w s (f a) := by
  unfold runF agentEnd
  obtain ⟨e, he, rfl⟩ | ⟨q, hq, hflume, rfl⟩ := flumeAgent_cases h
  · obtain rfl : place = .flume34 := hp.resolve_right fun hx => nomatch hx.2
    have hblock : (decide (1 < block.2) && decide (60 < block.1 + block.2 - 1)) = false := by
      rw [decide_eq_false (show ¬ 60 < block.1 + block.2 - 1 from Nat.not_lt.mpr hb), Bool.and_false]
    rw [runX_group he.1 he.2 (by decide) rfl, he.1, hblock]
    rfl
  · have hsingles : (singles.any fun r => decide (31 < r)) = false := by
      simpa [agentHas, SeqEnv.agt] using hs
    have hplace : place.seq q.flume 4 = true := by
      obtain rfl | ⟨rfl, -⟩ := hp <;> simp [Place.seq, hflume]
    rw [runX_seq hq.1 hq.2 (by decide) hplace, hq.1, hsingles, decide_eq_false (show ¬ 31 < block.1 + block.2 - 1 from Nat.not_lt.mpr hb)]
    rfl

theorem flumeEnd_done (u : State) : agentEnd w s (.done u) = .next (flumeNext w s u) := by
  obtain ⟨e, he, -⟩ | ⟨q, hq, -⟩ := flumeAgent_cases h
  · simp only [agentEnd, flumeNext, he.1]; rfl
  · simp only [agentEnd, flumeNext, hq.1]; rfl

end

/-! ## An operation joins its team's (R156, R187) -/

/-- Whether the counter of a group's operations has room. -/
def Agt.opRoom (a : Agt) : Prop := ∀ g, a.group = some g → ∀ G, a.team.groups.get? g = some G → G.engcnt < 255

theorem Env.opRoom_agt {s : State} {e : Env} (h : issuer s = .group e) (hroom : e.grp.engcnt < 255) : e.agt.opRoom := by
  intro g hg G hG
  cases hg
  cases (issuer_group h).2.1.symm.trans hG
  exact hroom

theorem trapen_joinOp (s : State) (a : Agt) (o : FlumeOp) (T : Team) : trapen (joinOp s a o) T = trapen s T := by
  unfold joinOp
  cases a.group with
  | none => rfl
  | some g => dsimp only; split <;> rfl

section
variable {s : State} {a : Agt} {o : FlumeOp} (hroom : a.opRoom)
include hroom

/-- With room in ENGCNT an operation joins, and its word waits for it where its flags may trap (R314). -/
theorem issueOp_joins : issueOp s a o =
    if a.group.isSome && o.kind.precise && trapen s a.team != 0 then .keep (joinOp s a o) [s.nextId] else .done (joinOp s a o) := by
  rw [← trapen_joinOp s a o]
  unfold issueOp joinOp
  cases hg : a.group with
  | none => rfl
  | some g =>
    have hfull : (o.kind.counts && ((a.team.groups.get? g).map fun G => decide (255 ≤ G.engcnt)).getD false) = false := by
      cases hG : a.team.groups.get? g with
      | none => simp
      | some G => simp [Nat.not_le.mpr (hroom g hg G hG)]
    dsimp only
    rw [hfull]
    rfl

/-- An operation that its word does not wait for joins, and the word goes on. -/
theorem issueOp_done (hp : a.group.isSome → o.kind.precise = true → trapen s a.team = 0) : issueOp s a o = .done (joinOp s a o) := by
  rw [issueOp_joins hroom, if_neg]
  simp only [Bool.and_eq_true, bne_iff_ne, ne_eq]
  exact fun hx => hx.2 (hp hx.1.1 hx.1.2)

end

theorem standing_fresh {s : State} {a : Agt} (h : a.hold = none) (f : Res) : standing s a f = f := by
  unfold standing; rw [h]; rfl

/-! ## Operands (R79, R154, R297) -/

theorem coreHandles_eq (core : Nat) : coreHandles core = if core % 32 < 24 then 96 else 48 := by
  unfold coreHandles isLCore
  by_cases hc : core % 32 < 24
  · rw [if_pos hc, if_neg (by simpa using hc)]
  · rw [if_neg hc, if_pos (by simpa using hc)]

/-- Handles of the core and of the team pass. -/
theorem handleCheck_tiles {a : Agt} {h : Nat} (ht : tiles a h 1) : handleCheck a [h] = none := by
  obtain ⟨hcore, hteam⟩ := ht
  rw [← coreHandles_eq] at hcore
  simp [handleCheck, Nat.not_le.mpr hcore, Nat.not_le.mpr (Nat.lt_of_succ_le hteam)]

/-- Checks that all pass leave the word to its meaning. -/
theorem firstOf_pass {cs : List (Option Res)} (h : ∀ c ∈ cs, c = none) (f : Res) : firstOf cs f = f := by
  have hnone : cs.findSome? id = none := List.findSome?_eq_none_iff.mpr h
  rw [firstOf, hnone]
  rfl

/-- Register i of a block. -/
theorem block_reg (a : Agt) (r : Nat) {n i : Nat} (hi : i < n) : ((a.block r n).map (·.toNat)).getD i 0 = (a.rd (r + i)).toNat := by
  simp [Agt.block, hi]

/-- A sequencer's blocks end at `s31`, a group's at `s60`. -/
theorem flumeAgent_top {s : State} {a : Agt} (h : flumeAgent s = some a) : a.top = if a.group = none then 31 else 60 := by
  obtain ⟨e, -, rfl⟩ | ⟨q, -, -, rfl⟩ := flumeAgent_cases h <;> rfl

/-! ## Each word and its operation -/

/-- What the operation of a word needs, and the word at its issue. -/
def opNeeds (x : Bool × FlumeKind × Nat × List Nat × BitVec 512 × Prop) : Prop := x.2.2.2.2.2
def opIssued (s : State) (a : Agt) (x : Bool × FlumeKind × Nat × List Nat × BitVec 512 × Prop) : Out :=
  agentEnd x.1 s (issueOp s a { a.op x.2.1 x.2.2.1 x.2.2.2.1 with tn := x.2.2.2.2.1 })

section
variable {s : State} {a : Agt} (h : flumeAgent s = some a) (w : Bool)
include h

/-- The sequencer's words of one block. -/
theorem runF_seq_block {place : Place} (hp : place.flumeOf a) (hseq : a.group = none) {r n : Nat} (hr : r + n - 1 ≤ 31)
    {singles : List Nat} (hs : ∀ r ∈ singles, r ≤ 31) (f : Agt → Res) : runF place w s (r, n) singles f = agentEnd w s (f a) := by
  refine runF_at h w hp f ?_ fun r hr => .inr (hs r hr)
  rw [flumeAgent_top h, if_pos hseq]
  exact hr

/-- The words of one register, which both kinds of agent may issue in their clauses. -/
theorem runF_reg {place : Place} (hp : place.flumeOf a) {singles : List Nat} (hs : ∀ r ∈ singles, agentHas a r) (f : Agt → Res) :
    runF place w s (0, 1) singles f = agentEnd w s (f a) :=
  runF_at h w hp f (Nat.zero_le _) hs

theorem tileMultiply_issues {tern : Bool} {hd : BitVec 7} {r : BitVec 6} {z : Bool}
    (hn : opNeeds (flumeOp.multiply s a tern w hd r z)) :
    tileMultiply w tern hd r z s = opIssued s a (flumeOp.multiply s a tern w hd r z) := by
  obtain ⟨hseq, hr, htile, hk32, hk, hk4096, hacc, hA, hB, hscale⟩ := hn
  dsimp only at hk32 hk hk4096
  have hcount : ¬ (((a.rd (r.toNat + 1)).toNat % 32 ≠ 0 || (a.rd (r.toNat + 1)).toNat < 32 ||
      4096 < (a.rd (r.toNat + 1)).toNat) = true) := by
    simp only [Bool.or_eq_true, decide_eq_true_eq]
    omega
  unfold tileMultiply
  rw [runF_seq_block h w (.inr ⟨rfl, hseq⟩) hseq (by omega) (by simp)]
  simp only [block_reg a r.toNat (show 0 < 6 by decide), block_reg a r.toNat (show 1 < 6 by decide),
    block_reg a r.toNat (show 2 < 6 by decide), block_reg a r.toNat (show 3 < 6 by decide),
    block_reg a r.toNat (show 4 < 6 by decide), block_reg a r.toNat (show 5 < 6 by decide)]
  refine congrArg (agentEnd w s) (firstOf_pass ?_ _)
  simp only [List.forall_mem_cons, List.not_mem_nil, false_imp_iff, implies_true, and_true]
  refine ⟨handleCheck_tiles htile, if_neg hcount, if_pos hacc, scrCheck_inScr hA, scrCheck_inScr hB, ?_, ?_⟩
  · split
    · next hb => exact scrCheck_inScr (hscale (by simpa using hb)).1
    · rfl
  · split
    · next hb => exact scrCheck_inScr (hscale (by simpa using hb)).2
    · rfl

/-- An iteration word whose blocks of tiles are the team's. -/
theorem iterWord_issues {k : FlumeKind} {blocks limit sd : Nat} {hd : BitVec 7} {r : BitVec 6} {n m : Nat}
    (hiter : flumeOp.iter a r = (n, m)) (hseq : a.group = none) (hr : r.toNat ≤ 31) (hsd : sd ≤ 31) (heven : sd % 2 = 0)
    (hlow : 1 ≤ n) (hhigh : n ≤ 192) (hm : m ≤ limit) (htile : tiles a hd.toNat (blocks * tilesOf n)) :
    iterWord w k blocks limit hd r sd s = agentEnd w s (issueOp s a (a.op k hd.toNat [n, m, sd])) := by
  simp only [flumeOp.iter, Prod.mk.injEq] at hiter
  have hn : bits (a.rd r.toNat).toNat 7 0 = n := by rw [← hiter.1]; exact bits_from_zero _ _
  have hm' : bits (a.rd r.toNat).toNat 27 16 = m := by rw [← hiter.2]; rfl
  obtain ⟨hcore, hteam⟩ := htile
  rw [← coreHandles_eq] at hcore
  have hhandles : ((List.range (blocks * blockTiles n)).any fun i => decide (a.team.fl.tileN ≤ hd.toNat + i)) = false := by
    simp only [List.any_eq_false, List.mem_range, decide_eq_true_eq, Nat.not_le]
    exact fun i hi => Nat.lt_of_lt_of_le (Nat.add_lt_add_left hi _) hteam
  unfold iterWord
  rw [runF_seq_block h w (.inr ⟨rfl, hseq⟩) hseq (by omega) (by simpa using hsd)]
  simp only [hn, hm', heven, hhandles]
  rw [if_neg (by simp), if_neg (Nat.not_le.mpr hcore), if_neg (by simp; omega), firstOf_pass (by simp)]

/-- A mask word whose parents are in the scratchpad. -/
theorem maskWord_issues {k : FlumeKind} {hd : BitVec 7} {r : BitVec 6} (hn : opNeeds (flumeOp.treeMask a w k hd r)) :
    maskWord' w k hd r s = opIssued s a (flumeOp.treeMask a w k hd r) := by
  obtain ⟨hseq, hr, htile, hlow, hhigh, hscr⟩ := hn
  dsimp only at hlow hhigh
  unfold maskWord'
  rw [runF_seq_block h w (.inr ⟨rfl, hseq⟩) hseq (by omega) (by simp)]
  simp only [block_reg a r.toNat (show 0 < 5 by decide), block_reg a r.toNat (show 1 < 5 by decide)]
  refine congrArg (agentEnd w s) (firstOf_pass ?_ _)
  simp only [List.forall_mem_cons, List.not_mem_nil, false_imp_iff, implies_true, and_true]
  exact ⟨handleCheck_tiles htile, if_neg (by simp; omega), scrCheck_inScr hscr⟩

/-- A transfer whose image is in the scratchpad. -/
theorem transfer_issues (hhold : a.hold = none) {k : FlumeKind} {size : Nat} {hd : BitVec 7} {r : BitVec 6}
    (hn : opNeeds (flumeOp.image a w k size hd r)) : transfer w k size hd r s = opIssued s a (flumeOp.image a w k size hd r) := by
  obtain ⟨hr, htile, hscr⟩ := hn
  unfold transfer
  rw [runF_reg h w (.inl rfl) (by simpa using hr), standing_fresh hhold]
  refine congrArg (agentEnd w s) (firstOf_pass ?_ _)
  simpa using ⟨handleCheck_tiles htile, scrCheck_inScr hscr⟩

/-- A coefficient write while no iteration is in progress. -/
theorem coefWord_issues (hhold : a.hold = none) {k : FlumeKind} {n align size : Nat} {r : BitVec 6} (hr : agentHas a r.toNat)
    (hfiter : a.team.fl.fiter = none) (hscr : size = 0 ∨ inScr a (a.rd r.toNat).toNat align size) :
    coefWord w k n r align size s = agentEnd w s (issueOp s a (a.op k 0 [n, (a.rd r.toNat).toNat])) := by
  unfold coefWord
  rw [runF_reg h w (.inl rfl) (by simpa using hr), hhold, hfiter]
  refine congrArg (agentEnd w s) (firstOf_pass ?_ _)
  simp only [List.mem_singleton, forall_eq]
  obtain hzero | hin := hscr
  · exact if_pos hzero
  · split
    · rfl
    · exact scrCheck_inScr hin

theorem faccZero_issues {hd : BitVec 7} (htile : tiles a hd.toNat 1) :
    execFaccZero w hd s = agentEnd w s (issueOp s a (a.op .accZero hd.toNat [])) := by
  unfold execFaccZero
  rw [runF_reg h w (.inl rfl) (by simp), firstOf_pass]
  simpa using handleCheck_tiles htile

omit w in
/-- A word of the Flume runs to the issue of its operation (R315 to R321). -/
theorem flumeOp_issues {i : Instr} {x : Bool × FlumeKind × Nat × List Nat × BitVec 512 × Prop}
    (hop : flumeOp s a i = some x) (hn : opNeeds x) (hhold : a.hold = none) :
    x.2.1 ≠ .vmma ∧ exec i s = opIssued s a x := by
  unfold flumeOp at hop
  split at hop <;> cases hop
  case h_1 w hd r z => exact ⟨nofun, tileMultiply_issues h w hn⟩ -- fmm
  case h_2 w hd r z => exact ⟨nofun, tileMultiply_issues h w hn⟩ -- fmmt
  case h_3 w hd r => -- fpoly
    obtain ⟨hseq, hr, hlow, hhigh, hm, htile⟩ := hn
    exact ⟨nofun, iterWord_issues h w rfl hseq hr (Nat.zero_le _) rfl hlow hhigh hm htile⟩
  case h_4 w hd r d => -- fiter
    obtain ⟨hseq, hr, hd31, heven, hlow, hhigh, hm, htile⟩ := hn
    exact ⟨nofun, iterWord_issues h w rfl hseq hr hd31 heven hlow hhigh hm htile⟩
  case h_5 w hd r => exact ⟨nofun, maskWord_issues h w hn⟩ -- ftmask
  case h_6 w hd r => exact ⟨nofun, maskWord_issues h w hn⟩ -- ftmask.anc
  case h_7 w hd r => exact ⟨nofun, transfer_issues h w hhold hn⟩ -- facc.ld
  case h_8 w hd r => exact ⟨nofun, transfer_issues h w hhold hn⟩ -- facc.st.f32
  case h_9 w hd r => exact ⟨nofun, transfer_issues h w hhold hn⟩ -- facc.st.bf16
  case h_10 w hd r => exact ⟨nofun, transfer_issues h w hhold hn⟩ -- facc.st.f16
  case h_11 w hd => exact ⟨nofun, faccZero_issues h w hn⟩ -- facc.zero
  case h_12 w n r => exact ⟨nofun, coefWord_issues h w hhold hn.1 hn.2 (.inl rfl)⟩ -- fcset
  case h_13 w r => exact ⟨nofun, coefWord_issues h w hhold hn.1 hn.2.1 (.inr hn.2.2)⟩ -- fcld

end

/-- Where a group's counter has room, so has its agent. -/
theorem flumeAgent_opRoom {s : State} {a : Agt} (h : flumeAgent s = some a)
    (hroom : ∀ e, issuer s = .group e → e.grp.engcnt < 255) : a.opRoom := by
  obtain ⟨e, he, rfl⟩ | ⟨q, -, -, rfl⟩ := flumeAgent_cases h
  · exact Env.opRoom_agt he.1 (hroom e he.1)
  · exact nofun

theorem flumeWordIssue : flumeWordIssueRule := by
  intro s a i w k hd args tn needs h _ hop hn hhold hgroup
  obtain ⟨hvmma, hexec⟩ := flumeOp_issues h hop hn hhold
  rw [hexec, opIssued, issueOp_done (flumeAgent_opRoom h fun e he => (hgroup e he).1), flumeEnd_done h]
  intro hsome hprec
  obtain ⟨e, he, rfl⟩ | ⟨q, -, -, rfl⟩ := flumeAgent_cases h
  · have hstore : k = .accStBf16 ∨ k = .accStF16 := by
      cases k <;> simp_all [FlumeKind.precise, Agt.op]
    exact (hgroup e he.1).2 hstore
  · cases hsome

/-! ## The other words (R319, R322) -/

section
variable {s : State} {a : Agt} (h : flumeAgent s = some a) (w : Bool) (hhold : a.hold = none)
include h hhold

/-- A coefficient read with no write of one before it. -/
theorem exec_fcget_at (n : BitVec 4) (d : BitVec 6) (hd : agentHas a d.toNat)
    (hops : ∀ o ∈ a.team.fl.ops, o.kind ≠ .fcset ∧ o.kind ≠ .fcld) :
    exec (.fcget w n d) s = .next (flumeNext w s (a.setS s d.toNat (a.team.fl.coef.getD n.toNat 0))) := by
  have hnone : (a.team.fl.ops.filter fun o => o.kind == .fcset || o.kind == .fcld) = [] := by
    simpa using hops
  rw [exec_fcget, execFcget, runF_reg h w (.inl rfl) (by simpa using hd), hhold, hnone, ← flumeEnd_done h]
  rfl

variable {x i : BitVec 6} (hseq : a.group = none) (hx : agentHas a x.toNat)
include hseq hx

theorem exec_fslotTake_at (hin : inScr a (a.rd x.toNat).toNat 16 (20 + 4 * i.toNat)) (htag : slotTag s a.t (a.rd x.toNat).toNat i.toNat = 2)
    (howes : engineOwes a.team ((a.rd x.toNat).toNat + i.toNat / 4) = false) :
    exec (.fslotTake w x i) s = .next (flumeNext w s (setTag s a.t (a.rd x.toNat).toNat i.toNat 3)) := by
  rw [exec_fslotTake, execFslotTake, runF_reg h w (.inr ⟨rfl, hseq⟩) (by simpa using hx), takeSlotWord, hhold, ← flumeEnd_done h]
  refine congrArg (agentEnd w s) ((withRing_inScr hin _).trans ((if_neg ?_).trans ((withRing_inScr hin _).trans (if_pos htag))))
  exact Bool.eq_false_iff.mp howes

omit hhold in
/-- An engine program's signals come after its operations on the scratchpad (R120). -/
theorem signalWaits_engine (hscr : engineScratch a.team = false) : a.signalWaits s = false := by
  obtain ⟨e, -, rfl⟩ | ⟨q, -, hflume, rfl⟩ := flumeAgent_cases h
  · cases hseq
  · simpa [Agt.signalWaits, SeqEnv.agt, hflume] using hscr

omit hhold in
theorem exec_fslotRelease_at (hin : inScr a (a.rd x.toNat).toNat 16 (20 + 4 * i.toNat))
    (htag : slotTag s a.t (a.rd x.toNat).toNat i.toNat = 3) (hscr : engineScratch a.team = false) :
    exec (.fslotRelease w x i) s = .next (flumeNext w s (setTag s a.t (a.rd x.toNat).toNat i.toNat 0)) := by
  rw [exec_fslotRelease, execFslotRelease, runF_reg h w (.inr ⟨rfl, hseq⟩) (by simpa using hx), releaseSlotWord, Agt.signals,
    signalWaits_engine h hseq hx hscr, ← flumeEnd_done h]
  exact congrArg (agentEnd w s) ((withRing_inScr hin _).trans (if_pos htag))

omit hhold in
theorem exec_ftbarrive_at (k : BitVec 12) (hk : k ≠ 0) {b : TBar} (hscr : engineScratch a.team = false)
    (hin : inScr a (a.rd x.toNat).toNat 16 16) (hb : b.ok) (hread : scrRead s a.t (a.rd x.toNat).toNat 16 = b.word)
    (hfits : (b.after k.toNat 0).2 = false) :
    exec (.ftbarrive w x k) s = .next (flumeNext w s (scrWrite s a.t (a.rd x.toNat).toNat 16 (b.after k.toNat 0).1.word)) := by
  have hk' : k.toNat ≠ 0 := fun h0 => hk (BitVec.toNat_inj.mp h0)
  rw [exec_ftbarrive, execFtbarrive, runF_reg h w (.inr ⟨rfl, hseq⟩) (by simpa using hx), if_neg hk',
    arrive_of hin hb hread fun _ => signalWaits_engine h hseq hx hscr, if_neg hk', hfits, ← flumeEnd_done h]
  rfl

end

theorem flumeScalarResults : flumeScalarResultsRule := by
  intro s a w h hhold
  refine ⟨fun n d hd hops => exec_fcget_at h w hhold n d hd hops, fun x i hseq hx => ?_, fun x k b hseq hx hk hscr => ?_⟩
  · exact fun hin => ⟨fun htag howes => exec_fslotTake_at h w hhold hseq hx hin htag howes,
      fun htag hscr => exec_fslotRelease_at h w hseq hx hin htag hscr⟩
  · exact fun hin hb hread hfits => exec_ftbarrive_at h w hseq hx k hk hscr hin hb hread hfits

/-- Settles O34: each word runs to the issue of its operation, which joins; the others run on the slot, the barrier or the
coefficient that they name. -/
theorem flumeWords : Obligations.FlumeWords := ⟨flumeWordIssue, flumeScalarResults⟩

/-! ## vmma and facc.rd (R157, R187, R313, R314, R321) -/

/-- The rows of R313 as the statement has them. -/
theorem vmmaForm_names {f : Nat} (hf : f ≤ 5) : (vmmaForm f).2.2 = vmmaNames f := by
  interval_cases f <;> rfl

theorem ite_some_eq_none_iff {α : Type} {p : Prop} [Decidable p] {x : α} {o : Option α} :
    (if p then some x else o) = none ↔ ¬ p ∧ o = none := by
  split <;> simp_all

/-- The fields that pass the checks of the word: a form of R157, and names that end at 127. -/
theorem vmma_check {w : Bool} {f : BitVec 4} {hd va vb : BitVec 7} (h : (Instr.vmma w f hd va vb).check = none) :
    f.toNat ≤ 5 ∧ va.toNat + (vmmaNames f.toNat).1 - 1 ≤ 127 ∧ vb.toNat + (vmmaNames f.toNat).2 - 1 ≤ 127 := by
  simp only [Instr.check, ite_some_eq_none_iff] at h
  unfold vmmaNames
  split <;> omega

/-- The groups of a group's quad that are there, as the statement has them (R314). -/
def quadOf (T : Team) (g : Nat) : List (Option Nat) := (List.range 4).map fun q =>
  (T.groups.get? (4 * (g / 4) + q)).bind fun G => if G.ended then none else some (4 * (g / 4) + q)

theorem quadMembers_eq (T : Team) (g : Nat) : quadMembers T g = quadOf T g := by
  unfold quadMembers quadOf
  refine List.map_congr_left fun q _ => ?_
  dsimp only
  cases T.groups.get? (4 * (g / 4) + q) <;> rfl

/-- The names of a block, and the rows that a `vmma` captures: of its own A names, and of each present group's B names. -/
def namesFrom (n k : Nat) : List Nat := (List.range k).map (n + ·)
def capturedRows (T : Team) (g : Nat) (an bn : List Nat) : List (List Word) :=
  (an.map fun n => T.lanes g n) ++ (quadOf T g).flatMap fun m =>
    bn.map fun n => match m with | some g => T.lanes g n | none => []

/-- The operation of a `vmma` (R313). -/
def vmmaOp (e : Env) (f : BitVec 4) (h va vb : BitVec 7) : FlumeOp :=
  { e.agt.op .vmma h.toNat (f.toNat :: (quadOf e.team e.g).map fun m => if m.isSome then 1 else 0) with
    rows := capturedRows e.team e.g (namesFrom va.toNat (vmmaNames f.toNat).1) (namesFrom vb.toNat (vmmaNames f.toNat).2) }

section
variable {s : State} {e : Env} (h : GroupAt s e 3) (w : Bool)
include h

/-- A `vmma` whose names are mapped runs to the issue of its operation. -/
theorem exec_vmma_at (hhold : e.path.hold = none) {f : BitVec 4} {hd va vb : BitVec 7} (hcheck : (Instr.vmma w f hd va vb).check = none)
    (htile : tiles e.agt hd.toNat 1)
    (hown : e.team.allMapped e.g (namesFrom va.toNat (vmmaNames f.toNat).1 ++ namesFrom vb.toNat (vmmaNames f.toNat).2) = true)
    (hquad : ∀ m, some m ∈ quadOf e.team e.g → e.team.allMapped m (namesFrom vb.toNat (vmmaNames f.toNat).2) = true) :
    exec (.vmma w f hd va vb) s = finish w e s (issueOp s e.agt (vmmaOp e f hd va vb)) := by
  obtain ⟨hf, hva, hvb⟩ := vmma_check hcheck
  rw [exec_vmma, execVmma, runG_at h w _ (by decide) rfl, standing_fresh (a := e.agt) hhold]
  obtain ⟨width, k, hform⟩ : ∃ width k, vmmaForm f.toNat = (width, k, (vmmaNames f.toNat).1, (vmmaNames f.toNat).2) :=
    ⟨_, _, by rw [← vmmaForm_names hf]⟩
  rw [hform]
  dsimp only
  rw [if_neg (Nat.not_lt.mpr hf), if_neg (by simp; omega), firstOf_pass (by simpa using handleCheck_tiles htile),
    quadMembers_eq]
  refine congrArg (finish w e s) ((if_neg ?_).trans ?_)
  · rw [Bool.not_eq_true', Bool.not_eq_false, Bool.and_eq_true]
    refine ⟨hown, List.all_eq_true.mpr ?_⟩
    rintro (_ | m) hm
    · rfl
    · exact hquad m hm
  · refine congrArg (fun rows => issueOp s e.agt { vmmaOp e f hd va vb with rows }) (congrArg (_ ++ ·) ?_)
    exact congrArg (List.flatMap · _) (funext fun m => by cases m <;> rfl)

theorem exec_faccRd_at (hroom : e.grp.engcnt < 255) {hd d : BitVec 7} (c : BitVec 2) (hdst : d.toNat ≤ 112)
    (htile : tiles e.agt hd.toNat 1) (hrows : e.team.canWrite e.g (namesFrom d.toNat 16) = true) :
    let u := updTeam s e.t fun t => t.mapAll e.g (namesFrom d.toNat 16)
    let dests := (namesFrom d.toNat 16).map fun n => (((u.teams.get? e.t).bind fun t => t.mapped e.g n).map (·.row)).getD 0
    exec (.faccRd w hd d c) s = finish w e s (issueOp (updTeam u e.t fun t => dests.foldl (fun t r => t.pendUp r) t) e.agt
      { e.agt.op .accRd hd.toNat [c.toNat] with dests }) := by
  intro u dests
  have hcan : (!e.team.canWrite e.g ((List.range 16).map (d.toNat + ·))) = false := by rw [Bool.not_eq_false']; exact hrows
  rw [exec_faccRd, execFaccRd, runG_at h w _ (by decide) rfl]
  dsimp only
  rw [if_neg (Nat.not_lt.mpr hdst), hcan, if_neg Bool.false_ne_true, if_neg (Nat.not_le.mpr hroom),
    firstOf_pass (by simpa using handleCheck_tiles htile)]
  rfl

end

/-- Settles O31: a `vmma` and a `facc.rd` run to the issue of their operations, which join; a `vmma` waits for its own while its flags
may trap. -/
theorem flumeVectorWordIssue : Obligations.FlumeVectorWordIssue := by
  intro s e h hhold hroom
  have room : e.agt.opRoom := Env.opRoom_agt h.1 hroom
  constructor
  · intro w f hd va vb hcheck htile quad names an bn hown hquad rows o
    have hexec : exec (.vmma w f hd va vb) s = finish w e s (issueOp s e.agt o) := exec_vmma_at h w hhold hcheck htile hown hquad
    rw [hexec, issueOp_joins room]
    refine ⟨fun hoff => ?_, fun hon => ?_⟩
    · rw [if_neg (by simp [Env.agt, hoff])]; rfl
    · rw [if_pos (by simpa [Env.agt] using ⟨rfl, hon⟩)]; rfl
  · intro w hd d c hd' htile ns hrows u dests
    have hexec := exec_faccRd_at h w hroom c hd' htile hrows
    rw [hexec, issueOp_done room fun _ hprec => Bool.noConfusion hprec]
    rfl

end Sys2Proof.Machine
end

section
/-! FLUME_OP_APPLIED and FITER_STOP (R153, R156, R170, R171): when an operation is applied, what its end leaves of the team, and the
iteration word (O33). -/

namespace Sys2Proof.Machine

/-! ## The event -/

section
variable {s : State} {t : Nat} {T : Team} (hT : s.teams.get? t = some T)
include hT

/-- The first operation of a source, whose turn it is, is applied. -/
theorem exec_flumeOpApplied_of {src : Option Nat} {o : FlumeOp} {u : State} (ho : T.fl.ops.find? (fun x => x.src == src) = some o)
    (hmay : T.mayTake o = true) (hold : olderReady s t T o = false) (howes : o.kind = .fiter → iterationOwes s t T = false)
    (happly : applyOp s t T o = some u) : exec (.flumeOpApplied t src) s = .next u := by
  have hturn : (!T.mayTake o || olderReady s t T o || (o.kind == .fiter && iterationOwes s t T)) = false := by
    rw [hmay, hold]
    cases hk : o.kind == .fiter
    · rfl
    · exact howes (by simpa using hk)
  rw [exec_flumeOpApplied, execFlumeOpApplied, hT]
  dsimp only
  rw [ho]
  dsimp only
  rw [hturn, happly]
  rfl

theorem updFlume_of (f : TeamFlume → TeamFlume) : updFlume s t f = s.setTeam t { T with fl := f T.fl } := updTeam_of hT _

end

/-- The Flume without an operation. -/
def TeamFlume.without (fl : TeamFlume) (o : FlumeOp) : TeamFlume := { fl with ops := fl.ops.filter fun x => x.id != o.id }

/-- An operation of the engine program goes, and no counter changes with it. -/
theorem dropOp_engine {s : State} {t : Nat} {T : Team} {o : FlumeOp} (hT : s.teams.get? t = some T) (hsrc : o.src = none) :
    dropOp s t o = s.setTeam t { T with fl := T.fl.without o } := by
  unfold dropOp
  rw [hsrc, updFlume_of hT]
  rfl

/-- A trap of the Flume's sequencer halts its team, whose tiles and operations stay; its record is made where there is none (R163). -/
theorem stopSeqWith_flume {s : State} {t : Nat} {T : Team} (hT : s.teams.get? t = some T) (pc : Dword) (code detail : Nat)
    (addr : Dword) (more : List Word) :
    ∃ U, stopSeqWith s t true pc code detail addr more = s.setTeam t U ∧ U.halted = true ∧ U.fl = T.fl ∧
      (T.flume.stop = none → (U.flume.stop.map fun x => (x.code, x.detail, x.pc, x.more)) = some (code, detail, pc, more)) := by
  refine ⟨_, updTeam_of hT _, ?_⟩
  cases hstop : T.flume.stop with
  | none => simp [Team.seqOf, Team.setSeq, hstop]
  | some r => simp [Team.seqOf, hstop]

/-! ## The iteration word (R170, R171) -/

/-- The team when the iteration is over: its tiles and flags as the top of the loop leaves them, and the operation gone. -/
def iterOver (T : Team) (f : Fiter) (o : FlumeOp) : Team :=
  let fl := (iterTop T.fl f).1
  { T with fl := ({ fl with fiter := none, flags := fl.flags ||| BitVec.ofNat 32 (iterTop T.fl f).2.2.2 } : TeamFlume).without o }

theorem iterOver_ops {T : Team} {f : Fiter} {o x : FlumeOp} (hx : x ∈ (iterOver T f o).fl.ops) : x.id ≠ o.id := by
  simpa using (List.mem_filter.mp hx).2

section
variable {s : State} {t : Nat} {T : Team} {f : Fiter} {o : FlumeOp} (hT : s.teams.get? t = some T) (hf : T.fl.fiter = some f)
include hT hf

omit hT in
/-- Where the loop goes on, the event makes one iteration. -/
theorem iterate_goes {grow res : Nat} (hgo : (iterTop T.fl f).2.2.1 = .go grow res) :
    let r := iterRest (iterTop T.fl f).1 f (iterTop T.fl f).2.1 grow res (iterTop T.fl f).2.2.2
    iterate s t T o = some (updTeam s t fun x =>
      { x with fl := { r.1 with
          fiter := some { r.2.1 with owed := turnsReady s t T }, flags := r.1.flags ||| BitVec.ofNat 32 r.2.2 } }) := by
  unfold iterate
  rw [hf]
  dsimp only
  rw [hgo]
  rfl

variable (ho : T.fl.ops.find? (fun x => x.kind == .fiter) = some o) (hsrc : o.src = none) (hmay : T.mayTake o = true)
  (hold : olderReady s t T o = false) (howes : iterationOwes s t T = false)
include ho hsrc hmay hold howes

/-- FITER_STOP ends the iteration where the top of its loop does, and then writes its status or takes its trap. -/
theorem exec_fiterStop_of : exec (.fiterStop t) s = match (iterTop T.fl f).2.2.1 with
    | .go _ _ => .refused (.notEnabled "FITER_STOP")
    | .diverge res => .next (stopSeqWith (s.setTeam t (iterOver T f o)) t true f.pc 0x0D 0 0
        ([BitVec.ofNat 32 f.k, BitVec.ofNat 32 res] ++ f.prev.toList))
    | .stop cap res =>
      let u := updSeq (s.setTeam t (iterOver T f o)) t true fun q =>
        { q with s := (q.s.put f.sd (BitVec.ofNat 32 (f.k % 65536 + f.live * 2 ^ 30 + if cap then 2 ^ 31 else 0))).put (f.sd + 1)
                        (BitVec.ofNat 32 res) }
      .next (if (f.raised ||| (iterTop T.fl f).2.2.2) &&& trapen s T &&& 0x3F != 0 then stopSeq u t true f.pc 0x0C 0 0 else u) := by
  have hover (fl : TeamFlume) : dropOp (updFlume s t fun _ => fl) t o = s.setTeam t { T with fl := fl.without o } := by
    rw [updFlume_of hT, dropOp_engine (setTeam_get _ _ _) hsrc, setTeam_setTeam]
  rw [exec_fiterStop, execFiterStop, hT]
  dsimp only
  rw [hf, ho]
  dsimp only
  rw [hmay, hold, howes]
  simp only [hover]
  unfold iterOver
  cases (iterTop T.fl f).2.2.1 <;> rfl

end

/-- Settles O33: the event asks what the top of the loop finds, and makes an iteration, writes the status or stops the team. -/
theorem iterationResults : Obligations.IterationResults := by
  intro s t T f o hT hf ho hsrc hmay hold howes
  have hstop := exec_fiterStop_of hT hf ho hsrc hmay hold howes
  have hkind : o.kind = .fiter := by simpa using List.find?_some ho
  generalize htop : (iterTop T.fl f).2.2.1 = top at hstop ⊢
  cases top with
  | go grow res =>
    intro hfirst
    refine exec_flumeOpApplied_of hT hfirst hmay hold (fun _ => howes) ?_
    simp only [applyOp, hkind]
    exact iterate_goes hf htop
  | stop cap res =>
    intro hflags
    rw [hstop]
    dsimp only
    rw [hflags, updSeq_of (setTeam_get _ _ _), setTeam_setTeam]
    refine ⟨_, _, rfl, rfl, setTeam_get _ _ _, rfl, fun x hx => iterOver_ops (T := T) (f := f) hx, rfl⟩
  | diverge res =>
    obtain ⟨U, hu, hhalted, hfl, hrecord⟩ := stopSeqWith_flume (setTeam_get s t (iterOver T f o)) f.pc 0x0D 0 0
      ([BitVec.ofNat 32 f.k, BitVec.ofNat 32 res] ++ f.prev.toList)
    refine ⟨_, U, hstop, ?_, hhalted, congrArg TeamFlume.fiter hfl, hrecord⟩
    rw [hu, setTeam_get]

end Sys2Proof.Machine
end

section
/-! What an applied operation leaves of its tile (O32; R155, R316, R317). The statement takes the A image of an `fmmt` in the format of the
captured entry, except where that is an integer format; the model takes it as bytes, whatever the entry's format (R317). The two differ on
an operation whose entry R316 does not let an `fmmt` name: no word issues one, but the statement does not ask for that. -/

namespace Sys2Proof.Machine

/-! ## A word of a tile that has been written (R155) -/

theorem Tbl.get?_append {α : Type} (a b : Tbl α) (k : Nat) : Tbl.get? (a ++ b) k = (Tbl.get? a k).or (Tbl.get? b k) := by
  induction a with
  | nil => rfl
  | cons e a ih =>
    rw [List.cons_append, Tbl.get?_cons, Tbl.get?_cons]
    split
    · rfl
    · exact ih

theorem Tbl.get?_filter_key {α : Type} (p : Nat → Bool) (t : Tbl α) (k : Nat) (hk : p k = false) :
    Tbl.get? (t.filter fun e => p e.1) k = none := by
  induction t with
  | nil => rfl
  | cons e t ih =>
    rw [List.filter_cons]
    split
    · next he => rw [Tbl.get?_cons, if_neg (by rintro rfl; simp [hk] at he), ih]
    · exact ih

/-- The words of a list at the places from a on, counted from `base`; those that are 0 are left out. -/
def placedWords (base m a : Nat) (ws : List Word) : Tbl Word :=
  ((List.range' a m).zip ws).filterMap fun e => if e.2 = 0 then none else some (base + e.1, e.2)

theorem placedWords_cons (base m a : Nat) (w : Word) (ws : List Word) : placedWords base (m + 1) a (w :: ws) =
    if w = 0 then placedWords base m (a + 1) ws else (base + a, w) :: placedWords base m (a + 1) ws := by
  unfold placedWords
  rw [List.range'_succ, List.zip_cons_cons, List.filterMap_cons]
  split <;> split at * <;> simp_all

theorem placedWords_below (base m a k : Nat) (ws : List Word) (hk : k < base + a) : Tbl.get? (placedWords base m a ws) k = none := by
  induction ws generalizing m a with
  | nil => simp [placedWords]
  | cons w ws ih =>
    cases m with
    | zero => rfl
    | succ m =>
      rw [placedWords_cons]
      split
      · exact ih m (a + 1) (by omega)
      · rw [Tbl.get?_cons, if_neg (by omega)]
        exact ih m (a + 1) (by omega)

theorem placedWords_getD (base m a n : Nat) (ws : List Word) (hn : n < m) :
    Tbl.getD (placedWords base m a ws) (base + (a + n)) 0 = ws.getD n 0 := by
  induction ws generalizing m a n with
  | nil => simp [placedWords, Tbl.getD]
  | cons w ws ih =>
    obtain ⟨m, rfl⟩ : ∃ k, m = k + 1 := ⟨m - 1, by omega⟩
    rw [placedWords_cons]
    cases n with
    | zero =>
      split
      · next hw => rw [Tbl.getD, placedWords_below _ _ _ _ _ (by omega), hw]; rfl
      · simp [Tbl.getD, Tbl.get?_cons]
    | succ n =>
      have hrest := ih m (a + 1) n (by omega)
      rw [show a + 1 + n = a + (n + 1) by omega] at hrest
      split
      · exact hrest
      · rw [Tbl.getD, Tbl.get?_cons, if_neg (by omega)]
        exact hrest

/-- A word of a tile depends on the tiles alone. -/
theorem TeamFlume.word_congr {fl fl' : TeamFlume} (h : fl.tiles = fl'.tiles) (hd i j : Nat) : fl.word hd i j = fl'.word hd i j := by
  unfold TeamFlume.word; rw [h]

theorem TeamFlume.word_setTile_same (fl : TeamFlume) (h : Nat) (ws : List Word) {i j : Nat} (hi : i < 96) (hj : j < 64) :
    (fl.setTile h ws).word h i j = ws.getD (64 * i + j) 0 := by
  have hplace : 64 * i + j < 6144 := by omega
  unfold TeamFlume.word TeamFlume.setTile Tbl.getD
  rw [Tbl.get?_append, Tbl.get?_append, Tbl.get?_filter_key (fun k => decide (k < h * 6144)) _ _ (by simp; omega),
    Tbl.get?_filter_key (fun k => decide ((h + 1) * 6144 ≤ k)) _ _ (by simp; omega), Option.none_or, Option.or_none, tileEntries,
    List.range_eq_range', Nat.add_assoc]
  have hword := placedWords_getD (h * 6144) 6144 0 (64 * i + j) ws hplace
  rw [Nat.zero_add] at hword
  exact hword

/-- An operation of the engine program that traps on no flag leaves the tile that it writes. -/
theorem commitOp_engine_tile {s : State} {t : Nat} {T : Team} {o : FlumeOp} (hT : s.teams.get? t = some T) (hsrc : o.src = none)
    {g : Nat} (hcool : g &&& trapen s T &&& 0x3F = 0) (ws : List Word) :
    commitOp s t T o g (fun s => updFlume s t fun fl => fl.setTile o.handle ws) = s.setTeam t { T with
      fl := { (T.fl.without o).setTile o.handle ws with flags := T.fl.flags ||| BitVec.ofNat 32 g } } := by
  unfold commitOp
  rw [hcool, hsrc]
  dsimp only
  rw [dropOp_engine hT hsrc, updFlume_of (setTeam_get _ _ _), setTeam_setTeam, updFlume_of (setTeam_get _ _ _), setTeam_setTeam]
  rfl

theorem applyOp_fmmt {s : State} {t : Nat} {T : Team} {o : FlumeOp} (hk : o.kind = .fmmt) :
    applyOp s t T o =
      (let r := fmmTile (s.ctx T.id.ctx) T.res.scr T.fl o
       some (commitOp s t T o r.2 fun s => updFlume s t fun fl => fl.setTile o.handle r.1)) := by
  simp only [applyOp, hk]

/-! ## An fmmt whose entry is of bfloat16 -/

/-- An `fmmt` of K = 32 with Z = 1, its A image at 0 and its B image at 8192, whose captured entry has FORMAT 3. -/
def bf16Fmmt : FlumeOp :=
  { id := 1, src := none, pc := 0, path := 0, kind := .fmmt, handle := 0, args := [32, 0, 8192, 0, 0, 1], rows := [], tn := 3,
    mask := 0, dests := [], after := [] }

/-- Its team: 1.0 stands as bfloat16 at byte 64, first of row 1 of A where a row takes 64 bytes, and first in row 0 of B. -/
def bf16Team : Team :=
  { fetchTeam with
    res := { fetchTeam.res with scr := [(64, 0x80), (65, 0x3F), (8192, 0x80), (8193, 0x3F)] }
    fl := { fetchTeam.fl with ops := [bf16Fmmt] } }
def bf16State : State := State.reset.setTeam 0 bf16Team

/-- What the operation computes: its tile, and the flags that it raises. -/
def bf16Result : List Word × Nat := fmmTile (bf16State.ctx bf16Team.id.ctx) bf16Team.res.scr bf16Team.fl bf16Fmmt

/-- The entry is not one that an `fmmt` may name (R316). -/
theorem bf16Fmmt_not_accepted : fmmAccepts true bf16Fmmt.tn = false := by decide +kernel

/-- The team's Flume after it. -/
def bf16After : TeamFlume :=
  { (bf16Team.fl.without bf16Fmmt).setTile 0 bf16Result.1 with flags := bf16Team.fl.flags ||| BitVec.ofNat 32 bf16Result.2 }

theorem bf16Fmmt_applied :
    exec (.flumeOpApplied 0 none) bf16State = .next (bf16State.setTeam 0 { bf16Team with fl := bf16After }) := by
  have hT : bf16State.teams.get? 0 = some bf16Team := rfl
  have htrap : trapen bf16State bf16Team = 0 := rfl
  refine exec_flumeOpApplied_of hT (o := bf16Fmmt) rfl (by decide +kernel) (by decide +kernel) nofun ?_
  rw [applyOp_fmmt rfl, ← bf16Result]
  exact congrArg some (commitOp_engine_tile hT rfl (by rw [htrap, Nat.and_zero, Nat.zero_and]) bf16Result.1)

/-- In the model, whose row 1 of A takes bytes 32 to 63, the element is 0. -/
theorem bf16After_word : bf16After.word 0 1 0 = 0 := by
  have helement : bf16Result.1.getD (64 * 1 + 0) 0 = 0 := by decide +kernel
  have htiles : bf16After.tiles = ((bf16Team.fl.without bf16Fmmt).setTile 0 bf16Result.1).tiles := rfl
  rw [TeamFlume.word_congr htiles, TeamFlume.word_setTile_same _ _ _ (by decide) (by decide), helement]

/-- In the statement's rows of 64 bytes it is 1.0. -/
theorem fmmElement_bf16 :
    fmmElement (bf16State.ctx bf16Team.id.ctx) bf16Team.res.scr bf16Fmmt 0 1 0 = 0x3F800000 := by decide +kernel

/-- Refutes O32: the model and the statement find different bytes in row 1 of the A image of an `fmmt` whose captured entry has FORMAT
3, and with them different elements. -/
theorem not_flumeOperationResults : ¬ Obligations.FlumeOperationResults := by
  intro ⟨_, htiles⟩
  obtain ⟨-, hfmm, -⟩ := htiles bf16State 0 none bf16Team bf16Fmmt rfl rfl (by decide +kernel) (by decide +kernel)
  obtain ⟨u, U, hexec, hU, -, hword, -⟩ := hfmm (.inr rfl) rfl
  obtain rfl : _ = u := Host.Outcome.next.inj (bf16Fmmt_applied.symm.trans hexec)
  obtain rfl : _ = U := Option.some.inj ((setTeam_get _ _ _).symm.trans hU)
  have helement := hword 0 1 0 (by decide) (by decide)
  have hformer : (bf16Team.fl.word bf16Fmmt.handle 1 0).toNat = 0 := rfl
  have hformat : tnFormat bf16Fmmt.tn ≠ 1 := by decide +kernel
  rw [if_pos (show 0 = bf16Fmmt.handle from rfl)] at helement
  beta_reduce at helement
  rw [if_neg hformat] at helement
  rw [hformer, fmmElement_bf16] at helement
  exact absurd (bf16After_word.symm.trans helement) (by decide)

end Sys2Proof.Machine
end

section
/-! The scalar words (O1; R56, R160, R204 to R216): first the values of their tables, which the model writes in integers and naturals and
the statement in bit vectors; then what a word's writes leave of its group or of its team; then each word. -/

namespace Sys2Proof.Machine

/-! ## Quotients, shifts and extrema (R206, R207) -/

theorem Word.toInt_eq_zero_iff (b : Word) : b.toInt = 0 ↔ b = 0 := by
  rw [← BitVec.toInt_inj]; rfl

theorem Word.toNat_eq_zero_iff (b : Word) : b.toNat = 0 ↔ b = 0 := by
  rw [← BitVec.toNat_inj]; rfl

theorem divI_eq (a b : Word) : divI a b = if b = 0 then BitVec.allOnes 32 else a.sdiv b := by
  have hquot : wrap32 (a.toInt.tdiv b.toInt) = a.sdiv b :=
    BitVec.eq_of_toInt_eq (by rw [wrap32, BitVec.toInt_ofInt, BitVec.toInt_sdiv])
  simp only [divI, Word.toInt_eq_zero_iff, hquot]
  rfl

theorem divN_eq (a b : Word) : divN a b = if b = 0 then BitVec.allOnes 32 else a / b := by
  have hquot : BitVec.ofNat 32 (a.toNat / b.toNat) = a / b := by rw [← BitVec.toNat_udiv, BitVec.ofNat_toNat, BitVec.setWidth_eq]
  simp only [divN, Word.toNat_eq_zero_iff, hquot]
  rfl

theorem remI_eq (a b : Word) : remI a b = if b = 0 then a else a.srem b := by
  have hrem : wrap32 (a.toInt - a.toInt.tdiv b.toInt * b.toInt) = a.srem b := by
    rw [Int.mul_comm, ← Int.tmod_def, ← BitVec.toInt_srem, wrap32, BitVec.ofInt_toInt]
  simp only [remI, Word.toInt_eq_zero_iff, hrem]

theorem remN_eq (a b : Word) : remN a b = if b = 0 then a else a % b := by
  have hrem : BitVec.ofNat 32 (a.toNat % b.toNat) = a % b := by rw [← BitVec.toNat_umod, BitVec.ofNat_toNat, BitVec.setWidth_eq]
  simp only [remN, Word.toNat_eq_zero_iff, hrem]

theorem ofNat_mul_two_pow {n : Nat} (v : BitVec n) (k : Nat) : BitVec.ofNat n (v.toNat * 2 ^ k) = v <<< k := by
  apply BitVec.eq_of_toNat_eq
  rw [BitVec.toNat_ofNat, BitVec.toNat_shiftLeft, Nat.shiftLeft_eq]

theorem shlV_eq {n : Nat} (v : BitVec n) (k : Nat) : shlV v k = v <<< k := by
  unfold shlV
  split
  · exact ofNat_mul_two_pow v k
  · rw [BitVec.shiftLeft_eq_zero (by omega)]; rfl

theorem shrV_eq {n : Nat} (v : BitVec n) (k : Nat) : shrV v k = v >>> k := by
  unfold shrV
  split
  · rw [← Nat.shiftRight_eq_div_pow, ← BitVec.toNat_ushiftRight, BitVec.ofNat_toNat, BitVec.setWidth_eq]
  · rw [BitVec.ushiftRight_eq_zero (by omega)]; rfl

theorem sraV_eq {n : Nat} (v : BitVec n) (k : Nat) : sraV v k = v.sshiftRight k := by
  unfold sraV
  split
  · rw [BitVec.sshiftRight, Int.shiftRight_eq_div_pow]
  · apply BitVec.eq_of_getLsbD_eq
    intro i hi
    rw [BitVec.getLsbD_sshiftRight, ← BitVec.msb_eq_getLsbD_last, if_neg (show ¬ k + i < n by omega)]
    cases v.msb <;> simp [hi]

theorem minI_eq (a b : Word) : minI a b = if a.slt b then a else b := by
  simp only [minI, BitVec.slt_eq_decide, decide_eq_true_eq]
  rcases lt_trichotomy a.toInt b.toInt with h | h | h
  · rw [if_pos h, if_neg h.not_gt]
  · rw [BitVec.eq_of_toInt_eq h, ite_self]
  · rw [if_pos h, if_neg h.not_gt]

theorem minN_eq (a b : Word) : minN a b = if a.ult b then a else b := by
  simp only [minN, BitVec.ult_eq_decide, decide_eq_true_eq]
  rcases lt_trichotomy a.toNat b.toNat with h | h | h
  · rw [if_pos h, if_neg h.not_gt]
  · rw [BitVec.eq_of_toNat_eq h, ite_self]
  · rw [if_pos h, if_neg h.not_gt]

theorem maxI_eq (a b : Word) : maxI a b = if a.slt b then b else a := by
  simp only [maxI, BitVec.slt_eq_decide, decide_eq_true_eq]

theorem maxN_eq (a b : Word) : maxN a b = if a.ult b then b else a := by
  simp only [maxN, BitVec.ult_eq_decide, decide_eq_true_eq]

theorem wrap64_mul (a b : Word) : wrap64 (a.toInt * b.toInt) = a.signExtend 64 * b.signExtend 64 := BitVec.ofInt_mul _ _

theorem ofNat_mul_toNat (a b : Word) : BitVec.ofNat 64 (a.toNat * b.toNat) = a.setWidth 64 * b.setWidth 64 := by
  rw [BitVec.ofNat_mul, BitVec.ofNat_toNat, BitVec.ofNat_toNat]

theorem add_ofNat_toNat (x : Dword) (y : Word) : x + BitVec.ofNat 64 y.toNat = x + y.setWidth 64 := by rw [BitVec.ofNat_toNat]

/-! ## Conditions, counts and fields (R212, R214, R215) -/

section
variable {c : Nat} (hc : c ≤ 5)
include hc

theorem boolWord_toInt (x y : Word) : boolWord (condHolds c x.toInt y.toInt) = flagWord (relHolds c (x.slt y) (x == y)) :=
  congrArg flagWord (condHolds_toInt hc x y)

theorem boolWord_toNat (x y : Word) : boolWord (condHolds c x.toNat y.toNat) = flagWord (relHolds c (x.ult y) (x == y)) :=
  congrArg flagWord (condHolds_toNat hc x y)

theorem boolWord_toNat_pair (x y : Dword) : boolWord (condHolds c x.toNat y.toNat) = flagWord (relHolds c (x.ult y) (x == y)) := by
  simp only [condHolds_eq_relHolds hc, Int.ofNat_lt, Int.ofNat_inj, BitVec.ult_eq_decide, BitVec.toNat_inj]
  rfl

end

theorem popc_eq {n : Nat} (v : BitVec n) : BitVec.ofNat 32 (popc v) = scalarWrites.ones v := by
  rw [popc, scalarWrites.ones, List.countP_eq_length_filter]

section
open scalarWrites (pos wid)

theorem fieldPos_eq (b : Word) : fieldPos b = pos b := bits_from_zero _ _

theorem fieldWidth_eq (b : Word) : fieldWidth b = wid b := rfl

theorem fieldOf_eq (a b : Word) : fieldOf a b = ((a >>> pos b).setWidth (wid b)).toNat := by
  rw [fieldOf, fieldPos_eq, fieldWidth_eq, BitVec.toNat_setWidth, BitVec.toNat_ushiftRight, Nat.shiftRight_eq_div_pow]

theorem bfxN_eq (a b : Word) : BitVec.ofNat 32 (fieldOf a b) = ((a >>> pos b).setWidth (wid b)).setWidth 32 := by
  rw [fieldOf_eq, BitVec.ofNat_toNat]

theorem bit_toNat {n : Nat} (v : BitVec n) (i : Nat) : bit v.toNat i = v.getLsbD i := by
  rw [BitVec.getLsbD, Nat.testBit_eq_decide_div_mod_eq, bit, bits, Nat.add_sub_cancel_left]
  rfl

/-- A field read as signed; a field of no bits is 0. -/
theorem signExtend_eq {n : Nat} (f : BitVec n) : f.signExtend 32 =
    if 0 < n && bit f.toNat (n - 1) then wrap32 ((f.toNat : Int) - (2 ^ n : Nat)) else BitVec.ofNat 32 f.toNat := by
  have hmsb : (decide (0 < n) && bit f.toNat (n - 1)) = f.msb := by
    rw [bit_toNat, BitVec.msb_eq_getLsbD_last]
    cases n <;> simp
  rw [hmsb, BitVec.signExtend, BitVec.toInt_eq_msb_cond]
  split
  · rfl
  · exact BitVec.ofInt_natCast ..

theorem bfxI_eq (a b : Word) : bfxI a b = ((a >>> pos b).setWidth (wid b)).signExtend 32 := by
  rw [bfxI, fieldOf_eq, signExtend_eq]
  rfl

theorem fieldMask_eq (lo n : Nat) : fieldMask lo n = BitVec.ofNat 32 ((2 ^ n - 1) * 2 ^ lo) := by
  apply BitVec.eq_of_toNat_eq
  simp [fieldMask, Nat.shiftLeft_eq]

theorem bfiV_eq (d a b : Word) : bfiV d a b =
    (d &&& ~~~(fieldMask (pos b) (wid b))) ||| ((a <<< pos b) &&& fieldMask (pos b) (wid b)) := by
  simp only [bfiV, fieldPos_eq, fieldWidth_eq, ofNat_mul_two_pow, fieldMask_eq]

end

/-! ## Pairs (R56, R205) -/

theorem pairOut_eq (d : BitVec 6) (v : Dword) : pairOut d.toNat v = scalarWrites.two d v := by
  have hlow : lowWord v = v.setWidth 32 := (BitVec.setWidth_eq_extractLsb' (by decide)).symm
  have hhigh : highWord v = (v >>> 32).setWidth 32 := BitVec.setWidth_ushiftRight_eq_extractLsb.symm
  rw [pairOut, scalarWrites.two, hlow, hhigh]

/-! ## Changes of the issuing group, one after another -/

section
variable {s u : State} {e : Env} {Q R : Group → Prop}

theorem groupOnly_refl (h : issuer s = .group e) : GroupOnly s s e (· = e.grp) := by
  obtain ⟨hT, hG, -, -⟩ := issuer_group h
  exact ⟨rfl, fun _ _ => rfl, hT, _, hT, rfl, fun _ _ => rfl, _, hG, rfl⟩

/-- A state that differs from `s` in the issuing group only still does once that group is replaced. -/
theorem groupOnly_setGroup (h : GroupOnly s u e Q) {U : Team} (hU : u.teams.get? e.t = some U) {G : Group} (n : Nat) (hR : R G) :
    GroupOnly s (u.setTeam e.t { U.setGroup e.g G with clauses := n }) e R := by
  obtain ⟨hu, hother, hT, V, hV, hteam, hgroups, -⟩ := h
  obtain rfl : V = U := Option.some.inj (hV.symm.trans hU)
  refine ⟨?_, fun k hk => (setTeam_get_other _ _ _ _ hk).trans (hother k hk), hT, _, setTeam_get _ _ _, ?_,
    fun k hk => (setGroup_get_other _ _ _ _ hk).trans (hgroups k hk), G, setGroup_get _ _ _, hR⟩
  · rw [hu]; rfl
  · rw [hteam]; rfl

theorem groupOnly_updGroup (h : GroupOnly s u e Q) (f : Group → Group) (hf : ∀ G, Q G → R (f G)) :
    GroupOnly s (updGroup u e.t e.g f) e R := by
  obtain ⟨-, -, -, U, hU, -, -, G, hG, hQ⟩ := id h
  rw [updGroup_of hU hG]
  exact groupOnly_setGroup h hU U.clauses (hf G hQ)

/-- Where the state differs from `s` in the issuing group only, the word's end advances the group's path. -/
theorem groupOnly_retire (h : GroupOnly s u e Q) (w : Bool)
    (hR : ∀ G, Q G → ∃ P, G.paths.get? e.p = some P ∧ R (G.setPath e.p P.advance)) :
    ∃ v, retire w e u = marked w e v ∧ GroupOnly s v e R := by
  obtain ⟨-, -, -, U, hU, -, -, G, hG, hQ⟩ := id h
  obtain ⟨P, hP, hR⟩ := hR G hQ
  rw [retire_of w hU hG hP]
  exact ⟨_, rfl, groupOnly_setGroup h hU _ hR⟩

/-! ## The writes of a group's word (R35, R55) -/

/-- What the scalar writes of a word leave of its group before the word retires. -/
def ScalarsWritten (e : Env) (busy : Nat) (ws : List (Nat × Word)) (G : Group) : Prop :=
  G = { e.grp with s := G.s, paths := G.paths, busy } ∧
    PathOnly e G fun P => P = { e.path with mask := P.mask } ∧ ∀ r, r < 64 → readS G P r = afterWrites e ws r

theorem afterWrites_concat (e : Env) (ws : List (Nat × Word)) (x : Nat × Word) (r : Nat) :
    afterWrites e (ws ++ [x]) r =
      if x.1 = r then (if 61 ≤ r then x.2 &&& maskWord e.path.domain r else x.2) else afterWrites e ws r := by
  by_cases h : x.1 = r <;> simp [afterWrites, h]

theorem scalarsWritten_nil (h : issuer s = .group e) : ScalarsWritten e e.grp.busy [] e.grp := by
  obtain ⟨-, -, hP, -⟩ := issuer_group h
  exact ⟨rfl, fun _ _ => rfl, e.path, hP, rfl, fun _ _ => rfl⟩

/-- One more write: to a word of the mask, within the domain, or to a register. -/
theorem writeS_written {busy : Nat} {ws : List (Nat × Word)} (h : GroupOnly s u e (ScalarsWritten e busy ws)) {x : Nat × Word}
    (hx : x.1 < 64) : GroupOnly s (writeS u e.t e.g e.p x.1 x.2) e (ScalarsWritten e busy (ws ++ [x])) := by
  unfold writeS
  split
  case isTrue hmask =>
    refine groupOnly_updGroup h _ ?_
    rintro G ⟨hG, hpaths, P, hP, hpath, hreads⟩
    have hdom : P.domain = e.path.domain := by rw [hpath]
    refine ⟨by rw [hG], fun n hn => (Tbl.get?_upd_other _ _ _ _ hn).trans (hpaths n hn), _,
      (Tbl.get?_upd_same _ _ _).trans (congrArg _ hP), by rw [hpath], fun r hr => ?_⟩
    rw [afterWrites_concat, ← hreads r hr]
    unfold readS
    split_ifs with hr' heq heq
    · subst heq
      rw [maskWord_write_same _ _ _ _ hmask hx, hdom]
    · exact maskWord_write_other _ _ _ _ _ hmask hx hr' hr (Ne.symm heq)
    · omega
    · rfl
  case isFalse hscalar =>
    refine groupOnly_updGroup h _ ?_
    rintro G ⟨hG, hpaths, P, hP, hpath, hreads⟩
    refine ⟨by rw [hG], hpaths, P, hP, hpath, fun r hr => ?_⟩
    rw [afterWrites_concat, ← hreads r hr]
    unfold readS
    split_ifs with hr' heq heq
    · omega
    · rfl
    · rw [heq, Tbl.getD_put_same]
    · exact Tbl.getD_put_other _ _ _ _ _ (Ne.symm heq)

/-- The scalar writes of a word, one after another. -/
theorem scalarWrites_written (h : issuer s = .group e) (ws : List (Nat × Word)) (hws : ∀ x ∈ ws, x.1 < 64) :
    GroupOnly s (ws.foldl (fun s x => writeS s e.t e.g e.p x.1 x.2) s) e (ScalarsWritten e e.grp.busy ws) := by
  induction ws using List.reverseRecOn with
  | nil => exact groupOnly_mono (groupOnly_refl h) fun G hG => hG ▸ scalarsWritten_nil h
  | append_singleton ws x ih =>
    rw [List.foldl_concat]
    exact writeS_written (ih fun y hy => hws y (List.mem_append_left _ hy)) (hws x (by simp))

theorem Path.advance_withMask (P : Path) (m : LaneMask) : { P with mask := m }.advance = { P.advance with mask := m } := by
  unfold Path.advance
  cases P.clause <;> rfl

/-- A word that has written its scalars completes. -/
theorem finish_written {busy : Nat} {ws : List (Nat × Word)} (w : Bool) (h : GroupOnly s u e (ScalarsWritten e busy ws)) :
    ∃ v, finish w e s (.done u) = .next (marked w e v) ∧ ScalarsBusy s v e busy ws := by
  obtain ⟨v, hv, honly⟩ := groupOnly_retire h w (R := fun G => G = { e.grp with s := G.s, paths := G.paths, busy } ∧
    PathOnly e G fun P => P = { e.path.advance with mask := P.mask } ∧ ∀ r, r < 64 → readS G P r = afterWrites e ws r) <| by
    rintro G ⟨hG, hpaths, P, hP, hpath, hreads⟩
    have hadv : P.advance = { e.path.advance with mask := P.mask } := by rw [hpath, Path.advance_withMask]
    refine ⟨P, hP, by rw [hG]; rfl, fun n hn => (setPath_get_other _ _ _ _ hn).trans (hpaths n hn), _, setPath_get _ _ _, ?_,
      fun r hr => ?_⟩
    · rw [hadv]
    · rw [hadv, ← hreads r hr]; rfl
  exact ⟨v, congrArg Host.Outcome.next hv, honly⟩

end

/-! ## The writes of a sequencer's word (R160) -/

section
variable {s u : State} {e : SeqEnv} {Q R : Team → Prop}

/-- A change of the issuing sequencer where the state differs from `s` in its team only. -/
theorem teamOnly_updSeq (h : TeamOnly s u e.t e.team Q) (f : Seq → Seq)
    (hf : ∀ U, Q U → R (U.setSeq e.flume (f (U.seqOf e.flume)))) : TeamOnly s (updSeq u e.t e.flume f) e.t e.team R := by
  obtain ⟨hu, hother, hT, U, hU, hQ⟩ := h
  rw [updSeq_of hU]
  refine ⟨?_, fun n hn => (setTeam_get_other _ _ _ _ hn).trans (hother n hn), hT, _, setTeam_get _ _ _, hf U hQ⟩
  rw [hu]; rfl

/-- The value that a sequencer's register has after writes. -/
def afterSeqWrites (e : SeqEnv) (ws : List (Nat × Word)) (r : Nat) : Word :=
  match ws.reverse.find? fun x => x.1 == r with
  | some x => x.2
  | none => e.seq.s.getD r 0

theorem afterSeqWrites_concat (e : SeqEnv) (ws : List (Nat × Word)) (x : Nat × Word) (r : Nat) :
    afterSeqWrites e (ws ++ [x]) r = if x.1 = r then x.2 else afterSeqWrites e ws r := by
  by_cases h : x.1 = r <;> simp [afterSeqWrites, h]

/-- What the scalar writes of a sequencer's word leave of its team before the word retires. -/
def SeqScalarsWritten (e : SeqEnv) (busy : Nat) (ws : List (Nat × Word)) (U : Team) : Prop :=
  ∃ q, U = e.team.setSeq e.flume q ∧ q = { e.seq with s := q.s, busy } ∧ ∀ r, q.s.getD r 0 = afterSeqWrites e ws r

theorem seqScalarsWritten_nil (h : issuer s = .seq e) : SeqScalarsWritten e e.seq.busy [] e.team := by
  refine ⟨e.seq, ?_, rfl, fun _ => rfl⟩
  rw [(issuer_seq h).2]
  unfold Team.setSeq Team.seqOf
  cases e.flume <;> rfl

theorem setS_written {busy : Nat} {ws : List (Nat × Word)} (h : TeamOnly s u e.t e.team (SeqScalarsWritten e busy ws))
    (x : Nat × Word) : TeamOnly s (e.setS u x.1 x.2) e.t e.team (SeqScalarsWritten e busy (ws ++ [x])) := by
  refine teamOnly_updSeq h _ ?_
  rintro _ ⟨q, rfl, hq, hreads⟩
  rw [seqOf_setSeq, setSeq_setSeq]
  refine ⟨_, rfl, by rw [hq], fun r => ?_⟩
  rw [afterSeqWrites_concat, ← hreads r, Tbl.getD_put]
  simp only [eq_comm]

theorem seqScalarWrites_written (h : issuer s = .seq e) (ws : List (Nat × Word)) :
    TeamOnly s (ws.foldl (fun s x => e.setS s x.1 x.2) s) e.t e.team (SeqScalarsWritten e e.seq.busy ws) := by
  induction ws using List.reverseRecOn with
  | nil => exact ⟨rfl, fun _ _ => rfl, (issuer_seq h).1, _, (issuer_seq h).1, seqScalarsWritten_nil h⟩
  | append_singleton ws x ih =>
    rw [List.foldl_concat]
    exact setS_written ih x

theorem Seq.advance_withScalars (q : Seq) (s : Tbl Word) (busy : Nat) : { q with s, busy }.advance = { q.advance with s, busy } := by
  unfold Seq.advance
  cases q.clause <;> rfl

theorem finishSeq_written {busy : Nat} {ws : List (Nat × Word)} (h : TeamOnly s u e.t e.team (SeqScalarsWritten e busy ws)) :
    ∃ v, finishSeq e s (.done u) = .next v ∧ SeqScalarsBusy s v e busy ws := by
  refine ⟨_, rfl, teamOnly_updSeq h _ ?_⟩
  rintro _ ⟨q, rfl, hq, hreads⟩
  rw [seqOf_setSeq, setSeq_setSeq]
  have hadv : q.advance = { e.seq.advance with s := q.s, busy } := by rw [hq, Seq.advance_withScalars]
  refine ⟨_, rfl, ?_, fun r => ?_⟩
  · rw [hadv]
  · rw [hadv]; exact hreads r

end

/-! ## The forms of the words (R204 to R208) -/

/-- A word with this table completes in a group and in a sequencer, as the statement asks. -/
def CompletesScalar (i : Instr) (w : Bool) (rs : List Nat) (f : (Nat → Word) → List (Nat × Word)) : Prop :=
  (∀ s e, GroupAt s e 0 → ∃ u, exec i s = .next (marked w e u) ∧
    ScalarsBusy s u e (clocksAfter i e.team.id.core e.grp.busy) (f (readS e.grp e.path))) ∧
  ∀ s e, SeqAt s e 0 → (∀ r ∈ rs, r ≤ 31) → ∃ u, exec i s = .next u ∧
    SeqScalarsBusy s u e (clocksAfter i e.team.id.core e.seq.busy) (f fun r => e.seq.s.getD r 0)

/-- Where the checks of an instruction find no fault, the first of them finds none. -/
theorem not_of_check {p : Prop} [Decidable p] {x : IllForm} {o : Option IllForm} (h : (if p then some x else o) = none) : ¬ p := by
  intro hp
  rw [if_pos hp] at h
  cases h

theorem any_above_eq_false {rs : List Nat} (hrs : ∀ r ∈ rs, r ≤ 31) : rs.any (31 < ·) = false := by
  simpa [List.any_eq_false] using hrs

theorem runS_twice (w : Bool) (s : State) (r : Nat) (f : (Nat → Word) → List (Nat × Word)) : runS w s [r, r] f = runS w s [r] f := by
  simp [runS]

section
variable {i : Instr} {w : Bool} {rs : List Nat} {d : BitVec 6}

/-- A word of the common form, whose writes are to registers `s0` to `s63`. -/
theorem completesScalar_of_runS {f : (Nat → Word) → List (Nat × Word)} (hexec : ∀ s, exec i s = runS w s rs f)
    (hclocks : ∀ core old, clocksAfter i core old = old) (hregs : ∀ rd, ∀ x ∈ f rd, x.1 < 64) : CompletesScalar i w rs f := by
  refine ⟨fun s e h => ?_, fun s e h hrs => ?_⟩
  · rw [hexec, hclocks, runS, runX_any0_group h]
    exact finish_written w (scalarWrites_written h.1 _ (hregs _))
  · rw [hexec, hclocks, runS, runX_any0_seq h, any_above_eq_false hrs]
    exact finishSeq_written (seqScalarWrites_written h.1 _)

/-- One that writes a register: `g` is the value of the model, `v` that of the table. -/
theorem completesScalar_register {g v : (Nat → Word) → Word} (hvalue : ∀ x, g x = v x)
    (hexec : ∀ s, exec i s = runS w s rs fun x => [(d.toNat, g x)]) (hclocks : ∀ core old, clocksAfter i core old = old) :
    CompletesScalar i w rs fun x => [(d.toNat, v x)] := by
  obtain rfl : g = v := funext hvalue
  refine completesScalar_of_runS hexec hclocks fun rd x hx => ?_
  rw [List.mem_singleton.mp hx]
  exact d.isLt

/-- One that writes a pair, whose first register has an even number (R56). -/
theorem completesScalar_pair {g v : (Nat → Word) → Dword} (hd : ¬ odd d) (hvalue : ∀ x, g x = v x)
    (hexec : ∀ s, exec i s = runS w s rs fun x => pairOut d.toNat (g x)) (hclocks : ∀ core old, clocksAfter i core old = old) :
    CompletesScalar i w rs fun x => scalarWrites.two d (v x) := by
  obtain rfl : g = v := funext hvalue
  simp only [pairOut_eq] at hexec
  refine completesScalar_of_runS hexec hclocks fun rd x hx => ?_
  have hlt := d.isLt
  unfold odd at hd
  obtain rfl | rfl : x = _ ∨ x = _ := by simpa [scalarWrites.two] using hx
  · exact hlt
  · dsimp only; omega

/-- A division, after which its agent's next word is some clocks away (R207, R208). -/
theorem completesScalar_division {a b : BitVec 6} {g : Word → Word → Word} {v : (Nat → Word) → Word}
    (hvalue : ∀ x, g (x a.toNat) (x b.toNat) = v x) (hexec : ∀ s, exec i s = divWord w d a b s g)
    (hclocks : ∀ core old, clocksAfter i core old = divClocks core) :
    CompletesScalar i w [d.toNat, a.toNat, b.toNat] fun x => [(d.toNat, v x)] := by
  obtain rfl : (fun x => g (x a.toNat) (x b.toNat)) = v := funext hvalue
  refine ⟨fun s e h => ?_, fun s e h hrs => ?_⟩
  · rw [hexec, hclocks, divWord, runX_any0_group h]
    refine finish_written w (groupOnly_updGroup
      (scalarWrites_written h.1 [(d.toNat, g (e.s a) (e.s b))] (by simpa using d.isLt)) _ ?_)
    rintro G ⟨hG, hpaths⟩
    exact ⟨by rw [hG], hpaths⟩
  · rw [hexec, hclocks, divWord, runX_any0_seq h, any_above_eq_false hrs]
    refine finishSeq_written (teamOnly_updSeq (seqScalarWrites_written h.1 [(d.toNat, g (e.s a.toNat) (e.s b.toNat))]) _ ?_)
    rintro _ ⟨q, rfl, hq, hreads⟩
    rw [seqOf_setSeq, setSeq_setSeq]
    exact ⟨_, rfl, by rw [hq], hreads⟩

end

/-! ## The words -/

/-- Every word of the table completes: the model's meaning is the form of its kind, with the value of the table. -/
theorem scalarWord_completes {i : Instr} {w : Bool} {rs : List Nat} {f : (Nat → Word) → List (Nat × Word)} (hcheck : i.check = none)
    (hword : scalarWrites i = some (w, rs, f)) : CompletesScalar i w rs f := by
  unfold scalarWrites at hword
  split at hword <;> cases hword
  case h_1 | h_2 | h_3 | h_10 | h_11 | h_12 | h_13 | h_32 | h_34 | h_36 | h_49 | h_50 | h_51 | h_56 | h_57 =>
    -- sadd, ssub, smul, sand, sor, sxor, sandn, saddi, smovl, smovs, sclz, sctz, sbrev, sclz.b64, sctz.b64
    exact completesScalar_register (fun _ => rfl) (fun _ => rfl) fun _ _ => rfl
  case h_21 | h_22 | h_23 | h_24 | h_29 | h_30 | h_31 | h_33 =>
    -- sadd.b64, ssub.b64, smul.b64, saddw.i32, sand.b64, sor.b64, sxor.b64, saddi.b64
    exact completesScalar_pair (not_of_check hcheck) (fun _ => rfl) (fun _ => rfl) fun _ _ => rfl
  case h_4 => -- smulw.i32
    exact completesScalar_pair (not_of_check hcheck) (fun _ => wrap64_mul _ _) (fun _ => rfl) fun _ _ => rfl
  case h_5 => -- smulw.n32
    exact completesScalar_pair (not_of_check hcheck) (fun _ => ofNat_mul_toNat _ _) (fun _ => rfl) fun _ _ => rfl
  case h_6 => -- sdiv.i32
    exact completesScalar_division (fun _ => divI_eq _ _) (fun _ => rfl) fun _ _ => rfl
  case h_7 => -- sdiv.n32
    exact completesScalar_division (fun _ => divN_eq _ _) (fun _ => rfl) fun _ _ => rfl
  case h_8 => -- srem.i32
    exact completesScalar_division (fun _ => remI_eq _ _) (fun _ => rfl) fun _ _ => rfl
  case h_9 => -- srem.n32
    exact completesScalar_division (fun _ => remN_eq _ _) (fun _ => rfl) fun _ _ => rfl
  case h_14 | h_42 => -- sshl, sshli
    exact completesScalar_register (fun _ => shlV_eq _ _) (fun _ => rfl) fun _ _ => rfl
  case h_15 | h_43 => -- sshr, sshri
    exact completesScalar_register (fun _ => shrV_eq _ _) (fun _ => rfl) fun _ _ => rfl
  case h_16 | h_44 => -- ssra, ssrai
    exact completesScalar_register (fun _ => sraV_eq _ _) (fun _ => rfl) fun _ _ => rfl
  case h_26 | h_52 => -- sshl.b64, sshli.b64
    exact completesScalar_pair (not_of_check hcheck) (fun _ => shlV_eq _ _) (fun _ => rfl) fun _ _ => rfl
  case h_27 | h_53 => -- sshr.b64, sshri.b64
    exact completesScalar_pair (not_of_check hcheck) (fun _ => shrV_eq _ _) (fun _ => rfl) fun _ _ => rfl
  case h_28 | h_54 => -- ssra.b64, ssrai.b64
    exact completesScalar_pair (not_of_check hcheck) (fun _ => sraV_eq _ _) (fun _ => rfl) fun _ _ => rfl
  case h_17 => -- smin.i32
    exact completesScalar_register (fun _ => minI_eq _ _) (fun _ => rfl) fun _ _ => rfl
  case h_18 => -- smin.n32
    exact completesScalar_register (fun _ => minN_eq _ _) (fun _ => rfl) fun _ _ => rfl
  case h_19 => -- smax.i32
    exact completesScalar_register (fun _ => maxI_eq _ _) (fun _ => rfl) fun _ _ => rfl
  case h_20 => -- smax.n32
    exact completesScalar_register (fun _ => maxN_eq _ _) (fun _ => rfl) fun _ _ => rfl
  case h_25 => -- saddw.n32
    exact completesScalar_pair (not_of_check hcheck) (fun _ => add_ofNat_toNat _ _) (fun _ => rfl) fun _ _ => rfl
  case h_35 => -- smovh
    exact completesScalar_register (fun _ => rfl) (fun s => by rw [exec_smovh, execSmovh, s2, runS_twice]; rfl) fun _ _ => rfl
  case h_37 => -- scmp.i32
    have hcond := Nat.not_lt.mp (not_of_check hcheck)
    exact completesScalar_register (fun _ => boolWord_toInt hcond _ _) (fun _ => rfl) fun _ _ => rfl
  case h_38 => -- scmp.n32
    have hcond := Nat.not_lt.mp (not_of_check hcheck)
    exact completesScalar_register (fun _ => boolWord_toNat hcond _ _) (fun _ => rfl) fun _ _ => rfl
  case h_39 => -- scmp.b64
    have hcond := Nat.not_lt.mp (not_of_check hcheck)
    exact completesScalar_register (fun _ => boolWord_toNat_pair hcond _ _) (fun _ => rfl) fun _ _ => rfl
  case h_40 => -- ssel
    exact completesScalar_register (fun _ => ite_not _ _ _) (fun _ => rfl) fun _ _ => rfl
  case h_41 => -- ssel.b64
    exact completesScalar_pair (not_of_check hcheck) (fun _ => ite_not _ _ _) (fun _ => rfl) fun _ _ => rfl
  case h_45 => -- sbfx.n32
    exact completesScalar_register (fun _ => bfxN_eq _ _) (fun _ => rfl) fun _ _ => rfl
  case h_46 => -- sbfx.i32
    exact completesScalar_register (fun _ => bfxI_eq _ _) (fun _ => rfl) fun _ _ => rfl
  case h_47 => -- sbfi
    exact completesScalar_register (fun _ => bfiV_eq _ _ _) (fun _ => rfl) fun _ _ => rfl
  case h_48 | h_55 => -- spopc, spopc.b64
    exact completesScalar_register (fun _ => popc_eq _) (fun _ => rfl) fun _ _ => rfl

theorem scalarWordResults_group : scalarWordResultsRule :=
  fun s e _ _ _ _ hat hcheck hword => (scalarWord_completes hcheck hword).1 s e hat

theorem scalarWordResults_sequencer : sequencerScalarResultsRule :=
  fun s e _ _ _ _ hat hcheck hword hregs => (scalarWord_completes hcheck hword).2 s e hat hregs

/-- Settles O1: each word is of one of three forms, whose writes fall one after another on the group or on the sequencer, and the values
that the model computes in integers and naturals are those of the table. -/
theorem scalarWordResults : Obligations.ScalarWordResults := ⟨scalarWordResults_group, scalarWordResults_sequencer⟩

end Sys2Proof.Machine
end

section
/-! The control words that only read or change registers of their path or group, and the whole-path branches (O2, O3, O5, O9; R218, R224,
R229, R232 to R234): first what a word that writes scalars leaves, then each family, with the decoding of majors 0x08 and 0x0D. -/

namespace Sys2Proof.Machine

/-- An instruction's checks find no fault where each of them, in order, finds none. -/
theorem check_eq_none_iff {p : Prop} [Decidable p] {x : IllForm} {o : Option IllForm} :
    (if p then some x else o) = none ↔ ¬ p ∧ o = none := by
  split <;> simp [*]

/-! ## Words that write scalars (R55, R56) -/

section
variable {s : State} {e : Env} {k : Nat} (h : GroupAt s e k) (w : Bool)
include h

/-- A word that writes scalars one after another completes. -/
theorem writes_complete (ws : List (Nat × Word)) (hws : ∀ x ∈ ws, x.1 < 64) :
    ∃ u, finish w e s (.done (ws.foldl (fun s x => writeS s e.t e.g e.p x.1 x.2) s)) = .next (marked w e u) ∧ ScalarsOnly s u e ws :=
  finish_written w (scalarWrites_written h.1 ws hws)

theorem setS_completes (d : BitVec 6) (v : Word) :
    ∃ u, finish w e s (.done (e.setS s d v)) = .next (marked w e u) ∧ ScalarsOnly s u e [(d.toNat, v)] :=
  writes_complete h w [(d.toNat, v)] (by simpa using d.isLt)

/-- The second register of a pair that begins at an even one is among `s0` to `s63`. -/
theorem setPair_completes {d : BitVec 6} (hd : ¬ odd d) (v : Dword) :
    ∃ u, finish w e s (.done (e.setPair s d v)) = .next (marked w e u) ∧ ScalarsOnly s u e (pairWrite d.toNat v) := by
  have hlt := d.isLt
  unfold odd at hd
  have hset : e.setPair s d v = (pairOut d.toNat v).foldl (fun s x => writeS s e.t e.g e.p x.1 x.2) s := rfl
  have hpair : pairWrite d.toNat v = pairOut d.toNat v := (pairOut_eq d v).symm
  rw [hset, hpair]
  exact writes_complete h w _ (by simp [pairOut]; omega)

end

/-! ## Special and context registers (R233, R234) -/

theorem specialReg_eq (e : Env) {n : Nat} (h0 : n ≠ 0) (h10 : n ≤ 10) : specialReg e n = some (specialOf e n) := by
  interval_cases n
  · contradiction
  all_goals rfl

theorem contextReg_eq (s : State) (e : Env) {n : Nat} (h5 : n ≤ 5) : contextReg s e.team n = some (contextOf s e n) := by
  interval_cases n <;> rfl

section
variable {s : State} {e : Env} {w : Bool} {d a : BitVec 6}

theorem exec_rdsr_at (h : GroupAt s e 0) (hcheck : (Instr.rdsr w d a).check = none) :
    exec (.rdsr w d a) s = finish w e s (.done (e.setS s d (specialOf e a.toNat))) := by
  have hrange : a.toNat ≠ 0 ∧ a.toNat ≤ 10 := by simpa [Instr.check, check_eq_none_iff] using hcheck
  rw [exec_rdsr, execRdsr, runG_at h w _ (by decide) rfl, specialReg_eq e hrange.1 hrange.2]

theorem exec_rdsrPair_at (h : GroupAt s e 0) (hcheck : (Instr.rdsrPair w d a).check = none) :
    exec (.rdsrPair w d a) s = finish w e s (.done (e.setPair s d
      (BitVec.ofNat 64 (if a.toNat = 11 then s.coreClock e.team.id.core - e.team.clock0 else s.refclk)))) := by
  have hrange : ¬ odd d ∧ 11 ≤ a.toNat ∧ a.toNat ≤ 12 := by simpa [Instr.check, check_eq_none_iff] using hcheck
  rw [exec_rdsrPair, execRdsrPair, runG_at h w _ (by decide) rfl]
  obtain hclock | href : a.toNat = 11 ∨ a.toNat = 12 := by omega
  · rw [hclock]; rfl
  · rw [href]; rfl

theorem exec_rdctx_at (h : GroupAt s e 6) (hcheck : (Instr.rdctx w d a).check = none) :
    exec (.rdctx w d a) s = finish w e s (.done (e.setPair s d (contextOf s e a.toNat))) := by
  have hrange : ¬ odd d ∧ a.toNat ≤ 5 := by simpa [Instr.check, check_eq_none_iff] using hcheck
  rw [exec_rdctx, execRdctx, runG_at h w _ (by decide) rfl, contextReg_eq s e hrange.2]

end

/-- Settles O2: each word finds a value for its register, since its check leaves only registers that there are, and writes it to one
scalar or to a pair. -/
theorem readingWordResults : Obligations.ReadingWordResults := by
  intro s e i w k ws hcheck hwrites h
  unfold readingWrites at hwrites
  split at hwrites <;> cases hwrites
  case h_1 d a => -- rdsr
    rw [exec_rdsr_at h hcheck]
    exact setS_completes h w d _
  case h_2 d a => -- rdsr into a pair
    rw [exec_rdsrPair_at h hcheck]
    exact setPair_completes h w (not_of_check hcheck) _
  case h_3 d a => -- rdctx
    rw [exec_rdctx_at h hcheck]
    exact setPair_completes h w (not_of_check hcheck) _

/-! ## Predicate logic (R224) -/

theorem maskOf_congr {f g : Nat → Bool} (h : ∀ l, l < 96 → f l = g l) : maskOf f = maskOf g := by
  unfold maskOf
  rw [List.foldl_ext _ _ _ fun n l hl => by rw [h l (List.mem_range.mp hl)]]

/-- The lanes that are active and above no active lane: the lowest one, where there is one. -/
theorem lanesWhere_lowest {e : Env} {l : Nat} (h : lowestLane e.path.mask = some l) :
    lanesWhere e (fun l => (List.range l).all fun k => !e.path.mask.getLsbD k) = maskOf (· == l) := by
  obtain ⟨hl, -, hbelow⟩ := List.find?_range_eq_some.mp h
  refine maskOf_congr fun m _ => ?_
  rcases Nat.lt_trichotomy m l with hm | rfl | hm
  · have hoff : e.path.mask.getLsbD m = false := by simpa using hbelow m hm
    simp [hoff, hm.ne]
  · simpa [hl] using hbelow
  · have hnot : ((List.range m).all fun k => !e.path.mask.getLsbD k) = false :=
      List.all_eq_false.mpr ⟨l, List.mem_range.mpr hm, by simp [hl]⟩
    simpa only [hnot, Bool.and_false] using (beq_false_of_ne hm.ne').symm

theorem lanesWhere_none {e : Env} (h : lowestLane e.path.mask = none) (f : Nat → Bool) : lanesWhere e f = 0 := by
  have hoff : ∀ l, l < 96 → e.path.mask.getLsbD l = false := by simpa [lowestLane] using h
  have hnone : lanesWhere e f = maskOf fun _ => false := maskOf_congr fun l hl => by rw [hoff l hl, Bool.false_and]
  rw [hnone]
  rfl

/-- The three words of a mask as the model takes them. -/
theorem maskWords_eq (d : Nat) (m : LaneMask) : maskWords d m = [(d, maskWord m 61), (d + 1, maskWord m 62), (d + 2, maskWord m 63)] := by
  have hlow : m.setWidth 32 = maskWord m 61 := BitVec.setWidth_eq_extractLsb' (by decide)
  have hmid : (m >>> 32).setWidth 32 = maskWord m 62 := BitVec.setWidth_ushiftRight_eq_extractLsb
  have hhigh : (m >>> 64).setWidth 32 = maskWord m 63 := BitVec.setWidth_ushiftRight_eq_extractLsb
  rw [maskWords, hlow, hmid, hhigh]

/-- The fields of a logic form that passes its check name predicates. -/
theorem predicates_of_check {d a b : BitVec 6} (h : (if 7 < d.toNat then some IllForm.outOfRange else if 7 < a.toNat then
    some .outOfRange else if 7 < b.toNat then some .outOfRange else none) = none) : ∀ p ∈ [d, a, b], p.toNat ≤ 7 := by
  simpa [check_eq_none_iff] using h

section
variable {s : State} {e : Env} (h : GroupAt s e 0) (w : Bool)
include h

theorem predWord_at {ps : List (BitVec 6)} (hps : ∀ p ∈ ps, p.toNat ≤ 7) (f : Env → Res) :
    predWord w ps s f = finish w e s (f e) := by
  rw [predWord, runG_at h w _ (by decide) rfl, if_neg (by simpa using hps)]

theorem logic_completes {d a b : BitVec 6} (hps : ∀ p ∈ [d, a, b], p.toNat ≤ 7) (f : LaneMask → LaneMask → LaneMask) :
    ∃ u, logic w d a b s f = .next (marked w e u) ∧ predOnly s u e d.toNat (f (e.grp.pred a.toNat) (e.grp.pred b.toNat)) := by
  rw [logic, predWord_at h w hps]
  exact setP_completes h w _ _

theorem pelect_completes {d : BitVec 6} (hd : d.toNat ≤ 7) : ∃ u, exec (.pelect w d) s = .next (marked w e u) ∧
    predOnly s u e d.toNat (lanesWhere e fun l => (List.range l).all fun k => !e.path.mask.getLsbD k) := by
  rw [exec_pelect, execPelect, predWord_at h w (by simpa using hd)]
  cases hlowest : lowestLane e.path.mask with
  | none => rw [lanesWhere_none hlowest]; exact setP_completes h w _ _
  | some l => rw [lanesWhere_lowest hlowest]; exact setP_completes h w _ _

theorem exec_pst_at {d a : BitVec 6} (ha : a.toNat ≤ 7) (hd : d.toNat ≤ 61) : exec (.pst w d a) s = finish w e s
    (.done ((maskWords d.toNat (e.grp.pred a.toNat)).foldl (fun s x => writeS s e.t e.g e.p x.1 x.2) s)) := by
  rw [exec_pst, execPst, predWord_at h w (by simpa using ha), if_neg (Nat.not_lt.mpr hd), maskWords_eq]
  rfl

theorem pst_completes {d a : BitVec 6} (ha : a.toNat ≤ 7) (hd : d.toNat ≤ 61) : ∃ u, exec (.pst w d a) s = .next (marked w e u) ∧
    ScalarsOnly s u e (maskWords d.toNat (e.grp.pred a.toNat)) := by
  rw [exec_pst_at h w ha hd]
  exact writes_complete h w _ (by simp [maskWords]; omega)

theorem pcnt_completes (d : BitVec 6) {a : BitVec 6} (ha : a.toNat ≤ 7) : ∃ u, exec (.pcnt w d a) s = .next (marked w e u) ∧
    ScalarsOnly s u e [(d.toNat, BitVec.ofNat 32 ((List.range 96).countP fun l => (e.grp.pred a.toNat).getLsbD l))] := by
  rw [exec_pcnt, execPcnt, predWord_at h w (by simpa using ha), List.countP_eq_length_filter]
  exact setS_completes h w d _

end

theorem logicWord_completes {s : State} {e : Env} {i : Instr} {w : Bool} {d : Nat} {v : LaneMask} (h : GroupAt s e 0)
    (hcheck : i.check = none) (hwrite : logicWrite e i = some (w, d, v)) :
    ∃ u, exec i s = .next (marked w e u) ∧ predOnly s u e d v := by
  unfold logicWrite at hwrite
  split at hwrite <;> cases hwrite
  case h_1 => exact logic_completes h w (predicates_of_check hcheck) fun x y => x &&& y -- pand
  case h_2 => exact logic_completes h w (predicates_of_check hcheck) fun x y => x ||| y -- por
  case h_3 => exact logic_completes h w (predicates_of_check hcheck) fun x y => x ^^^ y -- pxor
  case h_4 => exact logic_completes h w (predicates_of_check hcheck) fun x y => x &&& ~~~y -- pandn
  case h_5 d a => -- pnot
    have hfields : d.toNat ≤ 7 ∧ a.toNat ≤ 7 := by simpa [Instr.check, check_eq_none_iff] using hcheck
    rw [exec_pnot, execPnot, predWord_at h w (by simpa using hfields)]
    exact setP_completes h w _ _
  case h_6 d => -- pelect
    exact pelect_completes h w (Nat.not_lt.mp (not_of_check hcheck))
  case h_7 d a => -- pld
    have hfields : d.toNat ≤ 7 ∧ a.toNat ≤ 61 := by simpa [Instr.check, check_eq_none_iff] using hcheck
    rw [exec_pld, execPld, predWord_at h w (by simpa using hfields.1), if_neg (Nat.not_lt.mpr hfields.2)]
    exact setP_completes h w _ _

/-! ### The words of major 0x0D (R193, R194, R198) -/

theorem extractLsb'_toNat_eq (w : Word) (lo n : Nat) : (w.extractLsb' lo n).toNat = w.toNat / 2 ^ lo % 2 ^ n := by
  rw [BitVec.extractLsb'_toNat, Nat.shiftRight_eq_div_pow]

theorem bitNat_top (w : Word) : bitNat (w.getLsbD 31) = w.toNat / 2 ^ 31 := by
  have hlt := w.isLt
  rw [BitVec.getLsbD, Nat.testBit_eq_decide_div_mod_eq, bitNat]
  split <;> simp_all <;> omega

/-- A word as the sum of its marker, its major, a minor of seven bits and three fields of six bits (R193). -/
theorem toNat_eq_fields (w : Word) : w.toNat = bitNat (w.getLsbD 31) * 0x80000000 + majorOf w * 0x2000000 +
    (w.extractLsb' 18 7).toNat * 0x40000 + (w.extractLsb' 12 6).toNat * 0x1000 + (w.extractLsb' 6 6).toNat * 0x40 +
    (w.extractLsb' 0 6).toNat := by
  have hlt := w.isLt
  simp only [bitNat_top, extractLsb'_toNat_eq, majorOf]
  omega

/-- A row is accepted where its unused low bits are 0 (R194). -/
theorem row_eq_ok {w : Word} (n : Nat) {i j : Instr} (hn : n ≤ 31) (h : row w (2 ^ n - 1) i = .ok j) : i = j ∧ w.toNat % 2 ^ n = 0 := by
  unfold row at h
  split at h
  case isTrue hclear =>
    have hand : (w &&& BitVec.ofNat 32 (2 ^ n - 1)).toNat = 0 := by rw [eq_of_beq hclear]; rfl
    have hmask : 2 ^ n ≤ 2 ^ 31 := Nat.pow_le_pow_right (by decide) hn
    rw [BitVec.toNat_and, BitVec.toNat_ofNat, Nat.mod_eq_of_lt (by omega), Nat.and_two_pow_sub_one_eq_mod] at hand
    exact ⟨Parse.ok.inj h, hand⟩
  case isFalse => cases h

theorem parse_of_major0D {w : Word} (h : majorOf w = 0x0D) : parse w = parse0D w := by
  unfold parse; rw [h]; rfl

/-- A minor that no form has. -/
theorem parse0D_unallocated {w : Word} (h : bits w.toNat 24 18 ∉ [0, 1, 2, 3, 4, 8, 9, 10, 11]) : parse0D w = .unallocated := by
  have hminor : (w.extractLsb' 18 7).toNat = bits w.toNat 24 18 := extractLsb'_toNat_eq w 18 7
  unfold parse0D
  rw [hminor]
  split <;> simp_all

/-- A word is the encoding of the instruction that its fields name where no unused bit is set. -/
theorem encode_of_parse0D {w : Word} (hmajor : majorOf w = 0x0D) {i : Instr} (h : parse0D w = .ok i) : encode i = some w := by
  have hfields := toNat_eq_fields w
  have hlow6 : w.toNat % 2 ^ 6 = (w.extractLsb' 0 6).toNat := by simp only [extractLsb'_toNat_eq]; omega
  have hlow12 : w.toNat % 2 ^ 12 = (w.extractLsb' 6 6).toNat * 0x40 + (w.extractLsb' 0 6).toNat := by
    simp only [extractLsb'_toNat_eq]; omega
  rw [hmajor] at hfields
  have hencode : encodeNat i = some w.toNat := by
    unfold parse0D at h
    split at h
    case h_1 hminor | h_2 hminor | h_3 hminor | h_4 hminor => -- pand, por, pxor, pandn
      cases h
      exact congrArg some (by omega)
    case h_5 hminor | h_7 hminor | h_8 hminor | h_9 hminor => -- pnot, pld, pst, pcnt
      obtain ⟨rfl, hunused⟩ := row_eq_ok 6 (by decide) h
      exact congrArg some (by omega)
    case h_6 hminor => -- pelect
      obtain ⟨rfl, hunused⟩ := row_eq_ok 12 (by decide) h
      exact congrArg some (by omega)
    case h_10 => cases h
  rw [encode, hencode]
  exact congrArg some (BitVec.eq_of_toNat_eq (by simp))

/-- Settles O3: a logic form writes one predicate; `pelect`'s lanes are those above no active lane, `pst` writes the three words of its
predicate; a word of the major is the encoding of what it decodes to, the sum of its fields. -/
theorem predicateLogicWords : Obligations.PredicateLogicWords := by
  refine ⟨fun s e i w d v h hcheck hwrite => logicWord_completes h hcheck hwrite,
    fun s e w d a h ha => ⟨fun hd => pst_completes h w ha hd, pcnt_completes h w d ha⟩,
    fun w hmajor => ⟨fun hminor => ?_, fun i hi => ?_⟩, fun w d a ha => ?_, fun w d a hd => ?_⟩
  · rw [parse_of_major0D hmajor, parse0D_unallocated hminor]
  · rw [parse_of_major0D hmajor] at hi
    exact encode_of_parse0D hmajor hi
  · simp [Instr.check, ha]
  · simp [Instr.check, hd]

/-! ## Whole-path branches (R218) -/

section
variable {s : State} {w : Bool} {o : BitVec 20} {taken : (Nat → Word) → Bool}

theorem branch_group {e : Env} (h : GroupAt s e 0) {regs : List Nat} : branch w o regs s taken =
    .next (if taken (readS e.grp e.path) then take w e s (relative e.path.pc o) else retire w e s) := by
  rw [branch, runX_any0_group h, relTarget_eq_relative]
  split <;> rfl

theorem branch_seq {e : SeqEnv} (h : SeqAt s e 0) {regs : List Nat} (hregs : ∀ r ∈ regs, r ≤ 31) : branch w o regs s taken =
    .next (if taken e.s then seqJump s e (relative e.seq.pc o) else seqNext s e) := by
  rw [branch, runX_any0_seq h, any_above_eq_false hregs, relTarget_eq_relative]
  cases taken e.s <;> rfl

end

/-- The scalar that a branch of three register bits names is one of a sequencer's. -/
theorem branchRegister_le (x : BitVec 3) : ∀ r ∈ [x.toNat], r ≤ 31 := by
  have hlt := x.isLt
  simp; omega

/-- A word that only groups issue stops a sequencer in a clause of class 0 (R160, R217). -/
theorem runG_group0_seq {s : State} {e : SeqEnv} (h : SeqAt s e 0) (w : Bool) (f : Env → Res) :
    runG .group0 w s f = .next (stopSeq s e.t e.flume e.seq.pc 0x01 2 0) := by
  obtain ⟨hissuer, hclass⟩ := h
  unfold runG runX
  rw [hissuer]
  simp only [clause_of_seq_cls hclass (by decide), Bool.false_eq_true, if_false]
  rfl

theorem parse_of_major08 {w : Word} (h : majorOf w = 8) : parse w = parse08 w := by
  unfold parse; rw [h]; rfl

/-- The minor of major 0x08 is KIND and X. -/
theorem branchMinor_eq (w : Word) :
    (w.extractLsb' 20 5).toNat = 8 * (w.extractLsb' 23 2).toNat + (w.extractLsb' 20 3).toNat := by
  simp only [extractLsb'_toNat_eq]
  omega

/-- Settles O5: a whole-path branch is `branch` on a test of the agent's scalars or on the path's lanes; the minor of its major is KIND and
X, of which KIND 0 takes X 0 only. -/
theorem branchWords : Obligations.BranchWords := by
  refine ⟨fun s e h => ⟨fun w o => ?_, fun w x o => ?_, fun w x o => ?_, fun w p o => ?_⟩,
    fun s e h => ⟨fun w o => ?_, fun w x o => ?_, fun w x o => ?_⟩, fun s e w p o h => runG_group0_seq h w _, fun w hmajor => ?_⟩
  · rw [exec_br, execBr, branch_group h]; rfl
  · rw [exec_brZ, execBrZ, branch_group h]
    simp only [beq_iff_eq]
  · rw [exec_brNz, execBrNz, branch_group h]
    simp only [bne_iff_ne, ite_not]
  · rw [exec_brAny, execBrAny, runG_at h w _ (by decide) rfl, relTarget_eq_relative]
    simp only [bne_iff_ne, ite_not]
    split <;> rfl
  · rw [exec_br, execBr, branch_seq h (by simp)]; rfl
  · rw [exec_brZ, execBrZ, branch_seq h (branchRegister_le x)]
    simp only [beq_iff_eq, SeqEnv.s]
  · rw [exec_brNz, execBrNz, branch_seq h (branchRegister_le x)]
    simp only [bne_iff_ne, ite_not, SeqEnv.s]
  · dsimp only
    rw [parse_of_major08 hmajor, parse08, branchMinor_eq]
    have hkind : (w.extractLsb' 23 2).toNat < 4 := (w.extractLsb' 23 2).isLt
    generalize (w.extractLsb' 23 2).toNat = kind at hkind
    obtain ⟨x, hx⟩ := w.extractLsb' 20 3
    -- each KIND with each X is one minor, whose row `parse08` lists
    interval_cases kind <;> interval_cases x <;> rfl

/-! ## Plain words and traps (R229, R232, R234) -/

theorem plainWordResults : plainWordResultsRule := by
  intro s e h
  have hrun (w : Bool) (f : Env → Res) : runG .group0 w s f = finish w e s (f e) := runG_at h w f (by decide) rfl
  refine ⟨fun w => hrun w _, fun w n hpass => ?_, fun w n hdebug hpass => ?_, fun w sel lim hcount => ?_, fun w d a hd => ?_⟩
  · rw [exec_brk, execBrk, hrun, if_neg]
    · rfl
    · rcases hpass with hdebug | hpath <;> simp [*]
  · rw [exec_brk, execBrk, hrun, if_pos (by simp [hdebug, hpass])]
    rfl
  · rw [exec_waitcnt, execWaitcnt, hrun, if_pos hcount]
    rfl
  · rw [exec_wrsr, execWrsr, hrun, if_pos hd]
    rfl

theorem trapWordStops : trapWordStopsRule :=
  ⟨fun _ _ w _ h => runX_any0_group h w _ _, fun _ _ w _ h => runX_any0_seq h w _ _⟩

/-- Settles O9: each word's meaning, run at its path, is in the branch that the statement's hypothesis chooses; `trap` has one only. -/
theorem plainAndTrapWords : Obligations.PlainAndTrapWords := ⟨plainWordResults, trapWordStops⟩

end Sys2Proof.Machine
end

section
/-! The query of a name (O22; R72, R247): the word that the model composes of a row's fields is that of R72, and the instruction writes
it to one scalar. -/

namespace Sys2Proof.Machine

/-! ## The word of R72 -/

section
variable {T : Team} {g n : Nat}

theorem query_of_unmapped (hn : T.mapped g n = none) : T.query g n = 0 := by
  simp [Team.query, hn]

/-- OWN is 1 exactly where the row is anchored to the querying group, so that it never stands beside ANCHOR_SLOT. -/
theorem query_of_mapped {m : Mapped} {row : Row} (hn : T.mapped g n = some m) (hrow : T.res.rows.get? m.row = some row) :
    T.query g n = BitVec.ofNat 32 (queryWord g row) := by
  have hbind : ((T.mapped g n).bind fun m => T.res.rows.get? m.row) = some row := by rw [hn]; exact hrow
  simp only [Team.query, queryWord, hbind]
  congr 1
  cases row.anchor with
  | group k =>
    by_cases hk : k = g
    · simp [hk]; omega
    · simp [hk]
  | slot i => simp; omega

end

/-! ## The instruction -/

section
variable {s : State} {e : Env} {w : Bool} {d a : BitVec 7} (h : GroupAt s e 0) (hcheck : (Instr.nquery w d a).check = none)
include h hcheck

/-- A query needs no name mapped: whatever its word is, it completes and writes it to the scalar that its check lets pass. -/
theorem nquery_completes : ∃ u, exec (.nquery w d a) s = .next (marked w e u) ∧
    ScalarsOnly s u e [(d.toNat, e.team.query e.g a.toNat)] := by
  have hd : d.toNat < 64 := Nat.lt_succ_of_le (Nat.not_lt.mp (not_of_check hcheck))
  rw [exec_nquery, execNquery, runM_at h w _ rfl]
  exact writes_complete h w [(d.toNat, e.team.query e.g a.toNat)] (by simpa using hd)

end

/-- Settles O22: the query completes with the word that the model composes, which is 0 for an unmapped name and R72's for a mapped
one. -/
theorem queryWord : Obligations.QueryWord := by
  intro s e w d a h hcheck
  refine ⟨fun hunmapped => ?_, fun m row hmapped hrow => ?_⟩
  · rw [← query_of_unmapped hunmapped]
    exact nquery_completes h hcheck
  · rw [← query_of_mapped hmapped hrow]
    exact nquery_completes h hcheck

end Sys2Proof.Machine
end

section
/-! The vector integer and lane words (O15; R249 to R258, R261, R263): the values of their tables where the model writes them otherwise,
then a vector word that computes the lanes of a table, and each word. -/

namespace Sys2Proof.Machine

/-! ## Lane values (R250 to R254, R263) -/

/-- The upper half of a product of naturals. -/
theorem mulhiN_eq (x y : Word) : BitVec.ofNat 32 (x.toNat * y.toNat / 2 ^ 32) = ((x.setWidth 64 * y.setWidth 64) >>> 32).setWidth 32 := by
  have hlt : x.toNat * y.toNat < 2 ^ 64 := by
    have := Nat.mul_lt_mul'' x.isLt y.isLt
    omega
  rw [← ofNat_mul_toNat]
  apply BitVec.eq_of_toNat_eq
  rw [BitVec.toNat_setWidth, BitVec.toNat_ushiftRight, BitVec.toNat_ofNat, BitVec.toNat_ofNat, Nat.mod_eq_of_lt hlt,
    Nat.shiftRight_eq_div_pow]

/-- The upper half of a signed product. -/
theorem mulhiI_eq (x y : Word) : highWord (wrap64 (x.toInt * y.toInt)) = ((x.signExtend 64 * y.signExtend 64) >>> 32).setWidth 32 := by
  rw [wrap64_mul]
  exact BitVec.setWidth_ushiftRight_eq_extractLsb.symm

theorem satI32_eq (x : Int) : satI32 x = saturate x := by
  unfold satI32 saturate
  split
  case isTrue hlow =>
    have hbound : max (-2147483648) (min 2147483647 x) = -2147483648 := by omega
    rw [hbound]; rfl
  case isFalse hlow =>
    split
    case isTrue hhigh =>
      have hbound : max (-2147483648) (min 2147483647 x) = 2147483647 := by omega
      rw [hbound]; rfl
    case isFalse hhigh =>
      have hbound : max (-2147483648) (min 2147483647 x) = x := by omega
      rw [hbound]

/-- A word with its upper half replaced (R255). -/
theorem upperHalf_eq (i : BitVec 16) (x : Word) : BitVec.ofNat 32 (i.toNat * 2 ^ 16 + x.toNat % 2 ^ 16) = i ++ x.setWidth 16 := by
  have hi := i.isLt
  have hx : x.toNat % 2 ^ 16 < 2 ^ 16 := Nat.mod_lt _ (by decide)
  apply BitVec.eq_of_toNat_eq
  rw [BitVec.toNat_append, BitVec.toNat_setWidth, ← Nat.shiftLeft_add_eq_or_of_lt hx, Nat.shiftLeft_eq, BitVec.toNat_ofNat,
    Nat.mod_eq_of_lt (by omega)]

theorem dot4_eq (f : BitVec 8 → Int) (x y : Word) : dot4 f x y = dotBytes f x y := by
  have hsum : dot4 f x y = 0 + f (byteAt x 0) * f (byteAt y 0) + f (byteAt x 1) * f (byteAt y 1) + f (byteAt x 2) * f (byteAt y 2) +
      f (byteAt x 3) * f (byteAt y 3) := rfl
  rw [hsum, zero_add]
  rfl

theorem accumulate_dot4 (f : BitVec 8 → Int) (z x y : Word) : wrap32 (z.toNat + dot4 f x y) = z + BitVec.ofInt 32 (dotBytes f x y) := by
  rw [wrap32, BitVec.ofInt_add, dot4_eq, BitVec.ofInt_natCast, BitVec.ofNat_toNat, BitVec.setWidth_eq]

/-! ## Lane movement and scans (R258, R261) -/

/-- Where `vlsh` has a source lane, it is the lane that the table names. -/
theorem shiftSource_eq (n : BitVec 7) (l : Nat) : shiftSource (sext n) l =
    if 0 ≤ (l : Int) - n.toInt ∧ (l : Int) - n.toInt < 96 then some ((l : Int) - n.toInt).toNat else none := by
  unfold shiftSource sext
  by_cases hin : 0 ≤ (l : Int) - n.toInt ∧ (l : Int) - n.toInt < 96
  · rw [if_pos hin, if_pos (by simpa using hin)]
  · rw [if_neg hin, if_neg (by simpa using hin)]

/-- The running value of a scan after n lanes, and the values of those lanes, the last one first. -/
theorem foldl_scan (m : LaneMask) (v : List Word) (op : Word → Word → Word) (unit : Word) (n : Nat) :
    (List.range n).foldl (fun (acc : Word × List Word) l =>
        let x := if m.getLsbD l then op acc.1 (laneAt v l) else acc.1
        (x, x :: acc.2)) (unit, []) =
      ((((List.range n).filter fun k => m.getLsbD k).map (laneAt v)).foldl op unit,
        ((List.range n).map fun l => (((List.range (l + 1)).filter fun k => m.getLsbD k).map (laneAt v)).foldl op unit).reverse) := by
  induction n with
  | zero => rfl
  | succ n ih =>
    rw [List.range_succ, List.foldl_append, ih]
    cases hn : m.getLsbD n <;> simp [List.range_succ, List.filter_append, hn]

theorem scanVals_eq (e : Env) (a : BitVec 7) (op : Word → Word → Word) (unit : Word) :
    scanVals e.path.mask (e.team.lanes e.g a.toNat) op unit = lanesFrom (scanAt e a op unit) := by
  rw [scanVals, foldl_scan, List.reverse_reverse]
  rfl

/-! ## A vector word that computes the lanes of a table (R249) -/

/-- The word runs as a vector word with everything that `v` says of it. -/
def Computes (s : State) (e : Env) (i : Instr) (v : VecSpec) : Prop :=
  exec i s = finish v.w e s (vector s e v.lat v.srcs v.dsts fun _ => ⟨v.vals.map lanesFrom, v.mask, v.flags⟩)

/-- A vector word whose names are mapped, whose rows can be had and which raises no enabled flag has its effect. -/
theorem vector_completes {s : State} {e : Env} {lat : Latency} {srcs dsts : List Nat} {r : VRes}
    (hsrcs : e.team.allMapped e.g srcs = true) (hdsts : e.team.canWrite e.g dsts = true)
    (hflags : r.flags &&& (s.ctx e.team.id.ctx).trapen.toNat &&& 0x3F = 0) :
    vector s e lat srcs dsts (fun _ => r) = .done (writeNames (updTeam s e.t fun t => t.mapAll e.g dsts) e (lat.words e.team.id.image)
      r.mask (BitVec.ofNat 32 r.flags) (dsts.zip r.vals)) := by
  simp [vector, hsrcs, hdsts, trapen, hflags]

section
variable {s : State} {e : Env} {i : Instr} {v : VecSpec}

theorem Computes.completes (hi : Computes s e i v) (hsrcs : e.team.allMapped e.g v.srcs = true) (hdsts : e.team.canWrite e.g v.dsts = true)
    (hflags : v.flags &&& (s.ctx e.team.id.ctx).trapen.toNat &&& 0x3F = 0) : exec i s = .next (retire v.w e (vectorDone s e v)) := by
  rw [hi, vector_completes hsrcs hdsts hflags]
  rfl

variable (h : GroupAt s e 0)
include h

theorem Computes.of_runV {f : Env → (Nat → List Word) → VRes} (hexec : exec i s = runV v.w s v.lat v.srcs v.dsts f)
    (hf : (f e fun n => e.team.lanes e.g n) = ⟨v.vals.map lanesFrom, v.mask, v.flags⟩) : Computes s e i v := by
  rw [Computes, hexec, runV, runG_at h v.w _ (by decide) rfl]
  simp only [vector, hf]

/-! ### The forms of the words: `f` is the value of the model, `g` that of the table -/

variable {w : Bool} {lat : Latency} {d a b : BitVec 7}

theorem computes_vec1 {f g : Word → Word} (hv : vec1 e w lat d a g = some v) (hexec : exec i s = v2 w lat d a s f)
    (hvalue : ∀ x, f x = g x) : Computes s e i v := by
  obtain rfl : f = g := funext hvalue
  cases hv
  exact .of_runV h hexec rfl

theorem computes_vec2 {f g : Word → Word → Word} (hv : vec2 e w lat d a b g = some v) (hexec : exec i s = v3 w lat d a b s f)
    (hvalue : ∀ x y, f x y = g x y) : Computes s e i v := by
  obtain rfl : f = g := funext₂ hvalue
  cases hv
  exact .of_runV h hexec rfl

theorem computes_vec3 {f g : Word → Word → Word → Word} (hv : vec3 e w lat d a b g = some v)
    (hexec : exec i s = v3acc w lat d a b s f) (hvalue : ∀ z x y, f z x y = g z x y) : Computes s e i v := by
  obtain rfl : f = g := funext₃ hvalue
  cases hv
  exact .of_runV h hexec rfl

theorem computes_vec0 {f g : Nat → Word} (hv : vec0 e w d lat g = some v)
    (hexec : exec i s = runV w s lat [] [d.toNat] fun e _ => { vals := [lanesFrom f], mask := e.path.mask })
    (hvalue : ∀ l, f l = g l) : Computes s e i v := by
  obtain rfl : f = g := funext hvalue
  cases hv
  exact .of_runV h hexec rfl

theorem computes_reduction {f g : Word → Word → Word} {unit : Word}
    (hv : vecAll e w .reduce d a ((activeVals e a).foldl g unit) = some v) (hexec : exec i s = vreduce w d a s f unit)
    (hvalue : ∀ x y, f x y = g x y) : Computes s e i v := by
  obtain rfl : f = g := funext₂ hvalue
  rw [activeVals, List.foldl_map] at hv
  cases hv
  exact .of_runV h hexec rfl

theorem computes_scan {f g : Word → Word → Word} {unit : Word}
    (hv : some ⟨w, .reduce, [a.toNat], [d.toNat], [fun l => scanAt e a g unit l], e.path.mask, 0⟩ = some v)
    (hexec : exec i s = vscan w d a s f unit) (hvalue : ∀ x y, f x y = g x y) : Computes s e i v := by
  obtain rfl : f = g := funext₂ hvalue
  cases hv
  refine .of_runV h hexec ?_
  rw [scanVals_eq]
  rfl

/-- `vlsh` writes the active lanes that have a source lane, each from it. -/
theorem computes_vlsh {n : BitVec 7} (hv : integerVec e (.vlsh w d a n) = some v) : Computes s e (.vlsh w d a n) v := by
  have hlane : ∀ l, ((shiftSource (sext n) l).map fun i => laneAt (e.team.lanes e.g a.toNat) i).getD 0 =
      if 0 ≤ (l : Int) - n.toInt ∧ (l : Int) - n.toInt < 96 then laneOf e a ((l : Int) - n.toInt).toNat else 0 := fun l => by
    rw [shiftSource_eq]
    split <;> rfl
  have hsource : ∀ l, (shiftSource (sext n) l).isSome = decide (0 ≤ (l : Int) - n.toInt ∧ (l : Int) - n.toInt < 96) := fun l => by
    rw [shiftSource_eq]
    split
    case isTrue hin => rw [decide_eq_true hin]; rfl
    case isFalse hin => rw [decide_eq_false hin]; rfl
  cases hv
  refine .of_runV h rfl ?_
  simp only [hlane, hsource, List.map]

/-- Every word of the table is of its form, with the value of the table. -/
theorem computes_of_integerVec (hcheck : i.check = none) (hv : integerVec e i = some v) : Computes s e i v := by
  unfold integerVec at hv
  split at hv
  case h_4 => exact computes_vec2 h hv (exec_vmulhiI32 ..) mulhiI_eq
  case h_5 => exact computes_vec2 h hv (exec_vmulhiN32 ..) mulhiN_eq
  case h_6 => exact computes_vec2 h hv (exec_vminI32 ..) minI_eq
  case h_7 => exact computes_vec2 h hv (exec_vminN32 ..) minN_eq
  case h_8 => exact computes_vec2 h hv (exec_vmaxI32 ..) maxI_eq
  case h_9 => exact computes_vec2 h hv (exec_vmaxN32 ..) maxN_eq
  case h_10 => exact computes_vec2 h hv (exec_vaddsI32 ..) fun _ _ => satI32_eq _
  case h_11 => exact computes_vec2 h hv (exec_vsubsI32 ..) fun _ _ => satI32_eq _
  case h_12 => exact computes_vec1 h hv (exec_vabsI32 ..) fun _ => satI32_eq _
  case h_13 => exact computes_vec3 h hv (exec_vaddminI32 ..) fun z x y => (minI_eq z _).trans (congrArg (least z) (satI32_eq _))
  case h_22 => exact computes_vec2 h hv (exec_vshl ..) fun _ _ => shlV_eq _ _
  case h_23 => exact computes_vec2 h hv (exec_vshr ..) fun _ _ => shrV_eq _ _
  case h_24 => exact computes_vec2 h hv (exec_vsra ..) fun _ _ => sraV_eq _ _
  case h_25 => exact computes_vec1 h hv (exec_vpopc ..) popc_eq
  case h_34 => exact computes_vec1 h hv (exec_vminiI32 ..) fun _ => minI_eq _ _
  case h_35 => exact computes_vec1 h hv (exec_vmaxiI32 ..) fun _ => maxI_eq _ _
  case h_36 => exact computes_vec1 h hv (exec_vshli ..) fun _ => shlV_eq _ _
  case h_37 => exact computes_vec1 h hv (exec_vshri ..) fun _ => shrV_eq _ _
  case h_38 => exact computes_vec1 h hv (exec_vsrai ..) fun _ => sraV_eq _ _
  case h_40 => exact computes_vec1 h hv (exec_vmoviH ..) (upperHalf_eq _)
  case h_41 => exact computes_vec0 h hv (exec_vmoviZ ..) fun _ => BitVec.ofNat_toNat ..
  case h_44 => exact computes_vlsh h hv
  case h_47 => exact computes_reduction h hv (exec_vredAddI32 ..) fun _ _ => rfl
  case h_48 => exact computes_reduction h hv (exec_vredMinI32 ..) minI_eq
  case h_49 => exact computes_reduction h hv (exec_vredMinN32 ..) minN_eq
  case h_50 => exact computes_reduction h hv (exec_vredMaxI32 ..) maxI_eq
  case h_51 => exact computes_reduction h hv (exec_vredMaxN32 ..) maxN_eq
  case h_52 => exact computes_reduction h hv (exec_vredAnd ..) fun _ _ => rfl
  case h_53 => exact computes_reduction h hv (exec_vredOr ..) fun _ _ => rfl
  case h_54 => exact computes_reduction h hv (exec_vredXor ..) fun _ _ => rfl
  case h_55 => exact computes_scan h hv (exec_vscanAddI32 ..) fun _ _ => rfl
  case h_56 => exact computes_scan h hv (exec_vscanMaxI32 ..) maxI_eq
  case h_57 => exact computes_vec3 h hv (exec_vdot4I8 ..) (accumulate_dot4 _)
  case h_58 => exact computes_vec3 h hv (exec_vdot4N8 ..) (accumulate_dot4 _)
  case h_59 w d a => -- rdsr into a name
    cases hv
    exact exec_rdsrVector_at h w d a (Nat.not_lt.mp (not_of_check hcheck))
  -- the words whose table writes the lanes as the model does
  all_goals cases hv
  all_goals exact .of_runV h rfl rfl

end

theorem integerVec_flags {e : Env} {i : Instr} {v : VecSpec} (hv : integerVec e i = some v) : v.flags = 0 := by
  unfold integerVec at hv
  split at hv <;> cases hv <;> rfl

/-- Settles O15: each word is of one of a few forms, with the lanes of its table, and raises no flag; such a word has its effect once its
names are mapped and its rows can be had. -/
theorem integerVectorResults : Obligations.IntegerVectorResults := by
  intro s e i v h hcheck hv hsrcs hdsts
  have hflags : v.flags &&& (s.ctx e.team.id.ctx).trapen.toNat &&& 0x3F = 0 := by
    rw [integerVec_flags hv, Nat.zero_and, Nat.zero_and]
  exact (computes_of_integerVec h hcheck hv).completes hsrcs hdsts hflags

end Sys2Proof.Machine
end

section
/-! Votes and the ballot (O19; R262). -/

namespace Sys2Proof.Machine

/-! ## The scalars of a vote -/

theorem boolWord_ne_zero (m : LaneMask) : boolWord (m != 0) = if m = 0 then 0 else 1 := by
  by_cases hm : m = 0 <;> simp [boolWord, hm]

/-- No lane of `m` is outside `p` exactly where `p` keeps all of `m`. -/
theorem and_not_eq_zero_iff (m p : LaneMask) : m &&& ~~~p = 0 ↔ p &&& m = m := by
  refine ⟨fun hz => BitVec.eq_of_getLsbD_eq fun l hl => ?_, fun hm => ?_⟩
  · have hlane : (m &&& ~~~p).getLsbD l = false := by rw [hz]; exact BitVec.getLsbD_zero
    simpa [hl] using hlane
  · rw [← hm, BitVec.and_comm p, BitVec.and_assoc, BitVec.and_not_self]
    exact BitVec.and_zero

theorem boolWord_all (m p : LaneMask) : boolWord ((m &&& ~~~p) == 0) = if p &&& m = m then 1 else 0 := by
  simp only [boolWord, beq_iff_eq, and_not_eq_zero_iff]

/-- A scalar of a vote, at the latency of a reduction (R189). -/
def voteResult (e : Env) (s : State) (r : Nat) (v : Word) : State :=
  result s e (Latency.reduce.words e.team.id.image) (.scalar r) (BitVec.allOnes 96) [v] 0 0

/-- A vote completes: its words go to the scalars from `d` on, one after another. -/
theorem vote_completes {s : State} {e : Env} (h : GroupAt s e 0) (w : Bool) (d : Nat) (f : Env → List Word) : vote w s d f =
    .next (retire w e (((f e).zip (List.range (f e).length)).foldl (fun u v => voteResult e u (d + v.2) v.1) s)) :=
  runG_at h w _ (by decide) rfl

/-- Settles O19: a vote writes its one scalar and the ballot its three, which are the mask's words. -/
theorem voteResults : Obligations.VoteResults := by
  intro s e w d p h m put
  refine ⟨?_, ?_, ?_, ?_⟩
  · rw [exec_vvoteAny, execVvoteAny, vote_completes h, boolWord_ne_zero]
    rfl
  · rw [exec_vvoteAll, execVvoteAll, vote_completes h, boolWord_all]
    rfl
  · exact vote_completes h w d.toNat _
  · have hwords : maskWords d.toNat m = _ := maskWords_eq d.toNat m
    simp only [maskWords, List.cons.injEq, Prod.mk.injEq, true_and, and_true] at hwords
    obtain ⟨hlow, hmid, hhigh⟩ := hwords
    rw [hlow, hmid, hhigh]
    exact vote_completes h w d.toNat _

end Sys2Proof.Machine
end

section
/-! `vregroup` (O20; R259, R260). A team is seen through what its groups and its rows read: results sent to rows leave the rows' lanes as
they were, and landing them puts their values into the rows one after another. -/

namespace Sys2Proof.Machine

/-! ## The words (R259) -/

theorem regroupWords : regroupWordsRule := by
  intro s e w snd d a g other h i ns _ hg hlisted hpaths hstack hmapped hother
  have hexec : exec i s = regroup w snd d a g s := by cases snd <;> rfl
  have hpartner : (decide (g.toNat = e.g) || decide (e.team.groups.length ≤ g.toNat)) = false := by simpa using ⟨hg, hlisted⟩
  have hsingle : (decide (1 < e.grp.paths.length) || !e.path.pstack.isEmpty) = false := by simpa [hstack] using hpaths
  rw [hexec, regroup, runG_at h w _ (by decide) rfl]
  simp only [hpartner, hsingle, show e.team.allMapped e.g (nameRange d.toNat a.toNat) = true from hmapped, hother, Bool.not_true,
    Bool.false_eq_true, if_false]
  refine ⟨fun hended => ?_, fun hended hat => ?_, fun hended p o hat ho => ?_⟩
  · rw [if_pos hended]
    rfl
  · simp only [hended, hat, Bool.false_eq_true, if_false]
    simp [finish, markStands, markedWait, Hold.begun]
  · have hnot : (!snd) ≠ snd := by cases snd <;> decide
    simp only [hended, hat, ho, Bool.false_eq_true, if_false, ne_eq, not_true, decide_false, Bool.or_false, hnot]
    rfl

/-! ## A team as its groups and rows read -/

/-- The lanes of a row that something refers to. -/
def Team.liveLanes (T : Team) (x : Nat) : Option (List Word) :=
  (T.res.rows.get? x).bind fun row => if row.refcnt = 0 then none else some row.lanes

/-- Team t is listed, with these groups and these lanes of referred rows. -/
def Shows (u : State) (t : Nat) (Gs : Nat → Option Group) (L : Nat → Option (List Word)) : Prop :=
  ∃ T, u.teams.get? t = some T ∧ Tbl.get? T.groups = Gs ∧ T.liveLanes = L

/-- The row of a mapped name. -/
def Group.rowOf (G : Group) (n : Nat) : Nat := ((G.map.get? n).map (·.row)).getD 0

/-- The group with results at the end of its late ones. -/
def Group.sends (G : Group) (ls : List Late) : Group := { G with late := G.late ++ ls }

@[simp] theorem Group.sends_nil (G : Group) : G.sends [] = G := by simp [Group.sends]
@[simp] theorem Group.sends_sends (G : Group) (a b : List Late) : (G.sends a).sends b = G.sends (a ++ b) := by simp [Group.sends]

/-- The results of all 96 lanes that a word sends to rows. -/
def rowResults (e : Env) (lat : Nat) (ws : List (Nat × List Word)) : List Late :=
  ws.map fun x => rowResult e lat x.1 (BitVec.allOnes 96) x.2

/-- The lanes of the rows once such results have landed in them. -/
def landedRows (L : Nat → Option (List Word)) (ws : List (Nat × List Word)) : Nat → Option (List Word) :=
  ws.foldl (fun L x => Function.update L x.1 (some (padded x.2))) L

theorem landedRows_of_notMem {x : Nat} (ws : List (Nat × List Word)) (L : Nat → Option (List Word)) (hx : x ∉ ws.map (·.1)) :
    landedRows L ws x = L x := by
  induction ws generalizing L with
  | nil => rfl
  | cons y ws ih =>
    rw [List.map_cons, List.mem_cons, not_or] at hx
    exact (ih _ hx.2).trans (Function.update_of_ne hx.1 _ _)

theorem landedRows_of_mem {x : Nat × List Word} (ws : List (Nat × List Word)) (L : Nat → Option (List Word))
    (hnodup : (ws.map (·.1)).Nodup) (hx : x ∈ ws) : landedRows L ws x.1 = some (padded x.2) := by
  induction ws generalizing L with
  | nil => cases hx
  | cons y ws ih =>
    rw [List.map_cons, List.nodup_cons] at hnodup
    rcases List.mem_cons.mp hx with rfl | hx
    · exact (landedRows_of_notMem ws _ hnodup.1).trans (Function.update_self _ _ _)
    · exact ih _ hnodup.2 hx

theorem setGroup_get?_eq (T : Team) (g : Nat) (G : Group) :
    Tbl.get? (T.setGroup g G).groups = Function.update (Tbl.get? T.groups) g (some G) := by
  funext n
  rw [Function.update_apply]
  exact Tbl.get?_put ..

theorem liveLanes_pendUp (T : Team) (r : Nat) : (T.pendUp r).liveLanes = T.liveLanes := by
  funext x
  simp only [Team.liveLanes, Team.pendUp, Tbl.get?_upd]
  split
  · next hx => rw [hx, Option.bind_map]; rfl
  · rfl

theorem mergeLanes_all (old new : List Word) : mergeLanes old new (BitVec.allOnes 96) = padded new := by
  unfold mergeLanes padded lanesFrom
  exact List.map_congr_left fun l hl => if_pos ((BitVec.getLsbD_allOnes ..).trans (decide_eq_true (List.mem_range.mp hl)))

theorem liveLanes_eq_some {T : Team} {x : Nat} {v : List Word} :
    T.liveLanes x = some v ↔ ∃ row, T.res.rows.get? x = some row ∧ row.refcnt ≠ 0 ∧ row.lanes = v := by
  simp only [Team.liveLanes, Option.bind_eq_some_iff, Option.ite_none_left_eq_some, Option.some.injEq]

theorem liveLanes_isSome {T : Team} {x : Nat} (h : ∃ row, T.res.rows.get? x = some row ∧ row.refcnt ≠ 0) :
    (T.liveLanes x).isSome = true := by
  obtain ⟨row, hrow, href⟩ := h
  exact Option.isSome_iff_exists.mpr ⟨_, liveLanes_eq_some.mpr ⟨row, hrow, href, rfl⟩⟩

section
variable {u : State} {t g : Nat} {Gs : Nat → Option Group} {L : Nat → Option (List Word)} {G : Group}

theorem Shows.updGroup (h : Shows u t Gs L) (hG : Gs g = some G) (f : Group → Group) :
    Shows (updGroup u t g f) t (Function.update Gs g (some (f G))) L := by
  obtain ⟨T, hT, rfl, rfl⟩ := h
  rw [updGroup_of hT hG]
  exact ⟨_, setTeam_get .., setGroup_get?_eq .., rfl⟩

/-- A result sent to a name's row is counted there and waits in its group. -/
theorem Shows.writeName {e : Env} (h : Shows u t Gs L) (ht : e.t = t) (hG : Gs e.g = some G) {lat n : Nat} (hlat : 1 < lat)
    (hn : (G.map.get? n).isSome = true) (v : List Word) :
    Shows (writeName u e lat n (BitVec.allOnes 96) v 0) t
      (Function.update Gs e.g (some (G.sends (rowResults e lat [(G.rowOf n, v)])))) L := by
  obtain ⟨T, hT, rfl, rfl⟩ := h
  subst ht
  obtain ⟨x, hx⟩ := Option.isSome_iff_exists.mp hn
  have hmapped : T.mapped e.g n = some x := by simp [Team.mapped, hG, hx]
  have hrow : G.rowOf n = x.row := by simp [Group.rowOf, hx]
  rw [writeName_in_flight hT hmapped hG hlat, hrow]
  exact ⟨_, setTeam_get .., setGroup_get?_eq .., liveLanes_pendUp ..⟩

theorem Shows.writeNames {e : Env} (ht : e.t = t) {lat : Nat} (hlat : 1 < lat) (val : Nat → List Word) (ns : List Nat) :
    ∀ {u : State} {Gs : Nat → Option Group} {G : Group}, Shows u t Gs L → Gs e.g = some G →
      (∀ n ∈ ns, (G.map.get? n).isSome = true) →
      Shows (writeNames u e lat (BitVec.allOnes 96) 0 (ns.map fun n => (n, val n))) t
        (Function.update Gs e.g (some (G.sends (rowResults e lat (ns.map fun n => (G.rowOf n, val n)))))) L := by
  induction ns with
  | nil =>
    intro u Gs G h hG _
    have hsame : Function.update Gs e.g (some (G.sends [])) = Gs := by rw [Group.sends_nil, ← hG, Function.update_eq_self]
    exact hsame.symm ▸ h
  | cons n ns ih =>
    intro u Gs G h hG hns
    have hrest := ih (h.writeName ht hG hlat (hns n List.mem_cons_self) (val n)) (Function.update_self ..)
      fun m hm => hns m (List.mem_cons_of_mem _ hm)
    rw [Function.update_idem, Group.sends_sends] at hrest
    exact hrest

/-- A result of 96 lanes that lands in a row that is referred to. -/
theorem Shows.landNow (h : Shows u t Gs L) (e : Env) (lat : Nat) {r : Nat} (hr : (L r).isSome = true) (v : List Word) :
    Shows (landNow u t g (rowResult e lat r (BitVec.allOnes 96) v)) t Gs (Function.update L r (some (padded v))) := by
  obtain ⟨T, hT, rfl, rfl⟩ := h
  obtain ⟨old, hold⟩ := Option.isSome_iff_exists.mp hr
  obtain ⟨row, hrow, href, -⟩ := liveLanes_eq_some.mp hold
  rw [landNow_row hT rfl rfl hrow href]
  refine ⟨_, setTeam_get .., rfl, funext fun x => ?_⟩
  rw [Function.update_apply]
  split
  · next hx => exact hx ▸ liveLanes_eq_some.mpr ⟨_, setRow_get .., href, mergeLanes_all ..⟩
  · next hx => simp [Team.liveLanes, Team.setRow, Team.writeRow, hx]

theorem Shows.landResults (e : Env) (lat : Nat) (ws : List (Nat × List Word)) : ∀ {u : State} {L : Nat → Option (List Word)},
    Shows u t Gs L → (∀ x ∈ ws, (L x.1).isSome = true) →
      Shows ((rowResults e lat ws).foldl (fun s l => Machine.landNow s t g l) u) t Gs (landedRows L ws) := by
  induction ws with
  | nil => exact fun h _ => h
  | cons x ws ih =>
    intro u L h hws
    refine ih (h.landNow e lat (hws x List.mem_cons_self) x.2) fun y hy => ?_
    dsimp only
    rw [Function.update_apply]
    split
    · rfl
    · exact hws y (List.mem_cons_of_mem _ hy)

theorem Shows.landAll (h : Shows u t Gs L) (hG : Gs g = some G) {e : Env} {lat : Nat} {ws : List (Nat × List Word)}
    (hlate : G.late = rowResults e lat ws) (hws : ∀ x ∈ ws, (L x.1).isSome = true) :
    Shows (landAll u t g) t (Function.update Gs g (some { G with late := [] })) (landedRows L ws) := by
  have hfind : (u.teams.get? t).bind (fun team => team.groups.get? g) = some G := by
    obtain ⟨T, hT, rfl, -⟩ := h
    rw [hT]
    exact hG
  simp only [Machine.landAll, hfind, hlate]
  exact (h.landResults e lat ws hws).updGroup hG _

end

/-! ## Masks and lanes -/

theorem padded_getD (v : List Word) {l : Nat} (hl : l < 96) : (padded v).getD l 0 = v.getD l 0 := by
  simp [padded, lanesFrom, hl]

/-- The group after a `vregroup` that leaves its path n lanes. -/
def Group.remasked (G : Group) (p n : Nat) : Group :=
  { G with paths := G.paths.upd p fun path => { path with domain := BitVec.allOnes 96, mask := firstLanes n } }

theorem envOf_eq_some {s : State} {e : Env} (h : envOf s e.t e.g e.p = some e) :
    s.teams.get? e.t = some e.team ∧ e.team.groups.get? e.g = some e.grp ∧ e.grp.paths.get? e.p = some e.path := by
  simp only [envOf, Option.bind_eq_some_iff, Option.map_eq_some_iff] at h
  obtain ⟨T, hT, G, hG, P, hP, heq⟩ := h
  rw [← heq]
  exact ⟨hT, hG, hP⟩

theorem one_lt_regroup_words (image : Nat) : 1 < Latency.regroup.words image := by
  simp only [Latency.words]
  split <;> decide

/-- The path of a group that has been remasked, whatever the group has sent since. -/
theorem Shows.regrouped {u : State} {t : Nat} {e : Env}
    {Gs : Nat → Option Group} {L : Nat → Option (List Word)} {n : Nat} {ls : List Late}
    (h : Shows u t Gs L) (ht : e.t = t) (hG : Gs e.g = some ((e.grp.remasked e.p n).sends ls)) (hP : e.grp.paths.get? e.p = some e.path) :
    regrouped u e n := by
  obtain ⟨T, hT, rfl, -⟩ := h
  subst ht
  have hpath : ((e.grp.remasked e.p n).sends ls).paths.get? e.p =
      some { e.path with domain := BitVec.allOnes 96, mask := firstLanes n } := by
    simp [Group.sends, Group.remasked, hP]
  exact ⟨⟨e.t, T, e.g, _, e.p, _⟩, by simp only [envOf, hT, hG, hpath, Option.bind_some, Option.map_some]; rfl, rfl⟩

/-! ## Lanes packed (R260) -/

theorem packed_getD (v : List Word) (ls : List Nat) (l : Nat) :
    (packed v ls).getD l 0 = if l < ls.length then v.getD (ls.getD l 0) 0 else 0 := by
  unfold packed laneAt
  split
  case isTrue hl => simp [hl]
  case isFalse hl => simp [hl]

/-- How many lanes the donor hands on. -/
def passed (r d : Env) : Nat := min (lanesOf d.path.mask).length (96 - (lanesOf r.path.mask).length)

/-- A name's lanes after the exchange, in the receiver and in the donor, and in a group that packs alone. -/
def receivedLanes (r d : Env) (n : Nat) : List Word :=
  padded (packed (r.team.lanes r.g n) (lanesOf r.path.mask) ++ packed (d.team.lanes d.g n) ((lanesOf d.path.mask).take (passed r d)))
def retainedLanes (r d : Env) (n : Nat) : List Word := padded (packed (d.team.lanes d.g n) ((lanesOf d.path.mask).drop (passed r d)))
def ownLanes (e : Env) (n : Nat) : List Word := padded (packed (e.team.lanes e.g n) (lanesOf e.path.mask))

theorem ownLanes_getD (e : Env) (n : Nat) {l : Nat} (hl : l < 96) :
    (ownLanes e n).getD l 0 = if l < (lanesOf e.path.mask).length then nthActive e n l else 0 := by
  rw [ownLanes, padded_getD _ hl, packed_getD]
  rfl

theorem retainedLanes_getD (r d : Env) (n : Nat) {l : Nat} (hl : l < 96) : (retainedLanes r d n).getD l 0 =
    if l < (lanesOf d.path.mask).length - passed r d then nthActive d n (passed r d + l) else 0 := by
  rw [retainedLanes, padded_getD _ hl, packed_getD, List.length_drop]
  simp only [nthActive, List.getD_eq_getElem?_getD, List.getElem?_drop]

theorem receivedLanes_getD (r d : Env) (n : Nat) {l : Nat} (hl : l < 96) : (receivedLanes r d n).getD l 0 =
    if l < (lanesOf r.path.mask).length then nthActive r n l
    else if l < (lanesOf r.path.mask).length + passed r d then nthActive d n (l - (lanesOf r.path.mask).length) else 0 := by
  have hlength : (packed (r.team.lanes r.g n) (lanesOf r.path.mask)).length = (lanesOf r.path.mask).length := List.length_map _
  rw [receivedLanes, padded_getD _ hl]
  split
  case isTrue hown =>
    rw [List.getD_append _ _ _ _ (hlength ▸ hown), packed_getD, if_pos hown]
    rfl
  case isFalse hown =>
    have hpassed : l - (lanesOf r.path.mask).length < min (passed r d) (lanesOf d.path.mask).length ↔
        l < (lanesOf r.path.mask).length + passed r d := by unfold passed; omega
    rw [List.getD_append_right _ _ _ _ (hlength ▸ Nat.not_lt.mp hown), hlength, packed_getD, List.length_take]
    simp only [hpassed]
    split
    case isTrue hdonor =>
      have htake : l - (lanesOf r.path.mask).length < passed r d := by omega
      simp only [nthActive, List.getD_eq_getElem?_getD, List.getElem?_take_of_lt htake]
    case isFalse => rfl

/-! ## The rows of a range -/

/-- What is sent to the rows of a range. -/
def namedRows (e : Env) (ns : List Nat) (val : Nat → List Word) : List (Nat × List Word) := ns.map fun n => (e.grp.rowOf n, val n)

theorem namedRows_keys (e : Env) (ns : List Nat) (val : Nat → List Word) : (namedRows e ns val).map (·.1) = ns.map e.grp.rowOf := by
  rw [namedRows, List.map_map]
  rfl

section
variable {e : Env} {ns : List Nat} (hG : e.team.groups.get? e.g = some e.grp) (hmapped : e.team.allMapped e.g ns = true)
include hG

theorem mapped_eq (n : Nat) : e.team.mapped e.g n = e.grp.map.get? n := by
  rw [Team.mapped, hG, Option.bind_some]

include hmapped

theorem map_isSome_of_allMapped {n : Nat} (hn : n ∈ ns) : (e.grp.map.get? n).isSome = true := by
  rw [← mapped_eq hG]
  exact List.all_eq_true.mp hmapped n hn

theorem map_row_eq {n : Nat} (hn : n ∈ ns) : (e.team.mapped e.g n).map (·.row) = some (e.grp.rowOf n) := by
  obtain ⟨x, hx⟩ := Option.isSome_iff_exists.mp (map_isSome_of_allMapped hG hmapped hn)
  simp [mapped_eq hG, Group.rowOf, hx]

theorem rowsOf_eq : rowsOf e ns = ns.map e.grp.rowOf := by
  rw [rowsOf, List.filterMap_congr fun n hn => map_row_eq hG hmapped hn]
  exact congrFun List.filterMap_eq_map' ns

end

theorem lanes_of_liveLanes {V : Team} {g n : Nat} {G : Group} {v : List Word} (hG : V.groups.get? g = some G)
    (hn : (G.map.get? n).isSome = true) (hv : V.liveLanes (G.rowOf n) = some v) : V.lanes g n = v := by
  obtain ⟨x, hx⟩ := Option.isSome_iff_exists.mp hn
  obtain ⟨row, hrow, -, rfl⟩ := liveLanes_eq_some.mp hv
  have hrowOf : G.rowOf n = x.row := by simp [Group.rowOf, hx]
  simp [Team.lanes, Team.nameLanes, Team.mapped, hG, hx, ← hrowOf, hrow]

/-! ## The exchange (R260) -/

/-- What a `vregroup` of e's path sends to the rows of its range. -/
def sentRegroup (e : Env) (ns : List Nat) (val : Nat → List Word) : List Late :=
  rowResults e (Latency.regroup.words e.team.id.image) (namedRows e ns val)

section
variable {u : State} {t : Nat} {Gs : Nat → Option Group} {L : Nat → Option (List Word)} {e : Env} {ns : List Nat}
  {val : Nat → List Word} {p k : Nat} (h : Shows u t Gs L)
include h

theorem Shows.regroupMask {g : Nat} {G : Group} (hG : Gs g = some G) (p k : Nat) :
    Shows (regroupMask u t g p k) t (Function.update Gs g (some (G.remasked p k))) L := h.updGroup hG _

theorem Shows.regroupWrite (ht : e.t = t) (hG : Gs e.g = some (e.grp.remasked p k))
    (hmap : ∀ n ∈ ns, (e.grp.map.get? n).isSome = true) :
    Shows (regroupWrite u e (ns.map fun n => (n, val n))) t
      (Function.update Gs e.g (some ((e.grp.remasked p k).sends (sentRegroup e ns val)))) L :=
  Shows.writeNames ht (one_lt_regroup_words _) val ns h hG hmap

theorem Shows.landRegroup (hG : Gs e.g = some ((e.grp.remasked p k).sends (sentRegroup e ns val))) (hlate : e.grp.late = [])
    (hlive : ∀ n ∈ ns, (L (e.grp.rowOf n)).isSome = true) :
    Shows (Machine.landAll u t e.g) t (Function.update Gs e.g (some (e.grp.remasked p k))) (landedRows L (namedRows e ns val)) := by
  have hsent : ((e.grp.remasked p k).sends (sentRegroup e ns val)).late = sentRegroup e ns val := by
    simp [Group.sends, Group.remasked, hlate]
  have hkept : { (e.grp.remasked p k).sends (sentRegroup e ns val) with late := [] } = e.grp.remasked p k := by
    simp [Group.sends, Group.remasked, hlate]
  have hlanded := h.landAll hG hsent fun x hx => by
    obtain ⟨n, hn, rfl⟩ := List.mem_map.mp hx
    exact hlive n hn
  rwa [hkept] at hlanded

end

theorem landedRows_rowOf {e : Env} {ns : List Nat} {val : Nat → List Word} (L : Nat → Option (List Word))
    (hnodup : (ns.map e.grp.rowOf).Nodup) {n : Nat} (hn : n ∈ ns) :
    landedRows L (namedRows e ns val) (e.grp.rowOf n) = some (padded (val n)) :=
  landedRows_of_mem (x := (e.grp.rowOf n, val n)) _ L (by rwa [namedRows_keys]) (List.mem_map.mpr ⟨n, hn, rfl⟩)

theorem landedRows_other {e : Env} {ns : List Nat} {val : Nat → List Word} (L : Nat → Option (List Word)) {x : Nat}
    (hx : x ∉ ns.map e.grp.rowOf) : landedRows L (namedRows e ns val) x = L x :=
  landedRows_of_notMem _ L (by rwa [namedRows_keys])

/-- A group that packs alone. -/
theorem regroupAlone_lanes {s : State} {e : Env} {first last : Nat} {ns : List Nat} (hns : ns = nameRange first last)
    (henv : envOf s e.t e.g e.p = some e) (hlate : e.grp.late = [])
    (hmapped : e.team.allMapped e.g ns = true) (hnodup : (rowsOf e ns).Nodup)
    (hlive : ∀ x ∈ rowsOf e ns, ∃ row, e.team.res.rows.get? x = some row ∧ row.refcnt ≠ 0) :
    regrouped (regroupAlone s e first last) e (lanesOf e.path.mask).length ∧
    ∃ V, (landAll (regroupAlone s e first last) e.t e.g).teams.get? e.t = some V ∧ ∀ n ∈ ns,
      V.lanes e.g n = padded (ownLanes e n) := by
  subst hns
  obtain ⟨hT, hG, hP⟩ := envOf_eq_some henv
  rw [rowsOf_eq hG hmapped] at hnodup hlive
  have hmap := fun n => map_isSome_of_allMapped (n := n) hG hmapped
  have hrows : ∀ n ∈ nameRange first last, (e.team.liveLanes (e.grp.rowOf n)).isSome = true :=
    fun n hn => liveLanes_isSome (hlive _ (List.mem_map_of_mem hn))
  have hstart : Shows s e.t (Tbl.get? e.team.groups) e.team.liveLanes := ⟨_, hT, rfl, rfl⟩
  have hsent := (hstart.regroupMask hG e.p (lanesOf e.path.mask).length).regroupWrite (val := ownLanes e) rfl
    (Function.update_self ..) hmap
  refine ⟨hsent.regrouped rfl (Function.update_self ..) hP, ?_⟩
  obtain ⟨V, hV, hgroups, hlanes⟩ := hsent.landRegroup (Function.update_self ..) hlate hrows
  refine ⟨V, hV, fun n hn => lanes_of_liveLanes ((congrFun hgroups e.g).trans (Function.update_self ..)) (hmap n hn) ?_⟩
  rw [hlanes]
  exact landedRows_rowOf _ hnodup hn

/-- The lanes that the donor keeps in the row of a receiver's name, where a name of the donor's maps that row too (log entry 24). -/
def sharedLanes (r d : Env) (ns : List Nat) (n : Nat) : Option (List Word) :=
  ((ns.map fun m => (m, retainedLanes r d m)).reverse.find? fun v =>
    (d.team.mapped d.g v.1).map (·.row) == (r.team.mapped r.g n).map (·.row)).map (·.2)

section
variable {r d : Env} {ns : List Nat} (hGr : r.team.groups.get? r.g = some r.grp) (hGd : d.team.groups.get? d.g = some d.grp)
  (hmr : r.team.allMapped r.g ns = true) (hmd : d.team.allMapped d.g ns = true)
  (hapart : ∀ n ∈ ns, ∀ m ∈ ns, r.grp.rowOf n ≠ d.grp.rowOf m)
include hGr hGd hmr hmd hapart

theorem sharedLanes_eq_none {n : Nat} (hn : n ∈ ns) : sharedLanes r d ns n = none := by
  refine Option.map_eq_none_iff.mpr (List.find?_eq_none.mpr fun v hv => ?_)
  obtain ⟨m, hm, rfl⟩ := List.mem_map.mp (List.mem_reverse.mp hv)
  rw [map_row_eq hGd hmd hm, map_row_eq hGr hmr hn]
  simpa using (hapart n hn m hm).symm

/-- Where no row is mapped in both ranges, the exchange sends each group its own lanes. -/
theorem regroupPair_eq (s : State) {first last : Nat} (hns : ns = nameRange first last) :
    regroupPair s r d first last =
      regroupWrite (regroupWrite (regroupMask (regroupMask s r.t r.g r.p
          ((lanesOf r.path.mask).length + ((lanesOf d.path.mask).take (passed r d)).length)) d.t d.g d.p
          ((lanesOf d.path.mask).drop (passed r d)).length)
        r (ns.map fun n => (n, receivedLanes r d n))) d (ns.map fun n => (n, retainedLanes r d n)) := by
  have hreceived : (ns.map fun n => (n, (sharedLanes r d ns n).getD (receivedLanes r d n))) = ns.map fun n => (n, receivedLanes r d n) :=
    List.map_congr_left fun n hn => by rw [sharedLanes_eq_none hGr hGd hmr hmd hapart hn, Option.getD_none]
  rw [← hreceived, hns]
  rfl

end

/-- The receiver and the donor after the exchange: each has its new mask and its results on their way. -/
theorem regroupPair_shows {s : State} {r d : Env} {first last : Nat} {ns : List Nat} (hns : ns = nameRange first last)
    (hT : s.teams.get? r.t = some r.team) (hGr : r.team.groups.get? r.g = some r.grp) (hGd : d.team.groups.get? d.g = some d.grp)
    (hteam : d.t = r.t) (hsame : d.team = r.team) (hgroups : r.g ≠ d.g) (hmr : r.team.allMapped r.g ns = true)
    (hmd : d.team.allMapped d.g ns = true) (hapart : ∀ n ∈ ns, ∀ m ∈ ns, r.grp.rowOf n ≠ d.grp.rowOf m) :
    ∃ Gs, Shows (regroupPair s r d first last) r.t Gs r.team.liveLanes ∧
      Gs r.g = some ((r.grp.remasked r.p ((lanesOf r.path.mask).length + passed r d)).sends (sentRegroup r ns (receivedLanes r d))) ∧
      Gs d.g = some ((d.grp.remasked d.p ((lanesOf d.path.mask).length - passed r d)).sends (sentRegroup d ns (retainedLanes r d))) := by
  have hotherd : ∀ {Gs : Nat → Option Group} {x : Option Group}, Function.update Gs r.g x d.g = Gs d.g :=
    Function.update_of_ne hgroups.symm _ _
  have hotherr : ∀ {Gs : Nat → Option Group} {x : Option Group}, Function.update Gs d.g x r.g = Gs r.g :=
    Function.update_of_ne hgroups _ _
  have htaken : ((lanesOf d.path.mask).take (passed r d)).length = passed r d := by
    rw [List.length_take, passed, min_eq_left (min_le_left _ _)]
  rw [regroupPair_eq hGr hGd hmr hmd hapart s hns, htaken, List.length_drop, hteam]
  have hstart : Shows s r.t (Tbl.get? r.team.groups) r.team.liveLanes := ⟨_, hT, rfl, rfl⟩
  have hmasks := (hstart.regroupMask hGr r.p ((lanesOf r.path.mask).length + passed r d)).regroupMask
    (hotherd.trans (hsame ▸ hGd)) d.p ((lanesOf d.path.mask).length - passed r d)
  have hreceiver := hmasks.regroupWrite (val := receivedLanes r d) rfl (hotherr.trans (Function.update_self ..))
    fun n => map_isSome_of_allMapped hGr hmr
  have hdonor := hreceiver.regroupWrite (val := retainedLanes r d) hteam (hotherd.trans (Function.update_self ..))
    fun n => map_isSome_of_allMapped hGd hmd
  exact ⟨_, hdonor, hotherr.trans (Function.update_self ..), Function.update_self ..⟩

/-- Results on their way to the rows of two groups, which are all different rows, are in them once both groups' have landed. -/
theorem landPair_lanes {u : State} {t : Nat} {Gs : Nat → Option Group} {L : Nat → Option (List Word)} {r d : Env} {ns : List Nat}
    {valr vald : Nat → List Word} {kr kd : Nat} (h : Shows u t Gs L) (hgroups : r.g ≠ d.g)
    (hr : Gs r.g = some ((r.grp.remasked r.p kr).sends (sentRegroup r ns valr)))
    (hd : Gs d.g = some ((d.grp.remasked d.p kd).sends (sentRegroup d ns vald))) (hlr : r.grp.late = []) (hld : d.grp.late = [])
    (hmapr : ∀ n ∈ ns, (r.grp.map.get? n).isSome = true) (hmapd : ∀ n ∈ ns, (d.grp.map.get? n).isSome = true)
    (hnodup : (ns.map r.grp.rowOf ++ ns.map d.grp.rowOf).Nodup)
    (hlive : ∀ x ∈ ns.map r.grp.rowOf ++ ns.map d.grp.rowOf, (L x).isSome = true) :
    ∃ V, (landAll (landAll u t r.g) t d.g).teams.get? t = some V ∧ ∀ n ∈ ns,
      V.lanes r.g n = padded (valr n) ∧ V.lanes d.g n = padded (vald n) := by
  obtain ⟨hnr, hnd, hdisjoint⟩ := List.nodup_append.mp hnodup
  have hreceiver := h.landRegroup hr hlr fun n hn => hlive _ (List.mem_append_left _ (List.mem_map_of_mem hn))
  have hkept : ∀ n ∈ ns, landedRows L (namedRows r ns valr) (d.grp.rowOf n) = L (d.grp.rowOf n) := fun n hn =>
    landedRows_other L fun hx => hdisjoint _ hx _ (List.mem_map_of_mem hn) rfl
  obtain ⟨V, hV, hshown, hlanes⟩ := hreceiver.landRegroup ((Function.update_of_ne hgroups.symm _ _).trans hd) hld fun n hn =>
    hkept n hn ▸ hlive _ (List.mem_append_right _ (List.mem_map_of_mem hn))
  have hVr := (congrFun hshown r.g).trans ((Function.update_of_ne hgroups _ _).trans (Function.update_self ..))
  have hVd := (congrFun hshown d.g).trans (Function.update_self ..)
  refine ⟨V, hV, fun n hn => ⟨lanes_of_liveLanes hVr (hmapr n hn) ?_, lanes_of_liveLanes hVd (hmapd n hn) ?_⟩⟩
  · rw [hlanes]
    exact (landedRows_other _ fun hx => hdisjoint _ (List.mem_map_of_mem hn) _ hx rfl).trans (landedRows_rowOf _ hnr hn)
  · rw [hlanes]
    exact landedRows_rowOf _ hnd hn

theorem regroupLanes : regroupLanesRule := by
  refine ⟨?_, ?_⟩
  · intro s r d first last hr hd hteam hgroups hlr hld ns rows hmr hmd hnodup hlive a b k u
    obtain ⟨hT, hGr, hPr⟩ := envOf_eq_some hr
    obtain ⟨hTd, hGd, hPd⟩ := envOf_eq_some hd
    have hsame : d.team = r.team := Option.some.inj (hTd.symm.trans (hteam ▸ hT))
    have hrows : rows = ns.map r.grp.rowOf ++ ns.map d.grp.rowOf := congrArg₂ (· ++ ·) (rowsOf_eq hGr hmr) (rowsOf_eq hGd hmd)
    rw [hrows] at hnodup hlive
    have hapart : ∀ n ∈ ns, ∀ m ∈ ns, r.grp.rowOf n ≠ d.grp.rowOf m := fun n hn m hm =>
      (List.nodup_append.mp hnodup).2.2 _ (List.mem_map_of_mem hn) _ (List.mem_map_of_mem hm)
    obtain ⟨Gs, hshows, hsentr, hsentd⟩ := regroupPair_shows rfl hT hGr hGd hteam.symm hsame hgroups hmr hmd hapart
    obtain ⟨V, hV, hlanes⟩ := landPair_lanes hshows hgroups hsentr hsentd hlr hld (fun n => map_isSome_of_allMapped hGr hmr)
      (fun n => map_isSome_of_allMapped hGd hmd) hnodup fun x hx => liveLanes_isSome (hlive x hx)
    refine ⟨hshows.regrouped rfl hsentr hPr, hshows.regrouped hteam.symm hsentd hPd, V, hteam ▸ hV, fun n hn l hl => ?_⟩
    obtain ⟨hreceived, hretained⟩ := hlanes n hn
    rw [hreceived, hretained, padded_getD _ hl, padded_getD _ hl]
    exact ⟨receivedLanes_getD r d n hl, retainedLanes_getD r d n hl⟩
  · intro s e first last henv hlate ns hmapped hnodup hlive a u
    obtain ⟨hmask, V, hV, hlanes⟩ := regroupAlone_lanes rfl henv hlate hmapped hnodup hlive
    refine ⟨hmask, V, hV, fun n hn l hl => ?_⟩
    rw [hlanes n hn, padded_getD _ hl]
    exact ownLanes_getD e n hl

/-- Settles O20: the word goes on by its partner's group, and the lanes that the exchange sends are those that land. -/
theorem regroupResults : Obligations.RegroupResults := ⟨regroupWords, regroupLanes⟩

end Sys2Proof.Machine
end

section
/-! THE FORM OF THE MEMORY (O59): what keeps the memories behind the homes in their canonical form. The form is one of `State.store`
alone, so a function that changes no memory keeps it by definition; the others write bytes through the operations of `Memory`, whose laws
stand in Laws/Memory. One lemma for each function of the model that a step may reach, `<function>_storeInv`, in the order of the model. -/

namespace Sys2Proof.Machine

/-! ## The form through each shape of result -/

/-- Every state that a word's end carries has the store's form. -/
def Res.storeInv : Res → Prop
  | .done s | .goto s _ | .trapWith s _ _ _ | .hold s _ | .again s | .keep s _ | .placed s => StoreInv s
  | .trap _ _ _ => True

/-- The same of a release. -/
def Ready.storeInv : Ready → Prop
  | .go _ s => StoreInv s
  | .wait r => r.storeInv

/-- The same of a fetch. -/
def Fetched.storeInv : Fetched → Prop
  | .bytes _ s | .waiting s => StoreInv s
  | .violation => True

/-- The same of what becomes of a packet. -/
def Verdict.storeInv : Verdict → Prop
  | .accept s | .command s _ | .hold s => StoreInv s
  | .fail _ | .wait _ | .stay => True

/-- The same of a place for a key. -/
def KeyPlace.storeInv : KeyPlace → Prop
  | .parks s => StoreInv s
  | .free _ | .waits | .none => True

theorem Res.getD_storeInv {o : Option Res} {f : Res} (ho : ∀ r, o = some r → r.storeInv) (hf : f.storeInv) :
    (o.getD f).storeInv := by
  cases o with
  | none => exact hf
  | some r => exact ho r rfl

theorem Res.ite_storeInv {c : Prop} [Decidable c] {a b : Res} (ha : a.storeInv) (hb : b.storeInv) :
    (if c then a else b).storeInv := by
  split
  · exact ha
  · exact hb

theorem none_storeInv (x : Res) (hx : none = some x) : x.storeInv := by cases hx

/-- A check that gives a trap. -/
theorem check_storeInv {c : Prop} [Decidable c] {o : Option Res} {r : Res} (hr : r.storeInv) (ho : ∀ x, o = some x → x.storeInv)
    (x : Res) (hx : (if c then some r else o) = some x) : x.storeInv := by
  split at hx
  · exact Option.some.inj hx ▸ hr
  · exact ho x hx

/-- A check that is made where a condition holds. -/
theorem checkIf_storeInv {c : Prop} [Decidable c] {o : Option Res} (ho : ∀ x, o = some x → x.storeInv) (x : Res)
    (hx : (if c then o else none) = some x) : x.storeInv := by
  split at hx
  · exact ho x hx
  · cases hx

theorem firstOf_nil_storeInv {f : Res} (h : f.storeInv) : (firstOf [] f).storeInv := h

theorem firstOf_cons_storeInv {o : Option Res} {cs : List (Option Res)} {f : Res} (ho : ∀ r, o = some r → r.storeInv)
    (h : (firstOf cs f).storeInv) : (firstOf (o :: cs) f).storeInv := by
  cases o with
  | none => exact h
  | some r => exact ho r rfl

theorem keeps_next {s : State} (h : StoreInv s) : Keeps (.next s) StoreInv := by
  rintro _ ⟨⟩
  exact h

theorem keeps_fault {x : Fault} : Keeps (.fault x) StoreInv := nofun
theorem keeps_refused {x : Refusal} : Keeps (.refused x) StoreInv := nofun

theorem storeInv_ite {c : Prop} [Decidable c] {s u : State} (hs : StoreInv s) (hu : StoreInv u) : StoreInv (if c then s else u)
    := by
  split
  · exact hs
  · exact hu

theorem keeps_ite {c : Prop} [Decidable c] {a b : Out} (ha : Keeps a StoreInv) (hb : Keeps b StoreInv) :
    Keeps (if c then a else b) StoreInv := by
  split
  · exact ha
  · exact hb

/-- A property that each turn of a fold keeps. -/
theorem foldl_inv {α β : Type} {P : β → Prop} {f : β → α → β} (hf : ∀ u x, P u → P (f u x)) {l : List α} {b : β} (h : P b) :
    P (l.foldl f b) := by
  induction l generalizing b with
  | nil => exact h
  | cons x l ih => exact ih (hf b x h)

theorem foldl_storeInv {α : Type} {f : State → α → State} (hf : ∀ u x, StoreInv u → StoreInv (f u x)) {l : List α} {s : State}
    (h : StoreInv s) : StoreInv (l.foldl f s) := foldl_inv hf h

/-- The form is one of the memories alone: every other field of the state may change. -/
theorem storeInv_with {s : State} (h : StoreInv s) {refclk clock16 faultCount nextId free turn : Nat} {dies : Tbl Die}
    {links : Tbl Link}
    {cores : Tbl Core} {teams : Tbl Team} {ctxs : Tbl Ctx} {live : Tbl CtxLive} {fields : Tbl Field} {launches : Tbl Launch}
    {runs : Tbl GraphRun} {graphs : Tbl Graph} {workQs : Tbl WorkQ} {msgs : Tbl QueueMsg} {reqs : Tbl Req} {delayed : List Message}
    {accs : Tbl Access} {copies : Tbl Copy} {faults : Tbl FaultRec} {ring : Option FaultRing} {hg : Headgate} {keys : Keys}
    {trace : Trace} {boot : Boot} {health : Health} {irqs : List Nat} {completions : List (Bool × List Byte)}
    {split : Option LaneMask} {agenda : List Input} {cur : Option Cursor} :
    StoreInv ⟨refclk, clock16, s.store, dies, links, cores, teams, ctxs, live, fields, launches, runs, graphs, workQs, msgs,
      reqs, delayed, accs, copies, faults, ring, faultCount, hg, keys, trace, boot, health, irqs, completions, nextId, free,
      split, agenda, turn, cur⟩ := h

/-- Bytes put by a fold where a condition holds keep the form of a memory. -/
theorem foldl_condPut_wf {β : Type} {c : β → Prop} [DecidablePred c] {a : β → Nat} {v : β → Byte} {l : List β} {m : Memory}
    (h : Memory.wf m = true) : Memory.wf (l.foldl (fun m x => if c x then Memory.put m (a x) (v x) else m) m) = true := by
  induction l generalizing m with
  | nil => exact h
  | cons x l ih =>
    refine ih ?_
    dsimp only
    split
    · exact Memory.put_wf _ _ _ h
    · exact h

theorem optionGetD_storeInv {o : Option State} {s : State} (h : StoreInv s) (ho : ∀ u, o = some u → StoreInv u) :
    StoreInv (o.getD s) := by
  cases o with
  | none => exact h
  | some u => exact ho u rfl

end Sys2Proof.Machine
end

section
/-! THE FORM OF THE MEMORY (O59): the operations on cores, teams, groups, rows and memory (model file Machine/Ops). -/

namespace Sys2Proof.Machine

theorem State.setDie_storeInv {s : State} {d : Nat} {x : Die} (h : StoreInv s) :
    StoreInv (State.setDie s d x) := h

theorem State.setCore_storeInv {s : State} {c : Nat} {x : Core} (h : StoreInv s) :
    StoreInv (State.setCore s c x) := h

theorem State.setSlice_storeInv {s : State} {c k : Nat} {x : Slice} (h : StoreInv s) :
    StoreInv (State.setSlice s c k x) := h

theorem State.fresh_storeInv {s : State} (h : StoreInv s) {r : Nat × State} (hx : State.fresh s = r) :
    StoreInv r.2 := hx ▸ h

theorem State.draw_storeInv {s : State} (h : StoreInv s) {r : Nat × State} (hx : State.draw s = r) :
    StoreInv r.2 := hx ▸ h

theorem updGroup_storeInv {s : State} {t g : Nat} {f : Group → Group} (h : StoreInv s) :
    StoreInv (updGroup s t g f) := h

theorem updTeam_storeInv {s : State} {t : Nat} {f : Team → Team} (h : StoreInv s) :
    StoreInv (updTeam s t f) := h

theorem updPath_storeInv {s : State} {t g p : Nat} {f : Path → Path} (h : StoreInv s) :
    StoreInv (updPath s t g p f) := h

theorem updSeq_storeInv {s : State} {t : Nat} {flume : Bool} {f : Seq → Seq} (h : StoreInv s) :
    StoreInv (updSeq s t flume f) := h

theorem writeS_storeInv {s : State} {t g p r : Nat} {v : Word} (h : StoreInv s) :
    StoreInv (writeS s t g p r v) := storeInv_ite h h

theorem Env.setS_storeInv {e : Env} {s : State} {r : BitVec 6} {v : Word} (h : StoreInv s) :
    StoreInv (Env.setS e s r v) := writeS_storeInv h

theorem Env.setPair_storeInv {e : Env} {s : State} {r : BitVec 6} {v : Dword} (h : StoreInv s) :
    StoreInv (Env.setPair e s r v) := writeS_storeInv (writeS_storeInv h)

theorem SeqEnv.setS_storeInv {e : SeqEnv} {s : State} {r : Nat} {v : Word} (h : StoreInv s) :
    StoreInv (SeqEnv.setS e s r v) := h

theorem landLanes_storeInv {s : State} {t g : Nat} {l : Late} {m : LaneMask} (h : StoreInv s) :
    StoreInv (landLanes s t g l m) := by
  unfold landLanes
  split
  · exact h
  · exact writeS_storeInv h
  · exact h

theorem orFlags_storeInv {s : State} {t g : Nat} {f : Word} (h : StoreInv s) :
    StoreInv (orFlags s t g f) := storeInv_ite h h

theorem landNow_storeInv {s : State} {t g : Nat} {l : Late} (h : StoreInv s) :
    StoreInv (landNow s t g l) := by
  unfold landNow
  dsimp only
  split
  · exact updTeam_storeInv (orFlags_storeInv (landLanes_storeInv h))
  · exact orFlags_storeInv (landLanes_storeInv h)

theorem landAll_storeInv {s : State} {t g : Nat} (h : StoreInv s) :
    StoreInv (landAll s t g) := by
  unfold landAll
  split
  · exact h
  · exact updGroup_storeInv (foldl_storeInv (fun _ _ hu => landNow_storeInv hu) h)

theorem landRow_storeInv {s : State} {t g r : Nat} (h : StoreInv s) :
    StoreInv (landRow s t g r) := by
  unfold landRow
  dsimp only
  split
  · exact h
  · exact updGroup_storeInv (foldl_storeInv (fun _ _ hu => landNow_storeInv hu) h)

theorem settleLate_storeInv {s : State} {t g p : Nat} (h : StoreInv s) : StoreInv (settleLate s t g p) := by
  unfold settleLate
  split
  · exact h
  · refine foldl_storeInv (fun u l hu => ?_) h
    dsimp only
    apply storeInv_ite
    · exact landNow_storeInv hu
    · have hflags : StoreInv (if Config.freeBit u.draw.1 then orFlags u.draw.2 t g l.flags else u.draw.2) :=
        storeInv_ite (orFlags_storeInv hu) hu
      split
      · exact landLanes_storeInv hflags
      · exact storeInv_ite (landLanes_storeInv hflags) hflags

theorem stopGroup_storeInv {s : State} {t g p : Nat} {pc : Dword} {code detail : Nat} {addr : Dword} (h : StoreInv s) :
    StoreInv (stopGroup s t g p pc code detail addr) := h

theorem stopSeqWith_storeInv {s : State} {t : Nat} {flume : Bool} {pc : Dword} {code detail : Nat} {addr : Dword}
    {more : List Word} (h : StoreInv s) :
    StoreInv (stopSeqWith s t flume pc code detail addr more) := h

theorem stopSeq_storeInv {s : State} {t : Nat} {flume : Bool} {pc : Dword} {code detail : Nat} {addr : Dword} (h : StoreInv s) :
    StoreInv (stopSeq s t flume pc code detail addr) := h

theorem stopIssuer_storeInv {s : State} {t : Nat} {issuer : Option Nat} {flume : Bool} {p : Nat} {pc : Dword}
    {code detail : Nat} {addr : Dword} (h : StoreInv s) :
    StoreInv (stopIssuer s t issuer flume p pc code detail addr) := by
  unfold stopIssuer
  split
  · exact h
  · exact h

theorem stopLate_storeInv {s : State} {t : Nat} {issuer : Option Nat} {flume : Bool} {p : Nat} {pc : Dword} {mask : LaneMask}
    {code detail : Nat} {addr : Dword} (h : StoreInv s) :
    StoreInv (stopLate s t issuer flume p pc mask code detail addr) := by
  unfold stopLate
  split
  · exact h
  · exact h

theorem countClause_storeInv {s : State} {t : Nat} (h : StoreInv s) :
    StoreInv (countClause s t) := h

theorem switchPark_storeInv {s : State} {t g p : Nat} (h : StoreInv s) :
    StoreInv (switchPark s t g p) := storeInv_ite (updGroup_storeInv (landAll_storeInv h)) (landAll_storeInv h)

theorem standAt_storeInv {s : State} {e : Env} {h' : Hold} (h : StoreInv s) :
    StoreInv (standAt s e h') := h

theorem markSwitch_storeInv {w : Bool} {e : Env} {s : State} (h : StoreInv s) :
    StoreInv (markSwitch w e s) := storeInv_ite (switchPark_storeInv h) h

theorem markStands_storeInv {w : Bool} {e : Env} {s : State} (h : StoreInv s) :
    StoreInv (markStands w e s) := storeInv_ite (switchPark_storeInv h) h

theorem retire_storeInv {w : Bool} {e : Env} {s : State} (h : StoreInv s) :
    StoreInv (retire w e s) := markSwitch_storeInv (storeInv_ite h h)

theorem take_storeInv {w : Bool} {e : Env} {s : State} {target : Dword} (h : StoreInv s) :
    StoreInv (take w e s target) := markSwitch_storeInv h

theorem finish_storeInv {w : Bool} {e : Env} {s : State} {a : Res} (hs : StoreInv s) (ha : a.storeInv) :
    Keeps (finish w e s a) StoreInv := by
  cases a with
  | done => exact keeps_next (retire_storeInv ha)
  | goto => exact keeps_next (take_storeInv ha)
  | trap => exact keeps_next hs
  | trapWith => exact keeps_next ha
  | hold => exact keeps_next (markStands_storeInv ha)
  | again => exact keeps_next ha
  | keep => exact keeps_next (markStands_storeInv ha)
  | placed => exact keeps_next ha

theorem finishSeq_storeInv {e : SeqEnv} {s : State} {a : Res} (hs : StoreInv s) (ha : a.storeInv) :
    Keeps (finishSeq e s a) StoreInv := by
  cases a with
  | trap => exact keeps_next hs
  | done | goto | trapWith | hold | again | keep | placed => exact keeps_next ha

theorem runX_storeInv {place : Place} {w : Bool} {s : State} {f : Env → Res} {q : SeqEnv → Res} (h : StoreInv s)
    (hf : ∀ x, (f x).storeInv) (hq : ∀ x, (q x).storeInv) : Keeps (runX place w s f q) StoreInv := by
  unfold runX
  split
  · exact keeps_fault
  · split
    · exact keeps_fault
    · split
      · exact finish_storeInv h (hf _)
      · exact finish_storeInv h trivial
  · split
    · exact keeps_fault
    · split
      · exact finishSeq_storeInv h (hq _)
      · exact finishSeq_storeInv h trivial

theorem runG_storeInv {place : Place} {w : Bool} {s : State} {f : Env → Res} (h : StoreInv s)
    (hf : ∀ x, (f x).storeInv) : Keeps (runG place w s f) StoreInv := runX_storeInv h hf fun _ => trivial

theorem enterEmulation_storeInv {s : State} {e : Env} {c : Clause} {word : Word} {vec : Dword} (h : StoreInv s) :
    StoreInv (enterEmulation s e c word vec) := h

theorem leaveEmulation_storeInv {s : State} {e : Env} {sh : Shadow} {keep : Nat} (h : StoreInv s) :
    StoreInv (leaveEmulation s e sh keep) := h

end Sys2Proof.Machine
end

section
/-! THE FORM OF THE MEMORY (O59): the caches (model file Machine/Caches). -/

namespace Sys2Proof.Machine

theorem homeWrite_storeInv {s : State} {home sector : Nat} {m : BitVec 64} {data : BitVec 512} (h : StoreInv s) :
    StoreInv (homeWrite s home sector m data) := by
  unfold homeWrite
  split
  · exact h
  · exact ⟨foldl_condPut_wf h.1, h.2⟩

theorem mscFlush_storeInv {s : State} {home sector : Nat} (h : StoreInv s) :
    StoreInv (mscFlush s home sector) := by
  unfold mscFlush
  split
  · exact h
  · exact homeWrite_storeInv h

theorem evictMscLine_storeInv {s : State} {home line : Nat} (h : StoreInv s) :
    StoreInv (evictMscLine s home line) := mscFlush_storeInv (mscFlush_storeInv h)

theorem pickLine_storeInv {s : State} {a : List Nat} (h : StoreInv s) {r : Option Nat × State} (hx : pickLine s a = r) :
    StoreInv r.2 := by
  subst hx
  unfold pickLine
  dsimp only
  split
  · exact h
  · exact h
  · exact h

theorem mscRoom_storeInv {s : State} {home line : Nat} (h : StoreInv s) :
    StoreInv (mscRoom s home line) := by
  unfold mscRoom
  apply storeInv_ite
  · exact h
  · split
    · next e => exact evictMscLine_storeInv (pickLine_storeInv h e)
    · next e => exact pickLine_storeInv h e

theorem mscAllocate_storeInv {s : State} {home sector cache : Nat} (h : StoreInv s) :
    StoreInv (mscAllocate s home sector cache) := storeInv_ite (State.setDie_storeInv (mscRoom_storeInv h)) h

theorem breakSeal_storeInv {s : State} {sector : Nat} (h : StoreInv s) :
    StoreInv (breakSeal s sector) := h

theorem setHealth_storeInv {s : State} {w : Word} (h : StoreInv s) :
    StoreInv (setHealth s w) := storeInv_ite h (storeInv_ite h h)

theorem notePoison_storeInv {s : State} (h : StoreInv s) :
    StoreInv (notePoison s) := setHealth_storeInv h

theorem setPoison_storeInv {s : State} {sector : Nat} {on : Bool} (h : StoreInv s) : StoreInv (setPoison s sector on) :=
  notePoison_storeInv (s := { s with store := { s.store with poison := _ } }) h

theorem clearPoison_storeInv {s : State} {p : Nat → Bool} (h : StoreInv s) : StoreInv (clearPoison s p) :=
  notePoison_storeInv (s := { s with store := { s.store with poison := _ } }) h

theorem countError_storeInv {s : State} {i : Nat} (h : StoreInv s) :
    StoreInv (countError s i) := h

theorem raiseHealth_storeInv {s : State} {w : Word} (h : StoreInv s) :
    StoreInv (raiseHealth s w) := setHealth_storeInv h

theorem sealWrite_storeInv {s : State} {home ctx sector : Nat} {k : KeyRec} {plain : BitVec 512} (h : StoreInv s) :
    StoreInv (sealWrite s home ctx sector k plain) := storeInv_with (homeWrite_storeInv h)

theorem writeAtHome_storeInv {s : State} {home ctx sector : Nat} {sealed : Bool} {m : BitVec 64} {data : BitVec 512}
    (h : StoreInv s) :
    StoreInv (writeAtHome s home ctx sector sealed m data) := by
  unfold writeAtHome
  dsimp only
  apply storeInv_ite
  · split
    · exact storeInv_ite (setPoison_storeInv h) h
    · exact sealWrite_storeInv (storeInv_ite (setPoison_storeInv h) h)
  · apply storeInv_ite
    · exact storeInv_ite (setPoison_storeInv h) h
    · exact homeWrite_storeInv (breakSeal_storeInv (storeInv_ite (setPoison_storeInv h) h))

theorem paStore_storeInv {s : State} {a : Nat} {v : Byte} (h : StoreInv s) :
    StoreInv (paStore s a v) := homeWrite_storeInv h

theorem paPut_storeInv {s : State} {a : Nat} {v : Byte} (h : StoreInv s) :
    StoreInv (paPut s a v) := storeInv_ite (paStore_storeInv h) h

theorem unpoison_storeInv {s : State} {js : List Nat} (h : StoreInv s) :
    StoreInv (unpoison s js) := storeInv_ite (clearPoison_storeInv h) h

theorem paWrite_storeInv {s : State} {pa : Nat} {bs : List Byte} (h : StoreInv s) :
    StoreInv (paWrite s pa bs) := unpoison_storeInv (foldl_storeInv (fun _ _ hu => paPut_storeInv hu) h)

end Sys2Proof.Machine
end

section
/-! THE FORM OF THE MEMORY (O59): the requests and their walks (model file Machine/Requests). -/

namespace Sys2Proof.Machine

theorem cacheEntry_storeInv {s : State} {die key e : Nat} (h : StoreInv s) :
    StoreInv (cacheEntry s die key e) := storeInv_ite h h

theorem walkFrom_storeInv {s : State} {die ctl ctx va : Nat} {got : Option (Tbl TabRead)} {prot : Bool} {perm : Perm}
    {l : List (Nat × Nat)} {a : Nat} (h : StoreInv s) {r : Xlate × State}
    (hx : walkFrom s die ctl ctx got prot perm va l a = r) : StoreInv r.2 := by
  subst hx
  induction l generalizing s a with
  | nil => exact h
  | cons x l ih =>
    unfold walkFrom
    extract_lets -lift page own others used
    have hu : StoreInv used.2.2 := by
      unfold used
      cases others with
      | nil => exact h
      | cons => exact h
    generalize used = used at hu ⊢
    split
    · exact hu
    · have hc {e : Nat} : StoreInv (cacheEntry used.2.2 die (walkKey ctl ctx x.1 0 used.1) e) := cacheEntry_storeInv hu
      dsimp only
      split
      · exact hu
      · split
        · exact hc
        · split
          · exact hc
          · split
            · exact hc
            · exact ih hc

theorem translateGot_storeInv {s : State} {die ctx : Nat} {got : Option (Tbl TabRead)} {va : Nat} {perm : Perm} (h : StoreInv s)
    {r : Xlate × State} (hx : translateGot s die ctx got va perm = r) :
    StoreInv r.2 := by
  grind [translateGot, walkFrom_storeInv]

theorem vaPut_storeInv {s : State} {die ctx va : Nat} {v : Byte} (h : StoreInv s) :
    StoreInv (vaPut s die ctx va v) := by
  unfold vaPut
  split
  · exact storeInv_ite h (writeAtHome_storeInv h)
  · exact h

theorem vaWrite_storeInv {s : State} {die ctx va : Nat} {bs : List Byte} (h : StoreInv s) :
    StoreInv (vaWrite s die ctx va bs) := unpoison_storeInv (foldl_storeInv (fun _ _ hu => vaPut_storeInv hu) h)

theorem qWrite_storeInv {s : State} {ctx a : Nat} {bs : List Byte} (h : StoreInv s) :
    StoreInv (qWrite s ctx a bs) := storeInv_ite (paWrite_storeInv h) (vaWrite_storeInv h)

theorem raiseIrq_storeInv {s : State} {v : Nat} (h : StoreInv s) :
    StoreInv (raiseIrq s v) := h

theorem writeFault_storeInv {s : State} {id : Nat} (h : StoreInv s) :
    StoreInv (writeFault s id) := by
  unfold writeFault
  dsimp only
  split
  · exact storeInv_ite h (raiseIrq_storeInv (paWrite_storeInv (storeInv_with (paWrite_storeInv h))))
  · exact h

theorem drainFaults_storeInv {s : State} (h : StoreInv s) :
    StoreInv (drainFaults s) := foldl_storeInv (fun _ _ hu => writeFault_storeInv hu) h

theorem reportFault_storeInv {s : State} {f : FaultRec} (h : StoreInv s) {r : Nat × State} (hx : reportFault s f = r) :
    StoreInv r.2 := by
  subst hx
  unfold reportFault
  dsimp only
  split
  · exact h
  · exact storeInv_ite (writeFault_storeInv h) h

theorem carryAck_storeInv {s : State} {lnk : Nat} (h : StoreInv s) :
    StoreInv (carryAck s lnk) := h

theorem sendOn_storeInv {s : State} {lnk : Nat} {msg : Message} (h : StoreInv s) :
    StoreInv (sendOn s lnk msg) := storeInv_ite h h

theorem updReq_storeInv {s : State} {id : Nat} {f : Req → Req} (h : StoreInv s) :
    StoreInv (updReq s id f) := h

theorem setHops_storeInv {s : State} {m : Message} {hops : List Nat} (h : StoreInv s) :
    StoreInv (setHops s m hops) := by
  unfold setHops
  split
  · exact h
  · exact h
  · exact h

theorem setOff_storeInv {s : State} {hops : List Nat} {m : Message} (h : StoreInv s) :
    StoreInv (setOff s hops m) := by
  unfold setOff
  split
  · exact h
  · exact storeInv_ite h (sendOn_storeInv h)

theorem releaseDelayed_storeInv {s : State} (h : StoreInv s) :
    StoreInv (releaseDelayed s) := foldl_storeInv (fun _ _ hu => storeInv_ite hu (setOff_storeInv (setHops_storeInv hu))) h

theorem newReq_storeInv {s : State} {r : Req} (h : StoreInv s) {o : Nat × State} (hx : newReq s r = o) :
    StoreInv o.2 := by
  subst hx
  unfold newReq
  dsimp only
  exact h

theorem dropTables_storeInv {s : State} {p : Nat → Nat → Bool} (h : StoreInv s) :
    StoreInv (dropTables s p) := h

theorem noteTable_storeInv {s : State} {walker sector : Nat} {x : TabRead} (h : StoreInv s) :
    StoreInv (noteTable s walker sector x) := h

theorem askTableSector_storeInv {s : State} {walker die core ctx field team : Nat} {phys : Bool} {a : Nat} (h : StoreInv s) :
    StoreInv (askTableSector s walker die core ctx field team phys a) := newReq_storeInv h rfl

theorem noFill_storeInv {s : State} {die : Nat} {p : Req → Bool} (h : StoreInv s) :
    StoreInv (noFill s die p) := h

theorem noFillSector_storeInv {s : State} {die ctx va : Nat} (h : StoreInv s) :
    StoreInv (noFillSector s die ctx va) := h

theorem writeBack_storeInv {s : State} {die ctx field key : Nat} {m : BitVec 64} {data : BitVec 512} {bad : Bool} (h : StoreInv s) :
    StoreInv (writeBack s die ctx field key m data bad) := storeInv_ite h (newReq_storeInv (noFillSector_storeInv h) rfl)

theorem l2Clean_storeInv {s : State} {die key : Nat} (h : StoreInv s) :
    StoreInv (l2Clean s die key) := storeInv_ite h (writeBack_storeInv h)

theorem evictL2Line_storeInv {s : State} {die line : Nat} (h : StoreInv s) :
    StoreInv (evictL2Line s die line) := State.setDie_storeInv (foldl_storeInv (fun _ _ hu => l2Clean_storeInv hu) h)

theorem l2Room_storeInv {s : State} {die ctx field line cache : Nat} (h : StoreInv s) {r : Bool × State}
    (hx : l2Room s die ctx field line cache = r) :
    StoreInv r.2 := by
  subst hx
  unfold l2Room
  dsimp only
  split
  · exact h
  · split
    · exact h
    · split
      · next e₂ => exact pickLine_storeInv h e₂
      · next e₂ => exact State.setDie_storeInv (evictL2Line_storeInv (pickLine_storeInv h e₂))

theorem l2Fill_storeInv {s : State} {die ctx field key cache : Nat} {data : BitVec 512} (h : StoreInv s) :
    StoreInv (l2Fill s die ctx field key cache data) := by
  unfold l2Fill
  dsimp only
  exact storeInv_ite (State.setDie_storeInv (l2Room_storeInv h rfl)) (l2Room_storeInv h rfl)

theorem l2Write_storeInv {s : State} {die ctx field key cache : Nat} {m : BitVec 64} {data : BitVec 512} {bad : Bool}
    (h : StoreInv s) :
    StoreInv (l2Write s die ctx field key cache m data bad) := by
  unfold l2Write
  dsimp only
  apply storeInv_ite
  · exact h
  · exact storeInv_ite (State.setDie_storeInv (l2Room_storeInv h rfl)) (writeBack_storeInv (l2Room_storeInv h rfl))

theorem l2Pass_storeInv {s : State} {die key : Nat} {m : BitVec 64} {data : BitVec 512} (h : StoreInv s) :
    StoreInv (l2Pass s die key m data) := storeInv_ite h h

theorem setL1_storeInv {s : State} {core : Nat} {l1 : L1} (h : StoreInv s) :
    StoreInv (setL1 s core l1) := h

theorem l1Clean_storeInv {s : State} {core key : Nat} (h : StoreInv s) :
    StoreInv (l1Clean s core key) := storeInv_ite h (l2Write_storeInv h)

theorem l1CleanLine_storeInv {s : State} {core line : Nat} (h : StoreInv s) :
    StoreInv (l1CleanLine s core line) := foldl_storeInv (fun _ _ hu => l1Clean_storeInv hu) h

theorem flushSector_storeInv {s : State} {core key : Nat} (h : StoreInv s) :
    StoreInv (flushSector s core key) := l2Clean_storeInv (l1Clean_storeInv h)

theorem l1Drop_storeInv {s : State} {core line : Nat} (h : StoreInv s) :
    StoreInv (l1Drop s core line) := setL1_storeInv (l1CleanLine_storeInv h)

theorem evictL1Line_storeInv {s : State} {core line : Nat} (h : StoreInv s) :
    StoreInv (evictL1Line s core line) := by
  unfold evictL1Line
  dsimp only
  split
  · exact h
  · exact State.setCore_storeInv (l1Drop_storeInv h)

theorem l1Room_storeInv {s : State} {core line : Nat} (h : StoreInv s) :
    StoreInv (l1Room s core line) := by
  unfold l1Room
  dsimp only
  apply storeInv_ite
  · exact h
  · split
    · next e => exact pickLine_storeInv h e
    · next e => exact evictL1Line_storeInv (pickLine_storeInv h e)

theorem l1Fill_storeInv {s : State} {core key : Nat} {data : BitVec 512} {f : Filler} (h : StoreInv s) :
    StoreInv (l1Fill s core key data f) := setL1_storeInv (l1Room_storeInv h)

theorem l1Store_storeInv {s : State} {core key : Nat} {m : BitVec 64} {data : BitVec 512} {f : Filler} (h : StoreInv s) :
    StoreInv (l1Store s core key m data f) := setL1_storeInv (l1Room_storeInv h)

theorem l1Pass_storeInv {s : State} {core key : Nat} {m : BitVec 64} {data : BitVec 512} (h : StoreInv s) :
    StoreInv (l1Pass s core key m data) := h

theorem l1DropSect_storeInv {s : State} {core key : Nat} (h : StoreInv s) :
    StoreInv (l1DropSect s core key) := setL1_storeInv (l1Clean_storeInv h)

theorem dropSector_storeInv {s : State} {core key : Nat} (h : StoreInv s) :
    StoreInv (dropSector s core key) := State.setDie_storeInv (l2Clean_storeInv (l1DropSect_storeInv h))

theorem sendReq_storeInv {s : State} {id pa : Nat} {sealed : Bool} (h : StoreInv s) :
    StoreInv (sendReq s id pa sealed) := by
  unfold sendReq
  dsimp only
  split
  · exact h
  · split
    · exact setOff_storeInv (State.setDie_storeInv (storeInv_with (noFillSector_storeInv (dropSector_storeInv h))))
    · exact setOff_storeInv h

theorem noteStable_storeInv {s : State} {home e : Nat} {vc : List Nat} (h : StoreInv s) :
    StoreInv (noteStable s home e vc) := h

end Sys2Proof.Machine
end

section
/-! THE FORM OF THE MEMORY (O59): the headgate at a doorbell (model file Machine/Doorbell). -/

namespace Sys2Proof.Machine

theorem setDevState_storeInv {s : State} {q v : Nat} (h : StoreInv s) :
    StoreInv (setDevState s q v) := paWrite_storeInv h

theorem setPending_storeInv {s : State} {q : Nat} (h : StoreInv s) :
    StoreInv (setPending s q) := setDevState_storeInv h

theorem updQ_storeInv {s : State} {q : Nat} {f : UQueue → UQueue} (h : StoreInv s) :
    StoreInv (updQ s q f) := h

theorem unmapSlot_storeInv {s : State} {k : Nat} (h : StoreInv s) :
    StoreInv (unmapSlot s k) := by
  unfold unmapSlot
  dsimp only
  split
  · exact h
  · exact storeInv_with (updQ_storeInv (setDevState_storeInv h))

theorem notifySlot_storeInv {s : State} {k q : Nat} (h : StoreInv s) :
    StoreInv (notifySlot s k q) := h

theorem ringDoorbell_storeInv {s : State} {q : Nat} (h : StoreInv s) :
    StoreInv (ringDoorbell s q) := by
  unfold ringDoorbell
  dsimp only
  apply storeInv_ite
  · exact h
  · split
    · exact setPending_storeInv h
    · apply storeInv_ite
      · split
        · exact notifySlot_storeInv (State.draw_storeInv h rfl)
        · exact unmapSlot_storeInv (notifySlot_storeInv (State.draw_storeInv h rfl))
        · exact storeInv_with (unmapSlot_storeInv (State.draw_storeInv h rfl))
      · exact notifySlot_storeInv h

end Sys2Proof.Machine
end

section
/-! THE FORM OF THE MEMORY (O59): the trace (model file Machine/Trace). -/

namespace Sys2Proof.Machine

theorem putRecord_storeInv {s : State} {m : Mark} (h : StoreInv s) :
    StoreInv (putRecord s m) := by
  unfold putRecord
  dsimp only
  apply storeInv_ite
  · exact h
  · apply storeInv_ite
    · exact State.setCore_storeInv (storeInv_ite (State.setCore_storeInv h) h)
    · apply storeInv_ite
      · exact storeInv_with (storeInv_ite (State.setCore_storeInv h) h)
      · split
        · exact raiseIrq_storeInv (paWrite_storeInv (storeInv_with (paWrite_storeInv (State.setCore_storeInv h))))
        · exact raiseIrq_storeInv (paWrite_storeInv (storeInv_with (paWrite_storeInv h)))

theorem teamMark_storeInv {s : State} {team : Team} (h : StoreInv s) {r : Mark × State} (hx : teamMark s team = r) :
    StoreInv r.2 := by
  subst hx
  unfold teamMark
  dsimp only
  exact h

theorem noteTeam_storeInv {s : State} {team : Team} (h : StoreInv s) :
    StoreInv (noteTeam s team) := by
  unfold noteTeam
  dsimp only
  exact storeInv_ite (putRecord_storeInv (teamMark_storeInv h rfl)) h

theorem putGroupMark_storeInv {s : State} {t g : Nat} {f : Team → Group → Mark} (h : StoreInv s) :
    StoreInv (putGroupMark s t g f) := by
  unfold putGroupMark
  split
  · exact putRecord_storeInv h
  · exact h

theorem putSeq_storeInv {s : State} {t : Nat} {r : StopRec} (h : StoreInv s) :
    StoreInv (putSeq s t r) := by
  unfold putSeq
  dsimp only
  split
  · exact h
  · exact putRecord_storeInv (teamMark_storeInv h rfl)

theorem traceStops_storeInv {b s : State} (hs : StoreInv s) :
    StoreInv (traceStops b s) := foldl_storeInv (fun _ _ hu => putSeq_storeInv hu)
        (foldl_storeInv (fun _ _ hu => putGroupMark_storeInv hu) (foldl_storeInv (fun _ _ hu => putGroupMark_storeInv hu) hs))

theorem execSampleTag_storeInv {core slice : Nat} {s : State} (h : StoreInv s) :
    Keeps (execSampleTag core slice s) StoreInv := by
  unfold execSampleTag
  dsimp only
  split
  · exact keeps_refused
  · split
    · exact keeps_next h
    · exact keeps_next h

theorem sampleMark_storeInv {s : State} {core slice : Nat} {g : Tag} {team : Team} {level va : Nat} (h : StoreInv s)
    {r : Mark × State} (hx : sampleMark s core slice g team level va = r) :
    StoreInv r.2 := by
  subst hx
  unfold sampleMark
  dsimp only
  exact h

theorem finishTag_storeInv {b s : State} {core slice : Nat} {g : Tag} {team : Team} (hs : StoreInv s) :
    StoreInv (finishTag b s core slice g team) := by
  unfold finishTag
  dsimp only
  apply storeInv_ite
  · exact State.setSlice_storeInv hs
  · exact putRecord_storeInv (sampleMark_storeInv (State.setSlice_storeInv hs) rfl)

theorem finishTags_storeInv {b s : State} (hs : StoreInv s) :
    StoreInv (finishTags b s) := by
  unfold finishTags
  dsimp only
  exact foldl_storeInv (fun _ _ hu => foldl_storeInv (fun _ _ hv => by
    split
    · exact hv
    · split
      · exact storeInv_ite hv (storeInv_ite hv (finishTag_storeInv hv))
      · exact hv) hu) hs

theorem execLlScoreHalve_storeInv {core : Nat} {s : State} (h : StoreInv s) :
    Keeps (execLlScoreHalve core s) StoreInv := by
  unfold execLlScoreHalve
  dsimp only
  split
  · exact keeps_refused
  · exact keeps_next h

theorem execLlCapUpdate_storeInv {core : Nat} {s : State} (h : StoreInv s) :
    Keeps (execLlCapUpdate core s) StoreInv := by
  unfold execLlCapUpdate
  dsimp only
  split
  · exact keeps_refused
  · exact keeps_next h

end Sys2Proof.Machine
end

section
/-! THE FORM OF THE MEMORY (O59): the fetch (model file Machine/Fetch). -/

namespace Sys2Proof.Machine

theorem icacheFill_storeInv {s : State} {core key : Nat} {data : BitVec 512} (h : StoreInv s) :
    StoreInv (icacheFill s core key data) := h

theorem fetchSector_storeInv {s : State} {core ctx field team : Nat} {group : Option Nat} {path va : Nat} (h : StoreInv s) :
    StoreInv (fetchSector s core ctx field team group path va) := by
  unfold fetchSector
  dsimp only
  exact storeInv_ite h (storeInv_ite h (storeInv_ite h (newReq_storeInv (storeInv_ite (l2Clean_storeInv h) h) rfl)))

theorem fetch_storeInv {s : State} {team : Team} {t : Nat} {group : Option Nat} {path va n : Nat} (h : StoreInv s) {r : Fetched}
    (hx : fetch s team t group path va n = r) :
    r.storeInv := by
  subst hx
  unfold fetch
  dsimp only
  split
  · exact trivial
  · split
    · exact foldl_storeInv (fun _ _ hu => fetchSector_storeInv hu) h
    · exact foldl_storeInv (fun _ _ hu => fetchSector_storeInv hu) h

theorem openGroup_storeInv {s : State} {e : Env} {h' : Word} (h : StoreInv s) :
    (openGroup s e h').storeInv := by
  unfold openGroup
  split
  · exact trivial
  · split
    · exact h
    · split
      · exact trivial
      · next e₃ => exact fetch_storeInv h e₃
      · next e₃ => exact updPath_storeInv (fetch_storeInv h e₃)

theorem openSeq_storeInv {s : State} {e : SeqEnv} {h' : Word} (h : StoreInv s) :
    (openSeq s e h').storeInv := by
  unfold openSeq
  split
  · split
    · exact trivial
    · split
      · exact trivial
      · next e₃ => exact fetch_storeInv h e₃
      · next e₃ => exact updSeq_storeInv (fetch_storeInv h e₃)
  · split
    · exact trivial
    · split
      · exact trivial
      · next e₃ => exact fetch_storeInv h e₃
      · next e₃ => exact updSeq_storeInv (fetch_storeInv h e₃)

theorem execClauseHeader_storeInv {n : BitVec 4} {c : BitVec 3} {sel : BitVec 4} {l : BitVec 5} {y : Bool} {s : State}
    (h : StoreInv s) :
    Keeps (execClauseHeader n c sel l y s) StoreInv := by
  unfold execClauseHeader
  dsimp only
  split
  · exact keeps_fault
  · split
    · exact keeps_fault
    · exact finish_storeInv h (openGroup_storeInv h)
  · split
    · exact keeps_fault
    · exact finishSeq_storeInv h (openSeq_storeInv h)

theorem execPfx_storeInv {w : Bool} {o sc p c : BitVec 3} {s : State} (h : StoreInv s) :
    Keeps (execPfx w o sc p c s) StoreInv := runG_storeInv h (fun _ => by
    split
    · exact trivial
    · split
      · exact trivial
      · exact h)

theorem execEmulationEntry_storeInv {word : Word} {s : State} (h : StoreInv s) :
    Keeps (execEmulationEntry word s) StoreInv := by
  unfold execEmulationEntry
  dsimp only
  split
  · exact keeps_fault
  · exact finishSeq_storeInv h trivial
  · split
    · exact keeps_fault
    · split
      · split
        · exact finish_storeInv (landAll_storeInv h) (landAll_storeInv h)
        · split
          · exact keeps_next (enterEmulation_storeInv (landAll_storeInv h))
          · exact keeps_fault
      · exact finish_storeInv h trivial

end Sys2Proof.Machine
end

section
/-! THE FORM OF THE MEMORY (O59): the ends of a word and the scalar words (model file Machine/Scalar). -/

namespace Sys2Proof.Machine

theorem runS_storeInv {w : Bool} {s : State} {regs : List Nat} {f : (Nat → Word) → List (Nat × Word)} (h : StoreInv s) :
    Keeps (runS w s regs f) StoreInv := runX_storeInv h (fun _ => foldl_storeInv (fun _ _ hu => writeS_storeInv hu) h) (fun _ => by
    split
    · exact trivial
    · exact foldl_storeInv (fun _ _ hu => SeqEnv.setS_storeInv hu) h)

theorem s3_storeInv {w : Bool} {d a b : BitVec 6} {s : State} {f : Word → Word → Word} (h : StoreInv s) :
    Keeps (s3 w d a b s f) StoreInv := runS_storeInv h

theorem s3p_storeInv {w : Bool} {d a b : BitVec 6} {s : State} {f : Dword → Dword → Dword} (h : StoreInv s) :
    Keeps (s3p w d a b s f) StoreInv := runS_storeInv h

theorem s3ps_storeInv {w : Bool} {d a b : BitVec 6} {s : State} {f : Dword → Word → Dword} (h : StoreInv s) :
    Keeps (s3ps w d a b s f) StoreInv := runS_storeInv h

theorem s2_storeInv {w : Bool} {d a : BitVec 6} {s : State} {f : Word → Word} (h : StoreInv s) :
    Keeps (s2 w d a s f) StoreInv := runS_storeInv h

theorem s2p_storeInv {w : Bool} {d a : BitVec 6} {s : State} {f : Dword → Dword} (h : StoreInv s) :
    Keeps (s2p w d a s f) StoreInv := runS_storeInv h

theorem s2q_storeInv {w : Bool} {d a : BitVec 6} {s : State} {f : Dword → Word} (h : StoreInv s) :
    Keeps (s2q w d a s f) StoreInv := runS_storeInv h

theorem divWord_storeInv {w : Bool} {d a b : BitVec 6} {s : State} {f : Word → Word → Word} (h : StoreInv s) :
    Keeps (divWord w d a b s f) StoreInv := runX_storeInv h (fun _ => updGroup_storeInv (Env.setS_storeInv h)) (fun _ => by
    split
    · exact trivial
    · exact h)

theorem execSadd_storeInv {w : Bool} {d a b : BitVec 6} {s : State} (h : StoreInv s) :
    Keeps (execSadd w d a b s) StoreInv := s3_storeInv h

theorem execSsub_storeInv {w : Bool} {d a b : BitVec 6} {s : State} (h : StoreInv s) :
    Keeps (execSsub w d a b s) StoreInv := s3_storeInv h

theorem execSmul_storeInv {w : Bool} {d a b : BitVec 6} {s : State} (h : StoreInv s) :
    Keeps (execSmul w d a b s) StoreInv := s3_storeInv h

theorem execSmulwI32_storeInv {w : Bool} {d a b : BitVec 6} {s : State} (h : StoreInv s) :
    Keeps (execSmulwI32 w d a b s) StoreInv := runS_storeInv h

theorem execSmulwN32_storeInv {w : Bool} {d a b : BitVec 6} {s : State} (h : StoreInv s) :
    Keeps (execSmulwN32 w d a b s) StoreInv := runS_storeInv h

theorem execSdivI32_storeInv {w : Bool} {d a b : BitVec 6} {s : State} (h : StoreInv s) :
    Keeps (execSdivI32 w d a b s) StoreInv := divWord_storeInv h

theorem execSdivN32_storeInv {w : Bool} {d a b : BitVec 6} {s : State} (h : StoreInv s) :
    Keeps (execSdivN32 w d a b s) StoreInv := divWord_storeInv h

theorem execSremI32_storeInv {w : Bool} {d a b : BitVec 6} {s : State} (h : StoreInv s) :
    Keeps (execSremI32 w d a b s) StoreInv := divWord_storeInv h

theorem execSremN32_storeInv {w : Bool} {d a b : BitVec 6} {s : State} (h : StoreInv s) :
    Keeps (execSremN32 w d a b s) StoreInv := divWord_storeInv h

theorem execSand_storeInv {w : Bool} {d a b : BitVec 6} {s : State} (h : StoreInv s) :
    Keeps (execSand w d a b s) StoreInv := s3_storeInv h

theorem execSor_storeInv {w : Bool} {d a b : BitVec 6} {s : State} (h : StoreInv s) :
    Keeps (execSor w d a b s) StoreInv := s3_storeInv h

theorem execSxor_storeInv {w : Bool} {d a b : BitVec 6} {s : State} (h : StoreInv s) :
    Keeps (execSxor w d a b s) StoreInv := s3_storeInv h

theorem execSandn_storeInv {w : Bool} {d a b : BitVec 6} {s : State} (h : StoreInv s) :
    Keeps (execSandn w d a b s) StoreInv := s3_storeInv h

theorem execSshl_storeInv {w : Bool} {d a b : BitVec 6} {s : State} (h : StoreInv s) :
    Keeps (execSshl w d a b s) StoreInv := s3_storeInv h

theorem execSshr_storeInv {w : Bool} {d a b : BitVec 6} {s : State} (h : StoreInv s) :
    Keeps (execSshr w d a b s) StoreInv := s3_storeInv h

theorem execSsra_storeInv {w : Bool} {d a b : BitVec 6} {s : State} (h : StoreInv s) :
    Keeps (execSsra w d a b s) StoreInv := s3_storeInv h

theorem execSminI32_storeInv {w : Bool} {d a b : BitVec 6} {s : State} (h : StoreInv s) :
    Keeps (execSminI32 w d a b s) StoreInv := s3_storeInv h

theorem execSminN32_storeInv {w : Bool} {d a b : BitVec 6} {s : State} (h : StoreInv s) :
    Keeps (execSminN32 w d a b s) StoreInv := s3_storeInv h

theorem execSmaxI32_storeInv {w : Bool} {d a b : BitVec 6} {s : State} (h : StoreInv s) :
    Keeps (execSmaxI32 w d a b s) StoreInv := s3_storeInv h

theorem execSmaxN32_storeInv {w : Bool} {d a b : BitVec 6} {s : State} (h : StoreInv s) :
    Keeps (execSmaxN32 w d a b s) StoreInv := s3_storeInv h

theorem execSaddB64_storeInv {w : Bool} {d a b : BitVec 6} {s : State} (h : StoreInv s) :
    Keeps (execSaddB64 w d a b s) StoreInv := s3p_storeInv h

theorem execSsubB64_storeInv {w : Bool} {d a b : BitVec 6} {s : State} (h : StoreInv s) :
    Keeps (execSsubB64 w d a b s) StoreInv := s3p_storeInv h

theorem execSmulB64_storeInv {w : Bool} {d a b : BitVec 6} {s : State} (h : StoreInv s) :
    Keeps (execSmulB64 w d a b s) StoreInv := s3p_storeInv h

theorem execSaddwI32_storeInv {w : Bool} {d a b : BitVec 6} {s : State} (h : StoreInv s) :
    Keeps (execSaddwI32 w d a b s) StoreInv := s3ps_storeInv h

theorem execSaddwN32_storeInv {w : Bool} {d a b : BitVec 6} {s : State} (h : StoreInv s) :
    Keeps (execSaddwN32 w d a b s) StoreInv := s3ps_storeInv h

theorem execSshlB64_storeInv {w : Bool} {d a b : BitVec 6} {s : State} (h : StoreInv s) :
    Keeps (execSshlB64 w d a b s) StoreInv := s3ps_storeInv h

theorem execSshrB64_storeInv {w : Bool} {d a b : BitVec 6} {s : State} (h : StoreInv s) :
    Keeps (execSshrB64 w d a b s) StoreInv := s3ps_storeInv h

theorem execSsraB64_storeInv {w : Bool} {d a b : BitVec 6} {s : State} (h : StoreInv s) :
    Keeps (execSsraB64 w d a b s) StoreInv := s3ps_storeInv h

theorem execSandB64_storeInv {w : Bool} {d a b : BitVec 6} {s : State} (h : StoreInv s) :
    Keeps (execSandB64 w d a b s) StoreInv := s3p_storeInv h

theorem execSorB64_storeInv {w : Bool} {d a b : BitVec 6} {s : State} (h : StoreInv s) :
    Keeps (execSorB64 w d a b s) StoreInv := s3p_storeInv h

theorem execSxorB64_storeInv {w : Bool} {d a b : BitVec 6} {s : State} (h : StoreInv s) :
    Keeps (execSxorB64 w d a b s) StoreInv := s3p_storeInv h

theorem execSaddi_storeInv {w : Bool} {d a : BitVec 6} {i : BitVec 12} {s : State} (h : StoreInv s) :
    Keeps (execSaddi w d a i s) StoreInv := s2_storeInv h

theorem execSaddiB64_storeInv {w : Bool} {d a : BitVec 6} {i : BitVec 12} {s : State} (h : StoreInv s) :
    Keeps (execSaddiB64 w d a i s) StoreInv := s2p_storeInv h

theorem execSmovl_storeInv {w : Bool} {d : BitVec 6} {i : BitVec 16} {s : State} (h : StoreInv s) :
    Keeps (execSmovl w d i s) StoreInv := runS_storeInv h

theorem execSmovh_storeInv {w : Bool} {d : BitVec 6} {i : BitVec 16} {s : State} (h : StoreInv s) :
    Keeps (execSmovh w d i s) StoreInv := s2_storeInv h

theorem execSmovs_storeInv {w : Bool} {d : BitVec 6} {i : BitVec 16} {s : State} (h : StoreInv s) :
    Keeps (execSmovs w d i s) StoreInv := runS_storeInv h

theorem execScmpI32_storeInv {w : Bool} {c : BitVec 3} {d a b : BitVec 6} {s : State} (h : StoreInv s) :
    Keeps (execScmpI32 w c d a b s) StoreInv := s3_storeInv h

theorem execScmpN32_storeInv {w : Bool} {c : BitVec 3} {d a b : BitVec 6} {s : State} (h : StoreInv s) :
    Keeps (execScmpN32 w c d a b s) StoreInv := s3_storeInv h

theorem execScmpB64_storeInv {w : Bool} {c : BitVec 3} {d a b : BitVec 6} {s : State} (h : StoreInv s) :
    Keeps (execScmpB64 w c d a b s) StoreInv := runS_storeInv h

theorem execSsel_storeInv {w : Bool} {d a b : BitVec 6} {s : State} (h : StoreInv s) :
    Keeps (execSsel w d a b s) StoreInv := runS_storeInv h

theorem execSselB64_storeInv {w : Bool} {d a b : BitVec 6} {s : State} (h : StoreInv s) :
    Keeps (execSselB64 w d a b s) StoreInv := runS_storeInv h

theorem execSshli_storeInv {w : Bool} {d a n : BitVec 6} {s : State} (h : StoreInv s) :
    Keeps (execSshli w d a n s) StoreInv := s2_storeInv h

theorem execSshri_storeInv {w : Bool} {d a n : BitVec 6} {s : State} (h : StoreInv s) :
    Keeps (execSshri w d a n s) StoreInv := s2_storeInv h

theorem execSsrai_storeInv {w : Bool} {d a n : BitVec 6} {s : State} (h : StoreInv s) :
    Keeps (execSsrai w d a n s) StoreInv := s2_storeInv h

theorem execSbfxN32_storeInv {w : Bool} {d a b : BitVec 6} {s : State} (h : StoreInv s) :
    Keeps (execSbfxN32 w d a b s) StoreInv := s3_storeInv h

theorem execSbfxI32_storeInv {w : Bool} {d a b : BitVec 6} {s : State} (h : StoreInv s) :
    Keeps (execSbfxI32 w d a b s) StoreInv := s3_storeInv h

theorem execSbfi_storeInv {w : Bool} {d a b : BitVec 6} {s : State} (h : StoreInv s) :
    Keeps (execSbfi w d a b s) StoreInv := runS_storeInv h

theorem execSpopc_storeInv {w : Bool} {d a : BitVec 6} {s : State} (h : StoreInv s) :
    Keeps (execSpopc w d a s) StoreInv := s2_storeInv h

theorem execSclz_storeInv {w : Bool} {d a : BitVec 6} {s : State} (h : StoreInv s) :
    Keeps (execSclz w d a s) StoreInv := s2_storeInv h

theorem execSctz_storeInv {w : Bool} {d a : BitVec 6} {s : State} (h : StoreInv s) :
    Keeps (execSctz w d a s) StoreInv := s2_storeInv h

theorem execSbrev_storeInv {w : Bool} {d a : BitVec 6} {s : State} (h : StoreInv s) :
    Keeps (execSbrev w d a s) StoreInv := s2_storeInv h

theorem execSshliB64_storeInv {w : Bool} {d a n : BitVec 6} {s : State} (h : StoreInv s) :
    Keeps (execSshliB64 w d a n s) StoreInv := s2p_storeInv h

theorem execSshriB64_storeInv {w : Bool} {d a n : BitVec 6} {s : State} (h : StoreInv s) :
    Keeps (execSshriB64 w d a n s) StoreInv := s2p_storeInv h

theorem execSsraiB64_storeInv {w : Bool} {d a n : BitVec 6} {s : State} (h : StoreInv s) :
    Keeps (execSsraiB64 w d a n s) StoreInv := s2p_storeInv h

theorem execSpopcB64_storeInv {w : Bool} {d a : BitVec 6} {s : State} (h : StoreInv s) :
    Keeps (execSpopcB64 w d a s) StoreInv := s2q_storeInv h

theorem execSclzB64_storeInv {w : Bool} {d a : BitVec 6} {s : State} (h : StoreInv s) :
    Keeps (execSclzB64 w d a s) StoreInv := s2q_storeInv h

theorem execSctzB64_storeInv {w : Bool} {d a : BitVec 6} {s : State} (h : StoreInv s) :
    Keeps (execSctzB64 w d a s) StoreInv := s2q_storeInv h

end Sys2Proof.Machine
end

section
/-! THE FORM OF THE MEMORY (O59): the operands (model file Machine/Operands). -/

namespace Sys2Proof.Machine

theorem needRows_storeInv {s : State} {e : Env} {names : List Nat} {fresh : Bool} (h : StoreInv s) :
    (needRows s e names fresh).storeInv := by
  unfold needRows
  split
  · exact trivial
  · exact h

theorem result_storeInv {s : State} {e : Env} {lat : Nat} {target : Target} {lanes : LaneMask} {vals : List Word}
    {bs : LaneMask} {flags : Word} (h : StoreInv s) :
    StoreInv (result s e lat target lanes vals bs flags) := by
  unfold result
  dsimp only
  apply storeInv_ite
  · split
    · exact landNow_storeInv h
    · exact landNow_storeInv h
  · split
    · exact h
    · exact h

theorem writeName_storeInv {s : State} {e : Env} {lat n : Nat} {m : LaneMask} {vals : List Word} {flags : Word} (h : StoreInv s) :
    StoreInv (writeName s e lat n m vals flags) := by
  unfold writeName
  split
  · exact result_storeInv h
  · exact h

theorem writeNames_storeInv {s : State} {e : Env} {lat : Nat} {m : LaneMask} {flags : Word} {l : List (Nat × List Word)}
    (h : StoreInv s) : StoreInv (writeNames s e lat m flags l) := by
  induction l generalizing s flags with
  | nil => exact orFlags_storeInv h
  | cons x l ih => exact ih (writeName_storeInv h)

theorem vector_storeInv {s : State} {e : Env} {lat : Latency} {srcs dsts : List Nat} {f : (Nat → List Word) → VRes}
    (h : StoreInv s) :
    (vector s e lat srcs dsts f).storeInv := by
  unfold vector
  dsimp only
  split
  · exact trivial
  · split
    · exact needRows_storeInv h
    · split
      · exact orFlags_storeInv h
      · exact writeNames_storeInv h

theorem runV_storeInv {w : Bool} {s : State} {lat : Latency} {srcs dsts : List Nat} {f : Env → (Nat → List Word) → VRes}
    (h : StoreInv s) :
    Keeps (runV w s lat srcs dsts f) StoreInv := runG_storeInv h (fun _ => vector_storeInv h)

theorem v3_storeInv {w : Bool} {lat : Latency} {d a b : BitVec 7} {s : State} {f : Word → Word → Word} (h : StoreInv s) :
    Keeps (v3 w lat d a b s f) StoreInv := runV_storeInv h

theorem v2_storeInv {w : Bool} {lat : Latency} {d a : BitVec 7} {s : State} {f : Word → Word} (h : StoreInv s) :
    Keeps (v2 w lat d a s f) StoreInv := runV_storeInv h

theorem v3acc_storeInv {w : Bool} {lat : Latency} {d a b : BitVec 7} {s : State} {f : Word → Word → Word → Word} (h : StoreInv s) :
    Keeps (v3acc w lat d a b s f) StoreInv := runV_storeInv h

theorem v3p_storeInv {w : Bool} {lat : Latency} {d a b : BitVec 7} {s : State} {f : Dword → Dword → Dword} (h : StoreInv s) :
    Keeps (v3p w lat d a b s f) StoreInv := runV_storeInv h

theorem vf3_storeInv {w : Bool} {lat : Latency} {d a b : BitVec 7} {s : State} {f : Nat → Nat → Nat × Nat} (h : StoreInv s) :
    Keeps (vf3 w lat d a b s f) StoreInv := runV_storeInv h

theorem vf2_storeInv {w : Bool} {lat : Latency} {d a : BitVec 7} {s : State} {f : Nat → Nat × Nat} (h : StoreInv s) :
    Keeps (vf2 w lat d a s f) StoreInv := runV_storeInv h

theorem vf3acc_storeInv {w : Bool} {lat : Latency} {d a b : BitVec 7} {s : State} {f : Nat → Nat → Nat → Nat × Nat}
    (h : StoreInv s) :
    Keeps (vf3acc w lat d a b s f) StoreInv := runV_storeInv h

theorem vf3p_storeInv {w : Bool} {lat : Latency} {d a b : BitVec 7} {s : State} {f : Nat → Nat → Nat × Nat} (h : StoreInv s) :
    Keeps (vf3p w lat d a b s f) StoreInv := runV_storeInv h

theorem vf2p_storeInv {w : Bool} {lat : Latency} {d a : BitVec 7} {s : State} {f : Nat → Nat × Nat} (h : StoreInv s) :
    Keeps (vf2p w lat d a s f) StoreInv := runV_storeInv h

theorem vcompare_storeInv {w : Bool} {p : BitVec 3} {srcs : List Nat} {s : State} {f : (Nat → List Word) → Nat → Bool}
    (h : StoreInv s) :
    Keeps (vcompare w p srcs s f) StoreInv := runG_storeInv h (fun _ => by
    dsimp only
    split
    · exact trivial
    · exact h)

end Sys2Proof.Machine
end

section
/-! THE FORM OF THE MEMORY (O59): the accesses (model file Machine/Access). -/

namespace Sys2Proof.Machine

theorem runMem_storeInv {w : Bool} {s : State} {c : MemClass} {f : Env → MemF → Res} (hs : StoreInv s)
    (hf : ∀ x0 x1, (f x0 x1).storeInv) :
    Keeps (runMem w s c f) StoreInv := runG_storeInv hs (fun _ => by
    dsimp only
    split
    · exact trivial
    · split
      · exact hs
      · exact hf _ _)

theorem checkLanes_storeInv {s : State} {e : Env} {space z : Nat} {write : Bool} {extra : LaneAcc → Bool} {ls : List LaneAcc}
    {r : Res} (hx : checkLanes s e space z write extra ls = some r) : r.storeInv := by
  unfold checkLanes at hx
  split at hx
  · cases hx
    trivial
  · split at hx
    · cases hx
      trivial
    · obtain ⟨_, _, rfl⟩ := Option.map_eq_some_iff.mp hx
      trivial

theorem l1Release_storeInv {s : State} {core scope : Nat} (h : StoreInv s) :
    StoreInv (l1Release s core scope) := foldl_storeInv (fun _ _ hu => storeInv_ite (l1CleanLine_storeInv hu) hu) h

theorem recheckLine_storeInv {s : State} {core line : Nat} (h : StoreInv s) :
    StoreInv (recheckLine s core line) := storeInv_ite h h

theorem l1Acquire_storeInv {s : State} {core scope : Nat} (h : StoreInv s) :
    StoreInv (l1Acquire s core scope) := by
  unfold l1Acquire
  dsimp only
  split
  · exact foldl_storeInv (fun _ _ hu => storeInv_ite (l1Drop_storeInv hu) hu) h
  · exact foldl_storeInv (fun _ _ hu => storeInv_ite (l1Drop_storeInv hu) hu)
      (foldl_storeInv (fun _ _ hu => recheckLine_storeInv hu) h)

theorem l2Flush_storeInv {s : State} {die ctx : Nat} (h : StoreInv s) :
    StoreInv (l2Flush s die ctx) := foldl_storeInv (fun _ _ hu => storeInv_ite (l2Clean_storeInv hu) hu) h

theorem l2Drop_storeInv {s : State} {die ctx : Nat} (h : StoreInv s) :
    StoreInv (l2Drop s die ctx) := h

theorem release_storeInv {s : State} {e : Env} {scope : Nat} {own : Bool} (h : StoreInv s) {r : Ready}
    (hx : release s e scope own = r) :
    r.storeInv := by
  subst hx
  unfold release
  dsimp only
  split
  · split
    · exact h
    · exact h
  · split
    · exact h
    · split
      · exact h
      · split
        · exact l1Release_storeInv h
        · split
          · exact l2Flush_storeInv (l1Release_storeInv h)
          · split
            · split
              · exact l2Flush_storeInv (l1Release_storeInv h)
              · exact l2Flush_storeInv (l1Release_storeInv h)
            · split
              · exact l2Flush_storeInv (l1Release_storeInv h)
              · exact l2Flush_storeInv (l1Release_storeInv h)

theorem acquire_storeInv {s : State} {core ctx scope : Nat} (h : StoreInv s) :
    StoreInv (acquire s core ctx scope) := by
  unfold acquire
  dsimp only
  apply storeInv_ite
  · exact l2Drop_storeInv (l2Flush_storeInv (noFill_storeInv (l1Acquire_storeInv h)))
  · exact noFill_storeInv (l1Acquire_storeInv h)

theorem unpark_storeInv {s : State} {t g : Nat} (h : StoreInv s) :
    StoreInv (unpark s t g) := storeInv_ite h h

theorem settleService_storeInv {s : State} {t g : Nat} (h : StoreInv s) :
    StoreInv (settleService s t g) := h

theorem endAccess_storeInv {s : State} {id : Nat} (h : StoreInv s) :
    StoreInv (endAccess s id) := by
  unfold endAccess
  dsimp only
  split
  · exact h
  · split
    · exact settleService_storeInv (unpark_storeInv h)
    · exact settleService_storeInv (unpark_storeInv h)

theorem writeDest_storeInv {s : State} {a : Access} {ls : List LaneAcc} (h : StoreInv s) :
    StoreInv (writeDest s a ls) := by
  unfold writeDest
  dsimp only
  split
  · exact h
  · exact h
  · split
    · exact writeS_storeInv h
    · exact h
  · split
    · exact writeS_storeInv (writeS_storeInv h)
    · exact h

theorem dropRest_storeInv {s : State} {id : Nat} (h : StoreInv s) :
    StoreInv (dropRest s id) := h

theorem failAccess_storeInv {s : State} {id code detail addr : Nat} (h : StoreInv s) :
    StoreInv (failAccess s id code detail addr) := by
  unfold failAccess
  dsimp only
  split
  · exact h
  · exact endAccess_storeInv (dropRest_storeInv (storeInv_ite h h))

theorem setLane_storeInv {s : State} {id : Nat} {l : LaneAcc} (h : StoreInv s) :
    StoreInv (setLane s id l) := h

theorem noteLevel_storeInv {s : State} {id lvl : Nat} (h : StoreInv s) :
    StoreInv (noteLevel s id lvl) := by
  unfold noteLevel
  dsimp only
  split
  · exact h
  · exact h

theorem completeAccess_storeInv {s : State} {id : Nat} (h : StoreInv s) :
    StoreInv (completeAccess s id) := by
  unfold completeAccess
  dsimp only
  split
  · apply storeInv_ite
    · exact h
    · apply storeInv_ite
      · exact storeInv_ite (endAccess_storeInv (storeInv_ite h h)) (storeInv_ite h h)
      · exact storeInv_ite (acquire_storeInv (storeInv_ite h h)) (storeInv_ite h h)
  · exact h

theorem noteMiss_storeInv {s : State} {core t g line : Nat} (h : StoreInv s) :
    StoreInv (noteMiss s core t g line) := storeInv_ite h h

theorem l1FillFromL2_storeInv {s : State} {core key : Nat} {f : Filler} (h : StoreInv s) :
    StoreInv (l1FillFromL2 s core key f) := storeInv_ite h (l1Fill_storeInv h)

theorem sendLane_storeInv {s : State} {id : Nat} {l : LaneAcc} {r : Req} (h : StoreInv s) :
    StoreInv (sendLane s id l r) := setLane_storeInv (newReq_storeInv h rfl)

theorem missL1_storeInv {s : State} {id : Nat} {a : Access} {core line : Nat} (h : StoreInv s) :
    StoreInv (missL1 s id a core line) := noteLevel_storeInv (noteMiss_storeInv h)

theorem loadLane_storeInv {s : State} {id : Nat} {a : Access} {team : Team} {l : LaneAcc} (h : StoreInv s) :
    StoreInv (loadLane s id a team l) := by
  unfold loadLane
  dsimp only
  apply storeInv_ite
  · apply storeInv_ite
    · exact setLane_storeInv (noteLevel_storeInv (flushSector_storeInv h))
    · exact sendLane_storeInv (noteLevel_storeInv (flushSector_storeInv h))
  · apply storeInv_ite
    · exact setLane_storeInv (noteLevel_storeInv (storeInv_ite (l1Clean_storeInv h) h))
    · apply storeInv_ite
      · exact setLane_storeInv (l1FillFromL2_storeInv (missL1_storeInv (storeInv_ite (l1Clean_storeInv h) h)))
      · apply storeInv_ite
        · exact setLane_storeInv (missL1_storeInv (storeInv_ite (l1Clean_storeInv h) h))
        · exact sendLane_storeInv (missL1_storeInv (storeInv_ite (l1Clean_storeInv h) h))

theorem storeLane_storeInv {s : State} {id : Nat} {a : Access} {team : Team} {l : LaneAcc} {after : List Nat} (h : StoreInv s) :
    StoreInv (storeLane s id a team l after) := by
  unfold storeLane
  dsimp only
  apply storeInv_ite
  · exact sendLane_storeInv (flushSector_storeInv h)
  · apply storeInv_ite
    · exact setLane_storeInv (noteLevel_storeInv (newReq_storeInv (noFillSector_storeInv (dropSector_storeInv h)) rfl))
    · apply storeInv_ite
      · split
        · exact setLane_storeInv (noteLevel_storeInv
            (newReq_storeInv (noFillSector_storeInv (l2Pass_storeInv (l1DropSect_storeInv h))) rfl))
        · exact setLane_storeInv (noteLevel_storeInv
            (newReq_storeInv (noFillSector_storeInv (l2Pass_storeInv (l1Pass_storeInv h))) rfl))
      · apply storeInv_ite
        · split
          · exact setLane_storeInv (noteLevel_storeInv (l2Write_storeInv (l1DropSect_storeInv h)))
          · exact setLane_storeInv (noteLevel_storeInv (l2Write_storeInv (l1Pass_storeInv h)))
        · exact setLane_storeInv (noteLevel_storeInv (l1Store_storeInv h))

theorem atomicLane_storeInv {s : State} {id : Nat} {a : Access} {team : Team} {l : LaneAcc} {after : List Nat} (h : StoreInv s) :
    StoreInv (atomicLane s id a team l after) := by
  unfold atomicLane
  dsimp only
  apply storeInv_ite
  · exact sendLane_storeInv (flushSector_storeInv h)
  · apply storeInv_ite
    · split
      · exact setLane_storeInv (l1Store_storeInv (noteLevel_storeInv h))
      · exact setLane_storeInv (l1Store_storeInv (l1FillFromL2_storeInv (missL1_storeInv h)))
    · exact sendLane_storeInv (storeInv_ite (noteLevel_storeInv h) (missL1_storeInv h))

theorem pollLane_storeInv {s : State} {id : Nat} {a : Access} {team : Team} {l : LaneAcc} (h : StoreInv s) :
    StoreInv (pollLane s id a team l) := sendLane_storeInv (storeInv_ite (flushSector_storeInv h) h)

theorem vaultLane_storeInv {s : State} {id : Nat} {a : Access} {team : Team} {l : LaneAcc} {after : List Nat} (h : StoreInv s) :
    StoreInv (vaultLane s id a team l after) := by
  unfold vaultLane
  dsimp only
  split
  · exact sendLane_storeInv h
  · exact sendLane_storeInv h
  · exact storeInv_ite h (sendLane_storeInv h)

theorem keepLine_storeInv {s : State} {core line cache : Nat} (h : StoreInv s) :
    StoreInv (keepLine s core line cache) := h

theorem prefetch_storeInv {s : State} {id : Nat} {a : Access} {team : Team} {l : LaneAcc} {va : Nat} (h : StoreInv s) :
    StoreInv (prefetch s id a team l va) := storeInv_ite (newReq_storeInv h rfl) (storeInv_ite h (l1FillFromL2_storeInv h))

theorem cacheLane_storeInv {s : State} {id : Nat} {a : Access} {team : Team} {l : LaneAcc} (h : StoreInv s) :
    StoreInv (cacheLane s id a team l) := by
  unfold cacheLane
  dsimp only
  split
  · exact setLane_storeInv (storeInv_with (foldl_storeInv (fun _ _ hu => prefetch_storeInv hu) (keepLine_storeInv h)))
  · exact setLane_storeInv (storeInv_with (keepLine_storeInv h))
  · split
    · split
      · exact setLane_storeInv (storeInv_with (foldl_storeInv (fun _ _ hu => flushSector_storeInv hu) h))
      · exact setLane_storeInv (storeInv_with (foldl_storeInv (fun _ _ hu => l1Clean_storeInv hu) h))
    · split
      · exact setLane_storeInv (storeInv_with (State.setDie_storeInv
          (setL1_storeInv (foldl_storeInv (fun _ _ hu => flushSector_storeInv hu) h))))
      · exact setLane_storeInv (storeInv_with (setL1_storeInv (foldl_storeInv (fun _ _ hu => l1Clean_storeInv hu) h)))

theorem vaultClear_storeInv {s : State} {id off : Nat} (h : StoreInv s) :
    StoreInv (vaultClear s id off) := storeInv_ite (setPoison_storeInv h) h

theorem cacheClear_storeInv {s : State} {id : Nat} {a : Access} {team : Team} {va : Nat} (h : StoreInv s) :
    StoreInv (cacheClear s id a team va) := storeInv_ite h (storeInv_ite h h)

theorem tryLane_storeInv {s : State} {id : Nat} {a : Access} {team : Team} {after : List Nat} {l : LaneAcc} (h : StoreInv s) :
    StoreInv (tryLane s id a team after l) := by
  unfold tryLane
  dsimp only
  split
  · exact h
  · exact h
  · split
    · exact setLane_storeInv (noteLevel_storeInv h)
    · exact setLane_storeInv (noteLevel_storeInv h)
  · exact vaultLane_storeInv (noteLevel_storeInv h)
  · exact loadLane_storeInv h
  · exact cacheClear_storeInv (storeLane_storeInv h)
  · exact atomicLane_storeInv h
  · exact pollLane_storeInv h
  · exact cacheLane_storeInv h

theorem resolveLanes_storeInv {s : State} {id : Nat} {a : Access} {team : Team} (h : StoreInv s) {r : Bool × State}
    (hx : resolveLanes s id a team = r) : StoreInv r.2 := by
  subst hx
  refine foldl_inv (P := fun r : Bool × State => StoreInv r.2) (fun u l hu => ?_) h
  split
  · exact hu
  · split
    · exact hu
    · exact setLane_storeInv hu

theorem progress_storeInv {s : State} {id : Nat} {after : List Nat} {m : LaneMask} (h : StoreInv s) :
    StoreInv (progress s id after m) := by
  unfold progress
  split
  · split
    · next e₂ => exact resolveLanes_storeInv h e₂
    · next e₂ =>
        split
        · exact resolveLanes_storeInv h e₂
        · exact completeAccess_storeInv (foldl_storeInv (fun _ _ hu => tryLane_storeInv hu) (resolveLanes_storeInv h e₂))
  · exact h

theorem issueAccess_storeInv {s : State} {e : Env} {a : Access} {after : List Nat} (h : StoreInv s) :
    StoreInv (issueAccess s e a after) := by
  unfold issueAccess
  dsimp only
  split
  · exact progress_storeInv h
  · exact progress_storeInv h

theorem performAccess_storeInv {s : State} {e : Env} {f : MemF} {a : Access} (h : StoreInv s) : (performAccess s e f a).storeInv
    := by
  have hready {own : Bool} : (if f.releases then release s e f.scope own else .go [] s).storeInv := by
    split
    · exact release_storeInv h rfl
    · exact h
  unfold performAccess
  refine Res.ite_storeInv h (Res.ite_storeInv h (Res.ite_storeInv h ?_))
  split
  · next hx => exact (hx ▸ hready : (Ready.wait _).storeInv)
  · next hx =>
    have hv := (hx ▸ hready : (Ready.go _ _).storeInv)
    exact issueAccess_storeInv (storeInv_ite (acquire_storeInv hv) hv)

theorem failLanes_storeInv {s : State} {id lane code detail : Nat} (h : StoreInv s) :
    StoreInv (failLanes s id lane code detail) := by
  unfold failLanes
  dsimp only
  split
  · split
    · exact failAccess_storeInv h
    · exact h
  · exact h

theorem dropOlder_storeInv {s : State} {core key : Nat} {m : BitVec 64} {data : BitVec 512} (h : StoreInv s) :
    StoreInv (dropOlder s core key m data) := by
  unfold dropOlder
  dsimp only
  apply storeInv_ite
  · exact State.setDie_storeInv (l2Clean_storeInv (storeInv_ite (l1DropSect_storeInv h) h))
  · exact storeInv_ite (l1DropSect_storeInv h) h

theorem loadReply_storeInv {s : State} {id : Nat} {r : Req} {data : BitVec 512} (h : StoreInv s) :
    StoreInv (loadReply s id r data) := by
  unfold loadReply
  dsimp only
  split
  · exact h
  · split
    · exact progress_storeInv h
    · exact completeAccess_storeInv (storeInv_with (storeInv_ite h (dropOlder_storeInv h)))

theorem laneReply_storeInv {s : State} {id lane v : Nat} (h : StoreInv s) :
    StoreInv (laneReply s id lane v) := by
  unfold laneReply
  dsimp only
  split
  · exact h
  · split
    · exact h
    · split
      · exact completeAccess_storeInv (storeInv_ite (vaultClear_storeInv h) h)
      · exact completeAccess_storeInv h

theorem settleEarly_storeInv {s : State} {t g : Nat} (h : StoreInv s) :
    StoreInv (settleEarly s t g) := by
  unfold settleEarly
  dsimp only
  exact foldl_storeInv (fun _ _ hu => by
    split
    · exact storeInv_ite (writeDest_storeInv hu) hu
    · exact hu) h

end Sys2Proof.Machine
end

section
/-! THE FORM OF THE MEMORY (O59): the memory words (model file Machine/Memory). -/

namespace Sys2Proof.Machine

theorem vectorAccess_storeInv {s : State} {e : Env} {f : MemF} {srcs dsts : List Nat} {write : Bool} {a : Access}
    {extra : LaneAcc → Bool} {ls : List LaneAcc} (h : StoreInv s) :
    (vectorAccess s e f srcs dsts write a extra ls).storeInv := by
  unfold vectorAccess
  dsimp only
  split
  · exact trivial
  · split
    · next e₂ => exact checkLanes_storeInv e₂
    · split
      · exact needRows_storeInv h
      · split
        · exact h
        · exact performAccess_storeInv h

theorem execVld_storeInv {w : Bool} {t : BitVec 4} {d o : BitVec 7} {b : BitVec 6} {sc : Bool} {s : State} (h : StoreInv s) :
    Keeps (execVld w t d o b sc s) StoreInv := runMem_storeInv h (fun _ _ => vectorAccess_storeInv h)

theorem execVst_storeInv {w : Bool} {t : BitVec 4} {d o : BitVec 7} {b : BitVec 6} {sc : Bool} {s : State} (h : StoreInv s) :
    Keeps (execVst w t d o b sc s) StoreInv := runMem_storeInv h (fun _ _ => vectorAccess_storeInv h)

theorem nearAccess_storeInv {w nv store : Bool} {z : BitVec 2} {d o : BitVec 7} {b : BitVec 6} {sc : Bool} {s : State}
    (h : StoreInv s) :
    Keeps (nearAccess w nv store z d o b sc s) StoreInv := runMem_storeInv h (fun _ _ => vectorAccess_storeInv h)

theorem execVldSp_storeInv {w : Bool} {z : BitVec 2} {d o : BitVec 7} {b : BitVec 6} {sc : Bool} {s : State} (h : StoreInv s) :
    Keeps (execVldSp w z d o b sc s) StoreInv := nearAccess_storeInv h

theorem execVstSp_storeInv {w : Bool} {z : BitVec 2} {d o : BitVec 7} {b : BitVec 6} {sc : Bool} {s : State} (h : StoreInv s) :
    Keeps (execVstSp w z d o b sc s) StoreInv := nearAccess_storeInv h

theorem execVldNv_storeInv {w : Bool} {z : BitVec 2} {d o : BitVec 7} {b : BitVec 6} {sc : Bool} {s : State} (h : StoreInv s) :
    Keeps (execVldNv w z d o b sc s) StoreInv := nearAccess_storeInv h

theorem execVstNv_storeInv {w : Bool} {z : BitVec 2} {d o : BitVec 7} {b : BitVec 6} {sc : Bool} {s : State} (h : StoreInv s) :
    Keeps (execVstNv w z d o b sc s) StoreInv := nearAccess_storeInv h

theorem vectorAtomic_storeInv {w fa : Bool} {p : BitVec 4} {d o : BitVec 7} {b : BitVec 6} {sc : Bool} {s : State}
    (h : StoreInv s) :
    Keeps (vectorAtomic w fa p d o b sc s) StoreInv := runMem_storeInv h (fun _ _ => vectorAccess_storeInv h)

theorem execVatom_storeInv {w : Bool} {p : BitVec 4} {d o : BitVec 7} {b : BitVec 6} {sc : Bool} {s : State} (h : StoreInv s) :
    Keeps (execVatom w p d o b sc s) StoreInv := vectorAtomic_storeInv h

theorem execFatom_storeInv {w : Bool} {p : BitVec 4} {d o : BitVec 7} {b : BitVec 6} {sc : Bool} {s : State} (h : StoreInv s) :
    Keeps (execFatom w p d o b sc s) StoreInv := vectorAtomic_storeInv h

theorem scalarAccess_storeInv {s : State} {e : Env} {f : MemF} {write : Bool} {a : Access} {va : Nat} {x : Dword} {ex : Word}
    (h : StoreInv s) :
    (scalarAccess s e f write a va x ex).storeInv := by
  unfold scalarAccess
  dsimp only
  split
  · next e' => exact checkLanes_storeInv e'
  · exact performAccess_storeInv h

theorem execSld_storeInv {w : Bool} {d a : BitVec 6} {t : BitVec 3} {off : BitVec 9} {s : State} (h : StoreInv s) :
    Keeps (execSld w d a t off s) StoreInv := runMem_storeInv h (fun _ _ => scalarAccess_storeInv h)

theorem execSst_storeInv {w : Bool} {d a : BitVec 6} {t : BitVec 3} {off : BitVec 9} {s : State} (h : StoreInv s) :
    Keeps (execSst w d a t off s) StoreInv := runMem_storeInv h (fun _ _ => scalarAccess_storeInv h)

theorem scalarAtomic_storeInv {w : Bool} {p : BitVec 4} {a b : BitVec 6} {dest : Dest} {s : State} (h : StoreInv s) :
    Keeps (scalarAtomic w p a b dest s) StoreInv := runMem_storeInv h (fun _ _ => by
    dsimp only
    exact scalarAccess_storeInv h)

theorem execSatom_storeInv {w : Bool} {p : BitVec 4} {d a b : BitVec 6} {s : State} (h : StoreInv s) :
    Keeps (execSatom w p d a b s) StoreInv := scalarAtomic_storeInv h

theorem execSatomNr_storeInv {w : Bool} {p : BitVec 4} {a b : BitVec 6} {s : State} (h : StoreInv s) :
    Keeps (execSatomNr w p a b s) StoreInv := scalarAtomic_storeInv h

theorem fenceAcquire_storeInv {s : State} {e : Env} {scope : Nat} (h : StoreInv s) :
    StoreInv (fenceAcquire s e scope) := acquire_storeInv h

theorem Res.begins_storeInv {a : Res} (h : a.storeInv) : a.begins.storeInv := by
  cases a with
  | done | goto | trap | trapWith | hold | again | keep | placed => exact h

theorem execFence_storeInv {w : Bool} {o sc : BitVec 6} {s : State} (h : StoreInv s) :
    Keeps (execFence w o sc s) StoreInv := by
  unfold execFence
  split
  · exact runMem_storeInv h (fun _ _ => by
      split
      · exact h
      · exact fenceAcquire_storeInv h)
  · split
    · exact runMem_storeInv h (fun x y => by
        split
        · next e₂ => exact Res.begins_storeInv (release_storeInv h e₂)
        · next e₂ => exact fenceAcquire_storeInv (release_storeInv h e₂))
    · exact runMem_storeInv h (fun x y => by
        split
        · next e₂ => exact Res.begins_storeInv (release_storeInv h e₂)
        · next e₂ => exact release_storeInv h e₂)

theorem performLanded_storeInv {s : State} {die : Nat} {x : LandedSector} (h : StoreInv s) :
    StoreInv (performLanded s die x) := by
  unfold performLanded
  dsimp only
  split
  · exact l2Write_storeInv (noFillSector_storeInv (l1DropSect_storeInv h))
  · exact l2Write_storeInv h

theorem performTeamLanded_storeInv {s : State} {t die : Nat} (h : StoreInv s) :
    StoreInv (performTeamLanded s t die) := foldl_storeInv (fun _ _ hu => performLanded_storeInv hu) h

theorem execXfence_storeInv {w : Bool} {a b : BitVec 6} {s : State} (h : StoreInv s) :
    Keeps (execXfence w a b s) StoreInv := by
  unfold execXfence
  dsimp only
  split
  · exact runMem_storeInv h (fun _ _ => by
      split
      · exact h
      · exact foldl_storeInv (fun _ _ hu => storeInv_ite (l1CleanLine_storeInv hu) hu) h)
  · exact runMem_storeInv h (fun _ _ => by
      split
      · exact h
      · exact h)
  · exact runMem_storeInv h (fun _ _ => performTeamLanded_storeInv h)
  · exact runMem_storeInv h (fun _ _ => by
      split
      · exact h
      · exact h)

theorem execTlfence_storeInv {w : Bool} {_sc : BitVec 6} {s : State} (h : StoreInv s) :
    Keeps (execTlfence w _sc s) StoreInv := runMem_storeInv h (fun _ _ => by
    dsimp only
    split
    · split
      · exact h
      · exact h
    · split
      · exact h
      · split
        · exact l2Flush_storeInv (l1Release_storeInv h)
        · exact l2Flush_storeInv (l1Release_storeInv h))

theorem execIfence_storeInv {w : Bool} {s : State} (h : StoreInv s) :
    Keeps (execIfence w s) StoreInv := runMem_storeInv h (fun _ _ => by
    dsimp only
    split
    · exact h
    · exact State.setCore_storeInv (noFill_storeInv (l1Release_storeInv h)))

theorem cacheWord_storeInv {w : Bool} {op : Nat} {o : BitVec 7} {b : BitVec 6} {sc : Bool} {s : State} (h : StoreInv s) :
    Keeps (cacheWord w op o b sc s) StoreInv := runMem_storeInv h (fun _ _ => by
    dsimp only
    split
    · split
      · exact h
      · exact h
    · split
      · exact trivial
      · split
        · exact trivial
        · split
          · exact h
          · split
            · exact h
            · split
              · exact issueAccess_storeInv h
              · exact issueAccess_storeInv h)

theorem execVcacheWb_storeInv {w : Bool} {o : BitVec 7} {b : BitVec 6} {sc : Bool} {s : State} (h : StoreInv s) :
    Keeps (execVcacheWb w o b sc s) StoreInv := cacheWord_storeInv h

theorem execVcacheWbinv_storeInv {w : Bool} {o : BitVec 7} {b : BitVec 6} {sc : Bool} {s : State} (h : StoreInv s) :
    Keeps (execVcacheWbinv w o b sc s) StoreInv := cacheWord_storeInv h

theorem execVcachePf_storeInv {w : Bool} {o : BitVec 7} {b : BitVec 6} {sc : Bool} {s : State} (h : StoreInv s) :
    Keeps (execVcachePf w o b sc s) StoreInv := cacheWord_storeInv h

theorem execVcacheDemote_storeInv {w : Bool} {o : BitVec 7} {b : BitVec 6} {sc : Bool} {s : State} (h : StoreInv s) :
    Keeps (execVcacheDemote w o b sc s) StoreInv := cacheWord_storeInv h

end Sys2Proof.Machine
end

section
/-! THE FORM OF THE MEMORY (O59): the words of class 2 (model file Machine/Async). -/

namespace Sys2Proof.Machine

theorem Agt.setS_storeInv {a : Agt} {s : State} {r : Nat} {v : Word} (h : StoreInv s) :
    StoreInv (Agt.setS a s r v) := by
  unfold Agt.setS
  split
  · exact writeS_storeInv h
  · exact h

theorem Agt.setBlock_storeInv {a : Agt} {s : State} {r : Nat} {vs : List Word} (h : StoreInv s) :
    StoreInv (Agt.setBlock a s r vs) := foldl_storeInv (fun _ _ hu => Agt.setS_storeInv hu) h

theorem runA_storeInv {w : Bool} {s : State} {blocks : List (Nat × Nat)} {singles : List Nat} {f : Agt → Res} (hs : StoreInv s)
    (hf : ∀ x, (f x).storeInv) :
    Keeps (runA w s blocks singles f) StoreInv := runX_storeInv hs (fun _ => by
    dsimp only
    split
    · exact trivial
    · exact hf _) (fun _ => by
    dsimp only
    split
    · exact trivial
    · exact hf _)

theorem scrCheck_storeInv {team : Team} {off align size : Nat} {r : Res} (hx : scrCheck team off align size = some r) :
    r.storeInv := by
  unfold scrCheck at hx
  split at hx
  · cases hx
    trivial
  · split at hx
    · cases hx
      trivial
    · cases hx

theorem tbApply_storeInv {s : State} {t off arr sec : Nat} (h : StoreInv s) {r : State × Bool} (hx : tbApply s t off arr sec = r) :
    StoreInv r.1 := by
  subst hx
  unfold tbApply
  dsimp only
  exact h

theorem setTag_storeInv {s : State} {t h' i v : Nat} (h : StoreInv s) :
    StoreInv (setTag s t h' i v) := h

theorem setCounter_storeInv {s : State} {t h' i v : Nat} (h : StoreInv s) :
    StoreInv (setCounter s t h' i v) := h

theorem slotSector_storeInv {s : State} {t h' i : Nat} (h : StoreInv s) {r : State × Bool} (hx : slotSector s t h' i = r) :
    StoreInv r.1 := by
  subst hx
  unfold slotSector
  dsimp only
  split
  · exact h
  · exact storeInv_ite h h

theorem copyChecks_storeInv {s : State} {a : Agt} {c : Copy} {r : Res} (hx : copyChecks s a c = some r) : r.storeInv := by
  suffices ∀ x, copyChecks s a c = some x → x.storeInv from this r hx
  unfold copyChecks
  dsimp only
  iterate 6 refine check_storeInv (by trivial) ?_
  intro r hx
  split at hx
  · next hy => exact Option.some.inj hx ▸ checkIf_storeInv (fun _ => scrCheck_storeInv) _ hy
  · split at hx
    · next hy =>
      cases hx
      split at hy
      · exact scrCheck_storeInv hy
      · split at hy
        · cases hy
        · exact scrCheck_storeInv hy
    · split at hx
      · next hy => exact Option.some.inj hx ▸ checkIf_storeInv (fun _ => scrCheck_storeInv) _ hy
      · split at hx
        · exact check_storeInv (by trivial) (none_storeInv) _ hx
        · exact check_storeInv (by trivial) (none_storeInv) _ hx
        · cases hx

theorem claimSlots_storeInv {s : State} {id : Nat} {l : List Nat} (h : StoreInv s) : StoreInv (claimSlots s id l) := by
  induction l generalizing s with
  | nil => exact h
  | cons core rest ih =>
    unfold claimSlots
    split
    · exact h
    · split
      · exact ih h
      · split
        · exact ih h
        · exact h

theorem beginCopy_storeInv {s : State} {a : Agt} {id : Nat} (h : StoreInv s) :
    (beginCopy s a id).storeInv := by
  unfold beginCopy
  dsimp only
  split
  · exact h
  · split
    · exact storeInv_with (claimSlots_storeInv h)
    · split
      · split
        · exact updGroup_storeInv (storeInv_with (State.fresh_storeInv (claimSlots_storeInv h) rfl))
        · exact storeInv_with (State.fresh_storeInv (claimSlots_storeInv h) rfl)
      · exact claimSlots_storeInv h

theorem copyWord_storeInv {w : Bool} {kind : CopyKind} {tn : BitVec 8} {sa : BitVec 6} {p : BitVec 3} {s : State} (h : StoreInv s) :
    Keeps (copyWord w kind tn sa p s) StoreInv := runX_storeInv h (fun x => by
    dsimp only
    split
    · exact trivial
    · split
      · exact beginCopy_storeInv h
      · split
        · exact h
        · split
          · next e₃ => exact copyChecks_storeInv e₃
          · split
            · split
              · exact h
              · exact beginCopy_storeInv h
            · split
              · exact h
              · exact beginCopy_storeInv h) (fun x => by
    dsimp only
    split
    · exact trivial
    · split
      · exact beginCopy_storeInv h
      · split
        · exact h
        · split
          · next e₃ => exact copyChecks_storeInv e₃
          · split
            · split
              · exact h
              · exact beginCopy_storeInv h
            · split
              · exact h
              · exact beginCopy_storeInv h)

theorem execCpyLd_storeInv {w : Bool} {tn : BitVec 8} {a : BitVec 6} {p : BitVec 3} {s : State} (h : StoreInv s) :
    Keeps (execCpyLd w tn a p s) StoreInv := copyWord_storeInv h

theorem execCpySlot_storeInv {w : Bool} {tn : BitVec 8} {a : BitVec 6} {p : BitVec 3} {s : State} (h : StoreInv s) :
    Keeps (execCpySlot w tn a p s) StoreInv := copyWord_storeInv h

theorem execCpySt_storeInv {w : Bool} {tn : BitVec 8} {a : BitVec 6} {p : BitVec 3} {s : State} (h : StoreInv s) :
    Keeps (execCpySt w tn a p s) StoreInv := copyWord_storeInv h

theorem execCpyGg_storeInv {w : Bool} {tn : BitVec 8} {a : BitVec 6} {p : BitVec 3} {s : State} (h : StoreInv s) :
    Keeps (execCpyGg w tn a p s) StoreInv := copyWord_storeInv h

theorem execCpyGth_storeInv {w : Bool} {tn : BitVec 8} {a : BitVec 6} {p : BitVec 3} {s : State} (h : StoreInv s) :
    Keeps (execCpyGth w tn a p s) StoreInv := copyWord_storeInv h

theorem execCpyMc_storeInv {w : Bool} {tn : BitVec 8} {a : BitVec 6} {p : BitVec 3} {s : State} (h : StoreInv s) :
    Keeps (execCpyMc w tn a p s) StoreInv := copyWord_storeInv h

theorem execCpyMcSlot_storeInv {w : Bool} {tn : BitVec 8} {a : BitVec 6} {p : BitVec 3} {s : State} (h : StoreInv s) :
    Keeps (execCpyMcSlot w tn a p s) StoreInv := copyWord_storeInv h

theorem Agt.setLast_storeInv {a : Agt} {s : State} {n : Nat} (h : StoreInv s) :
    StoreInv (Agt.setLast a s n) := by
  unfold Agt.setLast
  split
  · exact h
  · exact h

theorem execCbat_storeInv {w wr : Bool} {d : BitVec 6} {s : State} (h : StoreInv s) :
    Keeps (execCbat w wr d s) StoreInv := by
  unfold execCbat
  dsimp only
  split
  · exact runA_storeInv h (fun _ => by
      split
      · exact h
      · exact Agt.setS_storeInv (Agt.setLast_storeInv h))
  · exact runA_storeInv h (fun _ => by
      split
      · exact h
      · exact Agt.setLast_storeInv h)

theorem execCwait_storeInv {w : Bool} {n : BitVec 16} {s : State} (h : StoreInv s) :
    Keeps (execCwait w n s) StoreInv := runA_storeInv h (fun _ => by
    split
    · exact h
    · exact h)

theorem execCwaitR_storeInv {w : Bool} {r : BitVec 6} {s : State} (h : StoreInv s) :
    Keeps (execCwaitR w r s) StoreInv := runA_storeInv h (fun _ => by
    dsimp only
    split
    · exact h
    · exact h)

theorem withBarrier_storeInv {a : Agt} {off : Nat} {f : Res} (h : f.storeInv) : (withBarrier a off f).storeInv :=
  Res.getD_storeInv (fun _ => scrCheck_storeInv) h

theorem Agt.behindScratch_storeInv {a : Agt} {s : State} {f : Res} (hs : StoreInv s) (hf : f.storeInv) :
    (Agt.behindScratch a s f).storeInv := by
  unfold Agt.behindScratch
  split
  · exact hs
  · exact hf

theorem Agt.signals_storeInv {a : Agt} {s : State} {f : Res} (hs : StoreInv s) (hf : f.storeInv) :
    (Agt.signals a s f).storeInv := by
  unfold Agt.signals
  split
  · exact hs
  · exact hf

theorem execTbinit_storeInv {w : Bool} {x b : BitVec 6} {s : State} (h : StoreInv s) :
    Keeps (execTbinit w x b s) StoreInv := runA_storeInv h (fun _ => withBarrier_storeInv (Agt.behindScratch_storeInv h h))

theorem arrive_storeInv {s : State} {a : Agt} {off k : Nat} (h : StoreInv s) :
    (arrive s a off k).storeInv := by
  unfold arrive
  dsimp only
  split
  · exact withBarrier_storeInv h
  · split
    · exact withBarrier_storeInv (Agt.signals_storeInv h (tbApply_storeInv h rfl))
    · exact withBarrier_storeInv (Agt.signals_storeInv h (tbApply_storeInv h rfl))

theorem execTbarrive_storeInv {w : Bool} {x : BitVec 6} {k : BitVec 12} {s : State} (h : StoreInv s) :
    Keeps (execTbarrive w x k s) StoreInv := runA_storeInv h (fun _ => arrive_storeInv h)

theorem execTbarriveR_storeInv {w : Bool} {x b : BitVec 6} {s : State} (h : StoreInv s) :
    Keeps (execTbarriveR w x b s) StoreInv := runA_storeInv h (fun _ => arrive_storeInv h)

theorem execTbwait_storeInv {w : Bool} {x b : BitVec 6} {s : State} (h : StoreInv s) :
    Keeps (execTbwait w x b s) StoreInv := runA_storeInv h (fun _ => by
    dsimp only
    split
    · exact withBarrier_storeInv h
    · exact withBarrier_storeInv h)

theorem execTbphase_storeInv {w : Bool} {x d : BitVec 6} {s : State} (h : StoreInv s) :
    Keeps (execTbphase w x d s) StoreInv := runA_storeInv h (fun _ => withBarrier_storeInv (Agt.setS_storeInv h))

theorem withRing_storeInv {a : Agt} {off i : Nat} {f : Res} (h : f.storeInv) : (withRing a off i f).storeInv :=
  Res.getD_storeInv (fun _ => scrCheck_storeInv) h

theorem takeSlotWord_storeInv {s : State} {a : Agt} {x i : Nat} (h : StoreInv s) :
    (takeSlotWord s a x i).storeInv := by
  unfold takeSlotWord
  dsimp only
  split
  · exact withRing_storeInv h
  · exact withRing_storeInv h

theorem releaseSlotWord_storeInv {s : State} {a : Agt} {x i : Nat} (h : StoreInv s) :
    (releaseSlotWord s a x i).storeInv := by
  unfold releaseSlotWord
  dsimp only
  split
  · exact withRing_storeInv (Agt.signals_storeInv h h)
  · exact withRing_storeInv (Agt.signals_storeInv h trivial)

theorem execSltake_storeInv {w : Bool} {x i : BitVec 6} {s : State} (h : StoreInv s) :
    Keeps (execSltake w x i s) StoreInv := runA_storeInv h (fun _ => takeSlotWord_storeInv h)

theorem execSlrel_storeInv {w : Bool} {x i : BitVec 6} {s : State} (h : StoreInv s) :
    Keeps (execSlrel w x i s) StoreInv := runA_storeInv h (fun _ => releaseSlotWord_storeInv h)

theorem execSltag_storeInv {w : Bool} {x d i : BitVec 6} {s : State} (h : StoreInv s) :
    Keeps (execSltag w x d i s) StoreInv := runA_storeInv h (fun _ => withRing_storeInv (Agt.setS_storeInv h))

theorem execSlinit_storeInv {w : Bool} {x n : BitVec 6} {s : State} (h : StoreInv s) :
    Keeps (execSlinit w x n s) StoreInv := runA_storeInv h
        (fun _ => withRing_storeInv (Agt.behindScratch_storeInv h
            (foldl_storeInv (fun _ _ hu => setCounter_storeInv hu) (foldl_storeInv (fun _ _ hu => setTag_storeInv hu) h))))

theorem pushRelease_storeInv {s : State} {a : Agt} {e : Option Env} (h : StoreInv s) {r : Ready} (hx : pushRelease s a e = r) :
    r.storeInv := by
  subst hx
  unfold pushRelease
  split
  · exact release_storeInv h rfl
  · exact l2Flush_storeInv (l1Release_storeInv h)

theorem queueWord_storeInv {w : Bool} {op : QueueOp} {qreg rlx : Bool} {sa sd : Nat} {q : BitVec 8} {s : State} (h : StoreInv s) :
    Keeps (queueWord w op qreg rlx sa sd q s) StoreInv := by
  have hready {p : Prop} [Decidable p] {a : Agt} {e : Option Env} :
      (if p then pushRelease s a e else .go [] s).storeInv := by
    split
    · exact pushRelease_storeInv h rfl
    · exact h
  unfold queueWord
  refine runX_storeInv h (fun x => ?_) (fun x => ?_)
  all_goals
    dsimp only
    split
    · trivial
    · split
      · trivial
      · split
        · exact h
        · next hx => exact setOff_storeInv (storeInv_with (hx ▸ hready : (Ready.go _ _).storeInv))

theorem execQpush_storeInv {w g r : Bool} {a : BitVec 6} {q : BitVec 8} {s : State} (h : StoreInv s) :
    Keeps (execQpush w g r a q s) StoreInv := queueWord_storeInv h

theorem execQpushTry_storeInv {w g r : Bool} {a d : BitVec 6} {q : BitVec 8} {s : State} (h : StoreInv s) :
    Keeps (execQpushTry w g r a d q s) StoreInv := queueWord_storeInv h

theorem execQwait_storeInv {w g r : Bool} {a : BitVec 6} {q : BitVec 8} {s : State} (h : StoreInv s) :
    Keeps (execQwait w g r a q s) StoreInv := queueWord_storeInv h

theorem execQpopTry_storeInv {w g r : Bool} {a d : BitVec 6} {q : BitVec 8} {s : State} (h : StoreInv s) :
    Keeps (execQpopTry w g r a d q s) StoreInv := queueWord_storeInv h

theorem execTnset_storeInv {w : Bool} {tn : BitVec 8} {x d : BitVec 6} {s : State} (h : StoreInv s) :
    Keeps (execTnset w tn x d s) StoreInv := runA_storeInv h (fun _ => Agt.setS_storeInv (storeInv_ite h h))

theorem execTnget_storeInv {w : Bool} {tn : BitVec 8} {d : BitVec 6} {s : State} (h : StoreInv s) :
    Keeps (execTnget w tn d s) StoreInv := runA_storeInv h (fun _ => Agt.setBlock_storeInv h)

end Sys2Proof.Machine
end

section
/-! THE FORM OF THE MEMORY (O59): the integer vector words (model file Machine/VecInt). -/

namespace Sys2Proof.Machine

theorem execVaddI32_storeInv {w : Bool} {d a b : BitVec 7} {s : State} (h : StoreInv s) :
    Keeps (execVaddI32 w d a b s) StoreInv := v3_storeInv h

theorem execVsubI32_storeInv {w : Bool} {d a b : BitVec 7} {s : State} (h : StoreInv s) :
    Keeps (execVsubI32 w d a b s) StoreInv := v3_storeInv h

theorem execVmulI32_storeInv {w : Bool} {d a b : BitVec 7} {s : State} (h : StoreInv s) :
    Keeps (execVmulI32 w d a b s) StoreInv := v3_storeInv h

theorem execVmulhiI32_storeInv {w : Bool} {d a b : BitVec 7} {s : State} (h : StoreInv s) :
    Keeps (execVmulhiI32 w d a b s) StoreInv := v3_storeInv h

theorem execVmulhiN32_storeInv {w : Bool} {d a b : BitVec 7} {s : State} (h : StoreInv s) :
    Keeps (execVmulhiN32 w d a b s) StoreInv := v3_storeInv h

theorem execVminI32_storeInv {w : Bool} {d a b : BitVec 7} {s : State} (h : StoreInv s) :
    Keeps (execVminI32 w d a b s) StoreInv := v3_storeInv h

theorem execVminN32_storeInv {w : Bool} {d a b : BitVec 7} {s : State} (h : StoreInv s) :
    Keeps (execVminN32 w d a b s) StoreInv := v3_storeInv h

theorem execVmaxI32_storeInv {w : Bool} {d a b : BitVec 7} {s : State} (h : StoreInv s) :
    Keeps (execVmaxI32 w d a b s) StoreInv := v3_storeInv h

theorem execVmaxN32_storeInv {w : Bool} {d a b : BitVec 7} {s : State} (h : StoreInv s) :
    Keeps (execVmaxN32 w d a b s) StoreInv := v3_storeInv h

theorem execVaddsI32_storeInv {w : Bool} {d a b : BitVec 7} {s : State} (h : StoreInv s) :
    Keeps (execVaddsI32 w d a b s) StoreInv := v3_storeInv h

theorem execVsubsI32_storeInv {w : Bool} {d a b : BitVec 7} {s : State} (h : StoreInv s) :
    Keeps (execVsubsI32 w d a b s) StoreInv := v3_storeInv h

theorem execVabsI32_storeInv {w : Bool} {d a : BitVec 7} {s : State} (h : StoreInv s) :
    Keeps (execVabsI32 w d a s) StoreInv := v2_storeInv h

theorem execVaddminI32_storeInv {w : Bool} {d a b : BitVec 7} {s : State} (h : StoreInv s) :
    Keeps (execVaddminI32 w d a b s) StoreInv := v3acc_storeInv h

theorem execVcopy_storeInv {w : Bool} {d a : BitVec 7} {s : State} (h : StoreInv s) :
    Keeps (execVcopy w d a s) StoreInv := v2_storeInv h

theorem execVaddB64_storeInv {w : Bool} {d a b : BitVec 7} {s : State} (h : StoreInv s) :
    Keeps (execVaddB64 w d a b s) StoreInv := v3p_storeInv h

theorem execVsubB64_storeInv {w : Bool} {d a b : BitVec 7} {s : State} (h : StoreInv s) :
    Keeps (execVsubB64 w d a b s) StoreInv := v3p_storeInv h

theorem execVand_storeInv {w : Bool} {d a b : BitVec 7} {s : State} (h : StoreInv s) :
    Keeps (execVand w d a b s) StoreInv := v3_storeInv h

theorem execVor_storeInv {w : Bool} {d a b : BitVec 7} {s : State} (h : StoreInv s) :
    Keeps (execVor w d a b s) StoreInv := v3_storeInv h

theorem execVxor_storeInv {w : Bool} {d a b : BitVec 7} {s : State} (h : StoreInv s) :
    Keeps (execVxor w d a b s) StoreInv := v3_storeInv h

theorem execVandn_storeInv {w : Bool} {d a b : BitVec 7} {s : State} (h : StoreInv s) :
    Keeps (execVandn w d a b s) StoreInv := v3_storeInv h

theorem execVnot_storeInv {w : Bool} {d a : BitVec 7} {s : State} (h : StoreInv s) :
    Keeps (execVnot w d a s) StoreInv := v2_storeInv h

theorem execVshl_storeInv {w : Bool} {d a b : BitVec 7} {s : State} (h : StoreInv s) :
    Keeps (execVshl w d a b s) StoreInv := v3_storeInv h

theorem execVshr_storeInv {w : Bool} {d a b : BitVec 7} {s : State} (h : StoreInv s) :
    Keeps (execVshr w d a b s) StoreInv := v3_storeInv h

theorem execVsra_storeInv {w : Bool} {d a b : BitVec 7} {s : State} (h : StoreInv s) :
    Keeps (execVsra w d a b s) StoreInv := v3_storeInv h

theorem execVpopc_storeInv {w : Bool} {d a : BitVec 7} {s : State} (h : StoreInv s) :
    Keeps (execVpopc w d a s) StoreInv := v2_storeInv h

theorem execVclz_storeInv {w : Bool} {d a : BitVec 7} {s : State} (h : StoreInv s) :
    Keeps (execVclz w d a s) StoreInv := v2_storeInv h

theorem execVctz_storeInv {w : Bool} {d a : BitVec 7} {s : State} (h : StoreInv s) :
    Keeps (execVctz w d a s) StoreInv := v2_storeInv h

theorem execVbrev_storeInv {w : Bool} {d a : BitVec 7} {s : State} (h : StoreInv s) :
    Keeps (execVbrev w d a s) StoreInv := v2_storeInv h

theorem execVaddiI32_storeInv {w : Bool} {d a i : BitVec 7} {s : State} (h : StoreInv s) :
    Keeps (execVaddiI32 w d a i s) StoreInv := v2_storeInv h

theorem execVmuliI32_storeInv {w : Bool} {d a i : BitVec 7} {s : State} (h : StoreInv s) :
    Keeps (execVmuliI32 w d a i s) StoreInv := v2_storeInv h

theorem execVandi_storeInv {w : Bool} {d a i : BitVec 7} {s : State} (h : StoreInv s) :
    Keeps (execVandi w d a i s) StoreInv := v2_storeInv h

theorem execVori_storeInv {w : Bool} {d a i : BitVec 7} {s : State} (h : StoreInv s) :
    Keeps (execVori w d a i s) StoreInv := v2_storeInv h

theorem execVxori_storeInv {w : Bool} {d a i : BitVec 7} {s : State} (h : StoreInv s) :
    Keeps (execVxori w d a i s) StoreInv := v2_storeInv h

theorem execVminiI32_storeInv {w : Bool} {d a i : BitVec 7} {s : State} (h : StoreInv s) :
    Keeps (execVminiI32 w d a i s) StoreInv := v2_storeInv h

theorem execVmaxiI32_storeInv {w : Bool} {d a i : BitVec 7} {s : State} (h : StoreInv s) :
    Keeps (execVmaxiI32 w d a i s) StoreInv := v2_storeInv h

theorem execVshli_storeInv {w : Bool} {d a i : BitVec 7} {s : State} (h : StoreInv s) :
    Keeps (execVshli w d a i s) StoreInv := v2_storeInv h

theorem execVshri_storeInv {w : Bool} {d a i : BitVec 7} {s : State} (h : StoreInv s) :
    Keeps (execVshri w d a i s) StoreInv := v2_storeInv h

theorem execVsrai_storeInv {w : Bool} {d a i : BitVec 7} {s : State} (h : StoreInv s) :
    Keeps (execVsrai w d a i s) StoreInv := v2_storeInv h

theorem execVmovi_storeInv {w : Bool} {d : BitVec 7} {i : BitVec 16} {s : State} (h : StoreInv s) :
    Keeps (execVmovi w d i s) StoreInv := runV_storeInv h

theorem execVmoviH_storeInv {w : Bool} {d : BitVec 7} {i : BitVec 16} {s : State} (h : StoreInv s) :
    Keeps (execVmoviH w d i s) StoreInv := v2_storeInv h

theorem execVmoviZ_storeInv {w : Bool} {d : BitVec 7} {i : BitVec 16} {s : State} (h : StoreInv s) :
    Keeps (execVmoviZ w d i s) StoreInv := runV_storeInv h

theorem execVcmpI32_storeInv {w : Bool} {c p : BitVec 3} {a b : BitVec 7} {s : State} (h : StoreInv s) :
    Keeps (execVcmpI32 w c p a b s) StoreInv := vcompare_storeInv h

theorem execVcmpN32_storeInv {w : Bool} {c p : BitVec 3} {a b : BitVec 7} {s : State} (h : StoreInv s) :
    Keeps (execVcmpN32 w c p a b s) StoreInv := vcompare_storeInv h

theorem execVtst_storeInv {w : Bool} {p : BitVec 3} {a b : BitVec 7} {s : State} (h : StoreInv s) :
    Keeps (execVtst w p a b s) StoreInv := vcompare_storeInv h

theorem execVsel_storeInv {w : Bool} {p : BitVec 3} {d a b : BitVec 7} {s : State} (h : StoreInv s) :
    Keeps (execVsel w p d a b s) StoreInv := runV_storeInv h

theorem execVshfl_storeInv {w : Bool} {d a b : BitVec 7} {s : State} (h : StoreInv s) :
    Keeps (execVshfl w d a b s) StoreInv := runV_storeInv h

theorem execVlsh_storeInv {w : Bool} {d a n : BitVec 7} {s : State} (h : StoreInv s) :
    Keeps (execVlsh w d a n s) StoreInv := runV_storeInv h

theorem execVbcast_storeInv {w : Bool} {d a n : BitVec 7} {s : State} (h : StoreInv s) :
    Keeps (execVbcast w d a n s) StoreInv := runV_storeInv h

theorem execVbcastS_storeInv {w : Bool} {d a : BitVec 7} {s : State} (h : StoreInv s) :
    Keeps (execVbcastS w d a s) StoreInv := runV_storeInv h

theorem regroupWrite_storeInv {s : State} {e : Env} {vals : List (Nat × List Word)} (h : StoreInv s) :
    StoreInv (regroupWrite s e vals) := writeNames_storeInv h

theorem retireAt_storeInv {s : State} {t g p : Nat} (h : StoreInv s) :
    StoreInv (retireAt s t g p) := by
  unfold retireAt
  split
  · exact retire_storeInv h
  · exact h

theorem retireRegroup_storeInv {s : State} {t g p : Nat} (h : StoreInv s) :
    StoreInv (retireRegroup s t g p) := by
  unfold retireRegroup
  split
  · exact retire_storeInv h
  · exact h

theorem regroupPair_storeInv {s : State} {r d : Env} {first last : Nat} (h : StoreInv s) :
    StoreInv (regroupPair s r d first last) := by
  unfold regroupPair
  dsimp only
  exact regroupWrite_storeInv (regroupWrite_storeInv h)

theorem regroupAlone_storeInv {s : State} {e : Env} {first last : Nat} (h : StoreInv s) :
    StoreInv (regroupAlone s e first last) := regroupWrite_storeInv h

theorem regroupEnded_storeInv {s : State} {t gone : Nat} (h : StoreInv s) :
    StoreInv (regroupEnded s t gone) := by
  unfold regroupEnded
  split
  · exact h
  · exact foldl_storeInv (fun _ _ hu => by
      split
      · apply storeInv_ite
        · split
          · exact retireRegroup_storeInv (regroupAlone_storeInv hu)
          · exact hu
        · exact hu
      · exact hu) h

theorem regroup_storeInv {w snd : Bool} {d a g : BitVec 7} {s : State} (h : StoreInv s) :
    Keeps (regroup w snd d a g s) StoreInv := by
  unfold regroup
  dsimp only
  split
  · exact runG_storeInv h (fun _ => by
      split
      · exact trivial
      · split
        · exact trivial
        · split
          · exact trivial
          · split
            · exact regroupAlone_storeInv h
            · split
              · exact regroupAlone_storeInv h
              · split
                · exact h
                · split
                  · exact h
                  · split
                    · split
                      · split
                        · exact h
                        · exact h
                      · split
                        · exact h
                        · exact h
                    · split
                      · exact h
                      · exact retireRegroup_storeInv (regroupPair_storeInv h))
  · exact runG_storeInv h (fun _ => by
      split
      · exact trivial
      · split
        · exact trivial
        · split
          · exact trivial
          · split
            · exact regroupAlone_storeInv h
            · split
              · exact regroupAlone_storeInv h
              · split
                · exact h
                · split
                  · exact h
                  · split
                    · split
                      · split
                        · exact h
                        · exact h
                      · split
                        · exact h
                        · exact h
                    · split
                      · exact h
                      · exact retireRegroup_storeInv (regroupPair_storeInv h))

theorem execVregroupRecv_storeInv {w : Bool} {d a g : BitVec 7} {s : State} (h : StoreInv s) :
    Keeps (execVregroupRecv w d a g s) StoreInv := regroup_storeInv h

theorem execVregroupSend_storeInv {w : Bool} {d a g : BitVec 7} {s : State} (h : StoreInv s) :
    Keeps (execVregroupSend w d a g s) StoreInv := regroup_storeInv h

theorem vreduce_storeInv {w : Bool} {d a : BitVec 7} {s : State} {op : Word → Word → Word} {unit : Word} (h : StoreInv s) :
    Keeps (vreduce w d a s op unit) StoreInv := runV_storeInv h

theorem vscan_storeInv {w : Bool} {d a : BitVec 7} {s : State} {op : Word → Word → Word} {unit : Word} (h : StoreInv s) :
    Keeps (vscan w d a s op unit) StoreInv := runV_storeInv h

theorem execVredAddI32_storeInv {w : Bool} {d a : BitVec 7} {s : State} (h : StoreInv s) :
    Keeps (execVredAddI32 w d a s) StoreInv := vreduce_storeInv h

theorem execVredMinI32_storeInv {w : Bool} {d a : BitVec 7} {s : State} (h : StoreInv s) :
    Keeps (execVredMinI32 w d a s) StoreInv := vreduce_storeInv h

theorem execVredMinN32_storeInv {w : Bool} {d a : BitVec 7} {s : State} (h : StoreInv s) :
    Keeps (execVredMinN32 w d a s) StoreInv := vreduce_storeInv h

theorem execVredMaxI32_storeInv {w : Bool} {d a : BitVec 7} {s : State} (h : StoreInv s) :
    Keeps (execVredMaxI32 w d a s) StoreInv := vreduce_storeInv h

theorem execVredMaxN32_storeInv {w : Bool} {d a : BitVec 7} {s : State} (h : StoreInv s) :
    Keeps (execVredMaxN32 w d a s) StoreInv := vreduce_storeInv h

theorem execVredAnd_storeInv {w : Bool} {d a : BitVec 7} {s : State} (h : StoreInv s) :
    Keeps (execVredAnd w d a s) StoreInv := vreduce_storeInv h

theorem execVredOr_storeInv {w : Bool} {d a : BitVec 7} {s : State} (h : StoreInv s) :
    Keeps (execVredOr w d a s) StoreInv := vreduce_storeInv h

theorem execVredXor_storeInv {w : Bool} {d a : BitVec 7} {s : State} (h : StoreInv s) :
    Keeps (execVredXor w d a s) StoreInv := vreduce_storeInv h

theorem execVscanAddI32_storeInv {w : Bool} {d a : BitVec 7} {s : State} (h : StoreInv s) :
    Keeps (execVscanAddI32 w d a s) StoreInv := vscan_storeInv h

theorem execVscanMaxI32_storeInv {w : Bool} {d a : BitVec 7} {s : State} (h : StoreInv s) :
    Keeps (execVscanMaxI32 w d a s) StoreInv := vscan_storeInv h

theorem vote_storeInv {w : Bool} {s : State} {d : Nat} {f : Env → List Word} (h : StoreInv s) :
    Keeps (vote w s d f) StoreInv := runG_storeInv h (fun _ => foldl_storeInv (fun _ _ hu => result_storeInv hu) h)

theorem execVvoteAny_storeInv {w : Bool} {d p : BitVec 7} {s : State} (h : StoreInv s) :
    Keeps (execVvoteAny w d p s) StoreInv := vote_storeInv h

theorem execVvoteAll_storeInv {w : Bool} {d p : BitVec 7} {s : State} (h : StoreInv s) :
    Keeps (execVvoteAll w d p s) StoreInv := vote_storeInv h

theorem execVvoteFirst_storeInv {w : Bool} {d p : BitVec 7} {s : State} (h : StoreInv s) :
    Keeps (execVvoteFirst w d p s) StoreInv := vote_storeInv h

theorem execVballot_storeInv {w : Bool} {d p : BitVec 7} {s : State} (h : StoreInv s) :
    Keeps (execVballot w d p s) StoreInv := vote_storeInv h

theorem execVdot4I8_storeInv {w : Bool} {d a b : BitVec 7} {s : State} (h : StoreInv s) :
    Keeps (execVdot4I8 w d a b s) StoreInv := v3acc_storeInv h

theorem execVdot4N8_storeInv {w : Bool} {d a b : BitVec 7} {s : State} (h : StoreInv s) :
    Keeps (execVdot4N8 w d a b s) StoreInv := v3acc_storeInv h

end Sys2Proof.Machine
end

section
/-! THE FORM OF THE MEMORY (O59): teams and launches (model file Machine/Teams). -/

namespace Sys2Proof.Machine

theorem setHold_storeInv {s : State} {t : Nat} {g : Option Nat} {p : Nat} {h' : Option Hold} (h : StoreInv s) :
    StoreInv (setHold s t g p h') := by
  unfold setHold
  split
  · exact h
  · exact h

theorem retireAgent_storeInv {s : State} {t : Nat} {g : Option Nat} {p : Nat} (h : StoreInv s) :
    StoreInv (retireAgent s t g p) := by
  unfold retireAgent
  split
  · exact retireAt_storeInv h
  · exact h

theorem writeAgent_storeInv {s : State} {t : Nat} {g : Option Nat} {p r : Nat} {v : Word} (h : StoreInv s) :
    StoreInv (writeAgent s t g p r v) := by
  unfold writeAgent
  split
  · exact writeS_storeInv h
  · exact h

theorem mergePart_storeInv {s : State} {t g parent : Nat} {a : List (Nat × Path)} (h : StoreInv s) :
    StoreInv (mergePart s t g parent a) := by
  unfold mergePart
  dsimp only
  split
  · exact h
  · exact retireAt_storeInv (foldl_storeInv (fun _ _ hu => countClause_storeInv hu) (updGroup_storeInv h))

theorem closeRecord_storeInv {n : Nat} {s : State} {t g r : Nat} (h : StoreInv s) : StoreInv (closeRecord n s t g r) := by
  induction n generalizing s r with
  | zero => exact h
  | succ n ih =>
    unfold closeRecord
    split
    · exact h
    · split
      · exact h
      · apply storeInv_ite
        · exact h
        · exact ih (foldl_storeInv (fun _ _ hu => mergePart_storeInv hu) h)

theorem addFloor_storeInv {s : State} {t src : Nat} {p : FlumeOp → Bool} (h : StoreInv s) :
    StoreInv (addFloor s t src p) := h

theorem barTest_storeInv {s : State} {t id : Nat} (h : StoreInv s) :
    StoreInv (barTest s t id) := by
  unfold barTest
  dsimp only
  split
  · exact h
  · apply storeInv_ite
    · exact updTeam_storeInv h
    · apply storeInv_ite
      · exact foldl_storeInv (fun _ _ hu => foldl_storeInv (fun _ _ hv => retireAt_storeInv hv) hu)
          (foldl_storeInv (fun _ _ hu => addFloor_storeInv hu) (acquire_storeInv (updTeam_storeInv h)))
      · exact updTeam_storeInv h

theorem barTests_storeInv {s : State} {t : Nat} (h : StoreInv s) :
    StoreInv (barTests s t) := foldl_storeInv (fun _ _ hu => barTest_storeInv hu) h

theorem barAll_storeInv {s : State} (h : StoreInv s) :
    StoreInv (barAll s) := foldl_storeInv (fun _ _ hu => foldl_storeInv (fun _ _ hv => barTest_storeInv hv) hu) h

theorem notePoint_storeInv {s : State} {t g n : Nat} (h : StoreInv s) :
    StoreInv (notePoint s t g n) := h

theorem passEqp_storeInv {s : State} {t g : Nat} (h : StoreInv s) :
    StoreInv (passEqp s t g) := by
  unfold passEqp
  split
  · exact h
  · split
    · exact notePoint_storeInv (foldl_storeInv (fun _ _ hu => retireAt_storeInv hu) h)
    · exact h

theorem passAll_storeInv {s : State} {t : Nat} (h : StoreInv s) :
    StoreInv (passAll s t) := foldl_storeInv (fun _ _ hu => passEqp_storeInv hu) h

theorem eqpTest_storeInv {s : State} {t : Nat} (h : StoreInv s) :
    StoreInv (eqpTest s t) := by
  unfold eqpTest
  split
  · exact storeInv_ite h (passAll_storeInv h)
  · exact h

theorem eqpAll_storeInv {s : State} (h : StoreInv s) :
    StoreInv (eqpAll s) := foldl_storeInv (fun _ _ hu => storeInv_ite hu (eqpTest_storeInv hu)) h

theorem setTarget_storeInv {s : State} {t k : Nat} (h : StoreInv s) :
    StoreInv (setTarget s t k) := by
  unfold setTarget
  dsimp only
  split
  · exact storeInv_ite (passAll_storeInv h) h
  · exact h

theorem retireVersions_storeInv {s : State} {id : Nat} (h : StoreInv s) :
    StoreInv (retireVersions s id) := by
  unfold retireVersions
  dsimp only
  split
  · exact h
  · exact storeInv_ite h (qWrite_storeInv h)

theorem runTest_storeInv {s : State} {run : Nat} (h : StoreInv s) :
    StoreInv (runTest s run) := by
  unfold runTest
  split
  · exact h
  · exact storeInv_ite (foldl_storeInv (fun _ _ hu => retireVersions_storeInv hu) h) h

theorem endLaunch_storeInv {s : State} {key : Nat} (h : StoreInv s) :
    StoreInv (endLaunch s key) := by
  unfold endLaunch
  dsimp only
  split
  · exact h
  · split
    · exact runTest_storeInv h
    · exact h

theorem vacate_storeInv {s : State} {core : Nat} (h : StoreInv s) :
    StoreInv (vacate s core) := by
  unfold vacate
  dsimp only
  apply storeInv_ite
  · exact h
  · split
    · exact h
    · exact h

theorem l1Flush_storeInv {s : State} {core ctx : Nat} (h : StoreInv s) :
    StoreInv (l1Flush s core ctx) := foldl_storeInv (fun _ _ hu => storeInv_ite (l1CleanLine_storeInv hu) hu) h

theorem leaveWrites_storeInv {s : State} {t : Nat} {team : Team} (h : StoreInv s) {r : List Nat × State}
    (hx : leaveWrites s t team = r) :
    StoreInv r.2 := by
  subst hx
  exact l2Flush_storeInv (l1Flush_storeInv (performTeamLanded_storeInv h))

theorem noteLeft_storeInv {s : State} {team : Team} {wbs : List Nat} (h : StoreInv s) :
    StoreInv (noteLeft s team wbs) := h

theorem leaveSlice_storeInv {s : State} {core slice t g : Nat} (h : StoreInv s) :
    StoreInv (leaveSlice s core slice t g) := h

theorem removeTeam_storeInv {s : State} {t : Nat} {team : Team} (h : StoreInv s) :
    StoreInv (removeTeam s t team) := vacate_storeInv (storeInv_with (foldl_storeInv (fun _ _ hu => leaveSlice_storeInv hu) h))

theorem teamTest_storeInv {s : State} {t : Nat} (h : StoreInv s) :
    StoreInv (teamTest s t) := by
  unfold teamTest
  dsimp only
  split
  · exact h
  · apply storeInv_ite
    · exact h
    · split
      · exact removeTeam_storeInv (storeInv_with (leaveWrites_storeInv h rfl))
      · apply storeInv_ite
        · exact endLaunch_storeInv (storeInv_with (removeTeam_storeInv (storeInv_with (leaveWrites_storeInv h rfl))))
        · exact storeInv_with (removeTeam_storeInv (storeInv_with (leaveWrites_storeInv h rfl)))

theorem discardResults_storeInv {s : State} {t g : Nat} (h : StoreInv s) :
    StoreInv (discardResults s t g) := by
  unfold discardResults
  dsimp only
  split
  · exact h
  · exact storeInv_with (foldl_storeInv (fun _ _ hu => endAccess_storeInv hu) (updGroup_storeInv (foldl_storeInv (fun _ _ hu => by
      split
      · exact hu
      · exact hu) h)))

theorem endGroup_storeInv {s : State} {t g : Nat} (h : StoreInv s) :
    StoreInv (endGroup s t g) := by
  unfold endGroup
  dsimp only
  split
  · exact h
  · exact teamTest_storeInv (eqpTest_storeInv (regroupEnded_storeInv
      (barTests_storeInv (leaveSlice_storeInv (updGroup_storeInv (updTeam_storeInv (discardResults_storeInv h)))))))

theorem endPath_storeInv {s : State} {e : Env} (h : StoreInv s) :
    StoreInv (endPath s e) := by
  unfold endPath
  dsimp only
  apply storeInv_ite
  · exact endGroup_storeInv h
  · exact eqpTest_storeInv (barTests_storeInv (closeRecord_storeInv (updGroup_storeInv (landAll_storeInv h))))

end Sys2Proof.Machine
end

section
/-! THE FORM OF THE MEMORY (O59): the waits (model file Machine/Waits). -/

namespace Sys2Proof.Machine

theorem Cond.check_storeInv {s : State} {team : Team} {c : Cond} {r : Res} (hx : Cond.check s team c = some r) : r.storeInv := by
  unfold Cond.check at hx
  split at hx
  · exact scrCheck_storeInv hx
  · exact scrCheck_storeInv hx
  · cases hx
  · exact Machine.check_storeInv (by trivial) (Machine.check_storeInv (by trivial)
      (Machine.check_storeInv (by trivial) none_storeInv)) _ hx
  · split at hx
    · cases hx
    · cases hx
      trivial
  · cases hx
    trivial

theorem startPoll_storeInv {s : State} {t : Nat} {g : Option Nat} {p : Nat} {w : WaitRec} (h : StoreInv s) :
    StoreInv (startPoll s t g p w) := by
  unfold startPoll
  dsimp only
  split
  · exact h
  · exact storeInv_ite (setHold_storeInv h) (progress_storeInv (setHold_storeInv h))

theorem endWait_storeInv {s : State} {t : Nat} {g : Option Nat} {p : Nat} {w : WaitRec} {status : Word} (h : StoreInv s) :
    StoreInv (endWait s t g p w status) := retireAgent_storeInv (writeAgent_storeInv h)

theorem wakeWait_storeInv {s : State} {t : Nat} {g : Option Nat} {p : Nat} {w : WaitRec} (h : StoreInv s) :
    StoreInv (wakeWait s t g p w) := by
  unfold wakeWait
  dsimp only
  split
  · exact h
  · split
    · split
      · exact setHold_storeInv h
      · apply storeInv_ite
        · exact h
        · split
          · exact endWait_storeInv h
          · exact setHold_storeInv h
    · exact storeInv_ite (storeInv_ite (endWait_storeInv h) h) (storeInv_ite (startPoll_storeInv h) h)

theorem wakeAll_storeInv {s : State} (h : StoreInv s) :
    StoreInv (wakeAll s) := by
  unfold wakeAll
  exact foldl_storeInv (fun _ _ hu => by
    split
    · exact hu
    · exact storeInv_ite hu (foldl_storeInv (fun _ _ hv => wakeWait_storeInv hv) hu)) h

theorem waitWord_storeInv {sw : Bool} {s : State} {a : Agt} {p : Nat} {any : Bool} {n sd sa sb : Nat} (h : StoreInv s) :
    (waitWord sw s a p any n sd sa sb).storeInv := by
  unfold waitWord
  dsimp only
  split
  · next hx =>
    obtain ⟨c, -, hc⟩ := List.exists_of_findSome?_eq_some hx
    exact Cond.check_storeInv hc
  · apply Res.ite_storeInv
    · refine wakeAll_storeInv ?_
      split
      · exact storeInv_ite (switchPark_storeInv (startPoll_storeInv h)) (startPoll_storeInv h)
      · exact startPoll_storeInv h
    · split
      · exact Agt.setS_storeInv h
      · exact h

end Sys2Proof.Machine
end

section
/-! THE FORM OF THE MEMORY (O59): the homes (model file Machine/Memside). -/

namespace Sys2Proof.Machine

theorem idle_storeInv {name : String} :
    Keeps (idle name) StoreInv := keeps_refused

theorem dropReq_storeInv {s : State} {id : Nat} (h : StoreInv s) :
    StoreInv (dropReq s id) := h

theorem completeHost_storeInv {s : State} {r : Req} {error : Bool} {data : BitVec 512} (h : StoreInv s) :
    StoreInv (completeHost s r error data) := h

theorem settleWaiter_storeInv {s : State} {r : Req} (h : StoreInv s) :
    StoreInv (settleWaiter s r) := by
  unfold settleWaiter
  dsimp only
  split
  · split
    · exact storeInv_ite h h
    · exact h
  · exact storeInv_ite h h
  · exact h

theorem walkMiss_storeInv {s : State} {id : Nat} {r : Req} (h : StoreInv s) :
    StoreInv (walkMiss s id r) := by
  unfold walkMiss
  dsimp only
  apply storeInv_ite
  · exact h
  · apply storeInv_ite
    · exact h
    · split
      · exact h
      · split
        · exact h
        · split
          · exact settleWaiter_storeInv (updReq_storeInv (storeInv_with (reportFault_storeInv h rfl)))
          · exact settleWaiter_storeInv (updReq_storeInv (reportFault_storeInv h rfl))

theorem stopCopy_storeInv {s : State} {id code detail va : Nat} (h : StoreInv s) :
    StoreInv (stopCopy s id code detail va) := by
  unfold stopCopy
  dsimp only
  split
  · exact h
  · exact stopLate_storeInv h

theorem stopFetch_storeInv {s : State} {t : Nat} {g : Option Nat} {p code detail va : Nat} (h : StoreInv s) :
    StoreInv (stopFetch s t g p code detail va) := by
  unfold stopFetch
  split
  · exact h
  · exact h

theorem failReq_storeInv {s : State} {id : Nat} {r : Req} {code detail : Nat} (h : StoreInv s) :
    StoreInv (failReq s id r code detail) := by
  unfold failReq
  dsimp only
  split
  · exact failLanes_storeInv h
  · exact stopCopy_storeInv h
  · exact stopFetch_storeInv h
  · exact h
  · exact h
  · exact h

theorem walkDone_storeInv {s : State} {id : Nat} {r : Req} {pa : Nat} {sealed : Bool} (h : StoreInv s) :
    StoreInv (walkDone s id r pa sealed) := by
  unfold walkDone
  dsimp only
  apply storeInv_ite
  · split
    · exact h
    · exact h
  · exact sendReq_storeInv h

theorem Req.xlate_storeInv {r : Req} {s : State} (h : StoreInv s) {o : Xlate × State} (hx : Req.xlate r s = o) :
    StoreInv o.2 := by
  subst hx
  exact translateGot_storeInv h rfl

theorem walk_storeInv {s : State} {id : Nat} {r : Req} (h : StoreInv s) :
    StoreInv (walk s id r) := by
  unfold walk
  dsimp only
  apply storeInv_ite
  · exact storeInv_ite (failReq_storeInv h) (walkDone_storeInv h)
  · apply storeInv_ite
    · exact walkDone_storeInv h
    · split
      · exact walkDone_storeInv (Req.xlate_storeInv h rfl)
      · exact askTableSector_storeInv (Req.xlate_storeInv h rfl)
      · exact walkMiss_storeInv (Req.xlate_storeInv h rfl)
      · apply storeInv_ite
        · exact walkMiss_storeInv (Req.xlate_storeInv h rfl)
        · exact failReq_storeInv (Req.xlate_storeInv h rfl)
      · apply storeInv_ite
        · exact walkMiss_storeInv (Req.xlate_storeInv h rfl)
        · exact failReq_storeInv (Req.xlate_storeInv h rfl)

theorem execWalkComplete_storeInv {id : Nat} {s : State} (h : StoreInv s) :
    Keeps (execWalkComplete id s) StoreInv := by
  unfold execWalkComplete
  split
  · exact idle_storeInv
  · split
    · exact idle_storeInv
    · split
      · split
        · next e₃ => exact keeps_next (walkMiss_storeInv (Req.xlate_storeInv h e₃))
        · exact idle_storeInv
      · exact keeps_next (walk_storeInv h)

theorem serveVault_storeInv {s : State} {r : Req} {off : Nat} (h : StoreInv s) {o : State × BitVec 512 × Nat}
    (hx : serveVault s r off = o) : StoreInv o.1 := by
  subst hx
  unfold serveVault
  generalize (if poisoned s (vaultKey off) then 2 else 0) = bad
  split
  · exact h
  · exact h
  · exact ⟨h.1, foldl_condPut_wf h.2⟩
  · dsimp only
    split
    · exact h
    · exact ⟨h.1, foldl_condPut_wf h.2⟩

theorem serve_storeInv {s : State} {r : Req} (h : StoreInv s) {o : State × BitVec 512 × Nat} (hx : serve s r = o) :
    StoreInv o.1 := by
  subst hx
  unfold serve
  dsimp only
  split
  · exact serveVault_storeInv h rfl
  · split
    · exact h
    · exact storeInv_ite h (mscAllocate_storeInv h)
    · split
      · exact ringDoorbell_storeInv h
      · exact storeInv_ite (writeAtHome_storeInv h) (setPoison_storeInv (writeAtHome_storeInv h))
    · split
      · exact h
      · exact writeAtHome_storeInv h

theorem tookTurn_storeInv {s : State} {r : Req} (h : StoreInv s) :
    StoreInv (tookTurn s r) := storeInv_ite h h

theorem execHomeRequest_storeInv {id : Nat} {s : State} (h : StoreInv s) :
    Keeps (execHomeRequest id s) StoreInv := by
  unfold execHomeRequest
  dsimp only
  split
  · exact idle_storeInv
  · split
    · exact idle_storeInv
    · split
      · exact keeps_next (setOff_storeInv h)
      · split
        · exact idle_storeInv
        · split
          · split
            · exact keeps_next (setOff_storeInv (updReq_storeInv (noteStable_storeInv (serve_storeInv (tookTurn_storeInv h) rfl))))
            · exact keeps_next (setOff_storeInv (updReq_storeInv
                (noteStable_storeInv (serve_storeInv (tookTurn_storeInv (noteLevel_storeInv h)) rfl))))
          · exact keeps_next (setOff_storeInv (updReq_storeInv (noteStable_storeInv (serve_storeInv (tookTurn_storeInv h) rfl))))

theorem mergeVc_storeInv {s : State} {die : Nat} {v : List Nat} (h : StoreInv s) :
    StoreInv (mergeVc s die v) := h

theorem fillReply_storeInv {s : State} {r : Req} (h : StoreInv s) :
    StoreInv (fillReply s r) := by
  unfold fillReply
  dsimp only
  split
  · exact h
  · split
    · exact icacheFill_storeInv (l2Fill_storeInv h)
    · exact l2Fill_storeInv h
    · exact storeInv_ite (l2Fill_storeInv h) (l1Fill_storeInv (l2Fill_storeInv h))

theorem copyReply_storeInv {s : State} {c : Nat} {r : Req} (h : StoreInv s) :
    StoreInv (copyReply s c r) := h

theorem execReplyReceive_storeInv {id : Nat} {s : State} (h : StoreInv s) :
    Keeps (execReplyReceive id s) StoreInv := by
  unfold execReplyReceive
  dsimp only
  split
  · exact idle_storeInv
  · split
    · exact idle_storeInv
    · split
      · exact keeps_next (failReq_storeInv h)
      · split
        · split
          · exact keeps_next (loadReply_storeInv (dropReq_storeInv (fillReply_storeInv h)))
          · exact keeps_next (laneReply_storeInv h)
        · exact keeps_next (copyReply_storeInv (dropReq_storeInv (storeInv_ite (fillReply_storeInv h) h)))
        · exact keeps_next (dropReq_storeInv (storeInv_ite (fillReply_storeInv h) h))
        · exact keeps_next (dropReq_storeInv (storeInv_ite (fillReply_storeInv h) h))
        · exact keeps_next (completeHost_storeInv (dropReq_storeInv (storeInv_ite (fillReply_storeInv h) h)))
        · exact keeps_next (noteTable_storeInv (dropReq_storeInv (storeInv_ite (fillReply_storeInv h) h)))

theorem execResultReturn_storeInv {id : Nat} {s : State} (h : StoreInv s) :
    Keeps (execResultReturn id s) StoreInv := by
  unfold execResultReturn
  dsimp only
  split
  · exact idle_storeInv
  · split
    · exact idle_storeInv
    · exact keeps_next (teamTest_storeInv (endAccess_storeInv (storeInv_ite h (writeDest_storeInv h))))

theorem execStorePerformed_storeInv {id : Nat} {s : State} (h : StoreInv s) :
    Keeps (execStorePerformed id s) StoreInv := by
  unfold execStorePerformed
  split
  · exact idle_storeInv
  · split
    · exact idle_storeInv
    · exact keeps_next (teamTest_storeInv (endAccess_storeInv h))

theorem remapPut_storeInv {s : State} {core : Nat} {e : RemapEntry} (h : StoreInv s) :
    StoreInv (remapPut s core e) := h

theorem dropLane_storeInv {s : State} {id : Nat} {l : LaneAcc} (h : StoreInv s) :
    StoreInv (dropLane s id l) := progress_storeInv h

theorem execRemapFilterWalkComplete_storeInv {id : Nat} {s : State} (h : StoreInv s) :
    Keeps (execRemapFilterWalkComplete id s) StoreInv := by
  unfold execRemapFilterWalkComplete
  dsimp only
  split
  · split
    · exact idle_storeInv
    · split
      · exact idle_storeInv
      · split
        · exact keeps_next (progress_storeInv h)
        · exact keeps_next (askTableSector_storeInv h)
        · exact keeps_next (storeInv_ite (dropLane_storeInv h) (failLanes_storeInv h))
        · split
          · exact keeps_next (dropLane_storeInv h)
          · split
            · exact keeps_next (settleService_storeInv (storeInv_with (reportFault_storeInv h rfl)))
            · exact keeps_next (storeInv_with (reportFault_storeInv h rfl))
  · exact idle_storeInv

theorem execFaultRingRoom_storeInv {s : State} (h : StoreInv s) :
    Keeps (execFaultRingRoom s) StoreInv := by
  unfold execFaultRingRoom
  split
  · exact keeps_next (drainFaults_storeInv h)
  · exact idle_storeInv

theorem retryFault_storeInv {s : State} {f : Nat} {x : FaultRec} (h : StoreInv s) :
    StoreInv (retryFault s f x) := by
  unfold retryFault
  dsimp only
  split
  · exact updTeam_storeInv (foldl_storeInv (fun _ _ hu => settleWaiter_storeInv hu)
      (foldl_storeInv (fun _ _ hu => updReq_storeInv hu) h))
  · exact updTeam_storeInv h

theorem failFault_storeInv {s : State} {f : Nat} {x : FaultRec} (h : StoreInv s) :
    StoreInv (failFault s f x) := by
  unfold failFault
  dsimp only
  apply storeInv_ite
  · exact foldl_storeInv (fun _ _ hu => by
      split
      · exact failLanes_storeInv hu
      · exact hu) (foldl_storeInv (fun _ _ hu => storeInv_ite (failReq_storeInv hu) hu) h)
  · exact foldl_storeInv (fun _ _ hu => storeInv_ite (failReq_storeInv hu) hu) h

theorem execWaitTimeout_storeInv {t : Nat} {g : Option Nat} {p : Nat} {s : State} (h : StoreInv s) :
    Keeps (execWaitTimeout t g p s) StoreInv := by
  unfold execWaitTimeout
  split
  · exact idle_storeInv
  · split
    · exact idle_storeInv
    · split
      · exact keeps_next (startPoll_storeInv h)
      · split
        · exact keeps_next (endWait_storeInv h)
        · exact idle_storeInv

theorem execWaitMemwordPoll_storeInv {t : Nat} {g : Option Nat} {p : Nat} {s : State} (h : StoreInv s) :
    Keeps (execWaitMemwordPoll t g p s) StoreInv := by
  unfold execWaitMemwordPoll
  split
  · exact idle_storeInv
  · split
    · exact keeps_next (startPoll_storeInv h)
    · exact idle_storeInv

theorem execRowPoolEmpty_storeInv {t g p : Nat} {s : State} (h : StoreInv s) :
    Keeps (execRowPoolEmpty t g p s) StoreInv := by
  unfold execRowPoolEmpty
  split
  · split
    · exact keeps_next h
    · exact idle_storeInv
  · exact idle_storeInv

theorem execEqpHoldTimeout_storeInv {t g : Nat} {s : State} (h : StoreInv s) :
    Keeps (execEqpHoldTimeout t g s) StoreInv := by
  unfold execEqpHoldTimeout
  dsimp only
  split
  · exact idle_storeInv
  · split
    · split
      · exact keeps_next (passEqp_storeInv h)
      · exact idle_storeInv
    · exact idle_storeInv

end Sys2Proof.Machine
end

section
/-! THE FORM OF THE MEMORY (O59): the copies (model file Machine/Copies). -/

namespace Sys2Proof.Machine

theorem performBefore_storeInv {s : State} {die team key : Nat} (h : StoreInv s) :
    StoreInv (performBefore s die team key) := foldl_storeInv (fun _ _ hu => performLanded_storeInv hu) h

theorem askSector_storeInv {s : State} {id : Nat} {c : Copy} {ctx field w : Nat} (h : StoreInv s) :
    StoreInv (askSector s id c ctx field w) := by
  unfold askSector
  dsimp only
  apply storeInv_ite
  · exact h
  · apply storeInv_ite
    · exact h
    · apply storeInv_ite
      · exact storeInv_with (performBefore_storeInv h)
      · split
        · exact newReq_storeInv (l2Clean_storeInv (performBefore_storeInv h)) rfl
        · exact newReq_storeInv (performBefore_storeInv h) rfl

theorem askTable_storeInv {s : State} {id : Nat} {c : Copy} {ctx field va : Nat} (h : StoreInv s) :
    StoreInv (askTable s id c ctx field va) := storeInv_ite h (newReq_storeInv h rfl)

theorem askPage_storeInv {s : State} {id : Nat} {c : Copy} {ctx field w : Nat} (h : StoreInv s) :
    StoreInv (askPage s id c ctx field w) := by
  unfold askPage
  dsimp only
  split
  · exact translateGot_storeInv h rfl
  · exact storeInv_ite (translateGot_storeInv h rfl) (newReq_storeInv (translateGot_storeInv h rfl) rfl)

theorem landGlobal_storeInv {s : State} {id : Nat} {c : Copy} {ctx field : Nat} {resolve : Nat → Nat} {ws : List (Nat × Byte)}
    (h : StoreInv s) :
    StoreInv (landGlobal s id c ctx field resolve ws) := foldl_storeInv (fun _ _ hu => State.setDie_storeInv hu) h

theorem countSector_storeInv {s : State} {c : Copy} {t : Nat} (h : StoreInv s) :
    StoreInv (countSector s c t) := by
  unfold countSector
  dsimp only
  apply storeInv_ite
  · exact storeInv_ite (slotSector_storeInv h rfl) (stopLate_storeInv (slotSector_storeInv h rfl))
  · exact storeInv_ite h (storeInv_ite (stopLate_storeInv (tbApply_storeInv h rfl)) (tbApply_storeInv h rfl))

theorem finishCopy_storeInv {s : State} {id : Nat} (h : StoreInv s) :
    StoreInv (finishCopy s id) := by
  unfold finishCopy
  dsimp only
  split
  · exact h
  · apply storeInv_ite
    · split
      · exact teamTest_storeInv h
      · exact teamTest_storeInv h
    · exact h

theorem noteLanded_storeInv {s : State} {id l i : Nat} (h : StoreInv s) :
    StoreInv (noteLanded s id l i) := h

theorem landSector_storeInv {s : State} {id : Nat} {c : Copy} {ctx field l i : Nat} {land : Landing} {resolve : Nat → Nat}
    (h : StoreInv s) :
    StoreInv (landSector s id c ctx field l i land resolve) := by
  unfold landSector
  dsimp only
  split
  · exact finishCopy_storeInv h
  · exact finishCopy_storeInv (noteLanded_storeInv (countSector_storeInv (storeInv_ite (landGlobal_storeInv h) h)))

theorem execSectorLand_storeInv {id i : Nat} {s : State} (h : StoreInv s) :
    Keeps (execSectorLand id i s) StoreInv := by
  unfold execSectorLand
  dsimp only
  split
  · split
    · exact idle_storeInv
    · split
      · split
        · exact idle_storeInv
        · split
          · exact keeps_next (stopCopy_storeInv h)
          · split
            · exact idle_storeInv
            · exact keeps_next (askTable_storeInv h)
          · split
            · exact idle_storeInv
            · exact keeps_next (askTableSector_storeInv h)
          · split
            · split
              · exact idle_storeInv
              · exact keeps_next (foldl_storeInv (fun _ _ hu => askPage_storeInv hu)
                  (foldl_storeInv (fun _ _ hu => askSector_storeInv hu) h))
            · split
              · exact keeps_next (landSector_storeInv
                  (foldl_storeInv (fun _ _ hu => askPage_storeInv hu) (foldl_storeInv (fun _ _ hu => askSector_storeInv hu) h)))
              · exact keeps_next (foldl_storeInv (fun _ _ hu => askPage_storeInv hu)
                  (foldl_storeInv (fun _ _ hu => askSector_storeInv hu) h))
      · split
        · exact idle_storeInv
        · split
          · exact keeps_next (stopCopy_storeInv h)
          · split
            · exact idle_storeInv
            · exact keeps_next (askTable_storeInv h)
          · split
            · exact idle_storeInv
            · exact keeps_next (askTableSector_storeInv h)
          · split
            · split
              · exact idle_storeInv
              · exact keeps_next (foldl_storeInv (fun _ _ hu => askPage_storeInv hu)
                  (foldl_storeInv (fun _ _ hu => askSector_storeInv hu) h))
            · split
              · exact keeps_next (landSector_storeInv
                  (foldl_storeInv (fun _ _ hu => askPage_storeInv hu) (foldl_storeInv (fun _ _ hu => askSector_storeInv hu) h)))
              · exact keeps_next (foldl_storeInv (fun _ _ hu => askPage_storeInv hu)
                  (foldl_storeInv (fun _ _ hu => askSector_storeInv hu) h))
  · exact idle_storeInv

theorem execL2WriteQueuePerform_storeInv {die c i : Nat} {s : State} (h : StoreInv s) :
    Keeps (execL2WriteQueuePerform die c i s) StoreInv := by
  unfold execL2WriteQueuePerform
  dsimp only
  split
  · exact idle_storeInv
  · split
    · exact idle_storeInv
    · exact keeps_next (performLanded_storeInv h)

theorem updQueue_storeInv {s : State} {key : Nat} {f : WorkQ → WorkQ} (h : StoreInv s) :
    StoreInv (updQueue s key f) := h

theorem receive_storeInv {s : State} {m : QueueMsg} {ws : List Word} {vc : List Nat} (h : StoreInv s) :
    StoreInv (receive s m ws vc) := by
  unfold receive
  dsimp only
  split
  · apply storeInv_ite
    · exact foldl_storeInv (fun _ _ hu => writeAgent_storeInv hu) h
    · split
      · exact acquire_storeInv (foldl_storeInv (fun _ _ hu => writeAgent_storeInv hu) h)
      · exact acquire_storeInv (mergeVc_storeInv (foldl_storeInv (fun _ _ hu => writeAgent_storeInv hu) h))
  · exact foldl_storeInv (fun _ _ hu => writeAgent_storeInv hu) h

theorem takeAnswer_storeInv {s : State} {id : Nat} {m : QueueMsg} {ws : List Word} {vc : List Nat} (h : StoreInv s) :
    StoreInv (takeAnswer s id m ws vc) := by
  unfold takeAnswer
  dsimp only
  split
  · exact retireAgent_storeInv h
  · exact retireAgent_storeInv (writeAgent_storeInv h)
  · exact retireAgent_storeInv (receive_storeInv h)
  · exact retireAgent_storeInv (storeInv_ite (writeAgent_storeInv h) (writeAgent_storeInv (receive_storeInv h)))

theorem answer_storeInv {s : State} {id : Nat} {m : QueueMsg} {ws : List Word} {vc : List Nat} (h : StoreInv s) :
    StoreInv (answer s id m ws vc) := storeInv_ite (takeAnswer_storeInv h) (setOff_storeInv h)

theorem giveEntry_storeInv {s : State} {id : Nat} {m : QueueMsg} {e : QEntry} (h : StoreInv s) :
    StoreInv (giveEntry s id m e) := answer_storeInv h

theorem insertEntry_storeInv {s : State} {key : Nat} {e : QEntry} (h : StoreInv s) :
    StoreInv (insertEntry s key e) := by
  unfold insertEntry
  dsimp only
  split
  · exact h
  · split
    · exact h
    · split
      · exact giveEntry_storeInv h
      · exact h

theorem servePushers_storeInv {key n : Nat} {s : State} (h : StoreInv s) : StoreInv (servePushers key n s) := by
  induction n generalizing s with
  | zero => exact h
  | succ n ih =>
    unfold servePushers
    split
    · exact h
    · split
      · exact h
      · split
        · exact h
        · dsimp only
          split
          · exact ih (answer_storeInv (insertEntry_storeInv h))
          · exact ih h

theorem takeEntry_storeInv {s : State} {key : Nat} {q : WorkQ} {id : Nat} {m : QueueMsg} {e : QEntry} {rest : List QEntry}
    (h : StoreInv s) :
    StoreInv (takeEntry s key q id m e rest) := servePushers_storeInv (giveEntry_storeInv h)

theorem execQueueRequestAtHome_storeInv {id : Nat} {s : State} (h : StoreInv s) :
    Keeps (execQueueRequestAtHome id s) StoreInv := by
  unfold execQueueRequestAtHome
  dsimp only
  split
  · exact idle_storeInv
  · split
    · exact idle_storeInv
    · split
      · exact idle_storeInv
      · split
        · exact keeps_next (storeInv_ite (answer_storeInv (insertEntry_storeInv h)) h)
        · exact keeps_next (storeInv_ite (answer_storeInv (insertEntry_storeInv h)) (answer_storeInv h))
        · split
          · exact keeps_next (takeEntry_storeInv h)
          · exact keeps_next h
        · split
          · exact keeps_next (takeEntry_storeInv h)
          · exact keeps_next (answer_storeInv h)

end Sys2Proof.Machine
end

section
/-! THE FORM OF THE MEMORY (O59): the control words (model file Machine/Control). -/

namespace Sys2Proof.Machine

theorem branch_storeInv {w : Bool} {o : BitVec 20} {regs : List Nat} {s : State} {taken : (Nat → Word) → Bool} (h : StoreInv s) :
    Keeps (branch w o regs s taken) StoreInv := runX_storeInv h (fun _ => by
    split
    · exact h
    · exact h) (fun _ => by
    split
    · exact trivial
    · split
      · exact h
      · exact h)

theorem execBr_storeInv {w : Bool} {o : BitVec 20} {s : State} (h : StoreInv s) :
    Keeps (execBr w o s) StoreInv := branch_storeInv h

theorem execBrZ_storeInv {w : Bool} {x : BitVec 3} {o : BitVec 20} {s : State} (h : StoreInv s) :
    Keeps (execBrZ w x o s) StoreInv := branch_storeInv h

theorem execBrNz_storeInv {w : Bool} {x : BitVec 3} {o : BitVec 20} {s : State} (h : StoreInv s) :
    Keeps (execBrNz w x o s) StoreInv := branch_storeInv h

theorem execBrAny_storeInv {w : Bool} {p : BitVec 3} {o : BitVec 20} {s : State} (h : StoreInv s) :
    Keeps (execBrAny w p o s) StoreInv := runG_storeInv h (fun _ => by
    split
    · exact h
    · exact h)

theorem vectorBranch_storeInv {w neg : Bool} {p : BitVec 3} {o : BitVec 20} {s : State} (h : StoreInv s) :
    Keeps (vectorBranch w neg p o s) StoreInv := runG_storeInv h (fun _ => by
    dsimp only
    split
    · split
      · exact h
      · split
        · exact h
        · split
          · exact trivial
          · split
            · exact trivial
            · exact h
    · split
      · exact h
      · split
        · exact h
        · split
          · exact trivial
          · split
            · exact trivial
            · exact h)

theorem execBrv_storeInv {w : Bool} {p : BitVec 3} {o : BitVec 20} {s : State} (h : StoreInv s) :
    Keeps (execBrv w p o s) StoreInv := vectorBranch_storeInv h

theorem execBrvN_storeInv {w : Bool} {p : BitVec 3} {o : BitVec 20} {s : State} (h : StoreInv s) :
    Keeps (execBrvN w p o s) StoreInv := vectorBranch_storeInv h

theorem Caller.setStack_storeInv {c : Caller} {s : State} {k : List Dword} (h : StoreInv s) :
    StoreInv (Caller.setStack c s k) := by
  unfold Caller.setStack
  split
  · exact h
  · exact h

theorem callWord_storeInv {w : Bool} {s : State} {regs : List Nat} {f : Caller → Res} (hs : StoreInv s) (hf : ∀ x, (f x).storeInv) :
    Keeps (callWord w s regs f) StoreInv := runX_storeInv hs (fun _ => hf _) (fun _ => by
    split
    · exact trivial
    · exact hf _)

theorem Caller.go_storeInv {c : Caller} {s : State} {push : Bool} {target : Dword} (h : StoreInv s) :
    (Caller.go c s push target).storeInv := storeInv_ite (Caller.setStack_storeInv h) h

theorem execCall_storeInv {w : Bool} {o : BitVec 20} {s : State} (h : StoreInv s) :
    Keeps (execCall w o s) StoreInv := callWord_storeInv h (fun _ => by
    split
    · exact trivial
    · exact Caller.go_storeInv h)

theorem execRet_storeInv {w : Bool} {s : State} (h : StoreInv s) :
    Keeps (execRet w s) StoreInv := callWord_storeInv h (fun _ => by
    split
    · exact trivial
    · exact Caller.setStack_storeInv h)

theorem tableJump_storeInv {w push : Bool} {a : BitVec 6} {s : State} (h : StoreInv s) :
    Keeps (tableJump w push a s) StoreInv := callWord_storeInv h (fun x => by
    dsimp only
    split
    · exact trivial
    · split
      · split
        · exact trivial
        · split
          · exact trivial
          · next e₃ => exact fetch_storeInv h e₃
          · next e₃ =>
              split
              · exact trivial
              · exact Caller.go_storeInv (fetch_storeInv h e₃)
      · split
        · exact trivial
        · split
          · exact trivial
          · next e₃ => exact fetch_storeInv h e₃
          · next e₃ =>
              split
              · exact trivial
              · exact Caller.go_storeInv (fetch_storeInv h e₃))

theorem execJt_storeInv {w : Bool} {a : BitVec 6} {s : State} (h : StoreInv s) :
    Keeps (execJt w a s) StoreInv := tableJump_storeInv h

theorem execJtCall_storeInv {w : Bool} {a : BitVec 6} {s : State} (h : StoreInv s) :
    Keeps (execJtCall w a s) StoreInv := tableJump_storeInv h

theorem registerJump_storeInv {w push : Bool} {a : BitVec 6} {s : State} (h : StoreInv s) :
    Keeps (registerJump w push a s) StoreInv := callWord_storeInv h (fun _ => by
    dsimp only
    split
    · exact trivial
    · split
      · exact trivial
      · split
        · exact trivial
        · exact Caller.go_storeInv h)

theorem execJr_storeInv {w : Bool} {a : BitVec 6} {s : State} (h : StoreInv s) :
    Keeps (execJr w a s) StoreInv := registerJump_storeInv h

theorem execJrCall_storeInv {w : Bool} {a : BitVec 6} {s : State} (h : StoreInv s) :
    Keeps (execJrCall w a s) StoreInv := registerJump_storeInv h

theorem execRejoin_storeInv {w : Bool} {o : BitVec 20} {s : State} (h : StoreInv s) :
    Keeps (execRejoin w o s) StoreInv := runG_storeInv h (fun _ => by
    dsimp only
    split
    · exact h
    · exact markSwitch_storeInv (closeRecord_storeInv (updPath_storeInv (landAll_storeInv h))))

theorem execEqp_storeInv {w : Bool} {n : BitVec 16} {s : State} (h : StoreInv s) :
    Keeps (execEqp w n s) StoreInv := runG_storeInv h (fun _ => by
    split
    · exact trivial
    · split
      · exact h
      · split
        · exact notePoint_storeInv (retire_storeInv h)
        · exact eqpTest_storeInv (markStands_storeInv h))

theorem pushWord_storeInv {w neg : Bool} {a : BitVec 6} {s : State} (h : StoreInv s) :
    Keeps (pushWord w neg a s) StoreInv := runG_storeInv h (fun _ => by
    dsimp only
    split
    · exact trivial
    · split
      · exact trivial
      · exact h)

theorem execPpush_storeInv {w : Bool} {a : BitVec 6} {s : State} (h : StoreInv s) :
    Keeps (execPpush w a s) StoreInv := pushWord_storeInv h

theorem execPpushN_storeInv {w : Bool} {a : BitVec 6} {s : State} (h : StoreInv s) :
    Keeps (execPpushN w a s) StoreInv := pushWord_storeInv h

theorem execPinv_storeInv {w : Bool} {s : State} (h : StoreInv s) :
    Keeps (execPinv w s) StoreInv := runG_storeInv h (fun _ => by
    split
    · exact trivial
    · exact h)

theorem execPpop_storeInv {w : Bool} {s : State} (h : StoreInv s) :
    Keeps (execPpop w s) StoreInv := runG_storeInv h (fun _ => by
    split
    · exact trivial
    · exact h)

theorem predWord_storeInv {w : Bool} {ps : List (BitVec 6)} {s : State} {f : Env → Res} (hs : StoreInv s)
    (hf : ∀ x, (f x).storeInv) :
    Keeps (predWord w ps s f) StoreInv := runG_storeInv hs (fun _ => by
    split
    · exact trivial
    · exact hf _)

theorem logic_storeInv {w : Bool} {d a b : BitVec 6} {s : State} {f : LaneMask → LaneMask → LaneMask} (h : StoreInv s) :
    Keeps (logic w d a b s f) StoreInv := predWord_storeInv h (fun _ => h)

theorem execPand_storeInv {w : Bool} {d a b : BitVec 6} {s : State} (h : StoreInv s) :
    Keeps (execPand w d a b s) StoreInv := logic_storeInv h

theorem execPor_storeInv {w : Bool} {d a b : BitVec 6} {s : State} (h : StoreInv s) :
    Keeps (execPor w d a b s) StoreInv := logic_storeInv h

theorem execPxor_storeInv {w : Bool} {d a b : BitVec 6} {s : State} (h : StoreInv s) :
    Keeps (execPxor w d a b s) StoreInv := logic_storeInv h

theorem execPandn_storeInv {w : Bool} {d a b : BitVec 6} {s : State} (h : StoreInv s) :
    Keeps (execPandn w d a b s) StoreInv := logic_storeInv h

theorem execPnot_storeInv {w : Bool} {d a : BitVec 6} {s : State} (h : StoreInv s) :
    Keeps (execPnot w d a s) StoreInv := predWord_storeInv h (fun _ => h)

theorem execPelect_storeInv {w : Bool} {d : BitVec 6} {s : State} (h : StoreInv s) :
    Keeps (execPelect w d s) StoreInv := predWord_storeInv h (fun _ => h)

theorem execPld_storeInv {w : Bool} {d a : BitVec 6} {s : State} (h : StoreInv s) :
    Keeps (execPld w d a s) StoreInv := predWord_storeInv h (fun _ => by
    dsimp only
    split
    · exact trivial
    · exact h)

theorem execPst_storeInv {w : Bool} {d a : BitVec 6} {s : State} (h : StoreInv s) :
    Keeps (execPst w d a s) StoreInv := predWord_storeInv h (fun _ => by
    dsimp only
    split
    · exact trivial
    · exact foldl_storeInv (fun _ _ hu => writeS_storeInv hu) h)

theorem execPcnt_storeInv {w : Bool} {d a : BitVec 6} {s : State} (h : StoreInv s) :
    Keeps (execPcnt w d a s) StoreInv := predWord_storeInv h (fun _ => Env.setS_storeInv h)

theorem execBarSync_storeInv {w : Bool} {i : BitVec 6} {s : State} (h : StoreInv s) :
    Keeps (execBarSync w i s) StoreInv := runG_storeInv h (fun _ => by
    split
    · exact trivial
    · split
      · exact h
      · exact barTest_storeInv (markStands_storeInv (standAt_storeInv (landAll_storeInv h))))

theorem execWait_storeInv {w all : Bool} {n : BitVec 2} {d a b : BitVec 6} {s : State} (h : StoreInv s) :
    Keeps (execWait w all n d a b s) StoreInv := runX_storeInv h (fun _ => by
    split
    · exact trivial
    · exact waitWord_storeInv h) (fun _ => by
    split
    · exact trivial
    · exact waitWord_storeInv h)

theorem execWaitcnt_storeInv {w : Bool} {sel : BitVec 4} {lim : BitVec 6} {s : State} (h : StoreInv s) :
    Keeps (execWaitcnt w sel lim s) StoreInv := runG_storeInv h (fun _ => by
    split
    · exact h
    · exact h)

theorem execExit_storeInv {w : Bool} {s : State} (h : StoreInv s) :
    Keeps (execExit w s) StoreInv := runX_storeInv h (fun _ => by
    split
    · exact trivial
    · exact markSwitch_storeInv (endPath_storeInv h)) (fun _ => teamTest_storeInv h)

theorem execTrap_storeInv {w : Bool} {n : BitVec 6} {s : State} (h : StoreInv s) :
    Keeps (execTrap w n s) StoreInv := runX_storeInv h (fun _ => trivial) (fun _ => trivial)

theorem pathStop_storeInv {s : State} {t g p n : Nat} (h : StoreInv s) :
    StoreInv (pathStop s t g p n) := h

theorem execBrk_storeInv {w : Bool} {n : BitVec 6} {s : State} (h : StoreInv s) :
    Keeps (execBrk w n s) StoreInv := runG_storeInv h (fun _ => by
    split
    · exact h
    · exact h)

theorem execNop_storeInv {w : Bool} {s : State} (h : StoreInv s) :
    Keeps (execNop w s) StoreInv := runG_storeInv h (fun _ => h)

theorem execRdsr_storeInv {w : Bool} {d a : BitVec 6} {s : State} (h : StoreInv s) :
    Keeps (execRdsr w d a s) StoreInv := runG_storeInv h (fun _ => by
    split
    · exact Env.setS_storeInv h
    · exact trivial)

theorem execRdsrPair_storeInv {w : Bool} {d a : BitVec 6} {s : State} (h : StoreInv s) :
    Keeps (execRdsrPair w d a s) StoreInv := runG_storeInv h (fun _ => by
    split
    · exact Env.setPair_storeInv h
    · exact Env.setPair_storeInv h
    · exact trivial)

theorem execRdsrVector_storeInv {w : Bool} {d : BitVec 7} {a : BitVec 6} {s : State} (h : StoreInv s) :
    Keeps (execRdsrVector w d a s) StoreInv := runG_storeInv h (fun _ => by
    dsimp only
    split
    · exact vector_storeInv h
    · split
      · exact vector_storeInv h
      · exact trivial)

theorem execWrsr_storeInv {w : Bool} {d a : BitVec 6} {s : State} (h : StoreInv s) :
    Keeps (execWrsr w d a s) StoreInv := runG_storeInv h (fun _ => by
    split
    · exact h
    · exact trivial)

theorem execRdctx_storeInv {w : Bool} {d a : BitVec 6} {s : State} (h : StoreInv s) :
    Keeps (execRdctx w d a s) StoreInv := runG_storeInv h (fun _ => by
    split
    · exact Env.setPair_storeInv h
    · exact trivial)

theorem startSeq_storeInv {s : State} {e : Env} {flume : Bool} {pc : Dword} (h : StoreInv s) :
    StoreInv (startSeq s e flume pc) := storeInv_ite h h

theorem execEfork_storeInv {w : Bool} {a b : BitVec 6} {s : State} (h : StoreInv s) :
    Keeps (execEfork w a b s) StoreInv := by
  unfold execEfork
  dsimp only
  exact runG_storeInv h (fun _ => by
    split
    · exact trivial
    · split
      · exact trivial
      · split
        · exact h
        · exact startSeq_storeInv (startSeq_storeInv (storeInv_ite h h)))

theorem execErdv_storeInv {w : Bool} {s : State} (h : StoreInv s) :
    Keeps (execErdv w s) StoreInv := runG_storeInv h (fun _ => by
    dsimp only
    split
    · exact h
    · exact updTeam_storeInv (orFlags_storeInv h))

theorem execHintSucc_storeInv {w : Bool} {s : State} (h : StoreInv s) :
    Keeps (execHintSucc w s) StoreInv := runG_storeInv h (fun _ => h)

theorem execWaitPred_storeInv {w : Bool} {d : BitVec 6} {s : State} (h : StoreInv s) :
    Keeps (execWaitPred w d s) StoreInv := runG_storeInv h (fun _ => by
    dsimp only
    split
    · exact Env.setS_storeInv (acquire_storeInv h)
    · split
      · exact Env.setS_storeInv (acquire_storeInv h)
      · split
        · exact Env.setS_storeInv (acquire_storeInv h)
        · exact h)

theorem schedulerTarget_storeInv {s : State} {t k : Nat} (h : StoreInv s) :
    Keeps (schedulerTarget s t k) StoreInv := by
  unfold schedulerTarget
  split
  · split
    · exact keeps_refused
    · exact keeps_next (setTarget_storeInv h)
  · exact keeps_refused

theorem execMigrReq_storeInv {w : Bool} {k : BitVec 6} {s : State} (h : StoreInv s) :
    Keeps (execMigrReq w k s) StoreInv := runG_storeInv h (fun _ => by
    split
    · exact trivial
    · exact setTarget_storeInv h)

theorem emret_storeInv {w : Bool} {s : State} {f : Env → Shadow → Res} (hs : StoreInv s) (hf : ∀ x0 x1, (f x0 x1).storeInv) :
    Keeps (emret w s f) StoreInv := runG_storeInv hs (fun _ => by
    split
    · exact trivial
    · split
      · exact trivial
      · exact hf _ _)

theorem execEmretTo_storeInv {w : Bool} {k : BitVec 6} {s : State} (h : StoreInv s) :
    Keeps (execEmretTo w k s) StoreInv := emret_storeInv h (fun _ _ => h)

theorem execEmretSkip_storeInv {w : Bool} {k : BitVec 6} {s : State} (h : StoreInv s) :
    Keeps (execEmretSkip w k s) StoreInv := emret_storeInv h (fun x y => by
    dsimp only
    split
    · exact trivial
    · next e => exact fetch_storeInv h e
    · next e =>
        split
        · exact leaveEmulation_storeInv (fetch_storeInv h e)
        · split
          · exact trivial
          · split
            · exact trivial
            · next e₃ => exact fetch_storeInv (fetch_storeInv h e) e₃
            · next e₃ => exact updPath_storeInv (take_storeInv (leaveEmulation_storeInv (fetch_storeInv (fetch_storeInv h e) e₃))))

end Sys2Proof.Machine
end

section
/-! THE FORM OF THE MEMORY (O59): the Flume (model file Machine/Flume). -/

namespace Sys2Proof.Machine

theorem handleCheck_storeInv {a : Agt} {hs : List Nat} {r : Res} (hx : handleCheck a hs = some r) : r.storeInv :=
  check_storeInv (by trivial) (check_storeInv (by trivial) none_storeInv) _ hx

theorem issueOp_storeInv {s : State} {a : Agt} {o : FlumeOp} (h : StoreInv s) :
    (issueOp s a o).storeInv := by
  unfold issueOp
  dsimp only
  split
  · split
    · exact h
    · split
      · split
        · exact h
        · exact h
      · split
        · exact h
        · exact h
  · split
    · exact h
    · split
      · exact h
      · exact h

theorem standing_storeInv {s : State} {a : Agt} {f : Res} (hs : StoreInv s) (hf : f.storeInv) :
    (standing s a f).storeInv := by
  unfold standing
  split
  · split
    · exact hs
    · exact hs
  · exact hf

theorem runF_storeInv {place : Place} {w : Bool} {s : State} {block : Nat × Nat} {singles : List Nat} {f : Agt → Res}
    (hs : StoreInv s) (hf : ∀ x, (f x).storeInv) :
    Keeps (runF place w s block singles f) StoreInv := runX_storeInv hs (fun _ => by
    split
    · exact trivial
    · exact hf _) (fun _ => by
    split
    · exact trivial
    · exact hf _)

theorem execVmma_storeInv {w : Bool} {f : BitVec 4} {h' va vb : BitVec 7} {s : State} (h : StoreInv s) :
    Keeps (execVmma w f h' va vb s) StoreInv :=
  runG_storeInv h fun _ => standing_storeInv h (Res.ite_storeInv trivial (Res.ite_storeInv trivial
    (firstOf_cons_storeInv (fun _ => handleCheck_storeInv) (firstOf_nil_storeInv (Res.ite_storeInv trivial (issueOp_storeInv h))))))

theorem tileMultiply_storeInv {w tern : Bool} {h' : BitVec 7} {sa : BitVec 6} {z : Bool} {s : State} (h : StoreInv s) :
    Keeps (tileMultiply w tern h' sa z s) StoreInv :=
  runF_storeInv h fun _ => firstOf_cons_storeInv (fun _ => handleCheck_storeInv)
    (firstOf_cons_storeInv (check_storeInv (by trivial) none_storeInv) (firstOf_cons_storeInv (by
      intro r hx
      split at hx
      · cases hx
      · cases hx
        trivial)
    (firstOf_cons_storeInv (fun _ => scrCheck_storeInv) (firstOf_cons_storeInv (fun _ => scrCheck_storeInv)
      (firstOf_cons_storeInv (checkIf_storeInv fun _ => scrCheck_storeInv)
        (firstOf_cons_storeInv (checkIf_storeInv fun _ => scrCheck_storeInv) (firstOf_nil_storeInv (issueOp_storeInv h))))))))

theorem execFmm_storeInv {w : Bool} {h' : BitVec 7} {a : BitVec 6} {z : Bool} {s : State} (h : StoreInv s) :
    Keeps (execFmm w h' a z s) StoreInv := tileMultiply_storeInv h

theorem execFmmt_storeInv {w : Bool} {h' : BitVec 7} {a : BitVec 6} {z : Bool} {s : State} (h : StoreInv s) :
    Keeps (execFmmt w h' a z s) StoreInv := tileMultiply_storeInv h

theorem iterWord_storeInv {w : Bool} {kind : FlumeKind} {blocks limit : Nat} {h' : BitVec 7} {sa : BitVec 6} {sd : Nat} {s : State}
    (h : StoreInv s) : Keeps (iterWord w kind blocks limit h' sa sd s) StoreInv :=
  runF_storeInv h fun _ => Res.ite_storeInv trivial (Res.ite_storeInv trivial (Res.ite_storeInv trivial
    (firstOf_cons_storeInv (check_storeInv (by trivial) none_storeInv) (firstOf_nil_storeInv (issueOp_storeInv h)))))

theorem execFpoly_storeInv {w : Bool} {h' : BitVec 7} {a : BitVec 6} {s : State} (h : StoreInv s) :
    Keeps (execFpoly w h' a s) StoreInv := iterWord_storeInv h

theorem execFiter_storeInv {w : Bool} {h' : BitVec 7} {a d : BitVec 6} {s : State} (h : StoreInv s) :
    Keeps (execFiter w h' a d s) StoreInv := iterWord_storeInv h

theorem maskWord'_storeInv {w : Bool} {kind : FlumeKind} {h' : BitVec 7} {sa : BitVec 6} {s : State} (h : StoreInv s) :
    Keeps (maskWord' w kind h' sa s) StoreInv :=
  runF_storeInv h fun _ => firstOf_cons_storeInv (fun _ => handleCheck_storeInv)
    (firstOf_cons_storeInv (check_storeInv (by trivial) none_storeInv)
      (firstOf_cons_storeInv (fun _ => scrCheck_storeInv) (firstOf_nil_storeInv (issueOp_storeInv h))))

theorem execFtmask_storeInv {w : Bool} {h' : BitVec 7} {a : BitVec 6} {s : State} (h : StoreInv s) :
    Keeps (execFtmask w h' a s) StoreInv := maskWord'_storeInv h

theorem execFtmaskAnc_storeInv {w : Bool} {h' : BitVec 7} {a : BitVec 6} {s : State} (h : StoreInv s) :
    Keeps (execFtmaskAnc w h' a s) StoreInv := maskWord'_storeInv h

theorem transfer_storeInv {w : Bool} {kind : FlumeKind} {size : Nat} {h' : BitVec 7} {sa : BitVec 6} {s : State} (h : StoreInv s) :
    Keeps (transfer w kind size h' sa s) StoreInv :=
  runF_storeInv h fun _ => standing_storeInv h (firstOf_cons_storeInv (fun _ => handleCheck_storeInv)
    (firstOf_cons_storeInv (fun _ => scrCheck_storeInv) (firstOf_nil_storeInv (issueOp_storeInv h))))

theorem execFaccLd_storeInv {w : Bool} {h' : BitVec 7} {a : BitVec 6} {s : State} (h : StoreInv s) :
    Keeps (execFaccLd w h' a s) StoreInv := transfer_storeInv h

theorem execFaccStF32_storeInv {w : Bool} {h' : BitVec 7} {a : BitVec 6} {s : State} (h : StoreInv s) :
    Keeps (execFaccStF32 w h' a s) StoreInv := transfer_storeInv h

theorem execFaccStBf16_storeInv {w : Bool} {h' : BitVec 7} {a : BitVec 6} {s : State} (h : StoreInv s) :
    Keeps (execFaccStBf16 w h' a s) StoreInv := transfer_storeInv h

theorem execFaccStF16_storeInv {w : Bool} {h' : BitVec 7} {a : BitVec 6} {s : State} (h : StoreInv s) :
    Keeps (execFaccStF16 w h' a s) StoreInv := transfer_storeInv h

theorem execFaccZero_storeInv {w : Bool} {h' : BitVec 7} {s : State} (h : StoreInv s) : Keeps (execFaccZero w h' s) StoreInv :=
  runF_storeInv h fun _ => firstOf_cons_storeInv (fun _ => handleCheck_storeInv) (firstOf_nil_storeInv (issueOp_storeInv h))

theorem execFaccRd_storeInv {w : Bool} {h' d : BitVec 7} {cg : BitVec 2} {s : State} (h : StoreInv s) :
    Keeps (execFaccRd w h' d cg s) StoreInv :=
  runG_storeInv h fun _ => Res.ite_storeInv trivial (firstOf_cons_storeInv (fun _ => handleCheck_storeInv)
    (firstOf_nil_storeInv (Res.ite_storeInv (needRows_storeInv h) (Res.ite_storeInv h (issueOp_storeInv h)))))

theorem coefWord_storeInv {w : Bool} {kind : FlumeKind} {n : Nat} {sa : BitVec 6} {align size : Nat} {s : State} (h : StoreInv s) :
    Keeps (coefWord w kind n sa align size s) StoreInv :=
  runF_storeInv h fun _ => firstOf_cons_storeInv (by
      intro r hx
      split at hx
      · cases hx
      · exact scrCheck_storeInv hx)
    (firstOf_nil_storeInv (Res.ite_storeInv h (issueOp_storeInv h)))

theorem execFcset_storeInv {w : Bool} {n : BitVec 4} {a : BitVec 6} {s : State} (h : StoreInv s) :
    Keeps (execFcset w n a s) StoreInv := coefWord_storeInv h

theorem execFcld_storeInv {w : Bool} {a : BitVec 6} {s : State} (h : StoreInv s) :
    Keeps (execFcld w a s) StoreInv := coefWord_storeInv h

theorem execFcget_storeInv {w : Bool} {n : BitVec 4} {d : BitVec 6} {s : State} (h : StoreInv s) :
    Keeps (execFcget w n d s) StoreInv := runF_storeInv h (fun _ => by
    dsimp only
    split
    · split
      · exact Agt.setS_storeInv h
      · exact h
    · split
      · exact Agt.setS_storeInv h
      · exact h)

theorem execFslotTake_storeInv {w : Bool} {x i : BitVec 6} {s : State} (h : StoreInv s) :
    Keeps (execFslotTake w x i s) StoreInv := runF_storeInv h (fun _ => by
    dsimp only
    split
    · exact withRing_storeInv h
    · exact withRing_storeInv (takeSlotWord_storeInv h))

theorem execFslotRelease_storeInv {w : Bool} {x i : BitVec 6} {s : State} (h : StoreInv s) :
    Keeps (execFslotRelease w x i s) StoreInv := runF_storeInv h (fun _ => releaseSlotWord_storeInv h)

theorem execFtbarrive_storeInv {w : Bool} {x : BitVec 6} {k : BitVec 12} {s : State} (h : StoreInv s) :
    Keeps (execFtbarrive w x k s) StoreInv := runF_storeInv h (fun _ => by
    split
    · exact trivial
    · exact arrive_storeInv h)

theorem updFlume_storeInv {s : State} {t : Nat} {f : TeamFlume → TeamFlume} (h : StoreInv s) :
    StoreInv (updFlume s t f) := h

theorem dropOp_storeInv {s : State} {t : Nat} {o : FlumeOp} (h : StoreInv s) :
    StoreInv (dropOp s t o) := by
  unfold dropOp
  dsimp only
  split
  · exact unpark_storeInv (storeInv_ite h h)
  · exact h

theorem commitOp_storeInv {s : State} {t : Nat} {team : Team} {o : FlumeOp} {flags : Nat} {write : State → State}
    (hs : StoreInv s) (hwrite : ∀ u, StoreInv u → StoreInv (write u)) :
    StoreInv (commitOp s t team o flags write) := by
  grind [commitOp, dropOp_storeInv, orFlags_storeInv, stopGroup_storeInv, updFlume_storeInv, stopSeq_storeInv]

theorem iterate_storeInv {s : State} {t : Nat} {team : Team} {o : FlumeOp} (h : StoreInv s) {r : State}
    (hx : iterate s t team o = some r) : StoreInv r := by
  unfold iterate at hx
  split at hx
  · cases hx
    exact h
  · dsimp only at hx
    split at hx
    · cases hx
      exact h
    · cases hx

theorem applyOp_storeInv {s : State} {t : Nat} {team : Team} {o : FlumeOp} (h : StoreInv s) {r : State}
    (hx : applyOp s t team o = some r) : StoreInv r := by
  have hcommit {flags : Nat} {write : State → State} (hr : some (commitOp s t team o flags write) = some r)
      (hw : ∀ u, StoreInv u → StoreInv (write u)) : StoreInv r := by
    cases hr
    exact commitOp_storeInv h hw
  unfold applyOp at hx
  dsimp only at hx
  split at hx
  case h_1 => exact iterate_storeInv h hx
  case h_12 => exact hcommit hx fun _ hu => foldl_storeInv (fun _ _ hv => updTeam_storeInv hv) hu
  all_goals exact hcommit hx fun _ hu => hu

theorem execFlumeOpApplied_storeInv {t : Nat} {src : Option Nat} {s : State} (h : StoreInv s) :
    Keeps (execFlumeOpApplied t src s) StoreInv := by
  unfold execFlumeOpApplied
  split
  · exact keeps_refused
  · split
    · exact keeps_refused
    · split
      · exact keeps_refused
      · split
        · next e₃ => exact keeps_next (applyOp_storeInv h e₃)
        · exact keeps_refused

theorem execFiterStop_storeInv {t : Nat} {s : State} (h : StoreInv s) :
    Keeps (execFiterStop t s) StoreInv := by
  unfold execFiterStop
  dsimp only
  split
  · exact keeps_refused
  · split
    · split
      · exact keeps_refused
      · split
        · exact keeps_refused
        · exact keeps_next (stopSeqWith_storeInv (dropOp_storeInv h))
        · split
          · split
            · exact keeps_next (stopSeq_storeInv (updSeq_storeInv (dropOp_storeInv h)))
            · exact keeps_next (updSeq_storeInv (dropOp_storeInv h))
          · split
            · exact keeps_next (stopSeq_storeInv (updSeq_storeInv (dropOp_storeInv h)))
            · exact keeps_next (updSeq_storeInv (dropOp_storeInv h))
    · exact keeps_refused

end Sys2Proof.Machine
end

section
/-! THE FORM OF THE MEMORY (O59): places for teams (model file Machine/Places). -/

namespace Sys2Proof.Machine

theorem seatGroup_storeInv {s : State} {core t g : Nat} (h : StoreInv s) :
    StoreInv (seatGroup s core t g) := by
  unfold seatGroup
  dsimp only
  exact h

theorem seatTeam_storeInv {s : State} {core t : Nat} (h : StoreInv s) :
    StoreInv (seatTeam s core t) := by
  unfold seatTeam
  dsimp only
  split
  · exact h
  · exact foldl_storeInv (fun _ _ hu => seatGroup_storeInv hu) h

theorem nextGen_storeInv {s : State} {core : Nat} (h : StoreInv s) {r : Nat × State} (hx : nextGen s core = r) :
    StoreInv r.2 := hx ▸ h

theorem occupy_storeInv {s : State} {core ctx : Nat} (h : StoreInv s) :
    StoreInv (occupy s core ctx) := by
  unfold occupy
  dsimp only
  exact storeInv_ite h h

theorem beginClear_storeInv {s : State} {core ctx : Nat} (h : StoreInv s) :
    StoreInv (beginClear s core ctx) := h

theorem execClearSequenceDone_storeInv {core : Nat} {s : State} (h : StoreInv s) :
    Keeps (execClearSequenceDone core s) StoreInv := by
  unfold execClearSequenceDone
  dsimp only
  split
  · split
    · exact idle_storeInv
    · exact keeps_next (State.setCore_storeInv (foldl_storeInv (fun _ _ hu => l1CleanLine_storeInv hu) h))
  · exact idle_storeInv

end Sys2Proof.Machine
end

section
/-! THE FORM OF THE MEMORY (O59): saves and restorations (model file Machine/Saves). -/

namespace Sys2Proof.Machine

theorem startSave_storeInv {s : State} {t : Nat} (h : StoreInv s) :
    StoreInv (startSave s t) := h

theorem dropMessages_storeInv {s : State} {t : Nat} (h : StoreInv s) :
    StoreInv (dropMessages s t) := foldl_storeInv (fun _ _ hu => setHold_storeInv (updQueue_storeInv (storeInv_with hu))) h

theorem forgetTeam_storeInv {s : State} {t : Nat} (h : StoreInv s) :
    StoreInv (forgetTeam s t) := storeInv_with (dropMessages_storeInv h)

theorem finishLanes_storeInv {id n : Nat} {s : State} (h : StoreInv s) : StoreInv (finishLanes id n s) := by
  induction n generalizing s with
  | zero => exact h
  | succ n ih =>
    unfold finishLanes
    split
    · split
      · exact progress_storeInv h
      · refine ih ?_
        split
        · exact progress_storeInv (remapPut_storeInv h)
        · exact dropLane_storeInv h
    · exact h

theorem flushTeam_storeInv {s : State} {t : Nat} (h : StoreInv s) :
    StoreInv (flushTeam s t) := by
  unfold flushTeam
  dsimp only
  split
  · exact h
  · exact storeInv_with (removeTeam_storeInv (noteLeft_storeInv
      (leaveWrites_storeInv (forgetTeam_storeInv (foldl_storeInv (fun _ _ hu => finishLanes_storeInv hu)
          (performTeamLanded_storeInv h))) rfl)))

theorem startDrain_storeInv {s : State} {t : Nat} {team : Team} {class3 : Bool} (h : StoreInv s) :
    StoreInv (startDrain s t team class3) := h

theorem preemptTeam_storeInv {s : State} {t ask : Nat} {class3 : Bool} (h : StoreInv s) : StoreInv (preemptTeam s t ask class3)
    := by
  have hurgent : StoreInv (if class3 then updTeam s t fun team => { team with urgent := true } else s) := storeInv_ite h h
  unfold preemptTeam
  split
  · split
    · dsimp only
      generalize (if class3 then updTeam s t fun team => { team with urgent := true } else s) = u at hurgent ⊢
      split
      · exact hurgent
      · exact startSave_storeInv hurgent
      · exact startDrain_storeInv hurgent
      · exact flushTeam_storeInv hurgent
    · exact h
  · exact h

theorem execDrainTimeout_storeInv {t : Nat} {s : State} (h : StoreInv s) :
    Keeps (execDrainTimeout t s) StoreInv := by
  unfold execDrainTimeout
  split
  · exact idle_storeInv
  · split
    · split
      · exact keeps_next h
      · exact idle_storeInv
    · exact idle_storeInv

theorem execServiceLimitExpiry_storeInv {t : Nat} {s : State} (h : StoreInv s) :
    Keeps (execServiceLimitExpiry t s) StoreInv := by
  unfold execServiceLimitExpiry
  split
  · exact idle_storeInv
  · split
    · split
      · exact keeps_next h
      · exact idle_storeInv
    · exact idle_storeInv

theorem putRange_storeInv {s : State} {die ctx va n : Nat} {byte : Nat → Byte} (h : StoreInv s) :
    StoreInv (putRange s die ctx va n byte) := by
  unfold putRange
  split
  · split
    · exact h
    · dsimp only
      split
      · exact h
      · exact clearPoison_storeInv ⟨Memory.replace_wf _ _ _ _ h.1, h.2⟩
  · exact h

theorem writeSlot_storeInv {s : State} {t : Nat} {team : Team} {slot : Nat} (h : StoreInv s) :
    StoreInv (writeSlot s t team slot) := by
  unfold writeSlot
  dsimp only
  exact foldl_storeInv (fun _ _ hu => putRange_storeInv hu) h

theorem dropPolls_storeInv {s : State} {t : Nat} (h : StoreInv s) :
    StoreInv (dropPolls s t) := updTeam_storeInv (foldl_storeInv (fun _ _ hu => storeInv_with (dropRest_storeInv hu)) h)

theorem landTeam_storeInv {s : State} {t : Nat} (h : StoreInv s) :
    StoreInv (landTeam s t) := foldl_storeInv (fun _ _ hu => landAll_storeInv hu) h

theorem quiesce_storeInv {s : State} {t : Nat} (h : StoreInv s) :
    StoreInv (quiesce s t) := by
  unfold quiesce
  dsimp only
  split
  · exact h
  · exact noteLeft_storeInv (leaveWrites_storeInv (dropTables_storeInv
      (storeInv_with (dropPolls_storeInv (dropMessages_storeInv (landTeam_storeInv h))))) rfl)

theorem leaveCore_storeInv {s : State} {t : Nat} {team : Team} (h : StoreInv s) :
    StoreInv (leaveCore s t team) := foldl_storeInv (fun _ _ hu => leaveSlice_storeInv hu) h

theorem applyRemaps_storeInv {s : State} {core : Nat} (h : StoreInv s) :
    StoreInv (applyRemaps s core) := storeInv_ite h (raiseHealth_storeInv h)

theorem saveTeam_storeInv {s : State} {t : Nat} (h : StoreInv s) :
    StoreInv (saveTeam s t) := by
  unfold saveTeam
  dsimp only
  split
  · exact quiesce_storeInv h
  · exact applyRemaps_storeInv (vacate_storeInv (updTeam_storeInv
      (leaveCore_storeInv (noteTeam_storeInv (writeSlot_storeInv (State.draw_storeInv (quiesce_storeInv h) rfl))))))

theorem execTeamSaveComplete_storeInv {t : Nat} {s : State} (h : StoreInv s) :
    Keeps (execTeamSaveComplete t s) StoreInv := by
  unfold execTeamSaveComplete
  split
  · exact idle_storeInv
  · split
    · exact keeps_next (saveTeam_storeInv h)
    · exact idle_storeInv

theorem releaseServiced_storeInv {s : State} {t core : Nat} (h : StoreInv s) :
    StoreInv (releaseServiced s t core) := by
  unfold releaseServiced
  dsimp only
  split
  · exact h
  · exact foldl_storeInv (fun _ _ hu => settleService_storeInv hu) h

theorem resumeTeam_storeInv {s : State} {t : Nat} (h : StoreInv s) :
    StoreInv (resumeTeam s t) := by
  unfold resumeTeam
  dsimp only
  split
  · exact h
  · apply storeInv_ite
    · split
      · exact h
      · exact storeInv_ite (releaseServiced_storeInv h) (startSave_storeInv (releaseServiced_storeInv h))
    · exact h

theorem lateReplies_storeInv {s : State} {t : Nat} (h : StoreInv s) :
    StoreInv (lateReplies s t) := foldl_storeInv (fun _ _ hu => endAccess_storeInv (storeInv_ite hu (writeDest_storeInv hu))) h

theorem carryClock_storeInv {s : State} {fromDie toDie : Nat} (h : StoreInv s) :
    StoreInv (carryClock s fromDie toDie) := storeInv_ite h h

theorem settleOn_storeInv {s : State} {t core : Nat} (h : StoreInv s) :
    StoreInv (settleOn s t core) := by
  unfold settleOn
  dsimp only
  split
  · exact h
  · exact acquire_storeInv (occupy_storeInv (seatTeam_storeInv
      (updTeam_storeInv (storeInv_with (nextGen_storeInv (carryClock_storeInv h) rfl)))))

theorem restoreTeam_storeInv {s : State} {t core slot : Nat} (h : StoreInv s) :
    StoreInv (restoreTeam s t core slot) := by
  unfold restoreTeam
  dsimp only
  split
  · exact h
  · apply storeInv_ite
    · split
      · exact noteTeam_storeInv (releaseServiced_storeInv (settleOn_storeInv (lateReplies_storeInv h)))
      · exact releaseServiced_storeInv (settleOn_storeInv (lateReplies_storeInv h))
    · split
      · exact foldl_storeInv (fun _ _ hu => stopGroup_storeInv hu)
          (noteTeam_storeInv (releaseServiced_storeInv (settleOn_storeInv (lateReplies_storeInv h))))
      · exact foldl_storeInv (fun _ _ hu => stopGroup_storeInv hu)
          (releaseServiced_storeInv (settleOn_storeInv (lateReplies_storeInv h)))

theorem fence_storeInv {s : State} {core : Nat} {lost : List Nat} (h : StoreInv s) :
    StoreInv (fence s core lost) := by
  unfold fence
  dsimp only
  exact foldl_storeInv (fun _ _ hu => storeInv_ite (startSave_storeInv hu)
      (foldl_storeInv (fun _ _ hv => stopGroup_storeInv hv) hu)) (storeInv_with (raiseHealth_storeInv (State.setCore_storeInv h)))

theorem execCoreUncorrectableError_storeInv {core : Nat} {lost : List Nat} {s : State} (h : StoreInv s) :
    Keeps (execCoreUncorrectableError core lost s) StoreInv := by
  unfold execCoreUncorrectableError
  split
  · exact keeps_next (fence_storeInv h)
  · exact idle_storeInv

theorem laneFound_storeInv {s : State} {core d : Nat} (h : StoreInv s) :
    StoreInv (laneFound s core d) := by
  unfold laneFound
  dsimp only
  apply storeInv_ite
  · exact fence_storeInv (countError_storeInv h)
  · apply storeInv_ite
    · exact applyRemaps_storeInv (State.setCore_storeInv (countError_storeInv h))
    · exact foldl_storeInv (fun _ _ hu => startSave_storeInv hu) (State.setCore_storeInv (countError_storeInv h))

theorem execLaneDefect_storeInv {core slice lane : Nat} {s : State} (h : StoreInv s) :
    Keeps (execLaneDefect core slice lane s) StoreInv := by
  unfold execLaneDefect
  dsimp only
  split
  · exact idle_storeInv
  · exact keeps_next (laneFound_storeInv h)

theorem selfTest_storeInv {s : State} (h : StoreInv s) :
    StoreInv (selfTest s) := foldl_storeInv (fun _ _ hu => storeInv_ite hu (laneFound_storeInv hu)) h

end Sys2Proof.Machine
end

section
/-! THE FORM OF THE MEMORY (O59): migration (model file Machine/Migrate). -/

namespace Sys2Proof.Machine

theorem moveTeam_storeInv {s : State} {t core target n : Nat} {l : Launch} {m : MapTable} (h : StoreInv s) :
    StoreInv (moveTeam s t core target n l m) := updTeam_storeInv (settleOn_storeInv h)

theorem failMove_storeInv {s : State} {t : Nat} {team : Team} {x : Nat × Nat} (h : StoreInv s) :
    StoreInv (failMove s t team x) := by
  unfold failMove
  split
  · exact h
  · exact h

theorem leaveHome_storeInv {s : State} {t : Nat} {team : Team} (h : StoreInv s) :
    StoreInv (leaveHome s t team) := by
  unfold leaveHome
  dsimp only
  exact noteLeft_storeInv (leaveWrites_storeInv h rfl)

theorem migrateTo_storeInv {s : State} {t core n target : Nat} {team : Team} {l : Launch} {m : MapTable} (h : StoreInv s) :
    StoreInv (migrateTo s t core n target team l m) := noteTeam_storeInv
        (applyRemaps_storeInv (vacate_storeInv (moveTeam_storeInv (leaveCore_storeInv h))))

theorem migrate_storeInv {s : State} {t : Nat} {team : Team} {l : Launch} (h : StoreInv s) :
    Keeps (migrate s t team l) StoreInv := by
  unfold migrate
  split
  · exact idle_storeInv
  · exact keeps_next (failMove_storeInv h)
  · split
    · exact keeps_next (passAll_storeInv h)
    · exact idle_storeInv
    · exact keeps_next h
    · split
      · exact keeps_next (leaveHome_storeInv h)
      · split
        · exact keeps_next (migrateTo_storeInv h)
        · exact idle_storeInv

theorem execMigration_storeInv {t : Nat} {s : State} (h : StoreInv s) :
    Keeps (execMigration t s) StoreInv := by
  unfold execMigration
  dsimp only
  split
  · split
    · exact idle_storeInv
    · split
      · exact migrate_storeInv (landTeam_storeInv h)
      · exact idle_storeInv
  · exact idle_storeInv

theorem moveDirectory_storeInv {s : State} {ctx dir : Nat} {m : Nat × Nat × Nat} (h : StoreInv s) :
    StoreInv (moveDirectory s ctx dir m) := by
  unfold moveDirectory
  dsimp only
  apply storeInv_ite
  · exact h
  · split
    · exact h
    · exact foldl_storeInv (fun _ _ hu => foldl_storeInv (fun _ _ hv => by
        split
        · exact storeInv_ite (vaWrite_storeInv hv) hv
        · exact hv) hu) h

theorem moveRecords_storeInv {s : State} {old new : Team} (h : StoreInv s) :
    StoreInv (moveRecords s old new) := by
  unfold moveRecords
  dsimp only
  split
  · apply storeInv_ite
    · exact foldl_storeInv (fun _ _ hu => storeInv_ite hu (putRange_storeInv hu)) h
    · exact putRange_storeInv (State.draw_storeInv (foldl_storeInv (fun _ _ hu => storeInv_ite hu (putRange_storeInv hu)) h) rfl)
  · exact h

theorem beginMove_storeInv {s : State} {ctx : Nat} {m : Nat × Nat × Nat} (h : StoreInv s) :
    StoreInv (beginMove s ctx m) := storeInv_with (foldl_storeInv (fun _ _ hu => moveDirectory_storeInv hu) h)

theorem moveTeams_storeInv {s : State} {ctx : Nat} {m : Nat × Nat × Nat} (h : StoreInv s) :
    StoreInv (moveTeams s ctx m) := by
  unfold moveTeams
  dsimp only
  exact foldl_storeInv (fun _ _ hu => by
    split
    · exact storeInv_ite (moveRecords_storeInv hu) hu
    · exact hu) h

theorem execReferenceRewrite_storeInv {ctx entry : Nat} {s : State} (h : StoreInv s) :
    Keeps (execReferenceRewrite ctx entry s) StoreInv := by
  unfold execReferenceRewrite
  dsimp only
  split
  · exact idle_storeInv
  · split
    · exact idle_storeInv
    · exact keeps_next (storeInv_with (moveTeams_storeInv (storeInv_ite (beginMove_storeInv h) h)))

end Sys2Proof.Machine
end

section
/-! THE FORM OF THE MEMORY (O59): admission (model file Machine/Admit). -/

namespace Sys2Proof.Machine

theorem dropProtected_storeInv {s : State} {ctx : Nat} (h : StoreInv s) :
    StoreInv (dropProtected s ctx) := foldl_storeInv (fun _ _ hu => l2Drop_storeInv (l2Flush_storeInv (noFill_storeInv hu))) h

theorem startPark_storeInv {s : State} {slot ctx : Nat} (h : StoreInv s) :
    StoreInv (startPark s slot ctx) := storeInv_with (dropProtected_storeInv h)

theorem finishPark_storeInv {s : State} (h : StoreInv s) :
    StoreInv (finishPark s) := by
  unfold finishPark
  dsimp only
  split
  · split
    · exact storeInv_ite h (storeInv_with (paWrite_storeInv h))
    · exact h
  · exact h

theorem keyPlace_storeInv {s : State} {also : Nat → Bool} (h : StoreInv s) {r : KeyPlace} (hx : keyPlace s also = r) :
    r.storeInv := by
  subst hx
  unfold keyPlace
  split
  · exact trivial
  · split
    · exact trivial
    · exact startPark_storeInv h
  · split
    · exact trivial
    · exact trivial

theorem makeTeam_storeInv {s : State} {l : Launch} {num core : Nat} (h : StoreInv s) :
    StoreInv (makeTeam s l num core) := by
  unfold makeTeam
  dsimp only
  exact seatTeam_storeInv (occupy_storeInv h)

theorem placeOne_storeInv {l : Launch} {num : Nat} {s : State} (h : StoreInv s) {r : State} (hx : placeOne l num s = some r) :
    StoreInv r := by
  obtain ⟨c, -, rfl⟩ := Option.map_eq_some_iff.mp hx
  exact makeTeam_storeInv h

theorem placeAll_storeInv {l : Launch} {ns : List Nat} {s : State} (h : StoreInv s) {r : State} (hx : placeAll l ns s = some r) :
    StoreInv r := by
  induction ns generalizing s with
  | nil =>
    cases hx
    exact h
  | cons n ns ih =>
    obtain ⟨u, hu, hr⟩ := Option.bind_eq_some_iff.mp hx
    exact ih (placeOne_storeInv h hu) hr

theorem admitLaunch_storeInv {s : State} {key : Nat} {l : Launch} (h : StoreInv s) {r : State} (hx : admitLaunch s key l = some r) :
    StoreInv r := by
  obtain ⟨u, hu, rfl⟩ := Option.map_eq_some_iff.mp hx
  exact storeInv_with (placeAll_storeInv h hu)

theorem preemptFor_storeInv {s : State} {l : Launch} (h : StoreInv s) {r : State} (hx : preemptFor s l = some r) : StoreInv r := by
  unfold preemptFor at hx
  split at hx
  · cases hx
  · dsimp only at hx
    split at hx
    · cases hx
    · cases hx
      exact foldl_storeInv (fun _ _ hu => preemptTeam_storeInv hu) h

theorem serveLaunch_storeInv {s : State} {key : Nat} {l : Launch} (h : StoreInv s) {r : State} (hx : serveLaunch s key l = some r) :
    StoreInv r := by
  unfold serveLaunch at hx
  split at hx
  · cases hx
  · split at hx
    · next ha =>
      cases hx
      exact admitLaunch_storeInv h ha
    · split at hx
      · cases hx
      · split at hx
        · cases hx
          exact beginClear_storeInv h
        · exact preemptFor_storeInv h hx

theorem execTeamAdmit_storeInv {s : State} (h : StoreInv s) : Keeps (execTeamAdmit s) StoreInv := by
  unfold execTeamAdmit
  split
  · next hx =>
    obtain ⟨x, -, hr⟩ := List.exists_of_findSome?_eq_some hx
    exact keeps_next (serveLaunch_storeInv h hr)
  · exact keeps_refused

theorem restoreMoved_storeInv {s : State} {t core n target : Nat} {l : Launch} {m : MapTable} (h : StoreInv s) :
    StoreInv (restoreMoved s t core n target l m) := by
  unfold restoreMoved
  dsimp only
  split
  · exact noteTeam_storeInv (releaseServiced_storeInv (moveTeam_storeInv (lateReplies_storeInv h)))
  · exact releaseServiced_storeInv (moveTeam_storeInv (lateReplies_storeInv h))

theorem restoreMismatch_storeInv {s : State} {t : Nat} {team : Team} {x : Nat × Nat} (h : StoreInv s) :
    StoreInv (restoreMismatch s t team x) := by
  unfold restoreMismatch
  dsimp only
  split
  · exact moveRecords_storeInv (failMove_storeInv h)
  · exact failMove_storeInv h

theorem restoreOwn_storeInv {s : State} {t slot : Nat} {team : Team} {l : Launch} (h : StoreInv s) {r : State}
    (hx : restoreOwn s t slot team l = some r) : StoreInv r := by
  unfold restoreOwn at hx
  dsimp only at hx
  split at hx
  · cases hx
    exact restoreTeam_storeInv h
  · cases hx
    exact beginClear_storeInv h
  · cases hx

theorem restoreOther_storeInv {s : State} {t slot : Nat} {team : Team} {l : Launch} (h : StoreInv s) {r : State}
    (hx : restoreOther s t slot team l = some r) : StoreInv r := by
  unfold restoreOther at hx
  split at hx
  · cases hx
  · split at hx
    · cases hx
    · cases hx
      exact restoreMismatch_storeInv h
    · split at hx
      · cases hx
        exact restoreMoved_storeInv h
      · cases hx
        exact beginClear_storeInv h
      · cases hx

theorem execTeamRestore_storeInv {t : Nat} {s : State} (h : StoreInv s) : Keeps (execTeamRestore t s) StoreInv := by
  have hdraw : StoreInv s.draw.2 := h
  unfold execTeamRestore
  split
  · split
    · split
      · exact keeps_refused
      · split
        · exact keeps_refused
        · next hx _ => exact keeps_next (restoreOwn_storeInv h hx)
        · dsimp only
          split
          · exact keeps_next (optionGetD_storeInv hdraw fun _ => restoreOther_storeInv hdraw)
          · split
            · exact keeps_next (optionGetD_storeInv hdraw fun _ => restoreOwn_storeInv hdraw)
            · exact keeps_next hdraw
    · exact keeps_refused
  · exact keeps_refused

theorem execKeyReseat_storeInv {ctx : Nat} {s : State} (h : StoreInv s) :
    Keeps (execKeyReseat ctx s) StoreInv := by
  unfold execKeyReseat
  split
  · exact idle_storeInv
  · split
    · exact keeps_next h
    · next e₂ => exact keeps_next (keyPlace_storeInv h e₂)
    · exact idle_storeInv

end Sys2Proof.Machine
end

section
/-! THE FORM OF THE MEMORY (O59): the queues of the host (model file Machine/Queues). -/

namespace Sys2Proof.Machine

theorem freeSlot_storeInv {s : State} (h : StoreInv s) {r : Nat × State} (hx : freeSlot s = some r) : StoreInv r.2 := by
  unfold freeSlot at hx
  split at hx
  · cases hx
    exact h
  · dsimp only at hx
    split at hx
    · cases hx
    · cases hx
      exact unmapSlot_storeInv h

theorem mapQueue_storeInv {s : State} {q k : Nat} (h : StoreInv s) :
    StoreInv (mapQueue s q k) := h

theorem scanQueue_storeInv {s : State} {q k widx : Nat} {e : QEnt} (h : StoreInv s) :
    StoreInv (scanQueue s q k widx e) := storeInv_ite (setDevState_storeInv h) h

theorem execQueueScan_storeInv {q : Nat} {s : State} (h : StoreInv s) : Keeps (execQueueScan q s) StoreInv := by
  unfold execQueueScan
  split
  · dsimp only
    split
    · split
      · exact keeps_next (scanQueue_storeInv h)
      · exact keeps_refused
    · split
      · exact keeps_refused
      · split
        · next hx =>
          have hv := freeSlot_storeInv h hx
          exact keeps_next (scanQueue_storeInv (mapQueue_storeInv hv))
        · exact keeps_refused
  · exact keeps_refused

theorem execDoorbell_storeInv {q : Nat} {s : State} (h : StoreInv s) :
    Keeps (execDoorbell q s) StoreInv := by
  unfold execDoorbell
  split
  · exact keeps_next (ringDoorbell_storeInv h)
  · exact idle_storeInv

theorem execOrphanLatch_storeInv {slot : Nat} {s : State} (h : StoreInv s) :
    Keeps (execOrphanLatch slot s) StoreInv := by
  unfold execOrphanLatch
  dsimp only
  split
  · split
    · exact keeps_next (setPending_storeInv h)
    · exact idle_storeInv
  · exact idle_storeInv

theorem acceptPacket_storeInv {s : State} {q : Nat} {e : QEnt} (h : StoreInv s) :
    StoreInv (acceptPacket s q e) := qWrite_storeInv h

theorem rejectPacket_storeInv {s : State} {q : Nat} {e : QEnt} {code : Nat} (h : StoreInv s) :
    StoreInv (rejectPacket s q e code) := updQ_storeInv (paWrite_storeInv (qWrite_storeInv h))

theorem runPacket_storeInv {name : String} {isIt : List Byte → Bool} {priv : Bool} {q : Nat} {s : State}
    {f : QEnt → List Byte → Verdict} (h : StoreInv s) (hf : ∀ e p, (f e p).storeInv) :
    Keeps (runPacket name isIt priv q s f) StoreInv := by
  unfold runPacket
  split
  · exact keeps_refused
  · next e p _ =>
    have hv := hf e p
    split
    · exact keeps_refused
    · split
      · exact keeps_next (rejectPacket_storeInv h)
      · split
        · exact keeps_next (rejectPacket_storeInv h)
        · next hx => exact keeps_next (acceptPacket_storeInv (hx ▸ hv : (Verdict.accept _).storeInv))
        · exact keeps_next h
        · next hx => exact keeps_next (storeInv_with (acceptPacket_storeInv (hx ▸ hv : (Verdict.command _ _).storeInv)))
        · next hx => exact keeps_next (hx ▸ hv : (Verdict.hold _).storeInv)
        · exact keeps_refused

theorem execPacketNop_storeInv {q : Nat} {s : State} (h : StoreInv s) :
    Keeps (execPacketNop q s) StoreInv := runPacket_storeInv h (fun _ _ => by
    split
    · exact trivial
    · split
      · exact trivial
      · exact h)

theorem signalNow_storeInv {s : State} {ctx : Nat} {p : List Byte} (h : StoreInv s) :
    StoreInv (signalNow s ctx p) := by
  unfold signalNow
  dsimp only
  apply storeInv_ite
  · split
    · exact raiseIrq_storeInv (ringDoorbell_storeInv h)
    · exact raiseIrq_storeInv (qWrite_storeInv h)
  · split
    · exact ringDoorbell_storeInv h
    · exact qWrite_storeInv h

theorem execSignal_storeInv {q : Nat} {s : State} (h : StoreInv s) :
    Keeps (execSignal q s) StoreInv := runPacket_storeInv h (fun _ _ => by
    split
    · exact trivial
    · split
      · exact trivial
      · split
        · exact trivial
        · exact signalNow_storeInv h)

theorem execSignalWaitallRelease_storeInv {q : Nat} {s : State} (h : StoreInv s) :
    Keeps (execSignalWaitallRelease q s) StoreInv := by
  unfold execSignalWaitallRelease
  split
  · split
    · exact keeps_next (updQ_storeInv (acceptPacket_storeInv (signalNow_storeInv h)))
    · exact idle_storeInv
  · exact idle_storeInv

theorem execWaitmem_storeInv {q : Nat} {s : State} (h : StoreInv s) :
    Keeps (execWaitmem q s) StoreInv := runPacket_storeInv h (fun _ _ => by
    split
    · exact trivial
    · split
      · exact trivial
      · exact trivial)

theorem execWaitmemSatisfied_storeInv {q : Nat} {s : State} (h : StoreInv s) :
    Keeps (execWaitmemSatisfied q s) StoreInv := by
  unfold execWaitmemSatisfied
  split
  · split
    · split
      · exact keeps_next (updQ_storeInv (acceptPacket_storeInv h))
      · exact idle_storeInv
    · exact idle_storeInv
  · exact idle_storeInv

end Sys2Proof.Machine
end

section
/-! THE FORM OF THE MEMORY (O59): the packets (model file Machine/Packets). -/

namespace Sys2Proof.Machine

theorem addLaunch_storeInv {s : State} {ctx q : Nat} {p : List Byte} {pred run : Option Nat} (h : StoreInv s) {r : Nat × State}
    (hx : addLaunch s ctx q p pred run = r) :
    StoreInv r.2 := by
  subst hx
  unfold addLaunch
  dsimp only
  exact h

theorem execLaunch_storeInv {q : Nat} {s : State} (h : StoreInv s) :
    Keeps (execLaunch q s) StoreInv := runPacket_storeInv h (fun _ _ => by
    dsimp only
    split
    · exact trivial
    · exact updQ_storeInv (addLaunch_storeInv h rfl))

theorem addRun_storeInv {ctx q run : Nat} {ps : List (List Byte)} {pred : Option Nat} {s : State} (h : StoreInv s)
    {r : List Nat × State} (hx : addRun ctx q run ps pred s = r) : StoreInv r.2 := by
  subst hx
  induction ps generalizing pred s with
  | nil => exact h
  | cons p ps ih => exact ih (addLaunch_storeInv h rfl)

theorem execGraphrun_storeInv {q : Nat} {s : State} (h : StoreInv s) :
    Keeps (execGraphrun q s) StoreInv := runPacket_storeInv h (fun _ _ => by
    dsimp only
    split
    · exact trivial
    · split
      · exact trivial
      · split
        · exact trivial
        · split
          · exact trivial
          · split
            · exact trivial
            · split
              · exact trivial
              · split
                · exact trivial
                · split
                  · exact trivial
                  · split
                    · exact trivial
                    · exact storeInv_with (addRun_storeInv (State.fresh_storeInv h rfl) rfl))

theorem graphOf_storeInv {s : State} {ctx header : Nat} (h : StoreInv s) {r : Nat × State} (hx : graphOf s ctx header = r) :
    StoreInv r.2 := by
  subst hx
  unfold graphOf
  dsimp only
  split
  · exact h
  · exact h

theorem execGraphedit_storeInv {q : Nat} {s : State} (h : StoreInv s) :
    Keeps (execGraphedit q s) StoreInv := runPacket_storeInv h (fun _ _ => by
    dsimp only
    split
    · exact trivial
    · split
      · exact trivial
      · split
        · exact trivial
        · split
          · split
            · exact trivial
            · exact retireVersions_storeInv (storeInv_with (graphOf_storeInv (qWrite_storeInv h) rfl))
          · exact trivial)

theorem execFieldset_storeInv {q : Nat} {s : State} (h : StoreInv s) :
    Keeps (execFieldset q s) StoreInv := runPacket_storeInv h (fun _ _ => by
    dsimp only
    split
    · exact trivial
    · split
      · exact trivial
      · exact foldl_storeInv (fun _ _ hu => startSave_storeInv hu) h)

theorem execFieldsetDestroy_storeInv {q : Nat} {s : State} (h : StoreInv s) :
    Keeps (execFieldsetDestroy q s) StoreInv := runPacket_storeInv h (fun _ _ => by
    dsimp only
    split
    · exact trivial
    · split
      · exact trivial
      · split
        · exact trivial
        · exact h)

theorem dropSealed_storeInv {s : State} {ctx : Nat} (h : StoreInv s) :
    StoreInv (dropSealed s ctx) := h

theorem discardLines_storeInv {s : State} {ctx : Nat} (h : StoreInv s) :
    StoreInv (discardLines s ctx) := storeInv_with (foldl_storeInv (fun _ _ hu => l2Drop_storeInv (noFill_storeInv hu)) h)

theorem eraseKey_storeInv {s : State} {ctx : Nat} (h : StoreInv s) :
    StoreInv (eraseKey s ctx) := storeInv_with (discardLines_storeInv (dropSealed_storeInv h))

theorem drawKey_storeInv {s : State} {gen : Nat} (h : StoreInv s) {r : KeyRec × State} (hx : drawKey s gen = r) :
    StoreInv r.2 := by
  subst hx
  unfold drawKey
  dsimp only
  exact h

theorem createKey_storeInv {s : State} {ctx slot : Nat} (h : StoreInv s) :
    StoreInv (createKey s ctx slot) := by
  unfold createKey
  dsimp only
  exact storeInv_with (drawKey_storeInv h rfl)

theorem detachWrites_storeInv {s : State} {ctx : Nat} (h : StoreInv s) :
    StoreInv (detachWrites s ctx) := h

theorem leaveOrdinary_storeInv {s : State} {ctx : Nat} (h : StoreInv s) :
    StoreInv (leaveOrdinary s ctx) := by
  unfold leaveOrdinary
  dsimp only
  exact detachWrites_storeInv (foldl_storeInv (fun _ _ hu => l2Drop_storeInv (l2Flush_storeInv (noFill_storeInv hu)))
      (foldl_storeInv (fun _ _ hu => foldl_storeInv (fun _ _ hv => storeInv_ite (l1Drop_storeInv hv) hv) hu) h))

theorem installCtx_storeInv {s : State} {ctx : Nat} {x : Ctx} (h : StoreInv s) : (installCtx s ctx x).storeInv := by
  have hput {u : State} (hu : StoreInv u) :
      StoreInv { dropTables u fun _ k => k == ctx with
        ctxs := (dropTables u fun _ k => k == ctx).ctxs.put ctx x
        live := (dropTables u fun _ k => k == ctx).live.put ctx ((dropTables u fun _ k => k == ctx).ctxLive ctx) } :=
    storeInv_with (dropTables_storeInv hu)
  unfold installCtx
  extract_lets was put
  split
  · exact hput (eraseKey_storeInv h)
  · split
    · split
      · exact hput (createKey_storeInv (storeInv_ite (leaveOrdinary_storeInv h) h))
      · next hx => exact keyPlace_storeInv h hx
      · trivial
      · trivial
    · exact hput h

theorem Verdict.keeping_storeInv {q : Nat} {p : List Byte} {x : Ctx} {v : Verdict} (hv : v.storeInv) :
    (v.keeping q p x).storeInv := by
  cases v with
  | accept | command | hold | fail | wait | stay => exact hv

theorem execSetctx_storeInv {q : Nat} {s : State} (h : StoreInv s) :
    Keeps (execSetctx q s) StoreInv := runPacket_storeInv h (fun _ _ => by
    dsimp only
    split
    · exact trivial
    · split
      · exact trivial
      · split
        · split
          · exact trivial
          · split
            · exact trivial
            · exact Verdict.keeping_storeInv (installCtx_storeInv h)
        · split
          · exact trivial
          · split
            · exact trivial
            · split
              · exact trivial
              · split
                · exact trivial
                · split
                  · exact trivial
                  · split
                    · exact trivial
                    · exact Verdict.keeping_storeInv (installCtx_storeInv h))

theorem removeCtx_storeInv {s : State} {ctx : Nat} (h : StoreInv s) :
    StoreInv (removeCtx s ctx) := storeInv_with (detachWrites_storeInv (storeInv_ite (eraseKey_storeInv h) h))

theorem execSetctxDestroy_storeInv {q : Nat} {s : State} (h : StoreInv s) :
    Keeps (execSetctxDestroy q s) StoreInv := runPacket_storeInv h (fun _ _ => by
    dsimp only
    split
    · exact trivial
    · split
      · exact trivial
      · split
        · exact trivial
        · split
          · exact trivial
          · split
            · exact trivial
            · exact removeCtx_storeInv h)

theorem execWqcreate_storeInv {q : Nat} {s : State} (h : StoreInv s) :
    Keeps (execWqcreate q s) StoreInv := runPacket_storeInv h (fun _ _ => by
    dsimp only
    split
    · exact trivial
    · split
      · exact trivial
      · split
        · exact trivial
        · exact h)

theorem queueFault_storeInv {s : State} {t : Nat} {g : Option Nat} {p : Nat} (h : StoreInv s) :
    StoreInv (queueFault s t g p) := stopIssuer_storeInv (setHold_storeInv h)

theorem destroyWork_storeInv {s : State} {ctx n : Nat} (h : StoreInv s) :
    StoreInv (destroyWork s ctx n) := foldl_storeInv (fun _ _ hu => by
    dsimp only
    split
    · exact queueFault_storeInv (storeInv_with (dropRest_storeInv hu))
    · exact queueFault_storeInv hu) (foldl_storeInv (fun _ _ hu => queueFault_storeInv (storeInv_with hu)) (storeInv_with h))

theorem execWqDestroy_storeInv {q : Nat} {s : State} (h : StoreInv s) :
    Keeps (execWqDestroy q s) StoreInv := runPacket_storeInv h (fun _ _ => by
    split
    · exact trivial
    · split
      · exact trivial
      · exact destroyWork_storeInv h)

end Sys2Proof.Machine
end

section
/-! THE FORM OF THE MEMORY (O59): the commands (model file Machine/Commands). -/

namespace Sys2Proof.Machine

theorem runCommand_storeInv {name : String} {op q : Nat} {s : State} {f : QEnt → List Byte → Verdict} (h : StoreInv s)
    (hf : ∀ e p, (f e p).storeInv) : Keeps (runCommand name op q s f) StoreInv := runPacket_storeInv h hf

theorem flushNew_storeInv {s : State} {ctx : Nat} {t : List (BitVec 256)} (h : StoreInv s) :
    StoreInv (flushNew s ctx t) := foldl_storeInv (fun _ _ hu => foldl_storeInv (fun _ _ hv => l2Clean_storeInv hv) hu)
        (foldl_storeInv (fun _ _ hu => foldl_storeInv (fun _ _ hv => l1Clean_storeInv hv) hu)
            (foldl_storeInv (fun _ _ hu => foldl_storeInv (fun _ _ hv => performLanded_storeInv hv) hu) h))

theorem execFwdupdate_storeInv {q : Nat} {s : State} (h : StoreInv s) :
    Keeps (execFwdupdate q s) StoreInv := runCommand_storeInv h (fun _ _ => by
    dsimp only
    split
    · exact trivial
    · split
      · exact trivial
      · exact flushNew_storeInv (foldl_storeInv (fun _ _ hu => State.setCore_storeInv hu) h))

theorem fwdEnd_storeInv {s : State} {ctx : Nat} (h : StoreInv s) :
    StoreInv (fwdEnd s ctx) := storeInv_with (foldl_storeInv (fun _ _ hu => noFill_storeInv hu) h)

theorem execXlateinv_storeInv {q : Nat} {s : State} (h : StoreInv s) :
    Keeps (execXlateinv q s) StoreInv := runCommand_storeInv h (fun _ _ => by
    dsimp only
    split
    · exact trivial
    · split
      · exact trivial
      · split
        · exact trivial
        · exact h)

theorem execSyninv_storeInv {q : Nat} {s : State} (h : StoreInv s) :
    Keeps (execSyninv q s) StoreInv := runCommand_storeInv h (fun _ _ => by
    dsimp only
    split
    · exact trivial
    · split
      · exact trivial
      · exact h)

theorem zeroVault_storeInv {s : State} {d v : Nat} (h : StoreInv s) : StoreInv (zeroVault s d v) :=
  clearPoison_storeInv (s := { s with store := { s.store with vault := _ } }) ⟨h.1, Memory.zero_wf _ _ _ h.2⟩

theorem execVaultgrant_storeInv {q : Nat} {s : State} (h : StoreInv s) :
    Keeps (execVaultgrant q s) StoreInv := runCommand_storeInv h (fun _ _ => by
    split
    · exact trivial
    · split
      · exact trivial
      · exact h)

theorem grantWithdraw_storeInv {s : State} {p : List Byte} (h : StoreInv s) : StoreInv (grantWithdraw s p) :=
  storeInv_with (foldl_storeInv (fun _ _ hu => zeroVault_storeInv hu) h)

theorem grantEnd_storeInv {s : State} {p : List Byte} (h : StoreInv s) :
    StoreInv (grantEnd s p) := storeInv_ite h (storeInv_with (grantWithdraw_storeInv h))

theorem recarve_storeInv {s : State} {d : Nat} {new : BitVec 8} (h : StoreInv s) :
    StoreInv (recarve s d new) := by
  unfold recarve
  dsimp only
  split
  · exact State.setDie_storeInv (storeInv_with (foldl_storeInv (fun _ _ hu => zeroVault_storeInv hu) h))
  · exact State.setDie_storeInv (storeInv_with (foldl_storeInv (fun _ _ hu => zeroVault_storeInv hu)
      (foldl_storeInv (fun _ _ hu => mscFlush_storeInv hu) h)))

theorem execVaultcarve_storeInv {q : Nat} {s : State} (h : StoreInv s) :
    Keeps (execVaultcarve q s) StoreInv := runCommand_storeInv h (fun _ _ => by
    dsimp only
    split
    · exact trivial
    · split
      · exact trivial
      · exact recarve_storeInv h)

theorem execPreempt_storeInv {q : Nat} {s : State} (h : StoreInv s) :
    Keeps (execPreempt q s) StoreInv := runCommand_storeInv h (fun _ _ => by
    dsimp only
    split
    · exact trivial
    · split
      · exact trivial
      · exact foldl_storeInv (fun _ _ hu => preemptTeam_storeInv hu) h)

theorem destroyTeam_storeInv {s : State} {t : Nat} {team : Team} (h : StoreInv s) {r : List Nat × State}
    (hx : destroyTeam s t team = r) :
    StoreInv r.2 := by
  subst hx
  unfold destroyTeam
  dsimp only
  apply storeInv_ite
  · exact storeInv_with (forgetTeam_storeInv (leaveWrites_storeInv h rfl))
  · exact removeTeam_storeInv (forgetTeam_storeInv (leaveWrites_storeInv h rfl))

theorem destroyLaunch_storeInv {s : State} {ctx grid : Nat} (h : StoreInv s) : StoreInv (destroyLaunch s ctx grid) := by
  refine endLaunch_storeInv (storeInv_with ?_)
  refine foldl_inv (P := fun x : List Nat × State => StoreInv x.2) (fun u e hu => ?_) h
  exact (destroyTeam_storeInv hu rfl : StoreInv (destroyTeam u.2 e.1 e.2).2)

theorem execTeamctlDestroy_storeInv {q : Nat} {s : State} (h : StoreInv s) :
    Keeps (execTeamctlDestroy q s) StoreInv := runPacket_storeInv h (fun _ _ => by
    split
    · exact trivial
    · exact destroyLaunch_storeInv h)

theorem execTeamctlResume_storeInv {q : Nat} {s : State} (h : StoreInv s) :
    Keeps (execTeamctlResume q s) StoreInv := runPacket_storeInv h (fun _ _ => by
    split
    · exact trivial
    · exact foldl_storeInv (fun _ _ hu => resumeTeam_storeInv hu) h)

theorem faultReply_storeInv {name : String} {outcome q : Nat} {s : State} {f : State → Nat → FaultRec → State} (h : StoreInv s)
    (hf : ∀ u x y, StoreInv u → StoreInv (f u x y)) : Keeps (faultReply name outcome q s f) StoreInv := by
  refine runPacket_storeInv h fun _ p => ?_
  split
  · trivial
  · split
    · trivial
    · exact hf _ _ _ h

theorem execFaultreplyRetry_storeInv {q : Nat} {s : State} (h : StoreInv s) :
    Keeps (execFaultreplyRetry q s) StoreInv := faultReply_storeInv h (fun _ _ _ hu => retryFault_storeInv hu)

theorem failRecorded_storeInv {s : State} {id : Nat} {f : FaultRec} (h : StoreInv s) :
    StoreInv (failRecorded s id f) := by
  unfold failRecorded
  dsimp only
  split
  · exact moveRecords_storeInv (failFault_storeInv h)
  · exact failFault_storeInv h

theorem execFaultreplyFail_storeInv {q : Nat} {s : State} (h : StoreInv s) :
    Keeps (execFaultreplyFail q s) StoreInv := faultReply_storeInv h (fun _ _ _ hu => failRecorded_storeInv hu)

theorem execFaultring_storeInv {q : Nat} {s : State} (h : StoreInv s) :
    Keeps (execFaultring q s) StoreInv := runCommand_storeInv h (fun _ _ => by
    dsimp only
    split
    · exact trivial
    · split
      · exact trivial
      · split
        · exact trivial
        · split
          · exact trivial
          · exact drainFaults_storeInv (storeInv_with (paWrite_storeInv h)))

theorem execKeyarea_storeInv {q : Nat} {s : State} (h : StoreInv s) :
    Keeps (execKeyarea q s) StoreInv := runCommand_storeInv h (fun _ _ => by
    dsimp only
    split
    · exact trivial
    · split
      · exact trivial
      · split
        · exact trivial
        · exact h)

theorem execProtways_storeInv {q : Nat} {s : State} (h : StoreInv s) :
    Keeps (execProtways q s) StoreInv := runCommand_storeInv h (fun _ _ => by
    dsimp only
    split
    · exact trivial
    · exact State.setDie_storeInv (foldl_storeInv (fun _ _ hu => evictL2Line_storeInv hu) h))

theorem scrub_storeInv {s : State} {base len : Nat} (h : StoreInv s) : StoreInv (scrub s base len) :=
  clearPoison_storeInv (s := { s with store := { s.store with pa := _ }, dies := _, keys := _ }) ⟨Memory.zero_wf _ _ _ h.1, h.2⟩

theorem execScrub_storeInv {q : Nat} {s : State} (h : StoreInv s) :
    Keeps (execScrub q s) StoreInv := runCommand_storeInv h (fun _ _ => by
    dsimp only
    split
    · exact trivial
    · split
      · exact trivial
      · exact scrub_storeInv h)

theorem execAttest_storeInv {q : Nat} {s : State} (h : StoreInv s) :
    Keeps (execAttest q s) StoreInv := runCommand_storeInv h (fun _ _ => by
    dsimp only
    split
    · exact trivial
    · split
      · exact trivial
      · split
        · exact trivial
        · split
          · exact trivial
          · exact vaWrite_storeInv h)

theorem execTracekey_storeInv {q : Nat} {s : State} (h : StoreInv s) : Keeps (execTracekey q s) StoreInv := by
  refine runCommand_storeInv h fun _ _ => ?_
  generalize Crypto.hpkeOpen = f
  as_aux_lemma =>
    dsimp only
    split
    · trivial
    · split
      · trivial
      · split
        · split
          · trivial
          · exact h
        · trivial

end Sys2Proof.Machine
end

section
/-! THE FORM OF THE MEMORY (O59): the registers of the driver (model file Machine/HostIf). -/

namespace Sys2Proof.Machine

theorem execHostWindowAccess_storeInv {link win off len : Nat} {wr : Bool} {data : List Byte} {s : State} (h : StoreInv s) :
    Keeps (execHostWindowAccess link win off len wr data s) StoreInv := by
  unfold execHostWindowAccess
  dsimp only
  split
  · exact idle_storeInv
  · split
    · exact keeps_next h
    · exact keeps_next (newReq_storeInv h rfl)

theorem disableQueues_storeInv {s : State} {v : Dword} (h : StoreInv s) :
    StoreInv (disableQueues s v) := storeInv_with (foldl_storeInv (fun _ _ hu => unmapSlot_storeInv hu)
        (foldl_storeInv (fun _ _ hu => setPending_storeInv hu) h))

theorem execQtbaseWrite_storeInv {v : Dword} {s : State} (h : StoreInv s) :
    Keeps (execQtbaseWrite v s) StoreInv := by
  unfold execQtbaseWrite
  dsimp only
  split
  · exact idle_storeInv
  · split
    · exact keeps_next h
    · split
      · exact keeps_next h
      · exact keeps_next (disableQueues_storeInv h)

theorem execCxldecWrite_storeInv {v : Dword} {s : State} (h : StoreInv s) :
    Keeps (execCxldecWrite v s) StoreInv := by
  unfold execCxldecWrite
  dsimp only
  split
  · exact idle_storeInv
  · split
    · exact keeps_next h
    · split
      · exact keeps_next h
      · exact idle_storeInv

theorem writeCoreReg_storeInv {s : State} {core off : Nat} {v : Dword} (h : StoreInv s) :
    StoreInv (writeCoreReg s core off v) := storeInv_ite h (storeInv_ite h h)

theorem writeRegister_storeInv {s : State} {off : Nat} {v : Dword} (h : StoreInv s) :
    StoreInv (writeRegister s off v) := by
  unfold writeRegister
  dsimp only
  apply storeInv_ite
  · exact h
  · apply storeInv_ite
    · exact storeInv_ite h h
    · exact storeInv_ite (storeInv_ite h h) (storeInv_ite h (storeInv_ite (writeCoreReg_storeInv h) h))

theorem execRegisterWrite_storeInv {off : Nat} {v : Dword} {s : State} (h : StoreInv s) :
    Keeps (execRegisterWrite off v s) StoreInv := by
  unfold execRegisterWrite
  split
  · exact idle_storeInv
  · exact keeps_next (writeRegister_storeInv h)

theorem execCulvertLinkStateChange_storeInv {link : Nat} {up : Bool} {s : State} (h : StoreInv s) :
    Keeps (execCulvertLinkStateChange link up s) StoreInv := by
  unfold execCulvertLinkStateChange
  dsimp only
  split
  · exact idle_storeInv
  · exact keeps_next h

theorem execCxlPortStateChange_storeInv {port : Nat} {up : Bool} {s : State} (h : StoreInv s) :
    Keeps (execCxlPortStateChange port up s) StoreInv := by
  unfold execCxlPortStateChange
  dsimp only
  split
  · exact idle_storeInv
  · exact keeps_next h

end Sys2Proof.Machine
end

section
/-! THE FORM OF THE MEMORY (O59): the ROM and the resets (model file Machine/Boot). -/

namespace Sys2Proof.Machine

theorem bootReadTo_storeInv {s : State} {n : Nat} (h : StoreInv s) :
    StoreInv (bootReadTo s n) := storeInv_ite h (storeInv_ite h h)

theorem loadImage_storeInv {s : State} (h : StoreInv s) {r : Nat × State} (hx : loadImage s = r) :
    StoreInv r.2 := by
  subst hx
  unfold loadImage
  dsimp only
  split
  · exact bootReadTo_storeInv (bootReadTo_storeInv h)
  · exact bootReadTo_storeInv h

theorem startImage_storeInv {s : State} (h : StoreInv s) :
    StoreInv (startImage s) := by
  unfold startImage
  dsimp only
  exact h

theorem bootRead_storeInv {s : State} {n : Nat} (h : StoreInv s) :
    Keeps (bootRead s n) StoreInv := by
  unfold bootRead
  split
  · exact keeps_next (bootReadTo_storeInv h)
  · exact idle_storeInv

theorem bootError_storeInv {s : State} (h : StoreInv s) :
    Keeps (bootError s) StoreInv := by
  unfold bootError
  dsimp only
  split
  · exact keeps_next h
  · exact idle_storeInv

theorem execGo_storeInv {v : Word} {s : State} (h : StoreInv s) :
    Keeps (execGo v s) StoreInv := by
  unfold execGo
  dsimp only
  split
  · exact idle_storeInv
  · split
    · exact keeps_next h
    · exact keeps_next h

theorem execBootLoadComplete_storeInv {s : State} (h : StoreInv s) :
    Keeps (execBootLoadComplete s) StoreInv := by
  unfold execBootLoadComplete
  dsimp only
  split
  · exact idle_storeInv
  · split
    · next e' => exact keeps_next (startImage_storeInv (loadImage_storeInv h e'))
    · next e₂ => exact keeps_next (storeInv_with (loadImage_storeInv h e₂))

theorem fusesLeft_storeInv {s : State} (h : StoreInv s) {r : Nat × State} (hx : fusesLeft s = r) :
    StoreInv r.2 := by
  subst hx
  unfold fusesLeft
  dsimp only
  split
  · exact h
  · exact h

theorem wipeDevice_storeInv {s : State} (h : StoreInv s) : StoreInv (wipeDevice s) := by
  have hf : StoreInv (fusesLeft s).2 := fusesLeft_storeInv h rfl
  exact ⟨Memory.filter_wf _ _ hf.1, Memory.empty_wf⟩

theorem resetDevice_storeInv {s : State} (h : StoreInv s) :
    StoreInv (resetDevice s) := selfTest_storeInv (wipeDevice_storeInv h)

theorem losePower_storeInv {s : State} (h : StoreInv s) :
    StoreInv (losePower s) := storeInv_with (wipeDevice_storeInv h)

theorem execResetreq_storeInv {v : Word} {s : State} (h : StoreInv s) :
    Keeps (execResetreq v s) StoreInv := by
  unfold execResetreq
  split
  · exact idle_storeInv
  · split
    · exact keeps_next (resetDevice_storeInv h)
    · exact keeps_next h

theorem execPowerOnReset_storeInv {s : State} (h : StoreInv s) :
    Keeps (execPowerOnReset s) StoreInv := by
  unfold execPowerOnReset
  split
  · exact idle_storeInv
  · exact keeps_next (resetDevice_storeInv h)

theorem execDeviceReset_storeInv {s : State} (h : StoreInv s) :
    Keeps (execDeviceReset s) StoreInv := by
  unfold execDeviceReset
  split
  · exact keeps_next (resetDevice_storeInv h)
  · exact idle_storeInv

theorem execPowerLoss_storeInv {s : State} (h : StoreInv s) :
    Keeps (execPowerLoss s) StoreInv := by
  unfold execPowerLoss
  split
  · exact keeps_next (losePower_storeInv h)
  · exact idle_storeInv

theorem execCoolantFault_storeInv {s : State} (h : StoreInv s) :
    Keeps (execCoolantFault s) StoreInv := by
  unfold execCoolantFault
  split
  · exact keeps_next (losePower_storeInv h)
  · exact idle_storeInv

end Sys2Proof.Machine
end

section
/-! THE FORM OF THE MEMORY (O59): the windows (model file Machine/Bar). -/

namespace Sys2Proof.Machine

theorem barRead_storeInv {s : State} {off n : Nat} (h : StoreInv s) :
    Keeps (barRead s off n) StoreInv := by
  unfold barRead
  split
  · exact keeps_next h
  · exact idle_storeInv

end Sys2Proof.Machine
end

section
/-! THE FORM OF THE MEMORY (O59): the debugger and the commands' ends (model file Machine/Debug). -/

namespace Sys2Proof.Machine

theorem runDebug_storeInv {name : String} {op q : Nat} {s : State} {f : QEnt → List Byte → Verdict} (h : StoreInv s)
    (hf : ∀ e p, (f e p).storeInv) : Keeps (runDebug name op q s f) StoreInv := runPacket_storeInv h hf

theorem withGroup_storeInv {s : State} {p : List Byte} {f : Nat → Team → Nat → Group → Verdict}
    (hf : ∀ x0 x1 x2 x3, (f x0 x1 x2 x3).storeInv) :
    (withGroup s p f).storeInv := by
  unfold withGroup
  split
  · exact trivial
  · split
    · exact trivial
    · exact hf _ _ _ _

theorem execDbgctlBpset_storeInv {q : Nat} {s : State} (h : StoreInv s) :
    Keeps (execDbgctlBpset q s) StoreInv := runDebug_storeInv h (fun _ _ => by
    dsimp only
    split
    · exact trivial
    · split
      · exact trivial
      · split
        · exact trivial
        · split
          · exact trivial
          · exact h)

theorem holdPath_storeInv {s : State} {t g : Nat} {grp : Group} {e : Nat × Path} (h : StoreInv s) :
    StoreInv (holdPath s t g grp e) := storeInv_ite h (storeInv_ite h h)

theorem holdPaths_storeInv {s : State} {t g : Nat} (h : StoreInv s) :
    StoreInv (holdPaths s t g) := by
  unfold holdPaths
  dsimp only
  split
  · exact landAll_storeInv h
  · exact foldl_storeInv (fun _ _ hu => holdPath_storeInv hu) (landAll_storeInv h)

theorem execDbgctlStop_storeInv {q : Nat} {s : State} (h : StoreInv s) :
    Keeps (execDbgctlStop q s) StoreInv := by
  unfold execDbgctlStop
  exact runDebug_storeInv h (fun _ _ => withGroup_storeInv (fun _ _ _ _ => storeInv_ite h (holdPaths_storeInv h)))

theorem execDbgctlResume_storeInv {q : Nat} {s : State} (h : StoreInv s) :
    Keeps (execDbgctlResume q s) StoreInv := runDebug_storeInv h (fun _ _ => withGroup_storeInv (fun _ _ _ _ => h))

theorem execDbgctlStep_storeInv {q : Nat} {s : State} (h : StoreInv s) :
    Keeps (execDbgctlStep q s) StoreInv := runDebug_storeInv h (fun _ _ => withGroup_storeInv (fun _ _ _ _ => by
    split
    · exact h
    · exact trivial))

theorem dump_storeInv {s : State} {a : Nat} {team : Team} {g : Nat} {grp : Group} (h : StoreInv s) :
    StoreInv (dump s a team g grp) := paWrite_storeInv (paWrite_storeInv (paWrite_storeInv h))

theorem execDbgctlDump_storeInv {q : Nat} {s : State} (h : StoreInv s) :
    Keeps (execDbgctlDump q s) StoreInv := runDebug_storeInv h (fun _ _ => withGroup_storeInv (fun _ _ _ _ => by
    dsimp only
    split
    · exact trivial
    · split
      · exact trivial
      · exact dump_storeInv h))

theorem overwriteName_storeInv {s : State} {t g v : Nat} {b : List Byte} (h : StoreInv s) :
    StoreInv (overwriteName s t g v b) := by
  unfold overwriteName
  dsimp only
  split
  · exact h
  · exact h

theorem writeScalar_storeInv {s : State} {t g : Nat} {grp : Group} {p : List Byte} {r : Nat} {v : Word} (h : StoreInv s) :
    StoreInv (writeScalar s t g grp p r v) := foldl_storeInv (fun _ _ hu => writeS_storeInv hu) (storeInv_ite (writeS_storeInv h) h)

theorem execDbgctlWrite_storeInv {q : Nat} {s : State} (h : StoreInv s) :
    Keeps (execDbgctlWrite q s) StoreInv := runDebug_storeInv h (fun _ _ => withGroup_storeInv (fun _ _ _ _ => by
    dsimp only
    split
    · exact trivial
    · split
      · exact trivial
      · split
        · exact trivial
        · split
          · exact trivial
          · split
            · split
              · exact overwriteName_storeInv h
              · split
                · exact overwriteName_storeInv h
                · exact trivial
            · split
              · exact writeScalar_storeInv h
              · exact h))

theorem execTracectl_storeInv {q : Nat} {s : State} (h : StoreInv s) :
    Keeps (execTracectl q s) StoreInv := runCommand_storeInv h (fun _ _ => by
    dsimp only
    split
    · exact trivial
    · split
      · exact h
      · split
        · exact trivial
        · split
          · exact trivial
          · exact h)

theorem commandEnd_storeInv {s : State} {p : List Byte} (h : StoreInv s) : StoreInv (commandEnd s p) := by
  unfold commandEnd
  split
  · exact fwdEnd_storeInv h
  · exact grantEnd_storeInv h
  · exact h

theorem execCommandComplete_storeInv {q : Nat} {s : State} (h : StoreInv s) :
    Keeps (execCommandComplete q s) StoreInv := by
  unfold execCommandComplete
  split
  · split
    · exact keeps_next (updQ_storeInv (commandEnd_storeInv h))
    · split
      · exact keeps_next (grantWithdraw_storeInv h)
      · exact idle_storeInv
  · exact idle_storeInv

end Sys2Proof.Machine
end

section
/-! THE FORM OF THE MEMORY (O59): errors, power and heat (model file Machine/Health). -/

namespace Sys2Proof.Machine

theorem execEccCorrected_storeInv {index : Nat} {s : State} (h : StoreInv s) :
    Keeps (execEccCorrected index s) StoreInv := by
  unfold execEccCorrected
  split
  · exact keeps_next h
  · exact idle_storeInv

theorem class2_storeInv {s : State} (h : StoreInv s) :
    StoreInv (class2 s) := storeInv_ite (raiseHealth_storeInv h) h

theorem execSectorPoison_storeInv {kind unit x : Nat} {s : State} (h : StoreInv s) :
    Keeps (execSectorPoison kind unit x s) StoreInv := by
  unfold execSectorPoison
  dsimp only
  split
  · exact idle_storeInv
  · split
    · split
      · exact idle_storeInv
      · exact keeps_next (class2_storeInv (setPoison_storeInv h))
    · split
      · exact idle_storeInv
      · exact keeps_next (class2_storeInv (setPoison_storeInv h))
    · split
      · exact keeps_next (class2_storeInv (notePoison_storeInv h))
      · exact idle_storeInv
    · split
      · exact keeps_next (class2_storeInv (notePoison_storeInv h))
      · exact idle_storeInv
    · exact idle_storeInv

theorem execResync_storeInv {q : Nat} {s : State} (h : StoreInv s) :
    Keeps (execResync q s) StoreInv := runCommand_storeInv h (fun _ _ => by
    dsimp only
    split
    · exact trivial
    · split
      · exact trivial
      · exact paWrite_storeInv h)

theorem execPowercap_storeInv {q : Nat} {s : State} (h : StoreInv s) :
    Keeps (execPowercap q s) StoreInv := runCommand_storeInv h (fun _ _ => by
    dsimp only
    split
    · exact trivial
    · exact h)

theorem setClock_storeInv {s : State} {n : Nat} (h : StoreInv s) :
    StoreInv (setClock s n) := setHealth_storeInv h

theorem execPowerThrottle_storeInv {sixteenths : Nat} {s : State} (h : StoreInv s) :
    Keeps (execPowerThrottle sixteenths s) StoreInv := by
  unfold execPowerThrottle
  split
  · exact keeps_next (setClock_storeInv h)
  · exact idle_storeInv

theorem execThermalThrottle_storeInv {die : Nat} {s : State} (h : StoreInv s) :
    Keeps (execThermalThrottle die s) StoreInv := by
  unfold execThermalThrottle
  dsimp only
  split
  · exact keeps_next (setClock_storeInv h)
  · exact idle_storeInv

theorem execThermalTrip_storeInv {die : Nat} {s : State} (h : StoreInv s) :
    Keeps (execThermalTrip die s) StoreInv := by
  unfold execThermalTrip
  split
  · exact keeps_next (raiseHealth_storeInv h)
  · exact idle_storeInv

end Sys2Proof.Machine
end

section
/-! THE FORM OF THE MEMORY (O59): the links between dies (model file Machine/Links). -/

namespace Sys2Proof.Machine

theorem updLink_storeInv {s : State} {l : Nat} {f : Link → Link} (h : StoreInv s) :
    StoreInv (updLink s l f) := h

theorem sendBare_storeInv {s : State} {l : Nat} {nak : Option Nat} (h : StoreInv s) :
    StoreInv (sendBare s l nak) := storeInv_ite h h

theorem drainQueue_storeInv {l n : Nat} {s : State} (h : StoreInv s) : StoreInv (drainQueue l n s) := by
  induction n generalizing s with
  | zero => exact h
  | succ n ih =>
    unfold drainQueue
    extract_lets x
    split
    · exact h
    · apply storeInv_ite
      · exact ih (updLink_storeInv (sendOn_storeInv h))
      · exact h

theorem freeOnly_storeInv {s : State} {l a : Nat} (h : StoreInv s) :
    StoreInv (freeOnly s l a) := h

theorem freeFlits_storeInv {s : State} {l a : Nat} (h : StoreInv s) :
    StoreInv (freeFlits s l a) := drainQueue_storeInv h

theorem resendAll_storeInv {s : State} {l : Nat} (h : StoreInv s) : StoreInv (resendAll s l) := by
  unfold resendAll
  exact storeInv_ite h (drainQueue_storeInv (carryAck_storeInv h))

theorem hopDone_storeInv {s : State} {l : Nat} {m : Message} (h : StoreInv s) :
    StoreInv (hopDone s l m) := by
  unfold hopDone
  dsimp only
  split
  · exact h
  · split
    · exact sendOn_storeInv (setHops_storeInv h)
    · split
      · exact takeAnswer_storeInv (setHops_storeInv h)
      · exact setHops_storeInv h
    · exact setHops_storeInv h

theorem chargeModule_storeInv {s : State} {l m : Nat} {lowBad highBad : Bool} (h : StoreInv s) :
    StoreInv (chargeModule s l m lowBad highBad) := storeInv_ite h h

theorem nakNow_storeInv {s : State} {l : Nat} (h : StoreInv s) :
    StoreInv (nakNow s l) := storeInv_ite h (sendBare_storeInv h)

theorem badFlit_storeInv {s : State} {l m : Nat} {lowBad highBad : Bool} (h : StoreInv s) :
    StoreInv (badFlit s l m lowBad highBad) := nakNow_storeInv (countError_storeInv (chargeModule_storeInv h))

theorem goodFlit_storeInv {s : State} {l : Nat} {f : Flit} {ack : Option Nat} (h : StoreInv s) : StoreInv (goodFlit s l f ack) := by
  have hacked : StoreInv (match ack with | some a => freeFlits s (reverseOf l) a | none => s) := by
    split
    · exact freeFlits_storeInv h
    · exact h
  unfold goodFlit
  dsimp only
  apply storeInv_ite
  · have hu := updLink_storeInv (l := l) (f := fun x => { x with
      exp := (x.exp + 1) % 65536, nak := none
      ackSince := (match ack with | some a => freeFlits s (reverseOf l) a | none => s).refclk }) hacked
    split
    · exact storeInv_ite (hopDone_storeInv hu) hu
    · exact hu
  · apply storeInv_ite
    · exact sendBare_storeInv h
    · exact hacked

theorem nakFlit_storeInv {s : State} {l : Nat} {f : Flit} (h : StoreInv s) : StoreInv (nakFlit s l f) :=
  resendAll_storeInv (freeOnly_storeInv (updLink_storeInv h))

theorem execFlitReceive_storeInv {link : Nat} {lowBad highBad : Bool} {s : State} (h : StoreInv s) :
    Keeps (execFlitReceive link lowBad highBad s) StoreInv := by
  unfold execFlitReceive
  dsimp only
  split
  · exact keeps_refused
  · split
    · exact keeps_refused
    · split
      · exact keeps_next (badFlit_storeInv h)
      · split
        · exact keeps_next (goodFlit_storeInv h)
        · refine keeps_next ?_
          split
          · exact freeFlits_storeInv h
          · exact h
        · exact keeps_next (nakFlit_storeInv h)
        · exact keeps_next (badFlit_storeInv h)

theorem execAckIdleTimer_storeInv {link : Nat} {s : State} (h : StoreInv s) :
    Keeps (execAckIdleTimer link s) StoreInv := by
  unfold execAckIdleTimer
  dsimp only
  split
  · exact keeps_next (sendBare_storeInv h)
  · exact idle_storeInv

theorem execNakRepeatTimer_storeInv {link : Nat} {s : State} (h : StoreInv s) :
    Keeps (execNakRepeatTimer link s) StoreInv := by
  unfold execNakRepeatTimer
  dsimp only
  split
  · exact idle_storeInv
  · split
    · exact keeps_next (sendBare_storeInv h)
    · exact idle_storeInv

theorem execReplayTimeout_storeInv {link : Nat} {s : State} (h : StoreInv s) : Keeps (execReplayTimeout link s) StoreInv := by
  unfold execReplayTimeout
  dsimp only
  split
  · exact keeps_refused
  · split
    · exact keeps_next (resendAll_storeInv h)
    · exact keeps_refused

theorem haltWriter_storeInv {s : State} {r : Req} (h : StoreInv s) :
    StoreInv (haltWriter s r) := by
  unfold haltWriter
  split
  · exact h
  · exact h

theorem haltWaiters_storeInv {s : State} {id : Nat} {r : Req} (h : StoreInv s) :
    StoreInv (haltWaiters s id r) := by
  unfold haltWaiters
  dsimp only
  exact foldl_storeInv (fun _ _ hu => foldl_storeInv (fun _ _ hv => foldl_storeInv (fun _ _ hw' => by
    split
    · exact storeInv_ite hw' hw'
    · exact hw') hv) hu) (foldl_storeInv (fun _ _ hu => failAccess_storeInv hu) h)

theorem loseReq_storeInv {s : State} {l id : Nat} {there : Bool} (h : StoreInv s) :
    StoreInv (loseReq s l id there) := by
  unfold loseReq
  dsimp only
  split
  · exact h
  · apply storeInv_ite
    · apply storeInv_ite
      · split
        · exact h
        · split
          · exact State.setDie_storeInv (dropReq_storeInv (haltWaiters_storeInv (haltWriter_storeInv h)))
          · exact State.setDie_storeInv (dropReq_storeInv (failReq_storeInv h))
      · split
        · exact h
        · exact dropReq_storeInv (storeInv_ite (haltWaiters_storeInv (haltWriter_storeInv h)) (failReq_storeInv h))
    · split
      · exact h
      · exact storeInv_with (storeInv_ite (haltWaiters_storeInv (haltWriter_storeInv h)) (failReq_storeInv h))

theorem loseMessage_storeInv {s : State} {l : Nat} {m : Message} (h : StoreInv s) :
    StoreInv (loseMessage s l m) := by
  unfold loseMessage
  dsimp only
  split
  · exact loseReq_storeInv h
  · exact loseReq_storeInv h
  · split
    · exact h
    · apply storeInv_ite
      · exact storeInv_with (stopIssuer_storeInv (storeInv_ite (setHold_storeInv h) h))
      · exact stopIssuer_storeInv (storeInv_ite (setHold_storeInv h) h)

theorem dropLink_storeInv {s : State} {l : Nat} (h : StoreInv s) :
    StoreInv (dropLink s l) := by
  unfold dropLink
  dsimp only
  exact foldl_storeInv (fun _ _ hu => by
    apply storeInv_ite
    · exact hu
    · apply storeInv_ite
      · exact setOff_storeInv (setHops_storeInv hu)
      · split
        · exact sendOn_storeInv (setHops_storeInv hu)
        · exact setHops_storeInv hu) (foldl_storeInv (fun _ _ hu => loseMessage_storeInv hu) h)

theorem endRetrain_storeInv {s : State} {l m st : Nat} (h : StoreInv s) :
    StoreInv (endRetrain s l m st) := h

theorem execRetrainComplete_storeInv {link module : Nat} {s : State} (h : StoreInv s) :
    Keeps (execRetrainComplete link module s) StoreInv := by
  unfold execRetrainComplete
  extract_lets -lift md rd lowFailed both
  split
  · exact keeps_refused
  · have hdraw : StoreInv (if both then s.draw else (0, s)).2 := by
      cases both with
      | true => exact h
      | false => exact h
    generalize (if both then s.draw else (0, s)) = x at hdraw ⊢
    obtain ⟨k, u⟩ := x
    simp -zeta only
    extract_lets low st v w
    have hw : StoreInv w := raiseHealth_storeInv (countError_storeInv (endRetrain_storeInv (endRetrain_storeInv hdraw)))
    clear_value w
    apply keeps_ite
    · exact keeps_next (dropLink_storeInv (dropLink_storeInv (raiseHealth_storeInv (countError_storeInv hw))))
    · exact keeps_next (drainQueue_storeInv (drainQueue_storeInv hw))

theorem execClockBeatSend_storeInv {src dst : Nat} {s : State} (h : StoreInv s) :
    Keeps (execClockBeatSend src dst s) StoreInv := by
  unfold execClockBeatSend
  dsimp only
  split
  · exact idle_storeInv
  · exact keeps_next (setOff_storeInv (State.setDie_storeInv (updReq_storeInv (newReq_storeInv h rfl))))

theorem execClockBeat_storeInv {src dst : Nat} {s : State} (h : StoreInv s) :
    Keeps (execClockBeat src dst s) StoreInv := by
  unfold execClockBeat
  split
  · exact idle_storeInv
  · exact keeps_next h

end Sys2Proof.Machine
end

section
/-! THE FORM OF THE MEMORY (O59): the maps (model file Machine/Map). -/

namespace Sys2Proof.Machine

theorem runM_storeInv {w : Bool} {s : State} {need : List Nat} {f : Env → Res} (hs : StoreInv s) (hf : ∀ x, (f x).storeInv) :
    Keeps (runM w s need f) StoreInv := runG_storeInv hs (fun _ => by
    split
    · exact hf _
    · exact trivial)

theorem mapEdit_storeInv {s : State} {e : Env} {f : Team → Team} (h : StoreInv s) :
    StoreInv (mapEdit s e f) := h

theorem execNmove_storeInv {w : Bool} {d a : BitVec 7} {s : State} (h : StoreInv s) :
    Keeps (execNmove w d a s) StoreInv := runM_storeInv h (fun _ => h)

theorem execNswap_storeInv {w : Bool} {d a : BitVec 7} {s : State} (h : StoreInv s) :
    Keeps (execNswap w d a s) StoreInv := runM_storeInv h (fun _ => h)

theorem execNperm_storeInv {w : Bool} {d a k : BitVec 7} {s : State} (h : StoreInv s) :
    Keeps (execNperm w d a k s) StoreInv := runM_storeInv h (fun _ => h)

theorem execNalias_storeInv {w : Bool} {d a : BitVec 7} {s : State} (h : StoreInv s) :
    Keeps (execNalias w d a s) StoreInv := runM_storeInv h (fun _ => h)

theorem execNdrop_storeInv {w : Bool} {a : BitVec 7} {s : State} (h : StoreInv s) :
    Keeps (execNdrop w a s) StoreInv := runM_storeInv h (fun _ => h)

theorem execNfresh_storeInv {w : Bool} {d : BitVec 7} {s : State} (h : StoreInv s) :
    Keeps (execNfresh w d s) StoreInv := runM_storeInv h (fun _ => by
    split
    · exact h
    · exact needRows_storeInv h)

theorem mapStatus_storeInv {s : State} {e : Env} {sts : BitVec 7} {v : Word} (h : StoreInv s) :
    StoreInv (mapStatus s e sts v) := storeInv_ite h (writeS_storeInv h)

theorem execNgive_storeInv {w : Bool} {sts a slot : BitVec 7} {s : State} (h : StoreInv s) :
    Keeps (execNgive w sts a slot s) StoreInv := runM_storeInv h (fun _ => by
    dsimp only
    split
    · exact mapStatus_storeInv h
    · split
      · exact mapStatus_storeInv (mapEdit_storeInv (landRow_storeInv h))
      · exact mapStatus_storeInv h)

theorem execNtake_storeInv {w : Bool} {d sts slot : BitVec 7} {s : State} (h : StoreInv s) :
    Keeps (execNtake w d sts slot s) StoreInv := runM_storeInv h (fun _ => by
    split
    · exact mapStatus_storeInv h
    · exact mapStatus_storeInv h)

theorem execNquery_storeInv {w : Bool} {d a : BitVec 7} {s : State} (h : StoreInv s) :
    Keeps (execNquery w d a s) StoreInv := runM_storeInv h (fun _ => writeS_storeInv h)

end Sys2Proof.Machine
end

section
/-! THE FORM OF THE MEMORY (O59): the floating-point words (model file Machine/VecFloat). -/

namespace Sys2Proof.Machine

theorem arith32_storeInv {w : Bool} {r : BitVec 2} {d a b : BitVec 7} {s : State} {op : Mode → FV → FV → FV × Nat}
    (h : StoreInv s) :
    Keeps (arith32 w r d a b s op) StoreInv := by
  unfold arith32
  exact vf3_storeInv h

theorem arith64_storeInv {w : Bool} {d a b : BitVec 7} {s : State} {op : Mode → FV → FV → FV × Nat} (h : StoreInv s) :
    Keeps (arith64 w d a b s op) StoreInv := vf3p_storeInv h

theorem execVfaddF32_storeInv {w : Bool} {r : BitVec 2} {d a b : BitVec 7} {s : State} (h : StoreInv s) :
    Keeps (execVfaddF32 w r d a b s) StoreInv := arith32_storeInv h

theorem execVfsubF32_storeInv {w : Bool} {r : BitVec 2} {d a b : BitVec 7} {s : State} (h : StoreInv s) :
    Keeps (execVfsubF32 w r d a b s) StoreInv := arith32_storeInv h

theorem execVfmulF32_storeInv {w : Bool} {r : BitVec 2} {d a b : BitVec 7} {s : State} (h : StoreInv s) :
    Keeps (execVfmulF32 w r d a b s) StoreInv := arith32_storeInv h

theorem execVfaddF64_storeInv {w : Bool} {d a b : BitVec 7} {s : State} (h : StoreInv s) :
    Keeps (execVfaddF64 w d a b s) StoreInv := arith64_storeInv h

theorem execVfsubF64_storeInv {w : Bool} {d a b : BitVec 7} {s : State} (h : StoreInv s) :
    Keeps (execVfsubF64 w d a b s) StoreInv := arith64_storeInv h

theorem execVfmulF64_storeInv {w : Bool} {d a b : BitVec 7} {s : State} (h : StoreInv s) :
    Keeps (execVfmulF64 w d a b s) StoreInv := arith64_storeInv h

theorem execVffmaF32_storeInv {w : Bool} {r : BitVec 2} {d a b : BitVec 7} {s : State} (h : StoreInv s) :
    Keeps (execVffmaF32 w r d a b s) StoreInv := by
  unfold execVffmaF32
  exact vf3acc_storeInv h

theorem execVffmaF64_storeInv {w : Bool} {r : BitVec 2} {d a b : BitVec 7} {s : State} (h : StoreInv s) :
    Keeps (execVffmaF64 w r d a b s) StoreInv := runV_storeInv h

theorem execVfaddminF32_storeInv {w : Bool} {d a b : BitVec 7} {s : State} (h : StoreInv s) :
    Keeps (execVfaddminF32 w d a b s) StoreInv := vf3acc_storeInv h

theorem packedOp_storeInv {w t : Bool} {d a b : BitVec 7} {s : State} {op : FV → FV → FV × Nat} (h : StoreInv s) :
    Keeps (packedOp w t d a b s op) StoreInv := vf3_storeInv h

theorem execVfaddPacked_storeInv {w t : Bool} {d a b : BitVec 7} {s : State} (h : StoreInv s) :
    Keeps (execVfaddPacked w t d a b s) StoreInv := packedOp_storeInv h

theorem execVfsubPacked_storeInv {w t : Bool} {d a b : BitVec 7} {s : State} (h : StoreInv s) :
    Keeps (execVfsubPacked w t d a b s) StoreInv := packedOp_storeInv h

theorem execVfmulPacked_storeInv {w t : Bool} {d a b : BitVec 7} {s : State} (h : StoreInv s) :
    Keeps (execVfmulPacked w t d a b s) StoreInv := packedOp_storeInv h

theorem execVffmaPacked_storeInv {w t : Bool} {d a b : BitVec 7} {s : State} (h : StoreInv s) :
    Keeps (execVffmaPacked w t d a b s) StoreInv := vf3acc_storeInv h

theorem execVfminPacked_storeInv {w t : Bool} {d a b : BitVec 7} {s : State} (h : StoreInv s) :
    Keeps (execVfminPacked w t d a b s) StoreInv := packedOp_storeInv h

theorem execVfmaxPacked_storeInv {w t : Bool} {d a b : BitVec 7} {s : State} (h : StoreInv s) :
    Keeps (execVfmaxPacked w t d a b s) StoreInv := packedOp_storeInv h

theorem execVfdot2_storeInv {w t : Bool} {d a b : BitVec 7} {s : State} (h : StoreInv s) :
    Keeps (execVfdot2 w t d a b s) StoreInv := vf3acc_storeInv h

theorem execVcvt_storeInv {w : Bool} {c : BitVec 4} {d a : BitVec 7} {t : BitVec 4} {r : BitVec 2} {n : Bool} {s : State}
    (h : StoreInv s) :
    Keeps (execVcvt w c d a t r n s) StoreInv := by
  unfold execVcvt
  dsimp only
  split
  · exact runV_storeInv h
  · exact runV_storeInv h

theorem execVcvtPkBf16x2_storeInv {w : Bool} {d a b : BitVec 7} {s : State} (h : StoreInv s) :
    Keeps (execVcvtPkBf16x2 w d a b s) StoreInv := vf3_storeInv h

theorem execVcvtPkF16x2_storeInv {w : Bool} {d a b : BitVec 7} {s : State} (h : StoreInv s) :
    Keeps (execVcvtPkF16x2 w d a b s) StoreInv := vf3_storeInv h

theorem execVquant_storeInv {w : Bool} {f : BitVec 3} {d a b : BitVec 7} {s : State} (h : StoreInv s) :
    Keeps (execVquant w f d a b s) StoreInv := runV_storeInv h

theorem execVdequant_storeInv {w : Bool} {f : BitVec 3} {d a b : BitVec 7} {s : State} (h : StoreInv s) :
    Keeps (execVdequant w f d a b s) StoreInv := runV_storeInv h

theorem execVtrit_storeInv {w : Bool} {d a b : BitVec 7} {s : State} (h : StoreInv s) :
    Keeps (execVtrit w d a b s) StoreInv := vf3_storeInv h

theorem execVrcpF32_storeInv {w : Bool} {r : BitVec 2} {d a : BitVec 7} {s : State} (h : StoreInv s) :
    Keeps (execVrcpF32 w r d a s) StoreInv := vf2_storeInv h

theorem execVsqrtF32_storeInv {w : Bool} {r : BitVec 2} {d a : BitVec 7} {s : State} (h : StoreInv s) :
    Keeps (execVsqrtF32 w r d a s) StoreInv := vf2_storeInv h

theorem execVdivF32_storeInv {w : Bool} {r : BitVec 2} {d a b : BitVec 7} {s : State} (h : StoreInv s) :
    Keeps (execVdivF32 w r d a b s) StoreInv := vf3_storeInv h

theorem execVexp2F32_storeInv {w : Bool} {d a : BitVec 7} {s : State} (h : StoreInv s) :
    Keeps (execVexp2F32 w d a s) StoreInv := vf2_storeInv h

theorem execVlog2F32_storeInv {w : Bool} {d a : BitVec 7} {s : State} (h : StoreInv s) :
    Keeps (execVlog2F32 w d a s) StoreInv := vf2_storeInv h

theorem execVsinF32_storeInv {w : Bool} {d a : BitVec 7} {s : State} (h : StoreInv s) :
    Keeps (execVsinF32 w d a s) StoreInv := vf2_storeInv h

theorem execVcosF32_storeInv {w : Bool} {d a : BitVec 7} {s : State} (h : StoreInv s) :
    Keeps (execVcosF32 w d a s) StoreInv := vf2_storeInv h

theorem execVfcmpF32_storeInv {w : Bool} {c p : BitVec 3} {a b : BitVec 7} {s : State} (h : StoreInv s) :
    Keeps (execVfcmpF32 w c p a b s) StoreInv := vcompare_storeInv h

theorem execVfcmpF64_storeInv {w : Bool} {c p : BitVec 3} {a b : BitVec 7} {s : State} (h : StoreInv s) :
    Keeps (execVfcmpF64 w c p a b s) StoreInv := vcompare_storeInv h

theorem execVfclassF32_storeInv {w : Bool} {p : BitVec 3} {a k : BitVec 7} {s : State} (h : StoreInv s) :
    Keeps (execVfclassF32 w p a k s) StoreInv := vcompare_storeInv h

theorem execVfclassF64_storeInv {w : Bool} {p : BitVec 3} {a k : BitVec 7} {s : State} (h : StoreInv s) :
    Keeps (execVfclassF64 w p a k s) StoreInv := vcompare_storeInv h

theorem execVfminF32_storeInv {w : Bool} {d a b : BitVec 7} {s : State} (h : StoreInv s) :
    Keeps (execVfminF32 w d a b s) StoreInv := vf3_storeInv h

theorem execVfmaxF32_storeInv {w : Bool} {d a b : BitVec 7} {s : State} (h : StoreInv s) :
    Keeps (execVfmaxF32 w d a b s) StoreInv := vf3_storeInv h

theorem execVfminF64_storeInv {w : Bool} {d a b : BitVec 7} {s : State} (h : StoreInv s) :
    Keeps (execVfminF64 w d a b s) StoreInv := vf3p_storeInv h

theorem execVfmaxF64_storeInv {w : Bool} {d a b : BitVec 7} {s : State} (h : StoreInv s) :
    Keeps (execVfmaxF64 w d a b s) StoreInv := vf3p_storeInv h

theorem execVfabsF32_storeInv {w : Bool} {d a : BitVec 7} {s : State} (h : StoreInv s) :
    Keeps (execVfabsF32 w d a s) StoreInv := vf2_storeInv h

theorem execVfnegF32_storeInv {w : Bool} {d a : BitVec 7} {s : State} (h : StoreInv s) :
    Keeps (execVfnegF32 w d a s) StoreInv := vf2_storeInv h

theorem execVfcsgnF32_storeInv {w : Bool} {d a b : BitVec 7} {s : State} (h : StoreInv s) :
    Keeps (execVfcsgnF32 w d a b s) StoreInv := vf3_storeInv h

theorem execVfabsF64_storeInv {w : Bool} {d a : BitVec 7} {s : State} (h : StoreInv s) :
    Keeps (execVfabsF64 w d a s) StoreInv := vf2p_storeInv h

theorem execVfnegF64_storeInv {w : Bool} {d a : BitVec 7} {s : State} (h : StoreInv s) :
    Keeps (execVfnegF64 w d a s) StoreInv := vf2p_storeInv h

theorem execVfcsgnF64_storeInv {w : Bool} {d a b : BitVec 7} {s : State} (h : StoreInv s) :
    Keeps (execVfcsgnF64 w d a b s) StoreInv := vf3p_storeInv h

theorem fred32_storeInv {w : Bool} {d a : BitVec 7} {s : State} {mode : Mode} {unit : FV} {op : FV → FV → FV × Nat}
    (h : StoreInv s) :
    Keeps (fred32 w d a s mode unit op) StoreInv := runV_storeInv h

theorem fred64_storeInv {w : Bool} {d a : BitVec 7} {s : State} {unit : FV} {op : FV → FV → FV × Nat} (h : StoreInv s) :
    Keeps (fred64 w d a s unit op) StoreInv := runV_storeInv h

theorem execVfredAddF32_storeInv {w : Bool} {r : BitVec 2} {d a : BitVec 7} {s : State} (h : StoreInv s) :
    Keeps (execVfredAddF32 w r d a s) StoreInv := fred32_storeInv h

theorem execVfscanAddF32_storeInv {w : Bool} {r : BitVec 2} {d a : BitVec 7} {s : State} (h : StoreInv s) :
    Keeps (execVfscanAddF32 w r d a s) StoreInv := runV_storeInv h

theorem execVfredMaxF32_storeInv {w : Bool} {d a : BitVec 7} {s : State} (h : StoreInv s) :
    Keeps (execVfredMaxF32 w d a s) StoreInv := fred32_storeInv h

theorem execVfredMinF32_storeInv {w : Bool} {d a : BitVec 7} {s : State} (h : StoreInv s) :
    Keeps (execVfredMinF32 w d a s) StoreInv := fred32_storeInv h

theorem execVfredAddF64_storeInv {w : Bool} {d a : BitVec 7} {s : State} (h : StoreInv s) :
    Keeps (execVfredAddF64 w d a s) StoreInv := fred64_storeInv h

theorem execVfredMaxF64_storeInv {w : Bool} {d a : BitVec 7} {s : State} (h : StoreInv s) :
    Keeps (execVfredMaxF64 w d a s) StoreInv := fred64_storeInv h

theorem execVfredMinF64_storeInv {w : Bool} {d a : BitVec 7} {s : State} (h : StoreInv s) :
    Keeps (execVfredMinF64 w d a s) StoreInv := fred64_storeInv h

theorem execVfscanAddF64_storeInv {w : Bool} {d a : BitVec 7} {s : State} (h : StoreInv s) :
    Keeps (execVfscanAddF64 w d a s) StoreInv := runV_storeInv h

end Sys2Proof.Machine
end

section
/-! THE FORM OF THE MEMORY (O59): every instruction and event (model file Machine/Dispatch). -/

namespace Sys2Proof.Machine

theorem exec_storeInv {i : Instr} {s : State} (h : StoreInv s) : Keeps (exec i s) StoreInv := by
  cases i with
  | clauseHeader => exact execClauseHeader_storeInv h
  | pfx => exact execPfx_storeInv h
  | sadd => exact execSadd_storeInv h
  | ssub => exact execSsub_storeInv h
  | smul => exact execSmul_storeInv h
  | smulwI32 => exact execSmulwI32_storeInv h
  | smulwN32 => exact execSmulwN32_storeInv h
  | sdivI32 => exact execSdivI32_storeInv h
  | sdivN32 => exact execSdivN32_storeInv h
  | sremI32 => exact execSremI32_storeInv h
  | sremN32 => exact execSremN32_storeInv h
  | sand => exact execSand_storeInv h
  | sor => exact execSor_storeInv h
  | sxor => exact execSxor_storeInv h
  | sandn => exact execSandn_storeInv h
  | sshl => exact execSshl_storeInv h
  | sshr => exact execSshr_storeInv h
  | ssra => exact execSsra_storeInv h
  | sminI32 => exact execSminI32_storeInv h
  | sminN32 => exact execSminN32_storeInv h
  | smaxI32 => exact execSmaxI32_storeInv h
  | smaxN32 => exact execSmaxN32_storeInv h
  | saddB64 => exact execSaddB64_storeInv h
  | ssubB64 => exact execSsubB64_storeInv h
  | smulB64 => exact execSmulB64_storeInv h
  | saddwI32 => exact execSaddwI32_storeInv h
  | saddwN32 => exact execSaddwN32_storeInv h
  | sshlB64 => exact execSshlB64_storeInv h
  | sshrB64 => exact execSshrB64_storeInv h
  | ssraB64 => exact execSsraB64_storeInv h
  | sandB64 => exact execSandB64_storeInv h
  | sorB64 => exact execSorB64_storeInv h
  | sxorB64 => exact execSxorB64_storeInv h
  | saddi => exact execSaddi_storeInv h
  | saddiB64 => exact execSaddiB64_storeInv h
  | smovl => exact execSmovl_storeInv h
  | smovh => exact execSmovh_storeInv h
  | smovs => exact execSmovs_storeInv h
  | scmpI32 => exact execScmpI32_storeInv h
  | scmpN32 => exact execScmpN32_storeInv h
  | scmpB64 => exact execScmpB64_storeInv h
  | ssel => exact execSsel_storeInv h
  | sselB64 => exact execSselB64_storeInv h
  | sshli => exact execSshli_storeInv h
  | sshri => exact execSshri_storeInv h
  | ssrai => exact execSsrai_storeInv h
  | sbfxN32 => exact execSbfxN32_storeInv h
  | sbfxI32 => exact execSbfxI32_storeInv h
  | sbfi => exact execSbfi_storeInv h
  | spopc => exact execSpopc_storeInv h
  | sclz => exact execSclz_storeInv h
  | sctz => exact execSctz_storeInv h
  | sbrev => exact execSbrev_storeInv h
  | sshliB64 => exact execSshliB64_storeInv h
  | sshriB64 => exact execSshriB64_storeInv h
  | ssraiB64 => exact execSsraiB64_storeInv h
  | spopcB64 => exact execSpopcB64_storeInv h
  | sclzB64 => exact execSclzB64_storeInv h
  | sctzB64 => exact execSctzB64_storeInv h
  | br => exact execBr_storeInv h
  | brAny => exact execBrAny_storeInv h
  | brZ => exact execBrZ_storeInv h
  | brNz => exact execBrNz_storeInv h
  | brv => exact execBrv_storeInv h
  | brvN => exact execBrvN_storeInv h
  | call => exact execCall_storeInv h
  | ret => exact execRet_storeInv h
  | jt => exact execJt_storeInv h
  | jtCall => exact execJtCall_storeInv h
  | jr => exact execJr_storeInv h
  | jrCall => exact execJrCall_storeInv h
  | rejoin => exact execRejoin_storeInv h
  | eqp => exact execEqp_storeInv h
  | ppush => exact execPpush_storeInv h
  | ppushN => exact execPpushN_storeInv h
  | pinv => exact execPinv_storeInv h
  | ppop => exact execPpop_storeInv h
  | pand => exact execPand_storeInv h
  | por => exact execPor_storeInv h
  | pxor => exact execPxor_storeInv h
  | pandn => exact execPandn_storeInv h
  | pnot => exact execPnot_storeInv h
  | pelect => exact execPelect_storeInv h
  | pld => exact execPld_storeInv h
  | pst => exact execPst_storeInv h
  | pcnt => exact execPcnt_storeInv h
  | barSync => exact execBarSync_storeInv h
  | wait => exact execWait_storeInv h
  | waitcnt => exact execWaitcnt_storeInv h
  | exit => exact execExit_storeInv h
  | trap => exact execTrap_storeInv h
  | brk => exact execBrk_storeInv h
  | nop => exact execNop_storeInv h
  | rdsr => exact execRdsr_storeInv h
  | rdsrPair => exact execRdsrPair_storeInv h
  | wrsr => exact execWrsr_storeInv h
  | efork => exact execEfork_storeInv h
  | erdv => exact execErdv_storeInv h
  | hintSucc => exact execHintSucc_storeInv h
  | waitPred => exact execWaitPred_storeInv h
  | migrReq => exact execMigrReq_storeInv h
  | rdsrVector => exact execRdsrVector_storeInv h
  | rdctx => exact execRdctx_storeInv h
  | emretTo => exact execEmretTo_storeInv h
  | emretSkip => exact execEmretSkip_storeInv h
  | nmove => exact execNmove_storeInv h
  | nalias => exact execNalias_storeInv h
  | nswap => exact execNswap_storeInv h
  | ndrop => exact execNdrop_storeInv h
  | nfresh => exact execNfresh_storeInv h
  | ngive => exact execNgive_storeInv h
  | ntake => exact execNtake_storeInv h
  | nperm => exact execNperm_storeInv h
  | nquery => exact execNquery_storeInv h
  | vaddI32 => exact execVaddI32_storeInv h
  | vsubI32 => exact execVsubI32_storeInv h
  | vmulI32 => exact execVmulI32_storeInv h
  | vmulhiI32 => exact execVmulhiI32_storeInv h
  | vmulhiN32 => exact execVmulhiN32_storeInv h
  | vminI32 => exact execVminI32_storeInv h
  | vminN32 => exact execVminN32_storeInv h
  | vmaxI32 => exact execVmaxI32_storeInv h
  | vmaxN32 => exact execVmaxN32_storeInv h
  | vaddsI32 => exact execVaddsI32_storeInv h
  | vsubsI32 => exact execVsubsI32_storeInv h
  | vabsI32 => exact execVabsI32_storeInv h
  | vaddminI32 => exact execVaddminI32_storeInv h
  | vcopy => exact execVcopy_storeInv h
  | vaddB64 => exact execVaddB64_storeInv h
  | vsubB64 => exact execVsubB64_storeInv h
  | vand => exact execVand_storeInv h
  | vor => exact execVor_storeInv h
  | vxor => exact execVxor_storeInv h
  | vandn => exact execVandn_storeInv h
  | vnot => exact execVnot_storeInv h
  | vshl => exact execVshl_storeInv h
  | vshr => exact execVshr_storeInv h
  | vsra => exact execVsra_storeInv h
  | vpopc => exact execVpopc_storeInv h
  | vclz => exact execVclz_storeInv h
  | vctz => exact execVctz_storeInv h
  | vbrev => exact execVbrev_storeInv h
  | vaddiI32 => exact execVaddiI32_storeInv h
  | vmuliI32 => exact execVmuliI32_storeInv h
  | vandi => exact execVandi_storeInv h
  | vori => exact execVori_storeInv h
  | vxori => exact execVxori_storeInv h
  | vminiI32 => exact execVminiI32_storeInv h
  | vmaxiI32 => exact execVmaxiI32_storeInv h
  | vshli => exact execVshli_storeInv h
  | vshri => exact execVshri_storeInv h
  | vsrai => exact execVsrai_storeInv h
  | vmovi => exact execVmovi_storeInv h
  | vmoviH => exact execVmoviH_storeInv h
  | vmoviZ => exact execVmoviZ_storeInv h
  | vcmpI32 => exact execVcmpI32_storeInv h
  | vcmpN32 => exact execVcmpN32_storeInv h
  | vtst => exact execVtst_storeInv h
  | vsel => exact execVsel_storeInv h
  | vshfl => exact execVshfl_storeInv h
  | vlsh => exact execVlsh_storeInv h
  | vbcast => exact execVbcast_storeInv h
  | vbcastS => exact execVbcastS_storeInv h
  | vregroupRecv => exact execVregroupRecv_storeInv h
  | vregroupSend => exact execVregroupSend_storeInv h
  | vredAddI32 => exact execVredAddI32_storeInv h
  | vredMinI32 => exact execVredMinI32_storeInv h
  | vredMinN32 => exact execVredMinN32_storeInv h
  | vredMaxI32 => exact execVredMaxI32_storeInv h
  | vredMaxN32 => exact execVredMaxN32_storeInv h
  | vredAnd => exact execVredAnd_storeInv h
  | vredOr => exact execVredOr_storeInv h
  | vredXor => exact execVredXor_storeInv h
  | vscanAddI32 => exact execVscanAddI32_storeInv h
  | vscanMaxI32 => exact execVscanMaxI32_storeInv h
  | vvoteAny => exact execVvoteAny_storeInv h
  | vvoteAll => exact execVvoteAll_storeInv h
  | vvoteFirst => exact execVvoteFirst_storeInv h
  | vballot => exact execVballot_storeInv h
  | vdot4I8 => exact execVdot4I8_storeInv h
  | vdot4N8 => exact execVdot4N8_storeInv h
  | vfaddF32 => exact execVfaddF32_storeInv h
  | vfsubF32 => exact execVfsubF32_storeInv h
  | vfmulF32 => exact execVfmulF32_storeInv h
  | vfaddF64 => exact execVfaddF64_storeInv h
  | vfsubF64 => exact execVfsubF64_storeInv h
  | vfmulF64 => exact execVfmulF64_storeInv h
  | vffmaF32 => exact execVffmaF32_storeInv h
  | vffmaF64 => exact execVffmaF64_storeInv h
  | vfaddminF32 => exact execVfaddminF32_storeInv h
  | vfaddPacked => exact execVfaddPacked_storeInv h
  | vfsubPacked => exact execVfsubPacked_storeInv h
  | vfmulPacked => exact execVfmulPacked_storeInv h
  | vffmaPacked => exact execVffmaPacked_storeInv h
  | vfminPacked => exact execVfminPacked_storeInv h
  | vfmaxPacked => exact execVfmaxPacked_storeInv h
  | vfdot2 => exact execVfdot2_storeInv h
  | vcvt => exact execVcvt_storeInv h
  | vcvtPkBf16x2 => exact execVcvtPkBf16x2_storeInv h
  | vcvtPkF16x2 => exact execVcvtPkF16x2_storeInv h
  | vquant => exact execVquant_storeInv h
  | vdequant => exact execVdequant_storeInv h
  | vtrit => exact execVtrit_storeInv h
  | vrcpF32 => exact execVrcpF32_storeInv h
  | vsqrtF32 => exact execVsqrtF32_storeInv h
  | vdivF32 => exact execVdivF32_storeInv h
  | vexp2F32 => exact execVexp2F32_storeInv h
  | vlog2F32 => exact execVlog2F32_storeInv h
  | vsinF32 => exact execVsinF32_storeInv h
  | vcosF32 => exact execVcosF32_storeInv h
  | vfcmpF32 => exact execVfcmpF32_storeInv h
  | vfcmpF64 => exact execVfcmpF64_storeInv h
  | vfclassF32 => exact execVfclassF32_storeInv h
  | vfclassF64 => exact execVfclassF64_storeInv h
  | vfminF32 => exact execVfminF32_storeInv h
  | vfmaxF32 => exact execVfmaxF32_storeInv h
  | vfminF64 => exact execVfminF64_storeInv h
  | vfmaxF64 => exact execVfmaxF64_storeInv h
  | vfabsF32 => exact execVfabsF32_storeInv h
  | vfnegF32 => exact execVfnegF32_storeInv h
  | vfcsgnF32 => exact execVfcsgnF32_storeInv h
  | vfabsF64 => exact execVfabsF64_storeInv h
  | vfnegF64 => exact execVfnegF64_storeInv h
  | vfcsgnF64 => exact execVfcsgnF64_storeInv h
  | vfredAddF32 => exact execVfredAddF32_storeInv h
  | vfscanAddF32 => exact execVfscanAddF32_storeInv h
  | vfredMaxF32 => exact execVfredMaxF32_storeInv h
  | vfredMinF32 => exact execVfredMinF32_storeInv h
  | vfredAddF64 => exact execVfredAddF64_storeInv h
  | vfredMaxF64 => exact execVfredMaxF64_storeInv h
  | vfredMinF64 => exact execVfredMinF64_storeInv h
  | vfscanAddF64 => exact execVfscanAddF64_storeInv h
  | vld => exact execVld_storeInv h
  | vst => exact execVst_storeInv h
  | vatom => exact execVatom_storeInv h
  | fatom => exact execFatom_storeInv h
  | vldSp => exact execVldSp_storeInv h
  | vstSp => exact execVstSp_storeInv h
  | vldNv => exact execVldNv_storeInv h
  | vstNv => exact execVstNv_storeInv h
  | vcacheWb => exact execVcacheWb_storeInv h
  | vcacheWbinv => exact execVcacheWbinv_storeInv h
  | vcachePf => exact execVcachePf_storeInv h
  | vcacheDemote => exact execVcacheDemote_storeInv h
  | sld => exact execSld_storeInv h
  | sst => exact execSst_storeInv h
  | satom => exact execSatom_storeInv h
  | satomNr => exact execSatomNr_storeInv h
  | fence => exact execFence_storeInv h
  | xfence => exact execXfence_storeInv h
  | tlfence _ sc => exact execTlfence_storeInv (_sc := sc) h
  | ifence => exact execIfence_storeInv h
  | cpyLd => exact execCpyLd_storeInv h
  | cpySlot => exact execCpySlot_storeInv h
  | cpySt => exact execCpySt_storeInv h
  | cpyGg => exact execCpyGg_storeInv h
  | cpyGth => exact execCpyGth_storeInv h
  | cpyMc => exact execCpyMc_storeInv h
  | cpyMcSlot => exact execCpyMcSlot_storeInv h
  | tnset => exact execTnset_storeInv h
  | tnget => exact execTnget_storeInv h
  | cbat => exact execCbat_storeInv h
  | cwait => exact execCwait_storeInv h
  | cwaitR => exact execCwaitR_storeInv h
  | tbinit => exact execTbinit_storeInv h
  | tbarrive => exact execTbarrive_storeInv h
  | tbarriveR => exact execTbarriveR_storeInv h
  | tbwait => exact execTbwait_storeInv h
  | tbphase => exact execTbphase_storeInv h
  | sltake => exact execSltake_storeInv h
  | slrel => exact execSlrel_storeInv h
  | sltag => exact execSltag_storeInv h
  | slinit => exact execSlinit_storeInv h
  | qpush => exact execQpush_storeInv h
  | qpushTry => exact execQpushTry_storeInv h
  | qwait => exact execQwait_storeInv h
  | qpopTry => exact execQpopTry_storeInv h
  | vmma => exact execVmma_storeInv h
  | fmm => exact execFmm_storeInv h
  | fmmt => exact execFmmt_storeInv h
  | fpoly => exact execFpoly_storeInv h
  | fiter => exact execFiter_storeInv h
  | ftmask => exact execFtmask_storeInv h
  | ftmaskAnc => exact execFtmaskAnc_storeInv h
  | faccLd => exact execFaccLd_storeInv h
  | faccStF32 => exact execFaccStF32_storeInv h
  | faccStBf16 => exact execFaccStBf16_storeInv h
  | faccStF16 => exact execFaccStF16_storeInv h
  | faccRd => exact execFaccRd_storeInv h
  | faccZero => exact execFaccZero_storeInv h
  | fcset => exact execFcset_storeInv h
  | fcget => exact execFcget_storeInv h
  | fcld => exact execFcld_storeInv h
  | fslotTake => exact execFslotTake_storeInv h
  | fslotRelease => exact execFslotRelease_storeInv h
  | ftbarrive => exact execFtbarrive_storeInv h
  | emulationEntry => exact execEmulationEntry_storeInv h
  | packetNop => exact execPacketNop_storeInv h
  | launch => exact execLaunch_storeInv h
  | signal => exact execSignal_storeInv h
  | signalWaitallRelease => exact execSignalWaitallRelease_storeInv h
  | waitmem => exact execWaitmem_storeInv h
  | waitmemSatisfied => exact execWaitmemSatisfied_storeInv h
  | fieldset => exact execFieldset_storeInv h
  | fieldsetDestroy => exact execFieldsetDestroy_storeInv h
  | setctx => exact execSetctx_storeInv h
  | setctxDestroy => exact execSetctxDestroy_storeInv h
  | wqcreate => exact execWqcreate_storeInv h
  | wqDestroy => exact execWqDestroy_storeInv h
  | graphrun => exact execGraphrun_storeInv h
  | graphedit => exact execGraphedit_storeInv h
  | fwdupdate => exact execFwdupdate_storeInv h
  | xlateinv => exact execXlateinv_storeInv h
  | syninv => exact execSyninv_storeInv h
  | vaultgrant => exact execVaultgrant_storeInv h
  | preempt => exact execPreempt_storeInv h
  | teamctlDestroy => exact execTeamctlDestroy_storeInv h
  | teamctlResume => exact execTeamctlResume_storeInv h
  | faultreplyRetry => exact execFaultreplyRetry_storeInv h
  | faultreplyFail => exact execFaultreplyFail_storeInv h
  | faultring => exact execFaultring_storeInv h
  | vaultcarve => exact execVaultcarve_storeInv h
  | keyarea => exact execKeyarea_storeInv h
  | protways => exact execProtways_storeInv h
  | scrub => exact execScrub_storeInv h
  | attest => exact execAttest_storeInv h
  | tracekey => exact execTracekey_storeInv h
  | dbgctlBpset => exact execDbgctlBpset_storeInv h
  | dbgctlStop => exact execDbgctlStop_storeInv h
  | dbgctlResume => exact execDbgctlResume_storeInv h
  | dbgctlStep => exact execDbgctlStep_storeInv h
  | dbgctlDump => exact execDbgctlDump_storeInv h
  | dbgctlWrite => exact execDbgctlWrite_storeInv h
  | tracectl => exact execTracectl_storeInv h
  | resync => exact execResync_storeInv h
  | powercap => exact execPowercap_storeInv h
  | doorbell => exact execDoorbell_storeInv h
  | queueScan => exact execQueueScan_storeInv h
  | orphanLatch => exact execOrphanLatch_storeInv h
  | qtbaseWrite => exact execQtbaseWrite_storeInv h
  | cxldecWrite => exact execCxldecWrite_storeInv h
  | registerWrite => exact execRegisterWrite_storeInv h
  | go => exact execGo_storeInv h
  | resetreq => exact execResetreq_storeInv h
  | bootLoadComplete => exact execBootLoadComplete_storeInv h
  | powerOnReset => exact execPowerOnReset_storeInv h
  | deviceReset => exact execDeviceReset_storeInv h
  | hostWindowAccess => exact execHostWindowAccess_storeInv h
  | teamAdmit => exact execTeamAdmit_storeInv h
  | teamSaveComplete => exact execTeamSaveComplete_storeInv h
  | teamRestore => exact execTeamRestore_storeInv h
  | drainTimeout => exact execDrainTimeout_storeInv h
  | serviceLimitExpiry => exact execServiceLimitExpiry_storeInv h
  | migration => exact execMigration_storeInv h
  | eqpHoldTimeout => exact execEqpHoldTimeout_storeInv h
  | clearSequenceDone => exact execClearSequenceDone_storeInv h
  | keyReseat => exact execKeyReseat_storeInv h
  | walkComplete => exact execWalkComplete_storeInv h
  | faultRingRoom => exact execFaultRingRoom_storeInv h
  | homeRequest => exact execHomeRequest_storeInv h
  | clockBeatSend => exact execClockBeatSend_storeInv h
  | clockBeat => exact execClockBeat_storeInv h
  | replyReceive => exact execReplyReceive_storeInv h
  | resultReturn => exact execResultReturn_storeInv h
  | storePerformed => exact execStorePerformed_storeInv h
  | sectorLand => exact execSectorLand_storeInv h
  | l2WriteQueuePerform => exact execL2WriteQueuePerform_storeInv h
  | flumeOpApplied => exact execFlumeOpApplied_storeInv h
  | fiterStop => exact execFiterStop_storeInv h
  | waitTimeout => exact execWaitTimeout_storeInv h
  | waitMemwordPoll => exact execWaitMemwordPoll_storeInv h
  | rowPoolEmpty => exact execRowPoolEmpty_storeInv h
  | queueRequestAtHome => exact execQueueRequestAtHome_storeInv h
  | llScoreHalve => exact execLlScoreHalve_storeInv h
  | llCapUpdate => exact execLlCapUpdate_storeInv h
  | sampleTag => exact execSampleTag_storeInv h
  | flitReceive => exact execFlitReceive_storeInv h
  | ackIdleTimer => exact execAckIdleTimer_storeInv h
  | nakRepeatTimer => exact execNakRepeatTimer_storeInv h
  | replayTimeout => exact execReplayTimeout_storeInv h
  | retrainComplete => exact execRetrainComplete_storeInv h
  | coreUncorrectableError => exact execCoreUncorrectableError_storeInv h
  | eccCorrected => exact execEccCorrected_storeInv h
  | sectorPoison => exact execSectorPoison_storeInv h
  | laneDefect => exact execLaneDefect_storeInv h
  | powerThrottle => exact execPowerThrottle_storeInv h
  | thermalThrottle => exact execThermalThrottle_storeInv h
  | thermalTrip => exact execThermalTrip_storeInv h
  | coolantFault => exact execCoolantFault_storeInv h
  | culvertLinkStateChange => exact execCulvertLinkStateChange_storeInv h
  | cxlPortStateChange => exact execCxlPortStateChange_storeInv h
  | powerLoss => exact execPowerLoss_storeInv h
  | commandComplete => exact execCommandComplete_storeInv h
  | referenceRewrite => exact execReferenceRewrite_storeInv h
  | remapFilterWalkComplete => exact execRemapFilterWalkComplete_storeInv h

end Sys2Proof.Machine
end

section
/-! THE FORM OF THE MEMORY (O59): who issues, the time and the inputs (model file Machine/Sched). -/

namespace Sys2Proof.Machine

theorem onNext_storeInv {o : Out} {f : State → State} (ho : Keeps o StoreInv) (hf : ∀ u, StoreInv u → StoreInv (f u)) :
    Keeps (onNext o f) StoreInv := by
  cases o with
  | next s => exact keeps_next (hf s (ho s rfl))
  | fault => exact keeps_fault
  | refused => exact keeps_refused

theorem due_storeInv {o : Out} {s : State} (ho : Keeps o StoreInv) (h : StoreInv s) : StoreInv (due o s) := by
  cases o with
  | next s => exact ho s rfl
  | fault => exact h
  | refused => exact h

theorem keepOld_storeInv {s : State} {e : Env} {pc : Nat} (h : StoreInv s) :
    StoreInv (keepOld s e pc) := h

theorem groupHeader_storeInv {s : State} {e : Env} (h : StoreInv s) : Keeps (groupHeader s e) StoreInv := by
  unfold groupHeader
  extract_lets pc
  split
  · exact keeps_next (stopGroup_storeInv h)
  · next hx =>
    have hv := (hx ▸ fetch_storeInv h rfl : (Fetched.waiting _).storeInv)
    exact keeps_next (standAt_storeInv hv)
  · next b v hx =>
    have hv := (hx ▸ fetch_storeInv h rfl : (Fetched.bytes _ _).storeInv)
    have hu := storeInv_ite (c := pc = e.path.pc.toNat) hv
      (updPath_storeInv (t := e.t) (g := e.g) (p := e.p) (f := fun p => { p with pc := BitVec.ofNat 64 pc }) hv)
    dsimp only
    split
    · exact keeps_ite (exec_storeInv hu) (onNext_storeInv (exec_storeInv hu) fun _ hw => keepOld_storeInv hw)
    · exact keeps_next (stopGroup_storeInv hu)

theorem groupWord_storeInv {s : State} {e : Env} {c : Clause} {w : Word} (h : StoreInv s) : Keeps (groupWord s e c w) StoreInv := by
  unfold groupWord
  dsimp only
  split
  · exact finish_storeInv h trivial
  · exact exec_storeInv h

theorem sampleIssue_storeInv {s : State} {e : Env} (h : StoreInv s) :
    StoreInv (sampleIssue s e) := State.setSlice_storeInv (due_storeInv (execSampleTag_storeInv h) h)

theorem prepare_storeInv {s : State} {e : Env} {w : Word} (h : StoreInv s) :
    StoreInv (prepare s e w) := storeInv_ite (settleEarly_storeInv (settleLate_storeInv h)) h

theorem linkTag_storeInv {b s : State} {e : Env} (hs : StoreInv s) :
    StoreInv (linkTag b s e) := by
  unfold linkTag
  dsimp only
  split
  · exact storeInv_ite hs hs
  · exact hs

theorem settlePath_storeInv {s : State} {t g p : Nat} {old : Path} (h : StoreInv s) :
    StoreInv (settlePath s t g p old) := by
  unfold settlePath
  dsimp only
  split
  · exact h
  · split
    · exact h
    · exact storeInv_ite h (storeInv_ite (storeInv_ite h h) (storeInv_ite h (storeInv_ite h (storeInv_ite h h))))

theorem settlePass_storeInv {s : State} {e : Env} (h : StoreInv s) :
    StoreInv (settlePass s e) := settlePath_storeInv h

theorem settlePasses_storeInv {b s : State} (hs : StoreInv s) :
    StoreInv (settlePasses b s) := foldl_storeInv (fun _ _ hu => settlePath_storeInv hu) hs

theorem countSkid_storeInv {s : State} {e : Env} (h : StoreInv s) :
    StoreInv (countSkid s e) := storeInv_ite h h

theorem settleWord_storeInv {b s : State} {e : Env} (hs : StoreInv s) :
    StoreInv (settleWord b s e) := by
  unfold settleWord
  dsimp only
  exact settlePass_storeInv (countSkid_storeInv (storeInv_ite (linkTag_storeInv (sampleIssue_storeInv hs)) hs))

theorem issueHere_storeInv {s : State} {e : Env} (h : StoreInv s) : Keeps (issueHere s e) StoreInv := by
  unfold issueHere
  split
  · exact keeps_next (pathStop_storeInv h)
  · split
    · exact onNext_storeInv (groupHeader_storeInv h) fun _ hu => settlePass_storeInv hu
    · split
      · exact keeps_fault
      · exact onNext_storeInv (groupWord_storeInv (prepare_storeInv h)) fun _ hu => settleWord_storeInv hu

theorem selectPath_storeInv {s : State} {t g p : Nat} (h : StoreInv s) :
    StoreInv (selectPath s t g p) := by
  unfold selectPath
  split
  · exact h
  · exact storeInv_ite h (updGroup_storeInv (landAll_storeInv h))

theorem issueFrom_storeInv {s : State} {t g p : Nat} (h : StoreInv s) : Keeps (issueFrom s t g p) StoreInv := by
  unfold issueFrom
  dsimp only
  split
  · exact issueHere_storeInv (selectPath_storeInv h)
  · exact keeps_fault

theorem promote_storeInv {core slice n : Nat} {s : State} (h : StoreInv s) : StoreInv (promote core slice n s) := by
  induction n generalizing s with
  | zero => exact h
  | succ n ih =>
    unfold promote
    apply storeInv_ite
    · exact h
    · split
      · exact h
      · exact ih (State.setSlice_storeInv h)

theorem exchange_storeInv {core slice : Nat} {l : List (Nat × Nat)} {s : State} (h : StoreInv s) :
    StoreInv (exchange core slice l s) := by
  induction l generalizing s with
  | nil => exact h
  | cons x l ih =>
    unfold exchange
    dsimp only
    split
    · exact h
    · exact ih (State.setSlice_storeInv h)

theorem refill_storeInv {s : State} {core slice : Nat} (h : StoreInv s) :
    StoreInv (refill s core slice) := exchange_storeInv (promote_storeInv h)

theorem issueTurn_storeInv {s : State} {core slice : Nat} {x : Nat × Nat} (h : StoreInv s) :
    Keeps (issueTurn s core slice x) StoreInv := by
  unfold issueTurn
  split
  · exact keeps_next h
  · exact issueFrom_storeInv (State.setSlice_storeInv h)

theorem issueAll_storeInv {core : Nat} {l : List (Nat × Nat × Nat)} {s : State} (h : StoreInv s) :
    Keeps (issueAll core l s) StoreInv := by
  induction l generalizing s with
  | nil => exact keeps_next h
  | cons x l ih =>
    have ht : Keeps (issueTurn s core x.1 x.2) StoreInv := issueTurn_storeInv h
    unfold issueAll
    cases hx : issueTurn s core x.1 x.2 with
    | next u => exact ih (settlePasses_storeInv (wakeAll_storeInv (ht u hx)))
    | fault => exact keeps_fault
    | refused => exact keeps_refused

theorem easeBusy_storeInv {n : Nat → Nat} {k : Nat → Group → Bool} {s : State} (h : StoreInv s) :
    StoreInv (easeBusy n k s) := storeInv_ite h h

theorem clockStep_storeInv {s : State} {core : Nat} {slices : List Nat} (h : StoreInv s) : Keeps (clockStep s core slices)
    StoreInv :=
  issueAll_storeInv (foldl_storeInv (fun _ _ hu => State.setSlice_storeInv hu)
    (foldl_storeInv (fun _ _ hu => refill_storeInv hu) (easeBusy_storeInv h)))

theorem keepOldSeq_storeInv {s : State} {e : SeqEnv} {pc : Nat} (h : StoreInv s) :
    StoreInv (keepOldSeq s e pc) := h

theorem seqHeader_storeInv {s : State} {e : SeqEnv} (h : StoreInv s) : Keeps (seqHeader s e) StoreInv := by
  unfold seqHeader
  extract_lets pc
  split
  · exact keeps_next (stopSeq_storeInv h)
  · next hx =>
    have hv := (hx ▸ fetch_storeInv h rfl : (Fetched.waiting _).storeInv)
    exact keeps_next (updSeq_storeInv hv)
  · next b v hx =>
    have hv := (hx ▸ fetch_storeInv h rfl : (Fetched.bytes _ _).storeInv)
    have hu := storeInv_ite (c := pc = e.seq.pc.toNat) hv
      (updSeq_storeInv (t := e.t) (flume := e.flume) (f := fun q => { q with pc := BitVec.ofNat 64 pc }) hv)
    dsimp only
    split
    · exact keeps_ite (exec_storeInv hu) (onNext_storeInv (exec_storeInv hu) fun _ hw => keepOldSeq_storeInv hw)
    · exact keeps_next (stopSeq_storeInv hu)

theorem seqWord_storeInv {s : State} {e : SeqEnv} {c : Clause} {w : Word} (h : StoreInv s) : Keeps (seqWord s e c w) StoreInv := by
  unfold seqWord
  dsimp only
  split
  · exact finishSeq_storeInv h trivial
  · exact exec_storeInv h

theorem countSeqSkid_storeInv {e : SeqEnv} {s : State} (h : StoreInv s) :
    StoreInv (countSeqSkid e s) := storeInv_ite h h

theorem seqBare_storeInv {s : State} {e : SeqEnv} (h : StoreInv s) : Keeps (seqBare s e) StoreInv := by
  unfold seqBare
  split
  · exact seqHeader_storeInv h
  · split
    · exact keeps_fault
    · split
      · exact keeps_next h
      · exact onNext_storeInv (seqWord_storeInv h) fun _ hu => countSeqSkid_storeInv hu

theorem seqStep_storeInv {s : State} {t : Nat} {flume : Bool} (h : StoreInv s) : Keeps (seqStep s t flume) StoreInv := by
  unfold seqStep
  dsimp only
  split
  · exact keeps_ite (seqBare_storeInv h) (keeps_next h)
  · exact keeps_next h

theorem llDue_storeInv {s : State} {core : Nat} (h : StoreInv s) : StoreInv (llDue s core) := by
  unfold llDue
  extract_lets -lift late n s₀ u v
  have hu : StoreInv u := State.setCore_storeInv h
  have hv : StoreInv v := due_storeInv (execLlScoreHalve_storeInv hu) hu
  exact due_storeInv (execLlCapUpdate_storeInv hv) hv

theorem landStanding_storeInv {s : State} {t g : Nat} {grp : Group} (h : StoreInv s) :
    StoreInv (landStanding s t g grp) := storeInv_ite h (updGroup_storeInv (foldl_storeInv (fun _ _ hu => landNow_storeInv hu) h))

theorem teamDue_storeInv {s : State} {t : Nat} {team : Team} (h : StoreInv s) : StoreInv (teamDue s t team) := by
  unfold teamDue
  extract_lets s₁ s₂ s₃ s₄
  have h₁ : StoreInv s₁ := due_storeInv (execServiceLimitExpiry_storeInv h) h
  have h₂ : StoreInv s₂ := due_storeInv (execDrainTimeout_storeInv h₁) h₁
  have h₃ : StoreInv s₃ := storeInv_ite (due_storeInv (execTeamSaveComplete_storeInv h₂) h₂) h₂
  have h₄ : StoreInv s₄ := foldl_storeInv (fun _ _ hu => due_storeInv (execWaitTimeout_storeInv hu) hu) h₃
  refine foldl_storeInv (fun u e hu => ?_) h₄
  have hp : StoreInv (e.2.paths.foldl (fun s p => due (execRowPoolEmpty t e.1 p.1 s) s) (landStanding u t e.1 e.2)) :=
    foldl_storeInv (fun _ _ hv => due_storeInv (execRowPoolEmpty_storeInv hv) hv) (landStanding_storeInv hu)
  exact due_storeInv (execEqpHoldTimeout_storeInv hp) hp

theorem beatDue_storeInv {s : State} {src dst : Nat} (h : StoreInv s) : StoreInv (beatDue s src dst) :=
  storeInv_ite (due_storeInv (execClockBeatSend_storeInv h) h) h

theorem clearDue_storeInv {s : State} {core : Nat} (h : StoreInv s) : StoreInv (clearDue s core) :=
  storeInv_ite (due_storeInv (execClearSequenceDone_storeInv h) h) h

theorem linkDue_storeInv {s : State} {l : Nat} (h : StoreInv s) : StoreInv (linkDue s l) := by
  unfold linkDue
  extract_lets s₁ s₂ s₃
  have h₁ : StoreInv s₁ := foldl_storeInv (fun _ _ hu => storeInv_ite (due_storeInv (execRetrainComplete_storeInv hu) hu) hu) h
  have h₂ : StoreInv s₂ := due_storeInv (execNakRepeatTimer_storeInv h₁) h₁
  have h₃ : StoreInv s₃ := due_storeInv (execReplayTimeout_storeInv h₂) h₂
  exact due_storeInv (execAckIdleTimer_storeInv h₃) h₃

theorem orphanDue_storeInv {s : State} {k since : Nat} (h : StoreInv s) : StoreInv (orphanDue s k since) :=
  storeInv_ite (due_storeInv (execOrphanLatch_storeInv h) h) h

theorem fireDue_storeInv {s : State} (h : StoreInv s) :
    StoreInv (fireDue s) := foldl_storeInv (fun _ _ hu => orphanDue_storeInv hu)
        (foldl_storeInv (fun _ _ hu => linkDue_storeInv hu)
            (foldl_storeInv (fun _ _ hu => foldl_storeInv (fun _ _ hv => beatDue_storeInv hv) hu)
                (foldl_storeInv (fun _ _ hu => clearDue_storeInv (llDue_storeInv hu))
                    (barAll_storeInv (wakeAll_storeInv (foldl_storeInv (fun _ _ hu => teamDue_storeInv hu) h))))))

theorem tick_storeInv {n : Nat} {s : State} (h : StoreInv s) : StoreInv (tick n s) := by
  induction n generalizing s with
  | zero => exact h
  | succ n ih => exact ih (fireDue_storeInv (easeBusy_storeInv h))

theorem hostWrite_storeInv {s : State} {pa : Nat} {bytes : List Byte} (h : StoreInv s) :
    Keeps (hostWrite s pa bytes) StoreInv := by
  unfold hostWrite
  split
  · exact keeps_next (unpoison_storeInv (foldl_storeInv (fun _ _ hu => paStore_storeInv hu) h))
  · exact keeps_refused

theorem placeBar_storeInv {s : State} {link pa : Nat} (h : StoreInv s) :
    Keeps (placeBar s link pa) StoreInv := by
  unfold placeBar
  dsimp only
  split
  · exact keeps_next h
  · exact keeps_refused

theorem handle_storeInv {s : State} {x : Input} (h : StoreInv s) : Keeps (handle s x) StoreInv := by
  cases x with
  | event => exact keeps_ite (exec_storeInv h) keeps_refused
  | clock => exact clockStep_storeInv h
  | seq => exact seqStep_storeInv h
  | tick => exact keeps_next (tick_storeInv h)
  | evictL1 => exact keeps_ite (keeps_next (evictL1Line_storeInv h)) keeps_refused
  | evictL2 => exact keeps_ite (keeps_next (evictL2Line_storeInv h)) keeps_refused
  | evictMsc => exact keeps_ite (keeps_next (evictMscLine_storeInv h)) keeps_refused
  | evictWalk | controller => exact keeps_next (State.setDie_storeInv h)
  | evictIcache => exact keeps_next (State.setCore_storeInv h)
  | split => exact keeps_next h
  | lanes => exact keeps_ite keeps_refused (keeps_next (progress_storeInv h))
  | target => exact schedulerTarget_storeInv h
  | bootRead => exact bootRead_storeInv h
  | bootError => exact bootError_storeInv h
  | barRead => exact barRead_storeInv h
  | host => exact hostWrite_storeInv h
  | bar => exact placeBar_storeInv h

theorem goOn_storeInv {s : State} (h : StoreInv s) : Keeps (goOn s) StoreInv := by
  unfold goOn
  split
  · dsimp only
    split
    · exact clockStep_storeInv h
    · exact seqStep_storeInv h
  · exact keeps_next (tick_storeInv h)

theorem settleDevice_storeInv {s : State} (h : StoreInv s) :
    StoreInv (settleDevice s) := foldl_storeInv (fun _ _ hu => applyRemaps_storeInv hu)
        (finishPark_storeInv (eqpAll_storeInv (barAll_storeInv (wakeAll_storeInv (releaseDelayed_storeInv h)))))

theorem afterStep_storeInv {b s : State} (hs : StoreInv s) :
    StoreInv (afterStep b s) := by
  unfold afterStep
  dsimp only
  apply storeInv_ite
  · exact finishTags_storeInv (traceStops_storeInv (notePoison_storeInv (settlePasses_storeInv (settleDevice_storeInv hs))))
  · exact notePoison_storeInv (settlePasses_storeInv (settleDevice_storeInv hs))

end Sys2Proof.Machine
end

section
/-! THE FORM OF THE MEMORY (O59, O60): a whole step, and the state after reset. -/

namespace Sys2Proof.Machine

/-- Settles O59: each function of the step keeps the form, by the lemmas above. -/
theorem storeFormKept : Obligations.StoreFormKept := by
  intro s h
  unfold step
  split
  · exact onNext_storeInv (handle_storeInv h) fun _ hu => afterStep_storeInv hu
  · exact onNext_storeInv (goOn_storeInv h) fun _ hu => afterStep_storeInv hu

/-- Settles O60. -/
theorem storeFormAtReset : Obligations.StoreFormAtReset := ⟨Memory.empty_wf, Memory.empty_wf⟩

end Sys2Proof.Machine
end

section
/-! THE HEADGATE'S PACKETS (O35 to O39): what becomes of a packet that stands first in an open queue, by the verdict of its checks, and
what a write of the Headgate leaves as it was. -/

namespace Sys2Proof.Machine

/-! ## A packet by its verdict (R350, R352) -/

section
variable {name : String} {isIt : List Byte → Bool} {priv : Bool} {q : Nat} {s : State} {f : QEnt → List Byte → Verdict} {e : QEnt}
  {p : List Byte}

theorem runPacket_unprivileged (hn : nextPacket s q = some (e, p)) (his : isIt p = true) (he : e.priv = false) :
    runPacket name isIt true q s f = .next (rejectPacket s q e 2) := by
  simp [runPacket, hn, his, he]

theorem runPacket_accept {u : State} (hn : nextPacket s q = some (e, p)) (his : isIt p = true) (he : priv = false ∨ e.priv = true)
    (hf : f e p = .accept u) : runPacket name isIt priv q s f = .next (acceptPacket u q e) := by
  have hpriv : (priv && !e.priv) = false := by rcases he with h | h <;> simp [h]
  simp only [runPacket, hn, his, hpriv, hf]
  rfl

theorem runPacket_command {u : State} {rs : List Nat} (hn : nextPacket s q = some (e, p)) (his : isIt p = true)
    (he : priv = false ∨ e.priv = true) (hf : f e p = .command u rs) :
    runPacket name isIt priv q s f = .next (updQ (acceptPacket u q e) q fun x => { x with block := some (.command p rs) }) := by
  have hpriv : (priv && !e.priv) = false := by rcases he with h | h <;> simp [h]
  simp only [runPacket, hn, his, hpriv, hf]
  rfl

theorem runPacket_wait {w : QWaitFor} (hn : nextPacket s q = some (e, p)) (his : isIt p = true) (he : priv = false ∨ e.priv = true)
    (hf : f e p = .wait w) : runPacket name isIt priv q s f = .next (updQ s q fun u => { u with block := some w }) := by
  have hpriv : (priv && !e.priv) = false := by rcases he with h | h <;> simp [h]
  simp only [runPacket, hn, his, hpriv, hf]
  rfl

theorem runPacket_fail {c : Nat} (hn : nextPacket s q = some (e, p)) (his : isIt p = true) (he : priv = false ∨ e.priv = true)
    (hf : f e p = .fail c) : runPacket name isIt priv q s f = .next (rejectPacket s q e c) := by
  have hpriv : (priv && !e.priv) = false := by rcases he with h | h <;> simp [h]
  simp only [runPacket, hn, his, hpriv, hf]
  rfl

end

@[simp] theorem updQ_queue (s : State) (q : Nat) (f : UQueue → UQueue) : (updQ s q f).queue q = f (s.queue q) := by
  simp [updQ, State.queue]

/-! ## What a write of the Headgate leaves as it was -/

/-- Nothing but the dies, the memory, HEALTH with its interrupt and the seals differs. -/
def WroteOnly (s u : State) : Prop :=
  u = { s with dies := u.dies, store := u.store, health := u.health, irqs := u.irqs, keys := { s.keys with seals := u.keys.seals } }

theorem WroteOnly.refl (s : State) : WroteOnly s s := rfl

theorem WroteOnly.trans {s u v : State} (h : WroteOnly s u) (h' : WroteOnly u v) : WroteOnly s v := by
  unfold WroteOnly at *
  rw [h', h]

theorem WroteOnly.ite {s u v : State} {c : Prop} [Decidable c] (h : WroteOnly s u) (h' : WroteOnly s v) :
    WroteOnly s (if c then u else v) := by
  split
  · exact h
  · exact h'

theorem WroteOnly.foldl {α : Type} {f : State → α → State} (hf : ∀ u x, WroteOnly u (f u x)) (l : List α) (s : State) :
    WroteOnly s (l.foldl f s) :=
  foldl_inv (P := WroteOnly s) (fun u x hu => hu.trans (hf u x)) (.refl s)

theorem homeWrite_wroteOnly (s : State) (home sector : Nat) (m : BitVec 64) (data : BitVec 512) :
    WroteOnly s (homeWrite s home sector m data) := by
  unfold homeWrite
  split <;> rfl

theorem setHealth_wroteOnly (s : State) (w : Word) : WroteOnly s (setHealth s w) :=
  WroteOnly.ite (.refl s) (WroteOnly.ite rfl rfl)

theorem clearPoison_wroteOnly (s : State) (p : Nat → Bool) : WroteOnly s (clearPoison s p) := by
  unfold clearPoison
  exact WroteOnly.trans (u := { s with store := { s.store with poison := _ } }) rfl (setHealth_wroteOnly _ _)

theorem setPoison_wroteOnly (s : State) (sector : Nat) (on : Bool) : WroteOnly s (setPoison s sector on) :=
  WroteOnly.trans (u := { s with store := { s.store with poison := _ } }) rfl (setHealth_wroteOnly _ _)

theorem unpoison_wroteOnly (s : State) (js : List Nat) : WroteOnly s (unpoison s js) :=
  WroteOnly.ite (clearPoison_wroteOnly _ _) (.refl s)

theorem paStore_wroteOnly (s : State) (a : Nat) (v : Byte) : WroteOnly s (paStore s a v) :=
  WroteOnly.trans (u := breakSeal s (a / 64)) rfl (homeWrite_wroteOnly _ _ _ _ _)

theorem paPut_wroteOnly (s : State) (a : Nat) (v : Byte) : WroteOnly s (paPut s a v) :=
  WroteOnly.ite (paStore_wroteOnly _ _ _) (.refl s)

theorem paWrite_wroteOnly (s : State) (pa : Nat) (bs : List Byte) : WroteOnly s (paWrite s pa bs) :=
  (WroteOnly.foldl (fun _ _ => paPut_wroteOnly _ _ _) _ s).trans (unpoison_wroteOnly _ _)

theorem sealWrite_wroteOnly (s : State) (home ctx sector : Nat) (k : KeyRec) (plain : BitVec 512) :
    WroteOnly s (sealWrite s home ctx sector k plain) :=
  WroteOnly.trans (homeWrite_wroteOnly s home sector _ _) rfl

theorem writeAtHome_wroteOnly (s : State) (home ctx sector : Nat) (sealed : Bool) (m : BitVec 64) (data : BitVec 512) :
    WroteOnly s (writeAtHome s home ctx sector sealed m data) := by
  unfold writeAtHome
  have hclear : WroteOnly s (if m = BitVec.allOnes 64 && poisoned s (cellOf s (64 * sector) / 64)
      then setPoison s (cellOf s (64 * sector) / 64) false else s) := WroteOnly.ite (setPoison_wroteOnly _ _ _) (.refl s)
  generalize (if m = BitVec.allOnes 64 && poisoned s (cellOf s (64 * sector) / 64)
      then setPoison s (cellOf s (64 * sector) / 64) false else s) = u at hclear ⊢
  refine hclear.trans ?_
  dsimp only
  split
  · split
    · exact .refl u
    · exact sealWrite_wroteOnly _ _ _ _ _ _
  · exact WroteOnly.ite (.refl u) (WroteOnly.trans (u := breakSeal u sector) rfl (homeWrite_wroteOnly _ _ _ _ _))

theorem vaPut_wroteOnly (s : State) (die ctx va : Nat) (v : Byte) : WroteOnly s (vaPut s die ctx va v) := by
  unfold vaPut
  split
  · exact WroteOnly.ite (.refl s) (writeAtHome_wroteOnly _ _ _ _ _ _ _)
  · exact .refl s

theorem vaWrite_wroteOnly (s : State) (die ctx va : Nat) (bs : List Byte) : WroteOnly s (vaWrite s die ctx va bs) := by
  unfold vaWrite
  generalize (wholeSectors va bs.length).filterMap _ = js
  exact (WroteOnly.foldl (fun _ _ => vaPut_wroteOnly _ _ _ _ _) _ s).trans (unpoison_wroteOnly _ _)

theorem qWrite_wroteOnly (s : State) (ctx a : Nat) (bs : List Byte) : WroteOnly s (qWrite s ctx a bs) :=
  WroteOnly.ite (paWrite_wroteOnly _ _ _) (vaWrite_wroteOnly _ _ _ _ _)

/-- A rejected packet: but for what its error record and its STOPPED flag write, nothing changes but the queue's own flag. -/
theorem rejectPacket_wroteOnly (s : State) (q : Nat) (e : QEnt) (c : Nat) :
    ∃ v, WroteOnly s v ∧ rejectPacket s q e c = updQ v q fun u => { u with stopped := true, desc := none } :=
  ⟨_, (qWrite_wroteOnly _ _ _ _).trans (paWrite_wroteOnly _ _ _), rfl⟩

/-! ## A PRIV opcode in another queue (O38, R352) -/

theorem exec_privEvent {s : State} {q : Nat} {e : QEnt} {p : List Byte} {i : Instr} (hn : nextPacket s q = some (e, p))
    (he : e.priv = false) (hi : privEvent q (opcodeOf p) (flagsOf p) i) : exec i s = .next (rejectPacket s q e 2) := by
  unfold privEvent at hi
  split at hi
  case h_1 hop | h_2 hop =>
    cases hb : bit (flagsOf p) 0
    all_goals
      simp only [hb, Bool.false_eq_true, if_true, if_false] at hi
      subst hi
      exact runPacket_unprivileged hn (by simp [hop, hb]) he
  case h_8 hop | h_9 hop =>
    rcases hi with ⟨hf, rfl⟩ | ⟨hf, rfl⟩
    all_goals exact runPacket_unprivileged hn (by simp [hop, hf]) he
  case h_16 hop =>
    rcases hi with ⟨hf, rfl⟩ | ⟨hf, rfl⟩ | ⟨hf, rfl⟩ | ⟨hf, rfl⟩ | ⟨hf, rfl⟩ | ⟨hf, rfl⟩
    all_goals exact runPacket_unprivileged hn (by simp [hop, hf]) he
  case h_21 => exact hi.elim
  all_goals
    next hop =>
      subst hi
      exact runPacket_unprivileged hn (by simp [hop]) he

/-- Settles O38: the event rejects the packet, and a rejection writes memory and the queue's flag alone. -/
theorem privilegeOfPackets : Obligations.PrivilegeOfPackets := by
  intro s q e p i hn he hi
  obtain ⟨v, hv, hr⟩ := rejectPacket_wroteOnly s q e 2
  refine ⟨_, exec_privEvent hn he hi, rfl, ?_⟩
  rw [hr, updQ_queue, hv]
  exact ⟨rfl, rfl, rfl, rfl, rfl, rfl, rfl, rfl, rfl, rfl, rfl⟩

end Sys2Proof.Machine
end

section
/-! THE HEADGATE'S QUEUES (O39): doorbells, scans, and the packets that wait. -/

namespace Sys2Proof.Machine

/-! ## Doorbells, scans and the packets that wait (O39, R349 to R351, R358) -/

theorem doorbell_next {s : State} (hopen : barOpen s = true) (q : Nat) : exec (.doorbell q) s = .next (ringDoorbell s q) := if_pos hopen

theorem ringDoorbell_closed {s : State} {q : Nat} (h : s.hg.en = false ∨ s.hg.qtlen.toNat ≤ q) : ringDoorbell s q = s := by
  have hshut : (!(s.hg.en && q < s.hg.qtlen.toNat)) = true := by
    rcases h with h | h
    · simp [h]
    · simp [h]
  simp only [ringDoorbell, hshut, if_true]

theorem ringDoorbell_unmapped {s : State} {q : Nat} (hen : s.hg.en = true) (hq : q < s.hg.qtlen.toNat) (hslot : slotOf s q = none) :
    ringDoorbell s q = setPending s q := by
  simp [ringDoorbell, hen, hq, hslot]

theorem ringDoorbell_mapped {s : State} {q k : Nat} (hen : s.hg.en = true) (hq : q < s.hg.qtlen.toNat) (hslot : slotOf s q = some k)
    (hfree : (s.hg.slots.lowestFree 128).isSome = true) : ringDoorbell s q = notifySlot s k q := by
  simp [ringDoorbell, hen, hq, hslot, Option.isNone_eq_false_iff.mpr hfree]

theorem queueScan_notified {s : State} {q k : Nat} {x : HgSlot} {e : QEnt} {w : List Byte} (he : queueEntry s q = some e)
    (hw : qRead s e.ctx e.widx 8 = some w) (hslot : slotOf s q = some k) (hx : s.hg.slots.get? k = some x) (hnote : x.notify = true) :
    exec (.queueScan q) s = .next (scanQueue s q k (leNum w 0 8) e) := by
  change execQueueScan q s = _
  simp [execQueueScan, he, hw, hslot, hx, hnote]

theorem orphanLatch_pends {s : State} {q k since : Nat} (hen : s.hg.en = true) (hk : s.hg.orphans.get? k = some (q, since)) :
    exec (.orphanLatch k) s = .next (setPending { s with hg := { s.hg with orphans := s.hg.orphans.del k } } q) := by
  change execOrphanLatch k s = _
  simp only [execOrphanLatch, hk, hen, if_true]

theorem waitmem_blocks {s : State} {q : Nat} {e : QEnt} {p : List Byte} (hn : nextPacket s q = some (e, p)) (hop : opcodeOf p = 3)
    (huses : onlyUses p [(0, 0), (8, 23)] = true) (ha : leNum p 8 8 % 8 = 0) :
    exec (.waitmem q) s = .next (updQ s q fun u => { u with block := some (.waitmem (leNum p 8 8) (leNum p 16 8)) }) :=
  runPacket_wait hn (by simp [hop]) (.inl rfl) (by simp [huses, ha])

theorem waitmem_satisfied {s : State} {q a v : Nat} {e : QEnt} {b : List Byte} (he : queueEntry s q = some e)
    (hblock : (s.queue q).block = some (.waitmem a v)) (hb : qRead s e.ctx a 8 = some b) (hv : v ≤ leNum b 0 8) :
    exec (.waitmemSatisfied q) s = .next (updQ (acceptPacket s q e) q fun u => { u with block := none }) := by
  change execWaitmemSatisfied q s = _
  simp only [execWaitmemSatisfied, he, hblock, hb, hv, if_true]

theorem signal_released {s : State} {q : Nat} {e : QEnt} {p : List Byte} (he : queueEntry s q = some e)
    (hblock : (s.queue q).block = some (.signal p)) (hsettled : launchesSettled s q = true) :
    exec (.signalWaitallRelease q) s =
      .next (updQ (acceptPacket (signalNow s e.ctx p) q e) q fun u => { u with block := none }) := by
  change execSignalWaitallRelease q s = _
  simp only [execSignalWaitallRelease, he, hblock, hsettled, if_true]

/-- Settles O39: each event by its own condition. -/
theorem queueEvents : Obligations.QueueEvents := by
  intro s q
  refine ⟨?_, ?_, ?_, ?_, ?_, ?_, ?_, ?_⟩
  · intro hopen hshut
    rw [doorbell_next hopen, ringDoorbell_closed hshut]
  · intro hopen hen hq hslot
    rw [doorbell_next hopen, ringDoorbell_unmapped hen hq hslot]
  · intro k hopen hen hq hslot hfree
    rw [doorbell_next hopen, ringDoorbell_mapped hen hq hslot hfree]
  · intro k x e w he hw hslot hx hnote
    exact queueScan_notified he hw hslot hx hnote
  · intro k since hen hk
    exact orphanLatch_pends hen hk
  · intro e p hn hop huses ha
    exact waitmem_blocks hn hop huses ha
  · intro e a v b he hblock hb hv
    exact waitmem_satisfied he hblock hb hv
  · intro e p he hblock hsettled
    exact signal_released he hblock hsettled

end Sys2Proof.Machine
end

section
/-! THE HEADGATE'S COMMANDS (O37): the commands that take time, and their completion. -/

namespace Sys2Proof.Machine

/-! ## Commands that take time (O37) -/

section
variable {s : State} {q : Nat} {e : QEnt} {p : List Byte}

/-- A command of an opcode in a PRIV queue whose checks come to a verdict. -/
theorem runCommand_command {name : String} {op : Nat} {f : QEnt → List Byte → Verdict} {u : State} {rs : List Nat}
    (hn : nextPacket s q = some (e, p)) (he : e.priv = true) (hop : opcodeOf p = op) (hf : f e p = .command u rs) :
    runCommand name op q s f = .next (updQ (acceptPacket u q e) q fun x => { x with block := some (.command p rs) }) :=
  runPacket_command hn (by simp [hop]) (.inr he) hf

theorem runCommand_accept {name : String} {op : Nat} {f : QEnt → List Byte → Verdict} {u : State}
    (hn : nextPacket s q = some (e, p)) (he : e.priv = true) (hop : opcodeOf p = op) (hf : f e p = .accept u) :
    runCommand name op q s f = .next (acceptPacket u q e) :=
  runPacket_accept hn (by simp [hop]) (.inr he) hf

theorem bit_zero_of_le_one {n : Nat} (h : n ≤ 1) : bit n 0 = decide (n = 1) := by
  interval_cases n <;> rfl

theorem timedCommand_accepted {i : Instr} {needs : Prop} {u : State} {rs : List Nat} (hn : nextPacket s q = some (e, p))
    (he : e.priv = true) (hi : timedCommand s p i = some (q, needs, u, rs)) (hneeds : needs) :
    exec i s = .next (updQ (acceptPacket u q e) q fun x => { x with block := some (.command p rs) }) := by
  unfold timedCommand at hi
  split at hi
  case h_9 => cases hi
  all_goals
    simp only [Option.some.injEq, Prod.mk.injEq] at hi
    obtain ⟨rfl, rfl, rfl, rfl⟩ := hi
  case h_1 =>
    obtain ⟨hop, huses, hctx⟩ := hneeds
    exact runCommand_command hn he hop (by simp [huses, hctx])
  case h_2 =>
    obtain ⟨hop, huses, hflags, hlen, hall, hbase, hctx⟩ := hneeds
    refine runCommand_command hn he hop ?_
    have hbad : (bit (flagsOf p) 0 && (leNum p 8 8 ≠ 0 || leNum p 16 8 ≠ 0)) = false := by
      rw [bit_zero_of_le_one hflags]
      by_cases h : flagsOf p = 1
      · simp [hall h]
      · simp [h]
    simp only [huses, hlen, hbad, hbase, hctx, Nat.not_lt.mpr hflags]
    rfl
  case h_3 =>
    obtain ⟨hop, huses, hctx⟩ := hneeds
    exact runCommand_command hn he hop (by simp [huses, hctx])
  case h_4 =>
    obtain ⟨hop, huses, hctx⟩ := hneeds
    exact runCommand_command hn he hop (by simp [huses, hctx])
  case h_5 =>
    obtain ⟨hop, huses, hd, hgrants⟩ := hneeds
    refine runCommand_command hn he hop ?_
    have hgranted : (eighthVaults (BitVec.ofNat 8 (leNum p 3 1) &&& ~~~(s.die (leNum p 2 1)).carve)).any
        (vaultGranted s (leNum p 2 1)) = false := by
      simpa using hgrants
    simp only [huses, hgranted, Nat.not_lt.mpr hd]
    rfl
  case h_6 =>
    obtain ⟨hop, huses, hd, hways⟩ := hneeds
    exact runCommand_command hn he hop (by simp [huses, Nat.not_lt.mpr hd, Nat.not_lt.mpr hways])
  case h_7 =>
    obtain ⟨hop, huses, hlen, hbase, htarget, hend⟩ := hneeds
    exact runCommand_command hn he hop (by simp [huses, hlen, hbase, htarget, Nat.not_lt.mpr hend])
  case h_8 =>
    obtain ⟨hop, hflags, hctx, hgroup⟩ := hneeds
    obtain ⟨x, hx⟩ := Option.isSome_iff_exists.mp hgroup
    exact runPacket_command hn (by simp [hop, hflags]) (.inr he) (by simp [withGroup, hctx, hx])

theorem commandComplete_done {rs : List Nat} (hblock : (s.queue q).block = some (.command p rs)) (hdone : commandDone s p rs = true) :
    exec (.commandComplete q) s = .next (updQ (commandEnd s p) q fun x => { x with block := none }) := by
  change execCommandComplete q s = _
  simp only [execCommandComplete, hblock, hdone, if_true]

theorem commandComplete_withdraws {rs : List Nat} (hblock : (s.queue q).block = some (.command p rs))
    (hdone : commandDone s p rs = false) (hmay : mayWithdraw s p = true) :
    exec (.commandComplete q) s = .next (grantWithdraw s p) := by
  change execCommandComplete q s = _
  simp [execCommandComplete, hblock, hdone, hmay]

end

/-- Settles O37: each command by its checks, then the two steps of COMMAND_COMPLETE. -/
theorem timedCommandResults : Obligations.TimedCommandResults := by
  intro s q
  refine ⟨?_, ?_, ?_⟩
  · intro e p i needs u rs hn he hi hneeds
    exact timedCommand_accepted hn he hi hneeds
  · intro p rs hblock hdone
    exact commandComplete_done hblock hdone
  · intro p rs hblock hdone hmay
    exact commandComplete_withdraws hblock hdone hmay

end Sys2Proof.Machine
end

section
/-! THE HEADGATE'S PACKETS (O35): the packets that take effect at acceptance. -/

namespace Sys2Proof.Machine

/-! ## Packets that take effect at acceptance (O35) -/

section
variable {s : State} {q : Nat} {e : QEnt} {p : List Byte}

theorem bit_one_of_le_one {n : Nat} (h : n ≤ 1) : bit n 1 = false := by
  interval_cases n <;> rfl

@[simp] theorem bit_zero (i : Nat) : bit 0 i = false := by simp [bit, bits]

theorem flagsOf_bit_of_zero (h : flagsOf p = 0) : bit (flagsOf p) 0 = false := by rw [h, bit_zero]

theorem flagsOf_bit_of_one (h : flagsOf p = 1) : bit (flagsOf p) 0 = true := by
  rw [h]
  rfl

theorem userPacket_accepted {i : Instr} {needs : Prop} {u : State} (hn : nextPacket s q = some (e, p))
    (hi : userPacket s q e p i = some (q, needs, u)) (hneeds : needs) : exec i s = .next (acceptPacket u q e) := by
  unfold userPacket at hi
  split at hi
  case h_6 => cases hi
  all_goals
    simp only [Option.some.injEq, Prod.mk.injEq] at hi
    obtain ⟨rfl, rfl, rfl⟩ := hi
  case h_1 =>
    obtain ⟨hop, huses⟩ := hneeds
    exact runPacket_accept hn (by simp [hop]) (.inl rfl) (by simp [hop, huses, privOpcode])
  case h_2 =>
    obtain ⟨hop, hcode⟩ := hneeds
    exact runPacket_accept hn (by simp [hop]) (.inl rfl) (by simp only [hcode]; rfl)
  case h_3 =>
    obtain ⟨hop, huses, hflags, hvector, ha⟩ := hneeds
    exact runPacket_accept hn (by simp [hop]) (.inl rfl) (by
      simp [huses, ha, bit_one_of_le_one hflags, Nat.not_lt.mpr hvector, Nat.not_lt.mpr (hflags.trans (by decide : 1 ≤ 3))])
  case h_4 =>
    obtain ⟨hop, hflags, hbad, hcap, hmax, hctx, hfield, hnew, huse⟩ := hneeds
    exact runPacket_accept hn (by simp [hop, flagsOf_bit_of_zero hflags]) (.inl rfl) (by
      simp [-List.getD_eq_getElem?_getD, hbad, Nat.pos_iff_ne_zero.mp hcap, Nat.not_lt.mpr hmax, hctx, hfield, hnew, Nat.not_lt.mpr huse])
  case h_5 =>
    obtain ⟨hop, hflags, hbad, hctx, hthere⟩ := hneeds
    exact runPacket_accept hn (by simp [hop, flagsOf_bit_of_one hflags]) (.inl rfl) (by simp [hbad, hctx, hthere])

/-- The report that ATTEST stores, once the record is at hand. -/
theorem attest_verdict {c : KeyRec → State} {k : Option KeyRec} (hk : k.isSome = true) (z : State) :
    (match k with | none => Verdict.stay | some k => .accept (c k)) = .accept ((k.map c).getD z) := by
  obtain ⟨x, rfl⟩ := Option.isSome_iff_exists.mp hk
  rfl

theorem privPacket_accepted {i : Instr} {needs : Prop} {u : State} (hn : nextPacket s q = some (e, p)) (he : e.priv = true)
    (hi : privPacket s p i = some (q, needs, u)) (hneeds : needs) : exec i s = .next (acceptPacket u q e) := by
  unfold privPacket at hi
  split at hi
  case h_13 => cases hi
  all_goals
    simp only [Option.some.injEq, Prod.mk.injEq] at hi
    obtain ⟨rfl, rfl, rfl⟩ := hi
  case h_1 =>
    obtain ⟨hop, hflags, hbad, hover, huse⟩ := hneeds
    have huse' : ((List.range 4).any fun d => 65536 * (packetField s p).qmem.getD d 0 < queueUse s (leNum p 2 1) d) = false := by
      simp only [List.any_eq_false, List.mem_range, decide_eq_true_eq, not_lt]
      exact huse
    exact runPacket_accept hn (by simp [hop, flagsOf_bit_of_zero hflags]) (.inr he) (by simp only [hbad, hover, huse']; rfl)
  case h_2 =>
    obtain ⟨hop, hflags, hbad, hfield, hlaunches, hteams⟩ := hneeds
    have hnone : ((s.launches.any fun x => x.2.fieldNo == leNum p 2 1 && !x.2.done) ||
        s.teams.any fun x => fieldOfTeam s x.2 == leNum p 2 1) = false := by
      simp only [Bool.or_eq_false_iff, List.any_eq_false]
      exact ⟨fun x hx => by simpa using hlaunches x hx, fun x hx => by simpa using hteams x hx⟩
    exact runPacket_accept hn (by simp [hop, flagsOf_bit_of_one hflags]) (.inr he) (by simp only [hbad, hfield, hnone]; rfl)
  case h_3 =>
    obtain ⟨hop, hflags, huses, hdesc, hctx, hteams, hpending⟩ := hneeds
    exact runPacket_accept hn (by simp [hop, flagsOf_bit_of_one hflags]) (.inr he) (by simp [huses, hflags, hdesc, hctx, hteams, hpending])
  case h_4 =>
    obtain ⟨hop, huses, hflags, hmode, hgrid, hctx⟩ := hneeds
    exact runCommand_accept hn he hop (by
      simp [huses, hflags, hgrid, hctx, Nat.not_lt.mpr hmode])
  case h_5 | h_6 =>
    obtain ⟨hop, hflags, hcode⟩ := hneeds
    exact runPacket_accept hn (by simp [hop, hflags]) (.inr he) (by simp only [hcode])
  case h_7 =>
    obtain ⟨hop, huses, hmin, hmax, hvector, hr, hw, hx, hrm, hwm, hxm, hring⟩ := hneeds
    exact runCommand_accept hn he hop (by
      simp [huses, Nat.not_lt.mpr hmin, Nat.not_lt.mpr hmax, Nat.not_lt.mpr hvector, hr, hw, hx, hrm, hwm, hxm, hring])
  case h_8 =>
    obtain ⟨hop, huses, ha, hfirst, hlast, hparked⟩ := hneeds
    exact runCommand_accept hn he hop (by simp [huses, ha, hfirst, hlast, hparked])
  case h_9 =>
    obtain ⟨hop, huses, hctx, hprot, ha, hkey⟩ := hneeds
    exact runCommand_accept hn he hop (by
      simp only [huses, hctx, hprot, ha]
      exact attest_verdict hkey s)
  case h_10 =>
    obtain ⟨hop, huses, hflags⟩ := hneeds
    exact runCommand_accept hn he hop (by simp [huses, hflags])
  case h_11 =>
    obtain ⟨hop, huses, ha, hrange⟩ := hneeds
    exact runCommand_accept hn he hop (by simp [huses, ha, hrange])
  case h_12 =>
    obtain ⟨hop, huses, hmin, hmax⟩ := hneeds
    exact runCommand_accept hn he hop (by simp [huses, Nat.not_lt.mpr hmin, Nat.not_lt.mpr hmax])

end

/-- Settles O35: each packet by its checks. -/
theorem packetResults : Obligations.PacketResults := by
  intro s q e p i needs u hn hneeds
  exact ⟨fun hi => userPacket_accepted hn hi hneeds, fun he hi => privPacket_accepted hn he hi hneeds⟩

end Sys2Proof.Machine
end

section
/-! THE HEADGATE'S PACKETS (O36): the packets that read the memory they name, and the debugger's. -/

namespace Sys2Proof.Machine

/-! ## Packets that read the memory they name (O36) -/

section
variable {s : State} {q : Nat} {e : QEnt} {p : List Byte}

theorem runCommand_fail {name : String} {op c : Nat} {f : QEnt → List Byte → Verdict} (hn : nextPacket s q = some (e, p))
    (he : e.priv = true) (hop : opcodeOf p = op) (hf : f e p = .fail c) :
    runCommand name op q s f = .next (rejectPacket s q e c) :=
  runPacket_fail hn (by simp [hop]) (.inr he) hf

theorem graphrun_accepted {h r b : List Byte} (hn : nextPacket s q = some (e, p)) (hop : opcodeOf p = 7)
    (huses : onlyUses p [(0, 0), (8, 15)] = true) (hctx : e.ctx ≠ 0xFFFF) (ha : leNum p 8 8 % 16 = 0)
    (hh : qRead s e.ctx (leNum p 8 8) 16 = some h) (hcur : leNum h 0 8 % 64 = 0) (hmode : leNum h 12 1 ≤ 1) (hres : leNum h 13 3 = 0)
    (hr : qRead s e.ctx (leNum h 0 8) 64 = some r) (hmin : 1 ≤ leNum r 4 2) (hmax : leNum r 4 2 ≤ 1024)
    (hruses : onlyUses r [(0, 5)] = true) (hb : qRead s e.ctx (leNum h 0 8 + 64) (64 * leNum r 4 2) = some b)
    (hcode : ∀ x ∈ recordPackets b (leNum r 4 2), launchCode s e.ctx x = none) :
    exec (.graphrun q) s = .next (acceptPacket
      { (addRun e.ctx q s.nextId (recordPackets b (leNum r 4 2)) (s.queue q).last { s with nextId := s.nextId + 1 }).2 with
        runs := (addRun e.ctx q s.nextId (recordPackets b (leNum r 4 2)) (s.queue q).last { s with nextId := s.nextId + 1 }).2.runs.put
          s.nextId ⟨e.ctx, leNum p 8 8, leNum r 0 4, leNum h 12 1 == 1,
            (addRun e.ctx q s.nextId (recordPackets b (leNum r 4 2)) (s.queue q).last { s with nextId := s.nextId + 1 }).1⟩ } q e) := by
  have hnone : (recordPackets b (leNum r 4 2)).findSome? (launchCode s e.ctx) = none := List.findSome?_eq_none_iff.mpr hcode
  refine runPacket_accept hn (by simp [hop]) (.inl rfl) ?_
  simp only [huses, hctx, ha, hh, hcur, hr, hruses, hb, hres, hnone, Nat.not_lt.mpr hmode, Nat.not_lt.mpr hmax,
    Nat.one_le_iff_ne_zero.mp hmin]
  rfl

theorem graphedit_accepted {h old r : List Byte} (hn : nextPacket s q = some (e, p)) (hop : opcodeOf p = 8)
    (huses : onlyUses p [(0, 0), (8, 23)] = true) (hctx : e.ctx ≠ 0xFFFF) (ha : leNum p 8 8 % 16 = 0) (hnew : leNum p 16 8 % 64 = 0)
    (hh : qRead s e.ctx (leNum p 8 8) 8 = some h) (hold : qRead s e.ctx (leNum h 0 8) 4 = some old)
    (hr : qRead s e.ctx (leNum p 16 8) 4 = some r) (hlt : leNum old 0 4 < leNum r 0 4) :
    let x := graphOf (qWrite s e.ctx (leNum p 8 8) (bytesOf 8 (leNum p 16 8))) e.ctx (leNum p 8 8)
    exec (.graphedit q) s = .next (acceptPacket (retireVersions
      { x.2 with graphs := x.2.graphs.upd x.1 fun g => { g with olds := g.olds ++ [leNum old 0 4] } } x.1) q e) := by
  refine runPacket_accept hn (by simp [hop]) (.inl rfl) ?_
  simp only [huses, hctx, ha, hnew, hh, hold, hr, Option.bind_some, Nat.not_le.mpr hlt]
  rfl

theorem setctx_accepted {b : List Byte} {t : Tbl (List (Word × Word))} {u : State} (hn : nextPacket s q = some (e, p))
    (he : e.priv = true) (hop : opcodeOf p = 5) (hdesc : (s.queue q).desc = none) (hflags : flagsOf p = 0)
    (huses : onlyUses p [(0, 3), (8, 15)] = true) (hctx : leNum p 2 2 ≠ 0xFFFF) (ha : leNum p 8 8 % 16 = 0)
    (hb : qRead s e.ctx (leNum p 8 8) 128 = some b) (hcode : descCode (leNum p 2 2) b = none)
    (hteams : ctxHasTeams s (leNum p 2 2) = false) (hlen : s.ctxs.length < 512) (ht : readCompand s e.ctx (leNum b 104 8) = some t)
    (hgood : ∀ x ∈ t, compandGood x.2 = true) (hpending : grantPending s (leNum p 2 2) = false)
    (hu : installCtx s (leNum p 2 2) (descCtx b t) = .accept u) :
    exec (.setctx q) s = .next (acceptPacket u q e) := by
  have hall : (t.any fun x => !compandGood x.2) = false := by simpa using hgood
  refine runPacket_accept hn (by simp [hop, flagsOf_bit_of_zero hflags]) (.inr he) ?_
  simp only [huses, hctx, ha, hdesc, hb, hcode, hteams, ht, hall, hpending, hu, hflags, Nat.not_le.mpr hlen, Option.filter_none]
  simp [Verdict.keeping]

theorem faultReply_accepted {name : String} {outcome : Nat} {f : State → Nat → FaultRec → State} {x : Nat × FaultRec}
    (hn : nextPacket s q = some (e, p)) (he : e.priv = true) (hop : opcodeOf p = 0x15) (hflags : flagsOf p = outcome)
    (huses : onlyUses p [(0, 3)] = true) (hx : faultOfToken s (leNum p 2 2) = some x) :
    faultReply name outcome q s f = .next (acceptPacket (f s x.1 x.2) q e) :=
  runPacket_accept hn (by simp [hop, hflags]) (.inr he) (by simp [huses, hx])

/-- The opening of the message stays closed: what it gives is one of two cases, and no proof looks inside it. -/
theorem tracekey_answers {m : List Byte} {k : KeyRec} (hn : nextPacket s q = some (e, p)) (he : e.priv = true)
    (hop : opcodeOf p = 0x1B) (huses : onlyUses p [(0, 0), (2, 3), (8, 15)] = true) (hctx : s.ctxs.has (leNum p 2 2) = true)
    (hprot : (s.ctx (leNum p 2 2)).prot = true) (hm : vaRead s 0 (leNum p 2 2) (leNum p 8 8) 80 = some m)
    (hk : keyRecord s (leNum p 2 2) = some k) :
    exec (.tracekey q) s = .next (
      match Crypto.hpkeOpen k.reportKey m with
      | none => rejectPacket s q e 10
      | some key => acceptPacket
        { s with live := s.live.put (leNum p 2 2) { s.ctxLive (leNum p 2 2) with traceKey := some (exactly 32 key) } } q e) := by
  change execTracekey q s = _
  unfold execTracekey
  generalize Crypto.hpkeOpen = f
  as_aux_lemma =>
    cases hf : f k.reportKey m with
    | none => exact runCommand_fail hn he hop (by simp [huses, hctx, hprot, hm, hk, hf])
    | some key => exact runCommand_accept hn he hop (by simp [huses, hctx, hprot, hm, hk, hf])

/-! ## The debugger's packets (R404 to R408) -/

theorem leNum_lt (p : List Byte) (i n : Nat) : leNum p i n < 2 ^ (8 * n) :=
  (ofBytes_lt _).trans_le (Nat.pow_le_pow_right (by decide) (Nat.mul_le_mul_left 8 (List.length_take_le n _)))

theorem bpset_accepted (hn : nextPacket s q = some (e, p)) (he : e.priv = true) (hop : opcodeOf p = 0x1C) (hflags : flagsOf p = 0)
    (hctx : debugCtx s p = none) (hslot : leNum p 14 1 ≤ 7) (hgroup : leNum p 12 1 ≤ 31 ∨ leNum p 12 1 = 0xFF)
    (hnames : namesGroups s (leNum p 2 2) (leNum p 4 4) (leNum p 8 4) (leNum p 12 1) = true) (haddr : leNum p 16 8 % 4 = 0) :
    let x : Comparator :=
      { addr := BitVec.ofNat 64 (leNum p 16 8), grid := filterOf (leNum p 4 4) 0, team := filterOf (leNum p 8 4) 0xFFFFFFFF
        group := filterOf (leNum p 12 1) 0xFF, path := filterOf (leNum p 13 1) 0xFF }
    let y : CtxLive := { s.ctxLive (leNum p 2 2) with
      bps := if leNum p 16 8 = 0 then (s.ctxLive (leNum p 2 2)).bps.del (leNum p 14 1)
        else (s.ctxLive (leNum p 2 2)).bps.put (leNum p 14 1) x }
    exec (.dbgctlBpset q) s = .next (acceptPacket { s with live := s.live.put (leNum p 2 2) y } q e) := by
  have hrange : (31 < leNum p 12 1 && leNum p 12 1 ≠ 0xFF) = false := by
    rcases hgroup with h | h
    · simp [Nat.not_lt.mpr h]
    · simp [h]
  have hzero : (BitVec.ofNat 64 (leNum p 16 8) = 0) = (leNum p 16 8 = 0) := by
    have hlt : leNum p 16 8 < 2 ^ 64 := leNum_lt p 16 8
    rw [← BitVec.toNat_inj, BitVec.toNat_ofNat, Nat.mod_eq_of_lt hlt]
    rfl
  refine runPacket_accept hn (by simp [hop, hflags]) (.inr he) ?_
  simp only [hctx, hrange, hnames, haddr, hzero, Nat.not_lt.mpr hslot]
  rfl

theorem runDebug_accept {name : String} {op : Nat} {f : QEnt → List Byte → Verdict} {u : State} (hn : nextPacket s q = some (e, p))
    (he : e.priv = true) (hop : opcodeOf p = 0x1C) (hflags : flagsOf p = op) (hf : f e p = .accept u) :
    runDebug name op q s f = .next (acceptPacket u q e) :=
  runPacket_accept hn (by simp [hop, hflags]) (.inr he) hf

theorem withGroup_of_debugs {t g : Nat} {T : Team} {G : Group} (h : debugs s p t T g G) (f : Nat → Team → Nat → Group → Verdict) :
    withGroup s p f = f t T g G := by
  obtain ⟨hctx, hgroup⟩ := h
  simp only [withGroup, hctx, hgroup]

section
variable {t g : Nat} {T : Team} {G : Group}

theorem resume_accepted (hn : nextPacket s q = some (e, p)) (he : e.priv = true) (hop : opcodeOf p = 0x1C) (hflags : flagsOf p = 2)
    (hd : debugs s p t T g G) : exec (.dbgctlResume q) s = .next (acceptPacket (releasePaths s t g p 1) q e) :=
  runDebug_accept hn he hop hflags (withGroup_of_debugs hd _)

theorem step_accepted (hn : nextPacket s q = some (e, p)) (he : e.priv = true) (hop : opcodeOf p = 0x1C) (hflags : flagsOf p = 3)
    (hd : debugs s p t T g G) (hstop : groupStopped s t T g G = true) :
    exec (.dbgctlStep q) s =
      .next (updQ (acceptPacket (releasePaths s t g p 2) q e) q fun u => { u with block := some (.command p []) }) :=
  runPacket_command hn (by simp [hop, hflags]) (.inr he) (by simp [withGroup_of_debugs hd, hstop])

theorem dump_accepted (hn : nextPacket s q = some (e, p)) (he : e.priv = true) (hop : opcodeOf p = 0x1C) (hflags : flagsOf p = 4)
    (hd : debugs s p t T g G) (hstop : groupStopped s t T g G = true) (ha : leNum p 16 8 % 4096 = 0)
    (hin : inHbmOrHost (leNum p 16 8) = true) :
    exec (.dbgctlDump q) s = .next (acceptPacket (dump s (leNum p 16 8) T g G) q e) :=
  runDebug_accept hn he hop hflags (by simp [withGroup_of_debugs hd, hstop, ha, hin])

theorem paTake_eq_some {a n : Nat} {b : List Byte} (h : paTake s a n = some b) : paRead s a n = b := by
  unfold paTake at h
  split at h
  · exact Option.some.inj h
  · cases h

/-- What a WRITE comes to once its packet and its group have passed their checks (R408). -/
def writeVerdict (s : State) (t : Nat) (T : Team) (g : Nat) (G : Group) (p b : List Byte) : Verdict :=
  let i := leNum p 14 1
  if i < 128 then
    if (T.mapped g i).isSome then .accept (overwriteName s t g i b)
    else if freeRows s T then .accept (overwriteName (mapForWrite s t g i) t g i b)
    else .fail 7
  else if i < 192 then .accept (writeScalar s t g G p (i - 128) (BitVec.ofNat 32 (leNum b 0 4)))
  else .accept (writeP s t g (i - 192) (BitVec.ofNat 96 (leNum b 0 12)))

theorem writeVerdict_mapped {b : List Byte} (hi : leNum p 14 1 < 128) (hmapped : (T.mapped g (leNum p 14 1)).isSome = true) :
    writeVerdict s t T g G p b = .accept (overwriteName s t g (leNum p 14 1) b) := by
  simp only [writeVerdict, hi, hmapped, if_true]

theorem writeVerdict_fresh {b : List Byte} (hi : leNum p 14 1 < 128) (hmapped : (T.mapped g (leNum p 14 1)).isSome = false)
    (hfree : freeRows s T = true) :
    writeVerdict s t T g G p b = .accept (overwriteName (mapForWrite s t g (leNum p 14 1)) t g (leNum p 14 1) b) := by
  simp [writeVerdict, hi, hmapped, hfree]

theorem writeVerdict_register {b : List Byte} (hlo : 128 ≤ leNum p 14 1) (hhi : leNum p 14 1 < 192) :
    writeVerdict s t T g G p b = .accept (writeScalar s t g G p (leNum p 14 1 - 128) (BitVec.ofNat 32 (leNum b 0 4))) := by
  simp only [writeVerdict, Nat.not_lt.mpr hlo, hhi, if_true, if_false]

theorem writeVerdict_predicate {b : List Byte} (hlo : 192 ≤ leNum p 14 1) :
    writeVerdict s t T g G p b = .accept (writeP s t g (leNum p 14 1 - 192) (BitVec.ofNat 96 (leNum b 0 12))) := by
  simp only [writeVerdict, Nat.not_lt.mpr hlo, Nat.not_lt.mpr (Nat.le_trans (by decide : 128 ≤ 192) hlo), if_false]

theorem write_accepted {n : Nat} {u : State} (hn : nextPacket s q = some (e, p)) (he : e.priv = true) (hop : opcodeOf p = 0x1C)
    (hflags : flagsOf p = 5) (hd : debugs s p t T g G) (hstop : groupStopped s t T g G = true) (ha : leNum p 24 8 % 16 = 0)
    (hin : inHbmOrHost (leNum p 24 8) = true) (hi : leNum p 14 1 < 200)
    (hlen : (if leNum p 14 1 < 128 then 396 else if leNum p 14 1 < 192 then 4 else 12) = n)
    (hread : (paTake s (leNum p 24 8) n).isSome = true) (hv : writeVerdict s t T g G p (paRead s (leNum p 24 8) n) = .accept u) :
    exec (.dbgctlWrite q) s = .next (acceptPacket u q e) := by
  have htake : paTake s (leNum p 24 8) n = some (paRead s (leNum p 24 8) n) := by
    obtain ⟨b, hb⟩ := Option.isSome_iff_exists.mp hread
    rw [hb, paTake_eq_some hb]
  refine runDebug_accept hn he hop hflags ?_
  rw [withGroup_of_debugs hd]
  simp only [ha, hin, hstop, hlen, htake, Nat.not_lt.mpr (Nat.le_of_lt_succ hi)]
  exact hv

theorem upd_upd_same {α : Type} (t : Tbl α) (k : Nat) (f f' : α → α) : (t.upd k f).upd k f' = t.upd k fun x => f' (f x) := by
  cases hx : t.get? k with
  | none => simp [Tbl.upd, hx]
  | some x => simp [Tbl.upd, hx]

/-- Writing a scalar again for each path that is named changes nothing more. -/
theorem writeScalar_scalar {r : Nat} (hr : r < 61) (v : Word) :
    writeScalar s t g G p r v = updGroup s t g fun G => { G with s := G.s.put r v } := by
  have hone (u : State) (k : Nat) : writeS u t g k r v = updGroup u t g fun G => { G with s := G.s.put r v } :=
    if_neg (Nat.not_le.mpr hr)
  have htwice (u : State) : updGroup (updGroup u t g fun G => { G with s := G.s.put r v }) t g (fun G => { G with s := G.s.put r v }) =
      updGroup u t g fun G => { G with s := G.s.put r v } := by
    simp only [updGroup, upd_upd_same, Tbl.put_put_same]
  simp only [writeScalar, hone, hr, if_true]
  induction G.paths.keys.filter (namesPath p) with
  | nil => rfl
  | cons k ks ih => rw [List.foldl_cons, htwice, ih]

theorem writeScalar_mask {r : Nat} (hr : 61 ≤ r) (v : Word) :
    writeScalar s t g G p r v = (G.paths.keys.filter (namesPath p)).foldl (fun u k => updPath u t g k fun P => { P with
      mask := writeMaskWord P.mask P.domain r v }) s := by
  have hone (u : State) (k : Nat) : writeS u t g k r v = updPath u t g k fun P => { P with mask := writeMaskWord P.mask P.domain r v } :=
    if_pos hr
  simp only [writeScalar, hone, Nat.not_lt.mpr hr, if_false]

end

end

/-- Settles O36: each packet by its checks and by what its memory holds. -/
theorem namedPacketResults : Obligations.NamedPacketResults := by
  intro s q e p hn
  refine ⟨?_, ?_, fun he => ⟨?_, ?_, ?_, ?_, ?_⟩⟩
  · intro h r b hop huses hctx ha hh hcur hmode hres hr hmin hmax hruses hb hcode
    exact graphrun_accepted hn hop huses hctx ha hh hcur hmode hres hr hmin hmax hruses hb hcode
  · intro h old r hop huses hctx ha hnew hh hold hr hlt
    exact graphedit_accepted hn hop huses hctx ha hnew hh hold hr hlt
  · intro b t u hop hdesc hflags huses hctx ha hb hcode hteams hlen ht hgood hpending hu
    exact setctx_accepted hn he hop hdesc hflags huses hctx ha hb hcode hteams hlen ht hgood hpending hu
  · intro f _ hop huses hf
    exact ⟨fun hflags => faultReply_accepted hn he hop hflags huses hf, fun hflags => faultReply_accepted hn he hop hflags huses hf⟩
  · intro m k hop huses hctx hprot hm hk
    exact tracekey_answers hn he hop huses hctx hprot hm hk
  · intro hop hflags hctx hslot hgroup hnames haddr
    exact bpset_accepted hn he hop hflags hctx hslot hgroup hnames haddr
  · intro t T g G hop hd
    refine ⟨fun hflags => resume_accepted hn he hop hflags hd, fun hflags hstop => step_accepted hn he hop hflags hd hstop,
      fun hflags hstop ha hin => dump_accepted hn he hop hflags hd hstop ha hin, ?_⟩
    intro hflags hstop ha hin x hread
    have haccept {n : Nat} {u : State} (hi : x < 200) (hlen : (if x < 128 then 396 else if x < 192 then 4 else 12) = n)
        (hv : writeVerdict s t T g G p (paRead s (leNum p 24 8) n) = .accept u) :
        exec (.dbgctlWrite q) s = .next (acceptPacket u q e) :=
      write_accepted hn he hop hflags hd hstop ha hin hi hlen (hlen ▸ hread) hv
    refine ⟨fun hx hmapped => ?_, fun hx hmapped hfree => ?_, fun hlo hhi => ?_, fun hlo hhi => ?_, fun hlo hhi => ?_⟩
    · exact haccept (by omega) (if_pos hx) (writeVerdict_mapped hx hmapped)
    · exact haccept (by omega) (if_pos hx) (writeVerdict_fresh hx hmapped hfree)
    · rw [haccept (by omega) (by rw [if_neg (by omega), if_pos (by omega)]) (writeVerdict_register hlo (by omega)),
        writeScalar_scalar (by omega)]
    · rw [haccept (by omega) (by rw [if_neg (by omega), if_pos (by omega)]) (writeVerdict_register (by omega) hhi),
        writeScalar_mask (by omega)]
      rfl
    · exact haccept hhi (by rw [if_neg (by omega), if_neg (by omega)]) (writeVerdict_predicate hlo)

end Sys2Proof.Machine
end

section
/-! THE ROM AND THE RESETS (O49, O50): an image is read on from where it has been read, its header's checks stay as they were, and every
reset leaves the same device. -/
namespace Sys2Proof.Machine

/-! ## Reading the image (R416) -/

/-- What a read of the image leaves: a longer copy at most, and perhaps its error. -/
theorem bootReadTo_eq (s : State) (n : Nat) :
    ∃ l err, bootReadTo s n = { s with boot := { s.boot with copy := s.boot.copy ++ l, readError := err } } := by
  unfold bootReadTo
  dsimp only
  split
  · exact ⟨[], s.boot.readError, by simp⟩
  · split
    · exact ⟨_, s.boot.readError, rfl⟩
    · exact ⟨[], true, by simp⟩

theorem Boot.part_append {b : Boot} {l : List Byte} {err : Bool} {i n : Nat} (h : i + n ≤ b.copy.length) :
    ({ b with copy := b.copy ++ l, readError := err } : Boot).part i n = b.part i n := by
  unfold Boot.part
  rw [List.drop_append_of_le_length (by omega), List.take_append_of_le_length (by rw [List.length_drop]; omega)]

theorem length_of_headerCode_eq_zero {b : Boot} (h : headerCode b = 0) : 6144 ≤ b.copy.length := by
  by_contra hlt
  rw [headerCode, if_pos (by omega)] at h
  cases h

theorem Boot.bodyLen_append {b : Boot} {l : List Byte} {err : Bool} (h : 6144 ≤ b.copy.length) :
    ({ b with copy := b.copy ++ l, readError := err } : Boot).bodyLen = b.bodyLen := by
  unfold Boot.bodyLen
  rw [Boot.part_append (by omega)]

theorem Boot.level_append {b : Boot} {l : List Byte} {err : Bool} (h : 6144 ≤ b.copy.length) :
    ({ b with copy := b.copy ++ l, readError := err } : Boot).level = b.level := by
  unfold Boot.level
  rw [Boot.part_append (by omega)]

/-- The header's checks read its 6,144 bytes alone. -/
theorem headerCode_append {b : Boot} {l : List Byte} {err : Bool} (h : 6144 ≤ b.copy.length) :
    headerCode { b with copy := b.copy ++ l, readError := err } = headerCode b := by
  have hpart {i n : Nat} (hi : i + n ≤ 6144) : ({ b with copy := b.copy ++ l, readError := err } : Boot).part i n = b.part i n :=
    Boot.part_append (by omega)
  have hlen : ¬(b.copy ++ l).length < 6144 := by rw [List.length_append]; omega
  unfold headerCode
  simp only [Boot.bodyLen_append h, Boot.level_append h, hpart (i := 0) (n := 6144) (by decide), hpart (i := 128) (n := 32) (by decide),
    hpart (i := 160) (n := 1952) (by decide), hpart (i := 0) (n := 128) (by decide), hpart (i := 2112) (n := 64) (by decide),
    hpart (i := 2176) (n := 3309) (by decide), hlen, Nat.not_lt.mpr h]

theorem headerCode_le (b : Boot) : headerCode b ≤ 5 := by
  unfold headerCode
  dsimp only
  repeat' split
  all_goals omega

theorem bodyCode_le (b : Boot) : bodyCode b ≤ 7 := by
  unfold bodyCode
  repeat' split
  all_goals omega

/-- A load comes to the header's failing check, or reads on to the body's. -/
theorem loadImage_eq (s : State) : ∃ b, (loadImage s).2 = { s with boot := b } ∧ b.fuse = s.boot.fuse ∧
    (loadImage s).1 = if headerCode b ≠ 0 then headerCode b else bodyCode b := by
  obtain ⟨l, err, hread⟩ := bootReadTo_eq s 6144
  generalize hb : ({ s.boot with copy := s.boot.copy ++ l, readError := err } : Boot) = b at hread
  have hfuse : b.fuse = s.boot.fuse := by rw [← hb]
  unfold loadImage
  simp only [hread]
  by_cases hcode : headerCode b = 0
  · obtain ⟨l', err', hread'⟩ := bootReadTo_eq { s with boot := b } (6144 + b.bodyLen)
    have hcode' : headerCode { b with copy := b.copy ++ l', readError := err' } = 0 := by
      rw [headerCode_append (length_of_headerCode_eq_zero hcode), hcode]
    refine ⟨{ b with copy := b.copy ++ l', readError := err' }, ?_, hfuse, ?_⟩
    · simp only [hcode, hread']
    · simp only [hcode, hread', hcode']
      rfl
  · refine ⟨b, ?_, hfuse, ?_⟩
    · split
      · contradiction
      · rfl
    · rw [if_pos hcode]
      split
      · contradiction
      · rfl

theorem go_next {s : State} (hopen : barOpen s = true) (v : Word) : exec (.go v) s =
    .next (if v = 1 ∧ (s.boot.st = 1 ∨ s.boot.st = 4)
      then { s with boot := { s.boot with st := 2, code := 0, copy := [], readError := false } } else s) := by
  change execGo v s = _
  simp only [execGo, hopen, Bool.not_true, Bool.false_eq_true, if_false, Bool.and_eq_true, Bool.or_eq_true, decide_eq_true_eq,
    apply_ite Host.Outcome.next]

theorem bootLoadComplete_failed {s v : State} {code : Nat} (hst : s.boot.st = 2) (hcode : code ≠ 0) (hload : loadImage s = (code, v)) :
    exec .bootLoadComplete s = .next { v with boot := { v.boot with st := 4, code } } := by
  change execBootLoadComplete s = _
  obtain ⟨n, rfl⟩ := Nat.exists_eq_succ_of_ne_zero hcode
  simp only [execBootLoadComplete, hst, hload, ne_eq, not_true_eq_false, if_false]

theorem bootLoadComplete_started {s v : State} (hst : s.boot.st = 2) (hload : loadImage s = (0, v)) :
    exec .bootLoadComplete s = .next (startImage v) := by
  change execBootLoadComplete s = _
  simp only [execBootLoadComplete, hst, hload]
  rfl

/-- Settles O49: GO by its conditions, and a load by the code that its checks come to. -/
theorem bootResults : Obligations.BootResults := by
  intro s
  refine ⟨fun hopen v => go_next hopen v, fun hst => ?_⟩
  obtain ⟨b, hread, hfuse, hcode⟩ := loadImage_eq s
  have hload : loadImage s = (if headerCode b ≠ 0 then headerCode b else bodyCode b, { s with boot := b }) := Prod.ext hcode hread
  by_cases hheader : headerCode b ≠ 0
  · rw [if_pos hheader] at hload
    refine ⟨_, b, bootLoadComplete_failed hst hheader hload, hread, rfl, rfl, hfuse, ?_⟩
    rw [if_pos hheader]
    exact ⟨rfl, headerCode_le b⟩
  · rw [if_neg hheader] at hload
    by_cases hbody : bodyCode b ≠ 0
    · refine ⟨_, b, bootLoadComplete_failed hst hbody hload, hread, rfl, rfl, hfuse, ?_⟩
      rw [if_neg hheader, if_pos hbody]
      exact ⟨rfl, bodyCode_le b⟩
    · rw [Decidable.not_not.mp hbody] at hload
      refine ⟨_, b, bootLoadComplete_started hst hload, hread, rfl, rfl, hfuse, ?_⟩
      rw [if_neg hheader, if_neg hbody]
      exact ⟨rfl, rfl, hfuse ▸ rfl, rfl⟩

/-! ## Resets (O50, R420) -/

theorem fusesLeft_cases (s : State) :
    (fusesLeft s = (s.boot.fuse, s)) ∨ s.boot.st = 2 ∧ ∃ k, fusesLeft s = (s.boot.fuse + k, s.draw.2) := by
  unfold fusesLeft
  generalize loadImage s = x
  obtain ⟨code, v⟩ := x
  simp only []
  split
  · next h =>
      obtain ⟨hst, -⟩ := Bool.and_eq_true_iff.mp h
      exact .inr ⟨of_decide_eq_true hst, _, rfl⟩
  · exact .inl rfl

theorem hostMemory_get {s : State} {a : Nat} (ha : targetOf a ≠ .host) : (hostMemory s).get a = Memory.blank := by
  have hnone : Tbl.get? (hostMemory s) a = none := Tbl.get?_filter_key (fun k => targetOf k == .host) s.store.pa a (by simpa using ha)
  simp [Memory.get, Tbl.getD, hnone]

/-- The device wiped, with or without its power afterwards. -/
theorem wipeDevice_afterReset (s : State) (st : Nat) (on : Bool) :
    afterReset s { wipeDevice s with boot := { (wipeDevice s).boot with st, powered := on } } st on := by
  have hblank : ∀ a, targetOf a ≠ .host → (wipeDevice s).store.pa.get a = State.reset.store.pa.get a := fun a ha => by
    unfold wipeDevice
    exact hostMemory_get ha
  unfold wipeDevice at hblank ⊢
  rcases fusesLeft_cases s with h | ⟨hst, k, h⟩
  · rw [h] at hblank ⊢
    exact ⟨rfl, le_refl _, fun _ => rfl, hblank⟩
  · rw [h] at hblank ⊢
    exact ⟨rfl, Nat.le_add_right _ _, fun hne => absurd hst hne, hblank⟩

theorem resetDevice_afterReset (s : State) : afterReset s (wipeDevice s) 1 true := wipeDevice_afterReset s 1 true

theorem selfTest_of_faultless {s : State} (h : s.health.faulty = []) : selfTest s = s := by simp [selfTest, h]

/-- Settles O50: every kind of reset wipes the device. -/
theorem resetResults : Obligations.ResetResults := by
  intro s
  refine ⟨fun hopen => ⟨⟨_, ?_, resetDevice_afterReset s⟩, fun v hv => ?_⟩, fun hon => ⟨⟨_, ?_, resetDevice_afterReset s⟩, _, ?_,
    wipeDevice_afterReset s 0 false⟩, fun hoff => ⟨_, ?_, resetDevice_afterReset s⟩, selfTest_of_faultless⟩
  · change execResetreq 0xD0E5 s = _
    simp only [execResetreq, hopen, resetDevice]
    rfl
  · change execResetreq v s = _
    simp only [execResetreq, hopen, hv]
    rfl
  · change execDeviceReset s = _
    simp only [execDeviceReset, hon, resetDevice, if_true]
  · change execPowerLoss s = _
    simp only [execPowerLoss, hon, losePower, if_true]
  · change execPowerOnReset s = _
    simp only [execPowerOnReset, hoff, resetDevice]
    rfl

end Sys2Proof.Machine
end

section
/-! REGISTERS AND WINDOWS (O52; R346 to R348): each write of the driver, and each access through a window. -/
namespace Sys2Proof.Machine

/-! ## EN cleared (R348, R351) -/

theorem Tbl.del_eq_filter {α : Type} (t : Tbl α) (k : Nat) : t.del k = t.filter fun x => x.1 != k := by
  induction t with
  | nil => rfl
  | cons x t ih => by_cases h : x.1 = k <;> simp [Tbl.del, h, ih]

theorem Tbl.foldl_del {α : Type} (l : List Nat) (t : Tbl α) : l.foldl Tbl.del t = t.filter fun x => !l.contains x.1 := by
  induction l generalizing t with
  | nil => simp
  | cons k l ih =>
    rw [List.foldl_cons, ih, Tbl.del_eq_filter, List.filter_filter]
    congr 1
    funext x
    by_cases hk : x.1 = k <;> simp [hk]

/-- Deleting every key of a table empties it. -/
theorem Tbl.foldl_del_keys {α : Type} (t : Tbl α) : t.keys.foldl Tbl.del t = [] := by
  rw [Tbl.foldl_del, List.filter_eq_nil_iff]
  intro x hx
  have hk : x.1 ∈ t.keys := List.mem_map_of_mem hx
  simpa using hk

theorem Tbl.get?_ne_none_of_mem {α : Type} {t : Tbl α} {x : Nat × α} (hx : x ∈ t) : t.get? x.1 ≠ none := by
  induction t with
  | nil => cases hx
  | cons y t ih =>
    rw [Tbl.get?_cons]
    split
    · simp
    · rcases List.mem_cons.mp hx with rfl | hx
      · contradiction
      · exact ih hx

theorem setDevState_wroteOnly (s : State) (q v : Nat) : WroteOnly s (setDevState s q v) := paWrite_wroteOnly _ _ _

theorem WroteOnly.hg {s u : State} (h : WroteOnly s u) : u.hg = s.hg := by rw [h]

theorem WroteOnly.teams {s u : State} (h : WroteOnly s u) : u.teams = s.teams := by rw [h]

theorem unmapSlot_slots (s : State) (k : Nat) : (unmapSlot s k).hg.slots = s.hg.slots.del k := by
  unfold unmapSlot
  split
  · next hk =>
    rw [Tbl.del_eq_filter, List.filter_eq_self.mpr]
    intro x hx
    by_contra hxk
    have hkey : x.1 = k := by simpa using hxk
    exact absurd hk (hkey ▸ Tbl.get?_ne_none_of_mem hx)
  · dsimp only [updQ]
    rw [(setDevState_wroteOnly _ _ _).hg]

theorem unmapSlot_teams (s : State) (k : Nat) : (unmapSlot s k).teams = s.teams := by
  unfold unmapSlot
  split
  · rfl
  · exact (setDevState_wroteOnly _ _ _).teams

theorem foldl_unmapSlot_slots (l : List Nat) (s : State) : (l.foldl unmapSlot s).hg.slots = l.foldl Tbl.del s.hg.slots := by
  induction l generalizing s with
  | nil => rfl
  | cons k l ih => rw [List.foldl_cons, ih, unmapSlot_slots, List.foldl_cons]

theorem foldl_unmapSlot_teams (l : List Nat) (s : State) : (l.foldl unmapSlot s).teams = s.teams :=
  foldl_inv (P := fun u => u.teams = s.teams) (fun u k hu => (unmapSlot_teams u k).trans hu) rfl

theorem disableQueues_slots (s : State) (v : Dword) : (disableQueues s v).hg.slots = [] := by
  unfold disableQueues
  dsimp only
  rw [foldl_unmapSlot_slots, Tbl.foldl_del_keys]

theorem disableQueues_teams (s : State) (v : Dword) : (disableQueues s v).teams = s.teams := by
  unfold disableQueues
  dsimp only
  rw [foldl_unmapSlot_teams]
  exact (WroteOnly.foldl (fun _ _ => setDevState_wroteOnly _ _ _) _ s).teams

/-! ## The registers -/

section
variable {s : State}

theorem lowWord_eq_setWidth (v : Dword) : lowWord v = v.setWidth 32 := (BitVec.setWidth_eq_extractLsb' (by decide)).symm

theorem qtbaseMask_en (v : Dword) : (v &&& 0x000FFFFFFFFF0001).getLsbD 0 = v.getLsbD 0 := by simp

theorem qtbaseWrite_disabled (hopen : barOpen s = true) (hen : s.hg.en = false) (v : Dword) :
    exec (.qtbaseWrite v) s = .next { s with hg := { s.hg with qtbase := v &&& 0x000FFFFFFFFF0001 } } := by
  change execQtbaseWrite v s = _
  simp [execQtbaseWrite, hopen, hen]

theorem qtbaseWrite_enabled (hopen : barOpen s = true) (hen : s.hg.en = true) {v : Dword} (hv : v.getLsbD 0 = true) :
    exec (.qtbaseWrite v) s = .next s := by
  change execQtbaseWrite v s = _
  simp only [execQtbaseWrite, hopen, hen, qtbaseMask_en, hv]
  rfl

theorem qtbaseWrite_disables (hopen : barOpen s = true) (hen : s.hg.en = true) {v : Dword} (hv : v.getLsbD 0 = false) :
    exec (.qtbaseWrite v) s = .next (disableQueues s (v &&& 0x000FFFFFFFFF0001)) := by
  change execQtbaseWrite v s = _
  simp only [execQtbaseWrite, hopen, hen, qtbaseMask_en, hv]
  rfl

theorem cxlQuiet_of_none_sent (h : ∀ e ∈ s.reqs, e.2.stage = .sent → targetOf e.2.pa ≠ .cxl) (c : Nat) : cxlQuiet s c = true := by
  simp only [cxlQuiet, Bool.not_eq_true', List.any_eq_false, Bool.and_eq_true, beq_iff_eq, not_and, and_imp]
  intro e he hsent hcxl
  exact absurd hcxl (h e he hsent)

theorem cxldecWrite_reserved (hopen : barOpen s = true) {v : Dword} (hv : v.toNat % 4 = 3) : exec (.cxldecWrite v) s = .next s := by
  change execCxldecWrite v s = _
  simp only [execCxldecWrite, hopen, hv]
  rfl

theorem cxldecWrite_sets (hopen : barOpen s = true) {v : Dword} (hv : v.toNat % 4 < 3) (hquiet : cxlQuiet s (v.toNat % 4) = true) :
    exec (.cxldecWrite v) s = .next { s with hg := { s.hg with cxldec := v.toNat % 4 } } := by
  change execCxldecWrite v s = _
  simp only [execCxldecWrite, hopen, hquiet, Nat.ne_of_lt hv]
  rfl

theorem registerWrite_next (hopen : barOpen s = true) {off : Nat} (hown : ownWrite off = false) (v : Dword) :
    exec (.registerWrite off v) s = .next (writeRegister s off v) := by
  change execRegisterWrite off v s = _
  simp only [execRegisterWrite, hopen, hown]
  rfl

theorem writeRegister_window {k h : Nat} (hk : k < 32) (hh : h < 2) (v : Dword) :
    writeRegister s (0x010000 + 16 * k + 8 * h) v = writeWindow s k h v := by
  have hin : (0x010000 ≤ 0x010000 + 16 * k + 8 * h && 0x010000 + 16 * k + 8 * h < 0x010200 && (0x010000 + 16 * k + 8 * h) % 8 = 0) =
      true := by
    simp only [Bool.and_eq_true, decide_eq_true_eq]
    omega
  have hindex : (0x010000 + 16 * k + 8 * h - 0x010000) / 16 = k := by omega
  have hhalf : (0x010000 + 16 * k + 8 * h) / 8 % 2 = h := by omega
  rw [writeRegister, if_pos hin, hindex, hhalf]

theorem ownWrite_window {k h : Nat} (hk : k < 32) (hh : h < 2) : ownWrite (0x010000 + 16 * k + 8 * h) = false := by
  simp only [ownWrite, Bool.or_eq_false_iff, Bool.and_eq_false_iff, beq_eq_false_iff_ne, decide_eq_false_iff_not]
  omega

end

theorem registerWriteResults : registerWriteResultsRule := by
  intro s v
  refine ⟨fun hopen => ⟨fun hen => qtbaseWrite_disabled hopen hen v, fun hen hv => qtbaseWrite_enabled hopen hen hv, ?_,
    fun hv => cxldecWrite_reserved hopen hv, fun hv hquiet => cxldecWrite_sets hopen hv (cxlQuiet_of_none_sent hquiet _), ?_, ?_, ?_, ?_, ?_⟩,
    fun hon l up hl => ?_⟩
  · intro hen hv
    refine ⟨_, qtbaseWrite_disables hopen hen hv, ?_, disableQueues_slots _ _, rfl, disableQueues_teams _ _⟩
    exact (qtbaseMask_en v).trans hv
  · intro hen
    rw [registerWrite_next hopen rfl]
    simp [writeRegister, hen, lowWord_eq_setWidth]
  · intro hen
    rw [registerWrite_next hopen rfl]
    simp [writeRegister, hen]
  · rw [registerWrite_next hopen rfl]
    simp [writeRegister]
  · rw [registerWrite_next hopen rfl]
    simp [writeRegister, lowWord_eq_setWidth]
  · intro k h hk hh
    rw [registerWrite_next hopen (ownWrite_window hk hh), writeRegister_window hk hh]
    rfl
  · constructor
    · change execCulvertLinkStateChange l up s = _
      simp only [execCulvertLinkStateChange, hon, Nat.not_le.mpr hl]
      rfl
    · change execCxlPortStateChange l up s = _
      simp only [execCxlPortStateChange, hon, Nat.not_le.mpr hl]
      rfl

/-! ## Windows (R346) -/

section
variable {s : State} {link win off len : Nat} {wr : Bool} {data : List Byte}

theorem Window.ctx_eq (w : Window) : w.ctx = w.toNat / 2 ^ 112 := by
  have hlt := w.isLt
  rw [Window.ctx, bits, Nat.mod_eq_of_lt (by omega)]

theorem Window.target_eq (w : Window) : w.target = 65536 * (w.toNat / 2 ^ 64 % 2 ^ 48) := rfl

/-- An access within a sector of a window passes the first checks. -/
theorem hostWindowAccess_eq (hon : s.boot.powered = true) (hlink : link < 2) (hwin : win < 16) (hoff : off < 2 ^ 36) (hlen : 0 < len)
    (hup : (s.die link).portUp = true)
    (hsector : ((s.hg.windows.getD (16 * link + win) 0).target + off) % 64 + len ≤ 64) (hdata : wr = true → data.length = len) :
    exec (.hostWindowAccess link win off len wr data) s =
      if windowRefuses s (s.hg.windows.getD (16 * link + win) 0) off len wr then
        .next (completeHost s (hostReq (s.hg.windows.getD (16 * link + win) 0) link off len wr data) true 0)
      else .next (newReq s (hostReq (s.hg.windows.getD (16 * link + win) 0) link off len wr data)).2 := by
  have hwrite : (wr && data.length ≠ len) = false := by
    cases wr with
    | false => rfl
    | true => simp [hdata rfl]
  have hva : ¬64 < (hostReq (s.hg.windows.getD (16 * link + win) 0) link off len wr data).va % 64 + len := Nat.not_lt.mpr hsector
  change execHostWindowAccess link win off len wr data s = _
  simp only [execHostWindowAccess, hon, Nat.not_le.mpr hlink, Nat.not_le.mpr hwin, Nat.not_le.mpr hoff, hlen.ne', hup, hwrite, hva]
  rfl

/-- An error answers a read with ones in each byte that it asked for. -/
theorem completeHost_error (w : Window) (hlen : len ≤ 64) (hsector : (w.target + off) % 64 + len ≤ 64) :
    completeHost s (hostReq w link off len wr data) true 0 =
      { s with completions := (true, if wr then [] else List.replicate len 0xFF) :: s.completions } := by
  have hcount : min (64 - (hostReq w link off len wr data).va % 64) (hostReq w link off len wr data).e.toNat = len := by
    have hva : (hostReq w link off len wr data).va = w.target + off := rfl
    have he : (hostReq w link off len wr data).e = BitVec.ofNat 32 len := rfl
    rw [hva, he, BitVec.toNat_ofNat]
    omega
  have hones : (List.range len).map (fun _ => BitVec.allOnes 8) = List.replicate len (0xFF : Byte) := by
    rw [List.map_const', List.length_range]
    rfl
  unfold completeHost
  dsimp only
  rw [hcount]
  simp only [if_true, hones]
  cases wr with
  | false => rfl
  | true => rfl

end

theorem windowAccessResults : windowAccessResultsRule := by
  intro s link win off len wr data hon hlink hwin hoff hlen hup w va hsector hdata
  have heq := hostWindowAccess_eq hon hlink hwin hoff hlen hup (Window.target_eq _ ▸ hsector) hdata
  constructor
  · intro hrefuse
    rw [heq, if_pos hrefuse, completeHost_error _ (by omega) (Window.target_eq _ ▸ hsector)]
  · intro hgrant
    rw [heq, if_neg (by simp [w] at hgrant; simp [hgrant])]
    refine ⟨_, hostReq w link off len wr data, rfl, rfl, rfl, rfl, rfl, rfl, rfl, rfl, fun hphys => ?_⟩
    have hctx : (hostReq w link off len wr data).ctx = if w.phys then 0xFFFF else w.ctx := rfl
    rw [hctx, Window.phys, hphys, Window.ctx_eq]
    rfl

/-- Settles O52: the registers, then the windows. -/
theorem registerAndWindowAccess : Obligations.RegisterAndWindowAccess := ⟨registerWriteResults, windowAccessResults⟩

end Sys2Proof.Machine
end

section
/-! ERRORS, POWER AND HEAT (O51; R421 to R427): what HEALTH and its counters become, and what a fence leaves. -/

namespace Sys2Proof.Machine

/-! ## HEALTH and its counters (R421, R423) -/

/-- HEALTH written: nothing else changes but the interrupts that it raises. -/
theorem setHealth_eq (s : State) (w : Word) : ∃ l, setHealth s w = { s with health := { s.health with word := w }, irqs := l } := by
  unfold setHealth
  split
  · next h => exact ⟨s.irqs, by rw [h]⟩
  · dsimp only
    split
    · exact ⟨_, rfl⟩
    · exact ⟨_, rfl⟩

@[simp] theorem setHealth_word (s : State) (w : Word) : (setHealth s w).health.word = w := by
  obtain ⟨l, h⟩ := setHealth_eq s w
  rw [h]

@[simp] theorem setHealth_errcnt (s : State) (w : Word) : (setHealth s w).health.errcnt = s.health.errcnt := by
  obtain ⟨l, h⟩ := setHealth_eq s w
  rw [h]

@[simp] theorem setHealth_clock (s : State) (w : Word) : (setHealth s w).health.clock = s.health.clock := by
  obtain ⟨l, h⟩ := setHealth_eq s w
  rw [h]

@[simp] theorem setHealth_dies (s : State) (w : Word) : (setHealth s w).dies = s.dies := by
  obtain ⟨l, h⟩ := setHealth_eq s w
  rw [h]

@[simp] theorem setHealth_cores (s : State) (w : Word) : (setHealth s w).cores = s.cores := by
  obtain ⟨l, h⟩ := setHealth_eq s w
  rw [h]

@[simp] theorem setHealth_teams (s : State) (w : Word) : (setHealth s w).teams = s.teams := by
  obtain ⟨l, h⟩ := setHealth_eq s w
  rw [h]

theorem countError_errcnt (s : State) (i : Nat) :
    (countError s i).health.errcnt.getD i 0 = s.health.errcnt.getD i 0 + 1 := Tbl.getD_put_same _ _ _ _

/-! ## Poison (R421) -/

theorem poisonBit_true (w : Word) : (poisonBit w true).getLsbD 3 = true := by simp [poisonBit]

theorem notePoison_word {s : State} (h : anyPoison s = true) : (notePoison s).health.word.getLsbD 3 = true := by
  rw [notePoison, setHealth_word, h, poisonBit_true]

/-- A class-2 error counts, and what HEALTH had stays. -/
theorem class2_errcnt (s : State) : (class2 s).health.errcnt.getD 2 0 = s.health.errcnt.getD 2 0 + 1 := by
  unfold class2
  dsimp only
  split
  · rw [raiseHealth, setHealth_errcnt, countError_errcnt]
  · rw [countError_errcnt]

theorem class2_word {s : State} {i : Nat} (h : s.health.word.getLsbD i = true) : (class2 s).health.word.getLsbD i = true := by
  have hcount : (countError { s with health := { s.health with class2 := s.health.class2 + 1 } } 2).health.word.getLsbD i = true := h
  unfold class2
  dsimp only
  split
  · rw [raiseHealth, setHealth_word, BitVec.getLsbD_or, hcount, Bool.true_or]
  · exact hcount

theorem class2_store (s : State) : (class2 s).store = s.store := by
  unfold class2
  dsimp only
  split
  · rw [raiseHealth, setHealth_store]
    rfl
  · rfl

theorem class2_dies (s : State) : (class2 s).dies = s.dies := by
  unfold class2
  dsimp only
  split
  · rw [raiseHealth, setHealth_dies]
    rfl
  · rfl

theorem class2_cores (s : State) : (class2 s).cores = s.cores := by
  unfold class2
  dsimp only
  split
  · rw [raiseHealth, setHealth_cores]
    rfl
  · rfl

/-- What a noted poison of class 2 leaves: the counter, and POISONED. -/
theorem class2_notePoison {s : State} (h : anyPoison s = true) :
    (class2 (notePoison s)).health.errcnt.getD 2 0 = s.health.errcnt.getD 2 0 + 1 ∧
      (class2 (notePoison s)).health.word.getLsbD 3 = true := by
  refine ⟨?_, class2_word (notePoison_word h)⟩
  rw [class2_errcnt, notePoison, setHealth_errcnt]

theorem class2_setPoison (s : State) (x : Nat) : poisoned (class2 (setPoison s x true)) x = true ∧
    (class2 (setPoison s x true)).health.errcnt.getD 2 0 = s.health.errcnt.getD 2 0 + 1 ∧
    (class2 (setPoison s x true)).health.word.getLsbD 3 = true := by
  refine ⟨?_, class2_notePoison (by simp [anyPoison])⟩
  rw [poisoned, class2_store, setPoison, notePoison, setHealth_store]
  simp

theorem Tbl.mem_put_same {α : Type} (t : Tbl α) (k : Nat) (v : α) : (k, v) ∈ t.put k v := by
  induction t with
  | nil => exact List.mem_cons_self
  | cons x t ih =>
    simp only [Tbl.put]
    split
    · exact List.mem_cons_self
    · split
      · exact List.mem_cons_self
      · exact List.mem_cons_of_mem _ ih

/-- A dirty sector of a table is there, and is poisoned. -/
theorem poisonDirty_of_dirty {t : Tbl Sect} {key : Nat} (h : (t.getD key Sect.none).dirty ≠ 0) :
    poisonDirty t key = some (t.put key { t.getD key Sect.none with bad := true }) := by
  unfold poisonDirty
  cases hx : t.get? key with
  | none => exact (h (by simp [Tbl.getD, hx, Sect.none])).elim
  | some c =>
    have hc : t.getD key Sect.none = c := by simp [Tbl.getD, hx]
    rw [hc] at h ⊢
    exact if_neg h

theorem anyPoison_l2 {s : State} {d : Nat} {x : Die} {key : Nat} {c : Sect} (hc : (key, c) ∈ x.l2.sects) (hbad : c.bad = true) :
    anyPoison (s.setDie d x) = true := by
  simp only [anyPoison, Bool.or_eq_true, List.any_eq_true]
  exact .inl (.inr ⟨_, Tbl.mem_put_same _ _ _, _, hc, hbad⟩)

theorem anyPoison_l1 {s : State} {core : Nat} {x : Core} {key : Nat} {c : Sect} (hc : (key, c) ∈ x.l1.sects) (hbad : c.bad = true) :
    anyPoison (s.setCore core x) = true := by
  simp only [anyPoison, Bool.or_eq_true, List.any_eq_true]
  exact .inr ⟨_, Tbl.mem_put_same _ _ _, _, hc, hbad⟩

section
variable {s : State}

theorem sectorPoison_memory (hon : s.boot.powered = true) {pa : Nat} (hpa : targetOf pa ≠ .none) :
    exec (.sectorPoison 0 0 pa) s = .next (class2 (setPoison s (cellOf s pa / 64) true)) := by
  change execSectorPoison 0 0 pa s = _
  simp [execSectorPoison, hon, hpa]

theorem sectorPoison_vault (hon : s.boot.powered = true) {off : Nat} (hoff : off < 2 ^ 34) :
    exec (.sectorPoison 1 0 off) s = .next (class2 (setPoison s (vaultKey off) true)) := by
  change execSectorPoison 1 0 off s = _
  simp only [execSectorPoison, hon, Nat.not_le.mpr hoff]
  rfl

theorem sectorPoison_l2 (hon : s.boot.powered = true) {die key : Nat} (hdirty : ((s.die die).l2.sect key).dirty ≠ 0) :
    exec (.sectorPoison 2 die key) s = .next (class2 (notePoison (s.setDie die { s.die die with l2 := { (s.die die).l2 with
      sects := (s.die die).l2.sects.put key { (s.die die).l2.sect key with bad := true } } }))) := by
  change execSectorPoison 2 die key s = _
  simp only [execSectorPoison, hon, poisonDirty_of_dirty hdirty]
  rfl

theorem sectorPoison_l1 (hon : s.boot.powered = true) {core key : Nat} (hdirty : ((s.core core).l1.sect key).dirty ≠ 0) :
    exec (.sectorPoison 3 core key) s = .next (class2 (notePoison (s.setCore core { s.core core with l1 := { (s.core core).l1 with
      sects := (s.core core).l1.sects.put key { (s.core core).l1.sect key with bad := true } } }))) := by
  change execSectorPoison 3 core key s = _
  simp only [execSectorPoison, hon, poisonDirty_of_dirty hdirty]
  rfl

end

/-! ## Fencing (R381) -/

/-- A step that changes nothing but teams. -/
def TeamsOnly (s u : State) : Prop := u = { s with teams := u.teams }

theorem TeamsOnly.foldl {α : Type} {f : State → α → State} (hf : ∀ u x, TeamsOnly u (f u x)) (l : List α) (s : State) :
    TeamsOnly s (l.foldl f s) :=
  foldl_inv (P := TeamsOnly s) (fun u x (hu : u = _) => by
    have hx : f u x = _ := hf u x
    unfold TeamsOnly
    rw [hx, hu]) rfl

theorem startSave_teamsOnly (s : State) (t : Nat) : TeamsOnly s (startSave s t) := rfl

theorem stopGroup_teamsOnly (s : State) (t g p : Nat) (pc : Dword) (code detail : Nat) (addr : Dword) :
    TeamsOnly s (stopGroup s t g p pc code detail addr) := rfl

theorem fence_teamsOnly (s : State) (core : Nat) (lost : List Nat) :
    TeamsOnly { raiseHealth (s.setCore core { s.core core with fenced := true }) 3 with
      fields := (raiseHealth (s.setCore core { s.core core with fenced := true }) 3).fields.mapVals
        fun _ f => { f with cores := f.cores &&& ~~~(1#128 <<< core) } } (fence s core lost) := by
  refine TeamsOnly.foldl (fun u x => ?_) _ _
  dsimp only
  split
  · exact startSave_teamsOnly _ _
  · exact TeamsOnly.foldl (fun u g => stopGroup_teamsOnly u ..) _ _

section
variable {s : State} {core : Nat} {lost : List Nat}

theorem fence_fenced : ((fence s core lost).core core).fenced = true := by
  rw [fence_teamsOnly s core lost]
  simp [State.core, raiseHealth, State.setCore]

theorem fence_errcnt : (fence s core lost).health.errcnt = s.health.errcnt := by
  rw [fence_teamsOnly s core lost]
  exact setHealth_errcnt _ _

theorem fence_word : (fence s core lost).health.word = s.health.word ||| 3 := by
  rw [fence_teamsOnly s core lost]
  exact setHealth_word _ _

theorem fence_fields {f : Nat} {x : Field} (hcore : core < 128) (hx : (fence s core lost).fields.get? f = some x) :
    x.cores.getLsbD core = false := by
  rw [fence_teamsOnly s core lost] at hx
  simp only [Tbl.get?_mapVals, Option.map_eq_some_iff] at hx
  obtain ⟨y, -, rfl⟩ := hx
  simp [hcore]

theorem coreUncorrectableError_fences (hcore : core < 128) (hf : (s.core core).fenced = false) :
    exec (.coreUncorrectableError core lost) s = .next (fence (countError s 3) core lost) := by
  change execCoreUncorrectableError core lost s = _
  simp [execCoreUncorrectableError, hcore, hf]

end

/-! ## Defective lanes (R422) -/

/-- Whether two lanes of a core are of one 32-lane group of a slice. -/
def sameLaneGroup (x d : Nat) : Bool := x / 128 == d / 128 && x % 128 / 32 == d % 128 / 32

section
variable {s : State} {core d : Nat}

theorem laneFound_fences (h : ((s.core core).remapped.any (sameLaneGroup · d) || (s.core core).defects.any (sameLaneGroup · d)) = true) :
    laneFound s core d = fence (countError s 4) core [] := if_pos h

theorem laneFound_notes (h : ((s.core core).remapped.any (sameLaneGroup · d) || (s.core core).defects.any (sameLaneGroup · d)) = false) :
    laneFound s core d =
      if sliceGroups ((countError s 4).setCore core { s.core core with defects := (s.core core).defects ++ [d] }) core (d / 128) = 0 then
        applyRemaps ((countError s 4).setCore core { s.core core with defects := (s.core core).defects ++ [d] }) core
      else (coreTeams ((countError s 4).setCore core { s.core core with defects := (s.core core).defects ++ [d] }) core).foldl
        (fun u e => startSave u e.1) ((countError s 4).setCore core { s.core core with defects := (s.core core).defects ++ [d] }) :=
  if_neg (Bool.eq_false_iff.mp h)

theorem applyRemaps_errcnt : (applyRemaps s core).health.errcnt = s.health.errcnt := by
  unfold applyRemaps
  dsimp only
  split
  · rfl
  · exact setHealth_errcnt _ _

/-- A lane whose slice holds no group takes its spare. -/
theorem applyRemaps_remapped (hd : d ∈ (s.core core).defects) (hempty : sliceGroups s core (d / 128) = 0) :
    d ∈ ((applyRemaps s core).core core).remapped := by
  have hready : d ∈ (s.core core).defects.filter fun d => sliceGroups s core (d / 128) = 0 := by simp [hd, hempty]
  unfold applyRemaps
  dsimp only
  rw [if_neg (by simpa using List.ne_nil_of_mem hready)]
  simp only [raiseHealth, State.core, setHealth_cores, State.setCore, Tbl.getD_put_same]
  exact List.mem_append_right _ hready

theorem laneFound_errcnt : (laneFound s core d).health.errcnt.getD 4 0 = s.health.errcnt.getD 4 0 + 1 := by
  cases h : (s.core core).remapped.any (sameLaneGroup · d) || (s.core core).defects.any (sameLaneGroup · d) with
  | true => rw [laneFound_fences h, fence_errcnt, countError_errcnt]
  | false =>
    rw [laneFound_notes h]
    split
    · rw [applyRemaps_errcnt]
      exact countError_errcnt s 4
    · rw [TeamsOnly.foldl (fun _ _ => startSave_teamsOnly _ _)]
      exact countError_errcnt s 4

theorem laneFound_remaps (h : ∀ x ∈ (s.core core).remapped ++ (s.core core).defects, sameLaneGroup x d = false)
    (hempty : sliceGroups s core (d / 128) = 0) : d ∈ ((laneFound s core d).core core).remapped := by
  have hnone : ((s.core core).remapped.any (sameLaneGroup · d) || (s.core core).defects.any (sameLaneGroup · d)) = false := by
    rw [← List.any_append, List.any_eq_false]
    intro x hx
    simp [h x hx]
  rw [laneFound_notes hnone]
  split
  · next hempty' =>
    refine applyRemaps_remapped ?_ hempty'
    rw [State.core_setCore]
    exact List.mem_append_right _ List.mem_cons_self
  · next hsome => exact absurd hempty hsome

/-- The state in which a defect is found: the lane stays defective for good. -/
def withFaulty (s : State) (x : Nat × Nat) : State :=
  { s with health := { s.health with faulty := x :: s.health.faulty.filter (· != x) } }

theorem laneDefect_found {slice lane : Nat} (hcore : core < 128) (hslice : slice < coreSlices core) (hlane : lane < sliceLanes core)
    (hf : (s.core core).fenced = false) :
    exec (.laneDefect core slice lane) s = .next (laneFound (withFaulty s (core, 128 * slice + lane)) core (128 * slice + lane)) := by
  change execLaneDefect core slice lane s = _
  simp only [execLaneDefect, hcore, hslice, hlane, hf]
  rfl

theorem sliceLanes_lt (core : Nat) : sliceLanes core < 128 := by
  unfold sliceLanes
  split <;> decide

theorem sameLaneGroup_lane {x slice lane : Nat} (hlane : lane < 128) :
    sameLaneGroup x (128 * slice + lane) = true ↔ x / 128 = slice ∧ x % 128 / 32 = lane / 32 := by
  have hdiv : (128 * slice + lane) / 128 = slice := by omega
  have hmod : (128 * slice + lane) % 128 = lane := by omega
  simp [sameLaneGroup, hdiv, hmod]

end

theorem laneDefect_results {s : State} {core slice lane : Nat} (hcore : core < 128) (hslice : slice < coreSlices core)
    (hlane : lane < sliceLanes core) (hf : (s.core core).fenced = false) :
    ∃ u, exec (.laneDefect core slice lane) s = .next u ∧ u.health.errcnt.getD 4 0 = s.health.errcnt.getD 4 0 + 1 ∧
      ((∃ d ∈ (s.core core).remapped, d / 128 = slice ∧ d % 128 / 32 = lane / 32) → (u.core core).fenced = true) ∧
      ((∀ d ∈ (s.core core).remapped ++ (s.core core).defects, ¬ (d / 128 = slice ∧ d % 128 / 32 = lane / 32)) →
        sliceGroups s core slice = 0 → 128 * slice + lane ∈ (u.core core).remapped) := by
  have hlt : lane < 128 := hlane.trans (sliceLanes_lt core)
  refine ⟨_, laneDefect_found hcore hslice hlane hf, laneFound_errcnt, ?_, ?_⟩
  · rintro ⟨d, hd, hsame⟩
    rw [laneFound_fences]
    · exact fence_fenced
    · have hany : (s.core core).remapped.any (sameLaneGroup · (128 * slice + lane)) = true :=
        List.any_eq_true.mpr ⟨d, hd, (sameLaneGroup_lane hlt).mpr hsame⟩
      exact Bool.or_eq_true_iff.mpr (.inl hany)
  · intro hnone hempty
    refine laneFound_remaps (fun x hx => ?_) ?_
    · exact Bool.eq_false_iff.mpr fun h => hnone x hx ((sameLaneGroup_lane hlt).mp h)
    · rw [show (128 * slice + lane) / 128 = slice by omega]
      exact hempty

theorem errorEvents : errorEventsRule := by
  intro s hon
  refine ⟨?_, ?_, ?_, ?_, ?_, ?_, ?_⟩
  · intro k hk
    change execEccCorrected k s = _
    simp [execEccCorrected, hon, hk]
  · intro pa hpa
    exact ⟨_, sectorPoison_memory hon hpa, class2_setPoison s _⟩
  · intro off hoff
    exact ⟨_, sectorPoison_vault hon hoff, class2_setPoison s _⟩
  · intro die key hdirty
    refine ⟨_, sectorPoison_l2 hon hdirty, ?_, class2_notePoison (anyPoison_l2 (Tbl.mem_put_same _ _ _) rfl)⟩
    simp [State.die, class2_dies, notePoison, State.setDie, L2.sect]
  · intro core key hdirty
    refine ⟨_, sectorPoison_l1 hon hdirty, ?_, class2_notePoison (anyPoison_l1 (Tbl.mem_put_same _ _ _) rfl)⟩
    simp [State.core, class2_cores, notePoison, State.setCore, L1.sect]
  · intro core lost hcore hf
    refine ⟨_, coreUncorrectableError_fences hcore hf, fence_fenced, ?_, ?_, ?_, fun f x => fence_fields hcore⟩
    · rw [fence_word]
      simp
    · rw [fence_word]
      simp
    · rw [fence_errcnt, countError_errcnt]
  · intro core slice lane hcore hslice hlane hf
    exact laneDefect_results hcore hslice hlane hf

/-! ## Power and heat (R426, R427) -/

theorem setClock_clock (s : State) (n : Nat) : (setClock s n).health.clock = n := setHealth_clock _ _

theorem setClock_word (s : State) (n : Nat) : (setClock s n).health.word.getLsbD 2 = decide (n < 16) := by
  unfold setClock
  dsimp only
  rw [setHealth_word]
  by_cases h : n < 16
  · simp [h]
  · simp [h]

theorem thermalThrottle_sets {s : State} {die : Nat} (hon : s.boot.powered = true) (hdie : die < 4) :
    exec (.thermalThrottle die) s =
      .next (setClock s.draw.2 (4 + Config.freeNat s.draw.1 % (min s.health.clock 15 - 4 + 1))) := by
  change execThermalThrottle die s = _
  simp only [execThermalThrottle, hon, hdie]
  rfl

theorem powerEvents : powerEventsRule := by
  intro s hon
  refine ⟨?_, ?_, ?_, ?_⟩
  · intro n hmin hmax
    refine ⟨setClock s n, ?_, setClock_clock s n, setClock_word s n⟩
    change execPowerThrottle n s = _
    simp [execPowerThrottle, hon, hmin, hmax]
  · intro die hdie hclock
    have hlt : Config.freeNat s.draw.1 % (min s.health.clock 15 - 4 + 1) < min s.health.clock 15 - 4 + 1 :=
      Nat.mod_lt _ (Nat.succ_pos _)
    refine ⟨_, thermalThrottle_sets hon hdie, ?_⟩
    rw [setClock_clock, setClock_word, decide_eq_true_eq]
    omega
  · intro die hdie
    refine ⟨raiseHealth (countError s 7) 1, ?_, ?_, ?_⟩
    · change execThermalTrip die s = _
      simp [execThermalTrip, hon, hdie]
    · rw [raiseHealth, setHealth_word]
      simp
    · rw [raiseHealth, setHealth_errcnt, countError_errcnt]
  · change execCoolantFault s = _
    exact if_pos hon

/-- Settles O51: errors, then power and heat. -/
theorem errorAndPowerEvents : Obligations.ErrorAndPowerEvents := ⟨errorEvents, powerEvents⟩

end Sys2Proof.Machine
end

section
/-! THE LINKS (O46, O47; R384 to R390): what no message on its way changes of a link. `<function>_linksAs` says of each function
    that a
delivery or a lost pair may reach that it leaves EXP and the modules of every link as they were. -/

namespace Sys2Proof.Machine

/-- EXP and the modules of every link are these. -/
def LinksAs (K : Nat → Nat × Tbl Module) (s : State) : Prop := ∀ k, ((s.link k).exp, (s.link k).modules) = K k

section
variable {K : Nat → Nat × Tbl Module}

theorem linksAs_ite {p : Prop} [Decidable p] {s u : State} (hs : LinksAs K s) (hu : LinksAs K u) : LinksAs K
    (if p then s else u) := by
  split
  · exact hs
  · exact hu

theorem foldl_linksAs {α : Type} {f : State → α → State} (hf : ∀ u x, LinksAs K u → LinksAs K (f u x)) {l : List α} {s : State}
    (h : LinksAs K s) : LinksAs K (l.foldl f s) := foldl_inv hf h

/-- The links alone count: every other field of the state may change. -/
theorem linksAs_with {s : State} (h : LinksAs K s) {refclk clock16 faultCount nextId free turn : Nat} {store : Store}
    {dies : Tbl Die}
    {cores : Tbl Core} {teams : Tbl Team} {ctxs : Tbl Ctx} {live : Tbl CtxLive} {fields : Tbl Field} {launches : Tbl Launch}
    {runs : Tbl GraphRun} {graphs : Tbl Graph} {workQs : Tbl WorkQ} {msgs : Tbl QueueMsg} {reqs : Tbl Req} {delayed : List Message}
    {accs : Tbl Access} {copies : Tbl Copy} {faults : Tbl FaultRec} {ring : Option FaultRing} {hg : Headgate} {keys : Keys}
    {trace : Trace} {boot : Boot} {health : Health} {irqs : List Nat} {completions : List (Bool × List Byte)}
    {split : Option LaneMask} {agenda : List Input} {cur : Option Cursor} :
    LinksAs K ⟨refclk, clock16, store, dies, s.links, cores, teams, ctxs, live, fields, launches, runs, graphs, workQs, msgs,
      reqs, delayed, accs, copies, faults, ring, faultCount, hg, keys, trace, boot, health, irqs, completions, nextId, free,
      split, agenda, turn, cur⟩ := h

theorem setLink_linksAs {s : State} {l : Nat} {x : Link} (h : LinksAs K s) (hexp : x.exp = (s.link l).exp)
    (hmod : x.modules = (s.link l).modules) : LinksAs K (s.setLink l x) := by
  intro k
  have hk := h k
  by_cases hkl : k = l
  · subst hkl
    simpa [State.link, State.setLink, hexp, hmod] using hk
  · simpa [State.link, State.setLink, hkl] using hk

theorem State.setDie_linksAs {s : State} {d : Nat} {x : Die} (h : LinksAs K s) :
    LinksAs K (State.setDie s d x) := h

theorem State.setCore_linksAs {s : State} {c : Nat} {x : Core} (h : LinksAs K s) :
    LinksAs K (State.setCore s c x) := h

theorem State.fresh_linksAs {s : State} (h : LinksAs K s) {r : Nat × State} (hx : State.fresh s = r) :
    LinksAs K r.2 := hx ▸ h

theorem State.draw_linksAs {s : State} (h : LinksAs K s) {r : Nat × State} (hx : State.draw s = r) :
    LinksAs K r.2 := hx ▸ h

theorem updGroup_linksAs {s : State} {t g : Nat} {f : Group → Group} (h : LinksAs K s) :
    LinksAs K (updGroup s t g f) := h

theorem updTeam_linksAs {s : State} {t : Nat} {f : Team → Team} (h : LinksAs K s) :
    LinksAs K (updTeam s t f) := h

theorem updPath_linksAs {s : State} {t g p : Nat} {f : Path → Path} (h : LinksAs K s) :
    LinksAs K (updPath s t g p f) := h

theorem updSeq_linksAs {s : State} {t : Nat} {flume : Bool} {f : Seq → Seq} (h : LinksAs K s) :
    LinksAs K (updSeq s t flume f) := h

theorem writeS_linksAs {s : State} {t g p r : Nat} {v : Word} (h : LinksAs K s) :
    LinksAs K (writeS s t g p r v) := linksAs_ite h h

theorem landLanes_linksAs {s : State} {t g : Nat} {l : Late} {m : LaneMask} (h : LinksAs K s) :
    LinksAs K (landLanes s t g l m) := by
  unfold landLanes
  split
  · exact h
  · exact writeS_linksAs h
  · exact h

theorem orFlags_linksAs {s : State} {t g : Nat} {f : Word} (h : LinksAs K s) :
    LinksAs K (orFlags s t g f) := linksAs_ite h h

theorem landNow_linksAs {s : State} {t g : Nat} {l : Late} (h : LinksAs K s) :
    LinksAs K (landNow s t g l) := by
  unfold landNow
  dsimp only
  split
  · exact updTeam_linksAs (orFlags_linksAs (landLanes_linksAs h))
  · exact orFlags_linksAs (landLanes_linksAs h)

theorem landAll_linksAs {s : State} {t g : Nat} (h : LinksAs K s) :
    LinksAs K (landAll s t g) := by
  unfold landAll
  split
  · exact h
  · exact updGroup_linksAs (foldl_linksAs (fun _ _ hu => landNow_linksAs hu) h)

theorem stopGroupAt_linksAs {s : State} {t g p : Nat} {pc : Dword} {mask : LaneMask} {code detail : Nat} {addr : Dword}
    (h : LinksAs K s) :
    LinksAs K (stopGroupAt s t g p pc mask code detail addr) := h

theorem stopGroup_linksAs {s : State} {t g p : Nat} {pc : Dword} {code detail : Nat} {addr : Dword} (h : LinksAs K s) :
    LinksAs K (stopGroup s t g p pc code detail addr) := h

theorem stopSeqWith_linksAs {s : State} {t : Nat} {flume : Bool} {pc : Dword} {code detail : Nat} {addr : Dword}
    {more : List Word} (h : LinksAs K s) :
    LinksAs K (stopSeqWith s t flume pc code detail addr more) := h

theorem stopSeq_linksAs {s : State} {t : Nat} {flume : Bool} {pc : Dword} {code detail : Nat} {addr : Dword} (h : LinksAs K s) :
    LinksAs K (stopSeq s t flume pc code detail addr) := h

theorem stopIssuer_linksAs {s : State} {t : Nat} {issuer : Option Nat} {flume : Bool} {p : Nat} {pc : Dword} {code detail : Nat}
    {addr : Dword} (h : LinksAs K s) :
    LinksAs K (stopIssuer s t issuer flume p pc code detail addr) := by
  unfold stopIssuer
  split
  · exact h
  · exact h

theorem stopLate_linksAs {s : State} {t : Nat} {issuer : Option Nat} {flume : Bool} {p : Nat} {pc : Dword} {mask : LaneMask}
    {code detail : Nat} {addr : Dword} (h : LinksAs K s) :
    LinksAs K (stopLate s t issuer flume p pc mask code detail addr) := by
  unfold stopLate
  split
  · exact h
  · exact h

theorem countClause_linksAs {s : State} {t : Nat} (h : LinksAs K s) :
    LinksAs K (countClause s t) := h

theorem switchPark_linksAs {s : State} {t g p : Nat} (h : LinksAs K s) :
    LinksAs K (switchPark s t g p) := linksAs_ite (updGroup_linksAs (landAll_linksAs h)) (landAll_linksAs h)

theorem markSwitch_linksAs {w : Bool} {e : Env} {s : State} (h : LinksAs K s) :
    LinksAs K (markSwitch w e s) := linksAs_ite (switchPark_linksAs h) h

theorem retire_linksAs {w : Bool} {e : Env} {s : State} (h : LinksAs K s) :
    LinksAs K (retire w e s) := markSwitch_linksAs (linksAs_ite h h)

theorem pickLine_linksAs {s : State} {a : List Nat} (h : LinksAs K s) {r : Option Nat × State} (hx : pickLine s a = r) :
    LinksAs K r.2 := by
  subst hx
  unfold pickLine
  dsimp only
  split
  · exact h
  · exact h
  · exact h

theorem cacheEntry_linksAs {s : State} {die key e : Nat} (h : LinksAs K s) :
    LinksAs K (cacheEntry s die key e) := linksAs_ite h h

theorem walkFrom_linksAs {s : State} {die ctl ctx va : Nat} {got : Option (Tbl TabRead)} {prot : Bool} {perm : Perm}
    {l : List (Nat × Nat)} {a : Nat} (h : LinksAs K s) {r : Xlate × State}
    (hx : walkFrom s die ctl ctx got prot perm va l a = r) : LinksAs K r.2 := by
  subst hx
  induction l generalizing s a with
  | nil => exact h
  | cons x l ih =>
    unfold walkFrom
    extract_lets -lift page own others used
    have hu : LinksAs K used.2.2 := by
      unfold used
      cases others with
      | nil => exact h
      | cons => exact h
    generalize used = used at hu ⊢
    split
    · exact hu
    · have hc {e : Nat} : LinksAs K (cacheEntry used.2.2 die (walkKey ctl ctx x.1 0 used.1) e) := cacheEntry_linksAs hu
      dsimp only
      split
      · exact hu
      · split
        · exact hc
        · split
          · exact hc
          · split
            · exact hc
            · exact ih hc

theorem translateGot_linksAs {s : State} {die ctx : Nat} {got : Option (Tbl TabRead)} {va : Nat} {perm : Perm} (h : LinksAs K s)
    {r : Xlate × State} (hx : translateGot s die ctx got va perm = r) :
    LinksAs K r.2 := by
  subst hx
  exact walkFrom_linksAs h rfl

theorem translate_linksAs {s : State} {die ctx va : Nat} {perm : Perm} (h : LinksAs K s) {r : Xlate × State}
    (hx : translate s die ctx va perm = r) :
    LinksAs K r.2 := by
  subst hx
  exact translateGot_linksAs h rfl

theorem carryAck_linksAs {s : State} {l : Nat} (h : LinksAs K s) : LinksAs K (carryAck s l) := setLink_linksAs h rfl rfl

theorem frame_exp (x : Link) (now ack : Nat) (fs : List Flit) : (frame x now ack fs).exp = x.exp := by
  unfold frame
  refine foldl_inv (P := fun y : Link => y.exp = x.exp) (fun y f h => ?_) rfl
  exact h

theorem frame_modules (x : Link) (now ack : Nat) (fs : List Flit) : (frame x now ack fs).modules = x.modules := by
  unfold frame
  refine foldl_inv (P := fun y : Link => y.modules = x.modules) (fun y f h => ?_) rfl
  exact h

theorem sendOn_linksAs {s : State} {l : Nat} {m : Message} (h : LinksAs K s) : LinksAs K (sendOn s l m) :=
  linksAs_ite (carryAck_linksAs (setLink_linksAs h (frame_exp _ _ _ _) (frame_modules _ _ _ _))) (setLink_linksAs h rfl rfl)

theorem updReq_linksAs {s : State} {id : Nat} {f : Req → Req} (h : LinksAs K s) :
    LinksAs K (updReq s id f) := h

theorem setHops_linksAs {s : State} {m : Message} {hops : List Nat} (h : LinksAs K s) :
    LinksAs K (setHops s m hops) := by
  unfold setHops
  split
  · exact h
  · exact h
  · exact h

theorem setOff_linksAs {s : State} {hops : List Nat} {m : Message} (h : LinksAs K s) :
    LinksAs K (setOff s hops m) := by
  unfold setOff
  split
  · exact h
  · exact linksAs_ite h (sendOn_linksAs h)

theorem newReq_linksAs {s : State} {r : Req} (h : LinksAs K s) {o : Nat × State} (hx : newReq s r = o) :
    LinksAs K o.2 := by
  subst hx
  unfold newReq
  dsimp only
  exact h

theorem noteTable_linksAs {s : State} {walker sector : Nat} {x : TabRead} (h : LinksAs K s) :
    LinksAs K (noteTable s walker sector x) := h

theorem noFill_linksAs {s : State} {die : Nat} {p : Req → Bool} (h : LinksAs K s) :
    LinksAs K (noFill s die p) := h

theorem noFillSector_linksAs {s : State} {die ctx va : Nat} (h : LinksAs K s) :
    LinksAs K (noFillSector s die ctx va) := h

theorem writeBack_linksAs {s : State} {die ctx field key : Nat} {m : BitVec 64} {data : BitVec 512} {bad : Bool} (h : LinksAs K s) :
    LinksAs K (writeBack s die ctx field key m data bad) := linksAs_ite h (newReq_linksAs (noFillSector_linksAs h) rfl)

theorem l2Clean_linksAs {s : State} {die key : Nat} (h : LinksAs K s) :
    LinksAs K (l2Clean s die key) := linksAs_ite h (writeBack_linksAs h)

theorem evictL2Line_linksAs {s : State} {die line : Nat} (h : LinksAs K s) :
    LinksAs K (evictL2Line s die line) := State.setDie_linksAs (foldl_linksAs (fun _ _ hu => l2Clean_linksAs hu) h)

theorem l2Room_linksAs {s : State} {die ctx field line cache : Nat} (h : LinksAs K s) {r : Bool × State}
    (hx : l2Room s die ctx field line cache = r) :
    LinksAs K r.2 := by
  subst hx
  unfold l2Room
  dsimp only
  split
  · exact h
  · split
    · exact h
    · split
      · next e₂ => exact pickLine_linksAs h e₂
      · next e₂ => exact State.setDie_linksAs (evictL2Line_linksAs (pickLine_linksAs h e₂))

theorem l2Write_linksAs {s : State} {die ctx field key cache : Nat} {m : BitVec 64} {data : BitVec 512} {bad : Bool}
    (h : LinksAs K s) :
    LinksAs K (l2Write s die ctx field key cache m data bad) := by
  unfold l2Write
  dsimp only
  apply linksAs_ite
  · exact h
  · exact linksAs_ite (State.setDie_linksAs (l2Room_linksAs h rfl)) (writeBack_linksAs (l2Room_linksAs h rfl))

theorem setL1_linksAs {s : State} {core : Nat} {l1 : L1} (h : LinksAs K s) :
    LinksAs K (setL1 s core l1) := h

theorem l1Clean_linksAs {s : State} {core key : Nat} (h : LinksAs K s) :
    LinksAs K (l1Clean s core key) := linksAs_ite h (l2Write_linksAs h)

theorem l1CleanLine_linksAs {s : State} {core line : Nat} (h : LinksAs K s) :
    LinksAs K (l1CleanLine s core line) := foldl_linksAs (fun _ _ hu => l1Clean_linksAs hu) h

theorem l1Drop_linksAs {s : State} {core line : Nat} (h : LinksAs K s) :
    LinksAs K (l1Drop s core line) := setL1_linksAs (l1CleanLine_linksAs h)

theorem recheckLine_linksAs {s : State} {core line : Nat} (h : LinksAs K s) :
    LinksAs K (recheckLine s core line) := linksAs_ite h h

theorem l1Acquire_linksAs {s : State} {core scope : Nat} (h : LinksAs K s) :
    LinksAs K (l1Acquire s core scope) := by
  unfold l1Acquire
  dsimp only
  split
  · exact foldl_linksAs (fun _ _ hu => linksAs_ite (l1Drop_linksAs hu) hu) h
  · exact foldl_linksAs (fun _ _ hu => linksAs_ite (l1Drop_linksAs hu) hu) (foldl_linksAs (fun _ _ hu => recheckLine_linksAs hu) h)

theorem l2Flush_linksAs {s : State} {die ctx : Nat} (h : LinksAs K s) :
    LinksAs K (l2Flush s die ctx) := foldl_linksAs (fun _ _ hu => linksAs_ite (l2Clean_linksAs hu) hu) h

theorem l2Drop_linksAs {s : State} {die ctx : Nat} (h : LinksAs K s) :
    LinksAs K (l2Drop s die ctx) := h

theorem acquire_linksAs {s : State} {core ctx scope : Nat} (h : LinksAs K s) :
    LinksAs K (acquire s core ctx scope) := by
  unfold acquire
  dsimp only
  apply linksAs_ite
  · exact l2Drop_linksAs (l2Flush_linksAs (noFill_linksAs (l1Acquire_linksAs h)))
  · exact noFill_linksAs (l1Acquire_linksAs h)

theorem unpark_linksAs {s : State} {t g : Nat} (h : LinksAs K s) :
    LinksAs K (unpark s t g) := linksAs_ite h h

theorem settleService_linksAs {s : State} {t g : Nat} (h : LinksAs K s) :
    LinksAs K (settleService s t g) := h

theorem endAccess_linksAs {s : State} {id : Nat} (h : LinksAs K s) :
    LinksAs K (endAccess s id) := by
  unfold endAccess
  dsimp only
  split
  · exact h
  · split
    · exact settleService_linksAs (unpark_linksAs h)
    · exact settleService_linksAs (unpark_linksAs h)

theorem dropRest_linksAs {s : State} {id : Nat} (h : LinksAs K s) :
    LinksAs K (dropRest s id) := h

theorem failAccess_linksAs {s : State} {id code detail addr : Nat} (h : LinksAs K s) :
    LinksAs K (failAccess s id code detail addr) := by
  unfold failAccess
  dsimp only
  split
  · exact h
  · exact endAccess_linksAs (dropRest_linksAs (linksAs_ite h h))

theorem failLanes_linksAs {s : State} {id lane code detail : Nat} (h : LinksAs K s) :
    LinksAs K (failLanes s id lane code detail) := by
  unfold failLanes
  dsimp only
  split
  · split
    · exact failAccess_linksAs h
    · exact h
  · exact h

theorem retireAt_linksAs {s : State} {t g p : Nat} (h : LinksAs K s) :
    LinksAs K (retireAt s t g p) := by
  unfold retireAt
  split
  · exact retire_linksAs h
  · exact h

theorem setHold_linksAs {s : State} {t : Nat} {g : Option Nat} {p : Nat} {h' : Option Hold} (h : LinksAs K s) :
    LinksAs K (setHold s t g p h') := by
  unfold setHold
  split
  · exact h
  · exact h

theorem retireAgent_linksAs {s : State} {t : Nat} {g : Option Nat} {p : Nat} (h : LinksAs K s) :
    LinksAs K (retireAgent s t g p) := by
  unfold retireAgent
  split
  · exact retireAt_linksAs h
  · exact h

theorem writeAgent_linksAs {s : State} {t : Nat} {g : Option Nat} {p r : Nat} {v : Word} (h : LinksAs K s) :
    LinksAs K (writeAgent s t g p r v) := by
  unfold writeAgent
  split
  · exact writeS_linksAs h
  · exact h

theorem dropReq_linksAs {s : State} {id : Nat} (h : LinksAs K s) :
    LinksAs K (dropReq s id) := h

theorem completeHost_linksAs {s : State} {r : Req} {error : Bool} {data : BitVec 512} (h : LinksAs K s) :
    LinksAs K (completeHost s r error data) := h

theorem stopCopy_linksAs {s : State} {id code detail va : Nat} (h : LinksAs K s) :
    LinksAs K (stopCopy s id code detail va) := by
  unfold stopCopy
  dsimp only
  split
  · exact h
  · exact stopLate_linksAs h

theorem stopFetch_linksAs {s : State} {t : Nat} {g : Option Nat} {p code detail va : Nat} (h : LinksAs K s) :
    LinksAs K (stopFetch s t g p code detail va) := by
  unfold stopFetch
  split
  · exact h
  · exact h

theorem failReq_linksAs {s : State} {id : Nat} {r : Req} {code detail : Nat} (h : LinksAs K s) :
    LinksAs K (failReq s id r code detail) := by
  unfold failReq
  dsimp only
  split
  · exact failLanes_linksAs h
  · exact stopCopy_linksAs h
  · exact stopFetch_linksAs h
  · exact h
  · exact h
  · exact h

theorem mergeVc_linksAs {s : State} {die : Nat} {v : List Nat} (h : LinksAs K s) :
    LinksAs K (mergeVc s die v) := h

theorem receive_linksAs {s : State} {m : QueueMsg} {ws : List Word} {vc : List Nat} (h : LinksAs K s) :
    LinksAs K (receive s m ws vc) := by
  unfold receive
  dsimp only
  split
  · apply linksAs_ite
    · exact foldl_linksAs (fun _ _ hu => writeAgent_linksAs hu) h
    · split
      · exact acquire_linksAs (foldl_linksAs (fun _ _ hu => writeAgent_linksAs hu) h)
      · exact acquire_linksAs (mergeVc_linksAs (foldl_linksAs (fun _ _ hu => writeAgent_linksAs hu) h))
  · exact foldl_linksAs (fun _ _ hu => writeAgent_linksAs hu) h

theorem takeAnswer_linksAs {s : State} {id : Nat} {m : QueueMsg} {ws : List Word} {vc : List Nat} (h : LinksAs K s) :
    LinksAs K (takeAnswer s id m ws vc) := by
  unfold takeAnswer
  dsimp only
  split
  · exact retireAgent_linksAs h
  · exact retireAgent_linksAs (writeAgent_linksAs h)
  · exact retireAgent_linksAs (receive_linksAs h)
  · exact retireAgent_linksAs (linksAs_ite (writeAgent_linksAs h) (writeAgent_linksAs (receive_linksAs h)))

theorem sendBare_linksAs {s : State} {l : Nat} {n : Option Nat} (h : LinksAs K s) : LinksAs K (sendBare s l n) :=
  linksAs_ite h (carryAck_linksAs (setLink_linksAs h rfl rfl))

theorem drainQueue_linksAs {l n : Nat} {s : State} (h : LinksAs K s) : LinksAs K (drainQueue l n s) := by
  induction n generalizing s with
  | zero => exact h
  | succ n ih =>
    unfold drainQueue
    extract_lets x
    split
    · exact h
    · apply linksAs_ite
      · exact ih (setLink_linksAs (sendOn_linksAs (setLink_linksAs h rfl rfl)) rfl rfl)
      · exact h

theorem freeOnly_linksAs {s : State} {l a : Nat} (h : LinksAs K s) : LinksAs K (freeOnly s l a) := setLink_linksAs h rfl rfl

theorem freeFlits_linksAs {s : State} {l a : Nat} (h : LinksAs K s) :
    LinksAs K (freeFlits s l a) := drainQueue_linksAs (freeOnly_linksAs h)

theorem hopDone_linksAs {s : State} {l : Nat} {m : Message} (h : LinksAs K s) :
    LinksAs K (hopDone s l m) := by
  unfold hopDone
  dsimp only
  split
  · exact h
  · split
    · exact sendOn_linksAs (setHops_linksAs h)
    · split
      · exact takeAnswer_linksAs (setHops_linksAs h)
      · exact setHops_linksAs h
    · exact setHops_linksAs h

theorem haltWriter_linksAs {s : State} {r : Req} (h : LinksAs K s) :
    LinksAs K (haltWriter s r) := by
  unfold haltWriter
  split
  · exact h
  · exact h

theorem haltWaiters_linksAs {s : State} {id : Nat} {r : Req} (h : LinksAs K s) :
    LinksAs K (haltWaiters s id r) := by
  unfold haltWaiters
  dsimp only
  exact foldl_linksAs (fun _ _ hu => foldl_linksAs (fun _ _ hv => foldl_linksAs (fun _ _ hw' => by
    split
    · exact linksAs_ite hw' hw'
    · exact hw') hv) hu) (foldl_linksAs (fun _ _ hu => failAccess_linksAs hu) h)

theorem loseReq_linksAs {s : State} {l id : Nat} {there : Bool} (h : LinksAs K s) :
    LinksAs K (loseReq s l id there) := by
  unfold loseReq
  dsimp only
  split
  · exact h
  · apply linksAs_ite
    · apply linksAs_ite
      · split
        · exact h
        · split
          · exact State.setDie_linksAs (dropReq_linksAs (haltWaiters_linksAs (haltWriter_linksAs h)))
          · exact State.setDie_linksAs (dropReq_linksAs (failReq_linksAs h))
      · split
        · exact h
        · exact dropReq_linksAs (linksAs_ite (haltWaiters_linksAs (haltWriter_linksAs h)) (failReq_linksAs h))
    · split
      · exact h
      · exact linksAs_with (linksAs_ite (haltWaiters_linksAs (haltWriter_linksAs h)) (failReq_linksAs h))

theorem loseMessage_linksAs {s : State} {l : Nat} {m : Message} (h : LinksAs K s) :
    LinksAs K (loseMessage s l m) := by
  unfold loseMessage
  dsimp only
  split
  · exact loseReq_linksAs h
  · exact loseReq_linksAs h
  · split
    · exact h
    · apply linksAs_ite
      · exact linksAs_with (stopIssuer_linksAs (linksAs_ite (setHold_linksAs h) h))
      · exact stopIssuer_linksAs (linksAs_ite (setHold_linksAs h) h)

theorem dropLink_linksAs {s : State} {l : Nat} (h : LinksAs K s) : LinksAs K (dropLink s l) := by
  unfold dropLink
  extract_lets x lost u v here
  have hv : LinksAs K v := foldl_linksAs (fun _ _ hw => loseMessage_linksAs hw) (setLink_linksAs h rfl rfl)
  refine foldl_linksAs (fun w m hw => ?_) hv
  apply linksAs_ite
  · exact hw
  · extract_lets hops w'
    have hw' : LinksAs K w' := setHops_linksAs hw
    clear_value w' hops
    apply linksAs_ite
    · exact setOff_linksAs hw'
    · split
      · exact sendOn_linksAs hw'
      · exact hw'

end

end Sys2Proof.Machine
end

section
/-! FLITS (O46, O47; R384 to R389): the bytes of a flit and their CRC, the modules that carry message flits, what a flit that arrives
does to EXP, the timers, and the end of a retrain. -/

namespace Sys2Proof.Machine

/-! ## The bytes of a flit (R384) -/

/-- The bytes of a flit that its CRCs cover. -/
def Wire.front (w : Wire) : List Byte :=
  bytesOf 2 w.flit.seq ++ bytesOf 2 (w.ack.getD 0) ++ bytesOf 1 w.flit.type.code ++
    bytesOf 1 ((if w.ack.isSome then 1 else 0) + (if w.flit.som then 2 else 0)) ++ bytesOf 2 w.flit.body.length ++
    w.flit.body ++ List.replicate (112 - w.flit.body.length) 0

theorem Wire.bytes_eq (w : Wire) : w.bytes = w.front ++ bytesOf 4 (crc32c (groupBytes false w.front)).toNat ++
    bytesOf 4 (crc32c (groupBytes true w.front)).toNat := rfl

theorem Wire.front_length {w : Wire} (h : w.flit.body.length ≤ 112) : w.front.length = 120 := by
  simp only [Wire.front, List.length_append, bytesOf_length, List.length_replicate]
  omega

/-- The bytes that a lane group carries lie before the CRCs. -/
theorem groupBytes_append {high : Bool} {a b : List Byte} (ha : a.length = 120) : groupBytes high (a ++ b) = groupBytes high a := by
  unfold groupBytes
  refine List.flatMap_congr fun i hi => ?_
  rw [List.mem_range] at hi
  have hle : 8 * i + (if high then 4 else 0) + 4 ≤ a.length := by
    split <;> omega
  rw [List.drop_append_of_le_length (by omega), List.take_append_of_le_length (by rw [List.length_drop]; omega)]

theorem ofBytes_crc (v : Word) : ofBytes (bytesOf 4 v.toNat) = v.toNat := by
  rw [ofBytes_bytesOf, Nat.mod_eq_of_lt v.isLt]

theorem Wire.crcGood_bytes {w : Wire} (h : w.flit.body.length ≤ 112) (high : Bool) : crcGood high w.bytes = true := by
  have hlen := w.front_length h
  rw [crcGood, beq_iff_eq, Wire.bytes_eq, List.append_assoc, groupBytes_append hlen]
  cases high with
  | false =>
    simp only [Bool.false_eq_true, if_false]
    rw [List.drop_left' hlen, List.take_left' (bytesOf_length _ _), ofBytes_crc]
  | true =>
    simp only [if_true]
    rw [← List.append_assoc, List.drop_left' (by rw [List.length_append, hlen, bytesOf_length]), List.take_of_length_le
      (by rw [bytesOf_length]), ofBytes_crc]

theorem Wire.bytes_length {w : Wire} (h : w.flit.body.length ≤ 112) : w.bytes.length = 128 := by
  rw [Wire.bytes_eq, List.length_append, List.length_append, bytesOf_length, bytesOf_length, w.front_length h]

/-! ## Links read after they have been changed -/

theorem State.link_setLink (s : State) (l k : Nat) (x : Link) : (s.setLink l x).link k = if k = l then x else s.link k :=
  Tbl.getD_put _ _ _ _ _

@[simp] theorem State.link_setLink_same (s : State) (l : Nat) (x : Link) : (s.setLink l x).link l = x := by
  rw [State.link_setLink, if_pos rfl]

theorem reverseOf_ne (l : Nat) : reverseOf l ≠ l := by
  unfold reverseOf
  split <;> omega

theorem reverseOf_reverseOf (l : Nat) : reverseOf (reverseOf l) = l := by
  unfold reverseOf
  split <;> split <;> omega

theorem carryAck_link_same (s : State) (l : Nat) : (carryAck s l).link l = s.link l := by
  rw [carryAck, State.link_setLink, if_neg (reverseOf_ne l).symm]

/-! ## The module of a message flit (R388) -/

/-- A flit that goes to module SEQ mod M of those in service. -/
def Wire.own (x : Link) (y : Wire) : Prop := y.module = x.inService.getD (y.flit.seq % x.inService.length) 0

/-- The modules of a link are as they were, and what has been put on its wires goes each to its own module. -/
def SendsOwn (x y : Link) : Prop := y.modules = x.modules ∧ ∃ new, y.wire = x.wire ++ new ∧ ∀ w ∈ new, w.own x

theorem SendsOwn.refl (x : Link) : SendsOwn x x := ⟨rfl, [], (List.append_nil _).symm, nofun⟩

theorem Wire.own_of_modules {x y : Link} (h : y.modules = x.modules) {w : Wire} (hw : w.own y) : w.own x := by
  have hs : y.inService = x.inService := by
    unfold Link.inService Link.module
    rw [h]
  unfold Wire.own at *
  rw [hw, hs]

theorem SendsOwn.trans {x y z : Link} (h : SendsOwn x y) (h' : SendsOwn y z) : SendsOwn x z := by
  obtain ⟨hm, new, hw, hown⟩ := h
  obtain ⟨hm', new', hw', hown'⟩ := h'
  refine ⟨hm'.trans hm, new ++ new', by rw [hw', hw, List.append_assoc], fun w hw => ?_⟩
  rcases List.mem_append.mp hw with h | h
  · exact hown w h
  · exact Wire.own_of_modules hm (hown' w h)

theorem frame_sendsOwn (x : Link) (now ack : Nat) (fs : List Flit) : SendsOwn x (frame x now ack fs) := by
  unfold frame
  refine foldl_inv (P := SendsOwn x) (fun y f h => h.trans ?_) (SendsOwn.refl x)
  refine ⟨rfl, [⟨{ f with seq := y.nextSeq }, y.inService.getD (y.nextSeq % y.inService.length) 0, some ack⟩], rfl, ?_⟩
  simp only [List.mem_singleton, forall_eq]
  rfl

theorem sendOn_sendsOwn (s : State) (l : Nat) (m : Message) : SendsOwn (s.link l) ((sendOn s l m).link l) := by
  unfold sendOn
  dsimp only
  split
  · rw [carryAck_link_same, State.link_setLink_same]
    exact frame_sendsOwn _ _ _ _
  · rw [State.link_setLink_same]
    exact ⟨rfl, [], (List.append_nil _).symm, nofun⟩

theorem drainQueue_sendsOwn (l n : Nat) (s : State) : SendsOwn (s.link l) ((drainQueue l n s).link l) := by
  induction n generalizing s with
  | zero => exact .refl _
  | succ n ih =>
    unfold drainQueue
    extract_lets x
    split
    · exact .refl _
    · dsimp only
      split
      · refine SendsOwn.trans ?_ (ih _)
        have hsend := sendOn_sendsOwn (s.setLink l { x with queue := [] }) l
        rw [State.link_setLink_same] at hsend
        rw [updLink, State.link_setLink_same]
        exact hsend _
      · exact .refl _

theorem resendAll_sendsOwn (s : State) (l : Nat) : SendsOwn (s.link l) ((resendAll s l).link l) := by
  unfold resendAll
  extract_lets x ms ack u
  split
  · exact .refl _
  · refine SendsOwn.trans ?_ (drainQueue_sendsOwn l _ u)
    rw [show u.link l = _ from carryAck_link_same _ _, State.link_setLink_same]
    refine ⟨rfl, _, rfl, fun w hw => ?_⟩
    obtain ⟨e, -, rfl⟩ := List.mem_map.mp hw
    rfl

/-! ## A flit that arrives (R384, R386, R387) -/

section
variable {s : State} {l : Nat} {w : Wire} {rest : List Wire}

theorem flitReceive_good (hup : linkUp s l = true) (hwire : (s.link l).wire = w :: rest) (htype : w.flit.type = .bytes) :
    exec (.flitReceive l false false) s = .next (goodFlit (s.setLink l { s.link l with wire := rest }) l w.flit w.ack) := by
  change execFlitReceive l false false s = _
  simp only [execFlitReceive, hwire, hup, htype]
  rfl

theorem flitReceive_nak (hup : linkUp s l = true) (hwire : (s.link l).wire = w :: rest) (htype : w.flit.type = .nak) :
    exec (.flitReceive l false false) s = .next (nakFlit (s.setLink l { s.link l with wire := rest }) l w.flit) := by
  change execFlitReceive l false false s = _
  simp only [execFlitReceive, hwire, hup, htype]
  rfl

theorem flitReceive_bad (hup : linkUp s l = true) (hwire : (s.link l).wire = w :: rest) {lo hi : Bool}
    (hbad : (lo || hi) = true ∨ ∃ c, w.flit.type = .reserved c) :
    ∃ lo' hi', exec (.flitReceive l lo hi) s = .next (badFlit (s.setLink l { s.link l with wire := rest }) l w.module lo' hi') := by
  change ∃ lo' hi', execFlitReceive l lo hi s = _
  simp only [execFlitReceive, hwire, hup]
  cases hb : lo || hi with
  | true => exact ⟨lo, hi, by simp⟩
  | false =>
    obtain ⟨c, hc⟩ := hbad.resolve_left (by simp [hb])
    exact ⟨false, true, by simp [hc]⟩

theorem flitReceive_next (hup : linkUp s l = true) (hwire : (s.link l).wire = w :: rest) (lo hi : Bool) :
    ∃ u, exec (.flitReceive l lo hi) s = .next u := by
  change ∃ u, execFlitReceive l lo hi s = _
  simp only [execFlitReceive, hwire, hup]
  split
  · next h => exact absurd h (by simp)
  · split
    · exact ⟨_, rfl⟩
    · split <;> exact ⟨_, rfl⟩

end

/-- Settles O47: the CRCs of a flit's bytes, its module at each sending, and its effect by its SEQ. -/
theorem flitModules : Obligations.FlitModules := by
  refine ⟨fun w high h => ⟨Wire.bytes_length h, Wire.crcGood_bytes h high⟩, fun s l => ⟨fun m => ?_, ?_, ?_⟩⟩
  · obtain ⟨-, new, hw, hown⟩ := sendOn_sendsOwn s l m
    exact ⟨new, hw, hown⟩
  · obtain ⟨-, new, hw, hown⟩ := resendAll_sendsOwn s l
    exact ⟨new, hw, hown⟩
  · intro w rest hup hwire htype
    exact flitReceive_good hup hwire htype

end Sys2Proof.Machine
end

section
/-! FLITS (O46; R386 to R389): EXP and the NAK that is outstanding, the timers of a link, and the end of a retrain. -/

namespace Sys2Proof.Machine

/-! ## EXP after a message flit (R386) -/

/-- EXP and the modules of every link, as they stand. -/
def linkView (s : State) (k : Nat) : Nat × Tbl Module := ((s.link k).exp, (s.link k).modules)

theorem linksAs_linkView (s : State) : LinksAs (linkView s) s := fun _ => rfl

theorem LinksAs.exp {K : Nat → Nat × Tbl Module} {s : State} (h : LinksAs K s) (k : Nat) : (s.link k).exp = (K k).1 :=
  (Prod.ext_iff.mp (h k)).1

theorem LinksAs.module {K : Nat → Nat × Tbl Module} {s : State} (h : LinksAs K s) (k m : Nat) :
    (s.link k).module m = (K k).2.getD m Module.reset :=
  congrArg (fun t => Tbl.getD t m Module.reset) (Prod.ext_iff.mp (h k)).2

theorem hopDone_exp (s : State) (l k : Nat) (m : Message) : ((hopDone s l m).link k).exp = (s.link k).exp :=
  (hopDone_linksAs (linksAs_linkView s)).exp k

theorem freeFlits_exp (s : State) (l a k : Nat) : ((freeFlits s l a).link k).exp = (s.link k).exp :=
  (freeFlits_linksAs (linksAs_linkView s)).exp k

theorem ackFree_exp (s : State) (l k : Nat) (ack : Option Nat) :
    ((match ack with | some a => freeFlits s (reverseOf l) a | none => s).link k).exp = (s.link k).exp := by
  split
  · exact freeFlits_exp _ _ _ _
  · rfl

theorem goodFlit_exp (s : State) (l : Nat) (f : Flit) (ack : Option Nat) :
    ((goodFlit s l f ack).link l).exp = if f.seq = (s.link l).exp then ((s.link l).exp + 1) % 65536 else (s.link l).exp := by
  unfold goodFlit
  extract_lets x acked v u
  have hacked : (v.link l).exp = x.exp := ackFree_exp _ _ _ _
  clear_value v
  have hu : (u.link l).exp = (x.exp + 1) % 65536 := by
    unfold u
    rw [updLink, State.link_setLink_same]
    exact congrArg (fun n => (n + 1) % 65536) hacked
  clear_value u
  split
  · split
    · split
      · rw [hopDone_exp, hu]
      · exact hu
    · exact hu
  · split
    · rw [(sendBare_linksAs (linksAs_linkView _)).exp, linkView, State.link_setLink_same]
    · exact ackFree_exp _ _ _ _

/-! ## EXP and the NAK after a bad flit (R387) -/

/-- EXP and the outstanding NAK of every link are as they were. -/
def KeepsTurn (s u : State) : Prop := ∀ k, (u.link k).exp = (s.link k).exp ∧ (u.link k).nak = (s.link k).nak

theorem KeepsTurn.refl (s : State) : KeepsTurn s s := fun _ => ⟨rfl, rfl⟩

theorem KeepsTurn.trans {s u v : State} (h : KeepsTurn s u) (h' : KeepsTurn u v) : KeepsTurn s v :=
  fun k => ⟨(h' k).1.trans (h k).1, (h' k).2.trans (h k).2⟩

theorem setLink_keepsTurn {s : State} {l : Nat} {x : Link} (hexp : x.exp = (s.link l).exp) (hnak : x.nak = (s.link l).nak) :
    KeepsTurn s (s.setLink l x) := by
  intro k
  rw [State.link_setLink]
  split
  · next h => exact h ▸ ⟨hexp, hnak⟩
  · exact ⟨rfl, rfl⟩

theorem beginRetrain_keepsTurn (s : State) (l m : Nat) : KeepsTurn s (beginRetrain s l m) := setLink_keepsTurn rfl rfl

theorem chargeModule_keepsTurn (s : State) (l m : Nat) (lo hi : Bool) : KeepsTurn s (chargeModule s l m lo hi) := by
  unfold chargeModule
  extract_lets md low high md₁ md₂ u
  have hu : KeepsTurn s u := setLink_keepsTurn rfl rfl
  split
  · exact hu.trans ((beginRetrain_keepsTurn _ _ _).trans (beginRetrain_keepsTurn _ _ _))
  · exact hu

theorem carryAck_keepsTurn (s : State) (l : Nat) : KeepsTurn s (carryAck s l) := setLink_keepsTurn rfl rfl

theorem sendBare_keepsTurn (s : State) (l : Nat) (n : Option Nat) : KeepsTurn s (sendBare s l n) := by
  unfold sendBare
  extract_lets x f
  split
  · exact .refl s
  · have hput (w : List Wire) : KeepsTurn s (s.setLink l { x with wire := w }) := setLink_keepsTurn rfl rfl
    exact (hput _).trans (carryAck_keepsTurn _ l)

theorem nakNow_turn (s : State) (l : Nat) :
    ((nakNow s l).link l).exp = (s.link l).exp ∧ ((nakNow s l).link l).nak.map (·.1) = some (s.link l).exp := by
  unfold nakNow
  dsimp only
  split
  · next h => exact ⟨rfl, h⟩
  · obtain ⟨hexp, hnak⟩ := sendBare_keepsTurn (s.setLink l { s.link l with nak := some ((s.link l).exp, s.refclk) }) (reverseOf l)
      (some (s.link l).exp) l
    rw [hexp, hnak, State.link_setLink_same]
    exact ⟨rfl, rfl⟩

theorem badFlit_turn (s : State) (l m : Nat) (lo hi : Bool) :
    ((badFlit s l m lo hi).link l).exp = (s.link l).exp ∧ ((badFlit s l m lo hi).link l).nak.map (·.1) = some (s.link l).exp := by
  have hcount : ((countError (chargeModule s l m lo hi) 1).link l).exp = (s.link l).exp := (chargeModule_keepsTurn s l m lo hi l).1
  have hturn := nakNow_turn (countError (chargeModule s l m lo hi) 1) l
  rw [hcount] at hturn
  exact hturn

/-! ## The timers (R386, R387) -/

section
variable {s : State} {l : Nat}

theorem ackIdleTimer_sends (hup : linkUp s l = true) (hsince : 4 < s.refclk - (s.link l).ackSince)
    (hserv : (s.link (reverseOf l)).inService ≠ []) : exec (.ackIdleTimer l) s = .next (sendBare s (reverseOf l) none) := by
  change execAckIdleTimer l s = _
  simp [execAckIdleTimer, hup, hsince, hserv]

theorem nakRepeatTimer_sends (hup : linkUp s l = true) {n since : Nat} (hnak : (s.link l).nak = some (n, since))
    (hsince : 8 ≤ s.refclk - since) :
    exec (.nakRepeatTimer l) s =
      .next (sendBare (s.setLink l { s.link l with nak := some (n, s.refclk) }) (reverseOf l) (some n)) := by
  change execNakRepeatTimer l s = _
  simp [execNakRepeatTimer, hup, hnak, hsince]

theorem replayTimeout_resends (hup : linkUp s l = true) {e : Flit × Nat} {rest : List (Flit × Nat)} (hbuf : (s.link l).buf = e :: rest)
    (hsince : 32 ≤ s.refclk - e.2) (hserv : (s.link l).inService ≠ []) :
    exec (.replayTimeout l) s = .next (resendAll (s.setLink l { s.link l with timeouts := (s.link l).timeouts + 1 }) l) := by
  change execReplayTimeout l s = _
  simp [execReplayTimeout, hup, hbuf, hsince, hserv]

end

theorem linkEventResults : linkEventsRule := by
  intro s l hup x
  refine ⟨fun w rest hwire => ⟨fun lo hi => flitReceive_next hup hwire lo hi, fun htype => ?_, fun lo hi hbad => ?_, fun htype =>
    flitReceive_nak hup hwire htype⟩, fun hsince hserv => ackIdleTimer_sends hup hsince hserv,
    fun n since hnak hsince => nakRepeatTimer_sends hup hnak hsince,
    fun e rest hbuf hsince hserv => replayTimeout_resends hup hbuf hsince hserv⟩
  · refine ⟨_, flitReceive_good hup hwire htype, ?_⟩
    rw [goodFlit_exp, State.link_setLink_same]
  · obtain ⟨lo', hi', hx⟩ := flitReceive_bad hup hwire hbad
    have hturn := badFlit_turn (s.setLink l { x with wire := rest }) l w.module lo' hi'
    rw [State.link_setLink_same] at hturn
    exact ⟨_, hx, hturn⟩

/-! ## The end of a retrain (R389) -/

theorem endRetrain_module (s : State) (l k m st : Nat) : ((endRetrain s l m st).link k).module m =
    if k = l then { (s.link l).module m with st, retrain := false, lo := [], hi := [] } else (s.link k).module m := by
  rw [endRetrain, updLink, State.link_setLink]
  split
  · exact Tbl.getD_put_same _ _ _ _
  · rfl

/-- The STATE in which a retrained module returns, with a coin for a module that failed on both groups. -/
def returnState (s : State) (l m : Nat) (coin : Bool) : Nat :=
  let x := (s.link l).module m
  let y := (s.link (reverseOf l)).module m
  let low := 3 ≤ x.lo.length || 3 ≤ y.lo.length
  if x.st = 0 then (if (if low && (3 ≤ x.hi.length || 3 ≤ y.hi.length) then coin else low) then 2 else 1) else 3

theorem raiseHealth_links (s : State) (w : Word) : (raiseHealth s w).links = s.links := by
  obtain ⟨l, h⟩ := setHealth_eq s (s.health.word ||| w)
  rw [raiseHealth, h]

theorem LinksAs.of_links {K : Nat → Nat × Tbl Module} {s u : State} (h : LinksAs K s) (hu : u.links = s.links) : LinksAs K u :=
  fun k => by rw [State.link, hu]; exact h k

/-- What follows the return of a module leaves the modules as they are. -/
theorem retrainComplete_modules {s : State} {l m : Nat} (hl : l < 8) (hm : m < 16) (hre : ((s.link l).module m).retrain = true) :
    ∃ u v coin, exec (.retrainComplete l m) s = .next u ∧ v.links = s.links ∧
      LinksAs (linkView (endRetrain (endRetrain v l m (returnState s l m coin)) (reverseOf l) m (returnState s l m coin))) u := by
  change ∃ u v coin, execRetrainComplete l m s = _ ∧ _
  unfold execRetrainComplete
  extract_lets -lift md rd lowFailed both
  rw [if_neg (by simp [md, hl, hm, hre])]
  have hdraw : (if both then s.draw else (0, s)).2.links = s.links := by
    split
    · rfl
    · rfl
  generalize (if both then s.draw else (0, s)) = x at hdraw ⊢
  obtain ⟨k, v⟩ := x
  simp -zeta only
  extract_lets low st v' w
  have hw : LinksAs (linkView (endRetrain (endRetrain v l m st) (reverseOf l) m st)) w :=
    (linksAs_linkView v').of_links (raiseHealth_links _ _)
  clear_value w
  split
  · exact ⟨_, v, Config.freeBit k, rfl, hdraw,
      dropLink_linksAs (dropLink_linksAs (hw.of_links (raiseHealth_links (countError w 6) 3)))⟩
  · exact ⟨_, v, Config.freeBit k, rfl, hdraw, drainQueue_linksAs (drainQueue_linksAs hw)⟩

theorem endRetrain_pair (s : State) {l k : Nat} (m st : Nat) (hk : k = l ∨ k = reverseOf l) :
    (((endRetrain (endRetrain s l m st) (reverseOf l) m st).link k).module m).retrain = false ∧
      (((endRetrain (endRetrain s l m st) (reverseOf l) m st).link k).module m).st = st := by
  rw [endRetrain_module]
  split
  · exact ⟨rfl, rfl⟩
  · next h =>
    rw [endRetrain_module, if_pos (hk.resolve_right h)]
    exact ⟨rfl, rfl⟩

theorem retrainResults : retrainResultsRule := by
  intro s l m hl hm hre x y low high
  obtain ⟨u, v, coin, hx, -, hu⟩ := retrainComplete_modules hl hm hre
  refine ⟨u, hx, fun k hk => ?_⟩
  obtain ⟨hretrain, hst⟩ := endRetrain_pair v m (returnState s l m coin) hk
  have hmod : (u.link k).module m = _ := hu.module k m
  rw [hmod]
  refine ⟨hretrain, fun h => ?_, fun h hlow hhigh => ?_, fun h hlow => ?_⟩
  · exact hst.trans (if_neg h)
  · refine hst.trans ?_
    simp only [low, high, x, y] at h hlow hhigh
    simp [returnState, h, hlow, hhigh]
  · refine hst.trans ?_
    simp only [low, x, y] at h hlow
    simp [returnState, h, hlow]

/-- Settles O46: EXP and the NAK through each kind of flit, the timers, and the modules after a retrain. -/
theorem linkEvents : Obligations.LinkEvents := ⟨linkEventResults, retrainResults⟩

end Sys2Proof.Machine
end

section
/-! QUEUE WORDS (O28; R305, R306, R382): what a queue word makes ready, and the message that it sends. -/

namespace Sys2Proof.Machine

/-- Whether a queue operation carries words. -/
def QueueOp.pushes : QueueOp → Bool
  | .push => true
  | .pushTry => true
  | _ => false

/-- The group that issues, if a group does. -/
def issuingGroup (s : State) : Option Env :=
  match issuer s with
  | .group e => some e
  | _ => none

/-- What a queue word finds ready: a push without RLX its release, another word everything. -/
def queueReady (s : State) (a : Agt) (op : QueueOp) (rlx : Bool) : Ready :=
  if op.pushes && !rlx then pushRelease s a (issuingGroup s) else .go [] s

/-- The message of a queue word, before its bytes. -/
def queueMessage (s u : State) (a : Agt) (op : QueueOp) (rlx : Bool) (sa sd n : Nat) (data : List Word) (after : List Nat) : QueueMsg :=
  let here := dieOf a.team.id.core
  let home := ((s.workQs.get? (workKey a.team.id.ctx n)).map (·.home)).getD here
  { team := a.t, src := here, home, agent := a.group, path := a.path, ctx := a.team.id.ctx, q := n, op, rlx, sa, sd, data,
    atHome := false, after, hops := route u here home, answer := none, wire := [] }

/-- A queue message sent on its way. -/
def queueSent (u : State) (m : QueueMsg) : State :=
  setOff { u with nextId := u.nextId + 1, msgs := u.msgs.put u.nextId { m with wire := m.message u.nextId (u.die m.src).vc } }
    m.hops (.queue u.nextId)

theorem asked_eq (s u : State) (a : Agt) (w : Bool) (op : QueueOp) (rlx : Bool) (sa sd n : Nat) (data : List Word) (after : List Nat) :
    asked s u a w op rlx sa sd n data after =
      agentAsks w s (queueSent u (queueMessage s u a op rlx sa sd n data after)) (.queue u.nextId) := rfl

theorem words_ofNat_toNat (ws : List Word) : (ws.map (·.toNat)).map (BitVec.ofNat 32) = ws := by
  simp [Function.comp_def]

section
variable {s : State} {a : Agt} (h : agentAt s = some a) (hhold : heldArgs a.hold = none)
include h

theorem agentEnd_queue (w : Bool) (u : State) (id : Nat) : agentEnd w s (.hold u (.queue id)) = .next (agentAsks w s u (.queue id)) := by
  obtain ⟨e, he, -⟩ | ⟨q, hq, -⟩ := agentAt_cases h
  · simp only [agentEnd, agentAsks, he.1]
    cases w <;> rfl
  · simp only [agentEnd, agentAsks, hq.1]
    rfl

/-- A queue word whose registers are the agent's ends as its meaning does. -/
theorem queueWord_ends {g : Bool} {x d : Nat} {q : BitVec 8} (w : Bool) (hx : x + 7 ≤ a.top)
    (hd : agentHas a d) (hq : a.group = none → g = true → q.toNat ≤ 31) {go : Agt → Option Env → Res} {bad : Agt → Bool}
    (hbad : bad = fun a => decide (a.top < x + 7)) :
    runX .async w s (fun e => if bad e.agt then illegal 3 else go e.agt (some e))
      (fun y => if bad y.agt || 31 < d || (g && 31 < q.toNat) then illegal 3 else go y.agt none) =
        agentEnd w s (go a (issuingGroup s)) := by
  have hgood : bad a = false := by rw [hbad]; exact decide_eq_false (Nat.not_lt.mpr hx)
  obtain ⟨e, he, rfl⟩ | ⟨y, hy, hflume, rfl⟩ := agentAt_cases h
  · rw [runX_group he.1 he.2 (by decide) rfl, agentEnd_group he.1, hgood, if_neg Bool.false_ne_true, issuingGroup, he.1]
  · have hd' : ¬31 < d := Nat.not_lt.mpr (hd.resolve_left (by simp [SeqEnv.agt]))
    have hq' : ¬(g = true ∧ 31 < q.toNat) := fun hg => absurd (hq rfl hg.1) (Nat.not_le.mpr hg.2)
    rw [runX_seq hy.1 hy.2 (by decide) (by simp [Place.seq, hflume]), issuingGroup, agentEnd, hy.1]
    simp [hgood, hd', hq']

include hhold

section
variable {op : QueueOp} {g r : Bool} {x d : Nat} {q : BitVec 8} (w : Bool)
  (hx : x + 7 ≤ a.top) (hd : agentHas a d) (hq : a.group = none → g = true → q.toNat ≤ 31)
include hx hd hq

/-- A queue word on a queue that exists, once it is ready, sends its message and stands for the answer. -/
theorem queueWord_asks {u : State} {after : List Nat}
    (hexists : s.workQs.has (workKey a.team.id.ctx (queueNo a g q)) = true) (hready : queueReady s a op r = .go after u) :
    queueWord w op g r x d q s =
      .next (asked s u a w op r x d (queueNo a g q) (if op.pushes then a.block x 8 else []) after) := by
  obtain ⟨queue, hqueue⟩ := Option.isSome_iff_exists.mp hexists
  have hdata : (if op.pushes then (a.block x 8).map (·.toNat) else []).map (BitVec.ofNat 32) =
      if op.pushes then a.block x 8 else [] := by
    split
    · exact words_ofNat_toNat _
    · rfl
  rw [asked_eq, ← agentEnd_queue h, queueMessage, ← hdata, hqueue]
  unfold queueWord
  extract_lets pushes go bad
  refine (queueWord_ends (go := go) (bad := bad) h w hx hd hq rfl).trans (congrArg (agentEnd w s) ?_)
  unfold go
  unfold queueNo at hqueue
  unfold queueReady at hready
  rw [hhold]
  dsimp only [Option.getD_none, List.headD_cons, List.tail_cons]
  rw [hqueue]
  rw [show pushes = op.pushes by cases op <;> rfl, hready]
  rfl

/-- A push or a pop on a queue that does not exist. -/
theorem queueWord_fault {e : Env} (he : issuer s = .group e)
    (hnone : s.workQs.has (workKey a.team.id.ctx (queueNo a g q)) = false) :
    queueWord w op g r x d q s = .next (stopGroup s e.t e.g e.p e.path.pc 0x0F 0 0) := by
  have hqueue : s.workQs.get? (workKey a.team.id.ctx (queueNo a g q)) = none := by simpa [Tbl.has] using hnone
  have hfault : agentEnd w s (.trap 0x0F 0 0) = .next (stopGroup s e.t e.g e.p e.path.pc 0x0F 0 0) := agentEnd_group he w _
  rw [← hfault]
  unfold queueWord
  extract_lets pushes go bad
  refine (queueWord_ends (go := go) (bad := bad) h w hx hd hq rfl).trans (congrArg (agentEnd w s) ?_)
  unfold go
  rw [hhold]
  unfold queueNo at hqueue
  dsimp only [Option.getD_none, List.headD_cons, List.tail_cons]
  rw [hqueue]

end
end

section
variable {s : State} {a : Agt} (h : agentAt s = some a) {op : QueueOp} {r : Bool}

theorem queueReady_of_no_release (hr : (op.pushes && !r) = false) : queueReady s a op r = .go [] s := by
  rw [queueReady, hr]
  rfl

theorem queueReady_group {e : Env} (he : issuer s = .group e) (hr : (op.pushes && !r) = true) :
    queueReady s a op r = release s e 4 true := by
  rw [queueReady, if_pos hr, issuingGroup, he]
  rfl

include h in
/-- A sequencer's push is ready once its core and its die have been told to write back what they hold. -/
theorem queueReady_sequencer (hseq : a.group = none) (hr : (op.pushes && !r) = true) :
    let u := l2Flush (l1Release s a.team.id.core 4) (dieOf a.team.id.core) a.team.id.ctx
    queueReady s a op r = .go (unsent u (dieOf a.team.id.core) a.team.id.ctx) u := by
  obtain ⟨e, -, rfl⟩ | ⟨q, hq, -, rfl⟩ := agentAt_cases h
  · cases hseq
  · rw [queueReady, if_pos hr, issuingGroup, hq.1]
    rfl

end

section
variable {s : State} {a : Agt} (h : agentAt s = some a) (hhold : heldArgs a.hold = none) (w r : Bool) {g : Bool} {x d : BitVec 6}
  {q : BitVec 8} (hx : x.toNat + 7 ≤ a.top) (hd : agentHas a d.toNat) (hq : a.group = none → g = true → q.toNat ≤ 31)
include h hhold hx hq

theorem exec_qwait_asks (hexists : s.workQs.has (workKey a.team.id.ctx (queueNo a g q)) = true) :
    exec (.qwait w g r x q) s = .next (asked s s a w .wait r x.toNat 0 (queueNo a g q) [] []) := by
  rw [exec_qwait, execQwait]
  exact queueWord_asks h hhold w hx (.inr (Nat.zero_le 31)) hq hexists (queueReady_of_no_release rfl)

theorem exec_qpush_asks {u : State} {after : List Nat} (hexists : s.workQs.has (workKey a.team.id.ctx (queueNo a g q)) = true)
    (hready : queueReady s a .push r = .go after u) :
    exec (.qpush w g r x q) s = .next (asked s u a w .push r x.toNat 0 (queueNo a g q) (a.block x.toNat 8) after) := by
  rw [exec_qpush, execQpush]
  exact queueWord_asks h hhold w hx (.inr (Nat.zero_le 31)) hq hexists hready

include hd

theorem exec_qpopTry_asks (hexists : s.workQs.has (workKey a.team.id.ctx (queueNo a g q)) = true) :
    exec (.qpopTry w g r x d q) s = .next (asked s s a w .popTry r x.toNat d.toNat (queueNo a g q) [] []) := by
  rw [exec_qpopTry, execQpopTry]
  exact queueWord_asks h hhold w hx hd hq hexists (queueReady_of_no_release rfl)

theorem exec_qpushTry_asks {u : State} {after : List Nat} (hexists : s.workQs.has (workKey a.team.id.ctx (queueNo a g q)) = true)
    (hready : queueReady s a .pushTry r = .go after u) :
    exec (.qpushTry w g r x d q) s =
      .next (asked s u a w .pushTry r x.toNat d.toNat (queueNo a g q) (a.block x.toNat 8) after) := by
  rw [exec_qpushTry, execQpushTry]
  exact queueWord_asks h hhold w hx hd hq hexists hready

end

/-- Settles O28: each word with what makes it ready, and its fault where the queue does not exist. -/
theorem queueWordResults : Obligations.QueueWordResults := by
  intro s a w g r x d q h hx hd hq hhold n
  have h0 : agentHas a 0 := .inr (Nat.zero_le 31)
  refine ⟨fun hexists => ⟨?_, ?_, fun hr => ?_, fun hr e after u he hgo => ?_, fun hr hseq => ?_⟩, fun hnone e he => ?_⟩
  · exact exec_qwait_asks h hhold w r hx hq hexists
  · exact exec_qpopTry_asks h hhold w r hx hd hq hexists
  · have hready (op : QueueOp) : queueReady s a op r = .go [] s := queueReady_of_no_release (by simp [hr])
    exact ⟨exec_qpush_asks h hhold w r hx hq hexists (hready _), exec_qpushTry_asks h hhold w r hx hd hq hexists (hready _)⟩
  · have hready {op : QueueOp} (hop : op.pushes = true) : queueReady s a op r = .go after u :=
      (queueReady_group he (by simp [hop, hr])).trans hgo
    exact ⟨exec_qpush_asks h hhold w r hx hq hexists (hready rfl), exec_qpushTry_asks h hhold w r hx hd hq hexists (hready rfl)⟩
  · have hready {op : QueueOp} (hop : op.pushes = true) := queueReady_sequencer h (op := op) (r := r) hseq (by simp [hop, hr])
    exact ⟨exec_qpush_asks h hhold w r hx hq hexists (hready rfl), exec_qpushTry_asks h hhold w r hx hd hq hexists (hready rfl)⟩
  · rw [exec_qpush, exec_qpushTry, exec_qwait, exec_qpopTry, execQpush, execQpushTry, execQwait, execQpopTry]
    exact ⟨queueWord_fault h hhold w hx h0 hq he hnone, queueWord_fault h hhold w hx hd hq he hnone,
      queueWord_fault h hhold w hx h0 hq he hnone, queueWord_fault h hhold w hx hd hq he hnone⟩

end Sys2Proof.Machine
end

section
/-! QUEUE WORDS AT THE HOME (O44; R306, R307, R382): the home's answer, and what a receiver's registers hold. -/

namespace Sys2Proof.Machine

/-! ## What the agent's end and a message leave as they were -/

theorem updSeq_teamsOnly (s : State) (t : Nat) (b : Bool) (f : Seq → Seq) : TeamsOnly s (updSeq s t b f) := rfl

theorem writeAgent_teamsOnly (s : State) (t : Nat) (g : Option Nat) (p r : Nat) (v : Word) : TeamsOnly s (writeAgent s t g p r v) := by
  unfold writeAgent
  split
  · unfold writeS
    split
    · rfl
    · rfl
  · rfl

theorem retireAt_teamsOnly (s : State) (t g p : Nat) : TeamsOnly s (retireAt s t g p) := by
  unfold retireAt
  split
  · obtain ⟨u, hu, honly⟩ := retire_teams false ‹Env› s
    rw [hu]
    exact honly
  · rfl

theorem retireAgent_teamsOnly (s : State) (t : Nat) (g : Option Nat) (p : Nat) : TeamsOnly s (retireAgent s t g p) := by
  unfold retireAgent
  split
  · exact retireAt_teamsOnly _ _ _ _
  · rfl

theorem TeamsOnly.trans {s u v : State} (h : TeamsOnly s u) (h' : TeamsOnly u v) : TeamsOnly s v := by
  unfold TeamsOnly at *
  rw [h', h]

theorem TeamsOnly.msgs {s u : State} (h : TeamsOnly s u) : u.msgs = s.msgs := by rw [h]
theorem TeamsOnly.workQs {s u : State} (h : TeamsOnly s u) : u.workQs = s.workQs := by rw [h]

@[simp] theorem sendOn_msgs (s : State) (l : Nat) (m : Message) : (sendOn s l m).msgs = s.msgs := by
  unfold sendOn; dsimp only; split <;> rfl
@[simp] theorem sendOn_workQs (s : State) (l : Nat) (m : Message) : (sendOn s l m).workQs = s.workQs := by
  unfold sendOn; dsimp only; split <;> rfl
@[simp] theorem setOff_msgs (s : State) (hops : List Nat) (m : Message) : (setOff s hops m).msgs = s.msgs := by
  unfold setOff
  split
  · rfl
  · split <;> simp
@[simp] theorem setOff_workQs (s : State) (hops : List Nat) (m : Message) : (setOff s hops m).workQs = s.workQs := by
  unfold setOff
  split
  · rfl
  · split <;> simp

/-! ## The answer -/

section
variable (s : State) (id : Nat) (m : QueueMsg) (ws : List Word) (vc : List Nat)

theorem answer_here (h : m.src = m.home) : answer s id m ws vc = takeAnswer s id m ws vc := if_pos h

theorem answer_away (h : m.src ≠ m.home) :
    (answer s id m ws vc).workQs = s.workQs ∧ ∃ n, (answer s id m ws vc).msgs.get? id = some n ∧ n.answer = some (ws, vc) := by
  rw [answer, if_neg h]
  dsimp only
  rw [setOff_workQs, setOff_msgs]
  exact ⟨rfl, _, Tbl.get?_put_same _ _ _, rfl⟩

/-- A receiver that does not acquire. -/
theorem receive_relaxed (h : m.rlx = true) :
    receive s m ws vc = (ws.zip (List.range 8)).foldl (fun s x => writeAgent s m.team m.agent m.path (m.sa + x.2) x.1) s := by
  unfold receive
  dsimp only
  split
  · rw [if_pos h]
  · rfl

end

/-! ## A push -/

theorem insertEntry_kept {s : State} {key : Nat} {q : WorkQ} (e : QEntry) (hq : s.workQs.get? key = some q) (hwait : q.waiters = []) :
    (insertEntry s key e).workQs.get? key = some { q with entries := q.entries ++ [e], events := q.events + 1 } := by
  simp [insertEntry, hq, hwait, noteQueue, updQueue]

section
variable (s : State) (id : Nat) (m : QueueMsg)

theorem takeAnswer_push (hop : m.op = .push) (ws : List Word) (vc : List Nat) :
    takeAnswer s id m ws vc = retireAgent { s with msgs := s.msgs.del id } m.team m.agent m.path := by
  unfold takeAnswer
  rw [hop]

/-- The home answers a push: the queues stay, and its message is gone or goes back. -/
theorem answer_push (hop : m.op = .push) (ws : List Word) (vc : List Nat) :
    (answer s id m ws vc).workQs = s.workQs ∧ (m.src = m.home → (answer s id m ws vc).msgs.get? id = none) ∧
      (m.src ≠ m.home → ∃ n, (answer s id m ws vc).msgs.get? id = some n ∧ n.answer = some (ws, vc)) := by
  by_cases hsrc : m.src = m.home
  · have hretire := retireAgent_teamsOnly { s with msgs := s.msgs.del id } m.team m.agent m.path
    rw [answer_here s id m ws vc hsrc, takeAnswer_push s id m hop, hretire.msgs, hretire.workQs]
    exact ⟨rfl, fun _ => Tbl.get?_del_same _ _, fun h => absurd hsrc h⟩
  · obtain ⟨hqs, hmsg⟩ := answer_away s id m ws vc hsrc
    exact ⟨hqs, fun h => absurd h hsrc, fun _ => hmsg⟩

end

/-! ## A receiver's registers -/

/-- Words put one after another from register r on. -/
def putWords (t : Tbl Word) (r : Nat) (ws : List (Word × Nat)) : Tbl Word := ws.foldl (fun t x => t.put (r + x.2) x.1) t

theorem putWords_getD (ws : List Word) (t : Tbl Word) (r k n : Nat) :
    (putWords t r (ws.zip (List.range' k ws.length))).getD n 0 =
      if r + k ≤ n ∧ n < r + k + ws.length then ws.getD (n - (r + k)) 0 else t.getD n 0 := by
  induction ws generalizing t k with
  | nil => simp [putWords]
  | cons w ws ih =>
    have hstep : putWords t r ((w :: ws).zip (List.range' k (w :: ws).length)) =
        putWords (t.put (r + k) w) r (ws.zip (List.range' (k + 1) ws.length)) := rfl
    rw [hstep, ih, Tbl.getD_put, List.length_cons]
    by_cases heq : n = r + k
    · subst heq
      rw [if_neg (by omega), if_pos rfl, if_pos (by omega), Nat.sub_self, List.getD_cons_zero]
    · rw [if_neg heq]
      by_cases hin : r + (k + 1) ≤ n ∧ n < r + (k + 1) + ws.length
      · rw [if_pos hin, if_pos (by omega), show n - (r + k) = (n - (r + (k + 1))) + 1 by omega, List.getD_cons_succ]
      · rw [if_neg hin, if_neg (by omega)]

/-- Group g of team t holds scalars `S`. -/
def Holds (s : State) (t g : Nat) (S : Tbl Word) : Prop :=
  ∃ U G, s.teams.get? t = some U ∧ U.groups.get? g = some G ∧ G.s = S

theorem holds_writeAgent {s : State} {t g : Nat} {S : Tbl Word} (p : Nat) {r : Nat} (v : Word) (hr : r < 61) (h : Holds s t g S) :
    Holds (writeAgent s t (some g) p r v) t g (S.put r v) := by
  obtain ⟨U, G, hU, hG, rfl⟩ := h
  rw [writeAgent, writeS, if_neg (Nat.not_le.mpr hr), updGroup_of hU hG]
  exact ⟨_, _, setTeam_get _ _ _, setGroup_get _ _ _, rfl⟩

theorem holds_writeWords {t g : Nat} (p r : Nat) (ws : List (Word × Nat)) (hr : ∀ x ∈ ws, r + x.2 < 61) {s : State} {S : Tbl Word}
    (h : Holds s t g S) : Holds (ws.foldl (fun s x => writeAgent s t (some g) p (r + x.2) x.1) s) t g (putWords S r ws) := by
  induction ws generalizing s S with
  | nil => exact h
  | cons x ws ih =>
    exact ih (fun y hy => hr y (List.mem_cons_of_mem _ hy)) (holds_writeAgent p x.1 (hr x List.mem_cons_self) h)

theorem holds_updPath {s : State} {t g : Nat} {S : Tbl Word} (p : Nat) (f : Path → Path) (h : Holds s t g S) :
    Holds (updPath s t g p f) t g S := by
  obtain ⟨U, G, hU, hG, rfl⟩ := h
  rw [updPath, updGroup_of hU hG]
  exact ⟨_, _, setTeam_get _ _ _, setGroup_get _ _ _, rfl⟩

theorem holds_countClause {s : State} {t g : Nat} {S : Tbl Word} (h : Holds s t g S) : Holds (countClause s t) t g S := by
  obtain ⟨U, G, hU, hG, rfl⟩ := h
  rw [countClause_of hU]
  exact ⟨_, G, setTeam_get _ _ _, hG, rfl⟩

theorem envOf_names {s : State} {t g p : Nat} {e : Env} (h : envOf s t g p = some e) : e.t = t ∧ e.g = g := by
  simp only [envOf, Option.bind_eq_some_iff, Option.map_eq_some_iff] at h
  obtain ⟨T, -, G, -, P, -, rfl⟩ := h
  exact ⟨rfl, rfl⟩

/-- A word that retires after it has stood changes no scalar. -/
theorem holds_retireAt {s : State} {t g : Nat} {S : Tbl Word} (p : Nat) (h : Holds s t g S) : Holds (retireAt s t g p) t g S := by
  unfold retireAt
  split
  · next e he =>
    obtain ⟨rfl, rfl⟩ := envOf_names he
    simp only [retire, markSwitch, Bool.false_and, Bool.false_eq_true, if_false]
    split
    · exact holds_countClause (holds_updPath _ _ h)
    · exact holds_updPath _ _ h
  · exact h

/-! ## A receiver at its own home -/

section
variable {s : State} {id : Nat} {m : QueueMsg} {e : QEntry} {g : Nat} (hop : m.op = .wait) (hrlx : m.rlx = true)
  (hsrc : m.src = m.home)
include hop hrlx hsrc

theorem giveEntry_wait : giveEntry s id m e = retireAgent ((e.words.zip (List.range 8)).foldl
    (fun s x => writeAgent s m.team m.agent m.path (m.sa + x.2) x.1) { s with msgs := s.msgs.del id }) m.team m.agent m.path := by
  rw [giveEntry, answer_here _ _ _ _ _ hsrc, takeAnswer, hop]
  dsimp only
  rw [receive_relaxed _ _ _ _ hrlx]

theorem giveEntry_wait_teamsOnly : TeamsOnly { s with msgs := s.msgs.del id } (giveEntry s id m e) := by
  rw [giveEntry_wait hop hrlx hsrc]
  exact (TeamsOnly.foldl (fun _ _ => writeAgent_teamsOnly ..) _ _).trans (retireAgent_teamsOnly ..)

/-- A receiver's registers hold the entry's words. -/
theorem giveEntry_wait_holds (hagent : m.agent = some g) (hsa : m.sa + 8 ≤ 61) (hlen : e.words.length = 8) {S : Tbl Word}
    (h : Holds s m.team g S) : Holds (giveEntry s id m e) m.team g (putWords S m.sa (e.words.zip (List.range' 0 e.words.length))) := by
  rw [giveEntry_wait hop hrlx hsrc, hagent, hlen, ← List.range_eq_range']
  refine holds_retireAt _ (holds_writeWords _ _ _ (fun x hx => ?_) h)
  have := List.mem_range.mp (List.of_mem_zip hx).2
  omega

end

/-- An entry taken where no push waits for room. -/
theorem takeEntry_of_no_pushers (s : State) (key : Nat) {q : WorkQ} (id : Nat) (m : QueueMsg) (e : QEntry) (rest : List QEntry)
    (h : q.pushers = []) :
    takeEntry s key q id m e rest = giveEntry (noteQueue (updQueue s key fun q => { q with entries := rest }) key) id m e := by
  rw [takeEntry, h]
  rfl

/-! ## The event -/

section
variable {s : State} {id : Nat} {m : QueueMsg} {q : WorkQ} (hm : s.msgs.get? id = some m)
  (hq : s.workQs.get? (workKey m.ctx m.q) = some q) (hhome : m.atHome = false) (hanswer : m.answer = none) (hhops : m.hops = [])
  (hafter : ∀ r ∈ m.after, isSent s r = true)
include hm hq hhome hanswer hhops hafter

/-- What a queue word does at its queue's home. -/
theorem exec_queueRequestAtHome_of :
    let key := workKey m.ctx m.q
    let waitHere (f : WorkQ → WorkQ) : State := updQueue { s with msgs := s.msgs.upd id fun m => { m with atHome := true } } key f
    let room := q.entries.length < q.cap
    exec (.queueRequestAtHome id) s = .next (match m.op with
      | .push =>
        if room ∧ q.pushers = [] then answer (insertEntry s key (entryOfPush s m)) id m [] []
        else waitHere fun q => { q with pushers := q.pushers ++ [id] }
      | .pushTry => if room then answer (insertEntry s key (entryOfPush s m)) id m [1] [] else answer s id m [0] []
      | .wait =>
        match q.entries with
        | e :: rest => takeEntry s key q id m e rest
        | [] => waitHere fun q => { q with waiters := q.waiters ++ [id] }
      | .popTry =>
        match q.entries with
        | e :: rest => takeEntry s key q id m e rest
        | [] => answer s id m [] []) := by
  have hstands : (m.atHome || m.answer.isSome || !m.hops.isEmpty || !m.after.all (isSent s)) = false := by
    simpa [hhome, hanswer, hhops] using hafter
  change execQueueRequestAtHome id s = _
  simp only [execQueueRequestAtHome, hm, hq, hstands]
  cases m.op <;> simp <;> rfl

end

/-- Settles O44: what each queue word finds at the home, and what the home then does. -/
theorem queueHomeResults : Obligations.QueueHomeResults := by
  intro s id m q hm hq hhome hanswer hhops hafter key
  have hx := exec_queueRequestAtHome_of hm hq hhome hanswer hhops hafter
  refine ⟨⟨_, hx⟩, fun hop hroom hpush hwait => ?_, fun hop hfull hsrc => ?_, fun hop hempty hsrc => ?_, fun hop hfull => ?_,
    fun hop hrlx hsrc hpush e rest g hentries hagent hsa hlen T G hT hG hlate => ?_⟩
  · obtain ⟨hqs, hown, haway⟩ := answer_push (insertEntry s key (entryOfPush s m)) id m hop [] []
    simp only [hop] at hx
    rw [if_pos ⟨hroom, hpush⟩] at hx
    exact ⟨_, hx, hown, haway, by rw [hqs]; exact insertEntry_kept _ hq hwait⟩
  · simp only [hop] at hx
    rw [if_neg (Nat.not_lt.mpr hfull), answer_here _ _ _ _ _ hsrc, takeAnswer, hop] at hx
    exact hx
  · simp only [hop, hempty] at hx
    rw [answer_here _ _ _ _ _ hsrc, takeAnswer, hop] at hx
    exact hx
  · simp only [hop] at hx
    rw [if_neg (fun h => hfull.elim (Nat.not_le.mpr h.1) (· h.2))] at hx
    exact hx
  · simp only [hop, hentries] at hx
    rw [takeEntry_of_no_pushers _ _ _ _ _ _ hpush] at hx
    have honly := giveEntry_wait_teamsOnly (s := noteQueue (updQueue s key fun q => { q with entries := rest }) key) (id := id)
      (e := e) hop hrlx hsrc
    obtain ⟨U, G', hU, hG', hregs⟩ := giveEntry_wait_holds (s := noteQueue (updQueue s key fun q => { q with entries := rest }) key)
      (id := id) hop hrlx hsrc hagent hsa hlen ⟨T, G, hT, hG, rfl⟩
    refine ⟨_, U, G', hx, ?_, ?_, hU, hG', fun r => ?_⟩
    · rw [honly.workQs]
      simp [noteQueue, updQueue, hq, key]
    · rw [honly.msgs]
      exact Tbl.get?_del_same _ _
    · rw [hregs, putWords_getD, hlen]
      rfl

end Sys2Proof.Machine
end

section
/-! TEAMS COME, GO AND MOVE (O53; R331 to R342, R354 to R357, R374 to R380, R392, R397, R398): admission and the ends of residence,
restoration, migration, the seating of keys, and the rewriting of references. -/

namespace Sys2Proof.Machine

/-! ## Admission (R354, R357) -/

/-- Something is done for the launch that stands first in the order of R357. -/
theorem teamAdmit_first {s u : State} {k : Nat} {l : Launch} {rest : List (Nat × Launch)} (hfirst : admissionOrder s = (k, l) :: rest)
    (hkey : (s.ctx l.ctx).prot = true → keySeated s l.ctx = true) (hadmit : admitLaunch s k l = some u) :
    exec .teamAdmit s = .next u := by
  have hserve : serveLaunch s k l = some u := by
    rw [serveLaunch, if_neg (by simpa using hkey), hadmit]
  change execTeamAdmit s = _
  rw [execTeamAdmit, hfirst, List.findSome?_cons, hserve]

/-- Team t is resident, not halted, and named `i`. -/
def SeatedAs (s : State) (t : Nat) (i : TeamId) : Prop :=
  ∃ U, s.teams.get? t = some U ∧ U.id = i ∧ U.stat = .resident ∧ U.halted = false

theorem SeatedAs.updTeam {s : State} {t : Nat} {i : TeamId} (h : SeatedAs s t i) {f : Team → Team}
    (hf : ∀ T, (f T).id = T.id ∧ (f T).stat = T.stat ∧ (f T).halted = T.halted) : SeatedAs (updTeam s t f) t i := by
  obtain ⟨U, hU, hid, hstat, hhalt⟩ := h
  obtain ⟨hfid, hfstat, hfhalt⟩ := hf U
  rw [updTeam_of hU]
  exact ⟨_, setTeam_get _ _ _, hfid.trans hid, hfstat.trans hstat, hfhalt.trans hhalt⟩

theorem seatGroup_seatedAs {s : State} {core t g : Nat} {i : TeamId} (h : SeatedAs s t i) : SeatedAs (seatGroup s core t g) t i :=
  SeatedAs.updTeam (f := fun team => { team with groups := team.groups.upd g fun grp => { grp with
    slice := ((List.range (coreSlices core)).filter fun k => sliceGroups s core k < slicePlaces core).getD
      (Config.freeNat s.draw.1 % ((List.range (coreSlices core)).filter fun k => sliceGroups s core k < slicePlaces core).length) 0
    age := s.draw.2.fresh.1, score := 0 } }) h fun _ => ⟨rfl, rfl, rfl⟩

theorem seatTeam_seatedAs {s : State} {core t : Nat} {i : TeamId} (h : SeatedAs s t i) : SeatedAs (seatTeam s core t) t i := by
  unfold seatTeam
  split
  · exact h
  · exact foldl_inv (P := fun u => SeatedAs u t i) (fun u g hu => seatGroup_seatedAs hu) (h.updTeam fun _ => ⟨rfl, rfl, rfl⟩)

theorem occupy_teams (s : State) (core ctx : Nat) : (occupy s core ctx).teams = s.teams := by
  unfold occupy
  dsimp only
  split
  · rfl
  · rfl

/-- A team placed on a core is there, under a number that was free. -/
theorem makeTeam_seatedAs (s : State) (l : Launch) (num core : Nat) :
    SeatedAs (makeTeam s l num core) s.nextId { ctx := l.ctx, grid := l.grid, num, core, image := l.pref } := by
  refine seatTeam_seatedAs ?_
  rw [SeatedAs, occupy_teams]
  exact ⟨_, setTeam_get _ _ _, rfl, rfl, rfl⟩

theorem admitLaunch_one {s : State} {l : Launch} {n c : Nat} (m : Nat)
    (hplace : placeFor s l.fieldNo l.pref l.ctx (l.need l.pref) (soloOk s l) = some c) (hbatch : l.batch = [n]) :
    ∃ u, admitLaunch s m l = some u ∧ u.teams = (makeTeam s l n c).teams := by
  refine ⟨{ makeTeam s l n c with launches := (makeTeam s l n c).launches.upd m fun x => { x with todo := x.todo.drop l.batch.length } },
    ?_, rfl⟩
  rw [admitLaunch, hbatch, placeAll, placeOne, hplace]
  rfl

/-! ## The ends of residence (R374, R376, R377, R392) -/

section
variable {s : State} {t : Nat} {T : Team} (h : s.teams.get? t = some T)
include h

section
variable (hhalt : T.halted = false) (hstat : T.stat = .resident)
include hhalt hstat

theorem drainTimeout_saves {d : Nat} (hdrain : T.drain = some d) (hd : d < s.refclk) : exec (.drainTimeout t) s = .next (startSave s t) := by
  change execDrainTimeout t s = _
  simp [execDrainTimeout, h, hstat, hdrain, hd, hhalt]

theorem serviceLimitExpiry_saves (hlimit : ∃ f ∈ faultsOf s t, svcLimit s T.id.ctx < s.refclk - f.2.since) :
    exec (.serviceLimitExpiry t) s = .next (startSave s t) := by
  have hany : ((faultsOf s t).any fun e => decide (svcLimit s T.id.ctx < s.refclk - e.2.since)) = true := by
    simpa [List.any_eq_true] using hlimit
  change execServiceLimitExpiry t s = _
  simp only [execServiceLimitExpiry, h, hstat, hhalt, hany]
  rfl

omit hhalt in
theorem startSave_saving : ∃ U, (startSave s t).teams.get? t = some U ∧ U.stat = .saving ∧ U.drain = none := by
  rw [startSave, updTeam_of h, hstat]
  exact ⟨_, setTeam_get _ _ _, rfl, rfl⟩

end

theorem teamSaveComplete_saves (hready : saveReady s t T = true) : exec (.teamSaveComplete t) s = .next (saveTeam s t) := by
  change execTeamSaveComplete t s = _
  simp only [execTeamSaveComplete, h, hready, if_true]

end

/-- The world that a clear sequence ends in. -/
def clearedWorld : Option Nat → World
  | some c => .prot c
  | none => .ordinary

theorem clearSequenceDone_clears {s : State} {core : Nat} {w : Option Nat} (hworld : (s.core core).world = .clearing w)
    (hfence : (s.core core).fenced = false) :
    ∃ u c, exec (.clearSequenceDone core) s = .next u ∧ u.core core = Core.cleared c core (clearedWorld w) := by
  let v := (s.core core).l1.lines.foldl (fun s l => l1CleanLine s core l.1) s
  refine ⟨v.setCore core ((v.core core).cleared core (clearedWorld w)), v.core core, ?_, State.core_setCore _ _ _⟩
  change execClearSequenceDone core s = _
  rw [execClearSequenceDone, hworld]
  dsimp only
  rw [if_neg (by simp [hfence])]
  cases w <;> rfl

theorem residenceEvents : residenceEventsRule := by
  intro s t T
  refine ⟨fun k l rest u => teamAdmit_first, fun l n m c hplace hbatch => ?_, fun h hhalt hstat =>
    ⟨fun d => drainTimeout_saves h hhalt hstat, serviceLimitExpiry_saves h hhalt hstat, startSave_saving h hstat⟩,
    teamSaveComplete_saves, fun core w hworld hfence => ?_⟩
  · obtain ⟨u, hadmit, hteams⟩ := admitLaunch_one m hplace hbatch
    obtain ⟨U, hU, hid, hstat, hhalt⟩ := makeTeam_seatedAs s l n c
    exact ⟨u, U, hadmit, hteams ▸ hU, by rw [hid], by rw [hid], by rw [hid], hstat, hhalt⟩
  · obtain ⟨u, c, hx, hcore⟩ := clearSequenceDone_clears hworld hfence
    refine ⟨u, hx, ?_⟩
    rw [hcore]
    cases w <;> exact ⟨rfl, rfl, rfl, rfl, rfl⟩

/-! ## Restoration (R342, R380) -/

section
variable {s : State} {t slot c : Nat} {T : Team} {l : Launch}

theorem spotFor_core {f image ctx : Nat} {n : Need} {also : Nat → Bool} (h : placeFor s f image ctx n also = some c) :
    spotFor s f image ctx n also = .core c := by
  rw [spotFor, h]

theorem restoreOwn_core (h : placeFor s l.fieldNo T.id.image T.id.ctx (T.need l T.id.image) (soloOk s l) = some c) :
    restoreOwn s t slot T l = some (restoreTeam s t c slot) := by
  simp only [restoreOwn, spotFor_core h]

theorem restoreOwn_clear (h : spotFor s l.fieldNo T.id.image T.id.ctx (T.need l T.id.image) (soloOk s l) = .clear c) :
    restoreOwn s t slot T l = some (beginClear s c T.id.ctx) := by
  simp only [restoreOwn, h]

variable (h : s.teams.get? t = some T) (hl : launchOf s T = some l)
include h hl

/-- A team that goes nowhere but on its own kind. -/
theorem teamRestore_own {ok : Bool} {u : State} (hstat : T.stat = .saved slot ok) (hready : restorable s t T = true)
    (hother : restoreOther s t slot T l = none) (hown : restoreOwn s t slot T l = some u) : exec (.teamRestore t) s = .next u := by
  change execTeamRestore t s = _
  simp only [execTeamRestore, h, Option.bind_some, hl, hstat, hready, hother, hown]
  rfl

/-! ## Migration (R338 to R341) -/

theorem migration_of_ready {v : State} {V : Team} (hpoint : eqpReady T ≠ none) (hactive : T.active = true) (hdrained : drained s t T = true)
    (hv : landTeam s t = v) (hV : v.teams.get? t = some V) : exec (.migration t) s = migrate v t V l := by
  have hpoint' : (eqpReady T).isNone = false := Option.isNone_eq_false_iff.mpr (Option.isSome_iff_ne_none.mpr hpoint)
  change execMigration t s = _
  simp only [execMigration, h, Option.bind_some, hl, hpoint', hactive, hdrained, hv, hV]
  rfl

end

section
variable {s : State} {t n : Nat} {T : Team} {l : Launch} (hn : eqpReady T = some n)
include hn

theorem migrate_unreadable {x : Nat × Nat} (hbad : mapFails s T.id.ctx (l.num 40 8) n (imageOf T.target) = some x) :
    migrate s t T l = .next (failMove s t T x) := by
  simp only [migrate, moveOf, hn, hbad, Option.map_some]

section
variable (hbad : mapFails s T.id.ctx (l.num 40 8) n (imageOf T.target) = none)
include hbad

theorem migrate_mismatch {d : Nat}
    (hcheck : migrateCheck T l (imageOf T.target) (mapTable s T.id.ctx (l.num 40 8) n (imageOf T.target)) = some d) :
    migrate s t T l = .next (failMove s t T (0x10, d)) := by
  simp only [migrate, moveOf, hn, hbad, hcheck, Option.map_some]

/-- A team that passes its checks goes by the place that it finds. -/
theorem migrate_placed {m : MapTable} (htable : mapTable s T.id.ctx (l.num 40 8) n (imageOf T.target) = some m)
    (hcheck : migrateCheck T l (imageOf T.target) (some m) = none) :
    migrate s t T l =
      match spotFor s l.fieldNo (imageOf T.target) T.id.ctx (moveNeed T l (imageOf T.target) m) (fun _ => true) with
      | .nowhere => .next (passAll s t)
      | .wait => idle "MIGRATION"
      | .clear c => .next (beginClear s c T.id.ctx)
      | .core c =>
        if leavesDirty s t T then .next (leaveHome s t T)
        else if leftSent s T then .next (migrateTo s t c n (imageOf T.target) T l m)
        else idle "MIGRATION" := by
  simp only [migrate, moveOf, hn, hbad, htable, hcheck, Option.map_some] <;> rfl

end
end

/-! ## Keys (R397, R398) -/

section
variable {s : State} {ctx : Nat} {k : KeyRec} (hparked : s.keys.parked.contains ctx = true) (hwants : wantsKey s ctx = true)
  (hopen : openRecord s ctx = some k)
include hparked hwants hopen

theorem keyReseat_free {slot : Nat} (hplace : keyPlace s (fun x => (s.ctxLive x).sched != 0) = .free slot) :
    exec (.keyReseat ctx) s = .next (seatKey s slot ctx k) := by
  change execKeyReseat ctx s = _
  unfold execKeyReseat
  rw [hparked, hwants, hopen, hplace]
  rfl

theorem keyReseat_parks {u : State} (hplace : keyPlace s (fun x => (s.ctxLive x).sched != 0) = .parks u) :
    exec (.keyReseat ctx) s = .next u := by
  change execKeyReseat ctx s = _
  unfold execKeyReseat
  rw [hparked, hwants, hopen, hplace]
  rfl

end

/-! ## References (R333) -/

/-- The teams stay. -/
def TeamsKept (s u : State) : Prop := u.teams = s.teams

theorem foldl_teamsKept {α : Type} {f : State → α → State} (hf : ∀ u x, TeamsKept u (f u x)) (l : List α) (s : State) :
    TeamsKept s (l.foldl f s) :=
  foldl_inv (P := TeamsKept s) (fun u x hu => (hf u x).trans hu) rfl

theorem WroteOnly.teamsKept {s u : State} (h : WroteOnly s u) : TeamsKept s u := h.teams

theorem putRange_teamsKept (s : State) (die ctx va n : Nat) (byte : Nat → Byte) : TeamsKept s (putRange s die ctx va n byte) := by
  unfold putRange
  split
  · split
    · rfl
    · split
      · rfl
      · exact (clearPoison_wroteOnly _ _).teams
  · rfl

theorem moveDirectory_teamsKept (s : State) (ctx dir : Nat) (m : Nat × Nat × Nat) : TeamsKept s (moveDirectory s ctx dir m) := by
  unfold moveDirectory
  split
  · rfl
  · split
    · rfl
    · refine foldl_teamsKept (fun u i => foldl_teamsKept (fun u o => ?_) _ u) _ s
      dsimp only
      split
      · split
        · exact (vaWrite_wroteOnly _ _ _ _ _).teams
        · rfl
      · rfl

theorem moveRecords_teamsKept (s : State) (old new : Team) : TeamsKept s (moveRecords s old new) := by
  unfold moveRecords
  split
  · extract_lets die ctx base v
    have hblocks : TeamsKept s v := by
      refine foldl_teamsKept (fun u e => ?_) _ s
      dsimp only
      split
      · rfl
      · exact putRange_teamsKept ..
    split
    · exact hblocks
    · exact (putRange_teamsKept ..).trans hblocks
  · rfl

theorem beginMove_teamsKept (s : State) (ctx : Nat) (m : Nat × Nat × Nat) : TeamsKept s (beginMove s ctx m) :=
  foldl_teamsKept (fun _ _ => moveDirectory_teamsKept ..) _ s

theorem moveTeams_teams (s : State) (ctx : Nat) (m : Nat × Nat × Nat) :
    (moveTeams s ctx m).teams = s.teams.mapVals fun _ y => if y.id.ctx = ctx then y.moved m else y := by
  refine foldl_teamsKept (fun u e => ?_) _ _
  split
  · split
    · exact moveRecords_teamsKept ..
    · rfl
  · rfl

/-- The references of a context are rewritten, and the move lasts while any is left. -/
theorem referenceRewrite_moves {s : State} {ctx k : Nat} {x : BitVec 256} (hx : ((s.core 0).fwd.getD ctx [])[k]? = some x)
    (hvalid : x.getLsbD 63 = true) (hmoving : ∀ y ∈ (s.ctxLive ctx).moving, y = rangeOf x) :
    ∃ u, exec (.referenceRewrite ctx k) s = .next u ∧
      (u.teams = s.teams.mapVals fun _ y => if y.id.ctx = ctx then y.moved (rangeOf x) else y) ∧
      (u.ctxLive ctx).moving =
        if u.teams.any (fun e => e.2.id.ctx == ctx && e.2.refers (rangeOf x)) then some (rangeOf x) else none := by
  have hother : (!x.getLsbD 63 || (s.ctxLive ctx).moving.any (· != rangeOf x)) = false := by
    rw [hvalid, Bool.not_true, Bool.false_or, Option.any_eq_false]
    simpa using hmoving
  let v := if (s.ctxLive ctx).moving.isNone then beginMove s ctx (rangeOf x) else s
  have hv : v.teams = s.teams := by
    unfold v
    split
    · exact beginMove_teamsKept ..
    · rfl
  let w := moveTeams v ctx (rangeOf x)
  let left := w.teams.any fun e => e.2.id.ctx == ctx && e.2.refers (rangeOf x)
  refine ⟨{ w with live := w.live.put ctx { w.ctxLive ctx with moving := if left then some (rangeOf x) else none } }, ?_, ?_, ?_⟩
  · change execReferenceRewrite ctx k s = _
    simp only [execReferenceRewrite, hx, hother]
    rfl
  · exact (moveTeams_teams v ctx (rangeOf x)).trans (by rw [hv])
  · rw [State.ctxLive, Tbl.getD_put_same]

theorem movementEvents : movementEventsRule := by
  intro s t T l h hl
  refine ⟨fun slot ok hstat hready hother => ⟨fun c hc => ?_, fun c hc => ?_⟩,
    fun n v V hpoint hactive hdrained hv hV hn => ?_,
    fun ctx k slot u hparked hwants hopen => ⟨keyReseat_free hparked hwants hopen, keyReseat_parks hparked hwants hopen⟩,
    fun ctx k x => referenceRewrite_moves⟩
  · exact teamRestore_own h hl hstat hready hother (restoreOwn_core hc)
  · exact teamRestore_own h hl hstat hready hother (restoreOwn_clear hc)
  · rw [migration_of_ready h hl hpoint hactive hdrained hv hV]
    refine ⟨fun x => migrate_unreadable hn, fun d hbad hcheck => migrate_mismatch hn hbad hcheck, fun m hbad htable hcheck => ?_⟩
    rw [migrate_placed hn hbad htable (htable ▸ hcheck)]
    intro spot
    refine ⟨fun hspot => ?_, fun c hspot => ?_, fun c hspot hdirty => ?_, fun c hspot hdirty hsent => ?_⟩
    all_goals rw [show spotFor v l.fieldNo (imageOf V.target) V.id.ctx (moveNeed V l (imageOf V.target) m) (fun _ => true) = _ from hspot]
    · exact if_pos hdirty
    · exact (if_neg (by simp [hdirty])).trans (if_pos hsent)

/-- Settles O53: residence, and movement by its checks and places. -/
theorem teamMovement : Obligations.TeamMovement := ⟨residenceEvents, movementEvents⟩

end Sys2Proof.Machine
end

section
/-! FLOATING-POINT VECTOR WORDS (O16; R268 to R280): each computes the lanes and the flags of its table. -/

namespace Sys2Proof.Machine

section
variable {s : State} {e : Env} {i : Instr} {v : VecSpec} (h : GroupAt s e 0)
include h

/-- A conversion writes one name or a pair, as its destination code says (R271). -/
theorem computes_vcvt {w n : Bool} {c t : BitVec 4} {d a : BitVec 7} {r : BitVec 2}
    (hv : floatVec s e (.vcvt w c d a t r n) = some v) : Computes s e (.vcvt w c d a t r n) v := by
  simp only [floatVec] at hv
  split at hv <;> cases hv
  case isTrue ht =>
    apply Computes.of_runV h
    · simp only [exec_vcvt, execVcvt, if_pos ht, Bool.or_eq_true, decide_eq_true_eq]
      rfl
    · rfl
  case isFalse ht =>
    apply Computes.of_runV h
    · simp only [exec_vcvt, execVcvt, if_neg ht, Bool.or_eq_true, decide_eq_true_eq]
      rfl
    · rfl

/-- Every word of the table computes its lanes as the table says. -/
theorem computes_of_floatVec (hv : floatVec s e i = some v) : Computes s e i v := by
  unfold floatVec at hv
  split at hv
  case h_17 => exact computes_vcvt h hv
  case h_22 => -- vtrit
    cases hv
    exact .of_runV h rfl (by simp [lanesWithFlags, bits, code32, laneAt, laneOf])
  all_goals cases hv
  all_goals exact .of_runV h rfl rfl

section
variable {w : Bool} {d a : BitVec 7}

theorem computes_fred32 {m : Mode} {unit : FV} {op : FV → FV → FV × Nat} (hv : floatReduce.one e w d a m unit op = some v)
    (hexec : exec i s = fred32 w d a s m unit op) : Computes s e i v := by
  cases hv
  refine .of_runV h hexec ?_
  generalize reduce96 = tree
  rfl

theorem computes_fred64 {unit : FV} {op : FV → FV → FV × Nat} (hv : floatReduce.wide e w d a unit op = some v)
    (hexec : exec i s = fred64 w d a s unit op) : Computes s e i v := by
  cases hv
  refine .of_runV h hexec ?_
  generalize reduce96 = tree
  rfl

end

/-- Every reduction and scan of the table computes its lanes as the table says. -/
theorem computes_of_floatReduce (hv : floatReduce e i = some v) : Computes s e i v := by
  unfold floatReduce at hv
  split at hv
  case h_1 => exact computes_fred32 h hv (exec_vfredAddF32 ..)
  case h_2 => exact computes_fred32 h hv (exec_vfredMaxF32 ..)
  case h_3 => exact computes_fred32 h hv (exec_vfredMinF32 ..)
  case h_4 => exact computes_fred64 h hv (exec_vfredAddF64 ..)
  case h_5 => exact computes_fred64 h hv (exec_vfredMaxF64 ..)
  case h_6 => exact computes_fred64 h hv (exec_vfredMinF64 ..)
  all_goals cases hv
  all_goals
    refine .of_runV h rfl ?_
    generalize fscan = scan
    rfl

end

/-- Settles O16: each word computes the lanes and flags of its table, and such a word has its effect once its names are mapped, its rows
can be had and no flag of it is enabled. -/
theorem floatVectorResults : Obligations.FloatVectorResults := by
  intro s e i v h _ hv hsrcs hdsts hflags
  have hi : Computes s e i v := hv.elim (computes_of_floatVec h) (computes_of_floatReduce h)
  exact hi.completes hsrcs hdsts hflags

end Sys2Proof.Machine
end
